-- ==== Sys2Proof/Word.lean ====
section
/-! DEFINITION. The words of the Salol: bytes, 16-, 32- and 64-bit words, and the
little-endian reading of a byte list (R3). -/

namespace Sys2Proof

/-- One byte of a structure, of sheet memory or of peat memory. -/
abbrev Byte := BitVec 8
/-- A BF16 word, or a 16-bit field. -/
abbrev W16 := BitVec 16
/-- A register (R5), an FP32 word or a 32-bit field. -/
abbrev W32 := BitVec 32
/-- A 64-bit field. -/
abbrev W64 := BitVec 64
/-- A partition number, 0-3 (R22). -/
abbrev Part := Fin 4
/-- A host port number, HP0-HP3 (R20). -/
abbrev Port := Fin 4
/-- A tile site, row x 8 + column (R12). -/
abbrev Site := Fin 64

/-- The little-endian value of a byte list (R3): the first byte is the least significant. -/
def leNat : List Byte → Nat
  | [] => 0
  | b :: bs => b.toNat + 256 * leNat bs

/-- The `n` bytes of a number, least significant first (R3). -/
def leBytes : Nat → Nat → List Byte
  | 0, _ => []
  | n + 1, v => BitVec.ofNat 8 v :: leBytes n (v / 256)

/-- The field of `n` bytes at offset `o` of a structure, little-endian (R3). -/
def field (bs : List Byte) (o n : Nat) : Nat := leNat ((bs.drop o).take n)

end Sys2Proof
end

