-- ==== Sys2Proof/Syntax.lean ====
section
/-! DEFINITION. The commands of the block: one constructor of `Instr` for every row of
the table of operations and events, in the table's order. An operand is what the world outside
brings with the command: a port, a value written, the bytes a read of host memory
returned, what a sensor or a decoder showed. -/

namespace Sys2Proof

/-- What a read of host memory brought back (R56, R64). -/
inductive ReadResult where
  /-- The bytes read. -/
  | ok (bytes : List Byte)
  /-- No completion for 50 ms. -/
  | timeout
  /-- A poisoned completion. -/
  | poisoned
  /-- An unsuccessful completion. -/
  | unsuccessful
  deriving DecidableEq, Repr

/-- Where commands are taken from: a partition's queue subblock, or the owner queue subblock (R410). -/
inductive Src where
  | part (p : Part)
  | owner
  deriving DecidableEq, Repr

/-- What the decoder of R82 found in a block or chunk that does not hold the poison pattern.
The wire is the die-channel wire of a correction, where the error was on one (R336). -/
inductive Outcome where
  | clean
  | corrected (wire : Option Nat)
  | uncorrectable
  /-- An error in three or more symbols that the decoder takes for no error, or for one that it corrects: what it delivers. -/
  | missed (data : List Byte) (corrected : Bool)
  deriving DecidableEq, Repr

/-- The decoder outcomes of a command that reads several blocks: a block or chunk that is not listed
reads CLEAN (or POISONED where it holds the poison pattern). Keys are block addresses / 64, or peat chunk numbers. -/
abbrev Errs := List (Nat × Outcome)

/-- A die: logical tile or site, and die number. -/
structure DieId where
  site : Site
  die : Fin 16
  deriving DecidableEq, Repr

/-- A bank of sheet memory. -/
structure BankId where
  site : Site
  die : Fin 16
  bank : Fin 64
  deriving DecidableEq, Repr

/-- What the boot checks measure (R382). -/
structure BootEnv where
  /-- Coolant inlet, °C. -/
  inlet : Nat
  /-- Coolant flow in 0.1 L/min. -/
  flow : Nat
  /-- Input voltage in 10 mV. -/
  volts : Nat
  /-- Dies whose channel training failed (R330 rung 5). -/
  trainFailed : List DieId
  deriving DecidableEq, Repr

/-- One reading of the temperature and coolant sensors (R389). -/
structure Thermal where
  maxLogic : Nat
  logicSite : Site
  maxDram : Nat
  dramSite : Site
  inlet : Nat
  outlet : Nat
  /-- 0.1 L/min -/
  flow : Nat
  deriving DecidableEq, Repr

/-- What a self-test found (R372). -/
inductive Finding where
  /-- A memory row that fails: die, bank and original row of the tested site. -/
  | row (die : Fin 16) (bank : Fin 64) (row : Nat) (spareOk : Bool)
  /-- A failing core: cluster, physical core. -/
  | core (cluster : Nat) (core : Nat)
  /-- A failing cluster. -/
  | cluster (cluster : Nat)
  /-- A failing matrix engine. -/
  | engine (engine : Nat)
  /-- The tile is beyond rung 6. -/
  | tile
  deriving DecidableEq, Repr

/-- The three limits of self-test as measured (R367, R375). -/
structure BistEnv where
  /-- Supply error in 0.1 % units. -/
  supply : Int
  /-- Clock error in ppm. -/
  clock : Int
  /-- Die temperature, °C. -/
  temp : Nat
  deriving DecidableEq, Repr

/-- One near-bank command word (R106), as its 16 bytes' fields. -/
structure NbWord where
  op : Nat
  fmt : Nat
  voff : Nat
  row : Nat
  len : Nat
  acc : Nat
  accN : Nat
  aux : Nat
  deriving DecidableEq, Repr

/-- A near-bank sequence header (R105). -/
structure NbHeader where
  banks : W64
  die : Fin 16
  cls : Fin 4
  doneLine : Nat
  doneWord : Fin 16
  doneTile : Nat
  deriving DecidableEq, Repr

/-- The speed a link trains to (R56). -/
inductive LinkSpeed where
  | gt64 | gt32 | gt16 | gt8 | gt5 | gt2
  deriving DecidableEq, Repr

/-- A port whose link has trained, to how many lanes and to which speed (R56). -/
structure Trained where
  port : Port
  lanes : Nat
  speed : LinkSpeed
  deriving DecidableEq, Repr

/-- What a write through BAR4 brings, and whether it is an atomic operation request (R62). -/
structure Bar4Data where
  bytes : List Byte
  atomic : Bool := false
  deriving DecidableEq, Repr

/-- From the logical tile that issues a sequence or a message to the one that it names (R104, R128, R199). -/
structure Hop where
  issuer : Nat
  tile : Nat
  deriving DecidableEq, Repr

/-- The word of a line that an atomic operation changes, and whether its issuer has the old value returned (R95). -/
structure AtomWord where
  word : Fin 16
  ret : Bool
  deriving DecidableEq, Repr

/-- The shared-cache atomic operations that a reduction message may carry (R95, R96). [DESIGN CHOICE: log 62] -/
inductive AtomKind where
  | fp32Add | bf16PairAdd | max | min | int32Add | swap
  deriving DecidableEq, Repr

/-- A received ring frame, as the line gave it (R308): the 128 bits, whether every bit was a valid
Manchester symbol, and the ring's arrival instant relative to the previous SYNC (R312). -/
structure RingFrame where
  bits : BitVec 128
  manchesterOk : Bool
  deriving DecidableEq, Repr

/-- Who makes a sheet-memory access (R84, R100, R353). -/
inductive Requester where
  | part (p : Part)
  | scrub
  deriving DecidableEq, Repr

/-- The commands of the block, one constructor for each row of the table. -/
inductive Instr where
  /-- R261 -/
  | reqOpen (src : Src)
  /-- R269 -/
  | reqAppend (src : Src)
  /-- R271 -/
  | reqClose (src : Src)
  /-- R270 -/
  | reqPark (src : Src)
  /-- R188 -/
  | modelLoad (src : Src)
  /-- R189 -/
  | modelLoadDone (p : Part) (handle : Nat)
  /-- R191 -/
  | modelUnload (src : Src)
  /-- R228 -/
  | pageReserve (src : Src)
  /-- R281 -/
  | indexInsert (src : Src)
  /-- R281 -/
  | indexCopyDone (p : Part)
  /-- R282 -/
  | indexRemove (src : Src)
  /-- R46 -/
  | prtStop (src : Src)
  /-- R48 -/
  | prtStart (src : Src)
  /-- R369 -/
  | bistRun (src : Src) (env : BistEnv)
  /-- R302 -/
  | billetSupply (src : Src)
  /-- R67 -/
  | badOpcode (src : Src)
  /-- R65 -/
  | commandFetch (src : Src) (entry : ReadResult)
  /-- R64: a 32-bit write at a BAR2 offset. -/
  | doorbell (port : Port) (offset : Nat) (value : W32)
  /-- R63 -/
  | cmdqCfgWrite (port : Port) (sub : Src) (q : Fin 64) (value : W32)
  /-- R63 -/
  | evqCfgWrite (port : Port) (sub : Src) (e : Fin 16) (value : W32)
  /-- R72 -/
  | evqHeadWrite (port : Port) (sub : Src) (e : Fin 16) (value : W32)
  /-- R73 -/
  | evqCoalesceTimeout (sub : Src) (e : Fin 16)
  /-- R405 -/
  | msixUnmask (port : Port) (vector : Fin 256)
  /-- R44 -/
  | klnBegin (port : Port)
  /-- R28 -/
  | klnLoad (port : Port) (value : W32)
  /-- R45 -/
  | prtKlnBegin (port : Port) (p : Part)
  /-- R45 -/
  | prtKlnLoad (port : Port) (p : Part) (value : W32)
  /-- R46 -/
  | prtCtrlStop (port : Port) (p : Part)
  /-- R48 -/
  | prtCtrlStart (port : Port) (p : Part)
  /-- R46 -/
  | partitionStopDone (p : Part)
  /-- R49 -/
  | zeroiseDone (p : Part)
  /-- R62 -/
  | bar4Read (port : Port) (offset len : Nat) (errs : Errs)
  /-- R62 -/
  | bar4Write (port : Port) (offset : Nat) (data : Bar4Data) (errs : Errs)
  /-- R97 -/
  | memMarginHold (port : Port)
  /-- R98 -/
  | memMarginRelease (port : Port)
  /-- R99: a write of MEM_MARGIN_RUN with RUN set. -/
  | memMarginRun (port : Port) (logTransfers : BitVec 5)
  /-- R101: failed transfers, and the lowest failed wire. -/
  | marginDone (errors : Nat) (firstWire : Option (Fin 584))
  /-- R303 -/
  | peatMarginHold (port : Port)
  /-- R304 -/
  | peatMarginRelease (port : Port)
  /-- R304 -/
  | peatMarginRun (port : Port) (logTransfers : BitVec 5)
  /-- R306 -/
  | peatMarginDone (errors : Nat) (firstLane : Option (Fin 18))
  /-- R217: a write of KV_PRT_FMT with APPLY set. -/
  | kvFmtApply (port : Port) (p : Part) (format : Byte)
  /-- R329 -/
  | fltPrtRelease (port : Port) (p : Part)
  /-- R329 -/
  | fltFatalClear (port : Port)
  /-- R338 -/
  | autoSpareSet (port : Port)
  /-- R362 -/
  | secFwBegin (port : Port)
  /-- R362 -/
  | secFwLoad (port : Port) (value : W32)
  /-- R361 -/
  | secFwCheck (port : Port)
  /-- R362 -/
  | fwLoadDone
  /-- R362 -/
  | secFwActivate (port : Port)
  /-- R363 -/
  | secFwEnrol (port : Port)
  /-- R364 -/
  | secFwCommitSvn (port : Port)
  /-- R310 -/
  | ringSetTime (port : Port)
  /-- R309 -/
  | ringCfgWrite (port : Port) (value : W32)
  /-- R382 -/
  | pwrCtrlOn (port : Port)
  /-- R381 -/
  | pwrCtrlStandby (port : Port)
  /-- R6: a write at a BAR0 offset of a size in bytes. -/
  | registerWrite (port : Port) (offset size : Nat) (value : W32)
  /-- R383: the three strap samples of R322, bits 3 RING_MASTER, 2 BOOT_SEL, 1:0 OWNER_SEL. -/
  | pwrEnRise (s1 s2 s3 : BitVec 4)
  /-- R21: which corners pass, and what the boot checks measure. -/
  | bootSelfCheckDone (passed : BitVec 4) (env : BootEnv)
  /-- R382 -/
  | standbyCheckTick (env : BootEnv)
  /-- R368: findings by site, and the sites whose limits failed. -/
  | postDone (findings : List (Site × Finding)) (skipped : List Site)
  /-- R383 -/
  | peatInitDone
  /-- R385 -/
  | pwrEnFall
  /-- R378 -/
  | undervoltage
  /-- R378 -/
  | overvoltage
  /-- R378 -/
  | overcurrent
  /-- R386 -/
  | modResetAssert
  /-- R386 -/
  | modResetDeassert
  /-- R321 -/
  | brakeAssert
  /-- R321 -/
  | brakeDeassert
  /-- R321 -/
  | brakeDwellEnd
  /-- R321 -/
  | brakeHeld
  /-- R387: input power, W. -/
  | brakeShareTick (watts : Nat)
  /-- R387: mean input power over 1 ms, W; input current, 0.1 A; input voltage, 10 mV. -/
  | powerLimitTick (watts current volts : Nat)
  /-- R389 -/
  | thermalSample (t : Thermal)
  /-- R322: the straps' levels now. -/
  | strapChanged (levels : BitVec 4)
  /-- R320 -/
  | alertHoldExpiry
  /-- R395: the number of the sensor asked for. -/
  | smbusRequest (sensor : Nat)
  /-- R320 -/
  | smbusClkTimeout
  /-- R365: the instruction loaded. -/
  | testAccessEntry (instruction : W64)
  /-- R365 -/
  | testAccessClearDone
  /-- R58 -/
  | perstAssert (port : Port)
  /-- R58 -/
  | hotReset (port : Port)
  /-- R58 -/
  | linkDisable (port : Port)
  /-- R58 -/
  | linkLost (port : Port)
  /-- R58 -/
  | linkUp (link : Trained)
  /-- R53 -/
  | flr (port : Port)
  /-- R56: the completion of the outstanding read with this tag. -/
  | hostReadDone (port : Port) (tag : Nat) (data : ReadResult)
  /-- R56 -/
  | completionTimeout (port : Port) (tag : Nat)
  /-- R56: lanes asked for. -/
  | l0pWidthRequest (port : Port) (lanes : Nat)
  /-- R359: the direction, 0 receive or 1 transmit. -/
  | ideCheckFail (port : Port) (dir : Fin 2)
  /-- R356 -/
  | getVersion (port : Port)
  /-- R356 -/
  | getCapabilities (port : Port)
  /-- R356 -/
  | negotiateAlgorithms (port : Port)
  /-- R356 -/
  | getDigests (port : Port)
  /-- R355: slot, offset and length of the certificate chain asked for. -/
  | getCertificate (port : Port) (slot offset len : Nat)
  /-- R356 -/
  | challenge (port : Port) (nonce : List Byte)
  /-- R357: 0xFF asks for every block. -/
  | getMeasurements (port : Port) (index : Nat) (sign : Bool) (nonce : List Byte)
  /-- R356 -/
  | keyExchange (port : Port) (exchange : List Byte)
  /-- R356: the session and its verify data. -/
  | finish (port : Port) (session : Nat) (verify : List Byte)
  /-- R356 -/
  | heartbeat (port : Port) (session : Nat)
  /-- R356 -/
  | keyUpdate (port : Port) (session : Nat)
  /-- R356 -/
  | endSession (port : Port) (session : Nat)
  /-- R359: session, key set, direction and key. -/
  | ideKm (port : Port) (session : Nat) (kset dir : Fin 2) (key : List Byte)
  /-- R266 -/
  | stepForm (p : Part)
  /-- R208 -/
  | stepHeadStart (p : Part) (errs : Errs)
  /-- R209 -/
  | cadenceMark (p : Part) (errs : Errs)
  /-- R296 -/
  | stagingDone (p : Part) (handle region : Nat) (errs : Errs)
  /-- R297 -/
  | programStart (p : Part)
  /-- R199: the logical tile of the counter that missed its count. -/
  | collectiveTimeout (p : Part) (tile : Nat)
  /-- R196 -/
  | stepCommit (p : Part)
  /-- R272 -/
  | deadlineReached (p : Part) (request : Nat)
  /-- R271 -/
  | endOnlyRecord (p : Part) (request : Nat)
  /-- R284 -/
  | slotBoundary (slot : Nat)
  /-- R40 -/
  | slotZeroiseDone (slot : Nat)
  /-- R172 -/
  | embed (p : Part) (handle : Nat) (errs : Errs)
  /-- R173 -/
  | rmsNorm (p : Part) (handle : Nat) (errs : Errs)
  /-- R173 -/
  | layerNorm (p : Part) (handle : Nat) (errs : Errs)
  /-- R174 -/
  | linear (p : Part) (handle : Nat) (errs : Errs)
  /-- R175 -/
  | rope (p : Part) (handle : Nat)
  /-- R176 -/
  | kvAppend (p : Part) (handle : Nat)
  /-- R177 -/
  | attend (p : Part) (handle : Nat) (errs : Errs)
  /-- R179 -/
  | act (p : Part) (handle : Nat)
  /-- R180 -/
  | route (p : Part) (handle : Nat) (errs : Errs)
  /-- R181 -/
  | combine (p : Part) (handle : Nat)
  /-- R182 -/
  | add (p : Part) (handle : Nat)
  /-- R183 -/
  | logits (p : Part) (handle : Nat) (errs : Errs)
  /-- R184 -/
  | sample (p : Part) (handle : Nat)
  /-- R185 -/
  | season (p : Part) (handle : Nat)
  /-- R185 -/
  | scatter (p : Part) (handle : Nat) (errs : Errs)
  /-- R232: model and page number. -/
  | spillDone (p : Part) (handle page : Nat) (errs : Errs)
  /-- R233 -/
  | fetchDone (p : Part) (handle page : Nat) (errs : Errs)
  /-- R280 -/
  | prefixCopyDone (p : Part) (request : Nat) (errs : Errs)
  /-- R104: issuing tile, header, command words. -/
  | nbSequenceSubmit (hop : Hop) (hdr : BitVec 128) (words : List (BitVec 128))
  /-- R107 -/
  | nbClear (bank : BankId)
  /-- R107 -/
  | nbLoadv (bank : BankId)
  /-- R110; `parity` is a parity error of the unit (R126). -/
  | nbGemv (bank : BankId) (errs : Errs) (parity : Bool)
  /-- R111 -/
  | nbDot (bank : BankId) (errs : Errs) (parity : Bool)
  /-- R112 -/
  | nbAxpy (bank : BankId) (errs : Errs) (parity : Bool)
  /-- R107 -/
  | nbReadacc (bank : BankId)
  /-- R124 -/
  | nbStore (bank : BankId)
  /-- R127 -/
  | nbCopy (bank : BankId) (errs : Errs)
  /-- R109 -/
  | nbMalformed (bank : BankId)
  /-- R95: tile, scratch line, word, operand. -/
  | atomicFp32Add (tile line : Nat) (word : AtomWord) (v : W32)
  /-- R95 -/
  | atomicBf16PairAdd (tile line : Nat) (word : AtomWord) (v : W32)
  /-- R95 -/
  | atomicMax (tile line : Nat) (word : AtomWord) (v : W32)
  /-- R95 -/
  | atomicMin (tile line : Nat) (word : AtomWord) (v : W32)
  /-- R95 -/
  | atomicInt32Add (tile line : Nat) (word : AtomWord) (v : W32)
  /-- R95 -/
  | atomicSwap (tile line : Nat) (word : AtomWord) (v : W32)
  /-- R95 -/
  | atomicCompareAndSwap (tile line : Nat) (word : AtomWord) (expected v : W32)
  /-- R96: target tile and line, kind, the words from word 0 of the line up, the counter's line and word. -/
  | reductionMessage (p : Part) (hop : Hop) (line : Nat) (kind : AtomKind) (words : List W32) (cline : Nat) (cword : Fin 16)
  /-- R84: a read of the 64-byte block at a module sheet address. -/
  | memRead (who : Requester) (addr : Nat) (outcome : Outcome)
  /-- R85 -/
  | memWrite (p : Part) (addr : Nat) (bytes : List Byte) (outcome : Outcome)
  /-- R91: the die and the place of the command in its queue. -/
  | arbAgePromote (die : DieId) (index : Nat)
  /-- R89 -/
  | refreshDue (bank : BankId)
  /-- R122 -/
  | refreshPullin (bank : BankId)
  /-- R88: the die's temperature, °C. -/
  | dieTempSample (die : DieId) (temp : Nat)
  /-- R86 -/
  | scrubRead (addr : Nat) (outcome : Outcome)
  /-- R331: the original row, the outcomes of copying it, and whether the verify passes. -/
  | rowRemap (bank : BankId) (row : Nat) (errs : Errs) (verifyOk : Bool)
  /-- R334 -/
  | reliefCopyDone (p : Part) (segment : Nat) (errs : Errs)
  /-- R337 -/
  | coreFault (site : Site) (cluster core : Nat)
  /-- R337 -/
  | engineParityError (site : Site) (engine : Nat)
  /-- R338: whether the tile's die controllers still serve. -/
  | tileFault (site : Site) (serves : Bool)
  /-- R338 -/
  | substitutionDone (site : Site)
  /-- R340: 0 router, 1 peat controllers, 2 PCIe and management. -/
  | frameFault (site : Site) (part : Fin 3)
  /-- R346: the FIFO of a partition, or the sheet's. -/
  | faultEntryHandle (fifo : Option Part)
  /-- R350 -/
  | ashLogAppend
  /-- R289: a partition's read of one 256-byte chunk. -/
  | peatRead (p : Part) (chunk : Nat) (outcome : Outcome)
  /-- R290 -/
  | peatScrubRead (chunk : Nat) (outcome : Outcome)
  /-- R294: channel and place in its queue. -/
  | peatArbAgePromote (channel : Fin 512) (index : Nat)
  /-- R300 -/
  | refetchDone (p : Part) (handle region billet : Nat) (errs : Errs)
  /-- R302 -/
  | supplyTimeout (p : Part) (handle region billet : Nat)
  /-- R312 -/
  | ringFrameRx (frame : RingFrame)
  /-- R312 -/
  | ringFrameMissing
  /-- R310 -/
  | ringFrameTx
  /-- R320 -/
  | ringInStuck
  /-- R367 -/
  | bistLimitCheck (env : BistEnv)
  /-- R370: whether the save target failed during the save (R373). -/
  | bistSaveDone (targetFault : Bool)
  /-- R370 -/
  | bistTestDone (findings : List Finding)
  /-- R370 -/
  | bistRestoreDone
  /-- R370 -/
  | bistClearDone
  /-- R333: model, page. -/
  | pageMoveDone (p : Part) (handle page : Nat) (errs : Errs)
  /-- R362 -/
  | fwEraseDone
  /-- R364 -/
  | fuseWriteDone
  deriving DecidableEq, Repr

end Sys2Proof
end

