-- ==== Sys2Proof/Decode.lean ====
section
/-! DEFINITION. The decoder of the table's words. The table of operations and events gives no row any bits: the
Salol's commands reach it as register writes, doorbells, queue entries and pins, never as one word. -/

namespace Sys2Proof

/-- The command that a word of the table's bits spells: none, since no row of the table has bits. [DESIGN CHOICE: log 3] -/
def decodeTableWord (_nbits _w : Nat) : Option Instr := none

end Sys2Proof
end

