-- ==== Sys2Proof/Config.lean ====
section
/-! DEFINITION. What an implementation fixes and what the manual leaves open: constants with no body, so that a
statement about the model holds whatever their values. -/

namespace Sys2Proof.Config

/-- A fresh value for the `n`-th time the manual leaves a value or an order open. [DESIGN CHOICE: log 1] -/
opaque fresh : Nat → Nat

/-- The Hennex PCI vendor ID (R403), stepping, module serial number, and boot ROM of a tile (R357). [DESIGN CHOICE: log 9] -/
opaque vendorId : W16
opaque stepping : Byte
opaque serial : W64
opaque bootRom : List Byte

/-- Sites that failed wafer test (R42): bit i is site i. A module ships with at least 60 sites that passed. [DESIGN CHOICE: log 9] -/
opaque waferFailed : W64
/-- Sites that failed wafer test by a fault in their site frame, which is retired with them (R13, R35). [DESIGN CHOICE: log 9] -/
opaque framesRetired : W64

/-- The firmware image in slot A of a module as delivered. [DESIGN CHOICE: log 9] -/
opaque shippedFirmware : List Byte

/-- The factory image as Hennex stored it in flash, for the structure chains (R358), and its ROLE and PLACE sections. [DESIGN CHOICE: log 9] -/
opaque factoryImage : List Byte
opaque factoryRolePlace : Nat → List Byte

/-- The certificate chain of SPDM slot 0 (R355). [DESIGN CHOICE: log 9] -/
opaque certChain : List Byte

/-- SHA-384 of a byte string, 48 bytes (R357, R358, R361). [DESIGN CHOICE: log 9] -/
opaque sha384 : List Byte → List Byte
/-- Whether an ECDSA P-384 signature (96 bytes) by a public key (96 bytes) over a digest holds (R361, R363). [DESIGN CHOICE: log 9] -/
opaque ecdsaVerify : List Byte → List Byte → List Byte → Bool
/-- The Hennex firmware key of the boot ROM (R361). [DESIGN CHOICE: log 9] -/
opaque hennexKey : List Byte
/-- A signature by the identity key over a byte string (R354, R356). [DESIGN CHOICE: log 9] -/
opaque identitySign : List Byte → List Byte
/-- Whether the verify data of an SPDM FINISH matches its session's handshake (R356). [PRESUMED: log 37] -/
opaque finishOk : Nat → List Byte → Bool

/-- Functions of the kindling cores, free within the bound the manual gives (R167, R179, R244, R246): exp and ln on FP32 words,
sine and cosine on fixed-point angles, the activation functions on BF16 words with their gate. [DESIGN CHOICE: log 30] -/
opaque expF : W32 → W32
opaque lnF : W32 → W32
opaque sinF : Int → W32
opaque cosF : Int → W32
opaque actF : Nat → W16 → Option W16 → W16
/-- The hyperbolic tangent of `LOGITS` (R183), for which the manual gives no bound. [DESIGN CHOICE: log 30] -/
opaque tanhF : W32 → W32

/-- The order in which `SAMPLE` adds a list of FP32 values: the same for the same values (R133, R184). [DEDUCED: log 29] -/
opaque sampleOrder : List W32 → Nat

/-- Readings over SMBus of sensors that have no register (R395). [DESIGN CHOICE: log 38] -/
opaque railReading : Nat → Nat

end Sys2Proof.Config
end

