-- ==== Sys2Proof/Machine/State.lean ====
section
/-! DEFINITION. The state of the Salol, as plain data, and its value at reset: the module with
PWR_EN low and nothing running (R380 OFF), every register at the reset value its table gives. -/

namespace Sys2Proof.Machine

/-- Nanoseconds of ring time or of the module's own oscillator. -/
abbrev Time := Nat

/-! ## What the Salol sends -/

/-- An event record (R69) without its phase bit. -/
structure EventRec where
  code : Nat
  severity : Nat
  partition : Nat
  request : W32
  time : Time
  a : W64
  b : W64
  deriving DecidableEq, Repr

/-- An output record (R74). -/
structure OutputRec where
  token : W32
  logprob : W16
  phase : Bool
  isEnd : Bool
  deadlineMissed : Bool
  drafted : Bool
  step : Byte
  deriving DecidableEq, Repr

/-- A sensor or state answered over SMBus (R395). -/
structure SensorReply where
  sensor : Nat
  value : Nat
  deriving DecidableEq, Repr

/-- What an SPDM responder answers (R355-R357, R366). -/
inductive SpdmReply where
  | version
  | capabilities
  | algorithms
  | digests (d : List (List Byte))
  | certificate (bytes : List Byte)
  | challengeAuth (signature : List Byte)
  | measurements (blocks : List (Nat × List Byte)) (signature : Option (List Byte))
  | keyExchangeRsp (session : Nat) (signature : List Byte)
  | finishRsp (session : Nat)
  | heartbeatAck (session : Nat)
  | keyUpdateAck (session : Nat)
  | endSessionAck (session : Nat)
  | ideKmAck (session : Nat)
  | errorUnspecified
  | errorOther
  deriving DecidableEq, Repr

/-- One thing the Salol sends out, in the order sent. [DESIGN CHOICE: log 15] -/
inductive Out where
  /-- An event record in slot `slot` of a queue, at its host address, with its phase bit (R69, R70). -/
  | event (port : Port) (sub : Src) (evq slot addr : Nat) (phase : Bool) (r : EventRec)
  /-- An output record of a request at a host address (R74). -/
  | output (port : Port) (part : Part) (request addr : Nat) (r : OutputRec)
  /-- An MSI-X message (R73, R405). -/
  | msix (port : Port) (vector : Nat)
  /-- The completion of a BAR4 read, with its EP bit (R62). -/
  | bar4 (port : Port) (ep : Bool) (data : List Byte)
  /-- A read of host memory (R56). -/
  | hostRead (port : Port) (tag addr len : Nat)
  /-- An answer of a port's SPDM responder (R356). -/
  | spdm (port : Port) (r : SpdmReply)
  /-- An answer over SMBus (R395). -/
  | smbus (r : SensorReply)
  /-- A ring frame on RING_OUT (R308). -/
  | ring (frame : BitVec 128)
  /-- The old value an atomic operation returns (R95). -/
  | atomOld (v : W32)
  /-- A block delivered to its reader: data, poisoned (R84, R289). -/
  | block (data : List Byte) (poisoned : Bool)
  /-- A link width granted (R56). -/
  | width (port : Port) (lanes : Nat)
  /-- A request completes as an Unsupported Request (R62). -/
  | unsupported (port : Port)
  deriving DecidableEq, Repr

/-! ## Ports, queues, streams -/

/-- A command-queue register set (R63). -/
structure CmdQ where
  baseLo : W32 := 0
  baseHi : W32 := 0
  cfg : W32 := 0
  head : Nat := 0
  tail : Nat := 0
  badDoorbell : Bool := false
  error : Bool := false
  deriving DecidableEq, Repr

/-- An event-queue register set (R63) and what R70-R73 keep beside it. -/
structure EvQ where
  baseLo : W32 := 0
  baseHi : W32 := 0
  cfg : W32 := 0
  head : Nat := 0
  tail : Nat := 0
  phase : Bool := false
  irq : W32 := 0
  dropped : W32 := 0
  /-- Overflow is in force: events dropped since `EVQ_OVERFLOW`, ring time of the first drop (R72). -/
  overflow : Option (Nat × Time) := none
  /-- Every slot is unconsumed: the last free one took `EVQ_OVERFLOW` (R72). -/
  full : Bool := false
  /-- Records pending an interrupt, and when the oldest of them was written, by the own oscillator (R73). -/
  pending : Nat := 0
  oldest : Time := 0
  deriving DecidableEq, Repr

/-- A queue subblock (R63) and the arbitration place of R65. -/
structure Subblock where
  cmdq : Vector CmdQ 64 := Vector.replicate 64 {}
  evq : Vector EvQ 16 := Vector.replicate 16 {}
  winCtrl : W32 := 0
  winBase : W32 := 0
  /-- The queue served last since the partition last started, and the commands left of its turn. -/
  turn : Option (Fin 64 × Nat) := none
  deriving DecidableEq, Repr

/-- Where the parser of an image stream stands (R26-R28). -/
inductive KlnPhase where
  | header
  | sectionHeader
  | body (hdr : List Byte)
  | padding (left : Nat)
  deriving DecidableEq, Repr

/-- An image stream: the owner's, or a tenant's (R44, R45). -/
structure KlnStream where
  /-- KLN_BYTES. -/
  bytes : W32 := 0
  /-- KLN_STATUS.SECTIONS. -/
  sections : W16 := 0
  /-- Bytes of the image taken so far. -/
  received : Nat := 0
  /-- LENGTH of the HEADER once it has arrived. -/
  length : Option Nat := none
  phase : KlnPhase := .header
  /-- Bytes of the header, section header or body now arriving. -/
  buf : List Byte := []
  /-- Every byte is ignored until the next BEGIN (R28, R53). -/
  ignoring : Bool := true
  deriving DecidableEq, Repr

/-- One entry of an MSI-X table (R405), in the PCIe layout. [PRESUMED: log 8] -/
structure MsixEntry where
  addrLo : W32 := 0
  addrHi : W32 := 0
  data : W32 := 0
  /-- Vector control; bit 0 masks. -/
  ctrl : W32 := 1
  pending : Bool := false
  deriving DecidableEq, Repr

/-- An SPDM session (R356). -/
structure Session where
  id : Nat
  established : Bool := false
  keyGen : Nat := 0
  deriving DecidableEq, Repr

/-- A port's SPDM responder (R356). -/
structure Spdm where
  versioned : Bool := false
  negotiated : Bool := false
  sessions : List Session := []
  nextSession : Nat := 1
  deriving DecidableEq, Repr

/-- The link IDE stream of a port: keys by (set, direction), and whether it is Insecure (R359). -/
structure Ide where
  keys : List ((Nat × Nat) × List Byte) := []
  insecure : Bool := false
  deriving DecidableEq, Repr

/-- A host port. [DESIGN CHOICE: log 14; DEDUCED: log 16] -/
structure PortSt where
  linkUp : Bool := false
  perst : Bool := false
  lanes : Nat := 16
  speed : LinkSpeed := .gt64
  /-- Records held while the link is down (R58). -/
  held : List Out := []
  /-- The site frame of the port's corner is retired (R340). -/
  lost : Bool := false
  msix : Vector MsixEntry 256 := Vector.replicate 256 {}
  winSel : W32 := 0
  ringLatch : W32 := 0
  energyLatch : W32 := 0
  spdm : Spdm := {}
  ide : Ide := {}
  deriving DecidableEq, Repr

/-- What an outstanding read of host memory is for. -/
inductive ReadFor where
  /-- CONSUMED of a request's output ring (R75). -/
  | ring (p : Part) (request : Nat)
  /-- A read that a command needs. -/
  | cmd (src : Src) (id : Nat)
  deriving DecidableEq, Repr

/-- An outstanding read of host memory (R56). [DESIGN CHOICE: log 22] -/
structure HostRead where
  port : Port
  tag : Nat
  addr : Nat
  len : Nat
  issued : Time
  why : ReadFor
  /-- It has gone out: fewer than 1,024 requests were outstanding (R56). -/
  sent : Bool := true
  deriving DecidableEq, Repr

/-! ## Structure: sites, FENCE, ROLE, PLACE, SLICE, PINS -/

/-- STATE of a SHEET entry (R30). -/
inductive SiteState where
  | inService | spare | fenced
  deriving DecidableEq, Repr

/-- A tile site (R12, R13, R31, R340). -/
structure SiteSt where
  state : SiteState := .fenced
  tile : Option Nat := none
  /-- The site never goes into service: the ash log records it as fenced or retired, or it failed wafer test (R31). -/
  barred : Bool := false
  routerRetired : Bool := false
  deriving DecidableEq, Repr

/-- A SHEET_RANGE of a FENCE record (R32). -/
structure SheetRange where
  first : Nat
  count : Nat
  kind : Nat
  deriving DecidableEq, Repr

/-- A range of peat segments (R32). -/
structure PeatRange where
  first : Nat := 0
  count : Nat := 0
  deriving DecidableEq, Repr

/-- A FENCE record in force (R32). -/
structure Fence where
  port : Nat
  noZeroise : Bool
  tiles : W64
  rqtBase : Nat
  rqtCount : Nat
  ranges : List SheetRange
  peatRw : PeatRange
  peatRo : PeatRange
  deriving DecidableEq, Repr

/-- A ROLE tile entry (R36). -/
structure RoleTile where
  tile : Nat
  decodeClusters : Nat
  prefillClusters : Nat
  matrixEngines : Nat
  deriving DecidableEq, Repr

/-- A ROLE section (R36). -/
structure Role where
  streamLimit : Nat := 0
  tokenBudget : Nat := 0
  splitSize : Nat := 0
  prefillMode : Nat := 0
  features : Byte := 0
  buckets : W16 := 0
  tiles : List RoleTile := []
  deriving DecidableEq, Repr

/-- A PLACE record (R37). -/
structure Place where
  model : Nat
  kind : Nat
  residence : Nat
  mirror : Bool
  exported : Bool
  region : Nat
  sheetFirst : Nat
  sheetCount : Nat
  peatFirst : Nat
  peatCount : Nat
  deriving DecidableEq, Repr

/-- A SLICE slot record (R39). -/
structure Slot where
  tiles : W64
  part : Nat
  start : Nat
  len : Nat
  deriving DecidableEq, Repr

/-- The SLICE section in force (R39) and where its slots stand (R40, R284). -/
structure Slice where
  frameStart : Nat := 0
  frameLength : Nat := 0
  slots : List Slot := []
  /-- Slots whose end has passed while their partition's step still ran: index, end. -/
  overrun : List (Nat × Time) := []
  /-- Slots whose tiles' SRAM is being zeroed before they begin. -/
  zeroing : List Nat := []
  /-- Time taken for debt from the present or next run of a slot (R284): slot index, ns. -/
  shortened : List (Nat × Nat) := []
  /-- Debts still to be taken: partition, the tiles of the slot that was overrun, ns (R284). -/
  debts : List (Nat × W64 × Nat) := []
  deriving DecidableEq, Repr

/-- The PINS section in force (R41), with its filters (R320). -/
structure Pins where
  post : Bool := false
  holdover : Bool := false
  ringReg : Bool := false
  brakeFunction : Byte := 0
  alertFunction : Byte := 0
  brakeFilter : Nat := 1000
  resetFilter : Nat := 10000
  ringFilter : Nat := 1
  alertFilter : Nat := 1000000
  deriving DecidableEq, Repr

/-! ## Model packages -/

/-- The model record (R157). -/
structure ModelRec where
  layers : Nat
  hidden : Nat
  vocab : Nat
  maxPositions : Nat
  headProgram : Nat
  layerProgram : Nat
  tailProgram : Nat
  draftModel : Nat
  deriving DecidableEq, Repr

/-- A region record (R159). -/
structure RegionRec where
  kind : Nat
  format : Nat
  segData : Nat
  billets : Nat
  dataOffset : Nat
  partner : Nat
  deriving DecidableEq, Repr

/-- A matrix descriptor (R162). -/
structure MatrixRec where
  out : Nat
  inp : Nat
  format : Nat
  flags : Nat
  tileK : Nat
  experts : Nat
  regionFirst : Nat
  regionCount : Nat
  segFirst : Nat
  lanes : Nat
  drow : Nat
  sbyte : Nat
  chCount : Nat
  chFirst : Nat
  chMatrix : Nat
  deriving DecidableEq, Repr

/-- A CHANNEL entry (R165). -/
structure ChannelRec where
  k : Nat
  scale : W32
  deriving DecidableEq, Repr

/-- A SHARD record (R166). -/
structure ShardRec where
  kind : Nat
  format : Nat
  minKeyFormat : Nat
  rotary : Nat
  layer : Nat
  heads : Nat
  dim0 : Nat
  dim1 : Nat
  window : Nat
  pool : Nat
  deriving DecidableEq, Repr

/-- A rotary record (R167). -/
structure RotaryRec where
  base : W32
  rotDims : Nat
  pairing : Nat
  linear : W32
  freq : W32
  wlLo : W32
  wlHi : W32
  deriving DecidableEq, Repr

/-- An operator descriptor (R169): `param` holds bytes 20-63. -/
structure DescRec where
  op : Nat
  in0 : Nat
  in1 : Nat
  in2 : Nat
  out : Nat
  obj0 : Nat
  obj1 : Nat
  obj2 : Nat
  param : List Byte
  deriving DecidableEq, Repr

/-- The control part of a model package, parsed (R155-R169). -/
structure Package where
  model : ModelRec
  regions : List RegionRec
  matrices : List MatrixRec
  channels : List ChannelRec
  shards : List ShardRec
  rotaries : List RotaryRec
  slots : List Nat
  /-- (DESC_FIRST, DESC_COUNT) of each program (R168). -/
  programs : List (Nat × Nat)
  descs : List DescRec
  deriving DecidableEq, Repr

/-! ## Pages and pools -/

/-- LOC of a page descriptor (R216). -/
inductive Loc where
  | sheet | peat | spilling | fetching
  deriving DecidableEq, Repr

/-- A page descriptor whose number is in use (R216); `none` for an absent SLOT, PEAT, SCALE or FMT. -/
structure PageDesc where
  slot : Option Nat
  /-- Its peat area: first 4 KiB unit and units. -/
  peat : Option (Nat × Nat)
  scale : Option Nat
  valid : Nat
  fmt : Option Nat
  loc : Loc
  ring : Bool
  marked : Bool
  /-- The free slot to which it is being moved (R333, R334). -/
  moving : Option Nat := none
  /-- Places whose positions are known to be lost, kept while the page is in the peat tier (R343). -/
  lostAt : List Nat := []
  deriving DecidableEq, Repr

/-- A page-scale entry (R144). -/
structure ScaleEntry where
  scale0 : W32
  scale1 : W32
  amax0 : W32
  amax1 : W32
  escIndex : Option Nat
  escUsed : Nat
  escPos0 : Nat
  escPos1 : Nat
  reseasoned : Bool
  underRange : Bool
  closed : Bool
  deriving DecidableEq, Repr

/-- An escape record: each slot holds one position's entry in BF16 (R145). -/
structure EscRecord where
  slot0 : List W16
  slot1 : List W16
  deriving DecidableEq, Repr

/-- One pool part, carved (R213). [DESIGN CHOICE: log 24] -/
structure PoolPart where
  region : Nat
  /-- Place of the part: first segment and count, after relief (R334). -/
  first : Nat
  count : Nat
  rows : Nat
  perSeg : Nat
  header : Nat
  slots : Nat
  numbers : Nat
  esc : Nat
  freeSlots : List Nat
  freeNumbers : List Nat
  freeScales : List Nat
  freeEscs : List Nat
  freeBlocks : List Nat
  descs : List (Nat × PageDesc)
  scales : List (Nat × ScaleEntry)
  escs : List (Nat × EscRecord)
  /-- Page segments withdrawn or given up for relief (R333, R334). -/
  withdrawn : List Nat
  /-- The part is lost whole (R335). -/
  lost : Bool
  /-- Its free slots have fallen below LOW and have not yet come back to HIGH (R231). -/
  filling : Bool := false
  deriving DecidableEq, Repr

/-- A chain of list blocks (R219): the handles of its blocks and its words. [DESIGN CHOICE: log 24] -/
structure Chain where
  blocks : List Nat
  words : List Nat
  deriving DecidableEq, Repr

/-- An index node (R278). [DESIGN CHOICE: log 24] -/
structure IndexNode where
  parent : Nat
  depth : Nat
  lastUse : Time
  tokens : List Nat
  /-- Page number of each shard, or none. -/
  pages : List (Option Nat)
  chain : Chain
  deriving DecidableEq, Repr

/-- A prefix index: the nodes in use other than the root, by number, and the free ones (R278). [DESIGN CHOICE: log 24] -/
structure Index where
  nodes : List (Nat × IndexNode)
  free : List Nat
  rootUse : Time
  /-- Nodes in ash-listed segments, which are placed no more (R80, R333). -/
  withdrawn : List Nat := []
  deriving DecidableEq, Repr

/-- State of a model handle that is held (R187); an ABSENT handle is held nowhere. -/
inductive ModelState where
  | loading | ready
  deriving DecidableEq, Repr

/-- A held model (R187-R191). -/
structure Model where
  handle : Nat
  state : ModelState
  pkg : Package
  /-- The control part as read, to compare with the next load's (R189). -/
  control : List Byte
  /-- Regions written since the control area was set. -/
  written : List Nat
  /-- Regions bound: region, exporting partition, its model handle (R190). -/
  bound : List (Nat × Nat × Nat)
  /-- Channel scales as seasoned or packaged (R142, R165). -/
  channels : List ChannelRec
  /-- Driver's narrowing of the cache formats in force from the next formation, and now (R217). -/
  narrowNext : Option Nat
  narrow : Option Nat
  /-- The pool, once carved (R145, R213). -/
  parts : Option (List PoolPart)
  /-- Free scratch buffers: region and buffer (R224). -/
  scratch : List (Nat × Nat)
  index : Option Index
  /-- Members of staging sets that their ranges hold (R296). -/
  staged : List Nat
  /-- Index nodes lost and not yet removed (R344). -/
  lostNodes : List Nat := []
  /-- Regions whose billets seasoning has written (R142). -/
  seasoned : List Nat := []
  deriving DecidableEq, Repr

/-! ## Requests and commands -/

/-- STATE of a request entry (R255). -/
inductive ReqState where
  | free | queued | opened | prefill | decode | pageWait | parked | spilled | done | expired | faulted
  deriving DecidableEq, Repr

/-- The sampling block (R67). -/
structure Sampling where
  temperature : W32
  topK : Nat
  topP : W32
  minP : W32
  seed : Nat
  maxNew : Nat
  stopToken : Nat
  deriving DecidableEq, Repr

/-- A draft tree: token and parent index (0xFF for the root) of each node (R203). -/
structure Tree where
  nodes : List (Nat × Nat)
  deriving DecidableEq, Repr

/-- What a request has lost and has not yet acted on (R344). -/
inductive LostData where
  | positions (first shard : Nat)
  | listBlock (firstEntry shard : Nat)
  | directory
  | tokens (first : Nat)
  deriving DecidableEq, Repr

/-- The state of the read of CONSUMED that a formation waits for (R75). -/
inductive RingRead where
  | none | outstanding | answered
  deriving DecidableEq, Repr

/-- A request entry that is not FREE (R254), and what the stoker keeps with it. [DESIGN CHOICE: log 24] -/
structure Req where
  state : ReqState
  prev : ReqState := .free
  /-- The state it left for PAGE_WAIT, kept while a park or spill has PREV_STATE. -/
  waitFrom : ReqState := .free
  held : Bool := false
  deadlinePassed : Bool := false
  genFirst : Bool := false
  closing : Bool := false
  /-- What an END-only record still to be written ends it as (R271, R272): DONE with a cause of R286, or EXPIRED. -/
  endAs : Option Nat := none
  /-- Ring time of its first record with DEADLINE_MISSED; 0 if none (R286). -/
  missedAt : Nat := 0
  priority : Nat
  policy : Byte
  model : Nat
  length : Nat := 0
  pending : Nat
  deadline : Nat
  ringBase : Nat
  ringOrder : Nat
  specWidth : Nat
  evq : Fin 16
  steps : Nat := 0
  produced : Nat := 0
  consumed : Nat := 0
  generated : Nat := 0
  queuePos : Nat := 0
  sampling : Sampling
  lastStep : Time
  fault : Nat := 0
  admitted : Time
  /-- The token chain (R257). -/
  chain : Chain
  /-- The directory and the page list of each shard, the draft model's after the target's (R219, R205). -/
  directory : Chain := ⟨[], []⟩
  lists : List Chain := []
  /-- The host draft tree held (R203). -/
  tree : Option Tree := none
  /-- Pages still to be copied from the prefix index: source model and page, destination page (R280). -/
  copying : List (Nat × Nat × Nat) := []
  matched : Nat := 0
  ringRead : RingRead := .none
  /-- One report was already written since the last step the request took part in (R75, R265). -/
  ringFullTold : Bool := false
  weightsTold : Bool := false
  lost : Option LostData := none
  /-- Its pages are wanted back from the peat tier since this ring time (R233). -/
  fetchSince : Option Time := none
  /-- Parked with SPILL (R270). -/
  spillAsked : Bool := false
  /-- Evicted, so that it recomputes its cache from its tokens alone (R276). -/
  evicted : Bool := false
  queuedAt : Time := 0
  waitAt : Time := 0
  spilledAt : Time := 0
  deriving DecidableEq, Repr

/-- How far a command that runs over several events has come. -/
inductive CmdRun where
  | idle
  /-- MODEL_LOAD: regions still to write, next billet of the first, billets written (R189). -/
  | loading (regions : List Nat) (billet written : Nat)
  /-- INDEX_INSERT: pages still to be copied, nodes created (R281). -/
  | inserting (copies : List (Nat × Nat)) (created : Nat)
  | stopping
  | starting
  /-- MODEL_UNLOAD with FORCE, or REQ_CLOSE, waiting for END records (R191, R271). -/
  | closing
  | testing
  deriving DecidableEq, Repr

/-- A command consumed and not yet complete (R64-R66). [DEDUCED: log 21, 23] -/
structure Cmd where
  id : Nat
  queue : Fin 64
  opcode : Nat
  flags : Byte
  tag : Nat
  request : Nat
  model : Nat
  /-- Bytes 16-63 of the entry. -/
  body : List Byte
  /-- What its reads of host memory have brought, oldest first. -/
  got : List (List Byte) := []
  reading : Bool := false
  started : Bool := false
  run : CmdRun := .idle
  /-- The read of host memory with which it goes on once the partition runs again (R46). -/
  paused : Option (Nat × Nat) := none
  /-- BF16 billets of the regions that a `MODEL_LOAD` with seasoning converts: region and bytes (R142). -/
  stash : List (Nat × List Byte) := []
  deriving DecidableEq, Repr

/-! ## The token step -/

/-- What a token of a step is (R177, R180). -/
inductive TokKind where
  /-- The root of a decode request. -/
  | root
  /-- A node of its draft tree. -/
  | node (i : Nat)
  /-- The token of a split at this place in the split. -/
  | split (i : Nat)
  deriving DecidableEq, Repr

/-- The new entry of one shard that a step holds (R223). -/
structure HeldEntry where
  shard : Nat
  t0 : List W16
  t1 : List W16
  deriving DecidableEq, Repr

/-- One token of a step in one model. -/
structure Tok where
  req : Nat
  model : Nat
  kind : TokKind
  /-- Parent node index of a tree node, 32 for the root (R251). -/
  parent : Nat := 32
  /-- Depth below the root (R251). -/
  depth : Nat := 0
  /-- It is a token of a draft model's own passes (R204, R205). -/
  draft : Bool := false
  pos : Nat
  token : Nat
  yields : Bool
  /-- Activation slots written so far (R158). -/
  slots : List (Nat × List W16) := []
  /-- Logits by slot, in FP32 (R183, R184). -/
  logits : List (Nat × List W32) := []
  held : List HeldEntry := []
  /-- First program whose results carry poison, and its cause (R211). -/
  poison : Option (Nat × Nat) := none
  /-- Draft distribution kept for verification: (token, probability) (R204). -/
  draftQ : List (Nat × W32) := []
  deriving DecidableEq, Repr

/-- What a model runs in a step: its own requests' tokens, a drafting pass at a depth (R204), or the splits of the requests
it drafts for (R205). -/
inductive RunKind where
  | own
  | drafting (depth : Nat)
  | draftSplit
  deriving DecidableEq, Repr

/-- A model's place in the programs of a step: program run index (0 head, 1.. layers, last tail) and
the descriptor next to run. -/
structure ModelRun where
  handle : Nat
  kind : RunKind
  prog : Nat := 0
  pc : Nat := 0
  started : Bool := false
  finished : Bool := false
  /-- When the program began: its collectives' first message (R199). -/
  startedAt : Time := 0
  deriving DecidableEq, Repr

/-- A request's record of one step: its accepted tokens with log-probabilities. -/
structure Verdict where
  req : Nat
  /-- (token, logprob, drafted). -/
  records : List (Nat × W16 × Bool)
  /-- Accepted node indexes in depth order. -/
  accepted : List Nat
  /-- The cause of R286 for which the last record carries END. -/
  cause : Option Nat := none
  deriving DecidableEq, Repr

/-- A page that the step's seasoning or scatter has changed, waiting for COMMIT (R196, R217). -/
structure PageWrite where
  req : Nat
  handle : Nat
  page : Nat
  /-- The block of 64 positions that it writes: the lap, of a ring page (R226). -/
  lap : Nat
  fmt : Nat
  entry : Option ScaleEntry
  valid : Nat
  /-- The step opens the page (R146, R226). -/
  opens : Bool
  /-- The escape record that the entry names, as it will stand. -/
  esc : Option EscRecord := none
  /-- Codes of places that a re-seasoning rewrites, written at COMMIT (R148, R196). -/
  image : List (Nat × List Nat) := []
  deriving DecidableEq, Repr

/-- What formation chose of a request: split length, or decode with a tree (R266). -/
structure Pick where
  req : Nat
  /-- Split tokens; 0 for decode. -/
  split : Nat
  tree : Option Tree
  /-- Scratch buffers taken, by model: region and buffer (R224). -/
  scratch : List (Nat × Nat × Nat) := []
  /-- It runs as plain decode for want of a buffer (R224). -/
  missed : Bool := false
  deriving DecidableEq, Repr

/-- A formed step that has not begun (R194, R266). -/
structure Formed where
  picks : List Pick
  /-- Cache formats in force for the step: model, narrowing (R217). -/
  formats : List (Nat × Option Nat)
  /-- KV_PRT_PIECE as it stood at the formation (R252). -/
  piece : W32 := 0x200
  /-- STEP_PRT_DRAFT as it stood at the formation (R204). -/
  draft : W32 := 1
  /-- Prompts of the step in progress that the formation has checked: the revision may add their next splits (R194). -/
  cands : List Nat := []
  deriving DecidableEq, Repr

/-- The step in progress (R193). -/
structure Step where
  picks : List Pick
  toks : List Tok
  runs : List ModelRun
  headAt : Time
  /-- The own oscillator at HEAD, for the step's duration. -/
  headUp : Time
  formats : List (Nat × Option Nat)
  piece : W32 := 0x200
  draft : W32 := 1
  /-- The request entries as they stood at the step boundary before it, which the RQT window shows (R256). -/
  shown : List (Nat × Req) := []
  /-- Since when the step waits for staging alone, with the program before finished (R297). -/
  stallSince : Option Time := none
  stallNs : Nat := 0
  verdicts : List Verdict := []
  pageWrites : List PageWrite := []
  /-- The slots in which the step runs (R283). -/
  slots : List Nat := []
  deriving DecidableEq, Repr

/-- Where a broken weight billet stands (R300-R302, R341). -/
inductive RepairPhase where
  | refetch
  /-- Poisoned, its refetch cancelled by a stop (R301). -/
  | cancelled
  /-- Its source is lost, or it has none: since when, and whether the timeout has passed. -/
  | lost (since : Time) (timedOut : Bool)
  deriving DecidableEq, Repr

/-- A weight or scale billet that is poisoned or under refetch. -/
structure Repair where
  part : Part
  handle : Nat
  region : Nat
  billet : Nat
  phase : RepairPhase
  deriving DecidableEq, Repr

/-- An entry of a fault FIFO (R345). -/
structure FaultEntry where
  code : Nat
  cls : Nat
  rung : Nat
  request : Option Nat
  time : Time
  loc : W64
  count : Nat := 1
  handling : Bool := false
  /-- The billet whose weight repair the entry records, as model handle, region and billet; its repair begins and ends it. -/
  billet : Option (Nat × Nat × Nat) := none
  deriving DecidableEq, Repr

/-- A relief in force (R334): the original segment and the relief segment; `placed` once entered. -/
structure Relief where
  handle : Nat
  region : Nat
  segment : Nat
  relief : Nat
  placed : Bool
  copied : Bool
  deriving DecidableEq, Repr

/-! ## Register groups -/

/-- STEP registers of a partition (R210). [DEDUCED: log 33] -/
structure StepRegs where
  ctrl : W32 := 0
  timeout : W32 := 0x2710
  cadPeriod : W32 := 0
  cadBaseLo : W32 := 0
  cadBaseHi : W32 := 0
  draft : W32 := 1
  maxNs : W32 := 0
  committed : W32 := 0
  abandoned : W32 := 0
  lastNs : W32 := 0
  /-- Nanoseconds behind STEP_PRT_WSTALL_US. -/
  wstallNs : Nat := 0
  moeDrop : W32 := 0
  sitout : W32 := 0
  cadMiss : W32 := 0
  specNodes : W32 := 0
  specAccept : W32 := 0
  /-- A step has met its mark since the last miss that was reported, so that the next is (R209). -/
  cadMet : Bool := true
  /-- The step that began last has missed a mark. -/
  cadLate : Bool := false
  /-- The last mark that was compared. -/
  cadMark : Option Time := none
  /-- STEP_PRT_CTRL and the cadence registers in force since the last formation (R209): control, period, base. -/
  cadCtrl : W32 := 0
  cadPer : W32 := 0
  cadBase : W64 := 0
  deriving DecidableEq, Repr

/-- KV registers of a partition (R235, R252). -/
structure KvRegs where
  ctrl : W32 := 0x00000A05
  fmtModel : W32 := 0
  fmt : W32 := 0xFF
  piece : W32 := 0x200
  spill : W32 := 0
  fetch : W32 := 0
  late : W32 := 0
  wait : W32 := 0
  scratchMiss : W32 := 0
  pieces : W32 := 0
  /-- Bytes behind KV_PRT_ROT_KIB. -/
  rotBytes : Nat := 0
  /-- SPILL_AREA_FULL was written and space has not returned (R232). -/
  fullTold : Bool := false
  deriving DecidableEq, Repr

/-- RQT registers of a partition (R285). -/
structure RqtRegs where
  ctrl : W32 := 0
  limits : W32 := 0x80008000
  sliceDebt : Nat := 0
  admitted : W32 := 0
  refused : W32 := 0
  preempted : W32 := 0
  expired : W32 := 0
  /-- Nanoseconds behind RQT_PRT_SLOT_OVERRUN. -/
  overrunNs : Nat := 0
  rewound : W32 := 0
  /-- Ring times of the last departures from the queue, newest first, at most 64. -/
  departures : List Time := []
  deriving DecidableEq, Repr

/-- Counters of a partition in the MEM, NB, SCL, PEAT and FLT blocks (R100, R131, R153, R305, R352). -/
structure PrtCounters where
  memCorr : W32 := 0
  memUncorr : W32 := 0
  memPoison : W32 := 0
  nbSeq : W32 := 0
  nbSplit : W32 := 0
  nbBadcmd : W32 := 0
  sclEscape : W32 := 0
  sclReseason : W32 := 0
  sclUnderRange : W32 := 0
  sclNarrow : W32 := 0
  sclNonfinite : W32 := 0
  /-- Bytes behind PEAT_PRT_STREAMED_MIB. -/
  streamedBytes : Nat := 0
  peatRefetch : W32 := 0
  peatCorr : W32 := 0
  peatUncorr : W32 := 0
  fltDeferred : W32 := 0
  fltContained : W32 := 0
  fltLostPos : W32 := 0
  fltLeaked : W32 := 0
  fltIndexLost : W32 := 0
  deriving DecidableEq, Repr

/-- PRT_STATUS.STATE (R45). -/
inductive PrtState where
  | absent | running | stopping | stopped | quarantined
  deriving DecidableEq, Repr

/-- A partition. -/
structure Partition where
  st : PrtState := .absent
  stopCause : Nat := 0
  zeroising : Bool := false
  startPending : Bool := false
  /-- A stop by FLR is in progress; the partition is reset when it ends (R53). -/
  flrPending : Bool := false
  fence : Option Fence := none
  /-- The port the FENCE resolves to (R412). -/
  port : Option Port := none
  role : Role := {}
  places : List Place := []
  sectionsSince : Nat := 0
  zeroStart : Time := 0
  zeroNs : Nat := 0
  sub : Subblock := {}
  kln : KlnStream := {}
  chain5 : List Byte := []
  taken : List Cmd := []
  nextCmd : Nat := 0
  reqs : List (Nat × Req) := []
  models : List Model := []
  formed : Option Formed := none
  /-- A formation waits for reads of CONSUMED (R75). -/
  forming : Bool := false
  step : Option Step := none
  relief : List Relief := []
  fifo : List FaultEntry := []
  /-- Waiters of R229 and the victims chosen for them (R275): waiter, victim. -/
  victims : List (Nat × Nat) := []
  quarantinedAt : Time := 0
  /-- Class of the fault that quarantined it: 2 CONTAINED, 3 FATAL (R327). -/
  quarantineClass : Nat := 0
  /-- A self-test holds the partition (R370). -/
  bistHold : Bool := false
  /-- The peat runs that a self-test save uses: first 4 KiB unit and units (R371). -/
  saveArea : List (Nat × Nat) := []
  stepRegs : StepRegs := {}
  kv : KvRegs := {}
  rqt : RqtRegs := {}
  ctr : PrtCounters := {}
  deriving DecidableEq, Repr

/-! ## Sheet memory, dies, near-bank units, shared caches, peat -/

/-- Memory in its canonical form (Host.Cell): rising addresses, no zero byte, since an unlisted
address reads 0 (every stack and the peat tier are zeroised at power-up, R383). [DEDUCED: log 10] -/
abbrev Memory := List Host.Cell

/-- What a die controller keeps of its die (R86-R89, R330-R336). -/
structure DieSt where
  temp : Nat := 0
  hot : Bool := false
  /-- Since when the sensor has read 82 °C or below while hot (R88). -/
  coolSince : Option Time := none
  retired : Bool := false
  retiredBanks : List Nat := []
  /-- Remapped rows: bank, row, spare, and whether it is the second remap (R331, R332). -/
  remaps : List (Nat × Nat × Nat × Bool) := []
  /-- Spares used or retired: bank, spare. -/
  usedSpares : List (Nat × Nat) := []
  /-- Row retirements of each bank (R333). -/
  retirements : List (Nat × Nat) := []
  /-- CORRECTED outcomes of a row in this scrub period: bank, row, count (R330). -/
  corrections : List (Nat × Nat × Nat) := []
  /-- The wire of the last corrections, and how many in a row (R336). -/
  wireRun : Option (Nat × Nat) := none
  /-- Rows that wait for their remap: bank, row (R331). -/
  failing : List (Nat × Nat) := []
  /-- Wires failed in this power-up, and wires replaced at training. -/
  failedWires : List Nat := []
  sparedWires : List Nat := []
  /-- Blocks read in this scrub pass, each once; corrections and uncorrectable blocks in it; passes done. -/
  scrubbed : List Nat := []
  scrubCorr : Nat := 0
  scrubUncorr : Nat := 0
  passDone : Bool := false
  deriving DecidableEq, Repr

/-- What a die controller keeps of a bank's refresh (R89, R122). -/
structure BankSt where
  owed : Nat := 0
  credit : Nat := 0
  /-- When the bank's last refresh between commands ends (R89, R123). -/
  busyTo : Time := 0
  /-- Cycles that splits have added to the command it runs (R121, R131). -/
  waited : Nat := 0
  deriving DecidableEq, Repr

/-- A near-bank sequence in a die controller's queue (R104, R105, R120). -/
structure NbSeq where
  id : Nat
  part : Option Part
  tile : Nat
  hdr : NbHeader
  words : List NbWord
  cls : Nat
  /-- When it entered the class it stands in (R91). -/
  aged : Time
  /-- Banks that have not finished it. -/
  left : W64
  /-- An FLR has released the pages of its partition while it waited or ran (R130). -/
  stale : Bool := false
  deriving DecidableEq, Repr

/-- A near-bank unit that runs a sequence (R102). -/
structure NbUnit where
  seq : Nat
  pc : Nat := 0
  v : Vector W16 2048 := Vector.replicate 2048 0
  vPoison : Vector Bool 8 := Vector.replicate 8 false
  a : Vector W32 64 := Vector.replicate 64 0
  aPoison : Vector Bool 64 := Vector.replicate 64 false
  /-- A parity error poisons the unit for the rest of the sequence (R126). -/
  dead : Bool := false
  /-- A malformed command has poisoned the unit (R109). -/
  malformed : Bool := false
  deriving DecidableEq, Repr

/-- A scratch line of a tile's shared cache (R93). -/
structure Line where
  words : Vector W32 16 := Vector.replicate 16 0
  poison : Bool := false
  deriving DecidableEq, Repr

/-- What a controller moves (R90, R294): a page to the peat tier or back, or within sheet memory (model, number); a refetched or
supplied billet (model, region, billet); the stream of a region (model, region); the writes of a load (model); the copy of a prefix
(request); the relief of a segment; zeroising; the save or restore of a self-test; patrol scrub. -/
inductive XferKind where
  | spill (handle page : Nat)
  | fetch (handle page : Nat)
  | move (handle page : Nat)
  | refetch (handle region billet : Nat)
  | supply (handle region billet : Nat)
  | stream (handle region : Nat)
  | load (handle : Nat)
  | prefixCopy (request : Nat)
  | relief (segment : Nat)
  | zeroise
  | selfTest
  | scrub
  deriving DecidableEq, Repr

/-- Whose queue a transfer stands in: a peat channel's, or a die's (site x 16 + die). -/
inductive XferAt where
  | channel (n : Nat)
  | die (k : Nat)
  deriving DecidableEq, Repr

/-- A transfer that a controller has promoted, with the class it has there and since when (R91, R294). -/
structure Xfer where
  part : Option Part
  kind : XferKind
  place : XferAt
  cls : Nat
  since : Time
  deriving DecidableEq, Repr

/-- A margining facility: the registers of R100 and R305. -/
structure Margin where
  sel : W32 := 0
  hold : Bool := false
  time : BitVec 6 := 0
  vref : BitVec 6 := 0
  logTransfers : BitVec 5
  errors : W32 := 0
  first : W16
  aborted : Bool := false
  refused : Bool := false
  done : Bool := false
  busy : Bool := false
  held : Bool := false
  deriving DecidableEq, Repr

/-! ## Ring, pins, faults, flash, security, self-test, power -/

/-- RING_STATUS.STATE (R313). -/
inductive RingState where
  | acquire | locked | holdover | freerun | master
  deriving DecidableEq, Repr

/-- The ring block (R309-R323). -/
structure Ring where
  state : RingState := .acquire
  cfg : W32 := 0
  cableDelay : W32 := 0
  timeSetLo : W32 := 0
  timeSetHi : W32 := 0
  marksOut : W32 := 0
  setPending : Bool := false
  /-- Frames in which TIME_STEP is still to be set (R310). -/
  stepFrames : Nat := 0
  goodRun : Nat := 0
  badRun : Nat := 0
  /-- Received time and local arrival of the previous frame (R312). -/
  prev : Option (Nat × Time) := none
  /-- Offset still to be removed, ns (R314). -/
  adjust : Int := 0
  offset : Int := 0
  loopErr : Int := 0
  hops : Byte := 0
  hopsKnown : Bool := false
  marks : Byte := 0
  sourceHoldover : Bool := false
  inStuck : Bool := false
  tapClosed : Bool := true
  good : W32 := 0
  bad : W32 := 0
  missing : W32 := 0
  lockLoss : W32 := 0
  holdoverNs : Nat := 0
  steps : W32 := 0
  foreign : W32 := 0
  /-- When the last RING_MASTER_CONFLICT was written (R310). -/
  conflictAt : Option Time := none
  deriving DecidableEq, Repr

/-- The discrete pins (R320-R324). -/
structure PinSt where
  pwrEn : Bool := false
  resetN : Bool := true
  brakeN : Bool := true
  alertN : Bool := true
  thermTripN : Bool := true
  pwrGood : Bool := false
  straps : BitVec 4 := 0
  strapsNow : BitVec 4 := 0
  unstable : Bool := false
  changed : Bool := false
  strapTold : Bool := false
  brakeCount : W32 := 0
  brakeChatter : W32 := 0
  ringStuck : W32 := 0
  /-- When the present assertion was accepted, the last one began, the last deassertion was accepted,
  and the last chatter came (own oscillator, and ring time of the assertion). -/
  assertedAt : Option Time := none
  lastAssert : Option Time := none
  assertRing : Time := 0
  deassertedAt : Option Time := none
  lastChatter : Option Time := none
  heldTold : Bool := false
  /-- The brake is on by R321 (dwell included). -/
  braking : Bool := false
  /-- ALERT_N may not release before this time of the own oscillator (R320). -/
  alertUntil : Time := 0
  /-- Faults that hold ALERT_N as long as they last: repairs have stopped or nothing boots. -/
  alertStuck : Bool := false
  deriving DecidableEq, Repr

/-- An ash-log record (R349). -/
structure AshRec where
  type : Nat
  superseded : Bool := false
  seq : Nat := 0
  time : Time
  loc : W64
  arg : Nat
  deriving DecidableEq, Repr

/-- Module flash and fuses: what survives a power cycle (R42, R349, R360-R364, R378). -/
structure Flash where
  /-- The two copies of the ash log: generation and records; and which is current. -/
  ash0 : Nat × List AshRec := (1, [])
  ash1 : Nat × List AshRec := (0, [])
  ashSecond : Bool := false
  ashSeq : Nat := 0
  lastOff : Nat := 0
  slotA : List Byte
  slotB : List Byte
  activeB : Bool := false
  csigKey : Option (List Byte) := none
  svnMin : Nat := 0
  svnSteps : Nat := 0
  deriving DecidableEq, Repr

/-- What the SEC block is busy with (R362-R364). -/
inductive SecBusy where
  | none | erase | check | fuse
  deriving DecidableEq, Repr

/-- Security (R354-R366, R374). -/
structure Sec where
  keyValid : Bool := false
  scanLatch : Bool := false
  /-- Test access entry is clearing the module; the instruction loaded (R365). -/
  clearing : Option W64 := none
  bootFallback : Bool := false
  runningB : Bool := false
  /-- The header of the running image. -/
  runningHdr : List Byte := []
  busy : SecBusy := .none
  result : Nat := 0
  /-- The slot that the last check verified (R362): true for B. -/
  verified : Option Bool := none
  bytes : W32 := 0
  /-- Bytes are taken; every byte is ignored until BEGIN. -/
  loading : Bool := false
  csigLoad : Vector Byte 192 := Vector.replicate 192 0
  nonce : List Byte := []
  chain3 : List Byte := []
  deriving DecidableEq, Repr

/-- PHASE of BIST_STATUS (R375). -/
inductive BistPhase where
  | idle | hold | save | test | restore | clear
  deriving DecidableEq, Repr

/-- Self-test (R367-R375). -/
structure Bist where
  phase : BistPhase := .idle
  busy : Bool := false
  tile : Option Nat := none
  lastResult : Nat := 0
  temp : Byte := 0
  clock : Byte := 0
  supply : Byte := 0
  failed : BitVec 3 := 0
  postFailed : Nat := 0
  postSkipped : Nat := 0
  postRan : Bool := false
  /-- The running command, its SAVE, the tested site and the spare. -/
  src : Option (Src × Nat) := none
  save : Nat := 0
  site : Site := 0
  spare : Option Site := none
  findings : List Finding := []
  /-- The spare carries the tile (R370). -/
  handedOver : Bool := false
  result : Nat := 0
  deriving DecidableEq, Repr

/-- Where the module stands in its power states and sequences (R380, R383, R386). -/
inductive Phase where
  | off
  /-- From the acceptance of PWR_EN, or from a module reset, to the end of the boot checks. -/
  | boot
  | standby
  /-- The image is loaded; POST or peat initialisation is still running. -/
  | init
  | on
  | brake
  /-- No corner passed, or no firmware slot verified (R21, R361). -/
  | dead
  /-- MOD_RESET_N is asserted (R386). -/
  | reset
  deriving DecidableEq, Repr

/-- Power, limits and temperatures (R377-R391, R397). -/
structure Power where
  phase : Phase := .off
  mgmt : Option Port := none
  /-- The management tile has lost its ability to run repairs (R340). -/
  mgmtLost : Bool := false
  postDone : Bool := false
  peatDone : Bool := false
  holdCause : Nat := 0
  /-- STANDBY was entered, so that STATE reads it until the sequence ends (R380). -/
  stood : Bool := false
  lastOff : Nat := 0
  limit : W32 := 0xA0
  volts : W16 := 0
  current : W16 := 0
  watts : W16 := 0
  /-- Input energy since power-up, mJ. -/
  energyMj : Nat := 0
  brakeShare : Nat := 16
  limitShare : Nat := 16
  thermalShare : Nat := 16
  limitedMs : W32 := 0
  throttledMs : W32 := 0
  /-- Milliseconds for which the power-limit and thermal shares have been at 16/16, as power-up leaves them. -/
  limitFullMs : Nat := 1000
  thermFullMs : Nat := 1000
  maxLogic : Byte := 0
  maxDram : Byte := 0
  inlet : Byte := 0
  outlet : Byte := 0
  flow : W16 := 0
  throttle : W32 := 0x5F
  /-- Milliseconds for which each coolant condition has held: inlet, outlet, flow; and whether a warning is in force. -/
  coolMs : Nat × Nat × Nat := (0, 0, 0)
  coolWarn : Bool := false
  brakeEntered : Time := 0
  /-- Input power over the first 100 µs of the brake: the sum of its 10 µs samples, and how many there are. -/
  brakeWattSum : Nat := 0
  brakeSamples : Nat := 0
  /-- BRAKE_ENGAGED is still to be written, at 100 µs (R398). -/
  brakeTold : Bool := true
  deriving DecidableEq, Repr

/-- A tile substitution in progress (R338). -/
structure Subst where
  failed : Site
  spare : Option Site
  tile : Nat
  serves : Bool
  /-- It waits for AUTO_SPARE. -/
  waiting : Bool
  deriving DecidableEq, Repr

/-- Spared units of a tile (R337): cluster and cores faulted in it. -/
structure TileUnits where
  coreFaults : List (Nat × Nat) := []
  clusters : List Nat := []
  engines : List Nat := []
  /-- Cluster and core of faults whose spare takes over at the next step boundary. -/
  waiting : List (Nat × Nat) := []
  deriving DecidableEq, Repr

/-- The state of the block. -/
structure State where
  /-- Commands that wait, first in first out. -/
  pending : List Instr
  /-- Ring time, ns (R2). -/
  ringTime : W64 := 0
  /-- The module's own oscillator, ns since power-up. -/
  uptime : Time := 0
  /-- Free values drawn so far: the model's own field, not the spec's. -/
  fresh : Nat := 0
  out : List Out := []
  power : Power := {}
  pins : PinSt := {}
  pinsCfg : Pins := {}
  ports : Vector PortSt 4 := Vector.replicate 4 {}
  parts : Vector Partition 4 := Vector.replicate 4 {}
  /-- The owner queue subblock (R410) and the commands taken from it. -/
  ownerSub : Subblock := {}
  ownerTaken : List Cmd := []
  ownerNextCmd : Nat := 0
  reads : List HostRead := []
  nextTag : Nat := 0
  kln : KlnStream := {}
  sites : Vector SiteSt 64 := Vector.replicate 64 {}
  /-- ROUTE in force: pairs of byte index and link code that differ from NONE (R35). -/
  route : List (Nat × Nat) := []
  /-- Traffic dropped by routers for NONE (R35). -/
  routeDropped : Nat := 0
  slice : Slice := {}
  /-- Sheet memory by module sheet address (R78); the stacks of sites without a tile lie above the 64th tile. -/
  sheet : Memory := []
  /-- Blocks (address / 64) that hold the poison pattern (R83). -/
  poisoned : List Nat := []
  peat : Memory := []
  /-- Chunks (address / 256) marked poisoned (R289). -/
  peatPoisoned : List Nat := []
  ashList : List Nat := []
  dies : List (Nat × DieSt) := []
  banks : List (Nat × BankSt) := []
  seqs : List NbSeq := []
  nextSeq : Nat := 0
  units : List (Nat × NbUnit) := []
  scratch : List ((Nat × Nat) × Line) := []
  /-- Sheet lines held: tile, block address / 64 (R93). -/
  sheetLines : List (Nat × Nat) := []
  /-- Sites whose core and cluster SRAM hold data, with the partition whose data it is (R40, R49). -/
  sram : List (Nat × Part) := []
  /-- Blocks of the stoker's tables that a driver has overwritten (R62). -/
  tablesHit : List Nat := []
  memArb : W32 := 0x00402010
  memScrub : W32 := 0x80000018
  memMargin : Margin := { logTransfers := 0x1E, first := 0x3FF }
  nbCtrl : W32 := 0x80000004
  nbMaxWait : W32 := 0
  peatArb : W32 := 0x00402010
  peatCtrl : W32 := 0x80000048
  peatSupplyTimeout : W32 := 0x2710
  peatMargin : Margin := { logTransfers := 0x1B, first := 0x1F }
  peatRetired : Bool := false
  /-- UNCORRECTABLE chunks that peat scrub has found (R290). -/
  peatScrubBad : Nat := 0
  xfers : List Xfer := []
  /-- When transfers that go on came to their controllers (R91, R294). -/
  arrivals : List ((Option Part × XferKind) × Time) := []
  repairs : List Repair := []
  ring : Ring := {}
  fltCtrl : W32 := 0x80100004
  fatal : Bool := false
  ashLogFull : Bool := false
  sheetFifo : List FaultEntry := []
  substs : List Subst := []
  tileUnits : List (Nat × TileUnits) := []
  flash : Flash
  /-- Repairs made whose records are not yet in the log (R350). -/
  ashPending : List AshRec := []
  /-- Repairs made without a record since the log filled (R350). -/
  ashUnrecorded : Nat := 0
  sec : Sec := {}
  bist : Bist := {}
  deriving DecidableEq, Repr

/-- Why the block stops with a fault. [DESIGN CHOICE: log 56] -/
inductive Fault where
  /-- Raised by no command: the fence drops an access outside a partition's memory with the event the spec gives (R34), so that none
  reaches a place the sheet does not have (R78). Safe. -/
  | noSuchPlace
  deriving DecidableEq, Repr

/-- Why a command is refused. [DESIGN CHOICE: log 56] -/
inductive Refusal where
  /-- Raised by an arm of `exec` whose row has no meaning yet. Safe. -/
  | notModelled (mnemonic : String)
  deriving DecidableEq, Repr

/-- The module right after reset: OFF (R380), nothing waiting; slot A of module flash holds the firmware as delivered, and slot B
and the ash log are empty. [DESIGN CHOICE: log 3, 7] -/
def State.reset : State :=
  { pending := []
    flash := { slotA := Config.shippedFirmware, slotB := [] } }

end Sys2Proof.Machine
end

