-- ==== Sys2Proof/Machine/Util.lean ====
section
/-! DEFINITION. Containers: association lists kept in rising order of their keys, fixed tables, and
counters that saturate. -/

namespace Sys2Proof.Machine

/-- The value a key has in an association list. -/
def lookupA {α β : Type} [DecidableEq α] : List (α × β) → α → Option β
  | [], _ => none
  | (k, v) :: l, a => if k = a then some v else lookupA l a

/-- An association list without a key. -/
def eraseA {α β : Type} [DecidableEq α] (l : List (α × β)) (a : α) : List (α × β) :=
  l.filter fun kv => decide (kv.1 ≠ a)

/-- Insertion of a pair by rising key, replacing what the key had. -/
def insertA {β : Type} (l : List (Nat × β)) (k : Nat) (v : β) : List (Nat × β) :=
  match l with
  | [] => [(k, v)]
  | (k', v') :: rest =>
    if k < k' then (k, v) :: (k', v') :: rest
    else if k = k' then (k, v) :: rest
    else (k', v') :: insertA rest k v

/-- Update of the pair a key has; nothing where it has none. -/
def modifyA {β : Type} (l : List (Nat × β)) (k : Nat) (f : β → β) : List (Nat × β) :=
  l.map fun kv => if kv.1 = k then (kv.1, f kv.2) else kv

/-- Update of the first element that a test picks. -/
def modifyFirst {α : Type} (p : α → Bool) (f : α → α) : List α → List α
  | [] => []
  | x :: xs => if p x then f x :: xs else x :: modifyFirst p f xs

/-- Removal of the first element that a test picks. -/
def eraseFirst {α : Type} (p : α → Bool) : List α → List α
  | [] => []
  | x :: xs => if p x then xs else x :: eraseFirst p xs

/-- Insertion into a list by a strict order, after the elements not above it. -/
def insertBy {α : Type} (lt : α → α → Bool) (x : α) : List α → List α
  | [] => [x]
  | y :: ys => if lt x y then x :: y :: ys else y :: insertBy lt x ys

/-- A list sorted by a strict order; elements neither of which comes first keep their order. -/
def sortBy {α : Type} (lt : α → α → Bool) (l : List α) : List α :=
  l.foldl (fun acc x => insertBy lt x acc) []

/-- Update of one element of a fixed table. -/
def upd {α : Type} {n : Nat} (v : Vector α n) (i : Fin n) (f : α → α) : Vector α n :=
  v.set i.val (f (v.get i)) i.isLt

/-- A 32-bit counter raised by `n`, saturating at 0xFFFF_FFFF. -/
def satAdd (c : W32) (n : Nat) : W32 :=
  BitVec.ofNat 32 (min (c.toNat + n) 0xFFFFFFFF)

/-- A number shown in a 32-bit register that saturates. -/
def sat32 (n : Nat) : W32 := BitVec.ofNat 32 (min n 0xFFFFFFFF)

/-- The quotient of naturals rounded up. -/
def ceilDiv (a b : Nat) : Nat := (a + b - 1) / b

/-- Rounding up to a multiple. -/
def roundUp (a b : Nat) : Nat := ceilDiv a b * b

/-- The field [hi:lo] of a register as a number (R3). -/
def bitsOf (w : W32) (hi lo : Nat) : Nat := w.toNat / 2 ^ lo % 2 ^ (hi - lo + 1)

/-- Whether bit `i` of a mask is set. -/
def maskHas {n : Nat} (m : BitVec n) (i : Nat) : Bool := m.getLsbD i

/-- A mask with one bit written. -/
def maskPut {n : Nat} (m : BitVec n) (i : Nat) (b : Bool) : BitVec n :=
  if b then m ||| (1#n <<< i) else m &&& ~~~(1#n <<< i)

/-! ## Partitions and ports in the state -/

/-- A partition of the state. -/
def State.part (s : State) (p : Part) : Partition := s.parts.get p

/-- Update of one partition. -/
def State.modPart (s : State) (p : Part) (f : Partition → Partition) : State :=
  { s with parts := upd s.parts p f }

/-- A port of the state. -/
def State.port (s : State) (i : Port) : PortSt := s.ports.get i

/-- Update of one port. -/
def State.modPort (s : State) (i : Port) (f : PortSt → PortSt) : State :=
  { s with ports := upd s.ports i f }

/-- The four partitions. -/
def allParts : List Part := [0, 1, 2, 3]

/-- Ring time as a number. -/
def State.now (s : State) : Time := s.ringTime.toNat

/-- A fresh free value, and the state that has drawn it. [DESIGN CHOICE: log 1] -/
def State.draw (s : State) : Nat × State :=
  (Config.fresh s.fresh, { s with fresh := s.fresh + 1 })

/-- A request entry of a partition that is not FREE. -/
def Partition.req (p : Partition) (h : Nat) : Option Req := lookupA p.reqs h

/-- Update of a request entry. -/
def Partition.modReq (p : Partition) (h : Nat) (f : Req → Req) : Partition :=
  { p with reqs := modifyA p.reqs h f }

/-- A held model of a partition. -/
def Partition.model (p : Partition) (handle : Nat) : Option Model :=
  p.models.find? fun m => m.handle == handle

/-- Update of a held model. -/
def Partition.modModel (p : Partition) (handle : Nat) (f : Model → Model) : Partition :=
  { p with models := modifyFirst (fun m => m.handle == handle) f p.models }

/-- The partition that a port owns (R412). -/
def State.partOf (s : State) (i : Port) : Option Part :=
  allParts.find? fun p => (s.part p).port == some i && (s.part p).fence.isSome

/-- The owner port, as the latched straps give it (R55). -/
def State.ownerPort (s : State) : Port := ⟨s.pins.straps.toNat % 4, Nat.mod_lt _ (by decide)⟩

/-- Nanoseconds pass in a powered module: its oscillator and its ring time count, the latter with a follower's correction of
one nanosecond in every 128 (R314), and so does the time in HOLDOVER and FREERUN. [DESIGN CHOICE: log 2] -/
def State.pass (s : State) (n : Nat) : State :=
  if s.power.phase = .off then s
  else
    let marks : Int := ((s.uptime + n) / 128 - s.uptime / 128 : Nat)
    let d := if 0 ≤ s.ring.adjust then min s.ring.adjust marks else max s.ring.adjust (-marks)
    let held := s.ring.state == .holdover || s.ring.state == .freerun
    { s with
      uptime := s.uptime + n
      ringTime := s.ringTime + BitVec.ofInt 64 (n + d)
      ring := { s.ring with adjust := s.ring.adjust - d, holdoverNs := if held then s.ring.holdoverNs + n else s.ring.holdoverNs } }

/-- An event that falls at a time of the own oscillator brings the clock there. [DESIGN CHOICE: log 6] -/
def State.passTo (s : State) (t : Time) : State := s.pass (t - s.uptime)

/-- An event that falls at a ring time brings the clock there. [DESIGN CHOICE: log 6] -/
def State.ringTo (s : State) (t : Time) : State :=
  let s := s.pass (t - s.now)
  if s.now < t then { s with ringTime := BitVec.ofNat 64 t } else s

/-- The management firmware runs, so that hosts and repairs are served (R380). [DESIGN CHOICE: log 4] -/
def State.serving (s : State) : Bool := s.power.phase == .on || s.power.phase == .brake

/-- The owner port reaches the owner-only registers (R55, R366, R384). [DESIGN CHOICE: log 4] -/
def State.owns (s : State) (port : Port) : Bool := s.serving && !s.sec.scanLatch && port == s.ownerPort

/-- The owner port reaches the PWR, THM, PIN, SEC and FLT blocks: in STANDBY too, where it is the management tile's (R380). [DESIGN CHOICE: log 4] -/
def State.reaches (s : State) (port : Port) : Bool :=
  s.owns port || (s.power.phase == .standby && !s.sec.scanLatch && port == s.ownerPort && s.power.mgmt == some port)

end Sys2Proof.Machine
end

