-- ==== Sys2Proof/Machine/Float.lean ====
section
/-! DEFINITION. FP32 and BF16 arithmetic: exact values, one rounding to nearest with ties to even, and the
treatment of NaN, infinities and overflow that each rule states (R95, R113, R124, R132). -/

namespace Sys2Proof.Machine

/-- The value of a floating-point word: a finite one is (-1)^neg x m x 2^e. -/
inductive FVal where
  | nan
  | inf (neg : Bool)
  | fin (neg : Bool) (m : Nat) (e : Int)
  deriving DecidableEq, Repr

/-- The value of a word with `eb` exponent and `mb` mantissa bits, with infinities and NaNs (R134). -/
def unpackF (eb mb w : Nat) : FVal :=
  let neg := w / 2 ^ (eb + mb) % 2 == 1
  let ef := w / 2 ^ mb % 2 ^ eb
  let mf := w % 2 ^ mb
  let bias : Int := 2 ^ (eb - 1) - 1
  if ef = 2 ^ eb - 1 then (if mf = 0 then .inf neg else .nan)
  else if ef = 0 then .fin neg mf (1 - bias - mb)
  else .fin neg (2 ^ mb + mf) (ef - bias - mb)

/-- m x 2^e rounded to nearest, ties to even, as the word of a format; `none` where it overflows. -/
def roundF (eb mb : Nat) (m : Nat) (e : Int) : Option Nat :=
  if m = 0 then some 0
  else
    let bias : Int := 2 ^ (eb - 1) - 1
    let top : Int := e + (m.log2 : Int)
    if bias + 1 < top then none
    else if top < 1 - bias - mb - 1 then some 0
    else
      let t : Int := max top (1 - bias) - mb
      let q :=
        if t ≤ e then m * 2 ^ (e - t).toNat
        else
          let d := (t - e).toNat
          let q := m / 2 ^ d
          let r := m % 2 ^ d
          let half := 2 ^ (d - 1)
          if half < r ∨ (r = half ∧ q % 2 = 1) then q + 1 else q
      let w := if q < 2 ^ mb then q else ((t - (1 - bias - mb)).toNat + 1) * 2 ^ mb + (q - 2 ^ mb)
      if w < (2 ^ eb - 1) * 2 ^ mb then some w else none

/-- The sign bit of a format. -/
def signF (eb mb : Nat) (neg : Bool) : Nat := if neg then 2 ^ (eb + mb) else 0

/-- A finite value rounded into IEEE 754 binary32; overflow gives an infinity. -/
def f32Of (neg : Bool) (m : Nat) (e : Int) : W32 :=
  BitVec.ofNat 32 (signF 8 23 neg + (roundF 8 23 m e).getD 0x7F800000)

/-- The canonical NaN of FP32 (R95). -/
def f32NaN : W32 := 0x7FC00000

/-- The value of an FP32 word. -/
def f32Val (w : W32) : FVal := unpackF 8 23 w.toNat

/-- The FP32 word of a value. [DEDUCED: log 50] -/
def f32Enc : FVal → W32
  | .nan => f32NaN
  | .inf neg => BitVec.ofNat 32 (signF 8 23 neg + 0x7F800000)
  | .fin neg m e => f32Of neg m e

/-- The exact sum of two values. -/
def FVal.plus (a b : FVal) : FVal :=
  match a, b with
  | .nan, _ | _, .nan => .nan
  | .inf s, .inf t => if s = t then .inf s else .nan
  | .inf s, _ => .inf s
  | _, .inf t => .inf t
  | .fin s m e, .fin t n f =>
    let g := min e f
    let x : Int := (if s then -1 else 1) * (m * 2 ^ (e - g).toNat : Nat)
    let y : Int := (if t then -1 else 1) * (n * 2 ^ (f - g).toNat : Nat)
    let z := x + y
    .fin (if z = 0 then s && t else decide (z < 0)) z.natAbs g

/-- The exact product of two values. -/
def FVal.times (a b : FVal) : FVal :=
  match a, b with
  | .nan, _ | _, .nan => .nan
  | .inf s, .inf t => .inf (s != t)
  | .inf s, .fin t n _ => if n = 0 then .nan else .inf (s != t)
  | .fin s m _, .inf t => if m = 0 then .nan else .inf (s != t)
  | .fin s m e, .fin t n f => .fin (s != t) (m * n) (e + f)

/-- A finite value is `a < b`; comparisons with a NaN are false. -/
def FVal.lt (a b : FVal) : Bool :=
  match a, b with
  | .nan, _ | _, .nan => false
  | .inf s, .inf t => s && !t
  | .inf s, _ => s
  | _, .inf t => !t
  | .fin s m e, .fin t n f =>
    let g := min e f
    let x : Int := (if s then -1 else 1) * (m * 2 ^ (e - g).toNat : Nat)
    let y : Int := (if t then -1 else 1) * (n * 2 ^ (f - g).toNat : Nat)
    decide (x < y)

/-- The quotient of two finite values with guard bits and a sticky bit, ready to be rounded once. -/
def FVal.quot (a b : FVal) : FVal :=
  match a, b with
  | .nan, _ | _, .nan => .nan
  | .inf _, .inf _ => .nan
  | .inf s, .fin t _ _ => .inf (s != t)
  | .fin s _ _, .inf t => .fin (s != t) 0 0
  | .fin s m e, .fin t n f =>
    if n = 0 then (if m = 0 then .nan else .inf (s != t))
    else
      let k := 64 + n.log2
      let x := m * 2 ^ k
      .fin (s != t) (2 * (x / n) + (if x % n = 0 then 0 else 1)) (e - f - k - 1)

/-- The integer square root, bit by bit from bit `n` down, above `acc`. -/
def isqrtFrom (x : Nat) : Nat → Nat → Nat
  | 0, acc => if (acc + 1) * (acc + 1) ≤ x then acc + 1 else acc
  | n + 1, acc =>
    let a := acc + 2 ^ (n + 1)
    isqrtFrom x n (if a * a ≤ x then a else acc)

/-- The square root of a value with guard bits and a sticky bit. -/
def FVal.root : FVal → FVal
  | .nan => .nan
  | .inf neg => if neg then .nan else .inf false
  | .fin neg m e =>
    if m = 0 then .fin neg 0 0
    else if neg then .nan
    else
      let (m, e) := if e % 2 = 0 then (m, e) else (2 * m, e - 1)
      let x := m * 2 ^ 80
      let r := isqrtFrom x (x.log2 / 2 + 1) 0
      .fin false (2 * r + (if r * r = x then 0 else 1)) (e / 2 - 40 - 1)

/-- FP32 addition (R95, R113). -/
def f32Add (a b : W32) : W32 := f32Enc ((f32Val a).plus (f32Val b))
/-- FP32 multiplication. -/
def f32Mul (a b : W32) : W32 := f32Enc ((f32Val a).times (f32Val b))
/-- FP32 division. -/
def f32Div (a b : W32) : W32 := f32Enc ((f32Val a).quot (f32Val b))
/-- FP32 square root. -/
def f32Sqrt (a : W32) : W32 := f32Enc (f32Val a).root
/-- FP32 negation. -/
def f32Neg (a : W32) : W32 := a ^^^ 0x80000000
/-- FP32 subtraction. -/
def f32Sub (a b : W32) : W32 := f32Add a (f32Neg b)
/-- FP32 magnitude. -/
def f32Abs (a : W32) : W32 := a &&& 0x7FFFFFFF
/-- FP32 comparison; false with a NaN. -/
def f32Lt (a b : W32) : Bool := (f32Val a).lt (f32Val b)
/-- An FP32 word is a NaN. -/
def f32IsNaN (a : W32) : Bool := f32Val a == .nan
/-- An FP32 word is finite. -/
def f32IsFinite (a : W32) : Bool :=
  match f32Val a with
  | .fin _ _ _ => true
  | _ => false
/-- Zero, one and the infinities. -/
def f32Zero : W32 := 0
def f32One : W32 := 0x3F800000
def f32Inf : W32 := 0x7F800000
def f32NegInf : W32 := 0xFF800000

/-- An integer as FP32. -/
def f32OfInt (z : Int) : W32 := f32Of (decide (z < 0)) z.natAbs 0

/-- A BF16 word as FP32. -/
def f32OfBf16 (x : W16) : W32 := BitVec.ofNat 32 (x.toNat * 2 ^ 16)

/-- The value of a BF16 word. -/
def bf16Val (x : W16) : FVal := unpackF 8 7 x.toNat

/-- A value rounded to BF16 by R124: a finite overflow saturates, an infinity is kept, a NaN is 0x7FC0. -/
def bf16Enc : FVal → W16
  | .nan => 0x7FC0
  | .inf neg => BitVec.ofNat 16 (signF 8 7 neg + 0x7F80)
  | .fin neg m e => BitVec.ofNat 16 (signF 8 7 neg + (roundF 8 7 m e).getD 0x7F7F)

/-- FP32 rounded to BF16 (R124). [DEDUCED: log 50] -/
def bf16OfF32 (x : W32) : W16 := bf16Enc (f32Val x)

/-- BF16 addition of R95: the exact sum rounded once. -/
def bf16Add (a b : W16) : W16 := bf16Enc ((bf16Val a).plus (bf16Val b))

/-- The order of R95 for max and min: as FP32, with -0 below +0. -/
def f32Below (a b : W32) : Bool :=
  f32Lt a b || (a == 0x80000000 && b == 0)

/-- The larger by R95: a NaN yields the other operand, and two the canonical NaN. -/
def f32Max (a b : W32) : W32 :=
  if f32IsNaN a then (if f32IsNaN b then f32NaN else b)
  else if f32IsNaN b then a
  else if f32Below a b then b else a

/-- The smaller by R95. -/
def f32Min (a b : W32) : W32 :=
  if f32IsNaN a then (if f32IsNaN b then f32NaN else b)
  else if f32IsNaN b then a
  else if f32Below b a then b else a

/-- The element of a list at an index that counts modulo its length, and the rest. -/
def pull {α : Type} (l : List α) (i : Nat) : Option (α × List α) :=
  match l[i % l.length]? with
  | some x => some (x, l.eraseIdx (i % l.length))
  | none => none

/-- A sum in FP32 in any order and with any bracketing (R96, R113, R133): `order` picks, digit by digit, the two terms
that are added next. [DESIGN CHOICE: log 1] -/
def f32SumAny (order : Nat) (l : List W32) : Nat → W32
  | 0 => l.head?.getD f32Zero
  | fuel + 1 =>
    match pull l order with
    | none => f32Zero
    | some (x, []) => x
    | some (x, rest) =>
      match pull rest (order / l.length) with
      | none => x
      | some (y, rest') => f32SumAny (order / (l.length * rest.length)) (f32Add x y :: rest') fuel

/-- The FP32 sum of a list, in an order that the manual leaves open. [DESIGN CHOICE: log 1] -/
def f32Sum (order : Nat) (l : List W32) : W32 := f32SumAny order l l.length

/-- The FP32 dot product of two lists, products formed first, added in an open order. -/
def f32Dot (order : Nat) (a b : List W32) : W32 := f32Sum order (List.zipWith f32Mul a b)

end Sys2Proof.Machine
end

