-- ==== Sys2Proof/Machine/Approx.lean ====
section
/-! DEFINITION. The functions the manual gives within a bound: exp, ln, sine and cosine, and the activation functions.
Each result is a free value of `Config`, kept where it lies within the bound and replaced by the exact value, rounded,
where it does not (R167, R179, R244, R246). Exact values are fixed-point numbers with 512 fraction bits. -/

namespace Sys2Proof.Machine

/-- Fraction bits of the fixed-point numbers of this file. -/
def fxBits : Nat := 512
/-- One, ln 2, pi and sqrt(2/pi) in fixed point. -/
def fxOne : Int := 2 ^ 512
def fxLn2 : Int := 0xb17217f7d1cf79abc9e3b39803f2f6af40f343267298b62d8a0d175b8baafa2be7b876206debac98559552fb4afa1b10ed2eae35c138214427573b291169b825
def fxPi : Int := 0x3243f6a8885a308d313198a2e03707344a4093822299f31d0082efa98ec4e6c89452821e638d01377be5466cf34e90c6cc0ac29b7c97c50dd3f84d5b5b5470917
def fxRoot2Pi : Int := 0xcc42299ea1b284687e59e2805d5c717fa7053e60a24e0db1808e369004c73a5d3bf158aa88fa7b6e47eba75766e9d11bd6284ef2e17c2a264f1d32688be119ff

/-- A product in fixed point. -/
def fxMul (a b : Int) : Int := a * b / fxOne
/-- A quotient in fixed point. -/
def fxDiv (a b : Int) : Int := a * fxOne / b

/-- A finite value in fixed point, cut to 2^600 in magnitude. -/
def fxOf : FVal → Int
  | .fin neg m e =>
    let a : Nat :=
      if 0 ≤ e + 512 then (if m = 0 then 0 else m * 2 ^ min (e + 512).toNat 1112) else m / 2 ^ min (-(e + 512)).toNat 4096
    if neg then -(a : Int) else a
  | .inf neg => if neg then -(2 ^ 1112) else 2 ^ 1112
  | .nan => 0

/-- A fixed-point number as a value. -/
def fxVal (x : Int) : FVal := .fin (decide (x < 0)) x.natAbs (-512)

/-- The terms of exp from the `i`-th on: `t` is the last term. -/
def fxExpSeries (r : Int) : Nat → Nat → Int → Int
  | 0, _, _ => 0
  | fuel + 1, i, t =>
    let t := fxMul t r / (i : Int)
    t + fxExpSeries r fuel (i + 1) t

/-- exp of a fixed-point number: a mantissa and a power of two. -/
def fxExp (x : Int) : FVal :=
  let n := x / fxLn2
  let r := x - n * fxLn2
  .fin false (fxOne + fxExpSeries r 100 1 fxOne).natAbs (n - 512)

/-- The series of atanh: `z2` is the square, `t` the present power. -/
def fxAtanhSeries (z2 : Int) : Nat → Nat → Int → Int
  | 0, _, _ => 0
  | fuel + 1, i, t => t / (2 * i + 1 : Nat) + fxAtanhSeries z2 fuel (i + 1) (fxMul t z2)

/-- ln of a positive value, in fixed point. -/
def fxLn (m : Nat) (e : Int) : Int :=
  let l := m.log2
  let y := (m : Int) * fxOne / (2 ^ l : Nat)
  let z := fxDiv (y - fxOne) (y + fxOne)
  (e + l) * fxLn2 + 2 * fxAtanhSeries (fxMul z z) 170 0 z

/-- The alternating series of sine (`i` odd) and cosine (`i` even). -/
def fxTrigSeries (x2 : Int) : Nat → Nat → Int → Int
  | 0, _, t => t
  | fuel + 1, i, t => t + fxTrigSeries x2 fuel (i + 2) (-(fxMul t x2) / ((i + 1) * (i + 2) : Nat))

/-- An angle reduced to between minus pi and pi. -/
def fxReduce (x : Int) : Int :=
  let r := x % (2 * fxPi)
  if fxPi < r then r - 2 * fxPi else r

def fxSin (x : Int) : Int := let r := fxReduce x; fxTrigSeries (fxMul r r) 80 1 r
def fxCos (x : Int) : Int := let r := fxReduce x; fxTrigSeries (fxMul r r) 80 0 fxOne

/-- A free FP32 word kept where it lies within `tol` of `exact` (both in fixed point), else the exact value rounded. -/
def f32Within (cand : W32) (exact tol : Int) : W32 :=
  match f32Val cand with
  | .fin s m e => if (fxOf (.fin s m e) - exact).natAbs ≤ tol.natAbs then cand else f32Enc (fxVal exact)
  | _ => f32Enc (fxVal exact)

/-- exp with a relative error of at most 2^-21 (R244). [DESIGN CHOICE: log 30] -/
def f32Exp (x : W32) : W32 :=
  match f32Val x with
  | .nan => f32NaN
  | .inf neg => if neg then f32Zero else f32Inf
  | .fin s m e =>
    let v := fxExp (fxOf (.fin s m e))
    match v, f32Val (Config.expF x) with
    | .fin _ a p, .fin false b q =>
      -- |b 2^q - a 2^p| ≤ a 2^(p - 21), compared after scaling to a common power
      let g := min (p - 21) q
      if 4096 < (p - q).natAbs then f32Enc v
      else
        let ea : Int := (a * 2 ^ (p - g).toNat : Nat)
        let eb : Int := (b * 2 ^ (q - g).toNat : Nat)
        let tol : Nat := a * 2 ^ (p - 21 - g).toNat
        if (eb - ea).natAbs ≤ tol then Config.expF x else f32Enc v
    | _, _ => f32Enc v

/-- ln of an FP32 word with an absolute error of at most 2^-21 (R246). [DESIGN CHOICE: log 30] -/
def f32Ln (x : W32) : W32 :=
  match f32Val x with
  | .nan => f32NaN
  | .inf neg => if neg then f32NaN else f32Inf
  | .fin s m e =>
    if m = 0 then f32NegInf
    else if s then f32NaN
    else f32Within (Config.lnF x) (fxLn m e) (2 ^ (512 - 21))

/-- Sine and cosine of an angle formed to at least 40 significant bits, with an absolute error of at most 2^-21 (R167). [DESIGN CHOICE: log 30] -/
def f32Sin (theta : Int) : W32 :=
  f32Within (Config.sinF theta) (fxSin theta) (2 ^ (512 - 21) + theta.natAbs / 2 ^ 40)
def f32Cos (theta : Int) : W32 :=
  f32Within (Config.cosF theta) (fxCos theta) (2 ^ (512 - 21) + theta.natAbs / 2 ^ 40)

/-- base ^ x for a base above 0, in fixed point. -/
def fxPow (base : FVal) (x : Int) : Int :=
  match base with
  | .fin false m e => if m = 0 then 0 else fxOf (fxExp (fxMul (fxLn m e) x))
  | _ => 0

/-- The logistic function 1 / (1 + e^-x) in fixed point. -/
def fxSigmoid (x : Int) : Int := fxDiv fxOne (fxOne + fxOf (fxExp (-x)))

/-- The series of erf(x / sqrt 2) over sqrt(2/pi). -/
def fxErfSeries (x2 : Int) : Nat → Nat → Int → Int
  | 0, _, _ => 0
  | fuel + 1, i, t => t / (2 * i + 1 : Nat) + fxErfSeries x2 fuel (i + 1) (-(fxMul t x2) / (2 * (i + 1) : Nat))

/-- erf(x / sqrt 2) in fixed point. -/
def fxErf (x : Int) : Int :=
  if 14 * fxOne < x then fxOne
  else if x < -(14 * fxOne) then -fxOne
  else fxMul fxRoot2Pi (fxErfSeries (fxMul x x) 500 0 x)

/-- The exact value of the activation function FUNC of R179, in fixed point. -/
def fxAct (func : Nat) (x : Int) : Int :=
  match func with
  | 0 => fxMul x (fxSigmoid x)
  | 1 => fxMul x (fxOne + fxErf x) / 2
  | _ =>
    let c := 44715 * fxOne / 1000000
    fxMul x (fxSigmoid (2 * fxMul fxRoot2Pi (x + fxMul c (fxMul x (fxMul x x)))))

/-- One BF16 unit in the last place of a magnitude, in fixed point. -/
def fxUlp (x : Int) : Int :=
  let l : Int := (x.natAbs.log2 : Int) - 512
  2 ^ (max (l - 7) (-133) + 512).toNat

/-- `ACT` of one element (R179): within one BF16 unit in the last place of the exact value. [DESIGN CHOICE: log 30] -/
def bf16Act (func : Nat) (x : W16) (gate : Option W16) : W16 :=
  let g := match gate with | some y => bf16Val y | none => .fin false 1 0
  match bf16Val x, g with
  | .fin s m e, .fin t n f =>
    let exact := fxMul (fxAct func (fxOf (.fin s m e))) (fxOf (.fin t n f))
    let cand := Config.actF func x gate
    match bf16Val cand with
    | .fin u k q => if (fxOf (.fin u k q) - exact).natAbs ≤ (fxUlp exact).natAbs then cand else bf16Enc (fxVal exact)
    | _ => bf16Enc (fxVal exact)
  | .inf false, y => bf16Enc (FVal.times (.inf false) y)
  | .inf true, y => bf16Enc (FVal.times (.fin true 0 0) y)
  | .nan, _ => 0x7FC0
  | _, .nan => 0x7FC0
  | .fin s m e, .inf t => bf16Enc (FVal.times (fxVal (fxAct func (fxOf (.fin s m e)))) (.inf t))

end Sys2Proof.Machine
end

