-- ==== Sys2Proof/Machine/Ops.lean ====
section
/-! DEFINITION. The named operations every chapter uses: memory in its canonical form, event records and their
queues, interrupts, command completions, reads of host memory. -/

namespace Sys2Proof.Machine

/-! ## Memory

A memory lists its non-zero bytes by rising address; an unlisted address reads 0. -/

/-- What an address that no entry lists reads as. [DEDUCED: log 10] -/
def Memory.unlisted : Byte := 0

/-- The byte at an address. -/
def Memory.read : Memory → Nat → Byte
  | [], _ => Memory.unlisted
  | (k, b) :: m, a => if k = a then b else Memory.read m a

/-- A memory with one byte stored, in canonical form. [DEDUCED: log 10] -/
def Memory.write : Memory → Nat → Byte → Memory
  | [], a, b => if b = Memory.unlisted then [] else [(a, b)]
  | (k, c) :: m, a, b =>
    if a < k then (if b = Memory.unlisted then (k, c) :: m else (a, b) :: (k, c) :: m)
    else if a = k then (if b = Memory.unlisted then m else (a, b) :: m)
    else (k, c) :: Memory.write m a b

/-- `n` bytes from an address upward. -/
def Memory.readN (m : Memory) (a : Nat) : Nat → List Byte
  | 0 => []
  | n + 1 => m.read a :: Memory.readN m (a + 1) n

/-- A memory with bytes stored from an address upward. -/
def Memory.writeN (m : Memory) (a : Nat) : List Byte → Memory
  | [] => m
  | b :: bs => Memory.writeN (m.write a b) (a + 1) bs

/-- A memory with `n` bytes from an address upward zeroed. -/
def Memory.zeroN (m : Memory) (a n : Nat) : Memory :=
  m.filter fun c => decide (c.1 < a) || decide (a + n ≤ c.1)

/-- The canonical form: addresses strictly rise, and no entry holds what an unlisted address reads as. [DEDUCED: log 10] -/
def Memory.wf (m : Memory) : Bool :=
  decide (m.Pairwise fun x y => x.1 < y.1) && m.all fun c => decide (c.2 ≠ Memory.unlisted)

/-- Insertion into a rising list of numbers that stands for a set. -/
def setAdd (l : List Nat) (n : Nat) : List Nat :=
  match l with
  | [] => [n]
  | k :: rest => if n < k then n :: k :: rest else if n = k then k :: rest else k :: setAdd rest n

/-- Removal from a list that stands for a set. -/
def setDel (l : List Nat) (n : Nat) : List Nat := l.filter fun k => decide (k ≠ n)

/-- Removal of the numbers from `a` up to `a + n`. -/
def setDelRange (l : List Nat) (a n : Nat) : List Nat :=
  l.filter fun k => decide (k < a) || decide (a + n ≤ k)

/-! ## Queue subblocks -/

/-- A queue subblock of the state. -/
def State.sub (s : State) : Src → Subblock
  | .part p => (s.part p).sub
  | .owner => s.ownerSub

/-- Update of a queue subblock. -/
def State.modSub (s : State) (src : Src) (f : Subblock → Subblock) : State :=
  match src with
  | .part p => s.modPart p fun q => { q with sub := f q.sub }
  | .owner => { s with ownerSub := f s.ownerSub }

/-- Update of one event queue of a subblock. -/
def State.modEvq (s : State) (src : Src) (e : Fin 16) (f : EvQ → EvQ) : State :=
  s.modSub src fun b => { b with evq := upd b.evq e f }

/-- Update of one command queue of a subblock. -/
def State.modCmdq (s : State) (src : Src) (q : Fin 64) (f : CmdQ → CmdQ) : State :=
  s.modSub src fun b => { b with cmdq := upd b.cmdq q f }

/-- The port behind a subblock: the partition's (R412), or the owner port (R410). [DEDUCED: log 20] -/
def State.srcPort (s : State) : Src → Option Port
  | .part p => (s.part p).port
  | .owner => some s.ownerPort

/-- The subblock whose event queue 0 is the owner's event queue 0 (R410). [DEDUCED: log 20] -/
def State.ownerSrc (s : State) : Src :=
  match s.partOf s.ownerPort with
  | some p => .part p
  | none => .owner

/-- The commands taken from a subblock's queues that have not completed. [DEDUCED: log 20] -/
def State.taken (s : State) : Src → List Cmd
  | .part p => (s.part p).taken
  | .owner => s.ownerTaken

/-- Update of the commands taken. [DEDUCED: log 20] -/
def State.modTaken (s : State) (src : Src) (f : List Cmd → List Cmd) : State :=
  match src with
  | .part p => s.modPart p fun q => { q with taken := f q.taken }
  | .owner => { s with ownerTaken := f s.ownerTaken }

/-- CMDQ_CFG.ENABLE (R63). -/
def CmdQ.enabled (q : CmdQ) : Bool := q.cfg.getLsbD 31
/-- CMDQ_STATUS.ACTIVE (R63). -/
def CmdQ.active (q : CmdQ) : Bool := q.enabled && !q.error
/-- The number of entries of a command queue (R63). -/
def CmdQ.size (q : CmdQ) : Nat := 2 ^ max 4 (min 12 (bitsOf q.cfg 3 0))
/-- The commands of one arbitration turn (R63). -/
def CmdQ.weight (q : CmdQ) : Nat := max 1 (bitsOf q.cfg 11 8)
/-- The event queue that a command queue's completions go to (R63). -/
def CmdQ.evq (q : CmdQ) : Fin 16 := Fin.ofNat 16 (bitsOf q.cfg 19 16)

/-- EVQ_CFG.ENABLE (R63). -/
def EvQ.enabled (q : EvQ) : Bool := q.cfg.getLsbD 31
/-- The number of records of an event queue (R63). -/
def EvQ.size (q : EvQ) : Nat := 2 ^ (min 10 (bitsOf q.cfg 3 0) + 6)
/-- The unconsumed records of an event queue (R72). [DEDUCED: log 18] -/
def EvQ.used (q : EvQ) : Nat :=
  if q.full then q.size else (q.tail + q.size - q.head) % q.size

/-- The host address of the slot that an event queue writes next (R63, R69). -/
def EvQ.slotAddr (q : EvQ) : Nat := q.baseLo.toNat / 4096 * 4096 + q.baseHi.toNat * 2 ^ 32 + 32 * q.tail

/-! ## Records as the host memory has them (R3, R69, R74) -/

/-- The 32 bytes of an event record (R69). -/
def EventRec.bytes (r : EventRec) (phase : Bool) : List Byte :=
  leBytes 2 (r.code % 2 ^ 15 + if phase then 2 ^ 15 else 0) ++
    [BitVec.ofNat 8 (r.severity % 16 + r.code / 2 ^ 12 % 8 * 16), BitVec.ofNat 8 r.partition] ++
    leBytes 4 r.request.toNat ++ leBytes 8 r.time ++ leBytes 8 r.a.toNat ++ leBytes 8 r.b.toNat

/-- The 8 bytes of an output record (R74). -/
def OutputRec.bytes (r : OutputRec) : List Byte :=
  leBytes 4 r.token.toNat ++ leBytes 2 r.logprob.toNat ++
    [BitVec.ofNat 8 ((if r.phase then 128 else 0) + (if r.isEnd then 1 else 0) + (if r.deadlineMissed then 2 else 0) +
      if r.drafted then 4 else 0), r.step]

/-- The write of host memory that a thing sent is: the port, the address and the bytes, in one aligned write (R69, R74). -/
def Out.hostWrite : Out → Option (Port × Nat × List Byte)
  | .event port _ _ _ addr phase r => some (port, addr, r.bytes phase)
  | .output port _ _ addr r => some (port, addr, r.bytes)
  | _ => none

/-- Ring time is trusted (R316): on the master, LOCKED to the master, or with PINS.HOLDOVER. -/
def State.trusted (s : State) : Bool :=
  s.pinsCfg.holdover || s.ring.state == .master || (s.ring.state == .locked && !s.ring.sourceHoldover)

/-! ## Sending -/

/-- One thing sent. [DESIGN CHOICE: log 15] -/
def State.send (s : State) (o : Out) : State := { s with out := s.out ++ [o] }

/-- A port issues transactions (R58): its link is up and its frame is in service. -/
def State.portLive (s : State) (p : Port) : Bool := (s.port p).linkUp && !(s.port p).lost

/-- A port takes records: it is live, and no FLR waits for the end of a stop of its partition (R53, R58, R197). [DEDUCED: log 16] -/
def State.takesRecords (s : State) (p : Port) : Bool :=
  s.portLive p && !allParts.any fun q => (s.part q).flrPending && (s.part q).port == some p

/-- A write to host memory, held where the port takes none (R58, R197). [DESIGN CHOICE: log 15; DEDUCED: log 16] -/
def State.sendOn (s : State) (p : Port) (o : Out) : State :=
  if s.takesRecords p then s.send o else s.modPort p fun x => { x with held := x.held ++ [o] }

/-- The vector of an event queue is raised (R73, R405): a message, or a pending bit while the vector is masked. -/
def State.raise (s : State) (p : Port) (v : Fin 256) : State :=
  let e := (s.port p).msix.get v
  if e.ctrl.getLsbD 0 then
    s.modPort p fun x => { x with msix := upd x.msix v fun e => { e with pending := true } }
  else s.sendOn p (.msix p v.val)

/-- EVQ_IRQ.VECTOR (R63). -/
def EvQ.vector (q : EvQ) : Fin 256 := Fin.ofNat 256 (bitsOf q.irq 7 0)

/-- Records that are pending raise the vector (R73). -/
def EvQ.due (q : EvQ) (urgent : Bool) : Bool :=
  q.irq.getLsbD 31 && decide (0 < q.pending) &&
    (urgent || bitsOf q.irq 15 8 == 0 || bitsOf q.irq 29 16 == 0 || decide (bitsOf q.irq 15 8 ≤ q.pending))

/-- Every pending record of a queue is told by one interrupt (R73). -/
def State.interrupt (s : State) (src : Src) (e : Fin 16) : State :=
  match s.srcPort src with
  | none => s
  | some p => (s.modEvq src e fun q => { q with pending := 0 }).raise p ((s.sub src).evq.get e).vector

/-- One record in the next slot of an event queue, with its phase bit, and the interrupt that it causes (R69, R70, R73).
A record for a port that takes none is held, takes no slot and is never written (R58, R197). [DEDUCED: log 16] -/
def State.putRecord (s : State) (src : Src) (e : Fin 16) (r : EventRec) : State :=
  match s.srcPort src with
  | none => s
  | some p =>
    let q := (s.sub src).evq.get e
    if s.takesRecords p then
      let tail := if q.tail + 1 < q.size then q.tail + 1 else 0
      let q' := { q with
        tail := tail
        phase := if q.tail + 1 < q.size then q.phase else !q.phase
        full := decide (tail = q.head)
        pending := q.pending + 1
        oldest := if q.pending = 0 then s.uptime else q.oldest }
      let s := (s.send (.event p src e.val q.tail q.slotAddr q.phase r)).modEvq src e fun _ => q'
      if q'.due (r.code == 0x7023 || decide (4 ≤ r.severity)) then s.interrupt src e else s
    else s.sendOn p (.event p src e.val q.tail q.slotAddr q.phase r)

/-- The PARTITION field of an event that concerns no single partition (R69). -/
def srcNumber : Src → Nat
  | .part p => p.val
  | .owner => 0xFF

/-- A record that the Salol writes of itself into a queue. -/
def State.ownRecord (s : State) (src : Src) (code a b : Nat) : EventRec :=
  { code := code, severity := 1, partition := (srcNumber src), request := 0xFFFFFFFF, time := s.now,
    a := BitVec.ofNat 64 a, b := BitVec.ofNat 64 b }

/-- The end of an overflow once two slots are free (R72 step 3). [DEDUCED: log 18] -/
def State.resumeEvq (s : State) (src : Src) (e : Fin 16) : State :=
  let q := (s.sub src).evq.get e
  match q.overflow with
  | some (n, t) =>
    if q.used + 2 ≤ q.size then
      (s.modEvq src e fun q => { q with overflow := none }).putRecord src e (s.ownRecord src 0x7024 n t)
    else s
  | none => s

/-- An event aimed at one event queue: dropped and counted where the queue is not enabled (R71) or overflows (R72),
and otherwise written. -/
def State.toEvq (s : State) (src : Src) (e : Fin 16) (r : EventRec) : State :=
  let q := (s.sub src).evq.get e
  if !q.enabled then s.modEvq src e fun q => { q with dropped := satAdd q.dropped 1 }
  else match q.overflow with
    | some (n, t) =>
      s.modEvq src e fun q => { q with dropped := satAdd q.dropped 1, overflow := some (n + 1, t) }
    | none =>
      if q.used + 1 < q.size then s.putRecord src e r
      else (s.putRecord src e (s.ownRecord src 0x7023 e.val r.code)).modEvq src e fun q =>
        { q with dropped := satAdd q.dropped 1, overflow := some (1, s.now) }

/-! ## Events and where they go (R54, R71, R410, R412) -/

/-- What an event says, before it is stamped and aimed. -/
structure Ev where
  code : Nat
  sev : Nat
  a : Nat := 0
  b : Nat := 0
  request : Nat := 0xFFFFFFFF

/-- The record of an event, for a partition or for none. [DESIGN CHOICE: log 17] -/
def State.recordOf (s : State) (part : Nat) (v : Ev) : EventRec :=
  { code := v.code, severity := v.sev, partition := part, request := BitVec.ofNat 32 v.request, time := s.now,
    a := BitVec.ofNat 64 v.a, b := BitVec.ofNat 64 v.b }

/-- An event to the owner's event queue 0. Its PARTITION is the partition it concerns or, where it concerns none, the
queue's own (R69). [DESIGN CHOICE: log 17] -/
def State.toOwner (s : State) (part : Option Part) (v : Ev) : State :=
  let src := s.ownerSrc
  s.toEvq src 0 (s.recordOf (match part with | some p => p.val | none => (srcNumber src)) v)

/-- An event to an event queue of a partition; to the owner's event queue 0 where the partition has no port (R412). [DESIGN CHOICE: log 17] -/
def State.toPart (s : State) (p : Part) (e : Fin 16) (v : Ev) : State :=
  if (s.part p).port.isSome then s.toEvq (.part p) e (s.recordOf p.val v) else s.toOwner (some p) v

/-- The partition belongs to a tenant: to a port other than the owner port. -/
def State.isTenant (s : State) (p : Part) : Bool :=
  match (s.part p).port with
  | some q => q != s.ownerPort
  | none => false

/-- An event to a partition's event queue 0 and, for a tenant's, to the owner's too (R54). [DESIGN CHOICE: log 17] -/
def State.toBoth (s : State) (p : Part) (v : Ev) : State :=
  let s := s.toPart p 0 v
  if s.isTenant p then s.toOwner (some p) v else s

/-- An event to event queue 0 of a subblock. [DESIGN CHOICE: log 17] -/
def State.toSrc (s : State) (src : Src) (e : Fin 16) (v : Ev) : State :=
  match src with
  | .part p => s.toPart p e v
  | .owner => s.toEvq .owner e (s.recordOf 0xFF v)

/-! ## Completion of commands (R66, R68, R77) -/

/-- Command statuses (R68). -/
def stOk : Nat := 0
def stBadOpcode : Nat := 1
def stBadField : Nat := 2
def stBadHandle : Nat := 3
def stWrongState : Nat := 4
def stNotPermitted : Nat := 5
def stRefused : Nat := 6
def stBusy : Nat := 7
def stHostRead : Nat := 8
def stAborted : Nat := 9

/-- CMD_DONE detail A (R77). -/
def Cmd.detail (c : Cmd) (status : Nat) : Nat :=
  c.tag + c.opcode * 2 ^ 16 + status * 2 ^ 24 + c.queue.val * 2 ^ 32

/-- A command completes: it leaves the commands taken, and `CMD_DONE` is written on a failure, or with NOTIFY
(R66, R68). [DESIGN CHOICE: log 17] -/
def State.done (s : State) (src : Src) (c : Cmd) (status : Nat) (b : Nat := 0) : State :=
  let evq := ((s.sub src).cmdq.get c.queue).evq
  let s := s.modTaken src fun l => l.filter fun d => decide (d.id ≠ c.id)
  if status ≠ stOk ∨ c.flags.getLsbD 0 then
    s.toSrc src evq { code := 0x7020, sev := if status = stOk then 0 else 1, a := c.detail status, b := b }
  else s

/-- A transfer comes to the controllers that serve it (R91, R294). [DEDUCED: log 47] -/
def State.arrive (s : State) (p : Option Part) (k : XferKind) : State :=
  { s with arrivals := ((p, k), s.uptime) :: s.arrivals.filter fun x => x.1 ≠ (p, k) }

/-- Billets that a `MODEL_LOAD` has written, for its `CMD_DONE` (R77, R189). -/
def Cmd.written (c : Cmd) : Nat := match c.run with | .loading _ _ n => n | _ => 0

/-- Update of one taken command. -/
def State.modCmd (s : State) (src : Src) (id : Nat) (f : Cmd → Cmd) : State :=
  s.modTaken src fun l => modifyFirst (fun c => c.id == id) f l

/-- Opcodes whose entry names a request (R67, R281); in the others the field is reserved (R66). -/
def requestOps : List Nat := [0x01, 0x02, 0x03, 0x04, 0x20, 0x30]

/-- Two commands name the same request (R65). -/
def Cmd.sameReq (c d : Cmd) : Bool :=
  requestOps.contains c.opcode && requestOps.contains d.opcode && d.request == c.request && c.request != 0xFFFFFFFF

/-- A command that may go on: it is not waiting for host memory, every earlier command of its queue has started,
no earlier one of its queue names its request, and with ORDERED every earlier one has completed (R65). [DEDUCED: log 19] -/
def Cmd.eligible (l : List Cmd) (c : Cmd) : Bool :=
  !c.reading && l.all fun d =>
    if d.queue = c.queue ∧ d.id < c.id then
      d.started && !c.sameReq d && !c.flags.getLsbD 1
    else true

/-- Opcodes of commands that take effect at a step boundary (R65, R191, R228, R261, R269-R271, R281, R282). [DEDUCED: log 19] -/
def boundaryOps : List Nat := [0x01, 0x02, 0x03, 0x04, 0x11, 0x20, 0x30, 0x31]

/-- Commands of one queue that take effect at a step boundary do so in queue order (R65, R208): every earlier one has. [DEDUCED: log 19] -/
def Cmd.inOrder (l : List Cmd) (c : Cmd) : Bool :=
  l.all fun d => !(d.queue == c.queue && decide (d.id < c.id) && boundaryOps.contains d.opcode && d.run == .idle)

/-- A consumed command whose turn it is to take effect at a step boundary. -/
def Cmd.turn (l : List Cmd) (c : Cmd) : Bool := c.started && c.run == .idle && c.eligible l && c.inOrder l

/-- The oldest eligible command of an opcode that is not already running over several events. [DESIGN CHOICE: log 5; DEDUCED: log 19] -/
def State.pickCmd (s : State) (src : Src) (opcode : Nat) : Option Cmd :=
  (s.taken src).find? fun c => c.opcode == opcode && c.run == .idle && c.eligible (s.taken src)

/-! ## Reads of host memory (R56, R58) -/

/-- Tags have 14 bits, and a port has at most 1,024 non-posted requests outstanding (R56). -/
def tagCount : Nat := 16384
def readLimit : Nat := 1024

/-- The largest read of host memory: 4 KiB, which the size set in Device Control may cut further (R56). [DESIGN CHOICE: log 57] -/
def maxReadRequest : Nat := 4096

/-- The requests that a read of host memory takes: aligned pieces of at most the largest size (R56). [DESIGN CHOICE: log 57] -/
def HostRead.pieces (r : HostRead) : Nat := (r.addr + r.len - 1) / maxReadRequest - r.addr / maxReadRequest + 1

/-- The requests outstanding on a port (R56). -/
def State.outstanding (s : State) (p : Port) : Nat :=
  ((s.reads.filter fun r => r.port == p && r.sent).map HostRead.pieces).sum

/-- A read can go out on its port now (R56). One longer than the limit goes when nothing is outstanding. [DESIGN CHOICE: log 57] -/
def State.mayIssue (s : State) (r : HostRead) : Bool :=
  s.outstanding r.port == 0 || decide (s.outstanding r.port + r.pieces ≤ readLimit)

/-- The first tag from `t` on that no read holds. -/
def nextFreeTag (l : List HostRead) (t : Nat) : Nat → Nat
  | 0 => t
  | n + 1 => if l.any fun r => r.tag == t then nextFreeTag l ((t + 1) % tagCount) n else t

/-- The next tag of 14 bits that no read holds (R56). -/
def State.freeTag (s : State) : Nat := nextFreeTag s.reads (s.nextTag % tagCount) s.reads.length

/-- A read of host memory goes out on a port, or waits there for room. [DESIGN CHOICE: log 15, 22, 57] -/
def State.issueRead (s : State) (p : Port) (addr len : Nat) (why : ReadFor) : State :=
  let tag := s.freeTag
  let rd : HostRead := { port := p, tag := tag, addr := addr, len := len, issued := s.uptime, why := why }
  let ok := s.mayIssue rd && !s.reads.any fun r => r.port == p && !r.sent
  let s := { s with reads := s.reads ++ [{ rd with sent := ok }], nextTag := (tag + 1) % tagCount }
  if ok then s.send (.hostRead p tag addr len) else s

/-- Reads that wait for room on a port go out, oldest first, as far as there is room (R56). [DESIGN CHOICE: log 57] -/
def State.pumpReads (s : State) (p : Port) : State :=
  (s.reads.filter fun r => r.port == p && !r.sent).foldl (fun s r =>
    if s.mayIssue r && (s.reads.find? fun x => x.port == p && !x.sent) == some r then
      ({ s with reads := s.reads.map fun (x : HostRead) => if x.tag = r.tag then { x with sent := true, issued := s.uptime } else x } : State).send
        (.hostRead p r.tag r.addr r.len)
    else s) s

/-- Reads that are no longer outstanding leave, and those that waited for their room go out (R56). -/
def State.dropReads (s : State) (gone : HostRead → Bool) : State :=
  [0, 1, 2, 3].foldl State.pumpReads { s with reads := s.reads.filter fun r => !gone r }

/-- A read is for a partition. -/
def HostRead.ofPart (r : HostRead) (p : Part) : Bool :=
  match r.why with
  | .ring q _ => q == p
  | .cmd (.part q) _ => q == p
  | .cmd .owner _ => false

/-- A read is for a command of the owner queue subblock. -/
def HostRead.ofOwner (r : HostRead) : Bool := match r.why with | .cmd .owner _ => true | _ => false

/-- A command asks for its next read of host memory; on a port that issues no transaction the read fails (R58), and the
command with it. [DESIGN CHOICE: log 22] -/
def State.cmdRead (s : State) (src : Src) (c : Cmd) (addr len : Nat) : State :=
  match s.srcPort src with
  | some p =>
    if s.portLive p then
      (s.issueRead p addr len (.cmd src c.id)).modCmd src c.id fun (c : Cmd) => { c with reading := true, started := true }
    else s.done src c stHostRead c.written
  | none => s.done src c stHostRead c.written

/-! ## Weight repairs and their entries (R300, R345) -/

/-- The entries of weight repairs follow their repairs (R345): HANDLING while the billet is refetched, QUEUED while it waits for START or
for a supply, gone with the repair. [DESIGN CHOICE: log 64] -/
def followRepairs (p : Part) (repairs : List Repair) (l : List FaultEntry) : List FaultEntry :=
  l.filterMap fun e =>
    match e.billet with
    | none => some e
    | some k => (repairs.find? fun r => r.part == p && (r.handle, r.region, r.billet) == k).map fun r =>
        { e with handling := r.phase == .refetch }

/-- Update of the weight repairs of a partition's models, with their entries in its fault FIFO. [DESIGN CHOICE: log 64] -/
def State.modRepairs (s : State) (p : Part) (f : List Repair → List Repair) : State :=
  let l := f s.repairs
  { s.modPart p fun q => { q with fifo := followRepairs p l q.fifo } with repairs := l }

end Sys2Proof.Machine
end

