-- ==== Sys2Proof/Machine/Formats.lean ====
section
/-! DEFINITION. Number formats and scales (R108, R134-R150): element codes, their values, the rounding of conversion
and the derivation of scales. -/

namespace Sys2Proof.Machine

/-- Element bits of a format code (R134). -/
def fmtBits : Nat → Nat
  | 0 => 16
  | 1 => 4
  | 2 => 6
  | 5 => 4
  | _ => 8

/-- Elements of K that one scale covers (R135, R136); 1 where there is no scale in the bank (R110). -/
def fmtBlock : Nat → Nat
  | 1 | 2 | 3 | 4 => 32
  | 5 => 64
  | _ => 1

/-- Bytes of one scale in a scale billet (R138). -/
def fmtScaleBytes : Nat → Nat
  | 1 | 2 | 3 | 4 => 1
  | 5 => 2
  | _ => 0

/-- Bytes per element of a cache format (R213). -/
def cacheSize (f : Nat) : Nat := if f = 0 then 2 else 1

/-- A cache format code (R134, R166). -/
def isCacheFmt (f : Nat) : Bool := f == 0 || f == 8 || f == 9 || f == 10

/-- The rank of a cache format (R152). -/
def cacheRank : Nat → Nat
  | 0 => 4
  | 10 => 3
  | 8 => 2
  | 9 => 1
  | _ => 0

/-- The value of a small floating-point code with no special codes. -/
def unpackMini (eb mb : Nat) (bias : Int) (w : Nat) : FVal :=
  let neg := w / 2 ^ (eb + mb) % 2 == 1
  let ef := w / 2 ^ mb % 2 ^ eb
  let mf := w % 2 ^ mb
  if ef = 0 then .fin neg mf (1 - bias - mb) else .fin neg (2 ^ mb + mf) (ef - bias - mb)

/-- The value of an integer code of `n` bits in units of 2^`e`. -/
def unpackInt (n w : Nat) (e : Int) : FVal :=
  if w < 2 ^ (n - 1) then .fin false w e else .fin true (2 ^ n - w) e

/-- The value of an element code (R134). -/
def elemVal (f w : Nat) : FVal :=
  match f with
  | 0 => unpackF 8 7 w
  | 1 => unpackMini 2 1 1 w
  | 2 => unpackMini 3 2 3 w
  | 3 | 8 => if w % 128 = 127 then .nan else unpackMini 4 3 7 w
  | 4 => unpackInt 8 w (-6)
  | 5 => if w = 8 then .fin false 0 0 else unpackInt 4 w 0
  | 9 => unpackF 5 2 w
  | _ => unpackInt 8 w 0

/-- The value of a scale code in a scale billet; `none` is the zero-range code (R135, R136). -/
def scaleVal (f w : Nat) : Option FVal :=
  match f with
  | 1 | 2 | 3 | 4 => if w = 0xFF then none else some (.fin false 1 ((w : Int) - 127))
  | 5 => if w = 0 then none else some (unpackF 8 7 w)
  | _ => some (.fin false 1 0)

/-- A weight element under its scale, as FP32 (R135, R136). -/
def weightVal (f code scale : Nat) : W32 :=
  match scaleVal f scale with
  | none => f32Zero
  | some s => f32Enc ((elemVal f code).times s)

/-- m x 2^e rounded into a small floating-point format, saturating at its largest finite code (R139). -/
def roundMini (mb : Nat) (bias : Int) (top : Nat) (m : Nat) (e : Int) : Nat :=
  if m = 0 then 0
  else
    let l : Int := e + (m.log2 : Int)
    if l < 1 - bias - mb - 1 then 0
    else if bias + 2 < l then top
    else
      let t : Int := max l (1 - bias) - mb
      let q :=
        if t ≤ e then m * 2 ^ (e - t).toNat
        else
          let d := (t - e).toNat
          let q := m / 2 ^ d
          let r := m % 2 ^ d
          let half := 2 ^ (d - 1)
          if half < r ∨ (r = half ∧ q % 2 = 1) then q + 1 else q
      min top (if q < 2 ^ mb then q else ((t - (1 - bias - mb)).toNat + 1) * 2 ^ mb + (q - 2 ^ mb))

/-- m x 2^e rounded to an integer, ties to even, cut at `top`. -/
def roundInt (top : Nat) (m : Nat) (e : Int) : Nat :=
  if 0 ≤ e then (if m = 0 then 0 else if 64 < e then top else min top (m * 2 ^ e.toNat))
  else if m.log2 + 2 < (-e).toNat then 0
  else
    let d := (-e).toNat
    let q := m / 2 ^ d
    let r := m % 2 ^ d
    let half := 2 ^ (d - 1)
    min top (if half < r ∨ (r = half ∧ q % 2 = 1) then q + 1 else q)

/-- The code that a magnitude rounds to. -/
def encodeMag (f m : Nat) (e : Int) : Nat :=
  match f with
  | 1 => roundMini 1 1 7 m e
  | 2 => roundMini 2 3 0x1F m e
  | 3 | 8 => roundMini 3 7 0x7E m e
  | 9 => roundMini 2 15 0x7B m e
  | 4 => roundInt 127 m (e + 6)
  | 5 => roundInt 7 m e
  | _ => roundInt 127 m e

/-- The largest finite code of a format's magnitude. -/
def topMag : Nat → Nat
  | 1 => 7
  | 2 => 0x1F
  | 3 | 8 => 0x7E
  | 9 => 0x7B
  | 5 => 7
  | _ => 127

/-- A magnitude code with its sign: a sign bit, or two's complement; +0 where the magnitude is 0 (R139). -/
def signCode (f : Nat) (neg : Bool) (c : Nat) : Nat :=
  if !neg || c = 0 then c
  else if f = 4 ∨ f = 5 ∨ f = 6 ∨ f = 10 then 2 ^ fmtBits f - c
  else 2 ^ (fmtBits f - 1) + c

/-- Conversion of a value under a scale (R139, R140): BF16 by R124. [DEDUCED: log 32] -/
def encodeElem (f : Nat) (x scale : W32) : Nat :=
  if f = 0 then (bf16OfF32 x).toNat
  else match f32Val x with
    | .nan => 0
    | .inf neg => signCode f neg (topMag f)
    | .fin _ _ _ =>
      match f32Val (f32Div x scale) with
      | .fin neg m e => signCode f neg (encodeMag f m e)
      | .inf neg => signCode f neg (topMag f)
      | .nan => 0

/-- The largest finite magnitude of a list (R140, R141). -/
def amaxOf (l : List W32) : W32 :=
  l.foldl (fun a x => if f32IsFinite x && f32Lt a (f32Abs x) then f32Abs x else a) f32Zero

/-- The NaN and infinite elements of a list (R140). -/
def nonfiniteOf (l : List W32) : Nat := (l.filter fun x => !f32IsFinite x).length

/-- The largest finite element value of an MX format (R141). -/
def mxTop : Nat → FVal
  | 1 => .fin false 6 0
  | 2 => .fin false 28 0
  | 3 => .fin false 448 0
  | _ => .fin false 127 (-6)

/-- The scale that R141 derives from the largest magnitude: its code and its value; a zero range has no value. -/
def deriveScale (f : Nat) (amax : W32) : Nat × Option W32 :=
  match f32Val amax with
  | .fin _ m e =>
    if m = 0 then (if f ≤ 4 then 0xFF else 0, none)
    else match f with
      | 1 | 2 | 3 | 4 =>
        let top := mxTop f
        let b : Int := match top with | .fin _ k j => j + (k.log2 : Int) | _ => 0
        let g : Int := e + (m.log2 : Int) - b
        let fits := !((top.times (.fin false 1 g)).lt (.fin false m e))
        let g := if fits then g else g + 1
        let g := max (-127) (min 127 g)
        ((g + 127).toNat, some (f32Enc (.fin false 1 g)))
      | 5 =>
        let s := bf16Enc ((FVal.fin false m e).quot (.fin false 7 0))
        let s := if s = 0 then 1 else s
        (s.toNat, some (f32OfBf16 s))
      | _ =>
        let s := f32Enc ((FVal.fin false m e).quot (.fin false 127 0))
        (s.toNat, if s = 0 then none else some s)
  | _ => (0, none)

/-! ## Page scales (R144-R150) -/

/-- The largest finite element value of a page format (R146). -/
def pageQmax : Nat → Nat
  | 8 => 448
  | 9 => 57344
  | _ => 127

/-- 2^-24, below which no page scale is set (R146). -/
def pageFloor : W32 := 0x33800000

/-- `k` x amax / qmax rounded to FP32, not below the floor (R146, R148). -/
def pageScale (f : Nat) (k : Nat) (amax : W32) : W32 :=
  let s := f32Enc (((f32Val amax).times (.fin false k 0)).quot (.fin false (pageQmax f) 0))
  if f32Lt s pageFloor then pageFloor else s

/-- A tensor whose largest finite magnitude exceeds SCALE x qmax, in FP32, would saturate (R147). [DEDUCED: log 32] -/
def saturates (f : Nat) (scale : W32) (t : List W16) : Bool :=
  f32Lt (f32Mul scale (f32OfInt (pageQmax f))) (amaxOf (t.map f32OfBf16))

/-- The value of an element of a page: its code times its tensor's scale, in FP32 (R144, R148). [DEDUCED: log 32] -/
def pageReal (f code : Nat) (scale : W32) : W32 :=
  if f = 0 then f32OfBf16 (BitVec.ofNat 16 code) else f32Enc ((elemVal f code).times (f32Val scale))

/-- An element of a page widened to BF16 (R239): its code times its tensor's scale. -/
def widen (f code : Nat) (scale : W32) : W16 :=
  if f = 0 then BitVec.ofNat 16 code else bf16Enc ((elemVal f code).times (f32Val scale))

/-! ## Packed codes in memory (R115, R116) -/

/-- The code of element `i` of a run of codes of a format that starts at an address. -/
def Memory.code (m : Memory) (f a i : Nat) : Nat :=
  let bit := fmtBits f * i
  leNat (m.readN (a + bit / 8) 3) / 2 ^ (bit % 8) % 2 ^ fmtBits f

/-- One 4-byte word of memory. -/
def Memory.word (m : Memory) (a : Nat) : W32 := BitVec.ofNat 32 (leNat (m.readN a 4))

/-- Codes of a format packed into bytes, the lowest in the lowest bits. -/
def packCodes (f : Nat) (codes : List Nat) : List Byte :=
  let v := codes.foldr (fun c acc => c % 2 ^ fmtBits f + 2 ^ fmtBits f * acc) 0
  leBytes (ceilDiv (fmtBits f * codes.length) 8) v

/-- BF16 elements of memory from an address. -/
def Memory.bf16s (m : Memory) (a n : Nat) : List W16 :=
  (List.range n).map fun i => BitVec.ofNat 16 (leNat (m.readN (a + 2 * i) 2))

end Sys2Proof.Machine
end

