-- ==== Sys2Proof/Machine/Sheet.lean ====
section
/-! DEFINITION. Sheet memory and peat memory as stored: the address map (R78, R79, R288), poison (R83), retired
banks and dies (R80), and raw reads and writes of blocks, billets and chunks. -/

namespace Sys2Proof.Machine

/-- Bytes of a segment, segments of a stack, logical tiles (R32, R78). -/
def segBytes : Nat := 2097152
def stackSegs : Nat := 40960
def tileCount : Nat := 60
/-- The module segments (R32). -/
def moduleSegs : Nat := 2457600
/-- The peat segments (R32). -/
def peatSegs : Nat := 3670016

/-- A place of sheet memory: logical tile, die, bank, row, column (R79). -/
structure SheetPlace where
  tile : Nat
  die : Nat
  bank : Nat
  row : Nat
  column : Nat
  deriving DecidableEq, Repr

/-- The address map of R78 and R79. -/
def placeOf (addr : Nat) : SheetPlace :=
  let seg := addr / segBytes
  let off := addr % segBytes
  let st := seg % stackSegs
  { tile := seg / stackSegs, die := st % 16, bank := st / 16 % 64,
    row := st / 1024 * 2048 + off / 1024, column := off % 1024 }

/-- The module sheet address of a row of a bank (R79). -/
def addrOfRow (tile die bank row : Nat) : Nat :=
  (tile * stackSegs + row / 2048 * 1024 + bank * 16 + die) * segBytes + row % 2048 * 1024

/-- The site that holds a logical tile in service. The stack of a site that carries no tile has no module address; it stands at
64 + the number of the site (R86). [DEDUCED: log 52] -/
def State.siteOf (s : State) (tile : Nat) : Option Site :=
  let i : Site := Fin.ofNat 64 tile
  if 64 ≤ tile then if tile < 128 ∧ (s.sites.get i).state ≠ .inService then some i else none
  else (List.finRange 64).find? fun i => (s.sites.get i).state == .inService && (s.sites.get i).tile == some tile

/-- Keys of the tables of dies and banks. -/
def dieKey (site : Site) (die : Nat) : Nat := site.val * 16 + die
def bankKey (site : Site) (die bank : Nat) : Nat := (site.val * 16 + die) * 64 + bank

/-- What a die controller keeps of its die. -/
def State.die (s : State) (k : Nat) : DieSt := (lookupA s.dies k).getD {}
/-- Update of a die's record. -/
def State.modDie (s : State) (k : Nat) (f : DieSt → DieSt) : State :=
  { s with dies := insertA s.dies k (f (s.die k)) }
/-- What a die controller keeps of a bank. -/
def State.bank (s : State) (k : Nat) : BankSt := (lookupA s.banks k).getD {}
/-- Update of a bank's record. -/
def State.modBank (s : State) (k : Nat) (f : BankSt → BankSt) : State :=
  { s with banks := insertA s.banks k (f (s.bank k)) }

/-- The die selected for margining is held (R97). -/
def State.dieHeld (s : State) (site : Site) (die : Nat) : Bool :=
  s.memMargin.held && bitsOf s.memMargin.sel 9 4 == site.val && bitsOf s.memMargin.sel 3 0 == die

/-- The die of a place is held for margining and serves nothing but refresh (R97). -/
def State.placeHeld (s : State) (pl : SheetPlace) : Bool :=
  match s.siteOf pl.tile with
  | some site => s.dieHeld site pl.die
  | none => false

/-- A bank that is retired, in a retired die, or of a tile with no site (R80, R339). -/
def State.bankRetired (s : State) (pl : SheetPlace) : Bool :=
  match s.siteOf pl.tile with
  | none => true
  | some site =>
    let d := s.die (dieKey site pl.die)
    d.retired || d.retiredBanks.contains pl.bank

/-- A bank that returns poison and discards writes: retired, or in a die whose cells a hold keeps untouched (R80, R97, R129). -/
def State.bankDead (s : State) (pl : SheetPlace) : Bool := s.bankRetired pl || s.placeHeld pl

/-- Some byte of a range lies in a die that is held for margining: no transfer there is served (R97). [DESIGN CHOICE: log 60] -/
def State.rangeHeld (s : State) (addr len : Nat) : Bool :=
  s.memMargin.held && (List.range ((addr % segBytes + max 1 len - 1) / segBytes + 1)).any fun i =>
    s.placeHeld (placeOf (addr / segBytes * segBytes + i * segBytes))

/-- A block of sheet memory as a reader gets it, before any new error: its bytes, and whether it is poisoned. -/
def State.block (s : State) (addr : Nat) : List Byte × Bool :=
  let b := addr / 64
  if s.poisoned.contains b || s.bankDead (placeOf addr) then (List.replicate 64 0, true)
  else (s.sheet.readN (b * 64) 64, false)

/-- The poison pattern over a block (R83), which no sheet line then holds (R94). -/
def State.poisonBlock (s : State) (b : Nat) : State :=
  { s with sheet := s.sheet.zeroN (b * 64) 64, poisoned := setAdd s.poisoned b
           sheetLines := s.sheetLines.filter fun x => x.2 ≠ b }

/-- A whole block written with fresh check bits, or as the poison pattern (R83, R85); discarded in a dead bank (R80). -/
def State.putBlock (s : State) (b : Nat) (bytes : List Byte) (poison : Bool) : State :=
  if s.bankDead (placeOf (b * 64)) then s
  else if poison then s.poisonBlock b
  else { s with sheet := s.sheet.writeN (b * 64) (bytes.take 64), poisoned := setDel s.poisoned b }

/-- Blocks from number `b` on: the bytes, and which blocks are poisoned. -/
def State.blocks (s : State) (b : Nat) : Nat → List (List Byte × Bool)
  | 0 => []
  | n + 1 => s.block (b * 64) :: s.blocks (b + 1) n

/-- Blocks written one after another. -/
def State.putBlocks (s : State) (b : Nat) : List (List Byte × Bool) → State
  | [] => s
  | (bytes, poison) :: l => (s.putBlock b bytes poison).putBlocks (b + 1) l

/-- Bytes cut into blocks of 64, `n` of them. -/
def cutBlocks (bytes : List Byte) : Nat → List (List Byte × Bool)
  | 0 => []
  | n + 1 => ((bytes.take 64) ++ List.replicate (64 - bytes.length) 0, false) :: cutBlocks (bytes.drop 64) n

/-- Whether any block of a byte range is poisoned or dead. -/
def State.rangePoisoned (s : State) (addr len : Nat) : Bool :=
  (List.range (ceilDiv (addr % 64 + len) 64)).any fun i => (s.block ((addr / 64 + i) * 64)).2

/-- A range of sheet memory zeroed with fresh check bits (R49). In a die held for margining, whose cells stay untouched until its hold
ends (R97), it counts as done at once: no access reaches them before, so that none can tell. [DESIGN CHOICE: log 60] -/
def State.zeroSheet (s : State) (addr len : Nat) : State :=
  { s with sheet := s.sheet.zeroN addr len, poisoned := setDelRange s.poisoned (addr / 64) (len / 64) }

/-! ## Peat memory (R288, R289) -/

/-- A chunk of peat memory as a reader gets it: its bytes, and whether it is poisoned; all poison once the tier is retired (R340). -/
def State.chunk (s : State) (c : Nat) : List Byte × Bool :=
  if s.peatRetired || s.peatPoisoned.contains c then (List.replicate 256 0, true)
  else (s.peat.readN (c * 256) 256, false)

/-- A whole chunk written, marked poisoned where it arrives poisoned; discarded once the tier is retired. -/
def State.putChunk (s : State) (c : Nat) (bytes : List Byte) (poison : Bool) : State :=
  if s.peatRetired then s
  else if poison then
    { s with peat := s.peat.zeroN (c * 256) 256, peatPoisoned := setAdd s.peatPoisoned c }
  else { s with peat := s.peat.writeN (c * 256) (bytes.take 256), peatPoisoned := setDel s.peatPoisoned c }

/-- A range of peat memory zeroed. -/
def State.zeroPeat (s : State) (addr len : Nat) : State :=
  { s with peat := s.peat.zeroN addr len, peatPoisoned := setDelRange s.peatPoisoned (addr / 256) (len / 256) }

/-- A copy of `n` 4-block chunks from sheet memory to the peat tier: a chunk with a poisoned block is marked poisoned. -/
def State.sheetToPeat (s : State) (b c : Nat) : Nat → State
  | 0 => s
  | n + 1 =>
    let l := s.blocks b 4
    (s.putChunk c (l.flatMap (·.1)) (l.any (·.2))).sheetToPeat (b + 4) (c + 1) n

/-- A copy of `n` chunks from the peat tier to sheet memory: every block of a poisoned chunk arrives as the poison
pattern (R289). `bad` lists chunks that read UNCORRECTABLE now. -/
def State.peatToSheet (s : State) (bad : List Nat) (c b : Nat) : Nat → State
  | 0 => s
  | n + 1 =>
    let (bytes, poison) := s.chunk c
    let poison := poison || bad.contains c
    (s.putBlocks b ((cutBlocks bytes 4).map fun x => (x.1, poison))).peatToSheet bad (c + 1) (b + 4) n

/-- A copy of `n` blocks within sheet memory; `bad` lists blocks that read UNCORRECTABLE now. -/
def State.copyBlocks (s : State) (bad : List Nat) (src dst : Nat) : Nat → State
  | 0 => s
  | n + 1 =>
    let (bytes, poison) := s.block (src * 64)
    (s.putBlock dst bytes (poison || bad.contains src)).copyBlocks bad (src + 1) (dst + 1) n

/-- A memory in which `n` bytes from `dst` are those that were at `src`. -/
def Memory.moveN (m : Memory) (src dst n : Nat) : Memory :=
  let cells := (m.filter fun c => decide (src ≤ c.1) && decide (c.1 < src + n)).map fun c => (c.1 - src + dst, c.2)
  (m.filter fun c => decide (c.1 < dst)) ++ cells ++ m.filter fun c => decide (dst + n ≤ c.1)

/-- A set with a range of numbers added. -/
def setAddRange (l : List Nat) (a n : Nat) : List Nat :=
  (l.filter fun k => decide (k < a)) ++ (List.range n).map (· + a) ++ l.filter fun k => decide (a + n ≤ k)

/-- A copy of a range of whole blocks within sheet memory, poison as poison; discarded in a dead bank. No line of the blocks written
stays in the shared cache (R94). [DEDUCED: log 48] -/
def State.copyRange (s : State) (src dst len : Nat) : State :=
  let b := src / 64
  let d := dst / 64
  let n := len / 64
  let lines := s.sheetLines.filter fun x => !(decide (d ≤ x.2) && decide (x.2 < d + n))
  if s.bankDead (placeOf dst) then s
  else if s.bankDead (placeOf src) then
    { s with sheet := s.sheet.zeroN dst len, poisoned := setAddRange s.poisoned d n, sheetLines := lines }
  else
    let moved := (s.poisoned.filter fun k => decide (b ≤ k) && decide (k < b + n)).map fun k => k - b + d
    { s with
      sheet := s.sheet.moveN src dst len
      poisoned := (s.poisoned.filter fun k => decide (k < d)) ++ moved ++ s.poisoned.filter fun k => decide (d + n ≤ k)
      sheetLines := lines }

/-- `n` free bytes, from the `k`-th free value on. [DESIGN CHOICE: log 1] -/
def freeBytes (k n : Nat) : List Byte := (List.range n).map fun i => BitVec.ofNat 8 (Config.fresh (k + i))

/-- Sheet memory whose contents the manual calls undefined (R10): `n` free bytes from an address on. [DEDUCED: log 11] -/
def State.spoil (s : State) (addr n : Nat) : State :=
  { s with sheet := s.sheet.writeN addr (freeBytes s.fresh n), fresh := s.fresh + n }

/-- Peat memory whose contents the manual calls undefined (R10). [DEDUCED: log 11] -/
def State.spoilPeat (s : State) (addr n : Nat) : State :=
  { s with peat := s.peat.writeN addr (freeBytes s.fresh n), fresh := s.fresh + n }

/-- An outcome that settles what a block reads as, also a block that held the poison pattern (R82). -/
def outcomeWhole : Outcome → Bool
  | .uncorrectable | .missed _ _ => true
  | .clean | .corrected _ => false

/-- The keys of a command's decoder outcomes that are UNCORRECTABLE. -/
def badOf (e : Errs) : List Nat := (e.filter fun x => x.2 == .uncorrectable).map (·.1)

end Sys2Proof.Machine
end

