-- ==== Sys2Proof/Machine/Pages.lean ====
section
/-! DEFINITION. Cache pages: pool parts and their carving (R212-R214), page numbers, descriptors and list blocks
(R215-R219), allocation and release (R220, R221, R230), the reserved state (R217). -/

namespace Sys2Proof.Machine

/-- No block, no page, no handle. -/
def none32 : Nat := 0xFFFFFFFF

/-! ## Pools and parts -/

/-- The KIND 2 regions of a package in REGION order: the model's pool parts (R212, R215). -/
def Package.poolRegions (k : Package) : List Nat :=
  (List.range k.regions.length).filter fun i => (k.regions[i]?.map (·.kind)) == some 2

/-- The run of KIND 2 regions downward from a region. -/
def Package.runDown (k : Package) : Nat → Nat
  | 0 => 0
  | i + 1 => if (k.regions[i]?.map (·.kind)) == some 2 then k.runDown i else i + 1

/-- The end of the run of KIND 2 regions upward from a region. -/
def Package.runUp (k : Package) (i : Nat) : Nat → Nat
  | 0 => i
  | fuel + 1 => if (k.regions[i]?.map (·.kind)) == some 2 then k.runUp (i + 1) fuel else i

/-- The part indices of a shard's pool (R212): one part for a head group, the longest run for a latent shard. -/
def Package.shardParts (k : Package) (sh : ShardRec) : List Nat :=
  let all := k.poolRegions
  let regions :=
    if sh.kind = 0 then [sh.pool]
    else let lo := k.runDown sh.pool
      (List.range (k.runUp sh.pool k.regions.length - lo)).map (· + lo)
  regions.filterMap fun r => all.findIdx? (· == r)

/-- Rounding up to a multiple of 64 elements (R116, R213). -/
def pad64 (n : Nat) : Nat := roundUp n 64

/-- Elements of an entry of a shard, padded (R166). -/
def ShardRec.padded (sh : ShardRec) : Nat := pad64 (sh.dim0 + sh.dim1)

/-- Bytes of a page of a shard in a cache format (R116). -/
def ShardRec.pageBytes (sh : ShardRec) (fmt : Nat) : Nat := 64 * sh.padded * cacheSize fmt

/-- Bytes of a scratch buffer of a model (R224). -/
def Package.bufferBytes (k : Package) : Nat := roundUp (32 * (k.shards.map ShardRec.padded).sum * 2) 4096

/-- Some byte of a range of sheet memory lies in a segment. -/
def rangeMeets (a len seg : Nat) : Bool := decide (seg * segBytes < a + len) && decide (a < (seg + 1) * segBytes)

/-- Pages of a shard's ring (R226); none for a full-context shard. -/
def ShardRec.ringLen (sh : ShardRec) : Option Nat :=
  if sh.window = 0 then none else some (ceilDiv sh.window 64 + 1)

/-- The list entry of a position (R220, R226). -/
def ShardRec.entryOf (sh : ShardRec) (q : Nat) : Nat :=
  match sh.ringLen with
  | none => q / 64
  | some r => q / 64 % r

/-- The list entries that positions below `n` need (R220, R226). -/
def ShardRec.need (sh : ShardRec) (n : Nat) : Nat :=
  match sh.ringLen with
  | none => ceilDiv n 64
  | some r => min r (ceilDiv n 64)

/-- The largest number of slots of a part (R213). -/
def capSlots (n : Nat) : Nat := min n 16777214

/-- The numbers of a part with so many slots (R213). -/
def numbersFor (slots : Nat) : Nat := min (2 * slots) 16777215

/-- The bytes of a part's header (R213). -/
def headerBytes (slots esc : Nat) : Nat :=
  let n := numbersFor slots
  roundUp (n * 16) 4096 + roundUp (n * 32) 4096 + roundUp (ceilDiv n 64 * esc) 4096 +
    roundUp (ceilDiv n 16 * 256) 4096 + roundUp (n * 4) 4096 + roundUp (slots * 4) 4096

/-- The smallest header of a part of `c` segments, trying `h` upward (R213). -/
def headerSegs (c perSeg esc h : Nat) : Nat → Nat
  | 0 => h
  | fuel + 1 =>
    if headerBytes (capSlots (perSeg * (c - h))) esc ≤ h * segBytes then h else headerSegs c perSeg esc (h + 1) fuel

/-- Rows of a page slot of a part: the largest over the shards of its pool (R213). -/
def Package.partRows (k : Package) (part : Nat) : Nat :=
  ((k.shards.filter fun sh => (k.shardParts sh).contains part).map fun sh => sh.pageBytes sh.format / 1024).foldl max 0

/-- Bytes of an escape record of a part (R145, R213). -/
def Package.partEsc (k : Package) (part : Nat) : Nat :=
  roundUp (4 * ((k.shards.filter fun sh => (k.shardParts sh).contains part).map fun sh => sh.dim0 + sh.dim1).foldl max 0) 64

/-- Page slots in the order of the slot free stack (R214), less those in ash-listed segments (R80). -/
def slotOrder (first header count perSeg slots : Nat) (ash : List Nat) : List Nat :=
  ((List.range perSeg).flatMap fun i => (List.range (count - header)).map fun g => g * perSeg + i).filter fun k =>
    decide (k < slots) && !ash.contains (first + header + k / perSeg)

/-- One pool part carved (R213). -/
def carvePart (k : Package) (part region first count : Nat) (ash : List Nat) : PoolPart :=
  let rows := k.partRows part
  let perSeg := if rows = 0 then 0 else 2048 / rows
  let esc := k.partEsc part
  let h := headerSegs count perSeg esc 0 (count + 1)
  let slots := capSlots (perSeg * (count - h))
  let numbers := numbersFor slots
  { region := region, first := first, count := count, rows := rows, perSeg := perSeg, header := h, slots := slots,
    numbers := numbers, esc := esc,
    freeSlots := slotOrder first h count perSeg slots ash,
    freeNumbers := List.range numbers, freeScales := List.range numbers, freeEscs := List.range (ceilDiv numbers 64),
    freeBlocks := List.range (ceilDiv numbers 16), descs := [], scales := [], escs := [], withdrawn := [], lost := false }

/-- The PLACE record of a region (R37). -/
def Partition.place (p : Partition) (handle region : Nat) : Option Place :=
  p.places.find? fun x => x.model == handle && x.region == region

/-- Segments of a pool part given up to relief at `MODEL_LOAD` (R334): the part's count falls from the top. -/
def Partition.reliefIn (p : Partition) (handle first count : Nat) : Nat :=
  let l := (p.relief.filter fun r => r.handle == handle && decide (first ≤ r.relief) && decide (r.relief < first + count)).map
    (·.relief)
  first + count - l.foldl min (first + count)

/-- The parts of a model, carved at the first use of its pools (R145, R213). -/
def Partition.carve (p : Partition) (m : Model) (ash : List Nat) : List PoolPart :=
  let regions := m.pkg.poolRegions
  (List.range regions.length).map fun i =>
    let r := regions.getD i 0
    match p.place m.handle r with
    | some pl => carvePart m.pkg i r pl.sheetFirst (pl.sheetCount - p.reliefIn m.handle pl.sheetFirst pl.sheetCount) ash
    | none => carvePart m.pkg i r 0 0 ash

/-- A model with its pools carved. -/
def Partition.carved (p : Partition) (handle : Nat) (ash : List Nat) : Partition :=
  p.modModel handle fun m => if m.parts.isSome then m else { m with parts := some (p.carve m ash) }

/-- The parts of a model. -/
def Model.pool (m : Model) : List PoolPart := m.parts.getD []

/-- Update of one part. -/
def Model.modPool (m : Model) (i : Nat) (f : PoolPart → PoolPart) : Model :=
  { m with parts := m.parts.map fun l => l.modify i f }

/-! ## Numbers, slots and descriptors -/

/-- A page number's part and number (R215). -/
def pagePart (page : Nat) : Nat := page / 2 ^ 24
def pageNum (page : Nat) : Nat := page % 2 ^ 24

/-- A page's descriptor; none for a FREE number. -/
def Model.desc (m : Model) (page : Nat) : Option PageDesc :=
  (m.pool[pagePart page]?).bind fun pt => lookupA pt.descs (pageNum page)

/-- Update of a page's descriptor. -/
def Model.modDesc (m : Model) (page : Nat) (f : PageDesc → PageDesc) : Model :=
  m.modPool (pagePart page) fun pt => { pt with descs := modifyA pt.descs (pageNum page) f }

/-- A page's scale entry (R144). -/
def Model.scaleOf (m : Model) (page : Nat) : Option ScaleEntry :=
  (m.pool[pagePart page]?).bind fun pt =>
    ((lookupA pt.descs (pageNum page)).bind (·.scale)).bind fun i => lookupA pt.scales i

/-- The sheet address of a slot of a part (R214). -/
def PoolPart.slotAddr (pt : PoolPart) (slot : Nat) : Nat :=
  (pt.first + pt.header + slot / pt.perSeg) * segBytes + slot % pt.perSeg * pt.rows * 1024

/-- Byte offsets of the tables of a part header: descriptors, page scales, escape records, list blocks, number stack, slot stack, and
the end (R213). -/
def PoolPart.tables (pt : PoolPart) : List Nat :=
  [pt.numbers * 16, pt.numbers * 32, ceilDiv pt.numbers 64 * pt.esc, ceilDiv pt.numbers 16 * 256, pt.numbers * 4, pt.slots * 4].foldl
    (fun l n => l ++ [(l.getLast?.getD 0) + roundUp n 4096]) [0]

/-- The sheet address of a table of a part header. -/
def PoolPart.tableAddr (pt : PoolPart) (i : Nat) : Nat := pt.first * segBytes + pt.tables.getD i 0

/-- The sheet address of a slot of an escape record (R145, R213). [DESIGN CHOICE: log 24] -/
def PoolPart.escAddr (pt : PoolPart) (i slot : Nat) : Nat := pt.tableAddr 2 + pt.esc * i + pt.esc / 2 * slot

/-- The sheet address of a page-scale entry (R213). -/
def PoolPart.scaleAddr (pt : PoolPart) (i : Nat) : Nat := pt.tableAddr 1 + 32 * i

/-- The segment of a slot. -/
def PoolPart.slotSeg (pt : PoolPart) (slot : Nat) : Nat := pt.first + pt.header + slot / pt.perSeg

/-- The sheet address of a page that holds a slot. -/
def Model.pageAddr (m : Model) (page : Nat) : Option Nat :=
  (m.pool[pagePart page]?).bind fun pt =>
    ((lookupA pt.descs (pageNum page)).bind (·.slot)).map pt.slotAddr

/-- A page as it is allocated ahead of its positions (R217). -/
def reservedPage (slot : Nat) (ring : Bool) : PageDesc :=
  { slot := some slot, peat := none, scale := none, valid := 0, fmt := none, loc := .sheet, ring := ring, marked := false }

/-- A number and a slot from one part (R221 step 1); none where it lacks either, or is lost (R335). -/
def PoolPart.take (pt : PoolPart) (ring : Bool) : Option (PoolPart × Nat) :=
  match pt.lost, pt.freeSlots, pt.freeNumbers with
  | false, s :: ss, n :: ns =>
    some ({ pt with freeSlots := ss, freeNumbers := ns, descs := insertA pt.descs n (reservedPage s ring) }, n)
  | _, _, _ => none

/-- A page number from the first part of an order that has one. -/
def Model.takePage (m : Model) (ring : Bool) : List Nat → Option (Model × Nat)
  | [] => none
  | i :: rest =>
    match (m.pool[i]?).bind (·.take ring) with
    | some (pt, n) => some (m.modPool i fun _ => pt, i * 2 ^ 24 + n)
    | none => m.takePage ring rest

/-- A list block from the first part of an order that has a free one (R220, R257): its handle (R219). -/
def Model.takeBlock (m : Model) : List Nat → Option (Model × Nat)
  | [] => none
  | i :: rest =>
    match (m.pool[i]?).map (·.freeBlocks) with
    | some (b :: bs) => some (m.modPool i fun pt => { pt with freeBlocks := bs }, i * 2 ^ 24 + b)
    | _ => m.takeBlock rest

/-- A list block returned. -/
def Model.giveBlock (m : Model) (handle : Nat) : Model :=
  m.modPool (handle / 2 ^ 24) fun pt =>
    if pt.lost then pt else { pt with freeBlocks := handle % 2 ^ 24 :: pt.freeBlocks }

/-- List blocks returned, in order. -/
def Model.giveBlocks (m : Model) (l : List Nat) : Model := l.foldl Model.giveBlock m

/-- A page's scale entry and escape record returned (R144, R230, R273). -/
def PoolPart.dropScale (pt : PoolPart) (n : Nat) : PoolPart :=
  match (lookupA pt.descs n).bind (·.scale) with
  | none => pt
  | some i =>
    let esc := (lookupA pt.scales i).bind (·.escIndex)
    { pt with
      descs := modifyA pt.descs n fun d => { d with scale := none }
      scales := eraseA pt.scales i
      freeScales := i :: pt.freeScales
      escs := match esc with | some e => eraseA pt.escs e | none => pt.escs
      freeEscs := match esc with | some e => e :: pt.freeEscs | none => pt.freeEscs }

/-- A slot returned to its free stack, unless its segment is withdrawn (R333). -/
def PoolPart.giveSlot (pt : PoolPart) (slot : Nat) : PoolPart :=
  if pt.withdrawn.contains (pt.slotSeg slot) then pt else { pt with freeSlots := slot :: pt.freeSlots }

/-- A page returned with all it holds (R230). A page with a copy in flight stays until the copy ends. -/
def PoolPart.release (pt : PoolPart) (n : Nat) : PoolPart :=
  match lookupA pt.descs n with
  | none => pt
  | some d =>
    if d.loc = .spilling ∨ d.loc = .fetching ∨ d.moving.isSome then pt
    else
      let pt := pt.dropScale n
      let pt := match d.slot with | some s => pt.giveSlot s | none => pt
      { pt with descs := eraseA pt.descs n, freeNumbers := n :: pt.freeNumbers }

/-- A page released. -/
def Model.releasePage (m : Model) (page : Nat) : Model := m.modPool (pagePart page) fun pt => pt.release (pageNum page)

/-- Pages released, in order. -/
def Model.releasePages (m : Model) (l : List Nat) : Model := l.foldl Model.releasePage m

/-- A page back in the reserved state (R217, R273). -/
def Model.reservePage (m : Model) (page : Nat) : Model :=
  (m.modPool (pagePart page) fun pt => pt.dropScale (pageNum page)).modDesc page fun d =>
    { d with valid := 0, fmt := none, marked := false, lostAt := [] }

/-! ## The lists of a request -/

/-- POLICY bits of a request (R67). -/
def Req.lookup (r : Req) : Bool := r.policy.getLsbD 0
def Req.continues (r : Req) : Bool := r.policy.getLsbD 1
def Req.strict (r : Req) : Bool := r.policy.getLsbD 2
def Req.hostDraft (r : Req) : Bool := r.policy.getLsbD 3

/-- FEATURES bits of a partition's ROLE (R36). -/
def Partition.speculation (p : Partition) : Bool := p.role.features.getLsbD 0
def Partition.spill (p : Partition) : Bool := p.role.features.getLsbD 1
def Partition.prefixIndex (p : Partition) : Bool := p.role.features.getLsbD 2
def Partition.peatMirror (p : Partition) : Bool := p.role.features.getLsbD 3

/-- The draft model that drafts for a request (R203, R205); none with host drafts, or where the request does not
speculate. -/
def Partition.draftOf (p : Partition) (r : Req) : Option Nat :=
  match p.model r.model with
  | some m =>
    if p.speculation && decide (0 < r.specWidth) && !r.hostDraft && decide (m.pkg.model.draftModel ≠ none32)
    then some m.pkg.model.draftModel else none
  | none => none

/-- The shards of a request's directory: model handle, shard index and record; the draft's after the target's (R205). -/
def Partition.reqShards (p : Partition) (r : Req) : List (Nat × Nat × ShardRec) :=
  let of (handle : Nat) : List (Nat × Nat × ShardRec) :=
    match p.model handle with
    | some m => (List.range m.pkg.shards.length).filterMap fun i => (m.pkg.shards[i]?).map fun sh => (handle, i, sh)
    | none => []
  of r.model ++ (match p.draftOf r with | some d => of d | none => [])

/-- The parts in which the page of entry `j` of shard `l` of request `h` is sought (R221). -/
def pageOrder (parts : List Nat) (j h l : Nat) : List Nat :=
  let n := parts.length
  (List.range n).filterMap fun i => parts[(j + h + l + i) % n]?

/-- Part order from a part on, wrapping: where list blocks are sought (R220, R257). -/
def partOrder (m : Model) (first : Nat) : List Nat :=
  let n := m.pool.length
  (List.range n).map fun i => (first + i) % n

/-- A word appended to a chain, with a block for it where the last one is full (R219). -/
def Model.push (m : Model) (c : Chain) (first w : Nat) : Option (Model × Chain) :=
  if c.words.length < 62 * c.blocks.length then some (m, { c with words := c.words ++ [w] })
  else match m.takeBlock (partOrder m first) with
    | some (m, b) => some (m, { blocks := c.blocks ++ [b], words := c.words ++ [w] })
    | none => none

/-- Entries of a list that hold a page: a ring's list may lack one amid others, which `PAGE_RESERVE` has returned (R228). -/
def Chain.held (c : Chain) : Nat := (c.words.filter fun w => w ≠ none32).length

/-- One page for the first entry that a list lacks, all or nothing (R221). -/
def Model.growOne (m : Model) (sh : ShardRec) (h l : Nat) (c : Chain) : Option (Model × Chain) :=
  let parts := m.pkg.shardParts sh
  let hole := c.words.findIdx? (· == none32)
  match m.takePage sh.ringLen.isSome (pageOrder parts (hole.getD c.words.length) h l) with
  | none => none
  | some (m', page) =>
    match hole with
    | some j => some (m', { c with words := c.words.set j page })
    | none =>
      let first := match c.words.head? with | some w => pagePart w | none => pagePart page
      m'.push c first page

/-- Pages for a list up to `need` entries: how many are lacking at the end. -/
def Model.grow (m : Model) (sh : ShardRec) (h l : Nat) (c : Chain) : Nat → Model × Chain
  | 0 => (m, c)
  | n + 1 =>
    match m.growOne sh h l c with
    | some (m, c) => m.grow sh h l c n
    | none => (m, c)

/-- The lists of a request grown so that positions below `n` have entries. Answers the partition, the lists, and for each
list how many entries it still lacks. -/
def Partition.growLists (p : Partition) (h n : Nat) : List (Nat × Nat × ShardRec) → List Chain →
    Partition × List Chain × List Nat
  | [], _ => (p, [], [])
  | (handle, i, sh) :: rest, cs =>
    let c := cs.headD ⟨[], []⟩
    let need := sh.need n
    let (p', c') :=
      match p.model handle with
      | some m =>
        let (m', c') := m.grow sh h i c (need - c.held)
        (p.modModel handle fun _ => m', c')
      | none => (p, c)
    let (p'', cs', lack) := p'.growLists h n rest cs.tail
    (p'', c' :: cs', (need - c'.held) :: lack)

/-- The words of a directory over its lists (R219). -/
def directoryWords (lists : List Chain) : List Nat := lists.map fun c => c.blocks.headD none32

/-- The blocks of a directory: taken with the request's first page and given back with its last. -/
def Partition.fixDirectory (p : Partition) (h : Nat) (r : Req) : Option (Partition × Req) :=
  let want := if r.lists.all fun c => c.words.isEmpty then 0 else ceilDiv r.lists.length 62
  match p.model r.model with
  | none => some (p, r)
  | some m =>
    let take (acc : Option (Model × List Nat)) (_ : Nat) : Option (Model × List Nat) :=
      acc.bind fun (m, l) => (m.takeBlock (partOrder m h)).map fun (m, b) => (m, l ++ [b])
    if r.directory.blocks.length < want then
      match (List.range (want - r.directory.blocks.length)).foldl take (some (m, r.directory.blocks)) with
      | some (m, l) =>
        some (p.modModel r.model fun _ => m, { r with directory := ⟨l, directoryWords r.lists⟩ })
      | none => none
    else
      let (keep, give) := r.directory.blocks.splitAt want
      some (p.modModel r.model fun m => m.giveBlocks give,
        { r with directory := ⟨keep, if want = 0 then [] else directoryWords r.lists⟩ })

/-- The pages that a request needs for positions below `n`, allocated as far as they go (R222 step 1): the lacking entries of
each list. A request that gets no directory lacks all. -/
def Partition.walk (p : Partition) (h : Nat) (r : Req) (n : Nat) (ash : List Nat) : Partition × Req × List Nat :=
  let p := (p.reqShards r).foldl (fun p x => p.carved x.1 ash) p
  let shards := p.reqShards r
  let (p', lists, lack) := p.growLists h n shards r.lists
  match p'.fixDirectory h { r with lists := lists } with
  | some (p'', r') => (p'', r', lack)
  | none => (p, r, shards.map fun x => x.2.2.need n)

/-- All of a request's pages for positions below `n`, or none (R228, R262). -/
def Partition.reserve (p : Partition) (h : Nat) (r : Req) (n : Nat) (ash : List Nat) : Option (Partition × Req) :=
  let (p', r', lack) := p.walk h r n ash
  if lack.all (· == 0) then some (p', r') else none

/-- A list with every page and block of it returned. -/
def Partition.releaseList (p : Partition) (handle : Nat) (c : Chain) : Partition :=
  p.modModel handle fun m => (m.releasePages c.words).giveBlocks c.blocks

/-- A list without the absent entries at its end. -/
def Chain.dropHoles (c : Chain) : Chain := { c with words := (c.words.reverse.dropWhile (· == none32)).reverse }

/-- The blocks of a list beyond its words returned. -/
def Chain.trim (c : Chain) : Chain × List Nat :=
  let keep := ceilDiv c.words.length 62
  ({ c with blocks := c.blocks.take keep }, c.blocks.drop keep)

/-- A list cut to its first `n` entries, the others released (R228, R273). -/
def Partition.cutList (p : Partition) (handle : Nat) (c : Chain) (n : Nat) : Partition × Chain :=
  let (c', blocks) := ({ c with words := c.words.take n } : Chain).trim
  (p.modModel handle fun m => (m.releasePages (c.words.drop n)).giveBlocks blocks, c')

/-- Every page of a request released, its directory included (R230). -/
def Partition.releasePages (p : Partition) (r : Req) : Partition × Req :=
  let shards := p.reqShards r
  let p := (List.zip shards r.lists).foldl (fun p x => p.releaseList x.1.1 x.2) p
  let p := p.modModel r.model fun m => m.giveBlocks r.directory.blocks
  (p, { r with lists := r.lists.map fun _ => ⟨[], []⟩, directory := ⟨[], []⟩, copying := [] })

/-- The token chain released (R257). -/
def Partition.releaseChain (p : Partition) (r : Req) : Partition × Req :=
  (p.modModel r.model fun m => m.giveBlocks r.chain.blocks, { r with chain := ⟨[], []⟩ })

/-- Tokens appended to a chain of request `h` (R257); none where list blocks run out. -/
def Model.pushAll (m : Model) (h : Nat) (c : Chain) : List Nat → Option (Model × Chain)
  | [] => some (m, c)
  | w :: ws =>
    match m.push c (if m.pool.length = 0 then 0 else h % m.pool.length) w with
    | some (m, c) => m.pushAll h c ws
    | none => none

/-- Every page of a request with its model, shard, list index and entry. -/
def Partition.reqPages (p : Partition) (r : Req) : List (Nat × Nat × Nat) :=
  (List.zip (p.reqShards r) r.lists).flatMap fun x =>
    (List.range x.2.words.length).filterMap fun j => (x.2.words[j]?).bind fun w =>
      if w = none32 then none else some (x.1.1, w, j)

/-- Pages a request holds (R254 PAGES). -/
def Req.pageCount (r : Req) : Nat := (r.lists.map Chain.held).sum

/-- The request that holds a page, with the list and the entry (R227). -/
def Partition.holder (p : Partition) (handle page : Nat) : Option (Nat × Nat × Nat) :=
  p.reqs.findSome? fun (h, r) =>
    (List.range (min r.lists.length (p.reqShards r).length)).findSome? fun li =>
      match (p.reqShards r)[li]?, r.lists[li]? with
      | some x, some c =>
        if x.1 = handle then (c.words.findIdx? (· == page)).map fun j => (h, li, j) else none
      | _, _ => none

/-- The index node that holds a page: node and shard. -/
def Model.indexHolder (m : Model) (page : Nat) : Option (Nat × Nat) :=
  m.index.bind fun ix => ix.nodes.findSome? fun (n, nd) =>
    (nd.pages.findIdx? (· == some page)).map fun l => (n, l)

/-- Update of a partition's KV registers. -/
def Partition.modKv (p : Partition) (f : KvRegs → KvRegs) : Partition := { p with kv := f p.kv }

/-- Update of a partition's STEP registers. -/
def Partition.modStepRegs (p : Partition) (f : StepRegs → StepRegs) : Partition := { p with stepRegs := f p.stepRegs }

/-- The current cache format of a shard, as the driver's narrowing has it (R217). -/
def currentFmt (sh : ShardRec) (narrow : Option Nat) : Nat :=
  match narrow with
  | none => sh.format
  | some f => if cacheSize f ≤ cacheSize sh.format then f else sh.format

/-- Positions of a list entry that are committed at length `n` (R220): none in a reserved page. -/
def ShardRec.committedIn (sh : ShardRec) (j n : Nat) : Nat :=
  match sh.ringLen with
  | none => min 64 (n - 64 * j)
  | some r =>
    if n = 0 then 0
    else
      let lap := (n - 1) / 64
      if lap % r = j then n - 64 * lap else if j < r ∧ (lap + r - j) % r ≤ lap then 64 else 0

/-- The position of place `t` of list entry `j` at committed length `n` (R220, R226, R248). -/
def ShardRec.posOf (sh : ShardRec) (j t n : Nat) : Nat :=
  match sh.ringLen with
  | none => 64 * j + t
  | some r =>
    let lap := (n - 1) / 64
    64 * (lap - (lap + r - j) % r) + t

end Sys2Proof.Machine
end

