-- ==== Sys2Proof/Machine/Requests.lean ====
section
/-! DEFINITION. Requests: their states and counts (R253-R260), output records (R74-R76), the ways a request parks,
returns, waits and ends (R258, R259, R271, R272), and the commands that wait for an end. -/

namespace Sys2Proof.Machine

/-- STATE codes (R255). -/
def ReqState.code : ReqState → Nat
  | .free => 0 | .queued => 1 | .opened => 2 | .prefill => 3 | .decode => 4 | .pageWait => 5 | .parked => 6
  | .spilled => 7 | .done => 8 | .expired => 9 | .faulted => 10

/-- Active states (R255). -/
def ReqState.active : ReqState → Bool
  | .opened | .prefill | .decode | .pageWait => true
  | _ => false

/-- Live states (R255). -/
def ReqState.live : ReqState → Bool
  | .free | .done | .expired | .faulted => false
  | _ => true

/-- RQT_PRT_COUNTS and RQT_PRT_QUEUED (R285). -/
def Partition.liveCount (p : Partition) : Nat := (p.reqs.filter fun x => x.2.state.live).length
def Partition.activeCount (p : Partition) : Nat := (p.reqs.filter fun x => x.2.state.active).length
def Partition.queuedCount (p : Partition) : Nat := (p.reqs.filter fun x => x.2.state == .queued).length

/-- Entries of the partition's share (R253). -/
def Partition.share (p : Partition) : Nat := match p.fence with | some f => f.rqtCount | none => 0

/-- RQT_PRT_LIMITS as they count (R285). -/
def Partition.liveLimit (p : Partition) : Nat := min (bitsOf p.rqt.limits 31 16) p.share
def Partition.activeLimit (p : Partition) : Nat := max 1 (bitsOf p.rqt.limits 15 0)

/-- RQT_PRT_CTRL fields (R285). -/
def Partition.queueNoPages (p : Partition) : Bool := p.rqt.ctrl.getLsbD 0
def Partition.rewindOnLoss (p : Partition) : Bool := p.rqt.ctrl.getLsbD 1
def Partition.indexEvict (p : Partition) : Bool := p.rqt.ctrl.getLsbD 2
def Partition.preemptMode (p : Partition) : Nat := bitsOf p.rqt.ctrl 5 4
def Partition.preemptEqual (p : Partition) : Bool := p.rqt.ctrl.getLsbD 6

/-- Update of one request of a partition of the state. -/
def State.modReq (s : State) (p : Part) (h : Nat) (f : Req → Req) : State :=
  s.modPart p fun q => q.modReq h f

/-- An event to a request's event queue (R71), with its handle; a code of FAULTS is kept in FAULT where asked. -/
def State.toReq (s : State) (p : Part) (h : Nat) (v : Ev) : State :=
  match (s.part p).req h with
  | some r => s.toPart p r.evq { v with request := h }
  | none => s

/-- An event of chapter 14 to a request, kept in its FAULT field (R254). -/
def State.faultReq (s : State) (p : Part) (h : Nat) (v : Ev) : State :=
  (s.toReq p h v).modReq p h fun r => { r with fault := v.code }

/-! ## Output records (R74-R76) -/

/-- Records of a ring not yet read by the driver, and free slots (R75). -/
def Req.unread (r : Req) : Nat := (r.produced + 2 ^ 32 - r.consumed) % 2 ^ 32
def Req.ringFree (r : Req) : Nat := 2 ^ r.ringOrder - r.unread

/-- One output record into the next slot of a request's ring (R74). [DEDUCED: log 16] -/
def State.writeRecord (s : State) (p : Part) (h : Nat) (token : W32) (logprob : W16) (isEnd missed drafted : Bool) :
    State :=
  match (s.part p).req h, (s.part p).port with
  | some r, some port =>
    let size := 2 ^ r.ringOrder
    let rec_ : OutputRec :=
      { token := token, logprob := logprob, phase := r.produced / size % 2 == 0, isEnd := isEnd, deadlineMissed := missed,
        drafted := drafted, step := BitVec.ofNat 8 r.steps }
    (s.sendOn port (.output port p h (r.ringBase + 64 + 8 * (r.produced % size)) rec_)).modReq p h fun r =>
      { r with produced := (r.produced + 1) % 2 ^ 32
               missedAt := if missed && r.missedAt == 0 then s.now else r.missedAt }
  | _, _ => s

/-- A read of CONSUMED goes out, unless one is on its way (R75). -/
def State.readConsumed (s : State) (p : Part) (h : Nat) : State :=
  match (s.part p).req h, (s.part p).port with
  | some r, some port =>
    if r.ringRead = .outstanding then s
    else if s.portLive port then
      (s.issueRead port r.ringBase 4 (.ring p h)).modReq p h fun r => { r with ringRead := .outstanding }
    else s
  | _, _ => s

/-! ## Models and requests -/

/-- A request uses a model: as its own, or to draft for it (R191, R205). -/
def Partition.uses (p : Partition) (r : Req) (handle : Nat) : Bool :=
  r.model == handle || p.draftOf r == some handle

/-- Bindings of an exported model, over every partition (R190). -/
def State.bindings (s : State) (p : Part) (handle : Nat) : Nat :=
  (allParts.map fun q => ((s.part q).models.map fun m =>
    (m.bound.filter fun b => b.2.1 == p.val && b.2.2 == handle).length).sum).sum

/-- A model returned to ABSENT (R191, R278, R298, R334): memory is untouched, bindings and relief end. -/
def Partition.dropModel (p : Partition) (handle : Nat) : Partition :=
  { p with
    models := p.models.filter fun m => decide (m.handle ≠ handle)
    relief := p.relief.filter fun r => decide (r.handle ≠ handle) }

/-- The tables of a model go with it: blocks of its records that were changed beneath them count no more. [DESIGN CHOICE: log 24] -/
def Partition.keptHits (p : Partition) (handle : Nat) (l : List Nat) : List Nat :=
  l.filter fun b => !p.places.any fun x => x.model == handle && decide (x.sheetFirst ≤ b / 32768) && decide (b / 32768 < x.sheetFirst + x.sheetCount)

/-- The commands that wait for a request or a model to end complete (R191, R271). -/
def State.settle (s : State) (p : Part) : State :=
  (s.part p).taken.foldl (fun s c =>
    if c.run = .closing then
      let q := s.part p
      if c.opcode = 0x03 then
        match q.req c.request with
        | some r => if r.state.live then s else s.done (.part p) c stOk
        | none => s.done (.part p) c stOk
      else if q.reqs.any fun x => x.2.state.live && q.uses x.2 c.model then s
      else
        let s := s.modPart p fun q => q.dropModel c.model
        ({ s with tablesHit := q.keptHits c.model s.tablesHit }.modRepairs p fun l =>
          l.filter fun r => !(r.part == p && r.handle == c.model)).done (.part p) c stOk
    else s) s

/-- A request ends: pages and chain are released, its entry stays readable (R230, R257, R260). -/
def State.endReq (s : State) (p : Part) (h : Nat) (st : ReqState) : State :=
  match (s.part p).req h with
  | none => s
  | some r =>
    let (q, r) := (s.part p).releasePages r
    let (q, r) := q.releaseChain r
    let r := { r with state := st, closing := false, endAs := none, tree := none, lost := none, spillAsked := false,
                      queuePos := 0 }
    s.modPart p fun _ => { q.modReq h fun _ => r with victims := q.victims.filter fun v => v.1 ≠ h ∧ v.2 ≠ h }

/-- A request becomes `DONE` for a cause (R271, R286). -/
def State.finishReq (s : State) (p : Part) (h cause : Nat) : State :=
  match (s.part p).req h with
  | none => s
  | some r => (s.toReq p h { code := 0x0010, sev := 0, a := cause, b := r.generated }).endReq p h .done

/-- A request becomes `EXPIRED` (R272, R286). -/
def State.expireReq (s : State) (p : Part) (h : Nat) : State :=
  match (s.part p).req h with
  | none => s
  | some r =>
    ((s.toReq p h { code := 0x0011, sev := 1, a := r.deadline, b := r.length }).endReq p h .expired).modPart p fun q =>
      { q with rqt := { q.rqt with expired := satAdd q.rqt.expired 1 } }

/-- A request becomes `FAULTED` by an event, which is written and kept in FAULT (R344, R353). -/
def State.faultOut (s : State) (p : Part) (h : Nat) (v : Ev) : State :=
  ((s.faultReq p h v).endReq p h .faulted).settle p

/-- A request of no step ends with an END-only record, once its ring has a free slot (R271, R272). `endAs` gives the end:
3 or 4 for a `REQ_CLOSE`, 5 for the deadline. [DEDUCED: log 49] -/
def State.endOnly (s : State) (p : Part) (h endAs : Nat) : State :=
  match (s.part p).req h with
  | none => s
  | some r =>
    if 1 ≤ r.ringFree then
      let missed := endAs == 5 || r.deadlinePassed || (s.trusted && r.deadline != 0 && decide (r.deadline ≤ s.now))
      let s := s.writeRecord p h 0xFFFFFFFF 0 true missed false
      ((if endAs = 5 then s.expireReq p h else s.finishReq p h endAs)).settle p
    else (s.modReq p h fun r => { r with closing := true, endAs := some endAs }).readConsumed p h

/-! ## Parking, waiting, returning (R258, R259) -/

/-- An active or queued request parks (R259). [DEDUCED: log 49] -/
def Req.park (r : Req) (held : Bool) : Req :=
  { r with prev := r.state, state := .parked, held := held, queuePos := 0 }

/-- A parked request returns to PREV_STATE (R259). One that returns to PAGE_WAIT has there the state it left. [DEDUCED: log 49] -/
def Req.unpark (r : Req) (now : Time) : Req :=
  { r with state := r.prev, held := false, prev := if r.prev = .pageWait then r.waitFrom else .free
           queuedAt := if r.prev = .queued then now else r.queuedAt }

/-- A request enters PAGE_WAIT (R229, R259). -/
def Req.toWait (r : Req) (now : Time) : Req :=
  { r with state := .pageWait, prev := r.state, waitFrom := r.state, waitAt := now }

/-- A request that has no page left in sheet memory becomes `SPILLED` (R258, R259). -/
def Req.toSpilled (r : Req) (now : Time) : Req :=
  { r with state := .spilled, prev := if r.state = .parked then r.prev else r.state, spilledAt := now, fetchSince := none }

/-- Every request that a stop or a quarantine parks (R46 step 4): how many, and the partition after. -/
def Partition.parkAll (p : Partition) : Nat × Partition :=
  let parks (r : Req) : Bool := r.state.active || r.state == .queued
  ((p.reqs.filter fun x => parks x.2).length,
    { p with reqs := p.reqs.map fun x => if parks x.2 then (x.1, x.2.park false) else x })

/-- Every request that the stop parked returns (R48 step 3). -/
def Partition.unparkAll (p : Partition) (now : Time) : Partition :=
  { p with reqs := p.reqs.map fun x =>
      if x.2.state == .parked && !x.2.held then (x.1, x.2.unpark now) else x }

/-- The admission queue in its order: priority, deadline with 0 last, admission time (R263). -/
def queueBefore (x y : Nat × Req) : Bool :=
  let a := x.2
  let b := y.2
  if a.priority ≠ b.priority then decide (b.priority < a.priority)
  else if a.deadline ≠ b.deadline then a.deadline ≠ 0 && (b.deadline == 0 || decide (a.deadline < b.deadline))
  else decide (a.admitted < b.admitted)

/-- The queued requests in queue order. -/
def Partition.queue (p : Partition) : List Nat :=
  (sortBy queueBefore (p.reqs.filter fun x => x.2.state == .queued)).map (·.1)

/-- QUEUE_POS refreshed (R263). -/
def Partition.number (p : Partition) : Partition :=
  let q := p.queue
  { p with reqs := p.reqs.map fun x =>
      (x.1, { x.2 with queuePos := match q.findIdx? (· == x.1) with | some i => i + 1 | none => 0 }) }

/-- RQT_PRT_MEAN_GAP (R285): the mean of the gaps between the last departures. [DEDUCED: log 49] -/
def Partition.meanGap (p : Partition) : Nat :=
  match p.rqt.departures, p.rqt.departures.getLast? with
  | newest :: _ :: _, some oldest => (newest - oldest) / (p.rqt.departures.length - 1)
  | _, _ => 0

/-- A departure from the queue is recorded (R285). [DEDUCED: log 49] -/
def Partition.depart (p : Partition) (now : Time) : Partition :=
  { p with rqt := { p.rqt with departures := (now :: p.rqt.departures).take 64 } }

/-- `REQ_QUEUED` with the position and the estimate (R263). -/
def State.tellQueued (s : State) (p : Part) (h : Nat) : State :=
  let s := s.modPart p Partition.number
  match (s.part p).req h with
  | some r =>
    let gap := (s.part p).meanGap
    s.toReq p h { code := 0x1005, sev := 1, a := r.queuePos, b := if gap = 0 then 0 else s.now + r.queuePos * gap }
  | none => s

/-! ## Rewind (R273) -/

/-- The page segment of a page is ash-listed or withdrawn, or its part is lost. -/
def Model.pageAshed (m : Model) (ash : List Nat) (page : Nat) : Bool :=
  match m.pool[pagePart page]?, (m.desc page).bind (·.slot) with
  | some pt, some k => pt.lost || ash.contains (pt.slotSeg k) || pt.withdrawn.contains (pt.slotSeg k)
  | some pt, none => pt.lost
  | none, _ => false

/-- Entries of one list from `j` on back to the reserved state; a page in an ash-listed segment is replaced, or the list is cut
there (R273). -/
def Partition.rewindList (p : Partition) (h : Nat) (x : Nat × Nat × ShardRec) (c : Chain) (ash : List Nat) (j : Nat) :
    Nat → Partition × Chain
  | 0 => (p, c)
  | n + 1 =>
    match p.model x.1, c.words[j]? with
    | some m, some page =>
      if m.pageAshed ash page then
        let m' := m.releasePage page
        match m'.takePage x.2.2.ringLen.isSome (pageOrder (m'.pkg.shardParts x.2.2) j h x.2.1) with
        | some (m'', page') =>
          (p.modModel x.1 fun _ => m'').rewindList h x { c with words := c.words.set j page' } ash (j + 1) n
        | none => p.cutList x.1 c j
      else (p.modModel x.1 fun _ => m.reservePage page).rewindList h x c ash (j + 1) n
    | _, _ => (p, c)

/-- The page-list entry to which a rewind to entry `j` can go: 0 where a ring no longer holds the window before it (R273). -/
def Partition.rewindEntry (p : Partition) (r : Req) (j : Nat) : Nat :=
  if (p.reqShards r).all fun x =>
      match x.2.2.ringLen with
      | none => true
      | some ring =>
        -- positions from 64j - WINDOW to 64j - 1 must lie in the laps that the ring still holds
        let oldest := 64 * ((r.length - 1) / 64 + 1 - min ring ((r.length - 1) / 64 + 1))
        decide (r.length = 0) || decide (oldest ≤ 64 * j - x.2.2.window)
  then j else 0

/-- List entries of a shard that hold positions of page `j` or later. -/
def Partition.rewindLists (p : Partition) (h : Nat) (length j : Nat) (ash : List Nat) :
    List (Nat × Nat × ShardRec) → List Chain → Partition × List Chain
  | x :: xs, c :: cs =>
    let (p, c) :=
      match x.2.2.ringLen with
      | none => p.rewindList h x c ash j (c.words.length - j)
      | some ring =>
        -- the ring entries whose current lap lies at or after position 64j
        (List.range (min ring c.words.length)).foldl (fun (acc : Partition × Chain) i =>
          if decide (64 * j ≤ x.2.2.posOf i 0 length) || decide (length = 0) then
            acc.1.rewindList h x acc.2 ash i 1 else acc) (p, c)
    let (p, cs) := p.rewindLists h length j ash xs cs
    (p, c :: cs)
  | _, cs => (p, cs)

/-- A rewind of a request to page-list entry `j` (R273). -/
def State.rewind (s : State) (p : Part) (h j : Nat) : State :=
  match (s.part p).req h with
  | none => s
  | some r =>
    let q := s.part p
    let j := q.rewindEntry r j
    let (q, lists) := q.rewindLists h r.length j s.ashList (q.reqShards r) r.lists
    let r' := { r with lists := lists, length := 64 * j, pending := r.chain.words.length - 64 * j, state := .prefill,
                       prev := .free, waitFrom := .free, lost := none }
    let q := match q.fixDirectory h r' with
      | some (q, r') => q.modReq h fun _ => r'
      | none => q.modReq h fun _ => r'
    let q := { q with rqt := { q.rqt with rewound := satAdd q.rqt.rewound 1 }, victims := q.victims.filter fun v => v.1 ≠ h }
    (s.modPart p fun _ => q).toReq p h { code := 0x0013, sev := 1, a := r.length, b := 64 * j }

/-- A victim evicted for recompute (R276): pages released, the chain kept; `QUEUED`, or `PARKED` with PREV_STATE `QUEUED`
where it is HELD. -/
def State.evict (s : State) (p : Part) (h waiter : Nat) : State :=
  match (s.part p).req h with
  | none => s
  | some r =>
    let (q, r) := (s.part p).releasePages r
    let r := { r with length := 0, pending := r.chain.words.length, lost := none, spillAsked := false, evicted := true,
                      fetchSince := none, waitFrom := .free
                      state := if r.held then .parked else .queued
                      prev := if r.held then .queued else .free
                      queuedAt := s.uptime }
    let q := { q.modReq h fun _ => r with
      rqt := { q.rqt with preempted := satAdd q.rqt.preempted 1 }, victims := q.victims.filter fun v => v.1 ≠ h }
    (s.modPart p fun _ => q.number).toReq p h { code := 0x1011, sev := 1, a := waiter, b := r.pending }

end Sys2Proof.Machine
end

