-- ==== Sys2Proof/Machine/Index.lean ====
section
/-! DEFINITION. The prefix index (R278-R282): carving, the walk of a prompt, nodes made and removed. -/

namespace Sys2Proof.Machine

/-- The KIND 3 region of a package (R278). -/
def Package.indexRegion (k : Package) : Option Nat :=
  (List.range k.regions.length).find? fun i => (k.regions[i]?.map (·.kind)) == some 3

/-- Nodes of an index region: 320 bytes each, node 0 the root (R278). -/
def Partition.indexNodes (p : Partition) (m : Model) : Nat :=
  match m.pkg.indexRegion.bind fun r => p.place m.handle r with
  | some pl => pl.sheetCount * segBytes / 320
  | none => 0

/-- Some byte of a node lies in a segment (R278). -/
def Partition.nodeMeets (p : Partition) (m : Model) (n seg : Nat) : Bool :=
  match m.pkg.indexRegion.bind fun r => p.place m.handle r with
  | some pl => rangeMeets (pl.sheetFirst * segBytes + 320 * n) 320 seg
  | none => false

/-- Some byte of a node lies in the stack of a tile (R278). -/
def Partition.nodeOnTile (p : Partition) (m : Model) (n tile : Nat) : Bool :=
  match m.pkg.indexRegion.bind fun r => p.place m.handle r with
  | some pl =>
    let a := pl.sheetFirst * segBytes + 320 * n
    a / (stackSegs * segBytes) == tile || (a + 319) / (stackSegs * segBytes) == tile
  | none => false

/-- The index carved at first use (R278). -/
def Partition.carveIndex (p : Partition) (handle : Nat) (ash : List Nat) : Partition :=
  p.modModel handle fun m =>
    if m.index.isSome then m
    else match m.pkg.indexRegion with
      | none => m
      | some _ =>
        let (out, free) := ((List.range (p.indexNodes m)).filter (· ≠ 0)).partition fun n => ash.any fun g => p.nodeMeets m n g
        { m with index := some { nodes := [], free := free, rootUse := 0, withdrawn := out } }

/-- The child of a node with these tokens. -/
def Index.child (ix : Index) (n : Nat) (toks : List Nat) : Option Nat :=
  (ix.nodes.find? fun x => x.2.parent == n && x.2.tokens == toks).map (·.1)

/-- The path from a node down the blocks of a token list (R279). -/
def Index.path (ix : Index) (n : Nat) : Nat → List Nat → List Nat
  | 0, _ => []
  | fuel + 1, toks =>
    if toks.length < 64 then []
    else match ix.child n (toks.take 64) with
      | none => []
      | some c => c :: ix.path c fuel (toks.drop 64)

/-- A node has a page of a shard. -/
def Index.hasPage (ix : Index) (n l : Nat) : Bool :=
  match (lookupA ix.nodes n).bind fun nd => nd.pages[l]? with
  | some (some _) => true
  | _ => false

/-- The ring reduction of R279: the depth to which every ring shard has the pages of its ring. -/
def Index.reduce (ix : Index) (shards : List ShardRec) (path : List Nat) : Nat → Nat
  | 0 => 0
  | m + 1 =>
    let lacks := (List.range shards.length).any fun l =>
      match shards[l]?.bind (·.ringLen) with
      | none => false
      | some r =>
        (List.range (m + 1)).any fun d =>
          decide (m + 1 ≤ d + r) && !(match path[d]? with | some n => ix.hasPage n l | none => false)
    if lacks then ix.reduce shards path m else m + 1

/-- LAST_USE of the nodes of a path, the root among them. -/
def Index.touch (ix : Index) (path : List Nat) (now : Time) : Index :=
  { ix with
    rootUse := now
    nodes := ix.nodes.map fun x => if path.contains x.1 then (x.1, { x.2 with lastUse := now }) else x }

/-- One node returned with its pages and list blocks; one in an ash-listed segment is not placed again (R80). -/
def Model.dropNode (m : Model) (n : Nat) : Model :=
  match m.index with
  | none => m
  | some ix =>
    match lookupA ix.nodes n with
    | none => m
    | some nd =>
      let m := (m.releasePages (nd.pages.filterMap id)).giveBlocks nd.chain.blocks
      { m with index := some { ix with
          nodes := eraseA ix.nodes n, free := if ix.withdrawn.contains n then ix.free else n :: ix.free } }

/-- A node lies in the subtree of another. -/
def Index.under (ix : Index) (top : Nat) : Nat → Nat → Bool
  | 0, _ => false
  | fuel + 1, n =>
    n == top || (match lookupA ix.nodes n with | some nd => ix.under top fuel nd.parent | none => false)

/-- The nodes of a subtree. -/
def Index.subtree (ix : Index) (top : Nat) : List Nat :=
  (ix.nodes.map (·.1)).filter fun n => ix.under top (ix.nodes.length + 1) n

/-- A subtree returned (R282, R344): how many nodes, and the model. -/
def Model.dropTree (m : Model) (top : Nat) : Nat × Model :=
  match m.index with
  | none => (0, m)
  | some ix => ((ix.subtree top).length, (ix.subtree top).foldl Model.dropNode m)

/-- The whole index emptied (R53, R278). -/
def Model.emptyIndex (m : Model) : Model :=
  match m.index with
  | none => m
  | some ix => (ix.nodes.map (·.1)).foldl Model.dropNode m

/-- The leaf with the oldest LAST_USE that no path of `keep` holds (R281, R282). -/
def Index.oldestLeaf (ix : Index) (keep : List Nat) : Option Nat :=
  let leaves := ix.nodes.filter fun x => !keep.contains x.1 && ix.nodes.all fun y => y.2.parent ≠ x.1
  (sortBy (fun x y => decide (x.2.lastUse < y.2.lastUse)) leaves).head?.map (·.1)

/-- The oldest leaf removed; none where there is none. -/
def Model.evictLeaf (m : Model) (keep : List Nat) : Option Model :=
  (m.index.bind fun ix => ix.oldestLeaf keep).map m.dropNode

end Sys2Proof.Machine
end

