-- ==== Sys2Proof/Machine/Slice.lean ====
section
/-! DEFINITION. SLICE slots: the slot of a site, overruns and debt (R39, R40, R284). -/

namespace Sys2Proof.Machine

/-- The partition of a slot. -/
def Slot.owner (x : Slot) : Option Part := allParts.find? fun p => p.val == x.part

/-- Time of a slot taken for its partition's debt (R284). -/
def Slice.taken (sl : Slice) (i : Nat) : Nat := (lookupA sl.shortened i).getD 0

/-- Ring time into the frame; none before the first frame. -/
def State.frameTime (s : State) : Option Nat :=
  let sl := s.slice
  if sl.frameLength = 0 ∨ s.now < sl.frameStart then none else some ((s.now - sl.frameStart) % sl.frameLength)

/-- The slot of a site at the present ring time, and its end: one whose debt and zeroing leave it time (R39, R40, R284). -/
def State.slotAt (s : State) (site : Nat) : Option (Nat × Time) :=
  s.frameTime.bind fun t =>
    (List.range s.slice.slots.length).findSome? fun i =>
      (s.slice.slots[i]?).bind fun x =>
        let stop := x.start + x.len - s.slice.taken i
        if x.tiles.getLsbD site ∧ x.start ≤ t ∧ t < stop ∧ s.slice.zeroing.contains i = false
        then some (i, s.now - t + stop) else none

/-- The partition that has a site now: one whose step overran its slot keeps it, and none has it while it is zeroed. -/
def State.slotNow (s : State) (site : Nat) : Option Part :=
  let idx (i : Nat) : Option Part := (s.slice.slots[i]?).bind fun x => if x.tiles.getLsbD site then x.owner else none
  match s.slice.overrun.findSome? fun o => idx o.1 with
  | some p => some p
  | none => (s.slotAt site).bind fun x => idx x.1

/-- Two slots give the same tile away. -/
def Slot.meets (x y : Slot) : Bool := (x.tiles &&& y.tiles) ≠ 0

/-- How long after the end of a slot another starts on its tiles; a slot follows itself one frame later. -/
def slotGap (frame : Nat) (x y : Slot) (same : Bool) : Nat :=
  if same then frame else (y.start + 2 * frame - (x.start + x.len) % frame) % frame

/-- The slots that follow a slot on its tiles, site by site the nearest. -/
def Slice.following (sl : Slice) (i : Nat) : List Nat :=
  match sl.slots[i]? with
  | none => []
  | some x =>
    let next (site : Nat) : Option Nat :=
      let l := (List.range sl.slots.length).filterMap fun j => (sl.slots[j]?).bind fun y =>
        if y.tiles.getLsbD site then some (slotGap sl.frameLength x y (i == j), j) else none
      (sortBy (fun a b => decide (a.1 < b.1)) l).head?.map (·.2)
    (List.range 64).foldl (fun acc site =>
      if x.tiles.getLsbD site then (match next site with | some j => setAdd acc j | none => acc) else acc) []

/-- Debts of a partition on the tiles of a slot paid from so much time: what is left of them, and of the time (R284). -/
def payDebts (p : Nat) (tiles : W64) : List (Nat × W64 × Nat) → Nat → List (Nat × W64 × Nat) × Nat
  | [], n => ([], n)
  | (q, m, d) :: l, n =>
    if q = p ∧ (m &&& tiles) ≠ 0 then
      let (l, left) := payDebts p tiles l (n - d)
      (if d ≤ n then l else (q, m, d - n) :: l, left)
    else
      let (l, left) := payDebts p tiles l n
      ((q, m, d) :: l, left)

/-- A slot is due: the debt of its partition on its tiles is taken from it, as far as it is long (R284 step 4). [DEDUCED: log 34] -/
def State.beginSlot (s : State) (i : Nat) : State :=
  match s.slice.slots[i]? with
  | none => s
  | some x => match x.owner with
    | none => s
    | some p =>
      let (debts, left) := payDebts p.val x.tiles s.slice.debts x.len
      let take := x.len - left
      let s := { s with slice := { s.slice with
        zeroing := setDel s.slice.zeroing i
        debts := debts
        shortened := if take = 0 then eraseA s.slice.shortened i else insertA s.slice.shortened i take } }
      s.modPart p fun q => { q with rqt := { q.rqt with sliceDebt := q.rqt.sliceDebt - take } }

/-- Logical tiles at the sites of a mask. -/
def State.maskTiles (s : State) (m : W64) : List Nat :=
  (List.finRange 64).filterMap fun i => if m.getLsbD i.val then (s.sites.get i).tile else none

/-- The sites of a mask no longer hold data in core and cluster SRAM: they are zeroed (R40, R49). -/
def State.zeroSram (s : State) (m : W64) : State := { s with sram := s.sram.filter fun x => !m.getLsbD x.1 }

/-- A slot is over: between slots of different partitions the core SRAM, cluster SRAM and shared cache of its tiles are zeroed before
the next begins (R40). What its debt has cut off stays closed until its next run. [DEDUCED: log 34] -/
def State.endSlot (s : State) (i : Nat) : State :=
  match s.slice.slots[i]? with
  | none => s
  | some x =>
    let next := s.slice.following i
    let other := next.filter fun j => match s.slice.slots[j]? with | some y => y.part ≠ x.part | none => false
    let s := { s with slice := { s.slice with
      overrun := s.slice.overrun.filter fun o => o.1 ≠ i
      zeroing := other.foldl setAdd s.slice.zeroing } }
    let s :=
      if other.isEmpty then s
      else
        let tiles := s.maskTiles x.tiles
        { s.zeroSram x.tiles with
          scratch := s.scratch.filter fun l => !tiles.contains l.1.1
          sheetLines := s.sheetLines.filter fun l => !tiles.contains l.1 }
    (next.filter fun j => !other.contains j).foldl State.beginSlot s

/-- A step has committed or was abandoned: the overruns of its partition's slots are counted, told and become debt (R284). [DEDUCED: log 34] -/
def State.settleSlots (s : State) (p : Part) : State :=
  (s.slice.overrun.filter fun o => match (s.slice.slots[o.1]?).bind Slot.owner with | some q => q == p | none => false).foldl
    (fun s o =>
      let ns := s.now - o.2
      let tiles := match s.slice.slots[o.1]? with | some x => x.tiles | none => 0
      let s := { s with slice := { s.slice with debts := s.slice.debts ++ [(p.val, tiles, ns)] } }
      let s := s.modPart p fun q => { q with rqt := { q.rqt with
        sliceDebt := q.rqt.sliceDebt + ns, overrunNs := q.rqt.overrunNs + ns } }
      (s.toPart p 0 { code := 0x1030, sev := 1, a := ns, b := (s.part p).rqt.sliceDebt }).endSlot o.1) s

end Sys2Proof.Machine
end

