-- ==== Sys2Proof/Machine/Partition.lean ====
section
/-! DEFINITION. Partitions: who owns what (R33, R39, R412), stop, start, reset and removal (R46-R54), zeroising (R49),
quarantine (R328, R329) and the abandoning of a step (R196). -/

namespace Sys2Proof.Machine

/-! ## Sites and memory of a partition -/

/-- A site is in a partition's TILES mask (R32). -/
def Partition.ownsSite (p : Partition) (site : Nat) : Bool :=
  match p.fence with
  | some f => f.tiles.getLsbD site
  | none => false

/-- A site is in a slot of a partition; a frame length of 0 means no time-slicing (R39). -/
def State.slotSite (s : State) (p : Part) (site : Nat) : Bool :=
  decide (s.slice.frameLength ≠ 0) && s.slice.slots.any fun x => x.part == p.val && x.tiles.getLsbD site

/-- A site is in a partition's TILES mask or in one of its slots. -/
def State.holdsSite (s : State) (p : Part) (site : Nat) : Bool :=
  (s.part p).ownsSite site || s.slotSite p site

/-- A number lies in a range of `count` from `first` on. -/
def inRange (n first count : Nat) : Bool := decide (first ≤ n) && decide (n < first + count)

/-- A module segment lies in the stack of a tile of the TILES mask. -/
def State.tileSeg (s : State) (p : Part) (seg : Nat) : Bool :=
  decide (seg < moduleSegs) &&
    match s.siteOf (seg / stackSegs) with
    | some site => (s.part p).ownsSite site.val
    | none => false

/-- A module segment lies in a sheet range of a kind (R32). -/
def Partition.rangeSeg (p : Partition) (kind seg : Nat) : Bool :=
  match p.fence with
  | some f => decide (seg < moduleSegs) && f.ranges.any fun r => r.kind == kind && inRange seg r.first r.count
  | none => false

/-- Segments whose relief a segment is, with the rights of the original (R334). -/
def State.reliefOf (s : State) (seg : Nat) : List Nat :=
  allParts.flatMap fun q => ((s.part q).relief.filter fun r => r.placed && r.relief == seg).map (·.segment)

/-- Writable sheet memory of a partition (R33). -/
def State.writable (s : State) (p : Part) (seg : Nat) : Bool :=
  let own (g : Nat) : Bool := s.tileSeg p g || (s.part p).rangeSeg 1 g
  own seg || (s.reliefOf seg).any own

/-- Readable sheet memory of a partition (R33). -/
def State.readable (s : State) (p : Part) (seg : Nat) : Bool :=
  s.writable p seg || (s.part p).rangeSeg 2 seg || (s.reliefOf seg).any fun g => (s.part p).rangeSeg 2 g

/-- Peat memory a partition may write (R33). -/
def Partition.peatWritable (p : Partition) (seg : Nat) : Bool :=
  match p.fence with
  | some f => inRange seg f.peatRw.first f.peatRw.count
  | none => false

/-- Peat memory a partition may read (R33). -/
def Partition.peatReadable (p : Partition) (seg : Nat) : Bool :=
  p.peatWritable seg || match p.fence with
    | some f => inRange seg f.peatRo.first f.peatRo.count
    | none => false

/-- A port sees and drives a partition's own registers: the owner, or the partition's port (R8, R60). [DESIGN CHOICE: log 4] -/
def State.sees (s : State) (port : Port) (p : Part) : Bool :=
  s.serving && !s.sec.scanLatch && (port == s.ownerPort || (s.part p).port == some port)

/-- `FENCE_VIOLATION` to the owner (R54). -/
def State.fenceViolation (s : State) (p : Part) (seg kind : Nat) : State :=
  s.toOwner (some p) { code := 0x7010, sev := 1, a := p.val * 2 ^ 56 + seg, b := kind }

/-- Segments that a byte range touches. -/
def segsOf (addr len : Nat) : List Nat :=
  (List.range ((addr % segBytes + max 1 len - 1) / segBytes + 1)).map fun i => addr / segBytes + i

/-- The first segment of a range of sheet memory that a transfer of a partition may not read, or write (R34). -/
def State.breach (s : State) (p : Part) (addr len : Nat) (write : Bool) : Option Nat :=
  (segsOf addr len).find? fun g => !(if write then s.writable p g else s.readable p g)

/-- The same of peat memory. -/
def State.peatBreach (s : State) (p : Part) (addr len : Nat) (write : Bool) : Option Nat :=
  (segsOf addr len).find? fun g => !(if write then (s.part p).peatWritable g else (s.part p).peatReadable g)

/-- What the fence of a partition drops of a transfer is told to the owner (R34, R54). -/
def State.told (s : State) (p : Part) (seg : Option Nat) (kind : Nat) : State :=
  match seg with | some g => s.fenceViolation p g kind | none => s

/-- `n` blocks that arrive as poison. -/
def State.poisonBlocks (s : State) (b n : Nat) : State := s.putBlocks b (List.replicate n ([], true))

/-- `n` chunks that are stored as poison. -/
def State.poisonChunks (s : State) (c : Nat) : Nat → State
  | 0 => s
  | n + 1 => (s.putChunk c [] true).poisonChunks (c + 1) n

/-- A transfer of a partition from the peat tier to sheet memory under its fence: a read that is dropped delivers poison, a write that
is dropped changes nothing (R34). -/
def State.fencedFetch (s : State) (p : Part) (bad : List Nat) (c a len : Nat) : State :=
  let rd := s.peatBreach p c len false
  let wr := s.breach p a len true
  let t := (s.told p rd 0).told p wr 1
  if wr.isSome then t else if rd.isSome then t.poisonBlocks (a / 64) (len / 64) else t.peatToSheet bad (c / 256) (a / 64) (len / 256)

/-- A transfer of a partition from sheet memory to the peat tier under its fence. -/
def State.fencedSpill (s : State) (p : Part) (a c len : Nat) : State :=
  let rd := s.breach p a len false
  let wr := s.peatBreach p c len true
  let t := (s.told p rd 0).told p wr 1
  if wr.isSome then t else if rd.isSome then t.poisonChunks (c / 256) (len / 256) else t.sheetToPeat (a / 64) (c / 256) (len / 256)

/-! ## ALERT_N (R320, R327) -/

/-- A filter value held to its range (R320). -/
def clampTo (lo hi n : Nat) : Nat := max lo (min hi n)

/-- ALERT_N is asserted for at least its minimum (R320). -/
def State.assertAlert (s : State) : State :=
  { s with pins := { s.pins with
      alertN := false
      alertUntil := max s.pins.alertUntil (s.uptime + clampTo 0 100000000 s.pinsCfg.alertFilter) } }

/-- Whether PINS FUNCTION selects a fault class: 1 DEFERRED, 2 CONTAINED, 3 FATAL (R41). -/
def State.alertOn (s : State) (cls : Nat) : Bool :=
  match cls with
  | 1 => s.pinsCfg.alertFunction.getLsbD 2
  | 2 => s.pinsCfg.alertFunction.getLsbD 1
  | 3 => s.pinsCfg.alertFunction.getLsbD 0
  | _ => false

/-- ALERT_N is asserted on a fault of a class that PINS selects (R327). -/
def State.alertFault (s : State) (cls : Nat) : State := if s.alertOn cls then s.assertAlert else s

/-- Something holds ALERT_N: a quarantine whose class PINS selects, repairs that have stopped, or heat (R327, R340, R389). -/
def State.alertHeld (s : State) : Bool :=
  s.pins.alertStuck || (s.pinsCfg.alertFunction.getLsbD 3 && (decide (s.power.thermalShare < 16) || s.power.coolWarn)) ||
    allParts.any fun p => (s.part p).st == .quarantined && s.alertOn (s.part p).quarantineClass

/-- ALERT_N is released once its minimum has passed and nothing holds it. -/
def State.releaseAlert (s : State) : State :=
  if s.pins.alertUntil ≤ s.uptime ∧ s.alertHeld = false then { s with pins := { s.pins with alertN := true } } else s

/-! ## The step abandoned (R196) -/

/-- A scratch buffer lies in an ash-listed segment, so that it is not placed again (R80, R224). -/
def Partition.scratchAshed (p : Partition) (m : Model) (x : Nat × Nat) (ash : List Nat) : Bool :=
  match p.place m.handle x.1 with
  | some pl =>
    ash.any fun g => rangeMeets (pl.sheetFirst * segBytes + x.2) m.pkg.bufferBytes g
  | none => false

/-- Scratch buffers of a step's requests returned (R80, R224). -/
def Partition.returnScratch (p : Partition) (ash : List Nat) (picks : List Pick) : Partition :=
  (picks.flatMap (·.scratch)).foldl (fun p x =>
    p.modModel x.1 fun m =>
      if p.scratchAshed m x.2 ash then m else { m with scratch := m.scratch ++ [(x.2.1, x.2.2)] }) p

/-- A formed step discarded (R46, R194). -/
def Partition.dropFormed (p : Partition) (ash : List Nat) : Partition :=
  match p.formed with
  | some f => { p.returnScratch ash f.picks with formed := none, forming := false }
  | none => { p with forming := false }

/-- The layer a step has reached: of the models' own passes, the furthest (R211). -/
def Step.layer (st : Step) : Nat :=
  ((st.runs.filter fun r => r.kind == .own).map fun r => r.prog - 1).foldl max 0

/-- A site under self-test, whose faults are findings (R373). -/
def State.underTest (s : State) (site : Site) : Bool := s.bist.phase == .test && s.bist.site == site

/-- A self-test that holds its partitions goes on once none of them runs a step (R370). -/
def State.bistSettle (s : State) : State :=
  if s.bist.phase = .hold ∧ allParts.all (fun p => !(s.part p).bistHold || (s.part p).step.isNone) then
    { s with bist := { s.bist with phase := if s.bist.handedOver then .restore else .save } }
  else s

/-- A partition whose step in progress is abandoned and counted: nothing of it is committed, and no formed step begins (R196). -/
def Partition.abandonStep (q : Partition) (ash : List Nat) : Partition :=
  match q.step with
  | none => q.dropFormed ash
  | some st =>
    { (q.returnScratch ash st.picks).dropFormed ash with
      step := none, stepRegs := { q.stepRegs with abandoned := satAdd q.stepRegs.abandoned 1 } }

/-- The step in progress is abandoned (R196, R328), and told. -/
def State.abandonStep (s : State) (p : Part) (cause : Nat) : State :=
  match (s.part p).step with
  | none => s.modPart p fun q => q.abandonStep s.ashList
  | some st =>
    let s := s.modPart p fun q => q.abandonStep s.ashList
    let committed := (s.part p).stepRegs.committed.toNat
    (s.toPart p 0 { code := 0x0002, sev := if cause = 2 then 5 else 4, a := committed * 2 ^ 32 + st.layer, b := cause }).settleSlots p
      |>.bistSettle

/-! ## Queued transfers and self-made waits -/

/-- The weight repairs of a partition's models but the first, whose refetch is in flight, are cancelled by a stop (R46, R301). -/
def cancelRefetch (p : Part) : Bool → List Repair → List Repair
  | _, [] => []
  | first, r :: rest =>
    if r.part = p ∧ r.phase = .refetch then
      (if first then r else { r with phase := .cancelled }) :: cancelRefetch p false rest
    else r :: cancelRefetch p first rest

/-- Queued page fetches of a partition are cancelled: those whose copy has not begun (R46, R234). -/
def Partition.cancelFetches (p : Partition) : Partition :=
  { p with reqs := p.reqs.map fun x => (x.1, { x.2 with fetchSince := none }) }

/-- Queued fetches and refetches of a partition are cancelled; a spill begins its copy as soon as it is chosen, so that none is
queued (R46, R234). -/
def State.cancelQueued (s : State) (p : Part) : State :=
  (s.modPart p Partition.cancelFetches).modRepairs p (cancelRefetch p true)

/-- A partition holds or binds the region of a repair (R301). -/
def State.bindsRegion (s : State) (p : Part) (holder : Part) (handle region : Nat) : Bool :=
  (p == holder && ((s.part p).model handle).isSome) ||
    (s.part p).models.any fun m => m.bound.any fun b =>
      b.1 == region && b.2.1 == holder.val && b.2.2 == handle

/-- Cancelled refetches are issued again at the START of a partition that owns or binds the billet (R301). -/
def State.reissue (s : State) (p : Part) : State :=
  let again (r : Repair) : Bool := r.phase == .cancelled && s.bindsRegion p r.part r.handle r.region
  (s.repairs.filter again).foldl (fun s r =>
    (s.modRepairs r.part fun l => l.map fun x => if x = r then { x with phase := .refetch } else x).arrive (some r.part)
      (.refetch r.handle r.region r.billet)) s

/-- Commands that run in a way complete with a status. -/
def State.doneAll (s : State) (src : Src) (which : Cmd → Bool) (status : Nat) : State :=
  ((s.taken src).filter which).foldl (fun s c => s.done src c status c.written) s

/-- Reads withheld while the partition did not run go out (R46). [DEDUCED: log 21] -/
def State.resumeReads (s : State) (p : Part) : State :=
  ((s.part p).taken.filter fun c => c.paused.isSome).foldl (fun s c =>
    match c.paused with
    | some (addr, len) =>
      (s.modCmd (.part p) c.id fun (c : Cmd) => { c with paused := none }).cmdRead (.part p) c addr len
    | none => s) s

/-- A command of a partition asks for its next read of host memory, or waits with it until the partition runs again (R46). -/
def State.cmdReadRunning (s : State) (p : Part) (c : Cmd) (addr len : Nat) : State :=
  if (s.part p).st = .running then s.cmdRead (.part p) c addr len
  else s.modCmd (.part p) c.id fun (c : Cmd) => { c with paused := some (addr, len), started := true }

/-! ## Margining holds that a start ends (R99, R303) -/

/-- A hold ended by a partition start. [DEDUCED: log 43] -/
def Margin.abort (m : Margin) : Margin :=
  { m with held := false, hold := false, busy := false, aborted := true, time := 0, vref := 0 }

/-- The hold of a die in the partition, and any hold of a peat channel, end (R99, R303). -/
def State.endHolds (s : State) (p : Part) : State :=
  let s := if s.memMargin.held && s.holdsSite p (bitsOf s.memMargin.sel 9 4)
    then { s with memMargin := s.memMargin.abort } else s
  if s.peatMargin.held then { s with peatMargin := s.peatMargin.abort } else s

/-! ## Stop, start, reset, removal -/

/-- Commands consumed before a stop count as started, so that those of a step boundary take effect before its end (R46). -/
def Partition.startTaken (p : Partition) : Partition :=
  { p with taken := p.taken.map fun c => { c with started := true } }

/-- A stop begins (R46 step 1). -/
def State.beginStop (s : State) (p : Part) (cause : Nat) : State :=
  if (s.part p).st = .running then
    (s.modPart p fun q => { q.startTaken with st := .stopping, stopCause := cause }).cancelQueued p
  else s

/-- Every request entry of a partition FREE, its pages and chains returned (R53, R54). -/
def Partition.freeAll (p : Partition) : Partition :=
  let p := p.reqs.foldl (fun p x =>
    let (p, r) := p.releasePages x.2
    (p.releaseChain r).1) p
  { p with reqs := [], victims := [] }

/-- The records that a partition's port holds for an FLR are discarded (R53, R197). -/
def State.dropHeld (s : State) (p : Part) : State :=
  match (s.part p).port with
  | some port => s.modPort port fun x => { x with held := [] }
  | none => s

/-- A reset of a partition (R53): commands aborted (the `CMD_DONE` of a self-test is discarded, R373), entries FREE, pages released, indexes emptied, queue registers at their
reset values, `CACHE_LOST` entries dropped (R348); the near-bank sequences of the partition that wait or run stay (R130). A start that
waited for zeroising is dropped with the command that asked for it. [DESIGN CHOICE: log 58] -/
def State.resetPart (s : State) (p : Part) : State :=
  let s := s.doneAll (.part p) (fun c => c.run != .testing) stAborted
  let s := s.modPart p fun q =>
    let q := q.freeAll
    { q with
      taken := []
      models := q.models.map Model.emptyIndex
      sub := {}
      flrPending := false
      startPending := false
      fifo := q.fifo.filter fun e => decide (e.code ≠ 0x3020) }
  { s with seqs := s.seqs.map fun (q : NbSeq) => if q.part == some p then { q with stale := true } else q }.dropReads fun r => r.ofPart p

/-- The stop of a partition ends (R46 steps 4 and 5): requests park, `PARTITION_STOPPED` is written, a `PRT_STOP` completes,
and after an FLR the partition is reset, what its port held discarded first (R53). -/
def State.stopNow (s : State) (p : Part) : State :=
  let (n, q) := (s.part p).parkAll
  let q := q.dropFormed s.ashList
  let flr := q.flrPending
  let s := s.modPart p fun _ => { q with st := .stopped, sectionsSince := 0, zeroNs := 0, flrPending := false }
  let s := if flr then s.dropHeld p else s
  let s := s.toBoth p { code := 0x7001, sev := 0, a := n, b := (s.part p).stopCause }
  let s := s.doneAll (.part p) (fun c => c.run == .stopping) stOk
  if flr then s.resetPart p else s

/-- The fields of a ROLE section lie in the ranges that R36 gives them. -/
def Role.fits (r : Role) : Bool :=
  decide (1 ≤ r.streamLimit ∧ r.streamLimit ≤ 32768) && decide (64 ≤ r.splitSize ∧ r.splitSize ≤ 16384) && r.splitSize % 64 == 0 &&
    decide (r.prefillMode ≤ 1) &&
    r.tiles.all fun t => decide (t.decodeClusters + t.prefillClusters ≤ 256) && decide (t.matrixEngines ≤ 48)

/-- A ROLE of free values, of the widths of the fields (R10, R36). -/
def Role.drawn (r : Role) (base : Nat) : Role :=
  let fr (i n : Nat) : Nat := Config.fresh (base + i) % n
  { streamLimit := fr 0 (2 ^ 32), tokenBudget := fr 1 (2 ^ 32), splitSize := fr 2 (2 ^ 32), prefillMode := fr 3 256
    features := BitVec.ofNat 8 (fr 4 256), buckets := BitVec.ofNat 16 (fr 5 65536)
    tiles := r.tiles.mapIdx fun i t =>
      { t with decodeClusters := fr (6 + 3 * i) 65536, prefillClusters := fr (7 + 3 * i) 65536, matrixEngines := fr (8 + 3 * i) 256 } }

/-- A PLACE record whose KIND and RESIDENCE are ones that R37 lists. -/
def Place.fits (x : Place) : Bool := decide (x.kind ≤ 4) && decide (x.residence ≤ 1)

/-- The structure of a partition that starts on sections that do not fit: free, and whatever it is the fence holds (R10, R52). [DESIGN CHOICE: log 13] -/
def Partition.drawn (q : Partition) (base : Nat) : Partition :=
  { q with
    role := if q.role.fits then q.role else q.role.drawn base
    places := q.places.mapIdx fun i x =>
      if x.fits then x
      else { x with kind := Config.fresh (base + 2 ^ 20 + 2 * i) % 5, residence := Config.fresh (base + 2 ^ 20 + 2 * i + 1) % 2 } }

/-- The sections of a partition fit as far as their own fields go. -/
def Partition.fits (q : Partition) : Bool := q.role.fits && q.places.all Place.fits

/-- A partition's structure as it starts (R10, R52). -/
def State.takeStructure (s : State) (p : Part) : State :=
  if (s.part p).fits then s
  else ({ s with fresh := s.fresh + 2 ^ 40 } : State).modPart p fun q => q.drawn s.fresh

/-- A STOPPED partition starts (R48), holds of margining ended first (R99). It never starts without a port (R412). -/
def State.startNow (s : State) (p : Part) : State :=
  if (s.part p).st = .stopped ∧ (s.part p).port.isSome ∧ (s.part p).zeroising = false then
    let s := (s.endHolds p).takeStructure p
    let s := s.modPart p fun q =>
      let q := (q.unparkAll s.uptime).number
      { q with st := .running, startPending := false, sub := { q.sub with turn := none } }
    let s := s.toBoth p { code := 0x7002, sev := 0, a := (s.part p).sectionsSince, b := (s.part p).zeroNs }
    let s := s.modPart p fun q => { q with sectionsSince := 0, zeroNs := 0 }
    ((s.doneAll (.part p) (fun c => c.run == .starting) stOk).reissue p).resumeReads p
  else s

/-- START, whatever its source: it waits while the partition is zeroising (R48 step 1). -/
def State.start (s : State) (p : Part) : State :=
  if (s.part p).st = .stopped ∧ (s.part p).port.isSome then
    if (s.part p).zeroising then s.modPart p fun q => { q with startPending := true } else s.startNow p
  else s

/-- What a partition keeps when its FENCE goes: the registers that only a power-up resets. Its ROLE and PLACE, its loaded models, its
load stream and PRT_KLN counters and STOP_CAUSE go too, which the manual does not say. [DESIGN CHOICE: log 58] -/
def Partition.removed (p : Partition) : Partition :=
  { stepRegs := p.stepRegs, kv := p.kv, rqt := p.rqt, ctr := p.ctr, chain5 := p.chain5,
    fifo := p.fifo.filter fun e => decide (e.code ≠ 0x3020) && e.billet.isNone }

/-- A partition that an applied FENCE removes (R54). -/
def State.removePart (s : State) (p : Part) : State :=
  let s := s.doneAll (.part p) (fun _ => true) stAborted
  let s := s.toBoth p { code := 0x7003, sev := 1, a := p.val, b := (s.part p).reqs.length }
  let s := s.modPart p Partition.removed
  (s.modRepairs p fun l => l.filter fun (r : Repair) => r.part ≠ p).dropReads fun r => r.ofPart p

/-- A partition gone at once, with no record, when the module resets, powers down or enters test access (R365, R386). -/
def State.wipePart (s : State) (p : Part) : State :=
  ((s.modPart p Partition.removed).modRepairs p fun l => l.filter fun (r : Repair) => r.part ≠ p).dropReads fun r => r.ofPart p

/-! ## Quarantine (R328) -/

/-- A partition that is RUNNING, STOPPING or STOPPED is quarantined for a fault (R328). -/
def State.quarantine (s : State) (p : Part) (code loc : Nat) (fatal : Bool) (cause : Nat) : State :=
  match (s.part p).st with
  | .absent | .quarantined => s
  | _ =>
    let s := (s.abandonStep p cause).cancelQueued p
    let flr := (s.part p).flrPending
    let s := s.modPart p fun q =>
      let ran := q.st ≠ .stopped
      let q := q.parkAll.2
      { q with st := .quarantined, stopCause := 3, startPending := false, quarantinedAt := s.uptime, flrPending := false
               quarantineClass := if fatal then 3 else 2
               sectionsSince := if ran then 0 else q.sectionsSince
               zeroNs := if ran then 0 else q.zeroNs }
    let s := if flr then s.dropHeld p else s
    let s := s.toBoth p { code := 0x3030, sev := if fatal then 5 else 4, a := code, b := loc }
    let s := s.doneAll (.part p) (fun c => c.run == .stopping) stOk
    if flr then s.resetPart p else s

/-- A CONTAINED fault of one partition (R326): counted, ALERT_N, quarantine. -/
def State.contained (s : State) (p : Part) (code loc cause : Nat) : State :=
  let s := s.modPart p fun q => { q with ctr := { q.ctr with fltContained := satAdd q.ctr.fltContained 1 } }
  (s.alertFault 2).quarantine p code loc false cause

/-- A FATAL fault (R326, R329): FATAL set, ALERT_N, every partition quarantined. -/
def State.fatalFault (s : State) (code loc : Nat) : State :=
  let s := { s with fatal := true }.alertFault 3
  allParts.foldl (fun s p => s.quarantine p code loc true 2) s

/-- A DEFERRED fault that concerns a partition is counted (R352). -/
def State.countDeferred (s : State) (p : Part) : State :=
  (s.modPart p fun q => { q with ctr := { q.ctr with fltDeferred := satAdd q.ctr.fltDeferred 1 } }).alertFault 1

/-! ## Rows -/

/-- A step boundary: no step is in progress (R65, R334). -/
def Partition.atBoundary (p : Partition) : Bool := p.step.isNone

/-- PRT_CTRL.STOP (R46). -/
def execPrtCtrlStop (port : Port) (p : Part) (s : State) : Host.Outcome State Fault Refusal :=
  .next (if s.sees port p then s.beginStop p 0 else s)

/-- PRT_CTRL.START (R48). -/
def execPrtCtrlStart (port : Port) (p : Part) (s : State) : Host.Outcome State Fault Refusal :=
  .next (if s.sees port p then s.start p else s)

/-- A command that only a partition's port may issue, taken from the owner queue subblock (R410). [DEDUCED: log 20] -/
def State.forPart (s : State) (src : Src) (opcode : Nat) (run : Part → Cmd → State) : State :=
  match s.pickCmd src opcode with
  | none => s
  | some c =>
    match src with
    | .part p => run p c
    | .owner => s.done src c stNotPermitted

/-- `PRT_STOP` (R46): it starts the stop, or joins one. -/
def State.prtStop (s : State) (p : Part) (c : Cmd) : State :=
  match (s.part p).st with
  | .running | .stopping =>
    (s.modCmd (.part p) c.id fun (c : Cmd) => { c with run := .stopping, started := true }).beginStop p 0
  | _ => s.done (.part p) c stOk

/-- `PRT_START` (R48). -/
def State.prtStart (s : State) (p : Part) (c : Cmd) : State :=
  match (s.part p).st with
  | .stopped =>
    if (s.part p).port.isSome then
      (s.modCmd (.part p) c.id fun (c : Cmd) => { c with run := .starting, started := true }).start p
    else s
  | _ => s.done (.part p) c stWrongState

/-- `PRT_STOP` (R46). -/
def execPrtStop (src : Src) (s : State) : Host.Outcome State Fault Refusal :=
  .next (s.forPart src 0x40 s.prtStop)

/-- `PRT_START` (R48). -/
def execPrtStart (src : Src) (s : State) : Host.Outcome State Fault Refusal :=
  .next (s.forPart src 0x41 s.prtStart)

/-- Zeroising ends, and a pending start proceeds (R48, R49). Where a FENCE has meanwhile taken the partition's port, the start stays
pending, which the manual leaves open (R412). [DESIGN CHOICE: log 58] -/
def execZeroiseDone (p : Part) (s : State) : Host.Outcome State Fault Refusal :=
  .next (
    if (s.part p).zeroising then
      let s := s.modPart p fun q => { q with zeroising := false, zeroNs := q.zeroNs + (s.uptime - q.zeroStart) }
      if (s.part p).startPending then s.startNow p else s
    else s)

/-- FLT_PRT_CTRL.RELEASE (R329). -/
def execFltPrtRelease (port : Port) (p : Part) (s : State) : Host.Outcome State Fault Refusal :=
  .next (
    if s.sees port p && (s.part p).st == .quarantined && !s.fatal && !(s.part p).fifo.any (·.handling) then
      let t := (s.part p).quarantinedAt
      ((s.modPart p fun q => { q with st := .stopped }).toBoth p
        { code := 0x3031, sev := 0, a := s.uptime - t }).releaseAlert
    else s)

/-- FLT_STATUS.FATAL written 1 (R329). -/
def execFltFatalClear (port : Port) (s : State) : Host.Outcome State Fault Refusal :=
  .next (if s.reaches port ∧ (s.sheetFifo.any (·.handling)) = false then { s with fatal := false } else s)

end Sys2Proof.Machine
end

