-- ==== Sys2Proof/Machine/Spill.lean ====
section
/-! DEFINITION. Pages on the move: the spill area (R232), spill candidates and watermarks (R231), prefetch (R233), moves
out of withdrawn segments (R333). -/

namespace Sys2Proof.Machine

/-! ## The spill area -/

/-- Runs of 4 KiB units less one run. -/
def cutRun (runs : List (Nat × Nat)) (a n : Nat) : List (Nat × Nat) :=
  runs.flatMap fun r =>
    if a + n ≤ r.1 ∨ r.1 + r.2 ≤ a ∨ n = 0 then [r]
    else
      (if r.1 < a then [(r.1, a - r.1)] else []) ++
        (if a + n < r.1 + r.2 then [(a + n, r.1 + r.2 - (a + n))] else [])

/-- The spill area: the PEAT_RW segments that no PLACE record names (R232). -/
def Partition.spillArea (p : Partition) : List (Nat × Nat) :=
  match p.fence with
  | none => []
  | some f =>
    p.places.foldl (fun runs x => cutRun runs (512 * x.peatFirst) (512 * x.peatCount))
      [(512 * f.peatRw.first, 512 * f.peatRw.count)]

/-- Every page descriptor of a partition: model, page number, descriptor. -/
def Partition.allPages (p : Partition) : List (Nat × Nat × PageDesc) :=
  p.models.flatMap fun m =>
    (List.range m.pool.length).flatMap fun i =>
      match m.pool[i]? with
      | some pt => pt.descs.map fun d => (m.handle, i * 2 ^ 24 + d.1, d.2)
      | none => []

/-- The free runs of the spill area; a self-test save is kept out of it (R371). -/
def Partition.spillFree (p : Partition) : List (Nat × Nat) :=
  let runs := p.saveArea.foldl (fun l r => cutRun l r.1 r.2) p.spillArea
  p.allPages.foldl (fun runs x => match x.2.2.peat with | some (a, n) => cutRun runs a n | none => runs) runs

/-- The shard of a page: of the list, or of the index node, that holds it. -/
def Partition.pageShard (p : Partition) (handle page : Nat) : Option ShardRec :=
  match p.holder handle page with
  | some (h, li, _) => ((p.req h).bind fun r => (p.reqShards r)[li]?).map fun x => x.2.2
  | none => (p.model handle).bind fun m => (m.indexHolder page).bind fun x => m.pkg.shards[x.2]?

/-- The bytes of a page: of its own format, or of its shard's where it is reserved. -/
def Partition.pageLen (p : Partition) (handle page : Nat) : Nat :=
  match p.pageShard handle page, (p.model handle).bind fun m => m.desc page with
  | some sh, some d => sh.pageBytes (d.fmt.getD sh.format)
  | _, _ => 0

/-- A peat area of so many bytes, the lowest that is free; a tier that is retired has none (R340). -/
def State.takeArea (s : State) (p : Part) (len : Nat) : Option (Nat × Nat) :=
  let units := ceilDiv len 4096
  if s.peatRetired then none
  else ((s.part p).spillFree.find? fun r => decide (units ≤ r.2)).map fun r => (r.1, units)

/-! ## Spill -/

/-- Update of a page's descriptor. -/
def State.modPage (s : State) (p : Part) (handle page : Nat) (f : PageDesc → PageDesc) : State :=
  s.modPart p fun q => q.modModel handle fun m => m.modDesc page f

/-- A page's descriptor. -/
def Partition.page (p : Partition) (handle page : Nat) : Option PageDesc :=
  (p.model handle).bind fun m => m.desc page

/-- The copy of a page to the peat tier begins (R232 steps 1 and 2); none where the spill area is full. -/
def State.startSpill (s : State) (p : Part) (handle page : Nat) : Option State :=
  (s.takeArea p ((s.part p).pageLen handle page)).map fun area =>
    ((s.modPage p handle page fun d => { d with loc := .spilling, peat := some area }).modPart p fun q =>
      { q with kv := { q.kv with fullTold := false } }).arrive (some p) (.spill handle page)

/-- A request takes part in the step being run or formed. -/
def Partition.inStep (p : Partition) (h : Nat) : Bool :=
  (match p.step with | some st => st.picks.any fun x => x.req == h | none => false) ||
    (match p.formed with | some f => f.picks.any fun x => x.req == h | none => false)

/-- Pages of a request whose LOC is `loc`. -/
def Partition.pagesAt (p : Partition) (r : Req) (loc : Loc) : List (Nat × Nat × Nat) :=
  (p.reqPages r).filter fun x => match p.page x.1 x.2.1 with | some d => d.loc == loc | none => false

/-- The order of R231 between requests. -/
def spillBefore (x y : Nat × Req) : Bool :=
  decide (x.2.priority < y.2.priority) || (x.2.priority == y.2.priority && decide (x.2.lastStep < y.2.lastStep))

/-- The pages of one request that may spill, lowest position first over all shards (R231). -/
def Partition.reqCandidates (p : Partition) (r : Req) : List (Nat × Nat) :=
  let pages := (List.zip (p.reqShards r) r.lists).flatMap fun x =>
    (List.range x.2.words.length).filterMap fun j => (x.2.words[j]?).map fun w =>
      (x.1.1, w, x.1.2.2.posOf j 0 r.length)
  let sheet := pages.filter fun x =>
    match p.page x.1 x.2.1 with | some d => d.loc == .sheet && d.moving.isNone | none => false
  (sortBy (fun a b => decide (a.2.2 < b.2.2)) sheet).map fun x => (x.1, x.2.1)

/-- A request is in the step in progress. -/
def Partition.running (p : Partition) (h : Nat) : Bool :=
  match p.step with | some st => st.picks.any fun x => x.req == h | none => false

/-- A request whose pages may spill: with no prefetch outstanding, begun or queued, and no copy on its way (R231). -/
def Partition.givesPages (p : Partition) (x : Nat × Req) : Bool :=
  x.2.state.live && x.2.copying.isEmpty && x.2.fetchSince.isNone && (p.pagesAt x.2 .fetching).isEmpty

/-- A request whose pages may spill, and that is in no step run or formed (R231). -/
def Partition.mayGive (p : Partition) (x : Nat × Req) : Bool := p.givesPages x && !p.inStep x.1

/-- Spill candidates in order (R231): model and page. -/
def Partition.candidates (p : Partition) : List (Nat × Nat) :=
  (sortBy spillBefore (p.reqs.filter p.mayGive)).flatMap fun x => p.reqCandidates x.2

/-- SPILL_AREA_FULL, once until space returns (R232, R236). -/
def State.tellFull (s : State) (p : Part) (left : Nat) : State :=
  let q := s.part p
  if q.kv.fullTold then s
  else
    let inPeat := (q.allPages.filter fun x => x.2.2.loc == .peat).length
    (s.modPart p fun q => { q with kv := { q.kv with fullTold := true } }).toPart p 0
      { code := 0x2023, sev := 1, a := left, b := inPeat }

/-- Pages of a list start to spill, as many as are wanted, until the spill area is full. -/
def State.spillSome (s : State) (p : Part) : List (Nat × Nat) → Nat → State
  | [], _ => s
  | _, 0 => s
  | x :: xs, n + 1 =>
    match s.startSpill p x.1 x.2 with
    | some s => s.spillSome p xs n
    | none => s.tellFull p (min xs.length n + 1)

/-- Spills in flight out of a part. -/
def PoolPart.leaving (pt : PoolPart) : Nat := (pt.descs.filter fun d => d.2.loc == .spilling).length

/-- KV_PRT_CTRL.HIGH and LOW as they count (R235). -/
def Partition.highMark (p : Partition) : Nat := min 100 (bitsOf p.kv.ctrl 15 8)
def Partition.lowMark (p : Partition) : Nat := min (bitsOf p.kv.ctrl 7 0) (p.highMark - 1)

/-- Watermark spill of one part (R231): begun below LOW, it goes on to HIGH, at later boundaries too where candidates run short. -/
def State.spillPart (s : State) (p : Part) (handle i : Nat) : State :=
  let q := s.part p
  match (q.model handle).bind fun m => m.pool[i]? with
  | none => s
  | some pt =>
    if pt.filling || decide (pt.freeSlots.length * 100 < q.lowMark * pt.slots) then
      let want := ceilDiv (q.highMark * pt.slots) 100 - (pt.freeSlots.length + pt.leaving)
      let s := s.spillSome p (q.candidates.filter fun x => x.1 == handle && pagePart x.2 == i) want
      s.modPart p fun q => q.modModel handle fun m => m.modPool i fun pt =>
        { pt with filling := decide ((pt.freeSlots.length + pt.leaving) * 100 < q.highMark * pt.slots) }
    else s

/-- Spill at a step boundary (R231): every part by its watermarks, and requests parked with SPILL. -/
def State.spillPolicy (s : State) (p : Part) : State :=
  let q := s.part p
  if q.spill && q.st == .running then
    let s := q.models.foldl (fun s m =>
      (List.range m.pool.length).foldl (fun s i => s.spillPart p m.handle i) s) s
    q.reqs.foldl (fun s x =>
      if x.2.spillAsked && x.2.state == .parked && (s.part p).givesPages x && !(s.part p).running x.1 then
        let l := (s.part p).reqCandidates x.2
        s.spillSome p l l.length
      else s) s
  else s

/-! ## Prefetch (R233) -/

/-- The copy of a page back from the peat tier begins, in a slot of its own part; none where the part has no free slot. -/
def Partition.startFetch (p : Partition) (handle page : Nat) : Option Partition :=
  match (p.model handle).bind fun m => m.pool[pagePart page]? with
  | some pt =>
    match pt.lost, pt.freeSlots with
    | false, k :: ks =>
      some (p.modModel handle fun m => (m.modPool (pagePart page) fun pt => { pt with freeSlots := ks }).modDesc page
        fun d => { d with loc := .fetching, slot := some k })
    | _, _ => none
  | none => none

/-- Fetches of a request's pages in the peat tier, as far as slots go; where one lacks, spill supplies it if spill is on. -/
def State.fetchReq (s : State) (p : Part) (h : Nat) : State :=
  match (s.part p).req h with
  | none => s
  | some r =>
    ((s.part p).pagesAt r .peat).foldl (fun s x =>
      match (s.part p).startFetch x.1 x.2.1 with
      | some q => (s.modPart p fun _ => q).arrive (some p) (.fetch x.1 x.2.1)
      | none =>
        let q := s.part p
        match (q.model x.1).bind fun m => m.pool[pagePart x.2.1]? with
        | some pt =>
          if q.spill && decide (pt.leaving < ((q.pagesAt r .peat).filter fun y => y.1 == x.1 &&
              pagePart y.2.1 == pagePart x.2.1).length) then
            let own := (q.reqPages r).map fun y => (y.1, y.2.1)
            s.spillSome p (q.candidates.filter fun y => y.1 == x.1 && pagePart y.2 == pagePart x.2.1 && !own.contains y) 1
          else s
        | none => s) s

/-- A request's pages are wanted in sheet memory (R233). -/
def State.wantPages (s : State) (p : Part) (h : Nat) : State :=
  (s.modReq p h fun r => { r with fetchSince := some (r.fetchSince.getD s.now) }).fetchReq p h

/-- Fetches that waited for slots go on (R233); a stop leaves them queued (R234). -/
def State.pumpFetches (s : State) (p : Part) : State :=
  if (s.part p).st = .running then
    (s.part p).reqs.foldl (fun s x => if x.2.fetchSince.isSome then s.fetchReq p x.1 else s) s
  else s

/-! ## Moves out of withdrawn segments (R333, R334) -/

/-- Pages that lie in withdrawn page segments start to move to free slots of their part, as slots go. -/
def State.startMoves (s : State) (p : Part) : State :=
  (s.part p).allPages.foldl (fun s x =>
    match (s.part p).model x.1 with
    | none => s
    | some m =>
      match m.pool[pagePart x.2.1]?, m.desc x.2.1 with
      | some pt, some d =>
        match d.slot, pt.freeSlots with
        | some k, k' :: ks =>
          if d.loc = .sheet ∧ d.moving.isNone ∧ pt.withdrawn.contains (pt.slotSeg k) ∧ pt.lost = false ∧
              s.bankRetired (placeOf (pt.slotAddr k)) = false then
            (s.modPart p fun q => q.modModel x.1 fun m =>
              (m.modPool (pagePart x.2.1) fun pt => { pt with freeSlots := ks }).modDesc x.2.1
                fun d => { d with moving := some k' }).arrive (some p) (.move x.1 x.2.1)
          else s
        | _, _ => s
      | _, _ => s) s

/-- Page segments withdrawn from a part: their slots leave the free stack (R333, R334). -/
def PoolPart.withdraw (pt : PoolPart) (seg : Nat) : PoolPart :=
  { pt with withdrawn := setAdd pt.withdrawn seg, freeSlots := pt.freeSlots.filter fun k => decide (pt.slotSeg k ≠ seg) }

/-- A request all of whose pages lie in the peat tier becomes `SPILLED` (R232, R258). -/
def State.checkSpilled (s : State) (p : Part) (h : Nat) : State :=
  match (s.part p).req h with
  | none => s
  | some r =>
    let pages := (s.part p).reqPages r
    if (r.state.active || r.state == .parked) && r.endAs.isNone && !pages.isEmpty &&
        ((s.part p).pagesAt r .peat).length == pages.length then
      let s := s.modReq p h fun r => { r.toSpilled s.uptime with spillAsked := false }
      match (s.part p).victims.find? fun v => v.2 == h with
      | some v =>
        ((s.modPart p fun q => { q with
            victims := q.victims.filter fun v => v.2 ≠ h
            rqt := { q.rqt with preempted := satAdd q.rqt.preempted 1 } }).toReq p h
          { code := 0x1010, sev := 1, a := v.1, b := pages.length })
      | none => s
    else s

end Sys2Proof.Machine
end

