-- ==== Sys2Proof/Machine/Faults.lean ====
section
/-! DEFINITION. Faults (R326-R348): locations and resources, the fault FIFOs, weight and cache errors, the rungs of the
repair ladder from a block to a die, relief, and what each leaves behind. -/

namespace Sys2Proof.Machine

/-! ## Locations (R345) -/

/-- LOCATION of a sheet block: site, die, bank, original row, block. -/
def locBlock (site die bank row block : Nat) : Nat :=
  site * 2 ^ 54 + die * 2 ^ 50 + bank * 2 ^ 44 + row * 2 ^ 27 + block * 2 ^ 23
/-- LOCATION of a kindling core, a matrix engine, tile logic, a part of a site frame, a peat chunk. -/
def locCore (site cluster core : Nat) : Nat := 2 ^ 60 + site * 2 ^ 54 + cluster * 2 ^ 46 + core * 2 ^ 39
def locEngine (site engine : Nat) : Nat := 2 * 2 ^ 60 + site * 2 ^ 54 + engine * 2 ^ 48
def locTile (site : Nat) : Nat := 3 * 2 ^ 60 + site * 2 ^ 54
def locFrame (site part : Nat) : Nat := 4 * 2 ^ 60 + site * 2 ^ 54 + part * 2 ^ 52
def locPeat (chunk : Nat) : Nat := 5 * 2 ^ 60 + chunk

/-- The site of a logical tile as a number; 63 where no site holds it. -/
def State.siteNum (s : State) (tile : Nat) : Nat := match s.siteOf tile with | some i => i.val | none => 63

/-- LOCATION of the block at a module sheet address. -/
def State.locAt (s : State) (addr : Nat) : Nat :=
  let pl := placeOf addr
  locBlock (s.siteNum pl.tile) pl.die pl.bank pl.row (pl.column / 64)

/-- What an entry's resource is at a rung (R346 rule 3). -/
def resKey (rung loc : Nat) : Nat :=
  match rung with
  | 2 => loc / 2 ^ 27
  | 3 => loc / 2 ^ 38
  | 4 => loc / 2 ^ 44
  | 5 => loc / 2 ^ 50
  | 7 | 8 => loc / 2 ^ 54 % 64
  | _ => loc

/-! ## Whom a resource concerns (R327, R342) -/

/-- Partitions whose writable memory any of these segments is. -/
def State.touches (s : State) (segs : List Nat) : List Part :=
  allParts.filter fun p => segs.any fun g => s.writable p g

/-- Partitions that hold a site. -/
def State.holders (s : State) (site : Nat) : List Part := allParts.filter fun p => s.holdsSite p site

/-- The segments of a bank of a logical tile, and of a die (R79). -/
def bankSegs (tile die bank : Nat) : List Nat :=
  (List.range 40).map fun k => tile * stackSegs + k * 1024 + bank * 16 + die
def dieSegs (tile die : Nat) : List Nat := (List.range 64).flatMap fun b => bankSegs tile die b

/-- An event about a ladder action: to the owner, and to each partition whose memory or tiles it touches (R327). -/
def State.toLadder (s : State) (touch : List Part) (v : Ev) : State :=
  let s := touch.foldl (fun s p =>
    if s.ownerSrc = .part p then s else if (s.part p).port.isSome then s.toPart p 0 v else s) s
  s.toOwner (match touch with | [p] => some p | _ => none) v

/-! ## The fault FIFOs (R345-R347) -/

/-- A fault FIFO: a partition's, or the sheet's. -/
def State.fifo (s : State) : Option Part → List FaultEntry
  | some p => (s.part p).fifo
  | none => s.sheetFifo

/-- Update of a fault FIFO. -/
def State.modFifo (s : State) (o : Option Part) (f : List FaultEntry → List FaultEntry) : State :=
  match o with
  | some p => s.modPart p fun q => { q with fifo := f q.fifo }
  | none => { s with sheetFifo := f s.sheetFifo }

/-- The FIFO of a resource: of the one partition it belongs to, else the sheet's. -/
def fifoFor : List Part → Option Part
  | [p] => some p
  | _ => none

/-- A fault placed in its FIFO: merged with an entry on the same resource at its rung, queued at the tail, or, where 64
entries stand, not recorded, with `FAULT_FIFO_FULL` and a CONTAINED or FATAL fault (R346 rules 3 and 4, R347). -/
def State.enqueue (s : State) (o : Option Part) (e : FaultEntry) : State :=
  let same (x : FaultEntry) : Bool :=
    x.rung == e.rung && x.request == e.request && resKey x.rung x.loc.toNat == resKey e.rung e.loc.toNat
  if (s.fifo o).any same then s.modFifo o (modifyFirst same fun x => { x with count := x.count + 1 })
  else if (s.fifo o).length < 64 then s.modFifo o fun l => l ++ [e]
  else match o with
    | some p =>
      (s.toBoth p { code := 0x3033, sev := 4, a := e.code, b := e.loc.toNat }).contained p 0x3033 e.loc.toNat 0
    | none => (s.toOwner none { code := 0x3033, sev := 5, a := e.code, b := e.loc.toNat }).fatalFault 0x3033 e.loc.toNat

/-- A new entry. -/
def State.entry (s : State) (code cls rung loc : Nat) (request : Option Nat := none) : FaultEntry :=
  { code := code, cls := cls, rung := rung, request := request, time := s.now, loc := BitVec.ofNat 64 loc }

/-- The class of an entry's fault at a rung, for `FAULT_ESCALATED` (R330, R353). -/
def rungSeverity (rung : Nat) : Nat := if rung ≤ 3 then 2 else if rung ≤ 5 then 3 else if rung = 6 then 3 else 4

/-- The HANDLING entry on a resource escalates to a rung (R346 rule 2). [DEDUCED: log 51] -/
def State.escalate (s : State) (touch : List Part) (rung loc next : Nat) : State :=
  let o := fifoFor touch
  let hit (x : FaultEntry) : Bool := x.rung == rung && resKey rung x.loc.toNat == resKey rung loc
  let s := s.modFifo o (modifyFirst hit fun x => { x with rung := next, count := x.count + 1 })
  s.toLadder touch { code := 0x3032, sev := rungSeverity next, a := loc, b := next }

/-- A record for the ash log, which the management firmware appends (R350). -/
def State.ashRecord (s : State) (type loc arg : Nat) : State :=
  { s with ashPending := s.ashPending ++ [{ type := type, time := s.now, loc := BitVec.ofNat 64 loc, arg := arg }] }

/-! ## The geometry of a matrix (R162, R163, R172) -/

/-- FLAGS of a matrix. -/
def MatrixRec.expert (x : MatrixRec) : Bool := x.flags % 2 == 1
def MatrixRec.rowTable (x : MatrixRec) : Bool := x.flags / 2 % 2 == 1

/-- Rows of a tile's data, bytes of its scales, and tiles of the matrix. -/
def MatrixRec.trows (x : MatrixRec) : Nat :=
  if x.rowTable then ceilDiv (x.inp * fmtBits x.format) 8192 else ceilDiv (64 * x.tileK * fmtBits x.format) 8192
def MatrixRec.tsb (x : MatrixRec) : Nat :=
  if fmtScaleBytes x.format = 0 then 0
  else (if x.rowTable then x.inp else 64 * x.tileK) / fmtBlock x.format * fmtScaleBytes x.format
def MatrixRec.tiles (x : MatrixRec) : Nat :=
  if x.rowTable then x.out else x.experts * (x.out / 64) * (x.inp / x.tileK)

/-- Where a tile lies: region, segment within the region, first data row of the segment, first byte of its scale slots. -/
def MatrixRec.tilePlace (x : MatrixRec) (t : Nat) : Nat × Nat × Nat × Nat :=
  let lane := t % x.lanes
  let slot := t / x.lanes
  (x.regionFirst + lane % x.regionCount, x.segFirst + lane / x.regionCount, x.drow + slot * x.trows, x.sbyte + slot * x.tsb)

/-! ## Weight errors (R300, R301, R341) -/

/-- The module segment and the slot of a billet of a region (R160): first segment, partner's SEG_DATA, billet. -/
def billetPlace (scale : Bool) (d b : Nat) : Nat × Nat :=
  if scale then (b / (512 - d), d + b % (512 - d)) else (b / d, b % d)

/-- SEG_DATA that governs a region: its own, its partner's for a scale region, 512 without a partner (R160). -/
def Package.segData (k : Package) (region : Nat) : Nat :=
  match k.regions[region]? with
  | none => 512
  | some r =>
    if r.partner = none32 then 512
    else if r.kind = 1 then (match k.regions[r.partner]? with | some w => w.segData | none => 512)
    else r.segData

/-- A scale region that shares the segments of its weight region; one with no partner has them to itself (R160). -/
def RegionRec.paired (r : RegionRec) : Bool := r.kind == 1 && decide (r.partner ≠ none32)

/-- The sheet address of a billet of a region, before any relief. -/
def Partition.billetAddr (p : Partition) (m : Model) (region billet : Nat) : Option Nat :=
  match p.place m.handle region, m.pkg.regions[region]? with
  | some pl, some r =>
    let (g, slot) := billetPlace r.paired (m.pkg.segData region) billet
    some ((pl.sheetFirst + g) * segBytes + slot * 4096)
  | _, _ => none

/-- The billets of a weight region that its tiles reach, or of a scale region that its weight region's scales reach (R138, R163). -/
def Package.extent (k : Package) (region : Nat) : Nat :=
  match k.regions[region]? with
  | none => 0
  | some r =>
    let data := if r.paired then r.partner else region
    let d := k.segData data
    ((k.matrices.flatMap fun x => (List.range x.tiles).map fun t =>
      let (g, seg, row, sb) := x.tilePlace t
      if g ≠ data then 0
      else if r.paired then if x.tsb = 0 then 0 else seg * (512 - d) + (sb + x.tsb - 1) / 4096 + 1
      else seg * d + (row + x.trows - 1) / 4 + 1)).foldl max 0

/-- The billets of a region in the sheet and in its peat copy: those that the package carries, or, where seasoning has written them,
those that its tiles and scales take (R138, R142). [DEDUCED: log 23] -/
def Model.billets (m : Model) (region : Nat) : Nat :=
  match m.pkg.regions[region]? with
  | none => 0
  | some r => if m.seasoned.contains region then m.pkg.extent region else r.billets

/-- The billets of regions in the order in which the mover copies them: segment by segment, in each the scale billets first, then the
data billets, in slot order (R293): region and billet. -/
def Partition.moverOrder (p : Partition) (m : Model) (regions : List Nat) : List (Nat × Nat) :=
  let l : List (Nat × Nat × Nat × Nat × Nat) := regions.flatMap fun g => (List.range (m.billets g)).filterMap fun b =>
    (p.billetAddr m g b).map fun a =>
      (a / segBytes, (match m.pkg.regions[g]? with | some r => if r.kind = 1 then 0 else 1 | none => 1), a, g, b)
  (sortBy (fun x y => decide (x.1 < y.1) || (x.1 == y.1 &&
    (decide (x.2.1 < y.2.1) || (x.2.1 == y.2.1 && decide (x.2.2.1 < y.2.2.1))))) l).map fun x => x.2.2.2

/-- An address of a model's region after relief (R334). -/
def Partition.relieved (p : Partition) (handle addr : Nat) : Nat :=
  match p.relief.find? fun r => r.placed && r.handle == handle && r.segment == addr / segBytes with
  | some r => r.relief * segBytes + addr % segBytes
  | none => addr

/-- The peat address of a billet of a region (R161). -/
def Partition.billetPeat (p : Partition) (m : Model) (region billet : Nat) : Option Nat :=
  (p.place m.handle region).map fun pl => pl.peatFirst * segBytes + billet * 4096

/-- A peat-resident region is alone in its staging set (R295). -/
def Partition.alone (p : Partition) (m : Model) (region : Nat) : Bool :=
  match p.place m.handle region with
  | none => false
  | some pl =>
    let partner := match m.pkg.regions[region]? with | some r => r.partner | none => none32
    p.places.all fun x =>
      !(x.model == m.handle && x.residence == 1 && x.sheetFirst == pl.sheetFirst && x.sheetCount == pl.sheetCount) ||
        x.region == region || x.region == partner

/-- Where the billets of a region are refetched from: its mirror, while the feature is set, or its peat copy (R300). -/
def Partition.hasSource (p : Partition) (m : Model) (region : Nat) : Bool :=
  match p.place m.handle region with
  | none => false
  | some pl => if pl.residence = 1 then p.alone m region else pl.mirror && p.peatMirror

/-- The models, by partition, that own or bind a region (R301). -/
def State.concerned (s : State) (holder : Part) (handle region : Nat) : List (Part × Nat) :=
  (if ((s.part holder).model handle).isSome then [(holder, handle)] else []) ++
    allParts.flatMap fun q => ((s.part q).models.filter fun m =>
      m.bound.any fun b => b.1 == region && b.2.1 == holder.val && b.2.2 == handle).map fun m => (q, m.handle)

/-- An event of R301 to every partition concerned and to the owner; the owner's copy carries the full detail. [DEDUCED: log 45] -/
def State.toConcerned (s : State) (holder : Part) (handle region code sev b ownerB : Nat) : State :=
  let s := (s.concerned holder handle region).foldl (fun s x =>
    if s.ownerSrc = .part x.1 ∨ (s.part x.1).port.isNone then s
    else s.toPart x.1 0 { code := code, sev := sev, a := x.2 * 2 ^ 32 + region, b := b }) s
  s.toOwner (some holder) { code := code, sev := sev, a := handle * 2 ^ 32 + region, b := ownerB }

/-- A billet that is broken has a repair record. -/
def State.repair? (s : State) (p : Part) (handle region billet : Nat) : Option Repair :=
  s.repairs.find? fun r => r.part == p && r.handle == handle && r.region == region && r.billet == billet

/-- Update of a repair record. -/
def State.modRepair (s : State) (p : Part) (handle region billet : Nat) (f : Repair → Repair) : State :=
  let hit (r : Repair) : Bool := r.part == p && r.handle == handle && r.region == region && r.billet == billet
  s.modRepairs p (modifyFirst hit f)

/-- `WEIGHT_SOURCE_LOST`, and the loss (R302). -/
def State.sourceLost (s : State) (p : Part) (handle region billet : Nat) : State :=
  let kind := match ((s.part p).model handle).bind fun m => m.pkg.regions[region]? with | some r => r.kind | none => 0
  let v : Ev := { code := 0x2032, sev := 3, a := handle * 2 ^ 32 + p.val * 2 ^ 24 + region, b := billet * 2 ^ 32 + kind }
  let s := match s.repair? p handle region billet with
    | some _ => s.modRepair p handle region billet fun r => { r with phase := .lost s.uptime false }
    | none => { s with repairs := s.repairs ++ [Repair.mk p handle region billet (.lost s.uptime false)] }
  (s.countDeferred p).toOwner (some p) v

/-- The entry of a weight repair that a fault has begun (R345): at the fault's place, until the repair ends. [DESIGN CHOICE: log 64] -/
def State.queueRepair (s : State) (p : Part) (handle region billet code loc : Nat) : State :=
  match s.repair? p handle region billet with
  | some r =>
    if (s.part p).fifo.any fun e => e.billet == some (handle, region, billet) then s
    else s.enqueue (some p) { s.entry code 1 1 loc with handling := r.phase == .refetch, billet := some (handle, region, billet) }
  | none => s

/-- A poisoned weight or scale billet (R300, R341): refetched from its source, or lost to its requests for want of one.
A staging range that several members share is rewritten when a member is next streamed. -/
def State.weightError (s : State) (p : Part) (handle region billet : Nat) : State :=
  let q := s.part p
  match q.model handle with
  | none => s
  | some m =>
    let resident := match q.place handle region with | some pl => pl.residence == 0 | none => false
    if (s.repair? p handle region billet).isSome || (!resident && !q.alone m region) then s
    else
      let seg := match q.billetAddr m region billet with | some a => a / segBytes | none => 0
      if q.hasSource m region && !s.peatRetired then
        let s := { s with repairs := s.repairs ++ [Repair.mk p handle region billet .refetch] }.arrive (some p) (.refetch handle region billet)
        let s := s.modPart p fun q => { q with ctr := { q.ctr with peatRefetch := satAdd q.ctr.peatRefetch 1 } }
        s.toConcerned p handle region 0x2030 1 0 (billet * 2 ^ 32 + p.val * 2 ^ 24 + seg)
      else if q.hasSource m region then s.sourceLost p handle region billet
      else
        let kind := match m.pkg.regions[region]? with | some r => r.kind | none => 0
        let s := { s with repairs := s.repairs ++ [Repair.mk p handle region billet (.lost s.uptime false)] }
        let b := billet * 2 ^ 32 + kind
        (s.countDeferred p).toConcerned p handle region 0x3011 3 b b

/-! ## Cache errors (R343) -/

/-- The earlier of two losses: tokens, then the directory, then the lower position. -/
def mergeLost (a b : LostData) : LostData :=
  match a, b with
  | .tokens n, .tokens k => .tokens (min n k)
  | .tokens n, _ => .tokens n
  | _, .tokens n => .tokens n
  | .directory, _ | _, .directory => .directory
  | x, y =>
    let at_ : LostData → Nat := fun d =>
      match d with | .positions n _ => n | .listBlock e _ => 64 * e | _ => 0
    if at_ y < at_ x then y else x

/-- Positions of a request lost in shards of its directory (R343): counted, told, kept for the next formation, queued. [DEDUCED: log 45] -/
def State.losePositions (s : State) (p : Part) (h : Nat) (lost : List (Nat × Nat)) (what : Option LostData) (loc : Nat) :
    State :=
  match lost with
  | [] =>
    match what with
    | some w => s.modReq p h fun r => { r with lost := some (match r.lost with | some x => mergeLost x w | none => w) }
    | none => s
  | x :: xs =>
    let low := xs.foldl (fun a b => if b.2 < a.2 ∨ (b.2 = a.2 ∧ b.1 < a.1) then b else a) x
    let w := what.getD (.positions low.2 low.1)
    let s := s.modReq p h fun r => { r with lost := some (match r.lost with | some x => mergeLost x w | none => w) }
    let s := s.modPart p fun q => { q with ctr := { q.ctr with fltLostPos := satAdd q.ctr.fltLostPos lost.length } }
    let s := s.faultReq p h { code := 0x3020, sev := 3, a := low.2 * 2 ^ 32 + low.1
                              b := if (s.part p).rewindOnLoss then 0 else 1 }
    (s.countDeferred p).enqueue (some p) (s.entry 0x3020 1 1 loc (some h))

/-- MARKED set on a page (R343). -/
def State.markPage (s : State) (p : Part) (handle page : Nat) : State :=
  s.modPage p handle page fun d => { d with marked := true }

/-- A page lost whole: MARKED, and every place of it known to be lost. -/
def State.markWhole (s : State) (p : Part) (handle page : Nat) : State :=
  s.modPage p handle page fun d => { d with marked := true, lostAt := List.range 64 }

/-- Places of a request's pages lost (R343): list of the directory, entry, place. MARKED is set on each page, and the places that
were not lost before are counted and told. -/
def State.loseEntries (s : State) (p : Part) (h : Nat) (lost : List (Nat × Nat × Nat)) (what : Option LostData) (loc : Nat) : State :=
  match (s.part p).req h with
  | none => s
  | some r =>
    let q := s.part p
    let shards := q.reqShards r
    let pageOf (x : Nat × Nat × Nat) : Option (Nat × Nat) :=
      (shards[x.1]?).bind fun y => ((r.lists[x.1]?).bind fun l => l.words[x.2.1]?).map fun w => (y.1, w)
    let fresh := lost.filter fun x => match (pageOf x).bind fun y => q.page y.1 y.2 with
      | some d => decide (x.2.2 < d.valid) && !d.lostAt.contains x.2.2
      | none => false
    let s := fresh.foldl (fun s x => match pageOf x with
      | some (handle, w) => s.modPage p handle w fun d => { d with marked := true, lostAt := setAdd d.lostAt x.2.2 }
      | none => s) s
    s.losePositions p h (fresh.filterMap fun x => (shards[x.1]?).map fun y => (x.1, y.2.2.posOf x.2.1 x.2.2 r.length)) what loc

/-- The places of a request's list entry that hold committed positions. -/
def entryPlaces (li : Nat) (sh : ShardRec) (j length : Nat) : List (Nat × Nat × Nat) :=
  (List.range (sh.committedIn j length)).map fun t => (li, j, t)

/-- Pages of a model lost whole (R343): each request's losses are told together; an index page costs its node (R344). -/
def State.losePages (s : State) (p : Part) (handle : Nat) (pages : List Nat) (loc : Nat) : State :=
  let s := (s.part p).reqs.foldl (fun s x =>
    let mine := (List.zip (List.range x.2.lists.length) (List.zip ((s.part p).reqShards x.2) x.2.lists)).flatMap fun y =>
      if y.2.1.1 = handle then
        (List.range y.2.2.words.length).flatMap fun j =>
          if (match y.2.2.words[j]? with | some w => pages.contains w | none => false)
          then entryPlaces y.1 y.2.1.2.2 j x.2.length else []
      else []
    if mine.isEmpty then s else s.loseEntries p x.1 mine none loc) s
  let s := pages.foldl (fun s w => s.markWhole p handle w) s
  s.modPart p fun q => q.modModel handle fun m =>
    { m with lostNodes := pages.foldl (fun l w =>
        match m.indexHolder w with | some (n, _) => setAdd l n | none => l) m.lostNodes }

/-- List blocks of a model lost (R344): of page lists, directories, token chains and index nodes. -/
def State.loseBlocks (s : State) (p : Part) (handle : Nat) (blocks : List Nat) (loc : Nat) : State :=
  let s := (s.part p).reqs.foldl (fun s x =>
    let r := x.2
    let lists := List.zip (List.range r.lists.length) (List.zip ((s.part p).reqShards r) r.lists)
    let s := lists.foldl (fun s y =>
      if y.2.1.1 = handle then
        match y.2.2.blocks.findIdx? fun b => blocks.contains b with
        | some i =>
          let lost := (List.range 62).flatMap fun k =>
            if 62 * i + k < y.2.2.words.length then
              entryPlaces y.1 y.2.1.2.2 (62 * i + k) r.length else []
          s.loseEntries p x.1 lost (some (.listBlock (62 * i) y.1)) loc
        | none => s
      else s) s
    if r.model = handle then
      let s := match r.directory.blocks.findIdx? fun b => blocks.contains b with
        | some i =>
          let lost := lists.flatMap fun y =>
            if 62 * i ≤ y.1 ∧ y.1 < 62 * i + 62 then
              (List.range y.2.2.words.length).flatMap fun j => entryPlaces y.1 y.2.1.2.2 j r.length
            else []
          s.loseEntries p x.1 lost (some .directory) loc
        | none => s
      match r.chain.blocks.findIdx? fun b => blocks.contains b with
      | some i => s.losePositions p x.1 [] (some (.tokens (62 * i))) loc
      | none => s
    else s) s
  s.modPart p fun q => q.modModel handle fun m =>
    match m.index with
    | none => m
    | some ix =>
      { m with lostNodes := ix.nodes.foldl (fun l x =>
          if x.2.chain.blocks.any fun b => blocks.contains b then setAdd l x.1 else l) m.lostNodes }

/-! ## What an address holds -/

/-- What a place of sheet memory holds for a model. -/
inductive Held where
  | billet (region billet : Nat)
  /-- A page slot: part, slot, byte within it. -/
  | slot (part slot off : Nat)
  /-- A part header: part, byte within it. -/
  | header (part off : Nat)
  | node (n : Nat)
  | scratch (region off : Nat)
  deriving DecidableEq, Repr

/-- The billets that lie at a segment and byte of a model's weight and scale records. -/
def Partition.billetsAt (p : Partition) (m : Model) (seg off : Nat) : List Held :=
  p.places.filterMap fun x =>
    match m.pkg.regions[x.region]? with
    | none => none
    | some r =>
      if x.model = m.handle ∧ (r.kind = 0 ∨ r.kind = 1) ∧ inRange seg x.sheetFirst x.sheetCount then
        let d := m.pkg.segData x.region
        let slot := off / 4096
        let g := seg - x.sheetFirst
        let n := m.billets x.region
        if r.paired then
          if d ≤ slot ∧ g * (512 - d) + (slot - d) < n then some (.billet x.region (g * (512 - d) + (slot - d))) else none
        else if slot < d ∧ g * d + slot < n then some (.billet x.region (g * d + slot)) else none
      else none

/-- What a segment and byte hold in the pools, indexes and scratch of a model. -/
def Partition.poolAt (p : Partition) (m : Model) (seg off : Nat) : List Held :=
  ((List.range m.pool.length).filterMap fun i =>
    match m.pool[i]? with
    | none => none
    | some pt =>
      if inRange seg pt.first pt.header then some (.header i ((seg - pt.first) * segBytes + off))
      else if inRange seg (pt.first + pt.header) (pt.count - pt.header) then
        let k := off / (pt.rows * 1024)
        if pt.rows ≠ 0 ∧ k < pt.perSeg then
          some (.slot i ((seg - pt.first - pt.header) * pt.perSeg + k) (off % (pt.rows * 1024)))
        else none
      else none) ++
  p.places.filterMap fun x =>
    if x.model = m.handle ∧ inRange seg x.sheetFirst x.sheetCount then
      match (m.pkg.regions[x.region]?).map (·.kind) with
      | some 3 => some (.node (((seg - x.sheetFirst) * segBytes + off) / 320))
      | some 4 => some (.scratch x.region ((seg - x.sheetFirst) * segBytes + off))
      | _ => none
    else none

/-- What an address of writable memory holds, by model (R163, R213, R278); a relief segment holds its original's billets. -/
def Partition.heldAt (p : Partition) (seg off : Nat) : List (Nat × Held) :=
  match p.relief.find? fun r => r.placed && r.relief == seg with
  | some r => match p.model r.handle with
    | some m => (p.billetsAt m r.segment off).map fun x => (r.handle, x)
    | none => []
  | none => p.models.flatMap fun m => ((p.billetsAt m seg off) ++ (p.poolAt m seg off)).map fun x => (m.handle, x)

/-- The page that holds a slot of a part, in sheet memory. -/
def PoolPart.pageIn (pt : PoolPart) (slot : Nat) : Option (Nat × PageDesc) :=
  pt.descs.find? fun d => d.2.slot == some slot && (d.2.loc == .sheet || d.2.loc == .spilling)

/-- The place in a page, 0-63, whose elements a 64-byte block of it holds (R116). -/
def pagePos (fmt off : Nat) : Nat := off % (4096 * cacheSize fmt) / (64 * cacheSize fmt)

/-- The block of a page holds an element of an entry, not only padding. -/
def pageElem (sh : ShardRec) (fmt off : Nat) : Bool :=
  let s := cacheSize fmt
  decide (64 * (off / (4096 * s)) + off % (64 * s) / s < sh.dim0 + sh.dim1)

/-- Blocks of a page, by their offsets in it, are unreadable: the positions that have elements in them are lost, once (R343), or
the node of the page (R344). [DEDUCED: log 45] -/
def State.loseInPage (s : State) (p : Part) (handle page : Nat) (offs : List Nat) (loc : Nat) : State :=
  let q := s.part p
  match q.page handle page, q.pageShard handle page with
  | some d, some sh =>
    match d.fmt with
    | none => s
    | some f =>
      let places := ((offs.filter fun off => decide (off < sh.pageBytes f) && decide (pagePos f off < d.valid) && pageElem sh f off).map
        (pagePos f)).eraseDups
      if places.isEmpty then s
      else match q.holder handle page with
        | some (h, li, j) => s.loseEntries p h (places.map fun t => (li, j, t)) none loc
        | none =>
          (s.markPage p handle page).modPart p fun q => q.modModel handle fun m =>
            match m.indexHolder page with
            | some (nd, _) => { m with lostNodes := setAdd m.lostNodes nd }
            | none => m
  | _, _ => s

/-- A block of a slot is unreadable. -/
def State.loseInSlot (s : State) (p : Part) (m : Model) (i k off loc : Nat) : State :=
  match (m.pool[i]?).bind fun pt => pt.pageIn k with
  | none => s
  | some x => s.loseInPage p m.handle (i * 2 ^ 24 + x.1) [off] loc

/-- A block that holds poison is read (R343): the position that has elements in it is lost, if it was not before. -/
def State.loseHeld (s : State) (addr : Nat) : State :=
  let seg := addr / segBytes
  (s.touches [seg]).foldl (fun s p =>
    ((s.part p).heldAt seg (addr % segBytes / 64 * 64)).foldl (fun s x =>
      match x.2, (s.part p).model x.1 with
      | .slot i k off, some m => s.loseInSlot p m i k off (s.locAt addr)
      | _, _ => s) s) s

/-- A block of sheet memory has become unreadable: what it held is repaired or lost (R300, R341, R343, R344). [DESIGN CHOICE: log 24] -/
def State.loseAt (s : State) (addr : Nat) : State :=
  let loc := s.locAt addr
  let seg := addr / segBytes
  (s.touches [seg]).foldl (fun s p =>
    ((s.part p).heldAt seg (addr % segBytes / 64 * 64)).foldl (fun s x =>
      let q := s.part p
      match x.2, (q.model x.1).bind fun m => some m with
      | .billet region billet, _ => (s.weightError p x.1 region billet).queueRepair p x.1 region billet 0x3001 loc
      | .slot i k off, some m => s.loseInSlot p m i k off loc
      | .header i off, some m =>
        match m.pool[i]? with
        | none => s
        | some pt =>
          let descs := roundUp (pt.numbers * 16) 4096
          let scales := descs + roundUp (pt.numbers * 32) 4096
          let escs := scales + roundUp (ceilDiv pt.numbers 64 * pt.esc) 4096
          let lists := escs + roundUp (ceilDiv pt.numbers 16 * 256) 4096
          let pagesWhere (f : Nat → PageDesc → Bool) : List Nat :=
            (pt.descs.filter fun d => f d.1 d.2).map fun d => i * 2 ^ 24 + d.1
          if off < descs then s.losePages p x.1 (pagesWhere fun n _ => n / 4 == off / 64) loc
          else if off < scales then
            s.losePages p x.1 (pagesWhere fun _ d => match d.scale with
              | some k => k / 2 == (off - descs) / 64 | none => false) loc
          else if off < escs then
            s.losePages p x.1 (pagesWhere fun _ d => match d.scale.bind fun k => (lookupA pt.scales k).bind (·.escIndex) with
              | some k => decide (pt.esc ≠ 0) && k == (off - scales) / pt.esc | none => false) loc
          else if off < lists then s.loseBlocks p x.1 [i * 2 ^ 24 + (off - escs) / 256] loc
          else s
      | .node n, some m =>
        match m.index with
        | some ix =>
          let l := [n, n + 1].filter fun k => (lookupA ix.nodes k).isSome && decide (320 * k < (n + 1) * 320)
          s.modPart p fun q => q.modModel x.1 fun m => { m with lostNodes := l.foldl setAdd m.lostNodes }
        | none => s
      | _, _ => s) s) s

/-- Blocks of a page that have arrived in sheet memory as poison lose their positions together (R233, R280, R343). [DESIGN CHOICE: log 24; DEDUCED: log 45] -/
def State.loseArrived (s : State) (p : Part) (handle page : Nat) : State :=
  match ((s.part p).model handle).bind fun m => m.pageAddr page with
  | none => s
  | some a =>
    let bad := s.poisoned.filter fun b => inRange b (a / 64) ((s.part p).pageLen handle page / 64)
    s.loseInPage p handle page (bad.map fun b => b * 64 - a) (s.locAt a)

/-! ## Relief (R334) -/

/-- Pages of a part that hold slots of a segment. -/
def PoolPart.pagesIn (pt : PoolPart) (seg : Nat) : List (Nat × PageDesc) :=
  pt.descs.filter fun d => match d.2.slot with | some k => pt.slotSeg k == seg | none => false

/-- The page segments of a part from the highest down, those not given up (R334). -/
def PoolPart.segsDown (pt : PoolPart) : List Nat :=
  ((List.range (pt.count - pt.header)).reverse.map fun i => pt.first + pt.header + i).filter fun g => !pt.withdrawn.contains g

/-- A page segment's pages can all be vacated: to free slots outside it, or to the spill area (R334). -/
def State.canVacate (s : State) (p : Part) (handle : Nat) (pt : PoolPart) (i seg : Nat) : Bool :=
  let stay := (pt.pagesIn seg).filter fun d => d.2.loc == .sheet && d.2.moving.isNone
  let free := (pt.freeSlots.filter fun k => pt.slotSeg k ≠ seg).length
  decide (stay.length ≤ free) ||
    ((s.part p).spill && ((stay.drop free).foldl (fun (acc : Bool × List (Nat × Nat)) d =>
      let units := ceilDiv ((s.part p).pageLen handle (i * 2 ^ 24 + d.1)) 4096
      match acc.2.find? fun r => decide (units ≤ r.2) with
      | some r => (acc.1, cutRun acc.2 r.1 units)
      | none => (false, acc.2)) (true, (s.part p).spillFree)).1)

/-- The parts of a model's pool in the order of R334 for a segment: on the same tile first. -/
def Model.reliefOrder (m : Model) (tile : Nat) : List Nat :=
  let all := List.range m.pool.length
  let on (i : Nat) : Bool := match m.pool[i]? with | some pt => pt.first / stackSegs == tile | none => false
  all.filter on ++ all.filter fun i => !on i

/-- A relief segment found for a segment: part and segment. -/
def State.findRelief (s : State) (p : Part) (m : Model) (seg : Nat) : Option (Nat × Nat) :=
  (m.reliefOrder (seg / stackSegs)).findSome? fun i =>
    match m.pool[i]? with
    | none => none
    | some pt =>
      if pt.lost then none
      else (pt.segsDown.find? fun g => !s.ashList.contains g && !s.bankRetired (placeOf (g * segBytes)) &&
        s.canVacate p m.handle pt i g).map fun g => (i, g)

/-- Relief begins (R334): a segment of the model's pools is taken, its pages start to move or spill. Where none can be
vacated, relief fails and the billets stay as they are. [DEDUCED: log 51] -/
def State.beginRelief (s : State) (p : Part) (handle region seg : Nat) : State :=
  let s := s.modPart p fun q => if (q.model handle).any (·.parts.isNone) then q.carved handle s.ashList else q
  match (s.part p).model handle with
  | none => s
  | some m =>
    if (s.part p).relief.any fun r => r.handle == handle && r.segment == seg then s
    else match s.findRelief p m seg with
      | none => s
      | some (i, g) =>
        let s := s.modPart p fun q =>
          let q := q.modModel handle fun m => m.modPool i fun pt => pt.withdraw g
          { q with relief := q.relief ++ [Relief.mk handle region seg g false false] }
        let s := s.arrive (some p) (.relief seg)
        let s := if (s.part p).atBoundary then s.startMoves p else s
        -- pages for which no slot is left spill
        match (s.part p).model handle with
        | some m =>
          match m.pool[i]? with
          | some pt =>
            if pt.freeSlots.isEmpty then
              (pt.pagesIn g).foldl (fun s d =>
                if d.2.loc = .sheet ∧ d.2.moving.isNone then
                  (s.startSpill p handle (i * 2 ^ 24 + d.1)).getD s else s) s
            else s
          | none => s
        | none => s

/-- A relief segment holds no page any more. -/
def Partition.vacated (p : Partition) (r : Relief) : Bool :=
  match p.model r.handle with
  | none => true
  | some m => m.pool.all fun pt => !(inRange r.relief pt.first pt.count) || (pt.pagesIn r.relief).isEmpty

/-- Reliefs whose copy is complete are entered at a step boundary (R334). [DEDUCED: log 51] -/
def State.placeReliefs (s : State) (p : Part) : State :=
  if (s.part p).atBoundary then
    ((s.part p).relief.filter fun r => r.copied && !r.placed).foldl (fun s r =>
      let s := s.modPart p fun q => { q with relief := q.relief.map fun x =>
        if x.handle = r.handle ∧ x.segment = r.segment then { x with placed := true } else x }
      s.toLadder [p] { code := 0x3010, sev := 0, a := r.handle * 2 ^ 32 + r.region, b := r.segment * 2 ^ 32 + r.relief }) s
  else s

/-! ## Segments withdrawn and lost (R333, R335) -/

/-- Free items of part headers, scratch and indexes that lie in a segment are withdrawn and counted (R333). -/
def State.leak (s : State) (p : Part) (handle seg : Nat) : State :=
  match (s.part p).model handle with
  | none => s
  | some m =>
    let inSeg (pt : PoolPart) (off : Nat) : Bool := pt.first + off / segBytes == seg
    let cut (pt : PoolPart) : Nat × PoolPart :=
      let descs := roundUp (pt.numbers * 16) 4096
      let scales := descs + roundUp (pt.numbers * 32) 4096
      let escs := scales + roundUp (ceilDiv pt.numbers 64 * pt.esc) 4096
      let n := pt.freeNumbers.filter fun k => !inSeg pt (16 * k)
      let c := pt.freeScales.filter fun k => !inSeg pt (descs + 32 * k)
      let e := pt.freeEscs.filter fun k => !inSeg pt (scales + pt.esc * k) && !inSeg pt (scales + pt.esc * (k + 1) - 1)
      let b := pt.freeBlocks.filter fun k => !inSeg pt (escs + 256 * k)
      ((pt.freeNumbers.length - n.length) + (pt.freeScales.length - c.length) + (pt.freeEscs.length - e.length) +
          (pt.freeBlocks.length - b.length),
        { pt with freeNumbers := n, freeScales := c, freeEscs := e, freeBlocks := b })
    let pools : List (Nat × PoolPart) := m.pool.map fun pt => if inRange seg pt.first pt.header then cut pt else (0, pt)
    let (ixLost, ix) : Nat × Option Index := match m.index with
      | none => (0, none)
      | some ix =>
        let free := ix.free.filter fun n => !(s.part p).nodeMeets m n seg
        let used := (ix.nodes.map (·.1)).filter fun n => (s.part p).nodeMeets m n seg
        let gone := ((ix.free.filter fun n => (s.part p).nodeMeets m n seg) ++ used).foldl setAdd ix.withdrawn
        (ix.free.length - free.length, some { ix with free := free, withdrawn := gone })
    let scratch := m.scratch.filter fun x => !(s.part p).scratchAshed m x [seg]
    let leaked := (pools.map (·.1)).sum + ixLost + (m.scratch.length - scratch.length)
    s.modPart p fun q =>
      let q := q.modModel handle fun m =>
        { m with parts := m.parts.map fun _ => pools.map (·.2), index := ix, scratch := scratch }
      { q with ctr := { q.ctr with fltLeaked := satAdd q.ctr.fltLeaked leaked } }

/-- The weight and scale regions of a model that have billets in a segment. -/
def Partition.regionsIn (p : Partition) (m : Model) (seg : Nat) : List Nat :=
  (p.places.filter fun x => x.model == m.handle && inRange seg x.sheetFirst x.sheetCount &&
    (match m.pkg.regions[x.region]? with | some r => r.kind == 0 || r.kind == 1 | none => false)).map (·.region)

/-- A segment is ash-listed for the first time (R333): what it held is relieved, withdrawn or leaked. -/
def State.ashContents (s : State) (seg : Nat) : State :=
  (s.touches [seg]).foldl (fun s p =>
    (s.part p).models.foldl (fun s m =>
      let s := match (s.part p).regionsIn m seg with
        | r :: _ => s.beginRelief p m.handle r seg
        | [] => s
      let s := s.leak p m.handle seg
      let s := s.modPart p fun q => q.modModel m.handle fun m =>
        { m with parts := m.parts.map fun l => l.map fun pt =>
            if inRange seg (pt.first + pt.header) (pt.count - pt.header) then pt.withdraw seg else pt }
      if (s.part p).atBoundary then s.startMoves p else s) s) s

/-- Every billet of a model's regions in a segment becomes unreadable. -/
def State.loseBillets (s : State) (p : Part) (m : Model) (seg : Nat) : State :=
  (List.range 512).foldl (fun s slot =>
    ((s.part p).billetsAt m seg (4096 * slot)).foldl (fun s x =>
      match x with
      | .billet region billet => s.weightError p m.handle region billet
      | _ => s) s) s

/-- A part lost whole: no allocation, every page, list block and chain block of it lost (R335). -/
def State.losePart (s : State) (p : Part) (handle i : Nat) (loc : Nat) : State :=
  match ((s.part p).model handle).bind fun m => m.pool[i]? with
  | none => s
  | some pt =>
    let s := s.losePages p handle (pt.descs.map fun d => i * 2 ^ 24 + d.1) loc
    s.loseBlocks p handle ((List.range (ceilDiv pt.numbers 16)).map fun b => i * 2 ^ 24 + b) loc

/-- Segments of a retired bank or die (R335), or of a stack whose contents are gone. -/
def State.loseSegs (s : State) (segs : List Nat) (loc : Nat) : State :=
  (s.touches segs).foldl (fun s p =>
    (s.part p).models.foldl (fun s m =>
      let mine := segs.filter fun g => s.writable p g
      -- weights: relieved, and refetched from their source
      let s := mine.foldl (fun s g =>
        match (s.part p).regionsIn m g with
        | r :: _ => (s.beginRelief p m.handle r g).loseBillets p m g
        | [] => s) s
      -- page slots: withdrawn, their pages lost; a header there costs the part
      match (s.part p).model m.handle with
      | none => s
      | some m =>
        let s := (List.range m.pool.length).foldl (fun s i =>
          match m.pool[i]? with
          | none => s
          | some pt =>
            if mine.any fun g => inRange g pt.first pt.header then
              (s.losePart p m.handle i loc).modPart p fun q => q.modModel m.handle fun m =>
                m.modPool i fun pt => { pt with lost := true }
            else
              let gs := mine.filter fun g => inRange g (pt.first + pt.header) (pt.count - pt.header)
              if gs.isEmpty then s
              else
                let s := s.losePages p m.handle
                  (gs.flatMap fun g => (pt.pagesIn g).map fun d => i * 2 ^ 24 + d.1) loc
                s.modPart p fun q => q.modModel m.handle fun m => m.modPool i fun pt => gs.foldl PoolPart.withdraw pt) s
        mine.foldl (fun s g =>
          let s := s.leak p m.handle g
          s.modPart p fun q => q.modModel m.handle fun m =>
            match m.index with
            | none => m
            | some ix =>
              { m with lostNodes := ix.nodes.foldl (fun l x =>
                  if q.nodeMeets m x.1 g then setAdd l x.1 else l) m.lostNodes }) s) s) s

/-! ## Tile faults begin (R338, R339) -/

/-- Mesh hops between two sites (R12). -/
def hops (a b : Nat) : Nat := (max (a / 8) (b / 8) - min (a / 8) (b / 8)) + (max (a % 8) (b % 8) - min (a % 8) (b % 8))

/-- A spare site that may take a tile's place: none that is already taken, and none that never goes into service (R31, R352). -/
def State.spareSite (s : State) (i : Site) : Bool :=
  (s.sites.get i).state == .spare && !(s.sites.get i).barred && !(s.substs.any fun x => x.spare == some i) && s.bist.spare != some i

/-- The spare site nearest to a site, the lowest number on a tie (R338 step 1), among those available. [DEDUCED: log 51] -/
def State.nearestSpare (s : State) (site : Site) : Option Site :=
  let free := (List.finRange 64).filter s.spareSite
  free.foldl (fun best i =>
    match best with
    | none => some i
    | some b => if hops i.val site.val < hops b.val site.val then some i else some b) none

/-- A site becomes fenced, and its tile number free. -/
def State.fenceSite (s : State) (site : Site) : State :=
  { s with sites := upd s.sites site fun x => { x with state := .fenced, tile := none, barred := true } }

/-- No spare is left, or the spare failed (R339): the site is fenced, its number left unassigned, `SHEET_DEGRADED`. [DEDUCED: log 52] -/
def State.degrade (s : State) (site : Site) (tile : Nat) : State :=
  let who := s.holders site.val
  let s := (s.fenceSite site).ashRecord 0x09 (locTile site.val) 0
  let mask := (who.map fun p => 2 ^ p.val).sum
  let s := s.toLadder who { code := 0x300D, sev := 4, a := tile, b := mask }
  match who with
  | [_] => s
  | _ => s.fatalFault 0x300D (locTile site.val)

/-- The logical tile whose stack a site's findings concern: its own, or the one a spare carries while the site is tested (R370). -/
def State.tileOf (s : State) (site : Site) : Option Nat :=
  if s.bist.handedOver ∧ s.bist.site = site then s.bist.tile else (s.sites.get site).tile

/-- A tile-level fault (R338): its partitions are quarantined, and its substitution begins, waits for AUTO_SPARE, or finds no
spare. A spare that is being filled escalates (R346); another spare is fenced. -/
def State.tileFault (s : State) (site : Site) (serves : Bool) : State :=
  let loc := locTile site.val
  if s.underTest site then { s with bist := { s.bist with findings := s.bist.findings ++ [.tile] } }
  else match (s.sites.get site).state, (s.sites.get site).tile with
  | .inService, some tile =>
    if s.substs.any fun x => x.failed == site then s
    else
      let who := s.holders site.val
      let s := s.toLadder who { code := 0x300B, sev := 4, a := loc, b := tile }
      let s := s.enqueue (fifoFor who) (s.entry 0x300B 2 7 loc)
      let s := who.foldl (fun s p => s.contained p 0x300B loc 0) s
      let s := if who.isEmpty then s.alertFault 2 else s
      match s.nearestSpare site with
      | some sp =>
        let auto := s.fltCtrl.getLsbD 31
        { s with substs := s.substs ++ [Subst.mk site (if auto then some sp else none) tile serves (!auto)] }
      | none =>
        let s := s.modFifo (fifoFor who) fun l => l.filter fun e => !(e.rung == 7 && resKey 7 e.loc.toNat == site.val)
        s.degrade site tile
  | .spare, _ =>
    match s.substs.find? fun x => x.spare == some site && !x.waiting with
    | some x =>
      let who := s.holders x.failed.val
      let s := s.escalate who 7 (locTile x.failed.val) 8
      let s := (s.fenceSite site).ashRecord 0x09 loc 0
      let s := { s with substs := s.substs.filter fun y => y.failed ≠ x.failed }
      let s := s.modFifo (fifoFor who) fun l => l.filter fun e => !(e.rung == 8 && resKey 8 e.loc.toNat == x.failed.val)
      s.degrade x.failed x.tile
    | none => (s.fenceSite site).ashRecord 0x09 loc 0
  | _, _ => s

/-! ## Rows, banks and dies (R331-R336) -/

/-- Blocks that read as poison from now on are held as sheet lines no longer (R80, R94). -/
def State.dropDeadLines (s : State) : State :=
  { s with sheetLines := s.sheetLines.filter fun x => !s.bankDead (placeOf (64 * x.2)) }

/-- Rung 5: a die is retired (R335); it takes a FIFO entry unless one has escalated to it. -/
def State.retireDie (s : State) (site : Site) (die cause : Nat) (queue : Bool := true) : State :=
  let k := dieKey site die
  if (s.die k).retired then s
  else
    let loc := locBlock site.val die 0 0 0
    let segs := match s.tileOf site with | some t => dieSegs t die | none => []
    let who := s.touches segs
    let s := ((s.modDie k fun d => { d with retired := true, failing := [] }).ashRecord 0x04 loc cause).dropDeadLines
    let s := s.toLadder who { code := 0x3006, sev := 3, a := loc, b := cause }
    let s := who.foldl State.countDeferred s
    let s := if queue then s.enqueue (fifoFor who) (s.entry 0x3006 1 5 loc) else s
    let s := s.loseSegs segs loc
    if 4 < ((List.range 16).filter fun i => (s.die (dieKey site i)).retired).length then s.tileFault site true else s

/-- Rung 4: a bank is retired (R335); it takes a FIFO entry unless one has escalated to it. -/
def State.retireBank (s : State) (site : Site) (die bank cause : Nat) (queue : Bool := true) : State :=
  let k := dieKey site die
  if (s.die k).retired || (s.die k).retiredBanks.contains bank then s
  else
    let loc := locBlock site.val die bank 0 0
    let segs := match s.tileOf site with | some t => bankSegs t die bank | none => []
    let who := s.touches segs
    let s := (s.modDie k fun d => { d with
      retiredBanks := setAdd d.retiredBanks bank
      failing := d.failing.filter fun x => x.1 ≠ bank }).ashRecord 0x03 loc cause
    let s := s.dropDeadLines
    let s := s.toLadder who { code := 0x3005, sev := 3, a := loc, b := cause }
    let s := who.foldl State.countDeferred s
    let s := if queue then s.enqueue (fifoFor who) (s.entry 0x3005 1 4 loc) else s
    let s := s.loseSegs segs loc
    if 16 < (s.die k).retiredBanks.length then s.retireDie site die 0 else s

/-- Rung 3: a row is retired and its segment ash-listed (R333). -/
def State.retireRow (s : State) (site : Site) (die bank row : Nat) : State :=
  let k := dieKey site die
  let loc := locBlock site.val die bank row 0
  let home := addrOfRow ((s.tileOf site).getD (64 + site.val)) die bank row / segBytes
  let seg := if (s.tileOf site).isSome then home else none32
  let who := s.touches [seg]
  let n := ((lookupA (s.die k).retirements bank).getD 0) + 1
  let s := s.modDie k fun d => { d with
    retirements := insertA d.retirements bank n
    failing := d.failing.filter fun x => x ≠ (bank, row) }
  let s := s.ashRecord 0x02 loc seg
  let s := s.toLadder who { code := 0x3004, sev := 2, a := loc, b := seg }
  let s := if s.ashList.contains home then s else { s with ashList := setAdd s.ashList home }.ashContents home
  if n = 33 then s.retireBank site die bank 0 else s

/-- A free spare row of a row's sub-array, the lowest (R103, R331 step 2). -/
def DieSt.freeSpare (d : DieSt) (bank row : Nat) : Option Nat :=
  ((List.range 128).map fun i => row % 2 * 128 + i).find? fun i => !d.usedSpares.contains (bank, i)

/-- A row fails (R330 rung 2): it is to be remapped, or, failing for the third time or with no spare left in its
sub-array, retired. Rows of an ash-listed segment stay as they are (R333). -/
def State.rowFail (s : State) (addr code cls : Nat) : State :=
  let pl := placeOf addr
  match s.siteOf pl.tile with
  | none => s
  | some site =>
    let k := dieKey site pl.die
    let d := s.die k
    let seg := addr / segBytes
    let who := s.touches [seg]
    let loc := locBlock site.val pl.die pl.bank pl.row (pl.column / 64)
    if s.ashList.contains seg || s.bankRetired pl then s
    else if d.failing.contains (pl.bank, pl.row) then s.enqueue (fifoFor who) (s.entry code cls 2 loc)
    else if 2 ≤ (d.remaps.filter fun x => x.1 == pl.bank && x.2.1 == pl.row).length ∨ (d.freeSpare pl.bank pl.row).isNone then
      (s.enqueue (fifoFor who) (s.entry code cls 3 loc)).retireRow site pl.die pl.bank pl.row
    else
      (s.modDie k fun d => { d with failing := d.failing ++ [(pl.bank, pl.row)] }).enqueue (fifoFor who)
        (s.entry code cls 2 loc)

/-- A fault in a relief segment still being filled escalates the HANDLING entry that it serves (R346 rule 2): to the
retirement of the bank, of the die, or to a tile fault. None where no such entry stands. -/
def State.reliefFault (s : State) (seg : Nat) : Option State :=
  allParts.findSome? fun p =>
    ((s.part p).relief.find? fun r => r.relief == seg && !r.placed).bind fun r =>
      let pl := placeOf (r.segment * segBytes)
      (s.siteOf pl.tile).bind fun site =>
        let who := s.touches [r.segment]
        let loc := locBlock site.val pl.die pl.bank pl.row 0
        let hit (rung : Nat) (e : FaultEntry) : Bool := e.handling && e.rung == rung && resKey rung e.loc.toNat == resKey rung loc
        let l := s.fifo (fifoFor who)
        if l.any (hit 3) then some ((s.escalate who 3 loc 4).retireBank site pl.die pl.bank 2 false)
        else if l.any (hit 4) then some ((s.escalate who 4 loc 5).retireDie site pl.die 3 false)
        else if l.any (hit 5) then some ((s.escalate who 5 loc 7).tileFault site true)
        else none

/-- FLT_CTRL fields; 0 counts as 1 (R352). -/
def State.rowCorr (s : State) : Nat := max 1 (bitsOf s.fltCtrl 7 0)
def State.wireCorr (s : State) : Nat := max 1 (bitsOf s.fltCtrl 23 16)

/-- Consecutive corrections on one wire (R336). -/
def State.countWire (s : State) (site : Site) (die : Nat) (wire : Option Nat) (who : List Part) (loc : Nat) : State :=
  let k := dieKey site die
  match wire with
  | none => s.modDie k fun d => { d with wireRun := none }
  | some w =>
    if (s.die k).failedWires.contains w then s
    else
      let n := match (s.die k).wireRun with | some (v, n) => if v = w then n + 1 else 1 | none => 1
      if n < s.wireCorr then s.modDie k fun d => { d with wireRun := some (w, n) }
      else
        let s := s.modDie k fun d => { d with wireRun := none, failedWires := setAdd d.failedWires w }
        let s := (s.ashRecord 0x05 loc w).toLadder who { code := 0x3007, sev := 2, a := loc, b := w }
        if 2 ≤ (s.die k).failedWires.length then s.retireDie site die 1 else s

/-- A CORRECTED outcome (R84, R330 rung 2, R336). -/
def State.corrected (s : State) (addr : Nat) (wire : Option Nat) : State :=
  let pl := placeOf addr
  match s.siteOf pl.tile with
  | none => s
  | some site =>
    let k := dieKey site pl.die
    let onFailed := match wire with | some w => (s.die k).failedWires.contains w | none => false
    let who := s.touches [addr / segBytes]
    let s := s.countWire site pl.die wire who (s.locAt addr)
    if onFailed then s
    else
      let rest := (s.die k).corrections.filter fun x => !(x.1 == pl.bank && x.2.1 == pl.row)
      let n := (((s.die k).corrections.find? fun x => x.1 == pl.bank && x.2.1 == pl.row).map (·.2.2)).getD 0 + 1
      if n < s.rowCorr then s.modDie k fun d => { d with corrections := rest ++ [(pl.bank, pl.row, n)] }
      else (s.modDie k fun d => { d with corrections := rest }).rowFail addr 0x3003 0

/-- An UNCORRECTABLE outcome (R84, R330 rung 1): the block is poisoned in place, reported, and what it held repaired or lost.
`via` is 0 for a demand read, 1 scrub, 2 near-bank. [DEDUCED: log 45] -/
def State.uncorrectable (s : State) (addr via : Nat) : State :=
  let who := s.touches [addr / segBytes]
  let s := s.poisonBlock (addr / 64)
  let s := s.toLadder who { code := 0x3001, sev := 3, a := s.locAt addr, b := via }
  let s := who.foldl State.countDeferred s
  let s := if who.isEmpty then s.alertFault 1 else s
  (match s.reliefFault (addr / segBytes) with
    | some s => s
    | none => s.rowFail addr 0x3001 1).loseAt addr

/-! ## Reads of sheet memory with what the decoder found (R84, R100) -/

/-- Counters of a partition changed. -/
def State.count (s : State) (p : Part) (f : PrtCounters → PrtCounters) : State :=
  s.modPart p fun q => { q with ctr := f q.ctr }

/-- Whom the outcome of a read counts for: the reading partition, or for scrub those whose writable memory it is (R100). -/
def State.readers (s : State) (who : Option Part) (via addr : Nat) : List Part :=
  match who with
  | some p => [p]
  | none => if via = 1 then s.touches [addr / segBytes] else []

/-- A read of one block by a partition (or by no partition) with its outcome: counted, and acted on. A block that holds the poison
pattern reads POISONED, also with one symbol changed, and reports nothing new (R82, R84); one that reads UNCORRECTABLE is
poisoned, whatever it held. An error that the decoder misses stands in the block: what it delivers is what the block holds from
then on, and no event tells of it. A retired bank counts nothing (R80). [DESIGN CHOICE: log 5] -/
def State.readBlock (s : State) (who : Option Part) (via b : Nat) (o : Outcome) : State :=
  let l := s.readers who via (b * 64)
  let held (s : State) : State :=
    (match who with
      | some p => s.count p fun c => { c with memPoison := satAdd c.memPoison 1 }
      | none => s).loseHeld (b * 64)
  let fixed (s : State) (w : Option Nat) : State :=
    (l.foldl (fun s p => s.count p fun c => { c with memCorr := satAdd c.memCorr 1 }) s).corrected (b * 64) w
  if s.bankDead (placeOf (b * 64)) then s
  else match o with
    | .clean => if s.poisoned.contains b then held s else s
    | .corrected w => if s.poisoned.contains b then held s else fixed s w
    | .uncorrectable =>
      (l.foldl (fun s p => s.count p fun c => { c with memUncorr := satAdd c.memUncorr 1 }) s).uncorrectable (b * 64) via
    | .missed data c =>
      let s := s.putBlock b data false
      if c then fixed s none else s

/-- A read of a range of blocks with the outcomes that are not CLEAN; poisoned blocks are counted. [DESIGN CHOICE: log 5] -/
def State.readRange (s : State) (who : Option Part) (via addr len : Nat) (errs : Errs) : State :=
  let b := addr / 64
  let n := ceilDiv (addr % 64 + len) 64
  let pois := if s.bankDead (placeOf addr) then []
    else s.poisoned.filter fun x => inRange x b n && !errs.any fun e => e.1 == x && outcomeWhole e.2
  let s := pois.foldl (fun s x => s.readBlock who via x .clean) s
  errs.foldl (fun s e =>
    if inRange e.1 b n ∧ (outcomeWhole e.2 ∨ (s.block (e.1 * 64)).2 = false) then s.readBlock who via e.1 e.2 else s) s

/-! ## FIFO entries that end (R345, R346) -/

/-- Work that an entry still waits for. -/
def State.entryBusy (s : State) (e : FaultEntry) : Bool :=
  let loc := e.loc.toNat
  let site := loc / 2 ^ 54 % 64
  let die := loc / 2 ^ 50 % 16
  let bank := loc / 2 ^ 44 % 64
  let row := loc / 2 ^ 27 % 2 ^ 17
  let tile := (s.sites.get (Fin.ofNat 64 site)).tile
  let segIn (g : Nat) : Bool :=
    let pl := placeOf (g * segBytes)
    some pl.tile == tile && pl.die == die &&
      (e.rung == 5 || pl.bank == bank) && (e.rung != 3 || decide (pl.row / 2048 = row / 2048))
  if e.billet.isSome then true
  else match e.rung with
  | 2 =>
    let d := s.die (site * 16 + die)
    d.failing.contains (bank, row) || s.repairs.any fun r => r.phase == .refetch &&
      (match (s.part r.part).model r.handle with
        | some m => (match (s.part r.part).billetAddr m r.region r.billet with
          | some a => let pl := placeOf a
            some pl.tile == tile && pl.die == die && pl.bank == bank && decide (pl.row ≤ row) && decide (row < pl.row + 4)
          | none => false)
        | none => false)
  | 3 | 4 | 5 => allParts.any fun p => ((s.part p).relief.any fun r => !r.placed && segIn r.segment) ||
      (e.rung == 3 && (s.part p).models.any fun m => m.pool.any fun pt =>
        pt.withdrawn.any fun g => segIn g && !(pt.pagesIn g).isEmpty)
  | 6 => s.tileUnits.any fun x => x.1 == site && !x.2.waiting.isEmpty
  | 7 => s.substs.any fun x => x.failed.val == site
  | _ => false

/-- HANDLING entries whose work is done leave their FIFO. [DEDUCED: log 51] -/
def State.sweep (s : State) : State :=
  let keep (e : FaultEntry) : Bool := !(e.handling && s.entryBusy e == false)
  let s' := allParts.foldl (fun (s : State) p => s.modPart p fun q => { q with fifo := q.fifo.filter keep }) s
  { s' with sheetFifo := s'.sheetFifo.filter keep }

/-- An entry on a resource starts to be handled. [DEDUCED: log 51] -/
def State.startEntry (s : State) (o : Option Part) (rung loc : Nat) : State :=
  s.modFifo o (modifyFirst (fun e => e.rung == rung && resKey rung e.loc.toNat == resKey rung loc)
    fun e => { e with handling := true })

/-- Who handles an entry: its die controller for rungs 1 to 3, else the management firmware. -/
def FaultEntry.handler (e : FaultEntry) : Nat :=
  if e.rung ≤ 3 ∧ e.loc.toNat / 2 ^ 60 = 0 then e.loc.toNat / 2 ^ 50 + 1 else 0

/-- An entry that neither a die controller nor the management firmware handles: a cache loss or a weight repair. [DESIGN CHOICE: log 64] -/
def FaultEntry.runsItself (e : FaultEntry) : Bool := e.code == 0x3020 || e.billet.isSome

/-- The next entry of a FIFO that may begin (R346): entries are handled in order, one at a time on each die controller and one
at a time in the management firmware; a rung 7 entry waits for every earlier entry on its tile. A lost cache position is
the stoker's at the next formation, and a weight repair follows its refetch: neither is handled here. -/
def nextEntry (busy : List Nat) (before : List FaultEntry) : List FaultEntry → Option Nat
  | [] => none
  | e :: rest =>
    let i := before.length
    let tile (x : FaultEntry) : Nat := x.loc.toNat / 2 ^ 54 % 64
    if e.runsItself then nextEntry busy (before ++ [e]) rest
    else if e.handling then nextEntry (e.handler :: busy) (before ++ [e]) rest
    else if busy.contains e.handler || (e.rung == 7 && before.any fun x => tile x == tile e && !x.runsItself)
    then nextEntry (e.handler :: busy) (before ++ [e]) rest
    else some i

/-- Handlers busy in other FIFOs. -/
def State.busyHandlers (s : State) (o : Option Part) : List Nat :=
  ((none :: allParts.map some).filter fun x => x ≠ o).flatMap fun x =>
    ((s.fifo x).filter fun e => e.handling && e.billet.isNone).map (·.handler)

/-- `FAULT_ENTRY_HANDLE` (R346): while repairs have stopped none begins (R340). -/
def execFaultEntryHandle (o : Option Part) (s : State) : Host.Outcome State Fault Refusal :=
  .next (
    if s.power.mgmtLost then s
    else match nextEntry (s.busyHandlers o) [] (s.fifo o) with
      | some i => (s.modFifo o fun l => l.modify i fun e => { e with handling := true }).sweep
      | none => s)

end Sys2Proof.Machine
end

