-- ==== Sys2Proof/Machine/Repair.lean ====
section
/-! DEFINITION. The repairs of chapter 14 as rows of the table: rows, relief, page moves (R331-R334), cores and engines
(R337), tiles and site frames (R338-R340), and the ash log (R349, R350). -/

namespace Sys2Proof.Machine

/-! ## Rows (R331, R332) -/

/-- The remap of a failing row (R331): copied to the lowest spare of its sub-array, verified, and switched; a failed verify
escalates to rung 3 (R332). -/
def State.remapRow (s : State) (k : BankId) (tile row : Nat) (errs : Errs) (verifyOk : Bool) : State :=
  let die := k.die.val
  let bank := k.bank.val
  let key := dieKey k.site die
  let addr := addrOfRow tile die bank row
  let who := s.touches [addr / segBytes]
  let loc := locBlock k.site.val die bank row 0
  match (s.die key).freeSpare bank row with
  | none => s.retireRow k.site die bank row
  | some spare =>
    let s := s.startEntry (fifoFor who) 2 loc
    let s := s.readRange none 0 addr 1024 errs
    let second := (s.die key).remaps.any fun x => x.1 == bank && x.2.1 == row
    let s := s.modDie key fun d => { d with usedSpares := (bank, spare) :: d.usedSpares }
    let s :=
      if verifyOk then
        let arg := spare + if second then 256 else 0
        let s := s.modDie key fun d => { d with
          failing := d.failing.filter fun x => x ≠ (bank, row)
          remaps := d.remaps ++ [(bank, row, spare, second)]
          corrections := d.corrections.filter fun x => !(x.1 == bank && x.2.1 == row) }
        (s.ashRecord 0x01 loc arg).toLadder who { code := 0x3003, sev := 2, a := loc, b := arg }
      else (s.escalate who 2 loc 3).retireRow k.site die bank row
    s.sweep

/-- `ROW_REMAP`: of a row that waits for it. -/
def execRowRemap (bank : BankId) (row : Nat) (errs : Errs) (verifyOk : Bool) (s : State) :
    Host.Outcome State Fault Refusal :=
  .next (
    match (s.sites.get bank.site).tile with
    | some tile =>
      if (s.die (dieKey bank.site bank.die.val)).failing.contains (bank.bank.val, row)
      then s.remapRow bank tile row errs verifyOk else s
    | none => s)

/-! ## Relief and page moves (R333, R334) -/

/-- The copy of a relief is complete: entered at once at a step boundary, else at the next one (R334). A copy that touches a held die is
not served (R97). [DESIGN CHOICE: log 60] -/
def execReliefCopyDone (p : Part) (segment : Nat) (errs : Errs) (s : State) : Host.Outcome State Fault Refusal :=
  .next (
    match (s.part p).relief.find? fun r => r.segment == segment && !r.copied with
    | none => s
    | some r =>
      if s.rangeHeld (segment * segBytes) segBytes || s.rangeHeld (r.relief * segBytes) segBytes then s
      else if (s.part p).vacated r then
        let s := s.readRange (some p) 0 (segment * segBytes) segBytes errs
        let s := s.copyRange (segment * segBytes) (r.relief * segBytes) segBytes
        let s := s.modPart p fun q => { q with relief := q.relief.map fun x =>
          if x.segment = segment ∧ x.handle = r.handle then { x with copied := true } else x }
        (s.placeReliefs p).sweep
      else s)

/-- A page whose copy has ended is released where nothing holds it any more (R230). -/
def State.releaseOrphan (s : State) (p : Part) (handle page : Nat) : State :=
  let q := s.part p
  if (q.holder handle page).isSome || ((q.model handle).bind fun m => m.indexHolder page).isSome then s
  else s.modPart p fun q => q.modModel handle fun m => m.releasePage page

/-- The move of a page to a free slot of its part ends (R333, R334), not while a held die is part of it (R97). [DESIGN CHOICE: log 60] -/
def State.pageMoved (s : State) (p : Part) (handle page : Nat) (errs : Errs) : State :=
  match (s.part p).model handle with
  | none => s
  | some m =>
    match m.pool[pagePart page]?, m.desc page with
    | some pt, some d =>
      match d.slot, d.moving with
      | some k, some k' =>
        let len := pt.rows * 1024
        if s.rangeHeld (pt.slotAddr k) len || s.rangeHeld (pt.slotAddr k') len then s
        else
        let s := s.readRange (some p) 0 (pt.slotAddr k) len errs
        let s := s.copyRange (pt.slotAddr k) (pt.slotAddr k') len
        let s := s.modPart p fun q => q.modModel handle fun m =>
          (m.modPool (pagePart page) fun pt => pt.giveSlot k).modDesc page
            fun d => { d with slot := some k', moving := none }
        (((s.releaseOrphan p handle page).pumpFetches p).placeReliefs p).sweep
      | _, _ => s
    | _, _ => s

/-- `PAGE_MOVE_DONE`. -/
def execPageMoveDone (p : Part) (handle page : Nat) (errs : Errs) (s : State) : Host.Outcome State Fault Refusal :=
  .next (s.pageMoved p handle page errs)

/-! ## Cores and engines (R337) -/

/-- What a tile has lost of its units. -/
def State.units? (s : State) (site : Nat) : TileUnits := (lookupA s.tileUnits site).getD {}
/-- Update of it. -/
def State.modUnits (s : State) (site : Nat) (f : TileUnits → TileUnits) : State :=
  { s with tileUnits := insertA s.tileUnits site (f (s.units? site)) }

/-- The program of a run, numbered as `STEP_RESULT_POISONED` numbers it (R211). -/
def ModelRun.program (run : ModelRun) (k : Package) : Nat :=
  if run.prog = 0 then 0xFFFE else if run.prog ≤ k.model.layers then run.prog - 1 else 0xFFFF

/-- Tokens of a running step that a fault poisons: which of them, the manual leaves open (R337); with the program of their model's run,
numbered as R211 numbers it. [DEDUCED: log 51] -/
def Partition.poisonSome (q : Partition) (st : Step) (which cause : Nat) : Step :=
  let prog (m : Nat) : Nat := match st.runs.find? fun r => r.handle == m, q.model m with
    | some r, some x => r.program x.pkg
    | _, _ => 0xFFFE
  { st with toks := st.toks.mapIdx fun i t =>
      if which.testBit i && t.poison.isNone then { t with poison := some (prog t.model, cause) } else t }

/-- Results poisoned in the running step of each partition of a list. [DEDUCED: log 51] -/
def State.poisonSteps (s : State) (who : List Part) (cause : Nat) : State :=
  who.foldl (fun s p =>
    match (s.part p).step with
    | none => s
    | some st =>
      let (n, s) := s.draw
      (s.countDeferred p).modPart p fun q => { q with step := some (q.poisonSome st n cause) }) s

/-- Spare cores take over where a step boundary has been reached (R337). [DEDUCED: log 51] -/
def State.spareCores (s : State) : State :=
  (s.tileUnits.foldl (fun s x =>
    let site := x.1
    if (s.holders site).all fun p => (s.part p).atBoundary then
      let s := x.2.waiting.foldl (fun s y =>
        let n := (x.2.coreFaults.filter fun z => z.1 == y.1).findIdx? (· == y)
        let spare := 64 + n.getD 0
        let loc := locCore site y.1 y.2
        (s.ashRecord 0x06 loc spare).toLadder (s.holders site) { code := 0x3008, sev := 2, a := loc, b := spare }) s
      s.modUnits site fun u => { u with waiting := [] }
    else s) s).sweep

/-- A cluster is retired (R337). -/
def State.retireCluster (s : State) (site : Site) (cluster : Nat) (loc : Nat) : State :=
  if (s.units? site.val).clusters.contains cluster then s
  else
    let s := s.modUnits site.val fun u => { u with
      clusters := setAdd u.clusters cluster
      waiting := u.waiting.filter fun x => x.1 ≠ cluster }
    let n := (s.units? site.val).clusters.length
    let s := (s.ashRecord 0x07 loc 0).toLadder (s.holders site.val) { code := 0x3009, sev := 2, a := loc, b := n }
    if 16 < n then s.tileFault site true else s

/-- A core is found faulty: a spare of its cluster is to take its place, or the fifth fault retires the cluster. -/
def State.coreFaulty (s : State) (site : Site) (cluster core : Nat) : State :=
  let u := s.units? site.val
  if u.clusters.contains cluster || u.coreFaults.contains (cluster, core) then s
  else
    let loc := locCore site.val cluster core
    let s := s.enqueue (fifoFor (s.holders site.val)) (s.entry 0x3008 1 6 loc)
    let s := s.modUnits site.val fun u => { u with coreFaults := u.coreFaults ++ [(cluster, core)] }
    if 5 ≤ ((s.units? site.val).coreFaults.filter fun x => x.1 == cluster).length then s.retireCluster site cluster loc
    else (s.modUnits site.val fun u => { u with waiting := u.waiting ++ [(cluster, core)] }).spareCores

/-- A matrix engine is retired (R337). -/
def State.engineFaulty (s : State) (site : Site) (engine : Nat) : State :=
  if (s.units? site.val).engines.contains engine then s
  else
    let loc := locEngine site.val engine
    let s := s.enqueue (fifoFor (s.holders site.val)) (s.entry 0x300A 0 6 loc)
    let s := s.modUnits site.val fun u => { u with engines := setAdd u.engines engine }
    let n := (s.units? site.val).engines.length
    let s := (s.ashRecord 0x08 loc 0).toLadder (s.holders site.val) { code := 0x300A, sev := 2, a := loc, b := n }
    if 8 < n then s.tileFault site true else s

/-- `CORE_FAULT`: the output lines of the core are poisoned, so the affected tokens are withheld. -/
def execCoreFault (site : Site) (cluster core : Nat) (s : State) : Host.Outcome State Fault Refusal :=
  .next (
    if s.underTest site then { s with bist := { s.bist with findings := s.bist.findings ++ [.core cluster core] } }
    else if (s.sites.get site).state = .inService then
      (s.poisonSteps (s.holders site.val) 2).coreFaulty site cluster core
    else s)

/-- `ENGINE_PARITY_ERROR`. -/
def execEngineParityError (site : Site) (engine : Nat) (s : State) : Host.Outcome State Fault Refusal :=
  .next (
    if s.underTest site then { s with bist := { s.bist with findings := s.bist.findings ++ [.engine engine] } }
    else if (s.sites.get site).state = .inService then s.engineFaulty site engine
    else s)

/-! ## Tiles (R338, R339) -/

/-- `TILE_FAULT`. -/
def execTileFault (site : Site) (serves : Bool) (s : State) : Host.Outcome State Fault Refusal :=
  .next (
    if s.underTest site then { s with bist := { s.bist with findings := s.bist.findings ++ [.tile] } }
    else s.tileFault site serves)

/-- AUTO_SPARE set: substitutions that waited take the nearest spare, or find none (R338, R339). -/
def State.autoSpare (s : State) : State :=
  let s := { s with fltCtrl := maskPut s.fltCtrl 31 true }
  (s.substs.filter (·.waiting)).foldl (fun s x =>
    match s.nearestSpare x.failed with
    | some sp =>
      { s with substs := s.substs.map fun y =>
          if y.failed = x.failed then { y with spare := some sp, waiting := false } else y }
    | none =>
      let who := s.holders x.failed.val
      let s := { s with substs := s.substs.filter fun y => y.failed ≠ x.failed }
      let s := s.modFifo (fifoFor who) fun l =>
        l.filter fun e => !(e.rung == 7 && resKey 7 e.loc.toNat == x.failed.val)
      s.degrade x.failed x.tile) s

/-- `AUTO_SPARE_SET`: the owner writes 1 to FLT_CTRL.AUTO_SPARE. [DEDUCED: log 51] -/
def execAutoSpareSet (port : Port) (s : State) : Host.Outcome State Fault Refusal :=
  .next (if s.reaches port then s.autoSpare else s)

/-- A site's bit of every FENCE TILES mask and SLICE slot mask moves to another site (R338 step 4). -/
def State.moveMasks (s : State) (a b : Site) : State :=
  let mv (m : W64) : W64 := if m.getLsbD a.val then maskPut (maskPut m a.val false) b.val true else m
  let s := allParts.foldl (fun (s : State) p => s.modPart p fun q =>
    { q with fence := q.fence.map fun f => { f with tiles := mv f.tiles } }) s
  { s with slice := { s.slice with
      slots := s.slice.slots.map fun x => { x with tiles := mv x.tiles }
      debts := s.slice.debts.map fun x => (x.1, mv x.2.1, x.2.2) } }

/-- A logical tile is carried by another site: the number and the mask bits move; the old site keeps a state. -/
def State.carry (s : State) (a b : Site) (tile : Nat) (old : SiteState) : State :=
  let s := s.moveMasks a b
  let sites := upd s.sites a fun x => { x with state := old, tile := none }
  { s with sites := upd sites b fun x => { x with state := .inService, tile := some tile } }

/-- Blocks of the banks that a site has lost, in the memory of a tile: they are copied as poison. [DEDUCED: log 52] -/
def State.poisonDead (s : State) (site : Site) (tile : Nat) : State :=
  (List.range 16).foldl (fun s die =>
    let d := s.die (dieKey site die)
    let segs := if d.retired then dieSegs tile die else d.retiredBanks.flatMap fun b => bankSegs tile die b
    segs.foldl (fun s g =>
      { s with sheet := s.sheet.zeroN (g * segBytes) segBytes
               poisoned := setAddRange s.poisoned (g * 32768) 32768
               sheetLines := s.sheetLines.filter fun x => decide (x.2 / 32768 ≠ g) }) s) s

/-- Billet `b` of a region written again from its mirror or peat copy; a chunk that is poisoned, or that the fence does not let it read,
leaves the billet as it is and its source lost (R34, R302). -/
def State.refetchBillet (s : State) (p : Part) (m : Model) (region b : Nat) (bad : List Nat) : State × Bool :=
  match (s.part p).billetAddr m region b, (s.part p).billetPeat m region b with
  | some a, some c =>
    let a := (s.part p).relieved m.handle a
    let lost := (s.peatBreach p c 4096 false).isSome ||
      (List.range 16).any fun i => (s.chunk (c / 256 + i)).2 || bad.contains (c / 256 + i)
    if lost then (s.told p (s.peatBreach p c 4096 false) 0, false)
    else (s.fencedFetch p [] c a 4096, true)
  | _, _ => (s, false)

/-- All blocks of a billet poisoned, that memory has lost. -/
def State.poisonBillet (s : State) (p : Part) (m : Model) (region b : Nat) : State :=
  match (s.part p).billetAddr m region b with
  | some a => s.poisonBlocks ((s.part p).relieved m.handle a / 64) 64
  | none => s

/-- The billets of a region that lie in a tile's stack. -/
def Partition.billetsOn (p : Partition) (m : Model) (region tile : Nat) : List Nat :=
  match m.pkg.regions[region]? with
  | none => []
  | some _ => (List.range (m.billets region)).filter fun b =>
      match p.billetAddr m region b with
      | some a => p.relieved m.handle a / segBytes / stackSegs == tile
      | none => false

/-- The stack of a tile that no longer serves is filled anew (R338 step 3): zeroised, weight and scale billets refetched, every
other content lost. [DEDUCED: log 52] -/
def State.refillStack (s : State) (tile : Nat) (loc : Nat) : State :=
  let s := s.zeroSheet (tile * stackSegs * segBytes) (stackSegs * segBytes)
  allParts.foldl (fun s p =>
    (s.part p).models.foldl (fun s m =>
      let s := ((List.range m.pkg.regions.length).filter fun r =>
          match m.pkg.regions[r]?, (s.part p).place m.handle r with
          | some x, some pl => (x.kind == 0 || x.kind == 1) && !(m.bound.any fun b => b.1 == r) &&
              (pl.residence == 0 || (s.part p).alone m r)
          | _, _ => false).foldl (fun s r =>
        ((s.part p).billetsOn m r tile).foldl (fun s b =>
          if (s.part p).hasSource m r && !s.peatRetired then
            let (s, ok) := s.refetchBillet p m r b []
            if ok then s.modRepairs p fun l => l.filter fun x =>
              !(x.part == p && x.handle == m.handle && x.region == r && x.billet == b)
            else (s.poisonBillet p m r b).sourceLost p m.handle r b
          else if ((s.part p).billetAddr m r b).isSome then (s.poisonBillet p m r b).weightError p m.handle r b
          else s) s) s
      -- staging ranges that several regions share are left unstaged
      let s := s.modPart p fun q => q.modModel m.handle fun x =>
        { x with staged := x.staged.filter fun r =>
            match q.place m.handle r with
            | some pl => pl.residence == 0 || q.alone m r ||
                !(inRange tile (pl.sheetFirst / stackSegs) ((pl.sheetFirst + pl.sheetCount - 1) / stackSegs + 1 - pl.sheetFirst / stackSegs))
            | none => false }
      let s := (List.range m.pool.length).foldl (fun s i =>
        match m.pool[i]? with
        | some pt => if pt.first / stackSegs = tile then s.losePart p m.handle i loc else s
        | none => s) s
      s.modPart p fun q => q.modModel m.handle fun x =>
        match x.index with
        | none => x
        | some ix =>
          let lost := ix.nodes.foldl (fun l n => if q.nodeOnTile x n.1 tile then setAdd l n.1 else l) x.lostNodes
          { x with lostNodes := lost }) s) s

/-- A tile's substitution ends (R338 step 4). [DEDUCED: log 52] -/
def State.substituted (s : State) (x : Subst) (spare : Site) : State :=
  let who := s.holders x.failed.val
  let s := if x.serves then s.poisonDead x.failed x.tile else s
  let s := s.carry x.failed spare x.tile .fenced
  let s := { s with sites := upd s.sites x.failed fun y => { y with barred := true } }
  let s := if x.serves then s else s.refillStack x.tile (locTile x.failed.val)
  let s := (s.ashRecord 0x09 (locTile x.failed.val) 0).ashRecord 0x0A (locTile x.failed.val) (x.tile + spare.val * 256)
  let s := s.toLadder who
    { code := 0x300C, sev := 0, a := x.tile * 2 ^ 16 + spare.val * 2 ^ 8 + x.failed.val, b := if x.serves then 0 else 1 }
  let s := { s with substs := s.substs.filter fun y => y.failed ≠ x.failed }
  s.modFifo (fifoFor who) fun l => l.filter fun e => !(e.rung == 7 && resKey 7 e.loc.toNat == x.failed.val)

/-- `SUBSTITUTION_DONE` of the failed site. [DEDUCED: log 52] -/
def execSubstitutionDone (site : Site) (s : State) : Host.Outcome State Fault Refusal :=
  .next (
    match s.substs.find? fun x => x.failed == site && !x.waiting with
    | some x => match x.spare with
      | some sp => if s.power.mgmtLost then s else s.substituted x sp
      | none => s
    | none => s)

/-! ## Site frames (R340) -/

/-- Output links in the order tried: E, W, S, N (R35). -/
def linkOf (a b : Nat) : Nat :=
  if b = a + 1 then 2 else if b + 1 = a then 4 else if b = a + 8 then 3 else 1

/-- Mesh neighbours of a site, columns first. -/
def neighbours (a : Nat) : List Nat :=
  (if a % 8 < 7 then [a + 1] else []) ++ (if 0 < a % 8 then [a - 1] else []) ++
    (if a / 8 < 7 then [a + 8] else []) ++ (if 0 < a / 8 then [a - 8] else [])

/-- Distances to a site over routers in service, by rounds of relaxation; 255 where there is no way. -/
def meshDist (dead : List Nat) (d : Nat) : Nat → List Nat
  | 0 => (List.range 64).map fun i => if i = d then 0 else 255
  | n + 1 =>
    let l := meshDist dead d n
    (List.range 64).map fun i =>
      if dead.contains i then 255
      else ((neighbours i).map fun j => if dead.contains j then 255 else min 255 (l.getD j 255 + 1)).foldl min (l.getD i 255)

/-- The route table by columns first, then rows (R42), with detours round the sites whose routers are retired: the next hop of
a shortest way, columns before rows. Entries are byte indices with link codes; what is missing is NONE. -/
def routeTable (dead : List Nat) : List (Nat × Nat) :=
  (List.range 64).flatMap fun a => (List.range 64).filterMap fun b =>
    if dead.contains a ∨ dead.contains b then none
    else if a = b then some (64 * a + b, 0)
    else if dead.isEmpty then
      some (64 * a + b,
        if a % 8 < b % 8 then 2 else if b % 8 < a % 8 then 4 else if a / 8 < b / 8 then 3 else 1)
    else
      let l := meshDist dead b 64
      ((neighbours a).filter fun j => !dead.contains j && decide (l.getD j 255 + 1 = l.getD a 255) && decide (l.getD a 255 < 255)).head?.map
        fun j => (64 * a + b, linkOf a j)

/-- Sites whose routers are retired. -/
def State.deadRouters (s : State) : List Nat := (List.range 64).filter fun i => (s.sites.get (Fin.ofNat 64 i)).routerRetired

/-- The corner site of a port (R20). -/
def cornerSite (p : Port) : Nat := match p with | 0 => 0 | 1 => 7 | 2 => 56 | 3 => 63

/-- A site at the edge of the mesh, whose frame has peat controllers. -/
def edgeSite (a : Nat) : Bool := a / 8 == 0 || a / 8 == 7 || a % 8 == 0 || a % 8 == 7

/-- The peat tier is retired (R340): spilled pages are lost, and every mirror and peat copy is a lost source. -/
def State.retirePeat (s : State) (loc : Nat) : State :=
  let s := { s with peatRetired := true }
  let s := allParts.foldl (fun s p =>
    (s.part p).models.foldl (fun s m =>
      s.losePages p m.handle (((s.part p).allPages.filter fun x => x.1 == m.handle &&
        (x.2.2.loc == .peat || x.2.2.loc == .fetching)).map fun x => x.2.1) loc) s) s
  (s.repairs.filter fun r => r.phase == .refetch || r.phase == .cancelled).foldl (fun s r =>
    s.sourceLost r.part r.handle r.region r.billet) s

/-- A site-frame fault (R13, R340): FATAL, and the part is retired. A site whose router is retired stays fenced, whatever it was
(R31). [DEDUCED: log 51] -/
def State.frameFault (s : State) (site : Site) (part : Fin 3) : State :=
  let loc := locFrame site.val part.val
  let s := (s.toOwner none { code := 0x300E, sev := 5, a := loc, b := part.val }).fatalFault 0x300E loc
  let s := s.ashRecord 0x0B loc part.val
  match part with
  | 0 =>
    let s := { s with sites := upd s.sites site fun x => { x with routerRetired := true } }
    let s := { s with route := routeTable s.deadRouters }
    match (s.sites.get site).state with
    | .inService => s.tileFault site false
    | .spare => (s.fenceSite site).ashRecord 0x09 (locTile site.val) 0
    | .fenced => s.fenceSite site
  | 1 => s.retirePeat loc
  | 2 =>
    match ([0, 1, 2, 3] : List Port).find? fun p => cornerSite p == site.val with
    | none => s
    | some p =>
      let s := s.modPort p fun x => { x with lost := true, linkUp := false }
      if s.power.mgmt = some p then
        { s with power := { s.power with mgmtLost := true }
                 pins := { s.pins with alertStuck := true } }.assertAlert
      else s

/-- `FRAME_FAULT`; a site that has no such part in its frame shows none. -/
def execFrameFault (site : Site) (part : Fin 3) (s : State) : Host.Outcome State Fault Refusal :=
  .next (
    if (part = 1 ∧ edgeSite site.val = false) ∨
        (part = 2 ∧ (([0, 1, 2, 3] : List Port).any fun p => cornerSite p == site.val) = false) then s
    else s.frameFault site part)

/-! ## The ash log (R349, R350) -/

/-- A record covers an earlier one (R350). -/
def ashCovers (new old : AshRec) : Bool :=
  let a := new.loc.toNat
  let b := old.loc.toNat
  match new.type with
  | 0x01 => decide (256 ≤ new.arg) && old.type == 0x01 && resKey 2 a == resKey 2 b
  | 0x02 => old.type == 0x01 && resKey 3 a == resKey 3 b
  | 0x03 => (old.type == 0x01 || old.type == 0x02) && resKey 4 a == resKey 4 b
  | 0x04 => (old.type == 0x01 || old.type == 0x02 || old.type == 0x03 || old.type == 0x05) && resKey 5 a == resKey 5 b
  | _ => false

/-- The current copy of the log: generation and records. -/
def Flash.ash (f : Flash) : Nat × List AshRec := if f.ashSecond then f.ash1 else f.ash0

/-- The current copy replaced. -/
def Flash.setAsh (f : Flash) (c : Nat × List AshRec) : Flash :=
  if f.ashSecond then { f with ash1 := c } else { f with ash0 := c }

/-- The unsuperseded records are written into the other copy, and the log switches to it. -/
def Flash.switchAsh (f : Flash) : Flash :=
  let c := f.ash
  { f with ashSecond := !f.ashSecond }.setAsh (c.1 + 1, c.2.filter fun r => !r.superseded)

/-- One record appended; records that it covers are marked. -/
def Flash.append (f : Flash) (r : AshRec) : Flash :=
  let c := f.ash
  let l := c.2.map fun x => if ashCovers r x then { x with superseded := true } else x
  { f with ashSeq := f.ashSeq + 1 }.setAsh (c.1, l ++ [{ r with seq := f.ashSeq + 1 }])

/-- `ASH_LOG_APPEND` (R350): the oldest record that waits is appended; at 7,680 records the other copy takes the unsuperseded
ones, and where it is still full the repair goes unrecorded. -/
def State.ashAppend (s : State) : State :=
  match s.ashPending with
  | [] => s
  | r :: rest =>
    let s := { s with ashPending := rest }
    let f := if 7680 ≤ s.flash.ash.2.length then s.flash.switchAsh else s.flash
    if f.ash.2.length < 7680 then { s with flash := f.append r, ashLogFull := false, ashUnrecorded := 0 }
    else
      let s' := { s with flash := f, ashLogFull := true, ashUnrecorded := s.ashUnrecorded + 1 }
      if s.ashLogFull then s'
      else s'.toOwner none { code := 0x3034, sev := 1, a := f.ash.2.length, b := s'.ashUnrecorded }

/-- `ASH_LOG_APPEND`. -/
def execAshLogAppend (s : State) : Host.Outcome State Fault Refusal :=
  .next (if s.power.mgmtLost then s else s.ashAppend)

end Sys2Proof.Machine
end

