-- ==== Sys2Proof/Machine/Tables.lean ====
section
/-! DEFINITION. The stoker's tables as bytes of sheet memory, as every other reader sees them: page descriptors (R216), page-scale
entries and escape records (R144, R145), list blocks (R219), free stacks (R213, R214), index nodes (R278). -/

namespace Sys2Proof.Machine

/-! ## Bytes of which some bits are open -/

/-- A byte of a table: the bits that are set in it, and the bits that the manual does not fix. -/
abbrev TableByte := Byte × Byte

/-- A number over `n` bytes, every bit fixed (R3). -/
def fixedBytes (n v : Nat) : List TableByte := (leBytes n v).map fun b => (b, 0)

/-- Bytes that the manual does not fix. -/
def openBytes (n : Nat) : List TableByte := List.replicate n (0, 0xFF)

/-- A byte with free bits where it is open. -/
def TableByte.fill (t : TableByte) (free : Byte) : Byte := t.1 ||| (free &&& t.2)

/-- The first `n` bytes of a list, open where it ends. -/
def padOpen (n : Nat) (l : List TableByte) : List TableByte := (l ++ openBytes (n - l.length)).take n

/-! ## Entries -/

/-- The code of LOC (R216). -/
def Loc.code : Loc → Nat
  | .sheet => 1
  | .peat => 2
  | .spilling => 3
  | .fetching => 4

/-- A page descriptor (R216); of a FREE number only LOC and the absence of a slot and of a peat location are fixed. -/
def descBytes : Option PageDesc → List TableByte
  | none => fixedBytes 4 0xFFFFFF ++ fixedBytes 4 none32 ++ openBytes 6 ++ [(0, 0x18), (0, 0)]
  | some d =>
    fixedBytes 4 (d.slot.getD 0xFFFFFF) ++ fixedBytes 4 ((d.peat.map (·.1)).getD none32) ++
      (match d.scale with | some i => fixedBytes 4 i | none => openBytes 4) ++
      fixedBytes 1 d.valid ++ fixedBytes 1 (d.fmt.getD 0xFF) ++
      fixedBytes 1 (d.loc.code + (if d.ring then 8 else 0) + if d.marked then 16 else 0) ++ fixedBytes 1 0

/-- A page-scale entry (R144); one that no page owns is open, and so is what an entry of one tensor keeps for a second. -/
def scaleBytes (oneTensor : Bool) : Option ScaleEntry → List TableByte
  | none => openBytes 32
  | some e =>
    let second (w : W32) : List TableByte := if oneTensor then openBytes 4 else fixedBytes 4 w.toNat
    let pos (held : Bool) (n : Nat) : List TableByte := if held then fixedBytes 1 n else [(0, 0x3F)]
    fixedBytes 4 e.scale0.toNat ++ second e.scale1 ++ fixedBytes 4 e.amax0.toNat ++ second e.amax1 ++
      fixedBytes 4 (e.escIndex.getD none32) ++ fixedBytes 1 e.escUsed ++
      pos (decide (1 ≤ e.escUsed)) e.escPos0 ++ pos (decide (2 ≤ e.escUsed)) e.escPos1 ++
      fixedBytes 1 ((if e.reseasoned then 1 else 0) + (if e.underRange then 2 else 0) + if e.closed then 4 else 0) ++ fixedBytes 8 0

/-- An escape record (R145): its second slot begins at half of it. [DESIGN CHOICE: log 24] -/
def escBytes (esc : Nat) : Option EscRecord → List TableByte
  | none => openBytes esc
  | some r =>
    let slot (l : List W16) : List TableByte := padOpen (esc / 2) (l.flatMap fun w => fixedBytes 2 w.toNat)
    slot r.slot0 ++ slot r.slot1

/-- A list block (R219): the block of a chain that has this handle, its words beyond COUNT open; a free block is open. -/
def listBytes (chains : List Chain) (handle : Nat) : List TableByte :=
  (chains.findSome? fun c => (c.blocks.findIdx? (· == handle)).map fun k =>
    let words := (c.words.drop (62 * k)).take 62
    padOpen 256 (fixedBytes 4 (c.blocks.getD (k + 1) none32) ++ fixedBytes 2 words.length ++ fixedBytes 2 0 ++
      words.flatMap fun w => fixedBytes 4 w)).getD (openBytes 256)

/-- Entry `i` of a free stack of `n` entries, which is taken from its front: what has been taken is open. [DESIGN CHOICE: log 24] -/
def stackBytes (n : Nat) (l : List Nat) (i : Nat) : List TableByte :=
  if n - l.length ≤ i then (match l[i - (n - l.length)]? with | some v => fixedBytes 4 v | none => openBytes 4) else openBytes 4

/-- An index node (R278). The children of a node stand in the order of their numbers. [DESIGN CHOICE: log 24] -/
def Index.nodeBytes (ix : Index) (n : Nat) : List TableByte :=
  let children (k : Nat) : List Nat := (ix.nodes.filter fun x => x.2.parent == k).map (·.1)
  let first (l : List Nat) : List TableByte := fixedBytes 4 (l.headD none32)
  let behind (l : List Nat) : List TableByte := first ((l.dropWhile (· ≠ n)).drop 1)
  if n = 0 then
    fixedBytes 4 none32 ++ first (children 0) ++ fixedBytes 4 none32 ++ openBytes 4 ++ fixedBytes 8 ix.rootUse ++
      fixedBytes 4 0 ++ first ix.free ++ fixedBytes 32 0 ++ openBytes 256
  else match lookupA ix.nodes n with
    | some nd =>
      fixedBytes 4 nd.parent ++ first (children n) ++ behind (children nd.parent) ++ first nd.chain.blocks ++
        fixedBytes 8 nd.lastUse ++ fixedBytes 4 nd.depth ++ fixedBytes 4 1 ++ fixedBytes 32 0 ++
        padOpen 256 (nd.tokens.flatMap fun w => fixedBytes 4 w)
    | none =>
      openBytes 8 ++ (if ix.free.contains n then behind ix.free else openBytes 4) ++ openBytes 16 ++ fixedBytes 4 0 ++
        fixedBytes 32 0 ++ openBytes 256

/-! ## Blocks of 64 bytes -/

/-- The chains whose blocks lie in the pool of a model: token chains, directories, page lists, and the pages of index nodes (R219,
R257, R278). -/
def Partition.chainsOf (p : Partition) (m : Model) : List Chain :=
  (p.reqs.flatMap fun x =>
    let r := x.2
    (if r.model = m.handle then [r.chain, { blocks := r.directory.blocks, words := directoryWords r.lists }] else []) ++
      (List.zip (p.reqShards r) r.lists).filterMap fun y => if y.1.1 = m.handle then some y.2 else none) ++
    match m.index with
    | some ix => ix.nodes.map fun x => x.2.chain
    | none => []

/-- The entries of a table, of `size` bytes each, that a block of 64 bytes at a byte of it meets. -/
def entriesAt (size n off : Nat) (f : Nat → List TableByte) : List TableByte :=
  (List.range (64 / size)).flatMap fun j => if off / size + j < n then f (off / size + j) else openBytes size

/-- The 64 bytes at a byte of an entry of a longer table. -/
def pieceAt (size n off : Nat) (f : Nat → List TableByte) : List TableByte :=
  if off / size < n then padOpen 64 ((f (off / size)).drop (off % size)) else openBytes 64

/-- A block of 64 bytes of a part header, at a byte of it (R213); of a part that is lost, nothing is fixed (R335). -/
def PoolPart.headerBlock (pt : PoolPart) (i : Nat) (oneTensor : Bool) (chains : List Chain) (off : Nat) : List TableByte :=
  let tab (k : Nat) : Nat := pt.tables.getD k 0
  if pt.lost then openBytes 64
  else if off < tab 1 then entriesAt 16 pt.numbers off fun n => descBytes (lookupA pt.descs n)
  else if off < tab 2 then entriesAt 32 pt.numbers (off - tab 1) fun n => scaleBytes oneTensor (lookupA pt.scales n)
  else if off < tab 3 then pieceAt pt.esc (ceilDiv pt.numbers 64) (off - tab 2) fun n => escBytes pt.esc (lookupA pt.escs n)
  else if off < tab 4 then pieceAt 256 (ceilDiv pt.numbers 16) (off - tab 3) fun n => listBytes chains (i * 2 ^ 24 + n)
  else if off < tab 5 then entriesAt 4 pt.numbers (off - tab 4) (stackBytes pt.numbers pt.freeNumbers)
  else if off < tab 6 then entriesAt 4 pt.slots (off - tab 5) (stackBytes pt.slots pt.freeSlots)
  else openBytes 64

/-- The pool of a part holds entries of one tensor alone. -/
def Package.oneTensor (k : Package) (part : Nat) : Bool :=
  k.shards.all fun sh => !(k.shardParts sh).contains part || sh.dim1 == 0

/-- What the stoker's tables show at a block, of the models of one partition; none where none of them lies there. -/
def Partition.tableAt (p : Partition) (b : Nat) : Option (List TableByte) :=
  let seg := b / 32768
  let off := b % 32768 * 64
  (p.heldAt seg off).findSome? fun x =>
    match x.2, p.model x.1 with
    | .header i at_, some m =>
      (m.pool[i]?).map fun pt => pt.headerBlock i (m.pkg.oneTensor i) (p.chainsOf m) at_
    | .node n, some m =>
      match m.index, m.pkg.indexRegion.bind fun r => p.place m.handle r with
      | some ix, some pl =>
        some (if n < p.indexNodes m then padOpen 64 ((ix.nodeBytes n).drop (((seg - pl.sheetFirst) * segBytes + off) % 320))
          else openBytes 64)
      | _, _ => none
    | _, _ => none

/-- What the stoker's tables show at a block, unless something else has written it since (R62). [DESIGN CHOICE: log 24] -/
def State.tableAt (s : State) (b : Nat) : Option (List TableByte) :=
  if s.tablesHit.contains b then none else allParts.findSome? fun p => (s.part p).tableAt b

/-- A block of the stoker's tables that a reader or writer other than the stoker has changed. [DESIGN CHOICE: log 24] -/
def State.hitTable (s : State) (b : Nat) : State :=
  if (s.tableAt b).isSome then { s with tablesHit := setAdd s.tablesHit b } else s

/-- Changed blocks count only while a table lies there: the next carving writes them anew (R213, R278). [DESIGN CHOICE: log 24] -/
def State.pruneTables (s : State) : State :=
  { s with tablesHit := s.tablesHit.filter fun b => allParts.any fun p => ((s.part p).tableAt b).isSome }

/-! ## What a reader other than the stoker is given -/

/-- The 64 bytes of a block: free in a segment on the ash list (R80), the stoker's tables where they lie, else memory as written; free
values from the `k`-th on. [DEDUCED: log 12; DESIGN CHOICE: log 24] -/
def State.shown (s : State) (k b : Nat) : List Byte :=
  if s.ashList.contains (b / 32768) then freeBytes k 64
  else match s.tableAt b with
    | some l => (List.zip l (freeBytes k 64)).map fun x => x.1.fill x.2
    | none => s.sheet.readN (b * 64) 64

/-- A range of bytes, block by block, and the state from which their free values are drawn. -/
def State.shownRange (s : State) (addr len : Nat) : List Byte × State :=
  let n := ceilDiv (addr % 64 + len) 64
  ((((List.range n).flatMap fun i => s.shown (s.fresh + 64 * i) (addr / 64 + i)).drop (addr % 64)).take len,
    { s with fresh := s.fresh + 64 * n })

end Sys2Proof.Machine
end

