-- ==== Sys2Proof/Machine/Memory.lean ====
section
/-! DEFINITION. Accesses to sheet memory: reads and writes with their decoder outcomes (R84, R85), the fence (R34), BAR4 (R62),
patrol scrub (R86, R87), refresh and temperature (R88, R89, R122), arbitration age (R91), margining (R97-R101). -/

namespace Sys2Proof.Machine

/-! ## Reads and writes by the logic -/

/-- What an error that the decoder misses delivers stands in place of a table of the stoker (R82). [DESIGN CHOICE: log 24] -/
def State.hitMissed (s : State) (b : Nat) (o : Outcome) : State :=
  match o with
  | .missed _ _ => s.hitTable b
  | .clean | .corrected _ | .uncorrectable => s

/-- A read of a block that completes (R84): what it delivers, then what the die controller does. In a segment on the ash list the data
carries no promise (R80): it is free. An error in a table of the stoker that the decoder misses stays with its readers. [DEDUCED: log 12, 53] -/
def State.readDeliver (s : State) (who : Option Part) (b : Nat) (o : Outcome) : State :=
  let bad := (s.block (b * 64)).2 && !outcomeWhole o || o == .uncorrectable
  let s := (s.hitMissed b o).readBlock who 0 b o
  let (bytes, s) := s.shownRange (b * 64) 64
  let s := s.send (.block (if bad then List.replicate 64 0 else bytes) bad)
  if bad then s
  else { s with sheetLines := if s.sheetLines.contains (b / 32768 / stackSegs, b) then s.sheetLines
                              else s.sheetLines ++ [(b / 32768 / stackSegs, b)] }

/-- Patrol scrub of one block (R86, R87), on every site, in service or not: its outcome, and the pass of its die, which ends once
every block in service of the die has been read. A stack's pass ends when every die of it that is not retired has ended one, and its
counts are theirs: retired dies are never read. [DESIGN CHOICE: log 63, 64] -/
def State.scrub (s : State) (addr : Nat) (o : Outcome) : State :=
  let pl := placeOf addr
  match s.siteOf pl.tile with
  | none => s
  | some site =>
    let k := dieKey site pl.die
    if !s.memScrub.getLsbD 31 || s.underTest site || s.dieHeld site pl.die || s.bankDead pl || s.ashList.contains (addr / segBytes) then s
    else
      let poison := s.poisoned.contains (addr / 64)
      let s := s.readBlock none 1 (addr / 64) o
      let isC := match o with | .corrected _ => !poison | _ => false
      let isU := o == .uncorrectable
      let s := s.modDie k fun d => { d with
        scrubbed := setAdd d.scrubbed (addr / 64)
        scrubCorr := d.scrubCorr + if isC then 1 else 0
        scrubUncorr := d.scrubUncorr + if isU then 1 else 0 }
      -- the blocks of the rows in service of this die
      let segs := (dieSegs pl.tile pl.die).filter fun g => !s.ashList.contains g && !s.bankDead (placeOf (g * segBytes))
      if ((s.die k).scrubbed.filter fun b => segs.contains (b / 32768)).length < segs.length * 32768 then s
      else
        let s := s.modDie k fun d => { d with passDone := true, scrubbed := [], corrections := [] }
        let dies := (List.range 16).filter fun i => !(s.die (dieKey site i)).retired
        if dies.all fun i => (s.die (dieKey site i)).passDone then
          let corr := (dies.map fun i => (s.die (dieKey site i)).scrubCorr).sum
          let unc := (dies.map fun i => (s.die (dieKey site i)).scrubUncorr).sum
          let s := dies.foldl (fun (s : State) i => s.modDie (dieKey site i) fun d =>
            { d with passDone := false, scrubCorr := 0, scrubUncorr := 0 }) s
          s.toOwner none { code := 0x2002, sev := 0, a := site.val, b := corr * 2 ^ 32 + unc }
        else s

/-- `MEM_READ` (R84): outside readable memory the read is dropped and delivers poison (R34). One of a held die is not served, then or
after the hold, and nothing is delivered (R97). [DESIGN CHOICE: log 60] -/
def execMemRead (who : Requester) (addr : Nat) (outcome : Outcome) (s : State) : Host.Outcome State Fault Refusal :=
  .next (
    match who with
    | .scrub => s.scrub addr outcome
    | .part p =>
      if s.readable p (addr / segBytes) then
        if s.placeHeld (placeOf addr) then s else s.readDeliver (some p) (addr / 64) outcome
      else (s.send (.block (List.replicate 64 0) true)).fenceViolation p (addr / segBytes) 0)

/-- `SCRUB_READ` (R86). -/
def execScrubRead (addr : Nat) (outcome : Outcome) (s : State) : Host.Outcome State Fault Refusal :=
  .next (s.scrub addr outcome)

/-- A write within one block (R85): whole, it replaces the block; part of it, it is merged by a read-modify-write, and where the
read is UNCORRECTABLE or POISONED the block is poisoned and the write reported. -/
def State.writeBlock (s : State) (p : Part) (addr : Nat) (bytes : List Byte) (o : Outcome) : State :=
  let b := addr / 64
  let off := addr % 64
  let bytes := bytes.take (64 - off)
  if s.bankDead (placeOf addr) then s
  else if off = 0 ∧ bytes.length = 64 then (s.hitTable b).putBlock b bytes false
  else
    let s := s.hitTable b
    let bad := (s.poisoned.contains b && !outcomeWhole o) || o == .uncorrectable
    let s := s.readBlock (some p) 0 b o
    if bad then
      let s := s.poisonBlock b
      (s.countDeferred p).toLadder (s.touches [addr / segBytes])
        { code := 0x3002, sev := 3, a := s.locAt addr, b := p.val }
    else { s with sheet := s.sheet.writeN addr bytes }

/-- `MEM_WRITE` (R85): outside writable memory the write is discarded (R34). -/
def execMemWrite (p : Part) (addr : Nat) (bytes : List Byte) (outcome : Outcome) (s : State) :
    Host.Outcome State Fault Refusal :=
  .next (
    if s.writable p (addr / segBytes) then
      if s.placeHeld (placeOf addr) then s else s.writeBlock p addr bytes outcome
    else s.fenceViolation p (addr / segBytes) 1)

/-! ## BAR4 (R62) -/

/-- The outcome that a command lists for a block. -/
def outcomeOf (errs : Errs) (b : Nat) : Outcome := (lookupA errs b).getD .clean

/-- The partition whose BAR4 window a port has, if the window is enabled. -/
def State.window (s : State) (port : Port) : Option (Part × Nat) :=
  (s.partOf port).bind fun p =>
    let b := (s.part p).sub
    if b.winCtrl.getLsbD 0 then some (p, bitsOf b.winBase 21 0) else none

/-- Memory that a running partition uses: the ranges of its PLACE records, and the relief segments that stand for segments of them. [DEDUCED: log 11] -/
def State.inUse (s : State) (p : Part) (seg : Nat) : Bool :=
  let placed (g : Nat) : Bool := (s.part p).places.any fun x => inRange g x.sheetFirst x.sheetCount
  ((s.part p).st == .running || (s.part p).st == .stopping) && (placed seg || (s.reliefOf seg).any placed)

/-- `BAR4_READ`. [DEDUCED: log 12] -/
def execBar4Read (port : Port) (offset len : Nat) (errs : Errs) (s : State) : Host.Outcome State Fault Refusal :=
  .next (
    match s.window port with
    | none => s.send (.bar4 port false (List.replicate len 0))
    | some (p, base) =>
      let addr := base * segBytes + offset
      let bad := (segsOf addr len).filter fun g => !s.readable p g
      if bad ≠ [] then
        (bad.foldl (fun (s : State) g => s.fenceViolation p g 0) s).send (.bar4 port true (List.replicate len 0))
      else if s.placeHeld (placeOf addr) then s.send (.bar4 port true (List.replicate len 0))
      else
        let s := (errs.foldl (fun (s : State) e =>
          if inRange e.1 (addr / 64) (ceilDiv (addr % 64 + len) 64) then s.hitMissed e.1 e.2 else s) s).readRange (some p) 0 addr len errs
        let poison := s.rangePoisoned addr len
        let (data, s) := s.shownRange addr len
        s.send (.bar4 port poison (if poison then List.replicate len 0 else data)))

/-- The pieces of a write, block by block: address and bytes. -/
def piecesOf (addr : Nat) (bytes : List Byte) : Nat → List (Nat × List Byte)
  | 0 => []
  | n + 1 =>
    if bytes = [] then []
    else
      let k := 64 - addr % 64
      (addr, bytes.take k) :: piecesOf (addr + k) (bytes.drop k) n

/-- `BAR4_WRITE`: into memory that the running partition uses, what it leaves is undefined; an atomic operation request completes as
Unsupported Request and does nothing (R62). [DEDUCED: log 11] -/
def execBar4Write (port : Port) (offset : Nat) (data : Bar4Data) (errs : Errs) (s : State) :
    Host.Outcome State Fault Refusal :=
  .next (
    if data.atomic then s.send (.unsupported port)
    else match s.window port with
    | none => s
    | some (p, base) =>
      (piecesOf (base * segBytes + offset) data.bytes (data.bytes.length + 1)).foldl (fun s x =>
        if s.writable p (x.1 / segBytes) then
          if s.placeHeld (placeOf x.1) then s
          else if s.inUse p (x.1 / segBytes) then
            { s with fresh := s.fresh + x.2.length }.writeBlock p x.1 (freeBytes s.fresh x.2.length) (outcomeOf errs (x.1 / 64))
          else s.writeBlock p x.1 x.2 (outcomeOf errs (x.1 / 64))
        else s.fenceViolation p (x.1 / segBytes) 1) s)

/-! ## Refresh, temperature, age -/

/-- A sequence runs on a bank. -/
def State.bankBusy (s : State) (k : Nat) : Bool := (lookupA s.units k).isSome

/-- A sequence waits for a bank. -/
def State.bankQueued (s : State) (site : Site) (die : Nat) (bank : Nat) : Bool :=
  s.seqs.any fun q => s.siteOf q.tile == some site && q.hdr.die.val == die && q.left.getLsbD bank

/-- A refresh that a bank begins between commands, or ahead of time: the bank is busy for tRFC, 120 ns (R117). [DEDUCED: log 54] -/
def State.refresh (s : State) (k : Nat) : State := s.modBank k fun b => { b with owed := 0, busyTo := s.uptime + 120 }

/-- `REFRESH_PULLIN` (R122): on an idle bank for which nothing is queued, within the credit. [DEDUCED: log 54] -/
def execRefreshPullin (bank : BankId) (s : State) : Host.Outcome State Fault Refusal :=
  .next (
    let k := bankKey bank.site bank.die.val bank.bank.val
    if s.nbCtrl.getLsbD 31 ∧ s.bankBusy k = false ∧ s.bankQueued bank.site bank.die.val bank.bank.val = false ∧
        (s.bank k).credit < min 4 (bitsOf s.nbCtrl 2 0)
    then (s.modBank k fun b => { b with credit := b.credit + 1 }).refresh k else s)

/-- `DIE_TEMP_SAMPLE` (R88, R101). -/
def execDieTempSample (die : DieId) (temp : Nat) (s : State) : Host.Outcome State Fault Refusal :=
  .next (
    let k := dieKey die.site die.die.val
    let d := s.die k
    let tell (s : State) (b : Nat) : State :=
      s.toOwner none { code := 0x2001, sev := 0, a := die.site.val * 16 + die.die.val, b := b }
    if d.hot then
      if temp ≤ 82 then
        let since := d.coolSince.getD s.uptime
        if 1000000 ≤ s.uptime - since then
          tell (s.modDie k fun d => { d with temp := temp, hot := false, coolSince := none }) 0
        else s.modDie k fun d => { d with temp := temp, coolSince := some since }
      else s.modDie k fun d => { d with temp := temp, coolSince := none }
    else if 85 < temp then tell (s.modDie k fun d => { d with temp := temp, hot := true, coolSince := none }) 1
    else s.modDie k fun d => { d with temp := temp })

/-- The sequences in a die controller's queue, in the order of their arrival. [DEDUCED: log 47] -/
def State.dieQueue (s : State) (die : DieId) : List NbSeq :=
  s.seqs.filter fun q => s.siteOf q.tile == some die.site && q.hdr.die == die.die

/-- The wait of a class that an arbitration register sets, in ns (R91, R100, R294, R305): 16 cycles of 600 MHz for each unit; 0 counts
as 1. [DEDUCED: log 47] -/
def arbWait (arb : W32) (cls : Nat) : Nat :=
  let n := match cls with
    | 1 => bitsOf arb 7 0
    | 2 => bitsOf arb 15 8
    | _ => bitsOf arb 23 16
  ceilDiv (max 1 n * 80) 3

/-- The wait of a class before a command of a die in it moves up (R91, R100). -/
def State.ageWait (s : State) (cls : Nat) : Nat :=
  arbWait s.memArb cls

/-! ## Margining of a die (R97-R101) -/

/-- HOLD written 0: a hold ends, and any run with it; the offsets return to 0 in any case (R98). [DEDUCED: log 43] -/
def Margin.release (m : Margin) : Margin :=
  { m with hold := false, held := false, busy := false, time := 0, vref := 0 }

/-- A run starts on a held channel; LOG_TRANSFERS is written in any case. [DEDUCED: log 43] -/
def Margin.start (m : Margin) (log : BitVec 5) (none_ : W16) : Margin :=
  let m := { m with logTransfers := log }
  if m.held ∧ m.busy = false then { m with busy := true, errors := 0, first := none_ } else m

/-- A run completes. [DEDUCED: log 43] -/
def Margin.finish (m : Margin) (errors first : Nat) : Margin :=
  { m with busy := false, done := true, errors := sat32 errors, first := BitVec.ofNat 16 first }

/-- HOLD written 1: held, or REFUSED (R97). [DEDUCED: log 43] -/
def Margin.request (m : Margin) (ok : Bool) : Margin :=
  if m.held then m else if ok then { m with hold := true, held := true } else { m with hold := true, refused := true }

/-- `MEM_MARGIN_HOLD` (R97): the site in no RUNNING or STOPPING partition, and in no slot of the frame. -/
def execMemMarginHold (port : Port) (s : State) : Host.Outcome State Fault Refusal :=
  .next (
    if s.owns port then
      let site := bitsOf s.memMargin.sel 9 4
      let ok := allParts.all fun p =>
        !(((s.part p).st == .running || (s.part p).st == .stopping) && (s.part p).ownsSite site) && !s.slotSite p site
      { s with memMargin := s.memMargin.request ok }
    else s)

/-- `MEM_MARGIN_RELEASE` (R98). -/
def execMemMarginRelease (port : Port) (s : State) : Host.Outcome State Fault Refusal :=
  .next (if s.owns port then { s with memMargin := s.memMargin.release } else s)

/-- `MEM_MARGIN_RUN` (R99, R100). -/
def execMemMarginRun (port : Port) (logTransfers : BitVec 5) (s : State) : Host.Outcome State Fault Refusal :=
  .next (if s.owns port then { s with memMargin := s.memMargin.start logTransfers 0x3FF } else s)

/-- `MARGIN_DONE` (R101). -/
def execMarginDone (errors : Nat) (firstWire : Option (Fin 584)) (s : State) : Host.Outcome State Fault Refusal :=
  .next (
    if s.memMargin.busy then
      let s := { s with memMargin := s.memMargin.finish errors (match firstWire with | some w => w.val | none => 0x3FF) }
      s.toOwner none { code := 0x2003, sev := 0, a := bitsOf s.memMargin.sel 9 0, b := s.memMargin.errors.toNat }
    else s)

end Sys2Proof.Machine
end

