-- ==== Sys2Proof/Machine/NearBank.lean ====
section
/-! DEFINITION. Shared caches (R93-R96) and near-bank units (R102-R130): atomic operations and reduction messages, sequences
and their fence check, and the eight near-bank commands. -/

namespace Sys2Proof.Machine

/-! ## Scratch lines, atomics, reduction messages -/

/-- A scratch line of a tile (R93). [DEDUCED: log 53] -/
def State.line (s : State) (tile l : Nat) : Line := (lookupA s.scratch (tile, l)).getD {}

/-- A scratch line replaced. -/
def State.setLine (s : State) (tile l : Nat) (x : Line) : State :=
  { s with scratch := ((tile, l), x) :: eraseA s.scratch (tile, l) }

/-- What each operation of R95 stores. -/
def atomResult (k : AtomKind) (old v : W32) : W32 :=
  match k with
  | .fp32Add => f32Add old v
  | .bf16PairAdd =>
    let half (x : W32) (i : Nat) : W16 := BitVec.ofNat 16 (x.toNat / 2 ^ (16 * i))
    BitVec.ofNat 32 ((bf16Add (half old 0) (half v 0)).toNat + (bf16Add (half old 1) (half v 1)).toNat * 2 ^ 16)
  | .max => f32Max old v
  | .min => f32Min old v
  | .int32Add => old + v
  | .swap => v

/-- An atomic operation on one word of a scratch line; the old value is returned where the issuer asks for it (R95). -/
def State.atom (s : State) (tile l : Nat) (w : AtomWord) (f : W32 → W32) : State :=
  let x := s.line tile l
  let old := x.words.get w.word
  let s := s.setLine tile l { x with words := x.words.set w.word.val (f old) w.word.isLt }
  if w.ret then s.send (.atomOld old) else s

/-- `ATOMIC_FP32_ADD`. -/
def execAtomicFp32Add (tile line : Nat) (word : AtomWord) (v : W32) (s : State) : Host.Outcome State Fault Refusal :=
  .next (s.atom tile line word fun old => atomResult .fp32Add old v)
/-- `ATOMIC_BF16_PAIR_ADD`. -/
def execAtomicBf16PairAdd (tile line : Nat) (word : AtomWord) (v : W32) (s : State) : Host.Outcome State Fault Refusal :=
  .next (s.atom tile line word fun old => atomResult .bf16PairAdd old v)
/-- `ATOMIC_MAX`. -/
def execAtomicMax (tile line : Nat) (word : AtomWord) (v : W32) (s : State) : Host.Outcome State Fault Refusal :=
  .next (s.atom tile line word fun old => atomResult .max old v)
/-- `ATOMIC_MIN`. -/
def execAtomicMin (tile line : Nat) (word : AtomWord) (v : W32) (s : State) : Host.Outcome State Fault Refusal :=
  .next (s.atom tile line word fun old => atomResult .min old v)
/-- `ATOMIC_INT32_ADD`. -/
def execAtomicInt32Add (tile line : Nat) (word : AtomWord) (v : W32) (s : State) : Host.Outcome State Fault Refusal :=
  .next (s.atom tile line word fun old => atomResult .int32Add old v)
/-- `ATOMIC_SWAP`. -/
def execAtomicSwap (tile line : Nat) (word : AtomWord) (v : W32) (s : State) : Host.Outcome State Fault Refusal :=
  .next (s.atom tile line word fun old => atomResult .swap old v)
/-- `ATOMIC_COMPARE_AND_SWAP`. -/
def execAtomicCompareAndSwap (tile line : Nat) (word : AtomWord) (expected v : W32) (s : State) :
    Host.Outcome State Fault Refusal :=
  .next (s.atom tile line word fun old => if old = expected then v else old)

/-- The words of a message applied one by one, the first to word 0 of its line (R96). A poisoned word sets the line's flag (R125);
nothing that is stored later clears it. A message carries any operation of R95 but compare-and-swap, for which it has no room. [DESIGN CHOICE: log 62] -/
def Line.apply (x : Line) (k : AtomKind) (i : Nat) : List (W32 × Bool) → Line
  | [] => x
  | (v, poison) :: rest =>
    let w : Fin 16 := Fin.ofNat 16 i
    let old := x.words.get w
    Line.apply { words := x.words.set w.val (atomResult k old v) w.isLt, poison := x.poison || poison } k (i + 1) rest

/-- A counter word raised by int32 add. -/
def State.bump (s : State) (tile l : Nat) (w : Fin 16) (n : Nat) : State :=
  let x := s.line tile l
  s.setLine tile l { x with words := x.words.set w.val (x.words.get w + BitVec.ofNat 32 n) w.isLt }

/-- One reduction message: data words, then the counter (R96). -/
def State.message (s : State) (tile l : Nat) (k : AtomKind) (words : List (W32 × Bool)) (ctile cl : Nat) (cw : Fin 16) :
    State :=
  (s.setLine tile l ((s.line tile l).apply k 0 (words.take 16))).bump ctile cl cw 1

/-- A tile is one of a partition's, to which its traffic may come (R22, R34). -/
def State.mayReach (s : State) (p : Part) (tile : Nat) : Bool :=
  match s.siteOf tile with | some i => decide (tile < 64) && s.holdsSite p i.val | none => false

/-- A counter word raised for a partition: the fence drops it where the tile is not the partition's (R22, R34). -/
def State.fencedBump (s : State) (p : Part) (tile l : Nat) (w : Fin 16) (n : Nat) : State :=
  if s.mayReach p tile then s.bump tile l w n else s.fenceViolation p (tile * stackSegs) 1

/-- A message of a partition, whose words and counter the fence drops where their tile is not the partition's (R22, R34). -/
def State.fencedMessage (s : State) (p : Part) (tile l : Nat) (k : AtomKind) (words : List (W32 × Bool)) (ctile cl : Nat)
    (cw : Fin 16) : State :=
  if s.mayReach p tile then (s.setLine tile l ((s.line tile l).apply k 0 (words.take 16))).fencedBump p ctile cl cw 1
  else s.fenceViolation p (tile * stackSegs) 1

/-- The site at which traffic from a site for another is delivered: the routers follow ROUTE from link to link (R35); none where
one of them drops it, or where it never arrives. -/
def State.arrives (s : State) (dst : Nat) : Nat → Nat → Option Nat
  | 0, _ => none
  | fuel + 1, a =>
    match lookupA s.route (64 * a + dst) with
    | some 0 => some a
    | some 1 => if 8 ≤ a then s.arrives dst fuel (a - 8) else none
    | some 2 => if a % 8 < 7 then s.arrives dst fuel (a + 1) else none
    | some 3 => if a / 8 < 7 then s.arrives dst fuel (a + 8) else none
    | some 4 => if 0 < a % 8 then s.arrives dst fuel (a - 1) else none
    | _ => none

/-- The tile to which a message from a site for a tile comes; none where the mesh does not deliver it. [DEDUCED: log 44] -/
def State.comesTo (s : State) (src : Site) (tile : Nat) : Option Nat :=
  if tile < 64 then (s.siteOf tile).bind fun d => (s.arrives d.val 64 src.val).bind fun a => s.tileOf (Fin.ofNat 64 a) else none

/-- Traffic that a router drops is counted (R35). -/
def State.dropTraffic (s : State) : State := { s with routeDropped := s.routeDropped + 1 }

/-- `REDUCTION_MESSAGE` of a partition from one of its tiles: the routers bring it by ROUTE or drop it (R35, R199), and at a tile that
the partition does not hold the fence drops it (R34). -/
def execReductionMessage (p : Part) (hop : Hop) (line : Nat) (kind : AtomKind) (words : List W32) (cline : Nat) (cword : Fin 16)
    (s : State) : Host.Outcome State Fault Refusal :=
  .next (
    match (if hop.issuer < 64 then s.siteOf hop.issuer else none) with
    | none => s
    | some src =>
      match s.comesTo src hop.tile with
      | none => s.dropTraffic
      | some t => s.fencedMessage p t line kind (words.map fun w => (w, false)) t cline cword)

/-! ## Command words (R106-R109) -/

end Sys2Proof.Machine

namespace Sys2Proof
open Machine

/-- A sequence header from its 16 bytes (R105): the header, and COUNT. -/
def NbHeader.ofBits (b : BitVec 128) : NbHeader × Nat :=
  let n := b.toNat
  ({ banks := BitVec.ofNat 64 n
     die := Fin.ofNat 16 (n / 2 ^ 64)
     cls := Fin.ofNat 4 (n / 2 ^ 68)
     doneLine := n / 2 ^ 96 % 2 ^ 20
     doneWord := Fin.ofNat 16 (n / 2 ^ 116)
     doneTile := n / 2 ^ 120 % 64 }, n / 2 ^ 72 % 256)

/-- A command word from its 16 bytes (R106). -/
def NbWord.ofBits (b : BitVec 128) : NbWord :=
  let n := b.toNat
  { op := n % 256
    fmt := n / 2 ^ 8 % 16
    voff := n / 2 ^ 16 % 2048
    row := n / 2 ^ 32 % 2 ^ 17
    len := n / 2 ^ 64 % 2 ^ 16
    acc := n / 2 ^ 80 % 256
    accN := n / 2 ^ 88 % 256
    aux := n / 2 ^ 96 }

/-- Q of a command (R107). -/
def NbWord.q (w : NbWord) : Nat := 2 ^ (w.aux / 16 % 4)
/-- The accumulator count; 0 means 64. -/
def NbWord.n (w : NbWord) : Nat := if w.accN = 0 then 64 else w.accN
/-- The fields of AUX. -/
def NbWord.t0 (w : NbWord) : Nat := w.aux / 2 ^ 8 % 64
def NbWord.nblk (w : NbWord) : Nat := w.aux % 16
def NbWord.esub (w : NbWord) : Nat := w.aux / 2 ^ 14 % 8
def NbWord.f (w : NbWord) : Nat := w.fmt % 16
def NbWord.row0 (w : NbWord) : Nat := w.row % 2 ^ 17
def NbWord.v0 (w : NbWord) : Nat := w.voff % 2048

/-- Bytes of a `NB_GEMV` tile and of its scales (R110, R115). -/
def NbWord.gemvBytes (w : NbWord) : Nat := 64 * w.len * fmtBits w.f / 8
def NbWord.scaleBytes (w : NbWord) : Nat := w.len / fmtBlock w.f * 64 * fmtScaleBytes w.f

/-- The bytes that a command reads in its bank (R110-R112, R116, R119): first row, byte from there, and length. A page has positions 0
to 63. -/
def NbWord.spans (w : NbWord) : List (Nat × Nat × Nat) :=
  let s := cacheSize w.f
  let n := min w.len (64 - w.t0)
  match w.op with
  | 3 =>
    (w.row0, 0, w.gemvBytes) ::
      if fmtScaleBytes w.f = 0 then [] else [(w.aux % 2 ^ 17, w.aux / 2 ^ 17 % 32 * 32, w.scaleBytes)]
  | 4 => (List.range w.nblk).map fun b => (w.row0, b * 4096 * s + 64 * w.t0 * s, 64 * n * s)
  | 5 => (List.range n).map fun t => (w.row0, (64 * (w.t0 + t) + w.esub * (64 / w.q)) * s, 64 / w.q * s)
  | 8 => [(w.row0, 0, 1024 * w.len)]
  | _ => []

/-- The rows of a span: first row and count. -/
def spanRows (x : Nat × Nat × Nat) : Nat × Nat :=
  (x.1 + x.2.1 / 1024, if x.2.2 = 0 then 0 else (x.2.1 + x.2.2 - 1) / 1024 - x.2.1 / 1024 + 1)

/-- The rows that a command reads, and the rows that it writes: first row and count. -/
def NbWord.reads (w : NbWord) : List (Nat × Nat) := w.spans.map spanRows
def NbWord.writes (w : NbWord) : List (Nat × Nat) :=
  match w.op with
  | 7 => [(w.row0, 1)]
  | 8 => [(w.aux % 2 ^ 17, w.len)]
  | _ => []
/-- A command opens rows of its bank. -/
def NbWord.opensRow (w : NbWord) : Bool := [3, 4, 5, 7, 8].contains w.op

/-- A command that a unit does not execute (R109). `NB_GEMV` with K of 0, for which the manual gives no lower bound, is one. [DESIGN CHOICE: log 61] -/
def NbWord.malformed (w : NbWord) : Bool :=
  let rowsBad := (w.reads ++ w.writes).any fun r => decide (81920 < r.1 + r.2)
  let accBad := decide (64 < w.accN) || decide (64 < w.acc + w.n)
  match w.op with
  | 1 => accBad
  | 2 => w.len == 0 || decide (2048 < w.len) || decide (2048 < w.v0 + w.len)
  | 3 =>
    let bs := max 32 (fmtBlock w.f)
    decide (6 < w.f) || w.len == 0 || decide (w.len % bs ≠ 0) || decide (2048 < w.v0 + w.len) || rowsBad
  | 4 =>
    !isCacheFmt w.f || w.len == 0 || decide (64 < w.len) || w.nblk == 0 || decide (64 < w.acc + w.len * w.q) ||
      decide (2048 < w.v0 + w.q * 64 * w.nblk) || rowsBad
  | 5 =>
    !isCacheFmt w.f || w.len == 0 || decide (64 < w.len) || decide (w.q ≤ w.esub) ||
      decide (2048 < w.v0 + (w.q - 1) * 64 + w.len) || rowsBad
  | 6 => decide (1 < w.f) || accBad
  | 7 =>
    let per := if w.f = 0 then 16 else 32
    decide (1 < w.f) || accBad || decide (w.n % per ≠ 0) || decide (16 < w.aux % 16 + w.n / per) || rowsBad
  | 8 =>
    let dst := w.aux % 2 ^ 17
    w.len == 0 || decide (2048 < w.len) || rowsBad ||
      (decide (w.row0 < dst + w.len) && decide (dst < w.row0 + w.len))
  | _ => true

end Sys2Proof

namespace Sys2Proof.Machine

/-! ## Sequences -/

/-- A site is in a slot of some partition. -/
def State.sliced (s : State) (site : Nat) : Bool := allParts.any fun p => s.slotSite p site

/-- The partition of an issuing tile (R105). -/
def State.sitePart (s : State) (site : Nat) : Option Part :=
  match allParts.find? fun p => (s.part p).ownsSite site with
  | some p => some p
  | none => s.slotNow site

/-- The banks of a mask, lowest first. -/
def bankList (m : W64) : List Nat := (List.range 64).filter fun b => m.getLsbD b

/-- The segments that rows of a bank touch. -/
def rowSegs (tile die bank : Nat) (r : Nat × Nat) : List Nat :=
  if r.2 = 0 then []
  else (List.range ((r.1 + r.2 - 1) / 2048 - r.1 / 2048 + 1)).map fun i =>
    addrOfRow tile die bank ((r.1 / 2048 + i) * 2048) / segBytes

/-- The rows of a range that a bank has. -/
def inBank (r : Nat × Nat) : Nat × Nat := (r.1, min r.2 (81920 - r.1))

/-- The first segment named by a sequence, malformed commands included, that its partition may not reach, and whether by a write (R128). -/
def State.seqBreach (s : State) (p : Part) (tile : Nat) (h : NbHeader) (words : List NbWord) : Option (Nat × Nat) :=
  words.findSome? fun w =>
    (bankList h.banks).findSome? fun b =>
      let segs (l : List (Nat × Nat)) : List Nat := (l.map inBank).flatMap (rowSegs tile h.die.val b)
      match (segs w.reads).find? fun g => !s.readable p g with
      | some g => some (g, 0)
      | none => ((segs w.writes).find? fun g => !s.writable p g).map fun g => (g, 1)

/-- The messages of an `NB_READACC` of a bank of some rank: 16 words to line DEST + rank × STRIDE, and any further ones to the lines
that follow it, of which the manual says nothing (R107). [DESIGN CHOICE: log 61] -/
def readaccMessages (w : NbWord) (vals : List (W32 × Bool)) (rank : Nat) : List (Nat × List (W32 × Bool)) :=
  let dest := w.aux % 2 ^ 20 + rank * (w.aux / 2 ^ 26 % 64)
  (List.range (ceilDiv vals.length 16)).map fun i => (dest + i, (vals.drop (16 * i)).take 16)

/-- The messages of an `NB_READACC` of a partition sent from a site to its tile (R96). [DEDUCED: log 44] -/
def State.sendAcc (s : State) (src : Site) (p : Option Part) (h : NbHeader) (w : NbWord) (vals : List (W32 × Bool)) (rank : Nat) :
    State :=
  let k : AtomKind := if w.f = 0 then .swap else .fp32Add
  (readaccMessages w vals rank).foldl (fun (s : State) m =>
    match s.comesTo src (w.aux / 2 ^ 20 % 64) with
    | none => s.dropTraffic
    | some tile =>
      match p with
      | some p => s.fencedMessage p tile m.1 k m.2 h.doneTile h.doneLine h.doneWord
      | none => s.message tile m.1 k m.2 h.doneTile h.doneLine h.doneWord) s

/-- DONE of a sequence rises by a count, brought by messages from a site (R105); the fence drops it where its tile is not the
partition's (R34). [DEDUCED: log 44] -/
def State.tellDone (s : State) (src : Site) (p : Option Part) (h : NbHeader) (n : Nat) : State :=
  match s.comesTo src h.doneTile with
  | none => s.dropTraffic
  | some tile =>
    match p with
    | some p => s.fencedBump p tile h.doneLine h.doneWord n
    | none => s.bump tile h.doneLine h.doneWord n

/-- Poison delivered to the lines of an `NB_READACC` of a sequence that is dropped (R125, R128). -/
def State.poisonAcc (s : State) (src : Site) (p : Option Part) (w : NbWord) (rank : Nat) : State :=
  (readaccMessages w (List.replicate w.n (f32NaN, true)) rank).foldl (fun (s : State) m =>
    match s.comesTo src (w.aux / 2 ^ 20 % 64) with
    | none => s.dropTraffic
    | some tile =>
      if p.all fun p => s.mayReach p tile then s.setLine tile m.1 ((s.line tile m.1).apply (if w.f = 0 then .swap else .fp32Add) 0 m.2)
      else s) s

/-- A sequence that the fence drops: poison for every `NB_READACC`, the full count for DONE, `FENCE_VIOLATION` (R128). -/
def State.dropSeq (s : State) (src : Site) (p : Option Part) (h : NbHeader) (words : List NbWord) : State :=
  let n := (bankList h.banks).length
  let accs := words.filter fun w => w.op == 6 && !w.malformed
  let s := (List.range n).foldl (fun (s : State) rank => accs.foldl (fun (s : State) w => s.poisonAcc src p w rank) s) s
  s.tellDone src p h (n * ((accs.map fun w => ceilDiv w.n 16).sum + 1))

/-- `NB_SEQUENCE_SUBMIT` (R104, R105, R120, R128): by a tile, of whose partition the sequence is, to the dies of a tile. Sequences
beyond the 256 that a die controller holds stand behind them, in the issuers' routers. A header whose COUNT is not that of a
sequence of 1 to 31 words that follow it makes none. [DEDUCED: log 44] -/
def execNbSequenceSubmit (hop : Hop) (hdr : BitVec 128) (words : List (BitVec 128)) (s : State) :
    Host.Outcome State Fault Refusal :=
  .next (
    let (h, count) := NbHeader.ofBits hdr
    let words := (words.take count).map NbWord.ofBits
    match (if hop.issuer < 64 then s.siteOf hop.issuer else none) with
    | none => s
    | some src =>
      if count = 0 ∨ 31 < count ∨ words.length < count then s
      else match s.comesTo src hop.tile with
        | none => s.dropTraffic
        | some tile =>
          match s.sitePart src.val with
          | none => s.dropSeq src none h words
          | some p =>
            match s.seqBreach p tile h words with
            | some (g, kind) => (s.dropSeq src (some p) h words).fenceViolation p g kind
            | none =>
              { s with
                seqs := s.seqs ++ [{ id := s.nextSeq, part := some p, tile := tile, hdr := h, words := words,
                                     cls := h.cls.val, aged := s.uptime, left := h.banks }]
                nextSeq := s.nextSeq + 1 })

/-! ## A unit and its commands -/

/-- The sequence that a bank runs, or the next it may start: the oldest of the lowest class (R91, R104), on a time-sliced tile
of the slot's partition only (R129). [DEDUCED: log 44] -/
def State.unitOf (s : State) (k : BankId) : Option (NbSeq × NbUnit) :=
  match lookupA s.units (bankKey k.site k.die.val k.bank.val) with
  | some u => (s.seqs.find? fun q => q.id == u.seq).map fun q => (q, u)
  | none =>
    let l := ((s.dieQueue ⟨k.site, k.die⟩).take 256).filter fun q =>
      q.left.getLsbD k.bank.val && (!s.sliced k.site.val || q.part == s.slotNow k.site.val)
    ((sortBy (fun a b : NbSeq => decide (a.cls < b.cls)) l).head?).map fun q => (q, { seq := q.id })

/-- A bank that is retired, or whose die is held, serves its sequences as poison (R129). -/
def State.unitDead (s : State) (k : BankId) : Bool :=
  let d := s.die (dieKey k.site k.die.val)
  d.retired || d.retiredBanks.contains k.bank.val || s.dieHeld k.site k.die.val

/-- Refreshes that a row boundary lets through split the sequence (R121): the command in progress is delayed by tRP, tRCD and tRFC for
each of them. [DEDUCED: log 54] -/
def State.splitRow (s : State) (k : BankId) (p : Option Part) : State :=
  let key := bankKey k.site k.die.val k.bank.val
  let n := (s.bank key).owed
  if n = 0 then s
  else
    let s := s.modBank key fun b => { b with owed := 0, waited := b.waited + 21 + 72 * n }
    match p with
    | some p => s.count p fun c => { c with nbSplit := satAdd c.nbSplit 1 }
    | none => s

/-- The cycles that a command which comes now waits for the end of a refresh of its bank (R122, R123). -/
def State.refreshWait (s : State) (k : Nat) : Nat := ceilDiv (((s.bank k).busyTo - s.uptime) * 3) 5

/-- What refresh has added to a command of a bank raises NB_MAX_WAIT (R131): its arrival in a refresh, and its splits. [DEDUCED: log 54] -/
def State.tellWait (s : State) (k : BankId) : State :=
  let key := bankKey k.site k.die.val k.bank.val
  let n := s.refreshWait key + (s.bank key).waited
  let s := if (s.bank key).waited = 0 then s else s.modBank key fun b => { b with waited := 0 }
  { s with nbMaxWait := BitVec.ofNat 32 (max s.nbMaxWait.toNat (min 0xFFFF n)) }

/-- `REFRESH_DUE` (R89, R121, R122): credit is consumed; a refresh that falls due while the next command of the bank's sequence holds a
row open waits for its next row boundary, and the fourth one so postponed is issued with all the others; where no row is held open it
is issued. [DEDUCED: log 54] -/
def execRefreshDue (bank : BankId) (s : State) : Host.Outcome State Fault Refusal :=
  .next (
    let k := bankKey bank.site bank.die.val bank.bank.val
    let b := s.bank k
    let run := (lookupA s.units k).bind fun u => (s.seqs.find? fun q => q.id == u.seq).map fun q => (q, u)
    let opened := match run with
      | some (q, u) => (match q.words[u.pc]? with | some w => w.opensRow && !w.malformed | none => false)
      | none => false
    if 0 < b.credit then s.modBank k fun b => { b with credit := b.credit - 1 }
    else if opened then
      let s := s.modBank k fun b => { b with owed := b.owed + 1 }
      if b.owed + 1 < 4 then s else s.splitRow bank (run.bind (·.1.part))
    else s.refresh k)

/-- A command has run on a bank: the next one follows, or the sequence ends there (R105): its counter rises by one, nothing is
carried over, and a unit that faulted has its bank retired (R126, R335). -/
def State.unitNext (s : State) (k : BankId) (q : NbSeq) (u : NbUnit) : State :=
  let key := bankKey k.site k.die.val k.bank.val
  let u := { u with pc := u.pc + 1 }
  if u.pc < q.words.length then { s with units := insertA s.units key u }
  else
    let left := maskPut q.left k.bank.val false
    let s := { s with
      units := eraseA s.units key
      seqs := if left = 0 then s.seqs.filter fun (x : NbSeq) => x.id ≠ q.id
              else s.seqs.map fun (x : NbSeq) => if x.id = q.id then { x with left := left } else x }
    let s := s.tellDone k.site q.part q.hdr 1
    let s := match q.part with
      | some p => s.count p fun c => { c with nbSeq := satAdd c.nbSeq 1 }
      | none => s
    if u.dead then s.retireBank k.site k.die.val k.bank.val 1 else s

/-- A unit wholly poisoned (R109, R126). [DEDUCED: log 44] -/
def NbUnit.poisoned (u : NbUnit) : NbUnit :=
  { u with vPoison := Vector.replicate 8 true, aPoison := Vector.replicate 64 true }

/-- A unit that a parity error or a malformed command poisons for the rest of its sequence (R109, R126). [DEDUCED: log 44] -/
def NbUnit.spoilt (u : NbUnit) : Bool := u.dead || u.malformed

/-- One command of a bank's sequence: run where it is the one a row names and is well formed. -/
def State.nbRun (s : State) (k : BankId) (op : Nat) (body : State → NbSeq → NbUnit → NbWord → State × NbUnit) : State :=
  match s.unitOf k with
  | none => s
  | some (q, u) =>
    match q.words[u.pc]? with
    | none => s
    | some w =>
      if w.op = op ∧ w.malformed = false then
        let s := if w.opensRow then (s.splitRow k q.part).tellWait k else s
        let (s, u) := body s q u w
        let u := if u.spoilt || s.unitDead k then u.poisoned else u
        s.unitNext k q u
      else s

/-- The module sheet address of a byte of a bank: rows are consecutive (R106). -/
def bankAddr (tile : Nat) (k : BankId) (row byte : Nat) : Nat :=
  addrOfRow tile k.die.val k.bank.val (row + byte / 1024) + byte % 1024

/-- The blocks of a span read by a unit, row by row, with the decoder's outcomes (R124). -/
def State.readSpan (s : State) (k : BankId) (q : NbSeq) (x : Nat × Nat × Nat) (errs : Errs) : State :=
  let r := spanRows x
  (List.range r.2).foldl (fun (s : State) i =>
    let base := 1024 * (r.1 + i - x.1)
    let lo := max x.2.1 base
    s.readRange q.part 2 (bankAddr q.tile k (r.1 + i) 0 + (lo - base)) (min (x.2.1 + x.2.2) (base + 1024) - lo) errs) s

/-- What a command reads in its bank (R124). -/
def State.readSpans (s : State) (k : BankId) (q : NbSeq) (w : NbWord) (errs : Errs) : State :=
  w.spans.foldl (fun (s : State) x => s.readSpan k q x errs) s

/-- Element `i` of a run of codes of a bank from a row on, and whether its block is poisoned. -/
def State.bankCode (s : State) (tile : Nat) (k : BankId) (f row i : Nat) : Nat × Bool :=
  let bit := fmtBits f * i
  let byte (j : Nat) : Nat := (s.sheet.read (bankAddr tile k row (bit / 8 + j))).toNat
  let v := byte 0 + 256 * byte 1 + 65536 * byte 2
  let bad (j : Nat) : Bool :=
    let a := bankAddr tile k row j
    s.poisoned.contains (a / 64) || s.bankDead (placeOf a)
  (v / 2 ^ (bit % 8) % 2 ^ fmtBits f, bad (bit / 8) || bad ((bit + fmtBits f - 1) / 8))

/-- Several free values at once. [DESIGN CHOICE: log 1] -/
def State.drawN (s : State) (n : Nat) : List Nat × State :=
  ((List.range n).map fun i => Config.fresh (s.fresh + i), { s with fresh := s.fresh + n })

/-- An element of the register file and its register's flag. -/
def NbUnit.elem (u : NbUnit) (i : Nat) : W16 × Bool :=
  (u.v.get (Fin.ofNat 2048 i), u.vPoison.get (Fin.ofNat 8 (i / 256)))

/-- A product of an operand code and an activation (R113). -/
def nbProduct (f code : Nat) (x : W16) : W32 := f32Enc ((elemVal f code).times (bf16Val x))

/-- Accumulators set from an index on. -/
def NbUnit.setAcc (u : NbUnit) (i : Nat) : List (W32 × Bool) → NbUnit
  | [] => u
  | (v, p) :: rest =>
    let j : Fin 64 := Fin.ofNat 64 i
    NbUnit.setAcc { u with a := u.a.set j.val v j.isLt, aPoison := u.aPoison.set j.val p j.isLt } (i + 1) rest

/-- An accumulator and its flag. -/
def NbUnit.acc (u : NbUnit) (i : Nat) : W32 × Bool := (u.a.get (Fin.ofNat 64 i), u.aPoison.get (Fin.ofNat 64 i))

/-- `NB_CLEAR` (R107, R125). Where it zeroes the register file it clears the registers' poison flags too, of which the manual speaks
for accumulators only. [DESIGN CHOICE: log 61] -/
def nbClearBody (s : State) (_ : NbSeq) (u : NbUnit) (w : NbWord) : State × NbUnit :=
  let u := u.setAcc w.acc (List.replicate w.n (0, false))
  (s, if w.aux % 2 = 1 then { u with v := Vector.replicate 2048 0, vPoison := Vector.replicate 8 false } else u)

/-- `NB_CLEAR`. -/
def execNbClear (bank : BankId) (s : State) : Host.Outcome State Fault Refusal := .next (s.nbRun bank 1 nbClearBody)

/-- The rank of a bank in a mask (R105). -/
def bankRank (m : W64) (b : Nat) : Nat := ((bankList m).filter fun i => decide (i < b)).length

/-- Elements written into the register file from an index on. -/
def NbUnit.setV (u : NbUnit) (i : Nat) : List W16 → NbUnit
  | [] => u
  | x :: rest =>
    let j : Fin 2048 := Fin.ofNat 2048 i
    NbUnit.setV { u with v := u.v.set j.val x j.isLt } (i + 1) rest

/-- `NB_LOADV` (R107, R125): BF16 elements from consecutive scratch lines of the bank's own tile; a register that takes an
element of a poisoned line is poisoned, and one wholly overwritten from clean lines is clean. [DEDUCED: log 44] -/
def nbLoadvBody (k : BankId) (s : State) (q : NbSeq) (u : NbUnit) (w : NbWord) : State × NbUnit :=
  let src := w.aux % 2 ^ 20 + bankRank q.hdr.banks k.bank.val * (w.aux / 2 ^ 20 % 1024)
  let elem (i : Nat) : W16 :=
    let word := (s.line q.tile (src + i / 32)).words.get (Fin.ofNat 16 (i % 32 / 2))
    BitVec.ofNat 16 (word.toNat / 2 ^ (16 * (i % 2)))
  let u' := u.setV w.v0 ((List.range w.len).map elem)
  let flag (r : Fin 8) : Bool :=
    let lo := max w.v0 (256 * r.val)
    let hi := min (w.v0 + w.len) (256 * (r.val + 1))
    if hi ≤ lo then u.vPoison.get r
    else
      let bad := (List.range ((hi - 1 - w.v0) / 32 - (lo - w.v0) / 32 + 1)).any fun i =>
        (s.line q.tile (src + (lo - w.v0) / 32 + i)).poison
      bad || (u.vPoison.get r && decide (hi - lo ≠ 256))
  (s, { u' with vPoison := Vector.ofFn flag })

/-- `NB_LOADV`. -/
def execNbLoadv (bank : BankId) (s : State) : Host.Outcome State Fault Refusal := .next (s.nbRun bank 2 (nbLoadvBody bank))

/-- One scale block of one output of `NB_GEMV` (R110): the product of its codes with the activations, its scale applied, and whether it
is poisoned. -/
def State.gemvBlock (s : State) (k : BankId) (q : NbSeq) (u : NbUnit) (w : NbWord) (order m b : Nat) : W32 × Bool :=
  let f := w.f
  let bs := fmtBlock f
  let terms (zero : Bool) : List (W32 × Bool) := (List.range bs).map fun j =>
    let kk := b * bs + j
    let c := s.bankCode q.tile k f w.row0 (kk * 64 + m)
    let x := u.elem (w.v0 + kk)
    (nbProduct f (if zero then 0 else c.1) x.1, c.2 || x.2)
  -- scales from SROW at SOFF x 32 bytes: 64 per scale block
  let sb := fmtScaleBytes f
  let at_ := w.aux / 2 ^ 17 % 32 * 32 + (b * 64 + m) * sb
  let byte (i : Nat) : Nat × Bool := s.bankCode q.tile k 4 (w.aux % 2 ^ 17) (at_ + i)
  let c := if sb = 1 then byte 0 else ((byte 0).1 + 256 * (byte 1).1, (byte 0).2 || (byte 1).2)
  let part (zero : Bool) : W32 := f32Sum order (f32Zero :: (terms zero).map (·.1))
  let bad := (terms false).any (·.2) || c.2
  match scaleVal f c.1 with
  -- every element of a zero-range block decodes to +0 (R135, R136)
  | none => (part true, bad)
  | some v => (f32Enc (v.times (f32Val (part false))), bad)

/-- The terms that `NB_GEMV` adds to the accumulator of an output (R110): the scaled sums of its blocks, each in an order of its own, or,
without scales, its products one by one. -/
def State.gemvTerms (s : State) (k : BankId) (q : NbSeq) (u : NbUnit) (w : NbWord) (order : Nat → Nat) (m : Nat) : List (W32 × Bool) :=
  if fmtScaleBytes w.f = 0 then
    (List.range w.len).map fun kk =>
      let c := s.bankCode q.tile k w.f w.row0 (kk * 64 + m)
      let x := u.elem (w.v0 + kk)
      (f32Add f32Zero (nbProduct w.f c.1 x.1), c.2 || x.2)
  else (List.range (w.len / fmtBlock w.f)).map fun b => s.gemvBlock k q u w (order b) m b

/-- `NB_GEMV` (R110, R113): the order of the additions is open. -/
def nbGemvBody (k : BankId) (errs : Errs) (parity : Bool) (s : State) (q : NbSeq) (u : NbUnit) (w : NbWord) :
    State × NbUnit :=
  let s := s.readSpans k q w errs
  let (orders, s) := s.drawN (64 * 65)
  let u' := u.setAcc 0 ((List.range 64).map fun m =>
    let order (i : Nat) : Nat := orders.getD (65 * m + i) 0
    let l := u.acc m :: s.gemvTerms k q u w order m
    (f32Sum (order 64) (l.map (·.1)), l.any (·.2)))
  (s, { u' with dead := u.dead || parity })

/-- `NB_GEMV`. -/
def execNbGemv (bank : BankId) (errs : Errs) (parity : Bool) (s : State) : Host.Outcome State Fault Refusal :=
  .next (s.nbRun bank 3 (nbGemvBody bank errs parity))

/-- Element `e` of position `t` of a page in near-bank layout from a row on (R116). -/
def State.pageElem (s : State) (tile : Nat) (k : BankId) (f row t e : Nat) : Nat × Bool :=
  s.bankCode tile k f row (e / 64 * 4096 + 64 * t + e % 64)

/-- `NB_DOT` (R111). A page has positions 0 to 63: the score of one beyond is an open value. [DEDUCED: log 31] -/
def nbDotBody (k : BankId) (errs : Errs) (parity : Bool) (s : State) (q : NbSeq) (u : NbUnit) (w : NbWord) :
    State × NbUnit :=
  let s := s.readSpans k q w errs
  let n := 64 * w.nblk
  let (orders, s) := s.drawN (w.len * w.q)
  let u := u.setAcc w.acc ((List.range (w.len * w.q)).map fun i =>
    let t := i / w.q
    let j := i % w.q
    let terms := (List.range n).map fun e =>
      let c := s.pageElem q.tile k w.f w.row0 (w.t0 + t) e
      let x := u.elem (w.v0 + j * n + e)
      (nbProduct w.f c.1 x.1, c.2 || x.2)
    let old := u.acc (w.acc + i)
    if 64 ≤ w.t0 + t then (BitVec.ofNat 32 (orders.getD i 0), orders.getD i 0 / 2 ^ 32 % 2 == 1)
    else (f32Sum (orders.getD i 0) (old.1 :: terms.map (·.1)), old.2 || terms.any (·.2)))
  (s, { u with dead := u.dead || parity })

/-- `NB_DOT`. -/
def execNbDot (bank : BankId) (errs : Errs) (parity : Bool) (s : State) : Host.Outcome State Fault Refusal :=
  .next (s.nbRun bank 4 (nbDotBody bank errs parity))

/-- `NB_AXPY` (R112). A page has positions 0 to 63: a sum that takes one beyond is an open value. [DEDUCED: log 31] -/
def nbAxpyBody (k : BankId) (errs : Errs) (parity : Bool) (s : State) (q : NbSeq) (u : NbUnit) (w : NbWord) :
    State × NbUnit :=
  let s := s.readSpans k q w errs
  let width := 64 / w.q
  let (orders, s) := s.drawN 64
  let u := u.setAcc 0 ((List.range 64).map fun i =>
    let j := i / width
    let e := i % width
    let terms := (List.range w.len).map fun t =>
      let c := s.pageElem q.tile k w.f w.row0 (w.t0 + t) (w.esub * width + e)
      let x := u.elem (w.v0 + j * 64 + t)
      (nbProduct w.f c.1 x.1, c.2 || x.2)
    let old := u.acc i
    if 64 < w.t0 + w.len then (BitVec.ofNat 32 (orders.getD i 0), orders.getD i 0 / 2 ^ 32 % 2 == 1)
    else (f32Sum (orders.getD i 0) (old.1 :: terms.map (·.1)), old.2 || terms.any (·.2)))
  (s, { u with dead := u.dead || parity })

/-- `NB_AXPY`. -/
def execNbAxpy (bank : BankId) (errs : Errs) (parity : Bool) (s : State) : Host.Outcome State Fault Refusal :=
  .next (s.nbRun bank 5 (nbAxpyBody bank errs parity))

/-- `NB_READACC` (R107, R125): a poisoned accumulator is delivered as 0x7FC0_0000 with the flag. -/
def nbReadaccBody (k : BankId) (s : State) (q : NbSeq) (u : NbUnit) (w : NbWord) : State × NbUnit :=
  let dead := u.spoilt || s.unitDead k
  let vals := (List.range w.n).map fun i =>
    let x := u.acc (w.acc + i)
    if x.2 || dead then (f32NaN, true) else (x.1, false)
  (s.sendAcc k.site q.part q.hdr w vals (bankRank q.hdr.banks k.bank.val), u)

/-- `NB_READACC`. -/
def execNbReadacc (bank : BankId) (s : State) : Host.Outcome State Fault Refusal :=
  .next (s.nbRun bank 6 (nbReadaccBody bank))

/-- Sheet lines of a row leave the tile's shared cache (R94). [DEDUCED: log 53] -/
def State.dropLines (s : State) (tile b : Nat) : State :=
  { s with sheetLines := s.sheetLines.filter fun x => !(x.1 == tile && inRange x.2 b 16) }

/-- The accumulators as bytes of a row, with the blocks that hold a poisoned one (R124, R125). -/
def storeBlocks (f : Nat) (vals : List (W32 × Bool)) : Nat → List (List Byte × Bool)
  | 0 => []
  | n + 1 =>
    let per := if f = 0 then 16 else 32
    let l := vals.take per
    ((l.flatMap fun x => if f = 0 then leBytes 4 x.1.toNat else leBytes 2 (bf16OfF32 x.1).toNat), l.any (·.2)) ::
      storeBlocks f (vals.drop per) n

/-- A segment of a cache page pool of a partition. -/
def Partition.poolSeg (p : Partition) (seg : Nat) : Bool :=
  p.models.any fun m => (m.parts.getD []).any fun x => inRange seg x.first x.count

/-- What a sequence has written into pages that an FLR has released is undefined (R130). [DEDUCED: log 11] -/
def State.spoilStale (s : State) (q : NbSeq) (addr n : Nat) : State :=
  match q.part with
  | some p => if q.stale ∧ (s.part p).poolSeg (addr / segBytes) then s.spoil addr n else s
  | none => s

/-- `NB_STORE` (R107, R124, R125); a held die discards the writes (R129). -/
def nbStoreBody (k : BankId) (s : State) (q : NbSeq) (u : NbUnit) (w : NbWord) : State × NbUnit :=
  let b := bankAddr q.tile k w.row0 0 / 64
  let vals := (List.range w.n).map fun i => let x := u.acc (w.acc + i); (x.1, x.2 || u.spoilt)
  let per := if w.f = 0 then 16 else 32
  let s := if s.unitDead k then s
    else (s.putBlocks (b + w.aux % 16) (storeBlocks w.f vals (w.n / per))).spoilStale q (64 * (b + w.aux % 16)) (64 * (w.n / per))
  (s.dropLines q.tile b, u)

/-- `NB_STORE`. -/
def execNbStore (bank : BankId) (s : State) : Host.Outcome State Fault Refusal := .next (s.nbRun bank 7 (nbStoreBody bank))

/-- `NB_COPY` (R127): rows within one bank; V6 and V7 are left undefined. [DEDUCED: log 44] -/
def nbCopyBody (k : BankId) (errs : Errs) (s : State) (q : NbSeq) (u : NbUnit) (w : NbWord) : State × NbUnit :=
  let dst := w.aux % 2 ^ 17
  let s := (List.range w.len).foldl (fun (s : State) i =>
    let a := bankAddr q.tile k (w.row0 + i) 0
    let d := bankAddr q.tile k (dst + i) 0
    let s := s.readRange q.part 2 a 1024 errs
    let s := if s.unitDead k then s else (s.copyRange a d 1024).spoilStale q d 1024
    s.dropLines q.tile (d / 64)) s
  let (vals, s) := s.drawN 514
  let u := u.setV 1536 ((vals.take 512).map fun n => BitVec.ofNat 16 n)
  (s, { u with vPoison := (u.vPoison.set 6 (vals.getD 512 0 % 2 == 1)).set 7 (vals.getD 513 0 % 2 == 1) })

/-- `NB_COPY`. -/
def execNbCopy (bank : BankId) (errs : Errs) (s : State) : Host.Outcome State Fault Refusal :=
  .next (s.nbRun bank 8 (nbCopyBody bank errs))

/-- `NB_MALFORMED` (R109): not executed; every accumulator and register is poisoned, and the command is counted. -/
def execNbMalformed (bank : BankId) (s : State) : Host.Outcome State Fault Refusal :=
  .next (
    match s.unitOf bank with
    | none => s
    | some (q, u) =>
      match q.words[u.pc]? with
      | none => s
      | some w =>
        if w.malformed then
          let s := match q.part with
            | some p => s.count p fun c => { c with nbBadcmd := satAdd c.nbBadcmd 1 }
            | none => s
          s.unitNext bank q { u.poisoned with malformed := true }
        else s)

end Sys2Proof.Machine
end

