-- ==== Sys2Proof/Machine/Kiln.lean ====
section
/-! DEFINITION. The kiln image: streams (R26-R28, R44, R45, R53), gates (R29, R411), the effect of each section (R30-R41),
zeroising (R49), removal and creation of partitions (R54, R412), the structure chains (R358), the factory image (R42). -/

namespace Sys2Proof.Machine

/-- A record of `n` bytes at place `i` of a body, after a leading record of `lead` bytes. -/
def recordAt (body : List Byte) (lead n i : Nat) : List Byte := (body.drop (lead + n * i)).take n

/-- The records taken from a body: at most `count`, and only whole ones (R411). [DEDUCED: log 25] -/
def recordsOf (body : List Byte) (lead n count : Nat) : List (List Byte) :=
  (List.range (min count ((body.length - lead) / n))).map (recordAt body lead n)

/-- Section header fields (R27). -/
def secType (h : List Byte) : Nat := field h 0 1
def secPart (h : List Byte) : Nat := field h 1 1
def secLen (h : List Byte) : Nat := field h 4 4
def secEntries (h : List Byte) : Nat := field h 8 4

/-! ## SHEET (R30, R31) -/

/-- Where the stack of a site lies in the model's sheet: at its logical tile, or, while it carries none, out of every address
range, at 64 + its number. -/
def siteHome (sites : Vector SiteSt 64) (i : Site) : Nat :=
  match (sites.get i).state, (sites.get i).tile with
  | .inService, some t =>
    if t < tileCount ∧ ((List.finRange 64).find? fun j => (sites.get j).state == .inService && (sites.get j).tile == some t) = some i
    then t else 64 + i.val
  | _, _ => 64 + i.val

/-- The moves of stacks between two tables of sites: new home and old home, by rising new home. -/
def stackMoves (old new : Vector SiteSt 64) : List (Nat × Nat) :=
  sortBy (fun a b => decide (a.1 < b.1)) ((List.finRange 64).map fun i => (siteHome new i, siteHome old i))

/-- Numbers that lie in stacks of so many of their units move with the stacks. -/
def moveStacks {α : Type} (moves : List (Nat × Nat)) (unit : Nat) (l : List α) (key : α → Nat) (put : α → Nat → α) : List α :=
  moves.flatMap fun m => (l.filter fun x => key x / unit == m.2).map fun x => put x (key x % unit + m.1 * unit)

/-- A new table of sites: stacks, poison, ash-listed segments and scratch lines stay with their sites. [DEDUCED: log 52] -/
def State.setSites (s : State) (sites : Vector SiteSt 64) : State :=
  let moves := stackMoves s.sites sites
  if moves.all fun m => m.1 == m.2 then { s with sites := sites }
  else
    { s with
      sites := sites
      sheet := moveStacks moves (stackSegs * segBytes) s.sheet (·.1) (fun c a => (a, c.2))
      poisoned := moveStacks moves (stackSegs * 32768) s.poisoned id (fun _ a => a)
      ashList := moveStacks moves stackSegs s.ashList id (fun _ a => a)
      scratch := moves.flatMap fun m => (s.scratch.filter fun x => x.1.1 == m.2).map fun x => ((m.1, x.1.2), x.2)
      sheetLines := [] }

/-- STATE of a SHEET entry; a code that R30 does not list is a free one. [DESIGN CHOICE: log 13] -/
def siteCode (code free : Nat) : SiteState :=
  match if code < 3 then code else free % 3 with
  | 0 => .inService
  | 1 => .spare
  | _ => .fenced

/-- Sites that the factory image fences: those that failed wafer test, a frame's failure among them (R13, R42). [DESIGN CHOICE: log 9] -/
def waferFenced : W64 := Config.waferFailed ||| Config.framesRetired

/-- One SHEET entry applied to a site: one that never goes into service is fenced where the entry would put it there (R31). -/
def sheetEntry (e : List Byte) (free : Nat) (x : SiteSt) : SiteSt :=
  let st := siteCode (field e 0 1) free
  if st = .inService ∧ x.barred then { x with state := .fenced, tile := none }
  else { x with state := st, tile := if st = .inService then some (field e 1 1) else none }

/-- SHEET (R30). [DESIGN CHOICE: log 13] -/
def State.applySheet (s : State) (body : List Byte) (entries : Nat) : State :=
  let recs := recordsOf body 0 4 (min entries 64)
  let sites := (List.range recs.length).foldl (fun (v : Vector SiteSt 64) i =>
    upd v (Fin.ofNat 64 i) (sheetEntry (recs.getD i []) (Config.fresh (s.fresh + i)))) s.sites
  { s with fresh := s.fresh + 64 }.setSites sites

/-! ## FENCE (R32-R34, R49, R54, R412) -/

/-- A FENCE record's fields. [DESIGN CHOICE: log 13] -/
def fenceOf (r : List Byte) : Fence :=
  { port := field r 1 1
    noZeroise := field r 2 1 % 2 == 1
    tiles := BitVec.ofNat 64 (field r 4 8)
    rqtBase := field r 12 4
    rqtCount := field r 16 4
    ranges := (List.range 4).map fun i =>
      { first := field r (24 + 12 * i) 4, count := field r (28 + 12 * i) 4, kind := field r (32 + 12 * i) 1 }
    peatRw := { first := field r 72 4, count := field r 76 4 }
    peatRo := { first := field r 80 4, count := field r 84 4 } }

/-- The record of a partition in a FENCE body: the last that names it (R32). -/
def fenceFor (recs : List (List Byte)) (p : Part) : Option Fence :=
  (recs.filter fun r => field r 0 1 == p.val).getLast?.map fenceOf

/-- The port a FENCE names (R412). -/
def Fence.names (f : Fence) (owner : Port) : Option Port :=
  if f.port = 0xFF then some owner else if h : f.port < 4 then some ⟨f.port, h⟩ else none

/-- The ports of the partitions: each port to the lowest-numbered partition that names it (R412). -/
def State.resolvePorts (s : State) : State :=
  let named (p : Part) : Option Port := (s.part p).fence.bind fun f => f.names s.ownerPort
  allParts.foldl (fun (s' : State) p =>
    let port : Option Port := match named p with
      | none => none
      | some o => if allParts.any fun r => decide (r.val < p.val) && named r == some o then none else some o
    s'.modPart p fun q => { q with port := port }) s

/-- Sheet memory that a FENCE moves into a partition, by segment. -/
def State.movedIn (s old : State) (p : Part) (seg : Nat) : Bool := s.writable p seg && !old.writable p seg

/-- Peat memory that a FENCE moves into a partition, by segment. -/
def State.peatMovedIn (s old : State) (p : Part) (seg : Nat) : Bool :=
  (s.part p).peatWritable seg && !(old.part p).peatWritable seg

/-- A FENCE moves some memory into a partition: a tile of its mask in service, a SLICED_RW segment or a PEAT_RW segment. -/
def State.movesInto (s old : State) (p : Part) : Bool :=
  match (s.part p).fence with
  | none => false
  | some f =>
    ((List.finRange 64).any fun i => f.tiles.getLsbD i.val && !(old.part p).ownsSite i.val && decide (siteHome s.sites i < 64)) ||
      (f.ranges.any fun r => r.kind == 1 && (List.range r.count).any fun i => s.movedIn old p (r.first + i)) ||
      (List.range f.peatRw.count).any fun i => s.peatMovedIn old p (f.peatRw.first + i)

/-- Whether a FENCE has a segment zeroised: it moved into a partition whose NO_ZEROISE is 0, or into none (R49). -/
def State.zeroisedSeg (s old : State) (seg : Nat) : Bool :=
  if 64 ≤ seg / stackSegs then
    !allParts.any fun p => (s.part p).ownsSite (seg / stackSegs - 64)
  else
    allParts.any (fun p => s.movedIn old p seg && !((s.part p).fence.any (·.noZeroise))) ||
      !allParts.any fun p => s.writable p seg

/-- The same for a peat segment. -/
def State.zeroisedPeat (s old : State) (seg : Nat) : Bool :=
  allParts.any (fun p => s.peatMovedIn old p seg && !((s.part p).fence.any (·.noZeroise))) ||
    !allParts.any fun p => (s.part p).peatWritable seg

/-- The memory that a FENCE has moved is zeroised (R49), with the shared cache, core SRAM and cluster SRAM of moved tiles. It is done at
once, as the FENCE is applied: until ZEROISING ends nothing runs that could tell. [DESIGN CHOICE: log 58] -/
def State.zeroise (s old : State) : State :=
  let tileMoved (t : Nat) : Bool := match s.siteOf t with
    | some i => allParts.any fun p => (s.part p).ownsSite i.val && !(old.part p).ownsSite i.val
    | none => false
  let s := { s with
    sheet := s.sheet.filter fun c => !s.zeroisedSeg old (c.1 / segBytes)
    poisoned := s.poisoned.filter fun b => !s.zeroisedSeg old (b / 32768)
    peat := s.peat.filter fun c => !s.zeroisedPeat old (c.1 / segBytes)
    peatPoisoned := s.peatPoisoned.filter fun c => !s.zeroisedPeat old (c / 8192)
    scratch := s.scratch.filter fun x => !tileMoved x.1.1
    sheetLines := s.sheetLines.filter fun x => !tileMoved x.1
    sram := s.sram.filter fun x => !allParts.any fun p => (s.part p).ownsSite x.1 && !(old.part p).ownsSite x.1 }
  allParts.foldl (fun (s : State) p =>
    if s.movesInto old p ∧ (s.part p).fence.any (·.noZeroise) = false then
      (s.modPart p fun q => { q with zeroising := true, zeroStart := if q.zeroising then q.zeroStart else s.uptime }).arrive
        (some p) .zeroise
    else s) s

/-- The owner queue subblock returns to its reset values when the owner port gains or loses its partition (R410). -/
def State.ownerReach (s : State) (had : Bool) : State :=
  if (s.partOf s.ownerPort).isSome = had then s
  else { s with ownerSub := {}, ownerTaken := [],
                reads := s.reads.filter fun r => match r.why with | .cmd .owner _ => false | _ => true }

/-- FENCE (R32): partitions that lose their record are removed first (R54). -/
def State.applyFence (s : State) (body : List Byte) (entries : Nat) : State :=
  let recs := recordsOf body 0 96 entries
  let old := s
  let had := (s.partOf s.ownerPort).isSome
  let s := allParts.foldl (fun (s : State) p =>
    if (s.part p).fence.isSome ∧ (fenceFor recs p).isNone then (s.removePart p).pruneTables else s) s
  let s := allParts.foldl (fun (s : State) p =>
    match fenceFor recs p with
    | none => s
    | some f => s.modPart p fun q => { q with fence := some f, st := if q.st = .absent then .stopped else q.st }) s
  (s.resolvePorts.zeroise old).ownerReach had

/-! ## ROUTE, ROLE, PLACE, SLICE, PINS (R35-R41) -/

/-- ROUTE (R35): codes that R35 reserves count as NONE. -/
def State.applyRoute (s : State) (body : List Byte) (entries : Nat) : State :=
  let n := min (min entries 4096) body.length
  { s with route :=
      ((List.range n).filterMap fun i => let c := field body i 1; if c < 5 then some (i, c) else none) ++
        s.route.filter fun x => decide (n ≤ x.1) }

/-- ROLE (R36); a tenant's tile entries outside its partition are ignored (R45). -/
def State.applyRole (s : State) (p : Part) (body : List Byte) (entries : Nat) (tenant : Bool) : State :=
  let tile (e : List Byte) : RoleTile :=
    { tile := field e 0 1, decodeClusters := field e 2 2, prefillClusters := field e 4 2, matrixEngines := field e 6 1 }
  let own (t : RoleTile) : Bool :=
    !tenant || (match s.siteOf t.tile with | some i => s.holdsSite p i.val | none => false)
  s.modPart p fun q => { q with role :=
    { streamLimit := field body 0 4
      tokenBudget := field body 4 4
      splitSize := field body 8 4
      prefillMode := field body 12 1
      features := BitVec.ofNat 8 (field body 13 1)
      buckets := BitVec.ofNat 16 (field body 14 2)
      tiles := ((recordsOf body 32 16 entries).map tile).filter own } }

/-- A PLACE record's fields (R37). [DESIGN CHOICE: log 13] -/
def placeRec (e : List Byte) : Place :=
  { model := field e 0 4, kind := field e 4 1, residence := field e 5 1, mirror := field e 6 1 % 2 == 1,
    exported := field e 6 1 / 2 % 2 == 1, region := field e 8 4, sheetFirst := field e 12 4, sheetCount := field e 16 4,
    peatFirst := field e 20 4, peatCount := field e 24 4 }

/-- Segments that lie wholly inside one IMPORT_RO range (R45). -/
def Partition.imported (p : Partition) (first count : Nat) : Bool :=
  match p.fence with
  | some f => f.ranges.any fun r => r.kind == 2 && decide (r.first ≤ first) && decide (first + count ≤ r.first + r.count)
  | none => false

/-- A tenant's PLACE record that counts (R45). -/
def State.placeOwn (s : State) (p : Part) (x : Place) : Bool :=
  let segs := (List.range x.sheetCount).map (· + x.sheetFirst)
  let q := s.part p
  segs.all (fun g => s.readable p g) &&
    (List.range x.peatCount).all fun i =>
      q.peatWritable (x.peatFirst + i) || (decide (0 < x.sheetCount) && q.imported x.sheetFirst x.sheetCount && q.peatReadable (x.peatFirst + i))

/-- A model whose records a PLACE section changes: its staging ranges are unstaged (R298), and an index whose region has
moved is emptied (R278). -/
def Model.rePlace (m : Model) (old new : Partition) : Model :=
  let ours (p : Partition) : List Place := p.places.filter fun x => x.model == m.handle
  let m := if ours old = ours new then m else { m with staged := [] }
  match m.pkg.indexRegion with
  | some r => if old.place m.handle r = new.place m.handle r then m else { m.emptyIndex with index := none }
  | none => m

/-- The records of held models that a PLACE section changes, as they were and as they are. -/
def Partition.rePlaced (old new : Partition) : List Place :=
  let of (a b : Partition) := a.places.filter fun x =>
    (old.model x.model).isSome && decide (a.place x.model x.region ≠ b.place x.model x.region)
  of old new ++ of new old

/-- The contents of a held model are undefined where its records are changed (R38), within the partition's own memory (R10). [DEDUCED: log 11] -/
def State.spoilPlace (s : State) (p : Part) (x : Place) : State :=
  let s := ((List.range x.sheetCount).map (· + x.sheetFirst)).foldl (fun (s : State) g =>
    if s.writable p g then s.spoil (g * segBytes) segBytes else s) s
  ((List.range x.peatCount).map (· + x.peatFirst)).foldl (fun (s : State) g =>
    if (s.part p).peatWritable g then s.spoilPeat (g * segBytes) segBytes else s) s

/-- PLACE (R38): the whole set of region records is replaced. No data moves; a loaded model whose records change has undefined
contents. [DEDUCED: log 11] -/
def State.applyPlace (s : State) (p : Part) (body : List Byte) (entries : Nat) (tenant : Bool) : State :=
  let l := (recordsOf body 0 32 entries).map placeRec
  let old := s.part p
  let new := { old with places := if tenant then l.filter (s.placeOwn p) else l }
  (old.rePlaced new).foldl (fun s x => s.spoilPlace p x)
    (s.modPart p fun _ => { new with models := old.models.map fun m => m.rePlace old new }).pruneTables

/-- The slots of a SLICE body (R39). [DESIGN CHOICE: log 13] -/
def slotsOf (body : List Byte) : List Slot :=
  (recordsOf body 16 24 (min (field body 12 2) 64)).map fun e =>
    { tiles := BitVec.ofNat 64 (field e 0 8), part := field e 8 1, start := field e 12 4, len := field e 16 4 }

/-- SLICE (R39). -/
def State.applySlice (s : State) (body : List Byte) : State :=
  { s with slice := { frameStart := field body 0 8, frameLength := field body 8 4, slots := slotsOf body, debts := s.slice.debts } }

/-- One PINS entry (R41). -/
def Pins.entry (x : Pins) (e : List Byte) : Pins :=
  match field e 0 1 with
  | 1 => { x with brakeFunction := BitVec.ofNat 8 (field e 1 1), brakeFilter := field e 4 4 }
  | 2 => { x with resetFilter := field e 4 4 }
  | 3 => { x with ringFilter := field e 4 4 }
  | 4 => { x with alertFunction := BitVec.ofNat 8 (field e 1 1), alertFilter := field e 4 4 }
  | _ => x

/-- PINS (R41): a pin that no entry names keeps its function and filter. -/
def State.applyPins (s : State) (body : List Byte) (entries : Nat) : State :=
  let x := { s.pinsCfg with
    post := field body 0 1 % 2 == 1, holdover := field body 0 1 / 2 % 2 == 1, ringReg := field body 0 1 / 4 % 2 == 1 }
  { s with pinsCfg := (recordsOf body 8 8 entries).foldl Pins.entry x }

/-! ## Gates and chains (R29, R358) -/

/-- Every partition that has a FENCE record is STOPPED. -/
def State.allStopped (s : State) : Bool := allParts.all fun p => (s.part p).fence.isNone || (s.part p).st == .stopped

/-- The bytes before which a ROLE, SLICE or PINS body is too short (R411). -/
def leadOf (type : Nat) : Nat := match type with | 4 => 32 | 6 => 16 | 7 => 8 | _ => 0

/-- Partitions that hold slots of a frame. Slot records of a SLICE whose FRAME_LENGTH is 0 hold none: there is no time-slicing
(R39). [DESIGN CHOICE: log 13] -/
def slotParts (len : Nat) (slots : List Slot) : List Nat := if len = 0 then [] else slots.map (·.part)

/-- The gate of a section (R29, R45, R411). `tenant` is the partition whose stream it is, or none for the owner's. -/
def State.gate (s : State) (tenant : Option Part) (h body : List Byte) : Bool :=
  let own : Bool := match tenant with
    | none => true
    | some p => (secType h == 4 || secType h == 5) && secPart h == p.val
  own && decide (leadOf (secType h) ≤ body.length) &&
    match secType h with
    | 1 | 2 | 3 => s.allStopped
    | 4 | 5 => allParts.any fun p => p.val == secPart h && (s.part p).st == .stopped
    | 6 =>
      let l := slotParts s.slice.frameLength s.slice.slots ++ slotParts (field body 8 4) (slotsOf body)
      allParts.all fun p => !l.contains p.val || (s.part p).fence.isNone || (s.part p).st == .stopped
    | 7 => true
    | _ => false

/-- A structure chain extended (R358). -/
def extend (m b : List Byte) : List Byte := Config.sha384 (m ++ b)

/-- The partition that a ROLE or PLACE section names. -/
def namedPart (h : List Byte) : Part := Fin.ofNat 4 (secPart h)

/-- What a section does, once its gate is open. -/
def State.sectionEffect (s : State) (tenant : Bool) (h body : List Byte) : State :=
  match secType h with
  | 1 => s.applySheet body (secEntries h)
  | 2 => s.applyFence body (secEntries h)
  | 3 => s.applyRoute body (secEntries h)
  | 4 => s.applyRole (namedPart h) body (secEntries h) tenant
  | 5 => s.applyPlace (namedPart h) body (secEntries h) tenant
  | 6 => s.applySlice body
  | _ => s.applyPins body (secEntries h)

/-- Which partitions count a section applied (R54, `PARTITION_STARTED` detail A). -/
def State.countSection (s : State) (h : List Byte) : State :=
  allParts.foldl (fun (s : State) p =>
    let counts : Bool := match secType h with
      | 1 | 2 | 3 | 6 => (s.part p).fence.isSome
      | 4 | 5 => namedPart h == p
      | _ => false
    if counts then s.modPart p fun q => { q with sectionsSince := q.sectionsSince + 1 } else s) s

/-- The chain that records a section (R358): index 5 of its partition for ROLE and PLACE, else index 3. -/
def State.recordSection (s : State) (h body : List Byte) : State :=
  match secType h with
  | 4 | 5 => s.modPart (namedPart h) fun q => { q with chain5 := extend q.chain5 (h ++ body) }
  | _ => { s with sec := { s.sec with chain3 := extend s.sec.chain3 (h ++ body) } }

/-- A section whose last body byte has arrived: applied whole where its gate is open, else discarded (R28, R29). Answers
whether it was applied. -/
def State.applySection (s : State) (tenant : Option Part) (h body : List Byte) : State × Bool :=
  if s.gate tenant h body then
    (((s.sectionEffect tenant.isSome h body).countSection h).recordSection h body, true)
  else (s, false)

/-! ## Streams (R28, R44, R45) -/

/-- The stream of a tenant, or of the owner. -/
def State.stream (s : State) : Option Part → KlnStream
  | some p => (s.part p).kln
  | none => s.kln

/-- Update of a stream. -/
def State.modStream (s : State) (t : Option Part) (f : KlnStream → KlnStream) : State :=
  match t with
  | some p => s.modPart p fun q => { q with kln := f q.kln }
  | none => { s with kln := f s.kln }

/-- A HEADER has arrived: it extends the chain of its stream (R358), and gives LENGTH. [DEDUCED: log 25] -/
def State.takeHeader (s : State) (t : Option Part) (h : List Byte) : State :=
  let s := match t with
    | some p => s.modPart p fun q => { q with chain5 := extend q.chain5 h }
    | none => { s with sec := { s.sec with chain3 := extend s.sec.chain3 h } }
  s.modStream t fun k => { k with length := some (field h 8 4), phase := .sectionHeader, buf := [] }

/-- A section's body is complete: it is applied or not, counted, and its padding follows. [DEDUCED: log 25] -/
def State.takeSection (s : State) (t : Option Part) (h body : List Byte) : State :=
  let pad := (4 - secLen h % 4) % 4
  let s := s.modStream t fun k => { k with phase := if pad = 0 then .sectionHeader else .padding pad, buf := [] }
  let (s, applied) := s.applySection t h body
  if applied then s.modStream t fun k => { k with sections := k.sections + 1 } else s

/-- One byte taken into an image (R26-R28). Past LENGTH, or before a BEGIN, it is ignored. [DEDUCED: log 25] -/
def State.takeByte (s : State) (t : Option Part) (b : Byte) : State :=
  let k := s.stream t
  let past : Bool := match k.length with | some n => decide (n ≤ k.received) | none => false
  if k.ignoring || past then s
  else
    let buf := k.buf ++ [b]
    let s := s.modStream t fun k => { k with received := k.received + 1, buf := buf }
    match k.phase with
    | .header => if buf.length < 32 then s else s.takeHeader t buf
    | .sectionHeader =>
      if buf.length < 16 then s
      else if secLen buf = 0 then s.takeSection t buf []
      else s.modStream t fun k => { k with phase := .body buf, buf := [] }
    | .body h => if buf.length < secLen h then s else s.takeSection t h buf
    | .padding left =>
      s.modStream t fun k => { k with buf := [], phase := if left ≤ 1 then .sectionHeader else .padding (left - 1) }

/-- Bytes taken one after another. -/
def State.takeBytes (s : State) (t : Option Part) : List Byte → State
  | [] => s
  | b :: bs => (s.takeByte t b).takeBytes t bs

/-- A write to a load window: four bytes, byte 0 first, all counted (R44). -/
def State.load (s : State) (t : Option Part) (value : W32) : State :=
  (s.modStream t fun k => { k with bytes := k.bytes + 4 }).takeBytes t (leBytes 4 value.toNat)

/-- BEGIN (R44): any incomplete section is discarded, and the counts are cleared. -/
def State.begin (s : State) (t : Option Part) : State := s.modStream t fun _ => { ignoring := false }

/-- PERST# or FLR on a port (R53): incomplete sections of its streams are discarded, and bytes are ignored until BEGIN. -/
def State.cutStreams (s : State) (port : Port) : State :=
  let cut (k : KlnStream) : KlnStream := { k with ignoring := true, buf := [], phase := .header }
  let s := if port = s.ownerPort then s.modStream none cut else s
  match s.partOf port with
  | some p => s.modStream (some p) cut
  | none => s

/-- A tenant stream takes bytes of those who see its partition, while it has a port (R45, R60, R412). -/
def State.tenantStream (s : State) (port : Port) (p : Part) : Bool :=
  s.sees port p && (s.part p).fence.isSome && (s.part p).port.isSome

/-! ## Rows -/

/-- `KLN_BEGIN`: KLN_CTRL.BEGIN, owner only (R44). -/
def execKlnBegin (port : Port) (s : State) : Host.Outcome State Fault Refusal :=
  .next (if s.owns port then s.begin none else s)

/-- `KLN_LOAD` (R28, R44). -/
def execKlnLoad (port : Port) (value : W32) (s : State) : Host.Outcome State Fault Refusal :=
  .next (if s.owns port then s.load none value else s)

/-- `PRT_KLN_BEGIN` (R45). -/
def execPrtKlnBegin (port : Port) (p : Part) (s : State) : Host.Outcome State Fault Refusal :=
  .next (if s.tenantStream port p then s.begin (some p) else s)

/-- `PRT_KLN_LOAD` (R45). -/
def execPrtKlnLoad (port : Port) (p : Part) (value : W32) (s : State) : Host.Outcome State Fault Refusal :=
  .next (if s.tenantStream port p then s.load (some p) value else s)

/-! ## The factory image (R42, R43) -/

/-- SHEET of the factory image: sites that failed wafer test fenced, the 60 lowest others in service, the rest spare. [DESIGN CHOICE: log 9] -/
def factorySites (failed : W64) : Vector SiteSt 64 :=
  let good := (List.range 64).filter fun i => !failed.getLsbD i
  Vector.ofFn fun i =>
    if failed.getLsbD i.val then { state := .fenced }
    else match good.findIdx? (· == i.val) with
      | some n => if n < 60 then { state := .inService, tile := some n } else { state := .spare }
      | none => { state := .fenced }

/-- The mask of the sites in service. -/
def serviceMask (sites : Vector SiteSt 64) : W64 :=
  (List.finRange 64).foldl (fun m i => if (sites.get i).state = .inService then maskPut m i.val true else m) 0

/-- FENCE of the factory image. [DESIGN CHOICE: log 9] -/
def factoryFence (sites : Vector SiteSt 64) : Fence :=
  { port := 0xFF, noZeroise := false, tiles := serviceMask sites, rqtBase := 0, rqtCount := 32768, ranges := [],
    peatRw := { first := 0, count := peatSegs }, peatRo := {} }

/-- ROLE of the factory image. [DESIGN CHOICE: log 9] -/
def factoryRole : Role :=
  { streamLimit := 256, tokenBudget := 4096, splitSize := 512, prefillMode := 0, features := 0, buckets := 0x0FFF,
    tiles := (List.range 60).map fun t => { tile := t, decodeClusters := 192, prefillClusters := 64, matrixEngines := 48 } }

/-- PINS of the factory image. [DESIGN CHOICE: log 9] -/
def factoryPins : Pins := { post := true, holdover := true, alertFunction := 0x0B }

/-- The power-up load of the factory image, every gate open (R43 step 1), and the chains at power-up (R358). The counters
show the load (R44): its seven sections. [DESIGN CHOICE: log 9] -/
def State.loadFactory (s : State) : State :=
  let good := factorySites waferFenced
  let gone := (List.range 64).filter fun i => Config.framesRetired.getLsbD i
  let sites : Vector SiteSt 64 := Vector.ofFn fun i =>
    { good.get i with barred := waferFenced.getLsbD i.val, routerRetired := Config.framesRetired.getLsbD i.val }
  let s := { s with
    sites := sites
    route := routeTable gone
    peatRetired := s.peatRetired || gone.any edgeSite
    slice := { debts := s.slice.debts }
    pinsCfg := factoryPins
    kln := { bytes := BitVec.ofNat 32 Config.factoryImage.length, sections := 7 }
    sec := { s.sec with chain3 := Config.sha384 Config.factoryImage } }
  let s := ([0, 1, 2, 3] : List Port).foldl (fun s p =>
    if gone.contains (cornerSite p) then s.modPort p fun x => { x with lost := true } else s) s
  let s := allParts.foldl (fun (s : State) p =>
    s.modPart p fun q => { q.removed with chain5 := if p = 0 then Config.sha384 (Config.factoryRolePlace 0) else List.replicate 48 0 }) s
  (s.modPart 0 fun q => { q with fence := some (factoryFence sites), st := .stopped, role := factoryRole, sectionsSince := 6 }).resolvePorts

end Sys2Proof.Machine
end

