-- ==== Sys2Proof/Machine/Package.lean ====
section
/-! DEFINITION. Model packages: their control part parsed (R155-R169), the geometry of matrices (R163), the checks of
`MODEL_LOAD` (R188, R192, R212, R213, R278, R295). -/

namespace Sys2Proof.Machine

/-! ## Parsing -/

/-- Record sizes of the section types (R156). -/
def sectSize : Nat → Nat
  | 1 => 64 | 2 => 32 | 3 => 64 | 4 => 8 | 5 => 32 | 6 => 32 | 7 => 4 | 8 => 16 | 9 => 64
  | _ => 0

/-- A directory entry: type, count, offset (R156). -/
structure DirEntry where
  type : Nat
  count : Nat
  offset : Nat
  deriving DecidableEq, Repr

/-- The directory. -/
def dirOf (bytes : List Byte) : List DirEntry :=
  (recordsOf bytes 0 16 16).map fun e => DirEntry.mk (field e 0 1) (field e 4 4) (field e 8 8)

/-- The model record (R157). -/
def modelRec (e : List Byte) : ModelRec :=
  { layers := field e 0 4, hidden := field e 4 4, vocab := field e 8 4, maxPositions := field e 12 4,
    headProgram := field e 16 4, layerProgram := field e 20 4, tailProgram := field e 24 4, draftModel := field e 28 4 }

/-- A region record (R159). -/
def regionRec (e : List Byte) : RegionRec :=
  { kind := field e 0 1, format := field e 1 1, segData := field e 2 2, billets := field e 4 4, dataOffset := field e 8 8,
    partner := field e 16 4 }

/-- A matrix descriptor (R162). -/
def matrixRec (e : List Byte) : MatrixRec :=
  { out := field e 0 4, inp := field e 4 4, format := field e 8 1, flags := field e 9 1, tileK := field e 10 2,
    experts := field e 12 4, regionFirst := field e 16 4, regionCount := field e 20 4, segFirst := field e 24 4,
    lanes := field e 28 4, drow := field e 32 4, sbyte := field e 36 4, chCount := field e 40 4, chFirst := field e 44 4,
    chMatrix := field e 48 4 }

/-- A SHARD record (R166). -/
def shardRec (e : List Byte) : ShardRec :=
  { kind := field e 0 1, format := field e 1 1, minKeyFormat := field e 2 1, rotary := field e 3 1, layer := field e 4 2,
    heads := field e 6 2, dim0 := field e 8 2, dim1 := field e 10 2, window := field e 12 4, pool := field e 16 4 }

/-- A rotary record (R167). -/
def rotaryRec (e : List Byte) : RotaryRec :=
  { base := BitVec.ofNat 32 (field e 0 4), rotDims := field e 4 2, pairing := field e 6 1,
    linear := BitVec.ofNat 32 (field e 8 4), freq := BitVec.ofNat 32 (field e 12 4),
    wlLo := BitVec.ofNat 32 (field e 16 4), wlHi := BitVec.ofNat 32 (field e 20 4) }

/-- An operator descriptor (R169). -/
def descRec (e : List Byte) : DescRec :=
  { op := field e 0 1, in0 := field e 4 1, in1 := field e 5 1, in2 := field e 6 1, out := field e 7 1, obj0 := field e 8 4,
    obj1 := field e 12 4, obj2 := field e 16 4, param := e.drop 20 }

/-- `n` bytes of PARAM at byte `o` of the descriptor (R169). -/
def DescRec.par (d : DescRec) (o n : Nat) : Nat := field d.param (o - 20) n

/-- An FP32 value of PARAM. -/
def DescRec.f32 (d : DescRec) (o : Nat) : W32 := BitVec.ofNat 32 (d.par o 4)

/-- The header of a package: SECTIONS and DIRECTORY (R155). -/
def pkgSections (h : List Byte) : Nat := field h 20 4
def pkgDirectory (h : List Byte) : Nat := field h 24 8

/-- The directory is one that can be read: its sections known, none twice, all inside the package and inside the control area
(R156, R188, R192). -/
def dirOk (len : Nat) (dir : List DirEntry) : Bool :=
  dir.all (fun e => decide (1 ≤ e.type) && decide (e.type ≤ 9) && decide (e.offset + sectSize e.type * e.count ≤ len)) &&
    decide (dir.map (·.type)).Nodup &&
    decide (64 + 16 * dir.length + (dir.map fun e => sectSize e.type * e.count).sum ≤ 2097152)

/-- What the control part still needs: a read at an offset, nothing more, or a status that ends the command. -/
inductive Need where
  | read (offset len : Nat)
  | bad
  | complete

/-- The next read of the control part: its header, its directory, then the sections that are not empty. -/
def nextNeed (len : Nat) (got : List (List Byte)) : Need :=
  match got with
  | [] => if 64 ≤ len then .read 0 64 else .bad
  | h :: rest =>
    let n := pkgSections h
    match rest with
    | [] => if 1 ≤ n ∧ n ≤ 16 ∧ pkgDirectory h + 16 * n ≤ len then .read (pkgDirectory h) (16 * n) else .bad
    | d :: secs =>
      let dir := dirOf d
      if dirOk len dir then
        match ((dir.filter fun e => e.count ≠ 0)[secs.length]?) with
        | some e => .read e.offset (sectSize e.type * e.count)
        | none => .complete
      else .bad

/-- The records of a section type, from the parts read. -/
def sectionRecs (dir : List DirEntry) (secs : List (List Byte)) (type : Nat) : List (List Byte) :=
  match (List.zip (dir.filter fun e => e.count ≠ 0) secs).find? fun x => x.1.type == type with
  | some x => recordsOf x.2 0 (sectSize type) x.1.count
  | none => []

/-- A package parsed from its control part; none where a section that must be there is not (R155, R156). -/
def parsePackage (got : List (List Byte)) : Option Package :=
  match got with
  | h :: d :: secs =>
    let dir := dirOf d
    let recs := sectionRecs dir secs
    let has (t : Nat) : Bool := dir.any fun e => e.type == t
    match (recs 1).map modelRec with
    | [m] =>
      if field h 0 4 = 0x504D5848 ∧ field h 4 2 = 1 ∧ ([1, 2, 7, 8, 9].all has) ∧ (recs 7).length = 64 then
        some { model := m, regions := (recs 2).map regionRec, matrices := (recs 3).map matrixRec,
               channels := (recs 4).map fun e => ChannelRec.mk (field e 0 4) (BitVec.ofNat 32 (field e 4 4)),
               shards := (recs 5).map shardRec, rotaries := (recs 6).map rotaryRec, slots := (recs 7).map fun e => field e 0 4,
               programs := (recs 8).map fun e => (field e 0 4, field e 4 4), descs := (recs 9).map descRec }
      else none
    | _ => none
  | _ => none

/-! ## What programs name (R295) -/

/-- The sheet addresses of a tile's data and of its scales, after relief. -/
def Partition.tileAddr (p : Partition) (m : Model) (x : MatrixRec) (t : Nat) : Option (Nat × Nat) :=
  let (r, g, row, sb) := x.tilePlace t
  (p.place m.handle r).map fun pl =>
    let base := p.relieved m.handle ((pl.sheetFirst + g) * segBytes)
    (base + row * 1024, base + m.pkg.segData r * 4096 + sb)

/-- The regions that a matrix names, its channel matrix's among them (R295). -/
def Package.matrixRegions (k : Package) (i : Nat) : List Nat :=
  let own (j : Nat) : List Nat := match k.matrices[j]? with
    | some x => (List.range x.regionCount).map (· + x.regionFirst)
    | none => []
  own i ++ match k.matrices[i]? with
    | some x => if x.chMatrix = none32 then [] else own x.chMatrix
    | none => []

/-- Vector references of a descriptor (R169, R173, R174, R180): byte offsets. -/
def vectorFields (op : Nat) : List Nat :=
  match op with
  | 2 => [24]
  | 3 => [24, 32]
  | 4 => [24]
  | 9 => [32]
  | _ => []

/-- The regions that a descriptor names. -/
def Package.descRegions (k : Package) (d : DescRec) : List Nat :=
  let vec := ((vectorFields d.op).map fun o => d.par o 4).filter fun r => decide (r ≠ none32)
  let mats := match d.op with
    | 1 | 4 | 12 => [d.obj0]
    | 7 => match k.shards[d.obj0]? with
      | some sh => if sh.kind = 1 then [d.obj1, d.obj2, d.par 32 4] else []
      | none => []
    | _ => []
  let l := vec ++ mats.flatMap k.matrixRegions
  l ++ (l.filterMap fun r => (k.regions[r]?).map (·.partner)).filter fun r => decide (r ≠ none32)

/-- The descriptors of a program. -/
def Package.program (k : Package) (i : Nat) : List DescRec :=
  match k.programs[i]? with
  | some (first, count) => (k.descs.drop first).take count
  | none => []

/-- The program of a place in the run of a model: head, layers, tail (R168). -/
def Package.programOf (k : Package) (prog : Nat) : List DescRec :=
  if prog = 0 then k.program k.model.headProgram
  else if prog ≤ k.model.layers then k.program (k.model.layerProgram + (prog - 1))
  else k.program k.model.tailProgram

/-- Programs of a run. -/
def Package.runLength (k : Package) : Nat := k.model.layers + 2

/-- The regions that a program references (R295). -/
def Package.programRegions (k : Package) (prog : Nat) : List Nat := (k.programOf prog).flatMap k.descRegions

/-! ## Checks (R188) -/

/-- A range of whole segments overlaps another, both in use. -/
def overlap (a n b m : Nat) : Bool := decide (0 < n) && decide (0 < m) && decide (a < b + m) && decide (b < a + n)

/-- The model record within its limits (R157, R158, R192). -/
def Package.checkModel (k : Package) : Bool :=
  let m := k.model
  decide (1 ≤ m.layers) && decide (m.layers ≤ 1024) && decide (64 ≤ m.hidden) && decide (m.hidden ≤ 65536) &&
    decide (m.hidden % 64 = 0) && decide (1 ≤ m.vocab) && decide (m.vocab ≤ 1048576) && decide (64 ≤ m.maxPositions) &&
    decide (m.maxPositions ≤ 1048576) && k.slots.head? == some m.hidden && decide (k.slots.sum ≤ 2097152)

/-- Segments that the billets of a region take (R160). -/
def Package.regionSegs (k : Package) (i billets : Nat) (scale : Bool) : Nat :=
  let d := k.segData i
  if scale then ceilDiv billets (512 - d) else ceilDiv billets d

/-- A region record and its PLACE record (R159, R160). -/
def Package.checkRegion (k : Package) (p : Partition) (handle len i : Nat) (r : RegionRec) : Bool :=
  let pl := p.place handle i
  let paired := decide (r.kind ≤ 1) && decide (r.partner ≠ none32)
  decide (r.kind ≤ 4) &&
    (!paired || (match k.regions[r.partner]? with
      | some x => x.kind == 1 - r.kind && x.partner == i
      | none => false)) &&
    (if paired && r.kind == 0 then decide (256 ≤ r.segData) && decide (r.segData ≤ 511) else r.segData == 512) &&
    (if 2 ≤ r.kind then r.billets == 0
     else (decide (r.format ≤ 6) || isCacheFmt r.format) && decide (r.dataOffset + r.billets * 4096 ≤ len)) &&
    (!(decide (r.kind ≤ 1) && decide (0 < r.billets)) || (match pl with
      | some x => decide (k.regionSegs i r.billets (r.kind == 1 && paired) ≤ x.sheetCount)
      | none => false)) &&
    (!paired || (match pl, p.place handle r.partner with
      | some x, some y => x.sheetFirst == y.sheetFirst && x.sheetCount == y.sheetCount
      | none, none => true
      | _, _ => false))

/-- The pool parts (R212, R213) and the index (R278). -/
def Package.checkPools (k : Package) (p : Partition) (handle : Nat) : Bool :=
  let regions := k.poolRegions
  decide (regions.length ≤ 256) && decide ((k.regions.filter fun r => r.kind == 3).length ≤ 1) &&
    (List.range regions.length).all fun i =>
      let (first, count) := match p.place handle (regions.getD i 0) with
        | some x => (x.sheetFirst, x.sheetCount)
        | none => (0, 0)
      (count == 0 || first / stackSegs == (first + count - 1) / stackSegs) &&
        (!(k.shards.any fun sh => (k.shardParts sh).contains i) || decide (0 < (carvePart k i 0 first count []).slots))

/-- The ranges of a model's PLACE records overlap only where a pair of partners, or a staging set, shares one (R160, R295), and no two
members of a staging set are referenced by one program (R295). -/
def Package.checkStaging (k : Package) (p : Partition) (handle : Nat) : Bool :=
  let l := p.places.filter fun x => x.model == handle && decide (0 < x.sheetCount)
  let partners (a b : Nat) : Bool := match k.regions[a]? with | some r => decide (r.kind ≤ 1) && r.partner == b | none => false
  let member (i : Nat) : Nat := match k.regions[i]? with
    | some r => if r.kind = 1 ∧ r.partner ≠ none32 then r.partner else i
    | none => i
  l.all (fun x => l.all fun y =>
    y.region == x.region || !overlap x.sheetFirst x.sheetCount y.sheetFirst y.sheetCount ||
      (x.sheetFirst == y.sheetFirst && x.sheetCount == y.sheetCount &&
        (partners x.region y.region || (x.residence == 1 && y.residence == 1)))) &&
    (List.range k.programs.length).all fun g =>
      let ms := (((k.program g).flatMap k.descRegions).map member).eraseDups
      ms.all fun i => ms.all fun j =>
        i == j || (match p.place handle i, p.place handle j with
          | some x, some y => !(x.residence == 1 && y.residence == 1 && decide (0 < x.sheetCount) &&
              x.sheetFirst == y.sheetFirst && x.sheetCount == y.sheetCount)
          | _, _ => true)

/-- A rotary set (R167). -/
def RotaryRec.ok (r : RotaryRec) : Bool :=
  f32Lt f32One r.base && f32IsFinite r.base && decide (2 ≤ r.rotDims) && decide (r.rotDims ≤ 512) && r.rotDims % 2 == 0 &&
    decide (r.pairing ≤ 1) && !f32Lt r.linear f32One && f32IsFinite r.linear && !f32Lt r.freq f32One && f32IsFinite r.freq &&
    !f32Lt r.wlHi r.wlLo

/-- A shard (R166, R192). -/
def Package.checkShard (k : Package) (sh : ShardRec) : Bool :=
  let rot := k.rotaries[sh.rotary]?
  decide (sh.kind ≤ 1) && isCacheFmt sh.format && (isCacheFmt sh.minKeyFormat || sh.minKeyFormat == 0xFF) &&
    decide (sh.layer < k.model.layers) && decide (1 ≤ sh.heads) &&
    (match k.regions[sh.pool]? with | some r => r.kind == 2 | none => false) &&
    (if sh.kind = 1 then
      decide (sh.rotary ≠ 0xFF) && sh.heads == 1 && decide (64 ≤ sh.dim0) && decide (sh.dim0 ≤ 2048) && sh.dim0 % 64 == 0 &&
        (match rot with | some r => r.rotDims == sh.dim1 | none => false)
    else sh.rotary == 0xFF || (match rot with | some r => decide (r.rotDims ≤ sh.dim0 / sh.heads) | none => false))

/-- A matrix descriptor, its channels, and every tile within its segment's slots (R162-R165). -/
def Package.checkMatrix (k : Package) (p : Partition) (handle : Nat) (x : MatrixRec) : Bool :=
  decide (x.format ≤ 6) && decide (0 < x.out) && x.out % 64 == 0 && decide (32 ≤ x.tileK) && decide (x.tileK ≤ 2048) &&
    x.tileK % max 32 (fmtBlock x.format) == 0 && decide (0 < x.inp) && decide (x.inp ≤ 1048576) && x.inp % x.tileK == 0 &&
    (if x.expert then decide (1 ≤ x.experts) && decide (x.experts ≤ 1024) else x.experts == 1) &&
    decide (1 ≤ x.regionCount) && decide (x.regionCount ≤ 1024) && decide (1 ≤ x.lanes) && decide (x.lanes ≤ 61440) &&
    x.sbyte % 32 == 0 && decide (x.chCount ≤ 64) &&
    (if x.chCount = 0 then x.chMatrix == none32
     else
      let ks := ((k.channels.drop x.chFirst).take x.chCount).map (·.k)
      ks.length == x.chCount && decide (ks.Pairwise (· < ·)) && ks.all (fun i => decide (i < x.inp)) &&
        (match k.matrices[x.chMatrix]? with
          | some c => c.format == 6 && c.out == x.out && c.inp == roundUp x.chCount 32
          | none => false)) &&
    (List.range x.regionCount).all fun i =>
      let r := x.regionFirst + i
      -- the lanes in use that lie in region i are i, i + REGION_COUNT, ...: the first holds most tiles, the last lies highest
      let used := min x.lanes x.tiles
      let per := ceilDiv (x.tiles - i) x.lanes
      match k.regions[r]? with
      | some rr =>
        let d := k.segData r
        rr.kind == 0 && (decide (used ≤ i) || (match p.place handle r with
          | some pl => decide (x.drow + per * x.trows ≤ 4 * d) && (x.tsb == 0 || decide (x.sbyte + per * x.tsb ≤ (512 - d) * 4096)) &&
              decide (x.segFirst + (used - 1 - i) / x.regionCount < pl.sheetCount)
          | none => false))
      | none => false

/-- The width of a slot that is used. -/
def Package.slotWidth (k : Package) (i : Nat) : Option Nat :=
  match k.slots[i]? with
  | some w => if w = 0 then none else some w
  | none => none

/-- A slot of a wanted width. -/
def Package.slotIs (k : Package) (i w : Nat) : Bool := k.slotWidth i == some w && decide (0 < w)

/-- A matrix of a wanted shape. -/
def Package.matIs (k : Package) (i out inp : Nat) : Bool :=
  match k.matrices[i]? with
  | some x => x.out == out && x.inp == inp
  | none => false

/-- A descriptor's operands (R171-R185). `prog` is the place of its program in the run, `seen` the shards appended so far. -/
def Package.checkDesc (k : Package) (prog : Nat) (seen : List Nat) (d : DescRec) : Bool :=
  let w := k.slotWidth
  let v64 := pad64 k.model.vocab
  let same (a b : Nat) : Bool := (w a).isSome && w a == w b
  (vectorFields d.op).all (fun o => d.par o 4 == none32 || (match k.regions[d.par o 4]? with | some r => r.kind == 0 | none => false)) &&
    match d.op with
    | 1 => (match k.matrices[d.obj0]? with
        | some x => x.rowTable && x.experts == 1 && (x.format == 0 || x.format == 1 || x.format == 3) && x.out == v64 &&
            x.inp == k.model.hidden
        | none => false) && k.slotIs d.out k.model.hidden
    | 2 | 3 => same d.in0 d.out
    | 4 => match k.matrices[d.obj0]? with
        | some x => k.slotIs d.in0 x.inp &&
            (if x.expert then (match w d.in1 with | some r => r % 4 == 0 && k.slotIs d.out (x.out * (r / 4)) | none => false)
             else k.slotIs d.out x.out)
        | none => false
    | 5 => (match k.rotaries[d.obj0]? with
        | some r => decide (d.par 24 2 + r.rotDims ≤ d.par 22 2)
        | none => false) && k.slotIs d.in0 (d.par 20 2 * d.par 22 2) && same d.in0 d.out
    | 6 => match k.shards[d.obj0]? with
        | some sh => !seen.contains d.obj0 && prog == sh.layer + 1 && k.slotIs d.in0 sh.dim0 &&
            (if sh.dim1 = 0 then d.in1 == 0xFF else k.slotIs d.in1 sh.dim1)
        | none => false
    | 7 => match k.shards[d.obj0]? with
        | some sh =>
          let q := d.par 24 2
          let qk := d.par 26 2
          let rd := d.par 28 2
          let vd := d.par 30 2
          seen.contains d.obj0 && decide (1 ≤ q) && decide (q ≤ 256) &&
            [qk, vd].all (fun x => decide (32 ≤ x) && decide (x ≤ 512) && x % 32 == 0) &&
            (if sh.kind = 0 then q % sh.heads == 0 && rd == 0 && sh.dim0 == sh.heads * qk && sh.dim1 == sh.heads * vd
             else rd == sh.dim1 && k.matIs d.obj1 (q * vd) sh.dim0 && k.matIs d.obj2 (q * qk) sh.dim0 &&
              k.matIs (d.par 32 4) sh.dim0 qk && (match k.matrices[d.par 32 4]? with | some x => x.experts == q | none => false)) &&
            k.slotIs d.in0 (q * (qk + rd)) && k.slotIs d.out (q * vd)
        | none => false
    | 8 => decide (d.par 20 1 ≤ 2) && same d.in0 d.out && (d.in1 == 0xFF || same d.in0 d.in1)
    | 9 => decide (d.par 20 1 ≤ 1) && decide (1 ≤ d.par 21 1) && decide (d.par 21 1 ≤ 16) && (w d.in0).isSome &&
        k.slotIs d.out (4 * d.par 21 1)
    | 10 => match w d.in0, w d.in1 with
        | some a, some r => r % 4 == 0 && a % (r / 4) == 0 && k.slotIs d.out (a / (r / 4))
        | _, _ => false
    | 11 => same d.in0 d.in1 && same d.in0 d.out
    | 12 => match k.matrices[d.obj0]? with
        | some x => x.out == v64 && !x.expert && k.slotIs d.in0 x.inp && k.slotIs d.out v64
        | none => false
    | 13 => match w d.in0 with | some a => decide (k.model.vocab ≤ a) | none => false
    | 14 | 15 => d.obj1 == none32 || decide (d.obj0 + d.obj1 ≤ k.shards.length)
    | _ => false

/-- Every descriptor of the run in order (R168, R176), answering the shards appended; none where one breaks a rule. -/
def Package.checkRun (k : Package) (prog : Nat) (seen : List Nat) : List DescRec → Option (List Nat)
  | [] => some seen
  | d :: ds =>
    if k.checkDesc prog seen d then k.checkRun prog (if d.op = 6 then d.obj0 :: seen else seen) ds else none

/-- A descriptor by itself, where no program of the run orders it. -/
def Package.checkAlone (k : Package) (d : DescRec) : Bool :=
  k.checkDesc (match k.shards[d.obj0]? with | some sh => sh.layer + 1 | none => 0) (if d.op = 7 then [d.obj0] else []) d

/-- Every program and descriptor, and the run's in order (R168, R176, R185, R188). -/
def Package.checkPrograms (k : Package) : Bool :=
  let index (g : Nat) : Nat :=
    if g = 0 then k.model.headProgram else if g ≤ k.model.layers then k.model.layerProgram + (g - 1) else k.model.tailProgram
  let every (d : DescRec) : Bool := d.obj1 == none32 || (d.obj0 == 0 && d.obj1 == k.shards.length)
  k.programs.all (fun x => decide (1 ≤ x.2) && decide (x.2 ≤ 256) && decide (x.1 + x.2 ≤ k.descs.length)) &&
    k.descs.all k.checkAlone && (List.range k.runLength).all (fun g => decide (index g < k.programs.length)) &&
    (match (List.range k.runLength).foldl (fun acc g => acc.bind fun seen => k.checkRun g seen (k.programOf g)) (some []) with
      | some seen => seen.length == k.shards.length
      | none => false) &&
    (match (k.program k.model.tailProgram).reverse with
      | b :: a :: _ => a.op == 14 && b.op == 15 && every a && every b
      | _ => false)

/-- The whole of the checks of R188 on the control part. -/
def Package.check (k : Package) (p : Partition) (handle len first count : Nat) : Bool :=
  k.checkModel &&
    (List.range k.regions.length).all (fun i => match k.regions[i]? with | some r => k.checkRegion p handle len i r | none => true) &&
    k.checkPools p handle && k.checkStaging p handle && k.rotaries.all RotaryRec.ok &&
    decide (1 ≤ k.shards.length) && decide (k.shards.length ≤ 4096) && k.shards.all k.checkShard &&
    k.matrices.all (k.checkMatrix p handle) && k.checkPrograms && (count == 0 || decide (first + count ≤ k.regions.length))

/-! ## Scratch buffers (R224) -/

/-- The scratch buffers of a model: its KIND 4 regions cut, those in ash-listed segments left out (R80). -/
def Partition.cutScratch (p : Partition) (m : Model) (ash : List Nat) : List (Nat × Nat) :=
  let len := m.pkg.bufferBytes
  (List.range m.pkg.regions.length).flatMap fun i =>
    match m.pkg.regions[i]?, p.place m.handle i with
    | some r, some pl =>
      if r.kind = 4 ∧ 0 < len then
        ((List.range (pl.sheetCount * segBytes / len)).map fun b => (i, b * len)).filter fun x =>
          (List.range (ceilDiv (x.2 % segBytes + len) segBytes)).all fun g => !ash.contains (pl.sheetFirst + x.2 / segBytes + g)
      else []
    | _, _ => []

end Sys2Proof.Machine
end

