-- ==== Sys2Proof/Machine/Load.lean ====
section
/-! DEFINITION. `MODEL_LOAD` (R187-R190, R142): its tests in order, bindings, the writing of billets with their mirrors,
seasoning, relief at load (R334), and the end of a load. -/

namespace Sys2Proof.Machine

/-! ## Writing billets -/

/-- A billet that has been written is no longer broken. -/
def State.mended (s : State) (p : Part) (handle region billet : Nat) : State :=
  s.modRepairs p fun l => l.filter fun r =>
    !(r.part == p && r.handle == handle && r.region == region && r.billet == billet)

/-- Bytes of sheet memory written for a partition under the fence (R34): discarded outside its writable memory. -/
def State.fencedPut (s : State) (p : Part) (addr : Nat) (l : List (List Byte × Bool)) : State :=
  if s.writable p (addr / segBytes) then s.putBlocks (addr / 64) l
  else s.fenceViolation p (addr / segBytes) 1

/-- Bytes cut into chunks of 256, `n` of them. -/
def cutChunks (bytes : List Byte) : Nat → List (List Byte)
  | 0 => []
  | n + 1 => (bytes.take 256 ++ List.replicate (256 - bytes.length) 0) :: cutChunks (bytes.drop 256) n

/-- Chunks of the peat tier written one after another. -/
def State.putChunks (s : State) (c : Nat) : List (List Byte) → State
  | [] => s
  | x :: xs => (s.putChunk c x false).putChunks (c + 1) xs

/-- Bytes of peat memory written for a partition under the fence. -/
def State.fencedPeat (s : State) (p : Part) (addr : Nat) (bytes : List Byte) : State :=
  if (s.part p).peatWritable (addr / segBytes) then s.putChunks (addr / 256) (cutChunks bytes (ceilDiv bytes.length 256))
  else s.fenceViolation p (addr / segBytes) 1

/-- A region keeps a copy in the peat tier: a mirror, or the copy of a peat-resident region (R161, R189). -/
def Partition.hasCopy (p : Partition) (handle region : Nat) : Bool :=
  match p.place handle region with
  | some x => x.mirror || x.residence == 1
  | none => false

/-- One billet written to its sheet position and, where the region keeps one, to its peat copy (R189). -/
def State.writeBillet (s : State) (p : Part) (handle region billet : Nat) (bytes : List Byte) : State :=
  let q := s.part p
  match q.model handle with
  | none => s
  | some m =>
    let s := match q.billetAddr m region billet with
      | some a => s.fencedPut p (q.relieved handle a) (cutBlocks bytes 64)
      | none => s
    let s := match q.hasCopy handle region, q.billetPeat m region billet with
      | true, some a => s.fencedPeat p a bytes
      | _, _ => s
    s.mended p handle region billet

/-! ## Relief at load (R334) -/

/-- A segment from the top of one of the model's pool parts, the parts on the same tile first. -/
def State.loadReliefSeg (s : State) (p : Part) (m : Model) (seg : Nat) : Option Nat :=
  let q := s.part p
  let places := m.pkg.poolRegions.filterMap fun r => q.place m.handle r
  let on (x : Place) : Bool := x.sheetFirst / stackSegs == seg / stackSegs
  let order := places.filter on ++ places.filter fun x => !on x
  order.findSome? fun x =>
    ((List.range x.sheetCount).reverse.map (· + x.sheetFirst)).find? fun g =>
      !(q.relief.any fun r => r.handle == m.handle && r.relief == g) && !s.ashList.contains g &&
        !s.bankRetired (placeOf (g * segBytes))

/-- The segments of a region that are ash-listed or retired are relieved before the pool is carved. -/
def State.loadRelief (s : State) (p : Part) (m : Model) (region : Nat) : State :=
  match (s.part p).place m.handle region with
  | none => s
  | some x =>
    (List.range x.sheetCount).foldl (fun s i =>
      let g := x.sheetFirst + i
      if (s.ashList.contains g || s.bankRetired (placeOf (g * segBytes))) &&
          !((s.part p).relief.any fun r => r.handle == m.handle && r.segment == g) then
        match s.loadReliefSeg p m g with
        | some seg =>
          (s.modPart p fun q => { q with relief := q.relief ++ [Relief.mk m.handle region g seg true true] }).toLadder [p]
            { code := 0x3010, sev := 0, a := m.handle * 2 ^ 32 + region, b := g * 2 ^ 32 + seg }
        | none => s
      else s) s

/-! ## Bindings (R190, R299) -/

/-- A region is bound: its sheet range lies wholly in one IMPORT_RO range. -/
def Partition.bindsPlace (p : Partition) (x : Place) : Bool :=
  decide (0 < x.sheetCount) && match p.fence with
    | some f => f.ranges.any fun r => r.kind == 2 && decide (r.first ≤ x.sheetFirst) &&
        decide (x.sheetFirst + x.sheetCount ≤ r.first + r.count)
    | none => false

/-- The READY model of an exporting partition that a bound region needs: its partition and handle. -/
def State.exporter (s : State) (p : Part) (region : Nat) (x : Place) : Option (Part × Nat) :=
  (allParts.filter fun q => q ≠ p).findSome? fun q =>
    ((s.part q).places.find? fun y => y.region == region && y.exported && y.residence == 0 &&
      y.sheetFirst == x.sheetFirst && y.sheetCount == x.sheetCount &&
      (match (s.part q).model y.model with | some m => m.state == .ready | none => false)).map fun y => (q, y.model)

/-- The bindings of a list of regions: none where an exporter lacks. -/
def State.bindings? (s : State) (p : Part) (handle : Nat) : List Nat → Option (List (Nat × Nat × Nat))
  | [] => some []
  | r :: rest =>
    match (s.part p).place handle r with
    | some x =>
      if (s.part p).bindsPlace x then
        match s.exporter p r x with
        | some (q, h) => (s.bindings? p handle rest).map fun l => (r, q.val, h) :: l
        | none => none
      else s.bindings? p handle rest
    | none => s.bindings? p handle rest

/-! ## Seasoning (R139-R143, R165) -/

/-- The target matrices of a region: those whose tiles lie in it, in descriptor order, but the channel matrices. -/
def Package.matricesIn (k : Package) (region : Nat) (target : Nat) : List Nat :=
  (List.range k.matrices.length).filter fun i =>
    match k.matrices[i]? with
    | some x => x.format == target && inRange region x.regionFirst x.regionCount &&
        !k.matrices.any fun y => y.chMatrix == i && decide (0 < y.chCount)
    | none => false

/-- The tiles of a matrix that lie in a region, in tile order. -/
def MatrixRec.tilesIn (x : MatrixRec) (region : Nat) : List Nat :=
  (List.range x.tiles).filter fun t => (x.tilePlace t).1 == region

/-- The bytes of one BF16 source tile (R292). -/
def MatrixRec.sourceBytes (x : MatrixRec) : Nat := if x.rowTable then roundUp (2 * x.inp) 4096 else 128 * x.tileK

/-- Where the BF16 source of a tile starts in the billets of its region: the tiles of the region's matrices one after another. -/
def Package.sourceAt (k : Package) (region target i t : Nat) : Nat :=
  let before := (k.matricesIn region target).filter fun j => decide (j < i)
  let sum := (before.map fun j => match k.matrices[j]? with
    | some x => (x.tilesIn region).length * x.sourceBytes
    | none => 0).sum
  match k.matrices[i]? with
  | some x => sum + ((x.tilesIn region).filter fun u => decide (u < t)).length * x.sourceBytes
  | none => sum

/-- Element (m, k) of a BF16 source tile (R292). -/
def sourceElem (stash : List (Nat × List Byte)) (region start tileK m k : Nat) : W32 :=
  match lookupA stash region with
  | some bytes => f32OfBf16 (BitVec.ofNat 16 (field bytes (start + 2 * (m * tileK + k)) 2))
  | none => f32Zero

/-- The weight of output `o` and input `k` of expert `e` of a matrix, from the stash. -/
def Package.sourceWeight (k : Package) (stash : List (Nat × List Byte)) (target i : Nat) (x : MatrixRec) (e o kk : Nat) : W32 :=
  if x.rowTable then
    let r := (x.tilePlace o).1
    sourceElem stash r (k.sourceAt r target i o) x.inp 0 kk
  else
    let t := (e * (x.out / 64) + o / 64) * (x.inp / x.tileK) + kk / x.tileK
    let r := (x.tilePlace t).1
    sourceElem stash r (k.sourceAt r target i t) x.tileK (o % 64) (kk % x.tileK)

/-- The codes of a block of one output under its derived scale, privileged inputs left out (R141): scale code and codes. -/
def seasonBlock (fmt : Nat) (xs : List W32) (priv : List Bool) : Nat × List Nat :=
  let seen := (List.zip xs priv).filterMap fun x => if x.2 then none else some x.1
  match deriveScale fmt (amaxOf seen) with
  | (code, none) => (code, xs.map fun _ => 0)
  | (code, some sc) => (code, (List.zip xs priv).map fun x => if x.2 then 0 else encodeElem fmt x.1 sc)

/-- Bytes of sheet memory stored at any alignment, by read-modify-write of whole blocks, under the fence. -/
def State.fencedBytes (s : State) (p : Part) (addr : Nat) (bytes : List Byte) : State :=
  if s.writable p (addr / segBytes) then
    let b := addr / 64
    let n := ceilDiv (addr % 64 + bytes.length) 64
    let old := s.sheet.readN (b * 64) (n * 64)
    let new := old.take (addr % 64) ++ bytes ++ old.drop (addr % 64 + bytes.length)
    s.putBlocks b (cutBlocks new n)
  else s.fenceViolation p (addr / segBytes) 1

/-- One tile seasoned: its data and its scales written where R163 places them; how many elements were not finite. -/
def State.seasonTile (s : State) (p : Part) (m : Model) (stash : List (Nat × List Byte)) (target i : Nat) (x : MatrixRec)
    (t : Nat) : Nat × State :=
  match (s.part p).tileAddr m x t with
  | none => (0, s)
  | some (data, scales) =>
    let kt := x.inp / x.tileK
    let e := t / kt / (x.out / 64)
    let g := t / kt % (x.out / 64)
    let outs := if x.rowTable then 1 else 64
    let width := if x.rowTable then x.inp else x.tileK
    let priv := ((m.pkg.channels.drop x.chFirst).take x.chCount).map (·.k)
    let at_ (o kk : Nat) : W32 :=
      if x.rowTable then m.pkg.sourceWeight stash target i x 0 t kk
      else m.pkg.sourceWeight stash target i x e (g * 64 + o) (t % kt * x.tileK + kk)
    let bs := fmtBlock target
    let blocks := (List.range (width / bs)).map fun b => (List.range outs).map fun o =>
      let ks := (List.range bs).map fun j => b * bs + j
      seasonBlock target (ks.map (at_ o)) (ks.map fun kk => priv.contains (if x.rowTable then kk else t % kt * x.tileK + kk))
    let codes := (List.range width).flatMap fun kk => (List.range outs).map fun o =>
      (((blocks.getD (kk / bs) []).getD o (0, [])).2).getD (kk % bs) 0
    let scaleBytes := blocks.flatMap fun row => row.flatMap fun y => leBytes (fmtScaleBytes target) y.1
    let bad := ((List.range width).map fun kk => nonfiniteOf ((List.range outs).map fun o => at_ o kk)).sum
    -- bytes after the last k-step of a tile's rows are zero (R163)
    let bytes := packCodes target codes
    (bad, (s.fencedBytes p data (bytes ++ List.replicate (1024 * x.trows - bytes.length) 0)).fencedBytes p scales scaleBytes)

/-- The scales of the privileged channels of a matrix over every output (R137, R141). -/
def Package.channelScales (k : Package) (stash : List (Nat × List Byte)) (target i : Nat) (x : MatrixRec) : List (Nat × Option W32) :=
  (((k.channels.drop x.chFirst).take x.chCount).map (·.k)).map fun kk =>
    deriveScale 6 (amaxOf ((List.range x.experts).flatMap fun e =>
      (List.range x.out).map fun o => k.sourceWeight stash target i x e o kk))

/-- Those tiles of the INT8-CH matrix of a matrix's privileged channels that lie in a region (R137, R165). -/
def State.seasonChannels (s : State) (p : Part) (m : Model) (stash : List (Nat × List Byte)) (target i : Nat) (x : MatrixRec)
    (region : Nat) : State :=
  match m.pkg.matrices[x.chMatrix]? with
  | none => s
  | some c =>
    let ks := ((m.pkg.channels.drop x.chFirst).take x.chCount).map (·.k)
    let scales := m.pkg.channelScales stash target i x
    let code (e j o : Nat) : Nat :=
      match scales[j]?, ks[j]? with
      | some (_, some sc), some kk => encodeElem 6 (m.pkg.sourceWeight stash target i x e o kk) sc
      | _, _ => 0
    (c.tilesIn region).foldl (fun s t =>
      match (s.part p).tileAddr m c t with
      | none => s
      | some (data, _) =>
        let kt := c.inp / c.tileK
        let e := t / kt / (c.out / 64)
        let g := t / kt % (c.out / 64)
        let bytes := packCodes 6 ((List.range c.tileK).flatMap fun kk => (List.range 64).map fun o =>
          code e (t % kt * c.tileK + kk) (g * 64 + o))
        s.fencedBytes p data (bytes ++ List.replicate (1024 * c.trows - bytes.length) 0)) s

/-- The channel-scale entries of a matrix (R142). -/
def Model.setChannels (m : Model) (x : MatrixRec) (scales : List (Nat × Option W32)) : Model :=
  { m with channels := (List.range m.channels.length).filterMap fun n =>
      (m.channels[n]?).map fun ch =>
        if x.chFirst ≤ n ∧ n < x.chFirst + x.chCount then
          { ch with scale := BitVec.ofNat 32 ((scales.getD (n - x.chFirst) (0, none)).1) }
        else ch }

/-- The sheet billets of a region and its partner copied to their mirrors or peat copies, in the mover's order, after seasoning (R161,
R189, R293). -/
def State.copyMember (s : State) (p : Part) (handle : Nat) (member : List Nat) : State :=
  match (s.part p).model handle with
  | none => s
  | some m =>
    ((s.part p).moverOrder m (member.filter ((s.part p).hasCopy handle))).foldl (fun s x =>
      match (s.part p).billetAddr m x.1 x.2, (s.part p).billetPeat m x.1 x.2 with
      | some a, some c => s.fencedSpill p ((s.part p).relieved handle a) c 4096
      | _, _ => s) s

/-- A region and its partner: one member (R295). -/
def Package.member (k : Package) (region : Nat) : List Nat :=
  match k.regions[region]? with
  | some r => if r.partner = none32 then [region] else [region, r.partner]
  | none => [region]

/-- A region that seasoning writes: the tiles of matrices of the target format, and those of their privileged channels, that lie in it;
its copy in the peat tier is then written, before another region takes the same staging range (R142, R295). -/
def State.seasonRegion (s : State) (p : Part) (m : Model) (stash : List (Nat × List Byte)) (target : Nat) (mats : List Nat)
    (region : Nat) : State :=
  let s := mats.foldl (fun s i =>
    match m.pkg.matrices[i]? with
    | none => s
    | some x =>
      let (bad, s) := (if stash.any fun r => r.1 == region then x.tilesIn region else []).foldl (fun acc t =>
        let (b, s) := acc.2.seasonTile p m stash target i x t
        (acc.1 + b, s)) (0, s)
      let s := s.modPart p fun q => { q with ctr := { q.ctr with sclNonfinite := satAdd q.ctr.sclNonfinite bad } }
      if x.chCount = 0 then s else s.seasonChannels p m stash target i x region) s
  s.copyMember p m.handle (m.pkg.member region)

/-- The pass of R141 over the regions that a load has read in BF16, region by region (R142). [DEDUCED: log 23] -/
def State.season (s : State) (p : Part) (m : Model) (stash : List (Nat × List Byte)) (target : Nat) : State :=
  let regions := stash.map (·.1)
  let mats := (List.range m.pkg.matrices.length).filter fun i => regions.any fun r => (m.pkg.matricesIn r target).contains i
  let chans := mats.flatMap fun i => match m.pkg.matrices[i]? with
    | some x => match m.pkg.matrices[x.chMatrix]? with
      | some c => if x.chCount = 0 then [] else (List.range c.regionCount).map (· + c.regionFirst)
      | none => []
    | none => []
  let all := (regions ++ chans).eraseDups
  let s := s.modPart p fun q => q.modModel m.handle fun y =>
    let y := mats.foldl (fun y i => match m.pkg.matrices[i]? with
      | some x => if x.chCount = 0 then y else y.setChannels x (m.pkg.channelScales stash target i x)
      | none => y) y
    { y with seasoned := (all.flatMap m.pkg.member).foldl setAdd y.seasoned }
  all.foldl (fun s r => s.seasonRegion p m stash target mats r) s

/-! ## The command -/

/-- Body fields of `MODEL_LOAD` (R67); body bytes start at byte 16 of the entry. -/
def Cmd.f (c : Cmd) (o n : Nat) : Nat := field c.body (o - 16) n

/-- The regions that the command names, of a package. -/
def Cmd.loadRegions (c : Cmd) (k : Package) : List Nat :=
  if c.f 40 4 = 0 then List.range k.regions.length else (List.range (c.f 40 4)).map (· + c.f 36 4)

/-- A load of a model by some other command is under way. -/
def State.loadingBy (s : State) (p : Part) (handle : Nat) (id : Option Nat) : Bool :=
  (s.part p).taken.any fun d => d.opcode == 0x10 && d.model == handle && d.started && some d.id != id

/-- A region of a load that is converted (R142). One in which no matrix of TARGET_FORMAT lies gives its billets no place in that
format, of which the manual says nothing: it is loaded as packaged. [DEDUCED: log 23] -/
def Cmd.converts (c : Cmd) (m : Model) (region : Nat) : Bool :=
  c.f 32 1 == 1 && !(m.bound.any fun b => b.1 == region) && !(m.pkg.matricesIn region (c.f 33 1)).isEmpty &&
    match m.pkg.regions[region]? with | some r => r.kind == 0 && r.format == 0 | none => false

/-- A region's billets that the load reads: none where it is bound or carries none. -/
def Model.toRead (m : Model) (region : Nat) : Nat :=
  if m.bound.any fun b => b.1 == region then 0
  else match m.pkg.regions[region]? with | some r => if r.kind ≤ 1 then r.billets else 0 | none => 0

/-- A region is marked written. -/
def State.markWritten (s : State) (p : Part) (handle region : Nat) : State :=
  s.modPart p fun q => q.modModel handle fun m => { m with written := setAdd m.written region }

/-- A region has been written as packaged. -/
def State.markPackaged (s : State) (p : Part) (handle region : Nat) : State :=
  (s.modPart p fun q => q.modModel handle fun m =>
    { m with seasoned := if 0 < m.toRead region then setDel m.seasoned region else m.seasoned }).markWritten p handle region

/-- The load goes on: regions whose billets have all been written are marked, and the next billet is read. Regions that are
converted are marked once the pass has run. -/
def State.loadNext (s : State) (p : Part) (c : Cmd) (written : Nat) : List Nat → Nat → State
  | [], _ =>
    let s := match (s.part p).model c.model, c.stash with
      | some m, x :: xs =>
        (x :: xs).foldl (fun (s : State) (r : Nat × List Byte) => s.markWritten p c.model r.1) (s.season p m c.stash (c.f 33 1))
      | _, _ => s
    s.modCmd (.part p) c.id fun (c : Cmd) => { c with run := .loading [] 0 written, stash := [], started := true }
  | r :: rest, billet =>
    match (s.part p).model c.model with
    | none => s.done (.part p) c stAborted written
    | some m =>
      if billet < m.toRead r then
        let off := match m.pkg.regions[r]? with | some x => x.dataOffset | none => 0
        (s.modCmd (.part p) c.id fun (c : Cmd) => { c with run := .loading (r :: rest) billet written, started := true }).cmdReadRunning
          p c (c.f 16 8 + off + 4096 * billet) 4096
      else
        (if c.converts m r && decide (0 < m.toRead r) then s else s.markPackaged p c.model r).loadNext p c written rest 0

/-- A billet has been read: written, or kept for the pass. [DEDUCED: log 23] -/
def State.loadBillet (s : State) (p : Part) (c : Cmd) (regions : List Nat) (billet written : Nat) (bytes : List Byte) : State :=
  match regions, (s.part p).model c.model with
  | r :: rest, some m =>
    if c.converts m r then
      let old := (lookupA c.stash r).getD []
      let stash := insertA c.stash r (old ++ bytes)
      (s.modCmd (.part p) c.id fun (c : Cmd) => { c with got := [], stash := stash }).loadNext p
        { c with stash := stash } (written + 1) (r :: rest) (billet + 1)
    else
      ((s.writeBillet p c.model r billet bytes).modCmd (.part p) c.id fun (c : Cmd) => { c with got := [] }).loadNext p c
        (written + 1) (r :: rest) (billet + 1)
  | _, _ => s

/-- The control part has passed its checks: the control area is set or kept (R189 step 1), regions bound and relieved, and
the first billet is read. [DEDUCED: log 23] -/
def State.loadControl (s : State) (p : Part) (c : Cmd) (k : Package) : State :=
  let regions := c.loadRegions k
  match s.bindings? p c.model regions with
  | none => s.done (.part p) c stWrongState
  | some bound =>
    let control := c.got.flatten
    let s := s.modPart p fun q =>
      match q.model c.model with
      | some m =>
        if m.control = control then
          q.modModel c.model fun m => { m with bound := bound ++ m.bound.filter fun b => !regions.contains b.1 }
        else { q with models := q.models.map fun x =>
            if x.handle = c.model then Model.mk c.model .loading k control [] bound k.channels none none none [] none [] [] [] else x }
      | none => { q with models := q.models ++ [Model.mk c.model .loading k control [] bound k.channels none none none [] none [] [] []] }
    match (s.part p).model c.model with
    | none => s
    | some m =>
      let s := (regions.filter fun r => decide (0 < m.toRead r)).foldl (fun s r => s.loadRelief p m r) s
      (s.modCmd (.part p) c.id fun (c : Cmd) => { c with got := [] }).loadNext p { c with got := [] } 0 regions 0

/-- Models of a partition that are LOADING or READY. -/
def Partition.heldModels (p : Partition) : Nat := p.models.length

/-- The tests of R188 on the command's own fields and on the handle, before anything is read. [DEDUCED: log 23] -/
def State.loadTest (s : State) (p : Part) (c : Cmd) : Nat :=
  let q := s.part p
  if 1 < c.f 32 1 ∨ (c.f 32 1 = 1 ∧ (c.f 33 1 = 0 ∨ 5 < c.f 33 1)) then stBadField
  else if (q.places.any fun x => x.model == c.model) = false then stBadHandle
  else if (q.model c.model).isNone ∧ 8 ≤ q.heldModels then stBusy
  else if (q.model c.model).any (·.state == .ready) ∨ s.loadingBy p c.model (some c.id) then stWrongState
  else stOk

/-- `MODEL_LOAD`, from its start or after a read of host memory. [DEDUCED: log 23] -/
def State.modelLoad (s : State) (p : Part) (c : Cmd) : State :=
  match c.run with
  | .loading regions billet written =>
    match c.got with
    | [bytes] => s.loadBillet p c regions billet written bytes
    | _ => s
  | _ =>
    let st := if c.started then stOk else s.loadTest p c
    if st ≠ stOk then s.done (.part p) c st
    else match nextNeed (c.f 24 8) c.got with
      | .read off len => s.cmdReadRunning p c (c.f 16 8 + off) len
      | .bad => s.done (.part p) c stBadField
      | .complete =>
        match parsePackage c.got with
        | none => s.done (.part p) c stBadField
        | some k =>
          if k.check (s.part p) c.model (c.f 24 8) (c.f 36 4) (c.f 40 4) then
            if ((s.part p).model c.model).isNone ∧ 8 ≤ (s.part p).heldModels then s.done (.part p) c stBusy
            else s.loadControl p c k
          else s.done (.part p) c stBadField

/-- Every region of a model has been written or bound since its control area was set (R187). -/
def Model.allWritten (m : Model) : Bool :=
  (List.range m.pkg.regions.length).all fun r => m.written.contains r

/-- A load ends (R189 step 3): the model is READY when every region is written. -/
def State.loadEnd (s : State) (p : Part) (c : Cmd) (written : Nat) : State :=
  let s := s.modPart p fun q => q.modModel c.model fun m =>
    if m.allWritten then { m with state := .ready, scratch := q.cutScratch m s.ashList } else m
  s.done (.part p) c stOk written

/-- `MODEL_LOAD` (R188). -/
def execModelLoad (src : Src) (s : State) : Host.Outcome State Fault Refusal :=
  .next (s.forPart src 0x10 s.modelLoad)

/-- `MODEL_LOAD_DONE` (R189): of a load with nothing left to write. -/
def execModelLoadDone (p : Part) (handle : Nat) (s : State) : Host.Outcome State Fault Refusal :=
  .next (
    match (s.part p).taken.find? fun c => c.opcode == 0x10 && c.model == handle &&
        (match c.run with | .loading [] _ _ => true | _ => false) with
    | some c => match c.run with
      | .loading _ _ written => s.loadEnd p c written
      | _ => s
    | none => s)

end Sys2Proof.Machine
end

