-- ==== Sys2Proof/Machine/Season.lean ====
section
/-! DEFINITION. The entries of cache pages: their places and codes (R116, R218), widening (R151), conversion under page scales
(R139, R140, R144), re-seasoning (R148), copies of pages (R150). -/

namespace Sys2Proof.Machine

/-- The sheet address of the 64 elements of element block `b` of place `t` of a page (R116). -/
def entryAddr (page fmt t b : Nat) : Nat := page + b * 4096 * cacheSize fmt + 64 * t * cacheSize fmt

/-- The codes of a place of a page at an address, and whether any of them is poisoned. -/
def State.entryCodes (s : State) (addr fmt n t : Nat) : List Nat × Bool :=
  let blocks := (List.range (ceilDiv n 64)).map fun b => entryAddr addr fmt t b
  (((blocks.flatMap fun a => (List.range 64).map fun i => s.sheet.code (if fmt = 0 then 0 else 8) a i)).take n,
    blocks.any fun a => s.rangePoisoned a (64 * cacheSize fmt))

/-- Codes written to a place of a page: whole 64-byte blocks, padding elements zero (R116, R225). -/
def State.putEntry (s : State) (addr fmt padded t : Nat) (codes : List Nat) : State :=
  (List.range (padded / 64)).foldl (fun s b =>
    let part := (codes.drop (64 * b)).take 64
    let bytes := packCodes (if fmt = 0 then 0 else 8) (part ++ List.replicate (64 - part.length) 0)
    s.putBlocks (entryAddr addr fmt t b / 64) (cutBlocks bytes (cacheSize fmt))) s

/-- The entry of a place as tensors in BF16: from an escape slot where the place has one, else widened by its scales (R147,
R151). -/
def placeValue (sh : ShardRec) (fmt t : Nat) (e : Option ScaleEntry) (esc : Option EscRecord) (codes : List Nat) :
    List W16 × List W16 :=
  let wide : List W16 × List W16 :=
    let (s0, s1) := match e with | some e => (e.scale0, e.scale1) | none => (f32One, f32One)
    (((codes.take sh.dim0).map fun c => widen fmt c s0), (((codes.drop sh.dim0).take sh.dim1).map fun c => widen fmt c s1))
  match e, esc with
  | some e, some r =>
    if 1 ≤ e.escUsed ∧ e.escPos0 = t then (r.slot0.take sh.dim0, r.slot0.drop sh.dim0)
    else if 2 ≤ e.escUsed ∧ e.escPos1 = t then (r.slot1.take sh.dim0, r.slot1.drop sh.dim0)
    else wide
  | _, _ => wide

/-- The entry of a place as tensors in FP32: from an escape slot, else its codes decoded by its scales (R144, R148). -/
def placeReal (sh : ShardRec) (fmt t : Nat) (e : Option ScaleEntry) (esc : Option EscRecord) (codes : List Nat) :
    List W32 × List W32 :=
  let slot (l : List W16) : List W32 × List W32 := ((l.take sh.dim0).map f32OfBf16, (l.drop sh.dim0).map f32OfBf16)
  let wide : List W32 × List W32 :=
    let (s0, s1) := match e with | some e => (e.scale0, e.scale1) | none => (f32One, f32One)
    (((codes.take sh.dim0).map fun c => pageReal fmt c s0), (((codes.drop sh.dim0).take sh.dim1).map fun c => pageReal fmt c s1))
  match e, esc with
  | some e, some r =>
    if 1 ≤ e.escUsed ∧ e.escPos0 = t then slot r.slot0
    else if 2 ≤ e.escUsed ∧ e.escPos1 = t then slot r.slot1
    else wide
  | _, _ => wide

/-- Both tensors in FP32 as codes of a format under an entry's scales (R139, R144). -/
def realEncode (fmt : Nat) (e : ScaleEntry) (t0 t1 : List W32) : List Nat :=
  t0.map (fun x => encodeElem fmt x e.scale0) ++ t1.map fun x => encodeElem fmt x e.scale1

/-- Both tensors as codes of a format under an entry's scales (R139, R144). -/
def entryEncode (fmt : Nat) (e : Option ScaleEntry) (t0 t1 : List W16) : List Nat :=
  match e with
  | some e => realEncode fmt e (t0.map f32OfBf16) (t1.map f32OfBf16)
  | none => (t0 ++ t1).map BitVec.toNat

/-- The largest finite magnitude of a tensor in BF16. -/
def amaxBf (t : List W16) : W32 := amaxOf (t.map f32OfBf16)

/-- Elements of an entry that R140 counts. -/
def nonfiniteBf (t : List W16) : Nat := nonfiniteOf (t.map f32OfBf16)

/-- Scales of a page set from largest magnitudes: `k` times, over qmax (R146, R148). -/
def ScaleEntry.setScales (e : ScaleEntry) (fmt k : Nat) (a0 a1 : W32) : ScaleEntry :=
  { e with scale0 := pageScale fmt k a0, scale1 := pageScale fmt k a1 }

/-- A page-scale entry as it is assigned. -/
def freshEntry : ScaleEntry :=
  { scale0 := pageFloor, scale1 := pageFloor, amax0 := 0, amax1 := 0, escIndex := none, escUsed := 0, escPos0 := 0, escPos1 := 0,
    reseasoned := false, underRange := false, closed := false }

/-- Re-seasoning (R148): the entry with scales over every value, its escape slots empty, and the codes of every place. -/
def reseason (fmt : Nat) (e : ScaleEntry) (vals : List (Nat × List W32 × List W32)) : ScaleEntry × List (Nat × List Nat) :=
  let a0 := amaxOf (vals.flatMap fun v => v.2.1)
  let a1 := amaxOf (vals.flatMap fun v => v.2.2)
  let e := { e.setScales fmt 2 a0 a1 with escIndex := none, escUsed := 0, reseasoned := true }
  (e, vals.map fun v => (v.1, realEncode fmt e v.2.1 v.2.2))

/-- The NaN and infinite elements of the places of a page (R140). -/
def realNonfinite (vals : List (Nat × List W32 × List W32)) : Nat := (vals.map fun v => nonfiniteOf (v.2.1 ++ v.2.2)).sum

/-- A page's address, descriptor, scale entry and escape record, with the addresses of its slots. -/
structure PageView where
  addr : Nat
  desc : PageDesc
  entry : Option ScaleEntry
  esc : Option EscRecord
  escAddrs : Option (Nat × Nat) := none

/-- The escape slot that holds a place of a page (R147). -/
def PageView.escSlot (v : PageView) (t : Nat) : Option Nat :=
  v.entry.bind fun e =>
    if 1 ≤ e.escUsed ∧ e.escPos0 = t then some 0 else if 2 ≤ e.escUsed ∧ e.escPos1 = t then some 1 else none

/-- The sheet address of an escape slot of a page. -/
def PageView.escAt (v : PageView) (slot : Nat) : Option Nat := v.escAddrs.map fun a => if slot = 0 then a.1 else a.2

/-- A page that holds a slot, as its tables have it. -/
def Model.view (m : Model) (page : Nat) : Option PageView :=
  match m.desc page, m.pageAddr page with
  | some d, some a =>
    let e := m.scaleOf page
    let esc := match e.bind (·.escIndex), m.pool[pagePart page]? with
      | some i, some pt => (lookupA pt.escs i).map fun r => (r, pt.escAddr i 0, pt.escAddr i 1)
      | _, _ => none
    some { addr := a, desc := d, entry := e, esc := esc.map (·.1), escAddrs := esc.map (·.2) }
  | _, _ => none

/-- The tensors of a place of an open page, in FP32. -/
def State.readPlace (s : State) (v : PageView) (sh : ShardRec) (t : Nat) : List W32 × List W32 :=
  let fmt := v.desc.fmt.getD sh.format
  placeReal sh fmt t v.entry v.esc (s.entryCodes v.addr fmt (sh.dim0 + sh.dim1) t).1

/-! ## Copies of pages (R150, R227, R280, R281) -/

/-- A scale entry assigned to a page of a part (R217). -/
def PoolPart.giveScale (pt : PoolPart) (n : Nat) (e : ScaleEntry) : PoolPart :=
  match pt.freeScales with
  | [] => pt
  | i :: rest =>
    { pt with freeScales := rest, scales := insertA pt.scales i e, descs := modifyA pt.descs n fun d => { d with scale := some i } }

/-- Update of a page's scale entry. -/
def PoolPart.setScale (pt : PoolPart) (n : Nat) (e : ScaleEntry) : PoolPart :=
  match (lookupA pt.descs n).bind (·.scale) with
  | some i => { pt with scales := insertA pt.scales i e }
  | none => pt

/-- A page copied into a reserved page of a model: bytes, format, VALID, scale entry, and escape slots in a new record; with
the escape pool empty the copy is re-seasoned (R150), and what is poison stays poison (R280). -/
def State.copyPage (s : State) (p : Part) (handle : Nat) (sh : ShardRec) (src dst : Nat) : State :=
  match (s.part p).model handle with
  | none => s
  | some m =>
    match m.view src, m.pageAddr dst with
    | some v, some a =>
      let fmt := v.desc.fmt.getD sh.format
      let s := s.copyRange v.addr a (sh.pageBytes fmt)
      let setPool (s : State) (f : PoolPart → PoolPart) : State :=
        s.modPart p fun q => q.modModel handle fun m => m.modPool (pagePart dst) f
      let s := setPool s fun pt =>
        { pt with descs := modifyA pt.descs (pageNum dst) fun d =>
            { d with fmt := some fmt, valid := v.desc.valid, marked := v.desc.marked } }
      match v.entry with
      | none => s
      | some e =>
        match v.esc with
        | none => setPool s fun pt => pt.giveScale (pageNum dst) { e with escIndex := none }
        | some r =>
          match (m.pool[pagePart dst]?).map (·.freeEscs) with
          | some (i :: rest) =>
            setPool s fun pt => { pt with freeEscs := rest, escs := insertA pt.escs i r }.giveScale (pageNum dst)
              { e with escIndex := some i }
          | _ =>
            let vals := (List.range v.desc.valid).map fun t => (t, s.readPlace v sh t)
            let (e, codes) := reseason fmt e vals
            let bad := s.poisoned.filter fun b => inRange b (a / 64) (sh.pageBytes fmt / 64)
            let s := codes.foldl (fun s c => s.putEntry a fmt sh.padded c.1 c.2) s
            let s := bad.foldl State.poisonBlock s
            let s := setPool s fun pt => pt.giveScale (pageNum dst) e
            s.modPart p fun q => { q with ctr := { q.ctr with
              sclReseason := satAdd q.ctr.sclReseason 1, sclNonfinite := satAdd q.ctr.sclNonfinite (realNonfinite vals) } }
    | _, _ => s

/-- A part whose next slot lies in the bank of a slot, where a free one does. -/
def PoolPart.nearSlot (pt : PoolPart) (slot : Nat) : PoolPart :=
  let bank (k : Nat) : Nat × Nat × Nat := let x := placeOf (pt.slotAddr k); (x.tile, x.die, x.bank)
  match pt.freeSlots.find? fun k => decide (bank k = bank slot) with
  | some k => { pt with freeSlots := k :: pt.freeSlots.erase k }
  | none => pt

/-- A page taken for a copy (R280): a slot of the source's own part first, in the source's bank before others; then by R221. -/
def Model.takeCopy (m : Model) (sh : ShardRec) (src j h l : Nat) : Option (Model × Nat) :=
  let near : Option (PoolPart × Nat) := (m.pool[pagePart src]?).bind fun pt =>
    (match (m.desc src).bind (·.slot) with | some k => pt.nearSlot k | none => pt).take sh.ringLen.isSome
  match near with
  | some (pt, n) => some (m.modPool (pagePart src) fun _ => pt, pagePart src * 2 ^ 24 + n)
  | none => m.takePage sh.ringLen.isSome (pageOrder (m.pkg.shardParts sh) j h l)

end Sys2Proof.Machine
end

