-- ==== Sys2Proof/Machine/Admission.lean ====
section
/-! DEFINITION. Commands on requests, models and indexes that take effect at a step boundary (R65): `REQ_OPEN` and admission
(R261-R263), prefix matches and their copies (R279, R280), `REQ_APPEND`, `REQ_CLOSE`, `REQ_PARK` (R269-R271), `PAGE_RESERVE`
(R228), `INDEX_INSERT`, `INDEX_REMOVE` (R281, R282), `MODEL_UNLOAD` (R191), deadlines (R272). -/

namespace Sys2Proof.Machine

/-- Admission codes (R286). -/
def admitTableFull : Nat := 0x1001
def admitNoPages : Nat := 0x1002
def admitQuota : Nat := 0x1003

/-- Token IDs of a byte list. -/
def tokensOf (bytes : List Byte) : List Nat := (recordsOf bytes 0 4 (bytes.length / 4)).map leNat

/-- REQUEST of a command lies in the partition's share (R253). -/
def Partition.inShare (p : Partition) (h : Nat) : Bool := decide (h < p.share)

/-- A model that is READY. -/
def Partition.ready (p : Partition) (handle : Nat) : Option Model :=
  (p.model handle).bind fun m => if m.state = .ready then some m else none

/-! ## Prefix matches (R279, R280, R205) -/

/-- The path of a prompt in a model's index, to the blocks wholly before its last token. -/
def Model.promptPath (m : Model) (toks : List Nat) : List Nat :=
  match m.index with
  | some ix => ix.path 0 (toks.length / 64 + 1) (toks.take (toks.length - 1))
  | none => []

/-- The depth to which every model of a request has the pages that the match needs. -/
def matchDepth (ms : List (Model × List Nat)) : Nat → Nat
  | 0 => 0
  | d + 1 =>
    if ms.all fun x => decide (d + 1 ≤ x.2.length) &&
        (match x.1.index with | some ix => ix.reduce x.1.pkg.shards x.2 (d + 1) == d + 1 | none => false)
    then d + 1 else matchDepth ms d

/-- The models whose pages a request holds: its own, and the one that drafts for it (R205). -/
def Partition.reqModels (p : Partition) (r : Req) : List Nat :=
  r.model :: (match p.draftOf r with | some d => [d] | none => [])

/-- The walk of a request's tokens (R279): matched blocks, and the partition with LAST_USE of the path set. -/
def Partition.lookup (p : Partition) (r : Req) (toks : List Nat) (now : Time) (ash : List Nat) : Partition × Nat :=
  if r.lookup && p.prefixIndex then
    let handles := p.reqModels r
    let p := handles.foldl (fun p h => p.carveIndex h ash) p
    let ms := handles.filterMap fun h => (p.model h).map fun m => (m, m.promptPath toks)
    let d := matchDepth ms ((ms.map fun x => x.2.length).foldl min toks.length)
    let p := ms.foldl (fun p x => p.modModel x.1.handle fun m =>
      { m with index := m.index.map fun ix => ix.touch (x.2.take d) now }) p
    (p, d)
  else (p, 0)

/-- The depths whose pages a shard's list takes from a match of `m` blocks, in list-entry order (R280). -/
def ShardRec.matchDepths (sh : ShardRec) (m : Nat) : List Nat :=
  match sh.ringLen with
  | none => (List.range m).map (· + 1)
  | some r =>
    (List.range (min m r)).map fun j => m - (m - 1 + r - j) % r

/-- New pages for the list entries of a match, each first in its source's part (R280): the lists, and the copies as model,
shard, source and destination. -/
def Partition.matchLists (p : Partition) (h m : Nat) (toks : List Nat) : List (Nat × Nat × ShardRec) →
    Option (Partition × List Chain × List (Nat × ShardRec × Nat × Nat))
  | [] => some (p, [], [])
  | (handle, i, sh) :: rest =>
    match p.model handle with
    | none => none
    | some md =>
      let path := md.promptPath toks
      let srcOf (d : Nat) : Option Nat :=
        (path[d - 1]?).bind fun n => (md.index.bind fun ix => lookupA ix.nodes n).bind fun nd => (nd.pages[i]?).join
      let step (acc : Option (Model × Chain × List (Nat × ShardRec × Nat × Nat))) (d : Nat) :
          Option (Model × Chain × List (Nat × ShardRec × Nat × Nat)) :=
        acc.bind fun (md, c, l) =>
          (srcOf d).bind fun src =>
            (md.takeCopy sh src c.words.length h i).bind fun (md, page) =>
              (md.push c (match c.words.head? with | some w => pagePart w | none => pagePart page) page).map fun (md, c) =>
                (md, c, l ++ [(handle, sh, src, page)])
      match (sh.matchDepths m).foldl step (some (md, ⟨[], []⟩, [])) with
      | none => none
      | some (md, c, l) =>
        ((p.modModel handle fun _ => md).matchLists h m toks rest).map fun (p, cs, l') => (p, c :: cs, l ++ l')

/-- Tokens of the first split that a reservation covers (R262). -/
def Partition.firstSplit (p : Partition) (left : Nat) : Nat := if p.role.prefillMode = 1 then left else min left p.role.splitSize

/-- Activation of a request that holds no page (R262, R264): its match, its reservation, the copy of the match begun; none
where pages run short. One that was evicted recomputes its whole cache, with no match (R276). -/
def State.activate (s : State) (p : Part) (h : Nat) : Option State :=
  match (s.part p).req h with
  | none => none
  | some r =>
    let toks := r.chain.words
    let q := (s.part p).reqShards r |>.foldl (fun q x => q.carved x.1 s.ashList) (s.part p)
    let (q, m) := if r.evicted then (q, 0) else q.lookup r toks s.now s.ashList
    match q.matchLists h m toks (q.reqShards r) with
    | none => none
    | some (q, lists, copies) =>
      let r := { r with lists := lists }
      match q.reserve h r (64 * m + q.firstSplit (toks.length - 64 * m)) s.ashList with
      | none => none
      | some (q, r) =>
        let addr (x : Nat × ShardRec × Nat × Nat) : Nat := ((q.model x.1).bind fun md => md.pageAddr x.2.2.1).getD 0
        let r := { r with
          state := .opened, prev := .free, queuePos := 0, matched := m, pending := toks.length, evicted := false
          copying := copies.map fun x => (x.1, addr x, x.2.2.2) }
        let s := s.modPart p fun _ => q.modReq h fun _ => r
        some ((copies.foldl (fun s x => s.copyPage p x.1 x.2.1 x.2.2.1 x.2.2.2) s).arrive (some p) (.prefixCopy h))

/-- The prefix copy of a request ends (R280): LENGTH is set, and what the copies read as poison is a cache error of the request. It does
not end while a held die is part of it (R97). [DESIGN CHOICE: log 60] -/
def State.prefixCopied (s : State) (p : Part) (h : Nat) (errs : Errs) : State :=
  match (s.part p).req h with
  | none => s
  | some r =>
    let len (x : Nat × Nat × Nat) : Nat := (s.part p).pageLen x.1 x.2.2
    if r.copying.isEmpty || r.copying.any fun x => s.rangeHeld x.2.1 (len x) then s
    else
      let bad := badOf errs
      let copies := r.copying
      let lens := copies.map len
      let s := (List.zip copies lens).foldl (fun s x => s.readRange (some p) 0 x.1.2.1 x.2 errs) s
      let addr (s : State) (x : Nat × Nat × Nat) : Option Nat := ((s.part p).model x.1).bind fun m => m.pageAddr x.2.2
      let s := (List.zip copies lens).foldl (fun (s : State) x =>
        match addr s x.1 with
        | some a => (List.range (x.2 / 64)).foldl (fun s i =>
            if bad.contains (x.1.2.1 / 64 + i) then s.putBlock (a / 64 + i) [] true else s) s
        | none => s) s
      let s := s.modReq p h fun r =>
        { r with copying := [], length := 64 * r.matched, pending := r.chain.words.length - 64 * r.matched }
      copies.foldl (fun (s : State) x => s.loseArrived p x.1 x.2.2) s

/-- `PREFIX_COPY_DONE` (R280). [DEDUCED: log 46] -/
def execPrefixCopyDone (p : Part) (request : Nat) (errs : Errs) (s : State) : Host.Outcome State Fault Refusal :=
  .next (s.prefixCopied p request errs)

/-! ## `REQ_OPEN` (R261) -/

/-- The sampling block (R67). -/
def samplingOf (b : List Byte) : Sampling :=
  { temperature := BitVec.ofNat 32 (field b 0 4), topK := field b 4 4, topP := BitVec.ofNat 32 (field b 8 4),
    minP := BitVec.ofNat 32 (field b 12 4), seed := field b 16 8, maxNew := field b 24 4, stopToken := field b 28 4 }

/-- Its ranges (R67). -/
def Sampling.ok (x : Sampling) : Bool :=
  f32IsFinite x.temperature && !f32Lt x.temperature f32Zero && f32Lt f32Zero x.topP && !f32Lt f32One x.topP &&
    !f32IsNaN x.topP && !f32IsNaN x.minP && !f32Lt x.minP f32Zero && f32Lt x.minP f32One

/-- The field and handle checks of step 1 (R68, R75, R187). -/
def State.openTest (s : State) (p : Part) (c : Cmd) : Nat :=
  let q := s.part p
  let spec := c.f 30 1
  if c.f 24 4 = 0 ∨ 15 < c.f 29 1 ∨ 32 < spec ∨ c.f 48 1 < 6 ∨ 16 < c.f 48 1 ∨ c.f 40 8 % 64 ≠ 0 then stBadField
  else if c.request ≠ none32 ∧ q.inShare c.request = false then stBadHandle
  else match q.ready c.model with
    | none => stBadHandle
    | some m =>
      if 0 < spec ∧ c.f 31 1 / 8 % 2 = 0 ∧ (q.ready m.pkg.model.draftModel).isNone then stBadField
      else if m.pkg.model.maxPositions ≤ c.f 24 4 then stBadField
      else if c.request ≠ none32 ∧ (q.req c.request).isSome then stWrongState
      else stOk

/-- The entry that a request takes: the one named, or the lowest FREE one (R261 step 2). -/
def Partition.freeEntry (p : Partition) (named : Nat) : Option Nat :=
  if named = none32 then (List.range p.share).find? fun h => (p.req h).isNone else some named

/-- A refusal (R68). -/
def State.refuse (s : State) (p : Part) (c : Cmd) (code : Nat) : State :=
  (s.modPart p fun q => { q with rqt := { q.rqt with refused := satAdd q.rqt.refused 1 } }).done (.part p) c stRefused code

/-- The entry of a new request, before its chain. -/
def Cmd.newReq (c : Cmd) (q : Partition) (now up : Time) (sampling : Sampling) : Req :=
  { state := .queued, genFirst := q.role.prefillMode == 1, priority := c.f 28 1 % 8, policy := BitVec.ofNat 8 (c.f 31 1 % 16)
    model := c.model, pending := c.f 24 4, deadline := c.f 32 8, ringBase := c.f 40 8, ringOrder := c.f 48 1, specWidth := c.f 30 1
    evq := Fin.ofNat 16 (c.f 29 1), sampling := sampling, lastStep := now, admitted := now, chain := ⟨[], []⟩
    lists := [], queuedAt := up }

/-- Steps 4 to 7 of `REQ_OPEN`, once the prompt has been read for the chain. The walk of step 5 sets LAST_USE whatever comes of the
request (R261, R278). -/
def State.admission (s : State) (p : Part) (c : Cmd) (h : Nat) (sampling : Sampling) (toks : List Nat) : State :=
  let q := (s.part p).carved c.model s.ashList
  let r := c.newReq q s.now s.uptime sampling
  match (q.model c.model).bind fun m => m.pushAll h ⟨[], []⟩ toks with
  | none => s.refuse p c admitNoPages
  | some (m, chain) =>
    let q := q.modModel c.model fun _ => m
    let r := { r with chain := chain, lists := (q.reqShards r).map fun _ => ⟨[], []⟩ }
    let walk (q : Partition) : Partition := (q.lookup r toks s.now s.ashList).1
    let before := s.modPart p walk
    let q := walk q
    let s := s.modPart p fun _ => { q with reqs := insertA q.reqs h r, rqt := { q.rqt with admitted := satAdd q.rqt.admitted 1 } }
    if (before.part p).activeCount < (before.part p).activeLimit then
      match s.activate p h with
      | some s =>
        let (m, pages) := match (s.part p).req h with | some r => (r.matched, r.pageCount) | none => (0, 0)
        (s.toReq p h { code := 0x1004, sev := 0, a := 64 * m, b := pages }).done (.part p) c stOk h
      | none =>
        if (s.part p).queueNoPages then (s.tellQueued p h).done (.part p) c stOk h
        else before.refuse p c admitNoPages
    else (s.tellQueued p h).done (.part p) c stOk h

/-- `REQ_OPEN` at a step boundary, from its start or after a read: the sampling block, the prompt, and the prompt again. -/
def State.reqOpen (s : State) (p : Part) (c : Cmd) : State :=
  let st := s.openTest p c
  let vocab := match (s.part p).model c.model with | some m => m.pkg.model.vocab | none => 0
  if st ≠ stOk then s.done (.part p) c st
  else match c.got with
    | [] => s.cmdRead (.part p) c (c.f 52 8) 32
    | b :: rest =>
      if (samplingOf b).ok = false then s.done (.part p) c stBadField
      else match rest with
        | [] => s.cmdRead (.part p) c (c.f 16 8) (4 * c.f 24 4)
        | first :: again =>
          if (tokensOf first).any fun t => decide (vocab ≤ t) then s.done (.part p) c stBadField
          else match (s.part p).freeEntry c.request with
            | none => s.refuse p c admitTableFull
            | some h =>
              if (s.part p).liveLimit ≤ (s.part p).liveCount then s.refuse p c admitQuota
              else match again with
                | [] => s.cmdRead (.part p) c (c.f 16 8) (4 * c.f 24 4)
                | second :: _ =>
                  if (tokensOf second).any fun t => decide (vocab ≤ t) then s.done (.part p) c stBadField
                  else s.admission p c h (samplingOf b) (tokensOf second)

/-! ## `REQ_APPEND` (R269, R203) -/

/-- The request that a command names, or the status that ends the command (R68, R260). -/
def State.named (s : State) (p : Part) (c : Cmd) (body : Nat → Req → State) : State :=
  let q := s.part p
  if q.inShare c.request = false then s.done (.part p) c stBadHandle
  else match q.req c.request with
    | none => s.done (.part p) c stWrongState
    | some r => body c.request r

/-- Prompt tokens appended: the chain grows, and a `DECODE` request becomes `PREFILL`. -/
def State.appendTokens (s : State) (p : Part) (c : Cmd) (h : Nat) (r : Req) (toks : List Nat) : State :=
  match ((s.part p).model r.model).bind fun m => m.pushAll h r.chain toks with
  | none => s.done (.part p) c stRefused admitNoPages
  | some (m, chain) =>
    let r := { r with
      chain := chain
      pending := chain.words.length - r.length
      state := if r.state = .decode then .prefill else r.state
      prev := if (r.state = .parked ∨ r.state = .spilled ∨ r.state = .pageWait) ∧ r.prev = .decode then .prefill else r.prev
      waitFrom := if r.waitFrom = .decode then .prefill else r.waitFrom }
    (s.modPart p fun q => (q.modModel r.model fun _ => m).modReq h fun _ => r).done (.part p) c stOk

/-- The state and field tests of `REQ_APPEND` (R203, R269). -/
def State.appendTest (s : State) (p : Part) (c : Cmd) (r : Req) : Nat :=
  let n := c.f 24 4
  let kind := c.f 28 1
  let maxPos := match (s.part p).model r.model with | some m => m.pkg.model.maxPositions | none => 0
  if r.state.live = false then stWrongState
  else if n = 0 ∨ 1 < kind then stBadField
  else if kind = 0 then (if maxPos < r.chain.words.length + n then stBadField else stOk)
  else if !r.hostDraft ∨ 32 < n ∨ r.specWidth < n then stBadField
  else stOk

/-- `REQ_APPEND` at a step boundary. -/
def State.reqAppend (s : State) (p : Part) (c : Cmd) : State :=
  s.named p c fun h r =>
    let n := c.f 24 4
    let vocab := match (s.part p).model r.model with | some m => m.pkg.model.vocab | none => 0
    let st := s.appendTest p c r
    if st ≠ stOk then s.done (.part p) c st
    else match c.got with
      | [] => s.cmdRead (.part p) c (c.f 16 8) (4 * n)
      | t :: rest =>
        if c.f 28 1 = 0 then
          if (tokensOf t).any fun x => decide (vocab ≤ x) then s.done (.part p) c stBadField
          else s.appendTokens p c h r (tokensOf t)
        else match rest with
          | [] => s.cmdRead (.part p) c (c.f 32 8) n
          | par :: _ =>
            let parents := par.map BitVec.toNat
            let ok := (List.range n).all fun i => parents.getD i 0xFF == 0xFF || decide (parents.getD i 0xFF < i)
            if ok = false ∨ (tokensOf t).any (fun x => decide (vocab ≤ x)) then s.done (.part p) c stBadField
            else (s.modReq p h fun r => { r with tree := some ⟨List.zip (tokensOf t) parents⟩ }).done (.part p) c stOk

/-! ## `REQ_CLOSE` (R260, R271) -/

/-- A `REQ_CLOSE` waits for the END record of its request. -/
def State.waitEnd (s : State) (p : Part) (c : Cmd) : State :=
  s.modCmd (.part p) c.id fun (c : Cmd) => { c with run := .closing, started := true }

/-- `REQ_CLOSE` at a step boundary. -/
def State.reqClose (s : State) (p : Part) (c : Cmd) : State :=
  if 1 < c.f 16 1 then s.done (.part p) c stBadField
  else s.named p c fun h r =>
    if r.state.live = false then
      (s.modPart p fun q => { q with reqs := eraseA q.reqs h }).done (.part p) c stOk
    else if c.f 16 1 = 1 then (s.waitEnd p c).endOnly p h 4
    else if r.state.active then (s.waitEnd p c).modReq p h fun r => { r with closing := true }
    else (s.waitEnd p c).endOnly p h 3

/-! ## `REQ_PARK` (R259, R270) -/

/-- A waiter that leaves its wait keeps no victim. -/
def Partition.noVictims (p : Partition) (h : Nat) : Partition := { p with victims := p.victims.filter fun v => v.1 ≠ h }

/-- `REQ_PARK` at a step boundary. -/
def State.reqPark (s : State) (p : Part) (c : Cmd) : State :=
  if 1 < c.f 16 1 then s.done (.part p) c stBadField
  else s.named p c fun h r =>
    if r.state.live = false then s.done (.part p) c stWrongState
    else if c.f 16 1 = 0 then
      let s := match r.state with
        | .parked => s
        | .spilled => s.modReq p h fun r => { r with held := true }
        | _ =>
          let ask := c.f 17 1 % 2 == 1 && (s.part p).spill
          ((s.modPart p fun q => (q.noVictims h).modReq h fun r =>
            { r.park true with spillAsked := ask, fetchSince := if ask then none else r.fetchSince }).spillPolicy p)
      s.done (.part p) c stOk
    else
      let s := if r.held = false then s
        else match r.state with
          | .parked => s.modPart p fun q => (q.modReq h fun r => { r.unpark s.uptime with spillAsked := false }).number
          | _ => s.modReq p h fun r => { r with held := false }
      s.done (.part p) c stOk

/-! ## `PAGE_RESERVE` (R228) -/

/-- A page of a list that holds no committed position (R217, R228). -/
def Partition.reserved (p : Partition) (handle page : Nat) : Bool :=
  match p.page handle page with | some d => d.valid == 0 | none => false

/-- Reserved pages of a request: those of its lists that hold no committed position. -/
def Partition.reservedCount (p : Partition) (r : Req) : Nat :=
  ((List.zip (p.reqShards r) r.lists).map fun x => (x.2.words.filter (p.reserved x.1.1)).length).sum

/-- The first position that the reserved page of a list entry is for: of a ring, in the lap to come. -/
def ShardRec.nextPos (sh : ShardRec) (j length : Nat) : Nat :=
  match sh.ringLen with
  | none => 64 * j
  | some r => 64 * (ceilDiv length 64 + (j + r - ceilDiv length 64 % r) % r)

/-- The reserved pages of a list that are for positions from `n` on, returned (R228): a ring's list may then lack entries amid others. -/
def Partition.cutReserved (p : Partition) (length n : Nat) (x : Nat × Nat × ShardRec) (c : Chain) : Partition × Chain :=
  let give (j : Nat) : Bool := (match c.words[j]? with | some w => p.reserved x.1 w | none => false) &&
    decide (n ≤ x.2.2.nextPos j length)
  let p := p.modModel x.1 fun m => m.releasePages ((List.range c.words.length).filterMap fun j => if give j then c.words[j]? else none)
  let (c, blocks) := ({ c with words := c.words.mapIdx fun j w => if give j then none32 else w } : Chain).dropHoles.trim
  (p.modModel x.1 fun m => m.giveBlocks blocks, c)

/-- The lists of a request without the reserved pages for positions from `n` on (R228). -/
def Partition.cutLists (p : Partition) (length n : Nat) : List (Nat × Nat × ShardRec) → List Chain → Partition × List Chain
  | x :: xs, c :: cs =>
    let (p, c) := p.cutReserved length n x c
    let (p, cs) := p.cutLists length n xs cs
    (p, c :: cs)
  | _, cs => (p, cs)

/-- `PAGE_RESERVE` at a step boundary. -/
def State.pageReserve (s : State) (p : Part) (c : Cmd) : State :=
  s.named p c fun h r =>
    match r.state with
    | .opened | .prefill | .decode | .pageWait | .parked =>
      let n := r.length + c.f 16 4
      if c.f 20 1 % 2 = 1 then
        let (q, lists) := (s.part p).cutLists r.length n ((s.part p).reqShards r) r.lists
        let r := { r with lists := lists }
        let (q, r) := (q.fixDirectory h r).getD (q, r)
        (s.modPart p fun _ => q.modReq h fun _ => r).done (.part p) c stOk (q.reservedCount r)
      else match (s.part p).reserve h r n s.ashList with
        | some (q, r) => (s.modPart p fun _ => q.modReq h fun _ => r).done (.part p) c stOk (q.reservedCount r)
        | none => s.done (.part p) c stRefused admitNoPages
    | _ => s.done (.part p) c stWrongState

/-! ## The index commands (R281, R282) -/

/-- The page of a block that a request's list still holds, all its positions committed: of a ring shard only where the ring's lap is
that block's. -/
def Model.heldBlock (m : Model) (sh : ShardRec) (c : Chain) (length b : Nat) : Option Nat :=
  let j := sh.entryOf (64 * b)
  if sh.committedIn j length = 64 ∧ sh.posOf j 0 length = 64 * b then
    (c.words[j]?).bind fun w => (m.desc w).bind fun d => if d.valid = 64 then some w else none
  else none

/-- An index node's pages for a block of a request, with their copies; none where pages run short. -/
def Model.nodePages (m : Model) (h b length : Nat) (old : List (Option Nat)) :
    List (Nat × ShardRec × Chain) → Option (Model × List (Option Nat) × List (ShardRec × Nat × Nat))
  | [] => some (m, [], [])
  | (i, sh, c) :: rest =>
    let have_ := (old[i]?).join
    match have_, m.heldBlock sh c length b with
    | some page, _ => (m.nodePages h b length old rest).map fun (m, l, cp) => (m, some page :: l, cp)
    | none, none => (m.nodePages h b length old rest).map fun (m, l, cp) => (m, none :: l, cp)
    | none, some src =>
      match m.takeCopy sh src b h i with
      | none => none
      | some (m, page) =>
        (m.nodePages h b length old rest).map fun (m, l, cp) => (m, some page :: l, (sh, src, page) :: cp)

/-- The words of a node's page chain (R278). -/
def pageWords (l : List (Option Nat)) : List Nat := l.map fun x => x.getD none32

/-- One block inserted below a node: the model, the node, the copies, and whether the node is new. -/
def Model.insertBlock (m : Model) (h b length parent : Nat) (toks : List Nat) (now : Time) (lists : List (Nat × ShardRec × Chain)) :
    Option (Model × Nat × List (ShardRec × Nat × Nat) × Nat) :=
  m.index.bind fun ix =>
    match ix.child parent toks with
    | some n =>
      (lookupA ix.nodes n).bind fun nd =>
        (m.nodePages h b length nd.pages lists).map fun (m, pages, cp) =>
          ({ m with index := m.index.map fun ix => { ix with nodes := modifyA ix.nodes n fun nd =>
              { nd with pages := pages, lastUse := now, chain := { nd.chain with words := pageWords pages } } } }, n, cp, 0)
    | none =>
      match ix.free with
      | [] => none
      | n :: free =>
        (m.nodePages h b length [] lists).bind fun (m, pages, cp) =>
          let take (acc : Option (Model × List Nat)) (_ : Nat) : Option (Model × List Nat) :=
            acc.bind fun (m, l) => (m.takeBlock (partOrder m 0)).map fun (m, k) => (m, l ++ [k])
          ((List.range (ceilDiv pages.length 62)).foldl take (some (m, []))).map fun (m, blocks) =>
            ({ m with index := some { ix with
                free := free
                nodes := insertA ix.nodes n ⟨parent, b + 1, now, toks, pages, ⟨blocks, pageWords pages⟩⟩ } }, n, cp, 1)

/-- Blocks inserted one below another. -/
def Model.insertBlocks (m : Model) (h length : Nat) (now : Time) (lists : List (Nat × ShardRec × Chain)) (toks : List Nat) :
    Nat → Nat → Nat → Option (Model × List (ShardRec × Nat × Nat) × Nat)
  | _, _, 0 => some (m, [], 0)
  | b, parent, k + 1 =>
    (m.insertBlock h b length parent ((toks.drop (64 * b)).take 64) now lists).bind fun (m, n, cp, made) =>
      (m.insertBlocks h length now lists toks (b + 1) n k).map fun (m, cp', made') => (m, cp ++ cp', made + made')

/-- Leaves off the path of an insert removed, oldest first, while it falls short (R281); they stay removed where it is refused. [DEDUCED: log 46] -/
def Model.makeRoom (m : Model) (h length : Nat) (now : Time) (lists : List (Nat × ShardRec × Chain)) (toks : List Nat) (k : Nat) :
    Nat → Model
  | 0 => m
  | fuel + 1 =>
    if (m.insertBlocks h length now lists toks 0 0 k).isSome then m
    else match m.evictLeaf ((m.index.map fun ix => ix.path 0 (k + 1) toks).getD []) with
      | some m => m.makeRoom h length now lists toks k fuel
      | none => m

/-- The lists of a request that belong to one model: shard index, shard and list. -/
def Partition.listsOf (p : Partition) (r : Req) (handle : Nat) : List (Nat × ShardRec × Chain) :=
  (List.zip (p.reqShards r) r.lists).filterMap fun x => if x.1.1 = handle then some (x.1.2.1, x.1.2.2, x.2) else none

/-- Room made for an insert in the index of every model of a request, where eviction is allowed (R281). -/
def Partition.makeRooms (p : Partition) (h : Nat) (r : Req) (now : Time) (toks : List Nat) (k : Nat) (handles : List Nat) :
    Partition :=
  if p.indexEvict then
    handles.foldl (fun (q : Partition) handle => q.modModel handle fun m =>
      m.makeRoom h r.length now (q.listsOf r handle) toks k (match m.index with | some ix => ix.nodes.length | none => 0)) p
  else p

/-- Inserts into every model of a request, all or nothing (R205, R281). -/
def Partition.insertAll (p : Partition) (h : Nat) (r : Req) (now : Time) (toks : List Nat) (k : Nat) :
    List Nat → Option (Partition × List (Nat × ShardRec × Nat × Nat) × Nat)
  | [] => some (p, [], 0)
  | handle :: rest =>
    match p.model handle with
    | none => none
    | some m =>
      (m.insertBlocks h r.length now (p.listsOf r handle) toks 0 0 k).bind fun (m, cp, made) =>
        ((p.modModel handle fun _ => m).insertAll h r now toks k rest).map fun (p, cp', made') =>
          (p, cp.map (fun x => (handle, x)) ++ cp', made + made')

/-- Every page of the first `n` positions that a request's lists hold lies in sheet memory; a full-context list holds all. -/
def Partition.pagesIn (p : Partition) (r : Req) (n : Nat) : Bool :=
  (List.zip (p.reqShards r) r.lists).all fun x =>
    (List.range (n / 64)).all fun b =>
      match (p.model x.1.1).bind fun m => m.heldBlock x.1.2.2 x.2 r.length b with
      | some page => (match p.page x.1.1 page with | some d => d.loc == .sheet | none => false)
      | none => x.1.2.2.ringLen.isSome

/-- `INDEX_INSERT` at a step boundary: nodes and pages are made, and the copies begin. [DEDUCED: log 46] -/
def State.indexInsert (s : State) (p : Part) (c : Cmd) : State :=
  s.named p c fun h r =>
    let n := c.f 16 4
    if r.state.live = false then s.done (.part p) c stWrongState
    else if n % 64 ≠ 0 ∨ r.length < n then s.done (.part p) c stBadField
    else if (s.part p).pagesIn r n = false then s.done (.part p) c stWrongState
    else if (s.part p).prefixIndex = false then s.done (.part p) c stRefused admitNoPages
    else
      let handles := (s.part p).reqModels r
      let q := handles.foldl (fun (q : Partition) x => q.carveIndex x s.ashList) (s.part p)
      let q := q.makeRooms h r s.now (r.chain.words.take n) (n / 64) handles
      match q.insertAll h r s.now (r.chain.words.take n) (n / 64) handles with
      | none => (s.modPart p fun _ => q).done (.part p) c stRefused admitNoPages
      | some (q, copies, made) =>
        let s := s.modPart p fun _ => q
        let s := copies.foldl (fun s x => s.copyPage p x.1 x.2.1 x.2.2.1 x.2.2.2) s
        if copies.isEmpty then s.done (.part p) c stOk made
        else s.modCmd (.part p) c.id fun (c : Cmd) =>
          { c with started := true, run := .inserting (copies.map fun x => (x.2.2.1, x.2.2.2)) made }

/-- `INDEX_COPY_DONE` (R281): the oldest insert whose copies ran completes. [DEDUCED: log 46] -/
def execIndexCopyDone (p : Part) (s : State) : Host.Outcome State Fault Refusal :=
  .next (
    match (s.part p).taken.find? fun c => (match c.run with | .inserting _ _ => true | _ => false) with
    | some c => match c.run with
      | .inserting _ made => s.done (.part p) c stOk made
      | _ => s
    | none => s)

/-- `INDEX_REMOVE` (R282): the node at the end of a path and its subtree; every node for an empty prefix. [DEDUCED: log 46] -/
def State.indexRemove (s : State) (p : Part) (c : Cmd) : State :=
  let n := c.f 24 4
  if n % 64 ≠ 0 then s.done (.part p) c stBadField
  else match (s.part p).ready c.model with
    | none => s.done (.part p) c stBadHandle
    | some m =>
      if n = 0 then (s.modPart p fun q => q.modModel c.model Model.emptyIndex).done (.part p) c stOk
      else match c.got with
        | [] => s.cmdRead (.part p) c (c.f 16 8) (4 * n)
        | b :: _ =>
          let path := match m.index with | some ix => ix.path 0 (n / 64 + 1) (tokensOf b) | none => []
          let s := match path.getLast? with
            | some node => if path.length = n / 64 then s.modPart p fun q => q.modModel c.model fun m => (m.dropTree node).2 else s
            | none => s
          s.done (.part p) c stOk

/-- The read of host memory that a command waiting for a step boundary issues meanwhile: the one that its tests, as they stand now,
lead to. They are made again at the boundary. -/
def State.nextRead (s : State) (p : Part) (c : Cmd) : Option (Nat × Nat) :=
  match c.opcode, c.got with
  | 0x01, [] => if s.openTest p c = stOk then some (c.f 52 8, 32) else none
  | 0x01, [b] => if s.openTest p c = stOk ∧ (samplingOf b).ok then some (c.f 16 8, 4 * c.f 24 4) else none
  | 0x01, [_, _] =>
    if s.openTest p c = stOk ∧ ((s.part p).freeEntry c.request).isSome ∧ (s.part p).liveCount < (s.part p).liveLimit
    then some (c.f 16 8, 4 * c.f 24 4) else none
  | 0x02, [] =>
    match (s.part p).req c.request with
    | some r => if s.appendTest p c r = stOk then some (c.f 16 8, 4 * c.f 24 4) else none
    | none => none
  | 0x02, [_] => if c.f 28 1 = 1 then some (c.f 32 8, c.f 24 4) else none
  | 0x31, [] => if 0 < c.f 24 4 ∧ c.f 24 4 % 64 = 0 ∧ ((s.part p).ready c.model).isSome then some (c.f 16 8, 4 * c.f 24 4) else none
  | _, _ => none

/-- A consumed command waits for its boundary, its next read of host memory on its way. -/
def State.await (s : State) (p : Part) (c : Cmd) : State :=
  match s.nextRead p c with
  | some (addr, len) => s.cmdRead (.part p) c addr len
  | none => s.modCmd (.part p) c.id fun (c : Cmd) => { c with started := true }

/-! ## `MODEL_UNLOAD` (R191) -/

/-- `MODEL_UNLOAD` at a step boundary. -/
def State.modelUnload (s : State) (p : Part) (c : Cmd) : State :=
  match (s.part p).model c.model with
  | none => s.done (.part p) c stBadHandle
  | some _ =>
    let q := s.part p
    let users := (q.reqs.filter fun x => x.2.state.live && q.uses x.2 c.model).map (·.1)
    if s.loadingBy p c.model none then s.done (.part p) c stWrongState
    else if 0 < s.bindings p c.model then s.done (.part p) c stBusy
    else if !users.isEmpty && c.f 16 1 % 2 == 0 then s.done (.part p) c stBusy
    else
      let s := s.waitEnd p c
      (users.foldl (fun s h => s.endOnly p h 4) s).settle p

/-! ## Deadlines and END-only records (R271, R272) -/

/-- The deadline of a request that takes part in no step has passed: it expires, or with CONTINUE is marked once (R272). -/
def State.deadline (s : State) (p : Part) (h : Nat) : State :=
  match (s.part p).req h with
  | none => s
  | some r =>
    if s.trusted && r.state.live && r.deadline ≠ 0 && decide (r.deadline ≤ s.now) && !r.deadlinePassed && r.endAs.isNone then
      if r.continues then
        (s.toReq p h { code := 0x0012, sev := 1, a := r.deadline, b := r.missedAt }).modReq p h fun r =>
          { r with deadlinePassed := true }
      else s.endOnly p h 5
    else s

/-- `DEADLINE_REACHED` (R272): at a step boundary, of a request that no step has taken. -/
def execDeadlineReached (p : Part) (request : Nat) (s : State) : Host.Outcome State Fault Refusal :=
  .next (
    match (s.part p).req request with
    | some r =>
      if (s.part p).atBoundary && !(s.part p).inStep request && r.deadline ≠ 0 && s.trusted then
        (s.ringTo r.deadline).deadline p request
      else s
    | none => s)

/-- `END_ONLY_RECORD` (R271): of a request that waits for a slot of its ring. [DEDUCED: log 49] -/
def execEndOnlyRecord (p : Part) (request : Nat) (s : State) : Host.Outcome State Fault Refusal :=
  .next (
    match (s.part p).req request with
    | some r => match r.endAs with
      | some e => if (s.part p).atBoundary then s.endOnly p request e else s
      | none => s
    | none => s)

end Sys2Proof.Machine
end

