-- ==== Sys2Proof/Machine/Peat.lean ====
section
/-! DEFINITION. The peat tier: reads and scrub of chunks (R289, R290), arbitration (R294), refetch, lost sources and supply
(R300-R302), margining (R303, R304), and the copies of pages to it and back (R232, R233). -/

namespace Sys2Proof.Machine

/-! ## Reads of chunks -/

/-- A chunk that lies in a channel held for margining is not served (R303). -/
def State.chunkHeld (s : State) (c : Nat) : Bool := s.peatMargin.held && bitsOf s.peatMargin.sel 8 0 == c % 512

/-- Some chunk of a range lies in a held channel, of which no cell is touched (R303). -/
def State.chunksHeld (s : State) (c n : Nat) : Bool := s.peatMargin.held && (List.range (min n 512)).any fun i => s.chunkHeld (c + i)

/-- What a partition's read of a chunk found, beside what it delivers (R289): counted, and an UNCORRECTABLE one reported. An error
that the decoder misses stands in the chunk, which delivers it from then on (R82). [DESIGN CHOICE: log 5; DEDUCED: log 45] -/
def State.countChunk (s : State) (p : Part) (c : Nat) (o : Outcome) : State :=
  let fixed (s : State) : State := s.count p fun x => { x with peatCorr := satAdd x.peatCorr 1 }
  match o with
  | .clean => s
  | .missed data k =>
    let s := s.putChunk c data false
    if k && !s.peatRetired then fixed s else s
  | .corrected _ => if (s.chunk c).2 then s else fixed s
  | .uncorrectable =>
    if (s.chunk c).2 then s
    else
      ((s.count p fun x => { x with peatUncorr := satAdd x.peatUncorr 1 }).countDeferred p).toLadder [p]
        { code := 0x3001, sev := 3, a := locPeat c, b := 3 }

/-- A partition's read of `n` chunks with the outcomes that are not CLEAN. -/
def State.countChunks (s : State) (p : Part) (c n : Nat) (errs : Errs) : State :=
  errs.foldl (fun s e => if inRange e.1 c n then s.countChunk p e.1 e.2 else s) s

/-- `PEAT_READ` (R289): outside the partition's peat memory the read is dropped and delivers poison (R34). -/
def execPeatRead (p : Part) (chunk : Nat) (outcome : Outcome) (s : State) : Host.Outcome State Fault Refusal :=
  .next (
    if (s.part p).peatReadable (chunk / 8192) then
      if s.chunkHeld chunk then s
      else
        let s := s.countChunk p chunk outcome
        let (bytes, poison) := s.chunk chunk
        let bad := poison || outcome == .uncorrectable
        s.send (.block (if bad then List.replicate 256 0 else bytes) bad)
    else (s.send (.block (List.replicate 256 0) true)).fenceViolation p (chunk / 8192) 0)

/-- `PEAT_SCRUB_READ` (R290): a CORRECTED chunk is written back as it reads, an UNCORRECTABLE one stays and is counted. -/
def execPeatScrubRead (chunk : Nat) (outcome : Outcome) (s : State) : Host.Outcome State Fault Refusal :=
  .next (
    if !s.peatCtrl.getLsbD 31 || s.chunkHeld chunk || s.peatRetired || decide (peatSegs * 8192 ≤ chunk) ||
        s.peatPoisoned.contains chunk then s
    else match outcome with
      | .uncorrectable => { s with peatScrubBad := s.peatScrubBad + 1 }
      | .missed data _ => s.putChunk chunk data false
      | _ => s)

/-! ## Staging sets (R295-R298) -/

/-- A region that must be staged before a program reads it: peat-resident and not alone in its staging set. -/
def Partition.mustStage (p : Partition) (m : Model) (region : Nat) : Bool :=
  (match p.place m.handle region with | some pl => pl.residence == 1 | none => false) && !p.alone m region

/-- A region is in place for a program to read. -/
def Partition.inPlace (p : Partition) (m : Model) (region : Nat) : Bool := !p.mustStage m region || m.staged.contains region

/-- Two regions share a staging range. -/
def Partition.sameRange (p : Partition) (handle a b : Nat) : Bool :=
  match p.place handle a, p.place handle b with
  | some x, some y => x.sheetFirst == y.sheetFirst && x.sheetCount == y.sheetCount
  | _, _ => false

/-- Descriptors left in the program in which a run stands name a region. -/
def Package.readsNow (k : Package) (run : ModelRun) (region : Nat) : Bool :=
  !run.finished && ((k.programOf run.prog).drop run.pc).any fun d => (k.descRegions d).contains region

/-- The programs of a run still to be finished in the step: the one it stands in, where a descriptor left in it names the
region, and those after it. -/
def Package.stillReads (k : Package) (run : ModelRun) (region : Nat) : List Nat :=
  if run.finished then []
  else
    (if k.readsNow run region then [run.prog] else []) ++
      ((List.range k.runLength).filter fun g => decide (run.prog < g) && (k.programRegions g).contains region)

/-- The first program of the step in progress that still reads a region. -/
def Partition.nextUse (p : Partition) (m : Model) (region : Nat) : Option Nat :=
  (p.step.bind fun st =>
    ((st.runs.filter fun r => r.handle == m.handle).flatMap fun r => m.pkg.stillReads r region).min?)

/-- The first program that reads a region at all. -/
def Package.firstUse (k : Package) (region : Nat) : Option Nat :=
  (List.range k.runLength).find? fun g => (k.programRegions g).contains region

/-- Whether the next step has chosen a request of a model. -/
def Partition.formedModel (p : Partition) (handle : Nat) : Bool :=
  match p.formed with
  | some f => f.picks.any fun x => match p.req x.req with
    | some r => r.model == handle || p.draftOf r == some handle
    | none => false
  | none => false

/-- The occupant of a region's staging range that a program in progress has still to read. -/
def Partition.occupied (p : Partition) (m : Model) (region : Nat) : Bool :=
  m.staged.any fun g => p.sameRange m.handle region g && (match p.step with
    | some st => st.runs.any fun run => run.handle == m.handle && run.started && m.pkg.readsNow run g
    | none => false)

/-- A region's stream may run (R296): no program in progress has still to read its range's occupant, and it is the next of its set that
a program reads, in the step in progress or, once that needs none, in the next one. A partition that does not run streams for no next
step (R298). -/
def Partition.mayStream (p : Partition) (m : Model) (region : Nat) : Bool :=
  p.mustStage m region && !m.staged.contains region && !p.occupied m region &&
    (let set := (List.range m.pkg.regions.length).filter fun g => p.mustStage m g && p.sameRange m.handle region g
     let uses := set.filterMap fun g => (p.nextUse m g).map fun n => (n, g)
     let order (l : List (Nat × Nat)) : Option Nat := (sortBy (fun a b => decide (a.1 < b.1)) l).head?.map (·.2)
     let next := match order uses with
       | some g => some g
       | none =>
         if p.st == .running && p.formedModel m.handle then order (set.filterMap fun g => (m.pkg.firstUse g).map fun n => (n, g))
         else none
     match next with
     | some g => (m.pkg.member g).contains region
     | none => false)

/-- Streams that may now run come to the channels (R294, R296). -/
def State.noteStreams (s : State) (p : Part) : State :=
  (s.part p).models.foldl (fun s m => (List.range m.pkg.regions.length).foldl (fun s g =>
    if (s.part p).mayStream m g then
      if s.arrivals.any fun x => x.1 == (some p, .stream m.handle g) then s else s.arrive (some p) (.stream m.handle g)
    else { s with arrivals := s.arrivals.filter fun x => x.1 ≠ (some p, .stream m.handle g) }) s) s

/-! ## Channels (R14, R287, R288) -/

/-- The site whose frame has a peat channel, its local number there, and its package (R287). -/
def channelSite (n : Nat) : Nat :=
  if n < 480 then
    let e := n % 24
    if e < 6 then e + 1 else if e < 12 then (e - 5) * 8 + 7 else if e < 18 then 7 * 8 + (18 - e) else (24 - e) * 8
  else match (n - 480) % 4 with | 0 => 0 | 1 => 7 | 2 => 56 | _ => 63
def channelLocal (n : Nat) : Nat := if n < 480 then n / 24 else (n - 480) / 4
def channelPackage (n : Nat) : Nat := channelLocal n / 4

/-- Where a chunk lies (R288): its channel, and there its group of seven and its place in it. -/
structure ChunkPlace where
  channel : Nat
  group : Nat
  place : Nat
  deriving DecidableEq, Repr

/-- The map of chunks to channels (R288). -/
def chunkPlace (c : Nat) : ChunkPlace := { channel := c % 512, group := c / 512 / 7, place := c / 512 % 7 }

/-! ## Arbitration (R90, R91, R294) -/

/-- Some chunk of a byte range of peat memory lies in a channel. -/
def onChannel (channel : Nat) (x : Nat × Nat) : Bool :=
  decide (0 < x.2) && (decide (512 * 256 ≤ x.2) || inRange ((channel + 512 - x.1 / 256 % 512) % 512) 0 (ceilDiv x.2 256))

/-- Some segment of a byte range of sheet memory lies in a die of a stack. -/
def onDie (tile die : Nat) (x : Nat × Nat) : Bool :=
  let lo := max (x.1 / segBytes) (tile * stackSegs)
  let hi := min ((x.1 + x.2 - 1) / segBytes + 1) ((tile + 1) * stackSegs)
  decide (0 < x.2) && decide (lo < hi) && inRange ((die + 16 - lo % 16) % 16) 0 (hi - lo)

/-- A transfer that goes on: whose, its class in the peat tier and at the dies (none where it has no part there), and the memory that it
reads or writes. -/
structure Transfer where
  part : Option Part
  kind : XferKind
  peatClass : Option Nat
  dieClass : Option Nat
  sheet : List (Nat × Nat)
  peat : List (Nat × Nat)

/-- Every peat address, and every sheet address. -/
def allPeat : Nat × Nat := (0, peatSegs * segBytes)
def allSheet : Nat × Nat := (0, 128 * stackSegs * segBytes)

/-- The byte ranges of a model's billets in sheet memory. -/
def Partition.modelSheet (p : Partition) (handle : Nat) : List (Nat × Nat) :=
  (p.places.filter fun x => x.model == handle).map fun x => (x.sheetFirst * segBytes, x.sheetCount * segBytes)

/-- The copies of pages that are on their way: spills, fetches and moves. -/
def Partition.pageTransfers (p : Partition) (me : Part) : List Transfer :=
  p.allPages.flatMap fun x =>
    match (p.model x.1).bind fun m => m.pool[pagePart x.2.1]? with
    | none => []
    | some pt =>
      let len := p.pageLen x.1 x.2.1
      let at_ (k : Option Nat) : List (Nat × Nat) := match k with | some k => [(pt.slotAddr k, len)] | none => []
      let peat := match x.2.2.peat with | some (a, n) => [(4096 * a, 4096 * n)] | none => []
      (match x.2.2.loc with
        | .spilling => [⟨some me, .spill x.1 x.2.1, some 2, some 3, at_ x.2.2.slot, peat⟩]
        | .fetching => [⟨some me, .fetch x.1 x.2.1, some 1, some 3, at_ x.2.2.slot, peat⟩]
        | _ => []) ++
      if x.2.2.moving.isSome then [⟨some me, .move x.1 x.2.1, none, some 3, at_ x.2.2.slot ++ at_ x.2.2.moving, []⟩] else []

/-- Refetches, streams, loads, prefix copies, reliefs and zeroising of a partition that are on their way. -/
def Partition.otherTransfers (p : Partition) (repairs : List Repair) (me : Part) : List Transfer :=
  let billet (handle region b : Nat) : List (Nat × Nat) × List (Nat × Nat) :=
    match p.model handle with
    | some m => ((p.billetAddr m region b).toList.map fun a => (p.relieved handle a, 4096),
        (p.billetPeat m region b).toList.map fun a => (a, 4096))
    | none => ([], [])
  ((repairs.filter fun r => r.part == me && r.phase == .refetch).map fun r =>
    let x := billet r.handle r.region r.billet
    ⟨some me, .refetch r.handle r.region r.billet, some 1, some 3, x.1, x.2⟩) ++
  (p.models.flatMap fun m => (List.range m.pkg.regions.length).filterMap fun g =>
    if p.mayStream m g then (p.place m.handle g).map fun pl =>
      ⟨some me, .stream m.handle g, some (if (p.nextUse m g).isSome then 0 else 1), some 3,
        [(pl.sheetFirst * segBytes, pl.sheetCount * segBytes)], [(pl.peatFirst * segBytes, pl.peatCount * segBytes)]⟩
    else none) ++
  (p.taken.filterMap fun c => match c.run with
    | .loading _ _ _ => some ⟨some me, .load c.model, some 3, some 3, p.modelSheet c.model, [allPeat]⟩
    | _ => none) ++
  (p.reqs.filterMap fun x =>
    if x.2.copying.isEmpty then none
    else some ⟨some me, .prefixCopy x.1, none, some 2, x.2.copying.flatMap fun y =>
      (y.2.1, p.pageLen y.1 y.2.2) :: (((p.model y.1).bind fun m => m.pageAddr y.2.2).toList.map fun a => (a, p.pageLen y.1 y.2.2)), []⟩) ++
  ((p.relief.filter fun r => !r.copied).map fun r =>
    ⟨some me, .relief r.segment, none, some 3, [(r.segment * segBytes, segBytes), (r.relief * segBytes, segBytes)], []⟩) ++
  if p.zeroising then [⟨some me, .zeroise, some 3, some 3, [allSheet],
    match p.fence with | some f => [(f.peatRw.first * segBytes, f.peatRw.count * segBytes)] | none => []⟩] else []

/-- Writes of supplied billets that have their data (R302). -/
def State.supplies (s : State) (c : Cmd) : List Transfer :=
  if c.opcode = 0x51 ∧ c.got ≠ [] then
    let p : Option Part := if c.f 33 1 = 0xFF then s.partOf s.ownerPort else if c.f 33 1 < 4 then some (Fin.ofNat 4 (c.f 33 1)) else none
    match p.bind fun p => (s.part p).model c.model |>.map fun m => (p, m) with
    | some (p, m) =>
      [⟨some p, .supply c.model (c.f 16 4) (c.f 20 4), some 2, some 3,
        ((s.part p).billetAddr m (c.f 16 4) (c.f 20 4)).toList.map fun a => ((s.part p).relieved c.model a, 4096),
        ((s.part p).billetPeat m (c.f 16 4) (c.f 20 4)).toList.map fun a => (a, 4096)⟩]
    | none => []
  else []

/-- Every transfer that goes on. Reads and writes that are a command of their own are served as they come, and stand in no queue. [DEDUCED: log 47] -/
def State.transfers (s : State) : List Transfer :=
  (allParts.flatMap fun p =>
    (s.part p).pageTransfers p ++ (s.part p).otherTransfers s.repairs p ++ (s.part p).taken.flatMap s.supplies) ++
  s.ownerTaken.flatMap s.supplies ++
  (if s.bist.phase == .save || s.bist.phase == .restore then
    [⟨none, .selfTest, some 3, some 3, [(siteHome s.sites s.bist.site * stackSegs * segBytes, stackSegs * segBytes)], [allPeat]⟩] else []) ++
  [⟨none, .scrub, if s.peatCtrl.getLsbD 31 then some 3 else none, if s.memScrub.getLsbD 31 then some 3 else none, [allSheet], [allPeat]⟩]

/-- A transfer in a controller's queue: its class there, promotions counted, and since when it stands in it. [DEDUCED: log 47] -/
def State.standing (s : State) (t : Transfer) (pl : XferAt) (cls : Nat) : Nat × Time :=
  match s.xfers.find? fun y => y.part == t.part && y.kind == t.kind && y.place == pl with
  | some y => if y.cls ≤ cls then (y.cls, y.since) else (cls, y.since)
  | none => (cls, match s.arrivals.find? fun x => x.1 == (t.part, t.kind) with | some x => x.2 | none => 0)

/-- The transfers in the queue of a peat channel, with their classes (R294). [DEDUCED: log 47] -/
def State.channelQueue (s : State) (channel : Nat) : List (Transfer × Nat) :=
  s.transfers.filterMap fun t => t.peatClass.bind fun c => if t.peat.any (onChannel channel) then some (t, c) else none

/-- The transfers in the queue of a die, with their classes (R90). -/
def State.dieTransfers (s : State) (die : DieId) : List (Transfer × Nat) :=
  let home := siteHome s.sites die.site
  s.transfers.filterMap fun t => t.dieClass.bind fun c => if t.sheet.any (onDie home die.die.val) then some (t, c) else none

/-- A transfer that has waited moves up one class in a queue, and its age there starts anew; one in the first class never moves.
Promotions of transfers that have ended are forgotten. [DESIGN CHOICE: log 6; DEDUCED: log 47] -/
def State.promote (s : State) (pl : XferAt) (arb : W32) (queue : List (Transfer × Nat)) (index : Nat) : State :=
  let live := s.xfers.filter fun y => decide (y.place ≠ pl) || queue.any fun x => x.1.part == y.part && x.1.kind == y.kind
  match queue[index]? with
  | none => { s with xfers := live }
  | some (t, c) =>
    let (cls, since) := s.standing t pl c
    if cls = 0 then { s with xfers := live }
    else
      let s := s.passTo (since + arbWait arb cls)
      { s with xfers := (live.filter fun y => !(y.part == t.part && y.kind == t.kind && y.place == pl)) ++
          [Xfer.mk t.part t.kind pl (cls - 1) s.uptime] }

/-- `PEAT_ARB_AGE_PROMOTE` (R294): a command that has waited moves up one class on its channel. [DEDUCED: log 47] -/
def execPeatArbAgePromote (channel : Fin 512) (index : Nat) (s : State) : Host.Outcome State Fault Refusal :=
  .next (s.promote (.channel channel.val) s.peatArb (s.channelQueue channel.val) index)

/-- `ARB_AGE_PROMOTE` (R91): a queued command that has waited moves up one class, and its age there starts anew; one in P0 never
moves. The sequences of a die come first, then the transfers. [DESIGN CHOICE: log 6; DEDUCED: log 47] -/
def execArbAgePromote (die : DieId) (index : Nat) (s : State) : Host.Outcome State Fault Refusal :=
  .next (
    match (s.dieQueue die)[index]? with
    | none => s.promote (.die (dieKey die.site die.die.val)) s.memArb (s.dieTransfers die) (index - (s.dieQueue die).length)
    | some q =>
      if q.cls = 0 then s
      else
        let s := s.passTo (q.aged + s.ageWait q.cls)
        { s with seqs := s.seqs.map fun x => if x.id = q.id then { x with cls := x.cls - 1, aged := s.uptime } else x })

/-! ## Refetch, supply, timeout (R300-R302) -/

/-- The repair of a billet is over: its record goes, and `WEIGHT_REPAIR_DONE` is told (R301). -/
def State.repaired (s : State) (r : Repair) (how : Nat) : State :=
  let s := s.modRepairs r.part fun l => l.filter fun x =>
    !(x.part == r.part && x.handle == r.handle && x.region == r.region && x.billet == r.billet)
  (s.toConcerned r.part r.handle r.region 0x2031 0 how how).sweep

/-- `REFETCH_DONE` (R300): the billet is written again, or its source is lost (R302). While a chunk of it lies in a held channel, or its
sheet position in a held die, it is not served (R97, R303). [DEDUCED: log 48; DESIGN CHOICE: log 60] -/
def execRefetchDone (p : Part) (handle region billet : Nat) (errs : Errs) (s : State) : Host.Outcome State Fault Refusal :=
  .next (
    match s.repair? p handle region billet, (s.part p).model handle with
    | some r, some m =>
      if r.phase = .refetch then
        match (s.part p).billetPeat m region billet with
        | none => s
        | some a =>
          let c := a / 256
          if s.chunksHeld c 16 || (match (s.part p).billetAddr m region billet with | some a => s.rangeHeld ((s.part p).relieved m.handle a) 4096 | none => false) then s
          else
          let bad := badOf errs
          let s := if (s.peatBreach p a 4096 false).isNone then s.countChunks p c 16 errs else s
          let (s, ok) := s.refetchBillet p m region billet bad
          if ok then s.repaired r 0 else (s.sourceLost p handle region billet).sweep
      else s
    | _, _ => s)

/-- Requests of every model that owns or binds a billet, active now (R302). -/
def State.billetRequests (s : State) (p : Part) (handle region : Nat) : List (Part × Nat × Nat) :=
  (s.concerned p handle region).flatMap fun x =>
    ((s.part x.1).reqs.filter fun y => y.2.state.active && (s.part x.1).uses y.2 x.2).map fun y => (x.1, x.2, y.1)

/-- A request faults for a billet whose supply has timed out (R302). -/
def State.supplyFault (s : State) (q : Part) (handle region billet h : Nat) : State :=
  match (s.part q).req h with
  | none => s
  | some r => s.faultOut q h { code := 0x2033, sev := 3, a := handle * 2 ^ 32 + region, b := billet * 2 ^ 32 + r.length }

/-- `SUPPLY_TIMEOUT` (R302): of a loss whose timeout is not 0, when that time has run. A request of a step in progress faults when it commits. [DESIGN CHOICE: log 6] -/
def execSupplyTimeout (p : Part) (handle region billet : Nat) (s : State) : Host.Outcome State Fault Refusal :=
  .next (
    match s.repair? p handle region billet with
    | none => s
    | some r => match r.phase with
      | .lost since false =>
        if s.peatSupplyTimeout = 0 then s
        else
          let s := s.passTo (since + s.peatSupplyTimeout.toNat * 1000000)
          let s := s.modRepair p handle region billet fun r => { r with phase := .lost since true }
          (s.billetRequests p handle region).foldl (fun s x =>
            if (match (s.part x.1).step with | some st => st.picks.any fun y => y.req == x.2.2 | none => false) then s
            else s.supplyFault x.1 x.2.1 region billet x.2.2) s
      | _ => s)

/-- The loss that a supply names (R302). -/
def State.lossOf (s : State) (p : Part) (handle region billet : Nat) : Option Repair :=
  (s.repair? p handle region billet).bind fun r => match r.phase with | .lost _ _ => some r | _ => none

/-- Bytes of a supplied billet written to its peat copy, where it has one, and to its sheet position (R302, R341). -/
def State.writeSupply (s : State) (p : Part) (m : Model) (region billet : Nat) (bytes : List Byte) : State :=
  let q := s.part p
  let s := if q.hasSource m region || q.mustStage m region then
      match q.billetPeat m region billet with
      | some a => s.fencedPeat p a bytes
      | none => s
    else s
  match q.billetAddr m region billet with
  | some a => if q.mustStage m region then s else s.fencedPut p (q.relieved m.handle a) (cutBlocks bytes 64)
  | none => s

/-- A supply whose data have come (R302): it is matched against the loss again. It waits while its memory is held (R97, R303). [DEDUCED: log 48; DESIGN CHOICE: log 60] -/
def State.supplyBytes (s : State) (src : Src) (c : Cmd) (part : Option Part) (bytes : List Byte) : State :=
  let region := c.f 16 4
  let billet := c.f 20 4
  match part.bind fun p => (s.lossOf p c.model region billet).bind fun loss => ((s.part p).model c.model).map fun m => (p, loss, m) with
  | none => s.done src c stWrongState
  | some (p, loss, m) =>
    let held := (match (s.part p).billetPeat m region billet with | some a => s.chunksHeld (a / 256) 16 | none => false) ||
      (match (s.part p).billetAddr m region billet with | some a => s.rangeHeld ((s.part p).relieved m.handle a) 4096 | none => false)
    if held then s else ((s.writeSupply p m region billet bytes).repaired loss 1).done src c stOk

/-- `BILLET_SUPPLY`, from its start or after its read (R302). [DEDUCED: log 48] -/
def State.billetSupply (s : State) (src : Src) (c : Cmd) : State :=
  let named := c.f 33 1
  let part : Option Part :=
    if named = 0xFF then s.partOf s.ownerPort
    else if h : named < 4 then some ⟨named, h⟩ else none
  if s.srcPort src ≠ some s.ownerPort then s.done src c stNotPermitted
  else if named ≠ 0xFF ∧ 4 ≤ named then s.done src c stBadField
  else match c.got with
  | bytes :: _ => s.supplyBytes src c part bytes
  | [] => match part with
    | none => s.done src c stBadHandle
    | some p => match (s.part p).model c.model with
      | none => s.done src c stBadHandle
      | some m =>
        let region := c.f 16 4
        let billet := c.f 20 4
        match m.pkg.regions[region]? with
        | none => s.done src c stBadField
        | some r =>
          if r.kind ≠ c.f 32 1 then s.done src c stBadField
          else match s.lossOf p c.model region billet with
            | none => s.done src c stWrongState
            | some _ => s.cmdRead src c (c.f 24 8) 4096

/-- `BILLET_SUPPLY`: an owner-only command, taken from any queue of the owner port (R67, R410). [DEDUCED: log 48] -/
def execBilletSupply (src : Src) (s : State) : Host.Outcome State Fault Refusal :=
  .next (match s.pickCmd src 0x51 with | some c => s.billetSupply src c | none => s)

/-! ## Margining of a channel (R303, R304) -/

/-- `PEAT_MARGIN_HOLD` (R303): every partition STOPPED, none zeroising, no self-test save or restore. -/
def execPeatMarginHold (port : Port) (s : State) : Host.Outcome State Fault Refusal :=
  .next (
    if s.owns port then
      let ok := s.allStopped && (allParts.all fun p => !(s.part p).zeroising) &&
        !(s.bist.phase == .save || s.bist.phase == .restore)
      { s with peatMargin := s.peatMargin.request ok }
    else s)

/-- `PEAT_MARGIN_RELEASE` (R304). -/
def execPeatMarginRelease (port : Port) (s : State) : Host.Outcome State Fault Refusal :=
  .next (if s.owns port then { s with peatMargin := s.peatMargin.release } else s)

/-- `PEAT_MARGIN_RUN` (R304, R305). -/
def execPeatMarginRun (port : Port) (logTransfers : BitVec 5) (s : State) : Host.Outcome State Fault Refusal :=
  .next (if s.owns port then { s with peatMargin := s.peatMargin.start logTransfers 0x1F } else s)

/-- `PEAT_MARGIN_DONE` (R306). -/
def execPeatMarginDone (errors : Nat) (firstLane : Option (Fin 18)) (s : State) : Host.Outcome State Fault Refusal :=
  .next (
    if s.peatMargin.busy then
      let s := { s with peatMargin := s.peatMargin.finish errors (match firstLane with | some w => w.val | none => 0x1F) }
      s.toOwner none { code := 0x2034, sev := 0
                       a := bitsOf s.peatMargin.sel 12 12 * 2 ^ 12 + bitsOf s.peatMargin.sel 8 0
                       b := s.peatMargin.errors.toNat }
    else s)

/-! ## Pages to the peat tier and back (R232, R233) -/

/-- What follows a copy of a page: pages that nothing holds go, fetches that waited for a slot go on, reliefs whose segment is
vacated are placed. -/
def State.afterCopy (s : State) (p : Part) (handle page : Nat) : State :=
  (((s.releaseOrphan p handle page).pumpFetches p).placeReliefs p).sweep

/-- `SPILL_DONE` (R232). A copy from a held die is not served (R97). [DEDUCED: log 48; DESIGN CHOICE: log 60] -/
def execSpillDone (p : Part) (handle page : Nat) (errs : Errs) (s : State) : Host.Outcome State Fault Refusal :=
  .next (
    match (s.part p).model handle with
    | none => s
    | some m =>
      match m.pool[pagePart page]?, m.desc page with
      | some pt, some d =>
        match d.loc, d.slot, d.peat with
        | .spilling, some k, some (unit, _) =>
          let q := s.part p
          let addr := pt.slotAddr k
          let len := q.pageLen handle page
          if s.rangeHeld addr len then s
          else
          let s := if (s.breach p addr len false).isNone then s.readRange (some p) 0 addr len errs else s
          let s := s.fencedSpill p addr (unit * 4096) len
          let s := s.modPart p fun q =>
            let q := q.modModel handle fun m => (m.modPool (pagePart page) fun pt => pt.giveSlot k).modDesc page
              fun d => { d with slot := none, loc := .peat }
            { q with kv := { q.kv with spill := satAdd q.kv.spill 1 } }
          let s := match (s.part p).holder handle page with
            | some (h, _, _) => s.checkSpilled p h
            | none => s
          s.afterCopy p handle page
        | _, _, _ => s
      | _, _ => s)

/-- A page is back: a request none of whose pages is in the peat tier or on its way is no longer fetched (R233). -/
def State.fetchedOne (s : State) (p : Part) (handle page : Nat) : State :=
  match (s.part p).holder handle page with
  | some (h, _, _) =>
    match (s.part p).req h with
    | some r =>
      if ((s.part p).pagesAt r .peat).isEmpty && ((s.part p).pagesAt r .fetching).isEmpty && ((s.part p).pagesAt r .spilling).isEmpty
      then s.modReq p h fun r => { r with fetchSince := none } else s
    | none => s
  | none => s

/-- `FETCH_DONE` (R233), not of a held die (R97): blocks that the peat tier could not correct arrive poisoned, and are cache errors (R343). [DEDUCED: log 48; DESIGN CHOICE: log 60] -/
def execFetchDone (p : Part) (handle page : Nat) (errs : Errs) (s : State) : Host.Outcome State Fault Refusal :=
  .next (
    match (s.part p).model handle with
    | none => s
    | some m =>
      match m.pool[pagePart page]?, m.desc page with
      | some pt, some d =>
        match d.loc, d.slot, d.peat with
        | .fetching, some k, some (unit, _) =>
          let addr := pt.slotAddr k
          let len := (s.part p).pageLen handle page
          if s.rangeHeld addr len then s
          else
          let s := if (s.peatBreach p (unit * 4096) len false).isNone then s.countChunks p (unit * 16) (len / 256) errs else s
          let s := s.fencedFetch p (badOf errs) (unit * 4096) addr len
          let s := s.modPart p fun q =>
            let q := q.modModel handle fun m => m.modDesc page fun d => { d with loc := .sheet, peat := none }
            { q with kv := { q.kv with fetch := satAdd q.kv.fetch 1, fullTold := false } }
          ((s.loseArrived p handle page).fetchedOne p handle page).afterCopy p handle page
        | _, _, _ => s
      | _, _ => s)

end Sys2Proof.Machine
end

