-- ==== Sys2Proof/Machine/Slots.lean ====
section
/-! DEFINITION. The ends of SLICE slots (R284), the zeroing between them (R40), and the slots in which a step may begin (R283). -/

namespace Sys2Proof.Machine

/-- The next end of a slot: of the time its debt leaves it in its frame (R284). [DEDUCED: log 34] -/
def State.slotEndAt (s : State) (slot : Nat) (x : Slot) : Time :=
  let cut := s.slice.taken slot
  let len := s.slice.frameLength
  let off := (x.start + x.len - min cut x.len) % len
  let t := (s.now - s.slice.frameStart) % len
  s.now + (off + len - t) % len

/-- `SLOT_BOUNDARY` (R284): the slot's end. A step of its partition that runs in it goes on, and holds its tiles until it
commits. [DESIGN CHOICE: log 6; DEDUCED: log 34] -/
def execSlotBoundary (slot : Nat) (s : State) : Host.Outcome State Fault Refusal :=
  .next (
    match s.slice.slots[slot]? with
    | none => s
    | some x =>
      if s.slice.frameLength = 0 ∨ s.now < s.slice.frameStart then s
      else
        let s := s.ringTo (s.slotEndAt slot x)
        let runs := match x.owner with
          | some p => (match (s.part p).step with | some st => st.slots.contains slot | none => false)
          | none => false
        if runs then
          { s with slice := { s.slice with overrun := insertA s.slice.overrun slot s.now } }
        else s.endSlot slot)

/-- `SLOT_ZEROISE_DONE` (R40): the slot for which the zeroing ran begins. [DEDUCED: log 34] -/
def execSlotZeroiseDone (slot : Nat) (s : State) : Host.Outcome State Fault Refusal :=
  .next (if s.slice.zeroing.contains slot then s.beginSlot slot else s)

/-! ## Slots and steps (R283) -/

/-- The sites on which a partition's models place sheet memory. -/
def State.placedSites (s : State) (p : Part) : List Nat :=
  let q := s.part p
  let tiles := (q.places.filter fun x => decide (0 < x.sheetCount) && (q.model x.model).isSome).flatMap fun x =>
    (List.range ((x.sheetFirst + x.sheetCount - 1) / stackSegs - x.sheetFirst / stackSegs + 1)).map fun k =>
      x.sheetFirst / stackSegs + k
  tiles.filterMap fun t => (s.siteOf t).map fun i => i.val

/-- The slots in which a step of a partition may begin now; none where it must wait. Its slots bind it only where its models
lie on a tile that they give it. [DEDUCED: log 34] -/
def State.stepSlots (s : State) (p : Part) : Option (List Nat) :=
  let bound := (s.placedSites p).filter fun i => s.slotSite p i && !(s.part p).ownsSite i
  let last := (s.part p).stepRegs.lastNs.toNat
  let open_ := bound.map fun i => (s.slotAt i).bind fun x =>
    if ((s.slice.slots[x.1]?).bind Slot.owner) = some p ∧ s.slotNow i = some p ∧ last ≤ x.2 - s.now then some x.1 else none
  if !bound.isEmpty && !s.trusted then none
  else if open_.all Option.isSome then some ((open_.filterMap id).foldl setAdd []) else none

end Sys2Proof.Machine
end

