-- ==== Sys2Proof/Machine/Boundary.lean ====
section
/-! DEFINITION. Commands that wait for a step boundary (R65) and what a formation does before it chooses: outcomes of lost data
(R344), waits and preemption (R229, R275, R276), returns and admissions (R264, R277). -/

namespace Sys2Proof.Machine

/-! ## Boundary commands -/

/-- The effect of a command that takes effect at a step boundary; a command of another opcode has none here. -/
def State.atBoundaryCmd (s : State) (p : Part) (c : Cmd) : State :=
  match c.opcode with
  | 0x01 => s.reqOpen p c
  | 0x02 => s.reqAppend p c
  | 0x03 => s.reqClose p c
  | 0x04 => s.reqPark p c
  | 0x11 => s.modelUnload p c
  | 0x20 => s.pageReserve p c
  | 0x30 => s.indexInsert p c
  | 0x31 => s.indexRemove p c
  | _ => s

/-- The commands that waited for the boundary take effect in queue order (R46, R65). [DEDUCED: log 19] -/
def State.runBoundary (s : State) (p : Part) : State :=
  ((s.part p).taken.map (·.id)).foldl (fun s id =>
    let l := (s.part p).taken
    match l.find? fun c => c.id == id with
    | some c => if c.turn l then s.atBoundaryCmd p c else s
    | none => s) s

/-- A command that takes effect at a step boundary: at once where no step is running and no earlier one of its queue waits, and
then those behind it; else it waits, its reads of host memory issued meanwhile (R65, R208). -/
def State.boundaryCmd (s : State) (src : Src) (opcode : Nat) : State :=
  s.forPart src opcode fun p c =>
    if (s.part p).atBoundary && c.inOrder (s.part p).taken then (s.atBoundaryCmd p c).runBoundary p else s.await p c

/-- `REQ_OPEN`. -/
def execReqOpen (src : Src) (s : State) : Host.Outcome State Fault Refusal :=
  .next (s.boundaryCmd src 0x01)

/-- `REQ_APPEND`. -/
def execReqAppend (src : Src) (s : State) : Host.Outcome State Fault Refusal :=
  .next (s.boundaryCmd src 0x02)

/-- `REQ_CLOSE`. -/
def execReqClose (src : Src) (s : State) : Host.Outcome State Fault Refusal :=
  .next (s.boundaryCmd src 0x03)

/-- `REQ_PARK`. -/
def execReqPark (src : Src) (s : State) : Host.Outcome State Fault Refusal :=
  .next (s.boundaryCmd src 0x04)

/-- `PAGE_RESERVE`. -/
def execPageReserve (src : Src) (s : State) : Host.Outcome State Fault Refusal :=
  .next (s.boundaryCmd src 0x20)

/-- `INDEX_INSERT`. -/
def execIndexInsert (src : Src) (s : State) : Host.Outcome State Fault Refusal :=
  .next (s.boundaryCmd src 0x30)

/-- `INDEX_REMOVE`. -/
def execIndexRemove (src : Src) (s : State) : Host.Outcome State Fault Refusal :=
  .next (s.boundaryCmd src 0x31)

/-- `MODEL_UNLOAD`. -/
def execModelUnload (src : Src) (s : State) : Host.Outcome State Fault Refusal :=
  .next (s.boundaryCmd src 0x11)

/-! ## Lost data (R344) -/

/-- Index nodes that were lost go with their subtrees. -/
def State.dropLostNodes (s : State) (p : Part) : State :=
  (s.part p).models.foldl (fun s m =>
    let (n, m') := m.lostNodes.foldl (fun (acc : Nat × Model) k =>
      let (n, x) := acc.2.dropTree k
      (acc.1 + n, x)) (0, { m with lostNodes := [] })
    if m.lostNodes.isEmpty then s
    else (s.modPart p fun q => q.modModel m.handle fun _ => m').count p fun c => { c with fltIndexLost := satAdd c.fltIndexLost n }) s

/-- `CACHE_LOST` entries of a request leave the fault FIFO once its outcome is taken. -/
def State.clearLost (s : State) (p : Part) (h : Nat) : State :=
  s.modPart p fun q => { q with fifo := q.fifo.filter fun e => !(e.code == 0x3020 && e.request == some h) }

/-- The outcome of what an active request has lost. -/
def State.lossOutcome (s : State) (p : Part) (h : Nat) : State :=
  match (s.part p).req h with
  | none => s
  | some r =>
    let fault : State := (((s.clearLost p h).modReq p h fun r => { r with fault := 0x3020 }).endReq p h .faulted).settle p
    let back (j : Nat) : State := if (s.part p).rewindOnLoss then (s.clearLost p h).rewind p h j else fault
    match r.lost with
    | none => s
    | some (.tokens n) =>
      ((s.clearLost p h).countDeferred p).faultOut p h { code := 0x3021, sev := 3, a := n, b := r.length }
    | some .directory => back 0
    | some (.positions n _) => back (n / 64)
    | some (.listBlock e l) =>
      match ((s.part p).reqShards r)[l]? with
      | some x => back (if x.2.2.ringLen.isNone then e else 0)
      | none => back 0

/-- Pages of a request that are marked and narrow for their shard, by list entry (R152, R274). -/
def narrowFor (sh : ShardRec) (d : PageDesc) : Bool :=
  sh.minKeyFormat ≠ 0xFF && (match d.fmt with | some f => decide (cacheRank f < cacheRank sh.minKeyFormat) | none => false)

/-- The narrow pages of a request: model, page, list entry, shard and descriptor. -/
def Partition.narrowPages (p : Partition) (r : Req) : List (Nat × Nat × Nat × ShardRec × PageDesc) :=
  (List.zip (p.reqShards r) r.lists).flatMap fun x =>
    (List.range x.2.words.length).filterMap fun j =>
      (x.2.words[j]?).bind fun w => (p.page x.1.1 w).bind fun d =>
        if narrowFor x.1.2.2 d then some (x.1.1, w, j, x.1.2.2, d) else none

/-- The first position of the pages of a request that R152 has marked. -/
def Partition.markedNarrow (p : Partition) (r : Req) : Option Nat :=
  (((p.narrowPages r).filter fun x => x.2.2.2.2.marked).map fun x => x.2.2.2.1.posOf x.2.2.1 0 r.length / 64).min?

/-- At a step boundary every active request takes the outcome of its losses, or is rewound for narrow pages (R258, R273, R274). -/
def State.takeOutcomes (s : State) (p : Part) : State :=
  if (s.part p).step.isSome then s
  else (s.part p).reqs.foldl (fun s x =>
    match (s.part p).req x.1 with
    | none => s
    | some r =>
      if r.state.active && r.endAs.isNone then
        if r.lost.isSome then s.lossOutcome p x.1
        else if r.strict then
          match (s.part p).markedNarrow r with
          | some j => s.rewind p x.1 j
          | none => s
        else s
      else s) s

/-! ## Waiting for pages (R229), and preemption (R275, R276) -/

/-- The lists in which a request lacks entries, with how many. -/
def lacking (lack : List Nat) : List (Nat × Nat) :=
  (List.range lack.length).filterMap fun i => match lack[i]? with | some n => if 0 < n then some (i, n) else none | none => none

/-- The parts of the pools of the shards in which a request lacks pages: model and part. -/
def Partition.needParts (p : Partition) (r : Req) (lack : List Nat) : List (Nat × Nat) :=
  ((lacking lack).flatMap fun x =>
    match (p.reqShards r)[x.1]? with
    | some (handle, _, sh) =>
      (match p.model handle with | some m => (m.pkg.shardParts sh).map fun i => (handle, i) | none => [])
    | none => []).eraseDups

/-- The slots that spills in flight will free (R232). -/
def PoolPart.afterSpills (pt : PoolPart) : PoolPart :=
  (pt.descs.filterMap fun d => if d.2.loc = .spilling then d.2.slot else none).foldl PoolPart.giveSlot pt

/-- A partition whose spills in flight have ended: what its requests could then be given. -/
def Partition.afterSpills (p : Partition) : Partition :=
  { p with models := p.models.map fun m => { m with parts := m.parts.map fun l => l.map PoolPart.afterSpills } }

/-- The sheet pages of a request given up: their slots are free. -/
def Partition.yieldSlots (p : Partition) (r : Req) : Partition :=
  (p.reqPages r).foldl (fun q x =>
    match (p.page x.1 x.2.1).bind (·.slot) with
    | some k => q.modModel x.1 fun m => m.modPool (pagePart x.2.1) fun pt => pt.giveSlot k
    | none => q) p

/-- A partition as it will be once spills in flight have ended and the victims promised to a waiter have yielded (R275). In mode 2 they
give up page numbers and list blocks too. [DESIGN CHOICE: log 59] -/
def Partition.promised (p : Partition) (h : Nat) : Partition :=
  ((p.victims.filter fun v => v.1 == h).foldl (fun (q : Partition) v =>
    match q.req v.2 with
    | some y => if p.preemptMode = 2 then (q.releasePages y).1 else q.yieldSlots y
    | none => q) p).afterSpills

/-- The parts of the pools of shards in which a request lacks pages and where no slot is left: model and part. -/
def Partition.shortParts (p : Partition) (r : Req) (lack : List Nat) : List (Nat × Nat) :=
  (p.needParts r lack).filter fun x => match (p.model x.1).bind fun m => m.pool[x.2]? with
    | some pt => pt.freeSlots.isEmpty
    | none => false

/-- Pages of a request in parts, in sheet memory. -/
def Partition.pagesOf (p : Partition) (r : Req) (parts : List (Nat × Nat)) : Nat :=
  ((p.reqPages r).filter fun x => parts.contains (x.1, pagePart x.2.1) &&
    (match p.page x.1 x.2.1 with | some d => d.slot.isSome | none => false)).length

/-- Every sheet page of a request starts to spill; none where the spill area has no room for them all. -/
def State.spillWhole (s : State) (p : Part) (h : Nat) : Option State :=
  match (s.part p).req h with
  | none => none
  | some r =>
    if (s.part p).spill then
      ((s.part p).reqCandidates r).foldl (fun acc x => acc.bind fun s => s.startSpill p x.1 x.2) (some s)
    else none

/-- No page of a request is still to be copied from the prefix index (R280). -/
def Partition.copied (p : Partition) (h : Nat) : Bool := (p.req h).any fun r => r.copying.isEmpty

/-- A victim yields (R276): spilled whole, evicted for recompute, or passed over. One whose prefix copy still runs is not spilled. -/
def State.preempt (s : State) (p : Part) (waiter victim : Nat) : State :=
  let mode := (s.part p).preemptMode
  let drop (s : State) : State := s.modPart p fun q => { q with victims := q.victims.filter fun v => v.2 ≠ victim }
  match (if (mode = 1 ∨ mode = 3) ∧ (s.part p).copied victim then s.spillWhole p victim else none) with
  | some s => s.checkSpilled p victim
  | none => if 2 ≤ mode then drop (s.evict p victim waiter) else drop s

/-- Victims in the order of R275. -/
def victimBefore (x y : Nat × Req) : Bool :=
  let a := x.2
  let b := y.2
  if a.priority ≠ b.priority then decide (a.priority < b.priority)
  else if a.deadline ≠ b.deadline then a.deadline == 0 || (b.deadline ≠ 0 && decide (b.deadline < a.deadline))
  else decide (y.1 < x.1)

/-- A request is in the step being run (R275); between two steps, in the one that is formed to run next. -/
def Partition.runs (p : Partition) (h : Nat) : Bool :=
  match p.step with
  | some st => st.picks.any fun x => x.req == h
  | none => match p.formed with | some f => f.picks.any fun x => x.req == h | none => false

/-- The requests that may yield to a waiter. -/
def Partition.mayYield (p : Partition) (h : Nat) (r : Req) (x : Nat × Req) : Bool :=
  let low := decide (x.2.priority < r.priority) || (p.preemptEqual && x.2.priority == r.priority)
  x.1 ≠ h && low && (x.2.state.active || x.2.state == .parked || x.2.state == .spilled) && x.2.endAs.isNone && !p.runs x.1 &&
    !(p.victims.any fun v => v.2 == x.1)

/-- Pages spill one at a time for a waiter, in the order of R231, while it lacks pages that no spill in flight will let it have; only
pages of parts whose slots it lacks (R229 step 1). -/
def State.spillFor (s : State) (p : Part) (h n : Nat) : List (Nat × Nat) → State
  | [] => s
  | x :: xs =>
    match (s.part p).req h with
    | none => s
    | some r =>
      let (q, r', lack) := (s.part p).afterSpills.walk h r n s.ashList
      if lack.all (· == 0) then s
      else if (q.shortParts r' lack).contains (x.1, pagePart x.2) then
        match s.startSpill p x.1 x.2 with
        | some s => s.spillFor p h n xs
        | none => s.tellFull p (lack.sum)
      else s.spillFor p h n xs

/-- Victims are chosen until the waiter could have all it lacks; at a step boundary they yield at once, else at the COMMIT (R275). One
with no page in the parts that the waiter still needs is passed over. -/
def State.chooseVictims (s : State) (p : Part) (h n : Nat) : List (Nat × Req) → State
  | [] => s
  | x :: xs =>
    match (s.part p).req h with
    | none => s
    | some r =>
      let (q, r', lack) := ((s.part p).promised h).walk h r n s.ashList
      if lack.all (· == 0) then s
      else if (s.part p).pagesOf x.2 (q.needParts r' lack) = 0 then s.chooseVictims p h n xs
      else
        let s := s.modPart p fun q => { q with victims := q.victims ++ [(h, x.1)] }
        let s := if (s.part p).atBoundary then s.preempt p h x.1 else s
        s.chooseVictims p h n xs

/-- What the stoker does for a request that lacks pages for positions below `n` (R229): spill, then preemption. -/
def State.helpWaiter (s : State) (p : Part) (h n : Nat) : State :=
  match (s.part p).req h with
  | none => s
  | some r =>
    let q := s.part p
    let own := (q.reqPages r).map fun y => (y.1, y.2.1)
    let s := if q.spill then s.spillFor p h n (q.candidates.filter fun x => !own.contains x) else s
    if (s.part p).preemptMode = 0 then s
    else s.chooseVictims p h n (sortBy victimBefore ((s.part p).reqs.filter ((s.part p).mayYield h r)))

/-- A request enters `PAGE_WAIT` (R229), with the event of R236. -/
def State.enterWait (s : State) (p : Part) (h : Nat) (lack : List Nat) : State :=
  match (s.part p).req h with
  | none => s
  | some r =>
    let q := s.part p
    let first := match lacking lack with | x :: _ => x.1 | [] => 0
    let free := match (q.reqShards r)[first]? with
      | some (handle, _, sh) =>
        (match q.model handle with
          | some m => ((m.pkg.shardParts sh).map fun i => match m.pool[i]? with | some pt => pt.freeSlots.length | none => 0).sum
          | none => 0)
      | none => 0
    let s := s.modPart p fun q => (q.modReq h fun r => r.toWait s.uptime).modKv fun k => { k with wait := satAdd k.wait 1 }
    s.toReq p h { code := 0x2021, sev := 1, a := first * 2 ^ 32 + lack.sum, b := free }

end Sys2Proof.Machine
end

