-- ==== Sys2Proof/Machine/Form.lean ====
section
/-! DEFINITION. The formation of a step (R264-R268), its page walks (R222), the conditions on which a request sits out (R265), scratch
buffers (R224), and its revision (R194). -/

namespace Sys2Proof.Machine

/-! ## Conditions on a request -/

/-- A request's ring lacks room for a step's records (R75). -/
def Req.ringLacks (r : Req) : Bool := decide (r.ringFree < r.specWidth + 1)

/-- Requests whose CONSUMED a formation tests: those that are active or may become so. -/
def Partition.ringTests (p : Partition) : List Nat :=
  (p.reqs.filter fun x => (x.2.state.active || x.2.state == .queued || (x.2.state == .spilled && !x.2.held)) && x.2.ringLacks).map
    (·.1)

/-- CONSUMED of every request that fails the test and has not been reread in this formation is read (R75). [DEDUCED: log 26] -/
def State.readRings (s : State) (p : Part) : State :=
  (s.part p).ringTests.foldl (fun s h =>
    match (s.part p).req h with
    | some r => if r.ringRead = .none then s.readConsumed p h else s
    | none => s) s

/-- A read of CONSUMED is on its way. -/
def Partition.ringsWait (p : Partition) : Bool := p.reqs.any fun x => x.2.ringRead == .outstanding

/-- Tiles whose billets count as under refetch for partitions that bind them: under substitution, or held for a self-test while no
site carries them (R338, R370). -/
def State.outTiles (s : State) : List Nat :=
  s.substs.map (·.tile) ++
    (match s.bist.tile, s.bist.phase with
     | some t, .hold | some t, .save | some t, .restore => [t]
     | some t, .test => if s.bist.save = 1 then [t] else []
     | _, _ => [])

/-- Billets of regions that a request's models have bound and that lie on such tiles, one of each region. -/
def State.outFor (s : State) (p : Part) (r : Req) : List Repair :=
  ((s.part p).reqModels r).flatMap fun handle =>
    match (s.part p).model handle with
    | none => []
    | some m => m.bound.filterMap fun b =>
        let o : Part := Fin.ofNat 4 b.2.1
        (((s.part o).model b.2.2).bind fun m' =>
          if (s.part o).mustStage m' b.1 then none
          else s.outTiles.findSome? fun t => ((s.part o).billetsOn m' b.1 t).head?).map fun n =>
            { part := o, handle := b.2.2, region := b.1, billet := n, phase := .refetch }

/-- A sheet-resident billet of a request's models, or of a region they have bound, that is poisoned or under refetch (R197, R265),
or as good as that. -/
def State.brokenFor (s : State) (p : Part) (r : Req) : List Repair :=
  s.outFor p r ++ s.repairs.filter fun x =>
    ((s.part p).reqModels r).any fun handle =>
      let holds := match (s.part x.part).model x.handle with | some m => !(s.part x.part).mustStage m x.region | none => false
      holds && ((x.part == p && x.handle == handle) || match (s.part p).model handle with
        | some m => m.bound.any fun b => b.1 == x.region && b.2.1 == x.part.val && b.2.2 == x.handle
        | none => false)

/-- A loss of a request's models whose supply has timed out (R302). -/
def State.timedOutFor (s : State) (p : Part) (r : Req) : Option (Repair × Nat) :=
  ((s.part p).reqModels r).findSome? fun handle =>
    (s.repairs.find? fun x =>
      (match x.phase with | .lost _ true => true | _ => false) &&
        (s.concerned x.part x.handle x.region).contains (p, handle)).map fun x => (x, handle)

/-- A request sits out for want of room in its ring: counted, and told once (R75). [DEDUCED: log 49] -/
def State.sitOutRing (s : State) (p : Part) (h : Nat) (r : Req) : State :=
  let s := s.modPart p fun q => q.modStepRegs fun k => { k with sitout := satAdd k.sitout 1 }
  if r.ringFullTold then s
  else (s.toReq p h { code := 0x7022, sev := 1, a := r.unread, b := r.specWidth + 1 }).modReq p h fun r =>
    { r with ringFullTold := true }

/-- A request sits out for its weights, told once (R265). [DEDUCED: log 49] -/
def State.sitOutWeights (s : State) (p : Part) (h : Nat) (r : Req) (x : Repair) : State :=
  if r.weightsTold then s
  else (s.toReq p h { code := 0x1020, sev := 1, a := x.region, b := x.billet }).modReq p h fun r => { r with weightsTold := true }

/-- A request whose STRICT_FORMAT finds narrow pages (R152): they are marked, and it is told. -/
def State.sitOutNarrow (s : State) (p : Part) (h : Nat) (l : List (Nat × Nat × Nat × ShardRec × PageDesc)) : State :=
  match l with
  | [] => s
  | (_, page, _, sh, d) :: _ =>
    let s := l.foldl (fun s x => s.markPage p x.1 x.2.1) s
    s.toReq p h { code := 0x2010, sev := 1
                  a := page * 2 ^ 32 + d.fmt.getD 0xFF * 2 ^ 24 + sh.minKeyFormat * 2 ^ 16 + sh.layer, b := l.length }

/-- Pages of a request that are not in sheet memory. -/
def Partition.latePages (p : Partition) (r : Req) : Nat :=
  ((p.reqPages r).filter fun x => match p.page x.1 x.2.1 with | some d => d.loc ≠ .sheet | none => false).length

/-- A request sits out for late pages (R233). -/
def State.sitOutLate (s : State) (p : Part) (h : Nat) : State :=
  match (s.part p).req h with
  | none => s
  | some r =>
    let s := s.modPart p fun q => (q.modStepRegs fun k => { k with sitout := satAdd k.sitout 1 }).modKv fun k =>
      { k with late := satAdd k.late 1 }
    s.toReq p h { code := 0x2020, sev := 1, a := (s.part p).latePages r, b := r.fetchSince.getD s.now }

/-! ## Drafts (R203, R204) -/

/-- BRANCH as it counts, of a value of STEP_PRT_DRAFT (R204, R210). -/
def branchOf (reg : W32) (r : Req) : Nat :=
  if r.sampling.temperature &&& 0x7FFFFFFF ≠ 0 then 1 else max 1 (min 4 (bitsOf reg 2 0))

/-- The depth to which a request's draft model drafts under a value of STEP_PRT_DRAFT; 0 where it does not. [DEDUCED: log 28] -/
def Partition.depthAt (p : Partition) (reg : W32) (r : Req) : Nat :=
  match p.draftOf r with | some _ => r.specWidth / branchOf reg r | none => 0

/-- STEP_PRT_DRAFT for the step being formed: as the formation found it (R204). [DEDUCED: log 28] -/
def Partition.draftReg (p : Partition) : W32 := match p.formed with | some f => f.draft | none => p.stepRegs.draft

/-- BRANCH of a request in the step being formed. -/
def Partition.branch (p : Partition) (r : Req) : Nat := branchOf p.draftReg r

/-- The depth to which a request's draft model drafts in the step being formed. [DEDUCED: log 28] -/
def Partition.draftDepth (p : Partition) (r : Req) : Nat := p.depthAt p.draftReg r

/-- The held tree with which a request takes part: a host draft (R203). -/
def Partition.heldTree (p : Partition) (r : Req) : Option Tree :=
  if p.speculation && decide (0 < r.specWidth) && r.hostDraft then r.tree else none

/-- Nodes a request verifies in a step: of its held tree, or of the tree its draft model will build. -/
def Partition.treeNodes (p : Partition) (r : Req) : Nat :=
  match p.heldTree r with
  | some t => t.nodes.length
  | none => p.draftDepth r * p.branch r

/-- Depth of a node of a tree below the root (R251); `depths` are those of the nodes before it. -/
def treeDepths (nodes : List (Nat × Nat)) : List Nat :=
  nodes.foldl (fun ds n => ds ++ [(if n.2 = 0xFF then 0 else ds.getD n.2 0) + 1]) []

/-- Depth of the tree with which a request takes part. -/
def Partition.treeDepth (p : Partition) (r : Req) : Nat :=
  match p.heldTree r with
  | some t => (treeDepths t.nodes).foldl max 0
  | none => p.draftDepth r

/-- A buffer of each model that a speculating request needs (R224): the buffers, and the partition without them; none where one
is not free. -/
def Partition.takeScratch (p : Partition) : List Nat → Option (Partition × List (Nat × Nat × Nat))
  | [] => some (p, [])
  | handle :: rest =>
    match (p.model handle).map (·.scratch) with
    | some (b :: bs) =>
      ((p.modModel handle fun m => { m with scratch := bs }).takeScratch rest).map fun x => (x.1, (handle, b) :: x.2)
    | _ => none

/-! ## Choosing -/

/-- Where the choice stands. -/
structure Choice where
  s : State
  budget : Nat
  streams : Nat
  /-- The loop over decode requests has ended. -/
  stop : Bool
  /-- A decode request, and an `OPEN` or `PREFILL` one, was ready to take part. -/
  decodeReady : Bool
  promptReady : Bool

/-- What a choice is made for. -/
structure Mode where
  /-- The last check of R233: late pages sit the request out, and pages are walked. -/
  last : Bool
  /-- Requests that the choice may take; none lets it take any. -/
  among : Option (List Nat)
  /-- Picks of the formation that is revised. -/
  prior : List Pick

/-- The picks made so far stand in the formed step. -/
def State.addPick (s : State) (p : Part) (x : Pick) : State :=
  s.modPart p fun q => { q with formed := q.formed.map fun f => { f with picks := f.picks ++ [x] } }

/-- A prompt of the step in progress that the formation has checked (R194). -/
def State.addCand (s : State) (p : Part) (h : Nat) : State :=
  s.modPart p fun q => { q with formed := q.formed.map fun f => { f with cands := f.cands ++ [h] } }

/-- The conditions of R265 but late pages: whether the request is ready, and the state after what it was told. -/
def State.ready? (s : State) (p : Part) (h : Nat) (r : Req) : Bool × State :=
  if !r.copying.isEmpty || r.lost.isSome || r.endAs.isSome || (s.part p).victims.any (fun v => v.2 == h) then (false, s)
  else match s.timedOutFor p r with
    | some (x, handle) => (false, if (s.part p).running h then s else s.supplyFault p handle x.region x.billet h)
    | none => match s.brokenFor p r with
      | x :: _ => (false, s.sitOutWeights p h r x)
      | [] =>
        if r.ringLacks then (false, s.sitOutRing p h r)
        else
          let narrow := (s.part p).narrowPages r
          if r.strict && !narrow.isEmpty then (false, s.sitOutNarrow p h narrow)
          else (true, s)

/-- The pages of a request that a step may write, walked (R222): taken, or off to `PAGE_WAIT` (R229). -/
def State.walkFor (s : State) (p : Part) (h n : Nat) : Bool × State :=
  match (s.part p).req h with
  | none => (false, s)
  | some r =>
    let (q, r, lack) := (s.part p).walk h r n s.ashList
    let s := s.modPart p fun _ => q.modReq h fun _ => r
    if lack.all (· == 0) then (true, s) else (false, s.enterWait p h lack)

/-- A request that is ready and fits is taken, once its pages are in sheet memory and walked. `x` is its pick before scratch. -/
def State.takeReq (s : State) (p : Part) (mode : Mode) (h : Nat) (r : Req) (n : Nat) (x : Pick) : Bool × State :=
  let late := decide (0 < (s.part p).latePages r)
  let s := if late then s.wantPages p h else s
  if late && mode.last then (false, s.sitOutLate p h)
  else
    let (ok, s) := if (s.part p).running h then (true, s) else s.walkFor p h n
    if !ok then (false, s)
    else
      let needs := x.split == 0 && decide (0 < (s.part p).treeNodes r)
      let before := mode.prior.find? fun y => y.req == h
      let kept := match before with | some y => !y.scratch.isEmpty || y.missed | none => false
      let (x, s) :=
        if !needs then (x, s)
        else if kept then
          match before with
          | some y => ({ x with scratch := y.scratch, missed := y.missed, tree := if y.missed then none else x.tree }, s)
          | none => (x, s)
        else match (s.part p).takeScratch (r.model :: (match (s.part p).draftOf r with | some d => [d] | none => [])) with
          | some (q, l) => ({ x with scratch := l }, s.modPart p fun _ => q)
          | none =>
            ({ x with missed := true, tree := none },
              s.modPart p fun q => q.modKv fun k => { k with scratchMiss := satAdd k.scratchMiss 1 })
      (true, s.addPick p x)

/-- One decode request of the loop of R266. -/
def Choice.decode (c : Choice) (p : Part) (mode : Mode) (h : Nat) : Choice :=
  match (c.s.part p).req h with
  | none => c
  | some r =>
    if r.state ≠ .decode ∨ c.stop then c
    else
      let (ok, s) := c.s.ready? p h r
      if !ok then { c with s := s }
      else
        let cost := 1 + (s.part p).treeNodes r
        if c.streams = (s.part p).role.streamLimit ∨ c.budget < cost then { c with s := s, stop := true, decodeReady := true }
        else
          let n := r.length + (s.part p).treeDepth r + 1
          let (took, s) := s.takeReq p mode h r n { req := h, split := 0, tree := (s.part p).heldTree r }
          if took then { c with s := s, budget := c.budget - cost, streams := c.streams + 1, decodeReady := true }
          else { c with s := s }

/-- The split of a prompt (R267, R268). -/
def Partition.split (p : Partition) (r : Req) (budget : Nat) (decodeReady first : Bool) : Nat :=
  if p.role.prefillMode = 1 then
    if r.pending ≤ budget then r.pending
    else if p.role.tokenBudget < r.pending ∧ decodeReady = false ∧ first then r.pending
    else 0
  else
    let n := min p.role.splitSize budget
    if r.pending ≤ n then r.pending else n / 64 * 64

/-- One `OPEN` or `PREFILL` request of the loop of R266. -/
def Choice.prompt (c : Choice) (p : Part) (mode : Mode) (h : Nat) : Choice :=
  match (c.s.part p).req h with
  | none => c
  | some r =>
    if r.state ≠ .opened ∧ r.state ≠ .prefill then c
    else
      let (ok, s) := c.s.ready? p h r
      if !ok then { c with s := s }
      else if (s.part p).running h then { c with s := s.addCand p h }
      else
        let n := (s.part p).split r c.budget c.decodeReady (!c.promptReady)
        if n = 0 then { c with s := s, promptReady := true }
        else
          let (took, s) := s.takeReq p mode h r (r.length + n) { req := h, split := n, tree := none }
          if took then { c with s := s, budget := c.budget - n, promptReady := true } else { c with s := s }

/-- The order of R266: priority, deadline with 0 last, handle. -/
def formBefore (x y : Nat × Req) : Bool :=
  let a := x.2
  let b := y.2
  if a.priority ≠ b.priority then decide (b.priority < a.priority)
  else if a.deadline ≠ b.deadline then a.deadline ≠ 0 && (b.deadline == 0 || decide (a.deadline < b.deadline))
  else decide (x.1 < y.1)

/-- The choice of R266 over the requests a mode allows. The formed step stands, empty, in the state. -/
def State.choose (s : State) (p : Part) (mode : Mode) : State :=
  let l := ((sortBy formBefore (s.part p).reqs).map (·.1)).filter fun h =>
    match mode.among with | some l => l.contains h | none => true
  let c : Choice := ⟨s, (s.part p).role.tokenBudget, 0, false, false, false⟩
  let c := l.foldl (fun c h => c.decode p mode h) c
  (l.foldl (fun c h => c.prompt p mode h) c).s

/-! ## Formation (R266) -/

/-- The positions that a request in `PAGE_WAIT` needs pages for: those of the step it left. -/
def Partition.waitLength (p : Partition) (r : Req) : Nat :=
  if r.waitFrom = .decode then r.length + p.treeDepth r + 1 else r.length + p.firstSplit r.pending

/-- The first retries of a formation (R229). -/
def State.retryWaits (s : State) (p : Part) : State :=
  ((sortBy formBefore ((s.part p).reqs.filter fun x => x.2.state == .pageWait && x.2.endAs.isNone)).map (·.1)).foldl (fun s h =>
    match (s.part p).req h with
    | none => s
    | some r =>
      let (q, r', lack) := (s.part p).walk h r ((s.part p).waitLength r) s.ashList
      if lack.all (· == 0) then
        let s := s.modPart p fun _ => { q.modReq h fun _ => { r' with state := r'.waitFrom, prev := .free } with
          victims := q.victims.filter fun v => v.1 ≠ h }
        s.toReq p h { code := 0x2022, sev := 0, a := s.uptime - r.waitAt, b := r.waitFrom.code }
      else s.modPart p fun _ => q.modReq h fun _ => r') s

/-- The oldest leaf of the indexes of some models: model and node. -/
def Partition.oldestLeaf (p : Partition) (handles : List Nat) : Option (Nat × Nat) :=
  let l := handles.filterMap fun x => ((p.model x).bind (·.index)).bind fun ix =>
    (ix.oldestLeaf []).map fun n => ((match lookupA ix.nodes n with | some nd => nd.lastUse | none => 0), x, n)
  ((sortBy (fun (a b : Nat × Nat × Nat) => decide (a.1 < b.1)) l).head?).map (·.2)

/-- With INDEX_EVICT, the oldest leaves go before anything spills or yields for a waiter (R282), while it still lacks pages that no
spill in flight will free. [DEDUCED: log 46] -/
def State.evictFor (s : State) (p : Part) (h : Nat) : Nat → State
  | 0 => s
  | fuel + 1 =>
    let q := s.part p
    match q.req h with
    | none => s
    | some r =>
      let lack := (q.afterSpills.walk h r (q.waitLength r) s.ashList).2.2
      if q.indexEvict && !lack.all (· == 0) then
        match q.oldestLeaf (((q.needParts r lack).map (·.1)).eraseDups) with
        | some (handle, n) => (s.modPart p fun q => q.modModel handle fun m => m.dropNode n).evictFor p h fuel
        | none => s
      else s

/-- What the stoker does for the requests that stand in `PAGE_WAIT` (R229), once the step is chosen: spill takes only pages of
requests that are in no step being run or formed (R231). [DEDUCED: log 49] -/
def State.helpWaits (s : State) (p : Part) : State :=
  ((sortBy formBefore ((s.part p).reqs.filter fun x => x.2.state == .pageWait && x.2.endAs.isNone)).map (·.1)).foldl (fun s h =>
    let nodes := ((s.part p).models.map fun m => match m.index with | some ix => ix.nodes.length | none => 0).sum
    let s := s.evictFor p h nodes
    match (s.part p).req h with
    | none => s
    | some r =>
      let n := (s.part p).waitLength r
      if ((s.part p).walk h r n s.ashList).2.2.all (· == 0) then s else s.helpWaiter p h n) s

/-- The parts that hold a request's pages have room for their return (R277). -/
def Partition.mayReturn (p : Partition) (r : Req) : Bool :=
  p.models.all fun m => (List.range m.pool.length).all fun i =>
    match m.pool[i]? with
    | none => true
    | some pt =>
      let n := ((p.reqPages r).filter fun x => x.1 == m.handle && pagePart x.2.1 == i).length
      n == 0 || decide (100 * n + p.lowMark * pt.slots ≤ 100 * pt.freeSlots.length)

/-- `SPILLED` requests return (R277). -/
def State.returnSpilled (s : State) (p : Part) : State :=
  ((sortBy queueBefore ((s.part p).reqs.filter fun x => x.2.state == .spilled && !x.2.held && x.2.endAs.isNone)).map (·.1)).foldl (fun s h =>
    match (s.part p).req h with
    | none => s
    | some r =>
      if ((s.part p).activeCount < (s.part p).activeLimit ∨ r.prev = .parked) ∧ (s.part p).mayReturn r then
        (s.modReq p h fun r => { r with state := r.prev, prev := if r.prev = .pageWait then r.waitFrom else .free }).toReq p h
          { code := 0x1012, sev := 0, a := s.uptime - r.spilledAt, b := r.prev.code }
      else s) s

/-- Admission from the queue (R264): it ends at the first request whose reservation fails. -/
def State.admitQueue (s : State) (p : Part) : List Nat → State
  | [] => s
  | h :: rest =>
    if (s.part p).activeCount < (s.part p).activeLimit then
      match s.activate p h with
      | none => s
      | some s' =>
        let since := match (s.part p).req h with | some r => r.queuedAt | none => s.uptime
        let pages := match (s'.part p).req h with | some r => r.pageCount | none => 0
        let s := (s'.modPart p fun q => q.depart s.now).toReq p h { code := 0x1006, sev := 0, a := s.uptime - since, b := pages }
        s.admitQueue p rest
    else s

/-- Deadlines of requests in no step, at a step boundary (R272). -/
def State.checkDeadlines (s : State) (p : Part) : State :=
  if (s.part p).atBoundary then (s.part p).reqs.foldl (fun s x => s.deadline p x.1) s else s

/-- The cache formats in force (R217). -/
def Partition.setFormats (p : Partition) : Partition :=
  { p with models := p.models.map fun m => { m with narrow := m.narrowNext } }

/-- The cadence registers as they are in force from this formation on (R209). -/
def Partition.latchCadence (p : Partition) : Partition :=
  p.modStepRegs fun k => { k with
    cadCtrl := k.ctrl, cadPer := k.cadPeriod, cadBase := BitVec.ofNat 64 (k.cadBaseHi.toNat * 2 ^ 32 + k.cadBaseLo.toNat) }

/-- Reads of CONSUMED count for one formation only. -/
def Partition.forgetReads (p : Partition) : Partition :=
  { p with reqs := p.reqs.map fun x =>
      (x.1, if x.2.ringRead = .answered then { x.2 with ringRead := .none } else x.2) }

/-- A formation without a pick, and without a prompt whose next split may come to it, is none. -/
def Partition.keepFormed (p : Partition) : Partition :=
  match p.formed with
  | some f => if f.picks.isEmpty && f.cands.isEmpty then { p with formed := none } else p
  | none => p

/-- Requests with a `REQ_CLOSE` MODE 0 in force that write no record in the step that has just ended, or that a formation without a
step leaves, end with an END-only record (R271). -/
def State.endClosers (s : State) (p : Part) (wrote : List Nat) : State :=
  (s.part p).reqs.foldl (fun s x =>
    match (s.part p).req x.1 with
    | some r => if r.state.live && r.closing && r.endAs.isNone && !wrote.contains x.1 then s.endOnly p x.1 3 else s
    | none => s) s

/-- A pick of the formation stands or leaves (R194): its request still runs as it was chosen, and is ready; its late pages and its page
walk are looked at last (R233). -/
def Choice.keep (c : Choice) (p : Part) (mode : Mode) (x : Pick) : Choice :=
  match (c.s.part p).req x.req with
  | none => c
  | some r =>
    if (if x.split = 0 then r.state ≠ .decode else r.state ≠ .opened ∧ r.state ≠ .prefill) then c
    else
      let (ok, s) := c.s.ready? p x.req r
      let tree := if x.split = 0 then (s.part p).heldTree r else none
      let cost := if x.split = 0 then 1 + (s.part p).treeNodes r else x.split
      -- a prompt above the whole budget stands alone in its step (R268)
      let fits := decide (cost ≤ c.budget ∨ (s.part p).role.tokenBudget < x.split)
      if !ok || !fits then { c with s := s }
      else
        let n := if x.split = 0 then r.length + (s.part p).treeDepth r + 1 else r.length + x.split
        let (took, s) := s.takeReq p mode x.req r n { req := x.req, split := x.split, tree := tree }
        if took then { c with
          s := s, budget := c.budget - cost
          decodeReady := c.decodeReady || x.split == 0, promptReady := c.promptReady || x.split != 0 }
        else { c with s := s }

/-- The revision of a formed step at a step boundary (R194): picks whose requests may no longer run leave it, the others stand; then the
next splits of prompts come to it, as far as the budget goes, where the formation had checked them and the step that has just
committed ran their last split. -/
def State.rechoose (s : State) (p : Part) : State :=
  match (s.part p).formed with
  | none => s
  | some f =>
    let s := s.modPart p fun q => { q with formed := some { f with picks := [], cands := [] } }
    let mode : Mode := { last := true, among := none, prior := f.picks }
    let c : Choice := ⟨s, (s.part p).role.tokenBudget, 0, false, false, false⟩
    let c := f.picks.foldl (fun c x => c.keep p mode x) c
    let s := ((f.cands.filter fun h => match (c.s.part p).req h with | some r => r.state == .prefill | none => false).foldl
      (fun c h => c.prompt p mode h) c).s
    -- buffers of picks that have left the step are free again
    let gone := f.picks.filter fun x => match (s.part p).formed with
      | some g => !g.picks.any fun y => y.req == x.req && y.scratch == x.scratch
      | none => true
    s.modPart p fun q => ((q.returnScratch s.ashList gone).keepFormed).forgetReads

/-- The revision of a formed step at a step boundary (R194), once requests have had the outcomes of their losses (R344), with what it
does for requests that come to lack pages (R229). [DEDUCED: log 26] -/
def State.reviseNow (s : State) (p : Part) : State :=
  if (s.part p).formed.isNone then s else ((s.takeOutcomes p).rechoose p).helpWaits p

/-- A formation, once every ring it tests has been read. -/
def State.formNow (s : State) (p : Part) : State :=
  let s := s.modPart p fun q => ((q.dropFormed s.ashList).setFormats.latchCadence).number
  let s := s.checkDeadlines p
  let s := (s.dropLostNodes p).takeOutcomes p
  let s := s.modPart p fun q =>
    { q with formed := some { picks := [], formats := q.models.map fun m => (m.handle, m.narrow), piece := q.kv.piece, draft := q.stepRegs.draft } }
  let s := (s.retryWaits p).returnSpilled p
  let s := s.admitQueue p ((s.part p).queue.filter fun h => match (s.part p).req h with | some r => r.endAs.isNone | none => false)
  let s := s.modPart p Partition.number
  let s := s.takeOutcomes p
  let s := s.choose p { last := (s.part p).atBoundary, among := none, prior := [] }
  let s := s.helpWaits p
  let s := (s.modPart p fun q => q.keepFormed.forgetReads).spillPolicy p
  if (s.part p).atBoundary ∧ (s.part p).formed.isNone then s.endClosers p [] else s

/-- The revision of a formed step, as soon as the rings it tests have been read (R75, R194). -/
def State.revise (s : State) (p : Part) : State :=
  if (s.part p).formed.isNone then s
  else
    let s := s.readRings p
    if (s.part p).ringsWait then s.modPart p fun q => { q with forming := true }
    else ((s.modPart p fun q => { q with forming := false }).reviseNow p).noteStreams p

/-- Formation, as soon as the rings it tests have been read (R75). [DEDUCED: log 26] -/
def State.formStep (s : State) (p : Part) : State :=
  let s := s.readRings p
  if (s.part p).ringsWait then s.modPart p fun q => { q with forming := true }
  else ((s.modPart p fun q => { q with forming := false }).formNow p).noteStreams p

/-- `STEP_FORM` (R266): in a RUNNING partition. [DEDUCED: log 26] -/
def execStepForm (p : Part) (s : State) : Host.Outcome State Fault Refusal :=
  .next (if (s.part p).st = .running ∧ s.serving then s.formStep p else s)

end Sys2Proof.Machine
end

