-- ==== Sys2Proof/Machine/Head.lean ====
section
/-! DEFINITION. A step from its HEAD on: the tokens and the passes of its models (R195, R204, R205), the start of its programs
(R297), staging (R296), cadence (R209), collective timeouts (R199). -/

namespace Sys2Proof.Machine

/-! ## The tokens of a step -/

/-- The tokens of a pick: a decode request's root before its tree nodes, or a split in position order (R180). -/
def Partition.pickToks (p : Partition) (x : Pick) : List Tok :=
  match p.req x.req with
  | none => []
  | some r =>
    let tok (kind : TokKind) (parent depth pos token : Nat) (yields : Bool) : Tok :=
      { req := x.req, model := r.model, kind := kind, parent := parent, depth := depth, pos := pos, token := token, yields := yields }
    if x.split = 0 then
      let root := tok .root 32 0 r.length (r.chain.words.getD r.length 0) true
      match x.tree with
      | some t =>
        let ds := treeDepths t.nodes
        root :: (List.range t.nodes.length).filterMap fun i => (t.nodes[i]?).map fun n =>
          tok (.node i) (if n.2 = 0xFF then 32 else n.2) (ds.getD i 1) (r.length + ds.getD i 1) n.1 true
      | none => [root]
    else
      (List.range x.split).map fun i =>
        tok (.split i) 32 0 (r.length + i) (r.chain.words.getD (r.length + i) 0)
          (decide (i + 1 = x.split) && decide (r.length + x.split = r.chain.words.length))

/-- The depth to which a pick drafts, under the STEP_PRT_DRAFT of its step (R204). -/
def Partition.pickDepth (p : Partition) (reg : W32) (x : Pick) : Nat :=
  match p.req x.req with | some r => if x.split = 0 ∧ x.missed = false then p.depthAt reg r else 0 | none => 0

/-- The draft model's tokens of a pick: its root, or its split (R204, R205). -/
def Partition.draftToks (p : Partition) (reg : W32) (x : Pick) : List Tok :=
  match (p.req x.req).bind p.draftOf with
  | none => []
  | some d =>
    (p.pickToks { x with tree := none }).map fun t =>
      { t with model := d, draft := true, yields := decide (x.split = 0) && decide (0 < p.pickDepth reg x) }

/-- The place of a token's entry for a shard in its request's scratch buffer (R223): tree nodes, and a draft model's own passes but their
root; shard by shard, in each by node. [DESIGN CHOICE: log 24] -/
def Partition.scratchPlace (q : Partition) (picks : List Pick) (t : Tok) (shard : Nat) : Option Nat :=
  match t.kind with
  | .node i =>
    (q.model t.model).bind fun m =>
      ((picks.find? fun x => x.req == t.req).bind fun x => lookupA x.scratch t.model).bind fun b =>
        (q.place t.model b.1).map fun pl =>
          let before := ((m.pkg.shards.take shard).map fun sh => 32 * sh.padded * 2).sum
          let padded := match m.pkg.shards[shard]? with | some sh => sh.padded | none => 0
          pl.sheetFirst * segBytes + b.2 + before + i * padded * 2
  | _ => none

/-- A token belongs to a run. -/
def ModelRun.has (run : ModelRun) (t : Tok) : Bool :=
  t.model == run.handle &&
    match run.kind with
    | .own => !t.draft
    | .drafting d => t.draft && t.depth == d && (match t.kind with | .split _ => false | _ => true)
    | .draftSplit => t.draft && (match t.kind with | .split _ => true | _ => false)

/-- The tokens over which a run executes an operator: those of its pass; of `SEASON` and `SCATTER`, which a drafting run executes once,
those of all its passes, since the root and every accepted node are written (R205, R207). -/
def ModelRun.hasFor (run : ModelRun) (op : Nat) (t : Tok) : Bool :=
  match run.kind with
  | .drafting _ =>
    if op < 14 then run.has t
    else t.model == run.handle && t.draft && (match t.kind with | .split _ => false | _ => true)
  | _ => run.has t

/-- The runs that a step's tokens need, drafting passes first. -/
def runsOf (toks : List Tok) : List ModelRun :=
  let of (kind : RunKind) : List ModelRun :=
    ((toks.map (·.model)).eraseDups.map fun h => ({ handle := h, kind := kind } : ModelRun)).filter fun r => toks.any r.has
  of (.drafting 0) ++ of .own ++ of .draftSplit

/-- The step of a formed one, at its HEAD. -/
def Partition.stepOf (p : Partition) (f : Formed) (now up : Time) (slots : List Nat) : Step :=
  let toks := f.picks.flatMap p.pickToks ++ f.picks.flatMap (p.draftToks f.draft)
  { picks := f.picks, toks := toks, runs := runsOf toks, headAt := now, headUp := up, formats := f.formats, piece := f.piece,
    draft := f.draft, shown := p.reqs, slots := slots }

/-! ## HEAD (R208) -/

/-- Errors that the page-list walker meets in the part headers it reads (R222). -/
def State.walkReads (s : State) (p : Part) (errs : Errs) : State :=
  errs.foldl (fun s e =>
    let here := (s.part p).heldAt (e.1 * 64 / segBytes) (e.1 * 64 % segBytes)
    if here.any (fun x => match x.2 with | .header _ _ => true | _ => false) then s.readBlock (some p) 0 e.1 e.2 else s) s

/-- A formed step may begin. -/
def State.mayBegin (s : State) (p : Part) : Bool :=
  let q := s.part p
  q.st == .running && s.serving && !q.bistHold && q.step.isNone && !q.forming && q.formed.isSome && (s.stepSlots p).isSome

/-- Update of the step in progress. -/
def State.modStep (s : State) (p : Part) (f : Step → Step) : State :=
  s.modPart p fun q => { q with step := q.step.map f }

/-! ### Which program may begin (R195, R297) -/

/-- Depth of the last drafting pass of a run. -/
def Partition.lastPass (p : Partition) (st : Step) (run : ModelRun) : Nat :=
  ((st.picks.filter fun x => ((p.req x.req).bind p.draftOf) == some run.handle).map (p.pickDepth st.draft)).foldl max 0

/-- A drafting run has built its trees: it stands before `SEASON` in its last pass. -/
def Partition.drafted (p : Partition) (st : Step) (run : ModelRun) : Bool :=
  match run.kind, p.model run.handle with
  | .drafting d, some m =>
    run.finished || (d == p.lastPass st run && run.prog == m.pkg.model.layers + 1 &&
      decide ((m.pkg.programOf run.prog).length ≤ run.pc + 2))
  | .drafting _, none => true
  | _, _ => true

/-- A run that drafts. -/
def ModelRun.drafts (run : ModelRun) : Bool := match run.kind with | .drafting _ => true | _ => false

/-- Where a run stands among the phases of a step (R193): 0 at its head, layer l at l + 1, its tail and its end last. -/
def Partition.rank (p : Partition) (run : ModelRun) : Nat :=
  match p.model run.handle with
  | none => 2 ^ 32 + 1
  | some m => if run.finished then 2 ^ 32 + 1 else if m.pkg.model.layers < run.prog then 2 ^ 32 else run.prog

/-- The program of a model that stands at a place among the phases: none past its own layers. -/
def Package.programAt (k : Package) (rank : Nat) : Option Nat :=
  if rank = 2 ^ 32 then some (k.model.layers + 1) else if rank ≤ k.model.layers then some rank else none

/-- A run's next program may begin as far as the phases go: drafting comes before the passes of the models it drafts for, every run
ends its head before a layer begins and its layers before a tail begins (R193, R195). -/
def Partition.inTurn (p : Partition) (st : Step) (run : ModelRun) : Bool :=
  let rest := st.runs.filter fun x => !x.drafts
  let rank := p.rank run
  (p.model run.handle).isSome && !run.started && !run.finished &&
    (run.drafts || (st.runs.all (p.drafted st) && (rank == 0 || rest.all fun x => decide (1 ≤ p.rank x)) &&
      (decide (rank < 2 ^ 32) || rest.all fun x => decide (2 ^ 32 ≤ p.rank x))))

/-- What a run's next program must have staged (R297): its own regions, and those of the same program of every model of the step that
has still to run it. [DEDUCED: log 48] -/
def Partition.staged (p : Partition) (st : Step) (run : ModelRun) : Bool :=
  let ready (handle rank : Nat) : Bool := match p.model handle with
    | none => true
    | some m => match m.pkg.programAt rank with
      | some g => (m.pkg.programRegions g).all (p.inPlace m)
      | none => true
  ready run.handle (p.rank run) &&
    (run.drafts || st.runs.all fun x => x.drafts || decide (p.rank run < p.rank x) || ready x.handle (p.rank run))

/-- A run's next program may begin (R195, R297). -/
def Partition.mayStart (p : Partition) (st : Step) (run : ModelRun) : Bool := p.inTurn st run && p.staged st run

/-- The step waits for staging alone: a run's turn has come, no run is still at an earlier program, and its regions are not in place
(R297). -/
def Partition.stalled (p : Partition) (st : Step) : Bool :=
  st.runs.any fun run => p.inTurn st run && !p.staged st run &&
    (run.drafts || st.runs.all fun x => x.drafts || decide (p.rank run ≤ p.rank x))

/-- The waits of a step for staging begin and end here, and are added up (R297, R211). [DEDUCED: log 48] -/
def State.noteStall (s : State) (p : Part) : State :=
  match (s.part p).step with
  | none => s
  | some st =>
    match st.stallSince, (s.part p).stalled st with
    | none, true => s.modStep p fun st => { st with stallSince := some s.uptime }
    | some t, false =>
      (s.modStep p fun st => { st with stallSince := none, stallNs := st.stallNs + (s.uptime - t) }).modPart p fun q =>
        q.modStepRegs fun k => { k with wstallNs := k.wstallNs + (s.uptime - t) }
    | _, _ => s

/-- After anything that lets a stream begin, or a program wait or go on. -/
def State.noteStaging (s : State) (p : Part) : State := (s.noteStall p).noteStreams p

/-- The formed step begins its HEAD: its requests are looked at once more, narrow pages are counted (R152). -/
def State.beginStep (s : State) (p : Part) (errs : Errs) : State :=
  let s := (s.walkReads p errs).reviseNow p
  match (s.part p).formed, s.stepSlots p with
  | some f, some slots =>
    let narrow := (f.picks.map fun x => match (s.part p).req x.req with
      | some r => ((s.part p).narrowPages r).length
      | none => 0).sum
    let s := (s.count p fun c => { c with sclNarrow := satAdd c.sclNarrow narrow }).modPart p fun q =>
      { q with formed := none, step := some (q.stepOf f s.now s.uptime slots) }
    { s with sram := (s.placedSites p).foldl (fun l i => if l.contains (i, p) then l else l ++ [(i, p)]) s.sram }.noteStaging p
  | _, _ => s

/-- STEP_PRT_CTRL.CADENCE, since the last formation (R209, R210). -/
def Partition.cadence (p : Partition) : Bool := p.stepRegs.cadCtrl.getLsbD 1
/-- CAD_BASE and CAD_PERIOD as they count, since the last formation (R209, R210). -/
def Partition.cadBase (p : Partition) : Nat := p.stepRegs.cadBase.toNat
def Partition.cadPeriod (p : Partition) : Nat := max 1000 p.stepRegs.cadPer.toNat

/-- The next cadence mark: the first not before a ring time, and not one that has been compared (R209). [DEDUCED: log 33] -/
def Partition.nextMark (p : Partition) (now : Time) : Time :=
  let from_ := if p.stepRegs.cadMark = some now then now + 1 else now
  if from_ ≤ p.cadBase then p.cadBase else p.cadBase + ceilDiv (from_ - p.cadBase) p.cadPeriod * p.cadPeriod

/-- `STEP_HEAD_START` (R208): free-running; with CADENCE set a step begins at a mark only (R209). [DEDUCED: log 26] -/
def execStepHeadStart (p : Part) (errs : Errs) (s : State) : Host.Outcome State Fault Refusal :=
  .next (if (s.part p).cadence = false ∧ s.mayBegin p then s.beginStep p errs else s)

/-- `CADENCE_MARK` (R209): a ready step begins; a mark that passes while a step runs is counted, and told where a step has met its
mark since the last that was told: a step that ran into no further mark. [DEDUCED: log 33] -/
def execCadenceMark (p : Part) (errs : Errs) (s : State) : Host.Outcome State Fault Refusal :=
  .next (
    if (s.part p).cadence = false ∨ s.trusted = false then s
    else
      let s := s.ringTo ((s.part p).nextMark s.now)
      let s := s.modPart p fun q => q.modStepRegs fun k => { k with cadMark := some s.now }
      match (s.part p).step with
      | some st =>
        let met := (s.part p).stepRegs.cadMet
        let s := s.modPart p fun q => q.modStepRegs fun k => { k with cadMiss := satAdd k.cadMiss 1, cadMet := false, cadLate := true }
        if met then s.toPart p 0 { code := 0x0003, sev := 1, a := s.now, b := st.headAt } else s
      | none =>
        if s.mayBegin p then
          let s := s.beginStep p errs
          if (s.part p).step.isSome then s.modPart p fun q => q.modStepRegs fun k =>
            { k with cadMet := k.cadMet || !k.cadLate, cadLate := false } else s
        else s)

/-! ## Programs (R297) -/

/-- `PROGRAM_START` (R297): every run that may go on begins its next program. [DEDUCED: log 48] -/
def execProgramStart (p : Part) (s : State) : Host.Outcome State Fault Refusal :=
  .next (
    let q := s.part p
    let go (st : Step) (run : ModelRun) : ModelRun := if q.mayStart st run then { run with started := true, startedAt := s.uptime } else run
    s.modStep p fun st => { st with runs := st.runs.map (go st) })

/-- The stream of one billet: from the peat copy to its staging range, under the fence; a chunk that cannot be read costs its source
(R302). -/
def State.streamBillet (s : State) (p : Part) (m : Model) (errs : Errs) (region b : Nat) : State :=
  match (s.part p).billetAddr m region b, (s.part p).billetPeat m region b with
  | some a, some c =>
    let a := (s.part p).relieved m.handle a
    let bad := badOf errs
    let out := (s.peatBreach p c 4096 false).isSome
    let lost := out || (List.range 16).any fun i => (s.chunk (c / 256 + i)).2 || bad.contains (c / 256 + i)
    let s := if out then s else s.countChunks p (c / 256) 16 errs
    let s := s.fencedFetch p bad c a 4096
    if lost ∧ (s.lossOf p m.handle region b).isNone then
      (s.sourceLost p m.handle region b).queueRepair p m.handle region b 0x2032 (locPeat (c / 256))
    else s
  | _, _ => s

/-- `STAGING_DONE` (R293, R296, R297, R302): the stream of a member of a staging set, its partner with it, segment by segment; a wait of
the step for it ends here. [DEDUCED: log 48] -/
def execStagingDone (p : Part) (handle region : Nat) (errs : Errs) (s : State) : Host.Outcome State Fault Refusal :=
  .next (
    match (s.part p).model handle with
    | none => s
    | some m =>
      if (s.part p).mayStream m region then
        let member := m.pkg.member region
        let order := (s.part p).moverOrder m member
        let s := order.foldl (fun s x => s.streamBillet p m errs x.1 x.2) s
        let s := s.modPart p fun q =>
          let q := q.modModel handle fun m =>
            { m with staged := member ++ m.staged.filter fun g => !(member.any fun h => q.sameRange handle g h) }
          { q with ctr := { q.ctr with streamedBytes := q.ctr.streamedBytes + 4096 * order.length } }
        s.noteStaging p
      else s)

/-- STEP_PRT_TIMEOUT.US as it counts, in nanoseconds (R199, R210). -/
def StepRegs.timeoutNs (k : StepRegs) : Nat := max 100 (bitsOf k.timeout 15 0) * 1000

/-- `COLLECTIVE_TIMEOUT` (R199): STEP_PRT_TIMEOUT.US after the first message of a program in progress, the step is abandoned, and the
partition quarantined for a CONTAINED fault at the tile of the counter. [DESIGN CHOICE: log 6] -/
def execCollectiveTimeout (p : Part) (tile : Nat) (s : State) : Host.Outcome State Fault Refusal :=
  .next (
    match (s.part p).step with
    | none => s
    | some st =>
      match ((st.runs.filter (·.started)).map (·.startedAt)).min? with
      | some t =>
        let s := (s.passTo (t + (s.part p).stepRegs.timeoutNs)).abandonStep p 1
        s.contained p 0x0002 (locTile (s.siteNum tile)) 1
      | none => s)

end Sys2Proof.Machine
end

