-- ==== Sys2Proof/Machine/Operators.lean ====
section
/-! DEFINITION. The operators of a model's programs but attention, sampling and the scatter (R170-R175, R179-R183): each row runs
the next descriptor of the model's run, where that descriptor has the row's opcode, over the tokens of the run together. -/

namespace Sys2Proof.Machine

/-! ## Running a descriptor -/

/-- What an operator works on. -/
structure OpCtx where
  p : Part
  m : Model
  run : ModelRun
  d : DescRec
  /-- All tokens of the step. -/
  all : List Tok
  /-- The first free value of the operator. -/
  base : Nat

/-- A free value of an operator: an order of additions, or an element that the manual leaves undefined. [DEDUCED: log 31] -/
def OpCtx.fr (x : OpCtx) (a b c : Nat) : Nat := Config.fresh (x.base + (a * 2 ^ 32 + b) * 2 ^ 40 + c)

/-- The free values an operator may draw. [DESIGN CHOICE: log 1] -/
def opDraw : Nat := 2 ^ 100

/-- A token whose results carry poison from here on, with the cause of R211: 0 weight billet, 1 cache page, 2 other. [DEDUCED: log 50] -/
def OpCtx.taint (x : OpCtx) (bad : Bool) (cause : Nat) (t : Tok) : Tok :=
  if bad && t.poison.isNone then { t with poison := some (x.run.program x.m.pkg, cause) } else t

/-- The width of a slot (R158). -/
def OpCtx.width (x : OpCtx) (slot : Nat) : Nat := x.m.pkg.slots.getD slot 0

/-- A slot of a token; one that nothing in the step has written reads free values (R170). [DEDUCED: log 31] -/
def OpCtx.get (x : OpCtx) (i : Nat) (t : Tok) (slot : Nat) : List W16 :=
  match lookupA t.slots slot with
  | some v => v
  | none => (List.range (x.width slot)).map fun j => BitVec.ofNat 16 (x.fr i (0x800000 + slot) j)

/-- A slot of a token written; what `LOGITS` had left in it is gone. [DEDUCED: log 50] -/
def Tok.put (t : Tok) (slot : Nat) (v : List W16) : Tok :=
  { t with slots := insertA t.slots slot v, logits := eraseA t.logits slot }

/-- A slot of a token written by `LOGITS`: FP32 values for `SAMPLE`; a reader of BF16 elements gets them rounded. [DEDUCED: log 50] -/
def Tok.putLogits (t : Tok) (slot : Nat) (l : List W32) : Tok :=
  { t with slots := insertA t.slots slot (l.map bf16OfF32), logits := insertA t.logits slot l }

/-- A route record as its slot holds it: 8 bytes, the expert index and the gate (R180). -/
def routeWords (g : Nat × W32) : List W16 :=
  [BitVec.ofNat 16 g.1, BitVec.ofNat 16 (g.1 / 65536), BitVec.ofNat 16 g.2.toNat, BitVec.ofNat 16 (g.2.toNat / 65536)]

/-- The route records that the elements of a slot spell (R180). -/
def routeOf (v : List W16) : List (Nat × W32) :=
  (List.range (v.length / 4)).map fun j =>
    let w (k : Nat) : Nat := (v.getD (4 * j + k) 0).toNat
    (w 0 + 65536 * w 1, BitVec.ofNat 32 (w 2 + 65536 * w 3))

/-- The route records of a token's slot. -/
def OpCtx.route (x : OpCtx) (i : Nat) (t : Tok) (slot : Nat) : List (Nat × W32) := routeOf (x.get i t slot)

/-- The run after a descriptor: the next descriptor, the next program, the next drafting pass, or the end. -/
def Partition.advance (p : Partition) (st : Step) (k : Package) (run : ModelRun) : ModelRun :=
  let l := k.programOf run.prog
  let pc := run.pc + 1
  let again := match run.kind with
    | .drafting d => run.prog == k.model.layers + 1 && pc + 2 == l.length && decide (d < p.lastPass st run)
    | _ => false
  if again then
    { run with kind := (match run.kind with | .drafting d => .drafting (d + 1) | x => x), prog := 0, pc := 0, started := false }
  else if pc < l.length then { run with pc := pc }
  else if run.prog + 1 < k.runLength then { run with prog := run.prog + 1, pc := 0, started := false }
  else { run with pc := pc, started := false, finished := true }

/-- The verdicts of the requests that a run drafts for exist, so that its scatter may go on (R205, R207). -/
def Step.judged (st : Step) (run : ModelRun) : Bool :=
  st.toks.all fun t => !run.hasFor 14 t || st.verdicts.any (fun v => v.req == t.req) ||
    (st.toks.any fun u => u.req == t.req && !u.draft && u.poison.isSome)

/-- The run that executes an operator of a model: the first that has begun its program and stands at a descriptor of that
opcode; a drafting run goes past its passes once they are complete and judged. [DESIGN CHOICE: log 5] -/
def Partition.runFor (p : Partition) (st : Step) (m : Model) (op : Nat) : Option (Nat × ModelRun × DescRec) :=
  (List.range st.runs.length).findSome? fun i =>
    (st.runs[i]?).bind fun run =>
      ((m.pkg.programOf run.prog)[run.pc]?).bind fun d =>
        let free : Bool := match run.kind with
          | .drafting _ => decide (op < 14) || (p.drafted st run && st.judged run)
          | _ => true
        if run.handle = m.handle ∧ run.started ∧ !run.finished ∧ d.op = op ∧ free then some (i, run, d) else none

/-- An operator runs: its body gives the state after its reads, and the run's tokens anew. -/
def State.operate (s : State) (p : Part) (handle op : Nat)
    (body : OpCtx → State → List Tok → State × List Tok) : State :=
  match (s.part p).step, (s.part p).model handle with
  | some st, some m =>
    match (s.part p).runFor st m op with
    | none => s
    | some (i, run, d) =>
      let x : OpCtx := { p := p, m := m, run := run, d := d, all := st.toks, base := s.fresh }
      let (s, toks) := body x { s with fresh := s.fresh + opDraw } (st.toks.filter (run.hasFor op))
      (s.modPart p fun q =>
        match q.step with
        | none => q
        | some st =>
          let put (acc : List Tok × List Tok) (t : Tok) : List Tok × List Tok :=
            if run.hasFor op t then (acc.1 ++ [acc.2.headD t], acc.2.tail) else (acc.1 ++ [t], acc.2)
          let merged := (st.toks.foldl put ([], toks)).1
          let run' := q.advance st m.pkg run
          { q with step := some { st with toks := merged, runs := st.runs.set i run' } }).noteStaging p
  | _, _ => s

/-- An operator without reads, token by token. -/
def State.mapToks (s : State) (p : Part) (handle op : Nat) (f : OpCtx → Nat → Tok → Tok) : State :=
  s.operate p handle op fun x s toks => (s, toks.mapIdx fun i t => f x i t)

/-! ## Weights -/

/-- An address of a region after relief: of the region's own model, or of the exporter's for a bound region (R190, R334). -/
def State.regionAddr (s : State) (p : Part) (m : Model) (region addr : Nat) : Nat :=
  match m.bound.find? fun b => b.1 == region with
  | some (_, q, h) => (allParts.filter fun x => x.val == q).foldl (fun a x => (s.part x).relieved h a) addr
  | none => (s.part p).relieved m.handle addr

/-- The sheet addresses of a tile's data and scales. -/
def State.tileAt (s : State) (p : Part) (m : Model) (x : MatrixRec) (t : Nat) : Option (Nat × Nat) :=
  let (r, g, row, sb) := x.tilePlace t
  ((s.part p).place m.handle r).map fun pl =>
    let base := s.regionAddr p m r ((pl.sheetFirst + g) * segBytes)
    (base + row * 1024, base + m.pkg.segData r * 4096 + sb)

/-- Bytes of a tile's codes. -/
def MatrixRec.dataBytes (x : MatrixRec) : Nat :=
  ceilDiv ((if x.rowTable then x.inp else 64 * x.tileK) * fmtBits x.format) 8

/-- The ranges of sheet memory that tiles lie in. -/
def State.tileRanges (s : State) (p : Part) (m : Model) (x : MatrixRec) (tiles : List Nat) : List (Nat × Nat) :=
  tiles.flatMap fun t => match s.tileAt p m x t with
    | some (a, b) => (a, x.dataBytes) :: if x.tsb = 0 then [] else [(b, x.tsb)]
    | none => []

/-- Reads of ranges with a command's decoder outcomes. -/
def State.readRanges (s : State) (p : Part) (via : Nat) (ranges : List (Nat × Nat)) (errs : Errs) : State :=
  ranges.foldl (fun s r => s.readRange (some p) via r.1 r.2 errs) s

/-- Some block of some range is unreadable. -/
def State.anyPoison (s : State) (ranges : List (Nat × Nat)) : Bool := ranges.any fun r => s.rangePoisoned r.1 r.2

/-- A scale code of sheet memory. -/
def State.scaleCode (s : State) (fmt addr i : Nat) : Nat :=
  let n := fmtScaleBytes fmt
  leNat (s.sheet.readN (addr + i * n) n)

/-- The tile of an output group and input group of an expert. -/
def MatrixRec.tileOf (x : MatrixRec) (e n kt : Nat) : Nat := (e * (x.out / 64) + n) * (x.inp / x.tileK) + kt

/-- What one tile gives to one output, as the terms of its sum (R110, R115): in decode, of each scale block the sum of its products under
its scale, or without scales every product; in prefill the products of the decoded weights. A zero-range block decodes to +0 elements
(R135, R136). -/
def State.tileTerms (s : State) (p : Part) (m : Model) (x : MatrixRec) (prefill : Bool) (order : Nat → Nat) (t o : Nat)
    (v : List W16) : List W32 :=
  match s.tileAt p m x t with
  | none => []
  | some (data, scales) =>
    let f := x.format
    let code (k : Nat) : Nat := s.sheet.code f data (k * 64 + o)
    if fmtScaleBytes f = 0 then
      (List.range x.tileK).map fun k =>
        if prefill then f32Mul (weightVal f (code k) 0) (f32OfBf16 (v.getD k 0)) else nbProduct f (code k) (v.getD k 0)
    else
      let bs := fmtBlock f
      (List.range (x.tileK / bs)).flatMap fun b =>
        let sc := s.scaleCode f scales (b * 64 + o)
        let ks := (List.range bs).map fun j => b * bs + j
        if prefill then ks.map fun k => f32Mul (weightVal f (code k) sc) (f32OfBf16 (v.getD k 0))
        else
          let part (zero : Bool) : W32 :=
            f32Sum (order b) (f32Zero :: ks.map fun k => nbProduct f (if zero then 0 else code k) (v.getD k 0))
          [match scaleVal f sc with
            | none => part true
            | some w => f32Enc (w.times (f32Val (part false)))]

/-- The terms of one output of one matrix of a group: those of its tiles (R115). -/
def State.matTerms (s : State) (p : Part) (m : Model) (x : MatrixRec) (prefill : Bool) (order : Nat → Nat) (e o : Nat)
    (v : List W16) : List W32 :=
  (List.range (x.inp / x.tileK)).flatMap fun kt =>
    s.tileTerms p m x prefill (fun b => order (kt * 0x20000 + b)) (x.tileOf e (o / 64) kt) (o % 64) ((v.drop (kt * x.tileK)).take x.tileK)

/-- The tiles of one matrix of a group. -/
def MatrixRec.expertTiles (x : MatrixRec) (e : Nat) : List Nat :=
  (List.range (x.out / 64 * (x.inp / x.tileK))).map fun i => e * (x.out / 64 * (x.inp / x.tileK)) + i

/-- The terms that privileged channels give to an output (R137): in decode the activation is scaled and rounded to BF16; in prefill the
code takes the scale, and a channel of scale +0 decodes to exact zeros. -/
def State.channelTerms (s : State) (p : Part) (m : Model) (x : MatrixRec) (prefill : Bool) (order : Nat → Nat) (e o : Nat)
    (v : List W16) : List W32 :=
  if x.chCount = 0 then []
  else match m.pkg.matrices[x.chMatrix]? with
    | none => []
    | some c =>
      let chs := (m.channels.drop x.chFirst).take x.chCount
      if prefill then
        (List.range chs.length).flatMap fun j =>
          match chs[j]?, s.tileAt p m c (c.tileOf e (o / 64) (j / c.tileK)) with
          | some ch, some (data, _) =>
            let w := f32Enc ((elemVal 6 (s.sheet.code 6 data (j % c.tileK * 64 + o % 64))).times (f32Val ch.scale))
            [f32Mul (if ch.scale = 0 then f32Zero else w) (f32OfBf16 (v.getD ch.k 0))]
          | _, _ => []
      else
        let u := chs.map fun ch => bf16OfF32 (f32Mul (f32OfBf16 (v.getD ch.k 0)) ch.scale)
        s.matTerms p m c false (fun n => order (n + 0x1000000)) e o (u ++ List.replicate (c.inp - u.length) 0)

/-- The product of one matrix of a group with a vector, its privileged channels among it, in FP32: accumulators start at 0, and the
order of the additions, within a tile and among tiles, is open (R113, R115, R133). [DEDUCED: log 50] -/
def State.fullVec (s : State) (p : Part) (m : Model) (x : MatrixRec) (prefill : Bool) (order : Nat → Nat → Nat) (e : Nat)
    (v : List W16) : List W32 :=
  (List.range x.out).map fun o =>
    f32Sum (order o 0xFFFFF)
      (f32Zero :: (s.matTerms p m x prefill (order o) e o v ++ s.channelTerms p m x prefill (order o) e o v))

/-- The ranges of one matrix of a group, its channel matrix's among them. -/
def State.expertRanges (s : State) (p : Part) (m : Model) (x : MatrixRec) (e : Nat) : List (Nat × Nat) :=
  s.tileRanges p m x (x.expertTiles e) ++
    if x.chCount = 0 then [] else match m.pkg.matrices[x.chMatrix]? with
      | some c => s.tileRanges p m c (c.expertTiles e)
      | none => []

/-- The ranges of a vector reference (R169). -/
def State.vecRanges (s : State) (p : Part) (m : Model) (region billet n : Nat) : List (Nat × Nat) :=
  if region = none32 then []
  else (List.range (ceilDiv n 2048)).filterMap fun i =>
    ((s.part p).billetAddr m region (billet + i)).map fun a => (s.regionAddr p m region a, 2 * min 2048 (n - 2048 * i))

/-- A BF16 vector, or nothing where there is none. -/
def State.vec? (s : State) (p : Part) (m : Model) (region billet n : Nat) : Option (List W16) :=
  if region = none32 then none
  else some ((s.vecRanges p m region billet n).flatMap fun r => s.sheet.bf16s r.1 (r.2 / 2))

/-- A prefill token (R171): of a split. -/
def Tok.prefill (t : Tok) : Bool := match t.kind with | .split _ => true | _ => false

/-- Reads of an operator by the engines of its two paths (R171, R237): `near` by near-bank units, `bond` over the bond. What both
paths read of the same memory is met once, by the units. [DEDUCED: log 50] -/
def State.readPaths (s : State) (p : Part) (near bond : List (Nat × Nat)) (errs : Errs) : State :=
  (s.readRanges p 2 near errs).readRanges p 0 (bond.filter fun r => !near.contains r) errs

/-! ## Rows -/

/-- `EMBED` (R172). -/
def embedBody (errs : Errs) (x : OpCtx) (s : State) (toks : List Tok) : State × List Tok :=
  match x.m.pkg.matrices[x.d.obj0]? with
  | none => (s, toks)
  | some mx =>
    let s := s.readRanges x.p 0 (s.tileRanges x.p x.m mx (toks.map (·.token)).eraseDups) errs
    let bs := fmtBlock mx.format
    (s, toks.map fun t =>
      match s.tileAt x.p x.m mx t.token with
      | none => t
      | some (data, scales) =>
        let row := (List.range mx.inp).map fun k =>
          bf16OfF32 (f32Mul (weightVal mx.format (s.sheet.code mx.format data k)
            (if mx.tsb = 0 then 0 else s.scaleCode mx.format scales (k / bs))) (x.d.f32 20))
        (x.taint (s.anyPoison (s.tileRanges x.p x.m mx [t.token])) 0 t).put x.d.out row)

/-- `EMBED`. -/
def execEmbed (p : Part) (handle : Nat) (errs : Errs) (s : State) : Host.Outcome State Fault Refusal :=
  .next (s.operate p handle 1 (embedBody errs))

/-- `RMS_NORM` of one vector (R173). [DEDUCED: log 50] -/
def rmsNorm (order : Nat) (eps : W32) (gain : Option (List W16)) (v : List W16) : List W16 :=
  let xs := v.map f32OfBf16
  let root := f32Sqrt (f32Add (f32Div (f32Dot order xs xs) (f32OfInt xs.length)) eps)
  xs.mapIdx fun i a => bf16OfF32 (f32Mul (f32Div a root) (match gain with | some g => f32OfBf16 (g.getD i 0) | none => f32One))

/-- `LAYER_NORM` of one vector (R173). [DEDUCED: log 50] -/
def layerNorm (order : Nat) (eps : W32) (gain bias : Option (List W16)) (v : List W16) : List W16 :=
  let xs := v.map f32OfBf16
  let n := f32OfInt xs.length
  let mean := f32Div (f32Sum order xs) n
  let ds := xs.map fun a => f32Sub a mean
  let root := f32Sqrt (f32Add (f32Div (f32Dot (order / 2) ds ds) n) eps)
  ds.mapIdx fun i a =>
    bf16OfF32 (f32Add (f32Mul (f32Div a root) (match gain with | some g => f32OfBf16 (g.getD i 0) | none => f32One))
      (match bias with | some b => f32OfBf16 (b.getD i 0) | none => f32Zero))

/-- `RMS_NORM` over the tokens of a run. -/
def rmsNormBody (errs : Errs) (x : OpCtx) (s : State) (toks : List Tok) : State × List Tok :=
  let n := x.width x.d.in0
  let ranges := s.vecRanges x.p x.m (x.d.par 24 4) (x.d.par 28 4) n
  let s := s.readRanges x.p 0 ranges errs
  let g := s.vec? x.p x.m (x.d.par 24 4) (x.d.par 28 4) n
  (s, toks.mapIdx fun i t =>
    (x.taint (s.anyPoison ranges) 0 t).put x.d.out (rmsNorm (x.fr i 0 0) (x.d.f32 20) g (x.get i t x.d.in0)))

/-- `RMS_NORM`. -/
def execRmsNorm (p : Part) (handle : Nat) (errs : Errs) (s : State) : Host.Outcome State Fault Refusal :=
  .next (s.operate p handle 2 (rmsNormBody errs))

/-- `LAYER_NORM` over the tokens of a run. -/
def layerNormBody (errs : Errs) (x : OpCtx) (s : State) (toks : List Tok) : State × List Tok :=
  let n := x.width x.d.in0
  let ranges := s.vecRanges x.p x.m (x.d.par 24 4) (x.d.par 28 4) n ++ s.vecRanges x.p x.m (x.d.par 32 4) (x.d.par 36 4) n
  let s := s.readRanges x.p 0 ranges errs
  let g := s.vec? x.p x.m (x.d.par 24 4) (x.d.par 28 4) n
  let b := s.vec? x.p x.m (x.d.par 32 4) (x.d.par 36 4) n
  (s, toks.mapIdx fun i t =>
    (x.taint (s.anyPoison ranges) 0 t).put x.d.out (layerNorm (x.fr i 0 0) (x.d.f32 20) g b (x.get i t x.d.in0)))

/-- `LAYER_NORM`. -/
def execLayerNorm (p : Part) (handle : Nat) (errs : Errs) (s : State) : Host.Outcome State Fault Refusal :=
  .next (s.operate p handle 3 (layerNormBody errs))

/-- The experts of a token that exist and were kept. -/
def keptExperts (mx : MatrixRec) (l : List (Nat × W32)) : List Nat := (l.map (·.1)).filter fun e => decide (e < mx.experts)

/-- `LINEAR` (R174): one matrix and its bias, or a product per selected expert in the order of the selection; dropped and absent
experts give zeros. -/
def linearBody (errs : Errs) (x : OpCtx) (s : State) (toks : List Tok) : State × List Tok :=
  match x.m.pkg.matrices[x.d.obj0]? with
  | none => (s, toks)
  | some mx =>
    let experts (i : Nat) (t : Tok) : List Nat := if mx.expert then keptExperts mx (x.route i t x.d.in1) else [0]
    let read (pre : Bool) : List (Nat × Nat) :=
      ((toks.mapIdx fun i t => if t.prefill = pre then experts i t else []).flatten.eraseDups).flatMap fun e =>
        s.expertRanges x.p x.m mx e
    let bias := s.vecRanges x.p x.m (x.d.par 24 4) (x.d.par 28 4) mx.out
    let s := s.readPaths x.p (read false) (read true ++ if mx.expert then [] else bias) errs
    let c := s.vec? x.p x.m (x.d.par 24 4) (x.d.par 28 4) mx.out
    (s, toks.mapIdx fun i t =>
      let v := x.get i t x.d.in0
      let bad := s.anyPoison (((experts i t).flatMap fun e => s.expertRanges x.p x.m mx e) ++ if mx.expert then [] else bias)
      let y : List W16 :=
        if mx.expert then
          (x.route i t x.d.in1).mapIdx (fun j r =>
            if r.1 < mx.experts then
              (s.fullVec x.p x.m mx t.prefill (fun o n => x.fr i (j * 0x40000 + o) n) r.1 v).map bf16OfF32
            else List.replicate mx.out 0) |>.flatten
        else
          let y := s.fullVec x.p x.m mx t.prefill (fun o n => x.fr i o n) 0 v
          match c with
          | some c => y.mapIdx fun o a => bf16OfF32 (f32Add a (f32OfBf16 (c.getD o 0)))
          | none => y.map bf16OfF32
      (x.taint bad 0 t).put x.d.out y)

/-- `LINEAR`. -/
def execLinear (p : Part) (handle : Nat) (errs : Errs) (s : State) : Host.Outcome State Fault Refusal :=
  .next (s.operate p handle 4 (linearBody errs))

/-! ### Rotation (R167) -/

/-- The angle of element pair `i` at a position. -/
def RotaryRec.theta (r : RotaryRec) (i pos : Nat) : Int :=
  let w := fxPow (f32Val r.base) (fxDiv (-(2 * (i : Int)) * fxOne) (r.rotDims * fxOne))
  let lambda := if w = 0 then 0 else fxDiv (2 * fxPi) w
  let lo := fxOf (f32Val r.wlLo)
  let hi := fxOf (f32Val r.wlHi)
  let ramp : Int :=
    if lo = 0 ∧ hi = 0 then fxOne
    else if lo = hi then (if lambda < lo then 0 else fxOne)
    else max 0 (min fxOne (fxDiv (lambda - lo) (hi - lo)))
  let w' := fxMul w ((fxOne - ramp) + fxDiv ramp (fxOf (f32Val r.freq)))
  fxMul (fxDiv (pos * fxOne) (fxOf (f32Val r.linear))) w'

/-- The elements of pair `i` of a head whose rotation starts at `off`. -/
def RotaryRec.pair (r : RotaryRec) (off i : Nat) : Nat × Nat :=
  if r.pairing = 0 then (off + 2 * i, off + 2 * i + 1) else (off + i, off + i + r.rotDims / 2)

/-- A vector rotated at a position, its head's rotated part at `off`: in FP32, rounded to BF16. -/
def RotaryRec.rotate (r : RotaryRec) (off pos : Nat) (v : List W16) : List W16 :=
  (List.range (r.rotDims / 2)).foldl (fun v i =>
    let (a, b) := r.pair off i
    let x := f32OfBf16 (v.getD a 0)
    let y := f32OfBf16 (v.getD b 0)
    let c := f32Cos (r.theta i pos)
    let n := f32Sin (r.theta i pos)
    (v.set a (bf16OfF32 (f32Sub (f32Mul x c) (f32Mul y n)))).set b (bf16OfF32 (f32Add (f32Mul x n) (f32Mul y c)))) v

/-- `ROPE` of one vector (R175). -/
def ropeHeads (r : RotaryRec) (heads dim off pos : Nat) (v : List W16) : List W16 :=
  (List.range heads).foldl (fun v h => r.rotate (h * dim + off) pos v) v

/-- `ROPE`. -/
def execRope (p : Part) (handle : Nat) (s : State) : Host.Outcome State Fault Refusal :=
  .next (s.mapToks p handle 5 fun x i t =>
    match x.m.pkg.rotaries[x.d.obj0]? with
    | none => t
    | some r => t.put x.d.out (ropeHeads r (x.d.par 20 2) (x.d.par 22 2) (x.d.par 24 2) t.pos (x.get i t x.d.in0)))

/-- An entry in BF16 as it lies in memory, padded (R116). -/
def entryBytes (sh : ShardRec) (t0 t1 : List W16) : List Byte :=
  let v := t0 ++ t1
  (v ++ List.replicate (sh.padded - v.length) 0).flatMap fun (a : W16) => leBytes 2 a.toNat

/-- `KV_APPEND` over the tokens of a run (R176): the entries are held, those of tree nodes and of a draft model's passes in the
scratch buffers of their requests (R223). -/
def kvAppendBody (x : OpCtx) (s : State) (toks : List Tok) : State × List Tok :=
  match x.m.pkg.shards[x.d.obj0]? with
  | none => (s, toks)
  | some sh =>
    let picks := match (s.part x.p).step with | some st => st.picks | none => []
    let toks := toks.mapIdx fun i t =>
      let t1 := if sh.dim1 = 0 then [] else (x.get i t x.d.in1).take sh.dim1
      { t with held := t.held ++ [HeldEntry.mk x.d.obj0 ((x.get i t x.d.in0).take sh.dim0) t1] }
    (toks.foldl (fun (s : State) t =>
      match (s.part x.p).scratchPlace picks t x.d.obj0, t.held.getLast? with
      | some a, some h => s.fencedPut x.p a (cutBlocks (entryBytes sh h.t0 h.t1) (sh.padded / 32))
      | _, _ => s) s, toks)

/-- `KV_APPEND` (R176). -/
def execKvAppend (p : Part) (handle : Nat) (s : State) : Host.Outcome State Fault Refusal :=
  .next (s.operate p handle 6 kvAppendBody)

/-- `ACT` (R179). -/
def execAct (p : Part) (handle : Nat) (s : State) : Host.Outcome State Fault Refusal :=
  .next (s.mapToks p handle 8 fun x i t =>
    let v := x.get i t x.d.in0
    let gate : Option (List W16) := if x.d.in1 = 0xFF then none else some (x.get i t x.d.in1)
    t.put x.d.out (v.mapIdx fun j a => bf16Act (x.d.par 20 1) a (gate.map fun g => g.getD j 0)))

/-! ### `ROUTE` (R180) -/

/-- A router logit: NaN counts as −∞. -/
def routerLogit (a : W16) : W32 := if f32IsNaN (f32OfBf16 a) then f32NegInf else f32OfBf16 a

/-- p(e) of a token's logits. -/
def routerProbs (order gating : Nat) (v : List W16) : List W32 :=
  let l := v.map routerLogit
  if gating = 1 then
    l.map fun a => if a = f32NegInf then f32Zero else f32Div f32One (f32Add f32One (f32Exp (f32Neg a)))
  else
    let top := l.foldl f32Max f32NegInf
    if top = f32NegInf then l.map fun _ => f32Zero
    else
      let es := l.map fun a => if a = f32NegInf then f32Zero else f32Exp (f32Sub a top)
      let sum := f32Sum order es
      es.map fun e => f32Div e sum

/-- Ranking of `chosen`: higher first, NaN below every number, the lower index on a tie. -/
def rankBefore (x y : Nat × W32) : Bool :=
  if f32IsNaN x.2 then f32IsNaN y.2 && decide (x.1 < y.1)
  else f32IsNaN y.2 || f32Lt y.2 x.2 || (!f32Lt x.2 y.2 && decide (x.1 < y.1))

/-- A token's selection: expert and gate. [DEDUCED: log 50] -/
def routeOne (order gating topK : Nat) (normalise : Bool) (scale : W32) (bias : Option (List W16)) (v : List W16) :
    List (Nat × W32) :=
  let ps := routerProbs order gating v
  let rank := ps.mapIdx fun e q => (e, match bias with | some b => f32Add q (f32OfBf16 (b.getD e 0)) | none => q)
  let chosen := ((sortBy rankBefore rank).take topK).map (·.1)
  let gs := chosen.map fun e => (e, ps.getD e f32Zero)
  let sum := f32Sum (order / 2) (gs.map (·.2))
  gs.map fun g =>
    let a := if normalise then (if sum = f32Zero then f32Zero else f32Div g.2 sum) else g.2
    (g.1, f32Mul scale a)

/-- ⌈CAPACITY × T × TOP_K ÷ E⌉; none without a capacity (R180). -/
def capacityOf (cap : W32) (t topK e : Nat) : Option Nat :=
  match f32Val cap with
  | .fin false m ex =>
    if m = 0 then none
    else
      let n := m * t * topK
      some (if 0 ≤ ex then ceilDiv (n * 2 ^ ex.toNat) e else ceilDiv n (e * 2 ^ (-ex).toNat))
  | _ => none

/-- The assignments of an expert beyond its capacity are dropped, lowest gate first, the later token first among equals: the
records of every token, and how many were dropped. -/
def dropExcess (cap : Option Nat) (experts : Nat) (l : List (List (Nat × W32))) : List (List (Nat × W32)) × Nat :=
  match cap with
  | none => (l, 0)
  | some c =>
    (List.range experts).foldl (fun acc e =>
      let mine := (acc.1.mapIdx fun i r => r.filterMap fun y => if y.1 = e then some (i, y.2) else none).flatten
      let keep := ((sortBy (fun x y => f32Lt y.2 x.2 || (!f32Lt x.2 y.2 && decide (x.1 < y.1))) mine).take c).map (·.1)
      (acc.1.mapIdx fun i r => r.map fun y => if y.1 = e ∧ !keep.contains i then (none32, f32Zero) else y,
        acc.2 + (mine.length - c))) (l, 0)

/-- The records of a token whose router is narrower than TOP_K, filled up: what they hold the manual does not say. [DEDUCED: log 31] -/
def OpCtx.fillRoute (x : OpCtx) (i topK : Nat) (l : List (Nat × W32)) : List (Nat × W32) :=
  l ++ (List.range (topK - l.length)).map fun j => (x.fr i 0x720000 (2 * j) % 2 ^ 32, BitVec.ofNat 32 (x.fr i 0x720000 (2 * j + 1)))

/-- `ROUTE` over the tokens of a run: selections, then the capacity rule over them all (R200). OUT holds TOP_K records for each token. -/
def routeBody (errs : Errs) (x : OpCtx) (s : State) (toks : List Tok) : State × List Tok :=
  let e := x.width x.d.in0
  let topK := x.d.par 21 1
  let ranges := s.vecRanges x.p x.m (x.d.par 32 4) (x.d.par 36 4) e
  let s := s.readRanges x.p 0 ranges errs
  let b := s.vec? x.p x.m (x.d.par 32 4) (x.d.par 36 4) e
  let sel := toks.mapIdx fun i t =>
    routeOne (x.fr i 0 0) (x.d.par 20 1) topK (x.d.par 22 1 % 2 == 1) (x.d.f32 24) b (x.get i t x.d.in0)
  let (sel, dropped) := dropExcess (capacityOf (x.d.f32 28) toks.length topK (max 1 e)) e sel
  let s := s.modPart x.p fun q => q.modStepRegs fun k => { k with moeDrop := satAdd k.moeDrop dropped }
  (s, toks.mapIdx fun i t =>
    let t := x.taint (s.anyPoison ranges) 0 t
    t.put x.d.out ((x.fillRoute i topK (sel.getD i [])).flatMap routeWords))

/-- `ROUTE`. -/
def execRoute (p : Part) (handle : Nat) (errs : Errs) (s : State) : Host.Outcome State Fault Refusal :=
  .next (s.operate p handle 9 (routeBody errs))

/-- `COMBINE` (R181): a dropped record adds zero. -/
def execCombine (p : Part) (handle : Nat) (s : State) : Host.Outcome State Fault Refusal :=
  .next (s.mapToks p handle 10 fun x i t =>
    let w := x.width x.d.out
    let v := x.get i t x.d.in0
    let r := x.route i t x.d.in1
    t.put x.d.out ((List.range w).map fun o =>
      bf16OfF32 (f32Sum (x.fr i o 0) (r.mapIdx fun j g =>
        if g.1 = none32 then f32Zero else f32Mul g.2 (f32OfBf16 (v.getD (j * w + o) 0))))))

/-- `ADD` (R182). -/
def execAdd (p : Part) (handle : Nat) (s : State) : Host.Outcome State Fault Refusal :=
  .next (s.mapToks p handle 11 fun x i t =>
    t.put x.d.out (List.zipWith bf16Add (x.get i t x.d.in0) (x.get i t x.d.in1)))

/-! ### `LOGITS` (R183) -/

/-- SCALE and SOFTCAP of a logit. [DESIGN CHOICE: log 30] -/
def capLogit (scale cap l : W32) : W32 :=
  let l := f32Mul scale l
  if f32Lt f32Zero cap then f32Mul cap (Config.tanhF (f32Div l cap)) else l

/-- `LOGITS` over the tokens that yield an output. -/
def logitsBody (errs : Errs) (x : OpCtx) (s : State) (toks : List Tok) : State × List Tok :=
  match x.m.pkg.matrices[x.d.obj0]? with
  | none => (s, toks)
  | some mx =>
    let ranges := s.expertRanges x.p x.m mx 0
    let s := if toks.any (·.yields) then s.readRanges x.p 2 ranges errs else s
    (s, toks.mapIdx fun i t =>
      if t.yields then
        let y := s.fullVec x.p x.m mx false (fun o n => x.fr i o n) 0 (x.get i t x.d.in0)
        let t := x.taint (s.anyPoison ranges) 0 t
        t.putLogits x.d.out (y.map (capLogit (x.d.f32 20) (x.d.f32 24)))
      else t)

/-- `LOGITS`. -/
def execLogits (p : Part) (handle : Nat) (errs : Errs) (s : State) : Host.Outcome State Fault Refusal :=
  .next (s.operate p handle 12 (logitsBody errs))

end Sys2Proof.Machine
end

