-- ==== Sys2Proof/Machine/Attend.lean ====
section
/-! DEFINITION. Attention in decode, verify and prefill (R177, R178, R237-R252): the positions a query attends to, pieces, their
partials, and the merges. -/

namespace Sys2Proof.Machine

/-! ## Entries -/

/-- An entry that a query may attend to: its position, its tile and piece, and how it is held. -/
structure Cand where
  pos : Nat
  /-- Piece, and the tile it runs on; the held piece has no tile of its own. -/
  piece : Nat
  tile : Option Nat
  /-- Format, codes and scales of a page entry; none for an entry in BF16 (held, or escaped). -/
  coded : Option (Nat × List Nat × W32 × W32)
  t0 : List W16
  t1 : List W16
  bad : Bool

/-- The smallest bucket boundary that is not less than a bucket length (R36, R242). -/
def bucketBound (buckets : W16) (n : Nat) : Nat :=
  (((List.range 12).filter fun k => buckets.getLsbD k).map fun k => 2 ^ (k + 9)).find? (fun u => decide (n ≤ u)) |>.getD 1048576

/-- KV_PRT_PIECE.POSITIONS as it counts (R252). -/
def Partition.piecePositions (p : Partition) : Nat :=
  max 64 (bitsOf (match p.step with | some st => st.piece | none => p.kv.piece) 15 0 / 64 * 64)

/-- Lengths of the pieces of a tile's `n` pages for a target of `k` (R242). -/
def pieceSizes (n k : Nat) : List Nat :=
  let k := min n k
  if k = 0 then [] else (List.range k).map fun i => if i < n % k then ceilDiv n k else n / k

/-- The piece of each of a tile's pages, in list order, numbered from `first`. -/
def pieceNumbers (first : Nat) (sizes : List Nat) : List Nat :=
  (sizes.mapIdx fun i n => List.replicate n (first + i)).flatten

/-- The pages of a list that hold committed positions: list entry and view. -/
def Model.openPages (m : Model) (c : Chain) : List (Nat × PageView) :=
  (List.range c.words.length).filterMap fun j => (c.words[j]?).bind fun w => (m.view w).bind fun v =>
    if 0 < v.desc.valid ∧ v.desc.fmt.isSome then some (j, v) else none

/-- The pieces of a request and shard (R241, R242): each page with its piece and tile, and how many pieces there are. -/
def cutPieces (target : Nat) (pages : List (Nat × PageView)) : List (Nat × PageView × Nat × Nat) × Nat :=
  let tileOf (v : PageView) : Nat := v.addr / segBytes / stackSegs
  let tiles := (pages.map fun x => tileOf x.2).eraseDups
  tiles.foldl (fun acc t =>
    let mine := pages.filter fun x => tileOf x.2 == t
    let sizes := pieceSizes mine.length target
    (acc.1 ++ (List.zip mine (pieceNumbers acc.2 sizes)).map fun x => (x.1.1, x.1.2, x.2, t), acc.2 + sizes.length)) ([], 0)

/-- Committed positions that a step reads from a shard's pages (R242). -/
def bucketLength (sh : ShardRec) (length : Nat) : Nat :=
  match sh.ringLen with | some r => min length (64 * r) | none => length

/-- The pieces of a request's shard (R242). -/
def Partition.piecesOf (p : Partition) (m : Model) (sh : ShardRec) (r : Req) (c : Chain) :
    List (Nat × PageView × Nat × Nat) × Nat :=
  let u := bucketBound p.role.buckets (bucketLength sh r.length)
  let n := ceilDiv u p.piecePositions
  cutPieces (ceilDiv n (max 1 (m.pkg.shardParts sh).length)) (m.openPages c)

/-- The entries of a page below its VALID, as held (R239, R240). -/
def State.pageCands (s : State) (sh : ShardRec) (length : Nat) (x : Nat × PageView × Nat × Nat) : List Cand :=
  let v := x.2.1
  let f := v.desc.fmt.getD 0
  let n := sh.dim0 + sh.dim1
  (List.range v.desc.valid).map fun t =>
    let (codes, bad) := s.entryCodes v.addr f n t
    let y := placeValue sh f t v.entry v.esc codes
    let slot := v.escSlot t
    let lostSlot : Bool := match slot with
      | some k => (match v.escAt k with | some a => s.rangePoisoned a (2 * n) | none => false)
      | none => false
    let (s0, s1) := match v.entry with | some e => (e.scale0, e.scale1) | none => (f32One, f32One)
    { pos := sh.posOf x.1 t length, piece := x.2.2.1, tile := some x.2.2.2
      coded := if slot.isSome then none else some (f, codes, s0, s1), t0 := y.1, t1 := y.2, bad := bad || lostSlot }

/-- A token attends to a held entry of another token of its request and run (R177, R251). -/
def attendsHeld (all : List Tok) (t u : Tok) : Nat → Bool
  | 0 => false
  | fuel + 1 =>
    t.kind == u.kind ||
      match t.kind with
      | .split i => (match u.kind with | .split j => decide (j ≤ i) | _ => false)
      | .root => false
      | .node _ =>
        let up (x : Tok) : Bool := x.req == t.req && x.model == t.model && x.draft == t.draft &&
          (if t.parent = 32 then x.kind == .root else x.kind == .node t.parent)
        match all.find? up with
        | some v => attendsHeld all v u fuel
        | none => false

/-- The held entries of a shard to which a token attends, from SRAM or from the scratch buffer (R223); `piece` numbers the held piece. -/
def State.heldCands (s : State) (q : Partition) (sh : ShardRec) (all : List Tok) (t : Tok) (shard piece : Nat) : List Cand :=
  let picks := match q.step with | some st => st.picks | none => []
  (all.filter fun u => u.req == t.req && u.model == t.model && u.draft == t.draft && attendsHeld all t u 40).flatMap fun u =>
    ((u.held.filter fun h => h.shard == shard).map fun h =>
      let c : Cand := { pos := u.pos, piece := piece, tile := none, coded := none, t0 := h.t0, t1 := h.t1, bad := false }
      match q.scratchPlace picks u shard with
      | some a => { c with
          t0 := s.sheet.bf16s a sh.dim0, t1 := s.sheet.bf16s (a + 2 * sh.dim0) sh.dim1, bad := s.rangePoisoned a (2 * sh.padded) }
      | none => c)

/-! ## Scores (R238, R239, R244, R248) -/

/-- Width of a key head. -/
def ShardRec.headDim (sh : ShardRec) : Nat := sh.dim0 / max 1 sh.heads

/-- An element is rotated by the shard's rotary set (R167, R238). -/
def rotated (sh : ShardRec) (rot : Option RotaryRec) (e : Nat) : Bool :=
  match rot with
  | none => false
  | some r =>
    if sh.kind = 1 then decide (sh.dim0 ≤ e) else decide (e < sh.dim0) && decide (e % max 1 sh.headDim < r.rotDims)

/-- An element block is a rotary block (R238). -/
def rotaryBlock (sh : ShardRec) (rot : Option RotaryRec) (b : Nat) : Bool :=
  (List.range 64).any fun i => decide (64 * b + i < sh.dim0 + sh.dim1) && rotated sh rot (64 * b + i)

/-- An entry in BF16 with its keys rotated at its position (R248). -/
def rotatedEntry (sh : ShardRec) (rot : Option RotaryRec) (c : Cand) : List W16 :=
  match rot with
  | none => c.t0 ++ c.t1
  | some r =>
    if sh.kind = 1 then c.t0 ++ r.rotate 0 c.pos c.t1
    else ropeHeads r sh.heads sh.headDim 0 c.pos c.t0 ++ c.t1

/-- A score before SOFTMAX_SCALE: bank and rotary parts in decode, every element widened otherwise. `q` pairs elements of the
entry with the query. -/
def scoreOf (sh : ShardRec) (rot : Option RotaryRec) (prefill : Bool) (order : Nat) (q : List (Nat × W16)) (c : Cand) : W32 :=
  let key := rotatedEntry sh rot c
  let wide (l : List (Nat × W16)) : W32 :=
    f32Sum order (l.map fun x => f32Mul (f32OfBf16 (key.getD x.1 0)) (f32OfBf16 x.2))
  match c.coded with
  | none => wide q
  | some (f, codes, s0, _) =>
    if prefill then wide q
    else
      let bank := q.filter fun x => !rotaryBlock sh rot (x.1 / 64)
      let rest := q.filter fun x => rotaryBlock sh rot (x.1 / 64)
      let dot := f32Sum order (bank.map fun x => nbProduct f (codes.getD x.1 0) x.2)
      f32Add (f32Mul s0 dot) (wide rest)

/-- A value in BF16 under BF16(w × 1) (R244). -/
def heldValue (w : W32) (a : W16) : W32 := f32Mul (f32OfBf16 (bf16OfF32 w)) (f32OfBf16 a)

/-- A weighted value element (R239, R244): the code under BF16(w × SV) in decode; of an entry in BF16, as held or as prefill widens a
page, the element under BF16(w); of an escaped entry the element under w. -/
def valueOf (sh : ShardRec) (prefill : Bool) (w : W32) (e : Nat) (c : Cand) : W32 :=
  let a := (c.t0 ++ c.t1).getD e 0
  match c.coded with
  | some (f, codes, s0, s1) =>
    if prefill then heldValue w a
    else nbProduct f (codes.getD e 0) (bf16OfF32 (f32Mul w (if sh.kind = 1 then s0 else s1)))
  | none => if c.tile.isSome then f32Mul w (f32OfBf16 a) else heldValue w a

/-! ## Partials and merges (R244-R246) -/

/-- A partial: the maximum, the sum of the weights, the weighted values. -/
structure Partial where
  m : W32
  l : W32
  o : List W32

/-- The partial of one piece: scores, and weighted values as a function of the weight. -/
def piecePartial (order : Nat → Nat) (width : Nat) (l : List (W32 × (W32 → List W32))) : Partial :=
  let m := l.foldl (fun a x => if f32IsNaN a || f32IsNaN x.1 then f32NaN else f32Max a x.1) f32NegInf
  if m = f32NegInf then ⟨m, f32Zero, List.replicate width f32Zero⟩
  else
    let ws := (l.filter fun x => x.1 ≠ f32NegInf).map fun x => (f32Exp (f32Sub x.1 m), x.2)
    let vals := ws.map fun x => x.2 x.1
    ⟨m, f32Sum (order 0) (ws.map (·.1)),
      (List.range width).map fun j => f32Sum (order (j + 1)) (vals.map fun v => v.getD j f32Zero)⟩

/-- Partials of one tile merged (R245). -/
def mergeTile (order : Nat → Nat) (width : Nat) (ps : List Partial) : Partial :=
  let m := ps.foldl (fun a x => if f32IsNaN a || f32IsNaN x.m then f32NaN else f32Max a x.m) f32NegInf
  if m = f32NegInf then ⟨m, f32Zero, List.replicate width f32Zero⟩
  else
    let ws := ps.map fun x => if x.m = f32NegInf then f32Zero else f32Exp (f32Sub x.m m)
    ⟨m, f32Sum (order 0) (List.zipWith (fun x w => f32Mul x.l w) ps ws),
      (List.range width).map fun j => f32Sum (order (j + 1)) (List.zipWith (fun x w => f32Mul (x.o.getD j f32Zero) w) ps ws)⟩

/-- Tiles joined by their log-sum-exp partials (R246). -/
def mergeTiles (order : Nat → Nat) (width : Nat) (ps : List Partial) : List W16 :=
  let sent := (ps.filter fun x => !(x.l == f32Zero)).map fun x =>
    (f32Add x.m (f32Ln x.l), x.o.map fun a => f32Div a x.l)
  let top := sent.foldl (fun a x => if f32IsNaN a || f32IsNaN x.1 then f32NaN else f32Max a x.1) f32NegInf
  let ws := sent.map fun x => f32Exp (f32Sub x.1 top)
  let sum := f32Sum (order 0) ws
  (List.range width).map fun j =>
    bf16OfF32 (f32Div (f32Sum (order (j + 1)) (List.zipWith (fun x w => f32Mul w (x.2.getD j f32Zero)) sent ws)) sum)

/-- One head's output from its scored entries: partials by piece, merges by tile, then across tiles; the held piece runs on a tile
that the manual leaves open (R241). -/
def headOut (order : Nat → Nat → Nat) (width : Nat) (many : Bool) (heldOn : Nat) (l : List (Cand × W32 × (W32 → List W32))) :
    List W16 :=
  let pieces := (l.map fun x => x.1.piece).eraseDups
  let parts := pieces.mapIdx fun i n =>
    let mine := l.filter fun x => x.1.piece == n
    ((mine.head?.bind fun x => x.1.tile), piecePartial (order i) width (mine.map (·.2)))
  let tiles := (parts.filterMap (·.1)).eraseDups
  -- with several parts the held piece may run on a tile of its own
  let home : Option Nat := if many then tiles[heldOn % (tiles.length + 1)]? else tiles.head?
  let groups := (parts.map fun x => match x.1 with | some t => some t | none => home).eraseDups
  let merged := groups.mapIdx fun i g =>
    mergeTile (order (0x10000 + i)) width
      ((parts.filter fun x => (match x.1 with | some t => some t | none => home) == g).map (·.2))
  if many then mergeTiles (order 0x20000) width merged
  else match merged with
    | x :: _ => x.o.map fun a => bf16OfF32 (f32Div a x.l)
    | [] => List.replicate width 0

/-! ## `ATTEND` (R177, R178) -/

/-- The query of a head-group head over its key head's elements. -/
def groupQuery (sh : ShardRec) (heads qk h : Nat) (v : List W16) : List (Nat × W16) :=
  let g := h / max 1 (heads / max 1 sh.heads)
  (List.range qk).map fun i => (g * qk + i, v.getD (h * qk + i) 0)

/-- A position lies in the window of a query (R177). -/
def Cand.inWindow (c : Cand) (sh : ShardRec) (t : Tok) : Bool :=
  decide (c.pos ≤ t.pos) && (sh.window == 0 || decide (t.pos < c.pos + sh.window))

/-- What one token's queries are scored against, before the window masks it (R240): the request's pieces and its held entries. -/
def OpCtx.cands (x : OpCtx) (s : State) (shard : Nat) (sh : ShardRec) (t : Tok) : List Cand :=
  let q := s.part x.p
  match q.req t.req with
  | none => []
  | some r =>
    let li := (q.reqShards r).findIdx? fun y => y.1 == x.m.handle && y.2.1 == shard
    let (pages, n) := match li.bind fun i => r.lists[i]? with
      | some c => q.piecesOf x.m sh r c
      | none => ([], 0)
    (pages.flatMap fun y => s.pageCands sh r.length y) ++ s.heldCands q sh x.all t shard n

/-- `ATTEND` of one token. -/
def OpCtx.attend (x : OpCtx) (s : State) (i : Nat) (t : Tok) (sh : ShardRec) (cands : List Cand) : List W16 :=
  let rot := if sh.rotary = 0xFF then none else x.m.pkg.rotaries[sh.rotary]?
  let scale := x.d.f32 20
  let heads := x.d.par 24 2
  let qk := x.d.par 26 2
  let rd := x.d.par 28 2
  let vd := x.d.par 30 2
  let v := x.get i t x.d.in0
  let many := decide (1 < (x.m.pkg.shardParts sh).length)
  let heldOn := x.fr i 0x7FFFFF 0
  let pre := t.prefill
  let scored (h : Nat) (q : List (Nat × W16)) (vals : Cand → W32 → List W32) : List (Cand × W32 × (W32 → List W32)) :=
    cands.mapIdx fun j c => (c, f32Mul scale (scoreOf sh rot pre (x.fr i (h * 0x400 + 1) j) q c), vals c)
  let order (h : Nat) (a b : Nat) : Nat := x.fr i (h * 0x400 + 2) (a * 0x10000 + b)
  if sh.kind = 0 then
    (List.range heads).flatMap fun h =>
      let g := h / max 1 (heads / max 1 sh.heads)
      headOut (order h) vd many heldOn (scored h (groupQuery sh heads qk h v) fun c w =>
        (List.range vd).map fun j => valueOf sh pre w (sh.dim0 + g * vd + j) c)
  else
    let qn (h : Nat) : List W16 := (v.drop (h * (qk + rd))).take qk
    let qr (h : Nat) : List (Nat × W16) := (List.range rd).map fun j => (sh.dim0 + j, v.getD (h * (qk + rd) + qk + j) 0)
    match x.m.pkg.matrices[x.d.obj1]?, x.m.pkg.matrices[x.d.obj2]?, x.m.pkg.matrices[x.d.par 32 4]? with
    | some wuv, some wuk, some wukt =>
      if pre then
        -- the latent entries are expanded through W_UK and W_UV (R250)
        let ex := cands.mapIdx fun j c =>
          ((s.fullVec x.p x.m wuk true (fun o n => x.fr i (0x1000000 + j * 0x40000 + o) n) 0 c.t0).map bf16OfF32,
            (s.fullVec x.p x.m wuv true (fun o n => x.fr i (0x2000000 + j * 0x40000 + o) n) 0 c.t0).map bf16OfF32)
        (List.range heads).flatMap fun h =>
          let l := (List.zip cands ex).mapIdx fun j y =>
            let key := rotatedEntry sh rot y.1
            let terms := ((List.range qk).map fun a =>
                f32Mul (f32OfBf16 (y.2.1.getD (h * qk + a) 0)) (f32OfBf16 ((qn h).getD a 0))) ++
              (qr h).map fun z => f32Mul (f32OfBf16 (key.getD z.1 0)) (f32OfBf16 z.2)
            (y.1, f32Mul scale (f32Sum (x.fr i (h * 0x400 + 1) j) terms), fun w : W32 =>
              (List.range vd).map fun a =>
                if y.1.tile.isSome && y.1.coded.isNone then f32Mul w (f32OfBf16 (y.2.2.getD (h * vd + a) 0))
                else heldValue w (y.2.2.getD (h * vd + a) 0))
          headOut (order h) vd many heldOn l
      else
        (List.range heads).flatMap fun h =>
          let q' := (s.fullVec x.p x.m wukt false (fun o n => x.fr i (0x3000000 + h * 0x40000 + o) n) h (qn h)).map bf16OfF32
          let q := (List.range sh.dim0).map (fun a => (a, q'.getD a 0)) ++ qr h
          let c := headOut (order h) sh.dim0 many heldOn (scored h q fun c w =>
            (List.range sh.dim0).map fun a => valueOf sh false w a c)
          let y := s.fullVec x.p x.m wuv false (fun o n => x.fr i (0x4000000 + h * 0x40000 + o) n) 0 c
          ((y.drop (h * vd)).take vd).map bf16OfF32
    | _, _, _ => []

/-- Matrices of a latent `ATTEND` that a token's form reads (R249, R250), as ranges. -/
def OpCtx.attendRanges (x : OpCtx) (s : State) (sh : ShardRec) (pre : Bool) : List (Nat × Nat) :=
  if sh.kind = 0 then []
  else
    let all (i : Nat) : List (Nat × Nat) := match x.m.pkg.matrices[i]? with
      | some mx => (List.range mx.experts).flatMap fun e => s.expertRanges x.p x.m mx e
      | none => []
    all x.d.obj1 ++ if pre then all x.d.obj2 else all (x.d.par 32 4)

/-- A request's list of a shard, where it has one. -/
def OpCtx.listOf (x : OpCtx) (q : Partition) (shard req : Nat) : Option Chain :=
  (q.req req).bind fun r =>
    ((q.reqShards r).findIdx? fun y => y.1 == x.m.handle && y.2.1 == shard).bind fun i => r.lists[i]?

/-- What a step reads of the pages of a request's shard, below their VALID (R237, R240): by near-bank units, and over the bond the rotary
blocks and the escape slots; in prefill all of it over the bond. -/
def OpCtx.pageRanges (x : OpCtx) (q : Partition) (shard : Nat) (sh : ShardRec) (rot : Option RotaryRec) (pre : Bool) (req : Nat) :
    List (Nat × Nat) × List (Nat × Nat) :=
  match x.listOf q shard req with
  | none => ([], [])
  | some c =>
    let pages := (x.m.openPages c).map (·.2)
    let blocks (rotary : Bool) : List (Nat × Nat) := pages.flatMap fun v =>
      let f := v.desc.fmt.getD 0
      ((List.range (sh.padded / 64)).filter fun b => rotaryBlock sh rot b == rotary).map fun b =>
        (entryAddr v.addr f 0 b, 64 * cacheSize f * v.desc.valid)
    let slots : List (Nat × Nat) := pages.flatMap fun v =>
      (List.range v.desc.valid).filterMap fun t => (v.escSlot t).bind fun k => (v.escAt k).map fun a => (a, 2 * (sh.dim0 + sh.dim1))
    if pre then ([], blocks false ++ blocks true ++ slots) else (blocks false, blocks true ++ slots)

/-- The entries of a shard that lie in scratch buffers, as ranges (R223). -/
def OpCtx.scratchRanges (x : OpCtx) (q : Partition) (shard : Nat) (sh : ShardRec) (toks : List Tok) : List (Nat × Nat) :=
  let picks := match q.step with | some st => st.picks | none => []
  (x.all.filter fun u => u.model == x.m.handle && toks.any fun t => t.req == u.req && t.draft == u.draft).filterMap fun u =>
    if u.held.any fun h => h.shard == shard then (q.scratchPlace picks u shard).map fun a => (a, 2 * sh.padded) else none

/-- Bytes of rotary blocks and escape slots that a request's pieces read over the bond (R252). -/
def rotaryBytes (sh : ShardRec) (rot : Option RotaryRec) (pages : List (Nat × PageView × Nat × Nat)) : Nat :=
  let blocks := ((List.range (sh.padded / 64)).filter (rotaryBlock sh rot)).length
  (pages.map fun x =>
    let v := x.2.1
    blocks * 64 * cacheSize (v.desc.fmt.getD 0) * v.desc.valid +
      (match v.entry with | some e => e.escUsed * 2 * (sh.dim0 + sh.dim1) | none => 0)).sum

/-- `ATTEND` over the tokens of a run (R237). -/
def attendBody (errs : Errs) (x : OpCtx) (s : State) (toks : List Tok) : State × List Tok :=
  match x.m.pkg.shards[x.d.obj0]? with
  | none => (s, toks)
  | some sh =>
    let shard := x.d.obj0
    let reqs := (toks.map (·.req)).eraseDups
    let rot := if sh.rotary = 0xFF then none else x.m.pkg.rotaries[sh.rotary]?
    let q := s.part x.p
    let weights (pre : Bool) : List (Nat × Nat) := if toks.any fun t => t.prefill == pre then x.attendRanges s sh pre else []
    let pages := reqs.map fun h => x.pageRanges q shard sh rot (toks.any fun t => t.req == h && t.prefill) h
    let s := s.readPaths x.p (weights false ++ pages.flatMap (·.1))
      (weights true ++ pages.flatMap (·.2) ++ x.scratchRanges q shard sh toks) errs
    let cut : List (Nat × Nat) := reqs.map fun h =>
      let q := s.part x.p
      match q.req h, x.listOf q shard h with
      | some r, some c => ((q.piecesOf x.m sh r c).2 + 1, rotaryBytes sh rot (q.piecesOf x.m sh r c).1)
      | _, _ => (1, 0)
    let s := s.modPart x.p fun q => q.modKv fun k =>
      { k with pieces := satAdd k.pieces (cut.map (·.1)).sum, rotBytes := k.rotBytes + (cut.map (·.2)).sum }
    (s, toks.mapIdx fun i t =>
      -- what a partial consumed carries its poison, whether or not the window masks it afterwards (R125, R240, R247)
      let cands := x.cands s shard sh t
      let t' := x.taint (s.anyPoison (x.attendRanges s sh t.prefill)) 0 t
      let t' := x.taint (cands.any fun c => c.bad && c.tile.isSome) 1 t'
      (x.taint (cands.any (·.bad)) 2 t').put x.d.out (x.attend s i t sh (cands.filter fun c => c.inWindow sh t)))

/-- `ATTEND`. -/
def execAttend (p : Part) (handle : Nat) (errs : Errs) (s : State) : Host.Outcome State Fault Refusal :=
  .next (s.operate p handle 7 (attendBody errs))

end Sys2Proof.Machine
end

