-- ==== Sys2Proof/Machine/Sampling.lean ====
section
/-! DEFINITION. Sampling (R184, R201, R202), drafting by a draft model (R204), verification of drafts (R206), stop rules (R207). -/

namespace Sys2Proof.Machine

/-! ## The generator (R201) -/

/-- One round of the generator. -/
def mixRound (x : W64) : W64 :=
  let x := (x ^^^ (x >>> 31)) * 0xBF58476D1CE4E5B9
  (x ^^^ (x >>> 29)) * 0x94D049BB133111EB

/-- uniform(seed, s, n, d) as FP32: 24 bits over 2^24. -/
def uniform (seed s n d : Nat) : W32 :=
  let x : W64 := BitVec.ofNat 64 seed ^^^ (BitVec.ofNat 64 s * 0x9E3779B97F4A7C15) ^^^ (BitVec.ofNat 64 n <<< 40) ^^^
    (BitVec.ofNat 64 d <<< 56)
  let x := mixRound (mixRound (mixRound x))
  let x := x ^^^ (x >>> 32)
  f32Of false (x >>> 40).toNat (-24)

/-! ## Distributions (R184) -/

/-- A NaN logit counts as −∞. -/
def cleanLogit (l : W32) : W32 := if f32IsNaN l then f32NegInf else l

/-- The sum of a list in the order that `SAMPLE` uses for it. [DEDUCED: log 29] -/
def sampleSum (l : List W32) : W32 := f32Sum (Config.sampleOrder l) l

/-- The lowest index of the largest value. -/
def argmaxOf (l : List W32) : Nat :=
  (l.foldl (fun (acc : Nat × Nat × W32) x =>
    if acc.1 = 0 ∨ f32Lt acc.2.2 x then (acc.1 + 1, acc.1, x) else (acc.1 + 1, acc.2)) (0, 0, f32NegInf)).2.1

/-- softmax(l / temperature). [DEDUCED: log 29] -/
def softmaxOf (temperature : W32) (l : List W32) : List W32 :=
  let a := l.map fun x => f32Div x temperature
  let top := a.foldl f32Max f32NegInf
  let es := a.map fun x => f32Exp (f32Sub x top)
  let sum := sampleSum es
  es.map fun e => f32Div e sum

/-- Ranking by probability, the lower ID first on ties. -/
def probBefore (x y : Nat × W32) : Bool := f32Lt y.2 x.2 || (!f32Lt x.2 y.2 && decide (x.1 < y.1))

/-- The shortest run of a ranked list whose running sum reaches a bound. -/
def reachSum (bound : W32) (acc : W32) : List (Nat × W32) → List (Nat × W32)
  | [] => []
  | x :: xs =>
    let acc := f32Add acc x.2
    if f32Lt acc bound then x :: reachSum bound acc xs else [x]

/-- The kept IDs with their probabilities, in ascending ID order (R184). -/
def keepOf (sm : Sampling) (p : List W32) : List (Nat × W32) :=
  let all := p.mapIdx fun i x => (i, x)
  let k := if 0 < sm.topK then (sortBy probBefore all).take sm.topK else all
  let k := if f32Lt sm.topP f32One then
      reachSum (f32Mul sm.topP (sampleSum (k.map (·.2)))) f32Zero (sortBy probBefore k)
    else k
  let k := if f32Lt f32Zero sm.minP then
      let bound := f32Mul sm.minP ((k.map (·.2)).foldl f32Max f32Zero)
      k.filter fun x => !f32Lt x.2 bound
    else k
  sortBy (fun x y => decide (x.1 < y.1)) k

/-- A kept list from which a token can be drawn: some probability above 0, and a positive finite sum. -/
def drawable (k : List (Nat × W32)) : Bool :=
  let sum := sampleSum (k.map (·.2))
  k.any (fun x => f32Lt f32Zero x.2) && f32Lt f32Zero sum && f32IsFinite sum

/-- The first ID at which the running sum exceeds a bound. -/
def firstOver (bound acc : W32) : List (Nat × W32) → Option Nat
  | [] => none
  | x :: xs =>
    let acc := f32Add acc x.2
    if f32Lt bound acc then some x.1 else firstOver bound acc xs

/-- The draw of R184 from kept probabilities with a uniform value; `l` are the logits. [DEDUCED: log 29] -/
def drawFrom (l : List W32) (k : List (Nat × W32)) (u : W32) : Nat :=
  if drawable k then
    match firstOver (f32Mul u (sampleSum (k.map (·.2)))) f32Zero k with
    | some i => i
    | none => (((k.filter fun x => f32Lt f32Zero x.2).getLast?).map (·.1)).getD (argmaxOf l)
  else argmaxOf l

/-- TEMPERATURE 0 of either sign selects greedy. -/
def Sampling.greedy (sm : Sampling) : Bool := sm.temperature &&& 0x7FFFFFFF == 0

/-- The token of a plain step (R184). `l` are the logits below VOCAB without NaN. -/
def sampleToken (sm : Sampling) (l : List W32) (u : W32) : Nat :=
  if sm.greedy then argmaxOf l else drawFrom l (keepOf sm (softmaxOf sm.temperature l)) u

/-- The distribution of verification (R206): every step of R184 but the draw, normalised over the kept IDs; all on argmax where
R184 would take it. [DEDUCED: log 29] -/
def distOf (sm : Sampling) (l : List W32) : List (Nat × W32) :=
  let k := keepOf sm (softmaxOf sm.temperature l)
  if drawable k then
    let sum := sampleSum (k.map (·.2))
    k.map fun x => (x.1, f32Div x.2 sum)
  else [(argmaxOf l, f32One)]

/-- The probability of an ID. -/
def probOf (d : List (Nat × W32)) (i : Nat) : W32 := (lookupA d i).getD f32Zero

/-- max(p − q, 0) normalised; p where that sum is 0 (R206). -/
def residual (p q : List (Nat × W32)) : List (Nat × W32) :=
  let r := p.map fun x => (x.1, f32Max (f32Sub x.2 (probOf q x.1)) f32Zero)
  let sum := sampleSum (r.map (·.2))
  if f32Lt f32Zero sum then r.map fun x => (x.1, f32Div x.2 sum) else p

/-- LOGPROB (R74, R202). [DEDUCED: log 28, 29] -/
def logprobOf (l : List W32) (token : Nat) : W16 :=
  let a := l.getD token f32NegInf
  if a = f32NegInf then 0xFF80
  else
    let top := l.foldl f32Max f32NegInf
    let sum := sampleSum (l.map fun x => f32Exp (f32Sub x top))
    bf16OfF32 (f32Sub a (f32Add top (f32Ln sum)))

/-! ## Verification (R206) -/

/-- The node index of a token: 32 for the root. -/
def Tok.node (t : Tok) : Nat := match t.kind with | .node i => i | _ => 32

/-- The children of a node, in ascending node index. -/
def childrenOf (mine : List Tok) (n : Nat) : List Tok :=
  sortBy (fun x y => decide (x.node < y.node)) (mine.filter fun t => (match t.kind with | .node _ => true | _ => false) && t.parent == n)

/-- The children of a node tried one after another: the child taken, and p as it stands. [DEDUCED: log 28] -/
def tryChildren (sm : Sampling) (steps n : Nat) (qOf : Tok → List (Nat × W32)) :
    Nat → List Tok → List (Nat × W32) → Option Tok × List (Nat × W32)
  | _, [], p => (none, p)
  | i, c :: cs, p =>
    if f32Lt (uniform sm.seed steps n i) (f32Div (probOf p c.token) (probOf (qOf c) c.token)) then (some c, p)
    else tryChildren sm steps n qOf (i + 1) cs (residual p (qOf c))

/-- The walk of R206: the records yielded (token, log-probability, drafted) and the accepted nodes. [DEDUCED: log 28] -/
def verify (sm : Sampling) (steps : Nat) (mine : List Tok) (logits : Tok → List W32) (qOf : Tok → List (Nat × W32)) :
    Nat → Tok → List (Nat × W16 × Bool) × List Nat
  | 0, _ => ([], [])
  | fuel + 1, n =>
    let l := logits n
    let kids := childrenOf mine n.node
    let (taken, final) :=
      if sm.greedy then (kids.find? fun c => c.token == argmaxOf l, argmaxOf l)
      else if kids.isEmpty && n.node == 32 then (none, sampleToken sm l (uniform sm.seed steps 32 32))
      else
        let (taken, p) := tryChildren sm steps n.node qOf 0 kids (distOf sm l)
        (taken, drawFrom l p (uniform sm.seed steps n.node 32))
    match taken with
    | some c =>
      let (rs, ac) := verify sm steps mine logits qOf fuel c
      ((c.token, logprobOf l c.token, true) :: rs, c.node :: ac)
    | none => ([(final, logprobOf l final, false)], [])

/-- The stop rules (R207, R271): records up to the first that ends the request, with its cause. `words` is the chain's length,
`made` the tokens generated before. [DEDUCED: log 28] -/
def stopAt (sm : Sampling) (maxPos words made : Nat) : List (Nat × W16 × Bool) → List (Nat × W16 × Bool) × Option Nat
  | [] => ([], none)
  | r :: rs =>
    if r.1 = sm.stopToken then ([r], some 0)
    else if sm.maxNew ≠ 0 ∧ sm.maxNew ≤ made + 1 then ([r], some 1)
    else if maxPos ≤ words + 1 then ([r], some 2)
    else
      let (l, c) := stopAt sm maxPos (words + 1) (made + 1) rs
      (r :: l, c)

/-! ## The operator -/

/-- Logits of a token below VOCAB, NaN as −∞: FP32 values, or BF16 elements widened where another operator wrote the slot; one that
nothing has written reads free values (R170). -/
def OpCtx.logits (x : OpCtx) (i : Nat) (t : Tok) : List W32 :=
  let v := x.m.pkg.model.vocab
  match lookupA t.logits x.d.in0, lookupA t.slots x.d.in0 with
  | some l, _ => (l.take v).map cleanLogit
  | none, some u => (u.take v).map fun a => cleanLogit (f32OfBf16 a)
  | none, none => (List.range v).map fun j => cleanLogit (BitVec.ofNat 32 (x.fr i 0x700000 j))

/-- The token with index `i` of a token of the step among the run's. -/
def idxOf (toks : List Tok) (t : Tok) : Nat := (toks.findIdx? fun u => u.req == t.req && u.kind == t.kind).getD 0

/-- The verdict of one request of a model's own run (R206, R207). -/
def OpCtx.judge (x : OpCtx) (q : Partition) (toks : List Tok) (h : Nat) : Option Verdict :=
  match q.req h, toks.find? fun t => t.req == h && t.yields && (match t.kind with | .node _ => false | _ => true) with
  | some r, some root =>
    let mine := toks.filter fun t => t.req == h
    if x.all.any fun t => t.req == h && t.poison.isSome then none
    else
      let qOf (c : Tok) : List (Nat × W32) :=
        match x.all.find? fun t => t.req == h && t.draft && t.node == c.parent with
        | some d => if d.draftQ.isEmpty then [(c.token, f32One)] else d.draftQ
        | none => [(c.token, f32One)]
      let (recs, acc) := verify r.sampling r.steps mine (fun t => x.logits (idxOf toks t) t) qOf 34 root
      let (kept, cause) := stopAt r.sampling x.m.pkg.model.maxPositions r.chain.words.length r.generated recs
      some { req := h, records := kept, accepted := acc.take (kept.length - 1), cause := cause }
  | _, _ => none

/-- A token enters a step's tokens after those of its request and model with lower places. -/
def insertTok (l : List Tok) (t : Tok) : List Tok :=
  let mine (u : Tok) : Bool := u.req == t.req && u.model == t.model && u.draft == t.draft && (u.kind == .root || decide (u.node < t.node))
  match (List.range l.length).reverse.find? fun i => match l[i]? with | some u => mine u | none => false with
  | some i => l.take (i + 1) ++ t :: l.drop (i + 1)
  | none => l ++ [t]

/-- The children that a draft token gets (R204): their node indexes and tokens; and the distribution kept for verification. [DEDUCED: log 28] -/
def draftChildren (q : Partition) (reg : W32) (r : Req) (t : Tok) (l : List W32) : List (Nat × Nat) × List (Nat × W32) :=
  let branch := branchOf reg r
  let depth := q.depthAt reg r
  if r.sampling.greedy then
    if t.kind = .root then
      let best := (sortBy probBefore (l.mapIdx fun i x => (i, x))).take branch
      (best.mapIdx fun b x => (b * depth, x.1), [])
    else ([(t.node + 1, argmaxOf l)], [])
  else
    let i := if t.kind = .root then 0 else t.node + 1
    ([(i, sampleToken r.sampling l (uniform r.sampling.seed r.steps t.node 33))], distOf r.sampling l)

/-- Drafting: the tokens of a pass get their children, in the draft model and in the model it drafts for. [DEDUCED: log 28] -/
def OpCtx.draft (x : OpCtx) (s : State) (toks : List Tok) : State × List Tok :=
  let q := s.part x.p
  let reg := match q.step with | some st => st.draft | none => 0
  let grown := toks.mapIdx fun i t =>
    match q.req t.req with
    | some r => if t.yields && decide (t.depth < q.depthAt reg r) then draftChildren q reg r t (x.logits i t) else ([], [])
    | none => ([], [])
  let kids : List Tok := (List.zip toks grown).flatMap fun y =>
    match q.req y.1.req with
    | none => []
    | some r => y.2.1.flatMap fun c =>
        let t := y.1
        let kid : Tok :=
          { req := t.req, model := t.model, kind := .node c.1, parent := t.node, depth := t.depth + 1, draft := true
            pos := t.pos + 1, token := c.2, yields := decide (t.depth + 1 < q.depthAt reg r), poison := t.poison }
        [kid, { kid with model := r.model, draft := false, yields := true }]
  let s := s.modStep x.p fun st => { st with toks := kids.foldl insertTok st.toks }
  (s, List.zipWith (fun t g => { t with draftQ := g.2 }) toks grown)

/-- `SAMPLE` over the tokens of a run: the verdicts of its requests, or the next nodes of their drafts. -/
def sampleBody (x : OpCtx) (s : State) (toks : List Tok) : State × List Tok :=
  match x.run.kind with
  | .own =>
    let vs := ((toks.map (·.req)).eraseDups).filterMap (x.judge (s.part x.p) toks)
    (s.modStep x.p fun st => { st with verdicts := (st.verdicts.filter fun v => !vs.any fun w => w.req == v.req) ++ vs }, toks)
  | .drafting _ => x.draft s toks
  | .draftSplit => (s, toks)

/-- `SAMPLE` (R184). -/
def execSample (p : Part) (handle : Nat) (s : State) : Host.Outcome State Fault Refusal :=
  .next (s.operate p handle 13 sampleBody)

end Sys2Proof.Machine
end

