-- ==== Sys2Proof/Machine/Scatter.lean ====
section
/-! DEFINITION. `SEASON` and `SCATTER` (R146-R149, R185, R217, R225, R226): the scales of pages that a step opens, and the codes of
its accepted positions. What they change of a page becomes part of it at COMMIT (R196). -/

namespace Sys2Proof.Machine

/-- The shards that `SEASON` or `SCATTER` covers (R185). -/
def OpCtx.shardRange (x : OpCtx) : List Nat :=
  (List.range x.m.pkg.shards.length).filter fun i =>
    x.d.obj1 == none32 || (decide (x.d.obj0 ≤ i) && decide (i < x.d.obj0 + x.d.obj1))

/-- The page list of a request's shard. -/
def Partition.listOf (q : Partition) (r : Req) (handle shard : Nat) : Option Chain :=
  ((q.reqShards r).findIdx? fun y => y.1 == handle && y.2.1 == shard).bind fun i => r.lists[i]?

/-- The tokens of a request whose positions a run writes, in position order: its whole split, or the root and the accepted nodes
(R207); none where its results carry poison (R198). -/
def writtenToks (st : Step) (toks : List Tok) (h : Nat) : List Tok :=
  let mine := toks.filter fun t => t.req == h
  if st.toks.any fun t => t.req == h && t.poison.isSome then []
  else if mine.all Tok.prefill then mine
  else match st.verdicts.find? fun v => v.req == h with
    | none => []
    | some v => (mine.filter fun t => t.kind == .root) ++ v.accepted.filterMap fun i => mine.find? fun t => t.kind == .node i

/-- The held entry of a token for a shard, from SRAM or from the scratch buffer (R223); where no `KV_APPEND` has held one it is free
(R170). [DEDUCED: log 31] -/
def OpCtx.heldOf (x : OpCtx) (s : State) (sh : ShardRec) (shard : Nat) (t : Tok) : List W16 × List W16 :=
  let q := s.part x.p
  match (t.held.filter fun h => h.shard == shard).getLast? with
  | some h =>
    match q.scratchPlace (match q.step with | some st => st.picks | none => []) t shard with
    | some a => (s.sheet.bf16s a sh.dim0, s.sheet.bf16s (a + 2 * sh.dim0) sh.dim1)
    | none => (h.t0, h.t1)
  | none =>
    ((List.range sh.dim0).map fun j => BitVec.ofNat 16 (x.fr t.pos (0x710000 + shard) j),
      (List.range sh.dim1).map fun j => BitVec.ofNat 16 (x.fr t.pos (0x710000 + shard) (sh.dim0 + j)))

/-- The positions written, page by page in position order (R225): list entry, block of 64 positions, tokens. A split that laps a ring
comes to an entry once in each lap (R226). -/
def pageRuns (sh : ShardRec) (toks : List Tok) : List (Nat × Nat × List Tok) :=
  ((toks.map fun t => t.pos / 64).eraseDups).map fun b =>
    (sh.entryOf (64 * b), b, toks.filter fun t => t.pos / 64 == b)

/-- The step opens the page of an entry: it is reserved, or a ring page whose new lap begins (R149, R217, R226). -/
def opensPage (sh : ShardRec) (d : PageDesc) (l : List Tok) : Bool :=
  d.fmt.isNone || (sh.ringLen.isSome && l.any fun t => t.pos % 64 == 0)

/-- The shard's previous page (R146): the list entry before, or the ring entry before. -/
def prevEntry (sh : ShardRec) (j : Nat) : Option Nat :=
  match sh.ringLen with
  | some r => some ((j + r - 1) % r)
  | none => if j = 0 then none else some (j - 1)

/-- The page-scale entry of a page as the step has it: changed by the step, or as it stands; none where the block that holds it is
poisoned: it counts only while it is intact (R146). -/
def State.entryOf (s : State) (st : Step) (m : Model) (page : Nat) : Option ScaleEntry :=
  match st.pageWrites.find? fun w => w.handle == m.handle && w.page == page with
  | some w => w.entry
  | none =>
    match m.desc page, m.pool[pagePart page]? with
    | some d, some pt =>
      let intact : Bool := match d.scale with | some i => !s.rangePoisoned (pt.scaleAddr i) 32 | none => true
      if d.fmt.isSome ∧ d.fmt ≠ some 0 ∧ intact = true then m.scaleOf page else none
    | _, _ => none

/-- The entry with which a page opens (R146). -/
def openEntry (sh : ShardRec) (fmt : Nat) (prefill : Bool) (prev : Option ScaleEntry) (vals : List (List W16 × List W16)) :
    Option ScaleEntry :=
  if fmt = 0 then none
  else
    let a0 := amaxOf (vals.map fun v => amaxBf v.1)
    let a1 := amaxOf (vals.map fun v => amaxBf v.2)
    if prefill then some (freshEntry.setScales fmt 1 a0 a1)
    else match prev with
      | none => some (freshEntry.setScales fmt 2 a0 a1)
      | some e =>
        some { freshEntry with
          scale0 := if e.amax0 = 0 then e.scale0 else pageScale fmt 2 e.amax0
          scale1 := if sh.dim1 = 0 then pageFloor else if e.amax1 = 0 then e.scale1 else pageScale fmt 2 e.amax1 }

/-- The format of a page that opens in a step (R217). -/
def Step.fmtFor (st : Step) (m : Model) (sh : ShardRec) : Nat := currentFmt sh ((lookupA st.formats m.handle).getD none)

/-- The change that a step makes to the page of a list entry, as `SCATTER` finds it. -/
def OpCtx.startPage (x : OpCtx) (s : State) (st : Step) (m : Model) (sh : ShardRec) (shard h page j lap : Nat) (c : Chain)
    (v : PageView) (l : List Tok) : PageWrite :=
  match st.pageWrites.find? fun w => w.handle == m.handle && w.page == page && w.lap == lap with
  | some w => w
  | none =>
    if opensPage sh v.desc l then
      let fmt := st.fmtFor m sh
      let prev := (prevEntry sh j).bind fun k => (c.words[k]?).bind fun w => s.entryOf st m w
      { req := h, handle := m.handle, page := page, lap := lap, fmt := fmt, valid := 0, opens := true
        entry := openEntry sh fmt (l.all Tok.prefill) prev (l.map (x.heldOf s sh shard)) }
    else
      { req := h, handle := m.handle, page := page, lap := lap, fmt := v.desc.fmt.getD 0, entry := v.entry, valid := v.desc.valid
        opens := false, esc := v.esc }

/-- A page change stands in the step, in place of one of the same lap, and of those of earlier laps where `past` says so. -/
def State.putWrite (s : State) (p : Part) (w : PageWrite) (past : Bool) : State :=
  s.modStep p fun st =>
    { st with pageWrites := (st.pageWrites.filter fun y =>
        !(y.handle == w.handle && y.page == w.page && (y.lap == w.lap || (past && decide (y.lap < w.lap))))) ++ [w] }

/-! ## `SEASON` -/

/-- The pages of a shard that a request's split opens take their scales. -/
def OpCtx.seasonReq (x : OpCtx) (s : State) (toks : List Tok) (h shard : Nat) : State :=
  match (s.part x.p).step, (s.part x.p).req h, (s.part x.p).model x.m.handle, x.m.pkg.shards[shard]? with
  | some st, some r, some m, some sh =>
    match (s.part x.p).listOf r m.handle shard with
    | none => s
    | some c =>
      (pageRuns sh ((writtenToks st toks h).filter Tok.prefill)).foldl (fun s y =>
        match (c.words[y.1]?).bind fun w => (m.view w).map fun v => (w, v) with
        | some (page, v) =>
          if opensPage sh v.desc y.2.2 then s.putWrite x.p (x.startPage s st m sh shard h page y.1 y.2.1 c v y.2.2) false else s
        | none => s) s
  | _, _, _, _ => s

/-- `SEASON` over the tokens of a run. -/
def seasonBody (x : OpCtx) (s : State) (toks : List Tok) : State × List Tok :=
  (((toks.map (·.req)).eraseDups).foldl (fun s h => x.shardRange.foldl (fun s i => x.seasonReq s toks h i) s) s, toks)

/-- `SEASON` (R185). -/
def execSeason (p : Part) (handle : Nat) (s : State) : Host.Outcome State Fault Refusal :=
  .next (s.operate p handle 14 seasonBody)

/-! ## `SCATTER` -/

/-- Escape records that a step has taken from a part and that no COMMIT has yet assigned. -/
def Step.escTaken (st : Step) (m : Model) (part : Nat) : Nat :=
  (st.pageWrites.filter fun w => w.handle == m.handle && pagePart w.page == part && w.esc.isSome &&
    (w.opens || ((m.scaleOf w.page).bind (·.escIndex)).isNone)).length

/-- Codes of a place as the step has them: rewritten in this step, or in sheet memory; none where they are poisoned. -/
def State.stepCodes (s : State) (v : PageView) (sh : ShardRec) (w : PageWrite) (t : Nat) : Option (List Nat) :=
  match lookupA w.image t with
  | some c => some c
  | none =>
    let y := s.entryCodes v.addr w.fmt (sh.dim0 + sh.dim1) t
    if y.2 then none else some y.1

/-- The tensors of every place below `t` that is not poisoned, in FP32 (R148). -/
def State.stepVals (s : State) (v : PageView) (sh : ShardRec) (w : PageWrite) (t : Nat) : List (Nat × List W32 × List W32) :=
  (List.range t).filterMap fun u => (s.stepCodes v sh w u).map fun c => (u, placeReal sh w.fmt u w.entry w.esc c)

/-- A tensor of the entry would saturate (R147). [DEDUCED: log 32] -/
def wouldSaturate (sh : ShardRec) (fmt : Nat) (e : ScaleEntry) (t0 t1 : List W16) : Bool :=
  saturates fmt e.scale0 t0 || (sh.dim1 ≠ 0 && saturates fmt e.scale1 t1)

/-- AMAX raised to cover a position (R147). -/
def ScaleEntry.raise (e : ScaleEntry) (t0 t1 : List W16) : ScaleEntry :=
  { e with amax0 := f32Max e.amax0 (amaxBf t0), amax1 := f32Max e.amax1 (amaxBf t1) }

/-- AMAX < SCALE x qmax / 64 (R149). -/
def below64th (fmt : Nat) (amax scale : W32) : Bool :=
  ((f32Val amax).times (.fin false 64 0)).lt ((f32Val scale).times (.fin false (pageQmax fmt) 0))

/-- An entry after the 64th position of its page (R149). -/
def ScaleEntry.close (e : ScaleEntry) (sh : ShardRec) (fmt : Nat) : ScaleEntry :=
  { e with closed := true, underRange := below64th fmt e.amax0 e.scale0 && (sh.dim1 == 0 || below64th fmt e.amax1 e.scale1) }

/-- The page tests of R147 on one position: the page change and the state after it. -/
def OpCtx.writePlace (x : OpCtx) (s : State) (m : Model) (sh : ShardRec) (v : PageView) (errs : Errs) (w : PageWrite) (t : Nat)
    (t0 t1 : List W16) : State × PageWrite :=
  let w := { w with valid := t + 1 }
  let zeros := List.replicate (sh.dim0 + sh.dim1) 0
  match w.entry with
  | none => (s, { w with image := insertA w.image t (entryEncode w.fmt none t0 t1) })
  | some e =>
    let taken := match (s.part x.p).step with | some st => st.escTaken m (pagePart w.page) | none => 0
    let free := match m.pool[pagePart w.page]? with | some pt => pt.freeEscs.length - taken | none => 0
    let big := e.raise t0 t1
    let (s, w, e) :=
      if wouldSaturate sh w.fmt e t0 t1 = false then
        (s.count x.p fun k => { k with sclNonfinite := satAdd k.sclNonfinite (nonfiniteBf t0 + nonfiniteBf t1) },
          { w with image := insertA w.image t (entryEncode w.fmt (some e) t0 t1) }, big)
      else if e.escUsed < 2 ∧ (w.esc.isSome ∨ 0 < free) then
        let r := w.esc.getD { slot0 := [], slot1 := [] }
        (s.count x.p fun k => { k with sclEscape := satAdd k.sclEscape 1 },
          { w with image := insertA w.image t zeros
                   esc := some (if e.escUsed = 0 then { r with slot0 := t0 ++ t1 } else { r with slot1 := t0 ++ t1 }) },
          { big with escUsed := e.escUsed + 1
                     escPos0 := if e.escUsed = 0 then t else e.escPos0
                     escPos1 := if e.escUsed = 0 then e.escPos1 else t })
      else
        let s := s.readRange (some x.p) 0 v.addr (sh.pageBytes w.fmt) errs
        let vals := s.stepVals v sh w t ++ [(t, t0.map f32OfBf16, t1.map f32OfBf16)]
        let (e', codes) := reseason w.fmt big vals
        (s.count x.p fun k => { k with
            sclReseason := satAdd k.sclReseason 1, sclNonfinite := satAdd k.sclNonfinite (realNonfinite vals) },
          { w with image := codes.foldl (fun l y => insertA l y.1 y.2) w.image, esc := none }, e')
    if t = 63 then
      let e := e.close sh w.fmt
      (if e.underRange then s.count x.p fun k => { k with sclUnderRange := satAdd k.sclUnderRange 1 } else s,
        { w with entry := some e })
    else (s, { w with entry := some e })

/-- The positions of one list entry written. Places of this step go to sheet memory at once; committed places that a re-seasoning
rewrites wait for COMMIT. -/
def OpCtx.writePage (x : OpCtx) (s : State) (h shard : Nat) (sh : ShardRec) (c : Chain) (errs : Errs) (j lap : Nat) (l : List Tok) :
    State :=
  match (s.part x.p).step, (s.part x.p).model x.m.handle with
  | some st, some m =>
    match (c.words[j]?).bind fun w => (m.view w).map fun v => (w, v) with
    | none => s
    | some (page, v) =>
      let w := x.startPage s st m sh shard h page j lap c v l
      let (s, w) := l.foldl (fun (acc : State × PageWrite) t =>
        let y := x.heldOf s sh shard t
        x.writePlace acc.1 m sh v errs acc.2 (t.pos % 64) y.1 y.2) (s, w)
      let first := (l.map fun t => t.pos % 64).foldl min 63
      let s := (w.image.filter fun y => decide (first ≤ y.1)).foldl (fun s y => s.putEntry v.addr w.fmt sh.padded y.1 y.2) s
      s.putWrite x.p { w with image := w.image.filter fun y => decide (y.1 < first) } true
  | _, _ => s

/-- The positions of a request in one shard written, page by page in position order. -/
def OpCtx.scatterReq (x : OpCtx) (errs : Errs) (s : State) (toks : List Tok) (h shard : Nat) : State :=
  match (s.part x.p).step, (s.part x.p).req h, x.m.pkg.shards[shard]? with
  | some st, some r, some sh =>
    match (s.part x.p).listOf r x.m.handle shard with
    | none => s
    | some c => (pageRuns sh (writtenToks st toks h)).foldl (fun s y => x.writePage s h shard sh c errs y.1 y.2.1 y.2.2) s
  | _, _, _ => s

/-- `SCATTER` over the tokens of a run. -/
def scatterBody (errs : Errs) (x : OpCtx) (s : State) (toks : List Tok) : State × List Tok :=
  (((toks.map (·.req)).eraseDups).foldl (fun s h => x.shardRange.foldl (fun s i => x.scatterReq errs s toks h i) s) s, toks)

/-- `SCATTER` (R185). -/
def execScatter (p : Part) (handle : Nat) (errs : Errs) (s : State) : Host.Outcome State Fault Refusal :=
  .next (s.operate p handle 15 (scatterBody errs))

end Sys2Proof.Machine
end

