-- ==== Sys2Proof/Machine/Commit.lean ====
section
/-! DEFINITION. COMMIT (R193, R194, R196, R198, R207, R271, R272): the results of a step become part of its requests and pages, all
together, and the step boundary that follows. -/

namespace Sys2Proof.Machine

/-! ## Pages -/

/-- A page of a part as a committing step has it (R217, R225): format, VALID, scale entry and escape record. -/
def PoolPart.commitPage (pt : PoolPart) (w : PageWrite) : PoolPart :=
  let n := pageNum w.page
  let pt := if w.opens then pt.dropScale n else pt
  let old := ((lookupA pt.descs n).bind (·.scale)).bind fun i => lookupA pt.scales i
  let pt := match w.entry with
    | none => pt
    | some e =>
      let (pt, idx) := match w.esc, old.bind (·.escIndex), pt.freeEscs with
        | some r, some i, _ => ({ pt with escs := insertA pt.escs i r }, some i)
        | some r, none, i :: rest => ({ pt with escs := insertA pt.escs i r, freeEscs := rest }, some i)
        | some _, none, [] => (pt, none)
        | none, some i, _ => ({ pt with escs := eraseA pt.escs i, freeEscs := i :: pt.freeEscs }, none)
        | none, none, _ => (pt, none)
      let e := { e with escIndex := idx }
      if old.isSome then pt.setScale n e else pt.giveScale n e
  { pt with descs := modifyA pt.descs n fun d =>
      { d with fmt := some w.fmt, valid := w.valid, marked := if w.opens then false else d.marked
               lostAt := if w.opens then [] else d.lostAt } }

/-- A page change takes effect: the places that a re-seasoning rewrote, then the page's tables. -/
def State.commitPage (s : State) (p : Part) (w : PageWrite) : State :=
  match (s.part p).model w.handle, (s.part p).pageShard w.handle w.page with
  | some m, some sh =>
    match m.pageAddr w.page with
    | none => s
    | some a =>
      let s := w.image.foldl (fun s y => s.putEntry a w.fmt sh.padded y.1 y.2) s
      s.modPart p fun q => q.modModel w.handle fun m => m.modPool (pagePart w.page) fun pt => pt.commitPage w
  | _, _ => s

/-! ## Requests -/

/-- The results of a request carry poison: it is withheld (R198). -/
def Step.withheld (st : Step) (h : Nat) : Bool := st.toks.any fun t => t.req == h && t.poison.isSome

/-- The order in which programs run (R211): head, layers, tail. -/
def programRank (n : Nat) : Nat := if n = 0xFFFE then 0 else n + 1

/-- The first program whose results for a request carried poison, with its cause. -/
def Step.poisonOf (st : Step) (h : Nat) : Nat × Nat :=
  let l := (st.toks.filter fun t => t.req == h).filterMap (·.poison)
  ((sortBy (fun x y => decide (programRank x.1 < programRank y.1)) l).head?).getD (0, 2)

/-- `REQ_CLOSE` commands taken whose turn it is: request and MODE. -/
def Partition.closesNow (q : Partition) : List (Nat × Nat) :=
  (q.taken.filter fun c => c.opcode == 0x03 && c.turn q.taken && decide (c.f 16 1 ≤ 1)).map
    fun c => (c.request, c.f 16 1)

/-- Tokens appended to the chain at COMMIT (R257): where no list block is free the tokens are kept without one. -/
def Partition.appendChain (q : Partition) (h : Nat) (r : Req) (toks : List Nat) : Partition × Chain :=
  match (q.model r.model).bind fun m => m.pushAll h r.chain toks with
  | some (m, c) => (q.modModel r.model fun _ => m, c)
  | none => (q, { r.chain with words := r.chain.words ++ toks })

/-- What a pick yields at COMMIT: whether it commits, its records, the cause of its END, whether its deadline has passed, and whether
it expires (R271, R272). -/
structure Outturn where
  pick : Pick
  commits : Bool
  records : List (Nat × W16 × Bool)
  cause : Option Nat
  missed : Bool
  expires : Bool

/-- The outturn of a pick. Deadlines are compared where ring time is trusted (R316). [DEDUCED: log 27] -/
def State.outturn (s : State) (p : Part) (st : Step) (x : Pick) : Outturn :=
  let q := s.part p
  match q.req x.req with
  | none => ⟨x, false, [], none, false, false⟩
  | some r =>
    let dropped := st.withheld x.req || q.closesNow.contains (x.req, 1) || !r.state.live
    if dropped then ⟨x, false, [], none, false, false⟩
    else
      let v := st.verdicts.find? fun v => v.req == x.req
      let records := match v with | some v => v.records | none => []
      let missed := s.trusted && r.deadline ≠ 0 && decide (r.deadline ≤ s.now)
      let cause := match v.bind (·.cause) with
        | some c => some c
        | none => if !records.isEmpty && (r.closing || q.closesNow.contains (x.req, 0)) then some 3 else none
      ⟨x, true, records, cause, missed, missed && !r.continues && cause.isNone && !records.isEmpty⟩

/-- The output records of a committing request, the last of which may carry END (R74, R207). -/
def State.writeRecords (s : State) (p : Part) (o : Outturn) : State :=
  let n := o.records.length
  let flag := match (s.part p).req o.pick.req with | some r => o.missed || r.deadlinePassed | none => false
  (List.zip (List.range n) o.records).foldl (fun s y =>
    s.writeRecord p o.pick.req (BitVec.ofNat 32 y.2.1) y.2.2.1
      (y.1 + 1 == n && (o.cause.isSome || o.expires)) flag y.2.2.2) s

/-- A committing request's length, chain, counts and state (R196, R207, R258). [DEDUCED: log 27] -/
def State.commitReq (s : State) (p : Part) (o : Outturn) : State :=
  match (s.part p).req o.pick.req with
  | none => s
  | some r =>
    let (q, chain) := (s.part p).appendChain o.pick.req r (o.records.map (·.1))
    let n := if o.pick.split = 0 then o.records.length else o.pick.split
    let length := r.length + n
    let last := o.pick.split = 0 ∨ length = r.chain.words.length
    let r := { r with
      length := length, chain := chain, pending := chain.words.length - length
      generated := r.generated + o.records.length, steps := r.steps + 1, lastStep := s.now
      state := if last then .decode else .prefill
      tree := if o.pick.split = 0 ∧ o.pick.missed = false then none else r.tree
      ringFullTold := false, weightsTold := false }
    s.modPart p fun _ => q.modReq o.pick.req fun _ => r

/-- The events of a pick, and its end (R198, R271, R272). [DEDUCED: log 27] -/
def State.closePick (s : State) (p : Part) (st : Step) (o : Outturn) : State :=
  let h := o.pick.req
  if o.commits then
    match o.cause with
    | some c => s.finishReq p h c
    | none =>
      if o.expires then s.expireReq p h
      else match (s.part p).req h with
        | some r =>
          if o.missed && r.continues && !r.deadlinePassed && !o.records.isEmpty then
            (s.toReq p h { code := 0x0012, sev := 1, a := r.deadline, b := r.missedAt }).modReq p h fun r =>
              { r with deadlinePassed := true }
          else s
        | none => s
  else if st.withheld h then
    match (s.part p).req h with
    | some r =>
      let (prog, cause) := st.poisonOf h
      s.toReq p h { code := 0x0004, sev := 3, a := r.length * 2 ^ 32 + prog, b := cause }
    | none => s
  else s

/-- The step's counters and registers (R210). [DEDUCED: log 27] -/
def Partition.countStep (q : Partition) (st : Step) (outs : List Outturn) (up : Time) : Partition :=
  let ns := up - st.headUp
  let verified := outs.filter fun o => o.commits
  let nodes := (verified.map fun o =>
    (st.toks.filter fun t => t.req == o.pick.req && !t.draft && (match t.kind with | .node _ => true | _ => false)).length).sum
  let accepted := (verified.map fun o => match st.verdicts.find? fun v => v.req == o.pick.req with
    | some v => v.accepted.length
    | none => 0).sum
  q.modStepRegs fun k =>
    { k with committed := satAdd k.committed 1, lastNs := sat32 ns
             maxNs := if k.maxNs.toNat < (sat32 ns).toNat then sat32 ns else k.maxNs
             specNodes := satAdd k.specNodes nodes, specAccept := satAdd k.specAccept accepted }

/-- `STEP_DONE` (R210, R211). [DEDUCED: log 27] -/
def State.tellStep (s : State) (p : Part) (st : Step) : State :=
  let q := s.part p
  if q.stepRegs.ctrl.getLsbD 0 then
    s.toPart p 0 { code := 0x0001, sev := 0
                   a := q.stepRegs.committed.toNat * 2 ^ 32 + (st.toks.filter fun t => !t.draft).length
                   b := (sat32 (s.uptime - st.headUp)).toNat * 2 ^ 32 + (sat32 st.stallNs).toNat }
  else s

/-! ## The boundary that follows -/

/-- Victims chosen while the step ran yield (R275). -/
def State.yieldVictims (s : State) (p : Part) : State :=
  (s.part p).victims.foldl (fun s v => if (s.part p).victims.contains v then s.preempt p v.1 v.2 else s) s

/-- What follows a COMMIT at the step boundary. [DEDUCED: log 27] -/
def State.afterCommit (s : State) (p : Part) (outs : List Outturn) : State :=
  let wrote := (outs.filter fun o => !o.records.isEmpty).map (·.pick.req)
  let s := ((s.endClosers p wrote).settle p).runBoundary p
  let s := s.checkDeadlines p
  let s := (s.yieldVictims p).placeReliefs p
  let s := ((s.startMoves p).spareCores.spillPolicy p).sweep
  s.revise p

/-- The `REQ_CLOSE` MODE 0 commands whose request ends with this step wait for no other end. [DEDUCED: log 49] -/
def State.meetCloses (s : State) (p : Part) (outs : List Outturn) : State :=
  let ended := (outs.filter fun o => o.commits && (o.cause.isSome || o.expires)).map (·.pick.req)
  let q := s.part p
  let meets (c : Cmd) : Bool := c.opcode == 0x03 && ended.contains c.request && c.f 16 1 == 0 && c.turn q.taken
  s.modTaken (.part p) fun l => l.map fun (c : Cmd) => if meets c then { c with run := .closing } else c

/-- COMMIT. [DEDUCED: log 27] -/
def State.commit (s : State) (p : Part) (st : Step) : State :=
  let outs := st.picks.map (s.outturn p st)
  let done := outs.filter (·.commits)
  let s := (st.pageWrites.filter fun w => done.any fun o => o.pick.req == w.req).foldl (fun s w => s.commitPage p w) s
  let s := done.foldl (fun s o => (s.writeRecords p o).commitReq p o) s
  let s := s.modPart p fun q =>
    { (q.returnScratch s.ashList st.picks).countStep st outs s.uptime with step := none }
  let s := (s.tellStep p st).settleSlots p
  let s := outs.foldl (fun s o => s.closePick p st o) (s.meetCloses p outs)
  (s.afterCommit p outs).bistSettle

/-- `STEP_COMMIT` (R196): every program of the step has run. -/
def execStepCommit (p : Part) (s : State) : Host.Outcome State Fault Refusal :=
  .next (
    match (s.part p).step with
    | some st => if st.runs.all (·.finished) then s.commit p st else s
    | none => s)

end Sys2Proof.Machine
end

