-- ==== Sys2Proof/Machine/Ring.lean ====
section
/-! DEFINITION. The Ubwi time ring (R307-R319, R323, R325) and the block's clock. -/

namespace Sys2Proof.Machine

/-- An event to event queue 0 of every partition that has a port, and of the owner. [DESIGN CHOICE: log 17] -/
def State.toAll (s : State) (v : Ev) : State :=
  let s := allParts.foldl (fun s p =>
    if (s.part p).port.isSome then s.toEvq (.part p) 0 (s.recordOf p.val v) else s) s
  if s.ownerSrc = .owner then s.toOwner none v else s

/-- Update of the ring block. -/
def State.modRing (s : State) (f : Ring → Ring) : State := { s with ring := f s.ring }

/-- The ring block runs (R318, R380, R386). -/
def State.ringRuns (s : State) : Bool :=
  match s.power.phase with
  | .off | .reset | .dead => false
  | _ => true

/-! ## The clock -/

/-- One nanosecond passes. [DESIGN CHOICE: log 2] -/
def State.tick (s : State) : State := s.pass 1

/-- A time less another, as a signed number of 64 bits. -/
def timeDiff (a b : W64) : Int := (a - b).toInt

/-- A signed number of nanoseconds cut to 32 bits (R323). -/
def sat32s (n : Int) : Int := max (-(2 ^ 31)) (min (2 ^ 31 - 1) n)

/-- The two's complement word of a signed number, for an event's detail. -/
def twos (n : Int) : Nat := (BitVec.ofInt 64 n).toNat

/-- Ring time steps (R314, R317): what the step passes over counts in no slot's overrun. [DEDUCED: log 34] -/
def State.stepTime (s : State) (t : W64) : State :=
  let d := timeDiff t s.ringTime
  let before := s.now
  let s := { s with ringTime := t, slice := { s.slice with overrun := s.slice.overrun.map fun (o : Nat × Time) => (o.1, ((o.2 : Int) + d).toNat) } }
  s.toAll { code := 0x4003, sev := 1, a := before, b := t.toNat }

/-! ## Frames (R308) -/

/-- A field of a frame. -/
def frameBits (f : BitVec 128) (hi lo : Nat) : Nat := f.toNat / 2 ^ lo % 2 ^ (hi - lo + 1)

/-- CRC-16 over the lowest `n` bits of a value, most significant bit first (R308). [DEDUCED: log 35] -/
def crc16 (v : Nat) : Nat → Nat → Nat
  | 0, c => c
  | n + 1, c =>
    let b := v / 2 ^ n % 2
    let top := c / 2 ^ 15 % 2
    let c := c * 2 % 2 ^ 16
    crc16 v n (if b ≠ top then c ^^^ 0x1021 else c)

/-- A frame from its fields (R308). -/
def mkFrame (time hops marks flags : Nat) : BitVec 128 :=
  let body := ((0x01 * 2 ^ 64 + time % 2 ^ 64) * 2 ^ 8 + hops % 256) * 2 ^ 16 + marks % 256 * 256 + flags % 256
  BitVec.ofNat 128 ((0xE8 * 2 ^ 96 + body) * 2 ^ 24 + crc16 body 96 0xFFFF * 2 ^ 8)

/-- SYNC, symbols, CRC and TYPE of a frame are as they should be (R312). -/
def frameSound (f : RingFrame) : Bool :=
  f.manchesterOk && frameBits f.bits 127 120 == 0xE8 && frameBits f.bits 119 112 == 0x01 &&
    crc16 (frameBits f.bits 119 24) 96 0xFFFF == frameBits f.bits 23 8

/-- The received time (R311). -/
def State.recvTime (s : State) (f : RingFrame) : W64 :=
  BitVec.ofNat 64 (frameBits f.bits 111 48) + BitVec.ofNat 64 (bitsOf s.ring.cableDelay 11 0)

/-- TIME_STEP of a frame (R308). -/
def frameSteps (f : RingFrame) : Bool := f.bits.getLsbD 25

/-- The consistency of a frame's time (R312). [DEDUCED: log 35] -/
def State.frameFits (s : State) (f : RingFrame) : Bool :=
  let t := s.recvTime f
  match s.ring.state with
  | .master => true
  | .locked => decide ((timeDiff t s.ringTime).natAbs ≤ 256) || frameSteps f
  | _ =>
    match s.ring.prev with
    | none => true
    | some (pt, at_) => decide ((timeDiff t (BitVec.ofNat 64 pt) - ((s.uptime : Int) - at_)).natAbs ≤ 64)

/-- A frame built from the module's own count (R308, R311, R315); the manual gives it no HOPS. [DEDUCED: log 35] -/
def State.ownFrame (s : State) : State :=
  let (hops, s) := if s.ring.state = .master then (0, s) else s.draw
  let flags := if s.ring.state = .master then (if 0 < s.ring.stepFrames then 2 else 0) else 1
  let marks := if s.ring.state = .master then bitsOf s.ring.marksOut 7 0 else s.ring.marks.toNat
  s.send (.ring (mkFrame s.now hops marks flags))

/-! ## Lock (R313, R314) -/

/-- The follower sets its ring time from an offset: disciplined within 256 ns, stepped beyond (R314). -/
def State.setOffset (s : State) (t : W64) : State :=
  let off := timeDiff t s.ringTime
  if off.natAbs ≤ 256 then s.modRing fun r => { r with adjust := off }
  else (s.stepTime t).modRing fun r => { r with adjust := 0, steps := satAdd r.steps 1 }

/-- A bad or missing frame (R312, R313): the eighth in a row loses lock; a LOCKED follower sends a frame of its own. [DEDUCED: log 35] -/
def State.lostFrame (s : State) (bad : Bool) : State :=
  let s := s.modRing fun r => { r with goodRun := 0, badRun := r.badRun + 1 }
  if s.ring.state = .locked then
    let s := s.ownFrame
    if 8 ≤ s.ring.badRun then
      let next : RingState := if s.pinsCfg.holdover then .holdover else .freerun
      let s := s.modRing fun r =>
        { r with state := next, lockLoss := satAdd r.lockLoss 1, sourceHoldover := false, adjust := 0 }
      s.toAll { code := 0x4002, sev := 1, a := if bad then 1 else 0, b := if next = .holdover then 2 else 3 }
    else s
  else s

/-- A good frame at a follower (R311, R313-R315). -/
def State.goodFollower (s : State) (f : RingFrame) : State :=
  let t := s.recvTime f
  let off := timeDiff t s.ringTime
  let hops := frameBits f.bits 47 40
  let s := if s.ring.hopsKnown ∧ s.ring.hops.toNat ≠ hops then
      s.toOwner none { code := 0x4004, sev := 1, a := s.ring.hops.toNat, b := hops }
    else s
  let s := s.modRing fun r =>
    { r with hops := BitVec.ofNat 8 hops, hopsKnown := true, marks := BitVec.ofNat 8 (frameBits f.bits 39 32)
             offset := sat32s off }
  let s :=
    if s.ring.state = .locked then s.setOffset t
    else if 4 ≤ s.ring.goodRun then
      let s := (s.setOffset t).modRing fun r => { r with state := .locked, tapClosed := false }
      s.toAll { code := 0x4001, sev := 0, a := hops, b := twos off }
    else s
  if s.ring.state = .locked then
    let s := s.modRing fun r => { r with sourceHoldover := f.bits.getLsbD 24 }
    s.send (.ring (mkFrame (t + 48).toNat (min 255 (hops + 1)) (frameBits f.bits 39 32) (frameBits f.bits 31 24)))
  else s

/-- A good frame at the master (R310). -/
def State.goodMaster (s : State) (f : RingFrame) : State :=
  let e := timeDiff s.ringTime (s.recvTime f)
  let hops := frameBits f.bits 47 40
  let s := s.modRing fun r => { r with loopErr := sat32s e, hops := BitVec.ofNat 8 hops, hopsKnown := true }
  if 256 < e.natAbs then
    let s := s.modRing fun r => { r with foreign := satAdd r.foreign 1 }
    if (match s.ring.conflictAt with | some t => decide (t + 1000000000 ≤ s.uptime) | none => true) then
      (s.toOwner none { code := 0x4005, sev := 1, a := twos (sat32s e), b := hops }).modRing fun r =>
        { r with conflictAt := some s.uptime }
    else s
  else s

/-- `RING_FRAME_RX` (R312), at the arrival of the frame's SYNC. [DEDUCED: log 35] -/
def execRingFrameRx (frame : RingFrame) (s : State) : Host.Outcome State Fault Refusal :=
  .next (
    if s.ringRuns then
      let s := s.modRing fun r => { r with inStuck := false }
      let good := frameSound frame && s.frameFits frame
      let mark (s : State) : State :=
        if frameSound frame then s.modRing fun r => { r with prev := some ((s.recvTime frame).toNat, s.uptime) } else s
      if good then
        let s := s.modRing fun r => { r with good := satAdd r.good 1, goodRun := r.goodRun + 1, badRun := 0 }
        mark (if s.ring.state = .master then s.goodMaster frame else s.goodFollower frame)
      else mark ((s.modRing fun r => { r with bad := satAdd r.bad 1 }).lostFrame true)
    else s)

/-- `RING_FRAME_MISSING` (R312). [DEDUCED: log 35] -/
def execRingFrameMissing (s : State) : Host.Outcome State Fault Refusal :=
  .next (if s.ringRuns then (s.modRing fun r => { r with missing := satAdd r.missing 1 }).lostFrame false else s)

/-- The role that RING_CFG or the strap gives (R309): master or not. -/
def State.roleNow (s : State) : Bool :=
  if s.pinsCfg.ringReg then s.ring.cfg.getLsbD 0 else s.pins.straps.getLsbD 3

/-- A change of role at a frame boundary (R309, R313): the count goes on. [DEDUCED: log 35] -/
def State.changeRole (s : State) : State :=
  if s.roleNow = (s.ring.state == .master) then s
  else if s.roleNow then s.modRing fun r =>
    { r with state := .master, adjust := 0, goodRun := 0, badRun := 0, sourceHoldover := false, offset := 0, tapClosed := false }
  else s.modRing fun r =>
    { r with state := .acquire, adjust := 0, goodRun := 0, badRun := 0, prev := none, loopErr := 0
             setPending := false, stepFrames := 0, tapClosed := true }

/-- `RING_FRAME_TX` (R310, R315): the frame boundary. A change of role and a pending SET_TIME take effect; the master, and a
follower in HOLDOVER or FREERUN, send a frame of their own. [DEDUCED: log 35] -/
def execRingFrameTx (s : State) : Host.Outcome State Fault Refusal :=
  .next (
    if s.ringRuns then
      let s := s.changeRole
      let s := if s.ring.setPending ∧ s.ring.state = .master then
          (s.stepTime (BitVec.ofNat 64 (s.ring.timeSetHi.toNat * 2 ^ 32 + s.ring.timeSetLo.toNat))).modRing fun r =>
            { r with setPending := false, stepFrames := 8 }
        else s
      match s.ring.state with
      | .master => (s.ownFrame).modRing fun r => { r with tapClosed := false, stepFrames := r.stepFrames - 1, marks := BitVec.ofNat 8 (bitsOf r.marksOut 7 0) }
      | .holdover | .freerun => s.ownFrame
      | _ => s
    else s)

/-- `RING_IN_STUCK` (R320). -/
def execRingInStuck (s : State) : Host.Outcome State Fault Refusal :=
  .next (
    if s.ringRuns && !s.ring.inStuck then
      { s with ring := { s.ring with inStuck := true }, pins := { s.pins with ringStuck := satAdd s.pins.ringStuck 1 } }
    else s)

/-- RING_CTRL.SET_TIME (R310): owner only, and ignored on a follower. [DEDUCED: log 35] -/
def execRingSetTime (port : Port) (s : State) : Host.Outcome State Fault Refusal :=
  .next (if s.owns port ∧ s.ring.state = .master then s.modRing fun r => { r with setPending := true } else s)

/-- A write of RING_CFG (R309, R323): owner only. -/
def execRingCfgWrite (port : Port) (value : W32) (s : State) : Host.Outcome State Fault Refusal :=
  .next (if s.owns port then s.modRing fun r => { r with cfg := value &&& 1 } else s)

end Sys2Proof.Machine
end

