-- ==== Sys2Proof/Machine/Security.lean ====
section
/-! DEFINITION. Firmware slots and their update (R360-R364), the ash log as bytes (R349), the SPDM responders (R355-R357, R366), link
IDE (R359), and the SEC registers' rows. -/

namespace Sys2Proof.Machine

/-! ## Firmware images (R360, R361, R364) -/

/-- Update of the security state. -/
def State.modSec (s : State) (f : Sec → Sec) : State := { s with sec := f s.sec }

/-- Update of module flash. -/
def State.modFlash (s : State) (f : Flash → Flash) : State := { s with flash := f s.flash }

/-- Bytes of a firmware slot (R360). -/
def slotBytes : Nat := 16777216

/-- SVN of a firmware image (R360). -/
def imageSvn (h : List Byte) : Nat := field h 8 4

/-- MAGIC, FORMAT and BODY_LENGTH of an image, and its length (R360, R364). -/
def imageFormed (img : List Byte) : Bool :=
  let n := field img 12 4
  field img 0 4 == 0x57465848 && field img 4 2 == 1 && decide (1 ≤ n) && decide (n ≤ 16776704) && decide (512 + n ≤ img.length)

/-- The results that stand against a well-formed image: 3 BAD_HASH, 4 BAD_SIGNATURE, 5 ROLLBACK (R361, R364). [DEDUCED: log 36] -/
def Flash.imageFaults (f : Flash) (img : List Byte) : List Nat :=
  let part (o n : Nat) : List Byte := (img.drop o).take n
  let signed := Config.ecdsaVerify Config.hennexKey (part 128 96) (Config.sha384 (part 0 128))
  let countersigned := match f.csigKey with
    | some k => Config.ecdsaVerify k (part 224 96) (Config.sha384 (part 0 224))
    | none => true
  (if part 32 48 = Config.sha384 (part 512 (field img 12 4)) then [] else [3]) ++
    (if signed && countersigned then [] else [4]) ++ (if imageSvn img < f.svnMin then [5] else [])

/-- RESULT of a check (R364); which of several grounds it names, the manual leaves open. [DEDUCED: log 36] -/
def Flash.imageResult (f : Flash) (img : List Byte) (pick : Nat) : Nat :=
  if imageFormed img = false then 2
  else match f.imageFaults img with
    | [] => 1
    | x :: xs => (x :: xs).getD (pick % (xs.length + 1)) x

/-- An image verifies (R361). -/
def Flash.verifies (f : Flash) (img : List Byte) : Bool := imageFormed img && (f.imageFaults img).isEmpty

/-- A firmware slot: true for B. -/
def Flash.fwSlot (f : Flash) (b : Bool) : List Byte := if b then f.slotB else f.slotA

/-- Update of a firmware slot. -/
def Flash.modSlot (f : Flash) (b : Bool) (g : List Byte → List Byte) : Flash :=
  if b then { f with slotB := g f.slotB } else { f with slotA := g f.slotA }

/-- The boot ROM's choice (R361): the slot that runs, and whether it is not the first one tried. -/
def Flash.bootSlot (f : Flash) (bootSel : Bool) : Option (Bool × Bool) :=
  let first := f.activeB != bootSel
  if f.verifies (f.fwSlot first) then some (first, false)
  else if f.verifies (f.fwSlot (!first)) then some (!first, true)
  else none

/-! ## Random bytes -/

/-- `n` bytes of free values. [DESIGN CHOICE: log 1] -/
def State.drawBytes (s : State) : Nat → List Byte × State
  | 0 => ([], s)
  | n + 1 =>
    let (v, s) := s.draw
    let (l, s) := s.drawBytes n
    (BitVec.ofNat 8 v :: l, s)

/-- SEC_NONCE drawn (R363, R374). -/
def State.drawNonce (s : State) : State :=
  let (l, s) := s.drawBytes 48
  s.modSec fun x => { x with nonce := l }

/-! ## Updates of firmware (R362-R364) -/

/-- `SEC_FW_BEGIN` (R362): not while a check or a fuse write is in progress. [DEDUCED: log 36] -/
def execSecFwBegin (port : Port) (s : State) : Host.Outcome State Fault Refusal :=
  .next (
    if s.reaches port && (s.sec.busy == .none || s.sec.busy == .erase) then
      (s.modFlash fun f => f.modSlot (!f.activeB) fun _ => []).modSec fun x =>
        { x with busy := .erase, result := 0, verified := none, bytes := 0, loading := true }
    else s)

/-- `FW_ERASE_DONE` (R362). -/
def execFwEraseDone (s : State) : Host.Outcome State Fault Refusal :=
  .next (if s.sec.busy = .erase then s.modSec fun x => { x with busy := .none } else s)

/-- `SEC_FW_LOAD` (R362): four bytes, byte 0 first, all counted; bytes past the slot's end, or before a BEGIN, are ignored. [DEDUCED: log 36] -/
def execSecFwLoad (port : Port) (value : W32) (s : State) : Host.Outcome State Fault Refusal :=
  .next (
    if s.reaches port then
      let s := s.modSec fun x => { x with bytes := x.bytes + 4 }
      if s.sec.loading then s.modFlash fun f => f.modSlot (!f.activeB) fun l => (l ++ leBytes 4 value.toNat).take slotBytes
      else s
    else s)

/-- `SEC_FW_CHECK` (R361, R362). [DEDUCED: log 36] -/
def execSecFwCheck (port : Port) (s : State) : Host.Outcome State Fault Refusal :=
  .next (
    if s.reaches port && (s.sec.busy == .none || s.sec.busy == .erase) then s.modSec fun x => { x with busy := .check }
    else s)

/-- `FW_LOAD_DONE` (R361, R362, R376): the check of the inactive slot ends. -/
def execFwLoadDone (s : State) : Host.Outcome State Fault Refusal :=
  .next (
    if s.sec.busy = .check then
      let (n, s) := s.draw
      let b := !s.flash.activeB
      let img := s.flash.fwSlot b
      let r := s.flash.imageResult img n
      (s.modSec fun x => { x with busy := .none, result := r, verified := if r = 1 then some b else none }).toOwner none
        { code := 0x5003, sev := if r = 1 then 0 else 1, a := r, b := imageSvn img }
    else s)

/-- `SEC_FW_ACTIVATE` (R362): of the slot that the last check verified. [DEDUCED: log 36] -/
def execSecFwActivate (port : Port) (s : State) : Host.Outcome State Fault Refusal :=
  .next (
    if s.reaches port ∧ s.sec.result = 1 then
      match s.sec.verified with
      | some b => (s.modFlash fun f => { f with activeB := b }).modSec fun x => { x with loading := false }
      | none => s
    else s)

/-- The bytes of SEC_CSIG_LOAD. -/
def Sec.csig (x : Sec) (o n : Nat) : List Byte := (x.csigLoad.toList.drop o).take n

/-- A key of zeros stands for no key (R363). [DEDUCED: log 36] -/
def keyOf (k : List Byte) : Option (List Byte) := if k.all (· == 0) then none else some k

/-- `SEC_FW_ENROL` (R363). -/
def execSecFwEnrol (port : Port) (s : State) : Host.Outcome State Fault Refusal :=
  .next (
    if s.reaches port then
      let new := s.sec.csig 0 96
      let ok := match s.flash.csigKey with
        | none => true
        | some k => Config.ecdsaVerify k (s.sec.csig 96 96) (Config.sha384 (s.sec.nonce ++ new))
      (if ok then s.modFlash fun f => { f with csigKey := keyOf new }
       else s.modSec fun x => { x with result := 6 }).drawNonce
    else s)

/-- `SEC_FW_COMMIT_SVN` (R364). [DEDUCED: log 36] -/
def execSecFwCommitSvn (port : Port) (s : State) : Host.Outcome State Fault Refusal :=
  .next (if s.reaches port ∧ s.sec.busy = .none then s.modSec fun x => { x with busy := .fuse } else s)

/-- `FUSE_WRITE_DONE` (R364): one increment of the 64 that the fuses allow. -/
def execFuseWriteDone (s : State) : Host.Outcome State Fault Refusal :=
  .next (
    if s.sec.busy = .fuse then
      let s := s.modSec fun x => { x with busy := .none }
      let svn := imageSvn s.sec.runningHdr
      if s.flash.svnMin < svn ∧ s.flash.svnSteps < 64 then
        s.modFlash fun f => { f with svnMin := svn, svnSteps := f.svnSteps + 1 }
      else s
    else s)

/-! ## The ash log as bytes (R349) -/

/-- One bit of CRC-32 (IEEE 802.3), reflected. -/
def crcBit (c : Nat) : Nat := if c % 2 = 1 then c / 2 ^^^ 0xEDB88320 else c / 2

/-- CRC-32 of a byte string. -/
def crc32 (l : List Byte) : Nat :=
  (l.foldl (fun c b => (List.range 8).foldl (fun c _ => crcBit c) (c ^^^ b.toNat)) 0xFFFFFFFF) ^^^ 0xFFFFFFFF

/-- The 32 bytes of a record. -/
def AshRec.bytes (r : AshRec) : List Byte :=
  let l := leBytes 1 r.type ++ leBytes 1 (if r.superseded then 1 else 0) ++ leBytes 2 0 ++ leBytes 4 r.seq ++ leBytes 8 r.time ++
    leBytes 8 r.loc.toNat ++ leBytes 4 r.arg
  l ++ leBytes 4 (crc32 l)

/-- The current copy: its 64-byte header and its records in use. -/
def Flash.ashBytes (f : Flash) : List Byte :=
  let c := f.ash
  leBytes 4 0x4C485341 ++ leBytes 2 1 ++ leBytes 2 0 ++ leBytes 4 c.2.length ++ leBytes 4 c.1 ++ leBytes 48 0 ++
    c.2.flatMap AshRec.bytes

/-! ## SPDM (R355-R357, R366) -/

/-- Update of a port's responder. -/
def State.modSpdm (s : State) (port : Port) (f : Spdm → Spdm) : State := s.modPort port fun x => { x with spdm := f x.spdm }

/-- A port's DOE mailbox answers: its link is up, and the module serves it or is in STANDBY with it as the management tile's (R55, R380,
R384). -/
def State.answers (s : State) (port : Port) : Bool :=
  s.portLive port && (s.serving || (s.power.phase == .standby && s.power.mgmt == some port))

/-- An answer of a port's responder. -/
def State.reply (s : State) (port : Port) (r : SpdmReply) : State := s.send (.spdm port r)

/-- A request that a port's responder answers once the connection stands: algorithms negotiated. [PRESUMED: log 37] -/
def State.spdmReq (s : State) (port : Port) (body : Spdm → State) : State :=
  if s.answers port then
    let x := (s.port port).spdm
    if x.negotiated then body x else s.reply port .errorOther
  else s

/-- The same for a request that needs the identity key (R366). [PRESUMED: log 37] -/
def State.keyReq (s : State) (port : Port) (body : Spdm → State) : State :=
  s.spdmReq port fun x => if s.sec.keyValid then body x else s.reply port .errorUnspecified

/-- The same for a request within an established session. [PRESUMED: log 37] -/
def State.inSession (s : State) (port : Port) (id : Nat) (body : State) : State :=
  s.spdmReq port fun x =>
    if x.sessions.any fun y => y.id == id && y.established then body else s.reply port .errorOther

/-- `GET_VERSION`: the connection starts anew. [PRESUMED: log 37] -/
def execGetVersion (port : Port) (s : State) : Host.Outcome State Fault Refusal :=
  .next (
    if s.answers port then
      (s.modSpdm port fun x => { x with versioned := true, negotiated := false, sessions := [] }).reply port .version
    else s)

/-- `GET_CAPABILITIES`. -/
def execGetCapabilities (port : Port) (s : State) : Host.Outcome State Fault Refusal :=
  .next (
    if s.answers port then s.reply port (if (s.port port).spdm.versioned then .capabilities else .errorOther) else s)

/-- `NEGOTIATE_ALGORITHMS`. -/
def execNegotiateAlgorithms (port : Port) (s : State) : Host.Outcome State Fault Refusal :=
  .next (
    if s.answers port then
      if (s.port port).spdm.versioned then (s.modSpdm port fun x => { x with negotiated := true }).reply port .algorithms
      else s.reply port .errorOther
    else s)

/-- `GET_DIGESTS`: of the chain in slot 0. -/
def execGetDigests (port : Port) (s : State) : Host.Outcome State Fault Refusal :=
  .next (s.spdmReq port fun _ => s.reply port (.digests [Config.sha384 Config.certChain]))

/-- `GET_CERTIFICATE` (R355): slots 1-7 are empty. -/
def execGetCertificate (port : Port) (slot offset len : Nat) (s : State) : Host.Outcome State Fault Refusal :=
  .next (s.spdmReq port fun _ =>
    s.reply port (if slot = 0 then .certificate ((Config.certChain.drop offset).take len) else .errorOther))

/-- `CHALLENGE`. -/
def execChallenge (port : Port) (nonce : List Byte) (s : State) : Host.Outcome State Fault Refusal :=
  .next (s.keyReq port fun _ => s.reply port (.challengeAuth (Config.identitySign (Config.sha384 Config.certChain ++ nonce))))

/-- The measurement blocks that a port sees (R357). -/
def State.measurements (s : State) (port : Port) : List (Nat × List Byte) :=
  [(1, Config.sha384 Config.bootRom), (2, Config.sha384 (s.sec.runningHdr.take 320)), (3, s.sec.chain3),
   (4, Config.sha384 s.flash.ashBytes)] ++
    match s.partOf port with
    | some p => if (s.part p).port = some port then [(5, (s.part p).chain5)] else []
    | none => []

/-- `GET_MEASUREMENTS` (R357, R366): index 0xFF asks for every block, 0 for none; another block than these is an error. [PRESUMED: log 37] -/
def execGetMeasurements (port : Port) (index : Nat) (sign : Bool) (nonce : List Byte) (s : State) :
    Host.Outcome State Fault Refusal :=
  .next (s.spdmReq port fun _ =>
    if s.sec.scanLatch || (sign && !s.sec.keyValid) then s.reply port .errorUnspecified
    else
      let all := s.measurements port
      let some_ := if index = 0xFF then all else all.filter fun x => x.1 == index
      if index ≠ 0 ∧ some_.isEmpty then s.reply port .errorOther
      else s.reply port (.measurements some_
        (if sign then some (Config.identitySign (some_.flatMap (fun x => leBytes 1 x.1 ++ x.2) ++ nonce)) else none)))

/-- `KEY_EXCHANGE` (R356): at most two sessions at a time. [PRESUMED: log 37] -/
def execKeyExchange (port : Port) (exchange : List Byte) (s : State) : Host.Outcome State Fault Refusal :=
  .next (s.keyReq port fun x =>
    if 2 ≤ x.sessions.length then s.reply port .errorOther
    else
      (s.modSpdm port fun x => { x with
        sessions := x.sessions ++ [{ id := x.nextSession }], nextSession := x.nextSession + 1 }).reply port
        (.keyExchangeRsp x.nextSession (Config.identitySign exchange)))

/-- `FINISH`: of a session whose handshake stands open. [PRESUMED: log 37] -/
def execFinish (port : Port) (session : Nat) (verify : List Byte) (s : State) : Host.Outcome State Fault Refusal :=
  .next (s.spdmReq port fun x =>
    if (x.sessions.any fun y => y.id == session && !y.established) && Config.finishOk session verify then
      (s.modSpdm port fun x => { x with
        sessions := x.sessions.map fun y => if y.id = session then { y with established := true } else y }).reply port
        (.finishRsp session)
    else s.reply port .errorOther)

/-- `HEARTBEAT`. -/
def execHeartbeat (port : Port) (session : Nat) (s : State) : Host.Outcome State Fault Refusal :=
  .next (s.inSession port session (s.reply port (.heartbeatAck session)))

/-- `KEY_UPDATE`. -/
def execKeyUpdate (port : Port) (session : Nat) (s : State) : Host.Outcome State Fault Refusal :=
  .next (s.inSession port session
    ((s.modSpdm port fun x => { x with
      sessions := x.sessions.map fun y => if y.id = session then { y with keyGen := y.keyGen + 1 } else y }).reply port
      (.keyUpdateAck session)))

/-- `END_SESSION`. -/
def execEndSession (port : Port) (session : Nat) (s : State) : Host.Outcome State Fault Refusal :=
  .next (s.inSession port session
    ((s.modSpdm port fun x => { x with sessions := x.sessions.filter fun y => y.id ≠ session }).reply port
      (.endSessionAck session)))

/-- `IDE_KM` (R359): a key of a set and a direction, within a session of the port. [PRESUMED: log 37] -/
def execIdeKm (port : Port) (session : Nat) (kset dir : Fin 2) (key : List Byte) (s : State) :
    Host.Outcome State Fault Refusal :=
  .next (s.inSession port session
    ((s.modPort port fun x => { x with ide :=
      { keys := ((kset.val, dir.val), key) :: eraseA x.ide.keys (kset.val, dir.val), insecure := false } }).reply port
      (.ideKmAck session)))

end Sys2Proof.Machine
end

