-- ==== Sys2Proof/Machine/Power.lean ====
section
/-! DEFINITION. Power states and sequences (R377-R386), brake, power limit and temperatures (R387-R390), the discrete pins (R320-R324),
the replay of the ash log (R351), SMBus (R395). -/

namespace Sys2Proof.Machine

/-- Update of the power state. -/
def State.modPower (s : State) (f : Power → Power) : State := { s with power := f s.power }

/-- Update of the pins. -/
def State.modPins (s : State) (f : PinSt → PinSt) : State := { s with pins := f s.pins }

/-! ## What a loss of power and a reset leave -/

/-- Nothing but module flash keeps its contents (R385): what the world outside holds, and what it was sent, is not the module's. [DEDUCED: log 36, 41] -/
def State.blank (s : State) : State :=
  { State.reset with
    pending := s.pending
    out := s.out
    fresh := s.fresh
    flash := s.flash
    nextTag := s.nextTag
    ports := s.ports.map fun (x : PortSt) => { perst := x.perst : PortSt }
    pins := { pwrEn := s.pins.pwrEn, thermTripN := s.pins.thermTripN, strapsNow := s.pins.strapsNow } }

/-- Power-down (R385): LAST_OFF is written, and the module is OFF. -/
def State.powerDown (s : State) (cause : Nat) : State :=
  { s.blank with flash := { s.flash with lastOff := cause } }

/-- Whether the module is OFF. -/
def State.isOff (s : State) : Bool := s.power.phase == .off

/-- `PWR_EN_FALL` (R385, R390): THERM_TRIP_N is released with it. -/
def execPwrEnFall (s : State) : Host.Outcome State Fault Refusal :=
  .next (
    if s.pins.pwrEn then
      (if s.isOff then s else s.powerDown 1).modPins fun x => { x with pwrEn := false, thermTripN := true }
    else s)

/-- A protective action of the input stage (R378): OFF until PWR_EN is accepted low and then high. -/
def State.protect (s : State) (cause : Nat) : State := if s.isOff then s else s.powerDown cause

/-- `UNDERVOLTAGE` (R378). -/
def execUndervoltage (s : State) : Host.Outcome State Fault Refusal := .next (s.protect 2)

/-- `OVERVOLTAGE` (R378). -/
def execOvervoltage (s : State) : Host.Outcome State Fault Refusal := .next (s.protect 3)

/-- `OVERCURRENT` (R378). -/
def execOvercurrent (s : State) : Host.Outcome State Fault Refusal := .next (s.protect 4)

/-- Thermal trip (R390): THERM_TRIP_N is latched, and LAST_OFF is written as far as the hold-up allows. [DEDUCED: log 36] -/
def State.trip (s : State) : State :=
  let (n, s) := s.draw
  (s.powerDown (if n % 2 = 0 then 5 else s.flash.lastOff)).modPins fun x => { x with thermTripN := false }

/-! ## Power-up (R322, R383) -/

/-- The ring block as power-up leaves it: a master starts at its own count, a follower acquires (R309, R313, R318). -/
def Ring.fresh (strap : Bool) : Ring := { state := if strap then .master else .acquire }

/-- Whether three samples of the straps agree (R322). -/
def strapsAgree (s1 s2 s3 : BitVec 4) : Bool := s1 == s2 && s2 == s3

/-- `PWR_EN_RISE` (R322, R383): from OFF, once PWR_EN has been low. [DESIGN CHOICE: log 3] -/
def execPwrEnRise (s1 s2 s3 : BitVec 4) (s : State) : Host.Outcome State Fault Refusal :=
  .next (
    if s.isOff ∧ s.pins.pwrEn = false then
      let straps := if strapsAgree s1 s2 s3 then s1 else 0
      let s := s.blank
      let s := s.modPins fun x => { x with pwrEn := true, straps := straps, strapsNow := s3, unstable := !strapsAgree s1 s2 s3 }
      ({ s with ring := Ring.fresh (straps.getLsbD 3) }.modPower fun x => { x with phase := .boot }).drawNonce
    else s)

/-- What a module reset keeps of the ring block: its counters (R323, R386). [DEDUCED: log 40] -/
def Ring.keepCounters (x : Ring) (strap : Bool) : Ring :=
  { Ring.fresh strap with
    good := x.good, bad := x.bad, missing := x.missing, lockLoss := x.lockLoss, holdoverNs := x.holdoverNs, steps := x.steps,
    foreign := x.foreign }

/-- `MOD_RESET_ASSERT` (R386): not while OFF. The latched straps, SCAN_LATCH, flash and the PIN and RING counters stay; so does the
brake input, which the module does not drive. [DEDUCED: log 40] -/
def execModResetAssert (s : State) : Host.Outcome State Fault Refusal :=
  .next (
    if s.isOff ∨ s.pins.resetN = false then s
    else
      let b := s.blank
      let pins : PinSt := { s.pins with
        resetN := false, pwrGood := false, changed := false, alertStuck := s.pins.alertStuck && !s.power.mgmtLost }
      { b with
        uptime := s.uptime
        pins := pins
        power := { b.power with phase := .reset }
        ring := s.ring.keepCounters (s.pins.straps.getLsbD 3)
        sec := { b.sec with scanLatch := s.sec.scanLatch } }.releaseAlert)

/-- `MOD_RESET_DEASSERT` (R386): the boot ROMs run again, and ring time restarts. [DEDUCED: log 40] -/
def execModResetDeassert (s : State) : Host.Outcome State Fault Refusal :=
  .next (
    if s.power.phase = .reset ∧ s.pins.resetN = false then
      let s := s.modPins fun x => { x with resetN := true }
      ({ s with ringTime := 0 }.modPower fun x => { x with phase := .boot }).drawNonce
    else s)

/-! ## The ash log replayed (R351) -/

/-- Fields of a LOCATION (R345). -/
def locSite (loc : W64) : Site := Fin.ofNat 64 (loc.toNat / 2 ^ 54 % 64)
def locDie (loc : W64) : Nat := loc.toNat / 2 ^ 50 % 16
def locBank (loc : W64) : Nat := loc.toNat / 2 ^ 44 % 64
def locRow (loc : W64) : Nat := loc.toNat / 2 ^ 27 % 2 ^ 17
def locCluster (loc : W64) : Nat := loc.toNat / 2 ^ 46 % 256
def locCoreNum (loc : W64) : Nat := loc.toNat / 2 ^ 39 % 128
def locEngineNum (loc : W64) : Nat := loc.toNat / 2 ^ 48 % 64

/-- One record applied. Reserved types are skipped. -/
def State.replayOne (s : State) (r : AshRec) : State :=
  let site := locSite r.loc
  let k := dieKey site (locDie r.loc)
  let bank := locBank r.loc
  match r.type with
  | 0x01 => s.modDie k fun d => { d with
      usedSpares := (bank, r.arg % 256) :: d.usedSpares
      remaps := d.remaps ++ [(bank, locRow r.loc, r.arg % 256, decide (256 ≤ r.arg))] }
  | 0x02 => { s with ashList := setAdd s.ashList r.arg }.modDie k fun d =>
      { d with retirements := insertA d.retirements bank (((lookupA d.retirements bank).getD 0) + 1) }
  | 0x03 => s.modDie k fun d => { d with retiredBanks := setAdd d.retiredBanks bank }
  | 0x04 => s.modDie k fun d => { d with retired := true }
  | 0x05 => s.modDie k fun d => { d with sparedWires := d.sparedWires ++ [r.arg] }
  | 0x06 => s.modUnits site fun u => { u with coreFaults := u.coreFaults ++ [(locCluster r.loc, locCoreNum r.loc)] }
  | 0x07 => s.modUnits site fun u => { u with clusters := setAdd u.clusters (locCluster r.loc) }
  | 0x08 => s.modUnits site fun u => { u with engines := setAdd u.engines (locEngineNum r.loc) }
  | 0x09 => s.fenceSite site
  | 0x0A =>
    let spare : Site := Fin.ofNat 64 (r.arg / 256)
    let s := s.moveMasks site spare
    { s with sites := upd s.sites spare fun x => { x with state := .inService, tile := some (r.arg % 256) } }
  | 0x0B =>
    match r.arg with
    | 0 =>
      let s := { s.fenceSite site with sites := upd (s.fenceSite site).sites site fun x => { x with routerRetired := true } }
      { s with route := routeTable s.deadRouters }
    | 1 => { s with peatRetired := true }
    | _ =>
      match ([0, 1, 2, 3] : List Port).find? fun p => cornerSite p == site.val with
      | some p => s.modPort p fun x => { x with lost := true }
      | none => s
  | _ => s

/-- The replay: unsuperseded records in SEQUENCE order. -/
def State.replay (s : State) : State :=
  ((sortBy (fun (a b : AshRec) => decide (a.seq < b.seq)) (s.flash.ash.2.filter fun r => !r.superseded))).foldl
    State.replayOne s

/-! ## From the boot checks to ON (R382, R383) -/

/-- PWR_STATUS.STATE (R380). -/
def State.powerState (s : State) : Nat := match s.power.phase with | .on => 2 | .brake => 3 | _ => 1

/-- `POWER_STATE` (R398, R407). [DEDUCED: log 40] -/
def State.tellPower (s : State) (old new : Nat) : State := s.toOwner none { code := 0x7055, sev := 0, a := old, b := new }

/-- HOLD_CAUSE that the checks give (R382); 0 where they pass. -/
def holdCauseOf (env : BootEnv) : Nat :=
  if 45 < env.inlet then 1 else if env.flow < 200 then 2 else if env.volts < 5000 ∨ 6000 < env.volts then 3 else 0

/-- Links that only the management tile's port keeps in STANDBY (R380, R381). [DEDUCED: log 42] -/
def State.dropLinks (s : State) : State :=
  ([0, 1, 2, 3] : List Port).foldl (fun s p =>
    if s.power.mgmt = some p then s else s.modPort p fun x => { x with linkUp := false, held := [], spdm := {}, ide := {} }) s

/-- Dies whose channels have more failed wires on record than the eight spare ones are retired at training (R81, R336). -/
def State.wiresTrained (s : State) : State :=
  (s.dies.filter fun d => decide (8 < d.2.sparedWires.length)).foldl (fun (s : State) d =>
    s.retireDie (Fin.ofNat 64 (d.1 / 16)) (d.1 % 16) 1) s

/-- The sheet rails are raised: memory zeroised, the factory image loaded, the ash log replayed, dies whose training failed retired
(R43, R351, R383). -/
def State.raiseRails (s : State) (trainFailed : List DieId) : State :=
  let s := s.modPower fun x => { x with phase := .init, holdCause := 0, postDone := false, peatDone := false }
  let s := { s with sheet := [], poisoned := [], peat := [], peatPoisoned := [], ashList := [], peatRetired := false }
  let s := s.loadFactory.replay.wiresTrained
  let s := trainFailed.foldl (fun s (d : DieId) => s.retireDie d.site d.die.val 2) s
  s.modPower fun x => { x with postDone := !s.pinsCfg.post }

/-- The corner whose site frame passes first (R21). -/
def firstCorner (passed : BitVec 4) : Option Port := ([0, 1, 2, 3] : List Port).find? fun p => passed.getLsbD p.val

/-- Nothing boots: the host ports are never enabled, and ALERT_N stays asserted (R21, R361). -/
def State.dieAtBoot (s : State) : State :=
  ((s.modPower fun x => { x with phase := .dead }).modPins fun x => { x with alertStuck := true }).assertAlert

/-- `BOOT_SELF_CHECK_DONE` (R21, R354, R361, R382). [DESIGN CHOICE: log 3] -/
def execBootSelfCheckDone (passed : BitVec 4) (env : BootEnv) (s : State) : Host.Outcome State Fault Refusal :=
  .next (
    if s.power.phase ≠ .boot then s
    else match firstCorner passed with
      | none => s.dieAtBoot
      | some m => match s.flash.bootSlot (s.pins.straps.getLsbD 2) with
        | none => s.dieAtBoot
        | some (slot, fallback) =>
          let s := s.modSec fun x => { x with
            keyValid := !x.scanLatch, runningB := slot, bootFallback := fallback
            runningHdr := (s.flash.fwSlot slot).take 512 }
          let s := s.modPower fun x => { x with mgmt := some m, lastOff := s.flash.lastOff }
          if holdCauseOf env = 0 then s.raiseRails env.trainFailed
          else (s.modPower fun x => { x with phase := .standby, holdCause := holdCauseOf env, stood := true }).dropLinks)

/-- `STANDBY_CHECK_TICK` (R382): while a hold cause keeps the module in STANDBY. -/
def execStandbyCheckTick (env : BootEnv) (s : State) : Host.Outcome State Fault Refusal :=
  .next (
    if s.power.phase = .standby ∧ s.power.holdCause ≠ 0 then
      if holdCauseOf env = 0 then s.raiseRails env.trainFailed
      else s.modPower fun x => { x with holdCause := holdCauseOf env }
    else s)

/-- `PWR_CTRL_ON` (R382): in STANDBY only, whatever the checks show. -/
def execPwrCtrlOn (port : Port) (s : State) : Host.Outcome State Fault Refusal :=
  .next (if s.power.phase = .standby ∧ s.reaches port then s.raiseRails [] else s)

/-- Entry into BRAKE (R380, R387): the share falls to 8/16; the mean power of the first 100 µs is still to be told. -/
def State.enterBrake (s : State) : State :=
  s.modPower fun x => { x with
    phase := .brake, brakeShare := 8, brakeEntered := s.uptime, brakeWattSum := 0, brakeSamples := 0, brakeTold := false }

/-- `BRAKE_ENGAGED` (R398). [DEDUCED: log 40] -/
def State.tellBrake (s : State) : State :=
  if s.power.brakeTold then s
  else
    let w := if s.power.brakeSamples = 0 then s.power.watts.toNat else s.power.brakeWattSum / s.power.brakeSamples
    (s.modPower fun x => { x with brakeTold := true }).toAll { code := 0x7050, sev := 1, a := s.pins.assertRing, b := w }

/-- The end of power-up (R43, R384): partitions with a FENCE start, but where their port's PERST# is asserted; ON, or BRAKE. [DEDUCED: log 40] -/
def State.finishInit (s : State) : State :=
  if s.power.phase = .init ∧ s.power.postDone ∧ s.power.peatDone then
    let old := s.power.stood
    let s := s.modPower fun x => { x with phase := .on, stood := false }
    let s := if s.pins.braking then s.enterBrake else s
    let s := allParts.foldl (fun s p =>
      match (s.part p).port with
      | some q => if (s.port q).perst then s.modPart p fun x => { x with stopCause := 1 } else s.start p
      | none => s) s
    let s := s.modPins fun x => { x with pwrGood := true }
    if old then s.tellPower 1 s.powerState else s
  else s

/-- `PEAT_INIT_DONE` (R383). [DESIGN CHOICE: log 3] -/
def execPeatInitDone (s : State) : Host.Outcome State Fault Refusal :=
  .next (if s.power.phase = .init then (s.modPower fun x => { x with peatDone := true }).finishInit else s)

/-- What the rails take with them when the module goes to STANDBY (R381): everything but the registers that only a power-up resets. [DEDUCED: log 42] -/
def State.unpowered (s : State) : State :=
  { s with
    ownerSub := {}, ownerTaken := [], reads := [], kln := {}
    sites := Vector.replicate 64 {}, route := [], slice := { debts := s.slice.debts }
    sheet := [], poisoned := [], peat := [], peatPoisoned := [], ashList := []
    dies := [], banks := [], seqs := [], units := [], scratch := [], sheetLines := [], sram := [], tablesHit := [], xfers := [], arrivals := [], repairs := []
    sheetFifo := [], substs := [], tileUnits := []
    memMargin := { logTransfers := s.memMargin.logTransfers, first := 0x3FF }
    peatMargin := { logTransfers := s.peatMargin.logTransfers, first := 0x1F }
    bist := { lastResult := s.bist.lastResult, temp := s.bist.temp, clock := s.bist.clock, supply := s.bist.supply
              failed := s.bist.failed, postFailed := s.bist.postFailed, postSkipped := s.bist.postSkipped
              postRan := s.bist.postRan } }

/-- BRAKE is left, for ON or for STANDBY (R380): `BRAKE_RELEASED` is written, and the brake's share returns to 16/16 (R387, R398). -/
def State.leaveBrake (s : State) : State :=
  let s := s.tellBrake
  (s.modPower fun x => { x with phase := .on, brakeShare := 16 }).toAll
    { code := 0x7051, sev := 0, a := s.uptime - s.power.brakeEntered, b := s.pins.brakeCount.toNat }

/-- `PWR_CTRL_STANDBY` (R381): with every partition STOPPED or ABSENT. [DEDUCED: log 42] -/
def execPwrCtrlStandby (port : Port) (s : State) : Host.Outcome State Fault Refusal :=
  .next (
    if s.owns port && allParts.all fun p => (s.part p).st == .stopped || (s.part p).st == .absent then
      let s := (if s.power.phase = .brake then s.leaveBrake else s).tellPower s.powerState 1
      let s := allParts.foldl State.wipePart s
      let s := s.modPins fun x => { x with pwrGood := false }
      let s := s.modPower fun x => { x with phase := .standby, stood := true, brakeTold := true, brakeShare := 16 }
      s.unpowered.dropLinks
    else s)

/-! ## The brake (R321, R387) -/

/-- PINS FUNCTION of BRAKE_N: reported only (R41, R321). -/
def State.brakeReportOnly (s : State) : Bool := s.pinsCfg.brakeFunction == 1

/-- The pins are looked at: the module is neither OFF nor held in reset. -/
def State.pinsLive (s : State) : Bool := s.power.phase != .off && s.power.phase != .reset

/-- `BRAKE_ASSERT` (R321). -/
def execBrakeAssert (s : State) : Host.Outcome State Fault Refusal :=
  .next (
    if s.pinsLive && s.pins.brakeN then
      let x := s.pins
      let chatter := match x.lastAssert with | some t => decide (s.uptime < t + 1000000) | none => false
      let tell := chatter && (match x.lastChatter with | some t => decide (t + 1000000000 ≤ s.uptime) | none => true)
      let s := s.modPins fun x => { x with
        brakeN := false, assertedAt := some s.uptime, lastAssert := some s.uptime, assertRing := s.now, heldTold := false
        brakeCount := satAdd x.brakeCount 1
        brakeChatter := if chatter then satAdd x.brakeChatter 1 else x.brakeChatter
        lastChatter := if chatter then some s.uptime else x.lastChatter }
      let s := if tell then s.toOwner none { code := 0x7040, sev := 1, a := s.pins.brakeChatter.toNat, b := s.now } else s
      if s.brakeReportOnly then s
      else
        let s := s.modPins fun x => { x with braking := true }
        if s.power.phase = .on then s.enterBrake.tellPower 2 3 else s
    else s)

/-- `BRAKE_DEASSERT` (R321). -/
def execBrakeDeassert (s : State) : Host.Outcome State Fault Refusal :=
  .next (
    if s.pinsLive && !s.pins.brakeN then
      s.modPins fun x => { x with brakeN := true, assertedAt := none, deassertedAt := some s.uptime }
    else s)

/-- `BRAKE_DWELL_END` (R321, R387): 1 ms after the last accepted deassertion. [DESIGN CHOICE: log 6] -/
def execBrakeDwellEnd (s : State) : Host.Outcome State Fault Refusal :=
  .next (
    match s.pins.deassertedAt with
    | some t =>
      if s.pinsLive && s.pins.brakeN && s.pins.braking then
        let s := (s.passTo (t + 1000000)).modPins fun x => { x with braking := false }
        if s.power.phase = .brake then
          s.leaveBrake.tellPower 3 2
        else s
      else s
    | none => s)

/-- `BRAKE_HELD` (R321): once, after 1 s of a continuous assertion. -/
def execBrakeHeld (s : State) : Host.Outcome State Fault Refusal :=
  .next (
    match s.pins.assertedAt with
    | some t =>
      if s.pinsLive && !s.pins.brakeN && !s.pins.heldTold then
        let s := (s.passTo (t + 1000000000)).modPins fun x => { x with heldTold := true }
        s.toOwner none { code := 0x7041, sev := 1, a := s.pins.assertRing, b := s.pinsCfg.brakeFunction.toNat }
      else s
    | none => s)

/-- `BRAKE_SHARE_TICK` (R387): every 10 µs in BRAKE; the tenth gives the mean of the first 100 µs. [DESIGN CHOICE: log 6; DEDUCED: log 40] -/
def execBrakeShareTick (watts : Nat) (s : State) : Host.Outcome State Fault Refusal :=
  .next (
    if s.power.phase = .brake then
      let s := s.modPower fun x => { x with
        brakeShare := if 9600 < watts then max 1 (x.brakeShare - 1) else x.brakeShare
        brakeWattSum := x.brakeWattSum + watts, brakeSamples := x.brakeSamples + 1 }
      if s.power.brakeSamples = 10 then s.tellBrake else s
    else s)

/-! ## Power limit and temperatures (R387, R389) -/

/-- The firmware takes measurements: from the end of the boot checks on. -/
def State.measures (s : State) : Bool := s.serving || s.power.phase == .standby || s.power.phase == .init

/-- PWR_LIMIT in watts (R397). -/
def State.limitWatts (s : State) : Nat := clampTo 40 160 (bitsOf s.power.limit 7 0) * 100

/-- A share one sixteenth lower or higher (R387). -/
def stepShare (share : Nat) (down up : Bool) : Nat :=
  if down then max 1 (share - 1) else if up then min 16 (share + 1) else share

/-- A 16-bit reading that saturates. -/
def sat16 (n : Nat) : W16 := BitVec.ofNat 16 (min n 0xFFFF)

/-- An 8-bit reading that saturates. -/
def sat8 (n : Nat) : Byte := BitVec.ofNat 8 (min n 0xFF)

/-- `POWER_LIMIT_TICK` (R387): every 1 ms. [DESIGN CHOICE: log 6] -/
def execPowerLimitTick (watts current volts : Nat) (s : State) : Host.Outcome State Fault Refusal :=
  .next (
    if s.measures then
      let lim := s.limitWatts
      let old := s.power.limitShare
      let new := stepShare old (decide (lim < watts)) (decide (watts * 100 < lim * 95))
      let first := decide (new < 16) && old == 16 && decide (1000 ≤ s.power.limitFullMs)
      let s := s.modPower fun x => { x with
        watts := sat16 watts, current := sat16 current, volts := sat16 volts, energyMj := x.energyMj + watts
        limitShare := new
        limitedMs := if new < 16 then satAdd x.limitedMs 1 else x.limitedMs
        limitFullMs := if new < 16 then 0 else x.limitFullMs + 1 }
      if first then s.toOwner none { code := 0x7052, sev := 1, a := lim, b := s.power.watts.toNat } else s
    else s)

/-- ALERT_N for heat (R41, R389). -/
def State.alertHeat (s : State) : State := if s.pinsCfg.alertFunction.getLsbD 3 then s.assertAlert else s

/-- The coolant conditions of R389: milliseconds for which each has held. -/
def coolTimes (old : Nat × Nat × Nat) (t : Thermal) : Nat × Nat × Nat :=
  (if 45 < t.inlet then old.1 + 1 else 0, if 55 < t.outlet then old.2.1 + 1 else 0, if t.flow < 200 then old.2.2 + 1 else 0)

/-- The first condition that has held for 1 s: 1 inlet, 2 outlet, 3 flow. -/
def coolCause (m : Nat × Nat × Nat) : Nat :=
  if 1000 ≤ m.1 then 1 else if 1000 ≤ m.2.1 then 2 else if 1000 ≤ m.2.2 then 3 else 0

/-- The coolant's part of a sample (R389): one warning in an episode. [DEDUCED: log 40] -/
def State.coolant (s : State) (t : Thermal) : State :=
  let m := coolTimes s.power.coolMs t
  let cause := coolCause m
  let warned := s.power.coolWarn
  let s := s.modPower fun x => { x with
    inlet := sat8 t.inlet, outlet := sat8 t.outlet, flow := sat16 t.flow, coolMs := m, coolWarn := decide (cause ≠ 0) }
  if cause ≠ 0 ∧ warned = false then
    (s.toOwner none { code := 0x7054, sev := 1
                      a := s.power.outlet.toNat * 2 ^ 24 + s.power.inlet.toNat * 2 ^ 16 + s.power.flow.toNat, b := cause }).alertHeat
  else s

/-- The logic throttle point (R397). [DEDUCED: log 40] -/
def State.throttlePoint (s : State) : Nat := clampTo 70 100 (bitsOf s.power.throttle 7 0)

/-- `THERMAL_SAMPLE` (R389, R390): every 1 ms. [DESIGN CHOICE: log 6; DEDUCED: log 40] -/
def execThermalSample (t : Thermal) (s : State) : Host.Outcome State Fault Refusal :=
  .next (
    if s.isOff then s
    else if 110 ≤ t.maxLogic ∨ 105 ≤ t.maxDram then s.trip
    else if s.measures then
      let lim := s.throttlePoint
      let hotLogic := decide (lim ≤ t.maxLogic)
      let hot := hotLogic || decide (95 ≤ t.maxDram)
      let cool := decide (t.maxLogic + 3 ≤ lim) && decide (t.maxDram + 3 ≤ 95)
      let new := stepShare s.power.thermalShare hot cool
      let first := hot && decide (1000 ≤ s.power.thermFullMs)
      let s := s.modPower fun x => { x with
        maxLogic := sat8 t.maxLogic, maxDram := sat8 t.maxDram, thermalShare := new
        throttledMs := if new < 16 then satAdd x.throttledMs 1 else x.throttledMs
        thermFullMs := if new < 16 then 0 else x.thermFullMs + 1 }
      let s := if first then
          (s.toAll { code := 0x7053, sev := 1
                     a := (if hotLogic then t.maxLogic else t.maxDram) * 256 + if hotLogic then 0 else 1
                     b := if hotLogic then t.logicSite.val else t.dramSite.val }).alertHeat
        else s
      (s.coolant t).releaseAlert
    else s)

/-- The issue share in force (R387): the least of the three. -/
def State.duty (s : State) : Nat :=
  min (if s.power.phase = .brake then s.power.brakeShare else 16) (min s.power.limitShare s.power.thermalShare)

/-! ## Other pins and SMBus (R320, R322, R395) -/

/-- `STRAP_CHANGED` (R322): told once per power-up. -/
def execStrapChanged (levels : BitVec 4) (s : State) : Host.Outcome State Fault Refusal :=
  .next (
    if s.isOff || levels == s.pins.strapsNow then s
    else
      let told := s.pins.strapTold
      let s := s.modPins fun x => { x with strapsNow := levels, changed := true, strapTold := true }
      if told then s else s.toOwner none { code := 0x7042, sev := 1, a := s.pins.straps.toNat, b := levels.toNat })

/-- `ALERT_HOLD_EXPIRY` (R320). -/
def execAlertHoldExpiry (s : State) : Host.Outcome State Fault Refusal :=
  .next (if s.isOff || s.pins.alertN then s else (s.passTo s.pins.alertUntil).releaseAlert)

/-- The reading of a sensor, by the model's numbers for those that R395 names. [DESIGN CHOICE: log 38] -/
def State.sensor (s : State) (n : Nat) : Nat :=
  match n with
  | 0 => s.power.volts.toNat
  | 1 => s.power.current.toNat
  | 2 => s.power.watts.toNat
  | 10 => s.power.maxLogic.toNat
  | 11 => s.power.maxDram.toNat
  | 12 => s.power.inlet.toNat
  | 13 => s.power.outlet.toNat
  | 14 => s.power.flow.toNat
  | 15 => s.powerState
  | 16 => s.power.holdCause
  | 17 => s.power.lastOff
  | 18 => if s.pins.braking then 1 else 0
  | n => Config.railReading n

/-- `SMBUS_REQUEST` (R395): answered by the management tile in every state but OFF; nothing changes. [DESIGN CHOICE: log 38] -/
def execSmbusRequest (sensor : Nat) (s : State) : Host.Outcome State Fault Refusal :=
  .next (
    if s.power.mgmt.isSome && !s.power.mgmtLost && decide (sensor < 19) then
      s.send (.smbus { sensor := sensor, value := s.sensor sensor })
    else s)

/-- `SMBUS_CLK_TIMEOUT` (R320): the interface resets; it holds nothing that the model has. [DESIGN CHOICE: log 38] -/
def execSmbusClkTimeout (s : State) : Host.Outcome State Fault Refusal := .next s

end Sys2Proof.Machine
end

