-- ==== Sys2Proof/Machine/Bist.lean ====
section
/-! DEFINITION. Self-test (R367-R375): its limits, its holds, saves and restores, its findings, power-on self-test; and test access
(R365). -/

namespace Sys2Proof.Machine

/-- Update of the self-test state. -/
def State.modBist (s : State) (f : Bist → Bist) : State := { s with bist := f s.bist }

/-! ## Limits (R367, R375) -/

/-- A signed reading of 8 bits that saturates. -/
def sat8s (n : Int) : Byte := BitVec.ofInt 8 (max (-128) (min 127 n))

/-- Which limits fail: bit 0 supply, bit 1 clock, bit 2 temperature. -/
def limitsFailed (e : BistEnv) : BitVec 3 :=
  BitVec.ofNat 3 ((if 20 < e.supply.natAbs then 1 else 0) + (if 100 < e.clock.natAbs then 2 else 0) + if e.temp < 85 then 0 else 4)

/-- The last check as BIST_LIMITS shows it. -/
def Bist.check (b : Bist) (e : BistEnv) : Bist :=
  { b with temp := sat8 e.temp, clock := sat8s e.clock, supply := sat8s e.supply, failed := limitsFailed e }

/-! ## Holds and the end (R369, R370) -/

/-- The partitions that hold the tile are held. -/
def State.bistHoldAll (s : State) (site : Site) : State :=
  (s.holders site.val).foldl (fun (s : State) p => s.modPart p fun q => { q with bistHold := true }) s

/-- The holds end. -/
def State.bistResume (s : State) : State :=
  allParts.foldl (fun (s : State) p => s.modPart p fun q => { q with bistHold := false }) s

/-- The self-test ends: its result stands in BIST_STATUS, and its command, where it still runs, completes (R369). -/
def State.bistFinish (s : State) : State :=
  let r := s.bist.result
  let src := s.bist.src
  let s := allParts.foldl (fun (s : State) p => s.modPart p fun q => { q with bistHold := false, saveArea := [] }) s
  let s := s.modBist fun b =>
    { temp := b.temp, clock := b.clock, supply := b.supply, failed := b.failed, postFailed := b.postFailed
      postSkipped := b.postSkipped, postRan := b.postRan, lastResult := r }
  match src with
  | none => s
  | some (o, id) =>
    match (s.taken o).find? fun c => c.id == id with
    | some c => s.done o c stOk r
    | none => s

/-- A `BIST_RUN` that tests nothing completes with its result. [DEDUCED: log 39] -/
def State.bistRefuse (s : State) (src : Src) (c : Cmd) (r : Nat) : State :=
  (s.modBist fun b => { b with lastResult := r }).done src c stOk r

/-! ## `BIST_RUN` (R369-R371) -/

/-- So many units of free runs, from the lowest on; none where there are too few. -/
def takeRuns : List (Nat × Nat) → Nat → Option (List (Nat × Nat))
  | _, 0 => some []
  | [], _ => none
  | (a, n) :: rest, want =>
    if want ≤ n then some [(a, want)] else (takeRuns rest (want - n)).map fun l => (a, n) :: l

/-- The partition whose spill area takes a save: the one whose TILES mask has the site, else one that has it in a slot. -/
def State.savePart (s : State) (site : Site) : Option Part :=
  match allParts.find? fun p => (s.part p).ownsSite site.val with
  | some p => some p
  | none => (s.holders site.val).head?

/-- Another self-test, a margining hold on the tile, or a substitution is in progress. -/
def State.bistBusy (s : State) (site : Site) : Bool :=
  s.bist.busy || (s.memMargin.held && bitsOf s.memMargin.sel 9 4 == site.val) || !s.substs.isEmpty

/-- Units of 4 KiB in a stack. -/
def stackUnits : Nat := stackSegs * 512

/-- The test of a site begins with its hold (R370 step 1). [DEDUCED: log 39] -/
def State.bistBegin (s : State) (src : Src) (c : Cmd) (site : Site) (tile save : Nat) (spare : Option Site) : State :=
  let s := s.modBist fun b => { b with
    phase := .hold, busy := true, tile := some tile, src := some (src, c.id), save := save, site := site
    spare := spare, findings := [], handedOver := false, result := 0 }
  ((s.modCmd src c.id fun (c : Cmd) => { c with run := .testing, started := true }).bistHoldAll site).bistSettle

/-- `BIST_RUN`. [DEDUCED: log 39] -/
def State.bistRun (s : State) (src : Src) (c : Cmd) (env : BistEnv) : State :=
  let tile := c.f 16 1
  let kind := c.f 17 1
  let save := c.f 18 1
  let tenant : Option Part := match src with | .part p => if s.isTenant p then some p else none | .owner => none
  if 2 < kind ∨ 1 < save then s.done src c stBadField
  else
    let site := if tile < 64 then s.siteOf tile else none
    let outside : Bool := match tenant, site with
      | some p, some i => !(s.part p).ownsSite i.val
      | some _, none => true
      | none, _ => false
    if outside then s.done src c stNotPermitted
    else match site with
      | none => s.done src c stBadField
      | some site =>
        if s.bistBusy site then s.bistRefuse src c 7
        else
          let s := s.modBist fun b => b.check env
          if limitsFailed env ≠ 0 then s.bistRefuse src c 4
          else if save = 0 then
            match s.nearestSpare site with
            | none => s.bistRefuse src c 5
            | some sp => s.bistBegin src c site tile save (some sp)
          else match s.savePart site with
            | none => s.bistBegin src c site tile save none
            | some p =>
              match if s.peatRetired then none else takeRuns (s.part p).spillFree stackUnits with
              | none => s.bistRefuse src c 6
              | some runs =>
                (s.modPart p fun q => { q with saveArea := runs }).bistBegin src c site tile save none

/-- `BIST_RUN` (R369). -/
def execBistRun (src : Src) (env : BistEnv) (s : State) : Host.Outcome State Fault Refusal :=
  .next (match s.pickCmd src 0x50 with | some c => s.bistRun src c env | none => s)

/-! ## The save and the hand-over (R370, R371, R373) -/

/-- A save or a restore that a margining hold keeps waiting: of a channel, where the copy uses the peat tier (R303), or of a die of the
tested site or of the spare (R97). [DESIGN CHOICE: log 60] -/
def State.bistWaits (s : State) : Bool :=
  let held (x : Site) : Bool := s.memMargin.held && bitsOf s.memMargin.sel 9 4 == x.val
  (s.bist.save == 1 && s.peatMargin.held) || held s.bist.site || (match s.bist.spare with | some x => held x | none => false)

/-- `BIST_SAVE_DONE`: the spare takes over, or the test begins at once; where the save's target failed, the tile keeps its own stack. -/
def execBistSaveDone (targetFault : Bool) (s : State) : Host.Outcome State Fault Refusal :=
  .next (
    if s.bist.phase ≠ .save ∨ s.bistWaits then s
    else if targetFault then
      let s := (s.modBist fun b => { b with result := 8 }).bistResume
      if s.bist.save = 0 then s.modBist fun b => { b with phase := .clear } else s.bistFinish
    else match s.bist.tile, s.bist.spare with
      | some t, some sp =>
        let s := ((s.poisonDead s.bist.site t).carry s.bist.site sp t .fenced).bistResume
        s.modBist fun b => { b with phase := .test, handedOver := true }
      | _, _ => s.modBist fun b => { b with phase := .test })

/-! ## Findings (R372) -/

/-- A failing row: remapped where it may be, else its segment is ashed. -/
def State.rowFinding (s : State) (site : Site) (die bank row : Nat) (spareOk : Bool) : State :=
  let k := dieKey site die
  let loc := locBlock site.val die bank row 0
  let who := match s.tileOf site with | some t => s.touches [addrOfRow t die bank row / segBytes] | none => []
  let times := ((s.die k).remaps.filter fun x => x.1 == bank && x.2.1 == row).length
  match (s.die k).freeSpare bank row with
  | some spare =>
    let s := s.modDie k fun d => { d with usedSpares := (bank, spare) :: d.usedSpares }
    if spareOk && decide (times < 2) then
      let arg := spare + if times = 0 then 0 else 256
      let s := s.modDie k fun d => { d with remaps := d.remaps ++ [(bank, row, spare, decide (times ≠ 0))] }
      (s.ashRecord 0x01 loc arg).toLadder who { code := 0x3003, sev := 2, a := loc, b := arg }
    else s.retireRow site die bank row
  | none => s.retireRow site die bank row

/-- One finding's action on the ladder. -/
def State.finding (s : State) (site : Site) (f : Finding) : State :=
  match f with
  | .row die bank row ok => s.rowFinding site die.val bank.val row ok
  | .core cluster core => s.coreFaulty site cluster core
  | .cluster cluster => s.retireCluster site cluster (locCore site.val cluster 0)
  | .engine engine => s.engineFaulty site engine
  | .tile => s.modBist fun b => { b with findings := b.findings ++ [.tile] }

/-- Whether a list of findings says that the tile is beyond rung 6. -/
def tileFailed (l : List Finding) : Bool := l.contains .tile

/-- Ash-log records and the event of a substitution (R338, R372). -/
def State.tellSubst (s : State) (site sp : Site) (tile copied : Nat) : State :=
  let s := { s with sites := upd s.sites site fun y => { y with state := .fenced, tile := none, barred := true } }
  let s := (s.ashRecord 0x09 (locTile site.val) 0).ashRecord 0x0A (locTile site.val) (tile + sp.val * 256)
  s.toLadder (s.holders sp.val)
    { code := 0x300C, sev := 0, a := tile * 2 ^ 16 + sp.val * 2 ^ 8 + site.val, b := copied }

/-- `BIST_TEST_DONE` (R372): the findings are acted on, then the tile is restored, or its spare keeps its number. [DEDUCED: log 39] -/
def State.bistTested (s : State) (l : List Finding) : State :=
  let site := s.bist.site
  let all := s.bist.findings ++ l
  let s := s.modBist fun b => { b with findings := [] }
  let s := all.foldl (fun s f => s.finding site f) s
  let failed := tileFailed all || tileFailed s.bist.findings
  let s := s.modBist fun b => { b with result := if all.isEmpty then 0 else 1 }
  match failed, s.bist.tile with
  | true, some t =>
    if s.bist.handedOver then
      match s.bist.spare with
      | some sp => ((s.tellSubst site sp t 0).modBist fun b => { b with result := 2 }).bistFinish
      | none => s
    else
      match s.nearestSpare site with
      | some sp =>
        let s := s.carry site sp t .fenced
        (s.tellSubst site sp t 0).modBist fun b => { b with result := 2, phase := .restore }
      | none =>
        let loc := locTile site.val
        let s := s.modBist fun b => { b with phase := .idle }
        let s := (s.holders site.val).foldl (fun s p => s.contained p 0x300D loc 0) s
        ((s.degrade site t).modBist fun b => { b with result := 3 }).bistFinish
  | _, _ =>
    if s.bist.handedOver then
      match s.bist.spare with
      | some sp => ((s.modBist fun b => { b with phase := .hold }).bistHoldAll sp).bistSettle
      | none => s
    else s.modBist fun b => { b with phase := .restore }

/-- `BIST_TEST_DONE`. [DEDUCED: log 39] -/
def execBistTestDone (findings : List Finding) (s : State) : Host.Outcome State Fault Refusal :=
  .next (if s.bist.phase = .test then s.bistTested findings else s)

/-- `BIST_LIMIT_CHECK` (R367): every 1 ms; a limit that fails ends the test phase, and its findings are discarded. -/
def execBistLimitCheck (env : BistEnv) (s : State) : Host.Outcome State Fault Refusal :=
  .next (
    if s.bist.busy = false then s
    else
      let s := s.modBist fun b => b.check env
      if limitsFailed env ≠ 0 ∧ s.bist.phase = .test then
        let s := (s.modBist fun b => { b with findings := [] }).bistTested []
        s.modBist fun b => { b with result := 4 }
      else s)

/-! ## The restore and the end (R370, R373) -/

/-- `BIST_RESTORE_DONE`: the tile resumes its number. A spare that failed while it carried the tile is fenced. [DEDUCED: log 39] -/
def execBistRestoreDone (s : State) : Host.Outcome State Fault Refusal :=
  .next (
    if s.bist.phase ≠ .restore ∨ s.bistWaits then s
    else match s.bist.handedOver, s.bist.tile, s.bist.spare with
      | true, some t, some sp =>
        let broken := s.substs.any fun x => x.failed == sp
        let who := s.holders sp.val
        let s := (s.poisonDead sp t).carry sp s.bist.site t (if broken then .fenced else .spare)
        let s := if broken then
            let s := { s with substs := s.substs.filter fun x => x.failed ≠ sp }
            let s := s.modFifo (fifoFor who) fun l => l.filter fun e => !(e.rung == 7 && resKey 7 e.loc.toNat == sp.val)
            (s.fenceSite sp).ashRecord 0x09 (locTile sp.val) 0
          else s
        (s.bistResume.modBist fun b => { b with phase := .clear, handedOver := false }).sweep
      | _, _, _ => s.bistResume.bistFinish)

/-- `BIST_CLEAR_DONE`: the spare is zeroised, and the command completes. -/
def execBistClearDone (s : State) : Host.Outcome State Fault Refusal :=
  .next (
    if s.bist.phase ≠ .clear then s
    else
      let s := match s.bist.spare with
        | some sp => s.zeroSheet ((64 + sp.val) * stackSegs * segBytes) (stackSegs * segBytes)
        | none => s
      s.bistFinish)

/-! ## Power-on self-test (R368) -/

/-- The findings of one site at POST; a tile that fails is fenced and substituted before any partition starts. [DEDUCED: log 39] -/
def State.postSite (s : State) (site : Site) (l : List Finding) : State :=
  let s := s.modBist fun b => { b with phase := .test, site := site, findings := [] }
  let s := l.foldl (fun s f => s.finding site f) s
  let failed := tileFailed s.bist.findings
  let s := s.modBist fun b => { b with phase := .idle, site := 0, findings := [] }
  if failed then
    let s := s.modBist fun b => { b with postFailed := b.postFailed + 1 }
    match (s.sites.get site).state, (s.sites.get site).tile with
    | .inService, some t =>
      match s.nearestSpare site with
      | some sp => (s.carry site sp t .fenced).tellSubst site sp t 1
      | none =>
        let s := (s.fenceSite site).ashRecord 0x09 (locTile site.val) 0
        s.toLadder (s.holders site.val) { code := 0x300D, sev := 4, a := t, b := ((s.holders site.val).map fun p => 2 ^ p.val).sum }
    | .spare, _ => (s.fenceSite site).ashRecord 0x09 (locTile site.val) 0
    | _, _ => s
  else s

/-- `POST_DONE` (R43, R368). [DESIGN CHOICE: log 3; DEDUCED: log 39] -/
def execPostDone (findings : List (Site × Finding)) (skipped : List Site) (s : State) : Host.Outcome State Fault Refusal :=
  .next (
    if s.power.phase = .init ∧ s.power.postDone = false then
      let sites := (findings.map (·.1)).eraseDups.filter fun x => !skipped.contains x
      let s := sites.foldl (fun s x => s.postSite x ((findings.filter fun y => y.1 == x).map (·.2))) s
      let s := s.modBist fun b => { b with postSkipped := skipped.eraseDups.length, postRan := true }
      (s.modPower fun x => { x with postDone := true }).finishInit
    else s)

/-! ## Test access (R365, R366) -/

/-- Every sequence is over, every loaded image gone, every memory zeroised (R365). [DEDUCED: log 41] -/
def State.scanned (s : State) : State :=
  { s with
    ownerTaken := [], reads := [], seqs := [], units := [], scratch := [], sheetLines := [], tablesHit := [], xfers := [], arrivals := []
    sheet := [], poisoned := [], peat := [], peatPoisoned := [], substs := [], kln := {}, slice := { debts := s.slice.debts }, sram := []
    bist := { lastResult := s.bist.lastResult, temp := s.bist.temp, clock := s.bist.clock, supply := s.bist.supply
              failed := s.bist.failed, postFailed := s.bist.postFailed, postSkipped := s.bist.postSkipped
              postRan := s.bist.postRan } }

/-- `TEST_ACCESS_ENTRY`: secrets go first, then the partitions, whose steps are abandoned with no record (R197),
then every memory. BYPASS and IDCODE are no entry. [DEDUCED: log 41] -/
def execTestAccessEntry (instruction : W64) (s : State) : Host.Outcome State Fault Refusal :=
  .next (
    if s.isOff then s
    else
      let s := s.modSec fun x => { x with keyValid := false, scanLatch := true, clearing := some instruction }
      let s := ([0, 1, 2, 3] : List Port).foldl (fun s p => s.modPort p fun x =>
        { x with spdm := { x.spdm with sessions := [] }, ide := {} }) s
      let s := s.toOwner none { code := 0x5001, sev := 5, a := instruction.toNat }
      let s := allParts.foldl (fun s p => s.modPart p fun q => q.abandonStep s.ashList) s
      let s := allParts.foldl State.wipePart s
      s.scanned.releaseAlert)

/-- `TEST_ACCESS_CLEAR_DONE`: the instruction takes effect in the test access port. [DEDUCED: log 41] -/
def execTestAccessClearDone (s : State) : Host.Outcome State Fault Refusal :=
  .next (s.modSec fun x => { x with clearing := none })

end Sys2Proof.Machine
end

