-- ==== Sys2Proof/Machine/Ports.lean ====
section
/-! DEFINITION. Host ports: doorbells and queue registers (R61, R63, R64, R70-R73), interrupts (R405), links and their losses (R53, R58,
R359), reads of host memory (R56), and the fetching of commands (R64, R65, R47). -/

namespace Sys2Proof.Machine

/-! ## Queue registers (R60, R63, R64, R410) -/

/-- A port drives the queues of a subblock: those of its partition, or, as the owner port without one, the owner's. -/
def State.drives (s : State) (port : Port) : Src → Bool
  | .part p => s.serving && !s.sec.scanLatch && (s.part p).port == some port && (s.part p).fence.isSome
  | .owner => s.owns port && (s.partOf port).isNone

/-- The subblock whose doorbells a port's BAR2 decodes at a region (R61, R406). -/
def State.doorbellSrc (s : State) (port : Port) (region : Nat) : Option Src :=
  match s.partOf port with
  | some p => if region = p.val ∧ (s.part p).port = some port then some (.part p) else none
  | none => if port = s.ownerPort ∧ region = 0 then some .owner else none

/-- A value rung at a queue's tail (R64). -/
def CmdQ.ring (q : CmdQ) (tail : Nat) : CmdQ :=
  if q.enabled then (if tail < q.size then { q with tail := tail } else { q with badDoorbell := true }) else q

/-- A read anywhere in BAR2 (R61). -/
def State.readDoorbell (_ : State) (_ : Port) (_ : Nat) : W32 := 0

/-- A base address register as a port advertises it (R59): number, size in bytes, whether it is 64-bit, and prefetchable. -/
structure BarCap where
  bar : Nat
  size : Nat
  wide : Bool
  prefetchable : Bool
  deriving DecidableEq, Repr

/-- What each port presents to enumeration (R55, R56, R57, R59): the same on all four, whatever the kiln image. -/
structure PortCaps where
  classCode : BitVec 24 := 0x120000
  deviceId : W16 := 0x4860
  functions : Nat := 1
  bars : List BarCap := [⟨0, 2 ^ 25, true, false⟩, ⟨2, 2 ^ 20, true, false⟩, ⟨4, 2 ^ 36, true, true⟩]
  speeds : List LinkSpeed := [.gt64, .gt32, .gt16, .gt8, .gt5, .gt2]
  widths : List Nat := [16, 8, 4]
  laneReversal : Bool := true
  tags : Nat := tagCount
  nonPosted : Nat := readLimit
  aer : Bool := true
  headerLog : Bool := true
  vectors : Nat := 256
  maxPayload : Nat := 512
  maxRead : Nat := maxReadRequest
  completionNs : Nat := 50000000
  sriov : Bool := false
  ats : Bool := false
  pri : Bool := false
  l1Substates : Bool := false
  aspm : Bool := false
  selectiveIde : Bool := false
  deriving DecidableEq, Repr

/-- The capabilities of a port (R55-R59). -/
def portCaps : PortCaps := {}

/-- `DOORBELL` (R61, R64): bits 11:0 of the word at the start of a queue's page. -/
def execDoorbell (port : Port) (offset : Nat) (value : W32) (s : State) : Host.Outcome State Fault Refusal :=
  .next (
    match s.doorbellSrc port (offset / 0x40000) with
    | some src =>
      if s.drives port src ∧ offset % 0x1000 = 0 then
        s.modCmdq src (Fin.ofNat 64 (offset % 0x40000 / 0x1000)) fun q => q.ring (bitsOf value 11 0)
      else s
    | none => s)

/-- A write of CMDQ_CFG (R63): ENABLE from 0 to 1 sets the head and the tail to 0. -/
def CmdQ.configure (q : CmdQ) (v : W32) : CmdQ :=
  let q' := { q with cfg := v &&& 0x800F0F0F }
  if q'.enabled && !q.enabled then { q' with head := 0, tail := 0 } else q'

/-- `CMDQ_CFG_WRITE`. -/
def execCmdqCfgWrite (port : Port) (sub : Src) (q : Fin 64) (value : W32) (s : State) : Host.Outcome State Fault Refusal :=
  .next (if s.drives port sub then s.modCmdq sub q fun x => x.configure value else s)

/-- A write of EVQ_CFG (R63, R70): ENABLE from 0 to 1 starts the queue anew, with phase 1. -/
def EvQ.configure (q : EvQ) (v : W32) : EvQ :=
  let q' := { q with cfg := v &&& 0x8000000F }
  if q'.enabled && !q.enabled then
    { q' with head := 0, tail := 0, dropped := 0, phase := true, overflow := none, full := false, pending := 0 }
  else q'

/-- `EVQ_CFG_WRITE`. -/
def execEvqCfgWrite (port : Port) (sub : Src) (e : Fin 16) (value : W32) (s : State) : Host.Outcome State Fault Refusal :=
  .next (if s.drives port sub then s.modEvq sub e fun x => x.configure value else s)

/-- The driver has read the records before an index (R63, R72). [DEDUCED: log 18] -/
def EvQ.consume (q : EvQ) (head : Nat) : EvQ := if head < q.size then { q with head := head, full := false } else q

/-- `EVQ_HEAD_WRITE`: room may end an overflow (R72 step 3). -/
def execEvqHeadWrite (port : Port) (sub : Src) (e : Fin 16) (value : W32) (s : State) : Host.Outcome State Fault Refusal :=
  .next (
    if s.drives port sub then (s.modEvq sub e fun x => x.consume (bitsOf value 15 0)).resumeEvq sub e else s)

/-- A write of EVQ_IRQ (R63, R73): records that are pending by then may be due. -/
def State.writeIrq (s : State) (sub : Src) (e : Fin 16) (value : W32) : State :=
  let s := s.modEvq sub e fun x => { x with irq := value &&& 0xBFFFFFFF }
  if ((s.sub sub).evq.get e).due false then s.interrupt sub e else s

/-- When the coalescing time of a queue's oldest pending record ends (R73). -/
def EvQ.coalesceEnd (q : EvQ) : Time := q.oldest + 1000 * bitsOf q.irq 29 16

/-- `EVQ_COALESCE_TIMEOUT` (R73): TIME has passed since the oldest pending record. [DESIGN CHOICE: log 6] -/
def execEvqCoalesceTimeout (sub : Src) (e : Fin 16) (s : State) : Host.Outcome State Fault Refusal :=
  .next (
    let q := (s.sub sub).evq.get e
    if q.irq.getLsbD 31 ∧ 0 < q.pending then (s.passTo q.coalesceEnd).interrupt sub e else s)

/-- A port has MSI-X messages of its own: it owns a partition, or is the owner port (R55). -/
def State.hasMsix (s : State) (port : Port) : Bool :=
  s.serving && !s.sec.scanLatch && ((s.partOf port).isSome || port == s.ownerPort)

/-- `MSIX_UNMASK` (R405): a vector that is pending sends its message. [DEDUCED: log 42] -/
def execMsixUnmask (port : Port) (vector : Fin 256) (s : State) : Host.Outcome State Fault Refusal :=
  .next (
    if s.hasMsix port then
      let was := ((s.port port).msix.get vector).pending
      let s := s.modPort port fun x => { x with msix := upd x.msix vector fun e => { e with ctrl := 0, pending := false } }
      if was then s.sendOn port (.msix port vector.val) else s
    else s)

/-! ## Reads of host memory (R56, R75) -/

/-- A formation or a revision that has its reads of CONSUMED goes on (R75). -/
def State.ringsReady (s : State) (p : Part) : State :=
  let q := s.part p
  if q.forming && !q.ringsWait then
    let s := s.modPart p fun q => { q with forming := false }
    if q.st ≠ .running then s
    else if q.step.isNone && q.formed.isSome then s.reviseNow p
    else s.formNow p
  else s

/-- A command whose read of host memory has failed completes (R58, R68). -/
def State.readFailed (s : State) (src : Src) (id : Nat) : State :=
  match (s.taken src).find? fun c => c.id == id with
  | some c =>
    let s := s.done src c stHostRead c.written
    match src with
    | .part p => if (s.part p).atBoundary then s.runBoundary p else s
    | .owner => s
  | none => s

/-- A read fails: the copy of CONSUMED stays, or its command fails. -/
def State.failRead (s : State) (r : HostRead) : State :=
  match r.why with
  | .ring p h => (s.modReq p h fun r => { r with ringRead := .answered }).ringsReady p
  | .cmd src id => s.readFailed src id

/-- A command goes on with what it has read, at a step boundary where it must (R65). [DEDUCED: log 21] -/
def State.goOn (s : State) (src : Src) (id : Nat) : State :=
  match (s.taken src).find? fun c => c.id == id with
  | none => s
  | some c =>
    match src with
    | .owner => if c.opcode = 0x51 then s.billetSupply .owner c else s
    | .part p =>
      if boundaryOps.contains c.opcode then
        if (s.part p).atBoundary && c.inOrder (s.part p).taken then
          let s := (s.atBoundaryCmd p c).runBoundary p
          if (s.part p).st = .quarantined then s.modPart p fun q => q.parkAll.2 else s
        else s.await p c
      else if c.opcode = 0x10 then s.modelLoad p c
      else if c.opcode = 0x51 then s.billetSupply (.part p) c
      else s

/-- The bytes of a read arrive. [DEDUCED: log 21] -/
def State.readDone (s : State) (r : HostRead) (bytes : List Byte) : State :=
  match r.why with
  | .ring p h => (s.modReq p h fun r => { r with consumed := leNat bytes, ringRead := .answered }).ringsReady p
  | .cmd src id =>
    (s.modCmd src id fun (c : Cmd) => { c with got := c.got ++ [bytes], reading := false }).goOn src id

/-- The outstanding read of a port with a tag. [DEDUCED: log 19] -/
def State.readOf (s : State) (port : Port) (tag : Nat) : Option HostRead :=
  s.reads.find? fun r => r.port == port && r.tag == tag && r.sent

/-- A read is no longer outstanding. -/
def State.dropRead (s : State) (port : Port) (tag : Nat) : State :=
  s.dropReads fun r => r.port == port && r.tag == tag

/-- `HOST_READ_DONE` (R56): a completion that is not whole counts as unsuccessful. [DESIGN CHOICE: log 22] -/
def execHostReadDone (port : Port) (tag : Nat) (data : ReadResult) (s : State) : Host.Outcome State Fault Refusal :=
  .next (
    match s.readOf port tag with
    | none => s
    | some r =>
      let s := s.dropRead port tag
      match data with
      | .ok bytes => if bytes.length = r.len then s.readDone r bytes else s.failRead r
      | _ => s.failRead r)

/-- `COMPLETION_TIMEOUT` (R56): 50 ms after the read went out. -/
def execCompletionTimeout (port : Port) (tag : Nat) (s : State) : Host.Outcome State Fault Refusal :=
  .next (
    match s.readOf port tag with
    | none => s
    | some r => ((s.passTo (r.issued + 50000000)).dropRead port tag).failRead r)

/-! ## Links (R53, R58, R359) -/

/-- Every outstanding read of a port fails (R58). -/
def State.failReads (s : State) (port : Port) : State :=
  let l := s.reads.filter fun r => r.port == port
  l.foldl State.failRead (s.dropReads fun r => r.port == port)

/-- A port is reset, or its link lost, for a cause of R77: its partition stops, its streams are cut, its reads fail, its keys go, and the
owner hears of a tenant's. [PRESUMED: log 8; DEDUCED: log 16] -/
def State.portDown (s : State) (port : Port) (cause : Nat) : State :=
  let s := s.modPort port fun x => { x with linkUp := false, spdm := {}, ide := {} }
  let s := (s.cutStreams port).failReads port
  match s.partOf port with
  | some p =>
    let s := s.beginStop p 1
    if port = s.ownerPort then s
    else s.toOwner none { code := 0x7025, sev := 1, a := port.val, b := cause }
  | none => s

/-- `PERST_ASSERT` (R58). -/
def execPerstAssert (port : Port) (s : State) : Host.Outcome State Fault Refusal :=
  .next (
    if (s.port port).perst then s
    else
      let s := s.modPort port fun x => { x with perst := true }
      if s.isOff then s else s.portDown port 0)

/-- `HOT_RESET` (R58): it arrives over the link. -/
def execHotReset (port : Port) (s : State) : Host.Outcome State Fault Refusal :=
  .next (if (s.port port).linkUp then s.portDown port 1 else s)

/-- `LINK_DISABLE` (R58). -/
def execLinkDisable (port : Port) (s : State) : Host.Outcome State Fault Refusal :=
  .next (if (s.port port).linkUp then s.portDown port 2 else s)

/-- `LINK_LOST` (R58). -/
def execLinkLost (port : Port) (s : State) : Host.Outcome State Fault Refusal :=
  .next (if (s.port port).linkUp then s.portDown port 3 else s)

/-- A port may link: in STANDBY only the management tile's (R380), and never while nothing boots (R21) or its frame is lost. -/
def State.mayLink (s : State) (port : Port) : Bool :=
  !(s.port port).lost &&
    match s.power.phase with
    | .off | .dead | .reset => false
    | .standby => s.power.mgmt == some port
    | _ => true

/-- `LINK_UP` (R56, R58): the link has trained to a width and a speed; records that were held are discarded. [DEDUCED: log 16] -/
def execLinkUp (link : Trained) (s : State) : Host.Outcome State Fault Refusal :=
  .next (
    if s.mayLink link.port ∧ (s.port link.port).linkUp = false ∧ portCaps.widths.contains link.lanes = true then
      s.modPort link.port fun x => { x with linkUp := true, perst := false, lanes := link.lanes, speed := link.speed, held := [] }
    else s)

/-- `L0P_WIDTH_REQUEST` (R56): a reduction to a width that the port supports is granted. [DEDUCED: log 42] -/
def execL0pWidthRequest (port : Port) (lanes : Nat) (s : State) : Host.Outcome State Fault Refusal :=
  .next (
    if (s.port port).linkUp ∧ (lanes = 8 ∨ lanes = 4) ∧ lanes < (s.port port).lanes then
      (s.modPort port fun x => { x with lanes := lanes }).send (.width port lanes)
    else s)

/-- `IDE_CHECK_FAIL` (R359, R376): the stream is Insecure, and the port is handled as under PERST#. -/
def execIdeCheckFail (port : Port) (dir : Fin 2) (s : State) : Host.Outcome State Fault Refusal :=
  .next (
    if (s.port port).linkUp && (s.port port).ide.keys.any (fun k => k.1.2 == dir.val) then
      let s := s.portDown port 0
      let s := s.modPort port fun x => { x with ide := { x.ide with insecure := true } }
      let v : Ev := { code := 0x5002, sev := 1, a := port.val, b := dir.val }
      match s.partOf port with
      | some p => if s.ownerSrc = .part p then s.toPart p 0 v else (s.toPart p 0 v).toOwner (some p) v
      | none => s.toOwner none v
    else s)

/-- `FLR` (R53, R410). [PRESUMED: log 8] -/
def execFlr (port : Port) (s : State) : Host.Outcome State Fault Refusal :=
  .next (
    if (s.port port).linkUp = false ∨ s.serving = false then s
    else
      let s := s.cutStreams port
      match s.partOf port with
      | some p =>
        match (s.part p).st with
        | .running | .stopping =>
          (s.beginStop p 2).modPart p fun q => { q with flrPending := true, stopCause := 2 }
        | .stopped => (s.modPart p fun q => { q with stopCause := 2 }).resetPart p
        | .quarantined => s.resetPart p
        | .absent => s
      | none =>
        if port = s.ownerPort then
          let s := s.doneAll .owner (fun c => c.run != .testing) stAborted
          { s with ownerSub := {}, ownerTaken := [] }.dropReads HostRead.ofOwner
        else s)

/-! ## Fetching commands (R47, R64-R66) -/

/-- Entries that wait in an active queue. -/
def CmdQ.waits (q : CmdQ) : Bool := q.active && q.head != q.tail

/-- The next queue with entries, in ascending order after a queue, wrapping; the queue itself comes last. -/
def Subblock.nextAfter (b : Subblock) (q : Option (Fin 64)) : Option (Fin 64) :=
  let l := List.finRange 64
  let order := match q with
    | some q => (l.filter fun i => decide (q < i)) ++ l.filter fun i => decide (i ≤ q)
    | none => l
  order.find? fun i => (b.cmdq.get i).waits

/-- The queue that the next command comes from, and the commands left of its turn after it (R65). -/
def Subblock.nextTurn (b : Subblock) : Option (Fin 64 × Nat) :=
  let fresh (o : Option (Fin 64)) : Option (Fin 64 × Nat) :=
    (b.nextAfter o).map fun i => (i, (b.cmdq.get i).weight - 1)
  match b.turn with
  | some (q, n) => if 0 < n ∧ (b.cmdq.get q).waits then some (q, n - 1) else fresh (some q)
  | none => fresh none

/-- A command of an entry's 64 bytes (R66). -/
def cmdOf (id : Nat) (q : Fin 64) (e : List Byte) : Cmd :=
  { id := id, queue := q, opcode := field e 0 1, flags := BitVec.ofNat 8 (field e 1 1), tag := field e 2 2, request := field e 4 4,
    model := field e 8 4, body := e.drop 16 }

/-- One entry consumed. [DEDUCED: log 19] -/
def State.consumeEntry (s : State) (src : Src) (q : Fin 64) (e : List Byte) : State :=
  let s := s.modCmdq src q fun x => { x with head := (x.head + 1) % x.size }
  match src with
  | .part p => s.modPart p fun x => { x with taken := x.taken ++ [cmdOf x.nextCmd q e], nextCmd := x.nextCmd + 1 }
  | .owner => { s with ownerTaken := s.ownerTaken ++ [cmdOf s.ownerNextCmd q e], ownerNextCmd := s.ownerNextCmd + 1 }

/-- A fetch that failed (R64): 0 timeout, 1 poisoned, 2 unsuccessful. [DEDUCED: log 19] -/
def State.fetchFailed (s : State) (src : Src) (q : Fin 64) (b : Nat) : State :=
  let evq := ((s.sub src).cmdq.get q).evq
  (s.modCmdq src q fun x => { x with error := true }).toSrc src evq { code := 0x7021, sev := 1, a := q.val, b := b }

/-- Whether a subblock's entries are consumed: every one, or only a `PRT_START` at the head of a queue (R47). -/
def State.fetches (s : State) (src : Src) : Option Bool :=
  let live : Bool := match s.srcPort src with | some p => s.portLive p | none => false
  if s.serving && !s.sec.scanLatch && live then
    match src with
    | .owner => if (s.partOf s.ownerPort).isNone then some true else none
    | .part p => match (s.part p).st with
      | .running => some true
      | .stopped => some false
      | _ => none
  else none

/-- `COMMAND_FETCH` (R64, R65, R47): what the read of the next entry brings. [DEDUCED: log 19] -/
def execCommandFetch (src : Src) (entry : ReadResult) (s : State) : Host.Outcome State Fault Refusal :=
  .next (
    match s.fetches src, (s.sub src).nextTurn with
    | some every, some (q, left) =>
      let s := s.modSub src fun b => { b with turn := some (q, if every then left else 0) }
      match entry with
      | .ok bytes =>
        if bytes.length ≠ 64 then s.fetchFailed src q 2
        else if every ∨ field bytes 0 1 = 0x41 then s.consumeEntry src q bytes
        else s
      | .timeout => s.fetchFailed src q 0
      | .poisoned => s.fetchFailed src q 1
      | .unsuccessful => s.fetchFailed src q 2
    | _, _ => s)

/-- The opcodes of R67. -/
def knownOps : List Nat := [0x01, 0x02, 0x03, 0x04, 0x10, 0x11, 0x20, 0x30, 0x31, 0x40, 0x41, 0x50, 0x51]

/-- `BAD_OPCODE` (R67). -/
def execBadOpcode (src : Src) (s : State) : Host.Outcome State Fault Refusal :=
  .next (
    match (s.taken src).find? fun c => !knownOps.contains c.opcode && c.eligible (s.taken src) with
    | some c => s.done src c stBadOpcode
    | none => s)

/-! ## The end of a stop (R46) -/

/-- Commands that a stop waits for: those of a step boundary that have started and still read host memory. -/
def Partition.boundaryReads (p : Partition) : Bool :=
  p.taken.any fun c => boundaryOps.contains c.opcode && c.started && c.run == .idle && c.reading

/-- Transfers in flight that a stop waits for: pages being spilled, prefetched or moved. -/
def Partition.pagesMove (p : Partition) : Bool :=
  p.allPages.any fun x => x.2.2.loc == .spilling || x.2.2.loc == .fetching || x.2.2.moving.isSome

/-- `PARTITION_STOP_DONE` (R46): commands that waited for the boundary take effect before the requests park. -/
def execPartitionStopDone (p : Part) (s : State) : Host.Outcome State Fault Refusal :=
  .next (
    let q := s.part p
    if q.st == .stopping && q.step.isNone && !q.pagesMove && !q.boundaryReads then
      let s := s.runBoundary p
      if (s.part p).boundaryReads then s else s.stopNow p
    else s)

/-- KV_PRT_FMT.APPLY (R217, R235): of a READY model, with a cache code or 0xFF. -/
def State.applyFormat (s : State) (p : Part) : State :=
  let f := bitsOf (s.part p).kv.fmt 7 0
  let handle := (s.part p).kv.fmtModel.toNat
  match (s.part p).model handle with
  | some m =>
    if m.state = .ready ∧ (f = 0 ∨ f = 8 ∨ f = 9 ∨ f = 10 ∨ f = 255) then
      s.modPart p fun q => q.modModel handle fun m => { m with narrowNext := if f = 255 then none else some f }
    else s
  | none => s

/-- `KV_FMT_APPLY`. -/
def execKvFmtApply (port : Port) (p : Part) (format : Byte) (s : State) : Host.Outcome State Fault Refusal :=
  .next (
    if s.sees port p then
      (s.modPart p fun q => { q with kv := { q.kv with fmt := BitVec.ofNat 32 format.toNat } }).applyFormat p
    else s)

end Sys2Proof.Machine
end

