-- ==== Sys2Proof/Machine/Registers.lean ====
section
/-! DEFINITION. BAR0 (R5-R8, R60, R399-R405): what a write at an offset does, by the register there and who writes, and what a read
returns. -/

namespace Sys2Proof.Machine

/-- The state that a command leaves. -/
def after (o : Host.Outcome State Fault Refusal) (s : State) : State :=
  match o with
  | .next t => t
  | _ => s

/-- A port reaches its own copy of RQT_WIN_SEL and the partition-wide blocks at all: it is the owner, or owns a partition (R55, R60). -/
def State.hasView (s : State) (port : Port) : Bool :=
  s.serving && !s.sec.scanLatch && (port == s.ownerPort || (s.partOf port).isSome)

/-! ## Writes -/

/-- The MSI-X table (R405), in the PCIe layout. [DEDUCED: log 42] -/
def State.writeMsix (s : State) (port : Port) (o : Nat) (v : W32) : State :=
  let i : Fin 256 := Fin.ofNat 256 (o / 16)
  let put (f : MsixEntry → MsixEntry) : State := s.modPort port fun x => { x with msix := upd x.msix i f }
  if s.serving then
    match o % 16 with
    | 0 => put fun e => { e with addrLo := v &&& 0xFFFFFFFC }
    | 4 => put fun e => { e with addrHi := v }
    | 8 => put fun e => { e with data := v }
    | _ => if v.getLsbD 0 then put fun e => { e with ctrl := 1 } else after (execMsixUnmask port i s) s
  else s

/-- PRT (R44, R45). -/
def State.writePrt (s : State) (port : Port) (p : Part) (o : Nat) (v : W32) : State :=
  if o = 0 then
    match v.getLsbD 0, v.getLsbD 1 with
    | true, false => after (execPrtCtrlStop port p s) s
    | false, true => after (execPrtCtrlStart port p s) s
    | _, _ => s
  else if o = 0x10 then (if v.getLsbD 0 then after (execPrtKlnBegin port p s) s else s)
  else if 0x800 ≤ o then after (execPrtKlnLoad port p v s) s
  else s

/-- A queue subblock (R63). -/
def State.writeSub (s : State) (port : Port) (src : Src) (o : Nat) (v : W32) : State :=
  if s.drives port src = false then s
  else if o < 0x1000 then
    let q : Fin 64 := Fin.ofNat 64 (o / 0x40)
    match o % 0x40 with
    | 0x00 => s.modCmdq src q fun x => { x with baseLo := v &&& 0xFFFFF000 }
    | 0x04 => s.modCmdq src q fun x => { x with baseHi := v }
    | 0x08 => after (execCmdqCfgWrite port src q v s) s
    | 0x14 => s.modCmdq src q fun x =>
        { x with badDoorbell := x.badDoorbell && !v.getLsbD 2, error := x.error && !v.getLsbD 1 }
    | _ => s
  else if o < 0x1400 then
    let e : Fin 16 := Fin.ofNat 16 ((o - 0x1000) / 0x40)
    match o % 0x40 with
    | 0x00 => s.modEvq src e fun x => { x with baseLo := v &&& 0xFFFFF000 }
    | 0x04 => s.modEvq src e fun x => { x with baseHi := v }
    | 0x08 => after (execEvqCfgWrite port src e v s) s
    | 0x0C => after (execEvqHeadWrite port src e v s) s
    | 0x14 => s.writeIrq src e v
    | _ => s
  else
    match src with
    | .owner => s
    | .part _ =>
      if o = 0x1800 then s.modSub src fun b => { b with winCtrl := v &&& 1 }
      else if o = 0x1804 then s.modSub src fun b => { b with winBase := v &&& 0x3FFFFF }
      else s

/-- RQT (R285). -/
def State.writeRqt (s : State) (port : Port) (o : Nat) (v : W32) : State :=
  if o = 0 then
    if s.hasView port then
      s.modPort port fun x => { x with winSel :=
        if port = s.ownerPort then v &&& 0x37FFF else (x.winSel &&& 0x30000) ||| (v &&& 0x7FFF) }
    else s
  else if 0x100 ≤ o ∧ o < 0x200 then
    let p : Part := Fin.ofNat 4 ((o - 0x100) / 0x40)
    if s.sees port p then
      match o % 0x40 with
      | 0x00 => s.modPart p fun q => { q with rqt := { q.rqt with ctrl := v &&& 0x77 } }
      | 0x04 => s.modPart p fun q => { q with rqt := { q.rqt with limits := v } }
      | _ => s
    else s
  else s

/-- Fields of a margining facility that are written (R100, R305). [DEDUCED: log 43] -/
def Margin.write (m : Margin) (o : Nat) (v : W32) (selMask selHeld : W32) : Margin :=
  match o with
  | 0x100 => { m with sel := if m.held then (m.sel &&& ~~~selHeld) ||| (v &&& selHeld) else v &&& selMask }
  | 0x108 => { m with time := BitVec.ofNat 6 v.toNat }
  | 0x10C => { m with vref := BitVec.ofNat 6 v.toNat }
  | 0x110 => { m with logTransfers := BitVec.ofNat 5 v.toNat }
  | 0x118 => { m with aborted := m.aborted && !v.getLsbD 4, refused := m.refused && !v.getLsbD 3, done := m.done && !v.getLsbD 2 }
  | _ => m

/-- MEM (R100). [DEDUCED: log 54] -/
def State.writeMem (s : State) (port : Port) (o : Nat) (v : W32) : State :=
  if s.owns port = false then s
  else match o with
    | 0x0 => { s with memArb := v &&& 0xFFFFFF }
    | 0x4 => { s with memScrub := v &&& 0x800000FF }
    | 0x104 => if v.getLsbD 0 then after (execMemMarginHold port s) s else after (execMemMarginRelease port s) s
    | 0x110 =>
      if v.getLsbD 31 then after (execMemMarginRun port (BitVec.ofNat 5 v.toNat) s) s
      else { s with memMargin := s.memMargin.write o v 0x3FF 0 }
    | _ => { s with memMargin := s.memMargin.write o v 0x3FF 0 }

/-- NB (R131). -/
def State.writeNb (s : State) (port : Port) (o : Nat) (v : W32) : State :=
  if s.owns port = false then s
  else match o with
    | 0x0 => { s with nbCtrl := v &&& 0x80000007 }
    | 0x4 => { s with nbMaxWait := v &&& 0xFFFF }
    | _ => s

/-- STEP (R210). -/
def State.writeStep (s : State) (port : Port) (p : Part) (o : Nat) (v : W32) : State :=
  if s.sees port p = false then s
  else s.modPart p fun q => q.modStepRegs fun k =>
    match o with
    | 0x00 => { k with ctrl := v &&& 3 }
    | 0x04 => { k with timeout := v &&& 0xFFFF }
    | 0x08 => { k with cadPeriod := v }
    | 0x0C => { k with cadBaseLo := v }
    | 0x10 => { k with cadBaseHi := v }
    | 0x14 => { k with draft := v &&& 7 }
    | 0x18 => { k with maxNs := v }
    | _ => k

/-- KV (R235, R252). -/
def State.writeKv (s : State) (port : Port) (p : Part) (o : Nat) (v : W32) : State :=
  if s.sees port p = false then s
  else
    let put (f : KvRegs → KvRegs) : State := s.modPart p fun q => q.modKv f
    match o with
    | 0x00 => (put fun k => { k with ctrl := v &&& 0xFFFF }).spillPolicy p
    | 0x04 => put fun k => { k with fmtModel := v }
    | 0x08 =>
      if v.getLsbD 31 then after (execKvFmtApply port p (BitVec.ofNat 8 v.toNat) s) s
      else put fun k => { k with fmt := v &&& 0xFF }
    | 0x0C => put fun k => { k with piece := v &&& 0xFFFF }
    | _ => s

/-- PEAT (R305). [DEDUCED: log 54] -/
def State.writePeat (s : State) (port : Port) (o : Nat) (v : W32) : State :=
  if s.owns port = false then s
  else match o with
    | 0x0 => { s with peatArb := v &&& 0xFFFFFF }
    | 0x4 => { s with peatCtrl := v &&& 0x800000FF }
    | 0x8 => { s with peatSupplyTimeout := v }
    | 0x104 => if v.getLsbD 0 then after (execPeatMarginHold port s) s else after (execPeatMarginRelease port s) s
    | 0x110 =>
      if v.getLsbD 31 then after (execPeatMarginRun port (BitVec.ofNat 5 v.toNat) s) s
      else { s with peatMargin := s.peatMargin.write o v 0x11FF 0x1000 }
    | _ => { s with peatMargin := s.peatMargin.write o v 0x11FF 0x1000 }

/-- RING (R323). -/
def State.writeRing (s : State) (port : Port) (o : Nat) (v : W32) : State :=
  if s.owns port = false then s
  else match o with
    | 0x00 => after (execRingCfgWrite port v s) s
    | 0x04 => s.modRing fun r => { r with cableDelay := v &&& 0xFFF }
    | 0x0C => if v.getLsbD 0 then after (execRingSetTime port s) s else s
    | 0x18 => s.modRing fun r => { r with timeSetLo := v }
    | 0x1C => s.modRing fun r => { r with timeSetHi := v }
    | 0x20 => s.modRing fun r => { r with marksOut := v &&& 0xFF }
    | _ => s

/-- FLT (R352). -/
def State.writeFlt (s : State) (port : Port) (o : Nat) (v : W32) : State :=
  if 0x1000 ≤ o then
    if o % 0x1000 = 0 ∧ o < 0x5000 ∧ v.getLsbD 0 then after (execFltPrtRelease port (Fin.ofNat 4 (o / 0x1000 - 1)) s) s else s
  else if s.reaches port then
    match o with
    | 0x0 =>
      let s := { s with fltCtrl := v &&& 0x80FF00FF }
      if v.getLsbD 31 then after (execAutoSpareSet port s) s else s
    | 0x4 => if v.getLsbD 0 then after (execFltFatalClear port s) s else s
    | _ => s
  else s

/-- One bit of a write that starts an action. [DEDUCED: log 42] -/
def onBit (v : W32) (i : Nat) (f : State → Host.Outcome State Fault Refusal) (s : State) : State :=
  if v.getLsbD i then after (f s) s else s

/-- SEC (R374): the bits of SEC_FW_CTRL act from the lowest up. -/
def State.writeSec (s : State) (port : Port) (o : Nat) (v : W32) : State :=
  if o = 4 then
    onBit v 4 (execSecFwCommitSvn port) (onBit v 3 (execSecFwEnrol port) (onBit v 2 (execSecFwActivate port)
      (onBit v 1 (execSecFwCheck port) (onBit v 0 (execSecFwBegin port) s))))
  else if 0x1000 ≤ o ∧ o < 0x2000 then after (execSecFwLoad port v s) s
  else if 0x2000 ≤ o ∧ o < 0x20C0 ∧ s.reaches port then
    let put (c : Vector Byte 192) (i : Nat) : Vector Byte 192 :=
      c.setIfInBounds (o - 0x2000 + i) (BitVec.ofNat 8 (v.toNat / 256 ^ i))
    s.modSec fun x => { x with csigLoad := (List.range 4).foldl put x.csigLoad }
  else s

/-- PWR, THM and PIN (R324, R397): any port reads them, and only the owner writes them. -/
def State.writePwr (s : State) (port : Port) (o : Nat) (v : W32) : State :=
  if s.reaches port then
    match o with
    | 0x000 => onBit v 1 (execPwrCtrlOn port) (onBit v 0 (execPwrCtrlStandby port) s)
    | 0x008 => s.modPower fun x => { x with limit := v &&& 0xFF }
    | 0x044 => s.modPower fun x => { x with throttle := v &&& 0xFF }
    | 0x100 => if v.getLsbD 12 then s.modPins fun x => { x with changed := false } else s
    | _ => s
  else s

/-- A 32-bit write at an aligned BAR0 offset (R60, R399, R402): the block by bits 19:16, the register within it. -/
def State.writeReg (s : State) (port : Port) (off : Nat) (v : W32) : State :=
  let o := off % 0x10000
  match off / 0x10000 with
  | 0x0 => if 0x8000 ≤ o ∧ o < 0x9000 then s.writeMsix port (o - 0x8000) v else s
  | 0x1 => if o < 0x4000 then s.writePrt port (Fin.ofNat 4 (o / 0x1000)) (o % 0x1000) v else s
  | 0x2 =>
    if o < 0x8000 then s.writeSub port (.part (Fin.ofNat 4 (o / 0x2000))) (o % 0x2000) v
    else if o < 0xA000 then s.writeSub port .owner (o - 0x8000) v else s
  | 0x3 => s.writeRqt port o v
  | 0x4 =>
    if o = 0 then (if v.getLsbD 0 then after (execKlnBegin port s) s else s)
    else if 0x1000 ≤ o ∧ o < 0x2000 then after (execKlnLoad port v s) s else s
  | 0x5 => s.writeMem port o v
  | 0x6 => s.writeNb port o v
  | 0x8 => if o < 0x400 then s.writeStep port (Fin.ofNat 4 (o / 0x100)) (o % 0x100) v else s
  | 0x9 => if o < 0x400 then s.writeKv port (Fin.ofNat 4 (o / 0x100)) (o % 0x100) v else s
  | 0xA => s.writePeat port o v
  | 0xB => s.writeRing port o v
  | 0xC => s.writeFlt port o v
  | 0xD => s.writeSec port o v
  | 0xF => s.writePwr port o v
  | _ => s

/-- `REGISTER_WRITE` (R5-R8): an access of another size or alignment is ignored. -/
def execRegisterWrite (port : Port) (offset size : Nat) (value : W32) (s : State) : Host.Outcome State Fault Refusal :=
  .next (if size = 4 ∧ offset % 4 = 0 then s.writeReg port offset value else s)

/-! ## Reads -/

/-- A bit of a register. -/
def bit (b : Bool) (i : Nat) : Nat := if b then 2 ^ i else 0

/-- A number as a register shows it. -/
def reg (n : Nat) : W32 := BitVec.ofNat 32 n

/-- The ID block (R403, R404): the same on every port but for ID_PORT. -/
def State.readId (s : State) (port : Port) (o : Nat) : W32 :=
  let mine := s.partOf port
  if o < 0x8000 then
    match o with
    | 0x00 => reg (0x4860 * 65536 + Config.vendorId.toNat)
    | 0x04 => reg (0x01010000 + Config.stepping.toNat)
    | 0x08 => reg Config.serial.toNat
    | 0x0C => reg (Config.serial.toNat / 2 ^ 32)
    | 0x10 => 0x3FF
    | 0x14 => reg (bit (port == s.ownerPort) 7 + bit mine.isSome 6 + (match mine with | some p => p.val * 4 | none => 0) + port.val)
    | 0x18 => reg (field s.sec.runningHdr 16 4)
    | _ => 0
  else if o < 0x9000 then
    let e := (s.port port).msix.get (Fin.ofNat 256 ((o - 0x8000) / 16))
    match o % 16 with
    | 0 => e.addrLo
    | 4 => e.addrHi
    | 8 => e.data
    | _ => e.ctrl
  else if o < 0x9020 then
    reg ((List.range 32).map fun i => bit ((s.port port).msix.get (Fin.ofNat 256 ((o - 0x9000) * 8 + i))).pending i).sum
  else 0

/-- PRT_STATUS.STATE (R45). -/
def PrtState.code : PrtState → Nat
  | .absent => 0 | .running => 1 | .stopping => 2 | .stopped => 3 | .quarantined => 4

/-- PRT (R45). -/
def State.readPrt (s : State) (port : Port) (p : Part) (o : Nat) : W32 :=
  let q := s.part p
  if s.sees port p = false then 0
  else match o with
    | 0x04 => reg (bit q.startPending 11 + bit q.zeroising 10 + q.stopCause % 4 * 256 + q.st.code)
    | 0x14 => reg q.kln.sections.toNat
    | 0x18 => q.kln.bytes
    | _ => 0

/-- A port sees the queues of a subblock: those it drives, and the owner those of every partition (R60). -/
def State.seesSub (s : State) (port : Port) (src : Src) : Bool :=
  s.drives port src || (match src with | .part _ => s.owns port | .owner => false)

/-- A queue subblock (R63). -/
def State.readSub (s : State) (port : Port) (src : Src) (o : Nat) : W32 :=
  if s.seesSub port src = false then 0
  else
    let b := s.sub src
    if o < 0x1000 then
      let q := b.cmdq.get (Fin.ofNat 64 (o / 0x40))
      match o % 0x40 with
      | 0x00 => q.baseLo
      | 0x04 => q.baseHi
      | 0x08 => q.cfg
      | 0x0C => reg q.head
      | 0x10 => reg q.tail
      | 0x14 => reg (bit q.badDoorbell 2 + bit q.error 1 + bit q.active 0)
      | _ => 0
    else if o < 0x1400 then
      let q := b.evq.get (Fin.ofNat 16 ((o - 0x1000) / 0x40))
      match o % 0x40 with
      | 0x00 => q.baseLo
      | 0x04 => q.baseHi
      | 0x08 => q.cfg
      | 0x0C => reg q.head
      | 0x10 => reg (bit q.phase 16 + q.tail)
      | 0x14 => q.irq
      | 0x18 => q.dropped
      | _ => 0
    else match src with
      | .owner => 0
      | .part _ => if o = 0x1800 then b.winCtrl else if o = 0x1804 then b.winBase else 0

/-- A request entry as the window shows it (R254). -/
def Partition.entryBytes (q : Partition) (r : Req) : List Byte :=
  let x := r.sampling
  leBytes 1 (r.state.code + r.prev.code * 16) ++
    leBytes 1 (bit r.held 0 + bit r.deadlinePassed 1 + bit r.genFirst 2 + bit r.closing 3) ++
    leBytes 1 r.priority ++ [r.policy] ++ leBytes 4 r.model ++ leBytes 4 r.length ++ leBytes 4 r.pending ++
    leBytes 4 (r.directory.blocks.head?.getD 0xFFFFFFFF) ++ leBytes 4 (r.chain.blocks.head?.getD 0xFFFFFFFF) ++
    leBytes 8 r.deadline ++ leBytes 8 r.ringBase ++ leBytes 1 r.ringOrder ++ leBytes 1 r.specWidth ++ leBytes 1 r.evq.val ++
    leBytes 1 0 ++ leBytes 4 r.steps ++ leBytes 4 r.produced ++ leBytes 4 r.consumed ++ leBytes 4 r.generated ++
    leBytes 4 r.queuePos ++ leBytes 4 x.temperature.toNat ++ leBytes 4 x.topK ++ leBytes 4 x.topP.toNat ++
    leBytes 4 x.minP.toNat ++ leBytes 8 x.seed ++ leBytes 4 x.maxNew ++ leBytes 4 x.stopToken ++ leBytes 8 r.lastStep ++
    leBytes 4 (q.reqPages r).length ++ leBytes 4 r.fault ++ leBytes 8 r.admitted ++ leBytes 8 0

/-- The copy of a request's entry that the window shows: that of the last step boundary (R256). -/
def Partition.shownReq (p : Partition) (h : Nat) : Option Req :=
  match p.step with | some st => lookupA st.shown h | none => p.req h

/-- The RQT window (R256): the share and the first entry that the port's selector gives. -/
def State.readWindow (s : State) (port : Port) (o : Nat) : W32 :=
  let sel := (s.port port).winSel
  let p : Option Part := if port = s.ownerPort then some (Fin.ofNat 4 (bitsOf sel 17 16)) else s.partOf port
  match p with
  | none => 0
  | some p =>
    let h := bitsOf sel 14 8 * 256 + o / 128
    match (s.part p).shownReq h with
    | some r => reg (field ((s.part p).entryBytes r) (o % 128) 4)
    | none => 0

/-- RQT (R285). -/
def State.readRqt (s : State) (port : Port) (o : Nat) : W32 :=
  if s.hasView port = false then 0
  else if o = 0 then
    let sel := (s.port port).winSel
    if port = s.ownerPort then sel
    else reg (bitsOf sel 14 0 + (match s.partOf port with | some p => p.val * 65536 | none => 0))
  else if 0x8000 ≤ o then s.readWindow port (o - 0x8000)
  else if 0x100 ≤ o ∧ o < 0x200 then
    let p : Part := Fin.ofNat 4 ((o - 0x100) / 0x40)
    let q := s.part p
    if s.sees port p = false then 0
    else match o % 0x40 with
      | 0x00 => q.rqt.ctrl
      | 0x04 => q.rqt.limits
      | 0x08 => reg (q.liveCount * 65536 + q.activeCount)
      | 0x0C => reg q.queue.length
      | 0x10 => reg q.meanGap
      | 0x14 => sat32 q.rqt.sliceDebt
      | 0x20 => q.rqt.admitted
      | 0x24 => q.rqt.refused
      | 0x28 => q.rqt.preempted
      | 0x2C => q.rqt.expired
      | 0x30 => sat32 (q.rqt.overrunNs / 1000)
      | 0x34 => q.rqt.rewound
      | _ => 0
  else 0

/-- The registers that margining shows (R100, R305); the fifth argument is the place of the lane or wire. -/
def Margin.read (m : Margin) (o : Nat) : W32 :=
  match o with
  | 0x100 => m.sel
  | 0x104 => reg (bit m.hold 0)
  | 0x108 => reg m.time.toNat
  | 0x10C => reg m.vref.toNat
  | 0x110 => reg m.logTransfers.toNat
  | 0x114 => m.errors
  | 0x118 => reg (m.first.toNat * 65536 + bit m.aborted 4 + bit m.refused 3 + bit m.done 2 + bit m.busy 1 + bit m.held 0)
  | _ => 0

/-- A partition's counters in a block where each has 16 bytes from offset 0x40 on. -/
def State.prtCounter (s : State) (port : Port) (o width : Nat) (f : Partition → Nat → W32) : W32 :=
  let p : Part := Fin.ofNat 4 ((o - 0x40) / width)
  if s.sees port p then f (s.part p) ((o - 0x40) % width) else 0

/-- MEM (R100). -/
def State.readMem (s : State) (port : Port) (o : Nat) : W32 :=
  if 0x40 ≤ o ∧ o < 0x80 then
    s.prtCounter port o 16 fun q i => match i with
      | 0 => q.ctr.memCorr | 4 => q.ctr.memUncorr | 8 => q.ctr.memPoison | _ => 0
  else if s.owns port = false then 0
  else match o with
    | 0x0 => s.memArb
    | 0x4 => s.memScrub
    | 0x8 => reg ((s.dies.map fun d => d.2.temp).foldl max 0 % 256 * 65536 + (s.dies.filter fun d => d.2.hot).length % 1024)
    | o => s.memMargin.read o

/-- NB (R131). -/
def State.readNb (s : State) (port : Port) (o : Nat) : W32 :=
  if 0x40 ≤ o ∧ o < 0x80 then
    s.prtCounter port o 16 fun q i => match i with
      | 0 => q.ctr.nbSeq | 4 => q.ctr.nbSplit | 8 => q.ctr.nbBadcmd | _ => 0
  else if s.owns port = false then 0
  else match o with
    | 0x0 => s.nbCtrl
    | 0x4 => s.nbMaxWait
    | _ => 0

/-- SCL (R153). -/
def State.readScl (s : State) (port : Port) (o : Nat) : W32 :=
  if 0x40 ≤ o ∧ o < 0xC0 then
    s.prtCounter port o 32 fun q i => match i with
      | 0x00 => q.ctr.sclEscape | 0x04 => q.ctr.sclReseason | 0x08 => q.ctr.sclUnderRange | 0x0C => q.ctr.sclNarrow
      | 0x10 => q.ctr.sclNonfinite
      | 0x14 => reg ((q.models.flatMap Model.pool).map fun pt => pt.freeEscs.length).sum
      | _ => 0
  else 0

/-- STEP (R210). -/
def State.readStep (s : State) (port : Port) (p : Part) (o : Nat) : W32 :=
  if s.sees port p = false then 0
  else
    let k := (s.part p).stepRegs
    match o with
    | 0x00 => k.ctrl | 0x04 => k.timeout | 0x08 => k.cadPeriod | 0x0C => k.cadBaseLo | 0x10 => k.cadBaseHi
    | 0x14 => k.draft | 0x18 => k.maxNs | 0x40 => k.committed | 0x44 => k.abandoned | 0x48 => k.lastNs
    | 0x4C => sat32 (k.wstallNs / 1000) | 0x50 => k.moeDrop | 0x54 => k.sitout | 0x58 => k.cadMiss
    | 0x5C => k.specNodes | 0x60 => k.specAccept
    | _ => 0

/-- KV (R235, R252). -/
def State.readKv (s : State) (port : Port) (p : Part) (o : Nat) : W32 :=
  if s.sees port p = false then 0
  else
    let q := s.part p
    let k := q.kv
    let parts := q.models.flatMap Model.pool
    match o with
    | 0x00 => k.ctrl | 0x04 => k.fmtModel | 0x08 => k.fmt | 0x0C => k.piece
    | 0x10 => reg (parts.map fun pt => pt.freeSlots.length).sum
    | 0x14 => reg (parts.map fun pt => pt.freeNumbers.length).sum
    | 0x18 => reg (q.allPages.filter fun x => x.2.2.loc == .peat || x.2.2.loc == .spilling).length
    | 0x40 => k.spill | 0x44 => k.fetch | 0x48 => k.late | 0x4C => k.wait | 0x50 => k.scratchMiss | 0x54 => k.pieces
    | 0x58 => sat32 (k.rotBytes / 1024)
    | _ => 0

/-- PEAT (R305). -/
def State.readPeat (s : State) (port : Port) (o : Nat) : W32 :=
  if 0x40 ≤ o ∧ o < 0x80 then
    s.prtCounter port o 16 fun q i => match i with
      | 0 => sat32 (q.ctr.streamedBytes / 1048576) | 4 => q.ctr.peatRefetch | 8 => q.ctr.peatCorr | 12 => q.ctr.peatUncorr
      | _ => 0
  else if s.owns port = false then 0
  else match o with
    | 0x0 => s.peatArb
    | 0x4 => s.peatCtrl
    | 0x8 => s.peatSupplyTimeout
    | 0xC => reg (min 0xFFFF (s.repairs.filter fun r => match r.phase with | .lost _ _ => true | _ => false).length)
    | o => s.peatMargin.read o

/-- RING_STATUS.STATE (R313). -/
def RingState.code : RingState → Nat
  | .acquire => 0 | .locked => 1 | .holdover => 2 | .freerun => 3 | .master => 4

/-- RING (R323), but for RING_TIME. -/
def State.readRing (s : State) (port : Port) (o : Nat) : W32 :=
  let r := s.ring
  if o = 0x08 then
    if s.hasView port then
      reg (r.marks.toNat * 65536 + r.hops.toNat * 256 + bit r.inStuck 6 + bit r.sourceHoldover 5 + bit s.trusted 4 + r.state.code)
    else 0
  else if s.owns port = false then 0
  else match o with
    | 0x00 => r.cfg | 0x04 => r.cableDelay | 0x18 => r.timeSetLo | 0x1C => r.timeSetHi | 0x20 => r.marksOut
    | 0x24 => BitVec.ofInt 32 r.offset
    | 0x28 => BitVec.ofInt 32 r.loopErr
    | 0x40 => r.good | 0x44 => r.bad | 0x48 => r.missing | 0x4C => r.lockLoss
    | 0x50 => sat32 (r.holdoverNs / 1000000)
    | 0x54 => r.steps | 0x58 => r.foreign
    | _ => 0

/-- An entry of a fault FIFO (R345). -/
def FaultEntry.bytes (e : FaultEntry) : List Byte :=
  leBytes 2 e.code ++ leBytes 1 e.cls ++ leBytes 1 e.rung ++ leBytes 4 (e.request.getD 0xFFFFFFFF) ++ leBytes 8 e.time ++
    leBytes 8 e.loc.toNat ++ leBytes 4 e.count ++ leBytes 1 (bit e.handling 0) ++ leBytes 3 0

/-- A word of a FIFO as the registers show it. -/
def fifoWord (l : List FaultEntry) (o : Nat) : W32 :=
  match l[o / 32]? with
  | some e => reg (field e.bytes (o % 32) 4)
  | none => 0

/-- STATE of a SHEET entry (R30). -/
def SiteState.code : SiteState → Nat
  | .inService => 0 | .spare => 1 | .fenced => 2

/-- A logical tile that the partitions' masks count on has no site (R339): some site that the ash log fences held a number that no site
carries now. [DEDUCED: log 51] -/
def State.degraded (s : State) : Bool :=
  allParts.any fun p => match (s.part p).fence with
    | some f => (List.finRange 64).any fun i => f.tiles.getLsbD i.val && (s.sites.get i).state == .fenced
    | none => false

/-- FLT (R352). -/
def State.readFlt (s : State) (port : Port) (o : Nat) : W32 :=
  if 0x1000 ≤ o then
    if o < 0x5000 then
      let p : Part := Fin.ofNat 4 (o / 0x1000 - 1)
      let q := s.part p
      if s.sees port p = false then 0
      else if 0x800 ≤ o % 0x1000 then fifoWord q.fifo (o % 0x1000 - 0x800)
      else match o % 0x1000 with
        | 0x004 => reg ((q.fifo.filter (·.handling)).length * 256 + q.fifo.length)
        | 0x010 => q.ctr.fltDeferred | 0x014 => q.ctr.fltContained | 0x018 => q.ctr.fltLostPos | 0x01C => q.ctr.fltLeaked
        | 0x020 => q.ctr.fltIndexLost
        | _ => 0
    else 0
  else if s.reaches port = false then 0
  else if 0x800 ≤ o then fifoWord s.sheetFifo (o - 0x800)
  else if 0x100 ≤ o ∧ o < 0x200 then
    let x := s.sites.get (Fin.ofNat 64 ((o - 0x100) / 4))
    reg (x.tile.getD 0xFF % 256 * 256 + x.state.code)
  else match o with
    | 0x0 => s.fltCtrl
    | 0x4 =>
      let spares := ((List.finRange 64).filter s.spareSite).length
      reg (spares % 16 * 256 + bit s.peatRetired 3 + bit s.ashLogFull 2 + bit s.degraded 1 + bit s.fatal 0)
    | 0x8 => reg s.flash.ash.2.length
    | _ => 0

/-- SEC (R374): a tenant sees SEC_STATUS only. -/
def State.readSec (s : State) (port : Port) (o : Nat) : W32 :=
  let x := s.sec
  if o = 0 then
    if s.hasView port || s.reaches port then
      reg (s.flash.svnMin % 256 * 2 ^ 24 + imageSvn x.runningHdr % 256 * 2 ^ 16 + bit s.flash.csigKey.isSome 5 +
        bit x.bootFallback 4 + bit x.runningB 3 + bit s.flash.activeB 2 + bit x.scanLatch 1 + bit x.keyValid 0)
    else 0
  else if s.reaches port = false then 0
  else if o = 0x8 then reg (bit (x.busy != .none) 3 + x.result)
  else if o = 0xC then x.bytes
  else if 0x10 ≤ o ∧ o < 0x40 then reg (field x.nonce (o - 0x10) 4)
  else 0

/-- BIST_STATUS.PHASE (R375). -/
def BistPhase.code : BistPhase → Nat
  | .idle => 0 | .hold => 1 | .save => 2 | .test => 3 | .restore => 4 | .clear => 5

/-- BIST (R375). -/
def State.readBist (s : State) (port : Port) (o : Nat) : W32 :=
  let b := s.bist
  if s.hasView port = false then 0
  else match o with
    | 0x0 => reg (b.lastResult * 2 ^ 28 + b.tile.getD 0xFF * 2 ^ 16 + b.phase.code * 2 + bit b.busy 0)
    | 0x4 => reg (b.temp.toNat * 2 ^ 24 + b.clock.toNat * 2 ^ 16 + b.supply.toNat * 256 + b.failed.toNat)
    | 0x8 => reg (min 255 b.postFailed * 2 ^ 16 + min 255 b.postSkipped * 256 + bit b.postRan 0)
    | _ => 0

/-- Seconds of the present assertion of BRAKE_N (R324). -/
def State.heldSeconds (s : State) : Nat :=
  match s.pins.assertedAt with
  | some t => min 0xFFFF ((s.uptime - t) / 1000000000)
  | none => 0

/-- PWR, THM and PIN (R324, R397), but for PWR_ENERGY. -/
def State.readPwr (s : State) (port : Port) (o : Nat) : W32 :=
  let w := s.power
  let x := s.pins
  if !(s.hasView port || s.reaches port) then 0
  else match o with
    | 0x004 => reg (w.holdCause * 4096 + w.lastOff * 256 + bit (decide (w.limitShare < 16)) 3 + s.powerState)
    | 0x008 => w.limit
    | 0x00C => reg (w.current.toNat * 65536 + w.volts.toNat)
    | 0x010 => reg w.watts.toNat
    | 0x01C => reg s.duty
    | 0x020 => w.limitedMs
    | 0x040 => reg (w.outlet.toNat * 2 ^ 24 + w.inlet.toNat * 2 ^ 16 + w.maxLogic.toNat * 256 + bit w.coolWarn 1 +
        bit (decide (w.thermalShare < 16)) 0)
    | 0x044 => w.throttle
    | 0x048 => reg w.flow.toNat
    | 0x04C => w.throttledMs
    | 0x100 => reg (bit x.changed 12 + x.strapsNow.toNat * 256 + bit x.unstable 4 + x.straps.toNat)
    | 0x104 => reg (bit x.pwrGood 5 + bit x.thermTripN 4 + bit x.alertN 3 + bit x.brakeN 2 + bit x.resetN 1 + bit x.pwrEn 0)
    | 0x108 => reg (s.heldSeconds * 65536 + bit s.brakeReportOnly 2 + bit x.braking 1 + bit (!x.brakeN) 0)
    | 0x10C => x.brakeCount | 0x110 => x.brakeChatter | 0x114 => x.ringStuck
    | _ => 0

/-- The read-only pairs (R401): LO latches HI for its port. PWR_ENERGY answers in STANDBY too, where the owner reaches PWR (R380). [DESIGN CHOICE: log 14] -/
def State.readPair (s : State) (port : Port) (off : Nat) : Option (W32 × State) :=
  if s.hasView port || (s.reaches port && decide (off / 0x10000 = 0xF)) then
    match off with
    | 0xB0010 => some (reg s.now, s.modPort port fun x => { x with ringLatch := reg (s.now / 2 ^ 32) })
    | 0xB0014 => some ((s.port port).ringLatch, s)
    | 0xF0014 =>
      let j := s.power.energyMj / 1000
      some (reg j, s.modPort port fun x => { x with energyLatch := reg (j / 2 ^ 32) })
    | 0xF0018 => some ((s.port port).energyLatch, s)
    | _ => none
  else none

/-- What a 32-bit read at an aligned BAR0 offset returns, latches apart (R60, R399, R402). [DESIGN CHOICE: log 14] -/
def State.readReg (s : State) (port : Port) (off : Nat) : W32 :=
  let o := off % 0x10000
  match off / 0x10000 with
  | 0x0 => s.readId port o
  | 0x1 => if o < 0x4000 then s.readPrt port (Fin.ofNat 4 (o / 0x1000)) (o % 0x1000) else 0
  | 0x2 =>
    if o < 0x8000 then s.readSub port (.part (Fin.ofNat 4 (o / 0x2000))) (o % 0x2000)
    else if o < 0xA000 then s.readSub port .owner (o - 0x8000) else 0
  | 0x3 => s.readRqt port o
  | 0x4 => if s.owns port then (if o = 4 then reg s.kln.sections.toNat else if o = 8 then s.kln.bytes else 0) else 0
  | 0x5 => s.readMem port o
  | 0x6 => s.readNb port o
  | 0x7 => s.readScl port o
  | 0x8 => if o < 0x400 then s.readStep port (Fin.ofNat 4 (o / 0x100)) (o % 0x100) else 0
  | 0x9 => if o < 0x400 then s.readKv port (Fin.ofNat 4 (o / 0x100)) (o % 0x100) else 0
  | 0xA => s.readPeat port o
  | 0xB => s.readRing port o
  | 0xC => s.readFlt port o
  | 0xD => s.readSec port o
  | 0xE => s.readBist port o
  | 0xF => s.readPwr port o
  | _ => 0

/-- A BAR0 read (R5-R8): what it returns, and the state with the latch that it may set. The table of operations has no row for it. [DESIGN CHOICE: log 14] -/
def State.readRegister (s : State) (port : Port) (off size : Nat) : W32 × State :=
  if size = 4 ∧ off % 4 = 0 then
    match s.readPair port off with
    | some x => x
    | none => (s.readReg port off, s)
  else (0, s)

end Sys2Proof.Machine
end

