-- ==== Sys2Proof/Machine/Dispatch.lean ====
section
/-! DEFINITION. What each command does: one direct call of its meaning for every row of the table. -/

namespace Sys2Proof.Machine

def exec (i : Instr) (s : State) : Host.Outcome State Fault Refusal :=
  match i with
  | .reqOpen src => Sys2Proof.Machine.execReqOpen src s
  | .reqAppend src => Sys2Proof.Machine.execReqAppend src s
  | .reqClose src => Sys2Proof.Machine.execReqClose src s
  | .reqPark src => Sys2Proof.Machine.execReqPark src s
  | .modelLoad src => Sys2Proof.Machine.execModelLoad src s
  | .modelLoadDone p handle => Sys2Proof.Machine.execModelLoadDone p handle s
  | .modelUnload src => Sys2Proof.Machine.execModelUnload src s
  | .pageReserve src => Sys2Proof.Machine.execPageReserve src s
  | .indexInsert src => Sys2Proof.Machine.execIndexInsert src s
  | .indexCopyDone p => Sys2Proof.Machine.execIndexCopyDone p s
  | .indexRemove src => Sys2Proof.Machine.execIndexRemove src s
  | .prtStop src => Sys2Proof.Machine.execPrtStop src s
  | .prtStart src => Sys2Proof.Machine.execPrtStart src s
  | .bistRun src env => Sys2Proof.Machine.execBistRun src env s
  | .billetSupply src => Sys2Proof.Machine.execBilletSupply src s
  | .badOpcode src => Sys2Proof.Machine.execBadOpcode src s
  | .commandFetch src entry => Sys2Proof.Machine.execCommandFetch src entry s
  | .doorbell port offset value => Sys2Proof.Machine.execDoorbell port offset value s
  | .cmdqCfgWrite port sub q value => Sys2Proof.Machine.execCmdqCfgWrite port sub q value s
  | .evqCfgWrite port sub e value => Sys2Proof.Machine.execEvqCfgWrite port sub e value s
  | .evqHeadWrite port sub e value => Sys2Proof.Machine.execEvqHeadWrite port sub e value s
  | .evqCoalesceTimeout sub e => Sys2Proof.Machine.execEvqCoalesceTimeout sub e s
  | .msixUnmask port vector => Sys2Proof.Machine.execMsixUnmask port vector s
  | .klnBegin port => Sys2Proof.Machine.execKlnBegin port s
  | .klnLoad port value => Sys2Proof.Machine.execKlnLoad port value s
  | .prtKlnBegin port p => Sys2Proof.Machine.execPrtKlnBegin port p s
  | .prtKlnLoad port p value => Sys2Proof.Machine.execPrtKlnLoad port p value s
  | .prtCtrlStop port p => Sys2Proof.Machine.execPrtCtrlStop port p s
  | .prtCtrlStart port p => Sys2Proof.Machine.execPrtCtrlStart port p s
  | .partitionStopDone p => Sys2Proof.Machine.execPartitionStopDone p s
  | .zeroiseDone p => Sys2Proof.Machine.execZeroiseDone p s
  | .bar4Read port offset len errs => Sys2Proof.Machine.execBar4Read port offset len errs s
  | .bar4Write port offset data errs => Sys2Proof.Machine.execBar4Write port offset data errs s
  | .memMarginHold port => Sys2Proof.Machine.execMemMarginHold port s
  | .memMarginRelease port => Sys2Proof.Machine.execMemMarginRelease port s
  | .memMarginRun port logTransfers => Sys2Proof.Machine.execMemMarginRun port logTransfers s
  | .marginDone errors firstWire => Sys2Proof.Machine.execMarginDone errors firstWire s
  | .peatMarginHold port => Sys2Proof.Machine.execPeatMarginHold port s
  | .peatMarginRelease port => Sys2Proof.Machine.execPeatMarginRelease port s
  | .peatMarginRun port logTransfers => Sys2Proof.Machine.execPeatMarginRun port logTransfers s
  | .peatMarginDone errors firstLane => Sys2Proof.Machine.execPeatMarginDone errors firstLane s
  | .kvFmtApply port p format => Sys2Proof.Machine.execKvFmtApply port p format s
  | .fltPrtRelease port p => Sys2Proof.Machine.execFltPrtRelease port p s
  | .fltFatalClear port => Sys2Proof.Machine.execFltFatalClear port s
  | .autoSpareSet port => Sys2Proof.Machine.execAutoSpareSet port s
  | .secFwBegin port => Sys2Proof.Machine.execSecFwBegin port s
  | .secFwLoad port value => Sys2Proof.Machine.execSecFwLoad port value s
  | .secFwCheck port => Sys2Proof.Machine.execSecFwCheck port s
  | .fwLoadDone => Sys2Proof.Machine.execFwLoadDone s
  | .secFwActivate port => Sys2Proof.Machine.execSecFwActivate port s
  | .secFwEnrol port => Sys2Proof.Machine.execSecFwEnrol port s
  | .secFwCommitSvn port => Sys2Proof.Machine.execSecFwCommitSvn port s
  | .ringSetTime port => Sys2Proof.Machine.execRingSetTime port s
  | .ringCfgWrite port value => Sys2Proof.Machine.execRingCfgWrite port value s
  | .pwrCtrlOn port => Sys2Proof.Machine.execPwrCtrlOn port s
  | .pwrCtrlStandby port => Sys2Proof.Machine.execPwrCtrlStandby port s
  | .registerWrite port offset size value => Sys2Proof.Machine.execRegisterWrite port offset size value s
  | .pwrEnRise s1 s2 s3 => Sys2Proof.Machine.execPwrEnRise s1 s2 s3 s
  | .bootSelfCheckDone passed env => Sys2Proof.Machine.execBootSelfCheckDone passed env s
  | .standbyCheckTick env => Sys2Proof.Machine.execStandbyCheckTick env s
  | .postDone findings skipped => Sys2Proof.Machine.execPostDone findings skipped s
  | .peatInitDone => Sys2Proof.Machine.execPeatInitDone s
  | .pwrEnFall => Sys2Proof.Machine.execPwrEnFall s
  | .undervoltage => Sys2Proof.Machine.execUndervoltage s
  | .overvoltage => Sys2Proof.Machine.execOvervoltage s
  | .overcurrent => Sys2Proof.Machine.execOvercurrent s
  | .modResetAssert => Sys2Proof.Machine.execModResetAssert s
  | .modResetDeassert => Sys2Proof.Machine.execModResetDeassert s
  | .brakeAssert => Sys2Proof.Machine.execBrakeAssert s
  | .brakeDeassert => Sys2Proof.Machine.execBrakeDeassert s
  | .brakeDwellEnd => Sys2Proof.Machine.execBrakeDwellEnd s
  | .brakeHeld => Sys2Proof.Machine.execBrakeHeld s
  | .brakeShareTick watts => Sys2Proof.Machine.execBrakeShareTick watts s
  | .powerLimitTick watts current volts => Sys2Proof.Machine.execPowerLimitTick watts current volts s
  | .thermalSample t => Sys2Proof.Machine.execThermalSample t s
  | .strapChanged levels => Sys2Proof.Machine.execStrapChanged levels s
  | .alertHoldExpiry => Sys2Proof.Machine.execAlertHoldExpiry s
  | .smbusRequest sensor => Sys2Proof.Machine.execSmbusRequest sensor s
  | .smbusClkTimeout => Sys2Proof.Machine.execSmbusClkTimeout s
  | .testAccessEntry instruction => Sys2Proof.Machine.execTestAccessEntry instruction s
  | .testAccessClearDone => Sys2Proof.Machine.execTestAccessClearDone s
  | .perstAssert port => Sys2Proof.Machine.execPerstAssert port s
  | .hotReset port => Sys2Proof.Machine.execHotReset port s
  | .linkDisable port => Sys2Proof.Machine.execLinkDisable port s
  | .linkLost port => Sys2Proof.Machine.execLinkLost port s
  | .linkUp link => Sys2Proof.Machine.execLinkUp link s
  | .flr port => Sys2Proof.Machine.execFlr port s
  | .hostReadDone port tag data => Sys2Proof.Machine.execHostReadDone port tag data s
  | .completionTimeout port tag => Sys2Proof.Machine.execCompletionTimeout port tag s
  | .l0pWidthRequest port lanes => Sys2Proof.Machine.execL0pWidthRequest port lanes s
  | .ideCheckFail port dir => Sys2Proof.Machine.execIdeCheckFail port dir s
  | .getVersion port => Sys2Proof.Machine.execGetVersion port s
  | .getCapabilities port => Sys2Proof.Machine.execGetCapabilities port s
  | .negotiateAlgorithms port => Sys2Proof.Machine.execNegotiateAlgorithms port s
  | .getDigests port => Sys2Proof.Machine.execGetDigests port s
  | .getCertificate port slot offset len => Sys2Proof.Machine.execGetCertificate port slot offset len s
  | .challenge port nonce => Sys2Proof.Machine.execChallenge port nonce s
  | .getMeasurements port index sign nonce => Sys2Proof.Machine.execGetMeasurements port index sign nonce s
  | .keyExchange port exchange => Sys2Proof.Machine.execKeyExchange port exchange s
  | .finish port session verify => Sys2Proof.Machine.execFinish port session verify s
  | .heartbeat port session => Sys2Proof.Machine.execHeartbeat port session s
  | .keyUpdate port session => Sys2Proof.Machine.execKeyUpdate port session s
  | .endSession port session => Sys2Proof.Machine.execEndSession port session s
  | .ideKm port session kset dir key => Sys2Proof.Machine.execIdeKm port session kset dir key s
  | .stepForm p => Sys2Proof.Machine.execStepForm p s
  | .stepHeadStart p errs => Sys2Proof.Machine.execStepHeadStart p errs s
  | .cadenceMark p errs => Sys2Proof.Machine.execCadenceMark p errs s
  | .stagingDone p handle region errs => Sys2Proof.Machine.execStagingDone p handle region errs s
  | .programStart p => Sys2Proof.Machine.execProgramStart p s
  | .collectiveTimeout p tile => Sys2Proof.Machine.execCollectiveTimeout p tile s
  | .stepCommit p => Sys2Proof.Machine.execStepCommit p s
  | .deadlineReached p request => Sys2Proof.Machine.execDeadlineReached p request s
  | .endOnlyRecord p request => Sys2Proof.Machine.execEndOnlyRecord p request s
  | .slotBoundary slot => Sys2Proof.Machine.execSlotBoundary slot s
  | .slotZeroiseDone slot => Sys2Proof.Machine.execSlotZeroiseDone slot s
  | .embed p handle errs => Sys2Proof.Machine.execEmbed p handle errs s
  | .rmsNorm p handle errs => Sys2Proof.Machine.execRmsNorm p handle errs s
  | .layerNorm p handle errs => Sys2Proof.Machine.execLayerNorm p handle errs s
  | .linear p handle errs => Sys2Proof.Machine.execLinear p handle errs s
  | .rope p handle => Sys2Proof.Machine.execRope p handle s
  | .kvAppend p handle => Sys2Proof.Machine.execKvAppend p handle s
  | .attend p handle errs => Sys2Proof.Machine.execAttend p handle errs s
  | .act p handle => Sys2Proof.Machine.execAct p handle s
  | .route p handle errs => Sys2Proof.Machine.execRoute p handle errs s
  | .combine p handle => Sys2Proof.Machine.execCombine p handle s
  | .add p handle => Sys2Proof.Machine.execAdd p handle s
  | .logits p handle errs => Sys2Proof.Machine.execLogits p handle errs s
  | .sample p handle => Sys2Proof.Machine.execSample p handle s
  | .season p handle => Sys2Proof.Machine.execSeason p handle s
  | .scatter p handle errs => Sys2Proof.Machine.execScatter p handle errs s
  | .spillDone p handle page errs => Sys2Proof.Machine.execSpillDone p handle page errs s
  | .fetchDone p handle page errs => Sys2Proof.Machine.execFetchDone p handle page errs s
  | .prefixCopyDone p request errs => Sys2Proof.Machine.execPrefixCopyDone p request errs s
  | .nbSequenceSubmit hop hdr words => Sys2Proof.Machine.execNbSequenceSubmit hop hdr words s
  | .nbClear bank => Sys2Proof.Machine.execNbClear bank s
  | .nbLoadv bank => Sys2Proof.Machine.execNbLoadv bank s
  | .nbGemv bank errs parity => Sys2Proof.Machine.execNbGemv bank errs parity s
  | .nbDot bank errs parity => Sys2Proof.Machine.execNbDot bank errs parity s
  | .nbAxpy bank errs parity => Sys2Proof.Machine.execNbAxpy bank errs parity s
  | .nbReadacc bank => Sys2Proof.Machine.execNbReadacc bank s
  | .nbStore bank => Sys2Proof.Machine.execNbStore bank s
  | .nbCopy bank errs => Sys2Proof.Machine.execNbCopy bank errs s
  | .nbMalformed bank => Sys2Proof.Machine.execNbMalformed bank s
  | .atomicFp32Add tile line word v => Sys2Proof.Machine.execAtomicFp32Add tile line word v s
  | .atomicBf16PairAdd tile line word v => Sys2Proof.Machine.execAtomicBf16PairAdd tile line word v s
  | .atomicMax tile line word v => Sys2Proof.Machine.execAtomicMax tile line word v s
  | .atomicMin tile line word v => Sys2Proof.Machine.execAtomicMin tile line word v s
  | .atomicInt32Add tile line word v => Sys2Proof.Machine.execAtomicInt32Add tile line word v s
  | .atomicSwap tile line word v => Sys2Proof.Machine.execAtomicSwap tile line word v s
  | .atomicCompareAndSwap tile line word expected v => Sys2Proof.Machine.execAtomicCompareAndSwap tile line word expected v s
  | .reductionMessage p hop line kind words cline cword => Sys2Proof.Machine.execReductionMessage p hop line kind words cline cword s
  | .memRead who addr outcome => Sys2Proof.Machine.execMemRead who addr outcome s
  | .memWrite p addr bytes outcome => Sys2Proof.Machine.execMemWrite p addr bytes outcome s
  | .arbAgePromote die index => Sys2Proof.Machine.execArbAgePromote die index s
  | .refreshDue bank => Sys2Proof.Machine.execRefreshDue bank s
  | .refreshPullin bank => Sys2Proof.Machine.execRefreshPullin bank s
  | .dieTempSample die temp => Sys2Proof.Machine.execDieTempSample die temp s
  | .scrubRead addr outcome => Sys2Proof.Machine.execScrubRead addr outcome s
  | .rowRemap bank row errs verifyOk => Sys2Proof.Machine.execRowRemap bank row errs verifyOk s
  | .reliefCopyDone p segment errs => Sys2Proof.Machine.execReliefCopyDone p segment errs s
  | .coreFault site cluster core => Sys2Proof.Machine.execCoreFault site cluster core s
  | .engineParityError site engine => Sys2Proof.Machine.execEngineParityError site engine s
  | .tileFault site serves => Sys2Proof.Machine.execTileFault site serves s
  | .substitutionDone site => Sys2Proof.Machine.execSubstitutionDone site s
  | .frameFault site part => Sys2Proof.Machine.execFrameFault site part s
  | .faultEntryHandle fifo => Sys2Proof.Machine.execFaultEntryHandle fifo s
  | .ashLogAppend => Sys2Proof.Machine.execAshLogAppend s
  | .peatRead p chunk outcome => Sys2Proof.Machine.execPeatRead p chunk outcome s
  | .peatScrubRead chunk outcome => Sys2Proof.Machine.execPeatScrubRead chunk outcome s
  | .peatArbAgePromote channel index => Sys2Proof.Machine.execPeatArbAgePromote channel index s
  | .refetchDone p handle region billet errs => Sys2Proof.Machine.execRefetchDone p handle region billet errs s
  | .supplyTimeout p handle region billet => Sys2Proof.Machine.execSupplyTimeout p handle region billet s
  | .ringFrameRx frame => Sys2Proof.Machine.execRingFrameRx frame s
  | .ringFrameMissing => Sys2Proof.Machine.execRingFrameMissing s
  | .ringFrameTx => Sys2Proof.Machine.execRingFrameTx s
  | .ringInStuck => Sys2Proof.Machine.execRingInStuck s
  | .bistLimitCheck env => Sys2Proof.Machine.execBistLimitCheck env s
  | .bistSaveDone targetFault => Sys2Proof.Machine.execBistSaveDone targetFault s
  | .bistTestDone findings => Sys2Proof.Machine.execBistTestDone findings s
  | .bistRestoreDone => Sys2Proof.Machine.execBistRestoreDone s
  | .bistClearDone => Sys2Proof.Machine.execBistClearDone s
  | .pageMoveDone p handle page errs => Sys2Proof.Machine.execPageMoveDone p handle page errs s
  | .fwEraseDone => Sys2Proof.Machine.execFwEraseDone s
  | .fuseWriteDone => Sys2Proof.Machine.execFuseWriteDone s

end Sys2Proof.Machine
end

