-- ==== Sys2Proof/Safety.lean ====
section
/-! DEFINITION. What holds of the block in every run, whatever is commanded: the invariant of a step, and the relations in which
statements say what a command leaves alone. -/

namespace Sys2Proof.Machine

/-- The issue shares lie between 1/16 and 16/16 (R387). -/
def Power.sharesLegal (x : Power) : Prop :=
  (1 ≤ x.brakeShare ∧ x.brakeShare ≤ 16) ∧ (1 ≤ x.limitShare ∧ x.limitShare ≤ 16) ∧ (1 ≤ x.thermalShare ∧ x.thermalShare ≤ 16)

/-- No copy of the ash log holds more records than the firmware lets it take before it switches copies (R350). -/
def Flash.ashFits (f : Flash) : Prop := f.ash0.2.length ≤ 7680 ∧ f.ash1.2.length ≤ 7680

/-- What holds between steps. -/
structure State.Inv (s : State) : Prop where
  /-- Sheet memory is in its canonical form. -/
  sheet : s.sheet.wf = true
  /-- Peat memory is in its canonical form. -/
  peat : s.peat.wf = true
  /-- Every issue share is legal (R387). -/
  shares : s.power.sharesLegal
  /-- The fuses have room for 64 increments and have taken no more (R364). -/
  svnSteps : s.flash.svnSteps ≤ 64
  /-- The ash log has room (R350). -/
  ash : s.flash.ashFits
  /-- Under SCAN_LATCH there is no identity key (R366). -/
  noKey : s.sec.scanLatch = true → s.sec.keyValid = false

/-- The same firmware, keys and fuses (R360-R364): what only the SEC block's own rows change. -/
def Flash.sameFirmware (f g : Flash) : Prop :=
  g.slotA = f.slotA ∧ g.slotB = f.slotB ∧ g.activeB = f.activeB ∧ g.csigKey = f.csigKey ∧ g.svnMin = f.svnMin ∧
    g.svnSteps = f.svnSteps

/-- The rows that change firmware, its keys or the fuses: those of the SEC block, and the write of its registers. -/
def instrWritesFirmware : Instr → Bool
  | .secFwBegin _ | .secFwLoad _ _ | .secFwActivate _ | .secFwEnrol _ | .fuseWriteDone | .registerWrite _ _ _ _ => true
  | _ => false

/-- The rows that change the power state: the power, brake, limit and temperature rows, POST's end, the two resets, and the write of
the PWR and THM registers. -/
def instrWritesPower : Instr → Bool
  | .pwrCtrlOn _ | .pwrCtrlStandby _ | .registerWrite _ _ _ _ | .pwrEnRise _ _ _ | .bootSelfCheckDone _ _ | .standbyCheckTick _
  | .postDone _ _ | .peatInitDone | .pwrEnFall | .undervoltage | .overvoltage | .overcurrent | .modResetAssert | .modResetDeassert
  | .brakeAssert | .brakeDwellEnd | .brakeShareTick _ | .powerLimitTick _ _ _ | .thermalSample _ => true
  | _ => false

/-- What the writing of event records changes, and nothing else does: event queues, interrupts pending and records held at the ports,
and what has been sent (R58, R69-R73). -/
structure State.Tells (s t : State) : Prop where
  rest : t = { s with parts := t.parts, ports := t.ports, ownerSub := t.ownerSub, out := t.out }
  parts : ∀ p, t.part p = { s.part p with sub := { (s.part p).sub with evq := (t.part p).sub.evq } }
  owner : t.ownerSub = { s.ownerSub with evq := t.ownerSub.evq }
  ports : ∀ i, t.port i = { s.port i with held := (t.port i).held, msix := (t.port i).msix }
  out : s.out <+: t.out

/-- A bank's unit stands at a command that it executes, no refresh is owed or in progress, it is neither poisoned nor dead, and more
commands follow (R104, R121, R122, R126, R129). -/
def State.unitAt (s : State) (k : BankId) (q : NbSeq) (u : NbUnit) (w : NbWord) (op : Nat) : Prop :=
  s.unitOf k = some (q, u) ∧ q.words[u.pc]? = some w ∧ w.op = op ∧ w.malformed = false ∧
    (s.bank (bankKey k.site k.die.val k.bank.val)).owed = 0 ∧ (s.bank (bankKey k.site k.die.val k.bank.val)).waited = 0 ∧
    (s.bank (bankKey k.site k.die.val k.bank.val)).busyTo ≤ s.uptime ∧ u.spoilt = false ∧ s.unitDead k = false ∧ u.pc + 1 < q.words.length

/-- A formed step of a partition, looked at once more in `u`, begins its HEAD in `t` (R193, R208): it holds the picks that are left, its runs
stand at the head program, and no formed step is left; none begins where no pick is left. -/
def State.StepBegun (u t : State) (p : Part) : Prop :=
  ((u.part p).formed = none → (t.part p).formed = none) ∧
  (∀ f slots, (u.part p).formed = some f → u.stepSlots p = some slots → ∃ st, (t.part p).step = some st ∧ st.picks = f.picks ∧
    st.formats = f.formats ∧ st.slots = slots ∧ st.headAt = u.now ∧ st.stallNs = 0 ∧ st.pageWrites = [] ∧
    (∀ r ∈ st.runs, r.prog = 0 ∧ r.pc = 0 ∧ r.started = false ∧ r.finished = false) ∧ (t.part p).formed = none ∧
    (t.part p).reqs = (u.part p).reqs ∧ t.sheet = u.sheet)

/-- A run of a model stands at a descriptor of an opcode: run `i` of the step (R168, R170). -/
def State.opAt (s : State) (p : Part) (handle op : Nat) (st : Step) (m : Model) (i : Nat) (run : ModelRun) (d : DescRec) : Prop :=
  (s.part p).step = some st ∧ (s.part p).model handle = some m ∧ (s.part p).runFor st m op = some (i, run, d)

/-- An operator has run in a state without an error or poison in memory: run `i` stands at what follows, the tokens of other runs are as they
were, each of its own is changed as `f` says, the step as `g` says; nothing is committed or stored, and other partitions are left alone. -/
def State.OpDone (s t : State) (p : Part) (st : Step) (m : Model) (i : Nat) (run : ModelRun) (g : Step → Prop) (f : Nat → Tok → Tok → Prop) :
    Prop :=
  ∃ st', (t.part p).step = some st' ∧ g st' ∧ st'.picks = st.picks ∧
    st'.runs = st.runs.set i ((s.part p).advance st m.pkg run) ∧
    st'.toks.filter (fun x => !run.has x) = st.toks.filter (fun x => !run.has x) ∧
    (st'.toks.filter run.has).length = (st.toks.filter run.has).length ∧
    (∀ k a b, (st.toks.filter run.has)[k]? = some a → (st'.toks.filter run.has)[k]? = some b → f k a b) ∧
    t.out = s.out ∧ (t.part p).reqs = (s.part p).reqs ∧ (t.part p).models = (s.part p).models ∧ (∀ j, j ≠ p → t.part j = s.part j)

/-- A token after a write of one slot in BF16: nothing else of it changes but, where `dirty`, its poison; FP32 values that `LOGITS` had left
in the slot are gone (R170). -/
def Tok.puts (a b : Tok) (slot : Nat) (v : List W16) (dirty : Bool) : Prop :=
  b = { a with slots := b.slots, logits := b.logits, poison := b.poison } ∧ lookupA b.slots slot = some v ∧ lookupA b.logits slot = none ∧
    (∀ j, j ≠ slot → lookupA b.slots j = lookupA a.slots j ∧ lookupA b.logits j = lookupA a.logits j) ∧
    (dirty = false → b.poison = a.poison)

/-- The commands that take effect at a step boundary, with their opcodes (R65, R67). -/
def boundaryRows (src : Src) : List (Instr × Nat) :=
  [(.reqOpen src, 0x01), (.reqAppend src, 0x02), (.reqClose src, 0x03), (.reqPark src, 0x04), (.modelUnload src, 0x11),
   (.pageReserve src, 0x20), (.indexInsert src, 0x30), (.indexRemove src, 0x31)]

/-- A command is the one that a partition has taken, and waits for nothing; no step runs (R65). -/
def State.turnOf (s : State) (p : Part) (c : Cmd) (opcode : Nat) : Prop :=
  (s.part p).taken = [c] ∧ c.opcode = opcode ∧ c.reading = false ∧ c.run = .idle ∧ (s.part p).step = none

/-- A command has completed, and nothing else has changed but what its completion record changes (R66). -/
def State.Completes (s t : State) (src : Src) (c : Cmd) : Prop :=
  State.Tells (s.modTaken src fun l => l.filter fun d => decide (d.id ≠ c.id)) t

end Sys2Proof.Machine
end

