-- ==== Sys2Proof/Certificates/Slice0/Obligations.lean ====
section
/-! DEFINITION. The statements about the model. -/

open Sys2Proof Sys2Proof.Machine

/-! ## The queue of commands -/

/-- A step takes the command at the front of the queue and runs it on the state with the queue's rest. -/
def Obligations.StepRunsFrontCommand : Prop :=
  ∀ (c : Instr) (rest : List Instr) (s : State), step { s with pending := c :: rest } = exec c { s with pending := rest }

/-- Every step answers a next state: no command stops the block. It takes exactly the front of the queue and takes back nothing that was
sent. With nothing waiting a step lets one nanosecond pass in a powered module (the model's choice, log entry 2): the module's own
oscillator counts it, and nothing else moves but ring time and the ring block. -/
def Obligations.EveryStepAnswers : Prop :=
  (∀ s : State, ∃ t, step s = .next t ∧ t.pending = s.pending.tail ∧ s.out <+: t.out) ∧
  (∀ s : State, s.pending = [] → s.power.phase ≠ .off →
      ∃ t, step s = .next t ∧ t = { s with uptime := s.uptime + 1, ringTime := t.ringTime, ring := t.ring } ∧
        (s.ring.adjust = 0 → t.ringTime = s.ringTime + 1))

/-! ## What every step keeps -/

/-- The invariant of `State.Inv` holds after reset. -/
def Obligations.ResetMeetsInvariant : Prop := State.reset.Inv

/-- Every step keeps the invariant: both memories in canonical form, legal issue shares (R387), at most 64 fuse increments (R364), room in
the ash log (R350), and no identity key under SCAN_LATCH (R366). -/
def Obligations.StepKeepsInvariant : Prop := ∀ s t : State, s.Inv → step s = .next t → t.Inv

/-- A command other than the SEC block's rows and the write of its registers leaves the firmware slots, the active slot, the
countersignature key and the fuses as they are, whatever the state: power loss, resets, test access and self-test among them. -/
def Obligations.OnlySecurityRowsChangeFirmware : Prop :=
  ∀ (c : Instr) (s t : State), instrWritesFirmware c = false → exec c s = .next t → s.flash.sameFirmware t.flash

/-- The fused minimum SVN never falls in any step, and no image below it verifies (R364). -/
def Obligations.FusedMinimumNeverFalls : Prop :=
  (∀ s t : State, step s = .next t → s.flash.svnMin ≤ t.flash.svnMin) ∧
  (∀ (f : Flash) (img : List Byte), imageSvn img < f.svnMin → f.verifies img = false)

/-- While the module is powered, SCAN_LATCH once set stays set in every step but those that end with the module OFF, and under it no step
leaves an identity key (R366). -/
def Obligations.ScanLatchHoldsUntilPowerOff : Prop :=
  ∀ s t : State, s.power.phase ≠ .off → s.sec.scanLatch = true → s.sec.keyValid = false → step s = .next t →
    (t.sec.scanLatch = true ∧ t.sec.keyValid = false) ∨ t.power.phase = .off

/-- No command but the power, brake, limit and temperature rows, POST's end, the two resets and the write of the PWR and THM registers
changes the power state: not its phase, its shares, its counters or its readings. (A frame fault may cost the management tile its repairs,
R340.) -/
def Obligations.OnlyPowerRowsChangePower : Prop :=
  ∀ (c : Instr) (s t : State), instrWritesPower c = false → exec c s = .next t →
    t.power = { s.power with mgmtLost := t.power.mgmtLost }

/-! ## Power, pins and temperatures (R320-R324, R377-R395) -/

/-- PWR_EN accepted high while OFF starts the power-up: the straps latch when their three samples agree and otherwise read 0 with UNSTABLE
set, the ring role follows the latched strap, every memory is empty, and flash keeps its contents (R322, R383, R385). Each loss of input
power leaves the module OFF with its cause in LAST_OFF; flash else, and what was sent, stay, and every memory, partition and link is gone
(R378, R385). -/
def Obligations.PowerComesAndGoes : Prop :=
  (∀ (s : State) (s1 s2 s3 : BitVec 4), s.power.phase = .off → s.pins.pwrEn = false →
      ∃ t, exec (.pwrEnRise s1 s2 s3) s = .next t ∧ t.power.phase = .boot ∧ t.pins.pwrEn = true ∧
        (s1 = s2 ∧ s2 = s3 → t.pins.straps = s1 ∧ t.pins.unstable = false) ∧
        (¬(s1 = s2 ∧ s2 = s3) → t.pins.straps = 0 ∧ t.pins.unstable = true) ∧
        t.ring.state = (if t.pins.straps.getLsbD 3 then .master else .acquire) ∧
        t.sheet = [] ∧ t.peat = [] ∧ t.flash = s.flash ∧ t.out = s.out ∧ t.sec.scanLatch = false) ∧
  (∀ s : State, s.power.phase ≠ .off → s.pins.pwrEn = true →
      ∀ x ∈ [(Instr.pwrEnFall, 1), (Instr.undervoltage, 2), (Instr.overvoltage, 3), (Instr.overcurrent, 4)],
        ∃ t, exec x.1 s = .next t ∧ t.power.phase = .off ∧ t.flash = { s.flash with lastOff := x.2 } ∧ t.out = s.out ∧
          t.sheet = [] ∧ t.peat = [] ∧ (∀ p, (t.part p).st = .absent) ∧ (∀ i, (t.port i).linkUp = false) ∧
          t.pins.pwrEn = (x.2 != 1))

/-- A reading at a trip threshold turns the module OFF with THERM_TRIP_N asserted; LAST_OFF is written or not, as the hold-up allows, and
nothing else of flash changes. No register moves a threshold, and THERM_TRIP_N is released when PWR_EN is accepted low. The power-limit
share falls by 1/16 while the 1 ms mean exceeds PWR_LIMIT, rises by 1/16 while it lies more than 5 % below, and stays between 1/16 and
16/16; the thermal share does the same by the throttle points; and the share in force is the least of the three (R387, R389). -/
def Obligations.SharesFallAndHeatTrips : Prop :=
  ((∀ (s : State) (r : Thermal), s.power.phase ≠ .off → 110 ≤ r.maxLogic ∨ 105 ≤ r.maxDram →
      ∃ t, exec (.thermalSample r) s = .next t ∧ t.power.phase = .off ∧ t.pins.thermTripN = false ∧
        (t.flash = { s.flash with lastOff := 5 } ∨ t.flash = s.flash)) ∧
    (∀ s : State, s.pins.pwrEn = true → ∃ t, exec .pwrEnFall s = .next t ∧ t.pins.thermTripN = true) ∧
    (∀ (s : State) (a b c : BitVec 4), ∃ t, exec (.pwrEnRise a b c) s = .next t ∧ t.pins.thermTripN = s.pins.thermTripN)) ∧
  ((∀ (s : State) (w c v : Nat), s.measures = true →
      ∃ t, exec (.powerLimitTick w c v) s = .next t ∧
        t.power.limitShare = (if s.limitWatts < w then max 1 (s.power.limitShare - 1)
          else if w * 100 < s.limitWatts * 95 then min 16 (s.power.limitShare + 1) else s.power.limitShare) ∧
        t.power.energyMj = s.power.energyMj + w ∧ t.power.watts = sat16 w ∧ t.power.current = sat16 c ∧ t.power.volts = sat16 v ∧
        t.power.thermalShare = s.power.thermalShare ∧ t.power.brakeShare = s.power.brakeShare ∧ t.power.phase = s.power.phase) ∧
    (∀ (s : State) (r : Thermal), s.measures = true → r.maxLogic < 110 → r.maxDram < 105 →
      ∃ t, exec (.thermalSample r) s = .next t ∧
        t.power.thermalShare = (if s.throttlePoint ≤ r.maxLogic ∨ 95 ≤ r.maxDram then max 1 (s.power.thermalShare - 1)
          else if r.maxLogic + 3 ≤ s.throttlePoint ∧ r.maxDram + 3 ≤ 95 then min 16 (s.power.thermalShare + 1)
          else s.power.thermalShare) ∧
        t.power.limitShare = s.power.limitShare ∧ t.power.brakeShare = s.power.brakeShare ∧ t.power.phase = s.power.phase ∧
        t.power.maxLogic = sat8 r.maxLogic ∧ t.power.inlet = sat8 r.inlet ∧ t.power.flow = sat16 r.flow) ∧
    (∀ s : State, s.duty ≤ s.power.limitShare ∧ s.duty ≤ s.power.thermalShare ∧ (s.power.phase = .brake → s.duty ≤ s.power.brakeShare) ∧
      (s.duty = s.power.limitShare ∨ s.duty = s.power.thermalShare ∨ s.duty = (if s.power.phase = .brake then s.power.brakeShare else 16))))

/-- A module reset drops links and partitions and keeps the latched straps, SCAN_LATCH, flash and the RING and PIN counters; its end
restarts the boot with ring time 0 (R386). -/
def Obligations.ModuleResetKeepsAndRestarts : Prop :=
  (∀ s : State, s.power.phase ≠ .off → s.pins.resetN = true →
    ∃ t, exec .modResetAssert s = .next t ∧ t.power.phase = .reset ∧ t.pins.resetN = false ∧ t.pins.pwrGood = false ∧
      t.pins.straps = s.pins.straps ∧ t.sec.scanLatch = s.sec.scanLatch ∧ t.sec.keyValid = false ∧ t.flash = s.flash ∧
      t.pins.brakeCount = s.pins.brakeCount ∧ t.pins.brakeChatter = s.pins.brakeChatter ∧ t.ring.good = s.ring.good ∧
      t.ring.bad = s.ring.bad ∧ t.ring.missing = s.ring.missing ∧ t.ring.steps = s.ring.steps ∧
      t.ring.lockLoss = s.ring.lockLoss ∧ (∀ p, (t.part p).st = .absent ∧ (t.part p).reqs = []) ∧
      (∀ i, (t.port i).linkUp = false)) ∧
  (∀ s : State, s.power.phase = .reset → s.pins.resetN = false →
    ∃ t, exec .modResetDeassert s = .next t ∧ t.power.phase = .boot ∧ t.pins.resetN = true ∧ t.ringTime = 0 ∧
      t.flash = s.flash ∧ t.sec.scanLatch = s.sec.scanLatch)

/-- The end of the boot checks: with no corner passed, or no slot verified, nothing boots and ALERT_N stays asserted; else the first corner
that passed is the management tile, and the module goes on where the checks of R382 pass and stays in STANDBY with their cause where one
fails (R21, R354, R361, R382). In STANDBY for a hold cause the checks repeat, and power-up goes on when they pass; PWR_CTRL.ON goes on
whatever they show (R382). -/
def Obligations.BootEndsOrHolds : Prop :=
  (∀ (s : State) (passed : BitVec 4) (env : BootEnv), s.power.phase = .boot →
      ∃ t, exec (.bootSelfCheckDone passed env) s = .next t ∧
        (passed = 0 ∨ s.flash.bootSlot (s.pins.straps.getLsbD 2) = none → t.power.phase = .dead ∧ t.pins.alertN = false) ∧
        (∀ slot fallback m, passed.getLsbD m.val = true → (∀ i : Port, i < m → passed.getLsbD i.val = false) →
          s.flash.bootSlot (s.pins.straps.getLsbD 2) = some (slot, fallback) →
            t.power.mgmt = some m ∧ t.power.lastOff = s.flash.lastOff ∧
            (holdCauseOf env = 0 → t.power.phase = .init) ∧
            (holdCauseOf env ≠ 0 → t.power.phase = .standby ∧ t.power.holdCause = holdCauseOf env ∧
              t.sec.runningB = slot ∧ t.sec.bootFallback = fallback ∧ t.sec.keyValid = !s.sec.scanLatch ∧
              t.sec.runningHdr = (s.flash.fwSlot slot).take 512))) ∧
  ((∀ (s : State) (env : BootEnv), s.power.phase = .standby → s.power.holdCause ≠ 0 →
      ∃ t, exec (.standbyCheckTick env) s = .next t ∧
        (holdCauseOf env = 0 → t.power.phase = .init ∧ t.power.holdCause = 0) ∧
        (holdCauseOf env ≠ 0 → t = { s with power := { s.power with holdCause := holdCauseOf env } })) ∧
    (∀ (s : State) (port : Port), s.power.phase = .standby → s.reaches port = true →
      ∃ t, exec (.pwrCtrlOn port) s = .next t ∧ t.power.phase = .init ∧ t.power.holdCause = 0))

/-- PWR_CTRL.STANDBY, with every partition STOPPED or ABSENT: the module is in STANDBY, every partition ABSENT with no request left, and
sheet and peat memory lost (R381). The last of POST and peat initialisation to end brings the module ON, or into BRAKE where the brake is
on, and asserts PWR_GOOD; the first only waits for the other (R43, R383, R384). -/
def Obligations.StandbyAndOn : Prop :=
  (∀ (s : State) (port : Port), s.owns port = true → (∀ p, (s.part p).st = .stopped ∨ (s.part p).st = .absent) →
      ∃ t, exec (.pwrCtrlStandby port) s = .next t ∧ t.power.phase = .standby ∧ t.pins.pwrGood = false ∧
        (∀ p, (t.part p).st = .absent ∧ (t.part p).reqs = [] ∧ (t.part p).models = [] ∧ (t.part p).fence = none) ∧
        t.sheet = [] ∧ t.peat = [] ∧ t.flash = s.flash) ∧
  ((∀ s : State, s.power.phase = .init →
      ∃ t, exec .peatInitDone s = .next t ∧
        (s.power.postDone = false → t = { s with power := { s.power with peatDone := true } }) ∧
        (s.power.postDone = true → t.power.phase = (if s.pins.braking then .brake else .on) ∧ t.pins.pwrGood = true)) ∧
    (∀ (s : State) (skipped : List Site), s.power.phase = .init → s.power.postDone = false →
      ∃ t, exec (.postDone [] skipped) s = .next t ∧ t.power.postDone = true ∧
        (s.power.peatDone = false → t.power.phase = .init ∧ t.bist.postRan = true ∧
          t.bist.postSkipped = skipped.eraseDups.length) ∧
        (s.power.peatDone = true → t.power.phase = (if s.pins.braking then .brake else .on) ∧ t.pins.pwrGood = true)) ∧
    (∀ (s : State) (findings : List (Site × Finding)) (skipped : List Site), s.power.phase = .init → s.power.postDone = false →
      ∃ t, exec (.postDone findings skipped) s = .next t ∧ t.power.postDone = true))

/-- BRAKE_N accepted low is counted and, unless PINS only reports it, puts an ON module into BRAKE at a share of 8/16; accepted high it
starts the dwell and changes nothing else (R321, R387). The dwell's end releases the brake: the share is 16/16 at once and the module is ON
again; a held assertion is told once, at 1 s; in BRAKE the share falls by 1/16 every 10 µs above 9.6 kW, never below 1/16 (R321, R387). -/
def Obligations.BrakeActs : Prop :=
  ((∀ s : State, s.pinsLive = true → s.pins.brakeN = true →
      ∃ t, exec .brakeAssert s = .next t ∧ t.pins.brakeN = false ∧ t.pins.brakeCount = satAdd s.pins.brakeCount 1 ∧
        t.pins.assertedAt = some s.uptime ∧
        (s.brakeReportOnly = true → t.power = s.power ∧ t.pins.braking = s.pins.braking) ∧
        (s.brakeReportOnly = false → t.pins.braking = true ∧
          (s.power.phase = .on → t.power.phase = .brake ∧ t.power.brakeShare = 8) ∧ (s.power.phase ≠ .on → t.power = s.power))) ∧
    (∀ s : State, s.pinsLive = true → s.pins.brakeN = false →
      exec .brakeDeassert s = .next { s with pins :=
        { s.pins with brakeN := true, assertedAt := none, deassertedAt := some s.uptime } })) ∧
  ((∀ (s : State) (at_ : Nat), s.pins.deassertedAt = some at_ → s.pinsLive = true → s.pins.brakeN = true → s.pins.braking = true →
      ∃ t, exec .brakeDwellEnd s = .next t ∧ t.pins.braking = false ∧ at_ + 1000000 ≤ t.uptime ∧
        (s.power.phase = .brake → t.power.phase = .on ∧ t.power.brakeShare = 16) ∧ (s.power.phase ≠ .brake → t.power = s.power)) ∧
    (∀ (s : State) (at_ : Nat), s.pins.assertedAt = some at_ → s.pinsLive = true → s.pins.brakeN = false → s.pins.heldTold = false →
      ∃ t, exec .brakeHeld s = .next t ∧ t.pins.heldTold = true ∧ at_ + 1000000000 ≤ t.uptime ∧ t.power = s.power) ∧
    (∀ (s : State) (watts : Nat), s.power.phase = .brake →
      ∃ t, exec (.brakeShareTick watts) s = .next t ∧
        t.power.brakeShare = (if 9600 < watts then max 1 (s.power.brakeShare - 1) else s.power.brakeShare) ∧
        t.power.limitShare = s.power.limitShare ∧ t.power.thermalShare = s.power.thermalShare ∧ t.power.phase = .brake))

/-- A strap that changes after sampling sets CHANGED and leaves the latched straps; ALERT_N releases when its minimum has passed and nothing
holds it; an SMBus reading is answered with nothing changed; and an SMBus clock timeout changes nothing (R320, R322, R395). Test access
entry clears the key, every session and every IDE key, sets SCAN_LATCH, removes every partition and zeroises every memory; the ash log and
flash stay. Its end lets the loaded instruction take effect (R365). -/
def Obligations.PinsAndTestAccess : Prop :=
  ((∀ (s : State) (levels : BitVec 4), s.power.phase ≠ .off → levels ≠ s.pins.strapsNow →
      ∃ t, exec (.strapChanged levels) s = .next t ∧ t.pins.changed = true ∧ t.pins.strapsNow = levels ∧
        t.pins.straps = s.pins.straps ∧ t.pins.strapTold = true ∧
        (s.pins.strapTold = true → t = { s with pins := { s.pins with strapsNow := levels, changed := true } })) ∧
    (∀ s : State, s.power.phase ≠ .off → s.pins.alertN = false → s.alertHeld = false →
      ∃ t, exec .alertHoldExpiry s = .next t ∧ t.pins.alertN = true ∧ s.pins.alertUntil ≤ t.uptime ∧ t.power = s.power) ∧
    (∀ (s : State) (n : Nat), s.power.mgmt.isSome = true → s.power.mgmtLost = false → n < 19 →
      exec (.smbusRequest n) s = .next { s with out := s.out ++ [.smbus { sensor := n, value := s.sensor n }] }) ∧
    (∀ s : State, exec .smbusClkTimeout s = .next s)) ∧
  ((∀ (s : State) (instruction : W64), s.power.phase ≠ .off →
      ∃ t, exec (.testAccessEntry instruction) s = .next t ∧ t.sec.scanLatch = true ∧ t.sec.keyValid = false ∧
        t.sec.clearing = some instruction ∧ t.sheet = [] ∧ t.peat = [] ∧ t.flash = s.flash ∧ t.seqs = [] ∧ t.scratch = [] ∧
        (∀ p, (t.part p).st = .absent ∧ (t.part p).reqs = [] ∧ (t.part p).models = []) ∧
        (∀ i, (t.port i).spdm.sessions = [] ∧ (t.port i).ide.keys = [])) ∧
    (∀ s : State, exec .testAccessClearDone s = .next { s with sec := { s.sec with clearing := none } }))

/-! ## Firmware, keys, SPDM (R355-R366) -/

/-- An update: BEGIN empties the inactive slot and starts its erasure; LOAD appends four bytes to it, byte 0 first, up to the slot's end,
and counts them; CHECK starts the check and its end gives RESULT, VERIFIED exactly where the image verifies; ACTIVATE makes the slot that
the check verified the active one (R361, R362, R364). ENROL stores the key loaded at bytes 0-95 where none is enrolled, and where one is,
only under its signature at bytes 96-191 over SEC_NONCE and the new key; a key of zeros removes the requirement; a rejected ENROL leaves
flash alone and gives CSIG_REJECTED; and each ENROL draws 48 fresh bytes for SEC_NONCE (R363). COMMIT_SVN and the end of its fuse write
raise the fused minimum to the running image's SVN, in one of 64 increments; an image of a lower SVN verifies no longer (R364). -/
def Obligations.FirmwareAndKeysChange : Prop :=
  ((∀ (s : State) (port : Port), s.reaches port = true → s.sec.busy = .none ∨ s.sec.busy = .erase →
      ∃ t, exec (.secFwBegin port) s = .next t ∧ t.flash.fwSlot (!s.flash.activeB) = [] ∧
        t.flash.fwSlot s.flash.activeB = s.flash.fwSlot s.flash.activeB ∧
        t.sec = { s.sec with busy := .erase, result := 0, verified := none, bytes := 0, loading := true } ∧
        t = { s with flash := t.flash, sec := t.sec }) ∧
    (∀ s : State, s.sec.busy = .erase → exec .fwEraseDone s = .next { s with sec := { s.sec with busy := .none } }) ∧
    (∀ (s : State) (port : Port) (v : W32), s.reaches port = true → s.sec.loading = true →
      ∃ t, exec (.secFwLoad port v) s = .next t ∧ t.sec.bytes = s.sec.bytes + 4 ∧
        t.flash.fwSlot (!s.flash.activeB) = (s.flash.fwSlot (!s.flash.activeB) ++
          [v.extractLsb' 0 8, v.extractLsb' 8 8, v.extractLsb' 16 8, v.extractLsb' 24 8]).take slotBytes ∧
        t.flash.fwSlot s.flash.activeB = s.flash.fwSlot s.flash.activeB ∧ t.flash.activeB = s.flash.activeB ∧
        t = { s with flash := t.flash, sec := t.sec }) ∧
    (∀ (s : State) (port : Port), s.reaches port = true → s.sec.busy = .none ∨ s.sec.busy = .erase →
      exec (.secFwCheck port) s = .next { s with sec := { s.sec with busy := .check } }) ∧
    (∀ s : State, s.sec.busy = .check →
      ∃ t, exec .fwLoadDone s = .next t ∧ State.Tells { s with sec := t.sec, fresh := s.fresh + 1 } t ∧
        t.sec = { s.sec with busy := .none, result := t.sec.result, verified := t.sec.verified } ∧
        (t.sec.result = 1 ↔ s.flash.verifies (s.flash.fwSlot (!s.flash.activeB)) = true) ∧
        (t.sec.result = 2 ↔ imageFormed (s.flash.fwSlot (!s.flash.activeB)) = false) ∧
        t.sec.verified = (if s.flash.verifies (s.flash.fwSlot (!s.flash.activeB)) then some (!s.flash.activeB) else none)) ∧
    (∀ (s : State) (port : Port) (b : Bool), s.reaches port = true → s.sec.result = 1 → s.sec.verified = some b →
      exec (.secFwActivate port) s = .next { s with flash := { s.flash with activeB := b }, sec := { s.sec with loading := false } })) ∧
  (∀ (s : State) (port : Port), s.reaches port = true →
      ∃ t, exec (.secFwEnrol port) s = .next t ∧
        t = { s with flash := t.flash, sec := { s.sec with nonce := (s.drawBytes 48).1, result := t.sec.result }, fresh := s.fresh + 48 } ∧
        (s.flash.csigKey = none ∨ (∃ k, s.flash.csigKey = some k ∧
            Config.ecdsaVerify k (s.sec.csig 96 96) (Config.sha384 (s.sec.nonce ++ s.sec.csig 0 96)) = true) →
          t.flash = { s.flash with csigKey := t.flash.csigKey } ∧ t.sec.result = s.sec.result ∧
            t.flash.csigKey = (if (s.sec.csig 0 96).all (· == 0) then none else some (s.sec.csig 0 96))) ∧
        (∀ k, s.flash.csigKey = some k →
            Config.ecdsaVerify k (s.sec.csig 96 96) (Config.sha384 (s.sec.nonce ++ s.sec.csig 0 96)) = false →
          t.flash = s.flash ∧ t.sec.result = 6)) ∧
  ((∀ (s : State) (port : Port), s.reaches port = true → s.sec.busy = .none →
      exec (.secFwCommitSvn port) s = .next { s with sec := { s.sec with busy := .fuse } }) ∧
    (∀ s : State, s.sec.busy = .fuse →
      ∃ t, exec .fuseWriteDone s = .next t ∧ t = { s with flash := t.flash, sec := { s.sec with busy := .none } } ∧
        (s.flash.svnMin < imageSvn s.sec.runningHdr → s.flash.svnSteps < 64 →
          t.flash = { s.flash with svnMin := imageSvn s.sec.runningHdr, svnSteps := s.flash.svnSteps + 1 } ∧
          ∀ img : List Byte, imageSvn img < imageSvn s.sec.runningHdr → t.flash.verifies img = false) ∧
        (imageSvn s.sec.runningHdr ≤ s.flash.svnMin ∨ 64 ≤ s.flash.svnSteps → t.flash = s.flash)))

/-- The connection's first requests, and what needs no key: GET_VERSION starts the connection anew and ends its sessions (presumed, log
entry 37); NEGOTIATE_ALGORITHMS completes it; digests and certificates are those of the one chain, in slot 0 (R355, R356). What signs with
the identity key is answered while the key is valid, and refused after SCAN_LATCH has cleared it: CHALLENGE and KEY_EXCHANGE (two sessions
at most). Measurements are answered without SCAN_LATCH, block by block, and under it refused (R356, R357, R366). -/
def Obligations.SpdmConnectionAndKeys : Prop :=
  (∀ (s : State) (port : Port), s.answers port = true →
      (exec (.getVersion port) s = .next { s.modSpdm port (fun x => { x with versioned := true, negotiated := false, sessions := [] })
        with out := s.out ++ [.spdm port .version] }) ∧
      ((s.port port).spdm.versioned = true →
        exec (.getCapabilities port) s = .next { s with out := s.out ++ [.spdm port .capabilities] } ∧
        exec (.negotiateAlgorithms port) s = .next { s.modSpdm port (fun x => { x with negotiated := true })
          with out := s.out ++ [.spdm port .algorithms] }) ∧
      ((s.port port).spdm.negotiated = true →
        exec (.getDigests port) s = .next { s with out := s.out ++ [.spdm port (.digests [Config.sha384 Config.certChain])] } ∧
        ∀ slot o n : Nat, exec (.getCertificate port slot o n) s = .next { s with out := s.out ++
          [.spdm port (if slot = 0 then .certificate ((Config.certChain.drop o).take n) else .errorOther)] })) ∧
  (∀ (s : State) (port : Port), s.answers port = true → (s.port port).spdm.negotiated = true →
      (∀ nonce : List Byte, exec (.challenge port nonce) s = .next { s with out := s.out ++ [.spdm port (if s.sec.keyValid then
        .challengeAuth (Config.identitySign (Config.sha384 Config.certChain ++ nonce)) else .errorUnspecified)] }) ∧
      (∀ data : List Byte, s.sec.keyValid = true → (s.port port).spdm.sessions.length < 2 →
        exec (.keyExchange port data) s = .next { s.modSpdm port (fun x => { x with
            sessions := x.sessions ++ [{ id := x.nextSession }], nextSession := x.nextSession + 1 })
          with out := s.out ++ [.spdm port (.keyExchangeRsp (s.port port).spdm.nextSession (Config.identitySign data))] }) ∧
      (∀ data : List Byte, s.sec.keyValid = false ∨ 2 ≤ (s.port port).spdm.sessions.length →
        ∃ r, exec (.keyExchange port data) s = .next { s with out := s.out ++ [.spdm port r] } ∧ (r = .errorUnspecified ∨ r = .errorOther)) ∧
      (∀ (i : Nat) (sign : Bool) (nonce : List Byte), s.sec.scanLatch = true →
        exec (.getMeasurements port i sign nonce) s = .next { s with out := s.out ++ [.spdm port .errorUnspecified] }) ∧
      (∀ (i : Nat) (nonce : List Byte), s.sec.scanLatch = false → i ∈ [1, 2, 3, 4] →
        ∃ x, exec (.getMeasurements port i false nonce) s = .next { s with out := s.out ++ [.spdm port (.measurements [(i, x)] none)] } ∧
          (i = 1 → x = Config.sha384 Config.bootRom) ∧ (i = 2 → x = Config.sha384 (s.sec.runningHdr.take 320)) ∧
          (i = 3 → x = s.sec.chain3) ∧ (i = 4 → x = Config.sha384 s.flash.ashBytes)))

/-- Sessions: FINISH with a good proof establishes the open one, and another leaves it open (the model's choice, log entry 37); the requests
within it are answered only once it is established, END_SESSION ends it, KEY_UPDATE counts its keys, and IDE_KM sets one key of the port's
link and clears Insecure (presumed, log entry 37; R356, R359). -/
def Obligations.SpdmSessionRows : Prop :=
  (∀ (s : State) (port : Port) (id : Nat) (proof : List Byte), s.answers port = true → (s.port port).spdm.negotiated = true →
    (s.port port).spdm.sessions = [{ id := id }] →
    exec (.finish port id proof) s = .next (if Config.finishOk id proof then
      { s.modSpdm port (fun x => { x with sessions := [{ id := id, established := true }] })
        with out := s.out ++ [.spdm port (.finishRsp id)] }
      else { s with out := s.out ++ [.spdm port .errorOther] })) ∧
  (∀ (s : State) (port : Port) (id : Nat), s.answers port = true → (s.port port).spdm.negotiated = true →
    (∃ x ∈ (s.port port).spdm.sessions, x.id = id ∧ x.established = true) →
      exec (.heartbeat port id) s = .next { s with out := s.out ++ [.spdm port (.heartbeatAck id)] } ∧
      (exec (.keyUpdate port id) s = .next { s.modSpdm port (fun x => { x with
          sessions := x.sessions.map fun y => if y.id = id then { y with keyGen := y.keyGen + 1 } else y })
        with out := s.out ++ [.spdm port (.keyUpdateAck id)] }) ∧
      (∃ t, exec (.endSession port id) s = .next t ∧ t.out = s.out ++ [.spdm port (.endSessionAck id)] ∧
        t = { s.modSpdm port (fun x => { x with sessions := (t.port port).spdm.sessions }) with out := t.out } ∧
        (∀ x ∈ (t.port port).spdm.sessions, x.id ≠ id ∧ x ∈ (s.port port).spdm.sessions)) ∧
      (∀ (set dir : Fin 2) (key : List Byte), ∃ t, exec (.ideKm port id set dir key) s = .next t ∧
        t = { s.modPort port (fun x => { x with ide := (t.port port).ide }) with out := s.out ++ [.spdm port (.ideKmAck id)] } ∧
        (t.port port).ide.insecure = false ∧
        lookupA (t.port port).ide.keys (set.val, dir.val) = some key ∧
        ∀ k, k ≠ (set.val, dir.val) → lookupA (t.port port).ide.keys k = lookupA (s.port port).ide.keys k)) ∧
  (∀ (s : State) (port : Port) (id : Nat) (set dir : Fin 2) (key : List Byte), s.answers port = true →
    (s.port port).spdm.negotiated = true → (∀ x ∈ (s.port port).spdm.sessions, x.id = id → x.established = false) →
      ∀ c ∈ [Instr.heartbeat port id, .keyUpdate port id, .endSession port id, .ideKm port id set dir key],
        exec c s = .next { s with out := s.out ++ [.spdm port .errorOther] })

/-! ## Queues and events (R60-R76) -/

/-- A doorbell sets its queue's tail while ENABLE is set and the index lies in the queue, sets BAD_DOORBELL where it does not, and does
nothing while ENABLE is clear; a write of CMDQ_CFG stores its fields, and ENABLE rising sets head and tail to 0 (R61, R63, R64). A fetch
consumes the next entry of the queue whose turn it is: from a RUNNING partition any, from a STOPPED one only a PRT_START; one that fails
sets ERROR and writes CMDQ_ERROR; and an opcode that is none completes BAD_OPCODE (R47, R64, R65, R67). -/
def Obligations.CommandsReachTheModule : Prop :=
  ((∀ (s : State) (port : Port) (src : Src) (q : Fin 64) (region : Nat) (v : W32), s.doorbellSrc port region = some src →
      s.drives port src = true →
        exec (.doorbell port (region * 0x40000 + q.val * 0x1000) v) s = .next (s.modCmdq src q fun x =>
          if x.cfg.getLsbD 31 = false then x
          else if (v.extractLsb' 0 12).toNat < x.size then { x with tail := (v.extractLsb' 0 12).toNat }
          else { x with badDoorbell := true })) ∧
    (∀ (s : State) (port : Port) (src : Src) (q : Fin 64) (v : W32), s.drives port src = true →
      ∃ t, exec (.cmdqCfgWrite port src q v) s = .next t ∧
        ((t.sub src).cmdq.get q).cfg = v &&& 0x800F0F0F ∧
        (v.getLsbD 31 = true → ((s.sub src).cmdq.get q).cfg.getLsbD 31 = false →
          ((t.sub src).cmdq.get q).head = 0 ∧ ((t.sub src).cmdq.get q).tail = 0) ∧
        (v.getLsbD 31 = false ∨ ((s.sub src).cmdq.get q).cfg.getLsbD 31 = true →
          ((t.sub src).cmdq.get q).head = ((s.sub src).cmdq.get q).head ∧
          ((t.sub src).cmdq.get q).tail = ((s.sub src).cmdq.get q).tail) ∧
        (∀ i, i ≠ q → (t.sub src).cmdq.get i = (s.sub src).cmdq.get i) ∧ (t.sub src).evq = (s.sub src).evq ∧ t.out = s.out)) ∧
  ((∀ (s : State) (p : Part) (bytes : List Byte) (q : Fin 64) (left : Nat) (every : Bool), s.fetches (.part p) = some every →
      (s.part p).sub.nextTurn = some (q, left) → bytes.length = 64 → every = true ∨ bytes.head? = some 0x41 →
        ∃ t, exec (.commandFetch (.part p) (.ok bytes)) s = .next t ∧
          (t.part p).taken = (s.part p).taken ++ [cmdOf (s.part p).nextCmd q bytes] ∧
          ((t.part p).sub.cmdq.get q).head = (((s.part p).sub.cmdq.get q).head + 1) % ((s.part p).sub.cmdq.get q).size ∧
          t = s.modPart p fun x => { x with sub := (t.part p).sub, taken := (t.part p).taken, nextCmd := (s.part p).nextCmd + 1 }) ∧
    (∀ (s : State) (bytes : List Byte) (q : Fin 64) (left : Nat), s.fetches .owner = some true → s.ownerSub.nextTurn = some (q, left) →
      bytes.length = 64 →
        ∃ t, exec (.commandFetch .owner (.ok bytes)) s = .next t ∧ t.ownerTaken = s.ownerTaken ++ [cmdOf s.ownerNextCmd q bytes] ∧
          t = { s with ownerSub := t.ownerSub, ownerTaken := t.ownerTaken, ownerNextCmd := s.ownerNextCmd + 1 }) ∧
    (∀ (s : State) (src : Src) (q : Fin 64) (left : Nat) (every : Bool), s.fetches src = some every →
      (s.sub src).nextTurn = some (q, left) → ∀ r ∈ [ReadResult.timeout, .poisoned, .unsuccessful],
        ∃ t, exec (.commandFetch src r) s = .next t ∧ ((t.sub src).cmdq.get q).error = true ∧
          ((t.sub src).cmdq.get q).head = ((s.sub src).cmdq.get q).head ∧ t.taken src = s.taken src) ∧
    (∀ (s : State) (src : Src) (c : Cmd), (s.taken src).find? (fun c => !knownOps.contains c.opcode && c.eligible (s.taken src)) = some c →
      ∃ t, exec (.badOpcode src) s = .next t ∧ t.taken src = (s.taken src).filter (fun d => decide (d.id ≠ c.id)) ∧
        State.Tells (s.modTaken src fun l => l.filter fun d => decide (d.id ≠ c.id)) t))

/-- The phase of an event queue is 1 after ENABLE, stays for the slots of one pass, and inverts when the tail wraps; each record written
carries it (R70). A record goes into the slot at the tail. An event record is 32 bytes and an output record 8, little-endian, their fields
where the tables of R69 and R74 put them, in one write each to the slot's own address (R3, R69, R74). -/
def Obligations.PhaseInvertsOnWrap : Prop :=
  ((∀ (s : State) (port : Port) (src : Src) (e : Fin 16) (v : W32), s.drives port src = true → v.getLsbD 31 = true →
      ((s.sub src).evq.get e).cfg.getLsbD 31 = false →
        ∃ t, exec (.evqCfgWrite port src e v) s = .next t ∧ ((t.sub src).evq.get e).phase = true ∧
          ((t.sub src).evq.get e).head = 0 ∧ ((t.sub src).evq.get e).tail = 0 ∧ ((t.sub src).evq.get e).dropped = 0 ∧
          (∀ i, i ≠ e → (t.sub src).evq.get i = (s.sub src).evq.get i) ∧ t.out = s.out) ∧
    (∀ (s : State) (port : Port) (src : Src) (e : Fin 16) (r : EventRec), s.srcPort src = some port → s.takesRecords port = true →
      let q := (s.sub src).evq.get e
      let q' := ((s.putRecord src e r).sub src).evq.get e
      (s.out ++ [.event port src e.val q.tail q.slotAddr q.phase r]) <+: (s.putRecord src e r).out ∧
        (q.tail + 1 < q.size → q'.tail = q.tail + 1 ∧ q'.phase = q.phase) ∧
        (q.size ≤ q.tail + 1 → q'.tail = 0 ∧ q'.phase = !q.phase))) ∧
  ((∀ (r : EventRec) (phase : Bool), (r.bytes phase).length = 32 ∧
      field (r.bytes phase) 0 2 = r.code % 2 ^ 15 + (if phase then 2 ^ 15 else 0) ∧
      field (r.bytes phase) 2 1 = r.severity % 16 + r.code / 2 ^ 12 % 8 * 16 ∧ field (r.bytes phase) 3 1 = r.partition % 256 ∧
      field (r.bytes phase) 4 4 = r.request.toNat ∧ field (r.bytes phase) 8 8 = r.time % 2 ^ 64 ∧
      field (r.bytes phase) 16 8 = r.a.toNat ∧ field (r.bytes phase) 24 8 = r.b.toNat) ∧
    (∀ r : OutputRec, r.bytes.length = 8 ∧ field r.bytes 0 4 = r.token.toNat ∧ field r.bytes 4 2 = r.logprob.toNat ∧
      field r.bytes 7 1 = r.step.toNat ∧ field r.bytes 6 1 = (if r.phase then 128 else 0) + (if r.isEnd then 1 else 0) +
        (if r.deadlineMissed then 2 else 0) + (if r.drafted then 4 else 0)) ∧
    (∀ (s : State) (port : Port) (src : Src) (e : Fin 16) (r : EventRec), s.srcPort src = some port → s.takesRecords port = true →
      let q := (s.sub src).evq.get e
      ∃ o, (s.out ++ [o]) <+: (s.putRecord src e r).out ∧ o.hostWrite =
        some (port, q.baseLo.toNat / 4096 * 4096 + q.baseHi.toNat * 2 ^ 32 + 32 * q.tail, r.bytes q.phase)))

/-- One slot of every event queue is kept for the overflow: an event finds an enabled queue with fewer than 2^ORDER - 1 records unconsumed
and is written; it finds one with more and is dropped and counted, the record EVQ_OVERFLOW in its place; and a queue that is not enabled
only counts it (R71, R72). A write of EVQ_HEAD within the queue consumes, and ends an overflow, told by EVENTS_DROPPED, once two slots are
free; TIME after the oldest pending record, to which the clock is brought (the model's choice, log entry 6), one interrupt tells every
pending record; unmasking a pending vector sends its message (R72, R73, R405). -/
def Obligations.EventQueuesFillAndDrain : Prop :=
  (∀ (s : State) (port : Port) (src : Src) (e : Fin 16) (r : EventRec), s.srcPort src = some port → s.takesRecords port = true →
      let q := (s.sub src).evq.get e
      let t := s.toEvq src e r
      let q' := (t.sub src).evq.get e
      (q.cfg.getLsbD 31 = false → q' = { q with dropped := satAdd q.dropped 1 } ∧ t.out = s.out) ∧
      (q.cfg.getLsbD 31 = true → q.overflow = none → q.used + 1 < q.size → q'.overflow = none ∧ q'.dropped = q.dropped ∧
        (s.out ++ [.event port src e.val q.tail q.slotAddr q.phase r]) <+: t.out) ∧
      (q.cfg.getLsbD 31 = true → q.overflow = none → q.size ≤ q.used + 1 → q'.overflow = some (1, s.now) ∧
        q'.dropped = satAdd q.dropped 1 ∧
        (s.out ++ [.event port src e.val q.tail q.slotAddr q.phase (s.ownRecord src 0x7023 e.val r.code)]) <+: t.out) ∧
      (∀ n m, q.cfg.getLsbD 31 = true → q.overflow = some (n, m) → q' = { q with
        dropped := satAdd q.dropped 1, overflow := some (n + 1, m) } ∧ t.out = s.out)) ∧
  ((∀ (s : State) (port p : Port) (src : Src) (e : Fin 16) (v : W32), s.drives port src = true →
      (v.extractLsb' 0 16).toNat < ((s.sub src).evq.get e).size → s.srcPort src = some p → s.takesRecords p = true →
        ∃ t, exec (.evqHeadWrite port src e v) s = .next t ∧ ((t.sub src).evq.get e).head = (v.extractLsb' 0 16).toNat ∧
          (((s.sub src).evq.get e).overflow = none → t.out = s.out) ∧
          (∀ n m, ((s.sub src).evq.get e).overflow = some (n, m) →
            (let u := { (s.sub src).evq.get e with head := (v.extractLsb' 0 16).toNat, full := false }
             u.used + 2 ≤ u.size) →
              ((t.sub src).evq.get e).overflow = none ∧
              (s.out ++ [.event p src e.val ((s.sub src).evq.get e).tail ((s.sub src).evq.get e).slotAddr ((s.sub src).evq.get e).phase
                (s.ownRecord src 0x7024 n m)]) <+: t.out)) ∧
    (∀ (s : State) (port : Port) (src : Src) (e : Fin 16), s.srcPort src = some port → s.takesRecords port = true →
      ((s.sub src).evq.get e).irq.getLsbD 31 = true → 0 < ((s.sub src).evq.get e).pending →
        ((s.port port).msix.get ((s.sub src).evq.get e).vector).ctrl.getLsbD 0 = false →
          exec (.evqCoalesceTimeout src e) s = .next { (s.passTo (((s.sub src).evq.get e).oldest +
              1000 * bitsOf ((s.sub src).evq.get e).irq 29 16)).modEvq src e (fun q => { q with pending := 0 }) with
            out := s.out ++ [.msix port ((s.sub src).evq.get e).vector.val] }) ∧
    (∀ (s : State) (port : Port) (v : Fin 256), s.hasMsix port = true → s.takesRecords port = true →
      ∃ t, exec (.msixUnmask port v) s = .next t ∧ ((t.port port).msix.get v).ctrl = 0 ∧ ((t.port port).msix.get v).pending = false ∧
        t.out = (if ((s.port port).msix.get v).pending then s.out ++ [.msix port v.val] else s.out) ∧
        (∀ u, u ≠ v → (t.port port).msix.get u = (s.port port).msix.get u) ∧ (∀ i, i ≠ port → t.port i = s.port i)))

/-! ## Links and functions (R53-R59, R356, R359) -/

/-- PERST#, a hot reset, a link disable and a lost link, on a port with no read outstanding: the link is down, its SPDM sessions and IDE
keys are gone, its partition stops where it was RUNNING, its queued page fetches cancelled, and no other port or partition is touched (R58,
R234, R356, R359). A failed integrity check of a link that has a key for that direction takes the port down as PERST# does and leaves its
stream Insecure (R359). A link comes up at the width, one of those a port supports, and the speed to which it has trained, with PERST#
released and nothing held from before; an L0p request for 8 or 4 lanes of a wider link is granted and answered (R56, R58). An FLR of a
served port: a RUNNING or STOPPING partition stops first and is reset when it has stopped; one that is STOPPED or QUARANTINED is reset at
once: no request, no command, its queue registers at reset; and an owner port without a partition resets the owner's queues (R53, R410). -/
def Obligations.LinksComeAndGo : Prop :=
  (∀ (s : State) (port : Port), s.power.phase ≠ .off → (s.port port).linkUp = true → (s.port port).perst = false →
      (∀ r ∈ s.reads, r.port ≠ port) →
      ∀ c ∈ [Instr.perstAssert port, .hotReset port, .linkDisable port, .linkLost port],
        ∃ t, exec c s = .next t ∧ (t.port port).linkUp = false ∧ (t.port port).spdm.sessions = [] ∧ (t.port port).ide.keys = [] ∧
          (t.port port).perst = decide (c = .perstAssert port) ∧
          (∀ i, i ≠ port → (t.port i).linkUp = (s.port i).linkUp ∧ (t.port i).spdm = (s.port i).spdm ∧ (t.port i).ide = (s.port i).ide) ∧
          (∀ p, (t.part p).st = (if s.partOf port = some p ∧ (s.part p).st = .running then .stopping else (s.part p).st)) ∧
          (∀ p, s.partOf port = some p → (s.part p).st = .running → (t.part p).stopCause = 1) ∧
          (∀ p, (t.part p).models = (s.part p).models ∧ (t.part p).reqs = (if s.partOf port = some p ∧ (s.part p).st = .running
            then (s.part p).reqs.map (fun x => (x.1, { x.2 with fetchSince := none })) else (s.part p).reqs)) ∧
          (s.partOf port = none → (∀ r ∈ s.reads, r.sent = true) → t.out = s.out)) ∧
  (∀ (s : State) (port : Port) (dir : Fin 2), (s.port port).linkUp = true → (∃ x ∈ (s.port port).ide.keys, x.1.2 = dir.val) →
      (∀ r ∈ s.reads, r.port ≠ port) →
        ∃ t, exec (.ideCheckFail port dir) s = .next t ∧ (t.port port).linkUp = false ∧ (t.port port).ide.insecure = true ∧
          (t.port port).ide.keys = [] ∧ (t.port port).spdm.sessions = [] ∧
          (∀ p, (t.part p).st = (if s.partOf port = some p ∧ (s.part p).st = .running then .stopping else (s.part p).st))) ∧
  ((∀ (s : State) (port : Port) (speed : LinkSpeed), s.mayLink port = true → (s.port port).linkUp = false → ∀ lanes ∈ [16, 8, 4],
      exec (.linkUp { port := port, lanes := lanes, speed := speed }) s = .next (s.modPort port fun x => { x with
        linkUp := true, perst := false, lanes := lanes, speed := speed, held := [] })) ∧
    (∀ (s : State) (port : Port) (n : Nat), (s.port port).linkUp = true → n = 8 ∨ n = 4 → n < (s.port port).lanes →
      exec (.l0pWidthRequest port n) s = .next { s.modPort port (fun x => { x with lanes := n }) with out := s.out ++ [.width port n] })) ∧
  (∀ (s : State) (port : Port), s.serving = true → (s.port port).linkUp = true →
      ∃ t, exec (.flr port) s = .next t ∧
        (∀ p, s.partOf port = some p →
          ((s.part p).st = .running ∨ (s.part p).st = .stopping →
            (t.part p).st = .stopping ∧ (t.part p).flrPending = true ∧ (t.part p).stopCause = 2 ∧ t.out = s.out ∧
              (t.part p).reqs = (if (s.part p).st = .running then (s.part p).reqs.map fun x => (x.1, { x.2 with fetchSince := none })
                else (s.part p).reqs)) ∧
          ((s.part p).st = .stopped ∨ (s.part p).st = .quarantined →
            (t.part p).st = (s.part p).st ∧ (t.part p).reqs = [] ∧ (t.part p).taken = [] ∧ (t.part p).sub = {} ∧
              (t.part p).flrPending = false) ∧
          (∀ i, i ≠ p → (t.part i).st = (s.part i).st ∧ (t.part i).reqs = (s.part i).reqs ∧ (t.part i).models = (s.part i).models)) ∧
        (s.partOf port = none → (port = s.ownerPort → t.ownerSub = {} ∧ t.ownerTaken = []) ∧ (∀ i, (t.part i).st = (s.part i).st)))

/-- A completion of the read that its tag names, where no other waits for room: CONSUMED is taken from a read of it that came whole, and
stays after one that failed or timed out at 50 ms; a command whose read came keeps what it read; and one whose read failed completes (R56,
R58, R75). -/
def Obligations.HostReadsComplete : Prop :=
  (∀ (s : State) (port : Port) (tag : Nat) (r : HostRead) (p : Part) (h : Nat), s.readOf port tag = some r → r.why = .ring p h →
    (s.part p).forming = false → (∀ x ∈ s.reads, x.sent = true) →
      let u (f : Req → Req) : State := { s with reads := s.reads.filter fun r => !(r.port == port && r.tag == tag) }.modReq p h f
      (∀ bytes : List Byte, bytes.length = r.len → exec (.hostReadDone port tag (.ok bytes)) s =
        .next (u fun r => { r with consumed := leNat bytes, ringRead := .answered })) ∧
      (∀ x ∈ [ReadResult.timeout, .poisoned, .unsuccessful], exec (.hostReadDone port tag x) s =
        .next (u fun r => { r with ringRead := .answered })) ∧
      (r.issued + 50000000 ≤ s.uptime → exec (.completionTimeout port tag) s = .next (u fun r => { r with ringRead := .answered }))) ∧
  (∀ (s : State) (port : Port) (tag : Nat) (r : HostRead) (p : Part) (c : Cmd), s.readOf port tag = some r → r.why = .cmd (.part p) c.id →
    (s.part p).taken.find? (fun d => d.id == c.id) = some c → (s.part p).step.isSome = true → (∀ x ∈ s.reads, x.sent = true) →
      (∀ x ∈ [Instr.hostReadDone port tag .timeout, .hostReadDone port tag .poisoned, .hostReadDone port tag .unsuccessful,
          .completionTimeout port tag],
        ∃ t, exec x s = .next t ∧ (t.part p).taken = (s.part p).taken.filter (fun d => decide (d.id ≠ c.id)) ∧
          t.reads = s.reads.filter (fun r => !(r.port == port && r.tag == tag)) ∧ (t.part p).step = (s.part p).step ∧
          (t.part p).reqs = (s.part p).reqs) ∧
      (∀ bytes : List Byte, bytes.length = r.len → c.opcode = 0x31 → c.got = [] →
        ∃ t d, exec (.hostReadDone port tag (.ok bytes)) s = .next t ∧
          (t.part p).taken.find? (fun d => d.id == c.id) = some d ∧ d.got = [bytes] ∧ d.opcode = c.opcode ∧
          (t.part p).reqs = (s.part p).reqs ∧ (t.part p).step = (s.part p).step))

/-! ## Structure and partitions (R28-R54, R217, R328, R329) -/

/-- BEGIN starts a stream anew, the owner's or a tenant's, and touches nothing else; LOAD counts four bytes and takes them byte 0 first; a
stream cut by a reset of its port only counts them (R28, R44, R45, R53). The word that completes a section's body applies the section whole
where its gate is open, and counts it; where the gate is closed nothing but the stream changes (R28, R29). -/
def Obligations.StructureStreamsApply : Prop :=
  ((∀ (s : State) (port : Port), s.owns port = true →
      exec (.klnBegin port) s = .next { s with kln := { ignoring := false } }) ∧
    (∀ (s : State) (port : Port) (p : Part), s.tenantStream port p = true →
      exec (.prtKlnBegin port p) s = .next (s.modPart p fun q => { q with kln := { ignoring := false } })) ∧
    (∀ (s : State) (port : Port) (v : W32), s.owns port = true →
      (s.kln.ignoring = true → exec (.klnLoad port v) s = .next { s with kln := { s.kln with bytes := s.kln.bytes + 4 } }) ∧
      (s.kln.ignoring = false → s.kln.length = none → s.kln.phase = .header → s.kln.buf.length < 28 →
        exec (.klnLoad port v) s = .next { s with kln := { s.kln with
          bytes := s.kln.bytes + 4, received := s.kln.received + 4
          buf := s.kln.buf ++ [v.extractLsb' 0 8, v.extractLsb' 8 8, v.extractLsb' 16 8, v.extractLsb' 24 8] } })) ∧
    (∀ (s : State) (port : Port) (p : Part) (v : W32), s.tenantStream port p = true →
      ((s.part p).kln.ignoring = true → exec (.prtKlnLoad port p v) s = .next (s.modPart p fun q => { q with
        kln := { q.kln with bytes := q.kln.bytes + 4 } })) ∧
      ((s.part p).kln.ignoring = false → (s.part p).kln.length = none → (s.part p).kln.phase = .header →
        (s.part p).kln.buf.length < 28 →
          exec (.prtKlnLoad port p v) s = .next (s.modPart p fun q => { q with kln := { q.kln with
            bytes := q.kln.bytes + 4, received := q.kln.received + 4
            buf := q.kln.buf ++ [v.extractLsb' 0 8, v.extractLsb' 8 8, v.extractLsb' 16 8, v.extractLsb' 24 8] } })))) ∧
  (∀ (s : State) (port : Port) (v : W32) (h : List Byte) (n : Nat), s.owns port = true → s.kln.ignoring = false →
      s.kln.phase = .body h → s.kln.length = some n → s.kln.received + 4 ≤ n → secLen h % 4 = 0 → s.kln.buf.length + 4 = secLen h →
        let body := s.kln.buf ++ [v.extractLsb' 0 8, v.extractLsb' 8 8, v.extractLsb' 16 8, v.extractLsb' 24 8]
        let u : State := { s with kln := { s.kln with
          bytes := s.kln.bytes + 4, received := s.kln.received + 4, buf := [], phase := .sectionHeader } }
        ∃ t, exec (.klnLoad port v) s = .next t ∧
          (s.gate none h body = false → t = u) ∧
          (s.gate none h body = true → t.kln = { u.kln with sections := s.kln.sections + 1 } ∧
            t = { ((u.sectionEffect false h body).countSection h).recordSection h body with kln := t.kln }))

/-- The gates of the owner's stream: SHEET, FENCE and ROUTE need every partition that has a FENCE STOPPED, ROLE and PLACE the partition
named, PINS nothing, and a type the manual does not name never passes; a tenant's stream passes only its own ROLE and PLACE (R29, R45). -/
def Obligations.GatesOfSections : Prop :=
  ∀ (s : State) (h body : List Byte), 32 ≤ body.length →
    (secType h ∈ [1, 2, 3] → (s.gate none h body = true ↔ ∀ p, (s.part p).fence = none ∨ (s.part p).st = .stopped)) ∧
    (secType h ∈ [4, 5] → (s.gate none h body = true ↔ ∃ p : Part, p.val = secPart h ∧ (s.part p).st = .stopped)) ∧
    (secType h = 7 → s.gate none h body = true) ∧
    (secType h ∉ [1, 2, 3, 4, 5, 6, 7] → s.gate none h body = false) ∧
    (∀ p : Part, s.gate (some p) h body = true ↔ secType h ∈ [4, 5] ∧ secPart h = p.val ∧ (s.part p).st = .stopped)

/-- STOP, by register or by command, makes a RUNNING partition STOPPING: its consumed commands count as started, its queued page fetches are
cancelled, the fault entries of its weight repairs follow the refetches that are cancelled (log 64), and nothing else of it changes; the
command waits for the end of the stop, completes OK at once where nothing runs, and is not the owner's to give (R46, R234, R410). The end of
a stop, with no step, no page on its way and no command left to run at the boundary: the partition is STOPPED, no request is active or
queued, no command waits for the stop any more, and an FLR that waited resets the partition (R46, R53). START, by register or by command,
runs a STOPPED partition that has a port, or waits while it is zeroising; a start of one that is not STOPPED completes WRONG_STATE; and the
end of zeroising runs the start that waited (R48, R49). -/
def Obligations.PartitionsStopAndStart : Prop :=
  ((∀ (s : State) (port : Port) (p : Part), s.sees port p = true → (s.part p).st = .running →
      ∃ t, exec (.prtCtrlStop port p) s = .next t ∧ t.part p = { s.part p with
            st := .stopping, stopCause := 0, taken := (s.part p).taken.map (fun c => { c with started := true })
            reqs := (s.part p).reqs.map fun x => (x.1, { x.2 with fetchSince := none })
            fifo := followRepairs p t.repairs (s.part p).fifo } ∧
        (∀ i, i ≠ p → t.part i = s.part i) ∧ t.out = s.out ∧ t.sheet = s.sheet) ∧
    (∀ (s : State) (p : Part) (c : Cmd), s.pickCmd (.part p) 0x40 = some c →
      ∃ t, exec (.prtStop (.part p)) s = .next t ∧
        ((s.part p).st = .running ∨ (s.part p).st = .stopping → (t.part p).st = .stopping ∧ t.out = s.out ∧
          ((s.part p).st = .running → (t.part p).stopCause = 0) ∧
          ∃ d, (t.part p).taken.find? (fun d => d.id == c.id) = some d ∧ d.run = .stopping) ∧
        ((s.part p).st ≠ .running → (s.part p).st ≠ .stopping →
          State.Tells (s.modTaken (.part p) fun l => l.filter fun d => decide (d.id ≠ c.id)) t)) ∧
    (∀ (s : State) (c : Cmd), s.pickCmd .owner 0x40 = some c →
      ∃ t, exec (.prtStop .owner) s = .next t ∧
        State.Tells (s.modTaken .owner fun l => l.filter fun d => decide (d.id ≠ c.id)) t)) ∧
  (∀ (s : State) (p : Part), (s.part p).st = .stopping → (s.part p).step = none → (s.part p).pagesMove = false →
      (∀ c ∈ (s.part p).taken, c.run ≠ .idle) →
        ∃ t, exec (.partitionStopDone p) s = .next t ∧ (t.part p).st = .stopped ∧ (t.part p).formed = none ∧
          (∀ c ∈ (t.part p).taken, c.run ≠ .stopping) ∧
          (∀ x ∈ (t.part p).reqs, x.2.state.active = false ∧ x.2.state ≠ .queued) ∧
          ((s.part p).flrPending = true → (t.part p).reqs = [] ∧ (t.part p).taken = [] ∧ (t.part p).sub = {}) ∧
          ((s.part p).flrPending = false → (t.part p).models = ((s.part p).dropFormed s.ashList).models ∧
            (t.part p).reqs.map (·.1) = (s.part p).reqs.map (·.1)) ∧
          (∀ i, i ≠ p → (t.part i).st = (s.part i).st ∧ (t.part i).reqs = (s.part i).reqs)) ∧
  ((∀ (s : State) (port : Port) (p : Part), s.sees port p = true → (s.part p).st = .stopped → (s.part p).port.isSome = true →
      ∃ t, exec (.prtCtrlStart port p) s = .next t ∧
        ((s.part p).zeroising = true → t = s.modPart p fun q => { q with startPending := true }) ∧
        ((s.part p).zeroising = false → (t.part p).st = .running ∧ (t.part p).startPending = false ∧
          (t.part p).models = (s.part p).models ∧ (∀ i, i ≠ p → (t.part i).st = (s.part i).st ∧ (t.part i).reqs = (s.part i).reqs))) ∧
    (∀ (s : State) (p : Part) (c : Cmd), s.pickCmd (.part p) 0x41 = some c →
      ∃ t, exec (.prtStart (.part p)) s = .next t ∧
        ((s.part p).st = .stopped → (s.part p).port.isSome = true → (s.part p).zeroising = false → (t.part p).st = .running) ∧
        ((s.part p).st ≠ .stopped → State.Tells (s.modTaken (.part p) fun l => l.filter fun d => decide (d.id ≠ c.id)) t)) ∧
    (∀ (s : State) (p : Part), (s.part p).zeroising = true →
      ∃ t, exec (.zeroiseDone p) s = .next t ∧ (t.part p).zeroising = false ∧
        ((s.part p).startPending = true → (s.part p).st = .stopped → (s.part p).port.isSome = true → (t.part p).st = .running) ∧
        ((s.part p).startPending = false → t = s.modPart p fun q => { q with
          zeroising := false, zeroNs := q.zeroNs + (s.uptime - q.zeroStart) })))

/-- RELEASE makes a QUARANTINED partition STOPPED once FATAL is clear and no fault of it is being handled; writing 1 clears FATAL once no
fault of the sheet FIFO is being handled (R329). APPLY of KV_PRT_FMT gives a READY model the cache format named, from its next page on; 0xFF
gives it back its declared one; another code changes nothing but the register (R217). -/
def Obligations.QuarantineAndCacheFormat : Prop :=
  ((∀ (s : State) (port : Port) (p : Part), s.sees port p = true → (s.part p).st = .quarantined → s.fatal = false →
      (∀ e ∈ (s.part p).fifo, e.handling = false) →
        ∃ t, exec (.fltPrtRelease port p) s = .next t ∧ (t.part p).st = .stopped ∧
          State.Tells { s.modPart p (fun q => { q with st := .stopped }) with pins := t.pins } t ∧
          t.pins = { s.pins with alertN := t.pins.alertN }) ∧
    (∀ (s : State) (port : Port), s.reaches port = true → (∀ e ∈ s.sheetFifo, e.handling = false) →
      exec (.fltFatalClear port) s = .next { s with fatal := false })) ∧
  (∀ (s : State) (port : Port) (p : Part) (f : Byte) (m : Model), s.sees port p = true →
      (s.part p).model (s.part p).kv.fmtModel.toNat = some m → m.state = .ready →
        ∃ t, exec (.kvFmtApply port p f) s = .next t ∧ (t.part p).kv = { (s.part p).kv with fmt := f.setWidth 32 } ∧
          (t.part p).model (s.part p).kv.fmtModel.toNat = some (if f ∈ [0, 8, 9, 10] then { m with narrowNext := some f.toNat }
            else if f = 255 then { m with narrowNext := none } else m) ∧
          (∀ i, i ≠ p → t.part i = s.part i) ∧ (t.part p).reqs = (s.part p).reqs ∧ t.out = s.out)

/-! ## Memory (R33, R34, R62, R80-R101, R288-R306) -/

/-- A block that its reader may read, in a bank that answers, is delivered as memory holds it, and the read changes nothing but the tile's
sheet lines; where the stoker's tables lie it delivers their bytes (R213, R216), and the data of an ash-listed segment carries no promise
(R80); a poisoned block is delivered as poison and stays so; outside the fence the read delivers poison, is told as a violation, and leaves
memory alone (R34, R84). Patrol scrub reads a block CLEAN, takes it into its die's pass and changes no memory; the pass goes on while a
block in service has not been read; with scrub off it reads nothing (R86, R87). A chunk of the partition's peat memory is delivered as
memory holds it, a poisoned one as poison, and no read changes memory; outside its peat memory the read delivers poison and is told; scrub
counts an UNCORRECTABLE chunk and leaves it (R34, R289, R290). -/
def Obligations.ReadsDeliver : Prop :=
  ((∀ (s : State) (p : Part) (addr : Nat), s.readable p (addr / segBytes) = true → s.placeHeld (placeOf addr) = false →
      s.bankDead (placeOf (addr / 64 * 64)) = false →
      ((addr / 64) ∉ s.poisoned →
        ∃ t bytes, exec (.memRead (.part p) addr .clean) s = .next t ∧
          t = { s with out := s.out ++ [.block bytes false], sheetLines := t.sheetLines, fresh := t.fresh } ∧
          (s.ashList.contains (addr / 64 / 32768) = false → s.tableAt (addr / 64) = none →
            bytes = s.sheet.readN (addr / 64 * 64) 64) ∧
          (∀ l, s.ashList.contains (addr / 64 / 32768) = false → s.tableAt (addr / 64) = some l →
            ∀ (i : Nat) (x : TableByte), l[i]? = some x → i < 64 → ∃ free : Byte, bytes[i]? = some (x.fill free)) ∧
          (addr / 64 / 32768 / stackSegs, addr / 64) ∈ t.sheetLines) ∧
      ((addr / 64) ∈ s.poisoned →
        ∃ t, exec (.memRead (.part p) addr .clean) s = .next t ∧ t.out.getLast? = some (.block (List.replicate 64 0) true) ∧
          t.sheet = s.sheet ∧ t.poisoned = s.poisoned ∧
          (t.part p).ctr.memPoison = satAdd (s.part p).ctr.memPoison 1)) ∧
    (∀ (s : State) (p : Part) (addr : Nat) (o : Outcome), s.readable p (addr / segBytes) = false →
      ∃ t, exec (.memRead (.part p) addr o) s = .next t ∧ State.Tells s t ∧
        (s.out ++ [.block (List.replicate 64 0) true]) <+: t.out)) ∧
  (∀ (s : State) (addr : Nat), ∀ c ∈ [Instr.scrubRead addr .clean, .memRead .scrub addr .clean],
      (s.memScrub.getLsbD 31 = false → exec c s = .next s) ∧
      (∀ site : Site, s.siteOf (placeOf addr).tile = some site → s.memScrub.getLsbD 31 = true → s.underTest site = false →
        s.dieHeld site (placeOf addr).die = false → s.bankDead (placeOf addr) = false → s.ashList.contains (addr / segBytes) = false →
        (addr / 64) ∉ s.poisoned →
        let segs := (dieSegs (placeOf addr).tile (placeOf addr).die).filter fun g =>
          !s.ashList.contains g && !s.bankDead (placeOf (g * segBytes))
        ((setAdd (s.die (dieKey site (placeOf addr).die)).scrubbed (addr / 64)).filter fun b => segs.contains (b / 32768)).length <
          segs.length * 32768 →
          exec c s = .next (s.modDie (dieKey site (placeOf addr).die) fun d => { d with scrubbed := setAdd d.scrubbed (addr / 64) }))) ∧
  ((∀ (s : State) (p : Part) (chunk : Nat), (s.part p).peatReadable (chunk / 8192) = true → s.chunkHeld chunk = false →
      s.peatRetired = false →
        (chunk ∉ s.peatPoisoned → exec (.peatRead p chunk .clean) s =
          .next { s with out := s.out ++ [.block (s.peat.readN (chunk * 256) 256) false] }) ∧
        (∃ t, exec (.peatRead p chunk .uncorrectable) s = .next t ∧
          t.out.getLast? = some (.block (List.replicate 256 0) true) ∧ t.peat = s.peat ∧ t.sheet = s.sheet)) ∧
    (∀ (s : State) (p : Part) (chunk : Nat) (o : Outcome), (s.part p).peatReadable (chunk / 8192) = false →
      ∃ t, exec (.peatRead p chunk o) s = .next t ∧ State.Tells s t ∧ (s.out ++ [.block (List.replicate 256 0) true]) <+: t.out) ∧
    (∀ (s : State) (chunk : Nat), s.peatCtrl.getLsbD 31 = true → s.chunkHeld chunk = false → s.peatRetired = false →
      chunk < peatSegs * 8192 → chunk ∉ s.peatPoisoned →
        exec (.peatScrubRead chunk .uncorrectable) s = .next { s with peatScrubBad := s.peatScrubBad + 1 } ∧
        ∀ o : Outcome, (o = .clean ∨ ∃ w, o = .corrected w) → exec (.peatScrubRead chunk o) s = .next s))

/-- A write of the logic within its fence stores its bytes and no others: a whole block replaces the block and cures its poison; part of a
block that reads CLEAN is merged; part of a poisoned one leaves the block poisoned. Outside the fence nothing is stored (R34, R85). -/
def Obligations.BlockWritesStore : Prop :=
  (∀ (s : State) (p : Part) (addr : Nat) (bytes : List Byte), s.sheet.wf = true → s.writable p (addr / segBytes) = true →
    s.placeHeld (placeOf addr) = false → s.bankDead (placeOf addr) = false → s.bankDead (placeOf (addr / 64 * 64)) = false →
    addr % 64 + bytes.length ≤ 64 → (addr / 64) ∉ s.poisoned ∨ bytes.length = 64 →
      ∃ t, exec (.memWrite p addr bytes .clean) s = .next t ∧ t.sheet.readN addr bytes.length = bytes ∧
        (∀ a, a < addr ∨ addr + bytes.length ≤ a → t.sheet.read a = s.sheet.read a) ∧ (addr / 64) ∉ t.poisoned ∧
        (∀ b, b ≠ addr / 64 → (b ∈ t.poisoned ↔ b ∈ s.poisoned)) ∧ t = { s with sheet := t.sheet, poisoned := t.poisoned, tablesHit := t.tablesHit }) ∧
  (∀ (s : State) (p : Part) (addr : Nat) (bytes : List Byte), s.writable p (addr / segBytes) = true →
    s.placeHeld (placeOf addr) = false → s.bankDead (placeOf addr) = false → s.bankDead (placeOf (addr / 64 * 64)) = false →
    bytes.length < 64 → (addr / 64) ∈ s.poisoned →
      ∃ t, exec (.memWrite p addr bytes .clean) s = .next t ∧ (addr / 64) ∈ t.poisoned ∧
        (∀ a, a / 64 ≠ addr / 64 → t.sheet.read a = s.sheet.read a)) ∧
  (∀ (s : State) (p : Part) (addr : Nat) (bytes : List Byte) (o : Outcome), s.writable p (addr / segBytes) = false →
    ∃ t, exec (.memWrite p addr bytes o) s = .next t ∧ State.Tells s t)

/-- The BAR4 window shows its port's partition the segments it may read, byte for byte, and poison where one of them lies outside; a port
without a window reads zeros. A write through it stores where the segment is writable, and nothing anywhere else; what it stores in memory
that the running partition uses is undefined. An atomic operation is answered as unsupported and does nothing (R34, R62). -/
def Obligations.Bar4ReachesPartition : Prop :=
  (∀ (s : State) (port : Port) (offset len : Nat), s.window port = none →
    exec (.bar4Read port offset len []) s = .next { s with out := s.out ++ [.bar4 port false (List.replicate len 0)] } ∧
    ∀ (bytes : List Byte) (errs : Errs), exec (.bar4Write port offset { bytes := bytes, atomic := false } errs) s = .next s) ∧
  (∀ (s : State) (port : Port) (offset : Nat) (bytes : List Byte) (errs : Errs),
    exec (.bar4Write port offset { bytes := bytes, atomic := true } errs) s = .next { s with out := s.out ++ [.unsupported port] }) ∧
  (∀ (s : State) (port : Port) (offset len : Nat) (p : Part) (base : Nat), s.window port = some (p, base) →
    ((∀ g ∈ segsOf (base * segBytes + offset) len, s.readable p g = true) → s.placeHeld (placeOf (base * segBytes + offset)) = false →
      s.rangePoisoned (base * segBytes + offset) len = false → s.poisoned = [] →
      (∀ g ∈ segsOf (base * segBytes + offset) len, g ∉ s.ashList) →
      (∀ a, base * segBytes + offset ≤ a → a < base * segBytes + offset + len → s.tableAt (a / 64) = none) →
        ∃ t, exec (.bar4Read port offset len []) s = .next t ∧ t = { s with fresh := t.fresh, out := s.out ++
          [.bar4 port false (s.sheet.readN (base * segBytes + offset) len)] }) ∧
    ((∃ g ∈ segsOf (base * segBytes + offset) len, s.readable p g = false) →
      ∃ t, exec (.bar4Read port offset len []) s = .next t ∧ State.Tells s t ∧
        t.out.getLast? = some (.bar4 port true (List.replicate len 0))) ∧
    (∀ bytes : List Byte, s.sheet.wf = true → s.poisoned = [] → (base * segBytes + offset) % 64 + bytes.length ≤ 64 → bytes ≠ [] →
      s.writable p ((base * segBytes + offset) / segBytes) = true → s.placeHeld (placeOf (base * segBytes + offset)) = false →
      s.bankDead (placeOf (base * segBytes + offset)) = false →
      s.bankDead (placeOf ((base * segBytes + offset) / 64 * 64)) = false →
        ∃ t, exec (.bar4Write port offset { bytes := bytes } []) s = .next t ∧
          (s.inUse p ((base * segBytes + offset) / segBytes) = false →
            t.sheet.readN (base * segBytes + offset) bytes.length = bytes) ∧
          (∀ a, a < base * segBytes + offset ∨ base * segBytes + offset + bytes.length ≤ a → t.sheet.read a = s.sheet.read a) ∧
          t = { s with sheet := t.sheet, fresh := t.fresh, tablesHit := t.tablesHit }))

/-- HOLD takes a channel where its conditions hold and sets REFUSED where they do not; a run starts on a held one and its end gives the
errors and the lowest wire or lane, and tells the owner; HOLD written 0 ends the hold and returns the offsets to 0 (R97-R101, R303-R306). -/
def Obligations.MarginingRuns : Prop :=
  (∀ (s : State) (port : Port), s.owns port = true →
    (∃ t, exec (.memMarginHold port) s = .next t ∧ t = { s with memMargin := { s.memMargin with
        hold := t.memMargin.hold, held := t.memMargin.held, refused := t.memMargin.refused } } ∧
      (s.memMargin.held = false → t.memMargin.hold = true ∧
        (t.memMargin.held = true ↔ ∀ p, (((s.part p).st = .running ∨ (s.part p).st = .stopping) →
          (s.part p).ownsSite (bitsOf s.memMargin.sel 9 4) = false) ∧ s.slotSite p (bitsOf s.memMargin.sel 9 4) = false) ∧
        (t.memMargin.held = false → t.memMargin.refused = true))) ∧
    (∃ t, exec (.peatMarginHold port) s = .next t ∧ t = { s with peatMargin := { s.peatMargin with
        hold := t.peatMargin.hold, held := t.peatMargin.held, refused := t.peatMargin.refused } } ∧
      (s.peatMargin.held = false → t.peatMargin.hold = true ∧
        (t.peatMargin.held = true ↔ (∀ p, ((s.part p).fence = none ∨ (s.part p).st = .stopped) ∧ (s.part p).zeroising = false) ∧
          s.bist.phase ≠ .save ∧ s.bist.phase ≠ .restore) ∧
        (t.peatMargin.held = false → t.peatMargin.refused = true))) ∧
    exec (.memMarginRelease port) s = .next { s with memMargin := { s.memMargin with
      hold := false, held := false, busy := false, time := 0, vref := 0 } } ∧
    exec (.peatMarginRelease port) s = .next { s with peatMargin := { s.peatMargin with
      hold := false, held := false, busy := false, time := 0, vref := 0 } } ∧
    (∀ n : BitVec 5, s.memMargin.held = true → s.memMargin.busy = false → exec (.memMarginRun port n) s =
      .next { s with memMargin := { s.memMargin with logTransfers := n, busy := true, errors := 0, first := 0x3FF } }) ∧
    (∀ n : BitVec 5, s.peatMargin.held = true → s.peatMargin.busy = false → exec (.peatMarginRun port n) s =
      .next { s with peatMargin := { s.peatMargin with logTransfers := n, busy := true, errors := 0, first := 0x1F } })) ∧
  (∀ (s : State) (errors : Nat) (wire : Option (Fin 584)), s.memMargin.busy = true →
    ∃ t, exec (.marginDone errors wire) s = .next t ∧ State.Tells { s with memMargin := t.memMargin } t ∧
      t.memMargin = { s.memMargin with
        busy := false, done := true, errors := BitVec.ofNat 32 (min errors 0xFFFFFFFF)
        first := (match wire with | some w => BitVec.ofNat 16 w.val | none => 0x3FF) }) ∧
  (∀ (s : State) (errors : Nat) (lane : Option (Fin 18)), s.peatMargin.busy = true →
    ∃ t, exec (.peatMarginDone errors lane) s = .next t ∧ State.Tells { s with peatMargin := t.peatMargin } t ∧
      t.peatMargin = { s.peatMargin with
        busy := false, done := true, errors := BitVec.ofNat 32 (min errors 0xFFFFFFFF)
        first := (match lane with | some w => BitVec.ofNat 16 w.val | none => 0x1F) })

/-- Refresh pulled in on an idle bank earns one credit, up to the limit that NB_CTRL gives, never more than 4; a refresh that falls due
spends one, or is issued, or waits while the next command of the bank's sequence holds a row open, the fourth at most; a die above 85 °C is
hot and tells it, and cools only after 1 ms at 82 °C or less (R88, R122). A command that has waited long enough in its class moves up one
class and its wait starts anew; one in P0 never moves: the near-bank sequences and the transfers in a die's queue (R91), and the transfers
in a peat channel's queue (R294). -/
def Obligations.RefreshHeatAndAge : Prop :=
  ((∀ (s : State) (b : BankId), s.nbCtrl.getLsbD 31 = true → s.bankBusy (bankKey b.site b.die.val b.bank.val) = false →
      s.bankQueued b.site b.die.val b.bank.val = false →
      (s.bank (bankKey b.site b.die.val b.bank.val)).credit < min 4 (bitsOf s.nbCtrl 2 0) →
        ∃ t, exec (.refreshPullin b) s = .next t ∧ t = { s with banks := t.banks } ∧
          (t.bank (bankKey b.site b.die.val b.bank.val)).credit = (s.bank (bankKey b.site b.die.val b.bank.val)).credit + 1 ∧
          (t.bank (bankKey b.site b.die.val b.bank.val)).owed = 0 ∧
          ∀ k, k ≠ bankKey b.site b.die.val b.bank.val → t.bank k = s.bank k) ∧
    (∀ (s : State) (d : DieId) (temp : Nat),
      ∃ t, exec (.dieTempSample d temp) s = .next t ∧ (t.die (dieKey d.site d.die.val)).temp = temp ∧
        t.sheet = s.sheet ∧ t.banks = s.banks ∧ t.parts.map (·.st) = s.parts.map (·.st) ∧
        ((s.die (dieKey d.site d.die.val)).hot = false →
          ((t.die (dieKey d.site d.die.val)).hot = true ↔ 85 < temp)) ∧
        ((s.die (dieKey d.site d.die.val)).hot = true →
          ((t.die (dieKey d.site d.die.val)).hot = false ↔
            temp ≤ 82 ∧ (s.die (dieKey d.site d.die.val)).coolSince.getD s.uptime + 1000000 ≤ s.uptime))) ∧
    (∀ (s : State) (b : BankId), let k := bankKey b.site b.die.val b.bank.val
      (0 < (s.bank k).credit → exec (.refreshDue b) s = .next (s.modBank k fun x => { x with credit := x.credit - 1 })) ∧
      ((s.bank k).credit = 0 →
        (∀ u q, lookupA s.units k = some u → (s.seqs.find? fun q => q.id == u.seq) = some q →
          ∀ w, q.words[u.pc]? = some w → w.opensRow = false ∨ w.malformed = true) →
          exec (.refreshDue b) s = .next (s.modBank k fun x => { x with owed := 0, busyTo := s.uptime + 120 })) ∧
      (∀ u q w, (s.bank k).credit = 0 → lookupA s.units k = some u → (s.seqs.find? fun q => q.id == u.seq) = some q →
        q.words[u.pc]? = some w → w.opensRow = true → w.malformed = false →
          ((s.bank k).owed < 3 → exec (.refreshDue b) s = .next (s.modBank k fun x => { x with owed := x.owed + 1 })) ∧
          ((s.bank k).owed = 3 →
            ∃ t, exec (.refreshDue b) s = .next t ∧ (t.bank k).owed = 0 ∧ t.sheet = s.sheet ∧ t.units = s.units)))) ∧
  ((∀ (s : State) (die : DieId) (i : Nat) (q : NbSeq), (s.dieQueue die)[i]? = some q → q.cls ≠ 0 →
      ∃ t, exec (.arbAgePromote die i) s = .next t ∧ (s.power.phase ≠ .off → q.aged + s.ageWait q.cls ≤ t.uptime) ∧
        { q with cls := q.cls - 1, aged := t.uptime } ∈ t.seqs ∧ t.seqs.length = s.seqs.length ∧
        (∀ x ∈ s.seqs, x.id ≠ q.id → x ∈ t.seqs) ∧ t = { s with
          seqs := t.seqs, uptime := t.uptime, ringTime := t.ringTime, ring := t.ring }) ∧
    (∀ (s : State) (die : DieId) (i : Nat) (q : NbSeq), (s.dieQueue die)[i]? = some q → q.cls = 0 →
      exec (.arbAgePromote die i) s = .next s) ∧
    (∀ (s : State) (ch : Fin 512) (i : Nat) (x : Transfer) (c cls : Nat) (since : Time),
      (s.channelQueue ch.val)[i]? = some (x, c) → s.standing x (.channel ch.val) c = (cls, since) →
      ∃ t, exec (.peatArbAgePromote ch i) s = .next t ∧
        t = { s with xfers := t.xfers, uptime := t.uptime, ringTime := t.ringTime, ring := t.ring } ∧
        (∀ y ∈ s.xfers, y.place ≠ .channel ch.val → y ∈ t.xfers) ∧
        (cls ≠ 0 → (s.power.phase ≠ .off → since + arbWait s.peatArb cls ≤ t.uptime) ∧
          Xfer.mk x.part x.kind (.channel ch.val) (cls - 1) t.uptime ∈ t.xfers) ∧
        (cls = 0 → t = { s with xfers := t.xfers } ∧ ∀ y ∈ t.xfers, y ∈ s.xfers)) ∧
    (∀ (s : State) (die : DieId) (i : Nat) (x : Transfer) (c cls : Nat) (since : Time),
      (s.dieTransfers die)[i]? = some (x, c) → s.standing x (.die (dieKey die.site die.die.val)) c = (cls, since) → cls ≠ 0 →
      ∃ t, exec (.arbAgePromote die ((s.dieQueue die).length + i)) s = .next t ∧
        t = { s with xfers := t.xfers, uptime := t.uptime, ringTime := t.ringTime, ring := t.ring } ∧
        (s.power.phase ≠ .off → since + arbWait s.memArb cls ≤ t.uptime) ∧
        Xfer.mk x.part x.kind (.die (dieKey die.site die.die.val)) (cls - 1) t.uptime ∈ t.xfers))

/-! ## Shared caches and near-bank units (R93-R130) -/

/-- Each atomic operation acts on its one word of the scratch line and returns the old value where the issuer asks for it: the other words
of the line and all other lines stay. Int32 add wraps, swap stores v, compare-and-swap stores v exactly where the old value is the expected
one, and the adds, the maximum and the minimum store what their operations give (R95). A reduction message goes where ROUTE brings it: in a
tile of its partition it applies its words one by one from the line's first word on, then raises its counter by one; in a tile that is not
the partition's it stores nothing and is told as a violation; a message that the mesh does not deliver is counted and stores nothing (R34,
R35, R96, R199). -/
def Obligations.SharedCacheRows : Prop :=
  (∀ (s : State) (tile line : Nat) (w : Fin 16) (v x : W32),
      let old := (s.line tile line).words.get w
      ∀ ret : Bool, ∀ c ∈ [(Instr.atomicFp32Add tile line ⟨w, ret⟩ v, f32Add old v),
          (.atomicBf16PairAdd tile line ⟨w, ret⟩ v, (bf16Add (old.extractLsb' 16 16) (v.extractLsb' 16 16)) ++
            (bf16Add (old.extractLsb' 0 16) (v.extractLsb' 0 16))),
          (.atomicMax tile line ⟨w, ret⟩ v, f32Max old v), (.atomicMin tile line ⟨w, ret⟩ v, f32Min old v),
          (.atomicInt32Add tile line ⟨w, ret⟩ v, old + v), (.atomicSwap tile line ⟨w, ret⟩ v, v),
          (.atomicCompareAndSwap tile line ⟨w, ret⟩ x v, if old = x then v else old)],
        ∃ t, exec c.1 s = .next t ∧ (t.line tile line).words.get w = c.2 ∧
          (∀ i, i ≠ w → (t.line tile line).words.get i = (s.line tile line).words.get i) ∧
          (t.line tile line).poison = (s.line tile line).poison ∧
          (∀ a b, (a, b) ≠ (tile, line) → t.line a b = s.line a b) ∧
          t = { s with scratch := t.scratch, out := if ret then s.out ++ [.atomOld old] else s.out }) ∧
  (∀ (s : State) (p : Part) (issuer tile line : Nat) (k : AtomKind) (words : List W32) (cline : Nat) (cw : Fin 16) (src : Site),
      issuer < 64 → s.siteOf issuer = some src →
      (∀ dst : Nat, s.comesTo src tile = some dst → s.mayReach p dst = true → line ≠ cline → words.length ≤ 16 →
        ∃ t, exec (.reductionMessage p ⟨issuer, tile⟩ line k words cline cw) s = .next t ∧
          (∀ i : Fin 16, (t.line dst line).words.get i = (match words[i.val]? with
            | some v => atomResult k ((s.line dst line).words.get i) v
            | none => (s.line dst line).words.get i)) ∧
          (∀ i : Fin 16, (t.line dst cline).words.get i =
            (if i = cw then (s.line dst cline).words.get i + 1 else (s.line dst cline).words.get i)) ∧
          (∀ a b, (a, b) ≠ (dst, line) → (a, b) ≠ (dst, cline) → t.line a b = s.line a b) ∧ t = { s with scratch := t.scratch }) ∧
      (∀ dst : Nat, s.comesTo src tile = some dst → s.mayReach p dst = false →
        ∃ t, exec (.reductionMessage p ⟨issuer, tile⟩ line k words cline cw) s = .next t ∧ State.Tells s t) ∧
      (s.comesTo src tile = none → exec (.reductionMessage p ⟨issuer, tile⟩ line k words cline cw) s =
        .next { s with routeDropped := s.routeDropped + 1 }))

/-- A sequence of 1 to 31 words within its partition's fence is queued whole, last, at the tile to which ROUTE brings it, in the class and
for the banks that its header names; one that breaches the fence is never queued, and the breach is told; a header whose COUNT no words
follow makes none (R105, R106, R120, R128). A malformed command is not executed: every accumulator and register of its unit is poisoned, the
command is counted, memory stays, and the sequence goes on; after its last command a bank leaves its sequence, which is counted for its
partition (R105, R109). -/
def Obligations.SequencesBeginAndEnd : Prop :=
  (∀ (s : State) (issuer tile : Nat) (hdr : BitVec 128) (words : List (BitVec 128)) (src : Site), issuer < 64 → s.siteOf issuer = some src →
      let count := (hdr.extractLsb' 72 8).toNat
      let h := (NbHeader.ofBits hdr).1
      let l := (words.take count).map NbWord.ofBits
      h.banks = hdr.extractLsb' 0 64 ∧ h.die.val = (hdr.extractLsb' 64 4).toNat ∧ h.cls.val = (hdr.extractLsb' 68 2).toNat ∧
      h.doneLine = (hdr.extractLsb' 96 20).toNat ∧ h.doneWord.val = (hdr.extractLsb' 116 4).toNat ∧
      h.doneTile = (hdr.extractLsb' 120 6).toNat ∧
      (count = 0 ∨ 31 < count ∨ words.length < count → exec (.nbSequenceSubmit ⟨issuer, tile⟩ hdr words) s = .next s) ∧
      (∀ (dst : Nat) (p : Part), 1 ≤ count → count ≤ 31 → count ≤ words.length → s.comesTo src tile = some dst → s.sitePart src.val = some p →
        (s.seqBreach p dst h l = none → exec (.nbSequenceSubmit ⟨issuer, tile⟩ hdr words) s = .next { s with
          seqs := s.seqs ++ [{ id := s.nextSeq, part := some p, tile := dst, hdr := h, words := l, cls := h.cls.val
                               aged := s.uptime, left := h.banks }]
          nextSeq := s.nextSeq + 1 }) ∧
        (∀ g kind, s.seqBreach p dst h l = some (g, kind) →
          ∃ (t u : State), exec (.nbSequenceSubmit ⟨issuer, tile⟩ hdr words) s = .next t ∧ t = u.fenceViolation p g kind ∧ t.seqs = s.seqs ∧
            t.sheet = s.sheet ∧ t.units = s.units))) ∧
  ((∀ (s : State) (k : BankId) (q : NbSeq) (u : NbUnit) (w : NbWord) (p : Part), s.unitOf k = some (q, u) → q.words[u.pc]? = some w →
      w.malformed = true → u.pc + 1 < q.words.length → q.part = some p →
        ∃ t u', exec (.nbMalformed k) s = .next t ∧ lookupA t.units (bankKey k.site k.die.val k.bank.val) = some u' ∧
          u'.pc = u.pc + 1 ∧ (∀ i, i < 64 → (u'.acc i).2 = true) ∧ (∀ i, i < 2048 → (u'.elem i).2 = true) ∧
          t.sheet = s.sheet ∧ t.poisoned = s.poisoned ∧ t.seqs = s.seqs ∧
          (t.part p).ctr.nbBadcmd = satAdd (s.part p).ctr.nbBadcmd 1) ∧
    (∀ (s : State) (k : BankId) (q : NbSeq) (u : NbUnit) (w : NbWord) (p : Part), s.unitOf k = some (q, u) → q.words[u.pc]? = some w →
      w.op = 1 → w.malformed = false → u.pc + 1 = q.words.length → q.part = some p → u.dead = false →
        ∃ t, exec (.nbClear k) s = .next t ∧ lookupA t.units (bankKey k.site k.die.val k.bank.val) = none ∧ t.sheet = s.sheet ∧
          (∀ x ∈ t.seqs, x.id = q.id → x.left.getLsbD k.bank.val = false) ∧
          (t.part p).ctr.nbSeq = satAdd (s.part p).ctr.nbSeq 1))

/-- CLEAR zeroes the accumulators it names and, with AUX bit 0, the register file; LOADV loads BF16 elements from the scratch lines of the
unit's own tile. Nothing else of the unit changes, and nothing outside it (R107). GEMV, DOT and AXPY add their products to the accumulators
they name, in an order the manual leaves open, from rows that read CLEAN, and change neither memory nor the register file (R110-R113). -/
def Obligations.NearBankComputes : Prop :=
  ((∀ (s : State) (k : BankId) (q : NbSeq) (u : NbUnit) (w : NbWord), s.unitAt k q u w 1 →
      ∃ t u', exec (.nbClear k) s = .next t ∧ t = { s with units := t.units } ∧
        lookupA t.units (bankKey k.site k.die.val k.bank.val) = some u' ∧ u'.pc = u.pc + 1 ∧
        (∀ i, i < 64 → u'.acc i = (if w.acc ≤ i ∧ i < w.acc + w.n then (0, false) else u.acc i)) ∧
        (∀ i, i < 2048 → u'.elem i = (if w.aux % 2 = 1 then (0, false) else u.elem i))) ∧
    (∀ (s : State) (k : BankId) (q : NbSeq) (u : NbUnit) (w : NbWord), s.unitAt k q u w 2 →
      ∃ t u', exec (.nbLoadv k) s = .next t ∧ t = { s with units := t.units } ∧
        lookupA t.units (bankKey k.site k.die.val k.bank.val) = some u' ∧ u'.pc = u.pc + 1 ∧
        (∀ i, i < 64 → u'.acc i = u.acc i) ∧
        (∀ i, i < 2048 → ¬(w.v0 ≤ i ∧ i < w.v0 + w.len) → (u'.elem i).1 = (u.elem i).1) ∧
        (∀ i, i < w.len → (u'.elem (w.v0 + i)).1 =
          (((s.line q.tile (w.aux % 2 ^ 20 + bankRank q.hdr.banks k.bank.val * (w.aux / 2 ^ 20 % 1024) + i / 32)).words.get
            (Fin.ofNat 16 (i % 32 / 2))).extractLsb' (16 * (i % 2)) 16)))) ∧
  (∀ (s : State) (k : BankId) (q : NbSeq) (u : NbUnit) (w : NbWord), s.poisoned = [] →
      (s.unitAt k q u w 3 →
        ∃ t u', exec (.nbGemv k [] false) s = .next t ∧ t = { s with units := t.units, fresh := s.fresh + 64 * 65 } ∧
          lookupA t.units (bankKey k.site k.die.val k.bank.val) = some u' ∧ u'.pc = u.pc + 1 ∧ u'.v = u.v ∧
          (∀ m, m < 64 → ∃ (order : Nat → Nat) (last : Nat), let l := u.acc m :: s.gemvTerms k q u w order m
            u'.acc m = (f32Sum last (l.map (·.1)), l.any (·.2)))) ∧
      (s.unitAt k q u w 4 →
        ∃ t u', exec (.nbDot k [] false) s = .next t ∧ t = { s with units := t.units, fresh := s.fresh + w.len * w.q } ∧
          lookupA t.units (bankKey k.site k.die.val k.bank.val) = some u' ∧ u'.pc = u.pc + 1 ∧ u'.v = u.v ∧
          (∀ i, i < 64 → ¬(w.acc ≤ i ∧ i < w.acc + w.len * w.q) → u'.acc i = u.acc i) ∧
          (∀ i, i < w.len * w.q → w.t0 + i / w.q < 64 → ∃ order, (u'.acc (w.acc + i)).1 =
            f32Sum order ((u.acc (w.acc + i)).1 :: (List.range (64 * w.nblk)).map fun e =>
              nbProduct w.f (s.pageElem q.tile k w.f w.row0 (w.t0 + i / w.q) e).1
                (u.elem (w.v0 + i % w.q * (64 * w.nblk) + e)).1))) ∧
      (s.unitAt k q u w 5 → w.t0 + w.len ≤ 64 →
        ∃ t u', exec (.nbAxpy k [] false) s = .next t ∧ t = { s with units := t.units, fresh := s.fresh + 64 } ∧
          lookupA t.units (bankKey k.site k.die.val k.bank.val) = some u' ∧ u'.pc = u.pc + 1 ∧ u'.v = u.v ∧
          (∀ i, i < 64 → ∃ order, (u'.acc i).1 = f32Sum order ((u.acc i).1 :: (List.range w.len).map fun t =>
            nbProduct w.f (s.pageElem q.tile k w.f w.row0 (w.t0 + t) (w.esub * (64 / w.q) + i % (64 / w.q))).1
              (u.elem (w.v0 + i / (64 / w.q) * 64 + t)).1))))

/-- READACC sends the accumulators it names as messages and keeps them; STORE writes them to whole blocks of its row, FP32 or BF16, and to
nothing else, and the row's sheet lines leave the cache (R94, R107, R124). A command that opens a row first lets the refreshes owed through:
none is owed after it, NB_MAX_WAIT rises to what they have added to it, and the split is counted for the sequence's partition (R121, R122,
R131). COPY of one row within a bank moves every byte of it and leaves every byte outside the destination alone; the register file but V6
and V7, and the accumulators, stay (R127). -/
def Obligations.NearBankStores : Prop :=
  ((∀ (s : State) (k : BankId) (q : NbSeq) (u : NbUnit) (w : NbWord), s.unitAt k q u w 6 → w.f = 0 → w.n ≤ 16 →
      ∀ (p : Part) (tile : Nat), q.part = some p → s.comesTo k.site (w.aux / 2 ^ 20 % 64) = some tile →
        s.mayReach p tile = true → s.mayReach p q.hdr.doneTile = true →
        let line := w.aux % 2 ^ 20 + bankRank q.hdr.banks k.bank.val * (w.aux / 2 ^ 26 % 64)
        (q.hdr.doneTile, q.hdr.doneLine) ≠ (tile, line) →
        ∃ t, exec (.nbReadacc k) s = .next t ∧ t = { s with scratch := t.scratch, units := t.units } ∧
          lookupA t.units (bankKey k.site k.die.val k.bank.val) = some { u with pc := u.pc + 1 } ∧
          (∀ i : Fin 16, i.val < w.n → (t.line tile line).words.get i =
            (if (u.acc (w.acc + i.val)).2 then 0x7FC00000 else (u.acc (w.acc + i.val)).1)) ∧
          (t.line q.hdr.doneTile q.hdr.doneLine).words.get q.hdr.doneWord =
            (s.line q.hdr.doneTile q.hdr.doneLine).words.get q.hdr.doneWord + 1) ∧
    (∀ (s : State) (k : BankId) (q : NbSeq) (u : NbUnit) (w : NbWord), s.unitAt k q u w 7 → s.sheet.wf = true →
      (∀ i, i < w.n → (u.acc (w.acc + i)).2 = false) →
        let addr := bankAddr q.tile k w.row0 0 + 64 * (w.aux % 16)
        (∀ i, i < 16 → s.bankDead (placeOf (bankAddr q.tile k w.row0 0 + 64 * i)) = false) →
        let bytes := (List.range w.n).flatMap fun i =>
          if w.f = 0 then leBytes 4 (u.acc (w.acc + i)).1.toNat else leBytes 2 (bf16OfF32 (u.acc (w.acc + i)).1).toNat
        ∃ t, exec (.nbStore k) s = .next t ∧
          t = { s with sheet := t.sheet, poisoned := t.poisoned, sheetLines := t.sheetLines, units := t.units, fresh := t.fresh } ∧
          lookupA t.units (bankKey k.site k.die.val k.bank.val) = some { u with pc := u.pc + 1 } ∧
          (q.stale = false → t.sheet.readN addr bytes.length = bytes) ∧
          (∀ a, a < addr ∨ addr + bytes.length ≤ a → t.sheet.read a = s.sheet.read a) ∧
          (∀ x ∈ t.sheetLines, x.1 = q.tile → ¬(bankAddr q.tile k w.row0 0 / 64 ≤ x.2 ∧ x.2 < bankAddr q.tile k w.row0 0 / 64 + 16)))) ∧
  (∀ (s : State) (k : BankId) (q : NbSeq) (u : NbUnit) (w : NbWord) (p : Part), s.unitOf k = some (q, u) → q.words[u.pc]? = some w →
      w.op = 7 → w.malformed = false → u.pc + 1 < q.words.length → q.part = some p →
      let b := s.bank (bankKey k.site k.die.val k.bank.val)
      0 < b.owed →
        ∃ t, exec (.nbStore k) s = .next t ∧ (t.bank (bankKey k.site k.die.val k.bank.val)).owed = 0 ∧
          t.nbMaxWait.toNat = max s.nbMaxWait.toNat
            (min 0xFFFF (s.refreshWait (bankKey k.site k.die.val k.bank.val) + b.waited + (21 + 72 * b.owed))) ∧
          (t.part p).ctr.nbSplit = satAdd (s.part p).ctr.nbSplit 1 ∧ t.seqs = s.seqs) ∧
  (∀ (s : State) (k : BankId) (q : NbSeq) (u : NbUnit) (w : NbWord), s.unitAt k q u w 8 → s.sheet.wf = true → s.poisoned = [] → w.len = 1 →
      let src := bankAddr q.tile k w.row0 0
      let dst := bankAddr q.tile k (w.aux % 2 ^ 17) 0
      s.bankDead (placeOf src) = false → s.bankDead (placeOf dst) = false →
        ∃ t u', exec (.nbCopy k []) s = .next t ∧
          (q.stale = false → ∀ j, j < 1024 → t.sheet.read (dst + j) = s.sheet.read (src + j)) ∧
          (∀ a, a < dst ∨ dst + 1024 ≤ a → t.sheet.read a = s.sheet.read a) ∧ t.poisoned = [] ∧
          lookupA t.units (bankKey k.site k.die.val k.bank.val) = some u' ∧ u'.pc = u.pc + 1 ∧
          (∀ i, i < 1536 → u'.elem i = u.elem i) ∧ (∀ i, i < 64 → u'.acc i = u.acc i) ∧
          t = { s with sheet := t.sheet, sheetLines := t.sheetLines, units := t.units, fresh := t.fresh })

/-! ## Ring time and registers (R5, R8, R308-R320) -/

/-- A good frame at a follower that is not yet LOCKED counts, and the fourth in a row locks it at the received time; at a LOCKED follower it
is forwarded 48 ns on with one hop more; at the master it gives the loop error and changes no time (R310-R315). A frame whose symbols, SYNC,
CRC or TYPE are wrong counts as bad, as a missing one counts as missing, and the eighth such in a row loses lock. A frame boundary: the
master sends a frame of its own count, from the time that SET_TIME gave where one is pending; a follower in HOLDOVER or FREERUN sends one of
its own; a follower that is LOCKED or in ACQUIRE sends none. SET_TIME is the master's alone, RING_CFG keeps its one bit, and a stuck input
is counted once (R308-R310, R313, R315, R320). -/
def Obligations.RingTimeActs : Prop :=
  ((∀ (s : State) (f : RingFrame), s.ringRuns = true → frameSound f = true → s.frameFits f = true →
      ∃ t, exec (.ringFrameRx f) s = .next t ∧ t.ring.good = satAdd s.ring.good 1 ∧ t.ring.bad = s.ring.bad ∧ t.ring.badRun = 0 ∧
        (s.ring.state = .master → t.ringTime = s.ringTime ∧ t.ring.state = .master ∧
          t.ring.loopErr = sat32s (timeDiff s.ringTime (s.recvTime f))) ∧
        (s.ring.state ≠ .master → s.ring.state ≠ .locked → s.ring.goodRun < 3 → t.ring.state = s.ring.state ∧ t.ringTime = s.ringTime) ∧
        (s.ring.state ≠ .master → s.ring.state ≠ .locked → 3 ≤ s.ring.goodRun → t.ring.state = .locked ∧
          t.ring.offset = sat32s (timeDiff (s.recvTime f) s.ringTime) ∧
          ((timeDiff (s.recvTime f) s.ringTime).natAbs ≤ 256 → t.ringTime = s.ringTime ∧
            t.ring.adjust = timeDiff (s.recvTime f) s.ringTime) ∧
          (256 < (timeDiff (s.recvTime f) s.ringTime).natAbs → t.ringTime = s.recvTime f)) ∧
        (s.ring.state = .locked → t.ring.state = .locked ∧ t.out.getLast? = some (.ring (mkFrame (s.recvTime f + 48).toNat
          (min 255 (frameBits f.bits 47 40 + 1)) (frameBits f.bits 39 32) (frameBits f.bits 31 24))))) ∧
    (∀ (s : State) (f : RingFrame), s.ringRuns = true → frameSound f = false →
      ∃ t, exec (.ringFrameRx f) s = .next t ∧ t.ring.bad = satAdd s.ring.bad 1 ∧ t.ring.good = s.ring.good ∧ t.ringTime = s.ringTime ∧
        (s.ring.state ≠ .locked → t.ring.state = s.ring.state) ∧
        (s.ring.state = .locked → t.ring.state =
          (if s.ring.badRun < 7 then .locked else if s.pinsCfg.holdover then .holdover else .freerun))) ∧
    (∀ s : State, s.ringRuns = true →
      ∃ t, exec .ringFrameMissing s = .next t ∧ t.ring.missing = satAdd s.ring.missing 1 ∧ t.ring.bad = s.ring.bad ∧
        t.ring.good = s.ring.good ∧ t.ringTime = s.ringTime ∧ (s.ring.state ≠ .locked → t.ring.state = s.ring.state) ∧
        (s.ring.state = .locked → t.ring.state =
          (if s.ring.badRun < 7 then .locked else if s.pinsCfg.holdover then .holdover else .freerun)))) ∧
  ((∀ s : State, s.ringRuns = true → s.roleNow = true → s.ring.state = .master →
      ∃ t, exec .ringFrameTx s = .next t ∧ t.ring.state = .master ∧ t.ring.setPending = false ∧
        (s.ring.setPending = false → t.ringTime = s.ringTime ∧ t.ring.stepFrames = s.ring.stepFrames - 1 ∧ t.out = s.out ++
          [.ring (mkFrame s.ringTime.toNat 0 (bitsOf s.ring.marksOut 7 0) (if 0 < s.ring.stepFrames then 2 else 0))]) ∧
        (s.ring.setPending = true → t.ringTime = s.ring.timeSetHi ++ s.ring.timeSetLo ∧ t.ring.stepFrames = 7)) ∧
    (∀ s : State, s.ringRuns = true → s.roleNow = false →
      (s.ring.state = .holdover ∨ s.ring.state = .freerun →
        ∃ hops, exec .ringFrameTx s = .next { s with
          fresh := s.fresh + 1, out := s.out ++ [.ring (mkFrame s.ringTime.toNat hops s.ring.marks.toNat 1)] }) ∧
      (s.ring.state = .locked ∨ s.ring.state = .acquire → exec .ringFrameTx s = .next s) ∧
      (s.ring.state = .master → ∃ t, exec .ringFrameTx s = .next t ∧ t.ring.state = .acquire ∧ t.ringTime = s.ringTime ∧ t.out = s.out)) ∧
    (∀ (s : State) (port : Port), s.owns port = true →
      (s.ring.state = .master → exec (.ringSetTime port) s = .next { s with ring := { s.ring with setPending := true } }) ∧
      (s.ring.state ≠ .master → exec (.ringSetTime port) s = .next s) ∧
      ∀ v : W32, exec (.ringCfgWrite port v) s = .next { s with ring := { s.ring with cfg := v &&& 1 } }) ∧
    (∀ s : State, s.ringRuns = true → s.ring.inStuck = false → exec .ringInStuck s = .next { s with
      ring := { s.ring with inStuck := true }, pins := { s.pins with ringStuck := satAdd s.pins.ringStuck 1 } }))

/-- Every register is 32 bits wide and is accessed by an aligned 32-bit read or write: an access of any other size or alignment is ignored,
and reads as zero (R5). -/
def Obligations.MisalignedAccessIsIgnored : Prop :=
  ∀ (s : State) (port : Port) (offset size : Nat) (v : W32), size ≠ 4 ∨ offset % 4 ≠ 0 →
    exec (.registerWrite port offset size v) s = .next s ∧ s.readRegister port offset size = ((0 : BitVec 32), s)

/-- An aligned write lands in the register's writable bits and nowhere else, and reads back: owner-only registers of the MEM, NB, PEAT and
RING blocks, a partition's STEP and RQT registers, and the limits of the PWR and THM blocks. A port that is not the owner's changes none of
the owner-only ones (R8, R100, R131, R210, R285, R305, R323, R397). -/
def Obligations.RegisterWritesLand : Prop :=
  ∀ (s : State) (port : Port) (v : W32) (p : Part),
    (s.owns port = true →
      exec (.registerWrite port 0x50000 4 v) s = .next { s with memArb := v &&& 0xFFFFFF } ∧
      exec (.registerWrite port 0x50004 4 v) s = .next { s with memScrub := v &&& 0x800000FF } ∧
      exec (.registerWrite port 0x60000 4 v) s = .next { s with nbCtrl := v &&& 0x80000007 } ∧
      exec (.registerWrite port 0xA0000 4 v) s = .next { s with peatArb := v &&& 0xFFFFFF } ∧
      exec (.registerWrite port 0xA0004 4 v) s = .next { s with peatCtrl := v &&& 0x800000FF } ∧
      exec (.registerWrite port 0xA0008 4 v) s = .next { s with peatSupplyTimeout := v } ∧
      exec (.registerWrite port 0xB0004 4 v) s = .next { s with ring := { s.ring with cableDelay := v &&& 0xFFF } } ∧
      exec (.registerWrite port 0xB0018 4 v) s = .next { s with ring := { s.ring with timeSetLo := v } } ∧
      exec (.registerWrite port 0xB001C 4 v) s = .next { s with ring := { s.ring with timeSetHi := v } } ∧
      exec (.registerWrite port 0xF0008 4 v) s = .next { s with power := { s.power with limit := v &&& 0xFF } } ∧
      exec (.registerWrite port 0xF0044 4 v) s = .next { s with power := { s.power with throttle := v &&& 0xFF } } ∧
      (∀ t, exec (.registerWrite port 0x50000 4 v) s = .next t → t.readRegister port 0x50000 4 = (v &&& 0xFFFFFF, t)) ∧
      (∀ t, exec (.registerWrite port 0x60000 4 v) s = .next t → t.readRegister port 0x60000 4 = (v &&& 0x80000007, t))) ∧
    (s.sees port p = true →
      exec (.registerWrite port (0x80000 + 0x100 * p.val) 4 v) s = .next (s.modPart p fun q => { q with
        stepRegs := { q.stepRegs with ctrl := v &&& 3 } }) ∧
      exec (.registerWrite port (0x80004 + 0x100 * p.val) 4 v) s = .next (s.modPart p fun q => { q with
        stepRegs := { q.stepRegs with timeout := v &&& 0xFFFF } }) ∧
      exec (.registerWrite port (0x30100 + 0x40 * p.val) 4 v) s = .next (s.modPart p fun q => { q with
        rqt := { q.rqt with ctrl := v &&& 0x77 } }) ∧
      exec (.registerWrite port (0x30104 + 0x40 * p.val) 4 v) s = .next (s.modPart p fun q => { q with
        rqt := { q.rqt with limits := v } })) ∧
    (s.owns port = false → ∀ offset, 0x50000 ≤ offset ∧ offset < 0x70000 ∨ 0xA0000 ≤ offset ∧ offset < 0xC0000 →
      exec (.registerWrite port offset 4 v) s = .next s) ∧
    (s.sees port p = false → ∀ o, o < 0x100 → exec (.registerWrite port (0x80000 + 0x100 * p.val + o) 4 v) s = .next s)

/-! ## Repairs and self-test (R232, R300, R302, R331-R373) -/

/-- Rung 2: a failing row with a free spare in its sub-array is remapped to it, the spare used up, the remap recorded for the ash log, and
no byte of memory changed (R331, R332). A finished copy of a relief, and of a page to its new slot, has moved every byte and left every byte
outside the destination alone, and waits while a die that it touches is held (R97, R333, R334). -/
def Obligations.RowAndCopyRepairs : Prop :=
  (∀ (s : State) (k : BankId) (row tile spare : Nat), s.poisoned = [] → (s.sites.get k.site).tile = some tile →
    (s.die (dieKey k.site k.die.val)).failing.contains (k.bank.val, row) = true →
    (s.die (dieKey k.site k.die.val)).freeSpare k.bank.val row = some spare →
      let d := s.die (dieKey k.site k.die.val)
      let second := d.remaps.any fun x => x.1 == k.bank.val && x.2.1 == row
      ∃ t, exec (.rowRemap k row [] true) s = .next t ∧
        (t.die (dieKey k.site k.die.val)).remaps = d.remaps ++ [(k.bank.val, row, spare, second)] ∧
        (t.die (dieKey k.site k.die.val)).usedSpares = (k.bank.val, spare) :: d.usedSpares ∧
        (t.die (dieKey k.site k.die.val)).failing.contains (k.bank.val, row) = false ∧ t.sheet = s.sheet ∧ t.poisoned = [] ∧
        ∃ r, t.ashPending = s.ashPending ++ [r] ∧ r.type = 1 ∧ r.arg = spare + (if second then 256 else 0)) ∧
  (∀ (s : State) (p : Part) (seg : Nat) (r : Relief), s.poisoned = [] → s.sheet.wf = true →
    (s.part p).relief.find? (fun r => r.segment == seg && !r.copied) = some r → (s.part p).vacated r = true →
    s.rangeHeld (seg * segBytes) segBytes = false → s.rangeHeld (r.relief * segBytes) segBytes = false →
    s.bankDead (placeOf (seg * segBytes)) = false → s.bankDead (placeOf (r.relief * segBytes)) = false →
      ∃ t, exec (.reliefCopyDone p seg []) s = .next t ∧
        (∀ j, j < segBytes → t.sheet.read (r.relief * segBytes + j) = s.sheet.read (seg * segBytes + j)) ∧
        (∀ a, a < r.relief * segBytes ∨ r.relief * segBytes + segBytes ≤ a → t.sheet.read a = s.sheet.read a) ∧
        (∃ x ∈ (t.part p).relief, x.segment = seg ∧ x.relief = r.relief ∧ x.copied = true)) ∧
  (∀ (s : State) (p : Part) (handle page : Nat) (m : Model) (pt : PoolPart) (d : PageDesc) (k k' : Nat), s.poisoned = [] →
    s.sheet.wf = true → (s.part p).model handle = some m → m.pool[pagePart page]? = some pt → m.desc page = some d → d.slot = some k →
    d.moving = some k' → s.rangeHeld (pt.slotAddr k) (pt.rows * 1024) = false → s.rangeHeld (pt.slotAddr k') (pt.rows * 1024) = false →
    s.bankDead (placeOf (pt.slotAddr k)) = false → s.bankDead (placeOf (pt.slotAddr k')) = false →
      ∃ t, exec (.pageMoveDone p handle page []) s = .next t ∧
        (∀ j, j < pt.rows * 1024 → t.sheet.read (pt.slotAddr k' + j) = s.sheet.read (pt.slotAddr k + j)) ∧
        (∀ a, a < pt.slotAddr k' ∨ pt.slotAddr k' + pt.rows * 1024 ≤ a → t.sheet.read a = s.sheet.read a)) ∧
  (∀ (s : State) (p : Part) (seg : Nat) (r : Relief) (errs : Errs),
    (s.part p).relief.find? (fun r => r.segment == seg && !r.copied) = some r →
    s.rangeHeld (seg * segBytes) segBytes = true ∨ s.rangeHeld (r.relief * segBytes) segBytes = true →
      exec (.reliefCopyDone p seg errs) s = .next s)

/-- Under self-test a fault of the site is a finding and nothing else (R373). In service a core's fault is kept and the fifth in its cluster
retires the cluster; a faulted engine is retired; a tile's fault quarantines its partitions, and takes the nearest spare, at once where
AUTO_SPARE is set, or with none left fences the site (R337-R339). AUTO_SPARE set gives a waiting substitution its spare; the end of a
substitution puts the tile's number on the spare and fences the failed site; and a site-frame fault is FATAL: every partition there is is
quarantined, and the router, the peat tier or the host port of the frame is retired (R338, R340). -/
def Obligations.UnitsRetire : Prop :=
  ((∀ (s : State) (site : Site) (cluster core engine : Nat) (serves : Bool), s.underTest site = true →
      exec (.coreFault site cluster core) s = .next { s with bist := { s.bist with
        findings := s.bist.findings ++ [.core cluster core] } } ∧
      exec (.engineParityError site engine) s = .next { s with bist := { s.bist with findings := s.bist.findings ++ [.engine engine] } } ∧
      exec (.tileFault site serves) s = .next { s with bist := { s.bist with findings := s.bist.findings ++ [.tile] } }) ∧
    (∀ (s : State) (site : Site) (cluster core : Nat), s.underTest site = false → (s.sites.get site).state = .inService →
      (s.units? site.val).clusters.contains cluster = false → (s.units? site.val).coreFaults.contains (cluster, core) = false →
        ∃ t, exec (.coreFault site cluster core) s = .next t ∧
          (t.units? site.val).coreFaults = (s.units? site.val).coreFaults ++ [(cluster, core)] ∧
          (4 ≤ ((s.units? site.val).coreFaults.filter fun x => x.1 == cluster).length ↔
            (t.units? site.val).clusters.contains cluster = true)) ∧
    (∀ (s : State) (site : Site) (engine : Nat), s.underTest site = false → (s.sites.get site).state = .inService →
      ∃ t, exec (.engineParityError site engine) s = .next t ∧ engine ∈ (t.units? site.val).engines ∧
        (t.units? site.val).coreFaults = (s.units? site.val).coreFaults) ∧
    (∀ (s : State) (site : Site) (serves : Bool) (tile : Nat), s.underTest site = false → (s.sites.get site).state = .inService →
      (s.sites.get site).tile = some tile → (∀ x ∈ s.substs, x.failed ≠ site) →
        ∃ t, exec (.tileFault site serves) s = .next t ∧
          (∀ p ∈ s.holders site.val, (s.part p).st ≠ .absent → (t.part p).st = .quarantined) ∧
          (∀ sp, s.nearestSpare site = some sp → t.substs = s.substs ++
            [Subst.mk site (if s.fltCtrl.getLsbD 31 then some sp else none) tile serves (!s.fltCtrl.getLsbD 31)]) ∧
          (s.nearestSpare site = none → (t.sites.get site).state = .fenced ∧ (t.sites.get site).tile = none))) ∧
  ((∀ (s : State) (port : Port), s.reaches port = true →
      ∃ t, exec (.autoSpareSet port) s = .next t ∧ t.fltCtrl.getLsbD 31 = true ∧
        ((∀ x ∈ s.substs, x.waiting = false) → t = { s with fltCtrl := t.fltCtrl }) ∧
        (∀ x sp, s.substs = [x] → x.waiting = true → s.nearestSpare x.failed = some sp →
          t = { s with fltCtrl := t.fltCtrl, substs := [{ x with spare := some sp, waiting := false }] })) ∧
    (∀ (s : State) (site sp : Site) (x : Subst), s.power.mgmtLost = false →
      s.substs.find? (fun x => x.failed == site && !x.waiting) = some x → x.spare = some sp → sp ≠ site →
        ∃ t, exec (.substitutionDone site) s = .next t ∧ (t.sites.get sp).state = .inService ∧ (t.sites.get sp).tile = some x.tile ∧
          (t.sites.get site).state = .fenced ∧ (t.sites.get site).tile = none ∧ (∀ y ∈ t.substs, y.failed ≠ site)) ∧
    (∀ (s : State) (site : Site),
      (∃ t, exec (.frameFault site 0) s = .next t ∧ t.fatal = true ∧ (t.sites.get site).routerRetired = true ∧
        (∀ p, (s.part p).st ≠ .absent → (t.part p).st = .quarantined)) ∧
      (edgeSite site.val = true → ∃ t, exec (.frameFault site 1) s = .next t ∧ t.fatal = true ∧ t.peatRetired = true ∧
        (∀ p, (s.part p).st ≠ .absent → (t.part p).st = .quarantined)) ∧
      (∀ port, cornerSite port = site.val → ∃ t, exec (.frameFault site 2) s = .next t ∧ t.fatal = true ∧
        (t.port port).lost = true ∧ (t.port port).linkUp = false ∧
        (∀ p, (s.part p).st ≠ .absent → (t.part p).st = .quarantined))))

/-- The oldest waiting record is appended to the current copy of the ash log with the next sequence number, its covered records marked, and
nothing but flash and the queue of records changes; and the next fault entry that may begin is handled, entries whose work is done leaving
their FIFO. With the management tile lost neither goes on (R340, R346, R350). -/
def Obligations.AshLogAndEntries : Prop :=
  (∀ (s : State) (r : AshRec) (rest : List AshRec), s.power.mgmtLost = false → s.ashPending = r :: rest →
    s.flash.ash.2.length < 7680 →
      ∃ t, exec .ashLogAppend s = .next t ∧
        t = { s with ashPending := rest, flash := t.flash, ashLogFull := false, ashUnrecorded := 0 } ∧
        t.flash.ash.1 = s.flash.ash.1 ∧ t.flash.ashSeq = s.flash.ashSeq + 1 ∧
        t.flash.ash.2 = (s.flash.ash.2.map fun x => if ashCovers r x then { x with superseded := true } else x) ++
          [{ r with seq := s.flash.ashSeq + 1 }]) ∧
  (∀ (s : State) (o : Option Part) (i : Nat), s.power.mgmtLost = false → nextEntry (s.busyHandlers o) [] (s.fifo o) = some i →
    let u := s.modFifo o fun l => l.modify i fun e => { e with handling := true }
    ∃ t, exec (.faultEntryHandle o) s = .next t ∧ t.fifo o = (u.fifo o).filter (fun e => !e.handling || u.entryBusy e) ∧
      (∀ p, t.part p = { s.part p with fifo := (t.part p).fifo }) ∧ t = { s with parts := t.parts, sheetFifo := t.sheetFifo }) ∧
  (∀ (s : State) (o : Option Part), s.power.mgmtLost = true →
    exec .ashLogAppend s = .next s ∧ exec (.faultEntryHandle o) s = .next s)

/-- A refetch whose sixteen chunks read CLEAN writes the billet again, byte for byte from its source, and its repair is over; one that meets
an UNCORRECTABLE chunk loses the source (R300, R302). It writes nothing outside the partition's fence (R34), and waits while a die or
channel that it touches is held (R97, R303). A lost source that is supplied: BILLET_SUPPLY reads the 4 KiB it names, and completes
WRONG_STATE where nothing is lost. Where none comes in time, the loss times out and a request of the model that is in no step FAULTS, with
that code; a timeout of 0 never comes (R302). -/
def Obligations.WeightsAreRefetched : Prop :=
  (∀ (s : State) (p : Part) (handle region billet a c : Nat) (r : Repair) (m : Model), s.repair? p handle region billet = some r →
      (s.part p).model handle = some m → r.phase = .refetch → (s.part p).billetAddr m region billet = some a →
      (s.part p).billetPeat m region billet = some c → s.peatRetired = false → s.peatPoisoned = [] → s.sheet.wf = true →
      let at_ := (s.part p).relieved m.handle a
      let dst := at_ / 64 * 64
      (∀ i, i < 64 → s.bankDead (placeOf (dst + 64 * i)) = false) →
      ((s.chunksHeld (c / 256) 16 = true ∨ s.rangeHeld at_ 4096 = true) → ∀ errs : Errs,
        exec (.refetchDone p handle region billet errs) s = .next s) ∧
      (s.chunksHeld (c / 256) 16 = false → s.rangeHeld at_ 4096 = false → s.peatBreach p c 4096 false = none →
        (∀ g, s.breach p at_ 4096 true = some g → ∃ t, exec (.refetchDone p handle region billet []) s = .next t ∧ t.sheet = s.sheet ∧
          t.peat = s.peat) ∧
        (s.breach p at_ 4096 true = none → ∃ t, exec (.refetchDone p handle region billet []) s = .next t ∧
          (∀ j, j < 4096 → t.sheet.read (dst + j) = s.peat.read (c / 256 * 256 + j)) ∧
          (∀ x, x < dst ∨ dst + 4096 ≤ x → t.sheet.read x = s.sheet.read x) ∧ t.peat = s.peat ∧
          t.repair? p handle region billet = none) ∧
        (∀ i, i < 16 → ∃ t r', exec (.refetchDone p handle region billet [(c / 256 + i, .uncorrectable)]) s = .next t ∧
          t.sheet = s.sheet ∧ t.repair? p handle region billet = some r' ∧ r'.phase = .lost s.uptime false))) ∧
  ((∀ (s : State) (src : Src) (c : Cmd) (p : Part) (m : Model) (x : RegionRec), s.pickCmd src 0x51 = some c →
      s.srcPort src = some s.ownerPort → c.f 33 1 = p.val → (s.part p).model c.model = some m → m.pkg.regions[c.f 16 4]? = some x →
      x.kind = c.f 32 1 →
        (s.lossOf p c.model (c.f 16 4) (c.f 20 4) = none →
          ∃ t, exec (.billetSupply src) s = .next t ∧
            State.Tells (s.modTaken src fun l => l.filter fun d => decide (d.id ≠ c.id)) t) ∧
        (∀ r, s.lossOf p c.model (c.f 16 4) (c.f 20 4) = some r → c.got = [] → s.portLive s.ownerPort = true → s.outstanding s.ownerPort = 0 →
          (∀ x ∈ s.reads, x.sent = true) →
          ∃ t, exec (.billetSupply src) s = .next t ∧ t.out = s.out ++ [.hostRead s.ownerPort s.freeTag (c.f 24 8) 4096] ∧
            t.reads = s.reads ++ [{ port := s.ownerPort, tag := s.freeTag, addr := c.f 24 8, len := 4096, issued := s.uptime
                                    why := .cmd src c.id }] ∧
            t.repairs = s.repairs ∧ t.sheet = s.sheet ∧ t.peat = s.peat)) ∧
    (∀ (s : State) (p : Part) (handle region billet since : Nat) (r : Repair), s.repair? p handle region billet = some r →
      r.phase = .lost since false →
        (s.peatSupplyTimeout = 0 → exec (.supplyTimeout p handle region billet) s = .next s) ∧
        (s.peatSupplyTimeout ≠ 0 → (∀ q, ∀ c ∈ (s.part q).taken, c.run ≠ .closing) →
          ∃ t, exec (.supplyTimeout p handle region billet) s = .next t ∧
            t.repair? p handle region billet = some { r with phase := .lost since true } ∧
            (s.power.phase ≠ .off → since + s.peatSupplyTimeout.toNat * 1000000 ≤ t.uptime) ∧
            (∀ q h n, s.billetRequests p handle region = [(q, h, n)] → (s.part q).step = none →
              ∃ x, (t.part q).req n = some x ∧ x.state = .faulted ∧ x.fault = 0x2033))))

/-- The end of a spill has moved every byte of the page to its peat area, and the end of a fetch every byte back to its slot; each is
counted, and memory outside the destination stays (R232, R233). Neither writes outside the partition's fence, and both wait while a die of
the slot is held (R34, R97). -/
def Obligations.PagesMoveBetweenTiers : Prop :=
  ∀ (s : State) (p : Part) (handle page : Nat) (m : Model) (pt : PoolPart) (d : PageDesc) (k unit n : Nat),
    (s.part p).model handle = some m → m.pool[pagePart page]? = some pt → m.desc page = some d → d.slot = some k →
    d.peat = some (unit, n) → s.poisoned = [] → s.peatPoisoned = [] → s.peatRetired = false → s.sheet.wf = true → s.peat.wf = true →
    let addr := pt.slotAddr k / 64 * 64
    let all := (s.part p).pageLen handle page
    let len := all / 256 * 256
    (∀ errs : Errs, s.rangeHeld (pt.slotAddr k) all = true → d.loc = .spilling → exec (.spillDone p handle page errs) s = .next s) ∧
    (∀ errs : Errs, s.rangeHeld (pt.slotAddr k) all = true → d.loc = .fetching → exec (.fetchDone p handle page errs) s = .next s) ∧
    (s.rangeHeld (pt.slotAddr k) all = false → (∀ j, j < len → s.bankDead (placeOf (addr + j / 64 * 64)) = false) →
      (d.loc = .spilling → s.breach p (pt.slotAddr k) all false = none → s.peatBreach p (unit * 4096) all true = none → ∃ t, exec (.spillDone p handle page []) s = .next t ∧
        (∀ j, j < len → t.peat.read (unit * 4096 + j) = s.sheet.read (addr + j)) ∧
        (∀ a, a < unit * 4096 ∨ unit * 4096 + len ≤ a → t.peat.read a = s.peat.read a) ∧ t.sheet = s.sheet ∧
        (t.part p).kv.spill = satAdd (s.part p).kv.spill 1) ∧
      (d.loc = .fetching → s.breach p (pt.slotAddr k) all true = none → s.peatBreach p (unit * 4096) all false = none → ∃ t, exec (.fetchDone p handle page []) s = .next t ∧
        (∀ j, j < len → t.sheet.read (addr + j) = s.peat.read (unit * 4096 + j)) ∧
        (∀ a, a < addr ∨ addr + len ≤ a → t.sheet.read a = s.sheet.read a) ∧ t.peat = s.peat ∧
        (t.part p).kv.fetch = satAdd (s.part p).kv.fetch 1) ∧
      (∀ errs g, d.loc = .spilling → s.peatBreach p (unit * 4096) all true = some g →
        ∃ t, exec (.spillDone p handle page errs) s = .next t ∧ t.peat = s.peat))

/-- BIST_RUN of a tile in service, its limits passing and nothing in its way, takes the nearest spare and holds the tile's partitions, the
save beginning once none of them runs a step; with a test in progress, failing limits or no spare it tests nothing and completes with that
result (R367, R369-R371). The save's end gives the tile's number to the spare, and the test begins; a test without findings sends the tile
back; the restore's end gives the number back to the tested site, the spare being a spare again, zeroised, and the result stands (R370,
R372, R373). Save and restore wait while a die or the channel that they use is held (R97, R303). -/
def Obligations.SelfTestRuns : Prop :=
  (∀ (s : State) (src : Src) (c : Cmd) (env : BistEnv) (site : Site), s.pickCmd src 0x50 = some c →
      (∀ p, src = .part p → s.isTenant p = false) → c.f 17 1 ≤ 2 → c.f 18 1 = 0 → s.siteOf (c.f 16 1) = some site →
        ∃ t, exec (.bistRun src env) s = .next t ∧
          (s.bistBusy site = true → t.bist = { s.bist with lastResult := 7 } ∧
            t.taken src = (s.taken src).filter fun d => decide (d.id ≠ c.id)) ∧
          (s.bistBusy site = false → limitsFailed env ≠ 0 → t.bist = { s.bist.check env with lastResult := 4 } ∧
            t.taken src = (s.taken src).filter fun d => decide (d.id ≠ c.id)) ∧
          (s.bistBusy site = false → limitsFailed env = 0 → s.nearestSpare site = none →
            t.bist = { s.bist.check env with lastResult := 5 }) ∧
          (∀ sp, s.bistBusy site = false → limitsFailed env = 0 → s.nearestSpare site = some sp →
            t.bist.busy = true ∧ t.bist.site = site ∧ t.bist.spare = some sp ∧ t.bist.tile = some (c.f 16 1) ∧
              t.bist.handedOver = false ∧ (∀ p ∈ s.holders site.val, (t.part p).bistHold = true) ∧
              ((∀ p, (s.part p).step = none) → t.bist.phase = .save) ∧
              ((∃ p ∈ s.holders site.val, (s.part p).step ≠ none) → t.bist.phase = .hold) ∧ t.sites = s.sites ∧ t.sheet = s.sheet)) ∧
  ((∀ (s : State) (n : Nat) (sp : Site), s.bist.phase = .save → s.bistWaits = false → s.bist.tile = some n → s.bist.spare = some sp → sp ≠ s.bist.site →
      ∃ t, exec (.bistSaveDone false) s = .next t ∧ t.bist = { s.bist with phase := .test, handedOver := true } ∧
        (t.sites.get sp).state = .inService ∧ (t.sites.get sp).tile = some n ∧ (t.sites.get s.bist.site).tile = none ∧
        (∀ i, i ≠ sp → i ≠ s.bist.site → t.sites.get i = s.sites.get i) ∧ (∀ p, (t.part p).bistHold = false)) ∧
    (∀ s : State, s.bistWaits = true → (∀ lost, exec (.bistSaveDone lost) s = .next s) ∧ exec .bistRestoreDone s = .next s) ∧
    (∀ s : State, s.bist.phase = .test → s.bist.findings = [] →
      ∃ t, exec (.bistTestDone []) s = .next t ∧ t.bist.result = 0 ∧ t.sites = s.sites ∧ t.sheet = s.sheet ∧
        (s.bist.handedOver = false → t.bist.phase = .restore) ∧
        (∀ sp, s.bist.handedOver = true → s.bist.spare = some sp → (∀ p, (s.part p).step = none) → t.bist.phase = .restore)) ∧
    (∀ (s : State) (env : BistEnv),
      (s.bist.busy = false → exec (.bistLimitCheck env) s = .next s) ∧
      (s.bist.busy = true → limitsFailed env = 0 → exec (.bistLimitCheck env) s = .next { s with bist := s.bist.check env }) ∧
      (s.bist.busy = true → limitsFailed env ≠ 0 → s.bist.phase = .test → s.bist.handedOver = false →
        exec (.bistLimitCheck env) s = .next { s with bist := { s.bist.check env with findings := [], phase := .restore, result := 4 } })) ∧
    (∀ (s : State) (n : Nat) (sp : Site), s.bist.phase = .restore → s.bistWaits = false → s.bist.handedOver = true → s.bist.tile = some n →
      s.bist.spare = some sp → sp ≠ s.bist.site → s.substs = [] →
        ∃ t, exec .bistRestoreDone s = .next t ∧ t.bist = { s.bist with phase := .clear, handedOver := false } ∧
          (t.sites.get s.bist.site).state = .inService ∧ (t.sites.get s.bist.site).tile = some n ∧
          (t.sites.get sp).state = .spare ∧ (t.sites.get sp).tile = none) ∧
    (∀ (s : State) (sp : Site), s.bist.phase = .clear → s.bist.spare = some sp →
      ∃ t, exec .bistClearDone s = .next t ∧ t.bist.phase = .idle ∧ t.bist.busy = false ∧ t.bist.lastResult = s.bist.result ∧
        (∀ a, (64 + sp.val) * stackSegs * segBytes ≤ a → a < (65 + sp.val) * stackSegs * segBytes → t.sheet.read a = 0) ∧
        (∀ a, a < (64 + sp.val) * stackSegs * segBytes ∨ (65 + sp.val) * stackSegs * segBytes ≤ a → t.sheet.read a = s.sheet.read a)))

/-! ## Steps (R193-R211, R266, R271, R272, R283, R284, R296, R297) -/

/-- A formation that still waits for a read of CONSUMED stands, its partition's formed step and memory as they were; one that does not forms
a step of at least one request, a prompt of the running step whose next split may come to it counted, with no more decode requests than the
ROLE's STREAM_LIMIT, or none (R75, R194, R266). A partition that does not run forms nothing. A formed step begins its HEAD once it has been
looked at again: free-running at once, with CADENCE at a mark only. It holds the picks that are left, its runs stand at the head program,
and the formed step is gone; a mark that passes while a step runs is counted, and the step goes on (R193, R208, R209). -/
def Obligations.StepsFormAndBegin : Prop :=
  (∀ (s : State) (p : Part),
      ((s.part p).st ≠ .running ∨ s.serving = false → exec (.stepForm p) s = .next s) ∧
      ((s.part p).st = .running → s.serving = true →
        (((s.readRings p).part p).ringsWait = true → ∃ t, exec (.stepForm p) s = .next t ∧ (t.part p).forming = true ∧
          (t.part p).formed = (s.part p).formed ∧ (t.part p).models = (s.part p).models ∧ t.sheet = s.sheet ∧
          (∀ i, i ≠ p → t.part i = s.part i)) ∧
        (((s.readRings p).part p).ringsWait = false → ∃ t, exec (.stepForm p) s = .next t ∧
          ∀ f, (t.part p).formed = some f → (f.picks ≠ [] ∨ f.cands ≠ []) ∧
            (f.picks.filter fun x => x.split == 0).length ≤ (s.part p).role.streamLimit))) ∧
  ((∀ (s : State) (p : Part) (errs : Errs),
      ((s.part p).cadence = true ∨ s.mayBegin p = false → exec (.stepHeadStart p errs) s = .next s) ∧
      ((s.part p).cadence = false → s.mayBegin p = true →
        ∃ t, exec (.stepHeadStart p errs) s = .next t ∧ State.StepBegun ((s.walkReads p errs).reviseNow p) t p)) ∧
    (∀ (s : State) (p : Part) (errs : Errs), (s.part p).cadence = true → s.trusted = true →
      (∀ st, (s.part p).step = some st → ∃ t, exec (.cadenceMark p errs) s = .next t ∧ (t.part p).step = some st ∧
        (t.part p).stepRegs.cadMiss = satAdd (s.part p).stepRegs.cadMiss 1 ∧ t.sheet = s.sheet ∧
        ((s.part p).stepRegs.cadMet = false → t.out = s.out)) ∧
      ((s.part p).step = none → ∃ (u t : State), exec (.cadenceMark p errs) s = .next t ∧ u.now = (s.ringTo ((s.part p).nextMark s.now)).now ∧
        (u.part p).formed = (s.part p).formed ∧ (u.mayBegin p = false → t = u) ∧
        (u.mayBegin p = true → State.StepBegun ((u.walkReads p errs).reviseNow p) t p))))

/-- Every run whose regions are in place, and that may go on, begins its next program; a member of a staging set, once streamed, stands in
its range with its partner, its bytes counted; a collective that has waited for STEP_PRT_TIMEOUT, at least 100 µs, abandons the step, which
commits nothing, and quarantines its partition (R196, R199, R210, R296, R297). -/
def Obligations.ProgramsAndCollectives : Prop :=
  (∀ (s : State) (p : Part) (st : Step), (s.part p).step = some st →
    ∃ t, exec (.programStart p) s = .next t ∧ t = { s with parts := t.parts } ∧ (∀ i, i ≠ p → t.part i = s.part i) ∧
      t.part p = { s.part p with step := some { st with
        runs := st.runs.map fun r => if (s.part p).mayStart st r then { r with started := true, startedAt := s.uptime } else r } }) ∧
  (∀ (s : State) (p : Part) (handle region : Nat) (errs : Errs) (m : Model), (s.part p).model handle = some m →
    ((s.part p).mayStream m region = false → exec (.stagingDone p handle region errs) s = .next s) ∧
    ((s.part p).mayStream m region = true →
      ∃ t m', exec (.stagingDone p handle region errs) s = .next t ∧ (t.part p).model handle = some m' ∧
        (∀ g ∈ m.pkg.member region, g ∈ m'.staged) ∧
        (t.part p).ctr.streamedBytes = (s.part p).ctr.streamedBytes + 4096 * ((s.part p).moverOrder m (m.pkg.member region)).length)) ∧
  (∀ (s : State) (p : Part) (tile : Nat) (st : Step), (s.part p).step = some st → (s.part p).st = .running →
    (s.part p).flrPending = false →
      (st.runs.all (fun r => !r.started) = true → exec (.collectiveTimeout p tile) s = .next s) ∧
      (st.runs.any (fun r => r.started) = true →
        ∃ t, exec (.collectiveTimeout p tile) s = .next t ∧ (t.part p).step = none ∧ (t.part p).formed = none ∧
          (t.part p).st = .quarantined ∧ (t.part p).stopCause = 3 ∧
          (∀ k, k ∈ st.runs → k.started = true → (∀ x ∈ st.runs, x.started = true → k.startedAt ≤ x.startedAt) → s.power.phase ≠ .off →
            k.startedAt + max 100 (bitsOf (s.part p).stepRegs.timeout 15 0) * 1000 ≤ t.uptime) ∧
          (t.part p).stepRegs.abandoned = satAdd (s.part p).stepRegs.abandoned 1 ∧
          (t.part p).stepRegs.committed = (s.part p).stepRegs.committed ∧ t.sheet = s.sheet ∧
          (∀ h r, (s.part p).req h = some r → ∃ r', (t.part p).req h = some r' ∧ r'.length = r.length ∧ r'.chain = r.chain ∧
            r'.lists = r.lists ∧ r'.produced = r.produced)))

/-- A step whose programs have all run commits: before the boundary that follows, no step stands, one more is counted as committed, its
duration stands in LAST_NS, a request whose results are withheld stands as it was, and a request that goes on has its chain and length grown
by what it yielded (R193, R196, R198, R207, R210). -/
def Obligations.StepsCommit : Prop :=
  ∀ (s : State) (p : Part) (st : Step), (s.part p).step = some st →
    (st.runs.all (·.finished) = false → exec (.stepCommit p) s = .next s) ∧
    (st.runs.all (·.finished) = true → (st.picks.map (·.req)).Nodup →
      ∃ (u t : State), exec (.stepCommit p) s = .next t ∧ t = (u.afterCommit p (st.picks.map (s.outturn p st))).bistSettle ∧
        (u.part p).step = none ∧ (u.part p).stepRegs.committed = satAdd (s.part p).stepRegs.committed 1 ∧
        (u.part p).stepRegs.lastNs = sat32 (s.uptime - st.headUp) ∧
        (∀ x ∈ st.picks, ∀ r, (s.part p).req x.req = some r →
          ((s.outturn p st x).commits = false → (u.part p).req x.req = some r) ∧
          ((s.outturn p st x).commits = true → (s.outturn p st x).cause = none → (s.outturn p st x).expires = false →
            ∃ r', (u.part p).req x.req = some r' ∧ r'.steps = r.steps + 1 ∧
              r'.length = r.length + (if x.split = 0 then (s.outturn p st x).records.length else x.split) ∧
              r'.chain.words = r.chain.words ++ (s.outturn p st x).records.map (·.1) ∧
              r'.generated = r.generated + (s.outturn p st x).records.length)))

/-- At a step boundary, a live request whose DEADLINE has come expires with an END-only record, once its ring has a slot, or with CONTINUE
is marked once; an END-only record that waited for a slot is written, and the request is DONE or EXPIRED (R271, R272). -/
def Obligations.DeadlinesAndLateEnds : Prop :=
  (∀ (s : State) (p : Part) (h : Nat) (r : Req), (s.part p).req h = some r → (s.part p).step = none →
    (s.part p).inStep h = false → r.deadline ≠ 0 → r.deadline < 2 ^ 64 → s.trusted = true →
    r.state.live = true → r.deadlinePassed = false → r.endAs = none →
      ∃ t r', exec (.deadlineReached p h) s = .next t ∧ (t.part p).req h = some r' ∧
        (r.continues = true → r' = { r with deadlinePassed := true }) ∧
        (r.continues = false → 1 ≤ r.ringFree → r'.state = .expired ∧ r'.closing = false ∧
          ((s.part p).port.isSome → r'.produced = (r.produced + 1) % 2 ^ 32)) ∧
        (r.continues = false → r.ringFree = 0 → r'.state = r.state ∧ r'.closing = true ∧ r'.endAs = some 5 ∧
          r'.produced = r.produced)) ∧
  (∀ (s : State) (p : Part) (h e : Nat) (r : Req), (s.part p).req h = some r → (s.part p).step = none → r.endAs = some e →
    1 ≤ r.ringFree →
      ∃ t r', exec (.endOnlyRecord p h) s = .next t ∧ (t.part p).req h = some r' ∧
        r'.state = (if e = 5 then .expired else .done) ∧ r'.endAs = none ∧ r'.closing = false ∧
        ((s.part p).port.isSome → r'.produced = (r.produced + 1) % 2 ^ 32))

/-- The end of a slot in which a step of its partition runs leaves the slot to that step, its overrun noted; else the SRAM and the scratch
lines of its tiles are zeroed before a slot of another partition, which waits for the zeroing; the zeroing's end begins that slot, from
which the debt of its partition on its tiles is taken as far as it goes (R40, R284). -/
def Obligations.SlotsTurnOver : Prop :=
  (∀ (s : State) (i : Nat) (x : Slot), s.slice.slots[i]? = some x → s.slice.frameLength ≠ 0 → s.slice.frameStart ≤ s.now →
    (∀ p st, x.owner = some p → (s.part p).step = some st → st.slots.contains i = true →
      ∃ t, exec (.slotBoundary i) s = .next t ∧ t.slice = { s.slice with overrun := insertA s.slice.overrun i t.now } ∧
        t.parts = s.parts ∧ t.scratch = s.scratch) ∧
    ((∀ p st, x.owner = some p → (s.part p).step = some st → st.slots.contains i = false) →
      ∃ t, exec (.slotBoundary i) s = .next t ∧ (∀ o ∈ t.slice.overrun, o.1 ≠ i) ∧
        ∀ j ∈ s.slice.following i, ∀ y, s.slice.slots[j]? = some y → y.part ≠ x.part →
          j ∈ t.slice.zeroing ∧ (∀ n ∈ s.maskTiles x.tiles, ∀ l, t.line n l = {}) ∧
            ∀ e ∈ t.sram, x.tiles.getLsbD e.1 = false)) ∧
  (∀ (s : State) (i : Nat) (x : Slot) (p : Part), s.slice.zeroing.contains i = true → s.slice.slots[i]? = some x → x.owner = some p →
    ∃ t, exec (.slotZeroiseDone i) s = .next t ∧ t.slice.zeroing.contains i = false ∧
      let debt := ((s.slice.debts.filter fun d => decide (d.1 = p.val) && decide (d.2.1 &&& x.tiles ≠ 0)).map fun d => d.2.2).sum
      (t.part p).rqt.sliceDebt = (s.part p).rqt.sliceDebt - min debt x.len ∧ t.slice.taken i = min debt x.len)

/-! ## Operators (R170-R185) -/

/-- ADD computes IN0 + IN1, rounded once to BF16, for every token of its run; the step and memory are otherwise as they were (R182). -/
def Obligations.AddRoundsTheSumOnce : Prop :=
  ∀ (s : State) (p : Part) (handle : Nat) (st : Step) (m : Model) (i : Nat) (run : ModelRun) (d : DescRec),
    s.opAt p handle 11 st m i run d →
      ∃ t, exec (.add p handle) s = .next t ∧ t.sheet = s.sheet ∧
        State.OpDone s t p st m i run (fun x => x.verdicts = st.verdicts ∧ x.pageWrites = st.pageWrites) fun _ a b =>
          ∀ u w, lookupA a.slots d.in0 = some u → lookupA a.slots d.in1 = some w →
            Tok.puts a b d.out (List.zipWith (fun x y => bf16Enc ((bf16Val x).plus (bf16Val y))) u w) false

/-- An operator runs only where a run of its model stands at its opcode. ROPE rotates the heads of IN0 at the token's position, ACT applies
its function to IN0 with its gate IN1, COMBINE adds the experts' outputs by their gates, a dropped one adding zero, and KV_APPEND holds the
new entry for the shard, of DIM0 and DIM1 elements, in memory that of a drafted node alone, in the scratch buffer (R170, R175, R176, R179,
R181, R223). -/
def Obligations.TokenOperatorsRun : Prop :=
  (∀ (s : State) (p : Part) (handle : Nat) (errs : Errs),
    ∀ c ∈ [(Instr.embed p handle errs, 1), (.rmsNorm p handle errs, 2), (.layerNorm p handle errs, 3), (.linear p handle errs, 4),
        (.rope p handle, 5), (.kvAppend p handle, 6), (.attend p handle errs, 7), (.act p handle, 8), (.route p handle errs, 9),
        (.combine p handle, 10), (.add p handle, 11), (.logits p handle errs, 12), (.sample p handle, 13), (.season p handle, 14),
        (.scatter p handle errs, 15)],
      (∀ st m, (s.part p).step = some st → (s.part p).model handle = some m → (s.part p).runFor st m c.2 = none) →
        exec c.1 s = .next s) ∧
  (∀ (s : State) (p : Part) (handle : Nat) (st : Step) (m : Model) (i : Nat) (run : ModelRun) (d : DescRec),
    let keep := fun (x : Step) => x.verdicts = st.verdicts ∧ x.pageWrites = st.pageWrites
    (∀ r : RotaryRec, s.opAt p handle 5 st m i run d → m.pkg.rotaries[d.obj0]? = some r →
      ∃ t, exec (.rope p handle) s = .next t ∧ t.sheet = s.sheet ∧ State.OpDone s t p st m i run keep fun _ a b =>
        ∀ u, lookupA a.slots d.in0 = some u →
          Tok.puts a b d.out (ropeHeads r (d.par 20 2) (d.par 22 2) (d.par 24 2) a.pos u) false) ∧
    (s.opAt p handle 8 st m i run d →
      ∃ t, exec (.act p handle) s = .next t ∧ t.sheet = s.sheet ∧ State.OpDone s t p st m i run keep fun _ a b =>
        ∀ u, lookupA a.slots d.in0 = some u →
          (d.in1 = 0xFF → Tok.puts a b d.out (u.map fun x => bf16Act (d.par 20 1) x none) false) ∧
          (∀ w, d.in1 ≠ 0xFF → lookupA a.slots d.in1 = some w → w.length = u.length →
            Tok.puts a b d.out (List.zipWith (fun x y => bf16Act (d.par 20 1) x (some y)) u w) false)) ∧
    (s.opAt p handle 10 st m i run d →
      ∃ t, exec (.combine p handle) s = .next t ∧ t.sheet = s.sheet ∧ State.OpDone s t p st m i run keep fun _ a b =>
        ∀ u w, lookupA a.slots d.in0 = some u → lookupA a.slots d.in1 = some w →
          ∃ (v : List W16) (order : Nat → Nat), Tok.puts a b d.out v false ∧ v.length = m.pkg.slots.getD d.out 0 ∧
          ∀ o, o < v.length → v[o]? = some (bf16OfF32 (f32Sum (order o) ((routeOf w).mapIdx fun j g =>
            if g.1 = none32 then f32Zero else f32Mul g.2 (f32OfBf16 (u.getD (j * v.length + o) 0)))))) ∧
    (∀ sh : ShardRec, s.opAt p handle 6 st m i run d → m.pkg.shards[d.obj0]? = some sh →
      (∀ a ∈ st.toks, run.has a = true → ∀ x, (s.part p).scratchPlace st.picks a d.obj0 = some x → s.writable p (x / segBytes) = true) →
      ∃ t, exec (.kvAppend p handle) s = .next t ∧ State.OpDone s t p st m i run keep (fun _ a b =>
        ∀ u w, lookupA a.slots d.in0 = some u → (sh.dim1 ≠ 0 → lookupA a.slots d.in1 = some w) →
          b = { a with held := a.held ++ [⟨d.obj0, u.take sh.dim0, if sh.dim1 = 0 then [] else w.take sh.dim1⟩] }) ∧
        ((∀ a ∈ st.toks, run.has a = true → (s.part p).scratchPlace st.picks a d.obj0 = none) → t.sheet = s.sheet) ∧
        (s.sheet.wf = true → ∀ addr, (∀ a ∈ st.toks, run.has a = true → ∀ x, (s.part p).scratchPlace st.picks a d.obj0 = some x →
          addr < x / 64 * 64 ∨ x / 64 * 64 + 2 * sh.padded ≤ addr) → t.sheet.read addr = s.sheet.read addr)))

/-- Where memory reads without an error, EMBED puts the token's row of the table, times its multiplier, RMS_NORM and LAYER_NORM the normed
vector with its gain and bias, and LINEAR without experts the product with its matrix, rounded once, a bias added first (R172-R174). -/
def Obligations.WeightOperatorsRun : Prop :=
  ∀ (s : State) (p : Part) (handle : Nat) (st : Step) (m : Model) (i : Nat) (run : ModelRun) (d : DescRec), s.poisoned = [] →
    let keep := fun (x : Step) => x.verdicts = st.verdicts ∧ x.pageWrites = st.pageWrites
    let vec := fun (at_ n : Nat) => s.vec? p m (d.par at_ 4) (d.par (at_ + 4) 4) n
    let dirty := fun (at_ n : Nat) => s.anyPoison (s.vecRanges p m (d.par at_ 4) (d.par (at_ + 4) 4) n)
    (∀ mx : MatrixRec, s.opAt p handle 1 st m i run d → m.pkg.matrices[d.obj0]? = some mx →
      ∃ t, exec (.embed p handle []) s = .next t ∧ t.sheet = s.sheet ∧ State.OpDone s t p st m i run keep fun _ a b =>
        ∀ x y, s.tileAt p m mx a.token = some (x, y) → Tok.puts a b d.out
          ((List.range mx.inp).map fun k => bf16OfF32 (f32Mul (weightVal mx.format (s.sheet.code mx.format x k)
            (if mx.tsb = 0 then 0 else s.scaleCode mx.format y (k / fmtBlock mx.format))) (d.f32 20)))
          (s.anyPoison (s.tileRanges p m mx [a.token]))) ∧
    (s.opAt p handle 2 st m i run d →
      ∃ t, exec (.rmsNorm p handle []) s = .next t ∧ t.sheet = s.sheet ∧ State.OpDone s t p st m i run keep fun _ a b =>
        ∀ u, lookupA a.slots d.in0 = some u → ∃ v order, Tok.puts a b d.out v (dirty 24 (m.pkg.slots.getD d.in0 0)) ∧
          v.length = u.length ∧ ∀ j x, u[j]? = some x → v[j]? = some (bf16OfF32 (f32Mul
            (f32Div (f32OfBf16 x) (f32Sqrt (f32Add (f32Div (f32Dot order (u.map f32OfBf16) (u.map f32OfBf16)) (f32OfInt u.length))
              (d.f32 20))))
            (match vec 24 (m.pkg.slots.getD d.in0 0) with | some g => f32OfBf16 (g.getD j 0) | none => f32One)))) ∧
    (s.opAt p handle 3 st m i run d →
      ∃ t, exec (.layerNorm p handle []) s = .next t ∧ t.sheet = s.sheet ∧ State.OpDone s t p st m i run keep fun _ a b =>
        ∀ u, lookupA a.slots d.in0 = some u → ∃ v order order', ∃ mean root : W32,
          Tok.puts a b d.out v (dirty 24 (m.pkg.slots.getD d.in0 0) || dirty 32 (m.pkg.slots.getD d.in0 0)) ∧
          v.length = u.length ∧ mean = f32Div (f32Sum order (u.map f32OfBf16)) (f32OfInt u.length) ∧
          root = f32Sqrt (f32Add (f32Div (f32Dot order' (u.map fun x => f32Sub (f32OfBf16 x) mean)
            (u.map fun x => f32Sub (f32OfBf16 x) mean)) (f32OfInt u.length)) (d.f32 20)) ∧
          ∀ j x, u[j]? = some x → v[j]? = some (bf16OfF32 (f32Add (f32Mul (f32Div (f32Sub (f32OfBf16 x) mean) root)
            (match vec 24 (m.pkg.slots.getD d.in0 0) with | some g => f32OfBf16 (g.getD j 0) | none => f32One))
            (match vec 32 (m.pkg.slots.getD d.in0 0) with | some c => f32OfBf16 (c.getD j 0) | none => f32Zero)))) ∧
    (∀ mx : MatrixRec, s.opAt p handle 4 st m i run d → m.pkg.matrices[d.obj0]? = some mx →
      ∃ t, exec (.linear p handle []) s = .next t ∧ t.sheet = s.sheet ∧ State.OpDone s t p st m i run keep fun _ a b =>
        ∀ u, lookupA a.slots d.in0 = some u → ∃ v bad order, Tok.puts a b d.out v bad ∧
          (∀ w, mx.expert = true → lookupA a.slots d.in1 = some w → v.length = (routeOf w).length * mx.out) ∧
          (mx.expert = false → v = ((s.fullVec p m mx a.prefill order 0 u).mapIdx fun o x => match vec 24 mx.out with
            | some c => bf16OfF32 (f32Add x (f32OfBf16 (c.getD o 0)))
            | none => bf16OfF32 x)))

/-- Where memory reads without an error, ROUTE puts TOP_K records of each token in its slot, as many as there are experts selected, one
dropped for capacity being none with gate zero; ATTEND puts one vector of V_DIM elements for each head; LOGITS gives every token that yields
an output one logit for each output of its matrix, and no other token any (R177, R180, R183, R200). -/
def Obligations.SelectingOperatorsRun : Prop :=
  ∀ (s : State) (p : Part) (handle : Nat) (st : Step) (m : Model) (i : Nat) (run : ModelRun) (d : DescRec), s.poisoned = [] →
    let keep := fun (x : Step) => x.verdicts = st.verdicts ∧ x.pageWrites = st.pageWrites
    (s.opAt p handle 9 st m i run d →
      ∃ t, exec (.route p handle []) s = .next t ∧ t.sheet = s.sheet ∧ State.OpDone s t p st m i run keep fun _ a b =>
        ∀ u, lookupA a.slots d.in0 = some u → ∃ (sel : List (Nat × W32)) (bad : Bool), Tok.puts a b d.out (sel.flatMap routeWords) bad ∧
          sel.length = d.par 21 1 ∧ ∀ j g, j < min (d.par 21 1) u.length → sel[j]? = some g → g.1 < u.length ∨ g = (none32, f32Zero)) ∧
    (∀ sh : ShardRec, s.opAt p handle 7 st m i run d → m.pkg.shards[d.obj0]? = some sh →
      ∃ t, exec (.attend p handle []) s = .next t ∧ t.sheet = s.sheet ∧ State.OpDone s t p st m i run keep fun _ a b =>
        ∃ v bad, Tok.puts a b d.out v bad ∧ (sh.kind = 0 → v.length = d.par 24 2 * d.par 30 2)) ∧
    (∀ mx : MatrixRec, s.opAt p handle 12 st m i run d → m.pkg.matrices[d.obj0]? = some mx →
      ∃ t, exec (.logits p handle []) s = .next t ∧ t.sheet = s.sheet ∧ State.OpDone s t p st m i run keep fun _ a b =>
        (a.yields = false → b = a) ∧
        (∀ u, a.yields = true → lookupA a.slots d.in0 = some u →
          b = { a with slots := b.slots, logits := b.logits, poison := b.poison } ∧
          ∃ order l, l = (s.fullVec p m mx false order 0 u).map (capLogit (d.f32 20) (d.f32 24)) ∧
            lookupA b.logits d.out = some l ∧ lookupA b.slots d.out = some (l.map bf16OfF32) ∧
            (∀ j, j ≠ d.out → lookupA b.logits j = lookupA a.logits j ∧ lookupA b.slots j = lookupA a.slots j)))

/-- SAMPLE of a model's own run gives every request of the run whose step carries no poison a verdict of at least one record, one more than
the nodes it accepts, and a request with poison none; of a drafting run it adds the next nodes. SEASON makes only changes of pages that the
split opens, and writes no memory; SCATTER commits nothing: requests, tables and tokens stay (R184, R185, R196, R198, R206). -/
def Obligations.TailOperatorsRun : Prop :=
  ∀ (s : State) (p : Part) (handle : Nat) (st : Step) (m : Model) (i : Nat) (run : ModelRun) (d : DescRec),
    (s.opAt p handle 13 st m i run d → run.kind = .own →
      ∃ t, exec (.sample p handle) s = .next t ∧ t.sheet = s.sheet ∧
        State.OpDone s t p st m i run (fun x => x.toks = st.toks ∧ x.pageWrites = st.pageWrites ∧
          ∀ a ∈ st.toks.filter run.has, ∀ r, (s.part p).req a.req = some r →
            ((∃ b ∈ st.toks, b.req = a.req ∧ b.poison ≠ none) → ∀ v ∈ x.verdicts, v.req = a.req → v ∈ st.verdicts) ∧
            ((∀ b ∈ st.toks, b.req = a.req → b.poison = none) → a.yields = true → (∀ n, a.kind ≠ .node n) →
              ∃ v ∈ x.verdicts, v.req = a.req ∧ v.records.length = v.accepted.length + 1)) fun _ a b => b = a) ∧
    (∀ n, s.opAt p handle 13 st m i run d → run.kind = .drafting n →
      ∃ t st', exec (.sample p handle) s = .next t ∧ t.sheet = s.sheet ∧ t.out = s.out ∧ (t.part p).step = some st' ∧
        st'.runs = st.runs.set i ((s.part p).advance st m.pkg run) ∧ st.toks.length ≤ st'.toks.length ∧
        st'.verdicts = st.verdicts ∧ (t.part p).reqs = (s.part p).reqs) ∧
    (s.opAt p handle 14 st m i run d →
      ∃ t, exec (.season p handle) s = .next t ∧ t.sheet = s.sheet ∧
        State.OpDone s t p st m i run (fun x => x.verdicts = st.verdicts ∧ ∀ w ∈ x.pageWrites, w ∈ st.pageWrites ∨
          (w.opens = true ∧ w.valid = 0 ∧ w.image = [] ∧ w.handle = m.handle)) fun _ a b => b = a) ∧
    (s.poisoned = [] → s.opAt p handle 15 st m i run d →
      ∃ t, exec (.scatter p handle []) s = .next t ∧
        State.OpDone s t p st m i run (fun x => x.verdicts = st.verdicts) fun _ a b => b = a)

/-! ## Requests and models (R187-R191, R228, R259-R282) -/

/-- A command that takes effect at a step boundary waits while a step runs, when it has nothing to read meanwhile; the owner's queue may not
give one; REQ_OPEN completes with the status of its first failing test, else reads its sampling block; its prompt read, it makes an entry
with the prompt as its chain, which is queued when as many are active as may be, and otherwise opens, queues for pages, or is refused and
counted (R65, R208, R261-R263, R410). -/
def Obligations.RequestsOpen : Prop :=
  (∀ (s : State) (p : Part) (c : Cmd) (st : Step), ∀ x ∈ boundaryRows (.part p), (s.part p).taken = [c] → c.opcode = x.2 →
    c.reading = false → c.run = .idle → (s.part p).step = some st → s.nextRead p c = none →
      exec x.1 s = .next (s.modCmd (.part p) c.id fun c => { c with started := true })) ∧
  (∀ (s : State) (c : Cmd), ∀ x ∈ (Instr.modelLoad .owner, 0x10) :: boundaryRows .owner, s.pickCmd .owner x.2 = some c →
    ∃ t, exec x.1 s = .next t ∧ State.Completes s t .owner c) ∧
  (∀ (s : State) (p : Part) (c : Cmd), s.turnOf p c 0x01 →
    (s.openTest p c ≠ stOk → ∃ t, exec (.reqOpen (.part p)) s = .next t ∧ State.Completes s t (.part p) c) ∧
    (∀ port, s.openTest p c = stOk → c.got = [] → (s.part p).port = some port → s.portLive port = true →
      ∃ t, exec (.reqOpen (.part p)) s = .next t ∧ (t.part p).taken = [{ c with reading := true, started := true }] ∧
        (∃ rd, t.reads = s.reads ++ [rd] ∧ rd.port = port ∧ rd.addr = c.f 52 8 ∧ rd.len = 32 ∧ rd.why = .cmd (.part p) c.id) ∧
        (t.part p).reqs = (s.part p).reqs) ∧
    (∀ b f g h m m' ch, s.openTest p c = stOk → c.got = [b, f, g] → (samplingOf b).ok = true → (s.part p).model c.model = some m →
      (∀ n ∈ tokensOf f ++ tokensOf g, n < m.pkg.model.vocab) → (s.part p).freeEntry c.request = some h →
      (s.part p).liveCount < (s.part p).liveLimit →
      (((s.part p).carved c.model s.ashList).model c.model).bind (fun x => x.pushAll h ⟨[], []⟩ (tokensOf g)) = some (m', ch) →
        ∃ t, exec (.reqOpen (.part p)) s = .next t ∧ (t.part p).taken = [] ∧
          ((∃ r, (t.part p).req h = some r ∧ r.chain.words = tokensOf g ∧ r.model = c.model ∧ r.deadline = c.f 32 8 ∧ r.length = 0 ∧
              r.priority = c.f 28 1 % 8 ∧ (t.part p).rqt.admitted = satAdd (s.part p).rqt.admitted 1 ∧
              ((s.part p).activeLimit ≤ (s.part p).activeCount → r.state = .queued) ∧
              ((s.part p).activeCount < (s.part p).activeLimit →
                r.state = .opened ∨ (r.state = .queued ∧ (s.part p).queueNoPages = true))) ∨
            ((s.part p).activeCount < (s.part p).activeLimit ∧ (s.part p).queueNoPages = false ∧ (t.part p).reqs = (s.part p).reqs ∧
              (t.part p).rqt.refused = satAdd (s.part p).rqt.refused 1))))

/-- REQ_APPEND makes the chain longer by its tokens, which are then pending, and a DECODE request PREFILL, or holds its draft tree;
REQ_CLOSE frees the entry of one that has ended, ends a live one with an END-only record, or sets CLOSING of an active one; REQ_PARK parks a
request HELD, and lets it go back where it was; a prefix copy's end gives the request the matched positions, not while a die of it is held
(R97, R203, R259, R260, R269-R271, R280). -/
def Obligations.RequestsChange : Prop :=
  (∀ (s : State) (p : Part) (c : Cmd) (r : Req) (m : Model) (b : List Byte), s.turnOf p c 0x02 → (s.part p).inShare c.request = true →
    (s.part p).req c.request = some r → s.appendTest p c r = stOk → (s.part p).model r.model = some m →
    (∀ n ∈ tokensOf b, n < m.pkg.model.vocab) →
      (∀ m' ch, c.f 28 1 = 0 → c.got = [b] → m.pushAll c.request r.chain (tokensOf b) = some (m', ch) →
        ∃ t r', exec (.reqAppend (.part p)) s = .next t ∧ (t.part p).taken = [] ∧ (t.part p).req c.request = some r' ∧
          r'.chain.words = r.chain.words ++ tokensOf b ∧ r'.pending = r'.chain.words.length - r.length ∧ r'.length = r.length ∧
          r'.state = (if r.state = .decode then .prefill else r.state)) ∧
      (∀ x, c.f 28 1 = 1 → c.got = [b, x] → (∀ i, i < c.f 24 4 → ((x.map BitVec.toNat).getD i 0xFF = 0xFF ∨ (x.map BitVec.toNat).getD i 0xFF < i)) →
        ∃ t, exec (.reqAppend (.part p)) s = .next t ∧ (t.part p).taken = [] ∧
          (t.part p).req c.request = some { r with tree := some ⟨List.zip (tokensOf b) (x.map BitVec.toNat)⟩ })) ∧
  (∀ (s : State) (p : Part) (c : Cmd) (r : Req), s.turnOf p c 0x03 → (s.part p).inShare c.request = true →
    (s.part p).req c.request = some r → c.f 16 1 ≤ 1 →
      (r.state.live = false → ∃ t, exec (.reqClose (.part p)) s = .next t ∧ (t.part p).taken = [] ∧
        (t.part p).req c.request = none ∧ ∀ h, h ≠ c.request → (t.part p).req h = (s.part p).req h) ∧
      (r.state.live = true → c.f 16 1 = 0 → r.state.active = true → ∃ t, exec (.reqClose (.part p)) s = .next t ∧
        (t.part p).req c.request = some { r with closing := true } ∧ (t.part p).taken = [{ c with run := .closing, started := true }]) ∧
      (r.state.live = true → c.f 16 1 = 1 ∨ r.state.active = false → 1 ≤ r.ringFree →
        ∃ t r', exec (.reqClose (.part p)) s = .next t ∧ (t.part p).req c.request = some r' ∧ r'.state = .done ∧
          r'.chain.words = [] ∧ (t.part p).taken = [])) ∧
  (∀ (s : State) (p : Part) (c : Cmd) (r : Req), s.turnOf p c 0x04 → (s.part p).inShare c.request = true →
    (s.part p).req c.request = some r → r.state.live = true →
      (c.f 16 1 = 0 → r.state ≠ .parked → r.state ≠ .spilled → (s.part p).spill = false →
        ∃ t, exec (.reqPark (.part p)) s = .next t ∧ (t.part p).taken = [] ∧ (t.part p).req c.request = some { r with
          state := .parked, prev := r.state, held := true, queuePos := 0, spillAsked := false }) ∧
      (c.f 16 1 = 1 → r.state = .parked → r.held = true →
        ∃ t r', exec (.reqPark (.part p)) s = .next t ∧ (t.part p).taken = [] ∧ (t.part p).req c.request = some r' ∧
          r'.state = r.prev ∧ r'.held = false ∧ r'.length = r.length ∧ r'.lists = r.lists)) ∧
  (∀ (s : State) (p : Part) (h : Nat) (r : Req), (s.part p).req h = some r → s.poisoned = [] →
    (r.copying = [] → exec (.prefixCopyDone p h []) s = .next s) ∧
    (∀ errs : Errs, (∃ x ∈ r.copying, s.rangeHeld x.2.1 ((s.part p).pageLen x.1 x.2.2) = true) → exec (.prefixCopyDone p h errs) s = .next s) ∧
    (r.copying ≠ [] → (∀ x ∈ r.copying, s.rangeHeld x.2.1 ((s.part p).pageLen x.1 x.2.2) = false) → ∃ t r', exec (.prefixCopyDone p h []) s = .next t ∧ (t.part p).req h = some r' ∧ r'.copying = [] ∧
      r'.length = 64 * r.matched ∧ r'.pending = r.chain.words.length - 64 * r.matched ∧ r'.state = r.state ∧ t.sheet = s.sheet))

/-- MODEL_LOAD completes with the status of its first failing test, else reads the header; a package that passes its checks stands as a
LOADING model with its control part; the load's end makes a model READY all of whose regions are written; MODEL_UNLOAD of a model that
nothing uses makes it ABSENT, and leaves memory as it is (R187-R191). -/
def Obligations.ModelsLoadAndUnload : Prop :=
  (∀ (s : State) (p : Part) (c : Cmd), s.pickCmd (.part p) 0x10 = some c →
    (c.started = false → s.loadTest p c ≠ stOk → ∃ t, exec (.modelLoad (.part p)) s = .next t ∧ State.Completes s t (.part p) c) ∧
    (∀ port off len, c.started = true ∨ s.loadTest p c = stOk → nextNeed (c.f 24 8) c.got = .read off len → (s.part p).st = .running →
      (s.part p).port = some port → s.portLive port = true →
        ∃ t rd, exec (.modelLoad (.part p)) s = .next t ∧ t.reads = s.reads ++ [rd] ∧ rd.port = port ∧ rd.addr = c.f 16 8 + off ∧
          rd.len = len ∧ rd.why = .cmd (.part p) c.id ∧ (t.part p).models = (s.part p).models) ∧
    (∀ k bound, c.started = true ∨ s.loadTest p c = stOk → nextNeed (c.f 24 8) c.got = .complete → parsePackage c.got = some k →
      k.check (s.part p) c.model (c.f 24 8) (c.f 36 4) (c.f 40 4) = true → (s.part p).model c.model = none →
      (s.part p).heldModels < 8 → s.bindings? p c.model (c.loadRegions k) = some bound →
        ∃ t m, exec (.modelLoad (.part p)) s = .next t ∧ (t.part p).model c.model = some m ∧ m.pkg = k ∧ m.state = .loading ∧
          m.bound = bound ∧ m.index = none ∧ m.parts = none)) ∧
  (∀ (s : State) (p : Part) (c : Cmd) (m : Model) (n w : Nat), (s.part p).taken = [c] → c.opcode = 0x10 → c.run = .loading [] n w →
    (s.part p).model c.model = some m →
      ∃ t m', exec (.modelLoadDone p c.model) s = .next t ∧ (t.part p).taken = [] ∧ (t.part p).model c.model = some m' ∧
        (m.allWritten = true → m'.state = .ready ∧ m' = { m with state := .ready, scratch := m'.scratch }) ∧
        (m.allWritten = false → m' = m) ∧ t.sheet = s.sheet) ∧
  (∀ (s : State) (p : Part) (c : Cmd) (m : Model), s.turnOf p c 0x11 → (s.part p).model c.model = some m →
    s.bindings p c.model = 0 → (∀ x ∈ (s.part p).reqs, x.2.state.live = true → (s.part p).uses x.2 c.model = false) →
      ∃ t, exec (.modelUnload (.part p)) s = .next t ∧ (t.part p).taken = [] ∧ (t.part p).model c.model = none ∧
        (∀ h, h ≠ c.model → (t.part p).model h = (s.part p).model h) ∧ (t.part p).reqs = (s.part p).reqs ∧ t.sheet = s.sheet)

/-- PAGE_RESERVE gives a request the pages that its reservation finds, or is refused and changes nothing; INDEX_INSERT changes no request,
and completes at once or once its copies are done, without a prefix index refused; INDEX_REMOVE without tokens leaves the index of its model
empty (R228, R281, R282). -/
def Obligations.PagesAndIndexes : Prop :=
  (∀ (s : State) (p : Part) (c : Cmd) (r : Req), s.turnOf p c 0x20 → (s.part p).inShare c.request = true →
    (s.part p).req c.request = some r → r.state ∈ [ReqState.opened, .prefill, .decode, .pageWait, .parked] → c.f 20 1 % 2 = 0 →
      (∀ q r', (s.part p).reserve c.request r (r.length + c.f 16 4) s.ashList = some (q, r') →
        ∃ t, exec (.pageReserve (.part p)) s = .next t ∧ (t.part p).taken = [] ∧ (t.part p).req c.request = some r' ∧
          (t.part p).models = q.models ∧ ∀ h, h ≠ c.request → (t.part p).req h = (s.part p).req h) ∧
      ((s.part p).reserve c.request r (r.length + c.f 16 4) s.ashList = none →
        ∃ t, exec (.pageReserve (.part p)) s = .next t ∧ State.Completes s t (.part p) c)) ∧
  (∀ (s : State) (p : Part) (c : Cmd) (r : Req), s.turnOf p c 0x30 → (s.part p).inShare c.request = true →
    (s.part p).req c.request = some r → r.state.live = true → c.f 16 4 % 64 = 0 → c.f 16 4 ≤ r.length →
    (s.part p).pagesIn r (c.f 16 4) = true →
      ((s.part p).prefixIndex = false → ∃ t, exec (.indexInsert (.part p)) s = .next t ∧ State.Completes s t (.part p) c) ∧
      ((s.part p).prefixIndex = true → ∃ t, exec (.indexInsert (.part p)) s = .next t ∧ (t.part p).reqs = (s.part p).reqs ∧
        ((t.part p).taken = [] ∨ ∃ copies made, (t.part p).taken = [{ c with started := true, run := .inserting copies made }]))) ∧
  (∀ (s : State) (p : Part) (c : Cmd) (copies : List (Nat × Nat)) (made : Nat), (s.part p).taken = [c] → c.run = .inserting copies made →
    ∃ t, exec (.indexCopyDone p) s = .next t ∧ State.Completes s t (.part p) c) ∧
  (∀ (s : State) (p : Part) (c : Cmd) (m : Model), s.turnOf p c 0x31 → (s.part p).ready c.model = some m → c.f 24 4 = 0 →
    ∃ t m', exec (.indexRemove (.part p)) s = .next t ∧ (t.part p).taken = [] ∧ (t.part p).model c.model = some m' ∧
      (∀ ix, m'.index = some ix → ix.nodes = []) ∧ m'.pkg = m.pkg ∧ m'.state = .ready ∧ (t.part p).reqs = (s.part p).reqs)
end

