-- ==== Sys2Proof/Laws/Memory.lean ====
section
/-! SUPPORT. The laws of memory in its canonical form: a byte read after a write, and every operation keeps the form. -/

namespace Sys2Proof.Machine

/-- The canonical form, said of the list. -/
theorem Memory.wf_iff (m : Memory) :
    m.wf = true ↔ m.Pairwise (fun x y => x.1 < y.1) ∧ ∀ c ∈ m, c.2 ≠ Memory.unlisted := by
  simp [Memory.wf]

theorem Memory.wf_nil : Memory.wf [] = true := by decide

theorem Memory.wf_cons (c : Host.Cell) (m : Memory) :
    Memory.wf (c :: m) = true ↔ (∀ d ∈ m, c.1 < d.1) ∧ c.2 ≠ Memory.unlisted ∧ Memory.wf m = true := by
  simp only [Memory.wf_iff, List.pairwise_cons, List.mem_cons, forall_eq_or_imp]
  tauto

/-- An address below every entry reads as an unlisted address does. -/
theorem Memory.read_below (m : Memory) (a : Nat) (h : ∀ d ∈ m, a < d.1) : m.read a = Memory.unlisted := by
  induction m with
  | nil => rfl
  | cons c m ih =>
    obtain ⟨k, b⟩ := c
    have hk : a < k := h (k, b) (by simp)
    rw [Memory.read, if_neg (by omega)]
    exact ih fun d hd => h d (by simp [hd])

/-- A write lists no address below both the write's and every entry's. -/
theorem Memory.lt_write (m : Memory) (a n : Nat) (b : Byte) (ha : n < a) (h : ∀ d ∈ m, n < d.1) :
    ∀ d ∈ m.write a b, n < d.1 := by
  induction m with
  | nil => intro d; simp only [Memory.write]; split <;> simp +contextual [ha]
  | cons c m ih =>
    obtain ⟨k, v⟩ := c
    have hk : n < k := h (k, v) (by simp)
    have hm : ∀ d ∈ m, n < d.1 := fun d hd => h d (by simp [hd])
    intro d hd
    simp only [Memory.write] at hd
    split at hd
    · split at hd
      · exact h d hd
      · rcases List.mem_cons.1 hd with rfl | hd
        · exact ha
        · exact h d hd
    · split at hd
      · split at hd
        · exact hm d hd
        · rcases List.mem_cons.1 hd with rfl | hd
          · exact ha
          · exact hm d hd
      · rcases List.mem_cons.1 hd with rfl | hd
        · exact hk
        · exact ih hm d hd

/-- A write keeps the canonical form. -/
theorem Memory.wf_write (m : Memory) (a : Nat) (b : Byte) (h : m.wf = true) : (m.write a b).wf = true := by
  induction m with
  | nil =>
    simp only [Memory.write]
    split
    · exact Memory.wf_nil
    · next hb => exact (Memory.wf_cons _ _).2 ⟨by simp, hb, Memory.wf_nil⟩
  | cons c m ih =>
    obtain ⟨k, v⟩ := c
    have hc := (Memory.wf_cons _ _).1 h
    simp only [Memory.write]
    split
    · next hak =>
      split
      · exact h
      · next hb =>
        refine (Memory.wf_cons _ _).2 ⟨fun d hd => ?_, hb, h⟩
        rcases List.mem_cons.1 hd with rfl | hd
        · exact hak
        · exact Nat.lt_trans hak (hc.1 d hd)
    · split
      · next hak =>
        split
        · exact hc.2.2
        · next hb => exact (Memory.wf_cons _ _).2 ⟨fun d hd => by have := hc.1 d hd; omega, hb, hc.2.2⟩
      · exact (Memory.wf_cons _ _).2 ⟨Memory.lt_write m a k b (by omega) hc.1, hc.2.1, ih hc.2.2⟩

/-- The byte just written. -/
theorem Memory.read_write_same (m : Memory) (a : Nat) (b : Byte) (h : m.wf = true) : (m.write a b).read a = b := by
  induction m with
  | nil =>
    simp only [Memory.write]
    split
    · next hb => rw [hb]; rfl
    · simp [Memory.read]
  | cons c m ih =>
    obtain ⟨k, v⟩ := c
    have hc := (Memory.wf_cons _ _).1 h
    simp only [Memory.write]
    split
    · next hak =>
      split
      · next hb =>
        rw [hb]
        refine Memory.read_below _ _ fun d hd => ?_
        rcases List.mem_cons.1 hd with rfl | hd
        · exact hak
        · exact Nat.lt_trans hak (hc.1 d hd)
      · simp [Memory.read]
    · split
      · next hak =>
        split
        · next hb => rw [hb]; exact Memory.read_below _ _ fun d hd => by have := hc.1 d hd; omega
        · simp [Memory.read]
      · rw [Memory.read, if_neg (by omega)]
        exact ih hc.2.2

/-- A write leaves every other address alone. -/
theorem Memory.read_write_other (m : Memory) (a x : Nat) (b : Byte) (hx : x ≠ a) : (m.write a b).read x = m.read x := by
  induction m with
  | nil =>
    simp only [Memory.write]
    split
    · rfl
    · simp only [Memory.read]; rw [if_neg (by omega)]
  | cons c m ih =>
    obtain ⟨k, v⟩ := c
    simp only [Memory.write]
    split
    · split
      · rfl
      · rw [Memory.read, if_neg (by omega)]
    · split
      · split
        · rw [Memory.read.eq_2, if_neg (by omega)]
        · simp only [Memory.read]; rw [if_neg (by omega), if_neg (by omega)]
      · simp only [Memory.read, ih]

/-- Writes of several bytes keep the canonical form. -/
theorem Memory.wf_writeN (m : Memory) (a : Nat) (l : List Byte) (h : m.wf = true) : (m.writeN a l).wf = true := by
  induction l generalizing m a with
  | nil => exact h
  | cons b l ih => exact ih _ _ (Memory.wf_write m a b h)

/-- Writes of several bytes leave every address outside them alone. -/
theorem Memory.read_writeN_outside (m : Memory) (a x : Nat) (l : List Byte) (hx : x < a ∨ a + l.length ≤ x) :
    (m.writeN a l).read x = m.read x := by
  induction l generalizing m a with
  | nil => rfl
  | cons b l ih =>
    simp only [List.length_cons] at hx
    rw [Memory.writeN, ih _ _ (by omega), Memory.read_write_other _ _ _ _ (by omega)]

/-- The bytes written are read back. -/
theorem Memory.readN_writeN (m : Memory) (a : Nat) (l : List Byte) (h : m.wf = true) :
    (m.writeN a l).readN a l.length = l := by
  induction l generalizing m a with
  | nil => rfl
  | cons b l ih =>
    rw [Memory.writeN, List.length_cons, Memory.readN, ih _ _ (Memory.wf_write m a b h),
      Memory.read_writeN_outside _ _ _ _ (by omega), Memory.read_write_same _ _ _ h]

/-- Dropping entries keeps the canonical form. -/
theorem Memory.wf_filter (m : Memory) (p : Host.Cell → Bool) (h : m.wf = true) : Memory.wf (m.filter p) = true := by
  rw [Memory.wf_iff] at h ⊢
  exact ⟨h.1.filter _, fun c hc => h.2 c (List.mem_of_mem_filter hc)⟩

/-- Zeroing keeps the canonical form. -/
theorem Memory.wf_zeroN (m : Memory) (a n : Nat) (h : m.wf = true) : (m.zeroN a n).wf = true := Memory.wf_filter m _ h

/-- A zeroed address reads zero, and every other reads as before. -/
theorem Memory.read_zeroN (m : Memory) (a n x : Nat) :
    (m.zeroN a n).read x = if a ≤ x ∧ x < a + n then Memory.unlisted else m.read x := by
  induction m with
  | nil => simp [Memory.zeroN, Memory.read]
  | cons c m ih =>
    obtain ⟨k, v⟩ := c
    have hz : ∀ (q : Memory), Memory.zeroN q a n = q.filter fun c => decide (c.1 < a) || decide (a + n ≤ c.1) := fun _ => rfl
    rw [hz] at ih
    rw [hz, List.filter_cons]
    by_cases hk : k < a ∨ a + n ≤ k
    · rw [if_pos (by simpa using hk), Memory.read, ih, Memory.read.eq_2]
      by_cases hx : k = x
      · subst hx; rw [if_pos rfl, if_pos rfl, if_neg (by omega)]
      · rw [if_neg hx, if_neg hx]
    · rw [if_neg (by simpa using hk), ih, Memory.read.eq_2]
      split
      · rfl
      · next h => rw [if_neg (by omega)]

/-- A move of a range keeps the canonical form. -/
theorem Memory.wf_moveN (m : Memory) (src dst n : Nat) (h : m.wf = true) : (m.moveN src dst n).wf = true := by
  rw [Memory.wf_iff] at h
  obtain ⟨hp, hz⟩ := h
  have hcells : (List.map (fun c : Host.Cell => (c.1 - src + dst, c.2))
      (m.filter fun c => decide (src ≤ c.1) && decide (c.1 < src + n))).Pairwise fun x y => x.1 < y.1 := by
    rw [List.pairwise_map]
    refine List.Pairwise.imp_of_mem (R := fun x y => x.1 < y.1) ?_ (hp.filter _)
    intro x y hx _ hxy
    have := (List.mem_filter.1 hx).2
    simp only [Bool.and_eq_true, decide_eq_true_eq] at this
    omega
  rw [Memory.wf_iff]
  simp only [Memory.moveN]
  refine ⟨List.pairwise_append.2 ⟨List.pairwise_append.2 ⟨hp.filter _, hcells, ?_⟩, hp.filter _, ?_⟩, ?_⟩
  · intro x hx y hy
    obtain ⟨z, hzm, rfl⟩ := List.mem_map.1 hy
    have h1 := (List.mem_filter.1 hx).2
    simp only [decide_eq_true_eq] at h1
    dsimp only
    omega
  · intro x hx y hy
    have h2 := (List.mem_filter.1 hy).2
    simp only [decide_eq_true_eq] at h2
    rcases List.mem_append.1 hx with hx | hx
    · have h1 := (List.mem_filter.1 hx).2
      simp only [decide_eq_true_eq] at h1
      omega
    · obtain ⟨z, hzm, rfl⟩ := List.mem_map.1 hx
      have h1 := (List.mem_filter.1 hzm).2
      simp only [Bool.and_eq_true, decide_eq_true_eq] at h1
      dsimp only
      omega
  · intro c hc
    rcases List.mem_append.1 hc with hc | hc
    · rcases List.mem_append.1 hc with hc | hc
      · exact hz c (List.mem_of_mem_filter hc)
      · obtain ⟨z, hzm, rfl⟩ := List.mem_map.1 hc
        exact hz z (List.mem_of_mem_filter hzm)
    · exact hz c (List.mem_of_mem_filter hc)

end Sys2Proof.Machine
end

