-- ==== Sys2Proof/Laws/Keeps.lean ====
section
/-! SUPPORT. What every shared operation keeps: the relation `Keeps`, in the form in which the invariants of a step follow from it. -/

namespace Sys2Proof.Machine

/-- What a change of the state is held to, beside what every change keeps. -/
structure Kept where
  /-- The power state stays as it is. -/
  power : Prop
  /-- So do firmware, its keys and the fuses. -/
  firmware : Prop
  /-- SCAN_LATCH stays set. -/
  latch : Prop

/-- What a change of the state keeps: the commands that wait; what was sent, to which more may be added; the canonical form of
both memories; legal issue shares; fuses that only rise (R364); no identity key under SCAN_LATCH (R366); room in the ash log
(R350); and as far as it is held to it the power state, the firmware and SCAN_LATCH. -/
structure Keeps (κ : Kept) (s t : State) : Prop where
  pending : t.pending = s.pending
  out : s.out <+: t.out
  sheet : s.sheet.wf = true → t.sheet.wf = true
  peat : s.peat.wf = true → t.peat.wf = true
  shares : s.power.sharesLegal → t.power.sharesLegal
  svn : s.flash.svnMin ≤ t.flash.svnMin
  svnSteps : s.flash.svnSteps ≤ 64 → t.flash.svnSteps ≤ 64
  ash : s.flash.ashFits → t.flash.ashFits
  power : κ.power → t.power = { s.power with mgmtLost := t.power.mgmtLost }
  firmware : κ.firmware → s.flash.sameFirmware t.flash
  latch : κ.latch → s.sec.scanLatch = true → t.sec.scanLatch = true
  noKey : (s.sec.scanLatch = true → s.sec.keyValid = false) → t.sec.scanLatch = true → t.sec.keyValid = false

theorem Flash.sameFirmware_refl (f : Flash) : f.sameFirmware f := ⟨rfl, rfl, rfl, rfl, rfl, rfl⟩

theorem Flash.sameFirmware_trans {f g h : Flash} (a : f.sameFirmware g) (b : g.sameFirmware h) : f.sameFirmware h :=
  ⟨b.1.trans a.1, b.2.1.trans a.2.1, b.2.2.1.trans a.2.2.1, b.2.2.2.1.trans a.2.2.2.1, b.2.2.2.2.1.trans a.2.2.2.2.1,
   b.2.2.2.2.2.trans a.2.2.2.2.2⟩

theorem Keeps.refl (κ : Kept) (s : State) : Keeps κ s s :=
  ⟨rfl, List.prefix_rfl, id, id, id, le_rfl, id, id, fun _ => rfl, fun _ => s.flash.sameFirmware_refl, fun _ => id, id⟩

theorem Keeps.trans {κ : Kept} {s t u : State} (h : Keeps κ s t) (k : Keeps κ t u) : Keeps κ s u :=
  ⟨k.pending.trans h.pending, h.out.trans k.out, k.sheet ∘ h.sheet, k.peat ∘ h.peat, k.shares ∘ h.shares,
   h.svn.trans k.svn, k.svnSteps ∘ h.svnSteps, k.ash ∘ h.ash, fun a => by rw [k.power a, h.power a],
   fun a => Flash.sameFirmware_trans (h.firmware a) (k.firmware a), fun a => k.latch a ∘ h.latch a, fun a => k.noKey (h.noKey a)⟩

/-- A change that is held to more is held to less. -/
theorem Keeps.weaken {κ μ : Kept} {s t : State} (h : Keeps κ s t) (hp : μ.power → κ.power) (hf : μ.firmware → κ.firmware)
    (hl : μ.latch → κ.latch) : Keeps μ s t :=
  ⟨h.pending, h.out, h.sheet, h.peat, h.shares, h.svn, h.svnSteps, h.ash, h.power ∘ hp, h.firmware ∘ hf, h.latch ∘ hl, h.noKey⟩

/-- A change of the fields that `Keeps` does not speak of. -/
theorem Keeps.upd {κ : Kept} {s₀ s : State} (h : Keeps κ s₀ s)
    (ringTime : W64) (uptime : Time) (fresh : Nat) (pins : PinSt) (pinsCfg : Pins) (ports : Vector PortSt 4) (parts : Vector Partition 4)
    (ownerSub : Subblock) (ownerTaken : List Cmd) (ownerNextCmd : Nat) (reads : List HostRead) (nextTag : Nat) (kln : KlnStream) (sites :
    Vector SiteSt 64) (route : List (Nat × Nat)) (routeDropped : Nat) (slice : Slice) (poisoned : List Nat) (peatPoisoned : List Nat)
    (ashList : List Nat) (dies : List (Nat × DieSt)) (banks : List (Nat × BankSt)) (seqs : List NbSeq) (nextSeq : Nat) (units : List (Nat ×
    NbUnit)) (scratch : List ((Nat × Nat) × Line)) (sheetLines : List (Nat × Nat)) (sram : List (Nat × Part))
    (tablesHit : List Nat) (memArb : W32) (memScrub : W32) (memMargin : Margin)
    (nbCtrl : W32) (nbMaxWait : W32) (peatArb : W32) (peatCtrl : W32) (peatSupplyTimeout : W32) (peatMargin : Margin) (peatRetired : Bool)
    (peatScrubBad : Nat) (xfers : List Xfer)
    (arrivals : List ((Option Part × XferKind) × Time)) (repairs : List Repair) (ring : Ring) (fltCtrl : W32) (fatal : Bool) (ashLogFull : Bool)
    (sheetFifo : List FaultEntry) (substs : List Subst) (tileUnits : List (Nat × TileUnits)) (ashPending : List AshRec) (ashUnrecorded :
    Nat) (bist : Bist) :
    Keeps κ s₀ { s with
      ringTime := ringTime, uptime := uptime, fresh := fresh, pins := pins, pinsCfg := pinsCfg, ports := ports, parts := parts, ownerSub
      := ownerSub, ownerTaken := ownerTaken, ownerNextCmd := ownerNextCmd, reads := reads, nextTag := nextTag, kln := kln, sites :=
      sites, route := route, routeDropped := routeDropped, slice := slice, poisoned := poisoned, peatPoisoned := peatPoisoned, ashList
      := ashList, dies := dies, banks := banks, seqs := seqs, nextSeq := nextSeq, units := units, scratch := scratch, sheetLines :=
      sheetLines, sram := sram, tablesHit := tablesHit, memArb := memArb, memScrub := memScrub, memMargin := memMargin, nbCtrl := nbCtrl, nbMaxWait := nbMaxWait, peatArb :=
      peatArb, peatCtrl := peatCtrl, peatSupplyTimeout := peatSupplyTimeout, peatMargin := peatMargin, peatRetired := peatRetired,
      peatScrubBad := peatScrubBad, xfers := xfers, arrivals := arrivals, repairs := repairs, ring := ring, fltCtrl := fltCtrl, fatal := fatal, ashLogFull :=
      ashLogFull, sheetFifo := sheetFifo, substs := substs, tileUnits := tileUnits, ashPending := ashPending, ashUnrecorded :=
      ashUnrecorded, bist := bist } :=
  ⟨h.pending, h.out, h.sheet, h.peat, h.shares, h.svn, h.svnSteps, h.ash, h.power, h.firmware, h.latch, h.noKey⟩

/-- A change of any field but the commands that wait and what was sent. -/
theorem Keeps.updAll {κ : Kept} {s₀ s : State} (h : Keeps κ s₀ s)
    (ringTime : W64) (uptime : Time) (fresh : Nat) (pins : PinSt) (pinsCfg : Pins) (ports : Vector PortSt 4) (parts : Vector Partition 4)
    (ownerSub : Subblock) (ownerTaken : List Cmd) (ownerNextCmd : Nat) (reads : List HostRead) (nextTag : Nat) (kln : KlnStream) (sites :
    Vector SiteSt 64) (route : List (Nat × Nat)) (routeDropped : Nat) (slice : Slice) (poisoned : List Nat) (peatPoisoned : List Nat)
    (ashList : List Nat) (dies : List (Nat × DieSt)) (banks : List (Nat × BankSt)) (seqs : List NbSeq) (nextSeq : Nat) (units : List (Nat ×
    NbUnit)) (scratch : List ((Nat × Nat) × Line)) (sheetLines : List (Nat × Nat)) (sram : List (Nat × Part))
    (tablesHit : List Nat) (memArb : W32) (memScrub : W32) (memMargin : Margin)
    (nbCtrl : W32) (nbMaxWait : W32) (peatArb : W32) (peatCtrl : W32) (peatSupplyTimeout : W32) (peatMargin : Margin) (peatRetired : Bool)
    (peatScrubBad : Nat) (xfers : List Xfer)
    (arrivals : List ((Option Part × XferKind) × Time)) (repairs : List Repair) (ring : Ring) (fltCtrl : W32) (fatal : Bool) (ashLogFull : Bool)
    (sheetFifo : List FaultEntry) (substs : List Subst) (tileUnits : List (Nat × TileUnits)) (ashPending : List AshRec) (ashUnrecorded :
    Nat) (bist : Bist) (m m' : Memory) (p : Power)
    (f : Flash) (x : Sec) (hm : s.sheet.wf = true → m.wf = true) (hm' : s.peat.wf = true → m'.wf = true)
    (hp : s.power.sharesLegal → p.sharesLegal) (hs : s.flash.svnMin ≤ f.svnMin) (hn : s.flash.svnSteps ≤ 64 → f.svnSteps ≤ 64)
    (ha : s.flash.ashFits → f.ashFits) (hl : s.sec.scanLatch = true → x.scanLatch = true)
    (hk : (s.sec.scanLatch = true → s.sec.keyValid = false) → x.scanLatch = true → x.keyValid = false)
    (hP : κ.power → p = { s.power with mgmtLost := p.mgmtLost }) (hF : κ.firmware → s.flash.sameFirmware f) :
    Keeps κ s₀ { s with
      sheet := m, peat := m', power := p, flash := f, sec := x,
      ringTime := ringTime, uptime := uptime, fresh := fresh, pins := pins, pinsCfg := pinsCfg, ports := ports, parts := parts, ownerSub
      := ownerSub, ownerTaken := ownerTaken, ownerNextCmd := ownerNextCmd, reads := reads, nextTag := nextTag, kln := kln, sites :=
      sites, route := route, routeDropped := routeDropped, slice := slice, poisoned := poisoned, peatPoisoned := peatPoisoned, ashList
      := ashList, dies := dies, banks := banks, seqs := seqs, nextSeq := nextSeq, units := units, scratch := scratch, sheetLines :=
      sheetLines, sram := sram, tablesHit := tablesHit, memArb := memArb, memScrub := memScrub, memMargin := memMargin, nbCtrl := nbCtrl, nbMaxWait := nbMaxWait, peatArb :=
      peatArb, peatCtrl := peatCtrl, peatSupplyTimeout := peatSupplyTimeout, peatMargin := peatMargin, peatRetired := peatRetired,
      peatScrubBad := peatScrubBad, xfers := xfers, arrivals := arrivals, repairs := repairs, ring := ring, fltCtrl := fltCtrl, fatal := fatal, ashLogFull :=
      ashLogFull, sheetFifo := sheetFifo, substs := substs, tileUnits := tileUnits, ashPending := ashPending, ashUnrecorded :=
      ashUnrecorded, bist := bist } :=
  ⟨h.pending, h.out, hm ∘ h.sheet, hm' ∘ h.peat, hp ∘ h.shares, h.svn.trans hs, hn ∘ h.svnSteps, ha ∘ h.ash,
   fun a => by dsimp only; rw [hP a, h.power a], fun a => Flash.sameFirmware_trans (h.firmware a) (hF a), fun a => hl ∘ h.latch a,
   fun a => hk (h.noKey a)⟩

/-- The same, with a change of the power state that keeps the shares legal. -/
theorem Keeps.updPower {f l : Prop} {s₀ s : State} (h : Keeps ⟨False, f, l⟩ s₀ s) (p : Power)
    (hp : s.power.sharesLegal → p.sharesLegal) : Keeps ⟨False, f, l⟩ s₀ { s with power := p } :=
  ⟨h.pending, h.out, h.sheet, h.peat, hp ∘ h.shares, h.svn, h.svnSteps, h.ash, nofun, h.firmware, h.latch, h.noKey⟩

/-- The same, with a change of sheet memory. -/
theorem Keeps.updSheet {κ : Kept} {s₀ s : State} (h : Keeps κ s₀ s) (m : Memory) (hm : s.sheet.wf = true → m.wf = true) :
    Keeps κ s₀ { s with sheet := m } :=
  ⟨h.pending, h.out, hm ∘ h.sheet, h.peat, h.shares, h.svn, h.svnSteps, h.ash, h.power, h.firmware, h.latch, h.noKey⟩

/-- The same, with a change of peat memory. -/
theorem Keeps.updPeat {κ : Kept} {s₀ s : State} (h : Keeps κ s₀ s) (m : Memory) (hm : s.peat.wf = true → m.wf = true) :
    Keeps κ s₀ { s with peat := m } :=
  ⟨h.pending, h.out, h.sheet, hm ∘ h.peat, h.shares, h.svn, h.svnSteps, h.ash, h.power, h.firmware, h.latch, h.noKey⟩

/-- The same, with a change of the security state that leaves SCAN_LATCH and the key alone. -/
theorem Keeps.updSec {κ : Kept} {s₀ s : State} (h : Keeps κ s₀ s) (x : Sec) (hl : x.scanLatch = s.sec.scanLatch)
    (hk : x.keyValid = s.sec.keyValid) : Keeps κ s₀ { s with sec := x } :=
  ⟨h.pending, h.out, h.sheet, h.peat, h.shares, h.svn, h.svnSteps, h.ash, h.power, h.firmware, hl ▸ h.latch,
   by dsimp only; rw [hl, hk]; exact h.noKey⟩

/-- The same, with a change of flash that no fuse falls by. -/
theorem Keeps.updFlash {p l : Prop} {s₀ s : State} (h : Keeps ⟨p, False, l⟩ s₀ s) (f : Flash) (hs : s.flash.svnMin ≤ f.svnMin)
    (hn : s.flash.svnSteps ≤ 64 → f.svnSteps ≤ 64) (ha : s.flash.ashFits → f.ashFits) :
    Keeps ⟨p, False, l⟩ s₀ { s with flash := f } :=
  ⟨h.pending, h.out, h.sheet, h.peat, h.shares, h.svn.trans hs, hn ∘ h.svnSteps, ha ∘ h.ash, h.power, nofun, h.latch, h.noKey⟩

/-- The same, with a change of the ash log. -/
theorem Keeps.updAsh {κ : Kept} {s₀ s : State} (h : Keeps κ s₀ s) (f : Flash) (hf : s.flash.sameFirmware f)
    (ha : s.flash.ashFits → f.ashFits) : Keeps κ s₀ { s with flash := f } :=
  ⟨h.pending, h.out, h.sheet, h.peat, h.shares, h.svn.trans hf.2.2.2.2.1.symm.le, (hf.2.2.2.2.2.trans_le ·) ∘ h.svnSteps, ha ∘ h.ash,
   h.power, fun a => Flash.sameFirmware_trans (h.firmware a) hf, h.latch, h.noKey⟩

/-- What a function that answers a state with something else keeps. -/
theorem Keeps.fst {α : Type} {κ : Kept} {s₀ t : State} {x : State × α} {y : α} (e : x = (t, y)) (h : Keeps κ s₀ x.1) : Keeps κ s₀ t := by
  rw [e] at h; exact h

theorem Keeps.snd {α : Type} {κ : Kept} {s₀ t : State} {x : α × State} {y : α} (e : x = (y, t)) (h : Keeps κ s₀ x.2) : Keeps κ s₀ t := by
  rw [e] at h; exact h

/-- What an optional change keeps. -/
theorem Keeps.getD {κ : Kept} {s₀ s : State} {o : Option State} (h : Keeps κ s₀ s) (ho : ∀ t, o = some t → Keeps κ s₀ t) : Keeps κ s₀ (o.getD s) := by
  cases o with
  | none => exact h
  | some t => exact ho t rfl

/-- What a run of changes keeps, each of which keeps it. -/
theorem Keeps.foldl {α : Type} {κ : Kept} {s₀ : State} (f : State → α → State) (l : List α) (hf : ∀ s x, Keeps κ s₀ s → Keeps κ s₀ (f s x)) :
    ∀ {s : State}, Keeps κ s₀ s → Keeps κ s₀ (l.foldl f s) := by
  induction l with
  | nil => exact id
  | cons x l ih => exact fun h => ih (hf _ x h)

theorem Keeps.foldlFst {α β : Type} {κ : Kept} {s₀ : State} (f : State × α → β → State × α) (l : List β)
    (hf : ∀ a x, Keeps κ s₀ a.1 → Keeps κ s₀ (f a x).1) : ∀ {a : State × α}, Keeps κ s₀ a.1 → Keeps κ s₀ (l.foldl f a).1 := by
  induction l with
  | nil => exact id
  | cons x l ih => exact fun h => ih (hf _ x h)

theorem Keeps.foldlSnd {α β : Type} {κ : Kept} {s₀ : State} (f : α × State → β → α × State) (l : List β)
    (hf : ∀ a x, Keeps κ s₀ a.2 → Keeps κ s₀ (f a x).2) : ∀ {a : α × State}, Keeps κ s₀ a.2 → Keeps κ s₀ (l.foldl f a).2 := by
  induction l with
  | nil => exact id
  | cons x l ih => exact fun h => ih (hf _ x h)

/-- What is kept when something is sent. -/
theorem State.send_keeps {κ : Kept} {s₀ s : State} (h : Keeps κ s₀ s) (o : Out) : Keeps κ s₀ (s.send o) :=
  ⟨h.pending, h.out.trans (List.prefix_append _ _), h.sheet, h.peat, h.shares, h.svn, h.svnSteps, h.ash, h.power, h.firmware, h.latch,
   h.noKey⟩

end Sys2Proof.Machine
end

