-- ==== Sys2Proof/Laws/UtilKeeps.lean ====
section
/-! SUPPORT. What the shared operations of Machine/Util.lean keep. -/

namespace Sys2Proof.Machine

theorem State.modPart_keeps {κ : Kept} {s₀ s : State} (h : Keeps κ s₀ s) (p : Part) (f : Partition → Partition) : Keeps κ s₀ (State.modPart s p f) :=
    by
  unfold State.modPart
  repeat' first
    | with_reducible assumption
    | split
    | (fail_if_no_progress with_reducible apply Keeps.upd)

theorem State.modPort_keeps {κ : Kept} {s₀ s : State} (h : Keeps κ s₀ s) (i : Port) (f : PortSt → PortSt) : Keeps κ s₀ (State.modPort s i f) := by
  unfold State.modPort
  repeat' first
    | with_reducible assumption
    | split
    | (fail_if_no_progress with_reducible apply Keeps.upd)

theorem State.draw_keeps {κ : Kept} {s₀ s : State} (h : Keeps κ s₀ s) : Keeps κ s₀ (State.draw s).2 := h.upd ..

theorem State.pass_keeps {κ : Kept} {s₀ s : State} (h : Keeps κ s₀ s) (n : Nat) : Keeps κ s₀ (State.pass s n) := by
  unfold State.pass
  repeat' first
    | with_reducible assumption
    | split
    | (fail_if_no_progress with_reducible apply Keeps.upd)

theorem State.passTo_keeps {κ : Kept} {s₀ s : State} (h : Keeps κ s₀ s) (t : Time) : Keeps κ s₀ (State.passTo s t) := by
  unfold State.passTo
  repeat' first
    | with_reducible assumption
    | with_reducible apply State.pass_keeps

theorem State.ringTo_keeps {κ : Kept} {s₀ s : State} (h : Keeps κ s₀ s) (t : Time) : Keeps κ s₀ (State.ringTo s t) := by
  unfold State.ringTo
  repeat' first
    | with_reducible assumption
    | with_reducible apply State.pass_keeps
    | split
    | (fail_if_no_progress with_reducible apply Keeps.upd)
    | dsimp only

end Sys2Proof.Machine
end

