-- ==== Sys2Proof/Laws/OpsKeeps.lean ====
section
/-! SUPPORT. What the shared operations of Machine/Ops.lean keep. -/

namespace Sys2Proof.Machine

theorem State.modSub_keeps {κ : Kept} {s₀ s : State} (h : Keeps κ s₀ s) (src : Src) (f : Subblock → Subblock) : Keeps κ s₀ (State.modSub s src f) :=
    by
  unfold State.modSub
  repeat' first
    | with_reducible assumption
    | with_reducible apply State.modPart_keeps
    | split
    | (fail_if_no_progress with_reducible apply Keeps.upd)

theorem State.modEvq_keeps {κ : Kept} {s₀ s : State} (h : Keeps κ s₀ s) (src : Src) (e : Fin 16) (f : EvQ → EvQ) : Keeps κ s₀ (State.modEvq s src e f)
    := by
  unfold State.modEvq
  repeat' first
    | with_reducible assumption
    | with_reducible apply State.modSub_keeps

theorem State.modCmdq_keeps {κ : Kept} {s₀ s : State} (h : Keeps κ s₀ s) (src : Src) (q : Fin 64) (f : CmdQ → CmdQ) : Keeps κ s₀ (State.modCmdq s src
    q f) := by
  unfold State.modCmdq
  repeat' first
    | with_reducible assumption
    | with_reducible apply State.modSub_keeps

theorem State.modTaken_keeps {κ : Kept} {s₀ s : State} (h : Keeps κ s₀ s) (src : Src) (f : List Cmd → List Cmd) : Keeps κ s₀ (State.modTaken s src f)
    := by
  unfold State.modTaken
  repeat' first
    | with_reducible assumption
    | with_reducible apply State.modPart_keeps
    | split
    | (fail_if_no_progress with_reducible apply Keeps.upd)

theorem State.sendOn_keeps {κ : Kept} {s₀ s : State} (h : Keeps κ s₀ s) (p : Port) (o : Out) : Keeps κ s₀ (State.sendOn s p o) := by
  unfold State.sendOn
  repeat' first
    | with_reducible assumption
    | with_reducible apply State.send_keeps
    | with_reducible apply State.modPort_keeps
    | split

theorem State.raise_keeps {κ : Kept} {s₀ s : State} (h : Keeps κ s₀ s) (p : Port) (v : Fin 256) : Keeps κ s₀ (State.raise s p v) := by
  unfold State.raise
  repeat' first
    | with_reducible assumption
    | with_reducible apply State.modPort_keeps
    | with_reducible apply State.sendOn_keeps
    | split
    | (fail_if_no_progress with_reducible apply Keeps.upd)
    | dsimp only

theorem State.interrupt_keeps {κ : Kept} {s₀ s : State} (h : Keeps κ s₀ s) (src : Src) (e : Fin 16) : Keeps κ s₀ (State.interrupt s src e) := by
  unfold State.interrupt
  repeat' first
    | with_reducible assumption
    | with_reducible apply State.modEvq_keeps
    | with_reducible apply State.raise_keeps
    | split

theorem State.putRecord_keeps {κ : Kept} {s₀ s : State} (h : Keeps κ s₀ s) (src : Src) (e : Fin 16) (r : EventRec) : Keeps κ s₀ (State.putRecord s src
    e r) := by
  unfold State.putRecord
  repeat' first
    | with_reducible assumption
    | with_reducible apply State.send_keeps
    | with_reducible apply State.modEvq_keeps
    | with_reducible apply State.interrupt_keeps
    | with_reducible apply State.sendOn_keeps
    | split
    | (fail_if_no_progress with_reducible apply Keeps.upd)
    | dsimp only

theorem State.resumeEvq_keeps {κ : Kept} {s₀ s : State} (h : Keeps κ s₀ s) (src : Src) (e : Fin 16) : Keeps κ s₀ (State.resumeEvq s src e) := by
  unfold State.resumeEvq
  repeat' first
    | with_reducible assumption
    | with_reducible apply State.modEvq_keeps
    | with_reducible apply State.putRecord_keeps
    | split
    | (fail_if_no_progress with_reducible apply Keeps.upd)
    | dsimp only

theorem State.toEvq_keeps {κ : Kept} {s₀ s : State} (h : Keeps κ s₀ s) (src : Src) (e : Fin 16) (r : EventRec) : Keeps κ s₀ (State.toEvq s src e r) :=
    by
  unfold State.toEvq
  repeat' first
    | with_reducible assumption
    | with_reducible apply State.modEvq_keeps
    | with_reducible apply State.putRecord_keeps
    | split
    | (fail_if_no_progress with_reducible apply Keeps.upd)
    | dsimp only

theorem State.toOwner_keeps {κ : Kept} {s₀ s : State} (h : Keeps κ s₀ s) (part : Option Part) (v : Ev) : Keeps κ s₀ (State.toOwner s part v) := by
  unfold State.toOwner
  repeat' first
    | with_reducible assumption
    | with_reducible apply State.toEvq_keeps

theorem State.toPart_keeps {κ : Kept} {s₀ s : State} (h : Keeps κ s₀ s) (p : Part) (e : Fin 16) (v : Ev) : Keeps κ s₀ (State.toPart s p e v) := by
  unfold State.toPart
  repeat' first
    | with_reducible assumption
    | with_reducible apply State.toEvq_keeps
    | with_reducible apply State.toOwner_keeps
    | split

theorem State.toBoth_keeps {κ : Kept} {s₀ s : State} (h : Keeps κ s₀ s) (p : Part) (v : Ev) : Keeps κ s₀ (State.toBoth s p v) := by
  unfold State.toBoth
  repeat' first
    | with_reducible assumption
    | with_reducible apply State.toPart_keeps
    | with_reducible apply State.toOwner_keeps
    | split
    | (fail_if_no_progress with_reducible apply Keeps.upd)
    | dsimp only

theorem State.toSrc_keeps {κ : Kept} {s₀ s : State} (h : Keeps κ s₀ s) (src : Src) (e : Fin 16) (v : Ev) : Keeps κ s₀ (State.toSrc s src e v) := by
  unfold State.toSrc
  repeat' first
    | with_reducible assumption
    | with_reducible apply State.toPart_keeps
    | with_reducible apply State.toEvq_keeps
    | split

theorem State.done_keeps {κ : Kept} {s₀ s : State} (h : Keeps κ s₀ s) (src : Src) (c : Cmd) (status : Nat) (b : Nat) : Keeps κ s₀ (State.done s src c
    status b) := by
  unfold State.done
  repeat' first
    | with_reducible assumption
    | with_reducible apply State.modTaken_keeps
    | with_reducible apply State.toSrc_keeps
    | split

theorem State.arrive_keeps {κ : Kept} {s₀ s : State} (h : Keeps κ s₀ s) (p : Option Part) (k : XferKind) : Keeps κ s₀ (State.arrive s p k) := by
  unfold State.arrive
  repeat' first
    | with_reducible assumption
    | split
    | (fail_if_no_progress with_reducible apply Keeps.upd)

theorem State.modCmd_keeps {κ : Kept} {s₀ s : State} (h : Keeps κ s₀ s) (src : Src) (id : Nat) (f : Cmd → Cmd) : Keeps κ s₀ (State.modCmd s src id f)
    := by
  unfold State.modCmd
  repeat' first
    | with_reducible assumption
    | with_reducible apply State.modTaken_keeps

theorem State.issueRead_keeps {κ : Kept} {s₀ s : State} (h : Keeps κ s₀ s) (p : Port) (addr : Nat) (len : Nat) (why : ReadFor) : Keeps κ s₀
    (State.issueRead s p addr len why) := by
  unfold State.issueRead
  repeat' first
    | with_reducible assumption
    | with_reducible apply State.send_keeps
    | split
    | (fail_if_no_progress with_reducible apply Keeps.upd)
    | dsimp only

theorem State.pumpReads_keeps {κ : Kept} {s₀ s : State} (h : Keeps κ s₀ s) (p : Port) : Keeps κ s₀ (State.pumpReads s p) := by
  unfold State.pumpReads
  repeat' first
    | with_reducible assumption
    | with_reducible apply State.send_keeps
    | (with_reducible apply Keeps.foldl; intro _ _ _; try dsimp only)
    | split
    | (fail_if_no_progress with_reducible apply Keeps.upd)

theorem State.dropReads_keeps {κ : Kept} {s₀ s : State} (h : Keeps κ s₀ s) (gone : HostRead → Bool) : Keeps κ s₀ (State.dropReads s gone) := by
  unfold State.dropReads
  repeat' first
    | with_reducible assumption
    | with_reducible apply State.pumpReads_keeps
    | (with_reducible apply Keeps.foldl; intro _ _ _; try dsimp only)
    | split
    | (fail_if_no_progress with_reducible apply Keeps.upd)

theorem State.cmdRead_keeps {κ : Kept} {s₀ s : State} (h : Keeps κ s₀ s) (src : Src) (c : Cmd) (addr : Nat) (len : Nat) : Keeps κ s₀ (State.cmdRead s
    src c addr len) := by
  unfold State.cmdRead
  repeat' first
    | with_reducible assumption
    | with_reducible apply State.issueRead_keeps
    | with_reducible apply State.modCmd_keeps
    | with_reducible apply State.done_keeps
    | split

theorem State.modRepairs_keeps {κ : Kept} {s₀ s : State} (h : Keeps κ s₀ s) (p : Part) (f : List Repair → List Repair) : Keeps κ s₀ (State.modRepairs
    s p f) := by
  unfold State.modRepairs
  repeat' first
    | with_reducible assumption
    | with_reducible apply State.modPart_keeps
    | split
    | (fail_if_no_progress with_reducible apply Keeps.upd)

end Sys2Proof.Machine
end

