-- ==== Sys2Proof/Laws/SheetKeeps.lean ====
section
/-! SUPPORT. What the shared operations of Machine/Sheet.lean keep. -/

namespace Sys2Proof.Machine

theorem State.modDie_keeps {κ : Kept} {s₀ s : State} (h : Keeps κ s₀ s) (k : Nat) (f : DieSt → DieSt) : Keeps κ s₀ (State.modDie s k f) := by
  unfold State.modDie
  repeat' first
    | with_reducible assumption
    | split
    | (fail_if_no_progress with_reducible apply Keeps.upd)

theorem State.modBank_keeps {κ : Kept} {s₀ s : State} (h : Keeps κ s₀ s) (k : Nat) (f : BankSt → BankSt) : Keeps κ s₀ (State.modBank s k f) := by
  unfold State.modBank
  repeat' first
    | with_reducible assumption
    | split
    | (fail_if_no_progress with_reducible apply Keeps.upd)

theorem State.poisonBlock_keeps {κ : Kept} {s₀ s : State} (h : Keeps κ s₀ s) (b : Nat) : Keeps κ s₀ (s.poisonBlock b) :=
  (h.updSheet _ (Memory.wf_zeroN _ _ _)).upd ..

theorem State.putBlock_keeps {κ : Kept} {s₀ s : State} (h : Keeps κ s₀ s) (b : Nat) (bytes : List Byte) (poison : Bool) :
    Keeps κ s₀ (s.putBlock b bytes poison) := by
  unfold State.putBlock
  split
  · exact h
  · split
    · exact State.poisonBlock_keeps h b
    · exact (h.updSheet _ (Memory.wf_writeN _ _ _)).upd ..

theorem State.putBlocks_keeps {κ : Kept} {s₀ s : State} (h : Keeps κ s₀ s) (b : Nat) (x0 : List (List Byte × Bool)) : Keeps κ s₀ (State.putBlocks s b
    x0) := by
  induction x0 generalizing s b with
  | nil => exact h
  | cons y l ih =>
    unfold State.putBlocks
    repeat' first
      | with_reducible assumption
      | with_reducible apply State.putBlock_keeps
      | with_reducible apply ih

theorem State.zeroSheet_keeps {κ : Kept} {s₀ s : State} (h : Keeps κ s₀ s) (addr len : Nat) : Keeps κ s₀ (s.zeroSheet addr len) :=
  (h.updSheet _ (Memory.wf_zeroN _ _ _)).upd ..

theorem State.putChunk_keeps {κ : Kept} {s₀ s : State} (h : Keeps κ s₀ s) (c : Nat) (bytes : List Byte) (poison : Bool) :
    Keeps κ s₀ (s.putChunk c bytes poison) := by
  unfold State.putChunk
  split
  · exact h
  · split
    · exact (h.updPeat _ (Memory.wf_zeroN _ _ _)).upd ..
    · exact (h.updPeat _ (Memory.wf_writeN _ _ _)).upd ..

theorem State.zeroPeat_keeps {κ : Kept} {s₀ s : State} (h : Keeps κ s₀ s) (addr len : Nat) : Keeps κ s₀ (s.zeroPeat addr len) :=
  (h.updPeat _ (Memory.wf_zeroN _ _ _)).upd ..

theorem State.sheetToPeat_keeps {κ : Kept} {s₀ s : State} (h : Keeps κ s₀ s) (b : Nat) (c : Nat) (x0 : Nat) : Keeps κ s₀ (State.sheetToPeat s b c x0)
    := by
  induction x0 generalizing s b c with
  | zero => exact h
  | succ n ih =>
    unfold State.sheetToPeat
    repeat' first
      | with_reducible assumption
      | with_reducible apply State.putChunk_keeps
      | with_reducible apply ih

theorem State.peatToSheet_keeps {κ : Kept} {s₀ s : State} (h : Keeps κ s₀ s) (bad : List Nat) (c : Nat) (b : Nat) (x0 : Nat) : Keeps κ s₀
    (State.peatToSheet s bad c b x0) := by
  induction x0 generalizing s bad c b with
  | zero => exact h
  | succ n ih =>
    unfold State.peatToSheet
    repeat' first
      | with_reducible assumption
      | with_reducible apply State.putBlocks_keeps
      | with_reducible apply ih

theorem State.copyBlocks_keeps {κ : Kept} {s₀ s : State} (h : Keeps κ s₀ s) (bad : List Nat) (src : Nat) (dst : Nat) (x0 : Nat) : Keeps κ s₀
    (State.copyBlocks s bad src dst x0) := by
  induction x0 generalizing s bad src dst with
  | zero => exact h
  | succ n ih =>
    unfold State.copyBlocks
    repeat' first
      | with_reducible assumption
      | with_reducible apply State.putBlock_keeps
      | with_reducible apply ih

theorem State.copyRange_keeps {κ : Kept} {s₀ s : State} (h : Keeps κ s₀ s) (src dst len : Nat) : Keeps κ s₀ (s.copyRange src dst len) := by
  unfold State.copyRange
  dsimp only
  split
  · exact h
  · split
    · exact (h.updSheet _ (Memory.wf_zeroN _ _ _)).upd ..
    · exact (h.updSheet _ (Memory.wf_moveN _ _ _ _)).upd ..

theorem State.spoil_keeps {κ : Kept} {s₀ s : State} (h : Keeps κ s₀ s) (addr : Nat) (n : Nat) : Keeps κ s₀ (State.spoil s addr n) := by
  unfold State.spoil
  repeat' first
    | with_reducible assumption
    | split
    | (fail_if_no_progress with_reducible apply Keeps.upd)
    | dsimp only
    | (fail_if_no_progress with_reducible apply Keeps.updAll)
    | exact id
    | exact le_rfl
    | exact Memory.wf_zeroN _ _ _
    | exact Memory.wf_writeN _ _ _
    | exact Memory.wf_filter _ _
    | exact fun _ => Memory.wf_nil
    | exact fun _ => rfl
    | exact fun _ => Flash.sameFirmware_refl _

theorem State.spoilPeat_keeps {κ : Kept} {s₀ s : State} (h : Keeps κ s₀ s) (addr : Nat) (n : Nat) : Keeps κ s₀ (State.spoilPeat s addr n) := by
  unfold State.spoilPeat
  repeat' first
    | with_reducible assumption
    | split
    | (fail_if_no_progress with_reducible apply Keeps.upd)
    | dsimp only
    | (fail_if_no_progress with_reducible apply Keeps.updAll)
    | exact id
    | exact le_rfl
    | exact Memory.wf_zeroN _ _ _
    | exact Memory.wf_writeN _ _ _
    | exact Memory.wf_filter _ _
    | exact fun _ => Memory.wf_nil
    | exact fun _ => rfl
    | exact fun _ => Flash.sameFirmware_refl _

end Sys2Proof.Machine
end

