-- ==== Sys2Proof/Laws/RequestsKeeps.lean ====
section
/-! SUPPORT. What the shared operations of Machine/Requests.lean keep. -/

namespace Sys2Proof.Machine

theorem State.modReq_keeps {κ : Kept} {s₀ s : State} (hk : Keeps κ s₀ s) (p : Part) (h : Nat) (f : Req → Req) : Keeps κ s₀ (State.modReq s p h f) :=
    by
  unfold State.modReq
  repeat' first
    | with_reducible assumption
    | with_reducible apply State.modPart_keeps

theorem State.toReq_keeps {κ : Kept} {s₀ s : State} (hk : Keeps κ s₀ s) (p : Part) (h : Nat) (v : Ev) : Keeps κ s₀ (State.toReq s p h v) := by
  unfold State.toReq
  repeat' first
    | with_reducible assumption
    | with_reducible apply State.toPart_keeps
    | split

theorem State.faultReq_keeps {κ : Kept} {s₀ s : State} (hk : Keeps κ s₀ s) (p : Part) (h : Nat) (v : Ev) : Keeps κ s₀ (State.faultReq s p h v) := by
  unfold State.faultReq
  repeat' first
    | with_reducible assumption
    | with_reducible apply State.toReq_keeps
    | with_reducible apply State.modReq_keeps

theorem State.writeRecord_keeps {κ : Kept} {s₀ s : State} (hk : Keeps κ s₀ s) (p : Part) (h : Nat) (token : W32) (logprob : W16) (isEnd : Bool)
    (missed : Bool) (drafted : Bool) : Keeps κ s₀ (State.writeRecord s p h token logprob isEnd missed drafted) := by
  unfold State.writeRecord
  repeat' first
    | with_reducible assumption
    | with_reducible apply State.sendOn_keeps
    | with_reducible apply State.modReq_keeps
    | split

theorem State.readConsumed_keeps {κ : Kept} {s₀ s : State} (hk : Keeps κ s₀ s) (p : Part) (h : Nat) : Keeps κ s₀ (State.readConsumed s p h) := by
  unfold State.readConsumed
  repeat' first
    | with_reducible assumption
    | with_reducible apply State.issueRead_keeps
    | with_reducible apply State.modReq_keeps
    | split

theorem State.settle_keeps {κ : Kept} {s₀ s : State} (h : Keeps κ s₀ s) (p : Part) : Keeps κ s₀ (State.settle s p) := by
  unfold State.settle
  repeat' first
    | with_reducible assumption
    | with_reducible apply State.done_keeps
    | with_reducible apply State.modPart_keeps
    | with_reducible apply State.modRepairs_keeps
    | (with_reducible apply Keeps.foldl; intro _ _ _; try dsimp only)
    | split
    | (fail_if_no_progress with_reducible apply Keeps.upd)

theorem State.endReq_keeps {κ : Kept} {s₀ s : State} (hk : Keeps κ s₀ s) (p : Part) (h : Nat) (st : ReqState) : Keeps κ s₀ (State.endReq s p h st) :=
    by
  unfold State.endReq
  repeat' first
    | with_reducible assumption
    | with_reducible apply State.modPart_keeps
    | with_reducible apply State.modReq_keeps
    | split

theorem State.finishReq_keeps {κ : Kept} {s₀ s : State} (hk : Keeps κ s₀ s) (p : Part) (h : Nat) (cause : Nat) : Keeps κ s₀ (State.finishReq s p h
    cause) := by
  unfold State.finishReq
  repeat' first
    | with_reducible assumption
    | with_reducible apply State.toReq_keeps
    | with_reducible apply State.endReq_keeps
    | with_reducible apply State.done_keeps
    | split

theorem State.expireReq_keeps {κ : Kept} {s₀ s : State} (hk : Keeps κ s₀ s) (p : Part) (h : Nat) : Keeps κ s₀ (State.expireReq s p h) := by
  unfold State.expireReq
  repeat' first
    | with_reducible assumption
    | with_reducible apply State.toReq_keeps
    | with_reducible apply State.deadline_keeps
    | with_reducible apply State.endReq_keeps
    | with_reducible apply State.modPart_keeps
    | split

theorem State.faultOut_keeps {κ : Kept} {s₀ s : State} (hk : Keeps κ s₀ s) (p : Part) (h : Nat) (v : Ev) : Keeps κ s₀ (State.faultOut s p h v) := by
  unfold State.faultOut
  repeat' first
    | with_reducible assumption
    | with_reducible apply State.faultReq_keeps
    | with_reducible apply State.endReq_keeps
    | with_reducible apply State.settle_keeps

theorem State.endOnly_keeps {κ : Kept} {s₀ s : State} (hk : Keeps κ s₀ s) (p : Part) (h : Nat) (endAs : Nat) : Keeps κ s₀ (State.endOnly s p h endAs)
    := by
  unfold State.endOnly
  repeat' first
    | with_reducible assumption
    | with_reducible apply State.deadline_keeps
    | with_reducible apply State.writeRecord_keeps
    | with_reducible apply State.expireReq_keeps
    | with_reducible apply State.finishReq_keeps
    | with_reducible apply State.settle_keeps
    | with_reducible apply State.modReq_keeps
    | with_reducible apply State.readConsumed_keeps
    | split

theorem State.tellQueued_keeps {κ : Kept} {s₀ s : State} (hk : Keeps κ s₀ s) (p : Part) (h : Nat) : Keeps κ s₀ (State.tellQueued s p h) := by
  unfold State.tellQueued
  repeat' first
    | with_reducible assumption
    | with_reducible apply State.modPart_keeps
    | with_reducible apply State.toReq_keeps
    | split
    | (fail_if_no_progress with_reducible apply Keeps.upd)
    | dsimp only

theorem State.rewind_keeps {κ : Kept} {s₀ s : State} (hk : Keeps κ s₀ s) (p : Part) (h : Nat) (j : Nat) : Keeps κ s₀ (State.rewind s p h j) := by
  unfold State.rewind
  repeat' first
    | with_reducible assumption
    | with_reducible apply State.modReq_keeps
    | with_reducible apply State.modPart_keeps
    | with_reducible apply State.toReq_keeps
    | split

theorem State.evict_keeps {κ : Kept} {s₀ s : State} (hk : Keeps κ s₀ s) (p : Part) (h : Nat) (waiter : Nat) : Keeps κ s₀ (State.evict s p h waiter) :=
    by
  unfold State.evict
  repeat' first
    | with_reducible assumption
    | with_reducible apply State.modReq_keeps
    | with_reducible apply State.modPart_keeps
    | with_reducible apply State.toReq_keeps
    | split

end Sys2Proof.Machine
end

