-- ==== Sys2Proof/Laws/SliceKeeps.lean ====
section
/-! SUPPORT. What the shared operations of Machine/Slice.lean keep. -/

namespace Sys2Proof.Machine

theorem State.beginSlot_keeps {κ : Kept} {s₀ s : State} (h : Keeps κ s₀ s) (i : Nat) : Keeps κ s₀ (State.beginSlot s i) := by
  unfold State.beginSlot
  repeat' first
    | with_reducible assumption
    | with_reducible apply State.modPart_keeps
    | split
    | (fail_if_no_progress with_reducible apply Keeps.upd)

theorem State.zeroSram_keeps {κ : Kept} {s₀ s : State} (h : Keeps κ s₀ s) (m : W64) : Keeps κ s₀ (State.zeroSram s m) := by
  unfold State.zeroSram
  repeat' first
    | with_reducible assumption
    | split
    | (fail_if_no_progress with_reducible apply Keeps.upd)

theorem State.endSlot_keeps {κ : Kept} {s₀ s : State} (h : Keeps κ s₀ s) (i : Nat) : Keeps κ s₀ (State.endSlot s i) := by
  unfold State.endSlot
  repeat' first
    | with_reducible assumption
    | with_reducible apply State.zeroSram_keeps
    | with_reducible apply State.beginSlot_keeps
    | (with_reducible apply Keeps.foldl; intro _ _ _; try dsimp only)
    | split
    | (fail_if_no_progress with_reducible apply Keeps.upd)

theorem State.settleSlots_keeps {κ : Kept} {s₀ s : State} (h : Keeps κ s₀ s) (p : Part) : Keeps κ s₀ (State.settleSlots s p) := by
  unfold State.settleSlots
  repeat' first
    | with_reducible assumption
    | with_reducible apply State.modPart_keeps
    | with_reducible apply State.toPart_keeps
    | with_reducible apply State.endSlot_keeps
    | (with_reducible apply Keeps.foldl; intro _ _ _; try dsimp only)
    | split
    | (fail_if_no_progress with_reducible apply Keeps.upd)

end Sys2Proof.Machine
end

