-- ==== Sys2Proof/Laws/PartitionKeeps.lean ====
section
/-! SUPPORT. What the shared operations of Machine/Partition.lean keep. -/

namespace Sys2Proof.Machine

theorem State.fenceViolation_keeps {κ : Kept} {s₀ s : State} (h : Keeps κ s₀ s) (p : Part) (seg : Nat) (kind : Nat) : Keeps κ s₀ (State.fenceViolation
    s p seg kind) := by
  unfold State.fenceViolation
  repeat' first
    | with_reducible assumption
    | with_reducible apply State.toOwner_keeps

theorem State.told_keeps {κ : Kept} {s₀ s : State} (h : Keeps κ s₀ s) (p : Part) (seg : Option Nat) (kind : Nat) : Keeps κ s₀ (State.told s p seg
    kind) := by
  unfold State.told
  repeat' first
    | with_reducible assumption
    | with_reducible apply State.fenceViolation_keeps
    | split

theorem State.poisonBlocks_keeps {κ : Kept} {s₀ s : State} (h : Keeps κ s₀ s) (b : Nat) (n : Nat) : Keeps κ s₀ (State.poisonBlocks s b n) := by
  unfold State.poisonBlocks
  repeat' first
    | with_reducible assumption
    | with_reducible apply State.putBlocks_keeps

theorem State.poisonChunks_keeps {κ : Kept} {s₀ s : State} (h : Keeps κ s₀ s) (c : Nat) (x0 : Nat) : Keeps κ s₀ (State.poisonChunks s c x0) := by
  induction x0 generalizing s c with
  | zero => exact h
  | succ n ih =>
    unfold State.poisonChunks
    repeat' first
      | with_reducible assumption
      | with_reducible apply State.putChunk_keeps
      | with_reducible apply ih

theorem State.fencedFetch_keeps {κ : Kept} {s₀ s : State} (h : Keeps κ s₀ s) (p : Part) (bad : List Nat) (c : Nat) (a : Nat) (len : Nat) : Keeps κ s₀
    (State.fencedFetch s p bad c a len) := by
  unfold State.fencedFetch
  repeat' first
    | with_reducible assumption
    | with_reducible apply State.told_keeps
    | with_reducible apply State.poisonBlocks_keeps
    | with_reducible apply State.peatToSheet_keeps
    | split
    | (fail_if_no_progress with_reducible apply Keeps.upd)
    | dsimp only

theorem State.fencedSpill_keeps {κ : Kept} {s₀ s : State} (h : Keeps κ s₀ s) (p : Part) (a : Nat) (c : Nat) (len : Nat) : Keeps κ s₀
    (State.fencedSpill s p a c len) := by
  unfold State.fencedSpill
  repeat' first
    | with_reducible assumption
    | with_reducible apply State.told_keeps
    | with_reducible apply State.poisonChunks_keeps
    | with_reducible apply State.sheetToPeat_keeps
    | split
    | (fail_if_no_progress with_reducible apply Keeps.upd)
    | dsimp only

theorem State.assertAlert_keeps {κ : Kept} {s₀ s : State} (h : Keeps κ s₀ s) : Keeps κ s₀ (State.assertAlert s) := by
  unfold State.assertAlert
  repeat' first
    | with_reducible assumption
    | split
    | (fail_if_no_progress with_reducible apply Keeps.upd)

theorem State.alertFault_keeps {κ : Kept} {s₀ s : State} (h : Keeps κ s₀ s) (cls : Nat) : Keeps κ s₀ (State.alertFault s cls) := by
  unfold State.alertFault
  repeat' first
    | with_reducible assumption
    | with_reducible apply State.assertAlert_keeps
    | split

theorem State.releaseAlert_keeps {κ : Kept} {s₀ s : State} (h : Keeps κ s₀ s) : Keeps κ s₀ (State.releaseAlert s) := by
  unfold State.releaseAlert
  repeat' first
    | with_reducible assumption
    | split
    | (fail_if_no_progress with_reducible apply Keeps.upd)

theorem State.bistSettle_keeps {κ : Kept} {s₀ s : State} (h : Keeps κ s₀ s) : Keeps κ s₀ (State.bistSettle s) := by
  unfold State.bistSettle
  repeat' first
    | with_reducible assumption
    | split
    | (fail_if_no_progress with_reducible apply Keeps.upd)

theorem State.abandonStep_keeps {κ : Kept} {s₀ s : State} (h : Keeps κ s₀ s) (p : Part) (cause : Nat) : Keeps κ s₀ (State.abandonStep s p cause) := by
  unfold State.abandonStep
  repeat' first
    | with_reducible assumption
    | with_reducible apply State.modPart_keeps
    | with_reducible apply State.toPart_keeps
    | with_reducible apply State.settleSlots_keeps
    | with_reducible apply State.bistSettle_keeps
    | split

theorem State.cancelQueued_keeps {κ : Kept} {s₀ s : State} (h : Keeps κ s₀ s) (p : Part) : Keeps κ s₀ (State.cancelQueued s p) := by
  unfold State.cancelQueued
  repeat' first
    | with_reducible assumption
    | with_reducible apply State.modPart_keeps
    | with_reducible apply State.modRepairs_keeps

theorem State.reissue_keeps {κ : Kept} {s₀ s : State} (h : Keeps κ s₀ s) (p : Part) : Keeps κ s₀ (State.reissue s p) := by
  unfold State.reissue
  repeat' first
    | with_reducible assumption
    | with_reducible apply State.modRepairs_keeps
    | with_reducible apply State.arrive_keeps
    | (with_reducible apply Keeps.foldl; intro _ _ _; try dsimp only)

theorem State.doneAll_keeps {κ : Kept} {s₀ s : State} (h : Keeps κ s₀ s) (src : Src) (which : Cmd → Bool) (status : Nat) : Keeps κ s₀ (State.doneAll s
    src which status) := by
  unfold State.doneAll
  repeat' first
    | with_reducible assumption
    | with_reducible apply State.done_keeps
    | (with_reducible apply Keeps.foldl; intro _ _ _; try dsimp only)

theorem State.resumeReads_keeps {κ : Kept} {s₀ s : State} (h : Keeps κ s₀ s) (p : Part) : Keeps κ s₀ (State.resumeReads s p) := by
  unfold State.resumeReads
  repeat' first
    | with_reducible assumption
    | with_reducible apply State.modCmd_keeps
    | with_reducible apply State.cmdRead_keeps
    | (with_reducible apply Keeps.foldl; intro _ _ _; try dsimp only)
    | split

theorem State.cmdReadRunning_keeps {κ : Kept} {s₀ s : State} (h : Keeps κ s₀ s) (p : Part) (c : Cmd) (addr : Nat) (len : Nat) : Keeps κ s₀
    (State.cmdReadRunning s p c addr len) := by
  unfold State.cmdReadRunning
  repeat' first
    | with_reducible assumption
    | with_reducible apply State.cmdRead_keeps
    | with_reducible apply State.modCmd_keeps
    | split

theorem State.endHolds_keeps {κ : Kept} {s₀ s : State} (h : Keeps κ s₀ s) (p : Part) : Keeps κ s₀ (State.endHolds s p) := by
  unfold State.endHolds
  repeat' first
    | with_reducible assumption
    | split
    | (fail_if_no_progress with_reducible apply Keeps.upd)
    | dsimp only

theorem State.beginStop_keeps {κ : Kept} {s₀ s : State} (h : Keeps κ s₀ s) (p : Part) (cause : Nat) : Keeps κ s₀ (State.beginStop s p cause) := by
  unfold State.beginStop
  repeat' first
    | with_reducible assumption
    | with_reducible apply State.modPart_keeps
    | with_reducible apply State.cancelQueued_keeps
    | split

theorem State.dropHeld_keeps {κ : Kept} {s₀ s : State} (h : Keeps κ s₀ s) (p : Part) : Keeps κ s₀ (State.dropHeld s p) := by
  unfold State.dropHeld
  repeat' first
    | with_reducible assumption
    | with_reducible apply State.modPort_keeps
    | split

theorem State.resetPart_keeps {κ : Kept} {s₀ s : State} (h : Keeps κ s₀ s) (p : Part) : Keeps κ s₀ (State.resetPart s p) := by
  unfold State.resetPart
  repeat' first
    | with_reducible assumption
    | with_reducible apply State.doneAll_keeps
    | with_reducible apply State.modPart_keeps
    | with_reducible apply State.dropReads_keeps
    | split
    | (fail_if_no_progress with_reducible apply Keeps.upd)

theorem State.stopNow_keeps {κ : Kept} {s₀ s : State} (h : Keeps κ s₀ s) (p : Part) : Keeps κ s₀ (State.stopNow s p) := by
  unfold State.stopNow
  repeat' first
    | with_reducible assumption
    | with_reducible apply State.modPart_keeps
    | with_reducible apply State.dropHeld_keeps
    | with_reducible apply State.toBoth_keeps
    | with_reducible apply State.doneAll_keeps
    | with_reducible apply State.resetPart_keeps
    | split
    | (fail_if_no_progress with_reducible apply Keeps.upd)
    | dsimp only

theorem State.takeStructure_keeps {κ : Kept} {s₀ s : State} (h : Keeps κ s₀ s) (p : Part) : Keeps κ s₀ (State.takeStructure s p) := by
  unfold State.takeStructure
  repeat' first
    | with_reducible assumption
    | with_reducible apply State.modPart_keeps
    | split
    | (fail_if_no_progress with_reducible apply Keeps.upd)

theorem State.startNow_keeps {κ : Kept} {s₀ s : State} (h : Keeps κ s₀ s) (p : Part) : Keeps κ s₀ (State.startNow s p) := by
  unfold State.startNow
  repeat' first
    | with_reducible assumption
    | with_reducible apply State.endHolds_keeps
    | with_reducible apply State.takeStructure_keeps
    | with_reducible apply State.modPart_keeps
    | with_reducible apply State.toBoth_keeps
    | with_reducible apply State.doneAll_keeps
    | with_reducible apply State.reissue_keeps
    | with_reducible apply State.resumeReads_keeps
    | split

theorem State.start_keeps {κ : Kept} {s₀ s : State} (h : Keeps κ s₀ s) (p : Part) : Keeps κ s₀ (State.start s p) := by
  unfold State.start
  repeat' first
    | with_reducible assumption
    | with_reducible apply State.modPart_keeps
    | with_reducible apply State.startNow_keeps
    | split

theorem State.removePart_keeps {κ : Kept} {s₀ s : State} (h : Keeps κ s₀ s) (p : Part) : Keeps κ s₀ (State.removePart s p) := by
  unfold State.removePart
  repeat' first
    | with_reducible assumption
    | with_reducible apply State.doneAll_keeps
    | with_reducible apply State.toBoth_keeps
    | with_reducible apply State.modPart_keeps
    | with_reducible apply State.modRepairs_keeps
    | with_reducible apply State.dropReads_keeps

theorem State.wipePart_keeps {κ : Kept} {s₀ s : State} (h : Keeps κ s₀ s) (p : Part) : Keeps κ s₀ (State.wipePart s p) := by
  unfold State.wipePart
  repeat' first
    | with_reducible assumption
    | with_reducible apply State.modPart_keeps
    | with_reducible apply State.modRepairs_keeps
    | with_reducible apply State.dropReads_keeps

theorem State.quarantine_keeps {κ : Kept} {s₀ s : State} (h : Keeps κ s₀ s) (p : Part) (code : Nat) (loc : Nat) (fatal : Bool) (cause : Nat) : Keeps κ
    s₀ (State.quarantine s p code loc fatal cause) := by
  unfold State.quarantine
  repeat' first
    | with_reducible assumption
    | with_reducible apply State.abandonStep_keeps
    | with_reducible apply State.cancelQueued_keeps
    | with_reducible apply State.modPart_keeps
    | with_reducible apply State.dropHeld_keeps
    | with_reducible apply State.toBoth_keeps
    | with_reducible apply State.doneAll_keeps
    | with_reducible apply State.resetPart_keeps
    | split
    | (fail_if_no_progress with_reducible apply Keeps.upd)
    | dsimp only

theorem State.contained_keeps {κ : Kept} {s₀ s : State} (h : Keeps κ s₀ s) (p : Part) (code : Nat) (loc : Nat) (cause : Nat) : Keeps κ s₀
    (State.contained s p code loc cause) := by
  unfold State.contained
  repeat' first
    | with_reducible assumption
    | with_reducible apply State.modPart_keeps
    | with_reducible apply State.alertFault_keeps
    | with_reducible apply State.quarantine_keeps

theorem State.fatalFault_keeps {κ : Kept} {s₀ s : State} (h : Keeps κ s₀ s) (code : Nat) (loc : Nat) : Keeps κ s₀ (State.fatalFault s code loc) := by
  unfold State.fatalFault
  repeat' first
    | with_reducible assumption
    | with_reducible apply State.alertFault_keeps
    | with_reducible apply State.quarantine_keeps
    | (with_reducible apply Keeps.foldl; intro _ _ _; try dsimp only)
    | split
    | (fail_if_no_progress with_reducible apply Keeps.upd)

theorem State.countDeferred_keeps {κ : Kept} {s₀ s : State} (h : Keeps κ s₀ s) (p : Part) : Keeps κ s₀ (State.countDeferred s p) := by
  unfold State.countDeferred
  repeat' first
    | with_reducible assumption
    | with_reducible apply State.modPart_keeps
    | with_reducible apply State.alertFault_keeps

theorem execPrtCtrlStop_keeps {κ : Kept} {s₀ s t : State} (h : Keeps κ s₀ s) (port : Port) (p : Part) (e : execPrtCtrlStop port p s = .next t) : Keeps
    κ s₀ t := by
  unfold execPrtCtrlStop at e
  cases e
  repeat' first
    | with_reducible assumption
    | with_reducible apply State.beginStop_keeps
    | split

theorem execPrtCtrlStart_keeps {κ : Kept} {s₀ s t : State} (h : Keeps κ s₀ s) (port : Port) (p : Part) (e : execPrtCtrlStart port p s = .next t) :
    Keeps κ s₀ t := by
  unfold execPrtCtrlStart at e
  cases e
  repeat' first
    | with_reducible assumption
    | with_reducible apply State.start_keeps
    | split

theorem State.forPart_keeps {κ : Kept} {s₀ s : State} (h : Keeps κ s₀ s) (src : Src) (opcode : Nat) (run : Part → Cmd → State)
    (hr : ∀ p c, Keeps κ s₀ (run p c)) : Keeps κ s₀ (s.forPart src opcode run) := by
  unfold State.forPart
  split
  · exact h
  · split
    · exact hr _ _
    · exact State.done_keeps h _ _ _ _

theorem State.prtStop_keeps {κ : Kept} {s₀ s : State} (h : Keeps κ s₀ s) (p : Part) (c : Cmd) : Keeps κ s₀ (State.prtStop s p c) := by
  unfold State.prtStop
  repeat' first
    | with_reducible assumption
    | with_reducible apply State.modCmd_keeps
    | with_reducible apply State.beginStop_keeps
    | with_reducible apply State.done_keeps
    | split

theorem State.prtStart_keeps {κ : Kept} {s₀ s : State} (h : Keeps κ s₀ s) (p : Part) (c : Cmd) : Keeps κ s₀ (State.prtStart s p c) := by
  unfold State.prtStart
  repeat' first
    | with_reducible assumption
    | with_reducible apply State.modCmd_keeps
    | with_reducible apply State.start_keeps
    | with_reducible apply State.done_keeps
    | split

theorem execPrtStop_keeps {κ : Kept} {s₀ s t : State} (h : Keeps κ s₀ s) (src : Src) (e : execPrtStop src s = .next t) : Keeps κ s₀ t := by
  unfold execPrtStop at e
  cases e
  repeat' first
    | with_reducible assumption
    | with_reducible apply State.forPart_keeps
    | with_reducible apply State.prtStop_keeps

theorem execPrtStart_keeps {κ : Kept} {s₀ s t : State} (h : Keeps κ s₀ s) (src : Src) (e : execPrtStart src s = .next t) : Keeps κ s₀ t := by
  unfold execPrtStart at e
  cases e
  repeat' first
    | with_reducible assumption
    | with_reducible apply State.forPart_keeps
    | with_reducible apply State.prtStart_keeps

theorem execZeroiseDone_keeps {κ : Kept} {s₀ s t : State} (h : Keeps κ s₀ s) (p : Part) (e : execZeroiseDone p s = .next t) : Keeps κ s₀ t := by
  unfold execZeroiseDone at e
  cases e
  repeat' first
    | with_reducible assumption
    | with_reducible apply State.modPart_keeps
    | with_reducible apply State.startNow_keeps
    | split
    | (fail_if_no_progress with_reducible apply Keeps.upd)
    | dsimp only

theorem execFltPrtRelease_keeps {κ : Kept} {s₀ s t : State} (h : Keeps κ s₀ s) (port : Port) (p : Part) (e : execFltPrtRelease port p s = .next t) :
    Keeps κ s₀ t := by
  unfold execFltPrtRelease at e
  cases e
  repeat' first
    | with_reducible assumption
    | with_reducible apply State.modPart_keeps
    | with_reducible apply State.toBoth_keeps
    | with_reducible apply State.releaseAlert_keeps
    | split

theorem execFltFatalClear_keeps {κ : Kept} {s₀ s t : State} (h : Keeps κ s₀ s) (port : Port) (e : execFltFatalClear port s = .next t) : Keeps κ s₀ t
    := by
  unfold execFltFatalClear at e
  cases e
  repeat' first
    | with_reducible assumption
    | split
    | (fail_if_no_progress with_reducible apply Keeps.upd)

end Sys2Proof.Machine
end

