-- ==== Sys2Proof/Laws/SpillKeeps.lean ====
section
/-! SUPPORT. What the shared operations of Machine/Spill.lean keep. -/

namespace Sys2Proof.Machine

theorem State.modPage_keeps {κ : Kept} {s₀ s : State} (h : Keeps κ s₀ s) (p : Part) (handle : Nat) (page : Nat) (f : PageDesc → PageDesc) : Keeps κ s₀
    (State.modPage s p handle page f) := by
  unfold State.modPage
  repeat' first
    | with_reducible assumption
    | with_reducible apply State.modPart_keeps

theorem State.startSpill_keeps {κ : Kept} {s₀ s : State} (h : Keeps κ s₀ s) (p : Part) (handle page : Nat) {t : State}
    (e : s.startSpill p handle page = some t) : Keeps κ s₀ t := by
  obtain ⟨a, -, rfl⟩ := Option.map_eq_some_iff.1 e
  exact State.arrive_keeps (State.modPart_keeps (State.modPage_keeps h _ _ _ _) _ _) _ _

theorem State.tellFull_keeps {κ : Kept} {s₀ s : State} (h : Keeps κ s₀ s) (p : Part) (left : Nat) : Keeps κ s₀ (State.tellFull s p left) := by
  unfold State.tellFull
  repeat' first
    | with_reducible assumption
    | with_reducible apply State.modPart_keeps
    | with_reducible apply State.toPart_keeps
    | split
    | (fail_if_no_progress with_reducible apply Keeps.upd)
    | dsimp only

theorem State.spillSome_keeps {κ : Kept} {s₀ : State} (p : Part) (l : List (Nat × Nat)) :
    ∀ {s : State} (_ : Keeps κ s₀ s) (n : Nat), Keeps κ s₀ (s.spillSome p l n) := by
  induction l with
  | nil => intro s h n; unfold State.spillSome; exact h
  | cons x l ih =>
    intro s h n
    cases n with
    | zero => exact h
    | succ n =>
      rw [State.spillSome]
      split
      · next e => exact ih (State.startSpill_keeps h _ _ _ e) n
      · exact State.tellFull_keeps h _ _

theorem State.spillPart_keeps {κ : Kept} {s₀ s : State} (h : Keeps κ s₀ s) (p : Part) (handle : Nat) (i : Nat) : Keeps κ s₀ (State.spillPart s p
    handle i) := by
  unfold State.spillPart
  repeat' first
    | with_reducible assumption
    | with_reducible apply State.spillSome_keeps
    | with_reducible apply State.modPart_keeps
    | split
    | (fail_if_no_progress with_reducible apply Keeps.upd)
    | dsimp only

theorem State.spillPolicy_keeps {κ : Kept} {s₀ s : State} (h : Keeps κ s₀ s) (p : Part) : Keeps κ s₀ (State.spillPolicy s p) := by
  unfold State.spillPolicy
  repeat' first
    | with_reducible assumption
    | with_reducible apply State.spillPart_keeps
    | with_reducible apply State.spillSome_keeps
    | (with_reducible apply Keeps.foldl; intro _ _ _; try dsimp only)
    | split
    | (fail_if_no_progress with_reducible apply Keeps.upd)
    | dsimp only

theorem State.fetchReq_keeps {κ : Kept} {s₀ s : State} (hk : Keeps κ s₀ s) (p : Part) (h : Nat) : Keeps κ s₀ (State.fetchReq s p h) := by
  unfold State.fetchReq
  repeat' first
    | with_reducible assumption
    | with_reducible apply State.modPart_keeps
    | with_reducible apply State.arrive_keeps
    | with_reducible apply State.spillSome_keeps
    | (with_reducible apply Keeps.foldl; intro _ _ _; try dsimp only)
    | split

theorem State.wantPages_keeps {κ : Kept} {s₀ s : State} (hk : Keeps κ s₀ s) (p : Part) (h : Nat) : Keeps κ s₀ (State.wantPages s p h) := by
  unfold State.wantPages
  repeat' first
    | with_reducible assumption
    | with_reducible apply State.modReq_keeps
    | with_reducible apply State.fetchReq_keeps

theorem State.pumpFetches_keeps {κ : Kept} {s₀ s : State} (h : Keeps κ s₀ s) (p : Part) : Keeps κ s₀ (State.pumpFetches s p) := by
  unfold State.pumpFetches
  repeat' first
    | with_reducible assumption
    | with_reducible apply State.fetchReq_keeps
    | (with_reducible apply Keeps.foldl; intro _ _ _; try dsimp only)
    | split

theorem State.startMoves_keeps {κ : Kept} {s₀ s : State} (h : Keeps κ s₀ s) (p : Part) : Keeps κ s₀ (State.startMoves s p) := by
  unfold State.startMoves
  repeat' first
    | with_reducible assumption
    | with_reducible apply State.modPart_keeps
    | with_reducible apply State.arrive_keeps
    | (with_reducible apply Keeps.foldl; intro _ _ _; try dsimp only)
    | split

theorem State.checkSpilled_keeps {κ : Kept} {s₀ s : State} (hk : Keeps κ s₀ s) (p : Part) (h : Nat) : Keeps κ s₀ (State.checkSpilled s p h) := by
  unfold State.checkSpilled
  repeat' first
    | with_reducible assumption
    | with_reducible apply State.modReq_keeps
    | with_reducible apply State.modPart_keeps
    | with_reducible apply State.toReq_keeps
    | split
    | (fail_if_no_progress with_reducible apply Keeps.upd)
    | dsimp only

end Sys2Proof.Machine
end

