-- ==== Sys2Proof/Laws/FaultsKeeps.lean ====
section
/-! SUPPORT. What the shared operations of Machine/Faults.lean keep. -/

namespace Sys2Proof.Machine

theorem State.toLadder_keeps {κ : Kept} {s₀ s : State} (h : Keeps κ s₀ s) (touch : List Part) (v : Ev) : Keeps κ s₀ (State.toLadder s touch v) := by
  unfold State.toLadder
  repeat' first
    | with_reducible assumption
    | with_reducible apply State.toPart_keeps
    | with_reducible apply State.toOwner_keeps
    | (with_reducible apply Keeps.foldl; intro _ _ _; try dsimp only)
    | split

theorem State.modFifo_keeps {κ : Kept} {s₀ s : State} (h : Keeps κ s₀ s) (o : Option Part) (f : List FaultEntry → List FaultEntry) : Keeps κ s₀
    (State.modFifo s o f) := by
  unfold State.modFifo
  repeat' first
    | with_reducible assumption
    | with_reducible apply State.modPart_keeps
    | split
    | (fail_if_no_progress with_reducible apply Keeps.upd)

theorem State.enqueue_keeps {κ : Kept} {s₀ s : State} (h : Keeps κ s₀ s) (o : Option Part) (e : FaultEntry) : Keeps κ s₀ (State.enqueue s o e) := by
  unfold State.enqueue
  repeat' first
    | with_reducible assumption
    | with_reducible apply State.modFifo_keeps
    | with_reducible apply State.count_keeps
    | with_reducible apply State.toBoth_keeps
    | with_reducible apply State.contained_keeps
    | with_reducible apply State.toOwner_keeps
    | with_reducible apply State.fatalFault_keeps
    | split
    | (fail_if_no_progress with_reducible apply Keeps.upd)
    | dsimp only

theorem State.escalate_keeps {κ : Kept} {s₀ s : State} (h : Keeps κ s₀ s) (touch : List Part) (rung : Nat) (loc : Nat) (next : Nat) : Keeps κ s₀
    (State.escalate s touch rung loc next) := by
  unfold State.escalate
  repeat' first
    | with_reducible assumption
    | with_reducible apply State.modFifo_keeps
    | with_reducible apply State.count_keeps
    | with_reducible apply State.toLadder_keeps

theorem State.ashRecord_keeps {κ : Kept} {s₀ s : State} (h : Keeps κ s₀ s) (type : Nat) (loc : Nat) (arg : Nat) : Keeps κ s₀ (State.ashRecord s type
    loc arg) := by
  unfold State.ashRecord
  repeat' first
    | with_reducible assumption
    | split
    | (fail_if_no_progress with_reducible apply Keeps.upd)

theorem State.toConcerned_keeps {κ : Kept} {s₀ s : State} (h : Keeps κ s₀ s) (holder : Part) (handle : Nat) (region : Nat) (code : Nat) (sev : Nat) (b
    : Nat) (ownerB : Nat) : Keeps κ s₀ (State.toConcerned s holder handle region code sev b ownerB) := by
  unfold State.toConcerned
  repeat' first
    | with_reducible assumption
    | with_reducible apply State.toPart_keeps
    | with_reducible apply State.toOwner_keeps
    | (with_reducible apply Keeps.foldl; intro _ _ _; try dsimp only)
    | split

theorem State.modRepair_keeps {κ : Kept} {s₀ s : State} (h : Keeps κ s₀ s) (p : Part) (handle : Nat) (region : Nat) (billet : Nat) (f : Repair →
    Repair) : Keeps κ s₀ (State.modRepair s p handle region billet f) := by
  unfold State.modRepair
  repeat' first
    | with_reducible assumption
    | with_reducible apply State.modRepairs_keeps

theorem State.sourceLost_keeps {κ : Kept} {s₀ s : State} (h : Keeps κ s₀ s) (p : Part) (handle : Nat) (region : Nat) (billet : Nat) : Keeps κ s₀
    (State.sourceLost s p handle region billet) := by
  unfold State.sourceLost
  repeat' first
    | with_reducible assumption
    | with_reducible apply State.modRepair_keeps
    | with_reducible apply State.countDeferred_keeps
    | with_reducible apply State.toOwner_keeps
    | split
    | (fail_if_no_progress with_reducible apply Keeps.upd)

theorem State.queueRepair_keeps {κ : Kept} {s₀ s : State} (h : Keeps κ s₀ s) (p : Part) (handle : Nat) (region : Nat) (billet : Nat) (code : Nat) (loc
    : Nat) : Keeps κ s₀ (State.queueRepair s p handle region billet code loc) := by
  unfold State.queueRepair
  repeat' first
    | with_reducible assumption
    | with_reducible apply State.enqueue_keeps
    | split

theorem State.weightError_keeps {κ : Kept} {s₀ s : State} (h : Keeps κ s₀ s) (p : Part) (handle : Nat) (region : Nat) (billet : Nat) : Keeps κ s₀
    (State.weightError s p handle region billet) := by
  unfold State.weightError
  repeat' first
    | with_reducible assumption
    | with_reducible apply State.arrive_keeps
    | with_reducible apply State.modPart_keeps
    | with_reducible apply State.toConcerned_keeps
    | with_reducible apply State.sourceLost_keeps
    | with_reducible apply State.countDeferred_keeps
    | split
    | (fail_if_no_progress with_reducible apply Keeps.upd)
    | dsimp only

theorem State.losePositions_keeps {κ : Kept} {s₀ s : State} (hk : Keeps κ s₀ s) (p : Part) (h : Nat) (lost : List (Nat × Nat)) (what : Option
    LostData) (loc : Nat) : Keeps κ s₀ (State.losePositions s p h lost what loc) := by
  unfold State.losePositions
  repeat' first
    | with_reducible assumption
    | with_reducible apply State.modReq_keeps
    | with_reducible apply State.modPart_keeps
    | with_reducible apply State.faultReq_keeps
    | with_reducible apply State.countDeferred_keeps
    | with_reducible apply State.enqueue_keeps
    | split

theorem State.markPage_keeps {κ : Kept} {s₀ s : State} (h : Keeps κ s₀ s) (p : Part) (handle : Nat) (page : Nat) : Keeps κ s₀ (State.markPage s p
    handle page) := by
  unfold State.markPage
  repeat' first
    | with_reducible assumption
    | with_reducible apply State.modPage_keeps

theorem State.markWhole_keeps {κ : Kept} {s₀ s : State} (h : Keeps κ s₀ s) (p : Part) (handle : Nat) (page : Nat) : Keeps κ s₀ (State.markWhole s p
    handle page) := by
  unfold State.markWhole
  repeat' first
    | with_reducible assumption
    | with_reducible apply State.modPage_keeps

theorem State.loseEntries_keeps {κ : Kept} {s₀ s : State} (hk : Keeps κ s₀ s) (p : Part) (h : Nat) (lost : List (Nat × Nat × Nat)) (what : Option
    LostData) (loc : Nat) : Keeps κ s₀ (State.loseEntries s p h lost what loc) := by
  unfold State.loseEntries
  repeat' first
    | with_reducible assumption
    | with_reducible apply State.modPage_keeps
    | with_reducible apply State.losePositions_keeps
    | (with_reducible apply Keeps.foldl; intro _ _ _; try dsimp only)
    | split

theorem State.losePages_keeps {κ : Kept} {s₀ s : State} (h : Keeps κ s₀ s) (p : Part) (handle : Nat) (pages : List Nat) (loc : Nat) : Keeps κ s₀
    (State.losePages s p handle pages loc) := by
  unfold State.losePages
  repeat' first
    | with_reducible assumption
    | with_reducible apply State.loseEntries_keeps
    | with_reducible apply State.markWhole_keeps
    | with_reducible apply State.modPart_keeps
    | (with_reducible apply Keeps.foldl; intro _ _ _; try dsimp only)
    | split

theorem State.loseBlocks_keeps {κ : Kept} {s₀ s : State} (h : Keeps κ s₀ s) (p : Part) (handle : Nat) (blocks : List Nat) (loc : Nat) : Keeps κ s₀
    (State.loseBlocks s p handle blocks loc) := by
  unfold State.loseBlocks
  repeat' first
    | with_reducible assumption
    | with_reducible apply State.loseEntries_keeps
    | with_reducible apply State.losePositions_keeps
    | with_reducible apply State.modPart_keeps
    | (with_reducible apply Keeps.foldl; intro _ _ _; try dsimp only)
    | split

theorem State.loseInPage_keeps {κ : Kept} {s₀ s : State} (h : Keeps κ s₀ s) (p : Part) (handle : Nat) (page : Nat) (offs : List Nat) (loc : Nat) :
    Keeps κ s₀ (State.loseInPage s p handle page offs loc) := by
  unfold State.loseInPage
  repeat' first
    | with_reducible assumption
    | with_reducible apply State.loseEntries_keeps
    | with_reducible apply State.markPage_keeps
    | with_reducible apply State.modPart_keeps
    | split
    | (fail_if_no_progress with_reducible apply Keeps.upd)
    | dsimp only

theorem State.loseInSlot_keeps {κ : Kept} {s₀ s : State} (h : Keeps κ s₀ s) (p : Part) (m : Model) (i : Nat) (k : Nat) (off : Nat) (loc : Nat) : Keeps
    κ s₀ (State.loseInSlot s p m i k off loc) := by
  unfold State.loseInSlot
  repeat' first
    | with_reducible assumption
    | with_reducible apply State.loseInPage_keeps
    | split

theorem State.loseHeld_keeps {κ : Kept} {s₀ s : State} (h : Keeps κ s₀ s) (addr : Nat) : Keeps κ s₀ (State.loseHeld s addr) := by
  unfold State.loseHeld
  repeat' first
    | with_reducible assumption
    | with_reducible apply State.loseInSlot_keeps
    | (with_reducible apply Keeps.foldl; intro _ _ _; try dsimp only)
    | split

theorem State.loseAt_keeps {κ : Kept} {s₀ s : State} (h : Keeps κ s₀ s) (addr : Nat) : Keeps κ s₀ (State.loseAt s addr) := by
  unfold State.loseAt
  repeat' first
    | with_reducible assumption
    | with_reducible apply State.weightError_keeps
    | with_reducible apply State.queueRepair_keeps
    | with_reducible apply State.loseInSlot_keeps
    | with_reducible apply State.losePages_keeps
    | with_reducible apply State.loseBlocks_keeps
    | with_reducible apply State.modPart_keeps
    | (with_reducible apply Keeps.foldl; intro _ _ _; try dsimp only)
    | split

theorem State.loseArrived_keeps {κ : Kept} {s₀ s : State} (h : Keeps κ s₀ s) (p : Part) (handle : Nat) (page : Nat) : Keeps κ s₀ (State.loseArrived s
    p handle page) := by
  unfold State.loseArrived
  repeat' first
    | with_reducible assumption
    | with_reducible apply State.loseInPage_keeps
    | split

theorem State.beginRelief_keeps {κ : Kept} {s₀ s : State} (h : Keeps κ s₀ s) (p : Part) (handle : Nat) (region : Nat) (seg : Nat) : Keeps κ s₀
    (State.beginRelief s p handle region seg) := by
  unfold State.beginRelief
  repeat' first
    | with_reducible assumption
    | with_reducible apply State.modPart_keeps
    | with_reducible apply State.arrive_keeps
    | with_reducible apply State.startMoves_keeps
    | (with_reducible apply State.startSpill_keeps; rotate_left; with_reducible assumption)
    | (with_reducible apply Keeps.getD; rotate_left; intro _ _)
    | (with_reducible apply Keeps.foldl; intro _ _ _; try dsimp only)
    | split
    | (fail_if_no_progress with_reducible apply Keeps.upd)
    | dsimp only

theorem State.placeReliefs_keeps {κ : Kept} {s₀ s : State} (h : Keeps κ s₀ s) (p : Part) : Keeps κ s₀ (State.placeReliefs s p) := by
  unfold State.placeReliefs
  repeat' first
    | with_reducible assumption
    | with_reducible apply State.modPart_keeps
    | with_reducible apply State.toLadder_keeps
    | (with_reducible apply Keeps.foldl; intro _ _ _; try dsimp only)
    | split

theorem State.leak_keeps {κ : Kept} {s₀ s : State} (h : Keeps κ s₀ s) (p : Part) (handle : Nat) (seg : Nat) : Keeps κ s₀ (State.leak s p handle seg)
    := by
  unfold State.leak
  repeat' first
    | with_reducible assumption
    | with_reducible apply State.modPart_keeps
    | split

theorem State.ashContents_keeps {κ : Kept} {s₀ s : State} (h : Keeps κ s₀ s) (seg : Nat) : Keeps κ s₀ (State.ashContents s seg) := by
  unfold State.ashContents
  repeat' first
    | with_reducible assumption
    | with_reducible apply State.beginRelief_keeps
    | with_reducible apply State.leak_keeps
    | with_reducible apply State.modPart_keeps
    | with_reducible apply State.count_keeps
    | with_reducible apply State.startMoves_keeps
    | (with_reducible apply Keeps.foldl; intro _ _ _; try dsimp only)
    | split

theorem State.loseBillets_keeps {κ : Kept} {s₀ s : State} (h : Keeps κ s₀ s) (p : Part) (m : Model) (seg : Nat) : Keeps κ s₀ (State.loseBillets s p m
    seg) := by
  unfold State.loseBillets
  repeat' first
    | with_reducible assumption
    | with_reducible apply State.weightError_keeps
    | (with_reducible apply Keeps.foldl; intro _ _ _; try dsimp only)
    | split

theorem State.losePart_keeps {κ : Kept} {s₀ s : State} (h : Keeps κ s₀ s) (p : Part) (handle : Nat) (i : Nat) (loc : Nat) : Keeps κ s₀ (State.losePart
    s p handle i loc) := by
  unfold State.losePart
  repeat' first
    | with_reducible assumption
    | with_reducible apply State.losePages_keeps
    | with_reducible apply State.loseBlocks_keeps
    | split

theorem State.loseSegs_keeps {κ : Kept} {s₀ s : State} (h : Keeps κ s₀ s) (segs : List Nat) (loc : Nat) : Keeps κ s₀ (State.loseSegs s segs loc) := by
  unfold State.loseSegs
  repeat' first
    | with_reducible assumption
    | with_reducible apply State.beginRelief_keeps
    | with_reducible apply State.loseBillets_keeps
    | with_reducible apply State.losePart_keeps
    | with_reducible apply State.modPart_keeps
    | with_reducible apply State.count_keeps
    | with_reducible apply State.losePages_keeps
    | with_reducible apply State.leak_keeps
    | (with_reducible apply Keeps.foldl; intro _ _ _; try dsimp only)
    | split

theorem State.fenceSite_keeps {κ : Kept} {s₀ s : State} (h : Keeps κ s₀ s) (site : Site) : Keeps κ s₀ (State.fenceSite s site) := by
  unfold State.fenceSite
  repeat' first
    | with_reducible assumption
    | split
    | (fail_if_no_progress with_reducible apply Keeps.upd)

theorem State.degrade_keeps {κ : Kept} {s₀ s : State} (h : Keeps κ s₀ s) (site : Site) (tile : Nat) : Keeps κ s₀ (State.degrade s site tile) := by
  unfold State.degrade
  repeat' first
    | with_reducible assumption
    | with_reducible apply State.fenceSite_keeps
    | with_reducible apply State.ashRecord_keeps
    | with_reducible apply State.toLadder_keeps
    | with_reducible apply State.fatalFault_keeps
    | split
    | (fail_if_no_progress with_reducible apply Keeps.upd)
    | dsimp only

theorem State.tileFault_keeps {κ : Kept} {s₀ s : State} (h : Keeps κ s₀ s) (site : Site) (serves : Bool) : Keeps κ s₀ (State.tileFault s site serves)
    := by
  unfold State.tileFault
  repeat' first
    | with_reducible assumption
    | with_reducible apply State.toLadder_keeps
    | with_reducible apply State.enqueue_keeps
    | with_reducible apply State.contained_keeps
    | with_reducible apply State.alertFault_keeps
    | with_reducible apply State.modFifo_keeps
    | with_reducible apply State.degrade_keeps
    | with_reducible apply State.escalate_keeps
    | with_reducible apply State.fenceSite_keeps
    | with_reducible apply State.ashRecord_keeps
    | (with_reducible apply Keeps.foldl; intro _ _ _; try dsimp only)
    | split
    | (fail_if_no_progress with_reducible apply Keeps.upd)
    | dsimp only

theorem State.dropDeadLines_keeps {κ : Kept} {s₀ s : State} (h : Keeps κ s₀ s) : Keeps κ s₀ (State.dropDeadLines s) := by
  unfold State.dropDeadLines
  repeat' first
    | with_reducible assumption
    | split
    | (fail_if_no_progress with_reducible apply Keeps.upd)

theorem State.retireDie_keeps {κ : Kept} {s₀ s : State} (h : Keeps κ s₀ s) (site : Site) (die : Nat) (cause : Nat) (queue : Bool) : Keeps κ s₀
    (State.retireDie s site die cause queue) := by
  unfold State.retireDie
  repeat' first
    | with_reducible assumption
    | with_reducible apply State.modDie_keeps
    | with_reducible apply State.ashRecord_keeps
    | with_reducible apply State.dropDeadLines_keeps
    | with_reducible apply State.toLadder_keeps
    | with_reducible apply State.countDeferred_keeps
    | with_reducible apply State.enqueue_keeps
    | with_reducible apply State.loseSegs_keeps
    | with_reducible apply State.tileFault_keeps
    | (with_reducible apply Keeps.foldl; intro _ _ _; try dsimp only)
    | split
    | (fail_if_no_progress with_reducible apply Keeps.upd)
    | dsimp only

theorem State.retireBank_keeps {κ : Kept} {s₀ s : State} (h : Keeps κ s₀ s) (site : Site) (die : Nat) (bank : Nat) (cause : Nat) (queue : Bool) :
    Keeps κ s₀ (State.retireBank s site die bank cause queue) := by
  unfold State.retireBank
  repeat' first
    | with_reducible assumption
    | with_reducible apply State.modDie_keeps
    | with_reducible apply State.ashRecord_keeps
    | with_reducible apply State.dropDeadLines_keeps
    | with_reducible apply State.toLadder_keeps
    | with_reducible apply State.countDeferred_keeps
    | with_reducible apply State.enqueue_keeps
    | with_reducible apply State.loseSegs_keeps
    | with_reducible apply State.retireDie_keeps
    | (with_reducible apply Keeps.foldl; intro _ _ _; try dsimp only)
    | split
    | (fail_if_no_progress with_reducible apply Keeps.upd)
    | dsimp only

theorem State.retireRow_keeps {κ : Kept} {s₀ s : State} (h : Keeps κ s₀ s) (site : Site) (die : Nat) (bank : Nat) (row : Nat) : Keeps κ s₀
    (State.retireRow s site die bank row) := by
  unfold State.retireRow
  repeat' first
    | with_reducible assumption
    | with_reducible apply State.modDie_keeps
    | with_reducible apply State.ashRecord_keeps
    | with_reducible apply State.toLadder_keeps
    | with_reducible apply State.ashContents_keeps
    | with_reducible apply State.retireBank_keeps
    | split
    | (fail_if_no_progress with_reducible apply Keeps.upd)
    | dsimp only

theorem State.rowFail_keeps {κ : Kept} {s₀ s : State} (h : Keeps κ s₀ s) (addr : Nat) (code : Nat) (cls : Nat) : Keeps κ s₀ (State.rowFail s addr code
    cls) := by
  unfold State.rowFail
  repeat' first
    | with_reducible assumption
    | with_reducible apply State.enqueue_keeps
    | with_reducible apply State.retireRow_keeps
    | with_reducible apply State.modDie_keeps
    | split
    | (fail_if_no_progress with_reducible apply Keeps.upd)
    | dsimp only

theorem State.reliefFault_keeps {κ : Kept} {s₀ s : State} (h : Keeps κ s₀ s) (seg : Nat) {t : State} (e : s.reliefFault seg = some t) :
    Keeps κ s₀ t := by
  obtain ⟨p, -, e⟩ := List.exists_of_findSome?_eq_some e
  obtain ⟨r, -, e⟩ := Option.bind_eq_some_iff.1 e
  obtain ⟨site, -, e⟩ := Option.bind_eq_some_iff.1 e
  dsimp only at e
  repeat' split at e
  all_goals
    first
      | (injection e with e; subst e
         first
           | exact State.retireBank_keeps (State.escalate_keeps h _ _ _ _) _ _ _ _ _
           | exact State.retireDie_keeps (State.escalate_keeps h _ _ _ _) _ _ _ _
           | exact State.tileFault_keeps (State.escalate_keeps h _ _ _ _) _ _)
      | cases e

theorem State.countWire_keeps {κ : Kept} {s₀ s : State} (h : Keeps κ s₀ s) (site : Site) (die : Nat) (wire : Option Nat) (who : List Part) (loc : Nat)
    : Keeps κ s₀ (State.countWire s site die wire who loc) := by
  unfold State.countWire
  repeat' first
    | with_reducible assumption
    | with_reducible apply State.modDie_keeps
    | with_reducible apply State.ashRecord_keeps
    | with_reducible apply State.toLadder_keeps
    | with_reducible apply State.retireDie_keeps
    | split
    | (fail_if_no_progress with_reducible apply Keeps.upd)
    | dsimp only

theorem State.corrected_keeps {κ : Kept} {s₀ s : State} (h : Keeps κ s₀ s) (addr : Nat) (wire : Option Nat) : Keeps κ s₀ (State.corrected s addr wire)
    := by
  unfold State.corrected
  repeat' first
    | with_reducible assumption
    | with_reducible apply State.countWire_keeps
    | with_reducible apply State.modDie_keeps
    | with_reducible apply State.rowFail_keeps
    | split
    | (fail_if_no_progress with_reducible apply Keeps.upd)
    | dsimp only

theorem State.uncorrectable_keeps {κ : Kept} {s₀ s : State} (h : Keeps κ s₀ s) (addr : Nat) (via : Nat) : Keeps κ s₀ (State.uncorrectable s addr via)
    := by
  unfold State.uncorrectable
  repeat' first
    | with_reducible assumption
    | with_reducible apply State.poisonBlock_keeps
    | with_reducible apply State.toLadder_keeps
    | with_reducible apply State.countDeferred_keeps
    | with_reducible apply State.alertFault_keeps
    | (with_reducible apply State.reliefFault_keeps; rotate_left; with_reducible assumption)
    | with_reducible apply State.rowFail_keeps
    | with_reducible apply State.loseAt_keeps
    | (with_reducible apply Keeps.foldl; intro _ _ _; try dsimp only)
    | split

theorem State.count_keeps {κ : Kept} {s₀ s : State} (h : Keeps κ s₀ s) (p : Part) (f : PrtCounters → PrtCounters) : Keeps κ s₀ (State.count s p f) :=
    by
  unfold State.count
  repeat' first
    | with_reducible assumption
    | with_reducible apply State.modPart_keeps

theorem State.readBlock_keeps {κ : Kept} {s₀ s : State} (h : Keeps κ s₀ s) (who : Option Part) (via : Nat) (b : Nat) (o : Outcome) : Keeps κ s₀
    (State.readBlock s who via b o) := by
  unfold State.readBlock
  repeat' first
    | with_reducible assumption
    | with_reducible apply State.count_keeps
    | with_reducible apply State.loseHeld_keeps
    | with_reducible apply State.corrected_keeps
    | with_reducible apply State.uncorrectable_keeps
    | with_reducible apply State.putBlock_keeps
    | (with_reducible apply Keeps.foldl; intro _ _ _; try dsimp only)
    | split

theorem State.readRange_keeps {κ : Kept} {s₀ s : State} (h : Keeps κ s₀ s) (who : Option Part) (via : Nat) (addr : Nat) (len : Nat) (errs : Errs) :
    Keeps κ s₀ (State.readRange s who via addr len errs) := by
  unfold State.readRange
  repeat' first
    | with_reducible assumption
    | with_reducible apply State.readBlock_keeps
    | (with_reducible apply Keeps.foldl; intro _ _ _; try dsimp only)
    | split

theorem State.sweep_keeps {κ : Kept} {s₀ s : State} (h : Keeps κ s₀ s) : Keeps κ s₀ (State.sweep s) := by
  unfold State.sweep
  repeat' first
    | with_reducible assumption
    | with_reducible apply State.modPart_keeps
    | (with_reducible apply Keeps.foldl; intro _ _ _; try dsimp only)
    | split
    | (fail_if_no_progress with_reducible apply Keeps.upd)

theorem State.startEntry_keeps {κ : Kept} {s₀ s : State} (h : Keeps κ s₀ s) (o : Option Part) (rung : Nat) (loc : Nat) : Keeps κ s₀ (State.startEntry
    s o rung loc) := by
  unfold State.startEntry
  repeat' first
    | with_reducible assumption
    | with_reducible apply State.modFifo_keeps

theorem execFaultEntryHandle_keeps {κ : Kept} {s₀ s t : State} (h : Keeps κ s₀ s) (o : Option Part) (e : execFaultEntryHandle o s = .next t) : Keeps κ
    s₀ t := by
  unfold execFaultEntryHandle at e
  cases e
  repeat' first
    | with_reducible assumption
    | with_reducible apply State.modFifo_keeps
    | with_reducible apply State.sweep_keeps
    | split

end Sys2Proof.Machine
end

