-- ==== Sys2Proof/Laws/RepairKeeps.lean ====
section
/-! SUPPORT. What the shared operations of Machine/Repair.lean keep. -/

namespace Sys2Proof.Machine

theorem State.remapRow_keeps {κ : Kept} {s₀ s : State} (h : Keeps κ s₀ s) (k : BankId) (tile : Nat) (row : Nat) (errs : Errs) (verifyOk : Bool) :
    Keeps κ s₀ (State.remapRow s k tile row errs verifyOk) := by
  unfold State.remapRow
  repeat' first
    | with_reducible assumption
    | with_reducible apply State.retireRow_keeps
    | with_reducible apply State.startEntry_keeps
    | with_reducible apply State.readRange_keeps
    | with_reducible apply State.modDie_keeps
    | with_reducible apply State.ashRecord_keeps
    | with_reducible apply State.toLadder_keeps
    | with_reducible apply State.escalate_keeps
    | with_reducible apply State.sweep_keeps
    | split
    | (fail_if_no_progress with_reducible apply Keeps.upd)
    | dsimp only

theorem execRowRemap_keeps {κ : Kept} {s₀ s t : State} (h : Keeps κ s₀ s) (bank : BankId) (row : Nat) (errs : Errs) (verifyOk : Bool) (e :
    execRowRemap bank row errs verifyOk s = .next t) : Keeps κ s₀ t := by
  unfold execRowRemap at e
  cases e
  repeat' first
    | with_reducible assumption
    | with_reducible apply State.remapRow_keeps
    | split

theorem execReliefCopyDone_keeps {κ : Kept} {s₀ s t : State} (h : Keeps κ s₀ s) (p : Part) (segment : Nat) (errs : Errs) (e : execReliefCopyDone p
    segment errs s = .next t) : Keeps κ s₀ t := by
  unfold execReliefCopyDone at e
  cases e
  repeat' first
    | with_reducible assumption
    | with_reducible apply State.readRange_keeps
    | with_reducible apply State.copyRange_keeps
    | with_reducible apply State.modPart_keeps
    | with_reducible apply State.placeReliefs_keeps
    | with_reducible apply State.sweep_keeps
    | split

theorem State.releaseOrphan_keeps {κ : Kept} {s₀ s : State} (h : Keeps κ s₀ s) (p : Part) (handle : Nat) (page : Nat) : Keeps κ s₀
    (State.releaseOrphan s p handle page) := by
  unfold State.releaseOrphan
  repeat' first
    | with_reducible assumption
    | with_reducible apply State.modPart_keeps
    | split
    | (fail_if_no_progress with_reducible apply Keeps.upd)
    | dsimp only

theorem State.pageMoved_keeps {κ : Kept} {s₀ s : State} (h : Keeps κ s₀ s) (p : Part) (handle : Nat) (page : Nat) (errs : Errs) : Keeps κ s₀
    (State.pageMoved s p handle page errs) := by
  unfold State.pageMoved
  repeat' first
    | with_reducible assumption
    | with_reducible apply State.readRange_keeps
    | with_reducible apply State.copyRange_keeps
    | with_reducible apply State.modPart_keeps
    | with_reducible apply State.releaseOrphan_keeps
    | with_reducible apply State.pumpFetches_keeps
    | with_reducible apply State.placeReliefs_keeps
    | with_reducible apply State.sweep_keeps
    | split
    | (fail_if_no_progress with_reducible apply Keeps.upd)
    | dsimp only

theorem execPageMoveDone_keeps {κ : Kept} {s₀ s t : State} (h : Keeps κ s₀ s) (p : Part) (handle : Nat) (page : Nat) (errs : Errs) (e :
    execPageMoveDone p handle page errs s = .next t) : Keeps κ s₀ t := by
  unfold execPageMoveDone at e
  cases e
  repeat' first
    | with_reducible assumption
    | with_reducible apply State.pageMoved_keeps

theorem State.modUnits_keeps {κ : Kept} {s₀ s : State} (h : Keeps κ s₀ s) (site : Nat) (f : TileUnits → TileUnits) : Keeps κ s₀ (State.modUnits s site
    f) := by
  unfold State.modUnits
  repeat' first
    | with_reducible assumption
    | split
    | (fail_if_no_progress with_reducible apply Keeps.upd)

theorem State.poisonSteps_keeps {κ : Kept} {s₀ s : State} (h : Keeps κ s₀ s) (who : List Part) (cause : Nat) : Keeps κ s₀ (State.poisonSteps s who
    cause) := by
  unfold State.poisonSteps
  repeat' first
    | with_reducible assumption
    | with_reducible apply State.draw_keeps
    | with_reducible apply State.countDeferred_keeps
    | with_reducible apply State.modPart_keeps
    | (with_reducible apply Keeps.foldl; intro _ _ _; try dsimp only)
    | with_reducible apply Keeps.fst (by assumption)
    | with_reducible apply Keeps.snd (by assumption)
    | split

theorem State.spareCores_keeps {κ : Kept} {s₀ s : State} (h : Keeps κ s₀ s) : Keeps κ s₀ (State.spareCores s) := by
  unfold State.spareCores
  repeat' first
    | with_reducible assumption
    | with_reducible apply State.ashRecord_keeps
    | with_reducible apply State.toLadder_keeps
    | with_reducible apply State.modUnits_keeps
    | with_reducible apply State.sweep_keeps
    | (with_reducible apply Keeps.foldl; intro _ _ _; try dsimp only)
    | split

theorem State.retireCluster_keeps {κ : Kept} {s₀ s : State} (h : Keeps κ s₀ s) (site : Site) (cluster : Nat) (loc : Nat) : Keeps κ s₀
    (State.retireCluster s site cluster loc) := by
  unfold State.retireCluster
  repeat' first
    | with_reducible assumption
    | with_reducible apply State.modUnits_keeps
    | with_reducible apply State.ashRecord_keeps
    | with_reducible apply State.toLadder_keeps
    | with_reducible apply State.tileFault_keeps
    | split
    | (fail_if_no_progress with_reducible apply Keeps.upd)
    | dsimp only

theorem State.coreFaulty_keeps {κ : Kept} {s₀ s : State} (h : Keeps κ s₀ s) (site : Site) (cluster : Nat) (core : Nat) : Keeps κ s₀ (State.coreFaulty
    s site cluster core) := by
  unfold State.coreFaulty
  repeat' first
    | with_reducible assumption
    | with_reducible apply State.enqueue_keeps
    | with_reducible apply State.modUnits_keeps
    | with_reducible apply State.retireCluster_keeps
    | with_reducible apply State.spareCores_keeps
    | split
    | (fail_if_no_progress with_reducible apply Keeps.upd)
    | dsimp only

theorem State.engineFaulty_keeps {κ : Kept} {s₀ s : State} (h : Keeps κ s₀ s) (site : Site) (engine : Nat) : Keeps κ s₀ (State.engineFaulty s site
    engine) := by
  unfold State.engineFaulty
  repeat' first
    | with_reducible assumption
    | with_reducible apply State.enqueue_keeps
    | with_reducible apply State.modUnits_keeps
    | with_reducible apply State.ashRecord_keeps
    | with_reducible apply State.toLadder_keeps
    | with_reducible apply State.tileFault_keeps
    | split
    | (fail_if_no_progress with_reducible apply Keeps.upd)
    | dsimp only

theorem execCoreFault_keeps {κ : Kept} {s₀ s t : State} (h : Keeps κ s₀ s) (site : Site) (cluster : Nat) (core : Nat) (e : execCoreFault site cluster
    core s = .next t) : Keeps κ s₀ t := by
  unfold execCoreFault at e
  cases e
  repeat' first
    | with_reducible assumption
    | with_reducible apply State.poisonSteps_keeps
    | with_reducible apply State.coreFaulty_keeps
    | split
    | (fail_if_no_progress with_reducible apply Keeps.upd)

theorem execEngineParityError_keeps {κ : Kept} {s₀ s t : State} (h : Keeps κ s₀ s) (site : Site) (engine : Nat) (e : execEngineParityError site engine
    s = .next t) : Keeps κ s₀ t := by
  unfold execEngineParityError at e
  cases e
  repeat' first
    | with_reducible assumption
    | with_reducible apply State.engineFaulty_keeps
    | split
    | (fail_if_no_progress with_reducible apply Keeps.upd)

theorem execTileFault_keeps {κ : Kept} {s₀ s t : State} (h : Keeps κ s₀ s) (site : Site) (serves : Bool) (e : execTileFault site serves s = .next t) :
    Keeps κ s₀ t := by
  unfold execTileFault at e
  cases e
  repeat' first
    | with_reducible assumption
    | with_reducible apply State.tileFault_keeps
    | split
    | (fail_if_no_progress with_reducible apply Keeps.upd)

theorem State.autoSpare_keeps {κ : Kept} {s₀ s : State} (h : Keeps κ s₀ s) : Keeps κ s₀ (State.autoSpare s) := by
  unfold State.autoSpare
  repeat' first
    | with_reducible assumption
    | with_reducible apply State.modFifo_keeps
    | with_reducible apply State.degrade_keeps
    | (with_reducible apply Keeps.foldl; intro _ _ _; try dsimp only)
    | split
    | (fail_if_no_progress with_reducible apply Keeps.upd)

theorem execAutoSpareSet_keeps {κ : Kept} {s₀ s t : State} (h : Keeps κ s₀ s) (port : Port) (e : execAutoSpareSet port s = .next t) : Keeps κ s₀ t :=
    by
  unfold execAutoSpareSet at e
  cases e
  repeat' first
    | with_reducible assumption
    | with_reducible apply State.autoSpare_keeps
    | split

theorem State.moveMasks_keeps {κ : Kept} {s₀ s : State} (h : Keeps κ s₀ s) (a : Site) (b : Site) : Keeps κ s₀ (State.moveMasks s a b) := by
  unfold State.moveMasks
  repeat' first
    | with_reducible assumption
    | with_reducible apply State.modPart_keeps
    | (with_reducible apply Keeps.foldl; intro _ _ _; try dsimp only)
    | split
    | (fail_if_no_progress with_reducible apply Keeps.upd)

theorem State.carry_keeps {κ : Kept} {s₀ s : State} (h : Keeps κ s₀ s) (a : Site) (b : Site) (tile : Nat) (old : SiteState) : Keeps κ s₀ (State.carry
    s a b tile old) := by
  unfold State.carry
  repeat' first
    | with_reducible assumption
    | with_reducible apply State.moveMasks_keeps
    | split
    | (fail_if_no_progress with_reducible apply Keeps.upd)

theorem State.poisonDead_keeps {κ : Kept} {s₀ s : State} (h : Keeps κ s₀ s) (site : Site) (tile : Nat) : Keeps κ s₀ (State.poisonDead s site tile) :=
    by
  unfold State.poisonDead
  repeat' first
    | with_reducible assumption
    | (with_reducible apply Keeps.foldl; intro _ _ _; try dsimp only)
    | split
    | (fail_if_no_progress with_reducible apply Keeps.upd)
    | dsimp only
    | (fail_if_no_progress with_reducible apply Keeps.updAll)
    | exact id
    | exact le_rfl
    | exact Memory.wf_zeroN _ _ _
    | exact Memory.wf_writeN _ _ _
    | exact Memory.wf_filter _ _
    | exact fun _ => Memory.wf_nil
    | exact fun _ => rfl
    | exact fun _ => Flash.sameFirmware_refl _

theorem State.refetchBillet_keeps {κ : Kept} {s₀ s : State} (h : Keeps κ s₀ s) (p : Part) (m : Model) (region : Nat) (b : Nat) (bad : List Nat) :
    Keeps κ s₀ (State.refetchBillet s p m region b bad).1 := by
  unfold State.refetchBillet
  repeat' first
    | with_reducible assumption
    | with_reducible apply State.told_keeps
    | with_reducible apply State.fencedFetch_keeps
    | split
    | (fail_if_no_progress with_reducible apply Keeps.upd)
    | dsimp only

theorem State.poisonBillet_keeps {κ : Kept} {s₀ s : State} (h : Keeps κ s₀ s) (p : Part) (m : Model) (region : Nat) (b : Nat) : Keeps κ s₀
    (State.poisonBillet s p m region b) := by
  unfold State.poisonBillet
  repeat' first
    | with_reducible assumption
    | with_reducible apply State.poisonBlocks_keeps
    | split

theorem State.refillStack_keeps {κ : Kept} {s₀ s : State} (h : Keeps κ s₀ s) (tile : Nat) (loc : Nat) : Keeps κ s₀ (State.refillStack s tile loc) :=
    by
  unfold State.refillStack
  repeat' first
    | with_reducible assumption
    | with_reducible apply State.zeroSheet_keeps
    | with_reducible apply State.refetchBillet_keeps
    | with_reducible apply State.modRepairs_keeps
    | with_reducible apply State.poisonBillet_keeps
    | with_reducible apply State.sourceLost_keeps
    | with_reducible apply State.weightError_keeps
    | with_reducible apply State.modPart_keeps
    | with_reducible apply State.losePart_keeps
    | (with_reducible apply Keeps.foldl; intro _ _ _; try dsimp only)
    | with_reducible apply Keeps.fst (by assumption)
    | with_reducible apply Keeps.snd (by assumption)
    | split

theorem State.substituted_keeps {κ : Kept} {s₀ s : State} (h : Keeps κ s₀ s) (x : Subst) (spare : Site) : Keeps κ s₀ (State.substituted s x spare) :=
    by
  unfold State.substituted
  repeat' first
    | with_reducible assumption
    | with_reducible apply State.poisonDead_keeps
    | with_reducible apply State.carry_keeps
    | with_reducible apply State.refillStack_keeps
    | with_reducible apply State.ashRecord_keeps
    | with_reducible apply State.toLadder_keeps
    | with_reducible apply State.modFifo_keeps
    | split
    | (fail_if_no_progress with_reducible apply Keeps.upd)

theorem execSubstitutionDone_keeps {κ : Kept} {s₀ s t : State} (h : Keeps κ s₀ s) (site : Site) (e : execSubstitutionDone site s = .next t) : Keeps κ
    s₀ t := by
  unfold execSubstitutionDone at e
  cases e
  repeat' first
    | with_reducible assumption
    | with_reducible apply State.substituted_keeps
    | split

theorem State.retirePeat_keeps {κ : Kept} {s₀ s : State} (h : Keeps κ s₀ s) (loc : Nat) : Keeps κ s₀ (State.retirePeat s loc) := by
  unfold State.retirePeat
  repeat' first
    | with_reducible assumption
    | with_reducible apply State.losePages_keeps
    | with_reducible apply State.sourceLost_keeps
    | (with_reducible apply Keeps.foldl; intro _ _ _; try dsimp only)
    | split
    | (fail_if_no_progress with_reducible apply Keeps.upd)

theorem State.frameFault_keeps {κ : Kept} {s₀ s : State} (h : Keeps κ s₀ s) (site : Site) (part : Fin 3) : Keeps κ s₀ (State.frameFault s site part)
    := by
  unfold State.frameFault
  repeat' first
    | with_reducible assumption
    | with_reducible apply State.toOwner_keeps
    | with_reducible apply State.fatalFault_keeps
    | with_reducible apply State.ashRecord_keeps
    | with_reducible apply State.tileFault_keeps
    | with_reducible apply State.fenceSite_keeps
    | with_reducible apply State.retirePeat_keeps
    | with_reducible apply State.modPort_keeps
    | with_reducible apply State.assertAlert_keeps
    | split
    | (fail_if_no_progress with_reducible apply Keeps.upd)
    | dsimp only
    | (fail_if_no_progress with_reducible apply Keeps.updAll)
    | exact id
    | exact le_rfl
    | exact Memory.wf_zeroN _ _ _
    | exact Memory.wf_writeN _ _ _
    | exact Memory.wf_filter _ _
    | exact fun _ => Memory.wf_nil
    | exact fun _ => rfl
    | exact fun _ => Flash.sameFirmware_refl _

theorem execFrameFault_keeps {κ : Kept} {s₀ s t : State} (h : Keeps κ s₀ s) (site : Site) (part : Fin 3) (e : execFrameFault site part s = .next t) :
    Keeps κ s₀ t := by
  unfold execFrameFault at e
  cases e
  repeat' first
    | with_reducible assumption
    | with_reducible apply State.frameFault_keeps
    | split

/-- Writing a copy of the ash log changes no firmware, key or fuse. -/
theorem Flash.setAsh_same (f : Flash) (c : Nat × List AshRec) : f.sameFirmware (f.setAsh c) := by
  unfold Flash.setAsh; split <;> exact ⟨rfl, rfl, rfl, rfl, rfl, rfl⟩

theorem Flash.setAsh_fits (f : Flash) (c : Nat × List AshRec) (h : f.ashFits) (hc : c.2.length ≤ 7680) : (f.setAsh c).ashFits := by
  unfold Flash.setAsh
  split
  · exact ⟨h.1, hc⟩
  · exact ⟨hc, h.2⟩

theorem Flash.ash_fits (f : Flash) (h : f.ashFits) : f.ash.2.length ≤ 7680 := by
  unfold Flash.ash
  split
  · exact h.2
  · exact h.1

theorem Flash.switchAsh_same (f : Flash) : f.sameFirmware f.switchAsh :=
  Flash.setAsh_same { f with ashSecond := !f.ashSecond } (f.ash.1 + 1, f.ash.2.filter fun r => !r.superseded)

theorem Flash.switchAsh_fits (f : Flash) (h : f.ashFits) : f.switchAsh.ashFits :=
  Flash.setAsh_fits _ _ h ((List.length_filter_le _ _).trans (f.ash_fits h))

theorem Flash.append_same (f : Flash) (r : AshRec) : f.sameFirmware (f.append r) := by
  unfold Flash.append
  exact Flash.setAsh_same { f with ashSeq := f.ashSeq + 1 } _

theorem Flash.append_fits (f : Flash) (r : AshRec) (h : f.ashFits) (hr : f.ash.2.length < 7680) : (f.append r).ashFits :=
  Flash.setAsh_fits _ _ h (by simpa using hr)

theorem State.ashAppend_keeps {κ : Kept} {s₀ s : State} (h : Keeps κ s₀ s) : Keeps κ s₀ s.ashAppend := by
  unfold State.ashAppend
  split
  · exact h
  · next r rest _ =>
    have hf : ∃ f : Flash, f = (if 7680 ≤ s.flash.ash.2.length then s.flash.switchAsh else s.flash) ∧
        s.flash.sameFirmware f ∧ (s.flash.ashFits → f.ashFits) := by
      refine ⟨_, rfl, ?_⟩
      split
      · exact ⟨s.flash.switchAsh_same, s.flash.switchAsh_fits⟩
      · exact ⟨s.flash.sameFirmware_refl, id⟩
    obtain ⟨f, e, hs, ha⟩ := hf
    dsimp only
    rw [← e]
    split
    · next hl =>
      exact (h.updAsh _ (Flash.sameFirmware_trans hs (f.append_same r)) fun a => f.append_fits r (ha a) hl).upd ..
    · have k := h.updAsh f hs ha
      split
      · exact k.upd ..
      · exact State.toOwner_keeps (k.upd ..) _ _

theorem execAshLogAppend_keeps {κ : Kept} {s₀ s t : State} (h : Keeps κ s₀ s) (e : execAshLogAppend s = .next t) : Keeps κ s₀ t := by
  unfold execAshLogAppend at e
  cases e
  repeat' first
    | with_reducible assumption
    | with_reducible apply State.ashAppend_keeps
    | split

end Sys2Proof.Machine
end

