-- ==== Sys2Proof/Laws/TablesKeeps.lean ====
section
/-! SUPPORT. What the shared operations of Machine/Tables.lean keep. -/

namespace Sys2Proof.Machine

theorem State.hitTable_keeps {κ : Kept} {s₀ s : State} (h : Keeps κ s₀ s) (b : Nat) : Keeps κ s₀ (State.hitTable s b) := by
  unfold State.hitTable
  repeat' first
    | with_reducible assumption
    | split
    | (fail_if_no_progress with_reducible apply Keeps.upd)

theorem State.pruneTables_keeps {κ : Kept} {s₀ s : State} (h : Keeps κ s₀ s) : Keeps κ s₀ (State.pruneTables s) := by
  unfold State.pruneTables
  repeat' first
    | with_reducible assumption
    | split
    | (fail_if_no_progress with_reducible apply Keeps.upd)

theorem State.shownRange_keeps {κ : Kept} {s₀ s : State} (h : Keeps κ s₀ s) (addr : Nat) (len : Nat) : Keeps κ s₀ (State.shownRange s addr len).2 :=
    by
  unfold State.shownRange
  repeat' first
    | with_reducible assumption
    | split
    | (fail_if_no_progress with_reducible apply Keeps.upd)

end Sys2Proof.Machine
end

