-- ==== Sys2Proof/Laws/MemoryKeeps.lean ====
section
/-! SUPPORT. What the shared operations of Machine/Memory.lean keep. -/

namespace Sys2Proof.Machine

theorem State.hitMissed_keeps {κ : Kept} {s₀ s : State} (h : Keeps κ s₀ s) (b : Nat) (o : Outcome) : Keeps κ s₀ (State.hitMissed s b o) := by
  unfold State.hitMissed
  repeat' first
    | with_reducible assumption
    | with_reducible apply State.hitTable_keeps
    | with_reducible apply State.corrected_keeps
    | with_reducible apply State.uncorrectable_keeps
    | split

theorem State.readDeliver_keeps {κ : Kept} {s₀ s : State} (h : Keeps κ s₀ s) (who : Option Part) (b : Nat) (o : Outcome) : Keeps κ s₀
    (State.readDeliver s who b o) := by
  unfold State.readDeliver
  repeat' first
    | with_reducible assumption
    | with_reducible apply State.uncorrectable_keeps
    | with_reducible apply State.hitMissed_keeps
    | with_reducible apply State.readBlock_keeps
    | with_reducible apply State.shownRange_keeps
    | with_reducible apply State.send_keeps
    | with_reducible apply Keeps.fst (by assumption)
    | with_reducible apply Keeps.snd (by assumption)
    | split
    | (fail_if_no_progress with_reducible apply Keeps.upd)
    | dsimp only

theorem State.scrub_keeps {κ : Kept} {s₀ s : State} (h : Keeps κ s₀ s) (addr : Nat) (o : Outcome) : Keeps κ s₀ (State.scrub s addr o) := by
  unfold State.scrub
  repeat' first
    | with_reducible assumption
    | with_reducible apply State.readBlock_keeps
    | with_reducible apply State.corrected_keeps
    | with_reducible apply State.uncorrectable_keeps
    | with_reducible apply State.modDie_keeps
    | with_reducible apply State.toOwner_keeps
    | (with_reducible apply Keeps.foldl; intro _ _ _; try dsimp only)
    | split
    | (fail_if_no_progress with_reducible apply Keeps.upd)
    | dsimp only

theorem execMemRead_keeps {κ : Kept} {s₀ s t : State} (h : Keeps κ s₀ s) (who : Requester) (addr : Nat) (outcome : Outcome) (e : execMemRead who addr
    outcome s = .next t) : Keeps κ s₀ t := by
  unfold execMemRead at e
  cases e
  repeat' first
    | with_reducible assumption
    | with_reducible apply State.scrub_keeps
    | with_reducible apply State.readDeliver_keeps
    | with_reducible apply State.send_keeps
    | with_reducible apply State.fenceViolation_keeps
    | split

theorem execScrubRead_keeps {κ : Kept} {s₀ s t : State} (h : Keeps κ s₀ s) (addr : Nat) (outcome : Outcome) (e : execScrubRead addr outcome s = .next
    t) : Keeps κ s₀ t := by
  unfold execScrubRead at e
  cases e
  repeat' first
    | with_reducible assumption
    | with_reducible apply State.scrub_keeps

theorem State.writeBlock_keeps {κ : Kept} {s₀ s : State} (h : Keeps κ s₀ s) (p : Part) (addr : Nat) (bytes : List Byte) (o : Outcome) : Keeps κ s₀
    (State.writeBlock s p addr bytes o) := by
  unfold State.writeBlock
  repeat' first
    | with_reducible assumption
    | with_reducible apply State.hitTable_keeps
    | with_reducible apply State.putBlock_keeps
    | with_reducible apply State.uncorrectable_keeps
    | with_reducible apply State.readBlock_keeps
    | with_reducible apply State.poisonBlock_keeps
    | with_reducible apply State.countDeferred_keeps
    | with_reducible apply State.toLadder_keeps
    | split
    | (fail_if_no_progress with_reducible apply Keeps.upd)
    | dsimp only
    | (fail_if_no_progress with_reducible apply Keeps.updAll)
    | exact id
    | exact le_rfl
    | exact Memory.wf_zeroN _ _ _
    | exact Memory.wf_writeN _ _ _
    | exact Memory.wf_filter _ _
    | exact fun _ => Memory.wf_nil
    | exact fun _ => rfl
    | exact fun _ => Flash.sameFirmware_refl _

theorem execMemWrite_keeps {κ : Kept} {s₀ s t : State} (h : Keeps κ s₀ s) (p : Part) (addr : Nat) (bytes : List Byte) (outcome : Outcome) (e :
    execMemWrite p addr bytes outcome s = .next t) : Keeps κ s₀ t := by
  unfold execMemWrite at e
  cases e
  repeat' first
    | with_reducible assumption
    | with_reducible apply State.writeBlock_keeps
    | with_reducible apply State.fenceViolation_keeps
    | split

theorem execBar4Read_keeps {κ : Kept} {s₀ s t : State} (h : Keeps κ s₀ s) (port : Port) (offset : Nat) (len : Nat) (errs : Errs) (e : execBar4Read
    port offset len errs s = .next t) : Keeps κ s₀ t := by
  unfold execBar4Read at e
  cases e
  repeat' first
    | with_reducible assumption
    | with_reducible apply State.send_keeps
    | with_reducible apply State.fenceViolation_keeps
    | with_reducible apply State.hitMissed_keeps
    | with_reducible apply State.readRange_keeps
    | with_reducible apply State.shownRange_keeps
    | (with_reducible apply Keeps.foldl; intro _ _ _; try dsimp only)
    | with_reducible apply Keeps.fst (by assumption)
    | with_reducible apply Keeps.snd (by assumption)
    | split
    | (fail_if_no_progress with_reducible apply Keeps.upd)
    | dsimp only

theorem execBar4Write_keeps {κ : Kept} {s₀ s t : State} (h : Keeps κ s₀ s) (port : Port) (offset : Nat) (data : Bar4Data) (errs :
    Errs) (e : execBar4Write port offset data errs s = .next t) : Keeps κ s₀ t := by
  unfold execBar4Write at e
  cases e
  repeat' first
    | with_reducible assumption
    | with_reducible apply State.send_keeps
    | with_reducible apply State.writeBlock_keeps
    | with_reducible apply State.fenceViolation_keeps
    | (with_reducible apply Keeps.foldl; intro _ _ _; try dsimp only)
    | split
    | (fail_if_no_progress with_reducible apply Keeps.upd)

theorem State.refresh_keeps {κ : Kept} {s₀ s : State} (h : Keeps κ s₀ s) (k : Nat) : Keeps κ s₀ (State.refresh s k) := by
  unfold State.refresh
  repeat' first
    | with_reducible assumption
    | with_reducible apply State.modBank_keeps

theorem execRefreshPullin_keeps {κ : Kept} {s₀ s t : State} (h : Keeps κ s₀ s) (bank : BankId) (e : execRefreshPullin bank s = .next t) : Keeps κ s₀ t
    := by
  unfold execRefreshPullin at e
  cases e
  repeat' first
    | with_reducible assumption
    | with_reducible apply State.modBank_keeps
    | with_reducible apply State.refresh_keeps
    | split
    | (fail_if_no_progress with_reducible apply Keeps.upd)
    | dsimp only

theorem execDieTempSample_keeps {κ : Kept} {s₀ s t : State} (h : Keeps κ s₀ s) (die : DieId) (temp : Nat) (e : execDieTempSample die temp s = .next t)
    : Keeps κ s₀ t := by
  unfold execDieTempSample at e
  cases e
  repeat' first
    | with_reducible assumption
    | with_reducible apply State.toOwner_keeps
    | with_reducible apply State.modDie_keeps
    | split
    | (fail_if_no_progress with_reducible apply Keeps.upd)
    | dsimp only

theorem execMemMarginHold_keeps {κ : Kept} {s₀ s t : State} (h : Keeps κ s₀ s) (port : Port) (e : execMemMarginHold port s = .next t) : Keeps κ s₀ t
    := by
  unfold execMemMarginHold at e
  cases e
  repeat' first
    | with_reducible assumption
    | split
    | (fail_if_no_progress with_reducible apply Keeps.upd)

theorem execMemMarginRelease_keeps {κ : Kept} {s₀ s t : State} (h : Keeps κ s₀ s) (port : Port) (e : execMemMarginRelease port s = .next t) : Keeps κ
    s₀ t := by
  unfold execMemMarginRelease at e
  cases e
  repeat' first
    | with_reducible assumption
    | split
    | (fail_if_no_progress with_reducible apply Keeps.upd)

theorem execMemMarginRun_keeps {κ : Kept} {s₀ s t : State} (h : Keeps κ s₀ s) (port : Port) (logTransfers : BitVec 5) (e : execMemMarginRun port
    logTransfers s = .next t) : Keeps κ s₀ t := by
  unfold execMemMarginRun at e
  cases e
  repeat' first
    | with_reducible assumption
    | with_reducible apply State.start_keeps
    | split
    | (fail_if_no_progress with_reducible apply Keeps.upd)

theorem execMarginDone_keeps {κ : Kept} {s₀ s t : State} (h : Keeps κ s₀ s) (errors : Nat) (firstWire : Option (Fin 584)) (e : execMarginDone errors
    firstWire s = .next t) : Keeps κ s₀ t := by
  unfold execMarginDone at e
  cases e
  repeat' first
    | with_reducible assumption
    | with_reducible apply State.toOwner_keeps
    | split
    | (fail_if_no_progress with_reducible apply Keeps.upd)

end Sys2Proof.Machine
end

