-- ==== Sys2Proof/Laws/NearBankKeeps.lean ====
section
/-! SUPPORT. What the shared operations of Machine/NearBank.lean keep. -/

namespace Sys2Proof.Machine

theorem State.setLine_keeps {κ : Kept} {s₀ s : State} (h : Keeps κ s₀ s) (tile : Nat) (l : Nat) (x : Line) : Keeps κ s₀ (State.setLine s tile l x) :=
    by
  unfold State.setLine
  repeat' first
    | with_reducible assumption
    | split
    | (fail_if_no_progress with_reducible apply Keeps.upd)

theorem State.atom_keeps {κ : Kept} {s₀ s : State} (h : Keeps κ s₀ s) (tile : Nat) (l : Nat) (w : AtomWord) (f : W32 → W32) : Keeps κ s₀
    (State.atom s tile l w f) := by
  unfold State.atom
  repeat' first
    | with_reducible assumption
    | with_reducible apply State.setLine_keeps
    | with_reducible apply State.send_keeps
    | split

theorem execAtomicFp32Add_keeps {κ : Kept} {s₀ s t : State} (h : Keeps κ s₀ s) (tile : Nat) (line : Nat) (word : AtomWord) (v : W32) (e :
    execAtomicFp32Add tile line word v s = .next t) : Keeps κ s₀ t := by
  unfold execAtomicFp32Add at e
  cases e
  repeat' first
    | with_reducible assumption
    | with_reducible apply State.atom_keeps

theorem execAtomicBf16PairAdd_keeps {κ : Kept} {s₀ s t : State} (h : Keeps κ s₀ s) (tile : Nat) (line : Nat) (word : AtomWord) (v : W32) (e
    : execAtomicBf16PairAdd tile line word v s = .next t) : Keeps κ s₀ t := by
  unfold execAtomicBf16PairAdd at e
  cases e
  repeat' first
    | with_reducible assumption
    | with_reducible apply State.atom_keeps

theorem execAtomicMax_keeps {κ : Kept} {s₀ s t : State} (h : Keeps κ s₀ s) (tile : Nat) (line : Nat) (word : AtomWord) (v : W32) (e :
    execAtomicMax tile line word v s = .next t) : Keeps κ s₀ t := by
  unfold execAtomicMax at e
  cases e
  repeat' first
    | with_reducible assumption
    | with_reducible apply State.atom_keeps

theorem execAtomicMin_keeps {κ : Kept} {s₀ s t : State} (h : Keeps κ s₀ s) (tile : Nat) (line : Nat) (word : AtomWord) (v : W32) (e :
    execAtomicMin tile line word v s = .next t) : Keeps κ s₀ t := by
  unfold execAtomicMin at e
  cases e
  repeat' first
    | with_reducible assumption
    | with_reducible apply State.atom_keeps

theorem execAtomicInt32Add_keeps {κ : Kept} {s₀ s t : State} (h : Keeps κ s₀ s) (tile : Nat) (line : Nat) (word : AtomWord) (v : W32) (e :
    execAtomicInt32Add tile line word v s = .next t) : Keeps κ s₀ t := by
  unfold execAtomicInt32Add at e
  cases e
  repeat' first
    | with_reducible assumption
    | with_reducible apply State.atom_keeps

theorem execAtomicSwap_keeps {κ : Kept} {s₀ s t : State} (h : Keeps κ s₀ s) (tile : Nat) (line : Nat) (word : AtomWord) (v : W32) (e :
    execAtomicSwap tile line word v s = .next t) : Keeps κ s₀ t := by
  unfold execAtomicSwap at e
  cases e
  repeat' first
    | with_reducible assumption
    | with_reducible apply State.atom_keeps

theorem execAtomicCompareAndSwap_keeps {κ : Kept} {s₀ s t : State} (h : Keeps κ s₀ s) (tile : Nat) (line : Nat) (word : AtomWord) (expected : W32) (v :
    W32) (e : execAtomicCompareAndSwap tile line word expected v s = .next t) : Keeps κ s₀ t := by
  unfold execAtomicCompareAndSwap at e
  cases e
  repeat' first
    | with_reducible assumption
    | with_reducible apply State.atom_keeps

theorem State.bump_keeps {κ : Kept} {s₀ s : State} (h : Keeps κ s₀ s) (tile : Nat) (l : Nat) (w : Fin 16) (n : Nat) : Keeps κ s₀ (State.bump s tile l
    w n) := by
  unfold State.bump
  repeat' first
    | with_reducible assumption
    | with_reducible apply State.setLine_keeps

theorem State.message_keeps {κ : Kept} {s₀ s : State} (h : Keeps κ s₀ s) (tile : Nat) (l : Nat) (k : AtomKind) (words : List (W32 × Bool)) (ctile :
    Nat) (cl : Nat) (cw : Fin 16) : Keeps κ s₀ (State.message s tile l k words ctile cl cw) := by
  unfold State.message
  repeat' first
    | with_reducible assumption
    | with_reducible apply State.setLine_keeps
    | with_reducible apply State.bump_keeps

theorem State.fencedBump_keeps {κ : Kept} {s₀ s : State} (h : Keeps κ s₀ s) (p : Part) (tile : Nat) (l : Nat) (w : Fin 16) (n : Nat) : Keeps κ s₀
    (State.fencedBump s p tile l w n) := by
  unfold State.fencedBump
  repeat' first
    | with_reducible assumption
    | with_reducible apply State.bump_keeps
    | with_reducible apply State.fenceViolation_keeps
    | split

theorem State.fencedMessage_keeps {κ : Kept} {s₀ s : State} (h : Keeps κ s₀ s) (p : Part) (tile : Nat) (l : Nat) (k : AtomKind) (words : List (W32 ×
    Bool)) (ctile : Nat) (cl : Nat) (cw : Fin 16) : Keeps κ s₀ (State.fencedMessage s p tile l k words ctile cl cw) := by
  unfold State.fencedMessage
  repeat' first
    | with_reducible assumption
    | with_reducible apply State.setLine_keeps
    | with_reducible apply State.fencedBump_keeps
    | with_reducible apply State.fenceViolation_keeps
    | split

theorem State.dropTraffic_keeps {κ : Kept} {s₀ s : State} (h : Keeps κ s₀ s) : Keeps κ s₀ (State.dropTraffic s) := by
  unfold State.dropTraffic
  repeat' first
    | with_reducible assumption
    | split
    | (fail_if_no_progress with_reducible apply Keeps.upd)

theorem execReductionMessage_keeps {κ : Kept} {s₀ s t : State} (h : Keeps κ s₀ s) (p : Part) (hop : Hop) (line : Nat) (kind :
    AtomKind) (words : List W32) (cline : Nat) (cword : Fin 16) (e : execReductionMessage p hop line kind words cline cword s = .next t) : Keeps κ
    s₀ t := by
  unfold execReductionMessage at e
  cases e
  repeat' first
    | with_reducible assumption
    | with_reducible apply State.dropTraffic_keeps
    | with_reducible apply State.fencedMessage_keeps
    | split

theorem State.sendAcc_keeps {κ : Kept} {s₀ s : State} (hk : Keeps κ s₀ s) (src : Site) (p : Option Part) (h : NbHeader) (w : NbWord) (vals : List (W32
    × Bool)) (rank : Nat) : Keeps κ s₀ (State.sendAcc s src p h w vals rank) := by
  unfold State.sendAcc
  repeat' first
    | with_reducible assumption
    | with_reducible apply State.dropTraffic_keeps
    | with_reducible apply State.fencedMessage_keeps
    | with_reducible apply State.message_keeps
    | (with_reducible apply Keeps.foldl; intro _ _ _; try dsimp only)
    | split

theorem State.tellDone_keeps {κ : Kept} {s₀ s : State} (hk : Keeps κ s₀ s) (src : Site) (p : Option Part) (h : NbHeader) (n : Nat) : Keeps κ s₀
    (State.tellDone s src p h n) := by
  unfold State.tellDone
  repeat' first
    | with_reducible assumption
    | with_reducible apply State.dropTraffic_keeps
    | with_reducible apply State.fencedBump_keeps
    | with_reducible apply State.bump_keeps
    | split

theorem State.poisonAcc_keeps {κ : Kept} {s₀ s : State} (h : Keeps κ s₀ s) (src : Site) (p : Option Part) (w : NbWord) (rank : Nat) : Keeps κ s₀
    (State.poisonAcc s src p w rank) := by
  unfold State.poisonAcc
  repeat' first
    | with_reducible assumption
    | with_reducible apply State.dropTraffic_keeps
    | with_reducible apply State.setLine_keeps
    | (with_reducible apply Keeps.foldl; intro _ _ _; try dsimp only)
    | split

theorem State.dropSeq_keeps {κ : Kept} {s₀ s : State} (hk : Keeps κ s₀ s) (src : Site) (p : Option Part) (h : NbHeader) (words : List NbWord) : Keeps
    κ s₀ (State.dropSeq s src p h words) := by
  unfold State.dropSeq
  repeat' first
    | with_reducible assumption
    | with_reducible apply State.poisonAcc_keeps
    | with_reducible apply State.tellDone_keeps
    | (with_reducible apply Keeps.foldl; intro _ _ _; try dsimp only)

theorem execNbSequenceSubmit_keeps {κ : Kept} {s₀ s t : State} (h : Keeps κ s₀ s) (hop : Hop) (hdr : BitVec 128) (words : List (BitVec
    128)) (e : execNbSequenceSubmit hop hdr words s = .next t) : Keeps κ s₀ t := by
  unfold execNbSequenceSubmit at e
  cases e
  repeat' first
    | with_reducible assumption
    | with_reducible apply State.dropTraffic_keeps
    | with_reducible apply State.dropSeq_keeps
    | with_reducible apply State.fenceViolation_keeps
    | split
    | (fail_if_no_progress with_reducible apply Keeps.upd)
    | dsimp only

theorem State.splitRow_keeps {κ : Kept} {s₀ s : State} (h : Keeps κ s₀ s) (k : BankId) (p : Option Part) : Keeps κ s₀ (State.splitRow s k p) := by
  unfold State.splitRow
  repeat' first
    | with_reducible assumption
    | with_reducible apply State.modBank_keeps
    | with_reducible apply State.count_keeps
    | split
    | (fail_if_no_progress with_reducible apply Keeps.upd)
    | dsimp only

theorem State.tellWait_keeps {κ : Kept} {s₀ s : State} (h : Keeps κ s₀ s) (k : BankId) : Keeps κ s₀ (State.tellWait s k) := by
  unfold State.tellWait
  repeat' first
    | with_reducible assumption
    | with_reducible apply State.modBank_keeps
    | split
    | (fail_if_no_progress with_reducible apply Keeps.upd)

theorem execRefreshDue_keeps {κ : Kept} {s₀ s t : State} (h : Keeps κ s₀ s) (bank : BankId) (e : execRefreshDue bank s = .next t) : Keeps κ s₀ t := by
  unfold execRefreshDue at e
  cases e
  repeat' first
    | with_reducible assumption
    | with_reducible apply State.modBank_keeps
    | with_reducible apply State.splitRow_keeps
    | with_reducible apply State.refresh_keeps
    | split
    | (fail_if_no_progress with_reducible apply Keeps.upd)
    | dsimp only

theorem State.unitNext_keeps {κ : Kept} {s₀ s : State} (h : Keeps κ s₀ s) (k : BankId) (q : NbSeq) (u : NbUnit) : Keeps κ s₀ (State.unitNext s k q u)
    := by
  unfold State.unitNext
  repeat' first
    | with_reducible assumption
    | with_reducible apply State.tellDone_keeps
    | with_reducible apply State.count_keeps
    | with_reducible apply State.retireBank_keeps
    | split
    | (fail_if_no_progress with_reducible apply Keeps.upd)
    | dsimp only

theorem State.nbRun_keeps {κ : Kept} {s₀ s : State} (h : Keeps κ s₀ s) (k : BankId) (op : Nat) (body : State → NbSeq → NbUnit → NbWord → State ×
    NbUnit) (hb : ∀ s, Keeps κ s₀ s → ∀ q u w, Keeps κ s₀ (body s q u w).1) : Keeps κ s₀ (State.nbRun s k op body) := by
  unfold State.nbRun
  repeat' first
    | with_reducible assumption
    | with_reducible apply State.splitRow_keeps
    | with_reducible apply State.tellWait_keeps
    | with_reducible apply State.unitNext_keeps
    | with_reducible apply hb
    | split

theorem State.readSpan_keeps {κ : Kept} {s₀ s : State} (h : Keeps κ s₀ s) (k : BankId) (q : NbSeq) (x : Nat × Nat × Nat) (errs : Errs) : Keeps κ s₀
    (State.readSpan s k q x errs) := by
  unfold State.readSpan
  repeat' first
    | with_reducible assumption
    | with_reducible apply State.readRange_keeps
    | (with_reducible apply Keeps.foldl; intro _ _ _; try dsimp only)

theorem State.readSpans_keeps {κ : Kept} {s₀ s : State} (h : Keeps κ s₀ s) (k : BankId) (q : NbSeq) (w : NbWord) (errs : Errs) : Keeps κ s₀
    (State.readSpans s k q w errs) := by
  unfold State.readSpans
  repeat' first
    | with_reducible assumption
    | with_reducible apply State.readSpan_keeps
    | (with_reducible apply Keeps.foldl; intro _ _ _; try dsimp only)

theorem State.drawN_keeps {κ : Kept} {s₀ s : State} (h : Keeps κ s₀ s) (n : Nat) : Keeps κ s₀ (State.drawN s n).2 := by
  unfold State.drawN
  repeat' first
    | with_reducible assumption
    | split
    | (fail_if_no_progress with_reducible apply Keeps.upd)

theorem nbClearBody_keeps {κ : Kept} {s₀ s : State} (h : Keeps κ s₀ s) (u1 : NbSeq) (u : NbUnit) (w : NbWord) : Keeps κ s₀ (nbClearBody s u1 u w).1 :=
    by
  unfold nbClearBody
  repeat' first
    | with_reducible assumption

theorem execNbClear_keeps {κ : Kept} {s₀ s t : State} (h : Keeps κ s₀ s) (bank : BankId) (e : execNbClear bank s = .next t) : Keeps κ s₀ t := by
  unfold execNbClear at e
  cases e
  repeat' first
    | with_reducible assumption
    | with_reducible apply State.nbRun_keeps
    | with_reducible apply nbClearBody_keeps

theorem nbLoadvBody_keeps {κ : Kept} {s₀ s : State} (h : Keeps κ s₀ s) (k : BankId) (q : NbSeq) (u : NbUnit) (w : NbWord) : Keeps κ s₀ (nbLoadvBody k
    s q u w).1 := by
  unfold nbLoadvBody
  repeat' first
    | with_reducible assumption

theorem execNbLoadv_keeps {κ : Kept} {s₀ s t : State} (h : Keeps κ s₀ s) (bank : BankId) (e : execNbLoadv bank s = .next t) : Keeps κ s₀ t := by
  unfold execNbLoadv at e
  cases e
  repeat' first
    | with_reducible assumption
    | with_reducible apply State.nbRun_keeps
    | with_reducible apply nbLoadvBody_keeps
    | intro _

theorem nbGemvBody_keeps {κ : Kept} {s₀ s : State} (h : Keeps κ s₀ s) (k : BankId) (errs : Errs) (parity : Bool) (q : NbSeq) (u : NbUnit) (w : NbWord)
    : Keeps κ s₀ (nbGemvBody k errs parity s q u w).1 := by
  unfold nbGemvBody
  repeat' first
    | with_reducible assumption
    | with_reducible apply State.readSpans_keeps
    | with_reducible apply State.drawN_keeps

theorem execNbGemv_keeps {κ : Kept} {s₀ s t : State} (h : Keeps κ s₀ s) (bank : BankId) (errs : Errs) (parity : Bool) (e : execNbGemv bank errs parity
    s = .next t) : Keeps κ s₀ t := by
  unfold execNbGemv at e
  cases e
  repeat' first
    | with_reducible assumption
    | with_reducible apply State.nbRun_keeps
    | with_reducible apply nbGemvBody_keeps
    | intro _

theorem nbDotBody_keeps {κ : Kept} {s₀ s : State} (h : Keeps κ s₀ s) (k : BankId) (errs : Errs) (parity : Bool) (q : NbSeq) (u : NbUnit) (w : NbWord)
    : Keeps κ s₀ (nbDotBody k errs parity s q u w).1 := by
  unfold nbDotBody
  repeat' first
    | with_reducible assumption
    | with_reducible apply State.readSpans_keeps
    | with_reducible apply State.drawN_keeps

theorem execNbDot_keeps {κ : Kept} {s₀ s t : State} (h : Keeps κ s₀ s) (bank : BankId) (errs : Errs) (parity : Bool) (e : execNbDot bank errs parity s
    = .next t) : Keeps κ s₀ t := by
  unfold execNbDot at e
  cases e
  repeat' first
    | with_reducible assumption
    | with_reducible apply State.nbRun_keeps
    | with_reducible apply nbDotBody_keeps
    | intro _

theorem nbAxpyBody_keeps {κ : Kept} {s₀ s : State} (h : Keeps κ s₀ s) (k : BankId) (errs : Errs) (parity : Bool) (q : NbSeq) (u : NbUnit) (w : NbWord)
    : Keeps κ s₀ (nbAxpyBody k errs parity s q u w).1 := by
  unfold nbAxpyBody
  repeat' first
    | with_reducible assumption
    | with_reducible apply State.readSpans_keeps
    | with_reducible apply State.drawN_keeps

theorem execNbAxpy_keeps {κ : Kept} {s₀ s t : State} (h : Keeps κ s₀ s) (bank : BankId) (errs : Errs) (parity : Bool) (e : execNbAxpy bank errs parity
    s = .next t) : Keeps κ s₀ t := by
  unfold execNbAxpy at e
  cases e
  repeat' first
    | with_reducible assumption
    | with_reducible apply State.nbRun_keeps
    | with_reducible apply nbAxpyBody_keeps
    | intro _

theorem nbReadaccBody_keeps {κ : Kept} {s₀ s : State} (h : Keeps κ s₀ s) (k : BankId) (q : NbSeq) (u : NbUnit) (w : NbWord) : Keeps κ s₀
    (nbReadaccBody k s q u w).1 := by
  unfold nbReadaccBody
  repeat' first
    | with_reducible assumption
    | with_reducible apply State.sendAcc_keeps

theorem execNbReadacc_keeps {κ : Kept} {s₀ s t : State} (h : Keeps κ s₀ s) (bank : BankId) (e : execNbReadacc bank s = .next t) : Keeps κ s₀ t := by
  unfold execNbReadacc at e
  cases e
  repeat' first
    | with_reducible assumption
    | with_reducible apply State.nbRun_keeps
    | with_reducible apply nbReadaccBody_keeps
    | intro _

theorem State.dropLines_keeps {κ : Kept} {s₀ s : State} (h : Keeps κ s₀ s) (tile : Nat) (b : Nat) : Keeps κ s₀ (State.dropLines s tile b) := by
  unfold State.dropLines
  repeat' first
    | with_reducible assumption
    | split
    | (fail_if_no_progress with_reducible apply Keeps.upd)

theorem State.spoilStale_keeps {κ : Kept} {s₀ s : State} (h : Keeps κ s₀ s) (q : NbSeq) (addr : Nat) (n : Nat) : Keeps κ s₀ (State.spoilStale s q addr
    n) := by
  unfold State.spoilStale
  repeat' first
    | with_reducible assumption
    | with_reducible apply State.spoil_keeps
    | split

theorem nbStoreBody_keeps {κ : Kept} {s₀ s : State} (h : Keeps κ s₀ s) (k : BankId) (q : NbSeq) (u : NbUnit) (w : NbWord) : Keeps κ s₀ (nbStoreBody k
    s q u w).1 := by
  unfold nbStoreBody
  repeat' first
    | with_reducible assumption
    | with_reducible apply State.putBlocks_keeps
    | with_reducible apply State.spoilStale_keeps
    | with_reducible apply State.dropLines_keeps
    | split

theorem execNbStore_keeps {κ : Kept} {s₀ s t : State} (h : Keeps κ s₀ s) (bank : BankId) (e : execNbStore bank s = .next t) : Keeps κ s₀ t := by
  unfold execNbStore at e
  cases e
  repeat' first
    | with_reducible assumption
    | with_reducible apply State.nbRun_keeps
    | with_reducible apply nbStoreBody_keeps
    | intro _

theorem nbCopyBody_keeps {κ : Kept} {s₀ s : State} (h : Keeps κ s₀ s) (k : BankId) (errs : Errs) (q : NbSeq) (u : NbUnit) (w : NbWord) : Keeps κ s₀
    (nbCopyBody k errs s q u w).1 := by
  unfold nbCopyBody
  repeat' first
    | with_reducible assumption
    | with_reducible apply State.readRange_keeps
    | with_reducible apply State.copyRange_keeps
    | with_reducible apply State.spoilStale_keeps
    | with_reducible apply State.dropLines_keeps
    | with_reducible apply State.drawN_keeps
    | (with_reducible apply Keeps.foldl; intro _ _ _; try dsimp only)
    | with_reducible apply Keeps.fst (by assumption)
    | with_reducible apply Keeps.snd (by assumption)
    | split

theorem execNbCopy_keeps {κ : Kept} {s₀ s t : State} (h : Keeps κ s₀ s) (bank : BankId) (errs : Errs) (e : execNbCopy bank errs s = .next t) : Keeps κ
    s₀ t := by
  unfold execNbCopy at e
  cases e
  repeat' first
    | with_reducible assumption
    | with_reducible apply State.nbRun_keeps
    | with_reducible apply nbCopyBody_keeps
    | intro _

theorem execNbMalformed_keeps {κ : Kept} {s₀ s t : State} (h : Keeps κ s₀ s) (bank : BankId) (e : execNbMalformed bank s = .next t) : Keeps κ s₀ t :=
    by
  unfold execNbMalformed at e
  cases e
  repeat' first
    | with_reducible assumption
    | with_reducible apply State.count_keeps
    | with_reducible apply State.unitNext_keeps
    | split

end Sys2Proof.Machine
end

