-- ==== Sys2Proof/Laws/KilnKeeps.lean ====
section
/-! SUPPORT. What the shared operations of Machine/Kiln.lean keep. -/

namespace Sys2Proof.Machine

/-- An insertion adds its element and nothing else. -/
theorem mem_insertBy {α : Type} (lt : α → α → Bool) (x : α) (l : List α) (z : α) : z ∈ insertBy lt x l ↔ z = x ∨ z ∈ l := by
  induction l with
  | nil => simp [insertBy]
  | cons y l ih =>
    rw [insertBy]
    split
    · simp
    · simp only [List.mem_cons, ih]; tauto

/-- An insertion by rising first components, of one that is not there, keeps a list rising. -/
theorem insertBy_rising (x : Nat × Nat) (l : List (Nat × Nat)) (h : l.Pairwise fun a b => a.1 < b.1) (hx : ∀ y ∈ l, y.1 ≠ x.1) :
    (insertBy (fun a b => decide (a.1 < b.1)) x l).Pairwise fun a b => a.1 < b.1 := by
  induction l with
  | nil => simp [insertBy]
  | cons y l ih =>
    obtain ⟨hy, hl⟩ := List.pairwise_cons.1 h
    have hxy : y.1 ≠ x.1 := hx y (by simp)
    rw [insertBy]
    split
    · next c =>
      rw [decide_eq_true_eq] at c
      refine List.pairwise_cons.2 ⟨fun z hz => ?_, h⟩
      rcases List.mem_cons.1 hz with rfl | hz
      · exact c
      · exact Nat.lt_trans c (hy z hz)
    · next c =>
      rw [decide_eq_true_eq] at c
      refine List.pairwise_cons.2 ⟨fun z hz => ?_, ih hl fun z hz => hx z (by simp [hz])⟩
      rcases (mem_insertBy _ _ _ _).1 hz with rfl | hz
      · omega
      · exact hy z hz

/-- A list whose first components differ, sorted by them, rises. -/
theorem sortBy_rising (l : List (Nat × Nat)) (h : l.Pairwise fun a b => a.1 ≠ b.1) :
    (sortBy (fun a b => decide (a.1 < b.1)) l).Pairwise fun a b => a.1 < b.1 := by
  have go : ∀ (l acc : List (Nat × Nat)), l.Pairwise (fun a b => a.1 ≠ b.1) → acc.Pairwise (fun a b => a.1 < b.1) →
      (∀ x ∈ l, ∀ y ∈ acc, y.1 ≠ x.1) →
      (l.foldl (fun acc x => insertBy (fun a b => decide (a.1 < b.1)) x acc) acc).Pairwise fun a b => a.1 < b.1 := by
    intro l
    induction l with
    | nil => exact fun acc _ ha _ => ha
    | cons x l ih =>
      intro acc hl ha hd
      obtain ⟨hx, hl⟩ := List.pairwise_cons.1 hl
      refine ih _ hl (insertBy_rising x acc ha fun y hy => hd x (by simp) y hy) fun z hz y hy => ?_
      rcases (mem_insertBy _ _ _ _).1 hy with rfl | hy
      · exact hx z hz
      · exact hd z (by simp [hz]) y hy
  exact go l [] h List.Pairwise.nil (by simp)

/-- Two sites never have one home. -/
theorem siteHome_injective (sites : Vector SiteSt 64) (i j : Site) (h : siteHome sites i = siteHome sites j) : i = j := by
  have key : ∀ k, siteHome sites k = 64 + k.val ∨
      (siteHome sites k < 60 ∧ ((List.finRange 64).find? fun j =>
        (sites.get j).state == .inService && (sites.get j).tile == some (siteHome sites k)) = some k) := by
    intro k
    unfold siteHome
    split
    · split
      · next hc => exact Or.inr hc
      · exact Or.inl rfl
    · exact Or.inl rfl
  rcases key i with hi | ⟨hi, fi⟩ <;> rcases key j with hj | ⟨hj, fj⟩
  · exact Fin.ext (by omega)
  · omega
  · omega
  · rw [h, fj] at fi
    exact (Option.some.inj fi).symm

/-- The homes that stacks move to rise. -/
theorem stackMoves_rising (old new : Vector SiteSt 64) : (stackMoves old new).Pairwise fun a b => a.1 < b.1 := by
  refine sortBy_rising _ (List.pairwise_map.2 ?_)
  exact (List.nodup_finRange 64).imp fun hab e => hab (siteHome_injective new _ _ e)

/-- Moving whole stacks keeps the canonical form. -/
theorem moveStacks_wf (moves : List (Nat × Nat)) (unit : Nat) (m : Memory) (hu : 0 < unit)
    (hr : moves.Pairwise fun a b => a.1 < b.1) (h : m.wf = true) :
    Memory.wf (moveStacks moves unit m (·.1) fun c a => (a, c.2)) = true := by
  rw [Memory.wf_iff] at h ⊢
  obtain ⟨hp, hz⟩ := h
  have at_ : ∀ (q : Nat × Nat) (c : Host.Cell), c ∈ List.map (fun x : Host.Cell => (x.1 % unit + q.1 * unit, x.2))
      (m.filter fun x => x.1 / unit == q.2) → ∃ x ∈ m, x.1 / unit = q.2 ∧ c = (x.1 % unit + q.1 * unit, x.2) := by
    intro q c hc
    obtain ⟨x, hx, rfl⟩ := List.mem_map.1 hc
    obtain ⟨hx, hq⟩ := List.mem_filter.1 hx
    exact ⟨x, hx, by simpa using hq, rfl⟩
  constructor
  · induction moves with
    | nil => exact List.Pairwise.nil
    | cons q l ih =>
      obtain ⟨hq, hl⟩ := List.pairwise_cons.1 hr
      refine List.pairwise_append.2 ⟨?_, ih hl, ?_⟩
      · rw [List.pairwise_map]
        refine List.Pairwise.imp_of_mem (R := fun x y => x.1 < y.1) ?_ (hp.filter _)
        intro x y hx hy hxy
        have ex : x.1 / unit = q.2 := by simpa using (List.mem_filter.1 hx).2
        have ey : y.1 / unit = q.2 := by simpa using (List.mem_filter.1 hy).2
        have dx := Nat.div_add_mod x.1 unit
        have dy := Nat.div_add_mod y.1 unit
        rw [ex] at dx
        rw [ey] at dy
        dsimp only
        omega
      · intro x hx y hy
        obtain ⟨u, -, -, rfl⟩ := at_ q x hx
        obtain ⟨q', hq', hy⟩ := List.mem_flatMap.1 hy
        obtain ⟨v, -, -, rfl⟩ := at_ q' y hy
        have h1 := hq q' hq'
        have h2 := Nat.mod_lt u.1 hu
        have h3 : (q.1 + 1) * unit ≤ q'.1 * unit := Nat.mul_le_mul_right unit h1
        rw [Nat.add_mul] at h3
        dsimp only
        omega
  · intro c hc
    obtain ⟨q, -, hc⟩ := List.mem_flatMap.1 hc
    obtain ⟨x, hx, -, rfl⟩ := at_ q c hc
    exact hz x hx

theorem State.setSites_keeps {κ : Kept} {s₀ s : State} (h : Keeps κ s₀ s) (sites : Vector SiteSt 64) : Keeps κ s₀ (State.setSites s sites) := by
  unfold State.setSites
  dsimp only
  split
  · exact h.upd ..
  · have k := h.updSheet _ (moveStacks_wf (stackMoves s.sites sites) (stackSegs * segBytes) s.sheet (by decide) (stackMoves_rising _ _))
    with_reducible apply k.upd

theorem State.applySheet_keeps {κ : Kept} {s₀ s : State} (h : Keeps κ s₀ s) (body : List Byte) (entries : Nat) : Keeps κ s₀ (State.applySheet s body
    entries) := by
  unfold State.applySheet
  repeat' first
    | with_reducible assumption
    | with_reducible apply State.setSites_keeps
    | split
    | (fail_if_no_progress with_reducible apply Keeps.upd)

theorem State.resolvePorts_keeps {κ : Kept} {s₀ s : State} (h : Keeps κ s₀ s) : Keeps κ s₀ (State.resolvePorts s) := by
  unfold State.resolvePorts
  repeat' first
    | with_reducible assumption
    | with_reducible apply State.modPart_keeps
    | (with_reducible apply Keeps.foldl; intro _ _ _; try dsimp only)

theorem State.zeroise_keeps {κ : Kept} {s₀ s : State} (h : Keeps κ s₀ s) (old : State) : Keeps κ s₀ (State.zeroise s old) := by
  unfold State.zeroise
  repeat' first
    | with_reducible assumption
    | with_reducible apply State.modPart_keeps
    | with_reducible apply State.arrive_keeps
    | (with_reducible apply Keeps.foldl; intro _ _ _; try dsimp only)
    | split
    | (fail_if_no_progress with_reducible apply Keeps.upd)
    | dsimp only
    | (fail_if_no_progress with_reducible apply Keeps.updAll)
    | exact id
    | exact le_rfl
    | exact Memory.wf_zeroN _ _ _
    | exact Memory.wf_writeN _ _ _
    | exact Memory.wf_filter _ _
    | exact fun _ => Memory.wf_nil
    | exact fun _ => rfl
    | exact fun _ => Flash.sameFirmware_refl _

theorem State.ownerReach_keeps {κ : Kept} {s₀ s : State} (h : Keeps κ s₀ s) (had : Bool) : Keeps κ s₀ (State.ownerReach s had) := by
  unfold State.ownerReach
  repeat' first
    | with_reducible assumption
    | split
    | (fail_if_no_progress with_reducible apply Keeps.upd)

theorem State.applyFence_keeps {κ : Kept} {s₀ s : State} (h : Keeps κ s₀ s) (body : List Byte) (entries : Nat) : Keeps κ s₀ (State.applyFence s body
    entries) := by
  unfold State.applyFence
  repeat' first
    | with_reducible assumption
    | with_reducible apply State.removePart_keeps
    | with_reducible apply State.pruneTables_keeps
    | with_reducible apply State.modPart_keeps
    | with_reducible apply State.resolvePorts_keeps
    | with_reducible apply State.zeroise_keeps
    | with_reducible apply State.ownerReach_keeps
    | (with_reducible apply Keeps.foldl; intro _ _ _; try dsimp only)
    | split

theorem State.applyRoute_keeps {κ : Kept} {s₀ s : State} (h : Keeps κ s₀ s) (body : List Byte) (entries : Nat) : Keeps κ s₀ (State.applyRoute s body
    entries) := by
  unfold State.applyRoute
  repeat' first
    | with_reducible assumption
    | split
    | (fail_if_no_progress with_reducible apply Keeps.upd)

theorem State.applyRole_keeps {κ : Kept} {s₀ s : State} (h : Keeps κ s₀ s) (p : Part) (body : List Byte) (entries : Nat) (tenant : Bool) : Keeps κ s₀
    (State.applyRole s p body entries tenant) := by
  unfold State.applyRole
  repeat' first
    | with_reducible assumption
    | with_reducible apply State.modPart_keeps

theorem State.spoilPlace_keeps {κ : Kept} {s₀ s : State} (h : Keeps κ s₀ s) (p : Part) (x : Place) : Keeps κ s₀ (State.spoilPlace s p x) := by
  unfold State.spoilPlace
  repeat' first
    | with_reducible assumption
    | with_reducible apply State.spoil_keeps
    | with_reducible apply State.spoilPeat_keeps
    | (with_reducible apply Keeps.foldl; intro _ _ _; try dsimp only)
    | split

theorem State.applyPlace_keeps {κ : Kept} {s₀ s : State} (h : Keeps κ s₀ s) (p : Part) (body : List Byte) (entries : Nat) (tenant : Bool) : Keeps κ s₀
    (State.applyPlace s p body entries tenant) := by
  unfold State.applyPlace
  repeat' first
    | with_reducible assumption
    | with_reducible apply State.spoilPlace_keeps
    | with_reducible apply State.modPart_keeps
    | with_reducible apply State.pruneTables_keeps
    | (with_reducible apply Keeps.foldl; intro _ _ _; try dsimp only)

theorem State.applySlice_keeps {κ : Kept} {s₀ s : State} (h : Keeps κ s₀ s) (body : List Byte) : Keeps κ s₀ (State.applySlice s body) := by
  unfold State.applySlice
  repeat' first
    | with_reducible assumption
    | split
    | (fail_if_no_progress with_reducible apply Keeps.upd)

theorem State.applyPins_keeps {κ : Kept} {s₀ s : State} (h : Keeps κ s₀ s) (body : List Byte) (entries : Nat) : Keeps κ s₀ (State.applyPins s body
    entries) := by
  unfold State.applyPins
  repeat' first
    | with_reducible assumption
    | split
    | (fail_if_no_progress with_reducible apply Keeps.upd)

theorem State.sectionEffect_keeps {κ : Kept} {s₀ s : State} (hk : Keeps κ s₀ s) (tenant : Bool) (h : List Byte) (body : List Byte) : Keeps κ s₀
    (State.sectionEffect s tenant h body) := by
  unfold State.sectionEffect
  repeat' first
    | with_reducible assumption
    | with_reducible apply State.applySheet_keeps
    | with_reducible apply State.applyFence_keeps
    | with_reducible apply State.applyRoute_keeps
    | with_reducible apply State.applyRole_keeps
    | with_reducible apply State.applyPlace_keeps
    | with_reducible apply State.applySlice_keeps
    | with_reducible apply State.applyPins_keeps
    | split

theorem State.countSection_keeps {κ : Kept} {s₀ s : State} (hk : Keeps κ s₀ s) (h : List Byte) : Keeps κ s₀ (State.countSection s h) := by
  unfold State.countSection
  repeat' first
    | with_reducible assumption
    | with_reducible apply State.modPart_keeps
    | (with_reducible apply Keeps.foldl; intro _ _ _; try dsimp only)
    | split

theorem State.recordSection_keeps {κ : Kept} {s₀ s : State} (hk : Keeps κ s₀ s) (h : List Byte) (body : List Byte) : Keeps κ s₀ (State.recordSection s
    h body) := by
  unfold State.recordSection
  repeat' first
    | with_reducible assumption
    | with_reducible apply State.modPart_keeps
    | split
    | (fail_if_no_progress with_reducible apply Keeps.upd)
    | dsimp only
    | (fail_if_no_progress with_reducible apply Keeps.updAll)
    | exact id
    | exact le_rfl
    | exact Memory.wf_zeroN _ _ _
    | exact Memory.wf_writeN _ _ _
    | exact Memory.wf_filter _ _
    | exact fun _ => Memory.wf_nil
    | exact fun _ => rfl
    | exact fun _ => Flash.sameFirmware_refl _

theorem State.applySection_keeps {κ : Kept} {s₀ s : State} (hk : Keeps κ s₀ s) (tenant : Option Part) (h : List Byte) (body : List Byte) : Keeps κ s₀
    (State.applySection s tenant h body).1 := by
  unfold State.applySection
  repeat' first
    | with_reducible assumption
    | with_reducible apply State.sectionEffect_keeps
    | with_reducible apply State.countSection_keeps
    | with_reducible apply State.recordSection_keeps
    | split

theorem State.modStream_keeps {κ : Kept} {s₀ s : State} (h : Keeps κ s₀ s) (t : Option Part) (f : KlnStream → KlnStream) : Keeps κ s₀ (State.modStream
    s t f) := by
  unfold State.modStream
  repeat' first
    | with_reducible assumption
    | with_reducible apply State.modPart_keeps
    | split
    | (fail_if_no_progress with_reducible apply Keeps.upd)

theorem State.takeHeader_keeps {κ : Kept} {s₀ s : State} (hk : Keeps κ s₀ s) (t : Option Part) (h : List Byte) : Keeps κ s₀ (State.takeHeader s t h)
    := by
  unfold State.takeHeader
  repeat' first
    | with_reducible assumption
    | with_reducible apply State.modPart_keeps
    | with_reducible apply State.modStream_keeps
    | split
    | (fail_if_no_progress with_reducible apply Keeps.upd)
    | dsimp only
    | (fail_if_no_progress with_reducible apply Keeps.updAll)
    | exact id
    | exact le_rfl
    | exact Memory.wf_zeroN _ _ _
    | exact Memory.wf_writeN _ _ _
    | exact Memory.wf_filter _ _
    | exact fun _ => Memory.wf_nil
    | exact fun _ => rfl
    | exact fun _ => Flash.sameFirmware_refl _

theorem State.takeSection_keeps {κ : Kept} {s₀ s : State} (hk : Keeps κ s₀ s) (t : Option Part) (h : List Byte) (body : List Byte) : Keeps κ s₀
    (State.takeSection s t h body) := by
  unfold State.takeSection
  repeat' first
    | with_reducible assumption
    | with_reducible apply State.modStream_keeps
    | with_reducible apply State.applySection_keeps
    | with_reducible apply Keeps.fst (by assumption)
    | with_reducible apply Keeps.snd (by assumption)
    | split
    | (fail_if_no_progress with_reducible apply Keeps.upd)
    | dsimp only

theorem State.takeByte_keeps {κ : Kept} {s₀ s : State} (h : Keeps κ s₀ s) (t : Option Part) (b : Byte) : Keeps κ s₀ (State.takeByte s t b) := by
  unfold State.takeByte
  repeat' first
    | with_reducible assumption
    | with_reducible apply State.modStream_keeps
    | with_reducible apply State.takeHeader_keeps
    | with_reducible apply State.takeSection_keeps
    | split
    | (fail_if_no_progress with_reducible apply Keeps.upd)
    | dsimp only

theorem State.takeBytes_keeps {κ : Kept} {s₀ s : State} (h : Keeps κ s₀ s) (t : Option Part) (x0 : List Byte) : Keeps κ s₀ (State.takeBytes s t x0) :=
    by
  induction x0 generalizing s t with
  | nil => exact h
  | cons y l ih =>
    unfold State.takeBytes
    repeat' first
      | with_reducible assumption
      | with_reducible apply State.takeByte_keeps
      | with_reducible apply ih

theorem State.load_keeps {κ : Kept} {s₀ s : State} (h : Keeps κ s₀ s) (t : Option Part) (value : W32) : Keeps κ s₀ (State.load s t value) := by
  unfold State.load
  repeat' first
    | with_reducible assumption
    | with_reducible apply State.modStream_keeps
    | with_reducible apply State.takeBytes_keeps

theorem State.begin_keeps {κ : Kept} {s₀ s : State} (h : Keeps κ s₀ s) (t : Option Part) : Keeps κ s₀ (State.begin s t) := by
  unfold State.begin
  repeat' first
    | with_reducible assumption
    | with_reducible apply State.modStream_keeps

theorem State.cutStreams_keeps {κ : Kept} {s₀ s : State} (h : Keeps κ s₀ s) (port : Port) : Keeps κ s₀ (State.cutStreams s port) := by
  unfold State.cutStreams
  repeat' first
    | with_reducible assumption
    | with_reducible apply State.modStream_keeps
    | split
    | (fail_if_no_progress with_reducible apply Keeps.upd)
    | dsimp only

theorem execKlnBegin_keeps {κ : Kept} {s₀ s t : State} (h : Keeps κ s₀ s) (port : Port) (e : execKlnBegin port s = .next t) : Keeps κ s₀ t := by
  unfold execKlnBegin at e
  cases e
  repeat' first
    | with_reducible assumption
    | with_reducible apply State.begin_keeps
    | split

theorem execKlnLoad_keeps {κ : Kept} {s₀ s t : State} (h : Keeps κ s₀ s) (port : Port) (value : W32) (e : execKlnLoad port value s = .next t) : Keeps
    κ s₀ t := by
  unfold execKlnLoad at e
  cases e
  repeat' first
    | with_reducible assumption
    | with_reducible apply State.load_keeps
    | split

theorem execPrtKlnBegin_keeps {κ : Kept} {s₀ s t : State} (h : Keeps κ s₀ s) (port : Port) (p : Part) (e : execPrtKlnBegin port p s = .next t) : Keeps
    κ s₀ t := by
  unfold execPrtKlnBegin at e
  cases e
  repeat' first
    | with_reducible assumption
    | with_reducible apply State.begin_keeps
    | split

theorem execPrtKlnLoad_keeps {κ : Kept} {s₀ s t : State} (h : Keeps κ s₀ s) (port : Port) (p : Part) (value : W32) (e : execPrtKlnLoad port p value s
    = .next t) : Keeps κ s₀ t := by
  unfold execPrtKlnLoad at e
  cases e
  repeat' first
    | with_reducible assumption
    | with_reducible apply State.load_keeps
    | split

theorem State.loadFactory_keeps {κ : Kept} {s₀ s : State} (h : Keeps κ s₀ s) : Keeps κ s₀ (State.loadFactory s) := by
  unfold State.loadFactory
  repeat' first
    | with_reducible assumption
    | with_reducible apply State.modPort_keeps
    | with_reducible apply State.modPart_keeps
    | with_reducible apply State.resolvePorts_keeps
    | (with_reducible apply Keeps.foldl; intro _ _ _; try dsimp only)
    | split
    | (fail_if_no_progress with_reducible apply Keeps.upd)
    | dsimp only
    | (fail_if_no_progress with_reducible apply Keeps.updAll)
    | exact id
    | exact le_rfl
    | exact Memory.wf_zeroN _ _ _
    | exact Memory.wf_writeN _ _ _
    | exact Memory.wf_filter _ _
    | exact fun _ => Memory.wf_nil
    | exact fun _ => rfl
    | exact fun _ => Flash.sameFirmware_refl _

end Sys2Proof.Machine
end

