-- ==== Sys2Proof/Laws/LoadKeeps.lean ====
section
/-! SUPPORT. What the shared operations of Machine/Load.lean keep. -/

namespace Sys2Proof.Machine

theorem State.mended_keeps {κ : Kept} {s₀ s : State} (h : Keeps κ s₀ s) (p : Part) (handle : Nat) (region : Nat) (billet : Nat) : Keeps κ s₀
    (State.mended s p handle region billet) := by
  unfold State.mended
  repeat' first
    | with_reducible assumption
    | with_reducible apply State.modRepairs_keeps

theorem State.fencedPut_keeps {κ : Kept} {s₀ s : State} (h : Keeps κ s₀ s) (p : Part) (addr : Nat) (l : List (List Byte × Bool)) : Keeps κ s₀
    (State.fencedPut s p addr l) := by
  unfold State.fencedPut
  repeat' first
    | with_reducible assumption
    | with_reducible apply State.putBlocks_keeps
    | with_reducible apply State.fenceViolation_keeps
    | split

theorem State.putChunks_keeps {κ : Kept} {s₀ s : State} (h : Keeps κ s₀ s) (c : Nat) (x0 : List (List Byte)) : Keeps κ s₀ (State.putChunks s c x0) :=
    by
  induction x0 generalizing s c with
  | nil => exact h
  | cons y l ih =>
    unfold State.putChunks
    repeat' first
      | with_reducible assumption
      | with_reducible apply State.putChunk_keeps
      | with_reducible apply ih

theorem State.fencedPeat_keeps {κ : Kept} {s₀ s : State} (h : Keeps κ s₀ s) (p : Part) (addr : Nat) (bytes : List Byte) : Keeps κ s₀ (State.fencedPeat
    s p addr bytes) := by
  unfold State.fencedPeat
  repeat' first
    | with_reducible assumption
    | with_reducible apply State.putChunks_keeps
    | with_reducible apply State.fenceViolation_keeps
    | split

theorem State.writeBillet_keeps {κ : Kept} {s₀ s : State} (h : Keeps κ s₀ s) (p : Part) (handle : Nat) (region : Nat) (billet : Nat) (bytes : List
    Byte) : Keeps κ s₀ (State.writeBillet s p handle region billet bytes) := by
  unfold State.writeBillet
  repeat' first
    | with_reducible assumption
    | with_reducible apply State.fencedPut_keeps
    | with_reducible apply State.fencedPeat_keeps
    | with_reducible apply State.mended_keeps
    | split
    | (fail_if_no_progress with_reducible apply Keeps.upd)
    | dsimp only

theorem State.loadRelief_keeps {κ : Kept} {s₀ s : State} (h : Keeps κ s₀ s) (p : Part) (m : Model) (region : Nat) : Keeps κ s₀ (State.loadRelief s p m
    region) := by
  unfold State.loadRelief
  repeat' first
    | with_reducible assumption
    | with_reducible apply State.modPart_keeps
    | with_reducible apply State.toLadder_keeps
    | (with_reducible apply Keeps.foldl; intro _ _ _; try dsimp only)
    | split

theorem State.fencedBytes_keeps {κ : Kept} {s₀ s : State} (h : Keeps κ s₀ s) (p : Part) (addr : Nat) (bytes : List Byte) : Keeps κ s₀
    (State.fencedBytes s p addr bytes) := by
  unfold State.fencedBytes
  repeat' first
    | with_reducible assumption
    | with_reducible apply State.putBlocks_keeps
    | with_reducible apply State.fenceViolation_keeps
    | split

theorem State.seasonTile_keeps {κ : Kept} {s₀ s : State} (h : Keeps κ s₀ s) (p : Part) (m : Model) (stash : List (Nat × List Byte)) (target : Nat) (i
    : Nat) (x : MatrixRec) (t : Nat) : Keeps κ s₀ (State.seasonTile s p m stash target i x t).2 := by
  unfold State.seasonTile
  repeat' first
    | with_reducible assumption
    | with_reducible apply after_keeps
    | with_reducible apply State.fencedBytes_keeps
    | intro _
    | split

theorem State.seasonChannels_keeps {κ : Kept} {s₀ s : State} (h : Keeps κ s₀ s) (p : Part) (m : Model) (stash : List (Nat × List Byte)) (target : Nat)
    (i : Nat) (x : MatrixRec) (region : Nat) : Keeps κ s₀ (State.seasonChannels s p m stash target i x region) := by
  unfold State.seasonChannels
  repeat' first
    | with_reducible assumption
    | with_reducible apply State.fencedBytes_keeps
    | (with_reducible apply Keeps.foldl; intro _ _ _; try dsimp only)
    | split

theorem State.copyMember_keeps {κ : Kept} {s₀ s : State} (h : Keeps κ s₀ s) (p : Part) (handle : Nat) (member : List Nat) : Keeps κ s₀
    (State.copyMember s p handle member) := by
  unfold State.copyMember
  repeat' first
    | with_reducible assumption
    | with_reducible apply State.fencedSpill_keeps
    | (with_reducible apply Keeps.foldl; intro _ _ _; try dsimp only)
    | split

theorem State.seasonRegion_keeps {κ : Kept} {s₀ s : State} (h : Keeps κ s₀ s) (p : Part) (m : Model) (stash : List (Nat × List Byte)) (target : Nat)
    (mats : List Nat) (region : Nat) : Keeps κ s₀ (State.seasonRegion s p m stash target mats region) := by
  unfold State.seasonRegion
  repeat' first
    | with_reducible assumption
    | with_reducible apply State.seasonTile_keeps
    | with_reducible apply State.modPart_keeps
    | with_reducible apply State.seasonChannels_keeps
    | with_reducible apply State.copyMember_keeps
    | (with_reducible apply Keeps.foldl; intro _ _ _; try dsimp only)
    | (with_reducible apply Keeps.foldlSnd; intro _ _ _; try dsimp only)
    | with_reducible apply Keeps.fst (by assumption)
    | with_reducible apply Keeps.snd (by assumption)
    | split

theorem State.season_keeps {κ : Kept} {s₀ s : State} (h : Keeps κ s₀ s) (p : Part) (m : Model) (stash : List (Nat × List Byte)) (target : Nat) : Keeps
    κ s₀ (State.season s p m stash target) := by
  unfold State.season
  repeat' first
    | with_reducible assumption
    | with_reducible apply State.modPart_keeps
    | with_reducible apply State.seasonRegion_keeps
    | (with_reducible apply Keeps.foldl; intro _ _ _; try dsimp only)

theorem State.markWritten_keeps {κ : Kept} {s₀ s : State} (h : Keeps κ s₀ s) (p : Part) (handle : Nat) (region : Nat) : Keeps κ s₀ (State.markWritten
    s p handle region) := by
  unfold State.markWritten
  repeat' first
    | with_reducible assumption
    | with_reducible apply State.modPart_keeps

theorem State.markPackaged_keeps {κ : Kept} {s₀ s : State} (h : Keeps κ s₀ s) (p : Part) (handle : Nat) (region : Nat) : Keeps κ s₀
    (State.markPackaged s p handle region) := by
  unfold State.markPackaged
  repeat' first
    | with_reducible assumption
    | with_reducible apply State.modPart_keeps
    | with_reducible apply State.markWritten_keeps

theorem State.loadNext_keeps {κ : Kept} {s₀ s : State} (h : Keeps κ s₀ s) (p : Part) (c : Cmd) (written : Nat) (x0 : List Nat) (x1 : Nat) : Keeps κ s₀
    (State.loadNext s p c written x0 x1) := by
  induction x0 generalizing s p c written x1 with
  | nil =>
    unfold State.loadNext
    repeat' first
      | with_reducible assumption
      | with_reducible apply State.markWritten_keeps
      | with_reducible apply State.season_keeps
      | with_reducible apply State.modCmd_keeps
      | with_reducible apply State.done_keeps
      | with_reducible apply State.cmdReadRunning_keeps
      | with_reducible apply State.markPackaged_keeps
      | (with_reducible apply Keeps.foldl; intro _ _ _; try dsimp only)
      | split
  | cons y l ih =>
    unfold State.loadNext
    repeat' first
      | with_reducible assumption
      | with_reducible apply State.markWritten_keeps
      | with_reducible apply State.season_keeps
      | with_reducible apply State.modCmd_keeps
      | with_reducible apply State.done_keeps
      | with_reducible apply State.cmdReadRunning_keeps
      | with_reducible apply State.markPackaged_keeps
      | with_reducible apply ih
      | split

theorem State.loadBillet_keeps {κ : Kept} {s₀ s : State} (h : Keeps κ s₀ s) (p : Part) (c : Cmd) (regions : List Nat) (billet : Nat) (written : Nat)
    (bytes : List Byte) : Keeps κ s₀ (State.loadBillet s p c regions billet written bytes) := by
  unfold State.loadBillet
  repeat' first
    | with_reducible assumption
    | with_reducible apply State.modCmd_keeps
    | with_reducible apply State.loadNext_keeps
    | with_reducible apply State.writeBillet_keeps
    | split

theorem State.loadControl_keeps {κ : Kept} {s₀ s : State} (h : Keeps κ s₀ s) (p : Part) (c : Cmd) (k : Package) : Keeps κ s₀ (State.loadControl s p c
    k) := by
  unfold State.loadControl
  repeat' first
    | with_reducible assumption
    | with_reducible apply State.done_keeps
    | with_reducible apply State.modPart_keeps
    | with_reducible apply State.loadRelief_keeps
    | with_reducible apply State.modCmd_keeps
    | with_reducible apply State.loadNext_keeps
    | (with_reducible apply Keeps.foldl; intro _ _ _; try dsimp only)
    | split
    | (fail_if_no_progress with_reducible apply Keeps.upd)
    | dsimp only

theorem State.modelLoad_keeps {κ : Kept} {s₀ s : State} (h : Keeps κ s₀ s) (p : Part) (c : Cmd) : Keeps κ s₀ (State.modelLoad s p c) := by
  unfold State.modelLoad
  repeat' first
    | with_reducible assumption
    | with_reducible apply State.loadBillet_keeps
    | with_reducible apply State.done_keeps
    | with_reducible apply State.cmdReadRunning_keeps
    | with_reducible apply State.loadControl_keeps
    | split
    | (fail_if_no_progress with_reducible apply Keeps.upd)
    | dsimp only

theorem State.loadEnd_keeps {κ : Kept} {s₀ s : State} (h : Keeps κ s₀ s) (p : Part) (c : Cmd) (written : Nat) : Keeps κ s₀ (State.loadEnd s p c
    written) := by
  unfold State.loadEnd
  repeat' first
    | with_reducible assumption
    | with_reducible apply State.modPart_keeps
    | with_reducible apply State.done_keeps

theorem execModelLoad_keeps {κ : Kept} {s₀ s t : State} (h : Keeps κ s₀ s) (src : Src) (e : execModelLoad src s = .next t) : Keeps κ s₀ t := by
  unfold execModelLoad at e
  cases e
  repeat' first
    | with_reducible assumption
    | with_reducible apply State.forPart_keeps
    | with_reducible apply State.modelLoad_keeps

theorem execModelLoadDone_keeps {κ : Kept} {s₀ s t : State} (h : Keeps κ s₀ s) (p : Part) (handle : Nat) (e : execModelLoadDone p handle s = .next t)
    : Keeps κ s₀ t := by
  unfold execModelLoadDone at e
  cases e
  repeat' first
    | with_reducible assumption
    | with_reducible apply State.loadEnd_keeps
    | split

end Sys2Proof.Machine
end

