-- ==== Sys2Proof/Laws/SeasonKeeps.lean ====
section
/-! SUPPORT. What the shared operations of Machine/Season.lean keep. -/

namespace Sys2Proof.Machine

theorem State.putEntry_keeps {κ : Kept} {s₀ s : State} (h : Keeps κ s₀ s) (addr : Nat) (fmt : Nat) (padded : Nat) (t : Nat) (codes : List Nat) : Keeps
    κ s₀ (State.putEntry s addr fmt padded t codes) := by
  unfold State.putEntry
  repeat' first
    | with_reducible assumption
    | with_reducible apply State.putBlocks_keeps
    | (with_reducible apply Keeps.foldl; intro _ _ _; try dsimp only)

theorem State.copyPage_keeps {κ : Kept} {s₀ s : State} (h : Keeps κ s₀ s) (p : Part) (handle : Nat) (sh : ShardRec) (src : Nat) (dst : Nat) : Keeps κ
    s₀ (State.copyPage s p handle sh src dst) := by
  unfold State.copyPage
  repeat' first
    | with_reducible assumption
    | with_reducible apply State.copyRange_keeps
    | with_reducible apply State.modPart_keeps
    | with_reducible apply State.putEntry_keeps
    | with_reducible apply State.poisonBlock_keeps
    | (with_reducible apply Keeps.foldl; intro _ _ _; try dsimp only)
    | split

end Sys2Proof.Machine
end

