-- ==== Sys2Proof/Laws/AdmissionKeeps.lean ====
section
/-! SUPPORT. What the shared operations of Machine/Admission.lean keep. -/

namespace Sys2Proof.Machine

theorem State.activate_keeps {κ : Kept} {s₀ s : State} (hk : Keeps κ s₀ s) (p : Part) (h : Nat) {t : State} (e : State.activate s p h = some t) :
    Keeps κ s₀ t := by
  unfold State.activate at e
  dsimp only at e
  repeat' split at e
  all_goals cases e
  repeat' first
    | with_reducible assumption
    | with_reducible apply State.modPart_keeps
    | with_reducible apply State.modReq_keeps
    | with_reducible apply State.copyPage_keeps
    | with_reducible apply State.arrive_keeps
    | (with_reducible apply Keeps.foldl; intro _ _ _; try dsimp only)

theorem State.prefixCopied_keeps {κ : Kept} {s₀ s : State} (hk : Keeps κ s₀ s) (p : Part) (h : Nat) (errs : Errs) : Keeps κ s₀ (State.prefixCopied s p
    h errs) := by
  unfold State.prefixCopied
  repeat' first
    | with_reducible assumption
    | with_reducible apply State.readRange_keeps
    | with_reducible apply State.putBlock_keeps
    | with_reducible apply State.modReq_keeps
    | with_reducible apply State.loseArrived_keeps
    | (with_reducible apply Keeps.foldl; intro _ _ _; try dsimp only)
    | split
    | (fail_if_no_progress with_reducible apply Keeps.upd)
    | dsimp only

theorem execPrefixCopyDone_keeps {κ : Kept} {s₀ s t : State} (h : Keeps κ s₀ s) (p : Part) (request : Nat) (errs : Errs) (e : execPrefixCopyDone p
    request errs s = .next t) : Keeps κ s₀ t := by
  unfold execPrefixCopyDone at e
  cases e
  repeat' first
    | with_reducible assumption
    | with_reducible apply State.prefixCopied_keeps

theorem State.refuse_keeps {κ : Kept} {s₀ s : State} (h : Keeps κ s₀ s) (p : Part) (c : Cmd) (code : Nat) : Keeps κ s₀ (State.refuse s p c code) := by
  unfold State.refuse
  repeat' first
    | with_reducible assumption
    | with_reducible apply State.modPart_keeps
    | with_reducible apply State.done_keeps

theorem State.admission_keeps {κ : Kept} {s₀ s : State} (hk : Keeps κ s₀ s) (p : Part) (c : Cmd) (h : Nat) (sampling : Sampling) (toks : List Nat) :
    Keeps κ s₀ (State.admission s p c h sampling toks) := by
  unfold State.admission
  repeat' first
    | with_reducible assumption
    | with_reducible apply State.refuse_keeps
    | with_reducible apply State.modPart_keeps
    | (with_reducible apply State.activate_keeps; rotate_left; with_reducible assumption)
    | with_reducible apply State.toReq_keeps
    | with_reducible apply State.done_keeps
    | with_reducible apply State.tellQueued_keeps
    | split
    | (fail_if_no_progress with_reducible apply Keeps.upd)
    | dsimp only

theorem State.reqOpen_keeps {κ : Kept} {s₀ s : State} (h : Keeps κ s₀ s) (p : Part) (c : Cmd) : Keeps κ s₀ (State.reqOpen s p c) := by
  unfold State.reqOpen
  repeat' first
    | with_reducible assumption
    | with_reducible apply State.done_keeps
    | with_reducible apply State.cmdRead_keeps
    | with_reducible apply State.refuse_keeps
    | with_reducible apply State.admission_keeps
    | split
    | (fail_if_no_progress with_reducible apply Keeps.upd)
    | dsimp only

theorem State.named_keeps {κ : Kept} {s₀ s : State} (h : Keeps κ s₀ s) (p : Part) (c : Cmd) (body : Nat → Req → State)
    (hb : ∀ n r, Keeps κ s₀ (body n r)) : Keeps κ s₀ (s.named p c body) := by
  unfold State.named
  repeat' first
    | with_reducible assumption
    | with_reducible apply hb
    | with_reducible apply State.done_keeps
    | split
    | dsimp only

theorem State.appendTokens_keeps {κ : Kept} {s₀ s : State} (hk : Keeps κ s₀ s) (p : Part) (c : Cmd) (h : Nat) (r : Req) (toks : List Nat) : Keeps κ s₀
    (State.appendTokens s p c h r toks) := by
  unfold State.appendTokens
  repeat' first
    | with_reducible assumption
    | with_reducible apply State.done_keeps
    | with_reducible apply State.modPart_keeps
    | with_reducible apply State.modReq_keeps
    | split

theorem State.reqAppend_keeps {κ : Kept} {s₀ s : State} (h : Keeps κ s₀ s) (p : Part) (c : Cmd) : Keeps κ s₀ (State.reqAppend s p c) := by
  unfold State.reqAppend
  repeat' first
    | with_reducible assumption
    | with_reducible apply State.named_keeps
    | with_reducible apply State.done_keeps
    | with_reducible apply State.cmdRead_keeps
    | with_reducible apply State.appendTokens_keeps
    | with_reducible apply State.modReq_keeps
    | intro _
    | split
    | (fail_if_no_progress with_reducible apply Keeps.upd)
    | dsimp only

theorem State.waitEnd_keeps {κ : Kept} {s₀ s : State} (h : Keeps κ s₀ s) (p : Part) (c : Cmd) : Keeps κ s₀ (State.waitEnd s p c) := by
  unfold State.waitEnd
  repeat' first
    | with_reducible assumption
    | with_reducible apply State.modCmd_keeps

theorem State.reqClose_keeps {κ : Kept} {s₀ s : State} (h : Keeps κ s₀ s) (p : Part) (c : Cmd) : Keeps κ s₀ (State.reqClose s p c) := by
  unfold State.reqClose
  repeat' first
    | with_reducible assumption
    | with_reducible apply State.done_keeps
    | with_reducible apply State.named_keeps
    | with_reducible apply State.modPart_keeps
    | with_reducible apply State.waitEnd_keeps
    | with_reducible apply State.endOnly_keeps
    | with_reducible apply State.modReq_keeps
    | intro _
    | split

theorem State.reqPark_keeps {κ : Kept} {s₀ s : State} (h : Keeps κ s₀ s) (p : Part) (c : Cmd) : Keeps κ s₀ (State.reqPark s p c) := by
  unfold State.reqPark
  repeat' first
    | with_reducible assumption
    | with_reducible apply State.done_keeps
    | with_reducible apply State.named_keeps
    | with_reducible apply State.modReq_keeps
    | with_reducible apply State.modPart_keeps
    | with_reducible apply State.spillPolicy_keeps
    | intro _
    | split

theorem State.pageReserve_keeps {κ : Kept} {s₀ s : State} (h : Keeps κ s₀ s) (p : Part) (c : Cmd) : Keeps κ s₀ (State.pageReserve s p c) := by
  unfold State.pageReserve
  repeat' first
    | with_reducible assumption
    | with_reducible apply State.named_keeps
    | with_reducible apply State.modPart_keeps
    | with_reducible apply State.modReq_keeps
    | with_reducible apply State.done_keeps
    | intro _
    | split
    | (fail_if_no_progress with_reducible apply Keeps.upd)
    | dsimp only

theorem State.indexInsert_keeps {κ : Kept} {s₀ s : State} (h : Keeps κ s₀ s) (p : Part) (c : Cmd) : Keeps κ s₀ (State.indexInsert s p c) := by
  unfold State.indexInsert
  repeat' first
    | with_reducible assumption
    | with_reducible apply State.named_keeps
    | with_reducible apply State.done_keeps
    | with_reducible apply State.modPart_keeps
    | with_reducible apply State.copyPage_keeps
    | with_reducible apply State.modCmd_keeps
    | (with_reducible apply Keeps.foldl; intro _ _ _; try dsimp only)
    | intro _
    | split
    | (fail_if_no_progress with_reducible apply Keeps.upd)
    | dsimp only

theorem execIndexCopyDone_keeps {κ : Kept} {s₀ s t : State} (h : Keeps κ s₀ s) (p : Part) (e : execIndexCopyDone p s = .next t) : Keeps κ s₀ t := by
  unfold execIndexCopyDone at e
  cases e
  repeat' first
    | with_reducible assumption
    | with_reducible apply State.done_keeps
    | split

theorem State.indexRemove_keeps {κ : Kept} {s₀ s : State} (h : Keeps κ s₀ s) (p : Part) (c : Cmd) : Keeps κ s₀ (State.indexRemove s p c) := by
  unfold State.indexRemove
  repeat' first
    | with_reducible assumption
    | with_reducible apply State.done_keeps
    | with_reducible apply State.modPart_keeps
    | with_reducible apply State.cmdRead_keeps
    | split
    | (fail_if_no_progress with_reducible apply Keeps.upd)
    | dsimp only

theorem State.await_keeps {κ : Kept} {s₀ s : State} (h : Keeps κ s₀ s) (p : Part) (c : Cmd) : Keeps κ s₀ (State.await s p c) := by
  unfold State.await
  repeat' first
    | with_reducible assumption
    | with_reducible apply State.cmdRead_keeps
    | with_reducible apply State.modCmd_keeps
    | split

theorem State.modelUnload_keeps {κ : Kept} {s₀ s : State} (h : Keeps κ s₀ s) (p : Part) (c : Cmd) : Keeps κ s₀ (State.modelUnload s p c) := by
  unfold State.modelUnload
  repeat' first
    | with_reducible assumption
    | with_reducible apply State.done_keeps
    | with_reducible apply State.waitEnd_keeps
    | with_reducible apply State.endOnly_keeps
    | with_reducible apply State.settle_keeps
    | (with_reducible apply Keeps.foldl; intro _ _ _; try dsimp only)
    | split
    | (fail_if_no_progress with_reducible apply Keeps.upd)
    | dsimp only

theorem State.deadline_keeps {κ : Kept} {s₀ s : State} (hk : Keeps κ s₀ s) (p : Part) (h : Nat) : Keeps κ s₀ (State.deadline s p h) := by
  unfold State.deadline
  repeat' first
    | with_reducible assumption
    | with_reducible apply State.toReq_keeps
    | with_reducible apply State.modReq_keeps
    | with_reducible apply State.endOnly_keeps
    | split

theorem execDeadlineReached_keeps {κ : Kept} {s₀ s t : State} (h : Keeps κ s₀ s) (p : Part) (request : Nat) (e : execDeadlineReached p request s =
    .next t) : Keeps κ s₀ t := by
  unfold execDeadlineReached at e
  cases e
  repeat' first
    | with_reducible assumption
    | with_reducible apply State.deadline_keeps
    | with_reducible apply State.ringTo_keeps
    | split

theorem execEndOnlyRecord_keeps {κ : Kept} {s₀ s t : State} (h : Keeps κ s₀ s) (p : Part) (request : Nat) (e : execEndOnlyRecord p request s = .next
    t) : Keeps κ s₀ t := by
  unfold execEndOnlyRecord at e
  cases e
  repeat' first
    | with_reducible assumption
    | with_reducible apply State.endOnly_keeps
    | split

end Sys2Proof.Machine
end

