-- ==== Sys2Proof/Laws/PeatKeeps.lean ====
section
/-! SUPPORT. What the shared operations of Machine/Peat.lean keep. -/

namespace Sys2Proof.Machine

theorem State.countChunk_keeps {κ : Kept} {s₀ s : State} (h : Keeps κ s₀ s) (p : Part) (c : Nat) (o : Outcome) : Keeps κ s₀ (State.countChunk s p c o)
    := by
  unfold State.countChunk
  repeat' first
    | with_reducible assumption
    | with_reducible apply State.count_keeps
    | with_reducible apply State.putChunk_keeps
    | with_reducible apply State.corrected_keeps
    | with_reducible apply State.uncorrectable_keeps
    | with_reducible apply State.countDeferred_keeps
    | with_reducible apply State.toLadder_keeps
    | split
    | (fail_if_no_progress with_reducible apply Keeps.upd)
    | dsimp only

theorem State.countChunks_keeps {κ : Kept} {s₀ s : State} (h : Keeps κ s₀ s) (p : Part) (c : Nat) (n : Nat) (errs : Errs) : Keeps κ s₀
    (State.countChunks s p c n errs) := by
  unfold State.countChunks
  repeat' first
    | with_reducible assumption
    | with_reducible apply State.countChunk_keeps
    | (with_reducible apply Keeps.foldl; intro _ _ _; try dsimp only)
    | split

theorem execPeatRead_keeps {κ : Kept} {s₀ s t : State} (h : Keeps κ s₀ s) (p : Part) (chunk : Nat) (outcome : Outcome) (e : execPeatRead p chunk
    outcome s = .next t) : Keeps κ s₀ t := by
  unfold execPeatRead at e
  cases e
  repeat' first
    | with_reducible assumption
    | with_reducible apply State.countChunk_keeps
    | with_reducible apply State.uncorrectable_keeps
    | with_reducible apply State.send_keeps
    | with_reducible apply State.fenceViolation_keeps
    | split

theorem execPeatScrubRead_keeps {κ : Kept} {s₀ s t : State} (h : Keeps κ s₀ s) (chunk : Nat) (outcome : Outcome) (e : execPeatScrubRead chunk outcome
    s = .next t) : Keeps κ s₀ t := by
  unfold execPeatScrubRead at e
  cases e
  repeat' first
    | with_reducible assumption
    | with_reducible apply State.uncorrectable_keeps
    | with_reducible apply State.putChunk_keeps
    | split
    | (fail_if_no_progress with_reducible apply Keeps.upd)

theorem State.noteStreams_keeps {κ : Kept} {s₀ s : State} (h : Keeps κ s₀ s) (p : Part) : Keeps κ s₀ (State.noteStreams s p) := by
  unfold State.noteStreams
  repeat' first
    | with_reducible assumption
    | with_reducible apply State.arrive_keeps
    | (with_reducible apply Keeps.foldl; intro _ _ _; try dsimp only)
    | split
    | (fail_if_no_progress with_reducible apply Keeps.upd)

theorem State.promote_keeps {κ : Kept} {s₀ s : State} (h : Keeps κ s₀ s) (pl : XferAt) (arb : W32) (queue : List (Transfer × Nat)) (index : Nat) :
    Keeps κ s₀ (State.promote s pl arb queue index) := by
  unfold State.promote
  repeat' first
    | with_reducible assumption
    | with_reducible apply State.passTo_keeps
    | split
    | (fail_if_no_progress with_reducible apply Keeps.upd)

theorem execPeatArbAgePromote_keeps {κ : Kept} {s₀ s t : State} (h : Keeps κ s₀ s) (channel : Fin 512) (index : Nat) (e : execPeatArbAgePromote
    channel index s = .next t) : Keeps κ s₀ t := by
  unfold execPeatArbAgePromote at e
  cases e
  repeat' first
    | with_reducible assumption
    | with_reducible apply State.promote_keeps

theorem execArbAgePromote_keeps {κ : Kept} {s₀ s t : State} (h : Keeps κ s₀ s) (die : DieId) (index : Nat) (e : execArbAgePromote die index s = .next
    t) : Keeps κ s₀ t := by
  unfold execArbAgePromote at e
  cases e
  repeat' first
    | with_reducible assumption
    | with_reducible apply State.promote_keeps
    | with_reducible apply State.passTo_keeps
    | split
    | (fail_if_no_progress with_reducible apply Keeps.upd)

theorem State.repaired_keeps {κ : Kept} {s₀ s : State} (h : Keeps κ s₀ s) (r : Repair) (how : Nat) : Keeps κ s₀ (State.repaired s r how) := by
  unfold State.repaired
  repeat' first
    | with_reducible assumption
    | with_reducible apply State.modRepairs_keeps
    | with_reducible apply State.toConcerned_keeps
    | with_reducible apply State.sweep_keeps

theorem execRefetchDone_keeps {κ : Kept} {s₀ s t : State} (h : Keeps κ s₀ s) (p : Part) (handle : Nat) (region : Nat) (billet : Nat) (errs : Errs) (e
    : execRefetchDone p handle region billet errs s = .next t) : Keeps κ s₀ t := by
  unfold execRefetchDone at e
  cases e
  repeat' first
    | with_reducible assumption
    | with_reducible apply State.countChunks_keeps
    | with_reducible apply State.refetchBillet_keeps
    | with_reducible apply State.repaired_keeps
    | with_reducible apply State.sourceLost_keeps
    | with_reducible apply State.sweep_keeps
    | with_reducible apply Keeps.fst (by assumption)
    | with_reducible apply Keeps.snd (by assumption)
    | split
    | (fail_if_no_progress with_reducible apply Keeps.upd)
    | dsimp only

theorem State.supplyFault_keeps {κ : Kept} {s₀ s : State} (hk : Keeps κ s₀ s) (q : Part) (handle : Nat) (region : Nat) (billet : Nat) (h : Nat) :
    Keeps κ s₀ (State.supplyFault s q handle region billet h) := by
  unfold State.supplyFault
  repeat' first
    | with_reducible assumption
    | with_reducible apply State.faultOut_keeps
    | split

theorem execSupplyTimeout_keeps {κ : Kept} {s₀ s t : State} (h : Keeps κ s₀ s) (p : Part) (handle : Nat) (region : Nat) (billet : Nat) (e :
    execSupplyTimeout p handle region billet s = .next t) : Keeps κ s₀ t := by
  unfold execSupplyTimeout at e
  cases e
  repeat' first
    | with_reducible assumption
    | with_reducible apply State.passTo_keeps
    | with_reducible apply State.modRepair_keeps
    | with_reducible apply State.supplyFault_keeps
    | (with_reducible apply Keeps.foldl; intro _ _ _; try dsimp only)
    | split

theorem State.writeSupply_keeps {κ : Kept} {s₀ s : State} (h : Keeps κ s₀ s) (p : Part) (m : Model) (region : Nat) (billet : Nat) (bytes : List Byte)
    : Keeps κ s₀ (State.writeSupply s p m region billet bytes) := by
  unfold State.writeSupply
  repeat' first
    | with_reducible assumption
    | with_reducible apply State.fencedPeat_keeps
    | with_reducible apply State.fencedPut_keeps
    | split
    | (fail_if_no_progress with_reducible apply Keeps.upd)
    | dsimp only

theorem State.supplyBytes_keeps {κ : Kept} {s₀ s : State} (h : Keeps κ s₀ s) (src : Src) (c : Cmd) (part : Option Part) (bytes : List Byte) : Keeps κ
    s₀ (State.supplyBytes s src c part bytes) := by
  unfold State.supplyBytes
  repeat' first
    | with_reducible assumption
    | with_reducible apply State.done_keeps
    | with_reducible apply State.writeSupply_keeps
    | with_reducible apply State.repaired_keeps
    | split
    | (fail_if_no_progress with_reducible apply Keeps.upd)
    | dsimp only

theorem State.billetSupply_keeps {κ : Kept} {s₀ s : State} (h : Keeps κ s₀ s) (src : Src) (c : Cmd) : Keeps κ s₀ (State.billetSupply s src c) := by
  unfold State.billetSupply
  repeat' first
    | with_reducible assumption
    | with_reducible apply State.done_keeps
    | with_reducible apply State.supplyBytes_keeps
    | with_reducible apply State.cmdRead_keeps
    | split
    | (fail_if_no_progress with_reducible apply Keeps.upd)
    | dsimp only

theorem execBilletSupply_keeps {κ : Kept} {s₀ s t : State} (h : Keeps κ s₀ s) (src : Src) (e : execBilletSupply src s = .next t) : Keeps κ s₀ t := by
  unfold execBilletSupply at e
  cases e
  repeat' first
    | with_reducible assumption
    | with_reducible apply State.billetSupply_keeps
    | split

theorem execPeatMarginHold_keeps {κ : Kept} {s₀ s t : State} (h : Keeps κ s₀ s) (port : Port) (e : execPeatMarginHold port s = .next t) : Keeps κ s₀ t
    := by
  unfold execPeatMarginHold at e
  cases e
  repeat' first
    | with_reducible assumption
    | split
    | (fail_if_no_progress with_reducible apply Keeps.upd)

theorem execPeatMarginRelease_keeps {κ : Kept} {s₀ s t : State} (h : Keeps κ s₀ s) (port : Port) (e : execPeatMarginRelease port s = .next t) : Keeps
    κ s₀ t := by
  unfold execPeatMarginRelease at e
  cases e
  repeat' first
    | with_reducible assumption
    | split
    | (fail_if_no_progress with_reducible apply Keeps.upd)

theorem execPeatMarginRun_keeps {κ : Kept} {s₀ s t : State} (h : Keeps κ s₀ s) (port : Port) (logTransfers : BitVec 5) (e : execPeatMarginRun port
    logTransfers s = .next t) : Keeps κ s₀ t := by
  unfold execPeatMarginRun at e
  cases e
  repeat' first
    | with_reducible assumption
    | with_reducible apply State.start_keeps
    | split
    | (fail_if_no_progress with_reducible apply Keeps.upd)

theorem execPeatMarginDone_keeps {κ : Kept} {s₀ s t : State} (h : Keeps κ s₀ s) (errors : Nat) (firstLane : Option (Fin 18)) (e : execPeatMarginDone
    errors firstLane s = .next t) : Keeps κ s₀ t := by
  unfold execPeatMarginDone at e
  cases e
  repeat' first
    | with_reducible assumption
    | with_reducible apply State.toOwner_keeps
    | split
    | (fail_if_no_progress with_reducible apply Keeps.upd)

theorem State.afterCopy_keeps {κ : Kept} {s₀ s : State} (h : Keeps κ s₀ s) (p : Part) (handle : Nat) (page : Nat) : Keeps κ s₀ (State.afterCopy s p
    handle page) := by
  unfold State.afterCopy
  repeat' first
    | with_reducible assumption
    | with_reducible apply State.releaseOrphan_keeps
    | with_reducible apply State.pumpFetches_keeps
    | with_reducible apply State.placeReliefs_keeps
    | with_reducible apply State.sweep_keeps

theorem execSpillDone_keeps {κ : Kept} {s₀ s t : State} (h : Keeps κ s₀ s) (p : Part) (handle : Nat) (page : Nat) (errs : Errs) (e : execSpillDone p
    handle page errs s = .next t) : Keeps κ s₀ t := by
  unfold execSpillDone at e
  cases e
  repeat' first
    | with_reducible assumption
    | with_reducible apply State.readRange_keeps
    | with_reducible apply State.fencedSpill_keeps
    | with_reducible apply State.modPart_keeps
    | with_reducible apply State.checkSpilled_keeps
    | with_reducible apply State.afterCopy_keeps
    | split
    | (fail_if_no_progress with_reducible apply Keeps.upd)
    | dsimp only

theorem State.fetchedOne_keeps {κ : Kept} {s₀ s : State} (h : Keeps κ s₀ s) (p : Part) (handle : Nat) (page : Nat) : Keeps κ s₀ (State.fetchedOne s p
    handle page) := by
  unfold State.fetchedOne
  repeat' first
    | with_reducible assumption
    | with_reducible apply State.modReq_keeps
    | split

theorem execFetchDone_keeps {κ : Kept} {s₀ s t : State} (h : Keeps κ s₀ s) (p : Part) (handle : Nat) (page : Nat) (errs : Errs) (e : execFetchDone p
    handle page errs s = .next t) : Keeps κ s₀ t := by
  unfold execFetchDone at e
  cases e
  repeat' first
    | with_reducible assumption
    | with_reducible apply State.countChunks_keeps
    | with_reducible apply State.fencedFetch_keeps
    | with_reducible apply State.modPart_keeps
    | with_reducible apply State.loseArrived_keeps
    | with_reducible apply State.fetchedOne_keeps
    | with_reducible apply State.afterCopy_keeps
    | split
    | (fail_if_no_progress with_reducible apply Keeps.upd)
    | dsimp only

end Sys2Proof.Machine
end

