-- ==== Sys2Proof/Laws/SlotsKeeps.lean ====
section
/-! SUPPORT. What the shared operations of Machine/Slots.lean keep. -/

namespace Sys2Proof.Machine

theorem execSlotBoundary_keeps {κ : Kept} {s₀ s t : State} (h : Keeps κ s₀ s) (slot : Nat) (e : execSlotBoundary slot s = .next t) : Keeps κ s₀ t :=
    by
  unfold execSlotBoundary at e
  cases e
  repeat' first
    | with_reducible assumption
    | with_reducible apply State.ringTo_keeps
    | with_reducible apply State.endSlot_keeps
    | split
    | (fail_if_no_progress with_reducible apply Keeps.upd)
    | dsimp only

theorem execSlotZeroiseDone_keeps {κ : Kept} {s₀ s t : State} (h : Keeps κ s₀ s) (slot : Nat) (e : execSlotZeroiseDone slot s = .next t) : Keeps κ s₀
    t := by
  unfold execSlotZeroiseDone at e
  cases e
  repeat' first
    | with_reducible assumption
    | with_reducible apply State.beginSlot_keeps
    | split

end Sys2Proof.Machine
end

