-- ==== Sys2Proof/Laws/BoundaryKeeps.lean ====
section
/-! SUPPORT. What the shared operations of Machine/Boundary.lean keep. -/

namespace Sys2Proof.Machine

theorem State.atBoundaryCmd_keeps {κ : Kept} {s₀ s : State} (h : Keeps κ s₀ s) (p : Part) (c : Cmd) : Keeps κ s₀ (State.atBoundaryCmd s p c) := by
  unfold State.atBoundaryCmd
  repeat' first
    | with_reducible assumption
    | with_reducible apply State.reqOpen_keeps
    | with_reducible apply State.reqAppend_keeps
    | with_reducible apply State.reqClose_keeps
    | with_reducible apply State.reqPark_keeps
    | with_reducible apply State.modelUnload_keeps
    | with_reducible apply State.pageReserve_keeps
    | with_reducible apply State.indexInsert_keeps
    | with_reducible apply State.indexRemove_keeps
    | split

theorem State.runBoundary_keeps {κ : Kept} {s₀ s : State} (h : Keeps κ s₀ s) (p : Part) : Keeps κ s₀ (State.runBoundary s p) := by
  unfold State.runBoundary
  repeat' first
    | with_reducible assumption
    | with_reducible apply State.atBoundaryCmd_keeps
    | (with_reducible apply Keeps.foldl; intro _ _ _; try dsimp only)
    | split

theorem State.boundaryCmd_keeps {κ : Kept} {s₀ s : State} (h : Keeps κ s₀ s) (src : Src) (opcode : Nat) : Keeps κ s₀ (State.boundaryCmd s src opcode)
    := by
  unfold State.boundaryCmd
  repeat' first
    | with_reducible assumption
    | with_reducible apply State.forPart_keeps
    | with_reducible apply State.atBoundaryCmd_keeps
    | with_reducible apply State.runBoundary_keeps
    | with_reducible apply State.await_keeps
    | intro _
    | split

theorem execReqOpen_keeps {κ : Kept} {s₀ s t : State} (h : Keeps κ s₀ s) (src : Src) (e : execReqOpen src s = .next t) : Keeps κ s₀ t := by
  unfold execReqOpen at e
  cases e
  repeat' first
    | with_reducible assumption
    | with_reducible apply State.boundaryCmd_keeps

theorem execReqAppend_keeps {κ : Kept} {s₀ s t : State} (h : Keeps κ s₀ s) (src : Src) (e : execReqAppend src s = .next t) : Keeps κ s₀ t := by
  unfold execReqAppend at e
  cases e
  repeat' first
    | with_reducible assumption
    | with_reducible apply State.boundaryCmd_keeps

theorem execReqClose_keeps {κ : Kept} {s₀ s t : State} (h : Keeps κ s₀ s) (src : Src) (e : execReqClose src s = .next t) : Keeps κ s₀ t := by
  unfold execReqClose at e
  cases e
  repeat' first
    | with_reducible assumption
    | with_reducible apply State.boundaryCmd_keeps

theorem execReqPark_keeps {κ : Kept} {s₀ s t : State} (h : Keeps κ s₀ s) (src : Src) (e : execReqPark src s = .next t) : Keeps κ s₀ t := by
  unfold execReqPark at e
  cases e
  repeat' first
    | with_reducible assumption
    | with_reducible apply State.boundaryCmd_keeps

theorem execPageReserve_keeps {κ : Kept} {s₀ s t : State} (h : Keeps κ s₀ s) (src : Src) (e : execPageReserve src s = .next t) : Keeps κ s₀ t := by
  unfold execPageReserve at e
  cases e
  repeat' first
    | with_reducible assumption
    | with_reducible apply State.boundaryCmd_keeps

theorem execIndexInsert_keeps {κ : Kept} {s₀ s t : State} (h : Keeps κ s₀ s) (src : Src) (e : execIndexInsert src s = .next t) : Keeps κ s₀ t := by
  unfold execIndexInsert at e
  cases e
  repeat' first
    | with_reducible assumption
    | with_reducible apply State.boundaryCmd_keeps

theorem execIndexRemove_keeps {κ : Kept} {s₀ s t : State} (h : Keeps κ s₀ s) (src : Src) (e : execIndexRemove src s = .next t) : Keeps κ s₀ t := by
  unfold execIndexRemove at e
  cases e
  repeat' first
    | with_reducible assumption
    | with_reducible apply State.boundaryCmd_keeps

theorem execModelUnload_keeps {κ : Kept} {s₀ s t : State} (h : Keeps κ s₀ s) (src : Src) (e : execModelUnload src s = .next t) : Keeps κ s₀ t := by
  unfold execModelUnload at e
  cases e
  repeat' first
    | with_reducible assumption
    | with_reducible apply State.boundaryCmd_keeps

theorem State.dropLostNodes_keeps {κ : Kept} {s₀ s : State} (h : Keeps κ s₀ s) (p : Part) : Keeps κ s₀ (State.dropLostNodes s p) := by
  unfold State.dropLostNodes
  repeat' first
    | with_reducible assumption
    | with_reducible apply State.modPart_keeps
    | with_reducible apply State.count_keeps
    | (with_reducible apply Keeps.foldl; intro _ _ _; try dsimp only)
    | split

theorem State.clearLost_keeps {κ : Kept} {s₀ s : State} (hk : Keeps κ s₀ s) (p : Part) (h : Nat) : Keeps κ s₀ (State.clearLost s p h) := by
  unfold State.clearLost
  repeat' first
    | with_reducible assumption
    | with_reducible apply State.modPart_keeps

theorem State.lossOutcome_keeps {κ : Kept} {s₀ s : State} (hk : Keeps κ s₀ s) (p : Part) (h : Nat) : Keeps κ s₀ (State.lossOutcome s p h) := by
  unfold State.lossOutcome
  repeat' first
    | with_reducible assumption
    | with_reducible apply State.clearLost_keeps
    | with_reducible apply State.modReq_keeps
    | with_reducible apply State.endReq_keeps
    | with_reducible apply State.settle_keeps
    | with_reducible apply State.rewind_keeps
    | with_reducible apply State.countDeferred_keeps
    | with_reducible apply State.faultOut_keeps
    | split

theorem State.takeOutcomes_keeps {κ : Kept} {s₀ s : State} (h : Keeps κ s₀ s) (p : Part) : Keeps κ s₀ (State.takeOutcomes s p) := by
  unfold State.takeOutcomes
  repeat' first
    | with_reducible assumption
    | with_reducible apply State.lossOutcome_keeps
    | with_reducible apply State.rewind_keeps
    | (with_reducible apply Keeps.foldl; intro _ _ _; try dsimp only)
    | split

theorem State.spillWhole_keeps {κ : Kept} {s₀ s : State} (h : Keeps κ s₀ s) (p : Part) (hd : Nat) {t : State}
    (e : s.spillWhole p hd = some t) : Keeps κ s₀ t := by
  have go : ∀ (l : List (Nat × Nat)) (o : Option State), (∀ u, o = some u → Keeps κ s₀ u) →
      ∀ u, l.foldl (fun acc x => acc.bind fun s => s.startSpill p x.1 x.2) o = some u → Keeps κ s₀ u := by
    intro l
    induction l with
    | nil => exact fun o ho => ho
    | cons x l ih =>
      intro o ho
      refine ih _ fun u hu => ?_
      obtain ⟨v, hv, hu⟩ := Option.bind_eq_some_iff.1 hu
      exact State.startSpill_keeps (ho v hv) _ _ _ hu
  unfold State.spillWhole at e
  split at e
  · cases e
  · split at e
    · exact go _ _ (fun u hu => by injection hu with hu; exact hu ▸ h) t e
    · cases e

theorem State.preempt_keeps {κ : Kept} {s₀ s : State} (h : Keeps κ s₀ s) (p : Part) (waiter victim : Nat) :
    Keeps κ s₀ (s.preempt p waiter victim) := by
  unfold State.preempt
  dsimp only
  split
  · next e =>
    split at e
    · exact State.checkSpilled_keeps (State.spillWhole_keeps h _ _ e) _ _
    · cases e
  · split
    · exact State.modPart_keeps (State.evict_keeps h _ _ _) _ _
    · exact State.modPart_keeps h _ _

theorem State.spillFor_keeps {κ : Kept} {s₀ s : State} (hk : Keeps κ s₀ s) (p : Part) (h : Nat) (n : Nat) (x0 : List (Nat × Nat)) : Keeps κ s₀
    (State.spillFor s p h n x0) := by
  induction x0 generalizing s p h n with
  | nil => exact hk
  | cons y l ih =>
    unfold State.spillFor
    repeat' first
      | with_reducible assumption
      | with_reducible apply State.tellFull_keeps
      | with_reducible apply ih
      | (with_reducible apply State.startSpill_keeps; rotate_left; assumption)
      | split

theorem State.chooseVictims_keeps {κ : Kept} {s₀ s : State} (hk : Keeps κ s₀ s) (p : Part) (h : Nat) (n : Nat) (x0 : List (Nat × Req)) : Keeps κ s₀
    (State.chooseVictims s p h n x0) := by
  induction x0 generalizing s p h n with
  | nil => exact hk
  | cons y l ih =>
    unfold State.chooseVictims
    repeat' first
      | with_reducible assumption
      | with_reducible apply State.modPart_keeps
      | with_reducible apply State.preempt_keeps
      | with_reducible apply ih
      | split

theorem State.helpWaiter_keeps {κ : Kept} {s₀ s : State} (hk : Keeps κ s₀ s) (p : Part) (h : Nat) (n : Nat) : Keeps κ s₀ (State.helpWaiter s p h n) :=
    by
  unfold State.helpWaiter
  repeat' first
    | with_reducible assumption
    | with_reducible apply State.spillFor_keeps
    | with_reducible apply State.chooseVictims_keeps
    | split
    | (fail_if_no_progress with_reducible apply Keeps.upd)
    | dsimp only

theorem State.enterWait_keeps {κ : Kept} {s₀ s : State} (hk : Keeps κ s₀ s) (p : Part) (h : Nat) (lack : List Nat) : Keeps κ s₀ (State.enterWait s p h
    lack) := by
  unfold State.enterWait
  repeat' first
    | with_reducible assumption
    | with_reducible apply State.modPart_keeps
    | with_reducible apply State.modReq_keeps
    | with_reducible apply State.toReq_keeps
    | split

end Sys2Proof.Machine
end

