-- ==== Sys2Proof/Laws/FormKeeps.lean ====
section
/-! SUPPORT. What the shared operations of Machine/Form.lean keep. -/

namespace Sys2Proof.Machine

theorem State.readRings_keeps {κ : Kept} {s₀ s : State} (h : Keeps κ s₀ s) (p : Part) : Keeps κ s₀ (State.readRings s p) := by
  unfold State.readRings
  repeat' first
    | with_reducible assumption
    | with_reducible apply State.readConsumed_keeps
    | (with_reducible apply Keeps.foldl; intro _ _ _; try dsimp only)
    | split

theorem State.sitOutRing_keeps {κ : Kept} {s₀ s : State} (hk : Keeps κ s₀ s) (p : Part) (h : Nat) (r : Req) : Keeps κ s₀ (State.sitOutRing s p h r) :=
    by
  unfold State.sitOutRing
  repeat' first
    | with_reducible assumption
    | with_reducible apply State.modPart_keeps
    | with_reducible apply State.toReq_keeps
    | with_reducible apply State.modReq_keeps
    | split

theorem State.sitOutWeights_keeps {κ : Kept} {s₀ s : State} (hk : Keeps κ s₀ s) (p : Part) (h : Nat) (r : Req) (x : Repair) : Keeps κ s₀
    (State.sitOutWeights s p h r x) := by
  unfold State.sitOutWeights
  repeat' first
    | with_reducible assumption
    | with_reducible apply State.toReq_keeps
    | with_reducible apply State.modReq_keeps
    | split

theorem State.sitOutNarrow_keeps {κ : Kept} {s₀ s : State} (hk : Keeps κ s₀ s) (p : Part) (h : Nat) (l : List (Nat × Nat × Nat × ShardRec × PageDesc))
    : Keeps κ s₀ (State.sitOutNarrow s p h l) := by
  unfold State.sitOutNarrow
  repeat' first
    | with_reducible assumption
    | with_reducible apply State.markPage_keeps
    | with_reducible apply State.toReq_keeps
    | (with_reducible apply Keeps.foldl; intro _ _ _; try dsimp only)
    | split

theorem State.sitOutLate_keeps {κ : Kept} {s₀ s : State} (hk : Keeps κ s₀ s) (p : Part) (h : Nat) : Keeps κ s₀ (State.sitOutLate s p h) := by
  unfold State.sitOutLate
  repeat' first
    | with_reducible assumption
    | with_reducible apply State.modPart_keeps
    | with_reducible apply State.toReq_keeps
    | split

theorem State.addPick_keeps {κ : Kept} {s₀ s : State} (h : Keeps κ s₀ s) (p : Part) (x : Pick) : Keeps κ s₀ (State.addPick s p x) := by
  unfold State.addPick
  repeat' first
    | with_reducible assumption
    | with_reducible apply State.modPart_keeps

theorem State.addCand_keeps {κ : Kept} {s₀ s : State} (hk : Keeps κ s₀ s) (p : Part) (h : Nat) : Keeps κ s₀ (State.addCand s p h) := by
  unfold State.addCand
  repeat' first
    | with_reducible assumption
    | with_reducible apply State.modPart_keeps

theorem State.ready_keeps {κ : Kept} {s₀ s : State} (hk : Keeps κ s₀ s) (p : Part) (h : Nat) (r : Req) : Keeps κ s₀ (State.ready? s p h r).2 := by
  unfold State.ready?
  repeat' first
    | with_reducible assumption
    | with_reducible apply State.supplyFault_keeps
    | with_reducible apply State.sitOutWeights_keeps
    | with_reducible apply State.sitOutRing_keeps
    | with_reducible apply State.sitOutNarrow_keeps
    | split
    | (fail_if_no_progress with_reducible apply Keeps.upd)
    | dsimp only

theorem State.walkFor_keeps {κ : Kept} {s₀ s : State} (hk : Keeps κ s₀ s) (p : Part) (h : Nat) (n : Nat) : Keeps κ s₀ (State.walkFor s p h n).2 := by
  unfold State.walkFor
  repeat' first
    | with_reducible assumption
    | with_reducible apply State.modPart_keeps
    | with_reducible apply State.modReq_keeps
    | with_reducible apply State.enterWait_keeps
    | split

theorem State.takeReq_keeps {κ : Kept} {s₀ s : State} (hk : Keeps κ s₀ s) (p : Part) (mode : Mode) (h : Nat) (r : Req) (n : Nat) (x : Pick) : Keeps κ
    s₀ (State.takeReq s p mode h r n x).2 := by
  unfold State.takeReq
  repeat' first
    | with_reducible assumption
    | with_reducible apply State.wantPages_keeps
    | with_reducible apply State.sitOutLate_keeps
    | with_reducible apply State.walkFor_keeps
    | with_reducible apply State.modPart_keeps
    | with_reducible apply State.addPick_keeps
    | with_reducible apply Keeps.fst (by assumption)
    | with_reducible apply Keeps.snd (by assumption)
    | split
    | (fail_if_no_progress with_reducible apply Keeps.upd)
    | dsimp only

theorem Choice.decode_keeps {κ : Kept} {s₀ : State} {c : Choice} (h : Keeps κ s₀ c.s) (p : Part) (mode : Mode) (hd : Nat) :
    Keeps κ s₀ (c.decode p mode hd).s := by
  unfold Choice.decode
  repeat' first
    | with_reducible assumption
    | with_reducible apply State.ready_keeps
    | with_reducible apply State.takeReq_keeps
    | with_reducible apply Keeps.snd (by assumption)
    | split
    | dsimp only

theorem Choice.prompt_keeps {κ : Kept} {s₀ : State} {c : Choice} (h : Keeps κ s₀ c.s) (p : Part) (mode : Mode) (hd : Nat) :
    Keeps κ s₀ (c.prompt p mode hd).s := by
  unfold Choice.prompt
  repeat' first
    | with_reducible assumption
    | with_reducible apply State.ready_keeps
    | with_reducible apply State.addCand_keeps
    | with_reducible apply State.takeReq_keeps
    | with_reducible apply Keeps.snd (by assumption)
    | split
    | dsimp only

theorem Choice.foldl_keeps {α : Type} {κ : Kept} {s₀ : State} (f : Choice → α → Choice) (hf : ∀ c h, Keeps κ s₀ c.s → Keeps κ s₀ (f c h).s) (l : List α) :
    ∀ {c : Choice}, Keeps κ s₀ c.s → Keeps κ s₀ (l.foldl f c).s := by
  induction l with
  | nil => exact id
  | cons x l ih => exact fun h => ih (hf _ x h)

theorem State.choose_keeps {κ : Kept} {s₀ s : State} (h : Keeps κ s₀ s) (p : Part) (mode : Mode) : Keeps κ s₀ (s.choose p mode) := by
  unfold State.choose
  exact Choice.foldl_keeps _ (fun _ _ k => Choice.prompt_keeps k _ _ _) _
    (Choice.foldl_keeps _ (fun _ _ k => Choice.decode_keeps k _ _ _) _ h)

theorem State.retryWaits_keeps {κ : Kept} {s₀ s : State} (h : Keeps κ s₀ s) (p : Part) : Keeps κ s₀ (State.retryWaits s p) := by
  unfold State.retryWaits
  repeat' first
    | with_reducible assumption
    | with_reducible apply State.modPart_keeps
    | with_reducible apply State.modReq_keeps
    | with_reducible apply State.toReq_keeps
    | (with_reducible apply Keeps.foldl; intro _ _ _; try dsimp only)
    | split

theorem State.evictFor_keeps {κ : Kept} {s₀ s : State} (hk : Keeps κ s₀ s) (p : Part) (h : Nat) (x0 : Nat) : Keeps κ s₀ (State.evictFor s p h x0) :=
    by
  induction x0 generalizing s p h with
  | zero => exact hk
  | succ n ih =>
    unfold State.evictFor
    repeat' first
      | with_reducible assumption
      | with_reducible apply State.modPart_keeps
      | with_reducible apply ih
      | split
      | (fail_if_no_progress with_reducible apply Keeps.upd)
      | dsimp only

theorem State.helpWaits_keeps {κ : Kept} {s₀ s : State} (h : Keeps κ s₀ s) (p : Part) : Keeps κ s₀ (State.helpWaits s p) := by
  unfold State.helpWaits
  repeat' first
    | with_reducible assumption
    | with_reducible apply State.evictFor_keeps
    | with_reducible apply State.helpWaiter_keeps
    | (with_reducible apply Keeps.foldl; intro _ _ _; try dsimp only)
    | split

theorem State.returnSpilled_keeps {κ : Kept} {s₀ s : State} (h : Keeps κ s₀ s) (p : Part) : Keeps κ s₀ (State.returnSpilled s p) := by
  unfold State.returnSpilled
  repeat' first
    | with_reducible assumption
    | with_reducible apply State.modReq_keeps
    | with_reducible apply State.toReq_keeps
    | (with_reducible apply Keeps.foldl; intro _ _ _; try dsimp only)
    | split

theorem State.admitQueue_keeps {κ : Kept} {s₀ s : State} (h : Keeps κ s₀ s) (p : Part) (x0 : List Nat) : Keeps κ s₀ (State.admitQueue s p x0) := by
  induction x0 generalizing s p with
  | nil => exact h
  | cons y l ih =>
    unfold State.admitQueue
    repeat' first
      | with_reducible assumption
      | with_reducible apply State.modPart_keeps
      | with_reducible apply State.toReq_keeps
      | with_reducible apply ih
      | (with_reducible apply State.activate_keeps; rotate_left; assumption)
      | split

theorem State.checkDeadlines_keeps {κ : Kept} {s₀ s : State} (h : Keeps κ s₀ s) (p : Part) : Keeps κ s₀ (State.checkDeadlines s p) := by
  unfold State.checkDeadlines
  repeat' first
    | with_reducible assumption
    | with_reducible apply State.deadline_keeps
    | (with_reducible apply Keeps.foldl; intro _ _ _; try dsimp only)
    | split

theorem State.endClosers_keeps {κ : Kept} {s₀ s : State} (h : Keeps κ s₀ s) (p : Part) (wrote : List Nat) : Keeps κ s₀ (State.endClosers s p wrote) :=
    by
  unfold State.endClosers
  repeat' first
    | with_reducible assumption
    | with_reducible apply State.endOnly_keeps
    | (with_reducible apply Keeps.foldl; intro _ _ _; try dsimp only)
    | split

theorem Choice.keep_keeps {κ : Kept} {s₀ : State} {c : Choice} (h : Keeps κ s₀ c.s) (p : Part) (mode : Mode) (x : Pick) :
    Keeps κ s₀ (c.keep p mode x).s := by
  unfold Choice.keep
  repeat' first
    | with_reducible assumption
    | with_reducible apply State.ready_keeps
    | with_reducible apply State.takeReq_keeps
    | with_reducible apply Keeps.snd (by assumption)
    | split
    | dsimp only

theorem State.rechoose_keeps {κ : Kept} {s₀ s : State} (h : Keeps κ s₀ s) (p : Part) : Keeps κ s₀ (s.rechoose p) := by
  unfold State.rechoose
  split
  · exact h
  · refine State.modPart_keeps (Choice.foldl_keeps _ (fun _ _ k => Choice.prompt_keeps k _ _ _) _
      (Choice.foldl_keeps _ (fun _ _ k => Choice.keep_keeps k _ _ _) _ ?_)) _ _
    exact State.modPart_keeps h _ _

theorem State.reviseNow_keeps {κ : Kept} {s₀ s : State} (h : Keeps κ s₀ s) (p : Part) : Keeps κ s₀ (State.reviseNow s p) := by
  unfold State.reviseNow
  repeat' first
    | with_reducible assumption
    | with_reducible apply State.takeOutcomes_keeps
    | with_reducible apply State.rechoose_keeps
    | with_reducible apply State.helpWaits_keeps
    | split

theorem State.formNow_keeps {κ : Kept} {s₀ s : State} (h : Keeps κ s₀ s) (p : Part) : Keeps κ s₀ (State.formNow s p) := by
  unfold State.formNow
  repeat' first
    | with_reducible assumption
    | with_reducible apply State.modPart_keeps
    | with_reducible apply State.checkDeadlines_keeps
    | with_reducible apply State.dropLostNodes_keeps
    | with_reducible apply State.takeOutcomes_keeps
    | with_reducible apply OpCtx.draft_keeps
    | with_reducible apply State.retryWaits_keeps
    | with_reducible apply State.returnSpilled_keeps
    | with_reducible apply State.admitQueue_keeps
    | with_reducible apply State.choose_keeps
    | with_reducible apply State.helpWaits_keeps
    | with_reducible apply State.spillPolicy_keeps
    | with_reducible apply State.endClosers_keeps
    | with_reducible apply Keeps.fst (by assumption)
    | with_reducible apply Keeps.snd (by assumption)
    | split
    | (fail_if_no_progress with_reducible apply Keeps.upd)
    | dsimp only

theorem State.revise_keeps {κ : Kept} {s₀ s : State} (h : Keeps κ s₀ s) (p : Part) : Keeps κ s₀ (State.revise s p) := by
  unfold State.revise
  repeat' first
    | with_reducible assumption
    | with_reducible apply State.readRings_keeps
    | with_reducible apply State.modPart_keeps
    | with_reducible apply State.reviseNow_keeps
    | with_reducible apply State.noteStreams_keeps
    | split
    | (fail_if_no_progress with_reducible apply Keeps.upd)
    | dsimp only

theorem State.formStep_keeps {κ : Kept} {s₀ s : State} (h : Keeps κ s₀ s) (p : Part) : Keeps κ s₀ (State.formStep s p) := by
  unfold State.formStep
  repeat' first
    | with_reducible assumption
    | with_reducible apply State.readRings_keeps
    | with_reducible apply State.modPart_keeps
    | with_reducible apply State.formNow_keeps
    | with_reducible apply State.noteStreams_keeps
    | split
    | (fail_if_no_progress with_reducible apply Keeps.upd)
    | dsimp only

theorem execStepForm_keeps {κ : Kept} {s₀ s t : State} (h : Keeps κ s₀ s) (p : Part) (e : execStepForm p s = .next t) : Keeps κ s₀ t := by
  unfold execStepForm at e
  cases e
  repeat' first
    | with_reducible assumption
    | with_reducible apply State.formStep_keeps
    | split

end Sys2Proof.Machine
end

