-- ==== Sys2Proof/Laws/HeadKeeps.lean ====
section
/-! SUPPORT. What the shared operations of Machine/Head.lean keep. -/

namespace Sys2Proof.Machine

theorem State.walkReads_keeps {κ : Kept} {s₀ s : State} (h : Keeps κ s₀ s) (p : Part) (errs : Errs) : Keeps κ s₀ (State.walkReads s p errs) := by
  unfold State.walkReads
  repeat' first
    | with_reducible assumption
    | with_reducible apply State.readBlock_keeps
    | (with_reducible apply Keeps.foldl; intro _ _ _; try dsimp only)
    | split

theorem State.modStep_keeps {κ : Kept} {s₀ s : State} (h : Keeps κ s₀ s) (p : Part) (f : Step → Step) : Keeps κ s₀ (State.modStep s p f) := by
  unfold State.modStep
  repeat' first
    | with_reducible assumption
    | with_reducible apply State.modPart_keeps

theorem State.noteStall_keeps {κ : Kept} {s₀ s : State} (h : Keeps κ s₀ s) (p : Part) : Keeps κ s₀ (State.noteStall s p) := by
  unfold State.noteStall
  repeat' first
    | with_reducible assumption
    | with_reducible apply State.modStep_keeps
    | with_reducible apply State.modPart_keeps
    | split

theorem State.noteStaging_keeps {κ : Kept} {s₀ s : State} (h : Keeps κ s₀ s) (p : Part) : Keeps κ s₀ (State.noteStaging s p) := by
  unfold State.noteStaging
  repeat' first
    | with_reducible assumption
    | with_reducible apply State.noteStall_keeps
    | with_reducible apply State.noteStreams_keeps

theorem State.beginStep_keeps {κ : Kept} {s₀ s : State} (h : Keeps κ s₀ s) (p : Part) (errs : Errs) : Keeps κ s₀ (State.beginStep s p errs) := by
  unfold State.beginStep
  repeat' first
    | with_reducible assumption
    | with_reducible apply State.walkReads_keeps
    | with_reducible apply State.reviseNow_keeps
    | with_reducible apply State.count_keeps
    | with_reducible apply State.modPart_keeps
    | with_reducible apply State.noteStaging_keeps
    | split
    | (fail_if_no_progress with_reducible apply Keeps.upd)
    | dsimp only

theorem execStepHeadStart_keeps {κ : Kept} {s₀ s t : State} (h : Keeps κ s₀ s) (p : Part) (errs : Errs) (e : execStepHeadStart p errs s = .next t) :
    Keeps κ s₀ t := by
  unfold execStepHeadStart at e
  cases e
  repeat' first
    | with_reducible assumption
    | with_reducible apply State.beginStep_keeps
    | split

theorem execCadenceMark_keeps {κ : Kept} {s₀ s t : State} (h : Keeps κ s₀ s) (p : Part) (errs : Errs) (e : execCadenceMark p errs s = .next t) : Keeps
    κ s₀ t := by
  unfold execCadenceMark at e
  cases e
  repeat' first
    | with_reducible assumption
    | with_reducible apply State.ringTo_keeps
    | with_reducible apply State.modPart_keeps
    | with_reducible apply State.toPart_keeps
    | with_reducible apply State.beginStep_keeps
    | split
    | (fail_if_no_progress with_reducible apply Keeps.upd)
    | dsimp only

theorem execProgramStart_keeps {κ : Kept} {s₀ s t : State} (h : Keeps κ s₀ s) (p : Part) (e : execProgramStart p s = .next t) : Keeps κ s₀ t := by
  unfold execProgramStart at e
  cases e
  repeat' first
    | with_reducible assumption
    | with_reducible apply State.modStep_keeps

theorem State.streamBillet_keeps {κ : Kept} {s₀ s : State} (h : Keeps κ s₀ s) (p : Part) (m : Model) (errs : Errs) (region : Nat) (b : Nat) : Keeps κ
    s₀ (State.streamBillet s p m errs region b) := by
  unfold State.streamBillet
  repeat' first
    | with_reducible assumption
    | with_reducible apply State.countChunks_keeps
    | with_reducible apply State.fencedFetch_keeps
    | with_reducible apply State.sourceLost_keeps
    | with_reducible apply State.queueRepair_keeps
    | split
    | (fail_if_no_progress with_reducible apply Keeps.upd)
    | dsimp only

theorem execStagingDone_keeps {κ : Kept} {s₀ s t : State} (h : Keeps κ s₀ s) (p : Part) (handle : Nat) (region : Nat) (errs : Errs) (e :
    execStagingDone p handle region errs s = .next t) : Keeps κ s₀ t := by
  unfold execStagingDone at e
  cases e
  repeat' first
    | with_reducible assumption
    | with_reducible apply State.streamBillet_keeps
    | with_reducible apply State.modPart_keeps
    | with_reducible apply State.noteStaging_keeps
    | (with_reducible apply Keeps.foldl; intro _ _ _; try dsimp only)
    | split

theorem execCollectiveTimeout_keeps {κ : Kept} {s₀ s t : State} (h : Keeps κ s₀ s) (p : Part) (tile : Nat) (e : execCollectiveTimeout p tile s = .next
    t) : Keeps κ s₀ t := by
  unfold execCollectiveTimeout at e
  cases e
  repeat' first
    | with_reducible assumption
    | with_reducible apply State.passTo_keeps
    | with_reducible apply State.abandonStep_keeps
    | with_reducible apply State.contained_keeps
    | split

end Sys2Proof.Machine
end

