-- ==== Sys2Proof/Laws/OperatorsKeeps.lean ====
section
/-! SUPPORT. What the shared operations of Machine/Operators.lean keep. -/

namespace Sys2Proof.Machine

theorem State.operate_keeps {κ : Kept} {s₀ s : State} (h : Keeps κ s₀ s) (p : Part) (handle : Nat) (op : Nat) (body : OpCtx → State → List Tok → State
    × List Tok) (hb : ∀ x s, Keeps κ s₀ s → ∀ l, Keeps κ s₀ (body x s l).1) : Keeps κ s₀ (State.operate s p handle op body) := by
  unfold State.operate
  repeat' first
    | with_reducible assumption
    | with_reducible apply State.modPart_keeps
    | with_reducible apply State.noteStaging_keeps
    | with_reducible apply hb
    | split
    | (fail_if_no_progress with_reducible apply Keeps.upd)

theorem State.mapToks_keeps {κ : Kept} {s₀ s : State} (h : Keeps κ s₀ s) (p : Part) (handle : Nat) (op : Nat) (f : OpCtx → Nat → Tok → Tok) : Keeps κ
    s₀ (State.mapToks s p handle op f) := by
  unfold State.mapToks
  repeat' first
    | with_reducible assumption
    | with_reducible apply State.operate_keeps
    | intro _

theorem State.readRanges_keeps {κ : Kept} {s₀ s : State} (h : Keeps κ s₀ s) (p : Part) (via : Nat) (ranges : List (Nat × Nat)) (errs : Errs) : Keeps κ
    s₀ (State.readRanges s p via ranges errs) := by
  unfold State.readRanges
  repeat' first
    | with_reducible assumption
    | with_reducible apply State.readRange_keeps
    | (with_reducible apply Keeps.foldl; intro _ _ _; try dsimp only)

theorem State.readPaths_keeps {κ : Kept} {s₀ s : State} (h : Keeps κ s₀ s) (p : Part) (near : List (Nat × Nat)) (bond : List (Nat × Nat)) (errs :
    Errs) : Keeps κ s₀ (State.readPaths s p near bond errs) := by
  unfold State.readPaths
  repeat' first
    | with_reducible assumption
    | with_reducible apply State.readRanges_keeps

theorem embedBody_keeps {κ : Kept} {s₀ s : State} (h : Keeps κ s₀ s) (errs : Errs) (x : OpCtx) (toks : List Tok) : Keeps κ s₀ (embedBody errs x s
    toks).1 := by
  unfold embedBody
  repeat' first
    | with_reducible assumption
    | with_reducible apply State.readRanges_keeps
    | split

theorem execEmbed_keeps {κ : Kept} {s₀ s t : State} (h : Keeps κ s₀ s) (p : Part) (handle : Nat) (errs : Errs) (e : execEmbed p handle errs s = .next
    t) : Keeps κ s₀ t := by
  unfold execEmbed at e
  cases e
  repeat' first
    | with_reducible assumption
    | with_reducible apply State.operate_keeps
    | with_reducible apply embedBody_keeps
    | intro _

theorem rmsNormBody_keeps {κ : Kept} {s₀ s : State} (h : Keeps κ s₀ s) (errs : Errs) (x : OpCtx) (toks : List Tok) : Keeps κ s₀ (rmsNormBody errs x s
    toks).1 := by
  unfold rmsNormBody
  repeat' first
    | with_reducible assumption
    | with_reducible apply State.readRanges_keeps

theorem execRmsNorm_keeps {κ : Kept} {s₀ s t : State} (h : Keeps κ s₀ s) (p : Part) (handle : Nat) (errs : Errs) (e : execRmsNorm p handle errs s =
    .next t) : Keeps κ s₀ t := by
  unfold execRmsNorm at e
  cases e
  repeat' first
    | with_reducible assumption
    | with_reducible apply State.operate_keeps
    | with_reducible apply rmsNormBody_keeps
    | intro _

theorem layerNormBody_keeps {κ : Kept} {s₀ s : State} (h : Keeps κ s₀ s) (errs : Errs) (x : OpCtx) (toks : List Tok) : Keeps κ s₀ (layerNormBody errs
    x s toks).1 := by
  unfold layerNormBody
  repeat' first
    | with_reducible assumption
    | with_reducible apply State.readRanges_keeps

theorem execLayerNorm_keeps {κ : Kept} {s₀ s t : State} (h : Keeps κ s₀ s) (p : Part) (handle : Nat) (errs : Errs) (e : execLayerNorm p handle errs s
    = .next t) : Keeps κ s₀ t := by
  unfold execLayerNorm at e
  cases e
  repeat' first
    | with_reducible assumption
    | with_reducible apply State.operate_keeps
    | with_reducible apply layerNormBody_keeps
    | intro _

theorem linearBody_keeps {κ : Kept} {s₀ s : State} (h : Keeps κ s₀ s) (errs : Errs) (x : OpCtx) (toks : List Tok) : Keeps κ s₀ (linearBody errs x s
    toks).1 := by
  unfold linearBody
  repeat' first
    | with_reducible assumption
    | with_reducible apply State.readPaths_keeps
    | split

theorem execLinear_keeps {κ : Kept} {s₀ s t : State} (h : Keeps κ s₀ s) (p : Part) (handle : Nat) (errs : Errs) (e : execLinear p handle errs s =
    .next t) : Keeps κ s₀ t := by
  unfold execLinear at e
  cases e
  repeat' first
    | with_reducible assumption
    | with_reducible apply State.operate_keeps
    | with_reducible apply linearBody_keeps
    | intro _

theorem execRope_keeps {κ : Kept} {s₀ s t : State} (h : Keeps κ s₀ s) (p : Part) (handle : Nat) (e : execRope p handle s = .next t) : Keeps κ s₀ t :=
    by
  unfold execRope at e
  cases e
  repeat' first
    | with_reducible assumption
    | with_reducible apply State.mapToks_keeps

theorem kvAppendBody_keeps {κ : Kept} {s₀ s : State} (h : Keeps κ s₀ s) (x : OpCtx) (toks : List Tok) : Keeps κ s₀ (kvAppendBody x s toks).1 := by
  unfold kvAppendBody
  repeat' first
    | with_reducible assumption
    | with_reducible apply State.fencedPut_keeps
    | (with_reducible apply Keeps.foldl; intro _ _ _; try dsimp only)
    | split

theorem execKvAppend_keeps {κ : Kept} {s₀ s t : State} (h : Keeps κ s₀ s) (p : Part) (handle : Nat) (e : execKvAppend p handle s = .next t) : Keeps κ
    s₀ t := by
  unfold execKvAppend at e
  cases e
  repeat' first
    | with_reducible assumption
    | with_reducible apply State.operate_keeps
    | with_reducible apply kvAppendBody_keeps
    | intro _

theorem execAct_keeps {κ : Kept} {s₀ s t : State} (h : Keeps κ s₀ s) (p : Part) (handle : Nat) (e : execAct p handle s = .next t) : Keeps κ s₀ t := by
  unfold execAct at e
  cases e
  repeat' first
    | with_reducible assumption
    | with_reducible apply State.mapToks_keeps

theorem routeBody_keeps {κ : Kept} {s₀ s : State} (h : Keeps κ s₀ s) (errs : Errs) (x : OpCtx) (toks : List Tok) : Keeps κ s₀ (routeBody errs x s
    toks).1 := by
  unfold routeBody
  repeat' first
    | with_reducible assumption
    | with_reducible apply State.readRanges_keeps
    | with_reducible apply State.modPart_keeps

theorem execRoute_keeps {κ : Kept} {s₀ s t : State} (h : Keeps κ s₀ s) (p : Part) (handle : Nat) (errs : Errs) (e : execRoute p handle errs s = .next
    t) : Keeps κ s₀ t := by
  unfold execRoute at e
  cases e
  repeat' first
    | with_reducible assumption
    | with_reducible apply State.operate_keeps
    | with_reducible apply routeBody_keeps
    | intro _

theorem execCombine_keeps {κ : Kept} {s₀ s t : State} (h : Keeps κ s₀ s) (p : Part) (handle : Nat) (e : execCombine p handle s = .next t) : Keeps κ s₀
    t := by
  unfold execCombine at e
  cases e
  repeat' first
    | with_reducible assumption
    | with_reducible apply State.mapToks_keeps

theorem execAdd_keeps {κ : Kept} {s₀ s t : State} (h : Keeps κ s₀ s) (p : Part) (handle : Nat) (e : execAdd p handle s = .next t) : Keeps κ s₀ t := by
  unfold execAdd at e
  cases e
  repeat' first
    | with_reducible assumption
    | with_reducible apply State.mapToks_keeps

theorem logitsBody_keeps {κ : Kept} {s₀ s : State} (h : Keeps κ s₀ s) (errs : Errs) (x : OpCtx) (toks : List Tok) : Keeps κ s₀ (logitsBody errs x s
    toks).1 := by
  unfold logitsBody
  repeat' first
    | with_reducible assumption
    | with_reducible apply State.readRanges_keeps
    | split

theorem execLogits_keeps {κ : Kept} {s₀ s t : State} (h : Keeps κ s₀ s) (p : Part) (handle : Nat) (errs : Errs) (e : execLogits p handle errs s =
    .next t) : Keeps κ s₀ t := by
  unfold execLogits at e
  cases e
  repeat' first
    | with_reducible assumption
    | with_reducible apply State.operate_keeps
    | with_reducible apply logitsBody_keeps
    | intro _

end Sys2Proof.Machine
end

