-- ==== Sys2Proof/Laws/AttendKeeps.lean ====
section
/-! SUPPORT. What the shared operations of Machine/Attend.lean keep. -/

namespace Sys2Proof.Machine

theorem attendBody_keeps {κ : Kept} {s₀ s : State} (h : Keeps κ s₀ s) (errs : Errs) (x : OpCtx) (toks : List Tok) : Keeps κ s₀ (attendBody errs x s
    toks).1 := by
  unfold attendBody
  repeat' first
    | with_reducible assumption
    | with_reducible apply State.readPaths_keeps
    | with_reducible apply State.modPart_keeps
    | split

theorem execAttend_keeps {κ : Kept} {s₀ s t : State} (h : Keeps κ s₀ s) (p : Part) (handle : Nat) (errs : Errs) (e : execAttend p handle errs s =
    .next t) : Keeps κ s₀ t := by
  unfold execAttend at e
  cases e
  repeat' first
    | with_reducible assumption
    | with_reducible apply State.operate_keeps
    | with_reducible apply attendBody_keeps
    | intro _

end Sys2Proof.Machine
end

