-- ==== Sys2Proof/Laws/SamplingKeeps.lean ====
section
/-! SUPPORT. What the shared operations of Machine/Sampling.lean keep. -/

namespace Sys2Proof.Machine

theorem OpCtx.draft_keeps {κ : Kept} {s₀ s : State} (h : Keeps κ s₀ s) (x : OpCtx) (toks : List Tok) : Keeps κ s₀ (OpCtx.draft x s toks).1 := by
  unfold OpCtx.draft
  repeat' first
    | with_reducible assumption
    | with_reducible apply State.modStep_keeps

theorem sampleBody_keeps {κ : Kept} {s₀ s : State} (h : Keeps κ s₀ s) (x : OpCtx) (toks : List Tok) : Keeps κ s₀ (sampleBody x s toks).1 := by
  unfold sampleBody
  repeat' first
    | with_reducible assumption
    | with_reducible apply State.modStep_keeps
    | with_reducible apply OpCtx.draft_keeps
    | with_reducible apply Keeps.fst (by assumption)
    | with_reducible apply Keeps.snd (by assumption)
    | split

theorem execSample_keeps {κ : Kept} {s₀ s t : State} (h : Keeps κ s₀ s) (p : Part) (handle : Nat) (e : execSample p handle s = .next t) : Keeps κ s₀ t
    := by
  unfold execSample at e
  cases e
  repeat' first
    | with_reducible assumption
    | with_reducible apply State.operate_keeps
    | with_reducible apply sampleBody_keeps
    | intro _

end Sys2Proof.Machine
end

