-- ==== Sys2Proof/Laws/ScatterKeeps.lean ====
section
/-! SUPPORT. What the shared operations of Machine/Scatter.lean keep. -/

namespace Sys2Proof.Machine

theorem State.putWrite_keeps {κ : Kept} {s₀ s : State} (h : Keeps κ s₀ s) (p : Part) (w : PageWrite) (past : Bool) : Keeps κ s₀ (State.putWrite s p w
    past) := by
  unfold State.putWrite
  repeat' first
    | with_reducible assumption
    | with_reducible apply State.modStep_keeps

theorem OpCtx.seasonReq_keeps {κ : Kept} {s₀ s : State} (hk : Keeps κ s₀ s) (x : OpCtx) (toks : List Tok) (h : Nat) (shard : Nat) : Keeps κ s₀
    (OpCtx.seasonReq x s toks h shard) := by
  unfold OpCtx.seasonReq
  repeat' first
    | with_reducible assumption
    | with_reducible apply State.putWrite_keeps
    | (with_reducible apply Keeps.foldl; intro _ _ _; try dsimp only)
    | split

theorem seasonBody_keeps {κ : Kept} {s₀ s : State} (h : Keeps κ s₀ s) (x : OpCtx) (toks : List Tok) : Keeps κ s₀ (seasonBody x s toks).1 := by
  unfold seasonBody
  repeat' first
    | with_reducible assumption
    | with_reducible apply OpCtx.seasonReq_keeps
    | (with_reducible apply Keeps.foldl; intro _ _ _; try dsimp only)

theorem execSeason_keeps {κ : Kept} {s₀ s t : State} (h : Keeps κ s₀ s) (p : Part) (handle : Nat) (e : execSeason p handle s = .next t) : Keeps κ s₀ t
    := by
  unfold execSeason at e
  cases e
  repeat' first
    | with_reducible assumption
    | with_reducible apply State.operate_keeps
    | with_reducible apply seasonBody_keeps
    | intro _

theorem OpCtx.writePlace_keeps {κ : Kept} {s₀ s : State} (h : Keeps κ s₀ s) (x : OpCtx) (m : Model) (sh : ShardRec) (v : PageView) (errs : Errs) (w :
    PageWrite) (t : Nat) (t0 : List W16) (t1 : List W16) : Keeps κ s₀ (OpCtx.writePlace x s m sh v errs w t t0 t1).1 := by
  unfold OpCtx.writePlace
  repeat' first
    | with_reducible assumption
    | with_reducible apply State.raise_keeps
    | with_reducible apply State.count_keeps
    | with_reducible apply State.readRange_keeps
    | split
    | (fail_if_no_progress with_reducible apply Keeps.upd)
    | dsimp only

theorem OpCtx.writePage_keeps {κ : Kept} {s₀ s : State} (hk : Keeps κ s₀ s) (x : OpCtx) (h : Nat) (shard : Nat) (sh : ShardRec) (c : Chain) (errs :
    Errs) (j : Nat) (lap : Nat) (l : List Tok) : Keeps κ s₀ (OpCtx.writePage x s h shard sh c errs j lap l) := by
  unfold OpCtx.writePage
  repeat' first
    | with_reducible assumption
    | with_reducible apply OpCtx.writePlace_keeps
    | with_reducible apply State.putEntry_keeps
    | with_reducible apply State.putWrite_keeps
    | (with_reducible apply Keeps.foldl; intro _ _ _; try dsimp only)
    | (with_reducible apply Keeps.foldlFst; intro _ _ _; try dsimp only)
    | with_reducible apply Keeps.fst (by assumption)
    | with_reducible apply Keeps.snd (by assumption)
    | split

theorem OpCtx.scatterReq_keeps {κ : Kept} {s₀ s : State} (hk : Keeps κ s₀ s) (x : OpCtx) (errs : Errs) (toks : List Tok) (h : Nat) (shard : Nat) :
    Keeps κ s₀ (OpCtx.scatterReq x errs s toks h shard) := by
  unfold OpCtx.scatterReq
  repeat' first
    | with_reducible assumption
    | with_reducible apply OpCtx.writePage_keeps
    | (with_reducible apply Keeps.foldl; intro _ _ _; try dsimp only)
    | split

theorem scatterBody_keeps {κ : Kept} {s₀ s : State} (h : Keeps κ s₀ s) (errs : Errs) (x : OpCtx) (toks : List Tok) : Keeps κ s₀ (scatterBody errs x s
    toks).1 := by
  unfold scatterBody
  repeat' first
    | with_reducible assumption
    | with_reducible apply OpCtx.scatterReq_keeps
    | (with_reducible apply Keeps.foldl; intro _ _ _; try dsimp only)

theorem execScatter_keeps {κ : Kept} {s₀ s t : State} (h : Keeps κ s₀ s) (p : Part) (handle : Nat) (errs : Errs) (e : execScatter p handle errs s =
    .next t) : Keeps κ s₀ t := by
  unfold execScatter at e
  cases e
  repeat' first
    | with_reducible assumption
    | with_reducible apply State.operate_keeps
    | with_reducible apply scatterBody_keeps
    | intro _

end Sys2Proof.Machine
end

