-- ==== Sys2Proof/Laws/CommitKeeps.lean ====
section
/-! SUPPORT. What the shared operations of Machine/Commit.lean keep. -/

namespace Sys2Proof.Machine

theorem State.commitPage_keeps {κ : Kept} {s₀ s : State} (h : Keeps κ s₀ s) (p : Part) (w : PageWrite) : Keeps κ s₀ (State.commitPage s p w) := by
  unfold State.commitPage
  repeat' first
    | with_reducible assumption
    | with_reducible apply State.putEntry_keeps
    | with_reducible apply State.modPart_keeps
    | (with_reducible apply Keeps.foldl; intro _ _ _; try dsimp only)
    | split

theorem State.writeRecords_keeps {κ : Kept} {s₀ s : State} (h : Keeps κ s₀ s) (p : Part) (o : Outturn) : Keeps κ s₀ (State.writeRecords s p o) := by
  unfold State.writeRecords
  repeat' first
    | with_reducible assumption
    | with_reducible apply State.writeRecord_keeps
    | (with_reducible apply Keeps.foldl; intro _ _ _; try dsimp only)

theorem State.commitReq_keeps {κ : Kept} {s₀ s : State} (h : Keeps κ s₀ s) (p : Part) (o : Outturn) : Keeps κ s₀ (State.commitReq s p o) := by
  unfold State.commitReq
  repeat' first
    | with_reducible assumption
    | with_reducible apply State.modPart_keeps
    | with_reducible apply State.modReq_keeps
    | split

theorem State.closePick_keeps {κ : Kept} {s₀ s : State} (h : Keeps κ s₀ s) (p : Part) (st : Step) (o : Outturn) : Keeps κ s₀ (State.closePick s p st
    o) := by
  unfold State.closePick
  repeat' first
    | with_reducible assumption
    | with_reducible apply State.finishReq_keeps
    | with_reducible apply State.expireReq_keeps
    | with_reducible apply State.toReq_keeps
    | with_reducible apply State.deadline_keeps
    | with_reducible apply State.modReq_keeps
    | split
    | (fail_if_no_progress with_reducible apply Keeps.upd)
    | dsimp only

theorem State.tellStep_keeps {κ : Kept} {s₀ s : State} (h : Keeps κ s₀ s) (p : Part) (st : Step) : Keeps κ s₀ (State.tellStep s p st) := by
  unfold State.tellStep
  repeat' first
    | with_reducible assumption
    | with_reducible apply State.toPart_keeps
    | with_reducible apply OpCtx.draft_keeps
    | with_reducible apply Keeps.fst (by assumption)
    | with_reducible apply Keeps.snd (by assumption)
    | split
    | (fail_if_no_progress with_reducible apply Keeps.upd)
    | dsimp only

theorem State.yieldVictims_keeps {κ : Kept} {s₀ s : State} (h : Keeps κ s₀ s) (p : Part) : Keeps κ s₀ (State.yieldVictims s p) := by
  unfold State.yieldVictims
  repeat' first
    | with_reducible assumption
    | with_reducible apply State.preempt_keeps
    | (with_reducible apply Keeps.foldl; intro _ _ _; try dsimp only)
    | split

theorem State.afterCommit_keeps {κ : Kept} {s₀ s : State} (h : Keeps κ s₀ s) (p : Part) (outs : List Outturn) : Keeps κ s₀ (State.afterCommit s p
    outs) := by
  unfold State.afterCommit
  repeat' first
    | with_reducible assumption
    | with_reducible apply State.endClosers_keeps
    | with_reducible apply State.settle_keeps
    | with_reducible apply State.runBoundary_keeps
    | with_reducible apply State.checkDeadlines_keeps
    | with_reducible apply State.yieldVictims_keeps
    | with_reducible apply State.placeReliefs_keeps
    | with_reducible apply State.startMoves_keeps
    | with_reducible apply State.spareCores_keeps
    | with_reducible apply State.spillPolicy_keeps
    | with_reducible apply State.sweep_keeps
    | with_reducible apply State.revise_keeps

theorem State.meetCloses_keeps {κ : Kept} {s₀ s : State} (h : Keeps κ s₀ s) (p : Part) (outs : List Outturn) : Keeps κ s₀ (State.meetCloses s p outs)
    := by
  unfold State.meetCloses
  repeat' first
    | with_reducible assumption
    | with_reducible apply State.modTaken_keeps

theorem State.commit_keeps {κ : Kept} {s₀ s : State} (h : Keeps κ s₀ s) (p : Part) (st : Step) : Keeps κ s₀ (State.commit s p st) := by
  unfold State.commit
  repeat' first
    | with_reducible assumption
    | with_reducible apply State.commitPage_keeps
    | with_reducible apply State.writeRecords_keeps
    | with_reducible apply State.commitReq_keeps
    | with_reducible apply State.modPart_keeps
    | with_reducible apply State.tellStep_keeps
    | with_reducible apply State.settleSlots_keeps
    | with_reducible apply State.closePick_keeps
    | with_reducible apply State.meetCloses_keeps
    | with_reducible apply State.afterCommit_keeps
    | with_reducible apply State.bistSettle_keeps
    | (with_reducible apply Keeps.foldl; intro _ _ _; try dsimp only)

theorem execStepCommit_keeps {κ : Kept} {s₀ s t : State} (h : Keeps κ s₀ s) (p : Part) (e : execStepCommit p s = .next t) : Keeps κ s₀ t := by
  unfold execStepCommit at e
  cases e
  repeat' first
    | with_reducible assumption
    | with_reducible apply State.commit_keeps
    | split

end Sys2Proof.Machine
end

