-- ==== Sys2Proof/Laws/RingKeeps.lean ====
section
/-! SUPPORT. What the shared operations of Machine/Ring.lean keep. -/

namespace Sys2Proof.Machine

theorem State.toAll_keeps {κ : Kept} {s₀ s : State} (h : Keeps κ s₀ s) (v : Ev) : Keeps κ s₀ (State.toAll s v) := by
  unfold State.toAll
  repeat' first
    | with_reducible assumption
    | with_reducible apply State.toEvq_keeps
    | with_reducible apply State.toOwner_keeps
    | (with_reducible apply Keeps.foldl; intro _ _ _; try dsimp only)
    | split
    | (fail_if_no_progress with_reducible apply Keeps.upd)
    | dsimp only

theorem State.modRing_keeps {κ : Kept} {s₀ s : State} (h : Keeps κ s₀ s) (f : Ring → Ring) : Keeps κ s₀ (State.modRing s f) := by
  unfold State.modRing
  repeat' first
    | with_reducible assumption
    | split
    | (fail_if_no_progress with_reducible apply Keeps.upd)

theorem State.tick_keeps {κ : Kept} {s₀ s : State} (h : Keeps κ s₀ s) : Keeps κ s₀ (State.tick s) := by
  unfold State.tick
  repeat' first
    | with_reducible assumption
    | with_reducible apply State.pass_keeps

theorem State.stepTime_keeps {κ : Kept} {s₀ s : State} (h : Keeps κ s₀ s) (t : W64) : Keeps κ s₀ (State.stepTime s t) := by
  unfold State.stepTime
  repeat' first
    | with_reducible assumption
    | with_reducible apply State.toAll_keeps
    | split
    | (fail_if_no_progress with_reducible apply Keeps.upd)

theorem State.ownFrame_keeps {κ : Kept} {s₀ s : State} (h : Keeps κ s₀ s) : Keeps κ s₀ (State.ownFrame s) := by
  unfold State.ownFrame
  repeat' first
    | with_reducible assumption
    | with_reducible apply State.draw_keeps
    | with_reducible apply State.send_keeps
    | with_reducible apply Keeps.fst (by assumption)
    | with_reducible apply Keeps.snd (by assumption)
    | split

theorem State.setOffset_keeps {κ : Kept} {s₀ s : State} (h : Keeps κ s₀ s) (t : W64) : Keeps κ s₀ (State.setOffset s t) := by
  unfold State.setOffset
  repeat' first
    | with_reducible assumption
    | with_reducible apply State.modRing_keeps
    | with_reducible apply State.stepTime_keeps
    | split
    | (fail_if_no_progress with_reducible apply Keeps.upd)
    | dsimp only

theorem State.lostFrame_keeps {κ : Kept} {s₀ s : State} (h : Keeps κ s₀ s) (bad : Bool) : Keeps κ s₀ (State.lostFrame s bad) := by
  unfold State.lostFrame
  repeat' first
    | with_reducible assumption
    | with_reducible apply State.modRing_keeps
    | with_reducible apply State.ownFrame_keeps
    | with_reducible apply State.toAll_keeps
    | split
    | (fail_if_no_progress with_reducible apply Keeps.upd)
    | dsimp only

theorem State.goodFollower_keeps {κ : Kept} {s₀ s : State} (h : Keeps κ s₀ s) (f : RingFrame) : Keeps κ s₀ (State.goodFollower s f) := by
  unfold State.goodFollower
  repeat' first
    | with_reducible assumption
    | with_reducible apply State.toOwner_keeps
    | with_reducible apply State.modRing_keeps
    | with_reducible apply State.setOffset_keeps
    | with_reducible apply State.toAll_keeps
    | with_reducible apply State.send_keeps
    | split
    | (fail_if_no_progress with_reducible apply Keeps.upd)
    | dsimp only

theorem State.goodMaster_keeps {κ : Kept} {s₀ s : State} (h : Keeps κ s₀ s) (f : RingFrame) : Keeps κ s₀ (State.goodMaster s f) := by
  unfold State.goodMaster
  repeat' first
    | with_reducible assumption
    | with_reducible apply State.modRing_keeps
    | with_reducible apply State.toOwner_keeps
    | split
    | (fail_if_no_progress with_reducible apply Keeps.upd)
    | dsimp only

theorem execRingFrameRx_keeps {κ : Kept} {s₀ s t : State} (h : Keeps κ s₀ s) (frame : RingFrame) (e : execRingFrameRx frame s = .next t) : Keeps κ s₀
    t := by
  unfold execRingFrameRx at e
  cases e
  repeat' first
    | with_reducible assumption
    | with_reducible apply State.modRing_keeps
    | with_reducible apply State.goodMaster_keeps
    | with_reducible apply State.goodFollower_keeps
    | with_reducible apply State.lostFrame_keeps
    | split
    | (fail_if_no_progress with_reducible apply Keeps.upd)
    | dsimp only

theorem execRingFrameMissing_keeps {κ : Kept} {s₀ s t : State} (h : Keeps κ s₀ s) (e : execRingFrameMissing s = .next t) : Keeps κ s₀ t := by
  unfold execRingFrameMissing at e
  cases e
  repeat' first
    | with_reducible assumption
    | with_reducible apply State.modRing_keeps
    | with_reducible apply State.lostFrame_keeps
    | split

theorem State.changeRole_keeps {κ : Kept} {s₀ s : State} (h : Keeps κ s₀ s) : Keeps κ s₀ (State.changeRole s) := by
  unfold State.changeRole
  repeat' first
    | with_reducible assumption
    | with_reducible apply State.modRing_keeps
    | split

theorem execRingFrameTx_keeps {κ : Kept} {s₀ s t : State} (h : Keeps κ s₀ s) (e : execRingFrameTx s = .next t) : Keeps κ s₀ t := by
  unfold execRingFrameTx at e
  cases e
  repeat' first
    | with_reducible assumption
    | with_reducible apply State.changeRole_keeps
    | with_reducible apply State.stepTime_keeps
    | with_reducible apply State.modRing_keeps
    | with_reducible apply State.ownFrame_keeps
    | split
    | (fail_if_no_progress with_reducible apply Keeps.upd)
    | dsimp only

theorem execRingInStuck_keeps {κ : Kept} {s₀ s t : State} (h : Keeps κ s₀ s) (e : execRingInStuck s = .next t) : Keeps κ s₀ t := by
  unfold execRingInStuck at e
  cases e
  repeat' first
    | with_reducible assumption
    | split
    | (fail_if_no_progress with_reducible apply Keeps.upd)

theorem execRingSetTime_keeps {κ : Kept} {s₀ s t : State} (h : Keeps κ s₀ s) (port : Port) (e : execRingSetTime port s = .next t) : Keeps κ s₀ t := by
  unfold execRingSetTime at e
  cases e
  repeat' first
    | with_reducible assumption
    | with_reducible apply State.modRing_keeps
    | split

theorem execRingCfgWrite_keeps {κ : Kept} {s₀ s t : State} (h : Keeps κ s₀ s) (port : Port) (value : W32) (e : execRingCfgWrite port value s = .next
    t) : Keeps κ s₀ t := by
  unfold execRingCfgWrite at e
  cases e
  repeat' first
    | with_reducible assumption
    | with_reducible apply State.modRing_keeps
    | split

end Sys2Proof.Machine
end

