-- ==== Sys2Proof/Laws/SecurityKeeps.lean ====
section
/-! SUPPORT. What the shared operations of Machine/Security.lean keep. -/

namespace Sys2Proof.Machine

theorem State.modSec_keeps {κ : Kept} {s₀ s : State} (h : Keeps κ s₀ s) (f : Sec → Sec) (hl : (f s.sec).scanLatch = s.sec.scanLatch)
    (hk : (f s.sec).keyValid = s.sec.keyValid) : Keeps κ s₀ (s.modSec f) := h.updSec _ hl hk

theorem State.modFlash_keeps {φ ψ : Prop} {s₀ s : State} (h : Keeps ⟨φ, False, ψ⟩ s₀ s) (f : Flash → Flash) (hs : s.flash.svnMin ≤ (f s.flash).svnMin)
    (hn : s.flash.svnSteps ≤ 64 → (f s.flash).svnSteps ≤ 64) (ha : s.flash.ashFits → (f s.flash).ashFits) :
    Keeps ⟨φ, False, ψ⟩ s₀ (s.modFlash f) := h.updFlash _ hs hn ha

/-- A firmware slot written changes no fuse and no ash log. -/
theorem Flash.modSlot_svn (f : Flash) (b : Bool) (g : List Byte → List Byte) :
    (f.modSlot b g).svnMin = f.svnMin ∧ (f.modSlot b g).svnSteps = f.svnSteps ∧ ((f.modSlot b g).ashFits ↔ f.ashFits) := by
  unfold Flash.modSlot; split <;> exact ⟨rfl, rfl, Iff.rfl⟩

theorem State.modFlashSlot_keeps {φ ψ : Prop} {s₀ s : State} (h : Keeps ⟨φ, False, ψ⟩ s₀ s) (b : Flash → Bool) (g : List Byte → List Byte) :
    Keeps ⟨φ, False, ψ⟩ s₀ (s.modFlash fun f => f.modSlot (b f) g) :=
  State.modFlash_keeps h _ (le_of_eq (Flash.modSlot_svn _ _ _).1.symm) (fun a => (Flash.modSlot_svn _ _ _).2.1.trans_le a)
    (Flash.modSlot_svn _ _ _).2.2.2

theorem State.drawBytes_keeps {κ : Kept} {s₀ s : State} (h : Keeps κ s₀ s) (x0 : Nat) : Keeps κ s₀ (State.drawBytes s x0).2 := by
  induction x0 generalizing s with
  | zero => exact h
  | succ n ih =>
    unfold State.drawBytes
    repeat' first
      | with_reducible assumption
      | with_reducible apply ih
      | with_reducible apply State.draw_keeps

theorem State.drawNonce_keeps {κ : Kept} {s₀ s : State} (h : Keeps κ s₀ s) : Keeps κ s₀ s.drawNonce := by
  unfold State.drawNonce
  exact State.modSec_keeps (State.drawBytes_keeps h 48) _ rfl rfl

theorem execSecFwBegin_keeps {φ ψ : Prop} {s₀ s t : State} (h : Keeps ⟨φ, False, ψ⟩ s₀ s) (port : Port) (e : execSecFwBegin port s = .next t) : Keeps ⟨φ, False, ψ⟩ s₀ t := by
  unfold execSecFwBegin at e
  cases e
  repeat' first
    | with_reducible assumption
    | with_reducible apply State.modFlashSlot_keeps
    | with_reducible apply State.modFlash_keeps
    | with_reducible apply State.modSec_keeps
    | split
    | (fail_if_no_progress with_reducible apply Keeps.upd)
    | dsimp only

theorem execFwEraseDone_keeps {κ : Kept} {s₀ s t : State} (h : Keeps κ s₀ s) (e : execFwEraseDone s = .next t) : Keeps κ s₀ t := by
  unfold execFwEraseDone at e
  cases e
  repeat' first
    | with_reducible assumption
    | with_reducible apply State.modSec_keeps
    | split
    | (fail_if_no_progress with_reducible apply Keeps.upd)
    | dsimp only

theorem execSecFwLoad_keeps {φ ψ : Prop} {s₀ s t : State} (h : Keeps ⟨φ, False, ψ⟩ s₀ s) (port : Port) (value : W32) (e : execSecFwLoad port value s = .next t) :
    Keeps ⟨φ, False, ψ⟩ s₀ t := by
  unfold execSecFwLoad at e
  cases e
  repeat' first
    | with_reducible assumption
    | with_reducible apply State.modFlashSlot_keeps
    | with_reducible apply State.modSec_keeps
    | with_reducible apply State.modFlash_keeps
    | split
    | (fail_if_no_progress with_reducible apply Keeps.upd)
    | dsimp only

theorem execSecFwCheck_keeps {κ : Kept} {s₀ s t : State} (h : Keeps κ s₀ s) (port : Port) (e : execSecFwCheck port s = .next t) : Keeps κ s₀ t := by
  unfold execSecFwCheck at e
  cases e
  repeat' first
    | with_reducible assumption
    | with_reducible apply State.modSec_keeps
    | split
    | (fail_if_no_progress with_reducible apply Keeps.upd)
    | dsimp only

theorem execFwLoadDone_keeps {κ : Kept} {s₀ s t : State} (h : Keeps κ s₀ s) (e : execFwLoadDone s = .next t) : Keeps κ s₀ t := by
  unfold execFwLoadDone at e
  cases e
  repeat' first
    | with_reducible assumption
    | with_reducible apply State.draw_keeps
    | with_reducible apply State.modSec_keeps
    | with_reducible apply State.toOwner_keeps
    | with_reducible apply Keeps.fst (by assumption)
    | with_reducible apply Keeps.snd (by assumption)
    | split
    | (fail_if_no_progress with_reducible apply Keeps.upd)
    | dsimp only

theorem execSecFwActivate_keeps {φ ψ : Prop} {s₀ s t : State} (h : Keeps ⟨φ, False, ψ⟩ s₀ s) (port : Port) (e : execSecFwActivate port s = .next t) : Keeps ⟨φ, False, ψ⟩ s₀ t
    := by
  unfold execSecFwActivate at e
  cases e
  repeat' first
    | with_reducible assumption
    | with_reducible apply State.modFlash_keeps
    | with_reducible apply State.modSec_keeps
    | split
    | (fail_if_no_progress with_reducible apply Keeps.upd)
    | dsimp only
    | exact rfl
    | exact le_rfl
    | exact id

theorem execSecFwEnrol_keeps {φ ψ : Prop} {s₀ s t : State} (h : Keeps ⟨φ, False, ψ⟩ s₀ s) (port : Port) (e : execSecFwEnrol port s = .next t) : Keeps ⟨φ, False, ψ⟩ s₀ t := by
  unfold execSecFwEnrol at e
  cases e
  repeat' first
    | with_reducible assumption
    | with_reducible apply State.modFlash_keeps
    | with_reducible apply State.modSec_keeps
    | with_reducible apply State.drawNonce_keeps
    | split
    | (fail_if_no_progress with_reducible apply Keeps.upd)
    | dsimp only
    | exact rfl
    | exact le_rfl
    | exact id

theorem execSecFwCommitSvn_keeps {κ : Kept} {s₀ s t : State} (h : Keeps κ s₀ s) (port : Port) (e : execSecFwCommitSvn port s = .next t) : Keeps κ s₀ t
    := by
  unfold execSecFwCommitSvn at e
  cases e
  repeat' first
    | with_reducible assumption
    | with_reducible apply State.modSec_keeps
    | split
    | (fail_if_no_progress with_reducible apply Keeps.upd)
    | dsimp only

theorem execFuseWriteDone_keeps {φ ψ : Prop} {s₀ s t : State} (h : Keeps ⟨φ, False, ψ⟩ s₀ s) (e : execFuseWriteDone s = .next t) : Keeps ⟨φ, False, ψ⟩ s₀ t := by
  unfold execFuseWriteDone at e
  cases e
  split
  · have k := State.modSec_keeps h (fun x => { x with busy := .none }) rfl rfl
    dsimp only
    split
    · next c => exact State.modFlash_keeps k _ (Nat.le_of_lt c.1) (fun _ => c.2) id
    · exact k
  · exact h

theorem State.modSpdm_keeps {κ : Kept} {s₀ s : State} (h : Keeps κ s₀ s) (port : Port) (f : Spdm → Spdm) : Keeps κ s₀ (State.modSpdm s port f) := by
  unfold State.modSpdm
  repeat' first
    | with_reducible assumption
    | with_reducible apply State.modPort_keeps

theorem State.reply_keeps {κ : Kept} {s₀ s : State} (h : Keeps κ s₀ s) (port : Port) (r : SpdmReply) : Keeps κ s₀ (State.reply s port r) := by
  unfold State.reply
  repeat' first
    | with_reducible assumption
    | with_reducible apply State.send_keeps

theorem State.spdmReq_keeps {κ : Kept} {s₀ s : State} (h : Keeps κ s₀ s) (port : Port) (body : Spdm → State) (hb : ∀ x, Keeps κ s₀ (body x)) : Keeps κ
    s₀ (State.spdmReq s port body) := by
  unfold State.spdmReq
  repeat' first
    | with_reducible assumption
    | with_reducible apply State.reply_keeps
    | with_reducible apply hb
    | split
    | (fail_if_no_progress with_reducible apply Keeps.upd)
    | dsimp only

theorem State.keyReq_keeps {κ : Kept} {s₀ s : State} (h : Keeps κ s₀ s) (port : Port) (body : Spdm → State) (hb : ∀ x, Keeps κ s₀ (body x)) : Keeps κ
    s₀ (State.keyReq s port body) := by
  unfold State.keyReq
  repeat' first
    | with_reducible assumption
    | with_reducible apply State.spdmReq_keeps
    | with_reducible apply State.reply_keeps
    | with_reducible apply hb
    | intro _
    | split

theorem State.inSession_keeps {κ : Kept} {s₀ s : State} (h : Keeps κ s₀ s) (port : Port) (id : Nat) (body : State) (hb : Keeps κ s₀ body) : Keeps κ s₀
    (State.inSession s port id body) := by
  unfold State.inSession
  repeat' first
    | with_reducible assumption
    | with_reducible apply State.spdmReq_keeps
    | with_reducible apply State.reply_keeps
    | with_reducible apply hb
    | intro _
    | split

theorem execGetVersion_keeps {κ : Kept} {s₀ s t : State} (h : Keeps κ s₀ s) (port : Port) (e : execGetVersion port s = .next t) : Keeps κ s₀ t := by
  unfold execGetVersion at e
  cases e
  repeat' first
    | with_reducible assumption
    | with_reducible apply State.modSpdm_keeps
    | with_reducible apply State.reply_keeps
    | split

theorem execGetCapabilities_keeps {κ : Kept} {s₀ s t : State} (h : Keeps κ s₀ s) (port : Port) (e : execGetCapabilities port s = .next t) : Keeps κ s₀
    t := by
  unfold execGetCapabilities at e
  cases e
  repeat' first
    | with_reducible assumption
    | with_reducible apply State.reply_keeps
    | split

theorem execNegotiateAlgorithms_keeps {κ : Kept} {s₀ s t : State} (h : Keeps κ s₀ s) (port : Port) (e : execNegotiateAlgorithms port s = .next t) :
    Keeps κ s₀ t := by
  unfold execNegotiateAlgorithms at e
  cases e
  repeat' first
    | with_reducible assumption
    | with_reducible apply State.modSpdm_keeps
    | with_reducible apply State.reply_keeps
    | split

theorem execGetDigests_keeps {κ : Kept} {s₀ s t : State} (h : Keeps κ s₀ s) (port : Port) (e : execGetDigests port s = .next t) : Keeps κ s₀ t := by
  unfold execGetDigests at e
  cases e
  repeat' first
    | with_reducible assumption
    | with_reducible apply State.spdmReq_keeps
    | with_reducible apply State.reply_keeps
    | intro _

theorem execGetCertificate_keeps {κ : Kept} {s₀ s t : State} (h : Keeps κ s₀ s) (port : Port) (slot : Nat) (offset : Nat) (len : Nat) (e :
    execGetCertificate port slot offset len s = .next t) : Keeps κ s₀ t := by
  unfold execGetCertificate at e
  cases e
  repeat' first
    | with_reducible assumption
    | with_reducible apply State.spdmReq_keeps
    | with_reducible apply State.reply_keeps
    | intro _

theorem execChallenge_keeps {κ : Kept} {s₀ s t : State} (h : Keeps κ s₀ s) (port : Port) (nonce : List Byte) (e : execChallenge port nonce s = .next
    t) : Keeps κ s₀ t := by
  unfold execChallenge at e
  cases e
  repeat' first
    | with_reducible assumption
    | with_reducible apply State.keyReq_keeps
    | with_reducible apply State.reply_keeps
    | intro _

theorem execGetMeasurements_keeps {κ : Kept} {s₀ s t : State} (h : Keeps κ s₀ s) (port : Port) (index : Nat) (sign : Bool) (nonce : List Byte) (e :
    execGetMeasurements port index sign nonce s = .next t) : Keeps κ s₀ t := by
  unfold execGetMeasurements at e
  cases e
  repeat' first
    | with_reducible assumption
    | with_reducible apply State.spdmReq_keeps
    | with_reducible apply State.reply_keeps
    | intro _
    | split
    | (fail_if_no_progress with_reducible apply Keeps.upd)
    | dsimp only

theorem execKeyExchange_keeps {κ : Kept} {s₀ s t : State} (h : Keeps κ s₀ s) (port : Port) (exchange : List Byte) (e : execKeyExchange port exchange s
    = .next t) : Keeps κ s₀ t := by
  unfold execKeyExchange at e
  cases e
  repeat' first
    | with_reducible assumption
    | with_reducible apply State.keyReq_keeps
    | with_reducible apply State.reply_keeps
    | with_reducible apply State.modSpdm_keeps
    | intro _
    | split

theorem execFinish_keeps {κ : Kept} {s₀ s t : State} (h : Keeps κ s₀ s) (port : Port) (session : Nat) (verify : List Byte) (e : execFinish port
    session verify s = .next t) : Keeps κ s₀ t := by
  unfold execFinish at e
  cases e
  repeat' first
    | with_reducible assumption
    | with_reducible apply State.spdmReq_keeps
    | with_reducible apply State.modSpdm_keeps
    | with_reducible apply State.reply_keeps
    | intro _
    | split

theorem execHeartbeat_keeps {κ : Kept} {s₀ s t : State} (h : Keeps κ s₀ s) (port : Port) (session : Nat) (e : execHeartbeat port session s = .next t)
    : Keeps κ s₀ t := by
  unfold execHeartbeat at e
  cases e
  repeat' first
    | with_reducible assumption
    | with_reducible apply State.inSession_keeps
    | with_reducible apply State.reply_keeps

theorem execKeyUpdate_keeps {κ : Kept} {s₀ s t : State} (h : Keeps κ s₀ s) (port : Port) (session : Nat) (e : execKeyUpdate port session s = .next t)
    : Keeps κ s₀ t := by
  unfold execKeyUpdate at e
  cases e
  repeat' first
    | with_reducible assumption
    | with_reducible apply State.inSession_keeps
    | with_reducible apply State.modSpdm_keeps
    | with_reducible apply State.reply_keeps

theorem execEndSession_keeps {κ : Kept} {s₀ s t : State} (h : Keeps κ s₀ s) (port : Port) (session : Nat) (e : execEndSession port session s = .next
    t) : Keeps κ s₀ t := by
  unfold execEndSession at e
  cases e
  repeat' first
    | with_reducible assumption
    | with_reducible apply State.inSession_keeps
    | with_reducible apply State.modSpdm_keeps
    | with_reducible apply State.reply_keeps

theorem execIdeKm_keeps {κ : Kept} {s₀ s t : State} (h : Keeps κ s₀ s) (port : Port) (session : Nat) (kset : Fin 2) (dir : Fin 2) (key : List Byte) (e
    : execIdeKm port session kset dir key s = .next t) : Keeps κ s₀ t := by
  unfold execIdeKm at e
  cases e
  repeat' first
    | with_reducible assumption
    | with_reducible apply State.inSession_keeps
    | with_reducible apply State.modPort_keeps
    | with_reducible apply State.reply_keeps

end Sys2Proof.Machine
end

