-- ==== Sys2Proof/Laws/PowerKeeps.lean ====
section
/-! SUPPORT. What the shared operations of Machine/Power.lean keep. -/

namespace Sys2Proof.Machine

theorem State.modPower_keeps {φ ψ : Prop} {s₀ s : State} (h : Keeps ⟨False, φ, ψ⟩ s₀ s) (f : Power → Power)
    (hp : s.power.sharesLegal → (f s.power).sharesLegal) : Keeps ⟨False, φ, ψ⟩ s₀ (s.modPower f) := h.updPower _ hp

theorem State.modPins_keeps {κ : Kept} {s₀ s : State} (h : Keeps κ s₀ s) (f : PinSt → PinSt) : Keeps κ s₀ (State.modPins s f) := by
  unfold State.modPins
  repeat' first
    | with_reducible assumption
    | split
    | (fail_if_no_progress with_reducible apply Keeps.upd)

theorem State.blank_keeps {φ : Prop} {s₀ s : State} (h : Keeps ⟨False, φ, False⟩ s₀ s) : Keeps ⟨False, φ, False⟩ s₀ s.blank :=
  ⟨h.pending, h.out, fun _ => rfl, fun _ => rfl, fun _ => (by decide : (1 ≤ 16 ∧ 16 ≤ 16) ∧ (1 ≤ 16 ∧ 16 ≤ 16) ∧ 1 ≤ 16 ∧ 16 ≤ 16), h.svn,
   h.svnSteps, h.ash, nofun, h.firmware, nofun, fun _ a => (nomatch a)⟩

theorem State.powerDown_keeps {φ : Prop} {s₀ s : State} (h : Keeps ⟨False, φ, False⟩ s₀ s) (cause : Nat) : Keeps ⟨False, φ, False⟩ s₀ (s.powerDown cause) := by
  have k := State.blank_keeps h
  exact k.updAsh _ ⟨rfl, rfl, rfl, rfl, rfl, rfl⟩ id

theorem execPwrEnFall_keeps {φ : Prop} {s₀ s t : State} (h : Keeps ⟨False, φ, False⟩ s₀ s) (e : execPwrEnFall s = .next t) : Keeps ⟨False, φ, False⟩ s₀ t := by
  unfold execPwrEnFall at e
  cases e
  split
  · split
    · exact State.modPins_keeps h _
    · exact State.modPins_keeps (State.powerDown_keeps h _) _
  · exact h

theorem State.protect_keeps {φ : Prop} {s₀ s : State} (h : Keeps ⟨False, φ, False⟩ s₀ s) (cause : Nat) :
    Keeps ⟨False, φ, False⟩ s₀ (s.protect cause) := by
  unfold State.protect
  split
  · exact h
  · exact State.powerDown_keeps h cause

theorem execUndervoltage_keeps {φ : Prop} {s₀ s t : State} (h : Keeps ⟨False, φ, False⟩ s₀ s) (e : execUndervoltage s = .next t) : Keeps ⟨False, φ, False⟩ s₀ t := by
  cases e
  exact State.protect_keeps h _

theorem execOvervoltage_keeps {φ : Prop} {s₀ s t : State} (h : Keeps ⟨False, φ, False⟩ s₀ s) (e : execOvervoltage s = .next t) : Keeps ⟨False, φ, False⟩ s₀ t := by
  cases e
  exact State.protect_keeps h _

theorem execOvercurrent_keeps {φ : Prop} {s₀ s t : State} (h : Keeps ⟨False, φ, False⟩ s₀ s) (e : execOvercurrent s = .next t) : Keeps ⟨False, φ, False⟩ s₀ t := by
  cases e
  exact State.protect_keeps h _

theorem State.trip_keeps {φ : Prop} {s₀ s : State} (h : Keeps ⟨False, φ, False⟩ s₀ s) : Keeps ⟨False, φ, False⟩ s₀ s.trip := by
  unfold State.trip
  exact State.modPins_keeps (State.powerDown_keeps (State.draw_keeps h) _) _

theorem execPwrEnRise_keeps {φ : Prop} {s₀ s t : State} (h : Keeps ⟨False, φ, False⟩ s₀ s) (s1 s2 s3 : BitVec 4) (e : execPwrEnRise s1 s2 s3 s = .next t) : Keeps ⟨False, φ, False⟩ s₀ t := by
  unfold execPwrEnRise at e
  cases e
  split
  · exact State.drawNonce_keeps (State.modPower_keeps ((State.modPins_keeps (State.blank_keeps h) _).upd ..) _ id)
  · exact h

theorem execModResetAssert_keeps {φ ψ : Prop} {s₀ s t : State} (h : Keeps ⟨False, φ, ψ⟩ s₀ s) (e : execModResetAssert s = .next t) :
    Keeps ⟨False, φ, ψ⟩ s₀ t := by
  unfold execModResetAssert at e
  cases e
  split
  · exact h
  · have k := State.blank_keeps (h.weaken (μ := ⟨False, φ, False⟩) id id nofun)
    refine State.releaseAlert_keeps ?_
    exact ⟨k.pending, k.out, k.sheet, k.peat, k.shares, k.svn, k.svnSteps, k.ash, nofun, k.firmware, h.latch, fun _ _ => rfl⟩

theorem execModResetDeassert_keeps {φ ψ : Prop} {s₀ s t : State} (h : Keeps ⟨False, φ, ψ⟩ s₀ s) (e : execModResetDeassert s = .next t) : Keeps ⟨False, φ, ψ⟩ s₀ t := by
  unfold execModResetDeassert at e
  cases e
  repeat' first
    | with_reducible assumption
    | with_reducible apply State.modPins_keeps
    | with_reducible apply State.modPower_keeps
    | with_reducible apply State.drawNonce_keeps
    | split
    | (fail_if_no_progress with_reducible apply Keeps.upd)
    | dsimp only
    | exact rfl
    | exact le_rfl
    | exact id

theorem State.replayOne_keeps {κ : Kept} {s₀ s : State} (h : Keeps κ s₀ s) (r : AshRec) : Keeps κ s₀ (State.replayOne s r) := by
  unfold State.replayOne
  repeat' first
    | with_reducible assumption
    | with_reducible apply State.modDie_keeps
    | with_reducible apply State.modUnits_keeps
    | with_reducible apply State.fenceSite_keeps
    | with_reducible apply State.moveMasks_keeps
    | with_reducible apply State.modPort_keeps
    | split
    | (fail_if_no_progress with_reducible apply Keeps.upd)
    | dsimp only

theorem State.replay_keeps {κ : Kept} {s₀ s : State} (h : Keeps κ s₀ s) : Keeps κ s₀ (State.replay s) := by
  unfold State.replay
  repeat' first
    | with_reducible assumption
    | with_reducible apply State.replayOne_keeps
    | (with_reducible apply Keeps.foldl; intro _ _ _; try dsimp only)

theorem State.tellPower_keeps {κ : Kept} {s₀ s : State} (h : Keeps κ s₀ s) (old : Nat) (new : Nat) : Keeps κ s₀ (State.tellPower s old new) := by
  unfold State.tellPower
  repeat' first
    | with_reducible assumption
    | with_reducible apply State.toOwner_keeps

theorem State.dropLinks_keeps {κ : Kept} {s₀ s : State} (h : Keeps κ s₀ s) : Keeps κ s₀ (State.dropLinks s) := by
  unfold State.dropLinks
  repeat' first
    | with_reducible assumption
    | with_reducible apply State.modPort_keeps
    | (with_reducible apply Keeps.foldl; intro _ _ _; try dsimp only)
    | split

theorem State.wiresTrained_keeps {κ : Kept} {s₀ s : State} (h : Keeps κ s₀ s) : Keeps κ s₀ (State.wiresTrained s) := by
  unfold State.wiresTrained
  repeat' first
    | with_reducible assumption
    | with_reducible apply State.retireDie_keeps
    | (with_reducible apply Keeps.foldl; intro _ _ _; try dsimp only)

theorem State.raiseRails_keeps {φ ψ : Prop} {s₀ s : State} (h : Keeps ⟨False, φ, ψ⟩ s₀ s) (trainFailed : List DieId) : Keeps ⟨False, φ, ψ⟩ s₀ (State.raiseRails s trainFailed)
    := by
  unfold State.raiseRails
  repeat' first
    | with_reducible assumption
    | with_reducible apply State.modPower_keeps
    | with_reducible apply State.replay_keeps
    | with_reducible apply State.loadFactory_keeps
    | with_reducible apply State.wiresTrained_keeps
    | with_reducible apply State.retireDie_keeps
    | (with_reducible apply Keeps.foldl; intro _ _ _; try dsimp only)
    | split
    | (fail_if_no_progress with_reducible apply Keeps.upd)
    | dsimp only
    | exact rfl
    | exact le_rfl
    | exact id
    | assumption
    | exact fun a => ⟨⟨Nat.le_of_ble_eq_true rfl, Nat.le_of_ble_eq_true rfl⟩, a.2⟩
    | (fail_if_no_progress with_reducible apply Keeps.updAll)
    | exact id
    | exact le_rfl
    | exact Memory.wf_zeroN _ _ _
    | exact Memory.wf_writeN _ _ _
    | exact Memory.wf_filter _ _
    | exact fun _ => Memory.wf_nil
    | exact fun _ => rfl
    | exact fun _ => Flash.sameFirmware_refl _

theorem State.dieAtBoot_keeps {φ ψ : Prop} {s₀ s : State} (h : Keeps ⟨False, φ, ψ⟩ s₀ s) : Keeps ⟨False, φ, ψ⟩ s₀ (State.dieAtBoot s) := by
  unfold State.dieAtBoot
  repeat' first
    | with_reducible assumption
    | with_reducible apply State.modPower_keeps
    | with_reducible apply State.modPins_keeps
    | with_reducible apply State.assertAlert_keeps
    | split
    | (fail_if_no_progress with_reducible apply Keeps.upd)
    | dsimp only
    | exact rfl
    | exact le_rfl
    | exact id

/-- The identity key is derived only without SCAN_LATCH (R354, R366). -/
theorem State.deriveKey_keeps {φ ψ : Prop} {s₀ s : State} (h : Keeps ⟨False, φ, ψ⟩ s₀ s) (f : Sec → Sec) (hl : (f s.sec).scanLatch = s.sec.scanLatch)
    (hk : (f s.sec).keyValid = !s.sec.scanLatch) : Keeps ⟨False, φ, ψ⟩ s₀ (s.modSec f) :=
  ⟨h.pending, h.out, h.sheet, h.peat, h.shares, h.svn, h.svnSteps, h.ash, h.power, h.firmware, fun a b => hl.trans (h.latch a b),
   fun _ a => hk.trans (by rw [← hl, show (f s.sec).scanLatch = true from a]; rfl)⟩

theorem execBootSelfCheckDone_keeps {φ ψ : Prop} {s₀ s t : State} (h : Keeps ⟨False, φ, ψ⟩ s₀ s) (passed : BitVec 4) (env : BootEnv)
    (e : execBootSelfCheckDone passed env s = .next t) : Keeps ⟨False, φ, ψ⟩ s₀ t := by
  unfold execBootSelfCheckDone at e
  cases e
  split
  · exact h
  · split
    · exact State.dieAtBoot_keeps h
    · split
      · exact State.dieAtBoot_keeps h
      · dsimp only
        split
        · exact State.raiseRails_keeps (State.modPower_keeps (State.deriveKey_keeps h _ rfl rfl) _ fun a => a) _
        · exact State.dropLinks_keeps (State.modPower_keeps (State.modPower_keeps (State.deriveKey_keeps h _ rfl rfl) _ fun a => a) _
            fun a => a)

theorem execStandbyCheckTick_keeps {φ ψ : Prop} {s₀ s t : State} (h : Keeps ⟨False, φ, ψ⟩ s₀ s) (env : BootEnv) (e : execStandbyCheckTick env s = .next t) : Keeps ⟨False, φ, ψ⟩
    s₀ t := by
  unfold execStandbyCheckTick at e
  cases e
  repeat' first
    | with_reducible assumption
    | with_reducible apply State.raiseRails_keeps
    | with_reducible apply State.modPower_keeps
    | split
    | (fail_if_no_progress with_reducible apply Keeps.upd)
    | dsimp only
    | exact rfl
    | exact le_rfl
    | exact id

theorem execPwrCtrlOn_keeps {φ ψ : Prop} {s₀ s t : State} (h : Keeps ⟨False, φ, ψ⟩ s₀ s) (port : Port) (e : execPwrCtrlOn port s = .next t) : Keeps ⟨False, φ, ψ⟩ s₀ t := by
  unfold execPwrCtrlOn at e
  cases e
  repeat' first
    | with_reducible assumption
    | with_reducible apply State.raiseRails_keeps
    | split

theorem State.enterBrake_keeps {φ ψ : Prop} {s₀ s : State} (h : Keeps ⟨False, φ, ψ⟩ s₀ s) : Keeps ⟨False, φ, ψ⟩ s₀ (State.enterBrake s) := by
  unfold State.enterBrake
  repeat' first
    | with_reducible assumption
    | with_reducible apply State.modPower_keeps
    | split
    | (fail_if_no_progress with_reducible apply Keeps.upd)
    | dsimp only
    | exact rfl
    | exact le_rfl
    | exact id
    | assumption
    | exact fun a => ⟨⟨Nat.le_of_ble_eq_true rfl, Nat.le_of_ble_eq_true rfl⟩, a.2⟩

theorem State.tellBrake_keeps {φ ψ : Prop} {s₀ s : State} (h : Keeps ⟨False, φ, ψ⟩ s₀ s) : Keeps ⟨False, φ, ψ⟩ s₀ (State.tellBrake s) := by
  unfold State.tellBrake
  repeat' first
    | with_reducible assumption
    | with_reducible apply State.modPower_keeps
    | with_reducible apply State.toAll_keeps
    | split
    | (fail_if_no_progress with_reducible apply Keeps.upd)
    | dsimp only
    | exact rfl
    | exact le_rfl
    | exact id

theorem State.finishInit_keeps {φ ψ : Prop} {s₀ s : State} (h : Keeps ⟨False, φ, ψ⟩ s₀ s) : Keeps ⟨False, φ, ψ⟩ s₀ (State.finishInit s) := by
  unfold State.finishInit
  repeat' first
    | with_reducible assumption
    | with_reducible apply State.modPower_keeps
    | with_reducible apply State.enterBrake_keeps
    | with_reducible apply State.modPart_keeps
    | with_reducible apply State.start_keeps
    | with_reducible apply State.modPins_keeps
    | with_reducible apply State.tellPower_keeps
    | (with_reducible apply Keeps.foldl; intro _ _ _; try dsimp only)
    | split
    | (fail_if_no_progress with_reducible apply Keeps.upd)
    | dsimp only
    | exact rfl
    | exact le_rfl
    | exact id

theorem execPeatInitDone_keeps {φ ψ : Prop} {s₀ s t : State} (h : Keeps ⟨False, φ, ψ⟩ s₀ s) (e : execPeatInitDone s = .next t) : Keeps ⟨False, φ, ψ⟩ s₀ t := by
  unfold execPeatInitDone at e
  cases e
  repeat' first
    | with_reducible assumption
    | with_reducible apply State.modPower_keeps
    | with_reducible apply State.finishInit_keeps
    | split
    | (fail_if_no_progress with_reducible apply Keeps.upd)
    | dsimp only
    | exact rfl
    | exact le_rfl
    | exact id

theorem State.unpowered_keeps {κ : Kept} {s₀ s : State} (h : Keeps κ s₀ s) : Keeps κ s₀ (State.unpowered s) := by
  unfold State.unpowered
  repeat' first
    | with_reducible assumption
    | split
    | (fail_if_no_progress with_reducible apply Keeps.upd)
    | dsimp only
    | (fail_if_no_progress with_reducible apply Keeps.updAll)
    | exact id
    | exact le_rfl
    | exact Memory.wf_zeroN _ _ _
    | exact Memory.wf_writeN _ _ _
    | exact Memory.wf_filter _ _
    | exact fun _ => Memory.wf_nil
    | exact fun _ => rfl
    | exact fun _ => Flash.sameFirmware_refl _

theorem State.leaveBrake_keeps {φ ψ : Prop} {s₀ s : State} (h : Keeps ⟨False, φ, ψ⟩ s₀ s) : Keeps ⟨False, φ, ψ⟩ s₀ (State.leaveBrake s) := by
  unfold State.leaveBrake
  repeat' first
    | with_reducible assumption
    | with_reducible apply State.tellBrake_keeps
    | with_reducible apply State.modPower_keeps
    | with_reducible apply State.toAll_keeps
    | split
    | (fail_if_no_progress with_reducible apply Keeps.upd)
    | dsimp only
    | exact rfl
    | exact le_rfl
    | exact id
    | assumption
    | exact fun a => ⟨⟨Nat.le_of_ble_eq_true rfl, Nat.le_of_ble_eq_true rfl⟩, a.2⟩

/-- Shares are legal in STANDBY where they were before it. -/
theorem Power.standby_legal (x : Power) (h : x.sharesLegal) :
    ({ x with phase := .standby, stood := true, brakeTold := true, brakeShare := 16 } : Power).sharesLegal :=
  ⟨⟨Nat.le_of_ble_eq_true rfl, Nat.le_of_ble_eq_true rfl⟩, h.2⟩

theorem execPwrCtrlStandby_keeps {φ ψ : Prop} {s₀ s t : State} (h : Keeps ⟨False, φ, ψ⟩ s₀ s) (port : Port)
    (e : execPwrCtrlStandby port s = .next t) : Keeps ⟨False, φ, ψ⟩ s₀ t := by
  unfold execPwrCtrlStandby at e
  cases e
  split
  · exact State.dropLinks_keeps (State.unpowered_keeps (State.modPower_keeps (State.modPins_keeps (Keeps.foldl _ _
      (fun _ _ k => State.wipePart_keeps k _) (State.tellPower_keeps (by split; exacts [State.leaveBrake_keeps h, h]) _ _)) _) _
      (Power.standby_legal _)))
  · exact h

theorem execBrakeAssert_keeps {φ ψ : Prop} {s₀ s t : State} (h : Keeps ⟨False, φ, ψ⟩ s₀ s) (e : execBrakeAssert s = .next t) : Keeps ⟨False, φ, ψ⟩ s₀ t := by
  unfold execBrakeAssert at e
  cases e
  repeat' first
    | with_reducible assumption
    | with_reducible apply State.modPins_keeps
    | with_reducible apply State.toOwner_keeps
    | with_reducible apply State.tellPower_keeps
    | with_reducible apply State.enterBrake_keeps
    | split
    | (fail_if_no_progress with_reducible apply Keeps.upd)
    | dsimp only

theorem execBrakeDeassert_keeps {κ : Kept} {s₀ s t : State} (h : Keeps κ s₀ s) (e : execBrakeDeassert s = .next t) : Keeps κ s₀ t := by
  unfold execBrakeDeassert at e
  cases e
  repeat' first
    | with_reducible assumption
    | with_reducible apply State.modPins_keeps
    | split

theorem execBrakeDwellEnd_keeps {φ ψ : Prop} {s₀ s t : State} (h : Keeps ⟨False, φ, ψ⟩ s₀ s) (e : execBrakeDwellEnd s = .next t) : Keeps ⟨False, φ, ψ⟩ s₀ t := by
  unfold execBrakeDwellEnd at e
  cases e
  repeat' first
    | with_reducible assumption
    | with_reducible apply State.passTo_keeps
    | with_reducible apply State.modPins_keeps
    | with_reducible apply State.leaveBrake_keeps
    | with_reducible apply State.tellPower_keeps
    | split
    | (fail_if_no_progress with_reducible apply Keeps.upd)
    | dsimp only

theorem execBrakeHeld_keeps {κ : Kept} {s₀ s t : State} (h : Keeps κ s₀ s) (e : execBrakeHeld s = .next t) : Keeps κ s₀ t := by
  unfold execBrakeHeld at e
  cases e
  repeat' first
    | with_reducible assumption
    | with_reducible apply State.passTo_keeps
    | with_reducible apply State.modPins_keeps
    | with_reducible apply State.toOwner_keeps
    | split

theorem execBrakeShareTick_keeps {φ ψ : Prop} {s₀ s t : State} (h : Keeps ⟨False, φ, ψ⟩ s₀ s) (watts : Nat) (e : execBrakeShareTick watts s = .next t) :
    Keeps ⟨False, φ, ψ⟩ s₀ t := by
  unfold execBrakeShareTick at e
  cases e
  split
  · refine (fun k => ?_) (State.modPower_keeps h (fun x => { x with
        brakeShare := if 9600 < watts then max 1 (x.brakeShare - 1) else x.brakeShare
        brakeWattSum := x.brakeWattSum + watts, brakeSamples := x.brakeSamples + 1 }) ?_)
    · generalize State.modPower s _ = u at k ⊢
      dsimp only
      split
      · exact State.tellBrake_keeps k
      · exact k
    · intro a
      refine ⟨?_, a.2⟩
      have := a.1
      dsimp only
      split <;> omega
  · exact h

/-- A share that moves by a sixteenth stays legal. -/
theorem stepShare_legal (n : Nat) (down up : Bool) (h : 1 ≤ n ∧ n ≤ 16) : 1 ≤ stepShare n down up ∧ stepShare n down up ≤ 16 := by
  unfold stepShare
  split
  · omega
  · split <;> omega

theorem execPowerLimitTick_keeps {φ ψ : Prop} {s₀ s t : State} (h : Keeps ⟨False, φ, ψ⟩ s₀ s) (watts current volts : Nat)
    (e : execPowerLimitTick watts current volts s = .next t) : Keeps ⟨False, φ, ψ⟩ s₀ t := by
  unfold execPowerLimitTick at e
  cases e
  dsimp only
  split
  · split
    · exact State.toOwner_keeps (State.modPower_keeps h _ fun a => ⟨a.1, stepShare_legal _ _ _ a.2.1, a.2.2⟩) _ _
    · exact State.modPower_keeps h _ fun a => ⟨a.1, stepShare_legal _ _ _ a.2.1, a.2.2⟩
  · exact h

theorem State.alertHeat_keeps {κ : Kept} {s₀ s : State} (h : Keeps κ s₀ s) : Keeps κ s₀ (State.alertHeat s) := by
  unfold State.alertHeat
  repeat' first
    | with_reducible assumption
    | with_reducible apply State.assertAlert_keeps
    | split

theorem State.coolant_keeps {φ ψ : Prop} {s₀ s : State} (h : Keeps ⟨False, φ, ψ⟩ s₀ s) (t : Thermal) : Keeps ⟨False, φ, ψ⟩ s₀ (State.coolant s t) := by
  unfold State.coolant
  repeat' first
    | with_reducible assumption
    | with_reducible apply State.modPower_keeps
    | with_reducible apply State.toOwner_keeps
    | with_reducible apply State.alertHeat_keeps
    | split
    | (fail_if_no_progress with_reducible apply Keeps.upd)
    | dsimp only
    | exact rfl
    | exact le_rfl
    | exact id

/-- A sample that trips nothing. -/
theorem execThermalSample_keeps_untripped {φ ψ : Prop} {s₀ s t : State} (h : Keeps ⟨False, φ, ψ⟩ s₀ s) (th : Thermal)
    (hn : ¬(110 ≤ th.maxLogic ∨ 105 ≤ th.maxDram)) (e : execThermalSample th s = .next t) : Keeps ⟨False, φ, ψ⟩ s₀ t := by
  unfold execThermalSample at e
  cases e
  dsimp only
  rw [if_neg hn]
  split
  · exact h
  · split
    · refine State.releaseAlert_keeps (State.coolant_keeps ?_ _)
      split
      · exact State.alertHeat_keeps (State.toAll_keeps (State.modPower_keeps h _
          fun a => ⟨a.1, a.2.1, stepShare_legal _ _ _ a.2.2⟩) _)
      · exact State.modPower_keeps h _ fun a => ⟨a.1, a.2.1, stepShare_legal _ _ _ a.2.2⟩
    · exact h

theorem execThermalSample_keeps {φ : Prop} {s₀ s t : State} (h : Keeps ⟨False, φ, False⟩ s₀ s) (th : Thermal) (e : execThermalSample th s = .next t) : Keeps ⟨False, φ, False⟩ s₀ t := by
  unfold execThermalSample at e
  cases e
  dsimp only
  split
  · exact h
  · split
    · exact State.trip_keeps h
    · split
      · refine State.releaseAlert_keeps (State.coolant_keeps ?_ _)
        split
        · exact State.alertHeat_keeps (State.toAll_keeps (State.modPower_keeps h _
            fun a => ⟨a.1, a.2.1, stepShare_legal _ _ _ a.2.2⟩) _)
        · exact State.modPower_keeps h _ fun a => ⟨a.1, a.2.1, stepShare_legal _ _ _ a.2.2⟩
      · exact h

theorem execStrapChanged_keeps {κ : Kept} {s₀ s t : State} (h : Keeps κ s₀ s) (levels : BitVec 4) (e : execStrapChanged levels s = .next t) : Keeps κ
    s₀ t := by
  unfold execStrapChanged at e
  cases e
  repeat' first
    | with_reducible assumption
    | with_reducible apply State.modPins_keeps
    | with_reducible apply State.toOwner_keeps
    | split
    | (fail_if_no_progress with_reducible apply Keeps.upd)
    | dsimp only

theorem execAlertHoldExpiry_keeps {κ : Kept} {s₀ s t : State} (h : Keeps κ s₀ s) (e : execAlertHoldExpiry s = .next t) : Keeps κ s₀ t := by
  unfold execAlertHoldExpiry at e
  cases e
  repeat' first
    | with_reducible assumption
    | with_reducible apply State.passTo_keeps
    | with_reducible apply State.releaseAlert_keeps
    | split

theorem execSmbusRequest_keeps {κ : Kept} {s₀ s t : State} (h : Keeps κ s₀ s) (sensor : Nat) (e : execSmbusRequest sensor s = .next t) : Keeps κ s₀ t
    := by
  unfold execSmbusRequest at e
  cases e
  repeat' first
    | with_reducible assumption
    | with_reducible apply State.send_keeps
    | split

theorem execSmbusClkTimeout_keeps {κ : Kept} {s₀ s t : State} (h : Keeps κ s₀ s) (e : execSmbusClkTimeout s = .next t) : Keeps κ s₀ t := by
  unfold execSmbusClkTimeout at e
  cases e
  repeat' first
    | with_reducible assumption

end Sys2Proof.Machine
end

