-- ==== Sys2Proof/Laws/BistKeeps.lean ====
section
/-! SUPPORT. What the shared operations of Machine/Bist.lean keep. -/

namespace Sys2Proof.Machine

theorem State.modBist_keeps {κ : Kept} {s₀ s : State} (h : Keeps κ s₀ s) (f : Bist → Bist) : Keeps κ s₀ (State.modBist s f) := by
  unfold State.modBist
  repeat' first
    | with_reducible assumption
    | split
    | (fail_if_no_progress with_reducible apply Keeps.upd)

theorem State.bistHoldAll_keeps {κ : Kept} {s₀ s : State} (h : Keeps κ s₀ s) (site : Site) : Keeps κ s₀ (State.bistHoldAll s site) := by
  unfold State.bistHoldAll
  repeat' first
    | with_reducible assumption
    | with_reducible apply State.modPart_keeps
    | (with_reducible apply Keeps.foldl; intro _ _ _; try dsimp only)

theorem State.bistResume_keeps {κ : Kept} {s₀ s : State} (h : Keeps κ s₀ s) : Keeps κ s₀ (State.bistResume s) := by
  unfold State.bistResume
  repeat' first
    | with_reducible assumption
    | with_reducible apply State.modPart_keeps
    | (with_reducible apply Keeps.foldl; intro _ _ _; try dsimp only)

theorem State.bistFinish_keeps {κ : Kept} {s₀ s : State} (h : Keeps κ s₀ s) : Keeps κ s₀ (State.bistFinish s) := by
  unfold State.bistFinish
  repeat' first
    | with_reducible assumption
    | with_reducible apply State.modPart_keeps
    | with_reducible apply State.modBist_keeps
    | with_reducible apply State.done_keeps
    | (with_reducible apply Keeps.foldl; intro _ _ _; try dsimp only)
    | split
    | (fail_if_no_progress with_reducible apply Keeps.upd)
    | dsimp only

theorem State.bistRefuse_keeps {κ : Kept} {s₀ s : State} (h : Keeps κ s₀ s) (src : Src) (c : Cmd) (r : Nat) : Keeps κ s₀ (State.bistRefuse s src c r)
    := by
  unfold State.bistRefuse
  repeat' first
    | with_reducible assumption
    | with_reducible apply State.modBist_keeps
    | with_reducible apply State.done_keeps

theorem State.bistBegin_keeps {κ : Kept} {s₀ s : State} (h : Keeps κ s₀ s) (src : Src) (c : Cmd) (site : Site) (tile : Nat) (save : Nat) (spare :
    Option Site) : Keeps κ s₀ (State.bistBegin s src c site tile save spare) := by
  unfold State.bistBegin
  repeat' first
    | with_reducible assumption
    | with_reducible apply State.modBist_keeps
    | with_reducible apply State.modCmd_keeps
    | with_reducible apply State.bistHoldAll_keeps
    | with_reducible apply State.bistSettle_keeps

theorem State.bistRun_keeps {κ : Kept} {s₀ s : State} (h : Keeps κ s₀ s) (src : Src) (c : Cmd) (env : BistEnv) : Keeps κ s₀ (State.bistRun s src c
    env) := by
  unfold State.bistRun
  repeat' first
    | with_reducible assumption
    | with_reducible apply State.done_keeps
    | with_reducible apply State.bistRefuse_keeps
    | with_reducible apply State.modBist_keeps
    | with_reducible apply State.bistBegin_keeps
    | with_reducible apply State.modPart_keeps
    | split
    | (fail_if_no_progress with_reducible apply Keeps.upd)
    | dsimp only

theorem execBistRun_keeps {κ : Kept} {s₀ s t : State} (h : Keeps κ s₀ s) (src : Src) (env : BistEnv) (e : execBistRun src env s = .next t) : Keeps κ
    s₀ t := by
  unfold execBistRun at e
  cases e
  repeat' first
    | with_reducible assumption
    | with_reducible apply State.bistRun_keeps
    | split

theorem execBistSaveDone_keeps {κ : Kept} {s₀ s t : State} (h : Keeps κ s₀ s) (targetFault : Bool) (e : execBistSaveDone targetFault s = .next t) :
    Keeps κ s₀ t := by
  unfold execBistSaveDone at e
  cases e
  repeat' first
    | with_reducible assumption
    | with_reducible apply State.modBist_keeps
    | with_reducible apply State.bistResume_keeps
    | with_reducible apply State.bistFinish_keeps
    | with_reducible apply State.poisonDead_keeps
    | with_reducible apply State.carry_keeps
    | split
    | (fail_if_no_progress with_reducible apply Keeps.upd)
    | dsimp only

theorem State.rowFinding_keeps {κ : Kept} {s₀ s : State} (h : Keeps κ s₀ s) (site : Site) (die : Nat) (bank : Nat) (row : Nat) (spareOk : Bool) :
    Keeps κ s₀ (State.rowFinding s site die bank row spareOk) := by
  unfold State.rowFinding
  repeat' first
    | with_reducible assumption
    | with_reducible apply State.modDie_keeps
    | with_reducible apply State.ashRecord_keeps
    | with_reducible apply State.toLadder_keeps
    | with_reducible apply State.retireRow_keeps
    | split
    | (fail_if_no_progress with_reducible apply Keeps.upd)
    | dsimp only

theorem State.finding_keeps {κ : Kept} {s₀ s : State} (h : Keeps κ s₀ s) (site : Site) (f : Finding) : Keeps κ s₀ (State.finding s site f) := by
  unfold State.finding
  repeat' first
    | with_reducible assumption
    | with_reducible apply State.rowFinding_keeps
    | with_reducible apply State.coreFaulty_keeps
    | with_reducible apply State.retireCluster_keeps
    | with_reducible apply State.engineFaulty_keeps
    | with_reducible apply State.modBist_keeps
    | split

theorem State.tellSubst_keeps {κ : Kept} {s₀ s : State} (h : Keeps κ s₀ s) (site : Site) (sp : Site) (tile : Nat) (copied : Nat) : Keeps κ s₀
    (State.tellSubst s site sp tile copied) := by
  unfold State.tellSubst
  repeat' first
    | with_reducible assumption
    | with_reducible apply State.ashRecord_keeps
    | with_reducible apply State.toLadder_keeps
    | split
    | (fail_if_no_progress with_reducible apply Keeps.upd)

theorem State.bistTested_keeps {κ : Kept} {s₀ s : State} (h : Keeps κ s₀ s) (l : List Finding) : Keeps κ s₀ (State.bistTested s l) := by
  unfold State.bistTested
  repeat' first
    | with_reducible assumption
    | with_reducible apply State.modBist_keeps
    | with_reducible apply State.finding_keeps
    | with_reducible apply State.tellSubst_keeps
    | with_reducible apply State.bistFinish_keeps
    | with_reducible apply State.carry_keeps
    | with_reducible apply State.contained_keeps
    | with_reducible apply State.degrade_keeps
    | with_reducible apply State.bistHoldAll_keeps
    | with_reducible apply State.bistSettle_keeps
    | (with_reducible apply Keeps.foldl; intro _ _ _; try dsimp only)
    | split
    | (fail_if_no_progress with_reducible apply Keeps.upd)
    | dsimp only

theorem execBistTestDone_keeps {κ : Kept} {s₀ s t : State} (h : Keeps κ s₀ s) (findings : List Finding) (e : execBistTestDone findings s = .next t) :
    Keeps κ s₀ t := by
  unfold execBistTestDone at e
  cases e
  repeat' first
    | with_reducible assumption
    | with_reducible apply State.bistTested_keeps
    | split

theorem execBistLimitCheck_keeps {κ : Kept} {s₀ s t : State} (h : Keeps κ s₀ s) (env : BistEnv) (e : execBistLimitCheck env s = .next t) : Keeps κ s₀
    t := by
  unfold execBistLimitCheck at e
  cases e
  repeat' first
    | with_reducible assumption
    | with_reducible apply State.modBist_keeps
    | with_reducible apply State.bistTested_keeps
    | split
    | (fail_if_no_progress with_reducible apply Keeps.upd)
    | dsimp only

theorem execBistRestoreDone_keeps {κ : Kept} {s₀ s t : State} (h : Keeps κ s₀ s) (e : execBistRestoreDone s = .next t) : Keeps κ s₀ t := by
  unfold execBistRestoreDone at e
  cases e
  repeat' first
    | with_reducible assumption
    | with_reducible apply State.poisonDead_keeps
    | with_reducible apply State.carry_keeps
    | with_reducible apply State.modFifo_keeps
    | with_reducible apply State.fenceSite_keeps
    | with_reducible apply State.ashRecord_keeps
    | with_reducible apply State.modBist_keeps
    | with_reducible apply State.bistResume_keeps
    | with_reducible apply State.sweep_keeps
    | with_reducible apply State.bistFinish_keeps
    | split
    | (fail_if_no_progress with_reducible apply Keeps.upd)

theorem execBistClearDone_keeps {κ : Kept} {s₀ s t : State} (h : Keeps κ s₀ s) (e : execBistClearDone s = .next t) : Keeps κ s₀ t := by
  unfold execBistClearDone at e
  cases e
  repeat' first
    | with_reducible assumption
    | with_reducible apply State.zeroSheet_keeps
    | with_reducible apply State.bistFinish_keeps
    | split

theorem State.postSite_keeps {κ : Kept} {s₀ s : State} (h : Keeps κ s₀ s) (site : Site) (l : List Finding) : Keeps κ s₀ (State.postSite s site l) :=
    by
  unfold State.postSite
  repeat' first
    | with_reducible assumption
    | with_reducible apply State.modBist_keeps
    | with_reducible apply State.finding_keeps
    | with_reducible apply State.carry_keeps
    | with_reducible apply State.tellSubst_keeps
    | with_reducible apply State.fenceSite_keeps
    | with_reducible apply State.ashRecord_keeps
    | with_reducible apply State.toLadder_keeps
    | (with_reducible apply Keeps.foldl; intro _ _ _; try dsimp only)
    | split
    | (fail_if_no_progress with_reducible apply Keeps.upd)
    | dsimp only

theorem execPostDone_keeps {φ ψ : Prop} {s₀ s t : State} (h : Keeps ⟨False, φ, ψ⟩ s₀ s) (findings : List (Site × Finding)) (skipped : List Site) (e : execPostDone
    findings skipped s = .next t) : Keeps ⟨False, φ, ψ⟩ s₀ t := by
  unfold execPostDone at e
  cases e
  repeat' first
    | with_reducible assumption
    | with_reducible apply State.postSite_keeps
    | with_reducible apply State.modBist_keeps
    | with_reducible apply State.modPower_keeps
    | with_reducible apply State.finishInit_keeps
    | (with_reducible apply Keeps.foldl; intro _ _ _; try dsimp only)
    | split
    | (fail_if_no_progress with_reducible apply Keeps.upd)
    | dsimp only
    | exact rfl
    | exact le_rfl
    | exact id

theorem State.scanned_keeps {κ : Kept} {s₀ s : State} (h : Keeps κ s₀ s) : Keeps κ s₀ (State.scanned s) := by
  unfold State.scanned
  repeat' first
    | with_reducible assumption
    | split
    | (fail_if_no_progress with_reducible apply Keeps.upd)
    | dsimp only
    | (fail_if_no_progress with_reducible apply Keeps.updAll)
    | exact id
    | exact le_rfl
    | exact Memory.wf_zeroN _ _ _
    | exact Memory.wf_writeN _ _ _
    | exact Memory.wf_filter _ _
    | exact fun _ => Memory.wf_nil
    | exact fun _ => rfl
    | exact fun _ => Flash.sameFirmware_refl _

/-- SCAN_LATCH set, and the key cleared with it (R365). -/
theorem State.setLatch_keeps {κ : Kept} {s₀ s : State} (h : Keeps κ s₀ s) (f : Sec → Sec) (hl : (f s.sec).scanLatch = true)
    (hk : (f s.sec).keyValid = false) : Keeps κ s₀ (s.modSec f) :=
  ⟨h.pending, h.out, h.sheet, h.peat, h.shares, h.svn, h.svnSteps, h.ash, h.power, h.firmware, fun _ _ => hl, fun _ _ => hk⟩

theorem execTestAccessEntry_keeps {κ : Kept} {s₀ s t : State} (h : Keeps κ s₀ s) (instruction : W64)
    (e : execTestAccessEntry instruction s = .next t) : Keeps κ s₀ t := by
  unfold execTestAccessEntry at e
  cases e
  split
  · exact h
  · exact State.releaseAlert_keeps (State.scanned_keeps (Keeps.foldl _ _ (fun _ _ a => State.wipePart_keeps a _)
      (Keeps.foldl _ _ (fun _ _ a => State.modPart_keeps a _ _) (State.toOwner_keeps
        (Keeps.foldl _ _ (fun _ _ a => State.modPort_keeps a _ _) (State.setLatch_keeps h _ rfl rfl)) _ _))))

theorem execTestAccessClearDone_keeps {κ : Kept} {s₀ s t : State} (h : Keeps κ s₀ s) (e : execTestAccessClearDone s = .next t) : Keeps κ s₀ t := by
  unfold execTestAccessClearDone at e
  cases e
  repeat' first
    | with_reducible assumption
    | with_reducible apply State.modSec_keeps
    | split
    | (fail_if_no_progress with_reducible apply Keeps.upd)
    | dsimp only

end Sys2Proof.Machine
end

