-- ==== Sys2Proof/Laws/State.lean ====
section
/-! SUPPORT. The fields of a state after each named update: one lemma for each field, so that no proof unfolds an update. -/

namespace Sys2Proof.Machine

/-! ## One element of a fixed table -/

@[simp] theorem upd_get_same {α : Type} {n : Nat} (v : Vector α n) (i : Fin n) (f : α → α) : (upd v i f).get i = f (v.get i) :=
  Vector.getElem_set_self i.isLt

theorem upd_get_other {α : Type} {n : Nat} (v : Vector α n) (i j : Fin n) (f : α → α) (h : j ≠ i) : (upd v i f).get j = v.get j :=
  Vector.getElem_set_ne i.isLt j.isLt fun e => h (Fin.ext e.symm)

@[simp] theorem State.part_modPart (s : State) (p : Part) (f : Partition → Partition) : (s.modPart p f).part p = f (s.part p) :=
  upd_get_same _ _ _

theorem State.part_modPart_other (s : State) (p q : Part) (f : Partition → Partition) (h : q ≠ p) : (s.modPart p f).part q = s.part q :=
  upd_get_other _ _ _ _ h

@[simp] theorem State.repairs_modRepairs (s : State) (p : Part) (f : List Repair → List Repair) :
    (s.modRepairs p f).repairs = f s.repairs := rfl

@[simp] theorem State.part_modRepairs (s : State) (p : Part) (f : List Repair → List Repair) :
    (s.modRepairs p f).part p = { s.part p with fifo := followRepairs p (f s.repairs) (s.part p).fifo } :=
  upd_get_same _ _ _

theorem State.part_modRepairs_other (s : State) (p q : Part) (f : List Repair → List Repair) (h : q ≠ p) :
    (s.modRepairs p f).part q = s.part q :=
  upd_get_other _ _ _ _ h

@[simp] theorem State.port_modPort (s : State) (p : Port) (f : PortSt → PortSt) : (s.modPort p f).port p = f (s.port p) :=
  upd_get_same _ _ _

theorem State.port_modPort_other (s : State) (p q : Port) (f : PortSt → PortSt) (h : q ≠ p) : (s.modPort p f).port q = s.port q :=
  upd_get_other _ _ _ _ h

/-! ## `modPart` -/

@[simp] theorem State.modPart_pending (s : State) (p : Part) (f : Partition → Partition) : (s.modPart p f).pending = s.pending := rfl
@[simp] theorem State.modPart_ringTime (s : State) (p : Part) (f : Partition → Partition) : (s.modPart p f).ringTime = s.ringTime := rfl
@[simp] theorem State.modPart_uptime (s : State) (p : Part) (f : Partition → Partition) : (s.modPart p f).uptime = s.uptime := rfl
@[simp] theorem State.modPart_fresh (s : State) (p : Part) (f : Partition → Partition) : (s.modPart p f).fresh = s.fresh := rfl
@[simp] theorem State.modPart_out (s : State) (p : Part) (f : Partition → Partition) : (s.modPart p f).out = s.out := rfl
@[simp] theorem State.modPart_power (s : State) (p : Part) (f : Partition → Partition) : (s.modPart p f).power = s.power := rfl
@[simp] theorem State.modPart_pins (s : State) (p : Part) (f : Partition → Partition) : (s.modPart p f).pins = s.pins := rfl
@[simp] theorem State.modPart_pinsCfg (s : State) (p : Part) (f : Partition → Partition) : (s.modPart p f).pinsCfg = s.pinsCfg := rfl
@[simp] theorem State.modPart_ports (s : State) (p : Part) (f : Partition → Partition) : (s.modPart p f).ports = s.ports := rfl
@[simp] theorem State.modPart_parts (s : State) (p : Part) (f : Partition → Partition) : (s.modPart p f).parts = upd s.parts p f := rfl
@[simp] theorem State.modPart_ownerSub (s : State) (p : Part) (f : Partition → Partition) : (s.modPart p f).ownerSub = s.ownerSub := rfl
@[simp] theorem State.modPart_ownerTaken (s : State) (p : Part) (f : Partition → Partition) : (s.modPart p f).ownerTaken = s.ownerTaken := rfl
@[simp] theorem State.modPart_ownerNextCmd (s : State) (p : Part) (f : Partition → Partition) : (s.modPart p f).ownerNextCmd = s.ownerNextCmd := rfl
@[simp] theorem State.modPart_reads (s : State) (p : Part) (f : Partition → Partition) : (s.modPart p f).reads = s.reads := rfl
@[simp] theorem State.modPart_nextTag (s : State) (p : Part) (f : Partition → Partition) : (s.modPart p f).nextTag = s.nextTag := rfl
@[simp] theorem State.modPart_kln (s : State) (p : Part) (f : Partition → Partition) : (s.modPart p f).kln = s.kln := rfl
@[simp] theorem State.modPart_sites (s : State) (p : Part) (f : Partition → Partition) : (s.modPart p f).sites = s.sites := rfl
@[simp] theorem State.modPart_route (s : State) (p : Part) (f : Partition → Partition) : (s.modPart p f).route = s.route := rfl
@[simp] theorem State.modPart_routeDropped (s : State) (p : Part) (f : Partition → Partition) : (s.modPart p f).routeDropped = s.routeDropped := rfl
@[simp] theorem State.modPart_slice (s : State) (p : Part) (f : Partition → Partition) : (s.modPart p f).slice = s.slice := rfl
@[simp] theorem State.modPart_sheet (s : State) (p : Part) (f : Partition → Partition) : (s.modPart p f).sheet = s.sheet := rfl
@[simp] theorem State.modPart_poisoned (s : State) (p : Part) (f : Partition → Partition) : (s.modPart p f).poisoned = s.poisoned := rfl
@[simp] theorem State.modPart_peat (s : State) (p : Part) (f : Partition → Partition) : (s.modPart p f).peat = s.peat := rfl
@[simp] theorem State.modPart_peatPoisoned (s : State) (p : Part) (f : Partition → Partition) : (s.modPart p f).peatPoisoned = s.peatPoisoned := rfl
@[simp] theorem State.modPart_ashList (s : State) (p : Part) (f : Partition → Partition) : (s.modPart p f).ashList = s.ashList := rfl
@[simp] theorem State.modPart_dies (s : State) (p : Part) (f : Partition → Partition) : (s.modPart p f).dies = s.dies := rfl
@[simp] theorem State.modPart_banks (s : State) (p : Part) (f : Partition → Partition) : (s.modPart p f).banks = s.banks := rfl
@[simp] theorem State.modPart_seqs (s : State) (p : Part) (f : Partition → Partition) : (s.modPart p f).seqs = s.seqs := rfl
@[simp] theorem State.modPart_nextSeq (s : State) (p : Part) (f : Partition → Partition) : (s.modPart p f).nextSeq = s.nextSeq := rfl
@[simp] theorem State.modPart_units (s : State) (p : Part) (f : Partition → Partition) : (s.modPart p f).units = s.units := rfl
@[simp] theorem State.modPart_scratch (s : State) (p : Part) (f : Partition → Partition) : (s.modPart p f).scratch = s.scratch := rfl
@[simp] theorem State.modPart_sheetLines (s : State) (p : Part) (f : Partition → Partition) : (s.modPart p f).sheetLines = s.sheetLines := rfl
@[simp] theorem State.modPart_sram (s : State) (p : Part) (f : Partition → Partition) : (s.modPart p f).sram = s.sram := rfl
@[simp] theorem State.modPart_tablesHit (s : State) (p : Part) (f : Partition → Partition) : (s.modPart p f).tablesHit = s.tablesHit := rfl
@[simp] theorem State.modPart_memArb (s : State) (p : Part) (f : Partition → Partition) : (s.modPart p f).memArb = s.memArb := rfl
@[simp] theorem State.modPart_memScrub (s : State) (p : Part) (f : Partition → Partition) : (s.modPart p f).memScrub = s.memScrub := rfl
@[simp] theorem State.modPart_memMargin (s : State) (p : Part) (f : Partition → Partition) : (s.modPart p f).memMargin = s.memMargin := rfl
@[simp] theorem State.modPart_nbCtrl (s : State) (p : Part) (f : Partition → Partition) : (s.modPart p f).nbCtrl = s.nbCtrl := rfl
@[simp] theorem State.modPart_nbMaxWait (s : State) (p : Part) (f : Partition → Partition) : (s.modPart p f).nbMaxWait = s.nbMaxWait := rfl
@[simp] theorem State.modPart_peatArb (s : State) (p : Part) (f : Partition → Partition) : (s.modPart p f).peatArb = s.peatArb := rfl
@[simp] theorem State.modPart_peatCtrl (s : State) (p : Part) (f : Partition → Partition) : (s.modPart p f).peatCtrl = s.peatCtrl := rfl
@[simp] theorem State.modPart_peatSupplyTimeout (s : State) (p : Part) (f : Partition → Partition) : (s.modPart p f).peatSupplyTimeout = s.peatSupplyTimeout := rfl
@[simp] theorem State.modPart_peatMargin (s : State) (p : Part) (f : Partition → Partition) : (s.modPart p f).peatMargin = s.peatMargin := rfl
@[simp] theorem State.modPart_peatRetired (s : State) (p : Part) (f : Partition → Partition) : (s.modPart p f).peatRetired = s.peatRetired := rfl
@[simp] theorem State.modPart_peatScrubBad (s : State) (p : Part) (f : Partition → Partition) : (s.modPart p f).peatScrubBad = s.peatScrubBad := rfl
@[simp] theorem State.modPart_xfers (s : State) (p : Part) (f : Partition → Partition) : (s.modPart p f).xfers = s.xfers := rfl
@[simp] theorem State.modPart_arrivals (s : State) (p : Part) (f : Partition → Partition) : (s.modPart p f).arrivals = s.arrivals := rfl
@[simp] theorem State.modPart_repairs (s : State) (p : Part) (f : Partition → Partition) : (s.modPart p f).repairs = s.repairs := rfl
@[simp] theorem State.modPart_ring (s : State) (p : Part) (f : Partition → Partition) : (s.modPart p f).ring = s.ring := rfl
@[simp] theorem State.modPart_fltCtrl (s : State) (p : Part) (f : Partition → Partition) : (s.modPart p f).fltCtrl = s.fltCtrl := rfl
@[simp] theorem State.modPart_fatal (s : State) (p : Part) (f : Partition → Partition) : (s.modPart p f).fatal = s.fatal := rfl
@[simp] theorem State.modPart_ashLogFull (s : State) (p : Part) (f : Partition → Partition) : (s.modPart p f).ashLogFull = s.ashLogFull := rfl
@[simp] theorem State.modPart_sheetFifo (s : State) (p : Part) (f : Partition → Partition) : (s.modPart p f).sheetFifo = s.sheetFifo := rfl
@[simp] theorem State.modPart_substs (s : State) (p : Part) (f : Partition → Partition) : (s.modPart p f).substs = s.substs := rfl
@[simp] theorem State.modPart_tileUnits (s : State) (p : Part) (f : Partition → Partition) : (s.modPart p f).tileUnits = s.tileUnits := rfl
@[simp] theorem State.modPart_flash (s : State) (p : Part) (f : Partition → Partition) : (s.modPart p f).flash = s.flash := rfl
@[simp] theorem State.modPart_ashPending (s : State) (p : Part) (f : Partition → Partition) : (s.modPart p f).ashPending = s.ashPending := rfl
@[simp] theorem State.modPart_ashUnrecorded (s : State) (p : Part) (f : Partition → Partition) : (s.modPart p f).ashUnrecorded = s.ashUnrecorded := rfl
@[simp] theorem State.modPart_sec (s : State) (p : Part) (f : Partition → Partition) : (s.modPart p f).sec = s.sec := rfl
@[simp] theorem State.modPart_bist (s : State) (p : Part) (f : Partition → Partition) : (s.modPart p f).bist = s.bist := rfl
@[simp] theorem State.modPart_port (s : State) (p : Part) (f : Partition → Partition) (q : Port) : (s.modPart p f).port q = s.port q := rfl

/-! ## `modPort` -/

@[simp] theorem State.modPort_pending (s : State) (p : Port) (f : PortSt → PortSt) : (s.modPort p f).pending = s.pending := rfl
@[simp] theorem State.modPort_ringTime (s : State) (p : Port) (f : PortSt → PortSt) : (s.modPort p f).ringTime = s.ringTime := rfl
@[simp] theorem State.modPort_uptime (s : State) (p : Port) (f : PortSt → PortSt) : (s.modPort p f).uptime = s.uptime := rfl
@[simp] theorem State.modPort_fresh (s : State) (p : Port) (f : PortSt → PortSt) : (s.modPort p f).fresh = s.fresh := rfl
@[simp] theorem State.modPort_out (s : State) (p : Port) (f : PortSt → PortSt) : (s.modPort p f).out = s.out := rfl
@[simp] theorem State.modPort_power (s : State) (p : Port) (f : PortSt → PortSt) : (s.modPort p f).power = s.power := rfl
@[simp] theorem State.modPort_pins (s : State) (p : Port) (f : PortSt → PortSt) : (s.modPort p f).pins = s.pins := rfl
@[simp] theorem State.modPort_pinsCfg (s : State) (p : Port) (f : PortSt → PortSt) : (s.modPort p f).pinsCfg = s.pinsCfg := rfl
@[simp] theorem State.modPort_ports (s : State) (p : Port) (f : PortSt → PortSt) : (s.modPort p f).ports = upd s.ports p f := rfl
@[simp] theorem State.modPort_parts (s : State) (p : Port) (f : PortSt → PortSt) : (s.modPort p f).parts = s.parts := rfl
@[simp] theorem State.modPort_ownerSub (s : State) (p : Port) (f : PortSt → PortSt) : (s.modPort p f).ownerSub = s.ownerSub := rfl
@[simp] theorem State.modPort_ownerTaken (s : State) (p : Port) (f : PortSt → PortSt) : (s.modPort p f).ownerTaken = s.ownerTaken := rfl
@[simp] theorem State.modPort_ownerNextCmd (s : State) (p : Port) (f : PortSt → PortSt) : (s.modPort p f).ownerNextCmd = s.ownerNextCmd := rfl
@[simp] theorem State.modPort_reads (s : State) (p : Port) (f : PortSt → PortSt) : (s.modPort p f).reads = s.reads := rfl
@[simp] theorem State.modPort_nextTag (s : State) (p : Port) (f : PortSt → PortSt) : (s.modPort p f).nextTag = s.nextTag := rfl
@[simp] theorem State.modPort_kln (s : State) (p : Port) (f : PortSt → PortSt) : (s.modPort p f).kln = s.kln := rfl
@[simp] theorem State.modPort_sites (s : State) (p : Port) (f : PortSt → PortSt) : (s.modPort p f).sites = s.sites := rfl
@[simp] theorem State.modPort_route (s : State) (p : Port) (f : PortSt → PortSt) : (s.modPort p f).route = s.route := rfl
@[simp] theorem State.modPort_routeDropped (s : State) (p : Port) (f : PortSt → PortSt) : (s.modPort p f).routeDropped = s.routeDropped := rfl
@[simp] theorem State.modPort_slice (s : State) (p : Port) (f : PortSt → PortSt) : (s.modPort p f).slice = s.slice := rfl
@[simp] theorem State.modPort_sheet (s : State) (p : Port) (f : PortSt → PortSt) : (s.modPort p f).sheet = s.sheet := rfl
@[simp] theorem State.modPort_poisoned (s : State) (p : Port) (f : PortSt → PortSt) : (s.modPort p f).poisoned = s.poisoned := rfl
@[simp] theorem State.modPort_peat (s : State) (p : Port) (f : PortSt → PortSt) : (s.modPort p f).peat = s.peat := rfl
@[simp] theorem State.modPort_peatPoisoned (s : State) (p : Port) (f : PortSt → PortSt) : (s.modPort p f).peatPoisoned = s.peatPoisoned := rfl
@[simp] theorem State.modPort_ashList (s : State) (p : Port) (f : PortSt → PortSt) : (s.modPort p f).ashList = s.ashList := rfl
@[simp] theorem State.modPort_dies (s : State) (p : Port) (f : PortSt → PortSt) : (s.modPort p f).dies = s.dies := rfl
@[simp] theorem State.modPort_banks (s : State) (p : Port) (f : PortSt → PortSt) : (s.modPort p f).banks = s.banks := rfl
@[simp] theorem State.modPort_seqs (s : State) (p : Port) (f : PortSt → PortSt) : (s.modPort p f).seqs = s.seqs := rfl
@[simp] theorem State.modPort_nextSeq (s : State) (p : Port) (f : PortSt → PortSt) : (s.modPort p f).nextSeq = s.nextSeq := rfl
@[simp] theorem State.modPort_units (s : State) (p : Port) (f : PortSt → PortSt) : (s.modPort p f).units = s.units := rfl
@[simp] theorem State.modPort_scratch (s : State) (p : Port) (f : PortSt → PortSt) : (s.modPort p f).scratch = s.scratch := rfl
@[simp] theorem State.modPort_sheetLines (s : State) (p : Port) (f : PortSt → PortSt) : (s.modPort p f).sheetLines = s.sheetLines := rfl
@[simp] theorem State.modPort_sram (s : State) (p : Port) (f : PortSt → PortSt) : (s.modPort p f).sram = s.sram := rfl
@[simp] theorem State.modPort_tablesHit (s : State) (p : Port) (f : PortSt → PortSt) : (s.modPort p f).tablesHit = s.tablesHit := rfl
@[simp] theorem State.modPort_memArb (s : State) (p : Port) (f : PortSt → PortSt) : (s.modPort p f).memArb = s.memArb := rfl
@[simp] theorem State.modPort_memScrub (s : State) (p : Port) (f : PortSt → PortSt) : (s.modPort p f).memScrub = s.memScrub := rfl
@[simp] theorem State.modPort_memMargin (s : State) (p : Port) (f : PortSt → PortSt) : (s.modPort p f).memMargin = s.memMargin := rfl
@[simp] theorem State.modPort_nbCtrl (s : State) (p : Port) (f : PortSt → PortSt) : (s.modPort p f).nbCtrl = s.nbCtrl := rfl
@[simp] theorem State.modPort_nbMaxWait (s : State) (p : Port) (f : PortSt → PortSt) : (s.modPort p f).nbMaxWait = s.nbMaxWait := rfl
@[simp] theorem State.modPort_peatArb (s : State) (p : Port) (f : PortSt → PortSt) : (s.modPort p f).peatArb = s.peatArb := rfl
@[simp] theorem State.modPort_peatCtrl (s : State) (p : Port) (f : PortSt → PortSt) : (s.modPort p f).peatCtrl = s.peatCtrl := rfl
@[simp] theorem State.modPort_peatSupplyTimeout (s : State) (p : Port) (f : PortSt → PortSt) : (s.modPort p f).peatSupplyTimeout = s.peatSupplyTimeout := rfl
@[simp] theorem State.modPort_peatMargin (s : State) (p : Port) (f : PortSt → PortSt) : (s.modPort p f).peatMargin = s.peatMargin := rfl
@[simp] theorem State.modPort_peatRetired (s : State) (p : Port) (f : PortSt → PortSt) : (s.modPort p f).peatRetired = s.peatRetired := rfl
@[simp] theorem State.modPort_peatScrubBad (s : State) (p : Port) (f : PortSt → PortSt) : (s.modPort p f).peatScrubBad = s.peatScrubBad := rfl
@[simp] theorem State.modPort_xfers (s : State) (p : Port) (f : PortSt → PortSt) : (s.modPort p f).xfers = s.xfers := rfl
@[simp] theorem State.modPort_arrivals (s : State) (p : Port) (f : PortSt → PortSt) : (s.modPort p f).arrivals = s.arrivals := rfl
@[simp] theorem State.modPort_repairs (s : State) (p : Port) (f : PortSt → PortSt) : (s.modPort p f).repairs = s.repairs := rfl
@[simp] theorem State.modPort_ring (s : State) (p : Port) (f : PortSt → PortSt) : (s.modPort p f).ring = s.ring := rfl
@[simp] theorem State.modPort_fltCtrl (s : State) (p : Port) (f : PortSt → PortSt) : (s.modPort p f).fltCtrl = s.fltCtrl := rfl
@[simp] theorem State.modPort_fatal (s : State) (p : Port) (f : PortSt → PortSt) : (s.modPort p f).fatal = s.fatal := rfl
@[simp] theorem State.modPort_ashLogFull (s : State) (p : Port) (f : PortSt → PortSt) : (s.modPort p f).ashLogFull = s.ashLogFull := rfl
@[simp] theorem State.modPort_sheetFifo (s : State) (p : Port) (f : PortSt → PortSt) : (s.modPort p f).sheetFifo = s.sheetFifo := rfl
@[simp] theorem State.modPort_substs (s : State) (p : Port) (f : PortSt → PortSt) : (s.modPort p f).substs = s.substs := rfl
@[simp] theorem State.modPort_tileUnits (s : State) (p : Port) (f : PortSt → PortSt) : (s.modPort p f).tileUnits = s.tileUnits := rfl
@[simp] theorem State.modPort_flash (s : State) (p : Port) (f : PortSt → PortSt) : (s.modPort p f).flash = s.flash := rfl
@[simp] theorem State.modPort_ashPending (s : State) (p : Port) (f : PortSt → PortSt) : (s.modPort p f).ashPending = s.ashPending := rfl
@[simp] theorem State.modPort_ashUnrecorded (s : State) (p : Port) (f : PortSt → PortSt) : (s.modPort p f).ashUnrecorded = s.ashUnrecorded := rfl
@[simp] theorem State.modPort_sec (s : State) (p : Port) (f : PortSt → PortSt) : (s.modPort p f).sec = s.sec := rfl
@[simp] theorem State.modPort_bist (s : State) (p : Port) (f : PortSt → PortSt) : (s.modPort p f).bist = s.bist := rfl
@[simp] theorem State.modPort_part (s : State) (p : Port) (f : PortSt → PortSt) (q : Part) : (s.modPort p f).part q = s.part q := rfl

/-! ## `send` -/

@[simp] theorem State.send_pending (s : State) (o : Out) : (s.send o).pending = s.pending := rfl
@[simp] theorem State.send_ringTime (s : State) (o : Out) : (s.send o).ringTime = s.ringTime := rfl
@[simp] theorem State.send_uptime (s : State) (o : Out) : (s.send o).uptime = s.uptime := rfl
@[simp] theorem State.send_fresh (s : State) (o : Out) : (s.send o).fresh = s.fresh := rfl
@[simp] theorem State.send_out (s : State) (o : Out) : (s.send o).out = s.out ++ [o] := rfl
@[simp] theorem State.send_power (s : State) (o : Out) : (s.send o).power = s.power := rfl
@[simp] theorem State.send_pins (s : State) (o : Out) : (s.send o).pins = s.pins := rfl
@[simp] theorem State.send_pinsCfg (s : State) (o : Out) : (s.send o).pinsCfg = s.pinsCfg := rfl
@[simp] theorem State.send_ports (s : State) (o : Out) : (s.send o).ports = s.ports := rfl
@[simp] theorem State.send_parts (s : State) (o : Out) : (s.send o).parts = s.parts := rfl
@[simp] theorem State.send_ownerSub (s : State) (o : Out) : (s.send o).ownerSub = s.ownerSub := rfl
@[simp] theorem State.send_ownerTaken (s : State) (o : Out) : (s.send o).ownerTaken = s.ownerTaken := rfl
@[simp] theorem State.send_ownerNextCmd (s : State) (o : Out) : (s.send o).ownerNextCmd = s.ownerNextCmd := rfl
@[simp] theorem State.send_reads (s : State) (o : Out) : (s.send o).reads = s.reads := rfl
@[simp] theorem State.send_nextTag (s : State) (o : Out) : (s.send o).nextTag = s.nextTag := rfl
@[simp] theorem State.send_kln (s : State) (o : Out) : (s.send o).kln = s.kln := rfl
@[simp] theorem State.send_sites (s : State) (o : Out) : (s.send o).sites = s.sites := rfl
@[simp] theorem State.send_route (s : State) (o : Out) : (s.send o).route = s.route := rfl
@[simp] theorem State.send_routeDropped (s : State) (o : Out) : (s.send o).routeDropped = s.routeDropped := rfl
@[simp] theorem State.send_slice (s : State) (o : Out) : (s.send o).slice = s.slice := rfl
@[simp] theorem State.send_sheet (s : State) (o : Out) : (s.send o).sheet = s.sheet := rfl
@[simp] theorem State.send_poisoned (s : State) (o : Out) : (s.send o).poisoned = s.poisoned := rfl
@[simp] theorem State.send_peat (s : State) (o : Out) : (s.send o).peat = s.peat := rfl
@[simp] theorem State.send_peatPoisoned (s : State) (o : Out) : (s.send o).peatPoisoned = s.peatPoisoned := rfl
@[simp] theorem State.send_ashList (s : State) (o : Out) : (s.send o).ashList = s.ashList := rfl
@[simp] theorem State.send_dies (s : State) (o : Out) : (s.send o).dies = s.dies := rfl
@[simp] theorem State.send_banks (s : State) (o : Out) : (s.send o).banks = s.banks := rfl
@[simp] theorem State.send_seqs (s : State) (o : Out) : (s.send o).seqs = s.seqs := rfl
@[simp] theorem State.send_nextSeq (s : State) (o : Out) : (s.send o).nextSeq = s.nextSeq := rfl
@[simp] theorem State.send_units (s : State) (o : Out) : (s.send o).units = s.units := rfl
@[simp] theorem State.send_scratch (s : State) (o : Out) : (s.send o).scratch = s.scratch := rfl
@[simp] theorem State.send_sheetLines (s : State) (o : Out) : (s.send o).sheetLines = s.sheetLines := rfl
@[simp] theorem State.send_sram (s : State) (o : Out) : (s.send o).sram = s.sram := rfl
@[simp] theorem State.send_tablesHit (s : State) (o : Out) : (s.send o).tablesHit = s.tablesHit := rfl
@[simp] theorem State.send_memArb (s : State) (o : Out) : (s.send o).memArb = s.memArb := rfl
@[simp] theorem State.send_memScrub (s : State) (o : Out) : (s.send o).memScrub = s.memScrub := rfl
@[simp] theorem State.send_memMargin (s : State) (o : Out) : (s.send o).memMargin = s.memMargin := rfl
@[simp] theorem State.send_nbCtrl (s : State) (o : Out) : (s.send o).nbCtrl = s.nbCtrl := rfl
@[simp] theorem State.send_nbMaxWait (s : State) (o : Out) : (s.send o).nbMaxWait = s.nbMaxWait := rfl
@[simp] theorem State.send_peatArb (s : State) (o : Out) : (s.send o).peatArb = s.peatArb := rfl
@[simp] theorem State.send_peatCtrl (s : State) (o : Out) : (s.send o).peatCtrl = s.peatCtrl := rfl
@[simp] theorem State.send_peatSupplyTimeout (s : State) (o : Out) : (s.send o).peatSupplyTimeout = s.peatSupplyTimeout := rfl
@[simp] theorem State.send_peatMargin (s : State) (o : Out) : (s.send o).peatMargin = s.peatMargin := rfl
@[simp] theorem State.send_peatRetired (s : State) (o : Out) : (s.send o).peatRetired = s.peatRetired := rfl
@[simp] theorem State.send_peatScrubBad (s : State) (o : Out) : (s.send o).peatScrubBad = s.peatScrubBad := rfl
@[simp] theorem State.send_xfers (s : State) (o : Out) : (s.send o).xfers = s.xfers := rfl
@[simp] theorem State.send_arrivals (s : State) (o : Out) : (s.send o).arrivals = s.arrivals := rfl
@[simp] theorem State.send_repairs (s : State) (o : Out) : (s.send o).repairs = s.repairs := rfl
@[simp] theorem State.send_ring (s : State) (o : Out) : (s.send o).ring = s.ring := rfl
@[simp] theorem State.send_fltCtrl (s : State) (o : Out) : (s.send o).fltCtrl = s.fltCtrl := rfl
@[simp] theorem State.send_fatal (s : State) (o : Out) : (s.send o).fatal = s.fatal := rfl
@[simp] theorem State.send_ashLogFull (s : State) (o : Out) : (s.send o).ashLogFull = s.ashLogFull := rfl
@[simp] theorem State.send_sheetFifo (s : State) (o : Out) : (s.send o).sheetFifo = s.sheetFifo := rfl
@[simp] theorem State.send_substs (s : State) (o : Out) : (s.send o).substs = s.substs := rfl
@[simp] theorem State.send_tileUnits (s : State) (o : Out) : (s.send o).tileUnits = s.tileUnits := rfl
@[simp] theorem State.send_flash (s : State) (o : Out) : (s.send o).flash = s.flash := rfl
@[simp] theorem State.send_ashPending (s : State) (o : Out) : (s.send o).ashPending = s.ashPending := rfl
@[simp] theorem State.send_ashUnrecorded (s : State) (o : Out) : (s.send o).ashUnrecorded = s.ashUnrecorded := rfl
@[simp] theorem State.send_sec (s : State) (o : Out) : (s.send o).sec = s.sec := rfl
@[simp] theorem State.send_bist (s : State) (o : Out) : (s.send o).bist = s.bist := rfl
@[simp] theorem State.send_part (s : State) (o : Out) (q : Part) : (s.send o).part q = s.part q := rfl
@[simp] theorem State.send_port (s : State) (o : Out) (q : Port) : (s.send o).port q = s.port q := rfl

/-! ## `modSec` -/

@[simp] theorem State.modSec_pending (s : State) (f : Sec → Sec) : (s.modSec f).pending = s.pending := rfl
@[simp] theorem State.modSec_ringTime (s : State) (f : Sec → Sec) : (s.modSec f).ringTime = s.ringTime := rfl
@[simp] theorem State.modSec_uptime (s : State) (f : Sec → Sec) : (s.modSec f).uptime = s.uptime := rfl
@[simp] theorem State.modSec_fresh (s : State) (f : Sec → Sec) : (s.modSec f).fresh = s.fresh := rfl
@[simp] theorem State.modSec_out (s : State) (f : Sec → Sec) : (s.modSec f).out = s.out := rfl
@[simp] theorem State.modSec_power (s : State) (f : Sec → Sec) : (s.modSec f).power = s.power := rfl
@[simp] theorem State.modSec_pins (s : State) (f : Sec → Sec) : (s.modSec f).pins = s.pins := rfl
@[simp] theorem State.modSec_pinsCfg (s : State) (f : Sec → Sec) : (s.modSec f).pinsCfg = s.pinsCfg := rfl
@[simp] theorem State.modSec_ports (s : State) (f : Sec → Sec) : (s.modSec f).ports = s.ports := rfl
@[simp] theorem State.modSec_parts (s : State) (f : Sec → Sec) : (s.modSec f).parts = s.parts := rfl
@[simp] theorem State.modSec_ownerSub (s : State) (f : Sec → Sec) : (s.modSec f).ownerSub = s.ownerSub := rfl
@[simp] theorem State.modSec_ownerTaken (s : State) (f : Sec → Sec) : (s.modSec f).ownerTaken = s.ownerTaken := rfl
@[simp] theorem State.modSec_ownerNextCmd (s : State) (f : Sec → Sec) : (s.modSec f).ownerNextCmd = s.ownerNextCmd := rfl
@[simp] theorem State.modSec_reads (s : State) (f : Sec → Sec) : (s.modSec f).reads = s.reads := rfl
@[simp] theorem State.modSec_nextTag (s : State) (f : Sec → Sec) : (s.modSec f).nextTag = s.nextTag := rfl
@[simp] theorem State.modSec_kln (s : State) (f : Sec → Sec) : (s.modSec f).kln = s.kln := rfl
@[simp] theorem State.modSec_sites (s : State) (f : Sec → Sec) : (s.modSec f).sites = s.sites := rfl
@[simp] theorem State.modSec_route (s : State) (f : Sec → Sec) : (s.modSec f).route = s.route := rfl
@[simp] theorem State.modSec_routeDropped (s : State) (f : Sec → Sec) : (s.modSec f).routeDropped = s.routeDropped := rfl
@[simp] theorem State.modSec_slice (s : State) (f : Sec → Sec) : (s.modSec f).slice = s.slice := rfl
@[simp] theorem State.modSec_sheet (s : State) (f : Sec → Sec) : (s.modSec f).sheet = s.sheet := rfl
@[simp] theorem State.modSec_poisoned (s : State) (f : Sec → Sec) : (s.modSec f).poisoned = s.poisoned := rfl
@[simp] theorem State.modSec_peat (s : State) (f : Sec → Sec) : (s.modSec f).peat = s.peat := rfl
@[simp] theorem State.modSec_peatPoisoned (s : State) (f : Sec → Sec) : (s.modSec f).peatPoisoned = s.peatPoisoned := rfl
@[simp] theorem State.modSec_ashList (s : State) (f : Sec → Sec) : (s.modSec f).ashList = s.ashList := rfl
@[simp] theorem State.modSec_dies (s : State) (f : Sec → Sec) : (s.modSec f).dies = s.dies := rfl
@[simp] theorem State.modSec_banks (s : State) (f : Sec → Sec) : (s.modSec f).banks = s.banks := rfl
@[simp] theorem State.modSec_seqs (s : State) (f : Sec → Sec) : (s.modSec f).seqs = s.seqs := rfl
@[simp] theorem State.modSec_nextSeq (s : State) (f : Sec → Sec) : (s.modSec f).nextSeq = s.nextSeq := rfl
@[simp] theorem State.modSec_units (s : State) (f : Sec → Sec) : (s.modSec f).units = s.units := rfl
@[simp] theorem State.modSec_scratch (s : State) (f : Sec → Sec) : (s.modSec f).scratch = s.scratch := rfl
@[simp] theorem State.modSec_sheetLines (s : State) (f : Sec → Sec) : (s.modSec f).sheetLines = s.sheetLines := rfl
@[simp] theorem State.modSec_sram (s : State) (f : Sec → Sec) : (s.modSec f).sram = s.sram := rfl
@[simp] theorem State.modSec_tablesHit (s : State) (f : Sec → Sec) : (s.modSec f).tablesHit = s.tablesHit := rfl
@[simp] theorem State.modSec_memArb (s : State) (f : Sec → Sec) : (s.modSec f).memArb = s.memArb := rfl
@[simp] theorem State.modSec_memScrub (s : State) (f : Sec → Sec) : (s.modSec f).memScrub = s.memScrub := rfl
@[simp] theorem State.modSec_memMargin (s : State) (f : Sec → Sec) : (s.modSec f).memMargin = s.memMargin := rfl
@[simp] theorem State.modSec_nbCtrl (s : State) (f : Sec → Sec) : (s.modSec f).nbCtrl = s.nbCtrl := rfl
@[simp] theorem State.modSec_nbMaxWait (s : State) (f : Sec → Sec) : (s.modSec f).nbMaxWait = s.nbMaxWait := rfl
@[simp] theorem State.modSec_peatArb (s : State) (f : Sec → Sec) : (s.modSec f).peatArb = s.peatArb := rfl
@[simp] theorem State.modSec_peatCtrl (s : State) (f : Sec → Sec) : (s.modSec f).peatCtrl = s.peatCtrl := rfl
@[simp] theorem State.modSec_peatSupplyTimeout (s : State) (f : Sec → Sec) : (s.modSec f).peatSupplyTimeout = s.peatSupplyTimeout := rfl
@[simp] theorem State.modSec_peatMargin (s : State) (f : Sec → Sec) : (s.modSec f).peatMargin = s.peatMargin := rfl
@[simp] theorem State.modSec_peatRetired (s : State) (f : Sec → Sec) : (s.modSec f).peatRetired = s.peatRetired := rfl
@[simp] theorem State.modSec_peatScrubBad (s : State) (f : Sec → Sec) : (s.modSec f).peatScrubBad = s.peatScrubBad := rfl
@[simp] theorem State.modSec_xfers (s : State) (f : Sec → Sec) : (s.modSec f).xfers = s.xfers := rfl
@[simp] theorem State.modSec_arrivals (s : State) (f : Sec → Sec) : (s.modSec f).arrivals = s.arrivals := rfl
@[simp] theorem State.modSec_repairs (s : State) (f : Sec → Sec) : (s.modSec f).repairs = s.repairs := rfl
@[simp] theorem State.modSec_ring (s : State) (f : Sec → Sec) : (s.modSec f).ring = s.ring := rfl
@[simp] theorem State.modSec_fltCtrl (s : State) (f : Sec → Sec) : (s.modSec f).fltCtrl = s.fltCtrl := rfl
@[simp] theorem State.modSec_fatal (s : State) (f : Sec → Sec) : (s.modSec f).fatal = s.fatal := rfl
@[simp] theorem State.modSec_ashLogFull (s : State) (f : Sec → Sec) : (s.modSec f).ashLogFull = s.ashLogFull := rfl
@[simp] theorem State.modSec_sheetFifo (s : State) (f : Sec → Sec) : (s.modSec f).sheetFifo = s.sheetFifo := rfl
@[simp] theorem State.modSec_substs (s : State) (f : Sec → Sec) : (s.modSec f).substs = s.substs := rfl
@[simp] theorem State.modSec_tileUnits (s : State) (f : Sec → Sec) : (s.modSec f).tileUnits = s.tileUnits := rfl
@[simp] theorem State.modSec_flash (s : State) (f : Sec → Sec) : (s.modSec f).flash = s.flash := rfl
@[simp] theorem State.modSec_ashPending (s : State) (f : Sec → Sec) : (s.modSec f).ashPending = s.ashPending := rfl
@[simp] theorem State.modSec_ashUnrecorded (s : State) (f : Sec → Sec) : (s.modSec f).ashUnrecorded = s.ashUnrecorded := rfl
@[simp] theorem State.modSec_sec (s : State) (f : Sec → Sec) : (s.modSec f).sec = f s.sec := rfl
@[simp] theorem State.modSec_bist (s : State) (f : Sec → Sec) : (s.modSec f).bist = s.bist := rfl
@[simp] theorem State.modSec_part (s : State) (f : Sec → Sec) (q : Part) : (s.modSec f).part q = s.part q := rfl
@[simp] theorem State.modSec_port (s : State) (f : Sec → Sec) (q : Port) : (s.modSec f).port q = s.port q := rfl

/-! ## `modFlash` -/

@[simp] theorem State.modFlash_pending (s : State) (f : Flash → Flash) : (s.modFlash f).pending = s.pending := rfl
@[simp] theorem State.modFlash_ringTime (s : State) (f : Flash → Flash) : (s.modFlash f).ringTime = s.ringTime := rfl
@[simp] theorem State.modFlash_uptime (s : State) (f : Flash → Flash) : (s.modFlash f).uptime = s.uptime := rfl
@[simp] theorem State.modFlash_fresh (s : State) (f : Flash → Flash) : (s.modFlash f).fresh = s.fresh := rfl
@[simp] theorem State.modFlash_out (s : State) (f : Flash → Flash) : (s.modFlash f).out = s.out := rfl
@[simp] theorem State.modFlash_power (s : State) (f : Flash → Flash) : (s.modFlash f).power = s.power := rfl
@[simp] theorem State.modFlash_pins (s : State) (f : Flash → Flash) : (s.modFlash f).pins = s.pins := rfl
@[simp] theorem State.modFlash_pinsCfg (s : State) (f : Flash → Flash) : (s.modFlash f).pinsCfg = s.pinsCfg := rfl
@[simp] theorem State.modFlash_ports (s : State) (f : Flash → Flash) : (s.modFlash f).ports = s.ports := rfl
@[simp] theorem State.modFlash_parts (s : State) (f : Flash → Flash) : (s.modFlash f).parts = s.parts := rfl
@[simp] theorem State.modFlash_ownerSub (s : State) (f : Flash → Flash) : (s.modFlash f).ownerSub = s.ownerSub := rfl
@[simp] theorem State.modFlash_ownerTaken (s : State) (f : Flash → Flash) : (s.modFlash f).ownerTaken = s.ownerTaken := rfl
@[simp] theorem State.modFlash_ownerNextCmd (s : State) (f : Flash → Flash) : (s.modFlash f).ownerNextCmd = s.ownerNextCmd := rfl
@[simp] theorem State.modFlash_reads (s : State) (f : Flash → Flash) : (s.modFlash f).reads = s.reads := rfl
@[simp] theorem State.modFlash_nextTag (s : State) (f : Flash → Flash) : (s.modFlash f).nextTag = s.nextTag := rfl
@[simp] theorem State.modFlash_kln (s : State) (f : Flash → Flash) : (s.modFlash f).kln = s.kln := rfl
@[simp] theorem State.modFlash_sites (s : State) (f : Flash → Flash) : (s.modFlash f).sites = s.sites := rfl
@[simp] theorem State.modFlash_route (s : State) (f : Flash → Flash) : (s.modFlash f).route = s.route := rfl
@[simp] theorem State.modFlash_routeDropped (s : State) (f : Flash → Flash) : (s.modFlash f).routeDropped = s.routeDropped := rfl
@[simp] theorem State.modFlash_slice (s : State) (f : Flash → Flash) : (s.modFlash f).slice = s.slice := rfl
@[simp] theorem State.modFlash_sheet (s : State) (f : Flash → Flash) : (s.modFlash f).sheet = s.sheet := rfl
@[simp] theorem State.modFlash_poisoned (s : State) (f : Flash → Flash) : (s.modFlash f).poisoned = s.poisoned := rfl
@[simp] theorem State.modFlash_peat (s : State) (f : Flash → Flash) : (s.modFlash f).peat = s.peat := rfl
@[simp] theorem State.modFlash_peatPoisoned (s : State) (f : Flash → Flash) : (s.modFlash f).peatPoisoned = s.peatPoisoned := rfl
@[simp] theorem State.modFlash_ashList (s : State) (f : Flash → Flash) : (s.modFlash f).ashList = s.ashList := rfl
@[simp] theorem State.modFlash_dies (s : State) (f : Flash → Flash) : (s.modFlash f).dies = s.dies := rfl
@[simp] theorem State.modFlash_banks (s : State) (f : Flash → Flash) : (s.modFlash f).banks = s.banks := rfl
@[simp] theorem State.modFlash_seqs (s : State) (f : Flash → Flash) : (s.modFlash f).seqs = s.seqs := rfl
@[simp] theorem State.modFlash_nextSeq (s : State) (f : Flash → Flash) : (s.modFlash f).nextSeq = s.nextSeq := rfl
@[simp] theorem State.modFlash_units (s : State) (f : Flash → Flash) : (s.modFlash f).units = s.units := rfl
@[simp] theorem State.modFlash_scratch (s : State) (f : Flash → Flash) : (s.modFlash f).scratch = s.scratch := rfl
@[simp] theorem State.modFlash_sheetLines (s : State) (f : Flash → Flash) : (s.modFlash f).sheetLines = s.sheetLines := rfl
@[simp] theorem State.modFlash_sram (s : State) (f : Flash → Flash) : (s.modFlash f).sram = s.sram := rfl
@[simp] theorem State.modFlash_tablesHit (s : State) (f : Flash → Flash) : (s.modFlash f).tablesHit = s.tablesHit := rfl
@[simp] theorem State.modFlash_memArb (s : State) (f : Flash → Flash) : (s.modFlash f).memArb = s.memArb := rfl
@[simp] theorem State.modFlash_memScrub (s : State) (f : Flash → Flash) : (s.modFlash f).memScrub = s.memScrub := rfl
@[simp] theorem State.modFlash_memMargin (s : State) (f : Flash → Flash) : (s.modFlash f).memMargin = s.memMargin := rfl
@[simp] theorem State.modFlash_nbCtrl (s : State) (f : Flash → Flash) : (s.modFlash f).nbCtrl = s.nbCtrl := rfl
@[simp] theorem State.modFlash_nbMaxWait (s : State) (f : Flash → Flash) : (s.modFlash f).nbMaxWait = s.nbMaxWait := rfl
@[simp] theorem State.modFlash_peatArb (s : State) (f : Flash → Flash) : (s.modFlash f).peatArb = s.peatArb := rfl
@[simp] theorem State.modFlash_peatCtrl (s : State) (f : Flash → Flash) : (s.modFlash f).peatCtrl = s.peatCtrl := rfl
@[simp] theorem State.modFlash_peatSupplyTimeout (s : State) (f : Flash → Flash) : (s.modFlash f).peatSupplyTimeout = s.peatSupplyTimeout := rfl
@[simp] theorem State.modFlash_peatMargin (s : State) (f : Flash → Flash) : (s.modFlash f).peatMargin = s.peatMargin := rfl
@[simp] theorem State.modFlash_peatRetired (s : State) (f : Flash → Flash) : (s.modFlash f).peatRetired = s.peatRetired := rfl
@[simp] theorem State.modFlash_peatScrubBad (s : State) (f : Flash → Flash) : (s.modFlash f).peatScrubBad = s.peatScrubBad := rfl
@[simp] theorem State.modFlash_xfers (s : State) (f : Flash → Flash) : (s.modFlash f).xfers = s.xfers := rfl
@[simp] theorem State.modFlash_arrivals (s : State) (f : Flash → Flash) : (s.modFlash f).arrivals = s.arrivals := rfl
@[simp] theorem State.modFlash_repairs (s : State) (f : Flash → Flash) : (s.modFlash f).repairs = s.repairs := rfl
@[simp] theorem State.modFlash_ring (s : State) (f : Flash → Flash) : (s.modFlash f).ring = s.ring := rfl
@[simp] theorem State.modFlash_fltCtrl (s : State) (f : Flash → Flash) : (s.modFlash f).fltCtrl = s.fltCtrl := rfl
@[simp] theorem State.modFlash_fatal (s : State) (f : Flash → Flash) : (s.modFlash f).fatal = s.fatal := rfl
@[simp] theorem State.modFlash_ashLogFull (s : State) (f : Flash → Flash) : (s.modFlash f).ashLogFull = s.ashLogFull := rfl
@[simp] theorem State.modFlash_sheetFifo (s : State) (f : Flash → Flash) : (s.modFlash f).sheetFifo = s.sheetFifo := rfl
@[simp] theorem State.modFlash_substs (s : State) (f : Flash → Flash) : (s.modFlash f).substs = s.substs := rfl
@[simp] theorem State.modFlash_tileUnits (s : State) (f : Flash → Flash) : (s.modFlash f).tileUnits = s.tileUnits := rfl
@[simp] theorem State.modFlash_flash (s : State) (f : Flash → Flash) : (s.modFlash f).flash = f s.flash := rfl
@[simp] theorem State.modFlash_ashPending (s : State) (f : Flash → Flash) : (s.modFlash f).ashPending = s.ashPending := rfl
@[simp] theorem State.modFlash_ashUnrecorded (s : State) (f : Flash → Flash) : (s.modFlash f).ashUnrecorded = s.ashUnrecorded := rfl
@[simp] theorem State.modFlash_sec (s : State) (f : Flash → Flash) : (s.modFlash f).sec = s.sec := rfl
@[simp] theorem State.modFlash_bist (s : State) (f : Flash → Flash) : (s.modFlash f).bist = s.bist := rfl
@[simp] theorem State.modFlash_part (s : State) (f : Flash → Flash) (q : Part) : (s.modFlash f).part q = s.part q := rfl
@[simp] theorem State.modFlash_port (s : State) (f : Flash → Flash) (q : Port) : (s.modFlash f).port q = s.port q := rfl

/-! ## `modPower` -/

@[simp] theorem State.modPower_pending (s : State) (f : Power → Power) : (s.modPower f).pending = s.pending := rfl
@[simp] theorem State.modPower_ringTime (s : State) (f : Power → Power) : (s.modPower f).ringTime = s.ringTime := rfl
@[simp] theorem State.modPower_uptime (s : State) (f : Power → Power) : (s.modPower f).uptime = s.uptime := rfl
@[simp] theorem State.modPower_fresh (s : State) (f : Power → Power) : (s.modPower f).fresh = s.fresh := rfl
@[simp] theorem State.modPower_out (s : State) (f : Power → Power) : (s.modPower f).out = s.out := rfl
@[simp] theorem State.modPower_power (s : State) (f : Power → Power) : (s.modPower f).power = f s.power := rfl
@[simp] theorem State.modPower_pins (s : State) (f : Power → Power) : (s.modPower f).pins = s.pins := rfl
@[simp] theorem State.modPower_pinsCfg (s : State) (f : Power → Power) : (s.modPower f).pinsCfg = s.pinsCfg := rfl
@[simp] theorem State.modPower_ports (s : State) (f : Power → Power) : (s.modPower f).ports = s.ports := rfl
@[simp] theorem State.modPower_parts (s : State) (f : Power → Power) : (s.modPower f).parts = s.parts := rfl
@[simp] theorem State.modPower_ownerSub (s : State) (f : Power → Power) : (s.modPower f).ownerSub = s.ownerSub := rfl
@[simp] theorem State.modPower_ownerTaken (s : State) (f : Power → Power) : (s.modPower f).ownerTaken = s.ownerTaken := rfl
@[simp] theorem State.modPower_ownerNextCmd (s : State) (f : Power → Power) : (s.modPower f).ownerNextCmd = s.ownerNextCmd := rfl
@[simp] theorem State.modPower_reads (s : State) (f : Power → Power) : (s.modPower f).reads = s.reads := rfl
@[simp] theorem State.modPower_nextTag (s : State) (f : Power → Power) : (s.modPower f).nextTag = s.nextTag := rfl
@[simp] theorem State.modPower_kln (s : State) (f : Power → Power) : (s.modPower f).kln = s.kln := rfl
@[simp] theorem State.modPower_sites (s : State) (f : Power → Power) : (s.modPower f).sites = s.sites := rfl
@[simp] theorem State.modPower_route (s : State) (f : Power → Power) : (s.modPower f).route = s.route := rfl
@[simp] theorem State.modPower_routeDropped (s : State) (f : Power → Power) : (s.modPower f).routeDropped = s.routeDropped := rfl
@[simp] theorem State.modPower_slice (s : State) (f : Power → Power) : (s.modPower f).slice = s.slice := rfl
@[simp] theorem State.modPower_sheet (s : State) (f : Power → Power) : (s.modPower f).sheet = s.sheet := rfl
@[simp] theorem State.modPower_poisoned (s : State) (f : Power → Power) : (s.modPower f).poisoned = s.poisoned := rfl
@[simp] theorem State.modPower_peat (s : State) (f : Power → Power) : (s.modPower f).peat = s.peat := rfl
@[simp] theorem State.modPower_peatPoisoned (s : State) (f : Power → Power) : (s.modPower f).peatPoisoned = s.peatPoisoned := rfl
@[simp] theorem State.modPower_ashList (s : State) (f : Power → Power) : (s.modPower f).ashList = s.ashList := rfl
@[simp] theorem State.modPower_dies (s : State) (f : Power → Power) : (s.modPower f).dies = s.dies := rfl
@[simp] theorem State.modPower_banks (s : State) (f : Power → Power) : (s.modPower f).banks = s.banks := rfl
@[simp] theorem State.modPower_seqs (s : State) (f : Power → Power) : (s.modPower f).seqs = s.seqs := rfl
@[simp] theorem State.modPower_nextSeq (s : State) (f : Power → Power) : (s.modPower f).nextSeq = s.nextSeq := rfl
@[simp] theorem State.modPower_units (s : State) (f : Power → Power) : (s.modPower f).units = s.units := rfl
@[simp] theorem State.modPower_scratch (s : State) (f : Power → Power) : (s.modPower f).scratch = s.scratch := rfl
@[simp] theorem State.modPower_sheetLines (s : State) (f : Power → Power) : (s.modPower f).sheetLines = s.sheetLines := rfl
@[simp] theorem State.modPower_sram (s : State) (f : Power → Power) : (s.modPower f).sram = s.sram := rfl
@[simp] theorem State.modPower_tablesHit (s : State) (f : Power → Power) : (s.modPower f).tablesHit = s.tablesHit := rfl
@[simp] theorem State.modPower_memArb (s : State) (f : Power → Power) : (s.modPower f).memArb = s.memArb := rfl
@[simp] theorem State.modPower_memScrub (s : State) (f : Power → Power) : (s.modPower f).memScrub = s.memScrub := rfl
@[simp] theorem State.modPower_memMargin (s : State) (f : Power → Power) : (s.modPower f).memMargin = s.memMargin := rfl
@[simp] theorem State.modPower_nbCtrl (s : State) (f : Power → Power) : (s.modPower f).nbCtrl = s.nbCtrl := rfl
@[simp] theorem State.modPower_nbMaxWait (s : State) (f : Power → Power) : (s.modPower f).nbMaxWait = s.nbMaxWait := rfl
@[simp] theorem State.modPower_peatArb (s : State) (f : Power → Power) : (s.modPower f).peatArb = s.peatArb := rfl
@[simp] theorem State.modPower_peatCtrl (s : State) (f : Power → Power) : (s.modPower f).peatCtrl = s.peatCtrl := rfl
@[simp] theorem State.modPower_peatSupplyTimeout (s : State) (f : Power → Power) : (s.modPower f).peatSupplyTimeout = s.peatSupplyTimeout := rfl
@[simp] theorem State.modPower_peatMargin (s : State) (f : Power → Power) : (s.modPower f).peatMargin = s.peatMargin := rfl
@[simp] theorem State.modPower_peatRetired (s : State) (f : Power → Power) : (s.modPower f).peatRetired = s.peatRetired := rfl
@[simp] theorem State.modPower_peatScrubBad (s : State) (f : Power → Power) : (s.modPower f).peatScrubBad = s.peatScrubBad := rfl
@[simp] theorem State.modPower_xfers (s : State) (f : Power → Power) : (s.modPower f).xfers = s.xfers := rfl
@[simp] theorem State.modPower_arrivals (s : State) (f : Power → Power) : (s.modPower f).arrivals = s.arrivals := rfl
@[simp] theorem State.modPower_repairs (s : State) (f : Power → Power) : (s.modPower f).repairs = s.repairs := rfl
@[simp] theorem State.modPower_ring (s : State) (f : Power → Power) : (s.modPower f).ring = s.ring := rfl
@[simp] theorem State.modPower_fltCtrl (s : State) (f : Power → Power) : (s.modPower f).fltCtrl = s.fltCtrl := rfl
@[simp] theorem State.modPower_fatal (s : State) (f : Power → Power) : (s.modPower f).fatal = s.fatal := rfl
@[simp] theorem State.modPower_ashLogFull (s : State) (f : Power → Power) : (s.modPower f).ashLogFull = s.ashLogFull := rfl
@[simp] theorem State.modPower_sheetFifo (s : State) (f : Power → Power) : (s.modPower f).sheetFifo = s.sheetFifo := rfl
@[simp] theorem State.modPower_substs (s : State) (f : Power → Power) : (s.modPower f).substs = s.substs := rfl
@[simp] theorem State.modPower_tileUnits (s : State) (f : Power → Power) : (s.modPower f).tileUnits = s.tileUnits := rfl
@[simp] theorem State.modPower_flash (s : State) (f : Power → Power) : (s.modPower f).flash = s.flash := rfl
@[simp] theorem State.modPower_ashPending (s : State) (f : Power → Power) : (s.modPower f).ashPending = s.ashPending := rfl
@[simp] theorem State.modPower_ashUnrecorded (s : State) (f : Power → Power) : (s.modPower f).ashUnrecorded = s.ashUnrecorded := rfl
@[simp] theorem State.modPower_sec (s : State) (f : Power → Power) : (s.modPower f).sec = s.sec := rfl
@[simp] theorem State.modPower_bist (s : State) (f : Power → Power) : (s.modPower f).bist = s.bist := rfl
@[simp] theorem State.modPower_part (s : State) (f : Power → Power) (q : Part) : (s.modPower f).part q = s.part q := rfl
@[simp] theorem State.modPower_port (s : State) (f : Power → Power) (q : Port) : (s.modPower f).port q = s.port q := rfl

/-! ## `modPins` -/

@[simp] theorem State.modPins_pending (s : State) (f : PinSt → PinSt) : (s.modPins f).pending = s.pending := rfl
@[simp] theorem State.modPins_ringTime (s : State) (f : PinSt → PinSt) : (s.modPins f).ringTime = s.ringTime := rfl
@[simp] theorem State.modPins_uptime (s : State) (f : PinSt → PinSt) : (s.modPins f).uptime = s.uptime := rfl
@[simp] theorem State.modPins_fresh (s : State) (f : PinSt → PinSt) : (s.modPins f).fresh = s.fresh := rfl
@[simp] theorem State.modPins_out (s : State) (f : PinSt → PinSt) : (s.modPins f).out = s.out := rfl
@[simp] theorem State.modPins_power (s : State) (f : PinSt → PinSt) : (s.modPins f).power = s.power := rfl
@[simp] theorem State.modPins_pins (s : State) (f : PinSt → PinSt) : (s.modPins f).pins = f s.pins := rfl
@[simp] theorem State.modPins_pinsCfg (s : State) (f : PinSt → PinSt) : (s.modPins f).pinsCfg = s.pinsCfg := rfl
@[simp] theorem State.modPins_ports (s : State) (f : PinSt → PinSt) : (s.modPins f).ports = s.ports := rfl
@[simp] theorem State.modPins_parts (s : State) (f : PinSt → PinSt) : (s.modPins f).parts = s.parts := rfl
@[simp] theorem State.modPins_ownerSub (s : State) (f : PinSt → PinSt) : (s.modPins f).ownerSub = s.ownerSub := rfl
@[simp] theorem State.modPins_ownerTaken (s : State) (f : PinSt → PinSt) : (s.modPins f).ownerTaken = s.ownerTaken := rfl
@[simp] theorem State.modPins_ownerNextCmd (s : State) (f : PinSt → PinSt) : (s.modPins f).ownerNextCmd = s.ownerNextCmd := rfl
@[simp] theorem State.modPins_reads (s : State) (f : PinSt → PinSt) : (s.modPins f).reads = s.reads := rfl
@[simp] theorem State.modPins_nextTag (s : State) (f : PinSt → PinSt) : (s.modPins f).nextTag = s.nextTag := rfl
@[simp] theorem State.modPins_kln (s : State) (f : PinSt → PinSt) : (s.modPins f).kln = s.kln := rfl
@[simp] theorem State.modPins_sites (s : State) (f : PinSt → PinSt) : (s.modPins f).sites = s.sites := rfl
@[simp] theorem State.modPins_route (s : State) (f : PinSt → PinSt) : (s.modPins f).route = s.route := rfl
@[simp] theorem State.modPins_routeDropped (s : State) (f : PinSt → PinSt) : (s.modPins f).routeDropped = s.routeDropped := rfl
@[simp] theorem State.modPins_slice (s : State) (f : PinSt → PinSt) : (s.modPins f).slice = s.slice := rfl
@[simp] theorem State.modPins_sheet (s : State) (f : PinSt → PinSt) : (s.modPins f).sheet = s.sheet := rfl
@[simp] theorem State.modPins_poisoned (s : State) (f : PinSt → PinSt) : (s.modPins f).poisoned = s.poisoned := rfl
@[simp] theorem State.modPins_peat (s : State) (f : PinSt → PinSt) : (s.modPins f).peat = s.peat := rfl
@[simp] theorem State.modPins_peatPoisoned (s : State) (f : PinSt → PinSt) : (s.modPins f).peatPoisoned = s.peatPoisoned := rfl
@[simp] theorem State.modPins_ashList (s : State) (f : PinSt → PinSt) : (s.modPins f).ashList = s.ashList := rfl
@[simp] theorem State.modPins_dies (s : State) (f : PinSt → PinSt) : (s.modPins f).dies = s.dies := rfl
@[simp] theorem State.modPins_banks (s : State) (f : PinSt → PinSt) : (s.modPins f).banks = s.banks := rfl
@[simp] theorem State.modPins_seqs (s : State) (f : PinSt → PinSt) : (s.modPins f).seqs = s.seqs := rfl
@[simp] theorem State.modPins_nextSeq (s : State) (f : PinSt → PinSt) : (s.modPins f).nextSeq = s.nextSeq := rfl
@[simp] theorem State.modPins_units (s : State) (f : PinSt → PinSt) : (s.modPins f).units = s.units := rfl
@[simp] theorem State.modPins_scratch (s : State) (f : PinSt → PinSt) : (s.modPins f).scratch = s.scratch := rfl
@[simp] theorem State.modPins_sheetLines (s : State) (f : PinSt → PinSt) : (s.modPins f).sheetLines = s.sheetLines := rfl
@[simp] theorem State.modPins_sram (s : State) (f : PinSt → PinSt) : (s.modPins f).sram = s.sram := rfl
@[simp] theorem State.modPins_tablesHit (s : State) (f : PinSt → PinSt) : (s.modPins f).tablesHit = s.tablesHit := rfl
@[simp] theorem State.modPins_memArb (s : State) (f : PinSt → PinSt) : (s.modPins f).memArb = s.memArb := rfl
@[simp] theorem State.modPins_memScrub (s : State) (f : PinSt → PinSt) : (s.modPins f).memScrub = s.memScrub := rfl
@[simp] theorem State.modPins_memMargin (s : State) (f : PinSt → PinSt) : (s.modPins f).memMargin = s.memMargin := rfl
@[simp] theorem State.modPins_nbCtrl (s : State) (f : PinSt → PinSt) : (s.modPins f).nbCtrl = s.nbCtrl := rfl
@[simp] theorem State.modPins_nbMaxWait (s : State) (f : PinSt → PinSt) : (s.modPins f).nbMaxWait = s.nbMaxWait := rfl
@[simp] theorem State.modPins_peatArb (s : State) (f : PinSt → PinSt) : (s.modPins f).peatArb = s.peatArb := rfl
@[simp] theorem State.modPins_peatCtrl (s : State) (f : PinSt → PinSt) : (s.modPins f).peatCtrl = s.peatCtrl := rfl
@[simp] theorem State.modPins_peatSupplyTimeout (s : State) (f : PinSt → PinSt) : (s.modPins f).peatSupplyTimeout = s.peatSupplyTimeout := rfl
@[simp] theorem State.modPins_peatMargin (s : State) (f : PinSt → PinSt) : (s.modPins f).peatMargin = s.peatMargin := rfl
@[simp] theorem State.modPins_peatRetired (s : State) (f : PinSt → PinSt) : (s.modPins f).peatRetired = s.peatRetired := rfl
@[simp] theorem State.modPins_peatScrubBad (s : State) (f : PinSt → PinSt) : (s.modPins f).peatScrubBad = s.peatScrubBad := rfl
@[simp] theorem State.modPins_xfers (s : State) (f : PinSt → PinSt) : (s.modPins f).xfers = s.xfers := rfl
@[simp] theorem State.modPins_arrivals (s : State) (f : PinSt → PinSt) : (s.modPins f).arrivals = s.arrivals := rfl
@[simp] theorem State.modPins_repairs (s : State) (f : PinSt → PinSt) : (s.modPins f).repairs = s.repairs := rfl
@[simp] theorem State.modPins_ring (s : State) (f : PinSt → PinSt) : (s.modPins f).ring = s.ring := rfl
@[simp] theorem State.modPins_fltCtrl (s : State) (f : PinSt → PinSt) : (s.modPins f).fltCtrl = s.fltCtrl := rfl
@[simp] theorem State.modPins_fatal (s : State) (f : PinSt → PinSt) : (s.modPins f).fatal = s.fatal := rfl
@[simp] theorem State.modPins_ashLogFull (s : State) (f : PinSt → PinSt) : (s.modPins f).ashLogFull = s.ashLogFull := rfl
@[simp] theorem State.modPins_sheetFifo (s : State) (f : PinSt → PinSt) : (s.modPins f).sheetFifo = s.sheetFifo := rfl
@[simp] theorem State.modPins_substs (s : State) (f : PinSt → PinSt) : (s.modPins f).substs = s.substs := rfl
@[simp] theorem State.modPins_tileUnits (s : State) (f : PinSt → PinSt) : (s.modPins f).tileUnits = s.tileUnits := rfl
@[simp] theorem State.modPins_flash (s : State) (f : PinSt → PinSt) : (s.modPins f).flash = s.flash := rfl
@[simp] theorem State.modPins_ashPending (s : State) (f : PinSt → PinSt) : (s.modPins f).ashPending = s.ashPending := rfl
@[simp] theorem State.modPins_ashUnrecorded (s : State) (f : PinSt → PinSt) : (s.modPins f).ashUnrecorded = s.ashUnrecorded := rfl
@[simp] theorem State.modPins_sec (s : State) (f : PinSt → PinSt) : (s.modPins f).sec = s.sec := rfl
@[simp] theorem State.modPins_bist (s : State) (f : PinSt → PinSt) : (s.modPins f).bist = s.bist := rfl
@[simp] theorem State.modPins_part (s : State) (f : PinSt → PinSt) (q : Part) : (s.modPins f).part q = s.part q := rfl
@[simp] theorem State.modPins_port (s : State) (f : PinSt → PinSt) (q : Port) : (s.modPins f).port q = s.port q := rfl

/-! ## `modBist` -/

@[simp] theorem State.modBist_pending (s : State) (f : Bist → Bist) : (s.modBist f).pending = s.pending := rfl
@[simp] theorem State.modBist_ringTime (s : State) (f : Bist → Bist) : (s.modBist f).ringTime = s.ringTime := rfl
@[simp] theorem State.modBist_uptime (s : State) (f : Bist → Bist) : (s.modBist f).uptime = s.uptime := rfl
@[simp] theorem State.modBist_fresh (s : State) (f : Bist → Bist) : (s.modBist f).fresh = s.fresh := rfl
@[simp] theorem State.modBist_out (s : State) (f : Bist → Bist) : (s.modBist f).out = s.out := rfl
@[simp] theorem State.modBist_power (s : State) (f : Bist → Bist) : (s.modBist f).power = s.power := rfl
@[simp] theorem State.modBist_pins (s : State) (f : Bist → Bist) : (s.modBist f).pins = s.pins := rfl
@[simp] theorem State.modBist_pinsCfg (s : State) (f : Bist → Bist) : (s.modBist f).pinsCfg = s.pinsCfg := rfl
@[simp] theorem State.modBist_ports (s : State) (f : Bist → Bist) : (s.modBist f).ports = s.ports := rfl
@[simp] theorem State.modBist_parts (s : State) (f : Bist → Bist) : (s.modBist f).parts = s.parts := rfl
@[simp] theorem State.modBist_ownerSub (s : State) (f : Bist → Bist) : (s.modBist f).ownerSub = s.ownerSub := rfl
@[simp] theorem State.modBist_ownerTaken (s : State) (f : Bist → Bist) : (s.modBist f).ownerTaken = s.ownerTaken := rfl
@[simp] theorem State.modBist_ownerNextCmd (s : State) (f : Bist → Bist) : (s.modBist f).ownerNextCmd = s.ownerNextCmd := rfl
@[simp] theorem State.modBist_reads (s : State) (f : Bist → Bist) : (s.modBist f).reads = s.reads := rfl
@[simp] theorem State.modBist_nextTag (s : State) (f : Bist → Bist) : (s.modBist f).nextTag = s.nextTag := rfl
@[simp] theorem State.modBist_kln (s : State) (f : Bist → Bist) : (s.modBist f).kln = s.kln := rfl
@[simp] theorem State.modBist_sites (s : State) (f : Bist → Bist) : (s.modBist f).sites = s.sites := rfl
@[simp] theorem State.modBist_route (s : State) (f : Bist → Bist) : (s.modBist f).route = s.route := rfl
@[simp] theorem State.modBist_routeDropped (s : State) (f : Bist → Bist) : (s.modBist f).routeDropped = s.routeDropped := rfl
@[simp] theorem State.modBist_slice (s : State) (f : Bist → Bist) : (s.modBist f).slice = s.slice := rfl
@[simp] theorem State.modBist_sheet (s : State) (f : Bist → Bist) : (s.modBist f).sheet = s.sheet := rfl
@[simp] theorem State.modBist_poisoned (s : State) (f : Bist → Bist) : (s.modBist f).poisoned = s.poisoned := rfl
@[simp] theorem State.modBist_peat (s : State) (f : Bist → Bist) : (s.modBist f).peat = s.peat := rfl
@[simp] theorem State.modBist_peatPoisoned (s : State) (f : Bist → Bist) : (s.modBist f).peatPoisoned = s.peatPoisoned := rfl
@[simp] theorem State.modBist_ashList (s : State) (f : Bist → Bist) : (s.modBist f).ashList = s.ashList := rfl
@[simp] theorem State.modBist_dies (s : State) (f : Bist → Bist) : (s.modBist f).dies = s.dies := rfl
@[simp] theorem State.modBist_banks (s : State) (f : Bist → Bist) : (s.modBist f).banks = s.banks := rfl
@[simp] theorem State.modBist_seqs (s : State) (f : Bist → Bist) : (s.modBist f).seqs = s.seqs := rfl
@[simp] theorem State.modBist_nextSeq (s : State) (f : Bist → Bist) : (s.modBist f).nextSeq = s.nextSeq := rfl
@[simp] theorem State.modBist_units (s : State) (f : Bist → Bist) : (s.modBist f).units = s.units := rfl
@[simp] theorem State.modBist_scratch (s : State) (f : Bist → Bist) : (s.modBist f).scratch = s.scratch := rfl
@[simp] theorem State.modBist_sheetLines (s : State) (f : Bist → Bist) : (s.modBist f).sheetLines = s.sheetLines := rfl
@[simp] theorem State.modBist_sram (s : State) (f : Bist → Bist) : (s.modBist f).sram = s.sram := rfl
@[simp] theorem State.modBist_tablesHit (s : State) (f : Bist → Bist) : (s.modBist f).tablesHit = s.tablesHit := rfl
@[simp] theorem State.modBist_memArb (s : State) (f : Bist → Bist) : (s.modBist f).memArb = s.memArb := rfl
@[simp] theorem State.modBist_memScrub (s : State) (f : Bist → Bist) : (s.modBist f).memScrub = s.memScrub := rfl
@[simp] theorem State.modBist_memMargin (s : State) (f : Bist → Bist) : (s.modBist f).memMargin = s.memMargin := rfl
@[simp] theorem State.modBist_nbCtrl (s : State) (f : Bist → Bist) : (s.modBist f).nbCtrl = s.nbCtrl := rfl
@[simp] theorem State.modBist_nbMaxWait (s : State) (f : Bist → Bist) : (s.modBist f).nbMaxWait = s.nbMaxWait := rfl
@[simp] theorem State.modBist_peatArb (s : State) (f : Bist → Bist) : (s.modBist f).peatArb = s.peatArb := rfl
@[simp] theorem State.modBist_peatCtrl (s : State) (f : Bist → Bist) : (s.modBist f).peatCtrl = s.peatCtrl := rfl
@[simp] theorem State.modBist_peatSupplyTimeout (s : State) (f : Bist → Bist) : (s.modBist f).peatSupplyTimeout = s.peatSupplyTimeout := rfl
@[simp] theorem State.modBist_peatMargin (s : State) (f : Bist → Bist) : (s.modBist f).peatMargin = s.peatMargin := rfl
@[simp] theorem State.modBist_peatRetired (s : State) (f : Bist → Bist) : (s.modBist f).peatRetired = s.peatRetired := rfl
@[simp] theorem State.modBist_peatScrubBad (s : State) (f : Bist → Bist) : (s.modBist f).peatScrubBad = s.peatScrubBad := rfl
@[simp] theorem State.modBist_xfers (s : State) (f : Bist → Bist) : (s.modBist f).xfers = s.xfers := rfl
@[simp] theorem State.modBist_arrivals (s : State) (f : Bist → Bist) : (s.modBist f).arrivals = s.arrivals := rfl
@[simp] theorem State.modBist_repairs (s : State) (f : Bist → Bist) : (s.modBist f).repairs = s.repairs := rfl
@[simp] theorem State.modBist_ring (s : State) (f : Bist → Bist) : (s.modBist f).ring = s.ring := rfl
@[simp] theorem State.modBist_fltCtrl (s : State) (f : Bist → Bist) : (s.modBist f).fltCtrl = s.fltCtrl := rfl
@[simp] theorem State.modBist_fatal (s : State) (f : Bist → Bist) : (s.modBist f).fatal = s.fatal := rfl
@[simp] theorem State.modBist_ashLogFull (s : State) (f : Bist → Bist) : (s.modBist f).ashLogFull = s.ashLogFull := rfl
@[simp] theorem State.modBist_sheetFifo (s : State) (f : Bist → Bist) : (s.modBist f).sheetFifo = s.sheetFifo := rfl
@[simp] theorem State.modBist_substs (s : State) (f : Bist → Bist) : (s.modBist f).substs = s.substs := rfl
@[simp] theorem State.modBist_tileUnits (s : State) (f : Bist → Bist) : (s.modBist f).tileUnits = s.tileUnits := rfl
@[simp] theorem State.modBist_flash (s : State) (f : Bist → Bist) : (s.modBist f).flash = s.flash := rfl
@[simp] theorem State.modBist_ashPending (s : State) (f : Bist → Bist) : (s.modBist f).ashPending = s.ashPending := rfl
@[simp] theorem State.modBist_ashUnrecorded (s : State) (f : Bist → Bist) : (s.modBist f).ashUnrecorded = s.ashUnrecorded := rfl
@[simp] theorem State.modBist_sec (s : State) (f : Bist → Bist) : (s.modBist f).sec = s.sec := rfl
@[simp] theorem State.modBist_bist (s : State) (f : Bist → Bist) : (s.modBist f).bist = f s.bist := rfl
@[simp] theorem State.modBist_part (s : State) (f : Bist → Bist) (q : Part) : (s.modBist f).part q = s.part q := rfl
@[simp] theorem State.modBist_port (s : State) (f : Bist → Bist) (q : Port) : (s.modBist f).port q = s.port q := rfl

/-! ## `modDie` -/

@[simp] theorem State.modDie_pending (s : State) (k : Nat) (f : DieSt → DieSt) : (s.modDie k f).pending = s.pending := rfl
@[simp] theorem State.modDie_ringTime (s : State) (k : Nat) (f : DieSt → DieSt) : (s.modDie k f).ringTime = s.ringTime := rfl
@[simp] theorem State.modDie_uptime (s : State) (k : Nat) (f : DieSt → DieSt) : (s.modDie k f).uptime = s.uptime := rfl
@[simp] theorem State.modDie_fresh (s : State) (k : Nat) (f : DieSt → DieSt) : (s.modDie k f).fresh = s.fresh := rfl
@[simp] theorem State.modDie_out (s : State) (k : Nat) (f : DieSt → DieSt) : (s.modDie k f).out = s.out := rfl
@[simp] theorem State.modDie_power (s : State) (k : Nat) (f : DieSt → DieSt) : (s.modDie k f).power = s.power := rfl
@[simp] theorem State.modDie_pins (s : State) (k : Nat) (f : DieSt → DieSt) : (s.modDie k f).pins = s.pins := rfl
@[simp] theorem State.modDie_pinsCfg (s : State) (k : Nat) (f : DieSt → DieSt) : (s.modDie k f).pinsCfg = s.pinsCfg := rfl
@[simp] theorem State.modDie_ports (s : State) (k : Nat) (f : DieSt → DieSt) : (s.modDie k f).ports = s.ports := rfl
@[simp] theorem State.modDie_parts (s : State) (k : Nat) (f : DieSt → DieSt) : (s.modDie k f).parts = s.parts := rfl
@[simp] theorem State.modDie_ownerSub (s : State) (k : Nat) (f : DieSt → DieSt) : (s.modDie k f).ownerSub = s.ownerSub := rfl
@[simp] theorem State.modDie_ownerTaken (s : State) (k : Nat) (f : DieSt → DieSt) : (s.modDie k f).ownerTaken = s.ownerTaken := rfl
@[simp] theorem State.modDie_ownerNextCmd (s : State) (k : Nat) (f : DieSt → DieSt) : (s.modDie k f).ownerNextCmd = s.ownerNextCmd := rfl
@[simp] theorem State.modDie_reads (s : State) (k : Nat) (f : DieSt → DieSt) : (s.modDie k f).reads = s.reads := rfl
@[simp] theorem State.modDie_nextTag (s : State) (k : Nat) (f : DieSt → DieSt) : (s.modDie k f).nextTag = s.nextTag := rfl
@[simp] theorem State.modDie_kln (s : State) (k : Nat) (f : DieSt → DieSt) : (s.modDie k f).kln = s.kln := rfl
@[simp] theorem State.modDie_sites (s : State) (k : Nat) (f : DieSt → DieSt) : (s.modDie k f).sites = s.sites := rfl
@[simp] theorem State.modDie_route (s : State) (k : Nat) (f : DieSt → DieSt) : (s.modDie k f).route = s.route := rfl
@[simp] theorem State.modDie_routeDropped (s : State) (k : Nat) (f : DieSt → DieSt) : (s.modDie k f).routeDropped = s.routeDropped := rfl
@[simp] theorem State.modDie_slice (s : State) (k : Nat) (f : DieSt → DieSt) : (s.modDie k f).slice = s.slice := rfl
@[simp] theorem State.modDie_sheet (s : State) (k : Nat) (f : DieSt → DieSt) : (s.modDie k f).sheet = s.sheet := rfl
@[simp] theorem State.modDie_poisoned (s : State) (k : Nat) (f : DieSt → DieSt) : (s.modDie k f).poisoned = s.poisoned := rfl
@[simp] theorem State.modDie_peat (s : State) (k : Nat) (f : DieSt → DieSt) : (s.modDie k f).peat = s.peat := rfl
@[simp] theorem State.modDie_peatPoisoned (s : State) (k : Nat) (f : DieSt → DieSt) : (s.modDie k f).peatPoisoned = s.peatPoisoned := rfl
@[simp] theorem State.modDie_ashList (s : State) (k : Nat) (f : DieSt → DieSt) : (s.modDie k f).ashList = s.ashList := rfl
@[simp] theorem State.modDie_dies (s : State) (k : Nat) (f : DieSt → DieSt) : (s.modDie k f).dies = insertA s.dies k (f (s.die k)) := rfl
@[simp] theorem State.modDie_banks (s : State) (k : Nat) (f : DieSt → DieSt) : (s.modDie k f).banks = s.banks := rfl
@[simp] theorem State.modDie_seqs (s : State) (k : Nat) (f : DieSt → DieSt) : (s.modDie k f).seqs = s.seqs := rfl
@[simp] theorem State.modDie_nextSeq (s : State) (k : Nat) (f : DieSt → DieSt) : (s.modDie k f).nextSeq = s.nextSeq := rfl
@[simp] theorem State.modDie_units (s : State) (k : Nat) (f : DieSt → DieSt) : (s.modDie k f).units = s.units := rfl
@[simp] theorem State.modDie_scratch (s : State) (k : Nat) (f : DieSt → DieSt) : (s.modDie k f).scratch = s.scratch := rfl
@[simp] theorem State.modDie_sheetLines (s : State) (k : Nat) (f : DieSt → DieSt) : (s.modDie k f).sheetLines = s.sheetLines := rfl
@[simp] theorem State.modDie_sram (s : State) (k : Nat) (f : DieSt → DieSt) : (s.modDie k f).sram = s.sram := rfl
@[simp] theorem State.modDie_tablesHit (s : State) (k : Nat) (f : DieSt → DieSt) : (s.modDie k f).tablesHit = s.tablesHit := rfl
@[simp] theorem State.modDie_memArb (s : State) (k : Nat) (f : DieSt → DieSt) : (s.modDie k f).memArb = s.memArb := rfl
@[simp] theorem State.modDie_memScrub (s : State) (k : Nat) (f : DieSt → DieSt) : (s.modDie k f).memScrub = s.memScrub := rfl
@[simp] theorem State.modDie_memMargin (s : State) (k : Nat) (f : DieSt → DieSt) : (s.modDie k f).memMargin = s.memMargin := rfl
@[simp] theorem State.modDie_nbCtrl (s : State) (k : Nat) (f : DieSt → DieSt) : (s.modDie k f).nbCtrl = s.nbCtrl := rfl
@[simp] theorem State.modDie_nbMaxWait (s : State) (k : Nat) (f : DieSt → DieSt) : (s.modDie k f).nbMaxWait = s.nbMaxWait := rfl
@[simp] theorem State.modDie_peatArb (s : State) (k : Nat) (f : DieSt → DieSt) : (s.modDie k f).peatArb = s.peatArb := rfl
@[simp] theorem State.modDie_peatCtrl (s : State) (k : Nat) (f : DieSt → DieSt) : (s.modDie k f).peatCtrl = s.peatCtrl := rfl
@[simp] theorem State.modDie_peatSupplyTimeout (s : State) (k : Nat) (f : DieSt → DieSt) : (s.modDie k f).peatSupplyTimeout = s.peatSupplyTimeout := rfl
@[simp] theorem State.modDie_peatMargin (s : State) (k : Nat) (f : DieSt → DieSt) : (s.modDie k f).peatMargin = s.peatMargin := rfl
@[simp] theorem State.modDie_peatRetired (s : State) (k : Nat) (f : DieSt → DieSt) : (s.modDie k f).peatRetired = s.peatRetired := rfl
@[simp] theorem State.modDie_peatScrubBad (s : State) (k : Nat) (f : DieSt → DieSt) : (s.modDie k f).peatScrubBad = s.peatScrubBad := rfl
@[simp] theorem State.modDie_xfers (s : State) (k : Nat) (f : DieSt → DieSt) : (s.modDie k f).xfers = s.xfers := rfl
@[simp] theorem State.modDie_arrivals (s : State) (k : Nat) (f : DieSt → DieSt) : (s.modDie k f).arrivals = s.arrivals := rfl
@[simp] theorem State.modDie_repairs (s : State) (k : Nat) (f : DieSt → DieSt) : (s.modDie k f).repairs = s.repairs := rfl
@[simp] theorem State.modDie_ring (s : State) (k : Nat) (f : DieSt → DieSt) : (s.modDie k f).ring = s.ring := rfl
@[simp] theorem State.modDie_fltCtrl (s : State) (k : Nat) (f : DieSt → DieSt) : (s.modDie k f).fltCtrl = s.fltCtrl := rfl
@[simp] theorem State.modDie_fatal (s : State) (k : Nat) (f : DieSt → DieSt) : (s.modDie k f).fatal = s.fatal := rfl
@[simp] theorem State.modDie_ashLogFull (s : State) (k : Nat) (f : DieSt → DieSt) : (s.modDie k f).ashLogFull = s.ashLogFull := rfl
@[simp] theorem State.modDie_sheetFifo (s : State) (k : Nat) (f : DieSt → DieSt) : (s.modDie k f).sheetFifo = s.sheetFifo := rfl
@[simp] theorem State.modDie_substs (s : State) (k : Nat) (f : DieSt → DieSt) : (s.modDie k f).substs = s.substs := rfl
@[simp] theorem State.modDie_tileUnits (s : State) (k : Nat) (f : DieSt → DieSt) : (s.modDie k f).tileUnits = s.tileUnits := rfl
@[simp] theorem State.modDie_flash (s : State) (k : Nat) (f : DieSt → DieSt) : (s.modDie k f).flash = s.flash := rfl
@[simp] theorem State.modDie_ashPending (s : State) (k : Nat) (f : DieSt → DieSt) : (s.modDie k f).ashPending = s.ashPending := rfl
@[simp] theorem State.modDie_ashUnrecorded (s : State) (k : Nat) (f : DieSt → DieSt) : (s.modDie k f).ashUnrecorded = s.ashUnrecorded := rfl
@[simp] theorem State.modDie_sec (s : State) (k : Nat) (f : DieSt → DieSt) : (s.modDie k f).sec = s.sec := rfl
@[simp] theorem State.modDie_bist (s : State) (k : Nat) (f : DieSt → DieSt) : (s.modDie k f).bist = s.bist := rfl
@[simp] theorem State.modDie_part (s : State) (k : Nat) (f : DieSt → DieSt) (q : Part) : (s.modDie k f).part q = s.part q := rfl
@[simp] theorem State.modDie_port (s : State) (k : Nat) (f : DieSt → DieSt) (q : Port) : (s.modDie k f).port q = s.port q := rfl

/-! ## `modBank` -/

@[simp] theorem State.modBank_pending (s : State) (k : Nat) (f : BankSt → BankSt) : (s.modBank k f).pending = s.pending := rfl
@[simp] theorem State.modBank_ringTime (s : State) (k : Nat) (f : BankSt → BankSt) : (s.modBank k f).ringTime = s.ringTime := rfl
@[simp] theorem State.modBank_uptime (s : State) (k : Nat) (f : BankSt → BankSt) : (s.modBank k f).uptime = s.uptime := rfl
@[simp] theorem State.modBank_fresh (s : State) (k : Nat) (f : BankSt → BankSt) : (s.modBank k f).fresh = s.fresh := rfl
@[simp] theorem State.modBank_out (s : State) (k : Nat) (f : BankSt → BankSt) : (s.modBank k f).out = s.out := rfl
@[simp] theorem State.modBank_power (s : State) (k : Nat) (f : BankSt → BankSt) : (s.modBank k f).power = s.power := rfl
@[simp] theorem State.modBank_pins (s : State) (k : Nat) (f : BankSt → BankSt) : (s.modBank k f).pins = s.pins := rfl
@[simp] theorem State.modBank_pinsCfg (s : State) (k : Nat) (f : BankSt → BankSt) : (s.modBank k f).pinsCfg = s.pinsCfg := rfl
@[simp] theorem State.modBank_ports (s : State) (k : Nat) (f : BankSt → BankSt) : (s.modBank k f).ports = s.ports := rfl
@[simp] theorem State.modBank_parts (s : State) (k : Nat) (f : BankSt → BankSt) : (s.modBank k f).parts = s.parts := rfl
@[simp] theorem State.modBank_ownerSub (s : State) (k : Nat) (f : BankSt → BankSt) : (s.modBank k f).ownerSub = s.ownerSub := rfl
@[simp] theorem State.modBank_ownerTaken (s : State) (k : Nat) (f : BankSt → BankSt) : (s.modBank k f).ownerTaken = s.ownerTaken := rfl
@[simp] theorem State.modBank_ownerNextCmd (s : State) (k : Nat) (f : BankSt → BankSt) : (s.modBank k f).ownerNextCmd = s.ownerNextCmd := rfl
@[simp] theorem State.modBank_reads (s : State) (k : Nat) (f : BankSt → BankSt) : (s.modBank k f).reads = s.reads := rfl
@[simp] theorem State.modBank_nextTag (s : State) (k : Nat) (f : BankSt → BankSt) : (s.modBank k f).nextTag = s.nextTag := rfl
@[simp] theorem State.modBank_kln (s : State) (k : Nat) (f : BankSt → BankSt) : (s.modBank k f).kln = s.kln := rfl
@[simp] theorem State.modBank_sites (s : State) (k : Nat) (f : BankSt → BankSt) : (s.modBank k f).sites = s.sites := rfl
@[simp] theorem State.modBank_route (s : State) (k : Nat) (f : BankSt → BankSt) : (s.modBank k f).route = s.route := rfl
@[simp] theorem State.modBank_routeDropped (s : State) (k : Nat) (f : BankSt → BankSt) : (s.modBank k f).routeDropped = s.routeDropped := rfl
@[simp] theorem State.modBank_slice (s : State) (k : Nat) (f : BankSt → BankSt) : (s.modBank k f).slice = s.slice := rfl
@[simp] theorem State.modBank_sheet (s : State) (k : Nat) (f : BankSt → BankSt) : (s.modBank k f).sheet = s.sheet := rfl
@[simp] theorem State.modBank_poisoned (s : State) (k : Nat) (f : BankSt → BankSt) : (s.modBank k f).poisoned = s.poisoned := rfl
@[simp] theorem State.modBank_peat (s : State) (k : Nat) (f : BankSt → BankSt) : (s.modBank k f).peat = s.peat := rfl
@[simp] theorem State.modBank_peatPoisoned (s : State) (k : Nat) (f : BankSt → BankSt) : (s.modBank k f).peatPoisoned = s.peatPoisoned := rfl
@[simp] theorem State.modBank_ashList (s : State) (k : Nat) (f : BankSt → BankSt) : (s.modBank k f).ashList = s.ashList := rfl
@[simp] theorem State.modBank_dies (s : State) (k : Nat) (f : BankSt → BankSt) : (s.modBank k f).dies = s.dies := rfl
@[simp] theorem State.modBank_banks (s : State) (k : Nat) (f : BankSt → BankSt) : (s.modBank k f).banks = insertA s.banks k (f (s.bank k)) := rfl
@[simp] theorem State.modBank_seqs (s : State) (k : Nat) (f : BankSt → BankSt) : (s.modBank k f).seqs = s.seqs := rfl
@[simp] theorem State.modBank_nextSeq (s : State) (k : Nat) (f : BankSt → BankSt) : (s.modBank k f).nextSeq = s.nextSeq := rfl
@[simp] theorem State.modBank_units (s : State) (k : Nat) (f : BankSt → BankSt) : (s.modBank k f).units = s.units := rfl
@[simp] theorem State.modBank_scratch (s : State) (k : Nat) (f : BankSt → BankSt) : (s.modBank k f).scratch = s.scratch := rfl
@[simp] theorem State.modBank_sheetLines (s : State) (k : Nat) (f : BankSt → BankSt) : (s.modBank k f).sheetLines = s.sheetLines := rfl
@[simp] theorem State.modBank_sram (s : State) (k : Nat) (f : BankSt → BankSt) : (s.modBank k f).sram = s.sram := rfl
@[simp] theorem State.modBank_tablesHit (s : State) (k : Nat) (f : BankSt → BankSt) : (s.modBank k f).tablesHit = s.tablesHit := rfl
@[simp] theorem State.modBank_memArb (s : State) (k : Nat) (f : BankSt → BankSt) : (s.modBank k f).memArb = s.memArb := rfl
@[simp] theorem State.modBank_memScrub (s : State) (k : Nat) (f : BankSt → BankSt) : (s.modBank k f).memScrub = s.memScrub := rfl
@[simp] theorem State.modBank_memMargin (s : State) (k : Nat) (f : BankSt → BankSt) : (s.modBank k f).memMargin = s.memMargin := rfl
@[simp] theorem State.modBank_nbCtrl (s : State) (k : Nat) (f : BankSt → BankSt) : (s.modBank k f).nbCtrl = s.nbCtrl := rfl
@[simp] theorem State.modBank_nbMaxWait (s : State) (k : Nat) (f : BankSt → BankSt) : (s.modBank k f).nbMaxWait = s.nbMaxWait := rfl
@[simp] theorem State.modBank_peatArb (s : State) (k : Nat) (f : BankSt → BankSt) : (s.modBank k f).peatArb = s.peatArb := rfl
@[simp] theorem State.modBank_peatCtrl (s : State) (k : Nat) (f : BankSt → BankSt) : (s.modBank k f).peatCtrl = s.peatCtrl := rfl
@[simp] theorem State.modBank_peatSupplyTimeout (s : State) (k : Nat) (f : BankSt → BankSt) : (s.modBank k f).peatSupplyTimeout = s.peatSupplyTimeout := rfl
@[simp] theorem State.modBank_peatMargin (s : State) (k : Nat) (f : BankSt → BankSt) : (s.modBank k f).peatMargin = s.peatMargin := rfl
@[simp] theorem State.modBank_peatRetired (s : State) (k : Nat) (f : BankSt → BankSt) : (s.modBank k f).peatRetired = s.peatRetired := rfl
@[simp] theorem State.modBank_peatScrubBad (s : State) (k : Nat) (f : BankSt → BankSt) : (s.modBank k f).peatScrubBad = s.peatScrubBad := rfl
@[simp] theorem State.modBank_xfers (s : State) (k : Nat) (f : BankSt → BankSt) : (s.modBank k f).xfers = s.xfers := rfl
@[simp] theorem State.modBank_arrivals (s : State) (k : Nat) (f : BankSt → BankSt) : (s.modBank k f).arrivals = s.arrivals := rfl
@[simp] theorem State.modBank_repairs (s : State) (k : Nat) (f : BankSt → BankSt) : (s.modBank k f).repairs = s.repairs := rfl
@[simp] theorem State.modBank_ring (s : State) (k : Nat) (f : BankSt → BankSt) : (s.modBank k f).ring = s.ring := rfl
@[simp] theorem State.modBank_fltCtrl (s : State) (k : Nat) (f : BankSt → BankSt) : (s.modBank k f).fltCtrl = s.fltCtrl := rfl
@[simp] theorem State.modBank_fatal (s : State) (k : Nat) (f : BankSt → BankSt) : (s.modBank k f).fatal = s.fatal := rfl
@[simp] theorem State.modBank_ashLogFull (s : State) (k : Nat) (f : BankSt → BankSt) : (s.modBank k f).ashLogFull = s.ashLogFull := rfl
@[simp] theorem State.modBank_sheetFifo (s : State) (k : Nat) (f : BankSt → BankSt) : (s.modBank k f).sheetFifo = s.sheetFifo := rfl
@[simp] theorem State.modBank_substs (s : State) (k : Nat) (f : BankSt → BankSt) : (s.modBank k f).substs = s.substs := rfl
@[simp] theorem State.modBank_tileUnits (s : State) (k : Nat) (f : BankSt → BankSt) : (s.modBank k f).tileUnits = s.tileUnits := rfl
@[simp] theorem State.modBank_flash (s : State) (k : Nat) (f : BankSt → BankSt) : (s.modBank k f).flash = s.flash := rfl
@[simp] theorem State.modBank_ashPending (s : State) (k : Nat) (f : BankSt → BankSt) : (s.modBank k f).ashPending = s.ashPending := rfl
@[simp] theorem State.modBank_ashUnrecorded (s : State) (k : Nat) (f : BankSt → BankSt) : (s.modBank k f).ashUnrecorded = s.ashUnrecorded := rfl
@[simp] theorem State.modBank_sec (s : State) (k : Nat) (f : BankSt → BankSt) : (s.modBank k f).sec = s.sec := rfl
@[simp] theorem State.modBank_bist (s : State) (k : Nat) (f : BankSt → BankSt) : (s.modBank k f).bist = s.bist := rfl
@[simp] theorem State.modBank_part (s : State) (k : Nat) (f : BankSt → BankSt) (q : Part) : (s.modBank k f).part q = s.part q := rfl
@[simp] theorem State.modBank_port (s : State) (k : Nat) (f : BankSt → BankSt) (q : Port) : (s.modBank k f).port q = s.port q := rfl

end Sys2Proof.Machine
end

