-- ==== Sys2Proof/Laws/Events.lean ====
section
/-! SUPPORT. What the writing of an event record changes: `State.Tells` for every operation that tells an event. -/

namespace Sys2Proof.Machine

theorem State.Tells.refl (s : State) : State.Tells s s := ⟨rfl, fun _ => rfl, rfl, fun _ => rfl, List.prefix_rfl⟩

/-- The state behind a run of event records: the four fields that they change are new, and so the rest is the old one's. -/
theorem State.Tells.rest' {s t : State} (h : State.Tells s t) (a : Vector Partition 4) (b : Vector PortSt 4) (c : Subblock) (d : List Out) :
    { t with parts := a, ports := b, ownerSub := c, out := d } = { s with parts := a, ports := b, ownerSub := c, out := d } := by
  rw [h.rest]

theorem State.Tells.trans {s t u : State} (h : State.Tells s t) (k : State.Tells t u) : State.Tells s u where
  rest := by
    have e := k.rest
    rw [h.rest'] at e
    exact e
  parts p := by rw [k.parts p, h.parts p]
  owner := by rw [k.owner, h.owner]
  ports i := by rw [k.ports i, h.ports i]
  out := h.out.trans k.out

theorem State.send_tells {s₀ s : State} (h : State.Tells s₀ s) (o : Out) : State.Tells s₀ (s.send o) :=
  ⟨h.rest' s.parts s.ports s.ownerSub _, h.parts, h.owner, h.ports, h.out.trans (List.prefix_append _ _)⟩

theorem State.modEvq_tells {s₀ s : State} (h : State.Tells s₀ s) (src : Src) (e : Fin 16) (f : EvQ → EvQ) :
    State.Tells s₀ (s.modEvq src e f) := by
  refine h.trans ?_
  cases src with
  | owner => exact ⟨rfl, fun _ => rfl, rfl, fun _ => rfl, List.prefix_rfl⟩
  | part p =>
    refine ⟨rfl, fun q => ?_, rfl, fun _ => rfl, List.prefix_rfl⟩
    by_cases hq : q = p
    · subst hq
      simp only [State.modEvq, State.modSub, State.part_modPart]
    · simp only [State.modEvq, State.modSub, State.part_modPart_other s p q _ hq]

/-- A change of the records that a port holds, or of its MSI-X table. -/
theorem State.modPort_tells {s₀ s : State} (h : State.Tells s₀ s) (i : Port) (f : PortSt → PortSt)
    (hf : f (s.port i) = { s.port i with held := (f (s.port i)).held, msix := (f (s.port i)).msix }) :
    State.Tells s₀ (s.modPort i f) := by
  refine h.trans ⟨rfl, fun _ => rfl, rfl, fun j => ?_, List.prefix_rfl⟩
  by_cases hj : j = i
  · subst hj
    rw [State.port_modPort]
    exact hf
  · rw [State.port_modPort_other s i j f hj]

theorem State.sendOn_tells {s₀ s : State} (h : State.Tells s₀ s) (p : Port) (o : Out) : State.Tells s₀ (s.sendOn p o) := by
  unfold State.sendOn
  split
  · exact State.send_tells h o
  · exact State.modPort_tells h p _ rfl

theorem State.raise_tells {s₀ s : State} (h : State.Tells s₀ s) (p : Port) (v : Fin 256) : State.Tells s₀ (s.raise p v) := by
  unfold State.raise
  dsimp only
  split
  · exact State.modPort_tells h p _ rfl
  · exact State.sendOn_tells h p _

theorem State.interrupt_tells {s₀ s : State} (h : State.Tells s₀ s) (src : Src) (e : Fin 16) : State.Tells s₀ (s.interrupt src e) := by
  unfold State.interrupt
  split
  · exact h
  · exact State.raise_tells (State.modEvq_tells h _ _ _) _ _

theorem State.putRecord_tells {s₀ s : State} (h : State.Tells s₀ s) (src : Src) (e : Fin 16) (r : EventRec) :
    State.Tells s₀ (s.putRecord src e r) := by
  unfold State.putRecord
  dsimp only
  repeat' first
    | exact h
    | with_reducible apply State.interrupt_tells
    | with_reducible apply State.modEvq_tells
    | with_reducible apply State.send_tells
    | with_reducible apply State.sendOn_tells
    | split

theorem State.resumeEvq_tells {s₀ s : State} (h : State.Tells s₀ s) (src : Src) (e : Fin 16) : State.Tells s₀ (s.resumeEvq src e) := by
  unfold State.resumeEvq
  dsimp only
  split
  · split
    · exact State.putRecord_tells (State.modEvq_tells h _ _ _) _ _ _
    · exact h
  · exact h

theorem State.toEvq_tells {s₀ s : State} (h : State.Tells s₀ s) (src : Src) (e : Fin 16) (r : EventRec) :
    State.Tells s₀ (s.toEvq src e r) := by
  unfold State.toEvq
  dsimp only
  split
  · exact State.modEvq_tells h _ _ _
  · split
    · exact State.modEvq_tells h _ _ _
    · split
      · exact State.putRecord_tells h _ _ _
      · exact State.modEvq_tells (State.putRecord_tells h _ _ _) _ _ _

theorem State.toOwner_tells {s₀ s : State} (h : State.Tells s₀ s) (part : Option Part) (v : Ev) : State.Tells s₀ (s.toOwner part v) :=
  State.toEvq_tells h _ _ _

theorem State.toPart_tells {s₀ s : State} (h : State.Tells s₀ s) (p : Part) (e : Fin 16) (v : Ev) : State.Tells s₀ (s.toPart p e v) := by
  unfold State.toPart
  split
  · exact State.toEvq_tells h _ _ _
  · exact State.toOwner_tells h _ _

theorem State.toBoth_tells {s₀ s : State} (h : State.Tells s₀ s) (p : Part) (v : Ev) : State.Tells s₀ (s.toBoth p v) := by
  unfold State.toBoth
  dsimp only
  split
  · exact State.toOwner_tells (State.toPart_tells h _ _ _) _ _
  · exact State.toPart_tells h _ _ _

theorem State.toSrc_tells {s₀ s : State} (h : State.Tells s₀ s) (src : Src) (e : Fin 16) (v : Ev) : State.Tells s₀ (s.toSrc src e v) := by
  unfold State.toSrc
  split
  · exact State.toPart_tells h _ _ _
  · exact State.toEvq_tells h _ _ _

/-- A run of event records. -/
theorem State.Tells.foldl {α : Type} {s₀ : State} (f : State → α → State) (l : List α)
    (hf : ∀ s x, State.Tells s₀ s → State.Tells s₀ (f s x)) : ∀ {s : State}, State.Tells s₀ s → State.Tells s₀ (l.foldl f s) := by
  induction l with
  | nil => exact id
  | cons x l ih => exact fun h => ih (hf _ x h)

theorem State.toLadder_tells {s₀ s : State} (h : State.Tells s₀ s) (touch : List Part) (v : Ev) : State.Tells s₀ (s.toLadder touch v) := by
  refine State.toOwner_tells (State.Tells.foldl _ _ (fun s x k => ?_) h) _ _
  split
  · exact k
  · split
    · exact State.toPart_tells k _ _ _
    · exact k

theorem State.fenceViolation_tells {s₀ s : State} (h : State.Tells s₀ s) (p : Part) (seg kind : Nat) :
    State.Tells s₀ (s.fenceViolation p seg kind) := State.toOwner_tells h _ _

theorem State.toReq_tells {s₀ s : State} (h : State.Tells s₀ s) (p : Part) (n : Nat) (v : Ev) : State.Tells s₀ (s.toReq p n v) := by
  unfold State.toReq
  split
  · exact State.toPart_tells h _ _ _
  · exact h

theorem State.toAll_tells {s₀ s : State} (h : State.Tells s₀ s) (v : Ev) : State.Tells s₀ (s.toAll v) := by
  have k : State.Tells s₀ (allParts.foldl (fun s p =>
      if (s.part p).port.isSome then s.toEvq (.part p) 0 (s.recordOf p.val v) else s) s) := by
    refine State.Tells.foldl _ _ (fun s x k => ?_) h
    split
    · exact State.toEvq_tells k _ _ _
    · exact k
  unfold State.toAll
  dsimp only
  split
  · exact State.toOwner_tells k _ _
  · exact k

/-! ## What a run of event records leaves -/

theorem State.Tells.eq {s t : State} (h : State.Tells s t) {α : Type} (f : State → α)
    (hf : ∀ (u : State) a b c d, f { u with parts := a, ports := b, ownerSub := c, out := d } = f u) : f t = f s := by
  rw [h.rest, hf]

end Sys2Proof.Machine
end

