-- ==== Sys2Proof/Laws/PortsKeeps.lean ====
section
/-! SUPPORT. What the shared operations of Machine/Ports.lean keep. -/

namespace Sys2Proof.Machine

theorem execDoorbell_keeps {κ : Kept} {s₀ s t : State} (h : Keeps κ s₀ s) (port : Port) (offset : Nat) (value : W32) (e : execDoorbell port offset
    value s = .next t) : Keeps κ s₀ t := by
  unfold execDoorbell at e
  cases e
  repeat' first
    | with_reducible assumption
    | with_reducible apply State.modCmdq_keeps
    | split

theorem execCmdqCfgWrite_keeps {κ : Kept} {s₀ s t : State} (h : Keeps κ s₀ s) (port : Port) (sub : Src) (q : Fin 64) (value : W32) (e :
    execCmdqCfgWrite port sub q value s = .next t) : Keeps κ s₀ t := by
  unfold execCmdqCfgWrite at e
  cases e
  repeat' first
    | with_reducible assumption
    | with_reducible apply State.modCmdq_keeps
    | split

theorem execEvqCfgWrite_keeps {κ : Kept} {s₀ s t : State} (h : Keeps κ s₀ s) (port : Port) (sub : Src) (e : Fin 16) (value : W32) (e : execEvqCfgWrite
    port sub e value s = .next t) : Keeps κ s₀ t := by
  unfold execEvqCfgWrite at e
  cases e
  repeat' first
    | with_reducible assumption
    | with_reducible apply State.modEvq_keeps
    | split

theorem execEvqHeadWrite_keeps {κ : Kept} {s₀ s t : State} (h : Keeps κ s₀ s) (port : Port) (sub : Src) (e : Fin 16) (value : W32) (e :
    execEvqHeadWrite port sub e value s = .next t) : Keeps κ s₀ t := by
  unfold execEvqHeadWrite at e
  cases e
  repeat' first
    | with_reducible assumption
    | with_reducible apply State.modEvq_keeps
    | with_reducible apply State.resumeEvq_keeps
    | split

theorem State.writeIrq_keeps {κ : Kept} {s₀ s : State} (h : Keeps κ s₀ s) (sub : Src) (e : Fin 16) (value : W32) : Keeps κ s₀ (State.writeIrq s sub e
    value) := by
  unfold State.writeIrq
  repeat' first
    | with_reducible assumption
    | with_reducible apply State.modEvq_keeps
    | with_reducible apply State.interrupt_keeps
    | split
    | (fail_if_no_progress with_reducible apply Keeps.upd)
    | dsimp only

theorem execEvqCoalesceTimeout_keeps {κ : Kept} {s₀ s t : State} (h : Keeps κ s₀ s) (sub : Src) (e : Fin 16) (e : execEvqCoalesceTimeout sub e s =
    .next t) : Keeps κ s₀ t := by
  unfold execEvqCoalesceTimeout at e
  cases e
  repeat' first
    | with_reducible assumption
    | with_reducible apply State.passTo_keeps
    | with_reducible apply State.interrupt_keeps
    | split
    | (fail_if_no_progress with_reducible apply Keeps.upd)
    | dsimp only

theorem execMsixUnmask_keeps {κ : Kept} {s₀ s t : State} (h : Keeps κ s₀ s) (port : Port) (vector : Fin 256) (e : execMsixUnmask port vector s = .next
    t) : Keeps κ s₀ t := by
  unfold execMsixUnmask at e
  cases e
  repeat' first
    | with_reducible assumption
    | with_reducible apply State.modPort_keeps
    | with_reducible apply State.sendOn_keeps
    | split
    | (fail_if_no_progress with_reducible apply Keeps.upd)
    | dsimp only

theorem State.ringsReady_keeps {κ : Kept} {s₀ s : State} (h : Keeps κ s₀ s) (p : Part) : Keeps κ s₀ (State.ringsReady s p) := by
  unfold State.ringsReady
  repeat' first
    | with_reducible assumption
    | with_reducible apply State.modPart_keeps
    | with_reducible apply State.reviseNow_keeps
    | with_reducible apply State.formNow_keeps
    | split
    | (fail_if_no_progress with_reducible apply Keeps.upd)
    | dsimp only

theorem State.readFailed_keeps {κ : Kept} {s₀ s : State} (h : Keeps κ s₀ s) (src : Src) (id : Nat) : Keeps κ s₀ (State.readFailed s src id) := by
  unfold State.readFailed
  repeat' first
    | with_reducible assumption
    | with_reducible apply State.done_keeps
    | with_reducible apply State.runBoundary_keeps
    | split
    | (fail_if_no_progress with_reducible apply Keeps.upd)
    | dsimp only

theorem State.failRead_keeps {κ : Kept} {s₀ s : State} (h : Keeps κ s₀ s) (r : HostRead) : Keeps κ s₀ (State.failRead s r) := by
  unfold State.failRead
  repeat' first
    | with_reducible assumption
    | with_reducible apply State.modReq_keeps
    | with_reducible apply State.ringsReady_keeps
    | with_reducible apply State.readFailed_keeps
    | split

theorem State.goOn_keeps {κ : Kept} {s₀ s : State} (h : Keeps κ s₀ s) (src : Src) (id : Nat) : Keeps κ s₀ (State.goOn s src id) := by
  unfold State.goOn
  repeat' first
    | with_reducible assumption
    | with_reducible apply State.billetSupply_keeps
    | with_reducible apply State.atBoundaryCmd_keeps
    | with_reducible apply State.runBoundary_keeps
    | with_reducible apply State.modPart_keeps
    | with_reducible apply State.await_keeps
    | with_reducible apply State.modelLoad_keeps
    | split
    | (fail_if_no_progress with_reducible apply Keeps.upd)
    | dsimp only

theorem State.readDone_keeps {κ : Kept} {s₀ s : State} (h : Keeps κ s₀ s) (r : HostRead) (bytes : List Byte) : Keeps κ s₀ (State.readDone s r bytes)
    := by
  unfold State.readDone
  repeat' first
    | with_reducible assumption
    | with_reducible apply State.modReq_keeps
    | with_reducible apply State.ringsReady_keeps
    | with_reducible apply State.modCmd_keeps
    | with_reducible apply State.goOn_keeps
    | split

theorem State.dropRead_keeps {κ : Kept} {s₀ s : State} (h : Keeps κ s₀ s) (port : Port) (tag : Nat) : Keeps κ s₀ (State.dropRead s port tag) := by
  unfold State.dropRead
  repeat' first
    | with_reducible assumption
    | with_reducible apply State.dropReads_keeps

theorem execHostReadDone_keeps {κ : Kept} {s₀ s t : State} (h : Keeps κ s₀ s) (port : Port) (tag : Nat) (data : ReadResult) (e : execHostReadDone port
    tag data s = .next t) : Keeps κ s₀ t := by
  unfold execHostReadDone at e
  cases e
  repeat' first
    | with_reducible assumption
    | with_reducible apply State.dropRead_keeps
    | with_reducible apply State.readDone_keeps
    | with_reducible apply State.failRead_keeps
    | split

theorem execCompletionTimeout_keeps {κ : Kept} {s₀ s t : State} (h : Keeps κ s₀ s) (port : Port) (tag : Nat) (e : execCompletionTimeout port tag s =
    .next t) : Keeps κ s₀ t := by
  unfold execCompletionTimeout at e
  cases e
  repeat' first
    | with_reducible assumption
    | with_reducible apply State.passTo_keeps
    | with_reducible apply State.dropRead_keeps
    | with_reducible apply State.failRead_keeps
    | split

theorem State.failReads_keeps {κ : Kept} {s₀ s : State} (h : Keeps κ s₀ s) (port : Port) : Keeps κ s₀ (State.failReads s port) := by
  unfold State.failReads
  repeat' first
    | with_reducible assumption
    | with_reducible apply State.failRead_keeps
    | with_reducible apply State.dropReads_keeps
    | (with_reducible apply Keeps.foldl; intro _ _ _; try dsimp only)

theorem State.portDown_keeps {κ : Kept} {s₀ s : State} (h : Keeps κ s₀ s) (port : Port) (cause : Nat) : Keeps κ s₀ (State.portDown s port cause) := by
  unfold State.portDown
  repeat' first
    | with_reducible assumption
    | with_reducible apply State.modPort_keeps
    | with_reducible apply State.cutStreams_keeps
    | with_reducible apply State.failReads_keeps
    | with_reducible apply State.beginStop_keeps
    | with_reducible apply State.toOwner_keeps
    | split
    | (fail_if_no_progress with_reducible apply Keeps.upd)
    | dsimp only

theorem execPerstAssert_keeps {κ : Kept} {s₀ s t : State} (h : Keeps κ s₀ s) (port : Port) (e : execPerstAssert port s = .next t) : Keeps κ s₀ t := by
  unfold execPerstAssert at e
  cases e
  repeat' first
    | with_reducible assumption
    | with_reducible apply State.modPort_keeps
    | with_reducible apply State.portDown_keeps
    | split
    | (fail_if_no_progress with_reducible apply Keeps.upd)
    | dsimp only

theorem execHotReset_keeps {κ : Kept} {s₀ s t : State} (h : Keeps κ s₀ s) (port : Port) (e : execHotReset port s = .next t) : Keeps κ s₀ t := by
  unfold execHotReset at e
  cases e
  repeat' first
    | with_reducible assumption
    | with_reducible apply State.portDown_keeps
    | split

theorem execLinkDisable_keeps {κ : Kept} {s₀ s t : State} (h : Keeps κ s₀ s) (port : Port) (e : execLinkDisable port s = .next t) : Keeps κ s₀ t := by
  unfold execLinkDisable at e
  cases e
  repeat' first
    | with_reducible assumption
    | with_reducible apply State.portDown_keeps
    | split

theorem execLinkLost_keeps {κ : Kept} {s₀ s t : State} (h : Keeps κ s₀ s) (port : Port) (e : execLinkLost port s = .next t) : Keeps κ s₀ t := by
  unfold execLinkLost at e
  cases e
  repeat' first
    | with_reducible assumption
    | with_reducible apply State.portDown_keeps
    | split

theorem execLinkUp_keeps {κ : Kept} {s₀ s t : State} (h : Keeps κ s₀ s) (link : Trained) (e : execLinkUp link s = .next t) : Keeps κ s₀ t := by
  unfold execLinkUp at e
  cases e
  repeat' first
    | with_reducible assumption
    | with_reducible apply State.modPort_keeps
    | split

theorem execL0pWidthRequest_keeps {κ : Kept} {s₀ s t : State} (h : Keeps κ s₀ s) (port : Port) (lanes : Nat) (e : execL0pWidthRequest port lanes s =
    .next t) : Keeps κ s₀ t := by
  unfold execL0pWidthRequest at e
  cases e
  repeat' first
    | with_reducible assumption
    | with_reducible apply State.modPort_keeps
    | with_reducible apply State.send_keeps
    | split

theorem execIdeCheckFail_keeps {κ : Kept} {s₀ s t : State} (h : Keeps κ s₀ s) (port : Port) (dir : Fin 2) (e : execIdeCheckFail port dir s = .next t)
    : Keeps κ s₀ t := by
  unfold execIdeCheckFail at e
  cases e
  repeat' first
    | with_reducible assumption
    | with_reducible apply State.portDown_keeps
    | with_reducible apply State.modPort_keeps
    | with_reducible apply State.toPart_keeps
    | with_reducible apply State.toOwner_keeps
    | split
    | (fail_if_no_progress with_reducible apply Keeps.upd)
    | dsimp only

theorem execFlr_keeps {κ : Kept} {s₀ s t : State} (h : Keeps κ s₀ s) (port : Port) (e : execFlr port s = .next t) : Keeps κ s₀ t := by
  unfold execFlr at e
  cases e
  repeat' first
    | with_reducible assumption
    | with_reducible apply State.cutStreams_keeps
    | with_reducible apply State.beginStop_keeps
    | with_reducible apply State.modPart_keeps
    | with_reducible apply State.resetPart_keeps
    | with_reducible apply State.doneAll_keeps
    | with_reducible apply State.dropReads_keeps
    | split
    | (fail_if_no_progress with_reducible apply Keeps.upd)
    | dsimp only

theorem State.consumeEntry_keeps {κ : Kept} {s₀ s : State} (h : Keeps κ s₀ s) (src : Src) (q : Fin 64) (e : List Byte) : Keeps κ s₀
    (State.consumeEntry s src q e) := by
  unfold State.consumeEntry
  repeat' first
    | with_reducible assumption
    | with_reducible apply State.modCmdq_keeps
    | with_reducible apply State.modPart_keeps
    | split
    | (fail_if_no_progress with_reducible apply Keeps.upd)

theorem State.fetchFailed_keeps {κ : Kept} {s₀ s : State} (h : Keeps κ s₀ s) (src : Src) (q : Fin 64) (b : Nat) : Keeps κ s₀ (State.fetchFailed s src
    q b) := by
  unfold State.fetchFailed
  repeat' first
    | with_reducible assumption
    | with_reducible apply State.modCmdq_keeps
    | with_reducible apply State.toSrc_keeps

theorem execCommandFetch_keeps {κ : Kept} {s₀ s t : State} (h : Keeps κ s₀ s) (src : Src) (entry : ReadResult) (e : execCommandFetch src entry s =
    .next t) : Keeps κ s₀ t := by
  unfold execCommandFetch at e
  cases e
  repeat' first
    | with_reducible assumption
    | with_reducible apply State.modSub_keeps
    | with_reducible apply State.fetchFailed_keeps
    | with_reducible apply State.consumeEntry_keeps
    | split

theorem execBadOpcode_keeps {κ : Kept} {s₀ s t : State} (h : Keeps κ s₀ s) (src : Src) (e : execBadOpcode src s = .next t) : Keeps κ s₀ t := by
  unfold execBadOpcode at e
  cases e
  repeat' first
    | with_reducible assumption
    | with_reducible apply State.done_keeps
    | split

theorem execPartitionStopDone_keeps {κ : Kept} {s₀ s t : State} (h : Keeps κ s₀ s) (p : Part) (e : execPartitionStopDone p s = .next t) : Keeps κ s₀ t
    := by
  unfold execPartitionStopDone at e
  cases e
  repeat' first
    | with_reducible assumption
    | with_reducible apply State.runBoundary_keeps
    | with_reducible apply State.stopNow_keeps
    | split
    | (fail_if_no_progress with_reducible apply Keeps.upd)
    | dsimp only

theorem State.applyFormat_keeps {κ : Kept} {s₀ s : State} (h : Keeps κ s₀ s) (p : Part) : Keeps κ s₀ (State.applyFormat s p) := by
  unfold State.applyFormat
  repeat' first
    | with_reducible assumption
    | with_reducible apply State.modPart_keeps
    | split
    | (fail_if_no_progress with_reducible apply Keeps.upd)
    | dsimp only

theorem execKvFmtApply_keeps {κ : Kept} {s₀ s t : State} (h : Keeps κ s₀ s) (port : Port) (p : Part) (format : Byte) (e : execKvFmtApply port p format
    s = .next t) : Keeps κ s₀ t := by
  unfold execKvFmtApply at e
  cases e
  repeat' first
    | with_reducible assumption
    | with_reducible apply State.modPart_keeps
    | with_reducible apply State.applyFormat_keeps
    | split

end Sys2Proof.Machine
end

