-- ==== Sys2Proof/Laws/RegistersKeeps.lean ====
section
/-! SUPPORT. What the shared operations of Machine/Registers.lean keep. -/

namespace Sys2Proof.Machine

theorem after_keeps {κ : Kept} {s₀ s : State} (h : Keeps κ s₀ s) (o : Host.Outcome State Fault Refusal) (ho : ∀ t, o = .next t → Keeps κ s₀ t) :
    Keeps κ s₀ (after o s) := by
  unfold after
  split
  · exact ho _ rfl
  · exact h

theorem State.writeMsix_keeps {κ : Kept} {s₀ s : State} (h : Keeps κ s₀ s) (port : Port) (o : Nat) (v : W32) : Keeps κ s₀ (State.writeMsix s port o v)
    := by
  unfold State.writeMsix
  repeat' first
    | with_reducible assumption
    | with_reducible apply State.modPort_keeps
    | with_reducible apply after_keeps
    | (with_reducible apply execMsixUnmask_keeps; rotate_left; with_reducible assumption)
    | intro _
    | split

theorem State.writePrt_keeps {κ : Kept} {s₀ s : State} (h : Keeps κ s₀ s) (port : Port) (p : Part) (o : Nat) (v : W32) : Keeps κ s₀ (State.writePrt s
    port p o v) := by
  unfold State.writePrt
  repeat' first
    | with_reducible assumption
    | with_reducible apply after_keeps
    | (with_reducible apply execPrtCtrlStop_keeps; rotate_left; with_reducible assumption)
    | (with_reducible apply execPrtCtrlStart_keeps; rotate_left; with_reducible assumption)
    | (with_reducible apply execPrtKlnBegin_keeps; rotate_left; with_reducible assumption)
    | (with_reducible apply execPrtKlnLoad_keeps; rotate_left; with_reducible assumption)
    | intro _
    | split

theorem State.writeSub_keeps {κ : Kept} {s₀ s : State} (h : Keeps κ s₀ s) (port : Port) (src : Src) (o : Nat) (v : W32) : Keeps κ s₀ (State.writeSub s
    port src o v) := by
  unfold State.writeSub
  repeat' first
    | with_reducible assumption
    | with_reducible apply State.modCmdq_keeps
    | with_reducible apply after_keeps
    | (with_reducible apply execCmdqCfgWrite_keeps; rotate_left; with_reducible assumption)
    | with_reducible apply State.modEvq_keeps
    | (with_reducible apply execEvqCfgWrite_keeps; rotate_left; with_reducible assumption)
    | (with_reducible apply execEvqHeadWrite_keeps; rotate_left; with_reducible assumption)
    | with_reducible apply State.writeIrq_keeps
    | with_reducible apply State.modSub_keeps
    | intro _
    | split

theorem State.writeRqt_keeps {κ : Kept} {s₀ s : State} (h : Keeps κ s₀ s) (port : Port) (o : Nat) (v : W32) : Keeps κ s₀ (State.writeRqt s port o v)
    := by
  unfold State.writeRqt
  repeat' first
    | with_reducible assumption
    | with_reducible apply State.modPort_keeps
    | with_reducible apply State.modPart_keeps
    | split
    | (fail_if_no_progress with_reducible apply Keeps.upd)
    | dsimp only

theorem State.writeMem_keeps {κ : Kept} {s₀ s : State} (h : Keeps κ s₀ s) (port : Port) (o : Nat) (v : W32) : Keeps κ s₀ (State.writeMem s port o v)
    := by
  unfold State.writeMem
  repeat' first
    | with_reducible assumption
    | with_reducible apply after_keeps
    | (with_reducible apply execMemMarginHold_keeps; rotate_left; with_reducible assumption)
    | (with_reducible apply execMemMarginRelease_keeps; rotate_left; with_reducible assumption)
    | (with_reducible apply execMemMarginRun_keeps; rotate_left; with_reducible assumption)
    | intro _
    | split
    | (fail_if_no_progress with_reducible apply Keeps.upd)

theorem State.writeNb_keeps {κ : Kept} {s₀ s : State} (h : Keeps κ s₀ s) (port : Port) (o : Nat) (v : W32) : Keeps κ s₀ (State.writeNb s port o v) :=
    by
  unfold State.writeNb
  repeat' first
    | with_reducible assumption
    | split
    | (fail_if_no_progress with_reducible apply Keeps.upd)

theorem State.writeStep_keeps {κ : Kept} {s₀ s : State} (h : Keeps κ s₀ s) (port : Port) (p : Part) (o : Nat) (v : W32) : Keeps κ s₀ (State.writeStep
    s port p o v) := by
  unfold State.writeStep
  repeat' first
    | with_reducible assumption
    | with_reducible apply State.modPart_keeps
    | split

theorem State.writeKv_keeps {κ : Kept} {s₀ s : State} (h : Keeps κ s₀ s) (port : Port) (p : Part) (o : Nat) (v : W32) : Keeps κ s₀ (State.writeKv s
    port p o v) := by
  unfold State.writeKv
  repeat' first
    | with_reducible assumption
    | with_reducible apply State.modPart_keeps
    | with_reducible apply State.spillPolicy_keeps
    | with_reducible apply after_keeps
    | (with_reducible apply execKvFmtApply_keeps; rotate_left; with_reducible assumption)
    | intro _
    | split

theorem State.writePeat_keeps {κ : Kept} {s₀ s : State} (h : Keeps κ s₀ s) (port : Port) (o : Nat) (v : W32) : Keeps κ s₀ (State.writePeat s port o v)
    := by
  unfold State.writePeat
  repeat' first
    | with_reducible assumption
    | with_reducible apply after_keeps
    | (with_reducible apply execPeatMarginHold_keeps; rotate_left; with_reducible assumption)
    | (with_reducible apply execPeatMarginRelease_keeps; rotate_left; with_reducible assumption)
    | (with_reducible apply execPeatMarginRun_keeps; rotate_left; with_reducible assumption)
    | intro _
    | split
    | (fail_if_no_progress with_reducible apply Keeps.upd)

theorem State.writeRing_keeps {κ : Kept} {s₀ s : State} (h : Keeps κ s₀ s) (port : Port) (o : Nat) (v : W32) : Keeps κ s₀ (State.writeRing s port o v)
    := by
  unfold State.writeRing
  repeat' first
    | with_reducible assumption
    | with_reducible apply after_keeps
    | (with_reducible apply execRingCfgWrite_keeps; rotate_left; with_reducible assumption)
    | with_reducible apply State.modRing_keeps
    | (with_reducible apply execRingSetTime_keeps; rotate_left; with_reducible assumption)
    | intro _
    | split

theorem State.writeFlt_keeps {κ : Kept} {s₀ s : State} (h : Keeps κ s₀ s) (port : Port) (o : Nat) (v : W32) : Keeps κ s₀ (State.writeFlt s port o v)
    := by
  unfold State.writeFlt
  repeat' first
    | with_reducible assumption
    | with_reducible apply after_keeps
    | (with_reducible apply execFltPrtRelease_keeps; rotate_left; with_reducible assumption)
    | (with_reducible apply execAutoSpareSet_keeps; rotate_left; with_reducible assumption)
    | (with_reducible apply execFltFatalClear_keeps; rotate_left; with_reducible assumption)
    | intro _
    | split
    | (fail_if_no_progress with_reducible apply Keeps.upd)

theorem onBit_keeps {κ : Kept} {s₀ s : State} (h : Keeps κ s₀ s) (v : W32) (i : Nat) (f : State → Host.Outcome State Fault Refusal)
    (hf : ∀ t, f s = .next t → Keeps κ s₀ t) : Keeps κ s₀ (onBit v i f s) := by
  unfold onBit
  split
  · exact after_keeps h _ hf
  · exact h

theorem State.writeSec_keeps {φ ψ : Prop} {s₀ s : State} (h : Keeps ⟨φ, False, ψ⟩ s₀ s) (port : Port) (o : Nat) (v : W32) : Keeps ⟨φ, False, ψ⟩ s₀ (State.writeSec s port o v)
    := by
  unfold State.writeSec
  repeat' first
    | with_reducible assumption
    | with_reducible apply onBit_keeps
    | (with_reducible apply execSecFwCommitSvn_keeps; rotate_left; with_reducible assumption)
    | (with_reducible apply execSecFwEnrol_keeps; rotate_left; with_reducible assumption)
    | (with_reducible apply execSecFwActivate_keeps; rotate_left; with_reducible assumption)
    | (with_reducible apply execSecFwCheck_keeps; rotate_left; with_reducible assumption)
    | (with_reducible apply execSecFwBegin_keeps; rotate_left; with_reducible assumption)
    | with_reducible apply after_keeps
    | (with_reducible apply execSecFwLoad_keeps; rotate_left; with_reducible assumption)
    | with_reducible apply State.modSec_keeps
    | intro _
    | split
    | (fail_if_no_progress with_reducible apply Keeps.upd)
    | dsimp only

theorem State.writePwr_keeps {φ ψ : Prop} {s₀ s : State} (h : Keeps ⟨False, φ, ψ⟩ s₀ s) (port : Port) (o : Nat) (v : W32) : Keeps ⟨False, φ, ψ⟩ s₀ (State.writePwr s port o v)
    := by
  unfold State.writePwr
  repeat' first
    | with_reducible assumption
    | with_reducible apply onBit_keeps
    | (with_reducible apply execPwrCtrlOn_keeps; rotate_left; with_reducible assumption)
    | (with_reducible apply execPwrCtrlStandby_keeps; rotate_left; with_reducible assumption)
    | with_reducible apply State.modPower_keeps
    | with_reducible apply State.modPins_keeps
    | intro _
    | split
    | (fail_if_no_progress with_reducible apply Keeps.upd)
    | dsimp only
    | exact rfl
    | exact le_rfl
    | exact id
    | assumption

theorem State.writeReg_keeps {φ : Prop} {s₀ s : State} (h : Keeps ⟨False, False, φ⟩ s₀ s) (port : Port) (off : Nat) (v : W32) : Keeps ⟨False, False, φ⟩ s₀ (State.writeReg s port off
    v) := by
  unfold State.writeReg
  repeat' first
    | with_reducible assumption
    | with_reducible apply State.writeMsix_keeps
    | with_reducible apply State.writePrt_keeps
    | with_reducible apply State.writeSub_keeps
    | with_reducible apply State.writeRqt_keeps
    | with_reducible apply after_keeps
    | (with_reducible apply execKlnBegin_keeps; rotate_left; with_reducible assumption)
    | (with_reducible apply execKlnLoad_keeps; rotate_left; with_reducible assumption)
    | with_reducible apply State.writeMem_keeps
    | with_reducible apply State.writeNb_keeps
    | with_reducible apply State.writeStep_keeps
    | with_reducible apply State.writeKv_keeps
    | with_reducible apply State.writePeat_keeps
    | with_reducible apply State.writeRing_keeps
    | with_reducible apply State.writeFlt_keeps
    | with_reducible apply State.writeSec_keeps
    | with_reducible apply State.writePwr_keeps
    | intro _
    | split
    | (fail_if_no_progress with_reducible apply Keeps.upd)
    | dsimp only

theorem execRegisterWrite_keeps {φ : Prop} {s₀ s t : State} (h : Keeps ⟨False, False, φ⟩ s₀ s) (port : Port) (offset : Nat) (size : Nat) (value : W32) (e :
    execRegisterWrite port offset size value s = .next t) : Keeps ⟨False, False, φ⟩ s₀ t := by
  unfold execRegisterWrite at e
  cases e
  repeat' first
    | with_reducible assumption
    | with_reducible apply State.writeReg_keeps
    | split

end Sys2Proof.Machine
end

