-- ==== Sys2Proof/WellFormed.lean ====
section
/-! DEFINITION. The operands that the world outside can bring with a command: numbers within the spaces the manual gives. The
machine gives every command its meaning, well formed or not. -/

namespace Sys2Proof

/-- The peat tier holds 7,168 GiB in chunks of 256 bytes (R288). -/
def peatChunks : Nat := 7168 * 2 ^ 22
/-- Sheet addresses have 43 bits, in blocks of 64 bytes (R32, R78). -/
def sheetBlocks : Nat := 2 ^ 37
/-- The address of a whole block of sheet memory. -/
def sheetBlock (addr : Nat) : Bool := decide (addr < 2 ^ 43) && addr % 64 == 0
/-- A tile's shared cache holds 48 MiB in lines of 64 bytes (R93). -/
def scratchLine (line : Nat) : Bool := decide (line < 786432)
/-- A field of 32 bits. -/
def word32 (n : Nat) : Bool := decide (n < 2 ^ 32)
/-- An outcome that misses an error delivers a whole block or chunk of `n` bytes (R82, R289). -/
def Outcome.wf (n : Nat) : Outcome → Bool
  | .missed data _ => data.length == n
  | _ => true
/-- Decoder outcomes within a space of blocks or chunks, which are 64 and 256 bytes (R82, R289). -/
def Errs.wf (e : Errs) (limit : Nat) : Bool :=
  e.all fun x => decide (x.1 < limit) && x.2.wf (if limit = peatChunks then 256 else 64)
/-- A read of host memory that succeeds brings as many bytes as were asked for (R56). -/
def ReadResult.wf (r : ReadResult) (len : Nat) : Bool := match r with | .ok b => b.length == len | _ => true
/-- A finding names a row, core, cluster or engine that a tile has (R11, R372). -/
def Finding.wf : Finding → Bool
  | .row _ _ r _ => decide (r < 81920)
  | .core c k => decide (c < 256) && decide (k < 68)
  | .cluster c => decide (c < 256)
  | .engine e => decide (e < 48)
  | .tile => true

/-- A command whose operands lie within their spaces. -/
def Instr.wellFormed : Instr → Bool
  | .modelLoadDone _ handle => word32 handle
  | .commandFetch _ entry => entry.wf 64
  | .doorbell _ offset _ => decide (offset < 0x100000) && offset % 4 == 0
  | .bar4Read _ offset len errs => decide (offset + len ≤ 2 ^ 36) && errs.wf sheetBlocks
  | .bar4Write _ offset data errs => decide (offset + data.bytes.length ≤ 2 ^ 36) && errs.wf sheetBlocks
  | .marginDone errors first => (errors == 0) == first.isNone
  | .peatMarginDone errors first => (errors == 0) == first.isNone
  | .registerWrite _ offset size _ => decide (offset + size ≤ 0x2000000) && [1, 2, 4].contains size
  | .postDone findings _ => findings.all fun f => f.2.wf
  | .smbusRequest sensor => decide (sensor < 19)
  | .linkUp link => [4, 8, 16].contains link.lanes
  | .l0pWidthRequest _ lanes => [1, 2, 4, 8, 16].contains lanes
  | .getCertificate _ slot _ _ => decide (slot < 8)
  | .challenge _ nonce => nonce.length == 32
  | .getMeasurements _ index sign nonce => decide (index < 256) && (sign == false || nonce.length == 32)
  | .ideKm _ _ _ _ key => key.length == 32
  | .stepHeadStart _ errs => errs.wf sheetBlocks
  | .cadenceMark _ errs => errs.wf sheetBlocks
  | .stagingDone _ handle region errs => word32 handle && word32 region && errs.wf peatChunks
  | .collectiveTimeout _ tile => decide (tile < 60)
  | .deadlineReached _ request => decide (request < 65536)
  | .endOnlyRecord _ request => decide (request < 65536)
  | .embed _ handle errs => word32 handle && errs.wf sheetBlocks
  | .rmsNorm _ handle errs => word32 handle && errs.wf sheetBlocks
  | .layerNorm _ handle errs => word32 handle && errs.wf sheetBlocks
  | .linear _ handle errs => word32 handle && errs.wf sheetBlocks
  | .rope _ handle => word32 handle
  | .kvAppend _ handle => word32 handle
  | .attend _ handle errs => word32 handle && errs.wf sheetBlocks
  | .act _ handle => word32 handle
  | .route _ handle errs => word32 handle && errs.wf sheetBlocks
  | .combine _ handle => word32 handle
  | .add _ handle => word32 handle
  | .logits _ handle errs => word32 handle && errs.wf sheetBlocks
  | .sample _ handle => word32 handle
  | .season _ handle => word32 handle
  | .scatter _ handle errs => word32 handle && errs.wf sheetBlocks
  | .spillDone _ handle page errs => word32 handle && word32 page && errs.wf sheetBlocks
  | .fetchDone _ handle page errs => word32 handle && word32 page && errs.wf peatChunks
  | .prefixCopyDone _ request errs => decide (request < 65536) && errs.wf sheetBlocks
  | .nbSequenceSubmit hop _ words =>
    decide (hop.issuer < 60) && decide (hop.tile < 60) && decide (words.length ≤ 31)
  | .nbGemv _ errs _ => errs.wf sheetBlocks
  | .nbDot _ errs _ => errs.wf sheetBlocks
  | .nbAxpy _ errs _ => errs.wf sheetBlocks
  | .nbCopy _ errs => errs.wf sheetBlocks
  | .atomicFp32Add tile line _ _ => decide (tile < 60) && scratchLine line
  | .atomicBf16PairAdd tile line _ _ => decide (tile < 60) && scratchLine line
  | .atomicMax tile line _ _ => decide (tile < 60) && scratchLine line
  | .atomicMin tile line _ _ => decide (tile < 60) && scratchLine line
  | .atomicInt32Add tile line _ _ => decide (tile < 60) && scratchLine line
  | .atomicSwap tile line _ _ => decide (tile < 60) && scratchLine line
  | .atomicCompareAndSwap tile line _ _ _ => decide (tile < 60) && scratchLine line
  | .reductionMessage _ hop line _ words cline _ =>
    decide (hop.issuer < 60) && decide (hop.tile < 60) && scratchLine line && decide (1 ≤ words.length ∧ words.length ≤ 16) && scratchLine cline
  | .memRead _ addr o => sheetBlock addr && o.wf 64
  | .memWrite _ addr bytes o => o.wf 64 && decide (addr < 2 ^ 43) && decide (1 ≤ bytes.length) && decide (addr % 64 + bytes.length ≤ 64)
  | .scrubRead addr o => decide (addr < 128 * 40960 * 2097152) && addr % 64 == 0 && o.wf 64
  | .rowRemap _ row errs _ => decide (row < 81920) && errs.wf sheetBlocks
  | .reliefCopyDone _ segment errs => decide (segment < 2 ^ 22) && errs.wf sheetBlocks
  | .coreFault _ cluster core => decide (cluster < 256) && decide (core < 68)
  | .engineParityError _ engine => decide (engine < 48)
  | .peatRead _ chunk o => decide (chunk < peatChunks) && o.wf 256
  | .peatScrubRead chunk o => decide (chunk < peatChunks) && o.wf 256
  | .refetchDone _ handle region billet errs => word32 handle && word32 region && word32 billet && errs.wf peatChunks
  | .supplyTimeout _ handle region billet => word32 handle && word32 region && word32 billet
  | .bistTestDone findings => findings.all Finding.wf
  | .pageMoveDone _ handle page errs => word32 handle && word32 page && errs.wf sheetBlocks
  | .reqOpen _ | .reqAppend _ | .reqClose _ | .reqPark _ | .modelLoad _ | .modelUnload _ | .pageReserve _ | .indexInsert _
  | .indexCopyDone _ | .indexRemove _ | .prtStop _ | .prtStart _ | .bistRun _ _ | .billetSupply _ | .badOpcode _ | .cmdqCfgWrite _ _ _ _
  | .evqCfgWrite _ _ _ _ | .evqHeadWrite _ _ _ _ | .evqCoalesceTimeout _ _ | .msixUnmask _ _ | .klnBegin _ | .klnLoad _ _ | .prtKlnBegin _ _
  | .prtKlnLoad _ _ _ | .prtCtrlStop _ _ | .prtCtrlStart _ _ | .partitionStopDone _ | .zeroiseDone _ | .memMarginHold _
  | .memMarginRelease _ | .memMarginRun _ _ | .peatMarginHold _ | .peatMarginRelease _ | .peatMarginRun _ _ | .kvFmtApply _ _ _
  | .fltPrtRelease _ _ | .fltFatalClear _ | .autoSpareSet _ | .secFwBegin _ | .secFwLoad _ _ | .secFwCheck _ | .fwLoadDone
  | .secFwActivate _ | .secFwEnrol _ | .secFwCommitSvn _ | .ringSetTime _ | .ringCfgWrite _ _ | .pwrCtrlOn _ | .pwrCtrlStandby _
  | .pwrEnRise _ _ _ | .bootSelfCheckDone _ _ | .standbyCheckTick _ | .peatInitDone | .pwrEnFall | .undervoltage | .overvoltage
  | .overcurrent | .modResetAssert | .modResetDeassert | .brakeAssert | .brakeDeassert | .brakeDwellEnd | .brakeHeld | .brakeShareTick _
  | .powerLimitTick _ _ _ | .thermalSample _ | .strapChanged _ | .alertHoldExpiry | .smbusClkTimeout | .testAccessEntry _
  | .testAccessClearDone | .perstAssert _ | .hotReset _ | .linkDisable _ | .linkLost _ | .flr _ | .hostReadDone _ _ _
  | .completionTimeout _ _ | .ideCheckFail _ _ | .getVersion _ | .getCapabilities _ | .negotiateAlgorithms _ | .getDigests _
  | .keyExchange _ _ | .finish _ _ _ | .heartbeat _ _ | .keyUpdate _ _ | .endSession _ _ | .stepForm _ | .programStart _ | .stepCommit _
  | .slotBoundary _ | .slotZeroiseDone _ | .nbClear _ | .nbLoadv _ | .nbReadacc _ | .nbStore _ | .nbMalformed _ | .arbAgePromote _ _
  | .refreshDue _ | .refreshPullin _ | .dieTempSample _ _ | .tileFault _ _ | .substitutionDone _ | .frameFault _ _ | .faultEntryHandle _
  | .ashLogAppend | .peatArbAgePromote _ _ | .ringFrameRx _ | .ringFrameMissing | .ringFrameTx | .ringInStuck | .bistLimitCheck _
  | .bistSaveDone _ | .bistRestoreDone | .bistClearDone | .fwEraseDone | .fuseWriteDone => true

end Sys2Proof
end

