-- ==== Sys2Proof/Tests/Slice0.lean ====
section
/-! SUPPORT. Tests: an ill-formed command for each check of WellFormed, single steps whose results the manual gives, and for each statement
with hypotheses a state and operands that meet them. -/

open Sys2Proof Sys2Proof.Machine

namespace Sys2Proof.Tests

set_option maxRecDepth 20000

/-! ## Small states -/

/-- The state that a command leaves. -/
def after1 (c : Instr) (s : State) : State := match exec c s with | .next t => t | _ => s

/-- An ON module whose owner port and management tile are at corner 0. -/
def on : State := { State.reset with
  power := { State.reset.power with phase := .on, mgmt := some 0 }, pins := { State.reset.pins with pwrEn := true } }

/-- An ON module with the link of port 1 up. -/
def live : State := on.modPort 1 fun x => { x with linkUp := true }

/-- The fence of a partition with port 1, tile 0, and the first four sheet and peat segments. -/
def fence0 : Fence :=
  { port := 1, noZeroise := false, tiles := 1, rqtBase := 0, rqtCount := 16, ranges := [⟨0, 4, 0⟩], peatRw := ⟨0, 4⟩, peatRo := {} }

/-- A RUNNING partition behind port 1. -/
def run0 : Partition := { st := .running, port := some 1, fence := some fence0 }

/-- The live module with one partition. -/
def withPart (q : Partition) : State := live.modPart 0 fun _ => q

/-- The live module with partition 0 running and tile 0 on site 0. -/
def base : State := { withPart run0 with sites := upd live.sites 0 fun _ => { state := .inService, tile := some 0 } }

/-- A module in a phase. -/
def inPhase (x : Phase) : State := { on with power := { on.power with phase := x } }

/-! ## States that meet the hypotheses of the statements -/

theorem witness_EveryStepAnswers : on.pending = [] ∧ on.power.phase ≠ .off := by decide

theorem witness_StepKeepsInvariant : State.reset.power.sharesLegal ∧ State.reset.flash.svnSteps ≤ 64 ∧
    (∃ t, step State.reset = .next t) := ⟨by unfold Power.sharesLegal; decide, by decide, _, rfl⟩

theorem witness_OnlySecurityRowsChangeFirmware : instrWritesFirmware (.prtCtrlStop 1 0) = false ∧
    ((after1 (.prtCtrlStop 1 0) base).part 0).st = .stopping := by decide

theorem witness_ScanLatchHoldsUntilPowerOff :
    let s := after1 (.testAccessEntry 0) on
    s.power.phase ≠ .off ∧ s.sec.scanLatch = true ∧ s.sec.keyValid = false := by decide

theorem witness_OnlyPowerRowsChangePower : instrWritesPower (.prtCtrlStop 1 0) = false := by decide

theorem witness_PowerComesAndGoes : State.reset.power.phase = .off ∧ State.reset.pins.pwrEn = false ∧ on.power.phase ≠ .off ∧
    on.pins.pwrEn = true := by decide

theorem witness_SharesFallAndHeatTrips : on.power.phase ≠ .off ∧ on.pins.pwrEn = true ∧ on.measures = true ∧
    (inPhase .standby).measures = true := by decide

theorem witness_ModuleResetKeepsAndRestarts : on.power.phase ≠ .off ∧ on.pins.resetN = true ∧
    (after1 .modResetAssert on).power.phase = .reset ∧ (after1 .modResetAssert on).pins.resetN = false := by decide

theorem witness_BootEndsOrHolds : (inPhase .boot).power.phase = .boot ∧
    (let s : State := { inPhase .standby with power := { (inPhase .standby).power with holdCause := 1 } }
     s.power.phase = .standby ∧ s.power.holdCause ≠ 0 ∧ s.reaches 0 = true) := by decide

theorem witness_StandbyAndOn : on.owns 0 = true ∧ (∀ p, (on.part p).st = .stopped ∨ (on.part p).st = .absent) ∧
    (inPhase .init).power.phase = .init ∧ (inPhase .init).power.postDone = false := by decide

theorem witness_BrakeActs : on.pinsLive = true ∧ on.pins.brakeN = true ∧
    (let s := after1 .brakeAssert on
     s.pinsLive = true ∧ s.pins.brakeN = false ∧ s.pins.assertedAt = some 0 ∧ s.pins.heldTold = false ∧ s.power.phase = .brake ∧
     s.brakeReportOnly = false) ∧
    (let s := after1 .brakeDeassert (after1 .brakeAssert on)
     s.pins.deassertedAt = some 0 ∧ s.pinsLive = true ∧ s.pins.brakeN = true ∧ s.pins.braking = true) := by decide

theorem witness_PinsAndTestAccess : on.power.phase ≠ .off ∧ (5 : BitVec 4) ≠ on.pins.strapsNow ∧
    (let s : State := { on with pins := { on.pins with alertN := false } }
     s.pins.alertN = false ∧ s.alertHeld = false) ∧
    on.power.mgmt.isSome = true ∧ on.power.mgmtLost = false := by decide

theorem witness_FirmwareAndKeysChange : on.reaches 0 = true ∧ on.sec.busy = .none ∧
    (after1 (.secFwBegin 0) on).sec.busy = .erase ∧ (after1 (.secFwBegin 0) on).sec.loading = true ∧
    (after1 (.secFwCheck 0) on).sec.busy = .check ∧ (after1 (.secFwCommitSvn 0) on).sec.busy = .fuse ∧
    (let s : State := { on with sec := { on.sec with result := 1, verified := some true } }
     s.reaches 0 = true ∧ s.sec.result = 1 ∧ s.sec.verified = some true) := by decide

theorem witness_SpdmConnectionAndKeys :
    let s := live.modSpdm 1 fun x => { x with versioned := true, negotiated := true }
    s.answers 1 = true ∧ (s.port 1).spdm.versioned = true ∧ (s.port 1).spdm.negotiated = true ∧
      (s.port 1).spdm.sessions.length < 2 ∧ s.sec.scanLatch = false ∧ s.sec.keyValid = false := by decide

theorem witness_SpdmSessionRows :
    let s (b : Bool) := live.modSpdm 1 fun x => { x with versioned := true, negotiated := true, sessions := [{ id := 7, established := b }] }
    (s false).answers 1 = true ∧ ((s false).port 1).spdm.negotiated = true ∧ ((s false).port 1).spdm.sessions = [{ id := 7 }] ∧
      (∀ x ∈ ((s false).port 1).spdm.sessions, x.id = 7 → x.established = false) ∧ (s true).answers 1 = true ∧
      (∃ x ∈ ((s true).port 1).spdm.sessions, x.id = 7 ∧ x.established = true) := by decide
/-- A command entry's fields and no body. -/
def cmd0 (opcode : Nat) (body : List Byte := []) : Cmd :=
  { id := 0, queue := 0, opcode := opcode, flags := 0, tag := 0, request := 0, model := 0, body := body }

/-- A queue subblock with one command waiting in queue 0. -/
def waiting : Subblock := { cmdq := upd (Vector.replicate 64 {}) 0 fun _ => { cfg := 0x80000000, tail := 1 } }

/-- A module whose owner port owns no partition, with a command waiting. -/
def ownerWaits : State := { live.modPort 0 (fun x => { x with linkUp := true }) with ownerSub := waiting }

/-- The partition with what is given for its state, queues and commands. -/
def quiet (st : PrtState) (sub : Subblock := {}) (taken : List Cmd := []) : State :=
  withPart { run0 with st := st, sub := sub, taken := taken }

theorem witness_CommandsReachTheModule :
    base.doorbellSrc 1 0 = some (.part 0) ∧ base.drives 1 (.part 0) = true ∧
    (quiet .running waiting).fetches (.part 0) = some true ∧ ((quiet .running waiting).part 0).sub.nextTurn = some (0, 0) ∧
    (quiet .stopped waiting).fetches (.part 0) = some false ∧ ((quiet .stopped waiting).part 0).sub.nextTurn = some (0, 0) ∧
    ownerWaits.fetches .owner = some true ∧ ownerWaits.ownerSub.nextTurn = some (0, 0) ∧
    (let s := quiet .running {} [cmd0 0x99]
     (s.taken (.part 0)).find? (fun c => !knownOps.contains c.opcode && c.eligible (s.taken (.part 0))) = some (cmd0 0x99)) := by decide

theorem witness_PhaseInvertsOnWrap : base.drives 1 (.part 0) = true ∧ (0x80000000 : W32).getLsbD 31 = true ∧
    ((base.sub (.part 0)).evq.get 0).cfg.getLsbD 31 = false ∧ base.srcPort (.part 0) = some 1 ∧ base.portLive 1 = true ∧
    (let q : EvQ := { cfg := 0x80000000, tail := 62 }
     q.tail + 1 < q.size ∧ q.size ≤ ({ q with tail := 63 } : EvQ).tail + 1) := by decide

/-- A partition with an event queue as given. -/
def withEvq (q : EvQ) : State := withPart { run0 with sub := { evq := upd (Vector.replicate 16 {}) 0 fun _ => q } }

theorem witness_EventQueuesFillAndDrain :
    let q : EvQ := { cfg := 0x80000000 }
    let full : EvQ := { q with tail := 63 }
    let spilt : EvQ := { full with overflow := some (1, 5) }
    let told : EvQ := { q with irq := 0x80000000, pending := 1 }
    (withEvq q).srcPort (.part 0) = some 1 ∧ (withEvq q).portLive 1 = true ∧
    (q.cfg.getLsbD 31 = true ∧ q.overflow = none ∧ q.used + 1 < q.size) ∧
    (full.cfg.getLsbD 31 = true ∧ full.overflow = none ∧ full.size ≤ full.used + 1) ∧
    ({ full with tail := 62 } : EvQ).used + 1 < full.size ∧ (spilt.cfg.getLsbD 31 = true ∧ spilt.overflow = some (1, 5)) ∧
    ({} : EvQ).cfg.getLsbD 31 = false ∧
    ((withEvq spilt).drives 1 (.part 0) = true ∧ ((5 : W32).extractLsb' 0 16).toNat < (((withEvq spilt).sub (.part 0)).evq.get 0).size ∧
      (let u := { ((withEvq spilt).sub (.part 0)).evq.get 0 with head := 5, full := false }
       u.used + 2 ≤ u.size)) ∧
    ((((withEvq told).sub (.part 0)).evq.get 0).irq.getLsbD 31 = true ∧ 0 < (((withEvq told).sub (.part 0)).evq.get 0).pending) ∧
    (let s := (withEvq told).modPort 1 fun x => { x with msix := upd x.msix 0 fun e => { e with ctrl := 0 } }
     ((s.port 1).msix.get (((s.sub (.part 0)).evq.get 0).vector)).ctrl.getLsbD 0 = false ∧ s.portLive 1 = true ∧ s.hasMsix 1 = true) := by
  decide

theorem witness_LinksComeAndGo : base.power.phase ≠ .off ∧ (base.port 1).linkUp = true ∧ (base.port 1).perst = false ∧ base.reads = [] ∧
    base.partOf 1 = some 0 ∧ (base.part 0).st = .running ∧ base.serving = true ∧
    (let s := base.modPort 1 fun x => { x with ide := { keys := [((0, 1), [])] } }
     (∃ x ∈ (s.port 1).ide.keys, x.1.2 = (1 : Fin 2).val) ∧ (s.port 1).linkUp = true) ∧
    base.mayLink 2 = true ∧ (base.port 2).linkUp = false ∧ 8 < (base.port 1).lanes ∧ 4 < (base.port 1).lanes ∧
    (quiet .stopped).partOf 1 = some 0 ∧ (quiet .quarantined).partOf 1 = some 0 ∧ live.partOf 0 = none ∧
    (0 : Port) = live.ownerPort := by decide

/-- A read outstanding on port 1. -/
def withRead (s : State) (why : ReadFor) : State :=
  { s with reads := [{ port := 1, tag := 3, addr := 0, len := 4, issued := 0, why := why }], uptime := 60000000 }

/-- A step of no request. -/
def step0 : Step := { picks := [], toks := [], runs := [], headAt := 0, headUp := 0, formats := [] }

theorem witness_HostReadsComplete :
    (let s := withRead base (.ring 0 4)
     ∃ r, s.readOf 1 3 = some r ∧ r.why = .ring 0 4 ∧ (s.part 0).forming = false ∧ r.issued + 50000000 ≤ s.uptime) ∧
    (let s := withRead (withPart { run0 with taken := [{ cmd0 0x31 with reading := true }], step := some step0 }) (.cmd (.part 0) 0)
     ∃ r, s.readOf 1 3 = some r ∧ r.why = .cmd (.part 0) 0 ∧
       (s.part 0).taken.find? (fun d => d.id == 0) = some { cmd0 0x31 with reading := true } ∧ (s.part 0).step.isSome = true) :=
  ⟨⟨_, rfl, by decide⟩, ⟨_, rfl, by decide⟩⟩

/-- The header of a section: type, partition, length of its body, entries. -/
def secHdr (type part len count : Nat) : List Byte :=
  [BitVec.ofNat 8 type, BitVec.ofNat 8 part, 0, 0, BitVec.ofNat 8 len, 0, 0, 0, BitVec.ofNat 8 count, 0, 0, 0, 0, 0, 0, 0]

theorem witness_StructureStreamsApply : base.owns 0 = true ∧ base.tenantStream 1 0 = true ∧ base.kln.ignoring = true ∧
    (let k := (after1 (.klnBegin 0) base).kln
     k.ignoring = false ∧ k.length = none ∧ k.phase = .header ∧ k.buf.length < 28) ∧
    (let k := ((after1 (.prtKlnBegin 1 0) base).part 0).kln
     k.ignoring = false ∧ k.length = none ∧ k.phase = .header ∧ k.buf.length < 28) ∧
    (base.part 0).kln.ignoring = true ∧
    (let s : State := { base with kln := { base.kln with
        ignoring := false, phase := .body (secHdr 7 0 8 0), length := some 64, received := 52, buf := [0, 0, 0, 0] } }
     s.owns 0 = true ∧ s.kln.ignoring = false ∧ s.kln.phase = .body (secHdr 7 0 8 0) ∧ s.kln.length = some 64 ∧
       s.kln.received + 4 ≤ 64 ∧ secLen (secHdr 7 0 8 0) % 4 = 0 ∧ s.kln.buf.length + 4 = secLen (secHdr 7 0 8 0) ∧
       s.gate none (secHdr 7 0 8 0) (s.kln.buf ++ [0, 0, 0, 0]) = true) ∧
    (let s : State := { base with kln := { base.kln with
        ignoring := false, phase := .body (secHdr 1 0 4 0), length := some 64, received := 52 } }
     s.kln.buf.length + 4 = secLen (secHdr 1 0 4 0) ∧ s.gate none (secHdr 1 0 4 0) (s.kln.buf ++ [0, 0, 0, 0]) = false) := by decide

theorem witness_GatesOfSections : 32 ≤ (List.replicate 32 (0 : Byte)).length ∧ secType (secHdr 1 0 32 0) ∈ [1, 2, 3] ∧
    secType (secHdr 4 1 32 0) ∈ [4, 5] ∧ secType (secHdr 7 0 32 0) = 7 ∧ secType (secHdr 8 0 32 0) ∉ [1, 2, 3, 4, 5, 6, 7] := by decide

theorem witness_PartitionsStopAndStart : base.sees 1 0 = true ∧ (base.part 0).st = .running ∧
    (quiet .running {} [cmd0 0x40]).pickCmd (.part 0) 0x40 = some (cmd0 0x40) ∧
    ({ live with ownerTaken := [cmd0 0x40] } : State).pickCmd .owner 0x40 = some (cmd0 0x40) ∧
    (let s := quiet .stopping
     (s.part 0).st = .stopping ∧ (s.part 0).step = none ∧ (s.part 0).pagesMove = false ∧ (∀ c ∈ (s.part 0).taken, c.run ≠ .idle) ∧
       (s.part 0).flrPending = false) ∧
    (let s := quiet .stopped
     s.sees 1 0 = true ∧ (s.part 0).st = .stopped ∧ (s.part 0).port.isSome = true ∧ (s.part 0).zeroising = false) ∧
    (quiet .stopped {} [cmd0 0x41]).pickCmd (.part 0) 0x41 = some (cmd0 0x41) ∧
    (let s := withPart { run0 with st := .stopped, zeroising := true, startPending := true }
     s.sees 1 0 = true ∧ (s.part 0).zeroising = true ∧ (s.part 0).startPending = true ∧ (s.part 0).port.isSome = true) := by decide

/-- A package with one region of each kind given, one program and its descriptors. -/
def pkg0 (regions : List RegionRec := []) (descs : List DescRec := []) : Package :=
  { model := { layers := 0, hidden := 2, vocab := 8, maxPositions := 64, headProgram := 0, layerProgram := 0, tailProgram := 1
               draftModel := 0xFFFFFFFF }
    regions := regions, matrices := [], channels := [], shards := [], rotaries := [], slots := [2, 2, 2]
    programs := [(0, descs.length), (0, 0)], descs := descs }

/-- A READY model of handle 5. -/
def model0 (pkg : Package := pkg0) (parts : Option (List PoolPart) := some []) : Model :=
  { handle := 5, state := .ready, pkg := pkg, control := [], written := [], bound := [], channels := [], narrowNext := none, narrow := none
    parts := parts, scratch := [], index := none, staged := [] }

theorem witness_QuarantineAndCacheFormat :
    (let s := quiet .quarantined
     s.sees 1 0 = true ∧ (s.part 0).st = .quarantined ∧ s.fatal = false ∧ (∀ e ∈ (s.part 0).fifo, e.handling = false)) ∧
    base.reaches 0 = true ∧ (∀ e ∈ base.sheetFifo, e.handling = false) ∧
    (let s := withPart { run0 with models := [model0], kv := { fmtModel := 5 } }
     s.sees 1 0 = true ∧ (s.part 0).model (s.part 0).kv.fmtModel.toNat = some model0 ∧ model0.state = .ready) := by decide

/-- The same module with the last block of the partition's memory poisoned. -/
def spoilt : State := { base with poisoned := [1342177279], peatPoisoned := [0] }

theorem no_tables (b : Nat) : base.tableAt b = none := rfl

theorem witness_ReadsDeliver_scrub :
    let segs := (dieSegs (placeOf 0).tile (placeOf 0).die).filter fun g => !base.ashList.contains g && !base.bankDead (placeOf (g * segBytes))
    ((setAdd (base.die (dieKey 0 (placeOf 0).die)).scrubbed (0 / 64)).filter fun b => segs.contains (b / 32768)).length <
      segs.length * 32768 := by decide

theorem witness_ReadsDeliver :
    (∀ a ∈ [0, 85899345919], base.readable 0 (a / segBytes) = true ∧ base.placeHeld (placeOf a) = false ∧
      base.bankDead (placeOf (a / 64 * 64)) = false ∧ (a / 64) ∉ base.poisoned ∧
      base.ashList.contains (a / 64 / 32768) = false) ∧
    (85899345919 / 64) ∈ spoilt.poisoned ∧ base.readable 0 (85899345920 / segBytes) = false ∧
    ((base.siteOf (placeOf 0).tile = some 0 ∧ base.memScrub.getLsbD 31 = true ∧ base.underTest 0 = false ∧
      base.dieHeld 0 (placeOf 0).die = false ∧ base.bankDead (placeOf 0) = false ∧ base.ashList.contains (0 / segBytes) = false)) ∧
    ((base.part 0).peatReadable (32767 / 8192) = true ∧ base.chunkHeld 32767 = false ∧ base.peatRetired = false ∧
      32767 ∉ base.peatPoisoned ∧ (base.part 0).peatReadable (32768 / 8192) = false ∧ base.peatCtrl.getLsbD 31 = true ∧
      32767 < peatSegs * 8192) := by decide

theorem witness_BlockWritesStore :
    (∀ s ∈ [base, spoilt], s.writable 0 (85899345856 / segBytes) = true ∧ s.placeHeld (placeOf 85899345856) = false ∧
      s.bankDead (placeOf 85899345856) = false ∧ s.sheet.wf = true) ∧
    85899345856 % 64 + 64 ≤ 64 ∧ (85899345856 / 64) ∉ base.poisoned ∧ (85899345856 / 64) ∈ spoilt.poisoned ∧
    base.writable 0 (85899345920 / segBytes) = false := by decide

/-- The partition with its window open on segment 0. -/
def windowed : State := withPart { run0 with sub := { winCtrl := 1 } }

theorem windowed_tables (b : Nat) : windowed.tableAt b = none := rfl

theorem witness_Bar4ReachesPartition : base.window 1 = none ∧
    (let s : State := { windowed with sites := base.sites }
     s.window 1 = some (0, 0) ∧ (∀ g ∈ segsOf (0 * segBytes + 85899345912) 8, s.readable 0 g = true) ∧
     s.placeHeld (placeOf 85899345912) = false ∧ s.rangePoisoned 85899345912 8 = false ∧ s.poisoned = [] ∧
     (∀ g ∈ segsOf 85899345912 8, g ∉ s.ashList) ∧ s.inUse 0 (85899345912 / segBytes) = false ∧
     (∃ g ∈ segsOf (0 * segBytes + 85899345912) 9, s.readable 0 g = false) ∧ s.writable 0 (85899345912 / segBytes) = true ∧
     s.bankDead (placeOf 85899345912) = false ∧ s.bankDead (placeOf (85899345912 / 64 * 64)) = false ∧ 85899345912 % 64 + [1, 2].length ≤ 64 ∧
     ([1, 2] : List Byte) ≠ []) := by decide

theorem witness_MarginingRuns : base.owns 0 = true ∧ base.memMargin.held = false ∧ base.peatMargin.held = false ∧
    (let s := after1 (.memMarginHold 0) on
     s.owns 0 = true ∧ s.memMargin.held = true ∧ s.memMargin.busy = false ∧
     (after1 (.memMarginRun 0 3) s).memMargin.busy = true) ∧
    (let s := after1 (.peatMarginHold 0) on
     s.owns 0 = true ∧ s.peatMargin.held = true ∧ s.peatMargin.busy = false ∧
     (after1 (.peatMarginRun 0 3) s).peatMargin.busy = true) ∧
    (let s := after1 (.memMarginHold 0) base
     s.memMargin.refused = true ∧ s.memMargin.held = false) := by decide

/-- A near-bank command word. -/
def word0 (op : Nat) : NbWord :=
  { op := op, fmt := 0, voff := 0, row := 0, len := 32, acc := 0, accN := 1, aux := 0 }

/-- A sequence for bank 0 of die 0 of tile 0. -/
def seq0 (words : List NbWord) (cls : Fin 4 := 1) : NbSeq :=
  { id := 0, part := some 0, tile := 0, words := words, cls := cls, aged := 0, left := 1
    hdr := { banks := 1, die := 0, cls := cls, doneLine := 9, doneWord := 0, doneTile := 0 } }

/-- A module in which the sequence runs. -/
def banked (words : List NbWord) : State := { base with seqs := [seq0 words] }

/-- Bank 0 of die 0 at site 0. -/
def bank0 : BankId := ⟨0, 0, 0⟩

/-- Bank 0 with a sequence whose next command opens a row, so many refreshes of credit, and so many owed. -/
def owing (c o : Nat) : State :=
  { banked [{ word0 7 with accN := 16 }] with banks := [(bankKey 0 0 0, { credit := c, owed := o })], units := [(bankKey 0 0 0, { seq := 0 })] }

theorem witness_RefreshHeatAndAge_due :
    0 < ((owing 4 0).bank (bankKey 0 0 0)).credit ∧ ((owing 0 0).bank (bankKey 0 0 0)).credit = 0 ∧ lookupA base.units (bankKey 0 0 0) = none ∧
    (base.bank (bankKey 0 0 0)).credit = 0 ∧ lookupA (owing 0 0).units (bankKey 0 0 0) = some { seq := 0 } ∧
    ((owing 0 0).seqs.find? fun q => q.id == 0) = some (seq0 [{ word0 7 with accN := 16 }]) ∧
    ({ word0 7 with accN := 16 } : NbWord).opensRow = true ∧ ({ word0 7 with accN := 16 } : NbWord).malformed = false ∧
    ((owing 0 2).bank (bankKey 0 0 0)).owed < 3 ∧ ((owing 0 3).bank (bankKey 0 0 0)).owed = 3 :=
  ⟨by decide, rfl, rfl, rfl, rfl, rfl, by decide, by decide, by decide, rfl⟩

theorem witness_RefreshHeatAndAge :
    (base.nbCtrl.getLsbD 31 = true ∧ base.bankBusy (bankKey 0 0 0) = false ∧ base.bankQueued 0 0 0 = false ∧
      (base.bank (bankKey 0 0 0)).credit < min 4 (bitsOf base.nbCtrl 2 0)) ∧
    (let h : State := { base with dies := [(dieKey 0 0, { hot := true, coolSince := some 0 })], uptime := 1000000 }
     (base.die (dieKey 0 0)).hot = false ∧ (h.die (dieKey 0 0)).hot = true ∧
     (h.die (dieKey 0 0)).coolSince.getD h.uptime + 1000000 ≤ h.uptime) := by decide

theorem witness_RefreshHeatAndAge_age :
    ((banked [word0 1]).dieQueue ⟨0, 0⟩)[0]? = some (seq0 [word0 1]) ∧ (seq0 [word0 1]).cls ≠ 0 ∧
    (({ base with seqs := [seq0 [] 0] } : State).dieQueue ⟨0, 0⟩)[0]? = some (seq0 [] 0) ∧ (seq0 [] 0).cls = 0 :=
  ⟨rfl, by decide, rfl, rfl⟩

/-- The partition with a page of its model on the way to the peat tier. -/
def spilling : State :=
  let pt : PoolPart := { region := 0, first := 0, count := 4, rows := 4, perSeg := 512, header := 1, slots := 512, numbers := 512, esc := 0
                         freeSlots := [], freeNumbers := [], freeScales := [], freeEscs := [], freeBlocks := [], scales := [], escs := []
                         withdrawn := [], lost := false
                         descs := [(0, { slot := some 0, peat := some (0, 1), scale := none, valid := 64, fmt := some 0, loc := .spilling
                                         ring := false, marked := false })] }
  { withPart { run0 with models := [model0 pkg0 (some [pt])] } with sites := base.sites }

theorem witness_RefreshHeatAndAge_transfers :
    ((spilling.channelQueue (0 : Fin 512).val)[0]?.map fun x => (x.1.kind, (spilling.standing x.1 (.channel 0) x.2).1)) =
      some (.spill 5 0, 2) ∧
    ((spilling.dieTransfers ⟨0, 0⟩)[0]?.map fun x => (spilling.standing x.1 (.die (dieKey 0 0)) x.2).1 != 0) = some true := by decide

/-- A block of the page tables of a model. -/
theorem witness_ReadsDeliver_tables : (spilling.tableAt 0).isSome = true := by decide

/-- The module with a route from site 0 to itself. -/
def routed : State := { base with route := [(0, 0)] }

theorem witness_SharedCacheRows : base.siteOf 0 = some 0 ∧ routed.comesTo 0 0 = some 0 ∧ routed.mayReach 0 0 = true ∧ (3 : Nat) ≠ 4 ∧
    (List.replicate 16 (0 : W32)).length ≤ 16 ∧ routed.mayReach 1 0 = false ∧ base.comesTo 0 0 = none := by decide

/-- A header for bank 0 of die 0, of so many words. -/
def hdr0 (count : Nat) : BitVec 128 := BitVec.ofNat 128 (1 + count * 2 ^ 72)

theorem witness_SequencesBeginAndEnd_submit :
    ((hdr0 1).extractLsb' 72 8).toNat = 1 ∧ ((hdr0 0).extractLsb' 72 8).toNat = 0 ∧
    base.siteOf 0 = some 0 ∧ routed.comesTo 0 0 = some 0 ∧ routed.sitePart (0 : Site).val = some 0 ∧
    routed.seqBreach 0 0 (NbHeader.ofBits (hdr0 1)).1 ([(1 : BitVec 128)].map NbWord.ofBits) = none ∧
    (let s : State := { base with sites := upd base.sites 1 fun _ => { state := .inService, tile := some 1 }, route := [(1, 2), (65, 0)] }
     s.comesTo 0 1 = some 1 ∧ s.sitePart (0 : Site).val = some 0 ∧
     (s.seqBreach 0 1 (NbHeader.ofBits (hdr0 1)).1 ([(7 : BitVec 128)].map NbWord.ofBits)).isSome = true) := by decide

theorem seq0_bank (words : List NbWord) : (seq0 words).left.getLsbD bank0.bank = true := by
  show (1 : W64).getLsbD 0 = true
  decide

/-- The unit of bank 0 stands at the first command of its sequence. -/
theorem banked_unit (words : List NbWord) : (banked words).unitOf bank0 = some (seq0 words, { seq := 0 }) := by
  have h : ((banked words).dieQueue ⟨bank0.site, bank0.die⟩).take 256 = [seq0 words] := rfl
  have h2 : (banked words).sliced bank0.site.val = false := rfl
  have h3 : lookupA (banked words).units (bankKey bank0.site bank0.die.val bank0.bank.val) = none := rfl
  simp only [State.unitOf, h, h2, h3, List.filter_cons, seq0_bank]
  rfl

theorem witness_SequencesBeginAndEnd :
    (banked [{ word0 2 with len := 0 }, word0 1]).unitOf bank0 = some (seq0 [{ word0 2 with len := 0 }, word0 1], { seq := 0 }) ∧
    ({ word0 2 with len := 0 } : NbWord).malformed = true ∧
    (banked [word0 1]).unitOf bank0 = some (seq0 [word0 1], { seq := 0 }) ∧ (word0 1).malformed = false :=
  ⟨banked_unit _, by decide, banked_unit _, by decide⟩

/-- A command that is not malformed is one that the unit executes. -/
theorem banked_unitAt (w : NbWord) (h : w.malformed = false) :
    (banked [w, word0 1]).unitAt bank0 (seq0 [w, word0 1]) { seq := 0 } w w.op :=
  ⟨banked_unit _, rfl, rfl, h, rfl, rfl, Nat.le_refl _, rfl, rfl, Nat.lt_add_one 1⟩

theorem witness_NearBankComputes :
    (∀ w ∈ [word0 1, word0 2, word0 3, { word0 4 with len := 1, aux := 1 }, { word0 5 with len := 1 }], w.malformed = false) ∧
    (banked [word0 3, word0 1]).poisoned = [] ∧ ({ word0 5 with len := 1 } : NbWord).t0 + 1 ≤ 64 := by decide

theorem witness_NearBankStores :
    (∀ w ∈ [{ word0 6 with accN := 16 }, { word0 7 with accN := 16 }, { word0 8 with len := 1, aux := 1 }], w.malformed = false ∧
      w.f = 0 ∧ w.n ≤ 16) ∧ base.sheet.wf = true ∧ base.poisoned = [] ∧
    routed.comesTo 0 0 = some 0 ∧ routed.mayReach 0 0 = true ∧ (seq0 []).hdr.doneTile = 0 ∧
    ((0 : Nat), (9 : Nat)) ≠ (0, 0) ∧
    0 < (({ banked [] with banks := [(bankKey 0 0 0, { owed := 1 })] } : State).bank (bankKey 0 0 0)).owed ∧
    (∀ i, i < 16 → base.bankDead (placeOf (bankAddr 0 bank0 0 0 + 64 * i)) = false) ∧
    base.bankDead (placeOf (bankAddr 0 bank0 1 0)) = false := by decide

/-- A frame of the ring with good symbols. -/
def frame0 : RingFrame := { bits := mkFrame 1000 0 0 0, manchesterOk := true }

theorem witness_RingTimeActs : on.ringRuns = true ∧ frameSound frame0 = true ∧ on.frameFits frame0 = true ∧
    frameSound { frame0 with manchesterOk := false } = false ∧ on.ring.state = .acquire ∧ on.ring.goodRun < 3 ∧
    (let s : State := { on with ring := { on.ring with goodRun := 3, state := .acquire } }
     s.frameFits frame0 = true ∧ 3 ≤ s.ring.goodRun) ∧
    (∀ x ∈ [(980, RingState.locked), (1000, .master)], let s : State := { on with ringTime := BitVec.ofNat 64 x.1, ring := { state := x.2 } }
     s.frameFits frame0 = true ∧ s.ringRuns = true) ∧
    (let s : State := { on with ring := { on.ring with state := .master, setPending := true }, pins := { on.pins with straps := 8 } }
     s.roleNow = true ∧ s.ring.state = .master ∧ s.owns 0 = true) ∧
    on.roleNow = false ∧ on.owns 0 = true ∧ on.ring.inStuck = false := by decide

theorem witness_MisalignedAccessIsIgnored : (2 : Nat) ≠ 4 ∧ 0x50002 % 4 ≠ 0 := by decide

theorem witness_RegisterWritesLand : base.owns 0 = true ∧ base.sees 1 0 = true ∧ base.owns 1 = false ∧ base.sees 2 0 = false ∧
    (0x6FFFC : Nat) < 0x70000 ∧ (0xBFFFC : Nat) < 0xC0000 := by decide

/-- A relief of segment 0 in segment 3. -/
def relief0 : Relief := { handle := 5, region := 0, segment := 0, relief := 3, placed := false, copied := false }

theorem witness_RowAndCopyRepairs :
    (let s : State := { base with dies := [(dieKey 0 0, { failing := [(0, 7)] })] }
     s.poisoned = [] ∧ (s.sites.get 0).tile = some 0 ∧ (s.die (dieKey 0 0)).failing.contains (0, 7) = true ∧
     (s.die (dieKey 0 0)).freeSpare 0 7 = some 128) ∧
    (let s : State := { withPart { run0 with relief := [relief0] } with sites := base.sites }
     (s.part 0).relief.find? (fun r => r.segment == 0 && !r.copied) = some relief0 ∧ (s.part 0).vacated relief0 = true ∧
     s.bankDead (placeOf (0 * segBytes)) = false ∧ s.bankDead (placeOf (relief0.relief * segBytes)) = false ∧ s.sheet.wf = true ∧
     s.rangeHeld (0 * segBytes) segBytes = false ∧ s.rangeHeld (relief0.relief * segBytes) segBytes = false) ∧
    (let s : State := { withPart { run0 with relief := [relief0] } with
        sites := base.sites, memMargin := { base.memMargin with held := true, sel := 0 } }
     s.rangeHeld (0 * segBytes) segBytes = true) ∧
    (let s := spilling.modPart 0 fun q => q.modModel 5 fun m => m.modDesc 0 fun d => { d with moving := some 1 }
     ∃ m pt d, (s.part 0).model 5 = some m ∧ m.pool[pagePart 0]? = some pt ∧ m.desc 0 = some d ∧ d.slot = some 0 ∧ d.moving = some 1 ∧
       s.bankDead (placeOf (pt.slotAddr 0)) = false ∧ s.bankDead (placeOf (pt.slotAddr 1)) = false ∧ s.poisoned = [] ∧
       s.rangeHeld (pt.slotAddr 0) (pt.rows * 1024) = false ∧ s.rangeHeld (pt.slotAddr 1) (pt.rows * 1024) = false) := by
  refine ⟨by decide, by decide, by decide, _, _, _, rfl, rfl, rfl, rfl, rfl, ?_⟩
  decide

/-- The module with a spare at site 3. -/
def spared : State := { base with sites := upd base.sites 3 fun _ => { state := .spare } }

theorem witness_UnitsRetire :
    ({ base with bist := { base.bist with phase := .test } } : State).underTest 0 = true ∧
    base.underTest 0 = false ∧ (base.sites.get 0).state = .inService ∧ (base.units? (0 : Site).val).clusters.contains 2 = false ∧
    (base.units? (0 : Site).val).coreFaults.contains (2, 1) = false ∧ (base.sites.get 0).tile = some 0 ∧ base.substs = [] ∧
    base.nearestSpare 0 = none ∧ spared.nearestSpare 0 = some 3 ∧ base.reaches 0 = true ∧
    (let x : Subst := { failed := 0, spare := none, tile := 0, serves := true, waiting := true }
     let s : State := { spared with substs := [x] }
     s.substs = [x] ∧ x.waiting = true ∧ s.nearestSpare x.failed = some 3) ∧
    (let x : Subst := { failed := 0, spare := some 3, tile := 0, serves := true, waiting := false }
     let s : State := { spared with substs := [x] }
     s.power.mgmtLost = false ∧ s.substs.find? (fun x => x.failed == 0 && !x.waiting) = some x ∧ (3 : Site) ≠ 0) ∧
    edgeSite (7 : Site).val = true ∧ cornerSite 1 = (7 : Site).val := by decide

/-- A record of the ash log, and a fault entry. -/
def ash0 : AshRec := { type := 1, time := 0, loc := 0, arg := 0 }
def fault0 : FaultEntry := { code := 0x3001, cls := 1, rung := 1, request := none, time := 0, loc := 0 }

theorem witness_AshLogAndEntries :
    (let s : State := { on with ashPending := [ash0] }
     s.power.mgmtLost = false ∧ s.ashPending = [ash0] ∧ s.flash.ash.2.length < 7680) ∧
    (let s : State := { on with sheetFifo := [fault0] }
     s.power.mgmtLost = false ∧ nextEntry (s.busyHandlers none) [] (s.fifo none) = some 0) ∧
    ({ on with power := { on.power with mgmtLost := true } } : State).power.mgmtLost = true := by decide

/-- A weight region of one billet. -/
def region0 : RegionRec := { kind := 0, format := 0, segData := 512, billets := 1, dataOffset := 4096, partner := 0xFFFFFFFF }

/-- A partition whose model's one billet is broken, in a phase. -/
def broken (x : RepairPhase) (taken : List Cmd := []) : State :=
  { withPart { run0 with
      models := [model0 (pkg0 [region0])], taken := taken
      places := [{ model := 5, kind := 0, residence := 0, mirror := true, exported := false, region := 0, sheetFirst := 2, sheetCount := 1
                   peatFirst := 1, peatCount := 1 }] } with
    sites := base.sites, repairs := [{ part := 0, handle := 5, region := 0, billet := 0, phase := x }] }

/-- The entry of a weight repair follows it (R345, log 64): QUEUED while its refetch is cancelled, gone with it. -/
theorem test_entry_follows_repair :
    let e (b : Bool) : FaultEntry :=
      { code := 0x3001, cls := 1, rung := 1, request := none, time := 0, loc := 0, handling := b, billet := some (5, 0, 0) }
    let r (x : RepairPhase) : Repair := { part := 0, handle := 5, region := 0, billet := 0, phase := x }
    followRepairs 0 [r .cancelled] [e true] = [e false] ∧ followRepairs 0 [r .refetch] [e false] = [e true] ∧
      followRepairs 0 [] [e true] = [] := by decide

theorem witness_WeightsAreRefetched :
    (let s := broken .refetch
     s.repair? 0 5 0 0 = some { part := 0, handle := 5, region := 0, billet := 0, phase := .refetch } ∧
     (s.part 0).model 5 = some (model0 (pkg0 [region0])) ∧ (s.part 0).billetAddr (model0 (pkg0 [region0])) 0 0 = some (2 * segBytes) ∧
     (s.part 0).billetPeat (model0 (pkg0 [region0])) 0 0 = some segBytes ∧ s.peatRetired = false ∧ s.peatPoisoned = [] ∧
     s.sheet.wf = true ∧ (∀ i, i < 64 → s.bankDead (placeOf (2 * segBytes + 64 * i)) = false) ∧
     s.chunksHeld (segBytes / 256) 16 = false ∧ s.rangeHeld (2 * segBytes) 4096 = false ∧ s.peatBreach 0 segBytes 4096 false = none ∧
     s.breach 0 (2 * segBytes) 4096 true = none ∧
     (let h : State := { s with peatMargin := { s.peatMargin with held := true, sel := 0 } }
      h.chunksHeld (segBytes / 256) 16 = true) ∧
     (let h : State := s.modPart 0 fun q => { q with fence := some { fence0 with tiles := 0, ranges := [] } }
      (h.breach 0 (2 * segBytes) 4096 true).isSome = true)) ∧
    (let c : Cmd := { cmd0 0x51 (List.replicate 48 0) with model := 5 }
     let s : State := { (broken (.lost 0 false)).modPort 0 (fun x => { x with linkUp := true }) with ownerTaken := [c] }
     s.pickCmd .owner 0x51 = some c ∧ s.srcPort .owner = some s.ownerPort ∧ c.f 33 1 = (0 : Part).val ∧
     (s.part 0).model c.model = some (model0 (pkg0 [region0])) ∧ (model0 (pkg0 [region0])).pkg.regions[c.f 16 4]? = some region0 ∧
     region0.kind = c.f 32 1 ∧ (s.lossOf 0 c.model (c.f 16 4) (c.f 20 4)).isSome = true ∧ c.got = [] ∧ s.portLive s.ownerPort = true ∧ s.outstanding s.ownerPort = 0 ∧ s.reads = [] ∧
     (broken .refetch).lossOf 0 c.model (c.f 16 4) (c.f 20 4) = none) ∧
    (let s := broken (.lost 0 false)
     s.repair? 0 5 0 0 = some { part := 0, handle := 5, region := 0, billet := 0, phase := .lost 0 false } ∧ s.peatSupplyTimeout ≠ 0 ∧
     (∀ q, ∀ c ∈ (s.part q).taken, c.run ≠ .closing) ∧ ({ s with peatSupplyTimeout := 0 } : State).peatSupplyTimeout = 0) := by decide

theorem witness_PagesMoveBetweenTiers : ∀ l ∈ [Loc.spilling, .fetching],
    let s := spilling.modPart 0 fun q => q.modModel 5 fun m => m.modDesc 0 fun d => { d with loc := l }
    ∃ m pt d, (s.part 0).model 5 = some m ∧ m.pool[pagePart 0]? = some pt ∧ m.desc 0 = some d ∧ d.slot = some 0 ∧ d.peat = some (0, 1) ∧
      d.loc = l ∧ s.poisoned = [] ∧ s.peatPoisoned = [] ∧ s.peatRetired = false ∧ s.sheet.wf = true ∧ s.peat.wf = true ∧
      s.breach 0 (pt.slotAddr 0) ((s.part 0).pageLen 5 0) (l == .fetching) = none ∧
      s.peatBreach 0 (0 * 4096) ((s.part 0).pageLen 5 0) (l == .spilling) = none ∧ s.rangeHeld (pt.slotAddr 0) ((s.part 0).pageLen 5 0) = false ∧
      (({ s with memMargin := { s.memMargin with held := true, sel := 1 } } : State).rangeHeld (pt.slotAddr 0) ((s.part 0).pageLen 5 0) = true) ∧
      (((s.modPart 0 fun q => { q with fence := some { fence0 with peatRw := ⟨0, 0⟩ } }).peatBreach 0 (0 * 4096)
        ((s.part 0).pageLen 5 0) true).isSome = true) ∧
      (∀ j, j < (s.part 0).pageLen 5 0 / 256 * 256 → s.bankDead (placeOf (pt.slotAddr 0 / 64 * 64 + j / 64 * 64)) = false) := by
  intro l hl
  refine ⟨_, _, _, rfl, rfl, rfl, rfl, rfl, rfl, rfl, rfl, rfl, rfl, rfl, ?_⟩
  fin_cases hl <;> decide

/-- A self-test in a phase. -/
def tested (x : BistPhase) (handed : Bool) : State :=
  { spared with bist := { phase := x, busy := true, tile := some 0, spare := some 3, handedOver := handed } }

theorem witness_SelfTestRuns :
    (let c : Cmd := cmd0 0x50 (List.replicate 48 0)
     let s : State := { spared with ownerTaken := [c] }
     let env : BistEnv := { supply := 20, clock := 100, temp := 84 }
     s.pickCmd .owner 0x50 = some c ∧ c.f 17 1 ≤ 2 ∧ c.f 18 1 = 0 ∧ s.siteOf (c.f 16 1) = some 0 ∧ s.bistBusy 0 = false ∧
     limitsFailed env = 0 ∧ s.nearestSpare 0 = some 3 ∧ limitsFailed { env with temp := 85 } ≠ 0 ∧ limitsFailed { env with supply := 21 } ≠ 0 ∧
     base.nearestSpare 0 = none ∧ (tested .test false).bistBusy 0 = true ∧ (∀ p, (s.part p).step = none)) ∧
    (let s := tested .save false
     s.bist.phase = .save ∧ s.bist.tile = some 0 ∧ s.bist.spare = some 3 ∧ (3 : Site) ≠ s.bist.site ∧ s.bistWaits = false ∧
     ({ s with memMargin := { s.memMargin with held := true, sel := 0 } } : State).bistWaits = true) ∧
    ((tested .test true).bist.phase = .test ∧ (tested .test true).bist.findings = [] ∧ (tested .test false).bist.busy = true ∧
      base.bist.busy = false) ∧
    (let s := tested .restore true
     s.bist.phase = .restore ∧ s.bist.handedOver = true ∧ s.bist.tile = some 0 ∧ s.bist.spare = some 3 ∧ (3 : Site) ≠ s.bist.site ∧
     s.substs = [] ∧ s.bistWaits = false) ∧
    ((tested .clear false).bist.phase = .clear ∧ (tested .clear false).bist.spare = some 3) := by decide

/-- A request of model 5 in a state. -/
def req0 (x : ReqState) : Req :=
  { state := x, priority := 0, policy := 0, model := 5, pending := 1, deadline := 0, ringBase := 0, ringOrder := 6, specWidth := 0, evq := 0
    lastStep := 0, admitted := 0, chain := ⟨[], []⟩
    sampling := { temperature := 0, topK := 0, topP := 0x3F800000, minP := 0, seed := 0, maxNew := 0, stopToken := 0xFFFFFFFF } }

/-- A formed step of that request. -/
def formed0 : Formed := { picks := [{ req := 0, split := 0, tree := none }], formats := [] }

/-- The partition, its queue of commands, its request and model. -/
def served (x : ReqState) (taken : List Cmd := []) (step : Option Step := none) : State :=
  { withPart { run0 with reqs := [(0, req0 x)], models := [model0], taken := taken, step := step } with sites := base.sites }

theorem witness_StepsFormAndBegin :
    (quiet .stopped).serving = true ∧ ((quiet .stopped).part 0).st ≠ .running ∧
    ((base.part 0).st = .running ∧ base.serving = true ∧ ((base.readRings 0).part 0).ringsWait = false) ∧
    (let s := withPart { run0 with reqs := [(0, { req0 .decode with produced := 64 })], models := [model0] }
     ((s.readRings 0).part 0).ringsWait = true) ∧
    (let s := withPart { run0 with formed := some formed0 }
     (s.part 0).cadence = false ∧ s.mayBegin 0 = true) ∧
    (let s : State := { withPart { run0 with formed := some formed0, stepRegs := { cadCtrl := 2, cadPer := 100 } } with
        ring := { state := .master } }
     (s.part 0).cadence = true ∧ s.trusted = true ∧ (s.part 0).step = none ∧
     ((s.ringTo ((s.part 0).nextMark s.now)).mayBegin 0 = true)) ∧
    (let s : State := { withPart { run0 with step := some step0, stepRegs := { cadCtrl := 2, cadPer := 100 } } with
        ring := { state := .master } }
     (s.part 0).cadence = true ∧ s.trusted = true ∧ (s.part 0).step = some step0) := by decide

/-- A run of model 5 that has begun. -/
def begun0 (kind : RunKind := .own) (finished : Bool := false) : ModelRun :=
  { handle := 5, kind := kind, started := !finished, finished := finished }

theorem witness_ProgramsAndCollectives :
    (let st : Step := { step0 with runs := [begun0] }
     let s := served .decode [] (some st)
     (s.part 0).step = some st ∧ (s.part 0).st = .running ∧ (s.part 0).flrPending = false ∧ st.runs.any (fun r => r.started) = true ∧
     (s.part 0).model 5 = some model0 ∧ (s.part 0).mayStream model0 0 = false) ∧ step0.runs.all (fun r => !r.started) = true := by decide

theorem witness_StepsCommit :
    let st : Step := { step0 with picks := formed0.picks, runs := [begun0 .own true], verdicts := [{ req := 0, records := [(1, 0, false)], accepted := [] }] }
    let s := served .decode [] (some st)
    (s.part 0).step = some st ∧ st.runs.all (·.finished) = true ∧ (st.picks.map (·.req)).Nodup ∧ ((s.part 0).req 0).isSome = true ∧
      (s.outturn 0 st { req := 0, split := 0, tree := none }).commits = true ∧
      (s.outturn 0 st { req := 0, split := 0, tree := none }).cause = none ∧
      (s.outturn 0 st { req := 0, split := 0, tree := none }).expires = false ∧
      (let b : Step := { st with runs := [begun0] }
       b.runs.all (·.finished) = false) := by decide

theorem witness_DeadlinesAndLateEnds :
    (let r : Req := { req0 .opened with deadline := 100 }
     let s : State := { withPart { run0 with reqs := [(0, r)] } with ring := { state := .master } }
     (s.part 0).req 0 = some r ∧ (s.part 0).step = none ∧ (s.part 0).inStep 0 = false ∧ r.deadline ≠ 0 ∧ r.deadline < 2 ^ 64 ∧
     s.trusted = true ∧ r.state.live = true ∧ r.deadlinePassed = false ∧ r.endAs = none ∧ r.continues = false ∧ 1 ≤ r.ringFree) ∧
    (let r : Req := { req0 .opened with endAs := some 5, closing := true }
     let s := withPart { run0 with reqs := [(0, r)] }
     (s.part 0).req 0 = some r ∧ (s.part 0).step = none ∧ r.endAs = some 5 ∧ 1 ≤ r.ringFree) ∧
    ({ req0 .opened with produced := 64 } : Req).ringFree = 0 := by decide

/-- A frame of two slots on tile 0, of partitions 0 and 1. -/
def sliced : State := { served .decode with slice := { frameLength := 1000, slots := [⟨1, 0, 0, 500⟩, ⟨1, 1, 500, 500⟩] } }

theorem witness_SlotsTurnOver :
    sliced.slice.slots[0]? = some ⟨1, 0, 0, 500⟩ ∧ sliced.slice.frameLength ≠ 0 ∧ sliced.slice.frameStart ≤ sliced.now ∧
    (⟨1, 0, 0, 500⟩ : Slot).owner = some 0 ∧ (sliced.part 0).step = none ∧
    (let st : Step := { step0 with slots := [0] }
     let s : State := { sliced with parts := (served .decode [] (some st)).parts }
     (s.part 0).step = some st ∧ st.slots.contains 0 = true) ∧
    1 ∈ sliced.slice.following 0 ∧
    (let s : State := { sliced with slice := { sliced.slice with zeroing := [0] } }
     s.slice.zeroing.contains 0 = true ∧ s.slice.slots[0]? = some ⟨1, 0, 0, 500⟩) := by decide

/-! ## Operators -/

/-- A descriptor with what its opcode needs: slot 0 in, slot 1 beside it, slot 2 out. -/
def desc0 (op : Nat) (in1 : Nat := 1) (param : List Byte := []) : DescRec :=
  { op := op, in0 := 0, in1 := in1, in2 := 0xFF, out := 2, obj0 := 0, obj1 := 0, obj2 := 0, param := param }

/-- A package whose one descriptor is given, with a matrix, a shard and a rotary record. -/
def opPkg (d : DescRec) : Package :=
  { pkg0 [region0] [d] with
    matrices := [{ out := 64, inp := 64, format := 0, flags := 0, tileK := 64, experts := 1, regionFirst := 0, regionCount := 1
                   segFirst := 0, lanes := 1, drow := 0, sbyte := 0, chCount := 0, chFirst := 0, chMatrix := 0xFFFFFFFF }]
    shards := [{ kind := 0, format := 0, minKeyFormat := 0xFF, rotary := 0xFF, layer := 0, heads := 1, dim0 := 64, dim1 := 64
                 window := 0, pool := 0 }]
    rotaries := [{ base := 0x461C4000, rotDims := 2, pairing := 0, linear := 0x3F800000, freq := 0x3F800000, wlLo := 0, wlHi := 0 }] }

/-- A token of request 0. -/
def tok0 : Tok := { req := 0, model := 5, kind := .root, pos := 0, token := 1, yields := true, slots := [(0, [0x3F80, 0]), (1, [0x3F80, 0])] }

/-- A step with one token, its run at the descriptor. -/
def opStep (kind : RunKind := .own) : Step := { step0 with picks := formed0.picks, toks := [tok0], runs := [begun0 kind] }

/-- The state of that step. -/
def opState (d : DescRec) (kind : RunKind := .own) : State :=
  withPart { run0 with reqs := [(0, req0 .decode)], models := [model0 (opPkg d)], step := some (opStep kind) }

theorem opState_at (d : DescRec) :
    (opState d).opAt 0 5 d.op (opStep .own) (model0 (opPkg d)) 0 (begun0 .own) d := by
  refine ⟨rfl, rfl, ?_⟩
  simp [Partition.runFor, opStep, step0, begun0, model0, opPkg, pkg0, Package.programOf, Package.program, List.range_succ]

theorem witness_operators (d : DescRec) : (opState d).poisoned = [] ∧ (opPkg d).matrices[(desc0 4).obj0]?.isSome = true ∧
    (opPkg d).shards[(desc0 7).obj0]?.isSome = true ∧ (opPkg d).rotaries[(desc0 5).obj0]?.isSome = true ∧
    lookupA tok0.slots (desc0 11).in0 = some [0x3F80, 0] ∧ lookupA tok0.slots (desc0 11).in1 = some [0x3F80, 0] ∧
    (begun0 .own).has tok0 = true ∧ (desc0 8 0xFF).in1 = 0xFF ∧ (desc0 8).in1 ≠ 0xFF ∧ tok0.yields = true :=
  ⟨rfl, rfl, rfl, rfl, rfl, rfl, rfl, rfl, by decide, rfl⟩

theorem witness_AddRoundsTheSumOnce :
    (opState (desc0 11)).opAt 0 5 11 (opStep .own) (model0 (opPkg (desc0 11))) 0 (begun0 .own) (desc0 11) := opState_at (desc0 11)

theorem witness_TokenOperatorsRun : ∀ op ∈ [5, 6, 8, 10],
    (opState (desc0 op)).opAt 0 5 op (opStep .own) (model0 (opPkg (desc0 op))) 0 (begun0 .own) (desc0 op) :=
  fun op _ => opState_at (desc0 op)

theorem witness_TokenOperatorsRun_none : ∀ op ∈ [1, 2, 3, 4, 5, 6, 7, 8, 9, 10, 11, 12, 13, 14, 15],
    ((served .decode [] (some step0)).part 0).runFor step0 model0 op = none := by decide

theorem witness_WeightOperatorsRun : ∀ op ∈ [1, 2, 3, 4],
    (opState (desc0 op)).opAt 0 5 op (opStep .own) (model0 (opPkg (desc0 op))) 0 (begun0 .own) (desc0 op) :=
  fun op _ => opState_at (desc0 op)

theorem witness_SelectingOperatorsRun : ∀ op ∈ [7, 9, 12],
    (opState (desc0 op)).opAt 0 5 op (opStep .own) (model0 (opPkg (desc0 op))) 0 (begun0 .own) (desc0 op) :=
  fun op _ => opState_at (desc0 op)

theorem witness_TailOperatorsRun : ∀ op ∈ [13, 14, 15],
    (opState (desc0 op)).opAt 0 5 op (opStep .own) (model0 (opPkg (desc0 op))) 0 (begun0 .own) (desc0 op) :=
  fun op _ => opState_at (desc0 op)

theorem witness_TailOperatorsRun_draft :
    (opState (desc0 13) (.drafting 0)).opAt 0 5 13 (opStep (.drafting 0)) (model0 (opPkg (desc0 13))) 0 (begun0 (.drafting 0)) (desc0 13) := by
  refine ⟨rfl, rfl, ?_⟩
  decide

/-! ## Requests and models -/

/-- The bytes of numbers, each of a size. -/
def bytesOf (l : List (Nat × Nat)) : List Byte := l.flatMap fun x => leBytes x.1 x.2

/-- A `REQ_OPEN` of model 5 with a prompt of one token: prompt address, length, policies, deadline, ring, sampling block. -/
def open0 (got : List (List Byte)) : Cmd :=
  { cmd0 0x01 (bytesOf [(8, 0), (4, 1), (1, 0), (1, 0), (1, 0), (1, 0), (8, 0), (8, 0), (1, 6), (3, 0), (8, 64), (4, 0)]) with
    request := 0xFFFFFFFF, model := 5, got := got }

/-- A sampling block: greedy, TOP_P 1. -/
def sample0 : List Byte := bytesOf [(4, 0), (4, 0), (4, 0x3F800000), (4, 0), (8, 0), (4, 0), (4, 0xFFFFFFFF)]

/-- A package with one pool region, a shard, and programs that need no weights. -/
def bytes0 : List (List Byte) :=
  let recs (n : Nat) (l : List (Nat × Nat)) : List Byte := bytesOf l ++ List.replicate (n - (bytesOf l).length) 0
  let desc (op a b out obj1 : Nat) : List Byte := recs 64 [(1, op), (3, 0), (1, a), (1, b), (1, 0xFF), (1, out), (4, 0), (4, obj1)]
  [recs 64 [(4, 0x504D5848), (4, 1), (8, 4096), (4, 0), (4, 6), (8, 64)],
   (([(1, 1), (2, 1), (5, 1), (7, 64), (8, 3), (9, 4)].zip [160, 224, 256, 288, 544, 592]).flatMap fun x =>
     recs 16 [(4, x.1.1), (4, x.1.2), (8, x.2)]),
   recs 64 [(4, 1), (4, 64), (4, 8), (4, 64), (4, 0), (4, 1), (4, 2), (4, 0xFFFFFFFF)],
   recs 32 [(1, 2), (1, 0), (2, 512), (4, 0), (8, 0), (4, 0xFFFFFFFF)],
   recs 32 [(1, 0), (1, 0), (1, 0xFF), (1, 0xFF), (2, 0), (2, 1), (2, 64), (2, 64), (4, 0), (4, 0)],
   (List.replicate 64 (bytesOf [(4, 64)])).flatten,
   recs 16 [(4, 0), (4, 1)] ++ recs 16 [(4, 1), (4, 1)] ++ recs 16 [(4, 2), (4, 2)],
   desc 11 0 1 2 0 ++ desc 6 0 1 0xFF 0 ++ desc 14 0xFF 0xFF 0xFF 0xFFFFFFFF ++ desc 15 0xFF 0xFF 0xFF 0xFFFFFFFF]

/-- A `MODEL_LOAD` of model 5. -/
def load0 (got : List (List Byte)) : Cmd :=
  { cmd0 0x10 (bytesOf [(8, 0), (8, 4096), (4, 0), (4, 0), (4, 0)] ++ List.replicate 20 0) with model := 5, got := got }

/-- A partition with a place for the pool of model 5, and a command. -/
def placed (c : Cmd) (models : List Model := []) (reqs : List (Nat × Req) := []) : State :=
  { withPart { run0 with
      taken := [c], models := models, reqs := reqs, role := { streamLimit := 4 }
      places := [{ model := 5, kind := 2, residence := 0, mirror := false, exported := false, region := 0, sheetFirst := 0, sheetCount := 4
                   peatFirst := 0, peatCount := 0 }] } with sites := base.sites }

theorem witness_RequestsOpen :
    (let c := open0 []
     let s := placed c [model0]
     s.turnOf 0 c 0x01 ∧ s.openTest 0 c = stOk ∧ c.got = [] ∧ (s.part 0).port = some 1 ∧ s.portLive 1 = true ∧
     (placed c).openTest 0 c ≠ stOk ∧ ({ live with ownerTaken := [cmd0 0x10] } : State).pickCmd .owner 0x10 = some (cmd0 0x10)) ∧
    (let c : Cmd := cmd0 0x03
     let s := withPart { run0 with taken := [c], step := some step0 }
     (s.part 0).taken = [c] ∧ (s.part 0).step = some step0 ∧ s.nextRead 0 c = none) ∧
    (let c := open0 [sample0, bytesOf [(4, 3)], bytesOf [(4, 3)]]
     let s := placed c [model0]
     s.turnOf 0 c 0x01 ∧ s.openTest 0 c = stOk ∧ (samplingOf sample0).ok = true ∧ (s.part 0).model c.model = some model0 ∧
     (∀ n ∈ tokensOf (bytesOf [(4, 3)]) ++ tokensOf (bytesOf [(4, 3)]), n < model0.pkg.model.vocab) ∧
     (s.part 0).freeEntry c.request = some 0 ∧ (s.part 0).liveCount < (s.part 0).liveLimit) := by
  unfold State.turnOf
  decide

theorem witness_RequestsChange :
    (let c : Cmd := { cmd0 0x02 (bytesOf [(8, 0), (4, 1), (1, 0)]) with got := [bytesOf [(4, 3)]] }
     let s := placed c [model0] [(0, req0 .decode)]
     s.turnOf 0 c 0x02 ∧ (s.part 0).inShare c.request = true ∧ (s.part 0).req c.request = some (req0 .decode) ∧
     s.appendTest 0 c (req0 .decode) = stOk ∧ (s.part 0).model (req0 .decode).model = some model0 ∧
     (∀ n ∈ tokensOf (bytesOf [(4, 3)]), n < model0.pkg.model.vocab) ∧ c.f 28 1 = 0) ∧
    (let c : Cmd := { cmd0 0x02 (bytesOf [(8, 0), (4, 1), (1, 1)]) with got := [bytesOf [(4, 3)], [0xFF]] }
     let r : Req := { req0 .decode with policy := 8, specWidth := 1 }
     let s := placed c [model0] [(0, r)]
     s.turnOf 0 c 0x02 ∧ s.appendTest 0 c r = stOk ∧ c.f 28 1 = 1 ∧
     (∀ i, i < c.f 24 4 → ((([0xFF] : List Byte).map BitVec.toNat).getD i 0xFF = 0xFF))) ∧
    (∀ x ∈ [ReqState.done, .decode, .opened], let c := cmd0 0x03
     let s := placed c [model0] [(0, req0 x)]
     s.turnOf 0 c 0x03 ∧ (s.part 0).inShare c.request = true ∧ (s.part 0).req c.request = some (req0 x) ∧ c.f 16 1 ≤ 1 ∧
     1 ≤ (req0 x).ringFree) ∧
    (∀ x ∈ [(ReqState.opened, 0), (.parked, 1)], let c := cmd0 0x04 (bytesOf [(1, x.2)])
     let s := placed c [model0] [(0, { req0 x.1 with held := true })]
     s.turnOf 0 c 0x04 ∧ (s.part 0).inShare c.request = true ∧ (s.part 0).spill = false ∧ x.1.live = true ∧ c.f 16 1 = x.2) ∧
    (let r : Req := { req0 .opened with copying := [(5, 0, 1)], matched := 1 }
     let s := placed (cmd0 0x99) [model0] [(0, r)]
     (s.part 0).req 0 = some r ∧ s.poisoned = [] ∧ r.copying ≠ []) := by
  unfold State.turnOf
  decide

theorem witness_ModelsLoadAndUnload :
    (let c := load0 []
     let s := placed c
     s.pickCmd (.part 0) 0x10 = some c ∧ c.started = false ∧ s.loadTest 0 c = stOk ∧ (s.part 0).st = .running ∧
     (s.part 0).port = some 1 ∧ s.portLive 1 = true ∧ ({ base with parts := (withPart { run0 with taken := [c] }).parts } : State).loadTest 0 c ≠ stOk) ∧
    nextNeed ((load0 []).f 24 8) (load0 []).got = .read 0 64 := ⟨by decide, rfl⟩

theorem witness_ModelsLoadAndUnload_package :
    let c := load0 bytes0
    let s := placed c
    nextNeed (c.f 24 8) c.got = .complete ∧
      ((parsePackage c.got).any fun k => k.check (s.part 0) c.model (c.f 24 8) (c.f 36 4) (c.f 40 4) &&
        (s.bindings? 0 c.model (c.loadRegions k)).isSome) = true ∧
      (s.part 0).model c.model = none ∧ (s.part 0).heldModels < 8 := ⟨rfl, by decide, by decide, by decide⟩

theorem witness_ModelsLoadAndUnload_end :
    (let c : Cmd := { load0 [] with run := .loading [] 0 0, started := true }
     let s := placed c [{ model0 with state := .loading }]
     (s.part 0).taken = [c] ∧ c.opcode = 0x10 ∧ c.run = .loading [] 0 0 ∧ (s.part 0).model c.model = some { model0 with state := .loading }) ∧
    (let c : Cmd := { cmd0 0x11 with model := 5 }
     let s := placed c [model0]
     s.turnOf 0 c 0x11 ∧ (s.part 0).model c.model = some model0 ∧ s.bindings 0 c.model = 0 ∧ (s.part 0).reqs = []) := by
  unfold State.turnOf
  decide

theorem witness_PagesAndIndexes :
    (let c : Cmd := cmd0 0x20 (bytesOf [(4, 0), (1, 0)])
     let s := placed c [model0] [(0, req0 .opened)]
     s.turnOf 0 c 0x20 ∧ (s.part 0).inShare c.request = true ∧ (s.part 0).req c.request = some (req0 .opened) ∧ c.f 20 1 % 2 = 0) ∧
    (let c : Cmd := cmd0 0x30
     let s := placed c [model0] [(0, req0 .opened)]
     s.turnOf 0 c 0x30 ∧ (s.part 0).req c.request = some (req0 .opened) ∧ (req0 .opened).state.live = true ∧ c.f 16 4 % 64 = 0 ∧
     c.f 16 4 ≤ (req0 .opened).length ∧ (s.part 0).pagesIn (req0 .opened) (c.f 16 4) = true ∧ (s.part 0).prefixIndex = false) ∧
    (let c : Cmd := { cmd0 0x30 with run := .inserting [] 0 }
     ((placed c).part 0).taken = [c]) ∧
    (let c : Cmd := { cmd0 0x31 with model := 5 }
     let s := placed c [model0]
     s.turnOf 0 c 0x31 ∧ (s.part 0).ready c.model = some model0 ∧ c.f 24 4 = 0) := by
  unfold State.turnOf
  decide

/-- Model 5 with a pool that its place of four segments gives room. -/
def pooled : Model :=
  model0 { opPkg (desc0 11) with regions := [{ region0 with kind := 2, billets := 0 }] } none

theorem witness_RequestsOpen_chain :
    let c := open0 [sample0, bytesOf [(4, 3)], bytesOf [(4, 3)]]
    let s := placed c [pooled]
    s.openTest 0 c = stOk ∧
      ((((s.part 0).carved c.model s.ashList).model c.model).bind fun x => x.pushAll 0 ⟨[], []⟩ [3]).isSome = true := by decide

theorem witness_RequestsChange_chain :
    let s := placed (cmd0 0x02) [pooled]
    (((s.part 0).carved 5 []).model 5).any (fun m => (m.pushAll 0 (req0 .decode).chain [3]).isSome) = true := by decide

theorem witness_PagesAndIndexes_pages :
    let c : Cmd := cmd0 0x20 (bytesOf [(4, 64), (1, 0)])
    let r : Req := { req0 .opened with lists := [⟨[], []⟩] }
    let s (n : List Model) := placed c n [(0, r)]
    (((s [pooled]).part 0).reserve 0 r (r.length + c.f 16 4) []).isSome = true ∧
      ((s [{ pooled with parts := some [] }]).part 0).reserve 0 r (r.length + c.f 16 4) [] = none ∧
      (({ (s [pooled]).part 0 with role := { features := 4 } } : Partition).prefixIndex = true) := by decide
/-! ## Ill-formed commands -/

/-- An ill-formed command for each check of `Instr.wellFormed`. -/
def illFormed : List Instr :=
  [.modelLoadDone 0 (2 ^ 32), .commandFetch .owner (.ok []), .doorbell 0 0x100000 0, .doorbell 0 2 0, .bar4Read 0 (2 ^ 36) 1 [],
   .bar4Read 0 0 1 [(2 ^ 37, .clean)], .bar4Write 0 (2 ^ 36) { bytes := [0] } [], .bar4Write 0 0 { bytes := [0] } [(2 ^ 37, .clean)], .marginDone 0 (some 0),
   .marginDone 1 none, .peatMarginDone 0 (some 0), .peatMarginDone 1 none, .registerWrite 0 0x1FFFFFF 2 0, .registerWrite 0 0 3 0,
   .postDone [(0, .row 0 0 81920 true)] [], .postDone [(0, .core 256 0)] [], .postDone [(0, .core 0 68)] [],
   .postDone [(0, .cluster 256)] [], .postDone [(0, .engine 48)] [], .smbusRequest 19, .l0pWidthRequest 0 3, .getCertificate 0 8 0 0,
   .challenge 0 [], .getMeasurements 0 256 false [], .getMeasurements 0 1 true [], .ideKm 0 0 0 0 [],
   .linkUp ⟨0, 3, .gt64⟩]

def illFormed2 : List Instr :=
  [.stepHeadStart 0 [(2 ^ 37, .clean)], .cadenceMark 0 [(2 ^ 37, .clean)], .stagingDone 0 (2 ^ 32) 0 [], .stagingDone 0 0 (2 ^ 32) [],
   .stagingDone 0 0 0 [(peatChunks, .clean)], .collectiveTimeout 0 60, .deadlineReached 0 65536, .endOnlyRecord 0 65536,
   .embed 0 (2 ^ 32) [], .embed 0 0 [(2 ^ 37, .clean)], .rmsNorm 0 (2 ^ 32) [], .rmsNorm 0 0 [(2 ^ 37, .clean)],
   .layerNorm 0 (2 ^ 32) [], .layerNorm 0 0 [(2 ^ 37, .clean)], .linear 0 (2 ^ 32) [], .linear 0 0 [(2 ^ 37, .clean)],
   .rope 0 (2 ^ 32), .kvAppend 0 (2 ^ 32), .attend 0 (2 ^ 32) [], .attend 0 0 [(2 ^ 37, .clean)], .act 0 (2 ^ 32),
   .route 0 (2 ^ 32) [], .route 0 0 [(2 ^ 37, .clean)], .combine 0 (2 ^ 32), .add 0 (2 ^ 32), .logits 0 (2 ^ 32) [],
   .logits 0 0 [(2 ^ 37, .clean)], .sample 0 (2 ^ 32), .season 0 (2 ^ 32), .scatter 0 (2 ^ 32) [], .scatter 0 0 [(2 ^ 37, .clean)],
   .spillDone 0 (2 ^ 32) 0 [], .spillDone 0 0 (2 ^ 32) [], .spillDone 0 0 0 [(2 ^ 37, .clean)], .fetchDone 0 (2 ^ 32) 0 [],
   .fetchDone 0 0 (2 ^ 32) [], .fetchDone 0 0 0 [(peatChunks, .clean)], .prefixCopyDone 0 65536 [], .prefixCopyDone 0 0 [(2 ^ 37, .clean)]]

def illFormed3 : List Instr :=
  [.nbSequenceSubmit ⟨60, 0⟩ (hdr0 1) [1], .nbSequenceSubmit ⟨0, 60⟩ (hdr0 1) [1],
   .nbGemv bank0 [(2 ^ 37, .clean)] false, .nbDot bank0 [(2 ^ 37, .clean)] false, .nbAxpy bank0 [(2 ^ 37, .clean)] false,
   .nbCopy bank0 [(2 ^ 37, .clean)], .atomicFp32Add 60 0 ⟨0, true⟩ 0, .atomicFp32Add 0 786432 ⟨0, true⟩ 0, .atomicBf16PairAdd 60 0 ⟨0, true⟩ 0,
   .atomicBf16PairAdd 0 786432 ⟨0, true⟩ 0, .atomicMax 60 0 ⟨0, true⟩ 0, .atomicMax 0 786432 ⟨0, true⟩ 0, .atomicMin 60 0 ⟨0, true⟩ 0, .atomicMin 0 786432 ⟨0, true⟩ 0,
   .atomicInt32Add 60 0 ⟨0, true⟩ 0, .atomicInt32Add 0 786432 ⟨0, true⟩ 0, .atomicSwap 60 0 ⟨0, true⟩ 0, .atomicSwap 0 786432 ⟨0, true⟩ 0,
   .atomicCompareAndSwap 60 0 ⟨0, true⟩ 0 0, .atomicCompareAndSwap 0 786432 ⟨0, true⟩ 0 0, .reductionMessage 0 ⟨60, 0⟩ 0 .max [0] 0 0, .reductionMessage 0 ⟨0, 60⟩ 0 .max [0] 0 0,
   .reductionMessage 0 ⟨0, 0⟩ 786432 .max [0] 0 0, .reductionMessage 0 ⟨0, 0⟩ 0 .max [] 0 0, .reductionMessage 0 ⟨0, 0⟩ 0 .max (List.replicate 17 0) 0 0,
   .reductionMessage 0 ⟨0, 0⟩ 0 .max [0] 786432 0, .nbSequenceSubmit ⟨0, 0⟩ (hdr0 1) (List.replicate 32 0), .memRead .scrub 0 (.missed [0] false),
   .memWrite 0 0 [0] (.missed [0] false), .scrubRead 0 (.missed [0] false), .peatRead 0 0 (.missed [0] false),
   .peatScrubRead 0 (.missed [0] false), .nbCopy bank0 [(0, .missed [0] false)], .fetchDone 0 0 0 [(0, .missed [0] false)]]

def illFormed4 : List Instr :=
  [.memRead .scrub (2 ^ 43) .clean, .memRead .scrub 1 .clean, .memWrite 0 (2 ^ 43) [0] .clean, .memWrite 0 0 [] .clean,
   .memWrite 0 63 [0, 0] .clean, .scrubRead 1 .clean, .rowRemap bank0 81920 [] true, .rowRemap bank0 0 [(2 ^ 37, .clean)] true,
   .reliefCopyDone 0 (2 ^ 22) [], .reliefCopyDone 0 0 [(2 ^ 37, .clean)], .coreFault 0 256 0, .coreFault 0 0 68, .engineParityError 0 48,
   .peatRead 0 peatChunks .clean, .peatScrubRead peatChunks .clean, .refetchDone 0 (2 ^ 32) 0 0 [], .refetchDone 0 0 (2 ^ 32) 0 [],
   .refetchDone 0 0 0 (2 ^ 32) [], .refetchDone 0 0 0 0 [(peatChunks, .clean)], .supplyTimeout 0 (2 ^ 32) 0 0, .supplyTimeout 0 0 (2 ^ 32) 0,
   .supplyTimeout 0 0 0 (2 ^ 32), .bistTestDone [.engine 48], .pageMoveDone 0 (2 ^ 32) 0 [], .pageMoveDone 0 0 (2 ^ 32) [],
   .pageMoveDone 0 0 0 [(2 ^ 37, .clean)]]

theorem test_illFormed_refused : ∀ c ∈ illFormed, c.wellFormed = false := by decide
theorem test_illFormed2_refused : ∀ c ∈ illFormed2, c.wellFormed = false := by decide
theorem test_illFormed3_refused : ∀ c ∈ illFormed3, c.wellFormed = false := by decide
theorem test_illFormed4_refused : ∀ c ∈ illFormed4, c.wellFormed = false := by decide

/-- Commands at the ends of their ranges are well formed. -/
theorem test_boundaries_wellFormed : ∀ c ∈ ([.doorbell 3 0xFFFFC 0, .registerWrite 0 0x1FFFFFC 4 0, .smbusRequest 18, .coreFault 63 255 67,
    .engineParityError 0 47, .memWrite 0 63 [0] .clean, .marginDone 1 (some 583), .peatRead 0 (peatChunks - 1) .clean,
    .deadlineReached 0 65535, .commandFetch .owner .timeout] : List Instr), c.wellFormed = true := by decide

/-! ## Single steps and the manual's worked examples -/

/-- No word of the table spells a command: no row has bits. -/
theorem test_no_word_decodes : decodeTableWord 32 0 = none := by decide

/-- A step runs the front of the queue with the rest in place. -/
theorem test_step_runs_front : (match step { base with pending := [.prtCtrlStop 1 0, .ringInStuck] } with
    | .next t => decide ((t.part 0).st = .stopping ∧ t.pending = [.ringInStuck])
    | _ => false) = true := by decide

/-- Chapter 4's example: the address 0x25A_D0E1_2345. -/
theorem test_address_example : placeOf 0x25AD0E12345 = { tile := 30, die := 7, bank := 40, row := 10312, column := 837 } := by decide

/-- Chapter 6's example: an MXFP4 block of amax 0.9 takes scale 0x7D, and 0.9, 0.3125, -0.3, 0.05 take codes 6, 2, 0xA and 0. -/
theorem test_mxfp4_example : (deriveScale 1 0x3F666666).1 = 0x7D ∧
    ([0x3F666666, 0x3EA00000, 0xBE99999A, 0x3D4CCCCD].map fun x => encodeElem 1 x 0x3E800000) = [6, 2, 0xA, 0] := by decide

/-- Chapter 6's example: an HX4-64 block of 0.3 takes the scale 0x3D30, and each element code 7. -/
theorem test_hx4_example : (deriveScale 5 0x3E99999A).1 = 0x3D30 ∧ encodeElem 5 0x3E99999A 0x3D300000 = 7 := by decide

/-- Chapter 5's example: a tile of 64 outputs by 2,048 inputs at MXFP8 has 128 rows of data and 4 rows of scales. -/
theorem test_gemv_rows_example : ({ word0 3 with fmt := 3, len := 2048 } : NbWord).gemvBytes = 131072 ∧
    ({ word0 3 with fmt := 3, len := 2048 } : NbWord).scaleBytes = 4096 := by decide

/-- Chapter 9's example: a window of 4,096 keeps 65 pages, and position 4,160 maps to entry 0. -/
theorem test_window_example :
    let sh : ShardRec := { kind := 0, format := 0, minKeyFormat := 0xFF, rotary := 0xFF, layer := 0, heads := 8, dim0 := 1024, dim1 := 1024
                           window := 4096, pool := 0 }
    sh.ringLen = some 65 ∧ sh.entryOf 4160 = 0 ∧ sh.pageBytes 0 = 256 * 1024 := by decide

/-- Chapter 17's example: a tenant reads its own partition's registers, and 0 at another's and at the owner's. -/
theorem test_tenant_reads_example :
    let s := (live.modPart 2 fun _ => { run0 with stepRegs := { lastNs := 7 }, ctr := { memCorr := 9 } }).modPart 1 fun _ =>
      { run0 with port := some 3, stepRegs := { lastNs := 5 } }
    (s.readRegister 1 0x80248 4).1 = 7 ∧ (s.readRegister 1 0x80148 4).1 = 0 ∧ (s.readRegister 1 0x50060 4).1 = 9 ∧
      (s.readRegister 1 0x40004 4).1 = 0 := by decide

/-- R95: int32 add wraps, and the old value is delivered. -/
theorem test_int32_add_wraps :
    let s := after1 (.atomicInt32Add 0 3 ⟨2, true⟩ 1) { base with scratch := [((0, 3), { words := Vector.replicate 16 0xFFFFFFFF })] }
    (s.line 0 3).words.get 2 = 0 ∧ (s.line 0 3).words.get 1 = 0xFFFFFFFF ∧ s.out = [.atomOld 0xFFFFFFFF] := by decide

/-- R95: a BF16 pair add saturates its halves at the largest finite value; an FP32 add overflows to infinity. -/
theorem test_adds_overflow : bf16Add 0x7F7F 0x7F7F = 0x7F7F ∧ f32Add 0x7F7FFFFF 0x7F7FFFFF = 0x7F800000 ∧
    f32Add 0x7F800000 0xFF800000 = 0x7FC00000 := by decide

/-- R95: -0 ranks below +0, and one NaN operand gives the other. -/
theorem test_max_min : f32Max 0x80000000 0 = 0 ∧ f32Min 0 0x80000000 = 0x80000000 ∧ f32Max 0x7FC00001 0x3F800000 = 0x3F800000 ∧
    f32Max 0x7FC00001 0xFFC00000 = 0x7FC00000 := by decide

/-- R106: NB_CLEAR of one accumulator zeroes it. -/
theorem test_clear_advances : (((after1 (.nbClear bank0) (banked [word0 1, word0 1])).units.map fun x => x.2.pc)) = [1] := by decide

/-- R321, R387: an accepted BRAKE_N puts an ON module into BRAKE at 8/16. -/
theorem test_brake : (after1 .brakeAssert on).power.phase = .brake ∧ (after1 .brakeAssert on).power.brakeShare = 8 ∧
    (after1 .brakeAssert on).pins.brakeCount = 1 := by decide

/-- R389: 110 °C trips, 109 °C does not. -/
theorem test_trip :
    let r (n : Nat) : Thermal := { maxLogic := n, logicSite := 0, maxDram := 0, dramSite := 0, inlet := 20, outlet := 30, flow := 500 }
    (after1 (.thermalSample (r 110)) on).power.phase = .off ∧ (after1 (.thermalSample (r 109)) on).power.phase = .on := by decide

/-- R322: straps whose three samples differ read 0 with UNSTABLE set. -/
theorem test_straps : (after1 (.pwrEnRise 5 5 5) State.reset).pins.straps = 5 ∧ (after1 (.pwrEnRise 5 5 4) State.reset).pins.unstable = true ∧
    (after1 (.pwrEnRise 5 5 4) State.reset).pins.straps = 0 := by decide

/-- R64: a doorbell at 2^ORDER is a bad one, and one below it is the tail. -/
theorem test_doorbell :
    ((after1 (.doorbell 1 0 16) (quiet .running waiting)).sub (.part 0)).cmdq.get 0 = { cfg := 0x80000000, tail := 1, badDoorbell := true } ∧
    ((after1 (.doorbell 1 0 15) (quiet .running waiting)).sub (.part 0)).cmdq.get 0 = { cfg := 0x80000000, tail := 15 } := by decide

/-- R66, R67: an opcode that is none completes BAD_OPCODE, told by CMD_DONE in the command's event queue. -/
theorem test_bad_opcode :
    let s := after1 (.badOpcode (.part 0)) (withPart { run0 with
      taken := [{ cmd0 0x99 with tag := 0x1234, request := 0xFFFFFFFF }], sub := { evq := upd (Vector.replicate 16 {}) 0 fun _ => { cfg := 0x80000000 } } })
    (s.part 0).taken = [] ∧ (s.out.map fun x => match x with | .event _ _ _ slot _ _ r => (slot, r.code, r.a) | _ => (99, 0, 0)) =
      [(0, 0x7020, BitVec.ofNat 64 (0x1234 + 0x99 * 2 ^ 16 + 1 * 2 ^ 24))] := by decide

/-- R308, R310: a good frame is counted; one with a broken symbol counts as bad. -/
theorem test_ring_frames : (after1 (.ringFrameRx frame0) on).ring.good = 1 ∧
    (after1 (.ringFrameRx { frame0 with manchesterOk := false }) on).ring.bad = 1 := by decide

/-- R182: ADD of 1 and 1 is 2, in BF16. -/
theorem test_add : ((after1 (.add 0 5) (opState (desc0 11))).part 0).step.map (fun st => st.toks.map fun t => lookupA t.slots 2) =
    some [some [0x4000, 0]] := by decide

/-- R46: STOP of a RUNNING partition, then the end of the stop. -/
theorem test_stop : ((after1 (.partitionStopDone 0) (after1 (.prtCtrlStop 1 0) base)).part 0).st = .stopped := by decide

/-- R381: STANDBY removes the partitions. -/
theorem test_standby : (after1 (.pwrCtrlStandby 0) (quiet .stopped)).power.phase = .standby ∧
    ((after1 (.pwrCtrlStandby 0) (quiet .stopped)).part 0).st = .absent := by decide

/-- R284's example: a step that commits 110 µs after its slot's end leaves a debt of 110,000 ns. -/
theorem test_slot_overrun_example :
    let st : Step := { step0 with slots := [0], runs := [begun0 .own true], picks := formed0.picks }
    let s : State := { served .decode [] (some st) with
      slice := { frameLength := 1000000, slots := [⟨1, 0, 0, 600000⟩, ⟨1, 3, 600000, 400000⟩], overrun := [(0, 600000)] }
      ringTime := 710000, uptime := 710000 }
    ((after1 (.stepCommit 0) s).part 0).rqt.sliceDebt = 110000 := by decide

end Sys2Proof.Tests
end

namespace Sys2Proof.Machine

/-! ## Register writes and reads: size, alignment and block -/

/-- R5: an aligned 32-bit write is a write of the register. -/
theorem exec_registerWrite_aligned {s : State} {port : Port} {offset : Nat} {v : W32} (h : offset % 4 = 0) :
    exec (.registerWrite port offset 4 v) s = .next (s.writeReg port offset v) :=
  congrArg Host.Outcome.next (if_pos ⟨rfl, h⟩)

/-- R5: a write of another size or alignment is ignored. -/
theorem exec_registerWrite_ignored {s : State} {port : Port} {offset size : Nat} {v : W32} (h : size ≠ 4 ∨ offset % 4 ≠ 0) :
    exec (.registerWrite port offset size v) s = .next s :=
  congrArg Host.Outcome.next (if_neg (by omega))

/-- R5: a read of another size or alignment is ignored and reads as zero. -/
theorem State.readRegister_ignored {s : State} {port : Port} {offset size : Nat} (h : size ≠ 4 ∨ offset % 4 ≠ 0) :
    s.readRegister port offset size = ((0 : BitVec 32), s) :=
  if_neg (by omega)

/-- R5: an aligned 32-bit read of no pair reads the register and changes nothing. -/
theorem State.readRegister_aligned {s : State} {port : Port} {offset : Nat} (h : offset % 4 = 0)
    (hp : s.readPair port offset = none) : s.readRegister port offset 4 = (s.readReg port offset, s) := by
  rw [State.readRegister, if_pos ⟨rfl, h⟩, hp]

/-- Settles O38: both directions of an access go through one test of size and alignment. -/
theorem misalignedAccessIsIgnored : Obligations.MisalignedAccessIsIgnored := fun _ _ _ _ _ h =>
  ⟨exec_registerWrite_ignored h, State.readRegister_ignored h⟩

section Registers

variable {s t : State} {port : Port} {off o r : Nat} {v : W32} {p : Part}

/-- An aligned 32-bit write leaves what the write of the register leaves. -/
theorem exec_registerWrite_of_writeReg (ha : off % 4 = 0) (h : s.writeReg port off v = t) :
    exec (.registerWrite port off 4 v) s = .next t :=
  (exec_registerWrite_aligned ha).trans (congrArg _ h)

/-- A write of a register that it leaves alone changes nothing, aligned or not. -/
theorem exec_registerWrite_unchanged (h : s.writeReg port off v = s) : exec (.registerWrite port off 4 v) s = .next s := by
  by_cases ha : off % 4 = 0
  · exact exec_registerWrite_of_writeReg ha h
  · exact exec_registerWrite_ignored (.inr ha)

/-- Where the partitions' registers lie `w` apart, an offset among them names its partition. -/
theorem partition_of_offset {w : Nat} (p : Part) (ho : o < w) : Fin.ofNat 4 ((w * p.val + o) / w) = p := by
  apply Fin.ext
  rw [Fin.val_ofNat, Nat.mul_add_div (by omega), Nat.div_eq_of_lt ho, Nat.add_zero, Nat.mod_eq_of_lt p.isLt]

/-- The STEP registers of a partition (R210). -/
theorem State.writeReg_step (ho : o < 0x100) : s.writeReg port (0x80000 + 0x100 * p.val + o) v = s.writeStep port p o v := by
  have hp := p.isLt
  have hb : (0x80000 + 0x100 * p.val + o) / 0x10000 = 0x8 := by omega
  have hw : (0x80000 + 0x100 * p.val + o) % 0x10000 = 0x100 * p.val + o := by omega
  have hr : (0x100 * p.val + o) % 0x100 = o := by omega
  simp only [State.writeReg, hb, hw, hr, partition_of_offset p ho]
  exact if_pos (by omega)

/-- The RQT registers of a partition (R285). -/
theorem State.writeReg_rqt (hr : r < 0x40) :
    s.writeReg port (0x30100 + r + 0x40 * p.val) v = s.writeRqt port (0x100 + (0x40 * p.val + r)) v := by
  have hp := p.isLt
  have hb : (0x30100 + r + 0x40 * p.val) / 0x10000 = 0x3 := by omega
  have hw : (0x30100 + r + 0x40 * p.val) % 0x10000 = 0x100 + (0x40 * p.val + r) := by omega
  simp only [State.writeReg, hb, hw]

/-! ## Registers of the blocks -/

theorem State.writeMem_arb (h : s.owns port = true) : s.writeMem port 0x0 v = { s with memArb := v &&& 0xFFFFFF } := by
  simp [State.writeMem, h]

theorem State.writeMem_scrub (h : s.owns port = true) : s.writeMem port 0x4 v = { s with memScrub := v &&& 0x800000FF } := by
  simp [State.writeMem, h]

theorem State.writeMem_foreign (h : s.owns port = false) (o : Nat) : s.writeMem port o v = s := if_pos h

theorem State.writeNb_ctrl (h : s.owns port = true) : s.writeNb port 0x0 v = { s with nbCtrl := v &&& 0x80000007 } := by
  simp [State.writeNb, h]

theorem State.writeNb_foreign (h : s.owns port = false) (o : Nat) : s.writeNb port o v = s := if_pos h

theorem State.writePeat_arb (h : s.owns port = true) : s.writePeat port 0x0 v = { s with peatArb := v &&& 0xFFFFFF } := by
  simp [State.writePeat, h]

theorem State.writePeat_ctrl (h : s.owns port = true) : s.writePeat port 0x4 v = { s with peatCtrl := v &&& 0x800000FF } := by
  simp [State.writePeat, h]

theorem State.writePeat_supplyTimeout (h : s.owns port = true) : s.writePeat port 0x8 v = { s with peatSupplyTimeout := v } := by
  simp [State.writePeat, h]

theorem State.writePeat_foreign (h : s.owns port = false) (o : Nat) : s.writePeat port o v = s := if_pos h

theorem State.writeRing_cableDelay (h : s.owns port = true) :
    s.writeRing port 0x04 v = { s with ring := { s.ring with cableDelay := v &&& 0xFFF } } := by
  simp [State.writeRing, h, State.modRing]

theorem State.writeRing_timeSetLo (h : s.owns port = true) :
    s.writeRing port 0x18 v = { s with ring := { s.ring with timeSetLo := v } } := by
  simp [State.writeRing, h, State.modRing]

theorem State.writeRing_timeSetHi (h : s.owns port = true) :
    s.writeRing port 0x1C v = { s with ring := { s.ring with timeSetHi := v } } := by
  simp [State.writeRing, h, State.modRing]

theorem State.writeRing_foreign (h : s.owns port = false) (o : Nat) : s.writeRing port o v = s := if_pos h

/-- Who reaches the owner-only registers reaches the PWR block too. -/
theorem State.reaches_of_owns (h : s.owns port = true) : s.reaches port = true := by
  simp [State.reaches, h]

theorem State.writePwr_limit (h : s.reaches port = true) :
    s.writePwr port 0x008 v = { s with power := { s.power with limit := v &&& 0xFF } } := by
  simp [State.writePwr, h, State.modPower]

theorem State.writePwr_throttle (h : s.reaches port = true) :
    s.writePwr port 0x044 v = { s with power := { s.power with throttle := v &&& 0xFF } } := by
  simp [State.writePwr, h, State.modPower]

theorem State.writeStep_ctrl (h : s.sees port p = true) :
    s.writeStep port p 0x00 v = s.modPart p fun q => { q with stepRegs := { q.stepRegs with ctrl := v &&& 3 } } := by
  simp [State.writeStep, h, Partition.modStepRegs]

theorem State.writeStep_timeout (h : s.sees port p = true) :
    s.writeStep port p 0x04 v = s.modPart p fun q => { q with stepRegs := { q.stepRegs with timeout := v &&& 0xFFFF } } := by
  simp [State.writeStep, h, Partition.modStepRegs]

theorem State.writeStep_foreign (h : s.sees port p = false) (o : Nat) : s.writeStep port p o v = s := if_pos h

theorem State.writeRqt_ctrl (h : s.sees port p = true) : s.writeRqt port (0x100 + (0x40 * p.val + 0x00)) v =
    s.modPart p fun q => { q with rqt := { q.rqt with ctrl := v &&& 0x77 } } := by
  have hp := p.isLt
  have hr : (0x100 + (0x40 * p.val + 0x00)) % 0x40 = 0x00 := by omega
  rw [State.writeRqt, if_neg (by omega), if_pos (by omega), Nat.add_sub_cancel_left]
  simp only [partition_of_offset p (show 0x00 < 0x40 by decide), hr, h, if_true]

theorem State.writeRqt_limits (h : s.sees port p = true) : s.writeRqt port (0x100 + (0x40 * p.val + 0x04)) v =
    s.modPart p fun q => { q with rqt := { q.rqt with limits := v } } := by
  have hp := p.isLt
  have hr : (0x100 + (0x40 * p.val + 0x04)) % 0x40 = 0x04 := by omega
  rw [State.writeRqt, if_neg (by omega), if_pos (by omega), Nat.add_sub_cancel_left]
  simp only [partition_of_offset p (show 0x04 < 0x40 by decide), hr, h, if_true]

/-- No write of a port other than the owner's reaches the MEM, NB, PEAT and RING blocks. -/
theorem State.writeReg_foreign (h : s.owns port = false)
    (hb : 0x50000 ≤ off ∧ off < 0x70000 ∨ 0xA0000 ≤ off ∧ off < 0xC0000) : s.writeReg port off v = s := by
  have hblock : off / 0x10000 = 0x5 ∨ off / 0x10000 = 0x6 ∨ off / 0x10000 = 0xA ∨ off / 0x10000 = 0xB := by omega
  rcases hblock with hb | hb | hb | hb <;> rw [State.writeReg, hb]
  · exact State.writeMem_foreign h _
  · exact State.writeNb_foreign h _
  · exact State.writePeat_foreign h _
  · exact State.writeRing_foreign h _

/-! ## Registers read back -/

/-- Only the RING and PWR blocks hold pairs (R401). -/
theorem State.readPair_none (h : off / 0x10000 ≠ 0xB ∧ off / 0x10000 ≠ 0xF) : s.readPair port off = none := by
  unfold State.readPair
  split
  · split
    case h_5 => rfl
    all_goals omega
  · rfl

theorem State.readRegister_memArb (h : s.owns port = true) : s.readRegister port 0x50000 4 = (s.memArb, s) := by
  rw [State.readRegister_aligned rfl (State.readPair_none (by decide))]
  simp [State.readReg, State.readMem, h]

theorem State.readRegister_nbCtrl (h : s.owns port = true) : s.readRegister port 0x60000 4 = (s.nbCtrl, s) := by
  rw [State.readRegister_aligned rfl (State.readPair_none (by decide))]
  simp [State.readReg, State.readNb, h]

end Registers

/-- Settles O39: each write comes down to the lemma of its register, and a port that is not the owner's, or does not see the partition,
reaches no register of these blocks. -/
theorem registerWritesLand : Obligations.RegisterWritesLand := by
  unfold Obligations.RegisterWritesLand
  intro s port v p
  refine ⟨fun h => ?owner, fun h => ?partition, fun h off hb => ?foreign, fun h o ho => ?unseen⟩
  case owner =>
    have hr := State.reaches_of_owns h
    have hArb : exec (.registerWrite port 0x50000 4 v) s = .next { s with memArb := v &&& 0xFFFFFF } :=
      exec_registerWrite_of_writeReg rfl (State.writeMem_arb h)
    have hCtrl : exec (.registerWrite port 0x60000 4 v) s = .next { s with nbCtrl := v &&& 0x80000007 } :=
      exec_registerWrite_of_writeReg rfl (State.writeNb_ctrl h)
    refine ⟨hArb,
      exec_registerWrite_of_writeReg rfl (State.writeMem_scrub h),
      hCtrl,
      exec_registerWrite_of_writeReg rfl (State.writePeat_arb h),
      exec_registerWrite_of_writeReg rfl (State.writePeat_ctrl h),
      exec_registerWrite_of_writeReg rfl (State.writePeat_supplyTimeout h),
      exec_registerWrite_of_writeReg rfl (State.writeRing_cableDelay h),
      exec_registerWrite_of_writeReg rfl (State.writeRing_timeSetLo h),
      exec_registerWrite_of_writeReg rfl (State.writeRing_timeSetHi h),
      exec_registerWrite_of_writeReg rfl (State.writePwr_limit hr),
      exec_registerWrite_of_writeReg rfl (State.writePwr_throttle hr), fun t ht => ?_, fun t ht => ?_⟩
    · obtain rfl := Host.Outcome.next.inj (hArb.symm.trans ht)
      exact State.readRegister_memArb h
    · obtain rfl := Host.Outcome.next.inj (hCtrl.symm.trans ht)
      exact State.readRegister_nbCtrl h
  case partition =>
    exact ⟨exec_registerWrite_of_writeReg (by omega) ((State.writeReg_step (o := 0x00) (by decide)).trans (State.writeStep_ctrl h)),
      exec_registerWrite_of_writeReg (by omega)
        ((congrArg (s.writeReg port · v) (by omega)).trans
          ((State.writeReg_step (o := 0x04) (by decide)).trans (State.writeStep_timeout h))),
      exec_registerWrite_of_writeReg (by omega) ((State.writeReg_rqt (r := 0x00) (by decide)).trans (State.writeRqt_ctrl h)),
      exec_registerWrite_of_writeReg (by omega) ((State.writeReg_rqt (r := 0x04) (by decide)).trans (State.writeRqt_limits h))⟩
  case foreign => exact exec_registerWrite_unchanged (State.writeReg_foreign h hb)
  case unseen => exact exec_registerWrite_unchanged ((State.writeReg_step ho).trans (State.writeStep_foreign h o))

/-! ## Runs of bytes -/

theorem Memory.length_readN (m : Memory) (a n : Nat) : (m.readN a n).length = n := by
  induction n generalizing a with
  | zero => rfl
  | succ n ih => simp only [Memory.readN, List.length_cons, ih]

theorem Memory.readN_add (m : Memory) (a j k : Nat) : m.readN a (j + k) = m.readN a j ++ m.readN (a + j) k := by
  induction j generalizing a with
  | zero => simp [Memory.readN]
  | succ j ih =>
    rw [Nat.succ_add, Memory.readN, ih, Memory.readN, List.cons_append, Nat.add_assoc, Nat.add_comm 1 j]

/-- Blocks read one after another give the bytes of their range. -/
theorem Memory.flatMap_readN_blocks (m : Memory) (b n : Nat) :
    ((List.range n).flatMap fun i => m.readN ((b + i) * 64) 64) = m.readN (b * 64) (64 * n) := by
  induction n with
  | zero => rfl
  | succ n ih =>
    have hnext : (b + n) * 64 = b * 64 + 64 * n := by omega
    simp only [List.range_succ, List.flatMap_append, List.flatMap_singleton, ih, hnext, Nat.mul_succ 64, Memory.readN_add]

/-- A part of a run of bytes that was read. -/
theorem Memory.take_drop_readN (m : Memory) (a : Nat) {n off len : Nat} (h : off + len ≤ n) :
    ((m.readN a n).drop off).take len = m.readN (a + off) len := by
  obtain ⟨r, rfl⟩ := Nat.exists_eq_add_of_le h
  rw [Memory.readN_add, Memory.readN_add, List.append_assoc, List.drop_left' (m.length_readN a off),
    List.take_left' (m.length_readN _ len)]

theorem length_freeBytes (k n : Nat) : (freeBytes k n).length = n := by
  rw [freeBytes, List.length_map, List.length_range]

/-! ## Reads of sheet memory without an error or poison -/

/-- A byte of a range lies in a segment that the range touches. -/
theorem mem_segsOf {addr len a : Nat} (ha : addr ≤ a) (hl : a < addr + len) : a / segBytes ∈ segsOf addr len := by
  refine List.mem_map.2 ⟨a / segBytes - addr / segBytes, List.mem_range.2 ?_, ?_⟩ <;> simp only [segBytes] <;> omega

/-- The blocks of a range that is not empty each hold a byte of it. -/
theorem exists_mem_range_of_block {addr len i : Nat} (hl : 0 < len) (hi : i < ceilDiv (addr % 64 + len) 64) :
    ∃ a, addr ≤ a ∧ a < addr + len ∧ a / 64 = addr / 64 + i := by
  simp only [ceilDiv] at hi
  exact ⟨max addr ((addr / 64 + i) * 64), by omega, by omega, by omega⟩

section Reads

variable {s : State} {who : Option Part} {via b addr len : Nat}

theorem State.readBlock_clean (h : b ∉ s.poisoned) : s.readBlock who via b .clean = s := by
  simp [State.readBlock, h]

theorem State.readRange_clean (h : s.poisoned = []) : s.readRange who via addr len [] = s := by
  simp [State.readRange, h]

/-- A block of a segment in service in which no table lies shows memory as written. -/
theorem State.shown_of_plain (k : Nat) (ha : b / 32768 ∉ s.ashList) (ht : s.tableAt b = none) :
    s.shown k b = s.sheet.readN (b * 64) 64 := by
  simp [State.shown, ha, ht]

/-- A range that lies in segments in service, outside the stoker's tables, shows memory as written. -/
theorem State.shownRange_of_plain (ha : ∀ g ∈ segsOf addr len, g ∉ s.ashList)
    (ht : ∀ a, addr ≤ a → a < addr + len → s.tableAt (a / 64) = none) :
    ∃ k, s.shownRange addr len = (s.sheet.readN addr len, { s with fresh := k }) := by
  refine ⟨s.fresh + 64 * ceilDiv (addr % 64 + len) 64, Prod.ext ?_ rfl⟩
  rcases Nat.eq_zero_or_pos len with rfl | hl
  · rfl
  have hplain : ∀ i ∈ List.range (ceilDiv (addr % 64 + len) 64),
      s.shown (s.fresh + 64 * i) (addr / 64 + i) = s.sheet.readN ((addr / 64 + i) * 64) 64 := by
    intro i hi
    obtain ⟨a, hlo, hhi, hb⟩ := exists_mem_range_of_block hl (List.mem_range.1 hi)
    have hseg : (addr / 64 + i) / 32768 = a / segBytes := by rw [← hb, Nat.div_div_eq_div_mul]; rfl
    exact State.shown_of_plain _ (hseg ▸ ha _ (mem_segsOf hlo hhi)) (hb ▸ ht a hlo hhi)
  have hfit : addr % 64 + len ≤ 64 * ceilDiv (addr % 64 + len) 64 := by simp only [ceilDiv]; omega
  have hat : addr / 64 * 64 + addr % 64 = addr := by omega
  simp only [State.shownRange]
  rw [List.flatMap_congr hplain, Memory.flatMap_readN_blocks, Memory.take_drop_readN _ _ hfit, hat]

end Reads

/-! ## Writes within a block -/

section Writes

variable {s : State} {p : Part} {addr b : Nat} {bytes : List Byte}

/-- A write over a table of the stoker is noted, and nothing else changes. -/
theorem State.hitTable_eq (s : State) (b : Nat) : s.hitTable b = { s with tablesHit := (s.hitTable b).tablesHit } := by
  unfold State.hitTable
  split <;> rfl

@[simp] theorem State.hitTable_sheet (s : State) (b : Nat) : (s.hitTable b).sheet = s.sheet := by rw [State.hitTable_eq]

@[simp] theorem State.hitTable_poisoned (s : State) (b : Nat) : (s.hitTable b).poisoned = s.poisoned := by rw [State.hitTable_eq]

@[simp] theorem State.hitTable_bankDead (s : State) (b : Nat) (pl : SheetPlace) : (s.hitTable b).bankDead pl = s.bankDead pl := by
  rw [State.hitTable_eq]
  rfl

/-- Which banks are dead does not depend on the free values drawn. -/
theorem State.bankDead_fresh (s : State) (k : Nat) (pl : SheetPlace) : { s with fresh := k }.bankDead pl = s.bankDead pl := rfl

/-- A whole block replaces the block and cures its poison (R85). -/
theorem State.writeBlock_whole (hd : s.bankDead (placeOf addr) = false) (hl : bytes.length = 64) (h0 : addr % 64 = 0) :
    s.writeBlock p addr bytes .clean =
      { s with sheet := s.sheet.writeN addr bytes, poisoned := setDel s.poisoned (addr / 64)
               tablesHit := (s.hitTable (addr / 64)).tablesHit } := by
  have hat : addr / 64 * 64 = addr := by omega
  have ht : bytes.take 64 = bytes := List.take_of_length_le hl.le
  have hput : s.writeBlock p addr bytes .clean = (s.hitTable (addr / 64)).putBlock (addr / 64) bytes false := by
    simp [State.writeBlock, hd, h0, ht, hl]
  have hk : (s.hitTable (addr / 64)).putBlock (addr / 64) bytes false =
      { s.hitTable (addr / 64) with sheet := s.sheet.writeN addr bytes, poisoned := setDel s.poisoned (addr / 64) } := by
    simp [State.putBlock, hat, hd, ht]
  rw [hput, hk]
  exact congrArg (fun t : State => { t with sheet := s.sheet.writeN addr bytes, poisoned := setDel s.poisoned (addr / 64) })
    (s.hitTable_eq (addr / 64))

/-- Part of a block that reads CLEAN is merged into it (R85). -/
theorem State.writeBlock_part (hd : s.bankDead (placeOf addr) = false) (hb : addr / 64 ∉ s.poisoned)
    (hl : addr % 64 + bytes.length ≤ 64) (hpart : bytes.length ≠ 64) : s.writeBlock p addr bytes .clean =
      { s with sheet := s.sheet.writeN addr bytes, tablesHit := (s.hitTable (addr / 64)).tablesHit } := by
  have ht : bytes.take (64 - addr % 64) = bytes := List.take_of_length_le (by omega)
  have hr : (s.hitTable (addr / 64)).readBlock (some p) 0 (addr / 64) .clean = s.hitTable (addr / 64) :=
    State.readBlock_clean (by simpa using hb)
  have hm : s.writeBlock p addr bytes .clean =
      { s.hitTable (addr / 64) with sheet := s.sheet.writeN addr bytes } := by
    simp [State.writeBlock, hd, ht, hpart, hr, hb]
  rw [hm]
  exact congrArg (fun t : State => { t with sheet := s.sheet.writeN addr bytes }) (s.hitTable_eq (addr / 64))

/-- Where nothing is poisoned, a write within a block stores its bytes and changes nothing else. -/
theorem State.writeBlock_unpoisoned (hd : s.bankDead (placeOf addr) = false) (hp : s.poisoned = [])
    (hl : addr % 64 + bytes.length ≤ 64) : s.writeBlock p addr bytes .clean =
      { s with sheet := s.sheet.writeN addr bytes, tablesHit := (s.hitTable (addr / 64)).tablesHit } := by
  by_cases h64 : bytes.length = 64
  · have hdel : setDel s.poisoned (addr / 64) = s.poisoned := by rw [hp]; rfl
    rw [State.writeBlock_whole hd h64 (by omega), hdel]
  · exact State.writeBlock_part hd (by simp [hp]) hl h64

end Writes

/-! ## The BAR4 window -/

theorem piecesOf_nil (addr n : Nat) : piecesOf addr [] n = [] := by
  cases n <;> rfl

/-- A write that stays within one block is one piece. -/
theorem piecesOf_one_block {addr n : Nat} {bytes : List Byte} (hne : bytes ≠ []) (hl : addr % 64 + bytes.length ≤ 64) :
    piecesOf addr bytes (n + 1) = [(addr, bytes)] := by
  have hk : bytes.length ≤ 64 - addr % 64 := by omega
  simp only [piecesOf, if_neg hne, List.take_of_length_le hk, List.drop_of_length_le hk, piecesOf_nil]

section Bar4

variable {s : State} {port : Port} {offset len base : Nat} {p : Part} {bytes : List Byte} {errs : Errs}

theorem exec_bar4Read_without_window (h : s.window port = none) : exec (.bar4Read port offset len errs) s =
    .next { s with out := s.out ++ [.bar4 port false (List.replicate len 0)] } := by
  simp [exec, execBar4Read, h, State.send]

theorem exec_bar4Write_without_window (h : s.window port = none) :
    exec (.bar4Write port offset { bytes := bytes, atomic := false } errs) s = .next s := by
  simp [exec, execBar4Write, h]

theorem exec_bar4Write_atomic : exec (.bar4Write port offset { bytes := bytes, atomic := true } errs) s =
    .next { s with out := s.out ++ [.unsupported port] } := rfl

/-- A read that stays in readable memory without error or poison delivers what its range shows. -/
theorem exec_bar4Read_readable (hw : s.window port = some (p, base))
    (hr : ∀ g ∈ segsOf (base * segBytes + offset) len, s.readable p g = true)
    (hh : s.placeHeld (placeOf (base * segBytes + offset)) = false)
    (hp : s.rangePoisoned (base * segBytes + offset) len = false) (hn : s.poisoned = []) :
    exec (.bar4Read port offset len []) s = .next ((s.shownRange (base * segBytes + offset) len).2.send
      (.bar4 port false (s.shownRange (base * segBytes + offset) len).1)) := by
  have hbad : ((segsOf (base * segBytes + offset) len).filter fun g => !s.readable p g) = [] :=
    List.filter_eq_nil_iff.2 fun g hg => by simp [hr g hg]
  simp [exec, execBar4Read, hw, hbad, hh, State.readRange_clean hn, hp]

/-- A read that touches a segment outside the readable memory tells of each such segment and delivers poison (R34). -/
theorem exec_bar4Read_unreadable (hw : s.window port = some (p, base))
    (hr : ∃ g ∈ segsOf (base * segBytes + offset) len, s.readable p g = false) :
    ∃ t, exec (.bar4Read port offset len errs) s = .next (t.send (.bar4 port true (List.replicate len 0))) ∧ State.Tells s t := by
  obtain ⟨g, hg, hgr⟩ := hr
  have hbad : ((segsOf (base * segBytes + offset) len).filter fun g => !s.readable p g) ≠ [] :=
    List.ne_nil_of_mem (List.mem_filter.2 ⟨hg, by simp [hgr]⟩)
  refine ⟨((segsOf (base * segBytes + offset) len).filter fun g => !s.readable p g).foldl (fun u g => u.fenceViolation p g 0) s, ?_,
    State.Tells.foldl _ _ (fun u g k => State.fenceViolation_tells k p g 0) (.refl s)⟩
  rw [exec, execBar4Read, hw]
  exact congrArg Host.Outcome.next (if_pos hbad)

/-! A write through the window that stays within one block of writable memory: -/

variable (hw : s.window port = some (p, base)) (hne : bytes ≠ [])
  (hl : (base * segBytes + offset) % 64 + bytes.length ≤ 64)
  (hwr : s.writable p ((base * segBytes + offset) / segBytes) = true)
  (hh : s.placeHeld (placeOf (base * segBytes + offset)) = false)
include hw hne hl hwr hh

/-- It stores the bytes that it brings, or free ones where the partition uses the memory (R62). -/
theorem exec_bar4Write_one_block :
    exec (.bar4Write port offset { bytes := bytes } []) s = .next (
      if s.inUse p ((base * segBytes + offset) / segBytes) then
        { s with fresh := s.fresh + bytes.length }.writeBlock p (base * segBytes + offset) (freeBytes s.fresh bytes.length) .clean
      else s.writeBlock p (base * segBytes + offset) bytes .clean) := by
  simp [exec, execBar4Write, hw, piecesOf_one_block hne hl, hwr, hh, outcomeOf, lookupA]

/-- What it stores lies at its address, and nothing else in memory changes. -/
theorem exec_bar4Write_stores (hd : s.bankDead (placeOf (base * segBytes + offset)) = false) (hp : s.poisoned = []) :
    ∃ stored t, exec (.bar4Write port offset { bytes := bytes } []) s = .next t ∧ stored.length = bytes.length ∧
      (s.inUse p ((base * segBytes + offset) / segBytes) = false → stored = bytes) ∧
      t = { s with sheet := s.sheet.writeN (base * segBytes + offset) stored, fresh := t.fresh, tablesHit := t.tablesHit } := by
  rw [exec_bar4Write_one_block hw hne hl hwr hh]
  cases hu : s.inUse p ((base * segBytes + offset) / segBytes) with
  | true =>
    have hf := length_freeBytes s.fresh bytes.length
    have hd' := (s.bankDead_fresh (s.fresh + bytes.length) _).trans hd
    rw [if_pos rfl, State.writeBlock_unpoisoned hd' hp (hf.symm ▸ hl)]
    exact ⟨freeBytes s.fresh bytes.length, _, rfl, hf, nofun, rfl⟩
  | false =>
    rw [if_neg Bool.false_ne_true, State.writeBlock_unpoisoned hd hp hl]
    exact ⟨bytes, _, rfl, rfl, fun _ => rfl, rfl⟩

end Bar4

/-- Settles O30: the window's checks come first, and behind them a read shows memory as written and a write is one write within a block. -/
theorem bar4ReachesPartition : Obligations.Bar4ReachesPartition := by
  unfold Obligations.Bar4ReachesPartition
  refine ⟨fun s port offset len hw => ⟨exec_bar4Read_without_window hw, fun bytes errs => exec_bar4Write_without_window hw⟩,
    fun s port offset bytes errs => exec_bar4Write_atomic,
    fun s port offset len p base hw => ⟨fun hr hh hp hn ha ht => ?reads, fun hr => ?poisons,
      fun bytes hwf hn hl hne hwr hh hd _ => ?stores⟩⟩
  case reads =>
    obtain ⟨k, hk⟩ := State.shownRange_of_plain ha ht
    exact ⟨_, exec_bar4Read_readable hw hr hh hp hn, by rw [hk]; rfl⟩
  case poisons =>
    obtain ⟨t, ht, htells⟩ := exec_bar4Read_unreadable hw hr
    exact ⟨_, ht, State.send_tells htells _, List.getLast?_concat⟩
  case stores =>
    obtain ⟨stored, t, ht, hlen, hsame, heq⟩ := exec_bar4Write_stores hw hne hl hwr hh hd hn
    have hsheet : t.sheet = s.sheet.writeN (base * segBytes + offset) stored := by rw [heq]
    refine ⟨t, ht, fun hu => ?_, fun a ha => ?_, by rw [hsheet]; exact heq⟩
    · rw [hsheet, hsame hu, Memory.readN_writeN _ _ _ hwf]
    · rw [hsheet, Memory.read_writeN_outside _ _ _ _ (hlen.symm ▸ ha)]

end Sys2Proof.Machine

namespace Sys2Proof.Machine

/-! ## What the telling, the completion and the transfers of a partition leave alone -/

/-- What no record, completion, repair or read of host memory reaches: of each partition all but its queue subblock, its taken commands
and its fault FIFO; sheet memory; and the owner's load stream. -/
structure State.Calm (s t : State) : Prop where
  parts : ∀ i, t.part i = { s.part i with sub := (t.part i).sub, taken := (t.part i).taken, fifo := (t.part i).fifo }
  sheet : t.sheet = s.sheet
  kln : t.kln = s.kln

theorem State.Calm.refl (s : State) : State.Calm s s := ⟨fun _ => rfl, rfl, rfl⟩

theorem State.Calm.trans {s t u : State} (h : State.Calm s t) (k : State.Calm t u) : State.Calm s u :=
  ⟨fun i => by rw [k.parts i, h.parts i], k.sheet.trans h.sheet, k.kln.trans h.kln⟩

/-- What a partition holds outside its queues and its FIFO is as it was. -/
theorem State.Calm.part_eq {s t : State} (h : State.Calm s t) {α : Type} (f : Partition → α)
    (hf : ∀ (q : Partition) a b c, f { q with sub := a, taken := b, fifo := c } = f q) (i : Part) : f (t.part i) = f (s.part i) := by
  rw [h.parts i, hf]

/-- A run of such changes. -/
theorem State.Calm.foldl {α : Type} (f : State → α → State) (hf : ∀ s x, State.Calm s (f s x)) (l : List α) (s : State) :
    State.Calm s (l.foldl f s) := by
  induction l generalizing s with
  | nil => exact .refl s
  | cons x l ih => exact (hf s x).trans (ih _)

/-- A change of a state that touches neither partitions, nor sheet memory, nor the owner's stream. -/
theorem State.Calm.of_eq {s t : State} (hp : t.parts = s.parts) (hs : t.sheet = s.sheet) (hk : t.kln = s.kln) : State.Calm s t :=
  ⟨fun i => by rw [State.part, State.part, hp], hs, hk⟩

theorem State.Tells.calm {s t : State} (h : State.Tells s t) : State.Calm s t :=
  ⟨fun i => by rw [h.parts i], h.eq (·.sheet) fun _ _ _ _ _ => rfl, h.eq (·.kln) fun _ _ _ _ _ => rfl⟩

/-- A change of one partition's queues, taken commands or FIFO. -/
theorem State.modPart_calm (s : State) (p : Part) (f : Partition → Partition)
    (hf : ∀ q, f q = { q with sub := (f q).sub, taken := (f q).taken, fifo := (f q).fifo }) : State.Calm s (s.modPart p f) := by
  refine ⟨fun i => ?_, rfl, rfl⟩
  by_cases hi : i = p
  · rw [hi, State.part_modPart]; exact hf _
  · rw [State.part_modPart_other _ _ _ _ hi]

theorem State.modTaken_calm (s : State) (src : Src) (f : List Cmd → List Cmd) : State.Calm s (s.modTaken src f) := by
  cases src with
  | owner => exact .of_eq rfl rfl rfl
  | part p => exact s.modPart_calm p _ fun _ => rfl

theorem State.modRepairs_calm (s : State) (p : Part) (f : List Repair → List Repair) : State.Calm s (s.modRepairs p f) :=
  (s.modPart_calm p (fun q => { q with fifo := followRepairs p (f s.repairs) q.fifo }) fun _ => rfl).trans (.of_eq rfl rfl rfl)

theorem State.toBoth_calm (s : State) (p : Part) (v : Ev) : State.Calm s (s.toBoth p v) := (State.toBoth_tells (.refl s) p v).calm

theorem State.toPart_calm (s : State) (p : Part) (e : Fin 16) (v : Ev) : State.Calm s (s.toPart p e v) :=
  (State.toPart_tells (.refl s) p e v).calm

/-- A command that completes leaves the commands taken, and all else that changes is what its record changes (R66, R68). -/
theorem State.done_tells (s : State) (src : Src) (c : Cmd) (status b : Nat) :
    State.Tells (s.modTaken src fun l => l.filter fun d => decide (d.id ≠ c.id)) (s.done src c status b) := by
  unfold State.done
  split
  · exact State.toSrc_tells (.refl _) _ _ _
  · exact .refl _

theorem State.done_calm (s : State) (src : Src) (c : Cmd) (status b : Nat) : State.Calm s (s.done src c status b) :=
  (s.modTaken_calm src _).trans (s.done_tells src c status b).calm

theorem State.doneAll_calm (s : State) (src : Src) (which : Cmd → Bool) (status : Nat) : State.Calm s (s.doneAll src which status) :=
  .foldl _ (fun s c => s.done_calm src c status c.written) _ _

theorem State.arrive_calm (s : State) (p : Option Part) (k : XferKind) : State.Calm s (s.arrive p k) := .of_eq rfl rfl rfl

theorem State.issueRead_calm (s : State) (p : Port) (addr len : Nat) (why : ReadFor) : State.Calm s (s.issueRead p addr len why) := by
  unfold State.issueRead
  dsimp only
  split <;> exact .of_eq rfl rfl rfl

theorem State.pumpReads_calm (s : State) (p : Port) : State.Calm s (s.pumpReads p) := by
  refine .foldl _ (fun s r => ?_) _ _
  split
  · exact .of_eq rfl rfl rfl
  · exact .refl _

theorem State.dropReads_calm (s : State) (gone : HostRead → Bool) : State.Calm s (s.dropReads gone) :=
  State.Calm.trans (t := { s with reads := s.reads.filter fun r => !gone r }) (.of_eq rfl rfl rfl)
    (.foldl _ State.pumpReads_calm _ _)

theorem State.cmdRead_calm (s : State) (src : Src) (c : Cmd) (addr len : Nat) : State.Calm s (s.cmdRead src c addr len) := by
  unfold State.cmdRead
  split
  · split
    · exact (s.issueRead_calm _ _ _ _).trans (State.modTaken_calm _ _ _)
    · exact s.done_calm _ _ _ _
  · exact s.done_calm _ _ _ _

theorem State.reissue_calm (s : State) (p : Part) : State.Calm s (s.reissue p) :=
  .foldl _ (fun s _ => (s.modRepairs_calm _ _).trans (State.arrive_calm _ _ _)) _ _

theorem State.resumeReads_calm (s : State) (p : Part) : State.Calm s (s.resumeReads p) := by
  refine .foldl _ (fun s c => ?_) _ _
  split
  · exact (s.modTaken_calm _ _).trans (State.cmdRead_calm _ _ _ _ _)
  · exact .refl _

theorem State.endHolds_calm (s : State) (p : Part) : State.Calm s (s.endHolds p) := by
  unfold State.endHolds
  dsimp only
  split <;> split <;> exact .of_eq rfl rfl rfl

theorem State.dropHeld_calm (s : State) (p : Part) : State.Calm s (s.dropHeld p) := by
  unfold State.dropHeld
  split
  · exact .of_eq rfl rfl rfl
  · exact .refl _

/-! ## A block read as poison leaves sheet memory as stored

What the loss of a block sets off, up to a quarantine of its partition (R343, R346), changes no byte of it. -/

/-- A run of changes leaves alone what each of them leaves alone. -/
theorem State.foldl_unchanged {α β : Type} (g : State → β) (f : State → α → State) (hf : ∀ s x, g (f s x) = g s) (l : List α) (s : State) :
    g (l.foldl f s) = g s := by
  induction l generalizing s with
  | nil => rfl
  | cons x l ih => exact (ih _).trans (hf s x)

/-- A slot that begins changes the frame and the debt of its partition, and nothing else. -/
theorem State.beginSlot_eq (s : State) (i : Nat) :
    s.beginSlot i = { s with slice := (s.beginSlot i).slice, parts := (s.beginSlot i).parts } := by
  unfold State.beginSlot
  split
  · rfl
  · split <;> rfl

theorem State.beginSlot_sheet (s : State) (i : Nat) : (s.beginSlot i).sheet = s.sheet := by rw [State.beginSlot_eq]

theorem State.endSlot_sheet (s : State) (i : Nat) : (s.endSlot i).sheet = s.sheet := by
  unfold State.endSlot
  split
  · rfl
  · refine (State.foldl_unchanged State.sheet _ State.beginSlot_sheet _ _).trans ?_
    split <;> rfl

theorem State.settleSlots_sheet (s : State) (p : Part) : (s.settleSlots p).sheet = s.sheet :=
  State.foldl_unchanged State.sheet _ (fun s o => by rw [State.endSlot_sheet, (State.toPart_calm _ _ _ _).sheet]; rfl) _ _

theorem State.bistSettle_sheet (s : State) : s.bistSettle.sheet = s.sheet := by
  unfold State.bistSettle
  split <;> rfl

theorem State.abandonStep_sheet (s : State) (p : Part) (cause : Nat) : (s.abandonStep p cause).sheet = s.sheet := by
  unfold State.abandonStep
  split
  · rfl
  · exact (State.bistSettle_sheet _).trans ((State.settleSlots_sheet _ _).trans (State.toPart_calm _ _ _ _).sheet)

theorem State.resetPart_sheet (s : State) (p : Part) : (s.resetPart p).sheet = s.sheet :=
  (State.dropReads_calm _ _).sheet.trans (s.doneAll_calm _ _ _).sheet

theorem State.quarantine_sheet (s : State) (p : Part) (code loc : Nat) (fatal : Bool) (cause : Nat) :
    (s.quarantine p code loc fatal cause).sheet = s.sheet := by
  have hheld (u : State) (b : Bool) : (if b then u.dropHeld p else u).sheet = u.sheet := by
    split
    · exact (u.dropHeld_calm p).sheet
    · rfl
  have hreset (u : State) (b : Bool) : (if b then u.resetPart p else u).sheet = u.sheet := by
    split
    · exact u.resetPart_sheet p
    · rfl
  unfold State.quarantine
  split
  · rfl
  · rfl
  · dsimp only
    rw [hreset, (State.doneAll_calm _ _ _ _).sheet, (State.toBoth_calm _ _ _).sheet, hheld, State.modPart_sheet]
    exact s.abandonStep_sheet p cause

theorem State.alertFault_sheet (s : State) (cls : Nat) : (s.alertFault cls).sheet = s.sheet := by
  unfold State.alertFault
  split <;> rfl

theorem State.contained_sheet (s : State) (p : Part) (code loc cause : Nat) : (s.contained p code loc cause).sheet = s.sheet :=
  (State.quarantine_sheet _ _ _ _ _ _).trans (State.alertFault_sheet _ _)

theorem State.fatalFault_sheet (s : State) (code loc : Nat) : (s.fatalFault code loc).sheet = s.sheet :=
  (State.foldl_unchanged State.sheet _ (fun s p => s.quarantine_sheet p code loc true 2) _ _).trans (State.alertFault_sheet _ _)

theorem State.modFifo_sheet (s : State) (o : Option Part) (f : List FaultEntry → List FaultEntry) : (s.modFifo o f).sheet = s.sheet := by
  cases o <;> rfl

theorem State.enqueue_sheet (s : State) (o : Option Part) (e : FaultEntry) : (s.enqueue o e).sheet = s.sheet := by
  unfold State.enqueue
  dsimp only
  split
  · exact s.modFifo_sheet o _
  · split
    · exact s.modFifo_sheet o _
    · split
      · exact (State.contained_sheet _ _ _ _ _).trans (State.toBoth_calm _ _ _).sheet
      · exact (State.fatalFault_sheet _ _ _).trans (State.toOwner_tells (.refl s) _ _).calm.sheet

theorem State.countDeferred_sheet (s : State) (p : Part) : (s.countDeferred p).sheet = s.sheet := State.alertFault_sheet _ _

theorem State.countDeferred_poisoned (s : State) (p : Part) : (s.countDeferred p).poisoned = s.poisoned := by
  unfold State.countDeferred State.alertFault
  split <;> rfl

theorem State.losePositions_sheet (s : State) (p : Part) (h : Nat) (lost : List (Nat × Nat)) (what : Option LostData) (loc : Nat) :
    (s.losePositions p h lost what loc).sheet = s.sheet := by
  unfold State.losePositions
  split
  · split <;> rfl
  · exact (State.enqueue_sheet _ _ _).trans ((State.countDeferred_sheet _ _).trans (State.toReq_tells (.refl _) _ _ _).calm.sheet)

theorem State.loseEntries_sheet (s : State) (p : Part) (h : Nat) (lost : List (Nat × Nat × Nat)) (what : Option LostData) (loc : Nat) :
    (s.loseEntries p h lost what loc).sheet = s.sheet := by
  unfold State.loseEntries
  split
  · rfl
  · refine (State.losePositions_sheet _ _ _ _ _ _).trans (State.foldl_unchanged State.sheet _ (fun s x => ?_) _ _)
    split <;> rfl

theorem State.loseInPage_sheet (s : State) (p : Part) (handle page : Nat) (offs : List Nat) (loc : Nat) :
    (s.loseInPage p handle page offs loc).sheet = s.sheet := by
  unfold State.loseInPage
  dsimp only
  split
  · split
    · rfl
    · split
      · rfl
      · split
        · exact State.loseEntries_sheet _ _ _ _ _ _
        · rfl
  · rfl

theorem State.loseInSlot_sheet (s : State) (p : Part) (m : Model) (i k off loc : Nat) :
    (s.loseInSlot p m i k off loc).sheet = s.sheet := by
  unfold State.loseInSlot
  split
  · rfl
  · exact State.loseInPage_sheet _ _ _ _ _ _

theorem State.loseHeld_sheet (s : State) (addr : Nat) : (s.loseHeld addr).sheet = s.sheet := by
  refine State.foldl_unchanged State.sheet _ (fun s p => State.foldl_unchanged State.sheet _ (fun s x => ?_) _ _) _ _
  split
  · exact State.loseInSlot_sheet _ _ _ _ _ _ _
  · rfl

/-- A read that the decoder finds CLEAN stores nothing, also where it delivers poison (R84). -/
theorem State.readBlock_clean_sheet (s : State) (who : Option Part) (via b : Nat) : (s.readBlock who via b .clean).sheet = s.sheet := by
  unfold State.readBlock
  dsimp only
  split
  · rfl
  · split
    · refine (State.loseHeld_sheet _ _).trans ?_
      split <;> rfl
    · rfl

/-! ## Sets of numbers, and memory zeroed -/

theorem mem_setAdd {l : List Nat} {n k : Nat} : k ∈ setAdd l n ↔ k = n ∨ k ∈ l := by
  induction l with
  | nil => simp [setAdd]
  | cons x l ih =>
    unfold setAdd
    split
    · simp
    · split
      · next h => subst h; simp
      · rw [List.mem_cons, ih, List.mem_cons]; exact or_left_comm

theorem mem_setDel {l : List Nat} {n k : Nat} : k ∈ setDel l n ↔ k ∈ l ∧ k ≠ n := by
  rw [setDel, List.mem_filter, decide_eq_true_iff]

/-! ## Writes of the logic -/

section

variable {s : State} {p : Part} {addr : Nat} {bytes : List Byte} {o : Outcome}

/-- A write outside the fence is discarded and told (R34). -/
theorem exec_memWrite_outside (hw : s.writable p (addr / segBytes) = false) :
    exec (.memWrite p addr bytes o) s = .next (s.fenceViolation p (addr / segBytes) 1) :=
  congrArg Host.Outcome.next (if_neg (by rw [hw]; exact Bool.false_ne_true))

variable (hw : s.writable p (addr / segBytes) = true) (hh : s.placeHeld (placeOf addr) = false)
include hw hh

/-- A write within the fence and outside a held die is a write of its block. -/
theorem exec_memWrite_inside : exec (.memWrite p addr bytes o) s = .next (s.writeBlock p addr bytes o) := by
  simp [exec, execMemWrite, hw, hh]

end

section

variable {s : State} {p : Part} {addr : Nat} {bytes : List Byte} (hd : s.bankDead (placeOf addr) = false)
include hd

/-- A write of a whole block, or of a part of one that is not poisoned, stores its bytes; the block is then not poisoned, and nothing else
changes (R85). -/
theorem State.writeBlock_stores (hl : addr % 64 + bytes.length ≤ 64) (hb : addr / 64 ∉ s.poisoned ∨ bytes.length = 64) :
    s.writeBlock p addr bytes .clean = { s with
      sheet := s.sheet.writeN addr bytes, poisoned := setDel s.poisoned (addr / 64), tablesHit := (s.hitTable (addr / 64)).tablesHit } := by
  by_cases h64 : bytes.length = 64
  · exact State.writeBlock_whole hd h64 (by omega)
  · have hb : addr / 64 ∉ s.poisoned := hb.resolve_right h64
    have hdel : setDel s.poisoned (addr / 64) = s.poisoned :=
      List.filter_eq_self.2 fun k hk => decide_eq_true fun e => hb (e ▸ hk)
    rw [State.writeBlock_part hd hb hl h64, hdel]

/-- A write of part of a poisoned block ends in the poison pattern over the block and the report of it (R85). -/
theorem State.writeBlock_poisoned (hl : bytes.length < 64) (hb : addr / 64 ∈ s.poisoned) :
    ∃ (u : State) (touch : List Part) (v : Ev), u.sheet = s.sheet ∧
      s.writeBlock p addr bytes .clean = ((u.poisonBlock (addr / 64)).countDeferred p).toLadder touch v := by
  have hpart : ¬(addr % 64 = 0 ∧ (bytes.take (64 - addr % 64)).length = 64) := by rw [List.length_take]; omega
  have hbad : ((s.hitTable (addr / 64)).poisoned.contains (addr / 64) && !outcomeWhole .clean || Outcome.clean == .uncorrectable) = true := by
    simp [hb, outcomeWhole]
  unfold State.writeBlock
  rw [hd, if_neg Bool.false_ne_true, if_neg hpart, if_pos hbad]
  exact ⟨_, _, _, (State.readBlock_clean_sheet _ _ _ _).trans (s.hitTable_sheet _), rfl⟩

end

/-- Settles O29: a write within the fence is the write of its block, whose three cases are those of R85. -/
theorem blockWritesStore : Obligations.BlockWritesStore := by
  unfold Obligations.BlockWritesStore
  refine ⟨fun s p addr bytes hwf hw hh hd _ hl hb => ?stores, fun s p addr bytes hw hh hd _ hl hb => ?poisoned,
    fun s p addr bytes o hw => ⟨_, exec_memWrite_outside hw, State.fenceViolation_tells (.refl s) _ _ _⟩⟩
  case stores =>
    refine ⟨_, exec_memWrite_inside hw hh, ?_⟩
    rw [State.writeBlock_stores hd hl hb]
    refine ⟨Memory.readN_writeN _ _ _ hwf, fun a ha => Memory.read_writeN_outside _ _ _ _ ha, fun h => (mem_setDel.1 h).2 rfl,
      fun b hne => ?_, rfl⟩
    exact mem_setDel.trans (and_iff_left hne)
  case poisoned =>
    obtain ⟨u, touch, v, hu, hwrite⟩ := State.writeBlock_poisoned (p := p) hd hl hb
    have htells := State.toLadder_tells (.refl ((u.poisonBlock (addr / 64)).countDeferred p)) touch v
    refine ⟨_, exec_memWrite_inside hw hh, ?_, fun a ha => ?_⟩ <;> rw [hwrite]
    · rw [htells.eq (·.poisoned) fun _ _ _ _ _ => rfl, State.countDeferred_poisoned]
      exact mem_setAdd.2 (.inl rfl)
    · rw [htells.calm.sheet, State.countDeferred_sheet, State.poisonBlock, Memory.read_zeroN, if_neg (by omega), hu]

/-! ## Association lists -/

theorem lookupA_insertA_same {β : Type} (l : List (Nat × β)) (k : Nat) (v : β) : lookupA (insertA l k v) k = some v := by
  induction l with
  | nil => exact if_pos rfl
  | cons x l ih =>
    unfold insertA
    split
    · exact if_pos rfl
    · split
      · exact if_pos rfl
      · next hne => exact (if_neg fun e => hne e.symm).trans ih

theorem lookupA_filter {α β : Type} [DecidableEq α] (l : List (α × β)) (a : α) (keep : α × β → Bool) (h : ∀ v, keep (a, v) = false) :
    lookupA (l.filter keep) a = none := by
  induction l with
  | nil => rfl
  | cons x l ih =>
    obtain ⟨k, v⟩ := x
    rw [List.filter_cons]
    split
    · next hk => exact (if_neg fun e => absurd hk (by rw [e, h]; exact Bool.false_ne_true)).trans ih
    · exact ih

theorem lookupA_eraseA_same {α β : Type} [DecidableEq α] (l : List (α × β)) (a : α) : lookupA (eraseA l a) a = none :=
  lookupA_filter l a _ fun _ => decide_eq_false fun h => h rfl

/-- Numbers put into a set one after another. -/
theorem mem_foldl_setAdd {l acc : List Nat} {k : Nat} : k ∈ l.foldl setAdd acc ↔ k ∈ l ∨ k ∈ acc := by
  induction l generalizing acc with
  | nil => simp
  | cons x l ih => rw [List.foldl_cons, ih, mem_setAdd, List.mem_cons]; tauto

/-! ## Slots (R40, R284) -/

/-- Only the clocks move when an event brings ring time forward. -/
theorem State.ringTo_eq (s : State) (t : Time) :
    s.ringTo t = { s with uptime := (s.ringTo t).uptime, ringTime := (s.ringTo t).ringTime, ring := (s.ringTo t).ring } := by
  have hpass (n : Nat) : s.pass n = { s with uptime := (s.pass n).uptime, ringTime := (s.pass n).ringTime, ring := (s.pass n).ring } := by
    unfold State.pass
    split <;> rfl
  unfold State.ringTo
  dsimp only
  split
  · exact congrArg (fun u : State => { u with ringTime := BitVec.ofNat 64 t }) (hpass _)
  · exact hpass _

/-- The debts of a partition on a slot's tiles are paid in their order from its time, so that what is left of the time is what it exceeds
them by (R284). -/
theorem payDebts_left (p : Nat) (tiles : W64) (l : List (Nat × W64 × Nat)) (n : Nat) : (payDebts p tiles l n).2 =
    n - ((l.filter fun d => decide (d.1 = p) && decide (d.2.1 &&& tiles ≠ 0)).map fun d => d.2.2).sum := by
  induction l generalizing n with
  | nil => rfl
  | cons x l ih =>
    obtain ⟨q, m, d⟩ := x
    unfold payDebts
    by_cases hq : q = p ∧ m &&& tiles ≠ 0
    · rw [if_pos hq, List.filter_cons_of_pos (by simpa using hq), List.map_cons, List.sum_cons]
      exact (ih _).trans (Nat.sub_sub _ _ _)
    · rw [if_neg hq, List.filter_cons_of_neg (by simpa using hq)]
      exact ih _

/-- The debt of a partition on the tiles of a slot. -/
def Slice.debtOn (sl : Slice) (p : Part) (x : Slot) : Nat :=
  ((sl.debts.filter fun d => decide (d.1 = p.val) && decide (d.2.1 &&& x.tiles ≠ 0)).map fun d => d.2.2).sum

/-- The slots of other partitions that follow a slot on its tiles. -/
def Slice.others (sl : Slice) (i : Nat) (x : Slot) : List Nat :=
  (sl.following i).filter fun j => match sl.slots[j]? with | some y => y.part ≠ x.part | none => false

theorem Slice.mem_others {sl : Slice} {i j : Nat} {x y : Slot} (hj : j ∈ sl.following i) (hy : sl.slots[j]? = some y)
    (hne : y.part ≠ x.part) : j ∈ sl.others i x :=
  List.mem_filter.2 ⟨hj, by rw [hy]; exact decide_eq_true hne⟩

section

variable {s : State} {i : Nat} {x : Slot} {p : Part}

/-- A slot of a partition that begins: it is no longer zeroed, and the debt on its tiles is taken from it, as far as it is long (R284). -/
theorem State.beginSlot_owned (hx : s.slice.slots[i]? = some x) (hp : x.owner = some p) :
    ∃ debts shortened, (lookupA shortened i).getD 0 = min (s.slice.debtOn p x) x.len ∧ s.beginSlot i =
      ({ s with slice := { s.slice with zeroing := setDel s.slice.zeroing i, debts := debts, shortened := shortened } } : State).modPart p
        fun q => { q with rqt := { q.rqt with sliceDebt := q.rqt.sliceDebt - min (s.slice.debtOn p x) x.len } } := by
  have htake : x.len - (payDebts p.val x.tiles s.slice.debts x.len).2 = min (s.slice.debtOn p x) x.len := by
    rw [payDebts_left]
    exact Nat.sub_sub_eq_min _ _ |>.trans (Nat.min_comm _ _)
  unfold State.beginSlot
  rw [hx]
  simp only [hp, htake]
  refine ⟨_, _, ?_, rfl⟩
  split
  · next h0 => rw [lookupA_eraseA_same, h0]; rfl
  · rw [lookupA_insertA_same]; rfl

theorem State.beginSlot_overrun (s : State) (i : Nat) : (s.beginSlot i).slice.overrun = s.slice.overrun := by
  unfold State.beginSlot
  split
  · rfl
  · split <;> rfl

/-- A slot that begins ends the zeroing of no other. -/
theorem State.mem_zeroing_beginSlot {j : Nat} (hj : j ∈ s.slice.zeroing) (hne : j ≠ i) : j ∈ (s.beginSlot i).slice.zeroing := by
  unfold State.beginSlot
  split
  · exact hj
  · split
    · exact hj
    · exact mem_setDel.2 ⟨hj, hne⟩


theorem State.foldl_beginSlot_zeroing {j : Nat} : ∀ (l : List Nat) (s : State), j ∈ s.slice.zeroing → j ∉ l →
    j ∈ (l.foldl State.beginSlot s).slice.zeroing
  | [], _, hj, _ => hj
  | _ :: l, _, hj, hl =>
    State.foldl_beginSlot_zeroing l _ (State.mem_zeroing_beginSlot hj fun e => hl (e ▸ .head _)) fun h => hl (.tail _ h)

/-- The end of a slot with which no step runs on: slots of other partitions are zeroed for, and those of its own begin. -/
theorem State.endSlot_eq (hx : s.slice.slots[i]? = some x) :
    ∃ u, s.endSlot i = ((s.slice.following i).filter fun j => !(s.slice.others i x).contains j).foldl State.beginSlot u ∧
      u.slice.overrun = s.slice.overrun.filter (fun o => decide (o.1 ≠ i)) ∧
      u.slice.zeroing = (s.slice.others i x).foldl setAdd s.slice.zeroing ∧
      (s.slice.others i x ≠ [] → u.scratch = (s.scratch.filter fun l => !(s.maskTiles x.tiles).contains l.1.1) ∧
        u.sram = s.sram.filter fun e => !x.tiles.getLsbD e.1) := by
  unfold State.endSlot
  rw [hx]
  refine ⟨_, rfl, ?_⟩
  split
  · next hnil => exact ⟨rfl, rfl, fun h => absurd (List.isEmpty_iff.1 hnil) h⟩
  · exact ⟨rfl, rfl, fun _ => ⟨rfl, rfl⟩⟩

theorem State.endSlot_overrun (hx : s.slice.slots[i]? = some x) :
    (s.endSlot i).slice.overrun = s.slice.overrun.filter fun o => decide (o.1 ≠ i) := by
  obtain ⟨u, hend, hover, -⟩ := State.endSlot_eq hx
  rw [hend, ← hover]
  exact State.foldl_unchanged (fun s => s.slice.overrun) _ State.beginSlot_overrun _ _

/-- A slot of another partition that follows on the tiles of a slot waits, from the slot's end on, for the zeroing of their SRAM and scratch
lines (R40). -/
theorem State.endSlot_zeroes (hx : s.slice.slots[i]? = some x) {j : Nat} (hj : j ∈ s.slice.others i x) :
    j ∈ (s.endSlot i).slice.zeroing ∧
      (s.endSlot i).scratch = (s.scratch.filter fun l => !(s.maskTiles x.tiles).contains l.1.1) ∧
      (s.endSlot i).sram = s.sram.filter fun e => !x.tiles.getLsbD e.1 := by
  obtain ⟨u, hend, -, hzero, hclear⟩ := State.endSlot_eq hx
  obtain ⟨hscratch, hsram⟩ := hclear (List.ne_nil_of_mem hj)
  rw [hend, ← hscratch, ← hsram]
  refine ⟨State.foldl_beginSlot_zeroing _ _ (hzero ▸ mem_foldl_setAdd.2 (.inl hj)) fun h => ?_,
    State.foldl_unchanged State.scratch _ (fun s i => by rw [State.beginSlot_eq]) _ _,
    State.foldl_unchanged State.sram _ (fun s i => by rw [State.beginSlot_eq]) _ _⟩
  simpa [hj] using (List.mem_filter.1 h).2

/-! The end of a slot in a frame that runs: -/

variable (hx : s.slice.slots[i]? = some x) (hf : s.slice.frameLength ≠ 0) (hs : s.slice.frameStart ≤ s.now)
include hx hf hs

/-- The slot is left to a step of its partition that runs in it. -/
theorem exec_slotBoundary_overrun {st : Step} (hp : x.owner = some p) (hst : (s.part p).step = some st)
    (hi : st.slots.contains i = true) : exec (.slotBoundary i) s = .next { s.ringTo (s.slotEndAt i x) with
      slice := { s.slice with overrun := insertA s.slice.overrun i (s.ringTo (s.slotEndAt i x)).now } } := by
  have hpart : (s.ringTo (s.slotEndAt i x)).part p = s.part p := by rw [State.ringTo_eq]; rfl
  have hslice : (s.ringTo (s.slotEndAt i x)).slice = s.slice := by rw [State.ringTo_eq]
  have hframe : ¬(s.slice.frameLength = 0 ∨ s.now < s.slice.frameStart) := not_or.2 ⟨hf, Nat.not_lt.2 hs⟩
  show Host.Outcome.next _ = _
  simp only [hx, hp, hpart, hst, hi, if_true, hslice, if_neg hframe]

/-- Where no step of its partition runs in it, the slot is over. -/
theorem exec_slotBoundary_end (hno : ∀ p st, x.owner = some p → (s.part p).step = some st → st.slots.contains i = false) :
    exec (.slotBoundary i) s = .next ((s.ringTo (s.slotEndAt i x)).endSlot i) := by
  have hpart (p : Part) : (s.ringTo (s.slotEndAt i x)).part p = s.part p := by rw [State.ringTo_eq]; rfl
  have hframe : ¬(s.slice.frameLength = 0 ∨ s.now < s.slice.frameStart) := not_or.2 ⟨hf, Nat.not_lt.2 hs⟩
  show Host.Outcome.next _ = _
  simp only [hx, hpart, if_neg hframe]
  refine congrArg Host.Outcome.next (if_neg ?_)
  split
  · next p hp =>
    split
    · next st hst => rw [hno p st hp hst]; exact Bool.false_ne_true
    · exact Bool.false_ne_true
  · exact Bool.false_ne_true

end

/-- Settles O50: the end of a slot either leaves it to the step that runs in it or is `endSlot`, and the end of a zeroing is `beginSlot`. -/
theorem slotsTurnOver : Obligations.SlotsTurnOver := by
  unfold Obligations.SlotsTurnOver
  refine ⟨fun s i x hx hf hs => ⟨fun p st hp hst hi => ?overrun, fun hno => ?ends⟩, fun s i x p hz hx hp => ?begins⟩
  case overrun =>
    refine ⟨_, exec_slotBoundary_overrun hx hf hs hp hst hi, rfl, ?_, ?_⟩ <;> dsimp only <;> rw [State.ringTo_eq]
  case ends =>
    have hslice : (s.ringTo (s.slotEndAt i x)).slice = s.slice := by rw [State.ringTo_eq]
    have htiles : (s.ringTo (s.slotEndAt i x)).maskTiles x.tiles = s.maskTiles x.tiles := by rw [State.ringTo_eq]; rfl
    have hxr := hslice.symm ▸ hx
    refine ⟨_, exec_slotBoundary_end hx hf hs hno, fun o ho => ?_, fun j hj y hy hne => ?_⟩
    · rw [State.endSlot_overrun hxr] at ho
      exact of_decide_eq_true (List.mem_filter.1 ho).2
    · obtain ⟨hzero, hscratch, hsram⟩ := State.endSlot_zeroes hxr (hslice.symm ▸ Slice.mem_others hj hy hne)
      refine ⟨hzero, fun n hn l => ?_, fun e he => ?_⟩
      · rw [State.line, hscratch, htiles, lookupA_filter _ _ _ fun _ => by rw [List.contains_iff_mem.2 hn]; rfl]
        rfl
      · rw [hsram] at he
        exact Bool.not_eq_true' _ ▸ (List.mem_filter.1 he).2
  case begins =>
    obtain ⟨debts, shortened, htaken, hbegin⟩ := State.beginSlot_owned hx hp
    refine ⟨s.beginSlot i, congrArg Host.Outcome.next (if_pos hz), ?_⟩
    rw [hbegin]
    refine ⟨?_, ?_, htaken⟩
    · exact Bool.eq_false_iff.2 fun h => (mem_setDel.1 (List.contains_iff_mem.1 h)).2 rfl
    · rw [State.part_modPart]
      rfl

/-! ## Gates (R29, R45, R411) -/

theorem mem_allParts (p : Part) : p ∈ allParts := by revert p; decide

/-- No section needs more than the 32 bytes before the tile entries of a ROLE (R411). -/
theorem leadOf_le {n : Nat} (hn : 32 ≤ n) (type : Nat) : leadOf type ≤ n := by
  refine le_trans ?_ hn
  unfold leadOf
  split <;> decide

section

variable {s : State} {h body : List Byte}

theorem State.allStopped_iff : s.allStopped = true ↔ ∀ p, (s.part p).fence = none ∨ (s.part p).st = .stopped := by
  simp [State.allStopped, mem_allParts]

/-- The partition that a section names is STOPPED. -/
theorem any_named_stopped : (allParts.any fun p => p.val == secPart h && (s.part p).st == .stopped) = true ↔
    ∃ p : Part, p.val = secPart h ∧ (s.part p).st = .stopped := by
  simp [mem_allParts]

variable (hl : 32 ≤ body.length)
include hl

/-- SHEET, FENCE and ROUTE wait for every partition that has a FENCE. -/
theorem State.gate_structure (ht : secType h ∈ [1, 2, 3]) : s.gate none h body = s.allStopped := by
  simp only [List.mem_cons, List.not_mem_nil, or_false] at ht
  rcases ht with ht | ht | ht <;> simp [State.gate, leadOf_le hl, ht]

/-- ROLE and PLACE wait for the partition that they name; a tenant's stream brings no others, and these only of its own partition. -/
theorem State.gate_named (tenant : Option Part) (ht : secType h ∈ [4, 5]) : s.gate tenant h body =
    (tenant.all (fun p => secPart h == p.val) && allParts.any fun p => p.val == secPart h && (s.part p).st == .stopped) := by
  simp only [List.mem_cons, List.not_mem_nil, or_false] at ht
  rcases ht with ht | ht <;> cases tenant <;> simp [State.gate, leadOf_le hl, ht]

/-- PINS wait for nothing. -/
theorem State.gate_pins (ht : secType h = 7) : s.gate none h body = true := by
  simp [State.gate, leadOf_le hl, ht]

omit hl

/-- A section of a type that the manual does not name is discarded. -/
theorem State.gate_unnamed (ht : secType h ∉ [1, 2, 3, 4, 5, 6, 7]) : s.gate none h body = false := by
  simp only [List.mem_cons, List.not_mem_nil, or_false, not_or] at ht
  simp [State.gate, ht]

/-- A tenant's stream brings ROLE and PLACE only. -/
theorem State.gate_tenant_other (p : Part) (ht : secType h ∉ [4, 5]) : s.gate (some p) h body = false := by
  simp only [List.mem_cons, List.not_mem_nil, or_false, not_or] at ht
  simp [State.gate, ht]

end

/-- Settles O25: the gate of each type is the test of R29, and a tenant's stream has the gates of its own ROLE and PLACE alone. -/
theorem gatesOfSections : Obligations.GatesOfSections := by
  unfold Obligations.GatesOfSections
  refine fun s h body hl => ⟨fun ht => ?sheet, fun ht => ?named, State.gate_pins hl, State.gate_unnamed, fun p => ?tenant⟩
  case sheet => rw [State.gate_structure hl ht, State.allStopped_iff]
  case named =>
    rw [State.gate_named hl none ht]
    exact any_named_stopped
  case tenant =>
    by_cases ht : secType h ∈ [4, 5]
    · have hown : (secPart h == p.val ∧ ∃ q : Part, q.val = secPart h ∧ (s.part q).st = .stopped) ↔
          secPart h = p.val ∧ (s.part p).st = .stopped := by
        rw [beq_iff_eq]
        refine and_congr_right fun he => ⟨fun ⟨q, hq, hst⟩ => ?_, fun hst => ⟨p, he.symm, hst⟩⟩
        exact Fin.ext (hq.trans he) ▸ hst
      rw [State.gate_named hl _ ht, Bool.and_eq_true, any_named_stopped, and_iff_right ht]
      exact hown
    · rw [State.gate_tenant_other p ht]
      exact iff_of_false Bool.false_ne_true fun hn => ht hn.1

/-! ## Changes of a partition's models alone -/

/-- A partition of which nothing but the held models has changed. -/
structure Partition.OnlyModels (q r : Partition) : Prop where
  eq : r = { q with models := r.models }

theorem Partition.OnlyModels.trans {q r u : Partition} (h : q.OnlyModels r) (k : r.OnlyModels u) : q.OnlyModels u where
  eq := by
    have e := k.eq
    rw [h.eq] at e
    exact e

theorem Partition.OnlyModels.foldl {α : Type} (f : Partition → α → Partition) (hf : ∀ (q : Partition) x, q.OnlyModels (f q x)) (l : List α)
    (q : Partition) : q.OnlyModels (l.foldl f q) := by
  induction l generalizing q with
  | nil => exact ⟨rfl⟩
  | cons x l ih => exact (hf q x).trans (ih _)

theorem Partition.modModel_onlyModels (q : Partition) (handle : Nat) (f : Model → Model) : q.OnlyModels (q.modModel handle f) := ⟨rfl⟩

theorem Partition.returnScratch_onlyModels (q : Partition) (ash : List Nat) (picks : List Pick) :
    q.OnlyModels (q.returnScratch ash picks) :=
  .foldl _ (fun q _ => q.modModel_onlyModels _ _) _ _

theorem Partition.releasePages_onlyModels (q : Partition) (r : Req) : q.OnlyModels (q.releasePages r).1 :=
  Partition.OnlyModels.trans (.foldl _ (fun q _ => q.modModel_onlyModels _ _) _ _) (Partition.modModel_onlyModels _ _ _)

theorem Partition.releaseChain_onlyModels (q : Partition) (r : Req) : q.OnlyModels (q.releaseChain r).1 := q.modModel_onlyModels _ _

/-- What scratch a step gives back does not depend on the requests. -/
theorem Partition.returnScratch_reqs (q : Partition) (reqs : List (Nat × Req)) (ash : List Nat) (picks : List Pick) :
    { q with reqs := reqs }.returnScratch ash picks = { q.returnScratch ash picks with reqs := reqs } := by
  unfold Partition.returnScratch
  generalize picks.flatMap (·.scratch) = l
  induction l generalizing q with
  | nil => rfl
  | cons x l ih =>
    exact ih (q.modModel x.1 fun m => if q.scratchAshed m x.2 ash then m else { m with scratch := m.scratch ++ [(x.2.1, x.2.2)] })

theorem Partition.dropFormed_models_reqs (q : Partition) (reqs : List (Nat × Req)) (ash : List Nat) :
    ({ q with reqs := reqs }.dropFormed ash).models = (q.dropFormed ash).models := by
  unfold Partition.dropFormed
  dsimp only
  split
  · rw [Partition.returnScratch_reqs]
  · rfl

/-- A formed step discarded is no longer formed; scratch buffers go back to the models, and nothing else changes. -/
theorem Partition.dropFormed_eq (q : Partition) (ash : List Nat) :
    q.dropFormed ash = { q with models := (q.dropFormed ash).models, formed := none, forming := false } := by
  unfold Partition.dropFormed
  split
  · exact congrArg (fun r : Partition => { r with formed := none, forming := false }) (q.returnScratch_onlyModels ash _).eq
  · next h => rw [← h]

/-- The requests that a stop parks: none is active or queued, and the entries are the same. -/
theorem Partition.parkAll_reqs (q : Partition) : (∀ x ∈ q.parkAll.2.reqs, x.2.state.active = false ∧ x.2.state ≠ .queued) ∧
    q.parkAll.2.reqs.map (·.1) = q.reqs.map (·.1) := by
  refine ⟨fun y hy => ?_, ?_⟩
  · obtain ⟨x, -, rfl⟩ := List.mem_map.1 hy
    split
    · exact ⟨rfl, nofun⟩
    · next h => simpa using h
  · simp only [Partition.parkAll, List.map_map]
    refine List.map_congr_left fun x _ => ?_
    simp only [Function.comp_apply]
    split <;> rfl

/-- Entries freed: no request is left, and beside the models only the victims change. -/
theorem Partition.freeAll_eq (q : Partition) : q.freeAll = { q with models := q.freeAll.models, reqs := [], victims := [] } := by
  unfold Partition.freeAll
  generalize hr : q.reqs.foldl _ q = r
  have h : q.OnlyModels r := by
    rw [← hr]
    refine .foldl _ (fun q x => ?_) _ _
    dsimp only
    exact (q.releasePages_onlyModels x.2).trans (Partition.releaseChain_onlyModels _ _)
  exact congrArg (fun r : Partition => { r with reqs := [], victims := [] }) h.eq

/-! ## Commands taken -/

/-- The command of a number is found, after a change of it that keeps its number, as the change leaves it. -/
theorem find?_modifyFirst (f : Cmd → Cmd) (hf : ∀ c, (f c).id = c.id) (k : Nat) (l : List Cmd) :
    (modifyFirst (fun c => c.id == k) f l).find? (fun c => c.id == k) = (l.find? fun c => c.id == k).map f := by
  induction l with
  | nil => rfl
  | cons c l ih =>
    unfold modifyFirst
    cases hc : c.id == k with
    | true => simp [hf, hc]
    | false => simp [hc, ih]

theorem State.mem_of_pickCmd {s : State} {src : Src} {opcode : Nat} {c : Cmd} (h : s.pickCmd src opcode = some c) : c ∈ s.taken src :=
  List.mem_of_find?_eq_some h

theorem State.forPart_part {s : State} {p : Part} {opcode : Nat} {c : Cmd} (run : Part → Cmd → State)
    (h : s.pickCmd (.part p) opcode = some c) : s.forPart (.part p) opcode run = run p c := by
  rw [State.forPart, h]

/-- A command of a partition, in the owner's subblock, is not the owner's to give (R410). -/
theorem State.forPart_owner {s : State} {opcode : Nat} {c : Cmd} (run : Part → Cmd → State) (h : s.pickCmd .owner opcode = some c) :
    s.forPart .owner opcode run = s.done .owner c stNotPermitted := by
  rw [State.forPart, h]

theorem State.done_taken (s : State) (p : Part) (c : Cmd) (status b : Nat) :
    ((s.done (.part p) c status b).part p).taken = (s.part p).taken.filter fun d => decide (d.id ≠ c.id) := by
  rw [(s.done_tells (.part p) c status b).parts p]
  exact congrArg Partition.taken (State.part_modPart _ _ _)

theorem State.part_modCmd (s : State) (p : Part) (id : Nat) (f : Cmd → Cmd) : (s.modCmd (.part p) id f).part p =
    { s.part p with taken := modifyFirst (fun c => c.id == id) f (s.part p).taken } := State.part_modPart _ _ _

/-- Commands that complete together leave the commands taken. -/
theorem State.not_which_of_mem_doneAll {s : State} {p : Part} {which : Cmd → Bool} {status : Nat} {d : Cmd}
    (h : d ∈ ((s.doneAll (.part p) which status).part p).taken) : which d = false := by
  have hfold : ∀ (l : List Cmd) (s : State), d ∈ ((l.foldl (fun s c => s.done (.part p) c status c.written) s).part p).taken →
      d ∈ (s.part p).taken ∧ ∀ c ∈ l, d.id ≠ c.id := by
    intro l
    induction l with
    | nil => exact fun s h => ⟨h, nofun⟩
    | cons c l ih =>
      intro s h
      obtain ⟨hd, hl⟩ := ih _ h
      rw [State.done_taken, List.mem_filter] at hd
      exact ⟨hd.1, List.forall_mem_cons.2 ⟨of_decide_eq_true hd.2, hl⟩⟩
  obtain ⟨hd, hids⟩ := hfold _ s h
  by_contra hw
  exact hids d (List.mem_filter.2 ⟨hd, Bool.not_eq_false _ ▸ hw⟩) rfl

/-! ## Stops (R46) -/

section

variable {s : State} {p : Part}

/-- A stop of a RUNNING partition begins (R46 step 1, R234). -/
theorem State.beginStop_running (h : (s.part p).st = .running) (cause : Nat) :
    (s.beginStop p cause).part p = { s.part p with
      st := .stopping, stopCause := cause, taken := (s.part p).taken.map (fun c => { c with started := true })
      reqs := (s.part p).reqs.map fun x => (x.1, { x.2 with fetchSince := none })
      fifo := followRepairs p (s.beginStop p cause).repairs (s.part p).fifo } ∧
    (∀ i, i ≠ p → (s.beginStop p cause).part i = s.part i) ∧ (s.beginStop p cause).out = s.out ∧ (s.beginStop p cause).sheet = s.sheet := by
  rw [State.beginStop, if_pos h, State.cancelQueued]
  refine ⟨?_, fun i hi => ?_, rfl, rfl⟩
  · rw [State.part_modRepairs, State.part_modPart, State.part_modPart]; rfl
  · rw [State.part_modRepairs_other _ _ _ _ hi, State.part_modPart_other _ _ _ _ hi, State.part_modPart_other _ _ _ _ hi]

theorem State.beginStop_idle (h : (s.part p).st ≠ .running) (cause : Nat) : s.beginStop p cause = s := if_neg h

/-- `PRT_STOP` of a partition that runs or stops: the stop begins or goes on, and the command waits for its end. -/
theorem State.prtStop_waits {c : Cmd} (hc : c ∈ (s.part p).taken) (hst : (s.part p).st = .running ∨ (s.part p).st = .stopping) :
    ((s.prtStop p c).part p).st = .stopping ∧ (s.prtStop p c).out = s.out ∧
      ((s.part p).st = .running → ((s.prtStop p c).part p).stopCause = 0) ∧
      ∃ d, ((s.prtStop p c).part p).taken.find? (fun d => d.id == c.id) = some d ∧ d.run = .stopping := by
  obtain ⟨e, he⟩ := Option.isSome_iff_exists.1 ((List.find?_isSome (p := fun d => d.id == c.id)).2 ⟨c, hc, beq_self_eq_true c.id⟩)
  have hpart := s.part_modCmd p c.id fun d => { d with run := .stopping, started := true }
  have hfind := find?_modifyFirst (fun d => { d with run := .stopping, started := true }) (fun _ => rfl) c.id (s.part p).taken
  have hout : (s.modCmd (.part p) c.id fun d => { d with run := .stopping, started := true }).out = s.out := rfl
  have hstop : s.prtStop p c =
      (s.modCmd (.part p) c.id fun d => { d with run := .stopping, started := true }).beginStop p 0 := by
    unfold State.prtStop
    rcases hst with h | h <;> rw [h]
  rw [hstop, ← hout]
  rw [he] at hfind
  generalize s.modCmd (.part p) c.id _ = u at hpart ⊢
  have hust : (u.part p).st = (s.part p).st := by rw [hpart]
  have hutaken := congrArg Partition.taken hpart
  rcases hst with h | h
  · obtain ⟨hp, -, hout, -⟩ := State.beginStop_running (hust.trans h) 0
    rw [hp]
    refine ⟨rfl, hout, fun _ => rfl, ?_⟩
    rw [hutaken, List.find?_map]
    exact ⟨_, congrArg _ hfind, rfl⟩
  · rw [State.beginStop_idle (by rw [hust, h]; exact nofun)]
    refine ⟨hust.trans h, rfl, fun hr => by rw [h] at hr; exact absurd hr nofun, ?_⟩
    rw [hutaken]
    exact ⟨_, hfind, rfl⟩

/-- `PRT_STOP` where nothing runs completes at once. -/
theorem State.prtStop_done (c : Cmd) (hr : (s.part p).st ≠ .running) (hs : (s.part p).st ≠ .stopping) :
    s.prtStop p c = s.done (.part p) c stOk := by
  unfold State.prtStop
  split
  · next h => exact absurd h hr
  · next h => exact absurd h hs
  · rfl

end

/-! ## The end of a stop (R46, R53) -/

theorem State.dropReads_parts (s : State) (gone : HostRead → Bool) : (s.dropReads gone).parts = s.parts := by
  refine State.foldl_unchanged State.parts _ (fun s p => State.foldl_unchanged State.parts _ (fun s r => ?_) _ _) _ _
  split <;> rfl

theorem State.Calm.part_ex {s t : State} (h : State.Calm s t) (i : Part) :
    ∃ a b c, t.part i = { s.part i with sub := a, taken := b, fifo := c } := ⟨_, _, _, h.parts i⟩

section

variable {s : State} {p : Part}

/-- A partition as a reset leaves it. -/
def Partition.afterReset (q : Partition) : Partition :=
  { q.freeAll with
    taken := [], models := q.freeAll.models.map Model.emptyIndex, sub := {}, flrPending := false, startPending := false
    fifo := q.freeAll.fifo.filter fun e => decide (e.code ≠ 0x3020) }

/-- A reset completes the commands of a partition, and then changes that partition alone. -/
theorem State.resetPart_parts (s : State) (p : Part) :
    ∃ u, State.Calm s u ∧ (s.resetPart p).parts = (u.modPart p Partition.afterReset).parts :=
  ⟨_, s.doneAll_calm _ _ _, State.dropReads_parts _ _⟩

/-- A partition that has been reset has no request, no command and a queue subblock at its reset values, and stands where it stood (R53). -/
theorem State.resetPart_part (s : State) (p : Part) : ((s.resetPart p).part p).reqs = [] ∧ ((s.resetPart p).part p).taken = [] ∧
    ((s.resetPart p).part p).sub = {} ∧ ((s.resetPart p).part p).st = (s.part p).st ∧
    ((s.resetPart p).part p).formed = (s.part p).formed := by
  obtain ⟨u, hcalm, hparts⟩ := s.resetPart_parts p
  have hpart : (s.resetPart p).part p = (u.part p).afterReset := (congrArg (·.get p) hparts).trans (u.part_modPart p _)
  rw [hpart, Partition.afterReset, Partition.freeAll_eq]
  exact ⟨rfl, rfl, rfl, hcalm.part_eq (·.st) (fun _ _ _ _ => rfl) p, hcalm.part_eq (·.formed) (fun _ _ _ _ => rfl) p⟩

/-- The reset of a partition leaves the others as they were, but for what its completions change. -/
theorem State.resetPart_part_other {i : Part} (hi : i ≠ p) {α : Type} (f : Partition → α)
    (hf : ∀ (q : Partition) a b c, f { q with sub := a, taken := b, fifo := c } = f q) : f ((s.resetPart p).part i) = f (s.part i) := by
  obtain ⟨u, hcalm, hparts⟩ := s.resetPart_parts p
  have hpart : (s.resetPart p).part i = u.part i := (congrArg (·.get i) hparts).trans (u.part_modPart_other p i _ hi)
  rw [hpart]
  exact hcalm.part_eq f hf i

/-- A partition as a stop leaves it, before its records are written. -/
def Partition.stopped (q : Partition) (ash : List Nat) : Partition :=
  { q.parkAll.2.dropFormed ash with st := .stopped, sectionsSince := 0, zeroNs := 0, flrPending := false }

/-- What a stop leaves: STOPPED, nothing formed, no request active or queued, the models with the scratch of a formed step given back. -/
theorem Partition.stopped_fields (q : Partition) (ash : List Nat) : (q.stopped ash).st = .stopped ∧ (q.stopped ash).formed = none ∧
    (q.stopped ash).reqs = q.parkAll.2.reqs ∧ (q.stopped ash).models = (q.dropFormed ash).models := by
  refine ⟨rfl, ?_, ?_, Partition.dropFormed_models_reqs q _ ash⟩ <;> rw [Partition.stopped, Partition.dropFormed_eq]

/-- The end of a stop: the partition as the stop leaves it, its records, the commands that waited for it completed, and after an FLR the
reset. -/
theorem State.stopNow_eq (s : State) (p : Part) : ∃ u, State.Calm (s.modPart p fun q => q.stopped s.ashList) u ∧
    (∀ c ∈ (u.part p).taken, c.run ≠ .stopping) ∧ s.stopNow p = if (s.part p).flrPending then u.resetPart p else u := by
  have hflr : ((s.part p).parkAll.2.dropFormed s.ashList).flrPending = (s.part p).flrPending := by rw [Partition.dropFormed_eq]; rfl
  have hheld (v : State) (b : Bool) : State.Calm v (if b then v.dropHeld p else v) := by
    split
    · exact v.dropHeld_calm p
    · exact .refl v
  have hmod : (s.modPart p fun _ => (s.part p).stopped s.ashList) = s.modPart p fun q => q.stopped s.ashList := rfl
  unfold State.stopNow
  dsimp only
  rw [hflr]
  refine ⟨_, ((hheld _ _).trans (State.toBoth_calm _ _ _)).trans (State.doneAll_calm _ _ _ _), fun c hc hrun => ?_, rfl⟩
  have hnot := State.not_which_of_mem_doneAll hc
  rw [hrun] at hnot
  exact absurd hnot (by decide)

/-- The end of a stop: the partition is STOPPED, no request is active or queued, no command waits for the stop, and after an FLR the
partition is reset (R46, R53). -/
theorem State.stopNow_ends (s : State) (p : Part) :
    ((s.stopNow p).part p).st = .stopped ∧ ((s.stopNow p).part p).formed = none ∧
      (∀ c ∈ ((s.stopNow p).part p).taken, c.run ≠ .stopping) ∧
      (∀ x ∈ ((s.stopNow p).part p).reqs, x.2.state.active = false ∧ x.2.state ≠ .queued) ∧
      ((s.part p).flrPending = true →
        ((s.stopNow p).part p).reqs = [] ∧ ((s.stopNow p).part p).taken = [] ∧ ((s.stopNow p).part p).sub = {}) ∧
      ((s.part p).flrPending = false → ((s.stopNow p).part p).models = ((s.part p).dropFormed s.ashList).models ∧
        ((s.stopNow p).part p).reqs.map (·.1) = (s.part p).reqs.map (·.1)) ∧
      ∀ i, i ≠ p → ((s.stopNow p).part i).st = (s.part i).st ∧ ((s.stopNow p).part i).reqs = (s.part i).reqs := by
  obtain ⟨u, hcalm, hwaits, hstop⟩ := s.stopNow_eq p
  obtain ⟨hparked, hkeys⟩ := (s.part p).parkAll_reqs
  obtain ⟨hst, hformed, hreqs, hmodels⟩ : (u.part p).st = .stopped ∧ (u.part p).formed = none ∧
      (u.part p).reqs = (s.part p).parkAll.2.reqs ∧ (u.part p).models = ((s.part p).dropFormed s.ashList).models := by
    obtain ⟨_, _, _, hup⟩ := hcalm.part_ex p
    rw [hup, State.part_modPart]
    exact (s.part p).stopped_fields s.ashList
  have hother (i : Part) (hi : i ≠ p) : (u.part i).st = (s.part i).st ∧ (u.part i).reqs = (s.part i).reqs := by
    obtain ⟨_, _, _, hui⟩ := hcalm.part_ex i
    rw [hui, State.part_modPart_other _ _ _ _ hi]
    exact ⟨rfl, rfl⟩
  rw [hstop]
  cases (s.part p).flrPending with
  | true =>
    obtain ⟨hnone, htaken, hsub, hst', hformed'⟩ := u.resetPart_part p
    rw [if_pos rfl, hst', hformed', hnone, htaken, hsub]
    refine ⟨hst, hformed, List.forall_mem_nil _, List.forall_mem_nil _, fun _ => ⟨rfl, rfl, rfl⟩, nofun, fun i hi => ?_⟩
    rw [State.resetPart_part_other hi (·.st) fun _ _ _ _ => rfl, State.resetPart_part_other hi (·.reqs) fun _ _ _ _ => rfl]
    exact hother i hi
  | false =>
    rw [if_neg Bool.false_ne_true, hreqs]
    exact ⟨hst, hformed, hwaits, hparked, nofun, fun _ => ⟨hmodels, hkeys⟩, hother⟩

/-- Commands that all run over several events wait for no boundary. -/
theorem State.runBoundary_of_running (h : ∀ c ∈ (s.part p).taken, c.run ≠ .idle) : s.runBoundary p = s := by
  refine List.foldl_fixed' (fun id => ?_) _
  dsimp only
  split
  · next c hc =>
    have hrun : (c.run == .idle) = false := beq_eq_false_iff_ne.2 (h c (List.mem_of_find?_eq_some hc))
    exact if_neg (by simp [Cmd.turn, hrun])
  · rfl

theorem Partition.boundaryReads_of_running {q : Partition} (h : ∀ c ∈ q.taken, c.run ≠ .idle) : q.boundaryReads = false := by
  rw [Partition.boundaryReads, List.any_eq_false]
  intro c hc
  simp [h c hc]

/-- With no step, no page on its way and no command left to run at the boundary, the stop ends. -/
theorem exec_partitionStopDone (hst : (s.part p).st = .stopping) (hstep : (s.part p).step = none) (hpages : (s.part p).pagesMove = false)
    (hrun : ∀ c ∈ (s.part p).taken, c.run ≠ .idle) : exec (.partitionStopDone p) s = .next (s.stopNow p) := by
  have hreads := Partition.boundaryReads_of_running hrun
  show Host.Outcome.next _ = _
  simp [hst, hstep, hpages, hreads, State.runBoundary_of_running hrun]

/-! ## Starts (R48, R49) -/

/-- A partition that starts on its sections changes in its ROLE and PLACE alone, where they do not fit. -/
theorem State.takeStructure_part (s : State) (p : Part) :
    (∃ r l, (s.takeStructure p).part p = { s.part p with role := r, places := l }) ∧
      ∀ i, i ≠ p → (s.takeStructure p).part i = s.part i := by
  unfold State.takeStructure
  split
  · exact ⟨⟨_, _, rfl⟩, fun _ _ => rfl⟩
  · exact ⟨⟨_, _, State.part_modPart _ _ _⟩, fun i hi => State.part_modPart_other _ _ _ _ hi⟩

/-- A partition as a start leaves it, before its records are written (R48). -/
def Partition.started (q : Partition) (now : Time) : Partition :=
  { (q.unparkAll now).number with st := .running, startPending := false, sub := { q.sub with turn := none } }

/-- A start that nothing bars: holds end and the structure is taken, the partition starts, and its records and the commands and reads that
waited for the start follow (R48, R99). -/
theorem State.startNow_eq (hst : (s.part p).st = .stopped) (hport : (s.part p).port.isSome = true)
    (hzero : (s.part p).zeroising = false) : ∃ u now, State.Calm (((s.endHolds p).takeStructure p).modPart p fun q => q.started now) u ∧
      State.Calm (u.modPart p fun q => { q with sectionsSince := 0, zeroNs := 0 }) (s.startNow p) := by
  unfold State.startNow
  rw [if_pos ⟨hst, hport, hzero⟩]
  exact ⟨_, _, State.toBoth_calm _ _ _,
    ((State.doneAll_calm _ _ _ _).trans (State.reissue_calm _ _)).trans (State.resumeReads_calm _ _)⟩

/-- The partition runs, its models are as they were, and so are the states and the requests of the others (R48, R412). -/
theorem State.startNow_runs (hst : (s.part p).st = .stopped) (hport : (s.part p).port.isSome = true)
    (hzero : (s.part p).zeroising = false) :
    (((s.startNow p).part p).st = .running ∧ ((s.startNow p).part p).startPending = false ∧
      ((s.startNow p).part p).models = (s.part p).models ∧ ((s.startNow p).part p).zeroising = false) ∧
      ∀ i, i ≠ p → ((s.startNow p).part i).st = (s.part i).st ∧ ((s.startNow p).part i).reqs = (s.part i).reqs := by
  obtain ⟨u, now, hu, ht⟩ := State.startNow_eq hst hport hzero
  obtain ⟨⟨role, places, htake⟩, hother⟩ := (s.endHolds p).takeStructure_part p
  have hholds := s.endHolds_calm p
  refine ⟨?_, fun i hi => ?_⟩
  · obtain ⟨_, _, _, hends⟩ := hholds.part_ex p
    obtain ⟨_, _, _, hstarts⟩ := hu.part_ex p
    obtain ⟨_, _, _, htold⟩ := ht.part_ex p
    rw [htold, State.part_modPart, hstarts, State.part_modPart, htake, hends]
    exact ⟨rfl, rfl, rfl, hzero⟩
  · obtain ⟨_, _, _, hends⟩ := hholds.part_ex i
    obtain ⟨_, _, _, hstarts⟩ := hu.part_ex i
    obtain ⟨_, _, _, htold⟩ := ht.part_ex i
    rw [htold, State.part_modPart_other _ _ _ _ hi, hstarts, State.part_modPart_other _ _ _ _ hi, hother i hi, hends]
    exact ⟨rfl, rfl⟩

/-- A start of a STOPPED partition that has a port waits for the end of its zeroising, or comes at once (R48 step 1). -/
theorem State.start_stopped (hst : (s.part p).st = .stopped) (hport : (s.part p).port.isSome = true) :
    s.start p = if (s.part p).zeroising then s.modPart p (fun q => { q with startPending := true }) else s.startNow p :=
  if_pos ⟨hst, hport⟩

/-- `PRT_START` of a partition that is not STOPPED completes at once. -/
theorem State.prtStart_done (c : Cmd) (hst : (s.part p).st ≠ .stopped) : s.prtStart p c = s.done (.part p) c stWrongState := by
  unfold State.prtStart
  split
  · next h => exact absurd h hst
  · rfl

/-- `PRT_START` of a STOPPED partition that has a port and is not zeroising runs it. -/
theorem State.prtStart_runs (c : Cmd) (hst : (s.part p).st = .stopped) (hport : (s.part p).port.isSome = true)
    (hzero : (s.part p).zeroising = false) : ((s.prtStart p c).part p).st = .running := by
  have hpart := s.part_modCmd p c.id fun d => { d with run := .starting, started := true }
  unfold State.prtStart
  rw [hst]
  dsimp only
  rw [if_pos hport]
  generalize s.modCmd (.part p) c.id _ = u at hpart ⊢
  have hust : (u.part p).st = .stopped := by rw [hpart]; exact hst
  have huport : (u.part p).port.isSome = true := by rw [hpart]; exact hport
  have huzero : (u.part p).zeroising = false := by rw [hpart]; exact hzero
  obtain ⟨⟨hrun, -⟩, -⟩ := State.startNow_runs hust huport huzero
  rw [State.start_stopped hust huport, huzero, if_neg Bool.false_ne_true]
  exact hrun

/-- A start leaves a partition that is not zeroising so, also where it does not come. -/
theorem State.startNow_zeroising (hzero : (s.part p).zeroising = false) : ((s.startNow p).part p).zeroising = false := by
  by_cases h : (s.part p).st = .stopped ∧ (s.part p).port.isSome = true ∧ (s.part p).zeroising = false
  · obtain ⟨hst, hport, -⟩ := h
    obtain ⟨⟨-, -, -, hkept⟩, -⟩ := State.startNow_runs hst hport hzero
    exact hkept
  · rw [State.startNow, if_neg h]
    exact hzero

/-- The zeroising of a partition over, its time counted. -/
def State.zeroiseEnded (s : State) (p : Part) : State :=
  s.modPart p fun q => { q with zeroising := false, zeroNs := q.zeroNs + (s.uptime - q.zeroStart) }

/-- The end of zeroising runs the start that waited (R48, R49). -/
theorem exec_zeroiseDone (hz : (s.part p).zeroising = true) : exec (.zeroiseDone p) s =
    .next (if (s.part p).startPending then (s.zeroiseEnded p).startNow p else s.zeroiseEnded p) := by
  have hpend : ((s.zeroiseEnded p).part p).startPending = (s.part p).startPending := by
    rw [State.zeroiseEnded, State.part_modPart]
  rw [← hpend]
  exact congrArg Host.Outcome.next (if_pos hz)

end

/-- Settles O26: a stop is `beginStop` and ends in `stopNow`, a start is `startNow`, now or at the end of zeroising, and what neither may do
completes by `done` alone. -/
theorem partitionsStopAndStart : Obligations.PartitionsStopAndStart := by
  unfold Obligations.PartitionsStopAndStart
  refine ⟨⟨fun s port p hs hst => ?stopReg, fun s p c hc => ?stopCmd, fun s c hc => ?stopOwner⟩, fun s p hst hstep hpages hrun => ?stopEnd,
    fun s port p hs hst hport => ?startReg, fun s p c hc => ?startCmd, fun s p hz => ?zeroised⟩
  case stopReg => exact ⟨_, congrArg Host.Outcome.next (if_pos hs), State.beginStop_running hst 0⟩
  case stopCmd =>
    refine ⟨_, congrArg Host.Outcome.next (State.forPart_part _ hc), State.prtStop_waits (State.mem_of_pickCmd hc), fun hr hst => ?_⟩
    rw [State.prtStop_done c hr hst]
    exact s.done_tells _ _ _ _
  case stopOwner => exact ⟨_, congrArg Host.Outcome.next (State.forPart_owner _ hc), s.done_tells _ _ _ _⟩
  case stopEnd =>
    exact ⟨_, exec_partitionStopDone hst hstep hpages hrun, State.stopNow_ends s p⟩
  case startReg =>
    refine ⟨_, congrArg Host.Outcome.next (if_pos hs), ?_⟩
    rw [State.start_stopped hst hport]
    refine ⟨fun hz => if_pos hz, fun hz => ?_⟩
    rw [if_neg (hz ▸ Bool.false_ne_true)]
    obtain ⟨⟨hrun, hpend, hmodels, -⟩, hother⟩ := State.startNow_runs hst hport hz
    exact ⟨hrun, hpend, hmodels, hother⟩
  case startCmd =>
    refine ⟨_, congrArg Host.Outcome.next (State.forPart_part _ hc), State.prtStart_runs c, fun hst => ?_⟩
    rw [State.prtStart_done c hst]
    exact s.done_tells _ _ _ _
  case zeroised =>
    refine ⟨_, exec_zeroiseDone hz, ?_⟩
    have hpart : (s.zeroiseEnded p).part p =
        { s.part p with zeroising := false, zeroNs := (s.part p).zeroNs + (s.uptime - (s.part p).zeroStart) } := s.part_modPart p _
    have hzero : ((s.zeroiseEnded p).part p).zeroising = false := by rw [hpart]
    cases (s.part p).startPending with
    | true =>
      rw [if_pos rfl]
      refine ⟨State.startNow_zeroising hzero, fun _ hst hport => ?_, nofun⟩
      obtain ⟨⟨hrun, -⟩, -⟩ := State.startNow_runs (by rw [hpart]; exact hst) (by rw [hpart]; exact hport) hzero
      exact hrun
    | false =>
      rw [if_neg Bool.false_ne_true]
      exact ⟨hzero, nofun, fun _ => rfl⟩

/-! ## What a section leaves of the owner's stream -/

theorem State.setSites_kln (s : State) (sites : Vector SiteSt 64) : (s.setSites sites).kln = s.kln := by
  unfold State.setSites
  dsimp only
  split <;> rfl

theorem State.applySheet_kln (s : State) (body : List Byte) (entries : Nat) : (s.applySheet body entries).kln = s.kln := by
  unfold State.applySheet
  dsimp only
  rw [State.setSites_kln]

theorem State.removePart_kln (s : State) (p : Part) : (s.removePart p).kln = s.kln := by
  unfold State.removePart
  rw [(State.dropReads_calm _ _).kln, (State.modRepairs_calm _ _ _).kln, State.modPart_kln, (State.toBoth_calm _ _ _).kln,
    (State.doneAll_calm _ _ _ _).kln]

theorem State.pruneTables_kln (s : State) : s.pruneTables.kln = s.kln := rfl

theorem State.zeroise_kln (s old : State) : (s.zeroise old).kln = s.kln := by
  unfold State.zeroise
  refine State.foldl_unchanged State.kln _ (fun s p => ?_) _ _
  split
  · exact (State.arrive_calm _ _ _).kln
  · rfl

theorem State.ownerReach_kln (s : State) (had : Bool) : (s.ownerReach had).kln = s.kln := by
  unfold State.ownerReach
  split <;> rfl

theorem State.resolvePorts_kln (s : State) : s.resolvePorts.kln = s.kln := 
  State.foldl_unchanged State.kln _ (fun s p => s.modPart_kln p _) _ _

theorem State.applyFence_kln (s : State) (body : List Byte) (entries : Nat) : (s.applyFence body entries).kln = s.kln := by
  unfold State.applyFence
  dsimp only
  rw [State.ownerReach_kln, State.zeroise_kln, State.resolvePorts_kln]
  rw [State.foldl_unchanged State.kln, State.foldl_unchanged State.kln]
  · intro s p
    split
    · rw [State.pruneTables_kln, State.removePart_kln]
    · rfl
  · intro s p
    split
    · rfl
    · rfl

theorem State.spoilPlace_kln (s : State) (p : Part) (x : Place) : (s.spoilPlace p x).kln = s.kln := by
  unfold State.spoilPlace
  dsimp only
  rw [State.foldl_unchanged State.kln, State.foldl_unchanged State.kln] <;> intro s g <;> split <;> rfl

theorem State.applyPlace_kln (s : State) (p : Part) (body : List Byte) (entries : Nat) (tenant : Bool) :
    (s.applyPlace p body entries tenant).kln = s.kln :=
  State.foldl_unchanged State.kln _ (fun s x => s.spoilPlace_kln p x) _ _

/-- No section touches the stream that brings it. -/
theorem State.sectionEffect_kln (s : State) (tenant : Bool) (h body : List Byte) : (s.sectionEffect tenant h body).kln = s.kln := by
  unfold State.sectionEffect
  split
  · exact s.applySheet_kln body _
  · exact s.applyFence_kln body _
  · rfl
  · rfl
  · exact s.applyPlace_kln _ body _ _
  · rfl
  · rfl

theorem State.countSection_kln (s : State) (h : List Byte) : (s.countSection h).kln = s.kln := by
  have hcount (s : State) (p : Part) (b : Bool) :
      (if b then s.modPart p fun q => { q with sectionsSince := q.sectionsSince + 1 } else s).kln = s.kln := by
    cases b <;> rfl
  exact State.foldl_unchanged State.kln _ (fun s p => hcount s p _) _ _

theorem State.recordSection_kln (s : State) (h body : List Byte) : (s.recordSection h body).kln = s.kln := by
  unfold State.recordSection
  split <;> rfl

/-! ## Streams (R28, R44, R45) -/

theorem upd_upd {α : Type} {n : Nat} (v : Vector α n) (i : Fin n) (f g : α → α) : upd (upd v i f) i g = upd v i fun x => g (f x) := by
  rw [upd, upd_get_same, upd, upd, Vector.set_set]

theorem State.modPart_modPart (s : State) (p : Part) (f g : Partition → Partition) :
    (s.modPart p f).modPart p g = s.modPart p fun q => g (f q) :=
  congrArg (fun v => { s with parts := v }) (upd_upd s.parts p f g)

/-- The four bytes of a word of a load window, byte 0 first (R44). -/
def wordBytes (v : W32) : List Byte := [v.extractLsb' 0 8, v.extractLsb' 8 8, v.extractLsb' 16 8, v.extractLsb' 24 8]

theorem leBytes_word (v : W32) : leBytes 4 v.toNat = wordBytes v := by
  have hbyte (i : Nat) : v.extractLsb' i 8 = BitVec.ofNat 8 (v.toNat / 2 ^ i) := by
    apply BitVec.eq_of_toNat_eq
    rw [BitVec.extractLsb'_toNat, Nat.shiftRight_eq_div_pow, BitVec.toNat_ofNat]
  simp only [wordBytes, hbyte, leBytes, Nat.div_div_eq_div_mul]
  norm_num

section

variable {s : State} {t : Option Part}

@[simp] theorem State.stream_modStream (s : State) (t : Option Part) (f : KlnStream → KlnStream) :
    (s.modStream t f).stream t = f (s.stream t) := by
  cases t with
  | none => rfl
  | some p => exact congrArg Partition.kln (s.part_modPart p _)

theorem State.modStream_modStream (s : State) (t : Option Part) (f g : KlnStream → KlnStream) :
    (s.modStream t f).modStream t g = s.modStream t fun k => g (f k) := by
  cases t with
  | none => rfl
  | some p => exact s.modPart_modPart p _ _

/-- A stream takes bytes: no reset of its port has cut it, and `n` more are within LENGTH. -/
structure KlnStream.Takes (k : KlnStream) (n : Nat) : Prop where
  live : k.ignoring = false
  within : ∀ len, k.length = some len → k.received + n ≤ len

/-- Bytes taken that end nothing yet. -/
def KlnStream.more (bs : List Byte) (k : KlnStream) : KlnStream := { k with received := k.received + bs.length, buf := k.buf ++ bs }

/-- A stream that is cut ignores what it is brought (R53). -/
theorem State.takeBytes_ignored (h : (s.stream t).ignoring = true) : ∀ bs, s.takeBytes t bs = s
  | [] => rfl
  | b :: bs => by
    have hb : s.takeByte t b = s := if_pos (by rw [h]; rfl)
    rw [State.takeBytes, hb]
    exact State.takeBytes_ignored h bs

theorem KlnStream.Takes.le {k : KlnStream} {m n : Nat} (h : k.Takes n) (hm : m ≤ n) : k.Takes m :=
  ⟨h.live, fun len hlen => (Nat.add_le_add_left hm _).trans (h.within len hlen)⟩

theorem KlnStream.Takes.more {k : KlnStream} {m n : Nat} (bs : List Byte) (h : k.Takes m) (hm : m = bs.length + n) : (k.more bs).Takes n :=
  ⟨h.live, fun len hlen => by
    have hle := h.within len hlen
    simp only [KlnStream.more]
    omega⟩

theorem KlnStream.more_more (k : KlnStream) (b : Byte) (bs : List Byte) : (k.more [b]).more bs = k.more (b :: bs) := by
  simp [KlnStream.more, Nat.add_assoc, Nat.add_comm 1]

/-- A change of a stream is told by what it makes of the stream. -/
theorem State.modStream_congr {f g : KlnStream → KlnStream} (h : f (s.stream t) = g (s.stream t)) : s.modStream t f = s.modStream t g := by
  cases t with
  | none => exact congrArg (fun k => { s with kln := k }) h
  | some p =>
    have hset : upd s.parts p (fun q => { q with kln := f q.kln }) = upd s.parts p (fun q => { q with kln := g q.kln }) :=
      congrArg (fun k => s.parts.set p.val { s.parts.get p with kln := k } p.isLt) h
    exact congrArg (fun v => { s with parts := v }) hset

theorem State.modStream_id (s : State) (t : Option Part) : s.modStream t id = s := by
  cases t with
  | none => rfl
  | some p => exact congrArg (fun v => { s with parts := v }) (Vector.set_getElem_self p.isLt)

/-- A stream is taking a HEADER or the body of a section, of so many bytes (R26, R28). -/
def KlnStream.filling (k : KlnStream) (n : Nat) : Prop := k.phase = .header ∧ n = 32 ∨ ∃ h, k.phase = .body h ∧ n = secLen h

/-- A stream that takes a byte has no LENGTH yet, or is not past it. -/
theorem KlnStream.Takes.length_cases {k : KlnStream} (h : k.Takes 1) : k.length = none ∨ ∃ n, k.length = some n ∧ ¬n ≤ k.received := by
  cases hlen : k.length with
  | none => exact .inl rfl
  | some n => exact .inr ⟨n, rfl, Nat.not_le.2 (h.within n hlen)⟩

/-- A byte put behind those that a stream has. -/
theorem State.modStream_more (s : State) (t : Option Part) (b : Byte) :
    (s.modStream t fun k => { k with received := k.received + 1, buf := (s.stream t).buf ++ [b] }) = s.modStream t (KlnStream.more [b]) :=
  State.modStream_congr rfl

/-- A byte that does not end what the stream is taking is kept. -/
theorem State.takeByte_more {n : Nat} (b : Byte) (h : (s.stream t).Takes 1) (hf : (s.stream t).filling n)
    (hb : (s.stream t).buf.length + 1 < n) : s.takeByte t b = s.modStream t (KlnStream.more [b]) := by
  rcases h.length_cases with hn | ⟨m, hn, hm⟩ <;> rcases hf with ⟨hp, rfl⟩ | ⟨hdr, hp, rfl⟩ <;>
    simp [State.takeByte, State.modStream_more, h.live, *]

/-- The byte that ends the body of a section completes the section (R28). -/
theorem State.takeByte_body_end (b : Byte) {hdr : List Byte} (h : (s.stream t).Takes 1) (hp : (s.stream t).phase = .body hdr)
    (hb : (s.stream t).buf.length + 1 = secLen hdr) :
    s.takeByte t b = (s.modStream t (KlnStream.more [b])).takeSection t hdr ((s.stream t).buf ++ [b]) := by
  rcases h.length_cases with hn | ⟨m, hn, hm⟩ <;> simp [State.takeByte, State.modStream_more, h.live, *]

/-- Bytes that do not end what the stream is taking are kept, one after another. -/
theorem State.takeBytes_more {n : Nat} {bs : List Byte} (h : (s.stream t).Takes bs.length) (hf : (s.stream t).filling n)
    (hb : (s.stream t).buf.length + bs.length < n) : s.takeBytes t bs = s.modStream t (KlnStream.more bs) := by
  induction bs generalizing s with
  | nil => exact ((State.modStream_congr (by simp [KlnStream.more])).trans (s.modStream_id t)).symm
  | cons b bs ih =>
    rw [List.length_cons] at h hb
    rw [State.takeBytes, State.takeByte_more b (h.le (by omega)) hf (by omega), ih, State.modStream_modStream]
    · exact State.modStream_congr (KlnStream.more_more _ _ _)
    · rw [State.stream_modStream]; exact h.more [b] (Nat.add_comm _ _)
    · rw [State.stream_modStream]; exact hf
    · rw [State.stream_modStream, KlnStream.more, List.length_append, List.length_singleton]; omega

theorem State.takeBytes_append (s : State) (t : Option Part) (as bs : List Byte) :
    s.takeBytes t (as ++ bs) = (s.takeBytes t as).takeBytes t bs := by
  induction as generalizing s with
  | nil => rfl
  | cons a as ih => exact ih _

/-- The four bytes of a word counted (R44). -/
def KlnStream.counted (k : KlnStream) : KlnStream := { k with bytes := k.bytes + 4 }

theorem KlnStream.Takes.counted {k : KlnStream} {n : Nat} (h : k.Takes n) : k.counted.Takes n := ⟨h.live, h.within⟩

/-- A word that is ignored is only counted (R53). -/
theorem State.load_ignored (v : W32) (h : (s.stream t).ignoring = true) : s.load t v = s.modStream t KlnStream.counted :=
  State.takeBytes_ignored (by rw [State.stream_modStream]; exact h) _

/-- A word that does not end what the stream is taking is counted and kept, byte 0 first (R28, R44). -/
theorem State.load_more {n : Nat} (v : W32) (h : (s.stream t).Takes 4) (hf : (s.stream t).filling n)
    (hb : (s.stream t).buf.length + 4 < n) :
    s.load t v = s.modStream t fun k => { k with
      bytes := k.bytes + 4, received := k.received + 4, buf := k.buf ++ wordBytes v } := by
  show (s.modStream t KlnStream.counted).takeBytes t (leBytes 4 v.toNat) = _
  rw [leBytes_word, State.takeBytes_more (n := n), State.modStream_modStream]
  · rfl
  all_goals rw [State.stream_modStream]
  · exact h.counted
  · exact hf
  · exact hb

/-- So is a word of the HEADER before its last. -/
theorem State.load_header (v : W32) (hi : (s.stream t).ignoring = false) (hn : (s.stream t).length = none)
    (hp : (s.stream t).phase = .header) (hb : (s.stream t).buf.length < 28) :
    s.load t v = s.modStream t fun k => { k with
      bytes := k.bytes + 4, received := k.received + 4, buf := k.buf ++ wordBytes v } :=
  State.load_more v ⟨hi, fun _ h => nomatch hn.symm.trans h⟩ (.inl ⟨hp, rfl⟩) (Nat.add_lt_add_right hb 4)

/-- The word that ends the body of a section completes the section. -/
theorem State.load_body_end (v : W32) {hdr : List Byte} (h : (s.stream t).Takes 4) (hp : (s.stream t).phase = .body hdr)
    (hb : (s.stream t).buf.length + 4 = secLen hdr) :
    s.load t v = (s.modStream t fun k => { k with
      bytes := k.bytes + 4, received := k.received + 4, buf := k.buf ++ wordBytes v }).takeSection t hdr
        ((s.stream t).buf ++ wordBytes v) := by
  have hsplit : leBytes 4 v.toNat = [v.extractLsb' 0 8, v.extractLsb' 8 8, v.extractLsb' 16 8] ++ [v.extractLsb' 24 8] := leBytes_word v
  have hthree : (s.modStream t KlnStream.counted).takeBytes t [v.extractLsb' 0 8, v.extractLsb' 8 8, v.extractLsb' 16 8] =
      s.modStream t fun k => k.counted.more [v.extractLsb' 0 8, v.extractLsb' 8 8, v.extractLsb' 16 8] := by
    rw [State.takeBytes_more (n := secLen hdr), State.modStream_modStream] <;> rw [State.stream_modStream]
    · exact h.counted.le (by simp)
    · exact .inr ⟨hdr, hp, rfl⟩
    · exact lt_of_lt_of_eq (Nat.add_lt_add_left (by simp) _) hb
  show (s.modStream t KlnStream.counted).takeBytes t (leBytes 4 v.toNat) = _
  rw [hsplit, State.takeBytes_append, hthree, State.takeBytes, State.takeBytes, State.takeByte_body_end _ (hdr := hdr),
    State.modStream_modStream, State.stream_modStream]
  · simp [KlnStream.more, KlnStream.counted, wordBytes]
  all_goals rw [State.stream_modStream]
  · exact h.counted.more _ rfl
  · exact hp
  · simpa [KlnStream.more, KlnStream.counted] using hb

end

section

variable {s : State} {h body : List Byte}

/-- A section of the owner's stream whose gate is closed, with no padding behind it, is discarded (R29). The gate does not look at the
stream. -/
theorem State.takeSection_closed (k : KlnStream) (hpad : secLen h % 4 = 0) (hg : s.gate none h body = false) :
    ({ s with kln := k } : State).takeSection none h body = { s with kln := { k with phase := .sectionHeader, buf := [] } } := by
  have happly : ({ s with kln := { k with phase := .sectionHeader, buf := [] } } : State).applySection none h body = (_, false) :=
    if_neg (ne_of_eq_of_ne hg Bool.false_ne_true)
  simp [State.takeSection, State.modStream, hpad, happly]

/-- One whose gate is open is applied whole and counted (R28, R54, R358). -/
theorem State.takeSection_open (k : KlnStream) (hpad : secLen h % 4 = 0) (hg : s.gate none h body = true) :
    ({ s with kln := k } : State).takeSection none h body =
      let u : State := { s with kln := { k with phase := .sectionHeader, buf := [] } }
      { ((u.sectionEffect false h body).countSection h).recordSection h body with kln := { u.kln with sections := k.sections + 1 } } := by
  have happly : ({ s with kln := { k with phase := .sectionHeader, buf := [] } } : State).applySection none h body = (_, true) :=
    if_pos hg
  simp [State.takeSection, State.modStream, hpad, happly, State.recordSection_kln, State.countSection_kln, State.sectionEffect_kln]

end

/-- Settles O24: BEGIN and LOAD are changes of one stream, and the word that ends a body is `takeSection`. -/
theorem structureStreamsApply : Obligations.StructureStreamsApply := by
  unfold Obligations.StructureStreamsApply
  refine ⟨⟨fun s port hs => ?begins, fun s port p hs => ?tenantBegins, fun s port v hs => ?load, fun s port p v hs => ?tenantLoad⟩,
    fun s port v h n hs hi hp hn hr hpad hlen => ?body⟩
  case begins => exact congrArg Host.Outcome.next (if_pos hs)
  case tenantBegins => exact congrArg Host.Outcome.next (if_pos hs)
  case load =>
    rw [show exec (.klnLoad port v) s = .next (s.load none v) from congrArg Host.Outcome.next (if_pos hs)]
    exact ⟨fun hi => congrArg _ (State.load_ignored v hi), fun hi hn hp hb => congrArg _ (State.load_header v hi hn hp hb)⟩
  case tenantLoad =>
    rw [show exec (.prtKlnLoad port p v) s = .next (s.load (some p) v) from congrArg Host.Outcome.next (if_pos hs)]
    exact ⟨fun hi => congrArg _ (State.load_ignored v hi), fun hi hn hp hb => congrArg _ (State.load_header v hi hn hp hb)⟩
  case body =>
    have htakes : (s.stream none).Takes 4 := ⟨hi, fun m hm => Option.some.inj (hn.symm.trans hm) ▸ hr⟩
    have hload : s.load none v = ({ s with kln := { s.kln with
        bytes := s.kln.bytes + 4, received := s.kln.received + 4, buf := s.kln.buf ++ wordBytes v } } : State).takeSection none h
          (s.kln.buf ++ wordBytes v) := State.load_body_end v htakes hp hlen
    refine ⟨_, congrArg Host.Outcome.next (if_pos hs), fun hg => hload.trans (State.takeSection_closed _ hpad hg), fun hg => ?_⟩
    rw [hload.trans (State.takeSection_open _ hpad hg)]
    exact ⟨rfl, rfl⟩

end Sys2Proof.Machine

namespace Sys2Proof.Machine

/-! ## Queue subblocks -/

section

variable {s : State} {src : Src} {e : Fin 16} {q : Fin 64}

@[simp] theorem State.sub_modSub (s : State) (src : Src) (f : Subblock → Subblock) : (s.modSub src f).sub src = f (s.sub src) := by
  cases src with
  | owner => rfl
  | part p => exact congrArg Partition.sub (s.part_modPart p _)

@[simp] theorem State.sub_modEvq (s : State) (src : Src) (e : Fin 16) (f : EvQ → EvQ) :
    (s.modEvq src e f).sub src = { s.sub src with evq := upd (s.sub src).evq e f } := s.sub_modSub src _

@[simp] theorem State.sub_modCmdq (s : State) (src : Src) (q : Fin 64) (f : CmdQ → CmdQ) :
    (s.modCmdq src q f).sub src = { s.sub src with cmdq := upd (s.sub src).cmdq q f } := s.sub_modSub src _

@[simp] theorem State.modSub_out (s : State) (src : Src) (f : Subblock → Subblock) : (s.modSub src f).out = s.out := by cases src <;> rfl

@[simp] theorem State.modEvq_out (s : State) (src : Src) (e : Fin 16) (f : EvQ → EvQ) : (s.modEvq src e f).out = s.out := s.modSub_out _ _

@[simp] theorem State.modCmdq_out (s : State) (src : Src) (q : Fin 64) (f : CmdQ → CmdQ) : (s.modCmdq src q f).out = s.out := s.modSub_out _ _

@[simp] theorem State.taken_modSub (s : State) (src : Src) (f : Subblock → Subblock) : (s.modSub src f).taken src = s.taken src := by
  cases src with
  | owner => rfl
  | part p => exact (congrArg Partition.taken (s.part_modPart p _)).trans rfl

theorem State.taken_modTaken (s : State) (src : Src) (f : List Cmd → List Cmd) : (s.modTaken src f).taken src = f (s.taken src) := by
  cases src with
  | owner => rfl
  | part p => exact congrArg Partition.taken (s.part_modPart p _)

/-- Two changes of a subblock are one. -/
theorem State.modSub_modSub (s : State) (src : Src) (f g : Subblock → Subblock) :
    (s.modSub src f).modSub src g = s.modSub src fun b => g (f b) := by
  cases src with
  | owner => rfl
  | part p => exact s.modPart_modPart p _ _

/-- A change of a partition is what it makes of that partition. -/
theorem State.modPart_congr {p : Part} {f g : Partition → Partition} (h : f (s.part p) = g (s.part p)) : s.modPart p f = s.modPart p g := by
  rw [State.modPart, State.modPart, upd, upd, show f (s.parts.get p) = g (s.parts.get p) from h]

end

/-! ## Queue registers (R61, R63, R64) -/

/-- The field [hi:lo] of a register, as bits and as a number (R3). -/
theorem bitsOf_eq_extract (v : W32) (lo n : Nat) : bitsOf v (n + lo) lo = (v.extractLsb' lo (n + 1)).toNat := by
  rw [BitVec.extractLsb'_toNat, Nat.shiftRight_eq_div_pow, bitsOf, Nat.add_sub_cancel]

/-- What a doorbell does to its queue (R64). -/
theorem CmdQ.ring_eq (x : CmdQ) (tail : Nat) : x.ring tail =
    if x.cfg.getLsbD 31 = false then x else if tail < x.size then { x with tail := tail } else { x with badDoorbell := true } := by
  unfold CmdQ.ring CmdQ.enabled
  cases x.cfg.getLsbD 31 <;> rfl

/-- A doorbell rings the queue whose page its offset names (R61). -/
theorem exec_doorbell {s : State} {port : Port} {src : Src} {region : Nat} (q : Fin 64) (v : W32)
    (hsrc : s.doorbellSrc port region = some src) (hd : s.drives port src = true) :
    exec (.doorbell port (region * 0x40000 + q.val * 0x1000) v) s = .next (s.modCmdq src q fun x => x.ring (bitsOf v 11 0)) := by
  have hq := q.isLt
  have hregion : (region * 0x40000 + q.val * 0x1000) / 0x40000 = region := by omega
  have hpage : (region * 0x40000 + q.val * 0x1000) % 0x1000 = 0 := by omega
  have hqueue : Fin.ofNat 64 ((region * 0x40000 + q.val * 0x1000) % 0x40000 / 0x1000) = q :=
    Fin.ext (by rw [Fin.val_ofNat]; omega)
  show Host.Outcome.next _ = _
  rw [hregion, hsrc]
  dsimp only
  rw [if_pos ⟨hd, hpage⟩, hqueue]

/-- The fields of CMDQ_CFG are stored, and the head and the tail are 0 where ENABLE rises (R63). -/
theorem CmdQ.configure_eq (x : CmdQ) (v : W32) : x.configure v = { x with
    cfg := v &&& 0x800F0F0F
    head := if v.getLsbD 31 = true ∧ x.cfg.getLsbD 31 = false then 0 else x.head
    tail := if v.getLsbD 31 = true ∧ x.cfg.getLsbD 31 = false then 0 else x.tail } := by
  have hv : (v &&& 0x800F0F0F).getLsbD 31 = v.getLsbD 31 := by simp
  unfold CmdQ.configure CmdQ.enabled
  dsimp only
  rw [hv]
  cases v.getLsbD 31 <;> cases x.cfg.getLsbD 31 <;> rfl

/-! ## Commands fetched (R47, R64, R65) -/

/-- The state in which a fetch has taken its turn and consumed an entry (R65). -/
def State.entryTaken (s : State) (src : Src) (q : Fin 64) (left : Nat) (e : List Byte) : State :=
  (s.modSub src fun b => { b with turn := some (q, left) }).consumeEntry src q e

/-- A fetch that brings an entry consumes it: from a RUNNING partition any, from a STOPPED one only a `PRT_START` (R47). -/
theorem exec_commandFetch_ok {s : State} {src : Src} {bytes : List Byte} {q : Fin 64} {left : Nat} {every : Bool}
    (hf : s.fetches src = some every) (ht : (s.sub src).nextTurn = some (q, left)) (hl : bytes.length = 64)
    (ho : every = true ∨ bytes.head? = some 0x41) :
    exec (.commandFetch src (.ok bytes)) s = .next (s.entryTaken src q (if every then left else 0) bytes) := by
  have hop : every = true ∨ field bytes 0 1 = 0x41 := by
    refine ho.imp id fun h => ?_
    obtain ⟨l, rfl⟩ := List.head?_eq_some_iff.1 h
    rfl
  show Host.Outcome.next _ = _
  rw [hf, ht]
  dsimp only
  rw [if_neg (not_not.2 hl), if_pos hop]
  rfl

/-- The failures of a fetch, as CMDQ_ERROR numbers them (R64). -/
def fetchFailure : ReadResult → Nat
  | .poisoned => 1
  | .unsuccessful => 2
  | _ => 0

/-- A fetch that fails takes its turn, and is told (R64). -/
theorem exec_commandFetch_failed {s : State} {src : Src} {r : ReadResult} {q : Fin 64} {left : Nat} {every : Bool}
    (hf : s.fetches src = some every) (ht : (s.sub src).nextTurn = some (q, left))
    (hr : r ∈ [ReadResult.timeout, .poisoned, .unsuccessful]) : exec (.commandFetch src r) s =
      .next ((s.modSub src fun b => { b with turn := some (q, if every then left else 0) }).fetchFailed src q (fetchFailure r)) := by
  show Host.Outcome.next _ = _
  rw [hf, ht]
  simp only [List.mem_cons, List.not_mem_nil, or_false] at hr
  rcases hr with rfl | rfl | rfl <;> rfl

/-- Records change the event queues of a subblock alone, and no command taken. -/
theorem State.Tells.sub {s t : State} (h : State.Tells s t) (src : Src) :
    t.sub src = { s.sub src with evq := (t.sub src).evq } ∧ t.taken src = s.taken src := by
  cases src with
  | owner => exact ⟨h.owner, h.eq (·.ownerTaken) fun _ _ _ _ _ => rfl⟩
  | part p => exact ⟨congrArg Partition.sub (h.parts p), (congrArg Partition.taken (h.parts p)).trans rfl⟩

/-- A fetch that fails sets ERROR of its queue, and consumes nothing (R64). -/
theorem State.fetchFailed_cmdq (s : State) (src : Src) (q : Fin 64) (b : Nat) :
    ((s.fetchFailed src q b).sub src).cmdq.get q = { (s.sub src).cmdq.get q with error := true } ∧
      (s.fetchFailed src q b).taken src = s.taken src := by
  obtain ⟨hsub, htaken⟩ := (State.toSrc_tells (.refl (s.modCmdq src q fun x => { x with error := true })) src
    ((s.sub src).cmdq.get q).evq { code := 0x7021, sev := 1, a := q.val, b := b }).sub src
  unfold State.fetchFailed
  dsimp only
  rw [htaken, hsub, s.sub_modCmdq, State.modCmdq, s.taken_modSub]
  exact ⟨upd_get_same _ _ _, rfl⟩

/-- Settles O19: a doorbell is `CmdQ.ring`, a write of CMDQ_CFG `CmdQ.configure`, a fetch `consumeEntry` or `fetchFailed`, and an opcode
that is none `done`. -/
theorem commandsReachTheModule : Obligations.CommandsReachTheModule := by
  unfold Obligations.CommandsReachTheModule
  refine ⟨⟨fun s port src q region v hsrc hd => ?doorbell, fun s port src q v hd => ?configure⟩,
    fun s p bytes q left every hf ht hl ho => ?part,
    fun s bytes q left hf ht hl => ?owner, fun s src q left every hf ht r hr => ?failed, fun s src c hc => ?bad⟩
  case doorbell =>
    rw [exec_doorbell q v hsrc hd, bitsOf_eq_extract v 0 11]
    simp only [CmdQ.ring_eq]
  case configure =>
    refine ⟨_, congrArg Host.Outcome.next (if_pos hd), ?_⟩
    simp only [State.sub_modCmdq, upd_get_same, CmdQ.configure_eq, State.modCmdq_out, true_and, and_true]
    refine ⟨fun hv hx => ?_, fun hno => ?_, fun i hi => upd_get_other _ _ _ _ hi⟩
    · simp only [if_pos (And.intro hv hx), and_self]
    · have hstays : ¬(v.getLsbD 31 = true ∧ ((s.sub src).cmdq.get q).cfg.getLsbD 31 = false) := fun ⟨hv, hx⟩ =>
        hno.elim (fun h => absurd (hv.symm.trans h) nofun) fun h => absurd (hx.symm.trans h) nofun
      simp only [if_neg hstays, and_self]
  case part =>
    refine ⟨_, exec_commandFetch_ok hf ht hl ho, ?_⟩
    unfold State.entryTaken State.consumeEntry State.modCmdq State.modSub
    simp only [State.modPart_modPart, State.part_modPart, upd_get_same, true_and]
    exact State.modPart_congr rfl
  case owner => exact ⟨_, exec_commandFetch_ok hf ht hl (.inl rfl), rfl, rfl⟩
  case failed =>
    refine ⟨_, exec_commandFetch_failed hf ht hr, ?_⟩
    obtain ⟨hcmdq, htaken⟩ := (s.modSub src fun b => { b with turn := some (q, if every then left else 0) }).fetchFailed_cmdq src q (fetchFailure r)
    rw [hcmdq, htaken, s.sub_modSub, s.taken_modSub]
    exact ⟨rfl, rfl, rfl⟩
  case bad =>
    have htells := s.done_tells src c stBadOpcode 0
    refine ⟨_, congrArg Host.Outcome.next (congrArg (fun o : Option Cmd => match o with
      | some c => s.done src c stBadOpcode
      | none => s) hc), ?_, htells⟩
    rw [(htells.sub src).2]
    exact s.taken_modTaken src _

end Sys2Proof.Machine

namespace Sys2Proof.Machine

/-! ## Bytes of records (R3, R69, R74) -/

@[simp] theorem length_leBytes (n v : Nat) : (leBytes n v).length = n := by
  induction n generalizing v with
  | zero => rfl
  | succ n ih => exact congrArg (· + 1) (ih _)

/-- The bytes of a number, read back (R3). -/
theorem leNat_leBytes (n v : Nat) : leNat (leBytes n v) = v % 256 ^ n := by
  induction n generalizing v with
  | zero => simp [leBytes, leNat, Nat.mod_one]
  | succ n ih =>
    rw [leBytes, leNat, ih, BitVec.toNat_ofNat, Nat.pow_succ' (m := 256), Nat.mod_mul (a := 256)]

theorem field_append_left {as bs : List Byte} {o n : Nat} (h : o + n ≤ as.length) : field (as ++ bs) o n = field as o n := by
  rw [field, field, List.drop_append_of_le_length (by omega), List.take_append_of_le_length (by rw [List.length_drop]; omega)]

theorem field_append_right {as bs : List Byte} {o n : Nat} (h : as.length ≤ o) : field (as ++ bs) o n = field bs (o - as.length) n := by
  rw [field, field, List.drop_append, List.drop_eq_nil_of_le h, List.nil_append]

@[simp] theorem field_leBytes (n v : Nat) : field (leBytes n v) 0 n = v % 256 ^ n := by
  rw [field, List.drop_zero, List.take_of_length_le (length_leBytes n v).le, leNat_leBytes]

theorem field_cons_zero (b : Byte) (bs : List Byte) : field (b :: bs) 0 1 = b.toNat := by simp [field, leNat]

theorem field_cons_succ (b : Byte) (bs : List Byte) (o n : Nat) : field (b :: bs) (o + 1) n = field bs o n := rfl

/-- An event record in host memory: 32 bytes, its fields where R69 puts them. -/
theorem EventRec.bytes_fields (r : EventRec) (phase : Bool) : (r.bytes phase).length = 32 ∧
    field (r.bytes phase) 0 2 = r.code % 2 ^ 15 + (if phase then 2 ^ 15 else 0) ∧
    field (r.bytes phase) 2 1 = r.severity % 16 + r.code / 2 ^ 12 % 8 * 16 ∧ field (r.bytes phase) 3 1 = r.partition % 256 ∧
    field (r.bytes phase) 4 4 = r.request.toNat ∧ field (r.bytes phase) 8 8 = r.time % 2 ^ 64 ∧
    field (r.bytes phase) 16 8 = r.a.toNat ∧ field (r.bytes phase) 24 8 = r.b.toNat := by
  have hcode : (r.code % 2 ^ 15 + if phase then 2 ^ 15 else 0) < 256 ^ 2 := by split <;> omega
  have hsev : r.severity % 16 + r.code / 2 ^ 12 % 8 * 16 < 256 := by omega
  unfold EventRec.bytes
  simp [field_append_left, field_append_right, field_cons_zero, field_cons_succ]
  exact ⟨hcode, hsev, r.request.isLt, r.a.isLt, r.b.isLt⟩

/-- An output record in host memory: 8 bytes, its fields where R74 puts them. -/
theorem OutputRec.bytes_fields (r : OutputRec) : r.bytes.length = 8 ∧ field r.bytes 0 4 = r.token.toNat ∧
    field r.bytes 4 2 = r.logprob.toNat ∧ field r.bytes 7 1 = r.step.toNat ∧
    field r.bytes 6 1 = (if r.phase then 128 else 0) + (if r.isEnd then 1 else 0) + (if r.deadlineMissed then 2 else 0) +
      (if r.drafted then 4 else 0) := by
  have hflags : ((if r.phase then 128 else 0) + (if r.isEnd then 1 else 0) + (if r.deadlineMissed then 2 else 0) +
      (if r.drafted then 4 else 0)) < 256 := by
    split <;> split <;> split <;> split <;> decide
  unfold OutputRec.bytes
  simp [field_append_left, field_append_right, field_cons_zero, field_cons_succ, Nat.mod_eq_of_lt hflags]
  exact ⟨r.token.isLt, r.logprob.isLt⟩

/-! ## Records written (R69-R73) -/

section

variable {s : State} {p : Port} {src : Src} {e : Fin 16}

/-- What a change of one partition leaves alone of every partition. -/
theorem State.part_modPart_eq {α : Type} (g : Partition → α) (s : State) (p : Part) (f : Partition → Partition)
    (hf : ∀ q, g (f q) = g q) (i : Part) : g ((s.modPart p f).part i) = g (s.part i) := by
  by_cases hi : i = p
  · rw [hi, State.part_modPart, hf]
  · rw [State.part_modPart_other _ _ _ _ hi]

/-- Which port takes records does not depend on the queues. -/
@[simp] theorem State.takesRecords_modSub (s : State) (src : Src) (f : Subblock → Subblock) (i : Port) :
    (s.modSub src f).takesRecords i = s.takesRecords i := by
  cases src with
  | owner => rfl
  | part p =>
    have hpart (q : Part) := s.part_modPart_eq (fun x => x.flrPending && x.port == some i) p (fun q => { q with sub := f q.sub }) (fun _ => rfl) q
    exact congrArg (fun b : Part → Bool => s.portLive i && !allParts.any b) (funext hpart)

@[simp] theorem State.takesRecords_modEvq (s : State) (src : Src) (e : Fin 16) (f : EvQ → EvQ) (i : Port) :
    (s.modEvq src e f).takesRecords i = s.takesRecords i := s.takesRecords_modSub src _ i

@[simp] theorem State.srcPort_modEvq (s : State) (src : Src) (e : Fin 16) (f : EvQ → EvQ) : (s.modEvq src e f).srcPort src = s.srcPort src := by
  cases src with
  | owner => rfl
  | part p => exact s.part_modPart_eq (·.port) p (fun q => { q with sub := { q.sub with evq := upd q.sub.evq e f } }) (fun _ => rfl) p

theorem State.sub_sendOn (s : State) (i : Port) (o : Out) (src : Src) : (s.sendOn i o).sub src = s.sub src := by
  unfold State.sendOn
  split <;> cases src <;> rfl

theorem State.sub_raise (s : State) (i : Port) (v : Fin 256) (src : Src) : (s.raise i v).sub src = s.sub src := by
  unfold State.raise
  dsimp only
  split
  · cases src <;> rfl
  · exact s.sub_sendOn i _ src

/-- An interrupt changes of its subblock how many records are pending, and nothing else. -/
theorem State.interrupt_evq (s : State) (src : Src) (e : Fin 16) : ∃ n,
    ((s.interrupt src e).sub src).evq.get e = { (s.sub src).evq.get e with pending := n } := by
  unfold State.interrupt
  split
  · exact ⟨_, rfl⟩
  · exact ⟨0, by rw [State.sub_raise, State.sub_modEvq, upd_get_same]⟩

/-- An interrupt on a vector that is not masked is a message, and no record is pending (R73, R405). -/
theorem State.interrupt_unmasked (hp : s.srcPort src = some p) (ht : s.takesRecords p = true)
    (hm : ((s.port p).msix.get ((s.sub src).evq.get e).vector).ctrl.getLsbD 0 = false) :
    s.interrupt src e = (s.modEvq src e fun q => { q with pending := 0 }).send (.msix p ((s.sub src).evq.get e).vector.val) := by
  have hport : (s.modEvq src e fun q => { q with pending := 0 }).port p = s.port p := by cases src <;> rfl
  unfold State.interrupt
  rw [hp]
  dsimp only
  rw [State.raise, hport, hm, if_neg Bool.false_ne_true, State.sendOn, State.takesRecords_modEvq, ht, if_pos rfl]

/-- An event queue after a record in the slot at its tail, before the interrupt that it causes (R70, R73). -/
def EvQ.recorded (q : EvQ) (now : Time) : EvQ :=
  let tail := if q.tail + 1 < q.size then q.tail + 1 else 0
  { q with
    tail := tail
    phase := if q.tail + 1 < q.size then q.phase else !q.phase
    full := decide (tail = q.head)
    pending := q.pending + 1
    oldest := if q.pending = 0 then now else q.oldest }

/-- The interrupt that may follow a record sends no more than its message, and changes of the queue how many records are pending. -/
theorem State.interrupt_if (u : State) (src : Src) (e : Fin 16) (b : Bool) :
    (∃ n, ((if b then u.interrupt src e else u).sub src).evq.get e = { (u.sub src).evq.get e with pending := n }) ∧
      u.out <+: (if b then u.interrupt src e else u).out := by
  cases b with
  | true => exact ⟨u.interrupt_evq src e, (State.interrupt_tells (.refl u) src e).out⟩
  | false => exact ⟨⟨_, rfl⟩, List.prefix_rfl⟩

/-- A record that the port of its queue takes goes into the slot at the tail, with the queue's phase, and the tail moves on (R69, R70). -/
theorem State.putRecord_evq (hp : s.srcPort src = some p) (ht : s.takesRecords p = true) (r : EventRec) :
    (∃ n, ((s.putRecord src e r).sub src).evq.get e = { ((s.sub src).evq.get e).recorded s.uptime with pending := n }) ∧
      (s.out ++ [.event p src e.val ((s.sub src).evq.get e).tail ((s.sub src).evq.get e).slotAddr ((s.sub src).evq.get e).phase r]) <+:
        (s.putRecord src e r).out := by
  unfold State.putRecord
  rw [hp]
  dsimp only
  rw [if_pos ht]
  obtain ⟨⟨n, hn⟩, hout⟩ := State.interrupt_if ((s.send (.event p src e.val ((s.sub src).evq.get e).tail ((s.sub src).evq.get e).slotAddr
    ((s.sub src).evq.get e).phase r)).modEvq src e fun _ => ((s.sub src).evq.get e).recorded s.uptime) src e
    ((((s.sub src).evq.get e).recorded s.uptime).due (r.code == 0x7023 || decide (4 ≤ r.severity)))
  rw [State.sub_modEvq, upd_get_same] at hn
  rw [State.modEvq_out] at hout
  exact ⟨⟨n, hn⟩, hout⟩

theorem State.resumeEvq_stays (ho : ((s.sub src).evq.get e).overflow = none) : s.resumeEvq src e = s := by
  unfold State.resumeEvq
  dsimp only
  rw [ho]

theorem State.resumeEvq_short {x : Nat × Time} (ho : ((s.sub src).evq.get e).overflow = some x)
    (hroom : ¬((s.sub src).evq.get e).used + 2 ≤ ((s.sub src).evq.get e).size) : s.resumeEvq src e = s := by
  unfold State.resumeEvq
  dsimp only
  rw [ho]
  exact if_neg hroom

theorem State.resumeEvq_room {n m : Nat} (ho : ((s.sub src).evq.get e).overflow = some (n, m))
    (hroom : ((s.sub src).evq.get e).used + 2 ≤ ((s.sub src).evq.get e).size) : s.resumeEvq src e =
      (s.modEvq src e fun q => { q with overflow := none }).putRecord src e (s.ownRecord src 0x7024 n m) := by
  unfold State.resumeEvq
  dsimp only
  rw [ho]
  exact if_pos hroom

/-- The end of an overflow writes `EVENTS_DROPPED` once two slots are free (R72 step 3). -/
theorem State.resumeEvq_evq (hp : s.srcPort src = some p) (ht : s.takesRecords p = true) {n m : Nat}
    (ho : ((s.sub src).evq.get e).overflow = some (n, m)) (hroom : ((s.sub src).evq.get e).used + 2 ≤ ((s.sub src).evq.get e).size) :
    (∃ k, ((s.resumeEvq src e).sub src).evq.get e =
      { { (s.sub src).evq.get e with overflow := none }.recorded s.uptime with pending := k }) ∧
      (s.out ++ [.event p src e.val ((s.sub src).evq.get e).tail ((s.sub src).evq.get e).slotAddr ((s.sub src).evq.get e).phase
        (s.ownRecord src 0x7024 n m)]) <+: (s.resumeEvq src e).out := by
  have hu := State.putRecord_evq (s := s.modEvq src e fun q => { q with overflow := none }) (e := e)
    (by rw [State.srcPort_modEvq, hp]) (by rw [State.takesRecords_modEvq, ht]) (s.ownRecord src 0x7024 n m)
  rw [State.sub_modEvq, upd_get_same, State.modEvq_out,
    show (s.modEvq src e fun q => { q with overflow := none }).uptime = s.uptime by cases src <;> rfl] at hu
  rw [State.resumeEvq_room ho hroom]
  exact hu

/-- Consumption of a queue that may end its overflow leaves the head where it is (R72). -/
theorem State.resumeEvq_head (hp : s.srcPort src = some p) (ht : s.takesRecords p = true) :
    (((s.resumeEvq src e).sub src).evq.get e).head = ((s.sub src).evq.get e).head := by
  cases ho : ((s.sub src).evq.get e).overflow with
  | none => rw [State.resumeEvq_stays ho]
  | some x =>
    by_cases hroom : ((s.sub src).evq.get e).used + 2 ≤ ((s.sub src).evq.get e).size
    · obtain ⟨⟨k, hk⟩, -⟩ := State.resumeEvq_evq hp ht ho hroom
      rw [hk]
      rfl
    · rw [State.resumeEvq_short ho hroom]

/-- A record that finds room in an enabled queue is put into it (R71, R72). -/
theorem State.toEvq_room (he : ((s.sub src).evq.get e).cfg.getLsbD 31 = true) (ho : ((s.sub src).evq.get e).overflow = none)
    (hroom : ((s.sub src).evq.get e).used + 1 < ((s.sub src).evq.get e).size) (r : EventRec) : s.toEvq src e r = s.putRecord src e r := by
  unfold State.toEvq EvQ.enabled
  dsimp only
  rw [he, ho]
  exact if_pos hroom

/-- One that finds the last slot alone free is dropped, with `EVQ_OVERFLOW` in its place (R72 step 1). -/
theorem State.toEvq_full (he : ((s.sub src).evq.get e).cfg.getLsbD 31 = true) (ho : ((s.sub src).evq.get e).overflow = none)
    (hroom : ((s.sub src).evq.get e).size ≤ ((s.sub src).evq.get e).used + 1) (r : EventRec) : s.toEvq src e r =
      (s.putRecord src e (s.ownRecord src 0x7023 e.val r.code)).modEvq src e fun q =>
        { q with dropped := satAdd q.dropped 1, overflow := some (1, s.now) } := by
  unfold State.toEvq EvQ.enabled
  dsimp only
  rw [he, ho]
  exact if_neg (Nat.not_lt.2 hroom)

/-- One that finds an overflow in force is dropped and counted (R72 step 2). -/
theorem State.toEvq_overflow (he : ((s.sub src).evq.get e).cfg.getLsbD 31 = true) {n m : Nat}
    (ho : ((s.sub src).evq.get e).overflow = some (n, m)) (r : EventRec) : s.toEvq src e r =
      s.modEvq src e fun q => { q with dropped := satAdd q.dropped 1, overflow := some (n + 1, m) } := by
  unfold State.toEvq EvQ.enabled
  dsimp only
  rw [he, ho]
  rfl

/-- One for a queue that is not enabled is counted (R71). -/
theorem State.toEvq_disabled (he : ((s.sub src).evq.get e).cfg.getLsbD 31 = false) (r : EventRec) : s.toEvq src e r =
    s.modEvq src e fun q => { q with dropped := satAdd q.dropped 1 } := by
  unfold State.toEvq EvQ.enabled
  dsimp only
  rw [he]
  rfl

/-- ENABLE rising starts an event queue anew, with phase 1 (R63, R70). -/
theorem EvQ.configure_rises {q : EvQ} {v : W32} (hv : v.getLsbD 31 = true) (hq : q.cfg.getLsbD 31 = false) :
    q.configure v = { q with cfg := v &&& 0x8000000F, head := 0, tail := 0, dropped := 0, phase := true, overflow := none, full := false
                             pending := 0 } := by
  have hcfg : (v &&& 0x8000000F).getLsbD 31 = true := by simp [hv]
  unfold EvQ.configure EvQ.enabled
  dsimp only
  rw [hcfg, hq]
  rfl

end

/-- Settles O20: what a record makes of its queue is `EvQ.recorded`, and what it is in host memory stands in `EventRec.bytes_fields` and
`OutputRec.bytes_fields`. -/
theorem phaseInvertsOnWrap : Obligations.PhaseInvertsOnWrap := by
  unfold Obligations.PhaseInvertsOnWrap
  refine ⟨⟨fun s port src e v hd hv hq => ?enable, fun s port src e r hp ht => ?record⟩, EventRec.bytes_fields, OutputRec.bytes_fields,
    fun s port src e r hp ht => ⟨_, (State.putRecord_evq hp ht r).2, rfl⟩⟩
  case enable =>
    refine ⟨_, congrArg Host.Outcome.next (if_pos hd), ?_⟩
    rw [State.sub_modEvq, State.modEvq_out]
    dsimp only
    rw [upd_get_same, EvQ.configure_rises hv hq]
    exact ⟨rfl, rfl, rfl, rfl, fun i hi => upd_get_other _ _ _ _ hi, rfl⟩
  case record =>
    obtain ⟨⟨n, hn⟩, hout⟩ := State.putRecord_evq (e := e) hp ht r
    dsimp only
    rw [hn]
    refine ⟨hout, fun h => ?_, fun h => ?_⟩
    · exact ⟨if_pos h, if_pos h⟩
    · exact ⟨if_neg (Nat.not_lt.2 h), if_neg (Nat.not_lt.2 h)⟩

/-- Only the clocks move when an event brings the own oscillator forward. -/
theorem State.passTo_eq (s : State) (t : Time) :
    s.passTo t = { s with uptime := (s.passTo t).uptime, ringTime := (s.passTo t).ringTime, ring := (s.passTo t).ring } := by
  unfold State.passTo State.pass
  split <;> rfl

/-- Pending records are told by one interrupt when TIME has passed since the oldest (R73). -/
theorem exec_evqCoalesceTimeout {s : State} {src : Src} {e : Fin 16} {port : Port} (hp : s.srcPort src = some port)
    (ht : s.takesRecords port = true) (hi : ((s.sub src).evq.get e).irq.getLsbD 31 = true) (hn : 0 < ((s.sub src).evq.get e).pending)
    (hm : ((s.port port).msix.get ((s.sub src).evq.get e).vector).ctrl.getLsbD 0 = false) :
    exec (.evqCoalesceTimeout src e) s = .next (((s.passTo ((s.sub src).evq.get e).coalesceEnd).modEvq src e fun q =>
      { q with pending := 0 }).send (.msix port ((s.sub src).evq.get e).vector.val)) := by
  have hexec : exec (.evqCoalesceTimeout src e) s = .next ((s.passTo ((s.sub src).evq.get e).coalesceEnd).interrupt src e) :=
    congrArg Host.Outcome.next (if_pos ⟨hi, hn⟩)
  have heq := s.passTo_eq ((s.sub src).evq.get e).coalesceEnd
  generalize s.passTo ((s.sub src).evq.get e).coalesceEnd = u at hexec heq ⊢
  have hsub : u.sub src = s.sub src := by rw [heq]; cases src <;> rfl
  have hport : u.port port = s.port port := by rw [heq]; rfl
  rw [hexec, State.interrupt_unmasked (p := port) (by rw [heq]; cases src <;> exact hp) (by rw [heq]; exact ht) (by rw [hsub, hport]; exact hm),
    hsub]

/-- A write of EVQ_HEAD within the queue consumes (R63, R72). -/
theorem EvQ.consume_within {q : EvQ} {v : W32} (h : (v.extractLsb' 0 16).toNat < q.size) :
    q.consume (bitsOf v 15 0) = { q with head := (v.extractLsb' 0 16).toNat, full := false } := by
  rw [bitsOf_eq_extract v 0 15]
  exact if_pos h

/-- `MSIX_UNMASK` clears the mask of a vector and what was pending, which is sent (R405). -/
theorem exec_msixUnmask {s : State} {port : Port} (v : Fin 256) (hx : s.hasMsix port = true) (ht : s.takesRecords port = true) :
    exec (.msixUnmask port v) s = .next
      (let u := s.modPort port fun x => { x with msix := upd x.msix v fun e => { e with ctrl := 0, pending := false } }
       if ((s.port port).msix.get v).pending then u.send (.msix port v.val) else u) := by
  have ht' : (s.modPort port fun x => { x with msix := upd x.msix v fun e => { e with ctrl := 0, pending := false } }).takesRecords port =
      true := by
    rw [← ht, State.takesRecords, State.portLive, State.port_modPort]
    rfl
  show Host.Outcome.next _ = _
  rw [if_pos hx]
  dsimp only
  split
  · rw [State.sendOn, if_pos ht']
  · rfl

/-- Settles O21: `toEvq` by the state of its queue, `resumeEvq` after a consumption, and the interrupts of R73. -/
theorem eventQueuesFillAndDrain : Obligations.EventQueuesFillAndDrain := by
  unfold Obligations.EventQueuesFillAndDrain
  refine ⟨fun s port src e r hp ht => ⟨fun he => ?disabled, fun he ho hroom => ?room, fun he ho hroom => ?full, fun n m he ho => ?overflow⟩,
    fun s port p src e v hd hv hp ht => ?consume, fun s port src e hp ht hi hn hm => ?coalesce, fun s port v hx ht => ?unmask⟩
  case disabled =>
    rw [State.toEvq_disabled he, State.sub_modEvq, State.modEvq_out]
    exact ⟨upd_get_same _ _ _, rfl⟩
  case room =>
    obtain ⟨⟨n, hn⟩, hout⟩ := State.putRecord_evq (e := e) hp ht r
    rw [State.toEvq_room he ho hroom, hn]
    exact ⟨ho, rfl, hout⟩
  case full =>
    obtain ⟨⟨n, hn⟩, hout⟩ := State.putRecord_evq (e := e) hp ht (s.ownRecord src 0x7023 e.val r.code)
    rw [State.toEvq_full he ho hroom, State.sub_modEvq, State.modEvq_out]
    dsimp only
    rw [upd_get_same, hn]
    exact ⟨rfl, rfl, hout⟩
  case overflow =>
    rw [State.toEvq_overflow he ho, State.sub_modEvq, State.modEvq_out]
    exact ⟨upd_get_same _ _ _, rfl⟩
  case consume =>
    have hq : ((s.modEvq src e fun x => x.consume (bitsOf v 15 0)).sub src).evq.get e =
        { (s.sub src).evq.get e with head := (v.extractLsb' 0 16).toNat, full := false } := by
      rw [State.sub_modEvq, upd_get_same, EvQ.consume_within hv]
    have hp' : (s.modEvq src e fun x => x.consume (bitsOf v 15 0)).srcPort src = some p := by rw [State.srcPort_modEvq, hp]
    have ht' : (s.modEvq src e fun x => x.consume (bitsOf v 15 0)).takesRecords p = true := by rw [State.takesRecords_modEvq, ht]
    refine ⟨_, congrArg Host.Outcome.next (if_pos hd), ?_, fun ho => ?_, fun n m ho hroom => ?_⟩
    · rw [State.resumeEvq_head hp' ht', hq]
    · rw [State.resumeEvq_stays (by rw [hq]; exact ho), State.modEvq_out]
    · obtain ⟨⟨k, hk⟩, hout⟩ := State.resumeEvq_evq hp' ht' (by rw [hq]; exact ho) (by rw [hq]; exact hroom)
      rw [hq, State.modEvq_out, show (s.modEvq src e fun x => x.consume (bitsOf v 15 0)).ownRecord src 0x7024 n m = s.ownRecord src 0x7024 n m by
        cases src <;> rfl] at hout
      rw [hk]
      exact ⟨rfl, hout⟩
  case coalesce =>
    have hout : ((s.passTo ((s.sub src).evq.get e).coalesceEnd).modEvq src e fun q => { q with pending := 0 }).out = s.out := by
      rw [State.modEvq_out, State.passTo_eq]
    rw [exec_evqCoalesceTimeout hp ht hi hn hm, State.send, hout]
    rfl
  case unmask =>
    refine ⟨_, exec_msixUnmask v hx ht, ?_⟩
    dsimp only
    cases ((s.port port).msix.get v).pending with
    | true =>
      simp only [if_true, State.send_port, State.port_modPort, upd_get_same, State.send_out, State.modPort_out, true_and]
      exact ⟨fun u hu => upd_get_other _ _ _ _ hu, fun i hi => State.port_modPort_other _ _ _ _ hi⟩
    | false =>
      simp only [Bool.false_eq_true, if_false, State.port_modPort, upd_get_same, State.modPort_out, true_and]
      exact ⟨fun u hu => upd_get_other _ _ _ _ hu, fun i hi => State.port_modPort_other _ _ _ _ hi⟩

end Sys2Proof.Machine

namespace Sys2Proof.Machine

/-! ## Reads of host memory (R56, R58, R75) -/

section

variable {s u : State} {port : Port} {tag : Nat} {r : HostRead} {p : Part} {c : Cmd}

/-- Where no read waits for room, none goes out. -/
theorem State.pumpReads_of_sent (h : ∀ x ∈ s.reads, x.sent = true) (i : Port) : s.pumpReads i = s := by
  have hnone : (s.reads.filter fun r => r.port == i && !r.sent) = [] := List.filter_eq_nil_iff.2 fun x hx => by simp [h x hx]
  rw [State.pumpReads, hnone, List.foldl_nil]

/-- Reads that leave, where none waits for room, leave and no more. -/
theorem State.dropReads_of_sent (h : ∀ x ∈ s.reads, x.sent = true) (gone : HostRead → Bool) :
    s.dropReads gone = { s with reads := s.reads.filter fun r => !gone r } := by
  have hsent (x : HostRead) (hx : x ∈ ({ s with reads := s.reads.filter fun r => !gone r } : State).reads) : x.sent = true :=
    h x (List.mem_filter.1 hx).1
  exact List.foldl_fixed' (State.pumpReads_of_sent hsent) _

/-- The state without the read of a port and a tag. -/
def State.readGone (s : State) (port : Port) (tag : Nat) : State :=
  { s with reads := s.reads.filter fun r => !(r.port == port && r.tag == tag) }

theorem State.dropRead_of_sent (h : ∀ x ∈ s.reads, x.sent = true) (port : Port) (tag : Nat) :
    s.dropRead port tag = s.readGone port tag := State.dropReads_of_sent h _

/-- The bytes of a read that its tag names arrive whole (R56). -/
theorem exec_hostReadDone_ok (hr : s.readOf port tag = some r) (hsent : ∀ x ∈ s.reads, x.sent = true) {bytes : List Byte}
    (hl : bytes.length = r.len) : exec (.hostReadDone port tag (.ok bytes)) s = .next ((s.readGone port tag).readDone r bytes) := by
  show Host.Outcome.next _ = _
  rw [hr]
  dsimp only
  rw [if_pos hl, State.dropRead_of_sent hsent]

/-- The read that its tag names fails (R56, R58). -/
theorem exec_hostReadDone_failed (hr : s.readOf port tag = some r) (hsent : ∀ x ∈ s.reads, x.sent = true) {x : ReadResult}
    (hx : x ∈ [ReadResult.timeout, .poisoned, .unsuccessful]) :
    exec (.hostReadDone port tag x) s = .next ((s.readGone port tag).failRead r) := by
  show Host.Outcome.next _ = _
  rw [hr, ← State.dropRead_of_sent hsent]
  simp only [List.mem_cons, List.not_mem_nil, or_false] at hx
  rcases hx with rfl | rfl | rfl <;> rfl

/-- 50 ms after it went out a read has timed out (R56). -/
theorem exec_completionTimeout (hr : s.readOf port tag = some r) (hsent : ∀ x ∈ s.reads, x.sent = true) :
    exec (.completionTimeout port tag) s = .next (((s.passTo (r.issued + 50000000)).readGone port tag).failRead r) := by
  have hsent' : ∀ x ∈ (s.passTo (r.issued + 50000000)).reads, x.sent = true := by
    rw [State.passTo_eq]
    exact hsent
  show Host.Outcome.next _ = _
  rw [hr, ← State.dropRead_of_sent hsent']

/-- No time passes for an event that is not after now. -/
theorem State.passTo_past {t : Time} (h : t ≤ s.uptime) : s.passTo t = s := by
  have hmarks (a : Int) : (if 0 ≤ a then min a 0 else max a 0) = 0 := by split <;> omega
  rw [State.passTo, Nat.sub_eq_zero_of_le h, State.pass]
  split
  · rfl
  · simp [hmarks]

/-- No formation waits for the reads of a partition that is not forming. -/
theorem State.ringsReady_idle (h : (u.part p).forming = false) : u.ringsReady p = u :=
  if_neg (by rw [h]; exact Bool.false_ne_true)

/-- A change of a request is none of whether a formation waits. -/
theorem State.forming_modReq (u : State) (p : Part) (h : Nat) (f : Req → Req) : ((u.modReq p h f).part p).forming = (u.part p).forming :=
  (congrArg Partition.forming (u.part_modPart p fun q => q.modReq h f)).trans rfl

/-- A partition that runs a step is at no boundary (R65). -/
theorem Partition.not_atBoundary {q : Partition} (h : q.step.isSome = true) : q.atBoundary = false := by
  cases hs : q.step with
  | none => rw [hs] at h; exact absurd h Bool.false_ne_true
  | some st => rw [Partition.atBoundary, hs]; rfl

/-- The command of a number, after a change of it that keeps its number. -/
theorem State.find?_modCmd (f : Cmd → Cmd) (hf : ∀ c, (f c).id = c.id) (u : State) (p : Part) (k : Nat) :
    ((u.modCmd (.part p) k f).part p).taken.find? (fun c => c.id == k) = ((u.part p).taken.find? fun c => c.id == k).map f := by
  rw [State.part_modCmd]
  exact find?_modifyFirst f hf k _

/-- An `INDEX_REMOVE` that has its path reads no more. -/
theorem State.nextRead_indexRemove {b : List Byte} (hop : c.opcode = 0x31) (hgot : c.got = [b]) : u.nextRead p c = none := by
  rw [State.nextRead, hop, hgot]
  rfl

/-- A command whose read has failed completes, and no other waits for the boundary while a step runs (R58, R68). -/
theorem State.failRead_cmd (hwhy : r.why = .cmd (.part p) c.id) (hc : (u.part p).taken.find? (fun d => d.id == c.id) = some c)
    (hstep : (u.part p).step.isSome = true) : u.failRead r = u.done (.part p) c stHostRead c.written := by
  have hb : ((u.done (.part p) c stHostRead c.written).part p).atBoundary = false :=
    Partition.not_atBoundary (by rw [(u.done_calm (.part p) c stHostRead c.written).part_eq (·.step) fun _ _ _ _ => rfl]; exact hstep)
  have hfind : (u.taken (.part p)).find? (fun d => d.id == c.id) = some c := hc
  rw [State.failRead, hwhy]
  dsimp only
  rw [State.readFailed, hfind]
  dsimp only
  rw [hb, if_neg Bool.false_ne_true]

/-- What a failed read leaves of a partition: the command is gone, and its step and requests are as they were. -/
theorem State.failRead_cmd_part (hwhy : r.why = .cmd (.part p) c.id) (hc : (u.part p).taken.find? (fun d => d.id == c.id) = some c)
    (hstep : (u.part p).step.isSome = true) :
    ((u.failRead r).part p).taken = (u.part p).taken.filter (fun d => decide (d.id ≠ c.id)) ∧ (u.failRead r).reads = u.reads ∧
      ((u.failRead r).part p).step = (u.part p).step ∧ ((u.failRead r).part p).reqs = (u.part p).reqs := by
  have hcalm := u.done_calm (.part p) c stHostRead c.written
  rw [State.failRead_cmd hwhy hc hstep]
  exact ⟨u.done_taken p c _ _, (u.done_tells (.part p) c _ _).eq (·.reads) fun _ _ _ _ _ => rfl,
    hcalm.part_eq (·.step) (fun _ _ _ _ => rfl) p, hcalm.part_eq (·.reqs) (fun _ _ _ _ => rfl) p⟩

/-- An `INDEX_REMOVE` whose path has come, while a step runs, keeps it and waits for the boundary (R65). -/
theorem State.readDone_indexRemove (hwhy : r.why = .cmd (.part p) c.id) (hc : (u.part p).taken.find? (fun d => d.id == c.id) = some c)
    (hstep : (u.part p).step.isSome = true) (hop : c.opcode = 0x31) (hgot : c.got = []) (bytes : List Byte) : u.readDone r bytes =
      (u.modCmd (.part p) c.id fun c => { c with got := c.got ++ [bytes], reading := false }).modCmd (.part p) c.id fun c =>
        { c with started := true } := by
  have hfind : (((u.modCmd (.part p) c.id fun c => { c with got := c.got ++ [bytes], reading := false }).taken (.part p)).find? fun d =>
      d.id == c.id) = some { c with got := c.got ++ [bytes], reading := false } :=
    (State.find?_modCmd (fun c => { c with got := c.got ++ [bytes], reading := false }) (fun _ => rfl) u p c.id).trans (by rw [hc]; rfl)
  have hb : ((u.modCmd (.part p) c.id fun c => { c with got := c.got ++ [bytes], reading := false }).part p).atBoundary = false :=
    Partition.not_atBoundary (by rw [State.part_modCmd]; exact hstep)
  have hread := State.nextRead_indexRemove (u := u.modCmd (.part p) c.id fun c => { c with got := c.got ++ [bytes], reading := false }) (p := p)
    (c := { c with got := c.got ++ [bytes], reading := false }) hop (congrArg (· ++ [bytes]) hgot)
  rw [State.readDone, hwhy]
  dsimp only
  rw [State.goOn, hfind]
  dsimp only
  rw [if_pos (by rw [hop]; decide), hb, Bool.false_and, if_neg Bool.false_ne_true, State.await, hread]

end

/-- Settles O23: a completion is `readDone` or `failRead` on the state without its read, and no read that waits goes out in its room. -/
theorem hostReadsComplete : Obligations.HostReadsComplete := by
  unfold Obligations.HostReadsComplete
  refine ⟨fun s port tag r p h hr hwhy hf hsent => ⟨fun bytes hl => ?whole, fun x hx => ?failed, fun ht => ?timeout⟩,
    fun s port tag r p c hr hwhy hc hstep hsent => ⟨fun x hx => ?cmdFailed, fun bytes hl hop hgot => ?cmdWhole⟩⟩
  case whole =>
    rw [exec_hostReadDone_ok hr hsent hl, State.readDone, hwhy]
    exact congrArg Host.Outcome.next (State.ringsReady_idle ((State.forming_modReq _ _ _ _).trans hf))
  case failed =>
    rw [exec_hostReadDone_failed hr hsent hx, State.failRead, hwhy]
    exact congrArg Host.Outcome.next (State.ringsReady_idle ((State.forming_modReq _ _ _ _).trans hf))
  case timeout =>
    rw [exec_completionTimeout hr hsent, State.passTo_past ht, State.failRead, hwhy]
    exact congrArg Host.Outcome.next (State.ringsReady_idle ((State.forming_modReq _ _ _ _).trans hf))
  case cmdFailed =>
    simp only [List.mem_cons, List.not_mem_nil, or_false] at hx
    have hdone {y : ReadResult} (hy : y ∈ [ReadResult.timeout, .poisoned, .unsuccessful]) :
        ∃ t, exec (.hostReadDone port tag y) s = .next t ∧ (t.part p).taken = (s.part p).taken.filter (fun d => decide (d.id ≠ c.id)) ∧
          t.reads = s.reads.filter (fun r => !(r.port == port && r.tag == tag)) ∧ (t.part p).step = (s.part p).step ∧
          (t.part p).reqs = (s.part p).reqs :=
      ⟨_, exec_hostReadDone_failed hr hsent hy, State.failRead_cmd_part (u := s.readGone port tag) hwhy hc hstep⟩
    rcases hx with rfl | rfl | rfl | rfl
    · exact hdone (by decide)
    · exact hdone (by decide)
    · exact hdone (by decide)
    · have hpart : (s.passTo (r.issued + 50000000)).part p = s.part p := by rw [State.passTo_eq]; rfl
      obtain ⟨htaken, hreads, hst, hreqs⟩ := State.failRead_cmd_part (u := (s.passTo (r.issued + 50000000)).readGone port tag) hwhy
        (by rw [← hc]; exact congrArg (fun q : Partition => q.taken.find? _) hpart)
        (by rw [← hstep]; exact congrArg (fun q : Partition => q.step.isSome) hpart)
      refine ⟨_, exec_completionTimeout hr hsent, htaken.trans ?_, hreads.trans ?_, hst.trans ?_, hreqs.trans ?_⟩
      · exact congrArg (fun q : Partition => q.taken.filter _) hpart
      · rw [State.passTo_eq]; rfl
      · exact congrArg Partition.step hpart
      · exact congrArg Partition.reqs hpart
  case cmdWhole =>
    refine ⟨_, { c with got := [bytes], reading := false, started := true }, exec_hostReadDone_ok hr hsent hl, ?_⟩
    have hgotten := State.find?_modCmd (fun c => { c with got := c.got ++ [bytes], reading := false }) (fun _ => rfl) (s.readGone port tag) p c.id
    have hstarted := State.find?_modCmd (fun c => { c with started := true }) (fun _ => rfl)
      ((s.readGone port tag).modCmd (.part p) c.id fun c => { c with got := c.got ++ [bytes], reading := false }) p c.id
    rw [hgotten, show (s.readGone port tag).part p = s.part p from rfl, hc] at hstarted
    rw [State.readDone_indexRemove (u := s.readGone port tag) hwhy hc hstep hop hgot]
    refine ⟨hstarted.trans ?_, rfl, rfl, ?_, ?_⟩
    · rw [Option.map_some, Option.map_some, hgot, List.nil_append]
    · rw [State.part_modCmd, State.part_modCmd]; rfl
    · rw [State.part_modCmd, State.part_modCmd]; rfl

end Sys2Proof.Machine

namespace Sys2Proof.Machine

/-! ## Links (R53, R58, R356, R359) -/

section

variable {s t u : State} {port : Port} {p : Part}

/-- The partition that a port owns is one of ports and fences. -/
theorem State.partOf_congr (h : ∀ i, (t.part i).port = (s.part i).port ∧ (t.part i).fence = (s.part i).fence) (i : Port) :
    t.partOf i = s.partOf i := by
  have hown (p : Part) : ((t.part p).port == some i && (t.part p).fence.isSome) = ((s.part p).port == some i && (s.part p).fence.isSome) := by
    rw [(h p).1, (h p).2]
  exact congrArg allParts.find? (funext hown)

/-- Streams that are cut change nothing else of a partition (R53). -/
theorem State.cutStreams_part (s : State) (port : Port) (i : Part) : ∃ k, (s.cutStreams port).part i = { s.part i with kln := k } := by
  have hcut (v : State) (q : Part) (f : KlnStream → KlnStream) : ∃ k, (v.modStream (some q) f).part i = { v.part i with kln := k } := by
    by_cases hi : i = q
    · rw [hi]
      exact ⟨_, v.part_modPart q _⟩
    · exact ⟨_, v.part_modPart_other q i _ hi⟩
  unfold State.cutStreams
  split <;> dsimp only <;> split
  · exact hcut _ _ _
  · exact ⟨_, rfl⟩
  · exact hcut _ _ _
  · exact ⟨_, rfl⟩

/-- Streams that are cut change nothing but streams. -/
theorem State.cutStreams_frame (s : State) (port : Port) :
    { s.cutStreams port with kln := {}, parts := s.parts } = { s with kln := {} } := by
  unfold State.cutStreams
  split <;> dsimp only <;> split <;> rfl

/-- Reads that leave, and those that go out in their room, change what is outstanding and what has been sent, and nothing else (R56). -/
theorem State.dropReads_frame (s : State) (gone : HostRead → Bool) :
    { s.dropReads gone with reads := [], out := [] } = { s with reads := [], out := [] } := by
  refine State.foldl_unchanged (fun v : State => { v with reads := [], out := [] }) _ (fun s p =>
    State.foldl_unchanged (fun v : State => { v with reads := [], out := [] }) _ (fun s r => ?_) _ _) _ _
  split <;> rfl

/-- A port whose link is gone: no session, no key (R356, R359). -/
def PortSt.unlinked (x : PortSt) : PortSt := { x with linkUp := false, spdm := {}, ide := {} }

/-- A port that is reset or has lost its link, before its partition stops (R53, R58). -/
def State.linkGone (s : State) (port : Port) : State := ((s.modPort port PortSt.unlinked).cutStreams port).failReads port

/-- With no read of its own outstanding a port that goes changes no partition but in its stream, and no other port. -/
theorem State.linkGone_eq (h : ∀ r ∈ s.reads, r.port ≠ port) :
    (∀ i, ∃ k, (s.linkGone port).part i = { s.part i with kln := k }) ∧ (s.linkGone port).ports = upd s.ports port PortSt.unlinked ∧
      ((∀ r ∈ s.reads, r.sent = true) → (s.linkGone port).out = s.out) := by
  have hparts := (s.modPort port PortSt.unlinked).cutStreams_part port
  have hframe := (s.modPort port PortSt.unlinked).cutStreams_frame port
  have hports := congrArg State.ports hframe
  have hreads := congrArg State.reads hframe
  have hout := congrArg State.out hframe
  rw [State.linkGone]
  generalize (s.modPort port PortSt.unlinked).cutStreams port = u at hparts hports hreads hout
  replace hreads : u.reads = s.reads := hreads
  have hnone : (u.reads.filter fun r => r.port == port) = [] :=
    List.filter_eq_nil_iff.2 fun r hr => by rw [hreads] at hr; simpa using h r hr
  rw [State.failReads, hnone, List.foldl_nil]
  refine ⟨fun i => ?_, (congrArg State.ports (u.dropReads_frame _)).trans hports, fun hsent => ?_⟩
  · rw [State.part, State.dropReads_parts]
    exact hparts i
  · rw [State.dropReads_of_sent (by rw [hreads]; exact hsent)]
    exact hout

/-- What the loss of a port's link leaves, in a state where it has no read outstanding: the link down, its sessions and keys gone; the
partition that it owns stopping where it was RUNNING, and every other as it was but for its queues and its load stream. -/
structure State.PortDown (port : Port) (s t : State) : Prop where
  down : ∃ a b, t.port port = { (s.port port).unlinked with held := a, msix := b }
  others : ∀ i, i ≠ port → ∃ a b, t.port i = { s.port i with held := a, msix := b }
  stops : ∀ p, s.partOf port = some p → (s.part p).st = .running → ∃ a b c d, t.part p = { s.part p with
    st := .stopping, stopCause := 1, sub := a, kln := b, taken := c, fifo := d
    reqs := (s.part p).reqs.map fun x => (x.1, { x.2 with fetchSince := none }) }
  stays : ∀ p, ¬(s.partOf port = some p ∧ (s.part p).st = .running) → ∃ a b, t.part p = { s.part p with sub := a, kln := b }
  quiet : s.partOf port = none → (∀ r ∈ s.reads, r.sent = true) → t.out = s.out

theorem State.beginStop_ports (s : State) (p : Part) (cause : Nat) : (s.beginStop p cause).ports = s.ports := by
  unfold State.beginStop
  split <;> rfl

theorem State.portDown_spec (h : ∀ r ∈ s.reads, r.port ≠ port) (cause : Nat) : State.PortDown port s (s.portDown port cause) := by
  obtain ⟨hparts, hports, hout⟩ := State.linkGone_eq h
  have hof : (s.linkGone port).partOf port = s.partOf port := State.partOf_congr (fun i => by
    obtain ⟨k, hk⟩ := hparts i
    rw [hk]
    exact ⟨rfl, rfl⟩) port
  have hport : (s.linkGone port).port port = (s.port port).unlinked := by rw [State.port, hports, upd_get_same]; rfl
  have hother (i : Port) (hi : i ≠ port) : (s.linkGone port).port i = s.port i := by rw [State.port, hports, upd_get_other _ _ _ _ hi]; rfl
  have hdown : s.portDown port cause = match s.partOf port with
      | some p => if port = ((s.linkGone port).beginStop p 1).ownerPort then (s.linkGone port).beginStop p 1
        else ((s.linkGone port).beginStop p 1).toOwner none { code := 0x7025, sev := 1, a := port.val, b := cause }
      | none => s.linkGone port := by
    rw [← hof]
    rfl
  generalize s.linkGone port = u at *
  rw [hdown]
  cases hp : s.partOf port with
  | none =>
    refine ⟨⟨_, _, hport⟩, fun i hi => ⟨_, _, hother i hi⟩, fun q hq => absurd (hp.symm.trans hq) nofun, fun i _ => ?_, fun _ => hout⟩
    obtain ⟨k, hk⟩ := hparts i
    exact ⟨_, _, hk⟩
  | some p =>
    dsimp only
    have htells : State.Tells (u.beginStop p 1) (if port = (u.beginStop p 1).ownerPort then u.beginStop p 1
        else (u.beginStop p 1).toOwner none { code := 0x7025, sev := 1, a := port.val, b := cause }) := by
      split
      · exact .refl _
      · exact State.toOwner_tells (.refl _) _ _
    generalize (if port = (u.beginStop p 1).ownerPort then u.beginStop p 1
        else (u.beginStop p 1).toOwner none { code := 0x7025, sev := 1, a := port.val, b := cause }) = t at htells
    have hp' (i : Port) : (u.beginStop p 1).port i = u.port i := by rw [State.port, u.beginStop_ports]; rfl
    obtain ⟨k, hk⟩ := hparts p
    have hst : (u.part p).st = (s.part p).st := by rw [hk]
    refine ⟨⟨_, _, by rw [htells.ports, hp', hport]⟩, fun i hi => ⟨_, _, by rw [htells.ports, hp', hother i hi]⟩, fun q hq hrun => ?_,
      fun q hq => ?_, fun hq => absurd (hp.symm.trans hq) nofun⟩
    · obtain rfl : p = q := Option.some.inj (hp.symm.trans hq)
      obtain ⟨hstop, -⟩ := State.beginStop_running (hst.trans hrun) 1
      exact ⟨_, _, _, _, by rw [htells.parts, hstop, hk]⟩
    · have hsame : (u.beginStop p 1).part q = u.part q := by
        by_cases hrun : (u.part p).st = .running
        · obtain ⟨-, hrest, -⟩ := State.beginStop_running hrun 1
          exact hrest q fun e => hq ⟨by rw [hp, e], by rw [e, ← hst, hrun]⟩
        · rw [State.beginStop_idle hrun]
      obtain ⟨k', hk'⟩ := hparts q
      exact ⟨_, _, by rw [htells.parts, hsame, hk']⟩

/-- A port that is not off and has a link goes down by any of the four (R58): at PERST# it remembers the assertion. -/
theorem exec_linkEnds (hoff : s.power.phase ≠ .off) (hup : (s.port port).linkUp = true) (hperst : (s.port port).perst = false) {c : Instr}
    (hc : c ∈ [Instr.perstAssert port, .hotReset port, .linkDisable port, .linkLost port]) :
    ∃ cause, exec c s = .next ((s.modPort port fun x => { x with perst := decide (c = .perstAssert port) }).portDown port cause) := by
  have hsame : s.modPort port (fun x => { x with perst := false }) = s := by
    have hset : upd s.ports port (fun x => { x with perst := false }) = upd s.ports port id :=
      congrArg (fun x => s.ports.set port.val x port.isLt) (show { s.port port with perst := false } = s.port port by rw [← hperst])
    rw [State.modPort, hset]
    exact congrArg (fun v => { s with ports := v }) (Vector.set_getElem_self port.isLt)
  simp only [List.mem_cons, List.not_mem_nil, or_false] at hc
  rcases hc with rfl | rfl | rfl | rfl
  · have hon : (s.modPort port fun x => { x with perst := true }).isOff = false := beq_eq_false_iff_ne.2 hoff
    refine ⟨0, ?_⟩
    show Host.Outcome.next _ = _
    rw [hperst, if_neg Bool.false_ne_true]
    dsimp only
    rw [hon, if_neg Bool.false_ne_true, decide_eq_true rfl]
  · exact ⟨1, (congrArg Host.Outcome.next (if_pos hup)).trans (by rw [decide_eq_false nofun, hsame])⟩
  · exact ⟨2, (congrArg Host.Outcome.next (if_pos hup)).trans (by rw [decide_eq_false nofun, hsame])⟩
  · exact ⟨3, (congrArg Host.Outcome.next (if_pos hup)).trans (by rw [decide_eq_false nofun, hsame])⟩

/-- What a port that goes down leaves of a partition's state, its models and its requests. -/
theorem State.PortDown.part (h : State.PortDown port s t) (p : Part) :
    (t.part p).st = (if s.partOf port = some p ∧ (s.part p).st = .running then .stopping else (s.part p).st) ∧
      (t.part p).models = (s.part p).models ∧
      (t.part p).reqs = (if s.partOf port = some p ∧ (s.part p).st = .running
        then (s.part p).reqs.map (fun x => (x.1, { x.2 with fetchSince := none })) else (s.part p).reqs) := by
  by_cases hp : s.partOf port = some p ∧ (s.part p).st = .running
  · obtain ⟨_, _, _, _, he⟩ := h.stops p hp.1 hp.2
    rw [he, if_pos hp, if_pos hp]
    exact ⟨rfl, rfl, rfl⟩
  · obtain ⟨_, _, he⟩ := h.stays p hp
    rw [he, if_neg hp, if_neg hp]
    exact ⟨rfl, rfl, rfl⟩

/-- A link whose integrity check fails goes down as under PERST#, its stream is Insecure, and the failure is told (R359, R376). -/
theorem exec_ideCheckFail {dir : Fin 2} (hup : (s.port port).linkUp = true) (hkey : ∃ x ∈ (s.port port).ide.keys, x.1.2 = dir.val) :
    ∃ t, exec (.ideCheckFail port dir) s = .next t ∧
      State.Tells ((s.portDown port 0).modPort port fun x => { x with ide := { x.ide with insecure := true } }) t := by
  have hany : ((s.port port).linkUp && (s.port port).ide.keys.any fun k => k.1.2 == dir.val) = true := by
    obtain ⟨x, hx, hdir⟩ := hkey
    rw [hup, Bool.true_and]
    exact List.any_eq_true.2 ⟨x, hx, beq_iff_eq.2 hdir⟩
  refine ⟨_, congrArg Host.Outcome.next (if_pos hany), ?_⟩
  dsimp only
  split
  · split
    · exact State.toPart_tells (.refl _) _ _ _
    · exact State.toOwner_tells (State.toPart_tells (.refl _) _ _ _) _ _
  · exact State.toOwner_tells (.refl _) _ _

/-- What streams that are cut leave of what an FLR looks at. -/
theorem State.cutStreams_served (s : State) (port : Port) : (s.cutStreams port).partOf port = s.partOf port ∧
    (s.cutStreams port).ownerPort = s.ownerPort ∧ (s.cutStreams port).out = s.out ∧
    ∀ i, ∃ k, (s.cutStreams port).part i = { s.part i with kln := k } := by
  refine ⟨State.partOf_congr (fun i => ?_) port, (congrArg State.ownerPort (s.cutStreams_frame port)).trans rfl,
    (congrArg State.out (s.cutStreams_frame port)).trans rfl, s.cutStreams_part port⟩
  obtain ⟨k, hk⟩ := s.cutStreams_part port i
  rw [hk]
  exact ⟨rfl, rfl⟩

/-- An FLR of a port of a partition that runs or stops makes it stop, and be reset when it has (R53). -/
theorem exec_flr_stops (hs : s.serving = true) (hup : (s.port port).linkUp = true) (hp : s.partOf port = some p)
    (hst : (s.part p).st = .running ∨ (s.part p).st = .stopping) : exec (.flr port) s =
      .next (((s.cutStreams port).beginStop p 2).modPart p fun q => { q with flrPending := true, stopCause := 2 }) := by
  obtain ⟨hof, -, -, hparts⟩ := s.cutStreams_served port
  obtain ⟨k, hk⟩ := hparts p
  have hst' : ((s.cutStreams port).part p).st = (s.part p).st := by rw [hk]
  refine (congrArg Host.Outcome.next (if_neg (by rw [hs, hup]; decide))).trans ?_
  generalize s.cutStreams port = u at hof hst'
  dsimp only
  rw [hof, hp]
  dsimp only
  rw [hst']
  rcases hst with h | h <;> rw [h]

/-- One of a port of a partition that is STOPPED or QUARANTINED resets it at once (R53). -/
theorem exec_flr_resets (hs : s.serving = true) (hup : (s.port port).linkUp = true) (hp : s.partOf port = some p)
    (hst : (s.part p).st = .stopped ∨ (s.part p).st = .quarantined) :
    ∃ u : State, exec (.flr port) s = .next (u.resetPart p) ∧ ∀ i, ∃ k c, u.part i = { s.part i with kln := k, stopCause := c } := by
  obtain ⟨hof, -, -, hparts⟩ := s.cutStreams_served port
  obtain ⟨k, hk⟩ := hparts p
  have hst' : ((s.cutStreams port).part p).st = (s.part p).st := by rw [hk]
  have hexec : exec (.flr port) s = .next (if (s.part p).st = .stopped then
      ((s.cutStreams port).modPart p fun q => { q with stopCause := 2 }).resetPart p else (s.cutStreams port).resetPart p) := by
    refine (congrArg Host.Outcome.next (if_neg (by rw [hs, hup]; decide))).trans ?_
    generalize s.cutStreams port = u at hof hst'
    dsimp only
    rw [hof, hp]
    dsimp only
    rw [hst']
    rcases hst with h | h <;> rw [h]
    · rfl
    · rfl
  by_cases h : (s.part p).st = .stopped
  · rw [if_pos h] at hexec
    refine ⟨_, hexec, fun i => ?_⟩
    obtain ⟨k', hk'⟩ := hparts i
    by_cases hi : i = p
    · subst hi
      exact ⟨_, _, by rw [State.part_modPart, hk']⟩
    · exact ⟨_, _, by rw [State.part_modPart_other _ _ _ _ hi, hk']⟩
  · rw [if_neg h] at hexec
    refine ⟨_, hexec, fun i => ?_⟩
    obtain ⟨k', hk'⟩ := hparts i
    exact ⟨_, _, hk'⟩

/-- One of the owner port, where it has no partition, resets the owner's queues (R53, R410); one of another port without a partition cuts its
streams alone. -/
theorem exec_flr_unowned (hs : s.serving = true) (hup : (s.port port).linkUp = true) (hp : s.partOf port = none) :
    ∃ t, exec (.flr port) s = .next t ∧ (port = s.ownerPort → t.ownerSub = {} ∧ t.ownerTaken = []) ∧ ∀ i, (t.part i).st = (s.part i).st := by
  obtain ⟨hof, howner, -, hparts⟩ := s.cutStreams_served port
  have hst (i : Part) : ((s.cutStreams port).part i).st = (s.part i).st := by
    obtain ⟨k, hk⟩ := hparts i
    rw [hk]
  refine ⟨_, congrArg Host.Outcome.next (if_neg (by rw [hs, hup]; decide)), ?_⟩
  generalize s.cutStreams port = u at hof howner hst
  dsimp only
  rw [hof, hp, howner]
  dsimp only
  split
  · have hcalm := u.doneAll_calm .owner (fun c => c.run != .testing) stAborted
    generalize u.doneAll .owner (fun c => c.run != .testing) stAborted = v at hcalm ⊢
    have hframe := State.dropReads_frame { v with ownerSub := {}, ownerTaken := [] } HostRead.ofOwner
    refine ⟨fun _ => ⟨(congrArg State.ownerSub hframe).trans rfl, (congrArg State.ownerTaken hframe).trans rfl⟩, fun i => ?_⟩
    rw [State.part, State.dropReads_parts]
    exact (hcalm.part_eq (·.st) (fun _ _ _ _ => rfl) i).trans (hst i)
  · next hne => exact ⟨fun h => absurd h hne, hst⟩

/-- A port of a partition that an FLR finds absent has its streams cut and no more. -/
theorem exec_flr_absent (hs : s.serving = true) (hup : (s.port port).linkUp = true) (hp : s.partOf port = some p)
    (hst : (s.part p).st = .absent) : exec (.flr port) s = .next (s.cutStreams port) := by
  obtain ⟨hof, -, -, hparts⟩ := s.cutStreams_served port
  obtain ⟨k, hk⟩ := hparts p
  have hst' : ((s.cutStreams port).part p).st = .absent := by rw [hk]; exact hst
  refine (congrArg Host.Outcome.next (if_neg (by rw [hs, hup]; decide))).trans ?_
  generalize s.cutStreams port = u at hof hst'
  dsimp only
  rw [hof, hp]
  dsimp only
  rw [hst']

/-- A partition that has been reset waits for no FLR. -/
theorem State.resetPart_flrPending (s : State) (p : Part) : ((s.resetPart p).part p).flrPending = false := by
  obtain ⟨u, -, hparts⟩ := s.resetPart_parts p
  rw [State.part, hparts]
  exact (congrArg Partition.flrPending (u.part_modPart p _)).trans rfl

/-- A partition that an FLR makes stop: its requests' queued fetches are cancelled where it ran, and no other partition changes but in its
stream (R46, R53, R234). -/
theorem State.flrStops_part (hrun : (s.part p).st = .running ∨ (s.part p).st = .stopping) :
    let t := ((s.cutStreams port).beginStop p 2).modPart p fun q => { q with flrPending := true, stopCause := 2 }
    ((t.part p).st = .stopping ∧ (t.part p).flrPending = true ∧ (t.part p).stopCause = 2 ∧ t.out = s.out ∧
      (t.part p).reqs = (if (s.part p).st = .running then (s.part p).reqs.map fun x => (x.1, { x.2 with fetchSince := none })
        else (s.part p).reqs)) ∧
      ∀ i, i ≠ p → ∃ k, t.part i = { s.part i with kln := k } := by
  obtain ⟨-, -, hout, hparts⟩ := s.cutStreams_served port
  generalize s.cutStreams port = u at hout hparts
  obtain ⟨k, hk⟩ := hparts p
  have hst : (u.part p).st = (s.part p).st := by rw [hk]
  have hreqs : (u.part p).reqs = (s.part p).reqs := by rw [hk]
  dsimp only
  simp only [State.part_modPart, State.modPart_out, true_and]
  rcases hrun with h | h
  · obtain ⟨hp, hrest, hsame, -⟩ := State.beginStop_running (hst.trans h) 2
    rw [hp, if_pos h, hreqs]
    exact ⟨⟨rfl, hsame.trans hout, rfl⟩, fun i hi => by rw [State.part_modPart_other _ _ _ _ hi, hrest i hi]; exact hparts i⟩
  · have hidle : (u.part p).st ≠ .running := by rw [hst, h]; decide
    rw [State.beginStop_idle hidle, if_neg (hst ▸ hidle), hst]
    exact ⟨⟨h, hout, hreqs⟩, fun i hi => by rw [State.part_modPart_other _ _ _ _ hi]; exact hparts i⟩

/-- The other partitions as an FLR of one's port leaves them. -/
theorem State.resetPart_others (hu : ∀ i, ∃ k c, u.part i = { s.part i with kln := k, stopCause := c }) {i : Part} (hi : i ≠ p) :
    ((u.resetPart p).part i).st = (s.part i).st ∧ ((u.resetPart p).part i).reqs = (s.part i).reqs ∧
      ((u.resetPart p).part i).models = (s.part i).models := by
  obtain ⟨k, c, hk⟩ := hu i
  rw [State.resetPart_part_other hi (·.st) fun _ _ _ _ => rfl, State.resetPart_part_other hi (·.reqs) fun _ _ _ _ => rfl,
    State.resetPart_part_other hi (·.models) fun _ _ _ _ => rfl, hk]
  exact ⟨rfl, rfl, rfl⟩

end

/-- Settles O22: a port that goes down is `portDown`, one that comes up a change of that port, and an FLR a stop or a reset of its partition
by the partition's state. -/
theorem linksComeAndGo : Obligations.LinksComeAndGo := by
  unfold Obligations.LinksComeAndGo
  refine ⟨fun s port hoff hup hperst hreads c hc => ?ends, fun s port dir hup hkey hreads => ?fails,
    ⟨fun s port speed hmay hdown lanes hl => ?comes, fun s port n hup hn hlt => ?width⟩, fun s port hs hup => ?flr⟩
  case ends =>
    obtain ⟨cause, he⟩ := exec_linkEnds hoff hup hperst hc
    have hspec := State.portDown_spec (s := s.modPort port fun x => { x with perst := decide (c = .perstAssert port) }) hreads cause
    obtain ⟨a, b, hport⟩ := hspec.down
    rw [State.port_modPort] at hport
    refine ⟨_, he, by rw [hport]; rfl, by rw [hport]; rfl, by rw [hport]; rfl, by rw [hport]; rfl, fun i hi => ?_, fun p => ?_, fun p hp hrun => ?_,
      fun p => ?_, hspec.quiet⟩
    · obtain ⟨a, b, hi'⟩ := hspec.others i hi
      rw [hi', State.port_modPort_other _ _ _ _ hi]
      exact ⟨rfl, rfl, rfl⟩
    · exact (hspec.part p).1
    · obtain ⟨_, _, _, _, hq⟩ := hspec.stops p hp hrun
      rw [hq]
    · exact (hspec.part p).2
  case fails =>
    obtain ⟨t, he, htells⟩ := exec_ideCheckFail hup hkey
    have hspec := State.portDown_spec hreads 0
    obtain ⟨a, b, hport⟩ := hspec.down
    have ht := htells.ports port
    rw [State.port_modPort, hport] at ht
    refine ⟨t, he, by rw [ht]; rfl, by rw [ht], by rw [ht]; rfl, by rw [ht]; rfl, fun p => ?_⟩
    rw [htells.parts p]
    exact (hspec.part p).1
  case comes =>
    have hwidth : portCaps.widths.contains lanes = true := List.contains_iff_mem.2 hl
    exact congrArg Host.Outcome.next (if_pos ⟨hmay, hdown, hwidth⟩)
  case width => exact congrArg Host.Outcome.next (if_pos ⟨hup, hn, hlt⟩)
  case flr =>
    cases hp : s.partOf port with
    | none =>
      obtain ⟨t, he, howner, hst⟩ := exec_flr_unowned hs hup hp
      exact ⟨t, he, nofun, fun _ => ⟨howner, hst⟩⟩
    | some p =>
      have hst : ((s.part p).st = .running ∨ (s.part p).st = .stopping) ∨ ((s.part p).st = .stopped ∨ (s.part p).st = .quarantined) ∨
          (s.part p).st = .absent := by
        cases (s.part p).st <;> decide
      rcases hst with hst | hst | hst
      · obtain ⟨hmine, hothers⟩ := State.flrStops_part (port := port) hst
        refine ⟨_, exec_flr_stops hs hup hp hst, fun q hq => ?_, nofun⟩
        obtain rfl := Option.some.inj hq
        refine ⟨fun _ => hmine, fun h => ?_, fun i hi => ?_⟩
        · rcases hst with hst | hst <;> rw [hst] at h <;> exact absurd h (by decide)
        · obtain ⟨k, hk⟩ := hothers i hi
          rw [hk]
          exact ⟨rfl, rfl, rfl⟩
      · obtain ⟨u, he, hu⟩ := exec_flr_resets hs hup hp hst
        obtain ⟨hreqs, htaken, hsub, hkept, -⟩ := u.resetPart_part p
        obtain ⟨k, c, hk⟩ := hu p
        refine ⟨_, he, fun q hq => ?_, nofun⟩
        obtain rfl := Option.some.inj hq
        refine ⟨fun h => ?_, fun _ => ⟨hkept.trans (by rw [hk]), hreqs, htaken, hsub, u.resetPart_flrPending p⟩, fun i hi =>
          State.resetPart_others hu hi⟩
        rcases hst with hst | hst <;> rw [hst] at h <;> exact absurd h (by decide)
      · refine ⟨_, exec_flr_absent hs hup hp hst, fun q hq => ?_, nofun⟩
        obtain rfl := Option.some.inj hq
        rw [hst]
        refine ⟨fun h => absurd h (by decide), fun h => absurd h (by decide), fun i _ => ?_⟩
        obtain ⟨k, hk⟩ := s.cutStreams_part port i
        rw [hk]
        exact ⟨rfl, rfl, rfl⟩

end Sys2Proof.Machine

namespace Sys2Proof.Machine

/-! ## Commands that take effect at a step boundary (R65, R208) -/

theorem exec_boundaryRow {x : Instr × Nat} {src : Src} (hx : x ∈ boundaryRows src) (s : State) :
    exec x.1 s = .next (s.boundaryCmd src x.2) := by
  simp only [boundaryRows, List.mem_cons, List.not_mem_nil, or_false] at hx
  rcases hx with rfl | rfl | rfl | rfl | rfl | rfl | rfl | rfl <;> rfl

section

variable {s t : State} {p : Part} {c : Cmd}

/-- The one command taken, waiting for nothing, is the one picked (R65). -/
theorem State.pickCmd_only (ht : (s.part p).taken = [c]) (hread : c.reading = false) (hrun : c.run = .idle) :
    s.pickCmd (.part p) c.opcode = some c := by
  have htaken : s.taken (.part p) = [c] := ht
  simp [State.pickCmd, htaken, Cmd.eligible, hread, hrun]

theorem Cmd.inOrder_only (c : Cmd) : c.inOrder [c] = true := by simp [Cmd.inOrder]

/-- Where it is no command's turn, none takes effect at the boundary. -/
theorem State.runBoundary_of_turnless (h : ∀ c ∈ (t.part p).taken, c.turn (t.part p).taken = false) : t.runBoundary p = t := by
  refine List.foldl_fixed' (fun id => ?_) _
  dsimp only
  split
  · next c hc => exact if_neg (by rw [h c (List.mem_of_find?_eq_some hc)]; exact Bool.false_ne_true)
  · rfl

theorem State.runBoundary_of_empty (h : (t.part p).taken = []) : t.runBoundary p = t :=
  State.runBoundary_of_turnless fun c hc => by rw [h] at hc; exact absurd hc List.not_mem_nil

/-- While a step runs, a command with nothing to read waits (R65). -/
theorem State.boundaryCmd_waits (ht : (s.part p).taken = [c]) (hread : c.reading = false) (hrun : c.run = .idle)
    (hstep : (s.part p).step.isSome = true) (hnext : s.nextRead p c = none) :
    s.boundaryCmd (.part p) c.opcode = s.modCmd (.part p) c.id fun c => { c with started := true } := by
  rw [State.boundaryCmd, State.forPart_part _ (State.pickCmd_only ht hread hrun), Partition.not_atBoundary hstep, Bool.false_and,
    if_neg Bool.false_ne_true, State.await, hnext]

/-- At a boundary `REQ_OPEN` takes effect, and what its turn lets go on follows. -/
theorem exec_reqOpen_turn (h : s.turnOf p c 0x01) : exec (.reqOpen (.part p)) s = .next ((s.reqOpen p c).runBoundary p) := by
  obtain ⟨ht, hop, hread, hrun, hstep⟩ := h
  have hb : (s.part p).atBoundary = true := by rw [Partition.atBoundary, hstep]; rfl
  have hcmd : s.atBoundaryCmd p c = s.reqOpen p c := by rw [State.atBoundaryCmd, hop]; rfl
  have hpick : s.pickCmd (.part p) 0x01 = some c := hop ▸ State.pickCmd_only ht hread hrun
  show Host.Outcome.next (s.boundaryCmd (.part p) 0x01) = _
  rw [State.boundaryCmd, State.forPart_part _ hpick, hb, ht, Cmd.inOrder_only, Bool.true_and, if_pos rfl, hcmd]

/-- A command that completes was the only one taken. -/
theorem State.done_taken_only (ht : (t.part p).taken = [c]) (status b : Nat) : ((t.done (.part p) c status b).part p).taken = [] := by
  rw [State.done_taken, ht]
  simp

/-- A command that asks for a read of host memory waits for it, and the read goes out or waits for room (R56). -/
theorem State.cmdRead_only {port : Port} (ht : (s.part p).taken = [c]) (hport : (s.part p).port = some port) (hlive : s.portLive port = true)
    (addr len : Nat) : ((s.cmdRead (.part p) c addr len).part p) = { s.part p with taken := [{ c with reading := true, started := true }] } ∧
      ∃ rd, (s.cmdRead (.part p) c addr len).reads = s.reads ++ [rd] ∧ rd.port = port ∧ rd.addr = addr ∧ rd.len = len ∧
        rd.why = .cmd (.part p) c.id := by
  have hparts : (s.issueRead port addr len (.cmd (.part p) c.id)).part p = s.part p := by
    unfold State.issueRead
    dsimp only
    split <;> rfl
  have hreads : ∃ rd, (s.issueRead port addr len (.cmd (.part p) c.id)).reads = s.reads ++ [rd] ∧ rd.port = port ∧ rd.addr = addr ∧
      rd.len = len ∧ rd.why = .cmd (.part p) c.id := by
    unfold State.issueRead
    dsimp only
    split <;> exact ⟨_, rfl, rfl, rfl, rfl, rfl⟩
  have hsrc : s.srcPort (.part p) = some port := hport
  rw [State.cmdRead, hsrc]
  dsimp only
  rw [if_pos hlive]
  refine ⟨?_, hreads⟩
  rw [State.part_modCmd, hparts, ht, modifyFirst, if_pos (beq_self_eq_true c.id)]

end

/-! ## Pages and lists taken for a request: only its models change (R221, R262, R279, R280) -/

theorem Partition.carved_onlyModels (q : Partition) (handle : Nat) (ash : List Nat) : q.OnlyModels (q.carved handle ash) :=
  q.modModel_onlyModels _ _

theorem Partition.carveIndex_onlyModels (q : Partition) (handle : Nat) (ash : List Nat) : q.OnlyModels (q.carveIndex handle ash) :=
  q.modModel_onlyModels _ _

theorem Partition.lookup_onlyModels (q : Partition) (r : Req) (toks : List Nat) (now : Time) (ash : List Nat) :
    q.OnlyModels (q.lookup r toks now ash).1 := by
  unfold Partition.lookup
  split
  · exact Partition.OnlyModels.trans (.foldl _ (fun q _ => q.carveIndex_onlyModels _ _) _ _)
      (.foldl _ (fun q _ => q.modModel_onlyModels _ _) _ _)
  · exact ⟨rfl⟩

theorem Partition.matchLists_onlyModels {h m : Nat} {toks : List Nat} {l : List (Nat × Nat × ShardRec)} {q u : Partition} {cs : List Chain}
    {copies : List (Nat × ShardRec × Nat × Nat)} (hu : q.matchLists h m toks l = some (u, cs, copies)) : q.OnlyModels u := by
  induction l generalizing q u cs copies with
  | nil =>
    simp only [Partition.matchLists, Option.some.injEq, Prod.mk.injEq] at hu
    rw [← hu.1]
    exact ⟨rfl⟩
  | cons x l ih =>
    obtain ⟨handle, i, sh⟩ := x
    unfold Partition.matchLists at hu
    split at hu
    · exact absurd hu nofun
    · dsimp only at hu
      split at hu
      · exact absurd hu nofun
      · obtain ⟨y, hy, he⟩ := Option.map_eq_some_iff.1 hu
        obtain ⟨v, ds, k⟩ := y
        cases he
        exact (q.modModel_onlyModels _ _).trans (ih hy)

theorem Partition.growLists_onlyModels (h n : Nat) (l : List (Nat × Nat × ShardRec)) (q : Partition) (cs : List Chain) :
    q.OnlyModels (q.growLists h n l cs).1 := by
  induction l generalizing q cs with
  | nil => exact ⟨rfl⟩
  | cons x l ih =>
    obtain ⟨handle, i, sh⟩ := x
    unfold Partition.growLists
    dsimp only
    split
    · exact (q.modModel_onlyModels _ _).trans (ih _ _)
    · exact ih _ _

/-- The directory of a request fixed: of it, only the directory changes. -/
theorem Partition.fixDirectory_eq {q u : Partition} {h : Nat} {r r' : Req} (hu : q.fixDirectory h r = some (u, r')) :
    q.OnlyModels u ∧ r' = { r with directory := r'.directory } := by
  unfold Partition.fixDirectory at hu
  dsimp only at hu
  generalize (if (r.lists.all fun c => c.words.isEmpty) = true then 0 else ceilDiv r.lists.length 62) = want at hu
  split at hu
  · cases hu; exact ⟨⟨rfl⟩, rfl⟩
  · split at hu
    · split at hu
      · cases hu; exact ⟨q.modModel_onlyModels _ _, rfl⟩
      · exact absurd hu nofun
    · cases hu; exact ⟨q.modModel_onlyModels _ _, rfl⟩

/-- A walk for a request's pages changes models, and of the request its lists and its directory (R222). -/
theorem Partition.walk_eq (q : Partition) (h : Nat) (r : Req) (n : Nat) (ash : List Nat) :
    q.OnlyModels (q.walk h r n ash).1 ∧
      (q.walk h r n ash).2.1 = { r with lists := (q.walk h r n ash).2.1.lists, directory := (q.walk h r n ash).2.1.directory } := by
  have hcarved : q.OnlyModels ((q.reqShards r).foldl (fun p x => p.carved x.1 ash) q) := .foldl _ (fun q _ => q.carved_onlyModels _ _) _ _
  unfold Partition.walk
  dsimp only
  generalize (q.reqShards r).foldl (fun p x => p.carved x.1 ash) q = v at hcarved ⊢
  have hgrow := Partition.growLists_onlyModels h n (v.reqShards r) v r.lists
  split
  · next u r' hu =>
    obtain ⟨hmodels, hr⟩ := Partition.fixDirectory_eq hu
    exact ⟨(hcarved.trans hgrow).trans hmodels, by rw [hr]⟩
  · exact ⟨hcarved, rfl⟩

theorem Partition.reserve_eq {q u : Partition} {h n : Nat} {r r' : Req} {ash : List Nat} (hu : q.reserve h r n ash = some (u, r')) :
    q.OnlyModels u ∧ r' = { r with lists := r'.lists, directory := r'.directory } := by
  have hwalk := q.walk_eq h r n ash
  unfold Partition.reserve at hu
  dsimp only at hu
  split at hu
  · cases hu; exact hwalk
  · exact absurd hu nofun

/-- Tokens appended to a chain stand behind its words (R257). -/
theorem Model.pushAll_words {m m' : Model} {h : Nat} {c c' : Chain} {l : List Nat} (hp : m.pushAll h c l = some (m', c')) :
    c'.words = c.words ++ l := by
  induction l generalizing m c with
  | nil =>
    simp only [Model.pushAll, Option.some.injEq, Prod.mk.injEq] at hp
    rw [← hp.2, List.append_nil]
  | cons w l ih =>
    unfold Model.pushAll at hp
    split at hp
    · next m₁ c₁ hpush =>
      have hwords : c₁.words = c.words ++ [w] := by
        unfold Model.push at hpush
        split at hpush
        · cases hpush; rfl
        · split at hpush
          · cases hpush; rfl
          · exact absurd hpush nofun
      rw [ih hp, hwords, List.append_assoc, List.singleton_append]
    · exact absurd hp nofun

/-! ## The pages of a match copied (R280) -/

/-- A change that leaves of a partition all but its models and its counters, and of other partitions everything. -/
structure State.OnlyCopied (p : Part) (s t : State) : Prop where
  part : t.part p = { s.part p with models := (t.part p).models, ctr := (t.part p).ctr }

theorem State.OnlyCopied.trans {p : Part} {s t u : State} (h : State.OnlyCopied p s t) (k : State.OnlyCopied p t u) : State.OnlyCopied p s u :=
  ⟨by rw [k.part, h.part]⟩

theorem State.OnlyCopied.of_parts {p : Part} {s t : State} (h : t.parts = s.parts) : State.OnlyCopied p s t :=
  ⟨by rw [State.part, State.part, h]⟩

theorem State.OnlyCopied.foldl {α : Type} {p : Part} {f : State → α → State} (hf : ∀ s x, State.OnlyCopied p s (f s x)) (l : List α) (s : State) :
    State.OnlyCopied p s (l.foldl f s) := by
  induction l generalizing s with
  | nil => exact .of_parts rfl
  | cons x l ih => exact (hf s x).trans (ih _)

theorem State.OnlyCopied.modModel (p : Part) (s : State) (handle : Nat) (f : Model → Model) :
    State.OnlyCopied p s (s.modPart p fun q => q.modModel handle f) := ⟨by rw [State.part_modPart]; rfl⟩

theorem State.OnlyCopied.modCtr (p : Part) (s : State) (f : Partition → PrtCounters) :
    State.OnlyCopied p s (s.modPart p fun q => { q with ctr := f q }) := ⟨by rw [State.part_modPart]⟩

theorem State.putBlocks_parts (s : State) (b : Nat) (l : List (List Byte × Bool)) : (s.putBlocks b l).parts = s.parts := by
  induction l generalizing s b with
  | nil => rfl
  | cons x l ih =>
    refine (ih _ _).trans ?_
    unfold State.putBlock
    split
    · rfl
    · split <;> rfl

theorem State.putEntry_parts (s : State) (addr fmt padded t : Nat) (codes : List Nat) : (s.putEntry addr fmt padded t codes).parts = s.parts :=
  State.foldl_unchanged State.parts _ (fun s _ => s.putBlocks_parts _ _) _ _

theorem State.copyRange_parts (s : State) (src dst len : Nat) : (s.copyRange src dst len).parts = s.parts := by
  unfold State.copyRange
  dsimp only
  split
  · rfl
  · split <;> rfl

theorem State.copyPage_onlyCopied (s : State) (p : Part) (handle : Nat) (sh : ShardRec) (src dst : Nat) :
    State.OnlyCopied p s (s.copyPage p handle sh src dst) := by
  unfold State.copyPage
  split
  · exact .of_parts rfl
  · split
    · next m _ v a _ _ =>
      dsimp only
      have hbytes : State.OnlyCopied p s (s.copyRange v.addr a (sh.pageBytes (v.desc.fmt.getD sh.format))) := .of_parts (State.copyRange_parts _ _ _ _)
      have hdesc (f : Model → Model) := hbytes.trans (.modModel p _ handle f)
      split
      · exact hdesc _
      · split
        · exact (hdesc _).trans (.modModel ..)
        · split
          · exact (hdesc _).trans (.modModel ..)
          · refine .trans (.trans (.trans (.trans (hdesc _) (.foldl ?_ _ _)) (.foldl ?_ _ _)) (.modModel ..)) (.modCtr ..)
            · exact fun s _ => .of_parts (s.putEntry_parts ..)
            · exact fun _ _ => .of_parts rfl
    · exact .of_parts rfl


/-! ## Entries of requests -/

theorem lookupA_modifyA_same {β : Type} (l : List (Nat × β)) (k : Nat) (f : β → β) : lookupA (modifyA l k f) k = (lookupA l k).map f := by
  induction l with
  | nil => rfl
  | cons x l ih =>
    obtain ⟨a, v⟩ := x
    by_cases h : a = k
    · simp [modifyA, lookupA, h]
    · simpa [modifyA, lookupA, h] using ih

/-- A change of every entry by its key and value. -/
theorem lookupA_map {α β : Type} [DecidableEq α] (l : List (α × β)) (f : α → β → β) (a : α) :
    lookupA (l.map fun x => (x.1, f x.1 x.2)) a = (lookupA l a).map (f a) := by
  induction l with
  | nil => rfl
  | cons x l ih =>
    obtain ⟨k, v⟩ := x
    by_cases h : k = a
    · simp [lookupA, h]
    · simpa [lookupA, h] using ih

section

variable {s t : State} {p : Part} {h : Nat} {r : Req}

/-- Activation opens a request; of its entry what the driver set stays, and of its partition only models, counters and entries change
(R262, R264). -/
theorem State.activate_eq (ha : s.activate p h = some t) (hr : (s.part p).req h = some r) :
    (∃ r', (t.part p).req h = some r' ∧ r'.state = .opened ∧ r'.chain = r.chain ∧ r'.model = r.model ∧ r'.deadline = r.deadline ∧
      r'.length = r.length ∧ r'.priority = r.priority) ∧
      t.part p = { s.part p with models := (t.part p).models, ctr := (t.part p).ctr, reqs := (t.part p).reqs } := by
  unfold State.activate at ha
  rw [hr] at ha
  dsimp only at ha
  have hcarved : (s.part p).OnlyModels (((s.part p).reqShards r).foldl (fun q x => q.carved x.1 s.ashList) (s.part p)) :=
    .foldl _ (fun q _ => q.carved_onlyModels _ _) _ _
  generalize ((s.part p).reqShards r).foldl (fun q x => q.carved x.1 s.ashList) (s.part p) = q at hcarved ha
  have hlook : q.OnlyModels (if r.evicted = true then (q, 0) else q.lookup r r.chain.words s.now s.ashList).1 := by
    split
    · exact ⟨rfl⟩
    · exact q.lookup_onlyModels ..
  generalize (if r.evicted = true then (q, 0) else q.lookup r r.chain.words s.now s.ashList) = found at hlook ha
  split at ha
  · exact absurd ha nofun
  · next u lists copies hu =>
    split at ha
    · exact absurd ha nofun
    · next v r' hv =>
      obtain ⟨hreserve, hr'⟩ := Partition.reserve_eq hv
      have hmodels : (s.part p).OnlyModels v := ((hcarved.trans hlook).trans (Partition.matchLists_onlyModels hu)).trans hreserve
      have hentry : v.req h = some r := by rw [hmodels.eq]; exact hr
      cases ha
      generalize hnew : ({ r' with state := _, prev := _, queuePos := _, matched := _, pending := _, evicted := _, copying := _ } : Req) = new
      have hcopied := State.OnlyCopied.foldl (p := p) (fun s (x : Nat × ShardRec × Nat × Nat) => s.copyPage_onlyCopied p x.1 x.2.1 x.2.2.1 x.2.2.2) copies
        (s.modPart p fun _ => v.modReq h fun _ => new)
      generalize copies.foldl (fun s x => s.copyPage p x.1 x.2.1 x.2.2.1 x.2.2.2) (s.modPart p fun _ => v.modReq h fun _ => new) = w at hcopied ⊢
      have hw : w.part p = { v with models := (w.part p).models, ctr := (w.part p).ctr, reqs := modifyA v.reqs h fun _ => new } := by
        rw [hcopied.part, State.part_modPart]
        rfl
      have harrive : (w.arrive (some p) (.prefixCopy h)).part p = w.part p := rfl
      rw [harrive]
      refine ⟨⟨new, ?_, ?_⟩, ?_⟩
      · rw [hw]
        exact (lookupA_modifyA_same _ _ fun _ => new).trans (congrArg (Option.map _) hentry)
      · rw [← hnew, hr']
        exact ⟨rfl, rfl, rfl, rfl, rfl, rfl⟩
      · rw [hw, hmodels.eq]

/-- The numbering of the queue writes positions, and leaves the entries else as they are (R263). -/
theorem Partition.req_number (q : Partition) (h : Nat) : ∃ k, q.number.req h = (q.req h).map fun r => { r with queuePos := k } :=
  ⟨_, lookupA_map q.reqs (fun k r => { r with queuePos := match q.queue.findIdx? (· == k) with | some i => i + 1 | none => 0 }) h⟩

/-- A request told that it is queued has its position, and is else as it was (R263). -/
theorem State.tellQueued_eq (s : State) (p : Part) (h : Nat) :
    (∃ k, ((s.tellQueued p h).part p).req h = ((s.part p).req h).map fun r => { r with queuePos := k }) ∧
      (s.tellQueued p h).part p = { s.part p with reqs := ((s.tellQueued p h).part p).reqs, sub := ((s.tellQueued p h).part p).sub } := by
  have htells : State.Tells (s.modPart p Partition.number) (s.tellQueued p h) := by
    unfold State.tellQueued
    dsimp only
    split
    · exact State.toReq_tells (.refl _) _ _ _
    · exact .refl _
  generalize s.tellQueued p h = t at htells ⊢
  have hpart := htells.parts p
  rw [State.part_modPart] at hpart
  obtain ⟨k, hk⟩ := Partition.req_number (s.part p) h
  refine ⟨⟨k, ?_⟩, ?_⟩
  · rw [hpart]
    exact hk
  · rw [hpart]
    rfl

end

/-! ## Admission (R261-R263) -/

/-- What REQ_OPEN comes to, its prompt read: an entry with the prompt as its chain, which is queued or opened, or a refusal that is
counted and leaves the entries as they were (R261-R263). -/
def State.Admits (s t : State) (p : Part) (c : Cmd) (h : Nat) (toks : List Nat) : Prop :=
  (∃ r, (t.part p).req h = some r ∧ r.chain.words = toks ∧ r.model = c.model ∧ r.deadline = c.f 32 8 ∧ r.length = 0 ∧
    r.priority = c.f 28 1 % 8 ∧ (t.part p).rqt.admitted = satAdd (s.part p).rqt.admitted 1 ∧
    ((s.part p).activeLimit ≤ (s.part p).activeCount → r.state = .queued) ∧
    ((s.part p).activeCount < (s.part p).activeLimit → r.state = .opened ∨ (r.state = .queued ∧ (s.part p).queueNoPages = true))) ∨
  ((s.part p).activeCount < (s.part p).activeLimit ∧ (s.part p).queueNoPages = false ∧ (t.part p).reqs = (s.part p).reqs ∧
    (t.part p).rqt.refused = satAdd (s.part p).rqt.refused 1)

section

variable {s t : State} {p : Part} {c : Cmd} {h : Nat} {toks : List Nat}

/-- A command that completes changes nothing of a partition but its queues and its commands. -/
theorem State.part_done_eq {α : Type} (g : Partition → α) (hg : ∀ (q : Partition) a b, g { q with sub := a, taken := b } = g q) (s : State) (p : Part)
    (c : Cmd) (status b : Nat) : g ((s.done (.part p) c status b).part p) = g (s.part p) := by
  have htells := (s.done_tells (.part p) c status b).parts p
  have htaken : (s.modTaken (.part p) fun l => l.filter fun d => decide (d.id ≠ c.id)).part p =
      { s.part p with taken := (s.part p).taken.filter fun d => decide (d.id ≠ c.id) } :=
    State.part_modPart _ _ _
  rw [htells, htaken]
  exact hg (s.part p) _ _

/-- A refusal is counted, and the command completes (R68). -/
theorem State.refuse_eq (s : State) (p : Part) (c : Cmd) (code : Nat) :
    ((s.refuse p c code).part p).reqs = (s.part p).reqs ∧ ((s.refuse p c code).part p).rqt.refused = satAdd (s.part p).rqt.refused 1 := by
  refine ⟨(State.part_done_eq Partition.reqs (fun _ _ _ => rfl) _ _ _ _ _).trans ?_,
    (State.part_done_eq (fun q => q.rqt.refused) (fun _ _ _ => rfl) _ _ _ _ _).trans ?_⟩
  · rw [State.part_modPart]
  · rw [State.part_modPart]

theorem State.refuse_taken_only (ht : (t.part p).taken = [c]) (code : Nat) : ((t.refuse p c code).part p).taken = [] :=
  State.done_taken_only ((congrArg Partition.taken (State.part_modPart _ _ _)).trans ht) _ _

/-- An entry made, and the command then complete. -/
theorem State.Admits.entry {u : State} {r : Req} (ht : (u.part p).taken = [c]) (hr : (u.part p).req h = some r)
    (hkept : r.chain.words = toks ∧ r.model = c.model ∧ r.deadline = c.f 32 8 ∧ r.length = 0 ∧ r.priority = c.f 28 1 % 8)
    (hcount : (u.part p).rqt.admitted = satAdd (s.part p).rqt.admitted 1)
    (hfull : (s.part p).activeLimit ≤ (s.part p).activeCount → r.state = .queued)
    (hroom : (s.part p).activeCount < (s.part p).activeLimit → r.state = .opened ∨ (r.state = .queued ∧ (s.part p).queueNoPages = true)) (b : Nat) :
    ((u.done (.part p) c stOk b).part p).taken = [] ∧ State.Admits s (u.done (.part p) c stOk b) p c h toks := by
  obtain ⟨hwords, hmodel, hdeadline, hlength, hpriority⟩ := hkept
  exact ⟨State.done_taken_only ht _ _, .inl ⟨r, (State.part_done_eq (fun q => q.req h) (fun _ _ _ => rfl) _ _ _ _ _).trans hr, hwords, hmodel,
    hdeadline, hlength, hpriority, (State.part_done_eq (fun q => q.rqt.admitted) (fun _ _ _ => rfl) _ _ _ _ _).trans hcount, hfull, hroom⟩⟩

/-- Steps 4 to 7 of REQ_OPEN, with list blocks for its chain (R261). -/
theorem State.admission_admits {m' : Model} {ch : Chain} (smp : Sampling) (ht : (s.part p).taken = [c])
    (hp : (((s.part p).carved c.model s.ashList).model c.model).bind (fun x => x.pushAll h ⟨[], []⟩ toks) = some (m', ch)) :
    ((s.admission p c h smp toks).part p).taken = [] ∧ State.Admits s (s.admission p c h smp toks) p c h toks := by
  have hwords : ch.words = toks := by
    obtain ⟨m, -, hm⟩ := Option.bind_eq_some_iff.1 hp
    exact (Model.pushAll_words hm).trans (List.nil_append _)
  simp only [State.admission, hp]
  have hcarved : (s.part p).OnlyModels (((s.part p).carved c.model s.ashList).modModel c.model fun _ => m') :=
    (Partition.carved_onlyModels _ _ _).trans (Partition.modModel_onlyModels _ _ _)
  generalize ((s.part p).carved c.model s.ashList).modModel c.model (fun _ => m') = q at hcarved ⊢
  generalize hr : ({ c.newReq ((s.part p).carved c.model s.ashList) s.now s.uptime smp with chain := ch, lists := List.map _ _ } : Req) = r
  have hkept : r.state = .queued ∧ r.chain.words = toks ∧ r.model = c.model ∧ r.deadline = c.f 32 8 ∧ r.length = 0 ∧
      r.priority = c.f 28 1 % 8 := by
    rw [← hr]
    exact ⟨rfl, hwords, rfl, rfl, rfl, rfl⟩
  obtain ⟨hstate, hkept⟩ := hkept
  have hwalk : (s.part p).OnlyModels (q.lookup r toks s.now s.ashList).1 := hcarved.trans (q.lookup_onlyModels ..)
  generalize (q.lookup r toks s.now s.ashList).1 = w at hwalk ⊢
  have hbefore : (s.modPart p fun q => (q.lookup r toks s.now s.ashList).1).part p =
      { s.part p with models := ((s.part p).lookup r toks s.now s.ashList).1.models } := by
    rw [State.part_modPart]
    exact ((s.part p).lookup_onlyModels r toks s.now s.ashList).eq
  generalize (s.modPart p fun q => (q.lookup r toks s.now s.ashList).1) = before at hbefore ⊢
  have hmade : (s.modPart p fun _ => { w with reqs := insertA w.reqs h r, rqt := { w.rqt with admitted := satAdd w.rqt.admitted 1 } }).part p =
      { s.part p with
        models := w.models, reqs := insertA (s.part p).reqs h r,
        rqt := { (s.part p).rqt with admitted := satAdd (s.part p).rqt.admitted 1 } } := by
    rw [State.part_modPart, hwalk.eq]
  generalize (s.modPart p fun _ => { w with reqs := insertA w.reqs h r, rqt := { w.rqt with admitted := satAdd w.rqt.admitted 1 } }) = u
    at hmade ⊢
  have hentry : (u.part p).req h = some r := by
    rw [hmade]
    exact lookupA_insertA_same _ _ _
  have hqueued (hroom : (s.part p).activeCount < (s.part p).activeLimit → (s.part p).queueNoPages = true) :
      (((u.tellQueued p h).done (.part p) c stOk h).part p).taken = [] ∧ State.Admits s ((u.tellQueued p h).done (.part p) c stOk h) p c h toks := by
    obtain ⟨⟨k, hk⟩, htold⟩ := u.tellQueued_eq p h
    refine State.Admits.entry (r := { r with queuePos := k }) ?_ (hk.trans (congrArg _ hentry)) hkept ?_ (fun _ => hstate)
      (fun hlt => .inr ⟨hstate, hroom hlt⟩) _
    · rw [htold, hmade]; exact ht
    · rw [htold, hmade]
  have hcounts : (before.part p).activeCount = (s.part p).activeCount ∧ (before.part p).activeLimit = (s.part p).activeLimit := by
    rw [hbefore]
    exact ⟨rfl, rfl⟩
  rw [hcounts.1, hcounts.2]
  split
  · next hlt =>
    split
    · next t ha =>
      obtain ⟨⟨r', hr', hopened, hchain, hmodel, hdeadline, hlength, hpriority⟩, hpart⟩ := State.activate_eq ha hentry
      obtain ⟨hwords', hmodel', hdeadline', hlength', hpriority'⟩ := hkept
      have htold (v : Ev) := (State.toReq_tells (.refl t) p h v).parts p
      refine State.Admits.entry (r := r') ?_ ?_ ⟨by rw [hchain, hwords'], hmodel.trans hmodel', hdeadline.trans hdeadline', hlength.trans hlength',
        hpriority.trans hpriority'⟩ ?_ (fun hle => absurd hlt (Nat.not_lt.2 hle)) (fun _ => .inl hopened) _
      · rw [htold, hpart, hmade]; exact ht
      · rw [htold]; exact hr'
      · rw [htold, hpart, hmade]
    · have hmode : (u.part p).queueNoPages = (s.part p).queueNoPages := by rw [hmade]; rfl
      rw [hmode]
      cases hno : (s.part p).queueNoPages with
      | true => exact hqueued fun _ => hno
      | false =>
        obtain ⟨hreqs, hrefused⟩ := before.refuse_eq p c admitNoPages
        rw [hbefore] at hreqs hrefused
        refine ⟨?_, .inr ⟨hlt, hno, hreqs, hrefused⟩⟩
        exact State.refuse_taken_only (by rw [hbefore]; exact ht) _
  · next hge => exact hqueued fun hlt => absurd hlt hge

end

/-- Settles O56: at a boundary the command taken is `reqOpen`, and nothing more waits; what it comes to is `admission_admits`. -/
theorem requestsOpen : Obligations.RequestsOpen := by
  unfold Obligations.RequestsOpen
  refine ⟨fun s p c st x hx ht hop hread hrun hstep hnext => ?waits, fun s c x hx hpick => ?owner, fun s p c hturn => ⟨fun hfail => ?fails,
    fun port hok hgot hport hlive => ?reads, fun b f g h m m' ch hok hgot hsmp hm hvocab hfree hlive hp => ?opens⟩⟩
  case waits =>
    rw [exec_boundaryRow hx, ← hop, State.boundaryCmd_waits ht hread hrun (by rw [hstep]; rfl) hnext]
  case owner =>
    rcases List.mem_cons.1 hx with rfl | hx
    · exact ⟨_, congrArg Host.Outcome.next (State.forPart_owner _ hpick), s.done_tells .owner c _ _⟩
    · exact ⟨_, (exec_boundaryRow hx s).trans (congrArg Host.Outcome.next (State.forPart_owner _ hpick)), s.done_tells .owner c _ _⟩
  case fails =>
    have hdone : s.reqOpen p c = s.done (.part p) c (s.openTest p c) := if_pos hfail
    refine ⟨_, exec_reqOpen_turn hturn, ?_⟩
    rw [hdone, State.runBoundary_of_empty (State.done_taken_only hturn.1 _ _)]
    exact s.done_tells (.part p) c _ _
  case reads =>
    have hopen : s.reqOpen p c = s.cmdRead (.part p) c (c.f 52 8) 32 := by
      unfold State.reqOpen
      dsimp only
      rw [if_neg (not_not.2 hok), hgot]
    obtain ⟨hpart, hreads⟩ := State.cmdRead_only hturn.1 hport hlive (c.f 52 8) 32
    refine ⟨_, exec_reqOpen_turn hturn, ?_⟩
    rw [hopen, State.runBoundary_of_turnless fun d hd => ?_]
    · exact ⟨congrArg Partition.taken hpart, hreads, (congrArg Partition.reqs hpart).trans rfl⟩
    · rw [hpart] at hd ⊢
      rw [List.mem_singleton.1 hd]
      simp [Cmd.turn, Cmd.eligible]
  case opens =>
    have hids {l : List Byte} (hl : ∀ n ∈ tokensOf l, n < m.pkg.model.vocab) : ((tokensOf l).any fun n => decide (m.pkg.model.vocab ≤ n)) = false := by
      simpa using hl
    have hopen : s.reqOpen p c = s.admission p c h (samplingOf b) (tokensOf g) := by
      unfold State.reqOpen
      dsimp only
      rw [if_neg (not_not.2 hok), hgot]
      dsimp only
      rw [if_neg (by rw [hsmp]; decide), hm, hfree, hids fun n hn => hvocab n (List.mem_append_left _ hn),
        hids fun n hn => hvocab n (List.mem_append_right _ hn), if_neg Bool.false_ne_true]
      dsimp only
      rw [if_neg (Nat.not_le.2 hlive), if_neg Bool.false_ne_true]
    obtain ⟨htaken, hadmits⟩ := State.admission_admits (samplingOf b) hturn.1 hp
    refine ⟨_, exec_reqOpen_turn hturn, ?_⟩
    rw [hopen, State.runBoundary_of_empty htaken]
    exact ⟨htaken, hadmits⟩

end Sys2Proof.Machine

namespace Sys2Proof.Machine

/-! ## What leaves the formed step of a partition alone

A formation calls on most of the stoker: it ends, parks and admits requests, spills pages and evicts index nodes. None of that touches the
formed step, nor the ROLE; only the choice adds picks to it. -/

/-- The formed step of a partition and its ROLE are as they were. -/
structure State.SameForm (p : Part) (s t : State) : Prop where
  formed : (t.part p).formed = (s.part p).formed
  role : (t.part p).role = (s.part p).role

namespace State.SameForm

variable {p : Part} {s t u : State}

theorem refl (p : Part) (s : State) : State.SameForm p s s := ⟨rfl, rfl⟩

theorem trans (h : State.SameForm p s t) (k : State.SameForm p t u) : State.SameForm p s u :=
  ⟨k.formed.trans h.formed, k.role.trans h.role⟩

theorem of_parts (h : t.parts = s.parts) : State.SameForm p s t := by
  have hpart : t.part p = s.part p := congrArg (·.get p) h
  exact ⟨congrArg Partition.formed hpart, congrArg Partition.role hpart⟩

theorem of_calm (h : State.Calm s t) : State.SameForm p s t :=
  ⟨h.part_eq Partition.formed (fun _ _ _ _ => rfl) p, h.part_eq Partition.role (fun _ _ _ _ => rfl) p⟩

theorem modPart (h : State.SameForm p s t) {f : Partition → Partition}
    (hf : (f (t.part p)).formed = (t.part p).formed ∧ (f (t.part p)).role = (t.part p).role) : State.SameForm p s (t.modPart p f) := by
  refine h.trans ⟨?_, ?_⟩
  · rw [State.part_modPart]; exact hf.1
  · rw [State.part_modPart]; exact hf.2

theorem modReq (h : State.SameForm p s t) (n : Nat) (f : Req → Req) : State.SameForm p s (t.modReq p n f) := h.modPart ⟨rfl, rfl⟩

theorem foldl {α : Type} {f : State → α → State} (hf : ∀ s x, State.SameForm p s (f s x)) (l : List α) (s : State) :
    State.SameForm p s (l.foldl f s) := by
  induction l generalizing s with
  | nil => exact .refl p s
  | cons x l ih => exact (hf s x).trans (ih _)

theorem toReq (h : State.SameForm p s t) (n : Nat) (v : Ev) : State.SameForm p s (t.toReq p n v) :=
  h.trans (.of_calm (State.toReq_tells (.refl t) p n v).calm)

theorem toPart (h : State.SameForm p s t) (e : Fin 16) (v : Ev) : State.SameForm p s (t.toPart p e v) := h.trans (.of_calm (t.toPart_calm p e v))

end State.SameForm

theorem Partition.OnlyModels.sameForm {q r : Partition} (h : q.OnlyModels r) : r.formed = q.formed ∧ r.role = q.role := by
  rw [h.eq]
  exact ⟨rfl, rfl⟩

section

variable (s : State) (p : Part)

/-! ### Requests end, and what waits for them -/

theorem State.sendOn_parts (i : Port) (o : Out) : (s.sendOn i o).parts = s.parts := by
  unfold State.sendOn
  split <;> rfl

theorem State.writeRecord_sameForm (h : Nat) (token : W32) (logprob : W16) (isEnd missed drafted : Bool) :
    State.SameForm p s (s.writeRecord p h token logprob isEnd missed drafted) := by
  unfold State.writeRecord
  split
  · exact (State.SameForm.of_parts (s.sendOn_parts _ _)).modReq _ _
  · exact .refl p s

theorem State.readConsumed_sameForm (h : Nat) : State.SameForm p s (s.readConsumed p h) := by
  unfold State.readConsumed
  split
  · split
    · exact .refl p s
    · split
      · exact (State.SameForm.of_calm (s.issueRead_calm _ _ _ _)).modReq _ _
      · exact .refl p s
  · exact .refl p s

theorem State.endReq_sameForm (h : Nat) (st : ReqState) : State.SameForm p s (s.endReq p h st) := by
  unfold State.endReq
  split
  · exact .refl p s
  · next r _ =>
    dsimp only
    have hreleased := ((s.part p).releasePages_onlyModels r).trans (Partition.releaseChain_onlyModels _ ((s.part p).releasePages r).2)
    generalize ((s.part p).releasePages r).1.releaseChain ((s.part p).releasePages r).2 = x at hreleased ⊢
    exact (State.SameForm.refl p s).modPart hreleased.sameForm

theorem State.settle_sameForm : State.SameForm p s (s.settle p) := by
  refine .foldl (fun s c => ?_) _ _
  have hdone (t : State) : State.SameForm p t (t.done (.part p) c stOk) := .of_calm (t.done_calm _ _ _ _)
  split
  · dsimp only
    split
    · split
      · split
        · exact .refl p s
        · exact hdone s
      · exact hdone s
    · split
      · exact .refl p s
      · refine State.SameForm.trans ?_ (hdone _)
        refine State.SameForm.trans ?_ (.of_calm (State.modRepairs_calm _ _ _))
        exact State.SameForm.trans (t := s.modPart p fun q => q.dropModel c.model) ((State.SameForm.refl p s).modPart ⟨rfl, rfl⟩) (.of_parts rfl)
  · exact .refl p s

theorem State.finishReq_sameForm (h cause : Nat) : State.SameForm p s (s.finishReq p h cause) := by
  unfold State.finishReq
  split
  · exact .refl p s
  · exact ((State.SameForm.refl p s).toReq _ _).trans (State.endReq_sameForm _ p _ _)

theorem State.expireReq_sameForm (h : Nat) : State.SameForm p s (s.expireReq p h) := by
  unfold State.expireReq
  split
  · exact .refl p s
  · exact (((State.SameForm.refl p s).toReq _ _).trans (State.endReq_sameForm _ p _ _)).modPart ⟨rfl, rfl⟩

theorem State.faultOut_sameForm (h : Nat) (v : Ev) : State.SameForm p s (s.faultOut p h v) :=
  ((((State.SameForm.refl p s).toReq _ _).modReq _ _).trans (State.endReq_sameForm _ p _ _)).trans (State.settle_sameForm _ p)

theorem State.endOnly_sameForm (h endAs : Nat) : State.SameForm p s (s.endOnly p h endAs) := by
  unfold State.endOnly
  split
  · exact .refl p s
  · split
    · refine State.SameForm.trans ?_ (State.settle_sameForm _ p)
      split
      · exact State.SameForm.trans (s.writeRecord_sameForm ..) (State.expireReq_sameForm ..)
      · exact State.SameForm.trans (s.writeRecord_sameForm ..) (State.finishReq_sameForm ..)
    · exact ((State.SameForm.refl p s).modReq _ _).trans (State.readConsumed_sameForm _ p _)

theorem State.deadline_sameForm (h : Nat) : State.SameForm p s (s.deadline p h) := by
  unfold State.deadline
  split
  · exact .refl p s
  · split
    · split
      · exact ((State.SameForm.refl p s).toReq _ _).modReq _ _
      · exact s.endOnly_sameForm p _ _
    · exact .refl p s

theorem State.checkDeadlines_sameForm : State.SameForm p s (s.checkDeadlines p) := by
  unfold State.checkDeadlines
  split
  · exact .foldl (fun s _ => s.deadline_sameForm p _) _ _
  · exact .refl p s

theorem State.endClosers_sameForm (wrote : List Nat) : State.SameForm p s (s.endClosers p wrote) := by
  refine .foldl (fun s x => ?_) _ _
  split
  · split
    · exact s.endOnly_sameForm p _ _
    · exact .refl p s
  · exact .refl p s

theorem State.readRings_sameForm : State.SameForm p s (s.readRings p) := by
  refine .foldl (fun s h => ?_) _ _
  split
  · split
    · exact s.readConsumed_sameForm p _
    · exact .refl p s
  · exact .refl p s

/-! ### Lost data (R344) and rewinding (R273) -/

theorem State.dropLostNodes_sameForm : State.SameForm p s (s.dropLostNodes p) := by
  refine .foldl (fun s m => ?_) _ _
  dsimp only
  split
  · exact .refl p s
  · exact ((State.SameForm.refl p s).modPart ⟨rfl, rfl⟩).modPart ⟨rfl, rfl⟩

end

theorem Partition.rewindList_onlyModels (h : Nat) (x : Nat × Nat × ShardRec) (ash : List Nat) (n : Nat) (q : Partition) (c : Chain) (j : Nat) :
    q.OnlyModels (q.rewindList h x c ash j n).1 := by
  induction n generalizing q c j with
  | zero => exact ⟨rfl⟩
  | succ n ih =>
    unfold Partition.rewindList
    split
    · split
      · dsimp only
        split
        · exact (q.modModel_onlyModels _ _).trans (ih _ _ _)
        · exact q.modModel_onlyModels _ _
      · exact (q.modModel_onlyModels _ _).trans (ih _ _ _)
    · exact ⟨rfl⟩

theorem Partition.rewindLists_onlyModels (h length j : Nat) (ash : List Nat) (l : List (Nat × Nat × ShardRec)) (q : Partition) (cs : List Chain) :
    q.OnlyModels (q.rewindLists h length j ash l cs).1 := by
  have hring (x : Nat × Nat × ShardRec) (l : List Nat) (acc : Partition × Chain) :
      acc.1.OnlyModels (l.foldl (fun (acc : Partition × Chain) i =>
        if decide (64 * j ≤ x.2.2.posOf i 0 length) || decide (length = 0) then acc.1.rewindList h x acc.2 ash i 1 else acc) acc).1 := by
    induction l generalizing acc with
    | nil => exact ⟨rfl⟩
    | cons i l ih =>
      refine Partition.OnlyModels.trans ?_ (ih _)
      dsimp only
      split
      · exact Partition.rewindList_onlyModels ..
      · exact ⟨rfl⟩
  induction l generalizing q cs with
  | nil => exact ⟨rfl⟩
  | cons x l ih =>
    cases cs with
    | nil => exact ⟨rfl⟩
    | cons c cs =>
      unfold Partition.rewindLists
      dsimp only
      refine Partition.OnlyModels.trans ?_ (ih _ _)
      split
      · exact Partition.rewindList_onlyModels ..
      · exact hring x _ (q, c)

section

variable (s : State) (p : Part)

theorem State.rewind_sameForm (h j : Nat) : State.SameForm p s (s.rewind p h j) := by
  unfold State.rewind
  split
  · exact .refl p s
  · next r _ =>
    dsimp only
    have hlists := Partition.rewindLists_onlyModels h r.length ((s.part p).rewindEntry r j) s.ashList ((s.part p).reqShards r) (s.part p) r.lists
    refine ((State.SameForm.refl p s).modPart ?_).toReq _ _
    dsimp only
    split
    · next hfix => exact (hlists.trans (Partition.fixDirectory_eq hfix).1).sameForm
    · exact hlists.sameForm

theorem State.clearLost_sameForm (h : Nat) : State.SameForm p s (s.clearLost p h) := (State.SameForm.refl p s).modPart ⟨rfl, rfl⟩

theorem State.countDeferred_sameForm : State.SameForm p s (s.countDeferred p) := by
  unfold State.countDeferred State.alertFault
  split
  · have halert (t : State) : State.SameForm p t t.assertAlert := .of_parts rfl
    exact State.SameForm.trans ((State.SameForm.refl p s).modPart ⟨rfl, rfl⟩) (halert _)
  · exact (State.SameForm.refl p s).modPart ⟨rfl, rfl⟩

theorem State.lossOutcome_sameForm (h : Nat) : State.SameForm p s (s.lossOutcome p h) := by
  unfold State.lossOutcome
  split
  · exact .refl p s
  · dsimp only
    have hback (j : Nat) : State.SameForm p s (if (s.part p).rewindOnLoss = true then (s.clearLost p h).rewind p h j
        else (((s.clearLost p h).modReq p h fun r => { r with fault := 0x3020 }).endReq p h .faulted).settle p) := by
      split
      · exact (s.clearLost_sameForm p h).trans (State.rewind_sameForm _ p _ _)
      · exact (((s.clearLost_sameForm p h).modReq _ _).trans (State.endReq_sameForm _ p _ _)).trans (State.settle_sameForm _ p)
    split
    · exact .refl p s
    · exact ((s.clearLost_sameForm p h).trans (State.countDeferred_sameForm _ p)).trans (State.faultOut_sameForm _ p _ _)
    · exact hback _
    · exact hback _
    · split
      · exact hback _
      · exact hback _

theorem State.takeOutcomes_sameForm : State.SameForm p s (s.takeOutcomes p) := by
  unfold State.takeOutcomes
  split
  · exact .refl p s
  · refine .foldl (fun s x => ?_) _ _
    split
    · exact .refl p s
    · split
      · split
        · exact s.lossOutcome_sameForm p _
        · split
          · split
            · exact s.rewind_sameForm p _ _
            · exact .refl p s
          · exact .refl p s
      · exact .refl p s

/-! ### Pages that spill, return and are waited for (R229-R233, R275-R277) -/

theorem State.modPage_sameForm (handle page : Nat) (f : PageDesc → PageDesc) : State.SameForm p s (s.modPage p handle page f) :=
  (State.SameForm.refl p s).modPart ⟨rfl, rfl⟩

theorem State.arrive_sameForm (q : Option Part) (k : XferKind) : State.SameForm p s (s.arrive q k) := .of_parts rfl

variable {s p} in
theorem State.startSpill_sameForm {t : State} {handle page : Nat} (h : s.startSpill p handle page = some t) : State.SameForm p s t := by
  obtain ⟨area, -, rfl⟩ := Option.map_eq_some_iff.1 h
  exact State.SameForm.trans ((s.modPage_sameForm p _ _ _).modPart ⟨rfl, rfl⟩) (State.arrive_sameForm _ p _ _)

theorem State.tellFull_sameForm (left : Nat) : State.SameForm p s (s.tellFull p left) := by
  unfold State.tellFull
  dsimp only
  split
  · exact .refl p s
  · exact ((State.SameForm.refl p s).modPart ⟨rfl, rfl⟩).toPart _ _

theorem State.spillSome_sameForm (l : List (Nat × Nat)) (n : Nat) : State.SameForm p s (s.spillSome p l n) := by
  induction l generalizing s n with
  | nil => exact .refl p s
  | cons x l ih =>
    cases n with
    | zero => exact .refl p s
    | succ n =>
      unfold State.spillSome
      split
      · next hs => exact (State.startSpill_sameForm hs).trans (ih _ _)
      · exact s.tellFull_sameForm p _

theorem State.spillPart_sameForm (handle i : Nat) : State.SameForm p s (s.spillPart p handle i) := by
  unfold State.spillPart
  dsimp only
  split
  · exact .refl p s
  · split
    · exact (s.spillSome_sameForm p _ _).modPart ⟨rfl, rfl⟩
    · exact .refl p s

theorem State.spillPolicy_sameForm : State.SameForm p s (s.spillPolicy p) := by
  unfold State.spillPolicy
  dsimp only
  split
  · refine State.SameForm.trans (.foldl (fun s (m : Model) => .foldl (fun s i => s.spillPart_sameForm p m.handle i) _ _) _ _) (.foldl (fun s x => ?_) _ _)
    split
    · exact s.spillSome_sameForm p _ _
    · exact .refl p s
  · exact .refl p s

end

theorem Partition.startFetch_onlyModels {q r : Partition} {handle page : Nat} (h : q.startFetch handle page = some r) : q.OnlyModels r := by
  unfold Partition.startFetch at h
  split at h
  · split at h
    · cases h; exact q.modModel_onlyModels _ _
    · exact absurd h nofun
  · exact absurd h nofun

section

variable (s : State) (p : Part)

theorem State.fetchReq_sameForm (h : Nat) : State.SameForm p s (s.fetchReq p h) := by
  unfold State.fetchReq
  split
  · exact .refl p s
  · refine .foldl (fun s x => ?_) _ _
    dsimp only
    split
    · next hq =>
      exact ((State.SameForm.refl p s).modPart (Partition.startFetch_onlyModels hq).sameForm).trans (State.arrive_sameForm _ p _ _)
    · split
      · split
        · exact s.spillSome_sameForm p _ _
        · exact .refl p s
      · exact .refl p s

theorem State.wantPages_sameForm (h : Nat) : State.SameForm p s (s.wantPages p h) :=
  ((State.SameForm.refl p s).modReq _ _).trans (State.fetchReq_sameForm _ p _)

theorem State.enterWait_sameForm (h : Nat) (lack : List Nat) : State.SameForm p s (s.enterWait p h lack) := by
  unfold State.enterWait
  split
  · exact .refl p s
  · exact ((State.SameForm.refl p s).modPart ⟨rfl, rfl⟩).toReq _ _

theorem State.walkFor_sameForm (h n : Nat) : State.SameForm p s (s.walkFor p h n).2 := by
  unfold State.walkFor
  split
  · exact .refl p s
  · next r _ =>
    have hwalk := ((s.part p).walk_eq h r n s.ashList).1.sameForm
    dsimp only
    generalize (s.part p).walk h r n s.ashList = x at hwalk ⊢
    have hwalked : State.SameForm p s (s.modPart p fun _ => x.1.modReq h fun _ => x.2.1) := (State.SameForm.refl p s).modPart hwalk
    split
    · exact hwalked
    · exact hwalked.trans (State.enterWait_sameForm _ p _ _)

theorem State.checkSpilled_sameForm (h : Nat) : State.SameForm p s (s.checkSpilled p h) := by
  unfold State.checkSpilled
  split
  · exact .refl p s
  · dsimp only
    split
    · split
      · exact (((State.SameForm.refl p s).modReq _ _).modPart ⟨rfl, rfl⟩).toReq _ _
      · exact (State.SameForm.refl p s).modReq _ _
    · exact .refl p s

theorem State.evict_sameForm (h waiter : Nat) : State.SameForm p s (s.evict p h waiter) := by
  unfold State.evict
  split
  · exact .refl p s
  · next r _ =>
    have hreleased := ((s.part p).releasePages_onlyModels r).sameForm
    dsimp only
    generalize (s.part p).releasePages r = x at hreleased ⊢
    exact ((State.SameForm.refl p s).modPart hreleased).toReq _ _

variable {s p} in
theorem State.spillWhole_sameForm {t : State} {h : Nat} (hs : s.spillWhole p h = some t) : State.SameForm p s t := by
  have hspills : ∀ (l : List (Nat × Nat)) (o : Option State), (∀ u, o = some u → State.SameForm p s u) →
      ∀ u, l.foldl (fun acc x => acc.bind fun s => s.startSpill p x.1 x.2) o = some u → State.SameForm p s u := by
    intro l
    induction l with
    | nil => exact fun o ho => ho
    | cons x l ih =>
      refine fun o ho => ih _ fun u hu => ?_
      obtain ⟨v, hv, hu⟩ := Option.bind_eq_some_iff.1 hu
      exact (ho v hv).trans (State.startSpill_sameForm hu)
  unfold State.spillWhole at hs
  split at hs
  · exact absurd hs nofun
  · split at hs
    · exact hspills _ _ (fun u hu => Option.some.inj hu ▸ .refl p s) t hs
    · exact absurd hs nofun

theorem State.preempt_sameForm (waiter victim : Nat) : State.SameForm p s (s.preempt p waiter victim) := by
  unfold State.preempt
  dsimp only
  split
  · next hs =>
    split at hs
    · exact (State.spillWhole_sameForm hs).trans (State.checkSpilled_sameForm _ p _)
    · exact absurd hs nofun
  · split
    · exact (s.evict_sameForm p _ _).modPart ⟨rfl, rfl⟩
    · exact (State.SameForm.refl p s).modPart ⟨rfl, rfl⟩

theorem State.spillFor_sameForm (h n : Nat) (l : List (Nat × Nat)) : State.SameForm p s (s.spillFor p h n l) := by
  induction l generalizing s with
  | nil => exact .refl p s
  | cons x l ih =>
    unfold State.spillFor
    split
    · exact .refl p s
    · dsimp only
      split
      · exact .refl p s
      · split
        · split
          · next hs => exact (State.startSpill_sameForm hs).trans (ih _)
          · exact s.tellFull_sameForm p _
        · exact ih s

theorem State.chooseVictims_sameForm (h n : Nat) (l : List (Nat × Req)) : State.SameForm p s (s.chooseVictims p h n l) := by
  induction l generalizing s with
  | nil => exact .refl p s
  | cons x l ih =>
    unfold State.chooseVictims
    split
    · exact .refl p s
    · dsimp only
      split
      · exact .refl p s
      · split
        · exact ih s
        · refine State.SameForm.trans ?_ (ih _)
          have hpromised : State.SameForm p s (s.modPart p fun q => { q with victims := q.victims ++ [(h, x.1)] }) :=
            (State.SameForm.refl p s).modPart ⟨rfl, rfl⟩
          split
          · exact hpromised.trans (State.preempt_sameForm _ p _ _)
          · exact hpromised

theorem State.helpWaiter_sameForm (h n : Nat) : State.SameForm p s (s.helpWaiter p h n) := by
  unfold State.helpWaiter
  split
  · exact .refl p s
  · dsimp only
    split
    · split
      · exact s.spillFor_sameForm p _ _ _
      · exact (s.spillFor_sameForm p _ _ _).trans (State.chooseVictims_sameForm _ p _ _ _)
    · split
      · exact .refl p s
      · exact s.chooseVictims_sameForm p _ _ _

theorem State.evictFor_sameForm (h n : Nat) : State.SameForm p s (s.evictFor p h n) := by
  induction n generalizing s with
  | zero => exact .refl p s
  | succ n ih =>
    unfold State.evictFor
    dsimp only
    split
    · exact .refl p s
    · split
      · split
        · exact ((State.SameForm.refl p s).modPart ⟨rfl, rfl⟩).trans (ih _)
        · exact .refl p s
      · exact .refl p s

theorem State.helpWaits_sameForm : State.SameForm p s (s.helpWaits p) := by
  refine .foldl (fun s h => ?_) _ _
  dsimp only
  split
  · exact s.evictFor_sameForm p _ _
  · split
    · exact s.evictFor_sameForm p _ _
    · exact (s.evictFor_sameForm p _ _).trans (State.helpWaiter_sameForm _ p _ _)

theorem State.retryWaits_sameForm : State.SameForm p s (s.retryWaits p) := by
  refine .foldl (fun s h => ?_) _ _
  split
  · exact .refl p s
  · next r _ =>
    have hwalk := ((s.part p).walk_eq h r ((s.part p).waitLength r) s.ashList).1.sameForm
    dsimp only
    generalize (s.part p).walk h r ((s.part p).waitLength r) s.ashList = x at hwalk ⊢
    split
    · exact ((State.SameForm.refl p s).modPart hwalk).toReq _ _
    · exact (State.SameForm.refl p s).modPart hwalk

theorem State.returnSpilled_sameForm : State.SameForm p s (s.returnSpilled p) := by
  refine .foldl (fun s h => ?_) _ _
  split
  · exact .refl p s
  · split
    · exact ((State.SameForm.refl p s).modReq _ _).toReq _ _
    · exact .refl p s

variable {s p} in
theorem State.activate_sameForm {t : State} {h : Nat} (ha : s.activate p h = some t) : State.SameForm p s t := by
  cases hr : (s.part p).req h with
  | none => rw [State.activate, hr] at ha; exact absurd ha nofun
  | some r =>
    have hpart := (State.activate_eq ha hr).2
    exact ⟨(congrArg Partition.formed hpart).trans rfl, (congrArg Partition.role hpart).trans rfl⟩

theorem State.admitQueue_sameForm (l : List Nat) : State.SameForm p s (s.admitQueue p l) := by
  induction l generalizing s with
  | nil => exact .refl p s
  | cons h l ih =>
    unfold State.admitQueue
    split
    · split
      · exact .refl p s
      · next ha => exact (((State.activate_sameForm ha).modPart ⟨rfl, rfl⟩).toReq _ _).trans (ih _)
    · exact .refl p s

theorem State.noteStreams_parts : (s.noteStreams p).parts = s.parts := by
  refine State.foldl_unchanged State.parts _ (fun s m => State.foldl_unchanged State.parts _ (fun s g => ?_) _ _) _ _
  split
  · split <;> rfl
  · rfl

/-! ### Requests that sit a step out (R75, R152, R233, R265) -/

theorem State.sitOutRing_sameForm (h : Nat) (r : Req) : State.SameForm p s (s.sitOutRing p h r) := by
  unfold State.sitOutRing
  dsimp only
  split
  · exact (State.SameForm.refl p s).modPart ⟨rfl, rfl⟩
  · exact (((State.SameForm.refl p s).modPart ⟨rfl, rfl⟩).toReq _ _).modReq _ _

theorem State.sitOutWeights_sameForm (h : Nat) (r : Req) (x : Repair) : State.SameForm p s (s.sitOutWeights p h r x) := by
  unfold State.sitOutWeights
  split
  · exact .refl p s
  · exact ((State.SameForm.refl p s).toReq _ _).modReq _ _

theorem State.sitOutNarrow_sameForm (h : Nat) (l : List (Nat × Nat × Nat × ShardRec × PageDesc)) : State.SameForm p s (s.sitOutNarrow p h l) := by
  unfold State.sitOutNarrow
  split
  · exact .refl p s
  · exact (State.SameForm.foldl (fun s _ => s.modPage_sameForm p _ _ _) _ _).toReq _ _

theorem State.sitOutLate_sameForm (h : Nat) : State.SameForm p s (s.sitOutLate p h) := by
  unfold State.sitOutLate
  split
  · exact .refl p s
  · exact ((State.SameForm.refl p s).modPart ⟨rfl, rfl⟩).toReq _ _

theorem State.ready_sameForm (h : Nat) (r : Req) : State.SameForm p s (s.ready? p h r).2 := by
  unfold State.ready?
  split
  · exact .refl p s
  · split
    · next x handle _ =>
      dsimp only
      split
      · exact .refl p s
      · unfold State.supplyFault
        split
        · exact .refl p s
        · exact s.faultOut_sameForm p _ _
    · split
      · exact s.sitOutWeights_sameForm p _ _ _
      · split
        · exact s.sitOutRing_sameForm p _ _
        · dsimp only
          split
          · exact s.sitOutNarrow_sameForm p _ _
          · exact .refl p s

end

end Sys2Proof.Machine

namespace Sys2Proof.Machine

/-! ## The choice of a step (R266) -/

/-- Decode requests among the picks of a formed step. -/
def Formed.decodes (f : Formed) : Nat := (f.picks.filter fun x => x.split == 0).length

/-- A formed step has at most `n` decode requests, and `n` is within the STREAM_LIMIT. -/
structure State.FormFits (p : Part) (limit n : Nat) (s : State) : Prop where
  role : (s.part p).role.streamLimit = limit
  within : n ≤ limit
  decodes : ∀ f, (s.part p).formed = some f → f.decodes ≤ n

section

variable {s t : State} {p : Part} {limit n : Nat}

theorem State.FormFits.same (h : State.FormFits p limit n s) (k : State.SameForm p s t) : State.FormFits p limit n t where
  role := by rw [k.role, h.role]
  within := h.within
  decodes := by rw [k.formed]; exact h.decodes

/-- A pick adds at most itself to the decode requests. -/
theorem State.FormFits.addPick (h : State.FormFits p limit n s) (x : Pick) {m : Nat} (hm : n + (if x.split = 0 then 1 else 0) ≤ m) (hlimit : m ≤ limit) :
    State.FormFits p limit m (s.addPick p x) where
  role := by rw [State.addPick, State.part_modPart]; exact h.role
  within := hlimit
  decodes := by
    rw [State.addPick, State.part_modPart]
    intro f hf
    obtain ⟨g, hg, rfl⟩ := Option.map_eq_some_iff.1 hf
    have hcount := h.decodes g hg
    unfold Formed.decodes at hcount ⊢
    rw [List.filter_append, List.length_append]
    by_cases hx : x.split = 0
    · simp only [hx, if_pos, List.filter_cons_of_pos, beq_self_eq_true, List.filter_nil, List.length_singleton] at hm ⊢
      omega
    · simp only [hx, if_neg, List.filter_cons, beq_iff_eq, List.filter_nil, List.length_nil, not_false_iff] at hm ⊢
      omega

theorem State.FormFits.addCand (h : State.FormFits p limit n s) (k : Nat) : State.FormFits p limit n (s.addCand p k) where
  role := by rw [State.addCand, State.part_modPart]; exact h.role
  within := h.within
  decodes := by
    rw [State.addCand, State.part_modPart]
    intro f hf
    obtain ⟨g, hg, rfl⟩ := Option.map_eq_some_iff.1 hf
    exact h.decodes g hg

end

theorem Partition.takeScratch_onlyModels {l : List Nat} {q r : Partition} {bs : List (Nat × Nat × Nat)} (h : q.takeScratch l = some (r, bs)) :
    q.OnlyModels r := by
  induction l generalizing q r bs with
  | nil =>
    simp only [Partition.takeScratch, Option.some.injEq, Prod.mk.injEq] at h
    rw [← h.1]
    exact ⟨rfl⟩
  | cons handle l ih =>
    unfold Partition.takeScratch at h
    split at h
    · obtain ⟨x, hx, he⟩ := Option.map_eq_some_iff.1 h
      cases he
      exact (q.modModel_onlyModels _ _).trans (ih hx)
    · exact absurd h nofun

/-- What the attempt to take a request comes to: no pick and the formed step as it was, or one more pick of the same split. -/
def State.TookOr (p : Part) (s : State) (split : Nat) (res : Bool × State) : Prop :=
  (res.1 = false ∧ State.SameForm p s res.2) ∨ (res.1 = true ∧ ∃ u x, State.SameForm p s u ∧ x.split = split ∧ res.2 = u.addPick p x)

theorem State.TookOr.pick {p : Part} {s : State} {split : Nat} {x : Pick × State} (h : State.SameForm p s x.2 ∧ x.1.split = split) :
    State.TookOr p s split (true, x.2.addPick p x.1) := .inr ⟨rfl, x.2, x.1, h.1, h.2, rfl⟩

theorem State.takeReq_tookOr (s : State) (p : Part) (mode : Mode) (h : Nat) (r : Req) (n : Nat) (x : Pick) :
    State.TookOr p s x.split (s.takeReq p mode h r n x) := by
  unfold State.takeReq
  have hwant : State.SameForm p s (if decide (0 < (s.part p).latePages r) = true then s.wantPages p h else s) := by
    split
    · exact s.wantPages_sameForm p h
    · exact .refl p s
  dsimp only
  generalize (if decide (0 < (s.part p).latePages r) = true then s.wantPages p h else s) = u at hwant ⊢
  split
  · exact .inl ⟨rfl, hwant.trans (u.sitOutLate_sameForm p h)⟩
  · have hwalk : State.SameForm p s (if (u.part p).running h = true then (true, u) else u.walkFor p h n).2 := by
      split
      · exact hwant
      · exact hwant.trans (u.walkFor_sameForm p h n)
    generalize (if (u.part p).running h = true then (true, u) else u.walkFor p h n) = v at hwalk ⊢
    split
    · exact .inl ⟨rfl, hwalk⟩
    · refine State.TookOr.pick ?_
      split
      · exact ⟨hwalk, rfl⟩
      · split
        · split
          · exact ⟨hwalk, rfl⟩
          · split
            · next hq => exact ⟨hwalk.modPart (Partition.takeScratch_onlyModels hq).sameForm, rfl⟩
            · exact ⟨hwalk.modPart ⟨rfl, rfl⟩, rfl⟩
        · split
          · exact ⟨hwalk, rfl⟩
          · split
            · next hq => exact ⟨hwalk.modPart (Partition.takeScratch_onlyModels hq).sameForm, rfl⟩
            · exact ⟨hwalk.modPart ⟨rfl, rfl⟩, rfl⟩

section

variable {p : Part} {limit : Nat} {c : Choice}

theorem Choice.decode_fits (hc : State.FormFits p limit c.streams c.s) (mode : Mode) (h : Nat) :
    State.FormFits p limit (c.decode p mode h).streams (c.decode p mode h).s := by
  unfold Choice.decode
  split
  · exact hc
  · next r _ =>
    split
    · exact hc
    · have hready := hc.same (c.s.ready_sameForm p h r)
      dsimp only
      generalize c.s.ready? p h r = x at hready ⊢
      split
      · exact hready
      · split
        · exact hready
        · next hroom =>
          have hroom : c.streams + 1 ≤ limit := by
            have := hready.role
            have := hready.within
            omega
          have htook := State.takeReq_tookOr x.2 p mode h r (r.length + (x.2.part p).treeDepth r + 1) { req := h, split := 0, tree := (x.2.part p).heldTree r }
          generalize x.2.takeReq p mode h r _ _ = y at htook ⊢
          rcases htook with ⟨hy, hsame⟩ | ⟨hy, u, z, hsame, hz, he⟩
          · rw [if_neg (by rw [hy]; exact Bool.false_ne_true)]
            exact hready.same hsame
          · rw [if_pos hy, he]
            exact (hready.same hsame).addPick z (by rw [if_pos hz]) hroom

theorem Choice.prompt_fits (hc : State.FormFits p limit c.streams c.s) (mode : Mode) (h : Nat) :
    State.FormFits p limit (c.prompt p mode h).streams (c.prompt p mode h).s := by
  unfold Choice.prompt
  split
  · exact hc
  · next r _ =>
    split
    · exact hc
    · have hready := hc.same (c.s.ready_sameForm p h r)
      dsimp only
      generalize c.s.ready? p h r = x at hready ⊢
      split
      · exact hready
      · split
        · exact hready.addCand h
        · split
          · exact hready
          · next hn =>
            generalize (x.2.part p).split r c.budget c.decodeReady (!c.promptReady) = n at hn ⊢
            have htook := State.takeReq_tookOr x.2 p mode h r (r.length + n) { req := h, split := n, tree := none }
            generalize x.2.takeReq p mode h r _ _ = y at htook ⊢
            rcases htook with ⟨hy, hsame⟩ | ⟨hy, u, z, hsame, hz, he⟩
            · rw [if_neg (by rw [hy]; exact Bool.false_ne_true)]
              exact hready.same hsame
            · rw [if_pos hy, he]
              exact (hready.same hsame).addPick z (by rw [if_neg (by rw [hz]; exact hn)]; exact le_rfl) hready.within

theorem Choice.foldl_fits {α : Type} {f : Choice → α → Choice}
    (hf : ∀ c x, State.FormFits p limit c.streams c.s → State.FormFits p limit (f c x).streams (f c x).s) (l : List α)
    (hc : State.FormFits p limit c.streams c.s) : State.FormFits p limit (l.foldl f c).streams (l.foldl f c).s := by
  induction l generalizing c with
  | nil => exact hc
  | cons x l ih => exact ih (hf c x hc)

end

/-- The choice over an empty formed step keeps to the STREAM_LIMIT (R266). -/
theorem State.choose_fits {s : State} {p : Part} (h : ∀ f, (s.part p).formed = some f → f.picks = []) (mode : Mode) :
    State.FormFits p (s.part p).role.streamLimit (s.part p).role.streamLimit (s.choose p mode) := by
  have hempty : State.FormFits p (s.part p).role.streamLimit 0 s := ⟨rfl, Nat.zero_le _, fun f hf => by rw [Formed.decodes, h f hf]; exact le_rfl⟩
  unfold State.choose
  dsimp only
  generalize List.filter _ ((sortBy formBefore (s.part p).reqs).map (·.1)) = l
  have hchosen := Choice.foldl_fits (fun c x hc => Choice.prompt_fits (p := p) hc mode x) l
    (Choice.foldl_fits (fun c x hc => Choice.decode_fits (p := p) hc mode x) l
      (c := ⟨s, (s.part p).role.tokenBudget, 0, false, false, false⟩) hempty)
  exact ⟨hchosen.role, le_rfl, fun f hf => (hchosen.decodes f hf).trans hchosen.within⟩

/-! ## Formation (R75, R266) -/

theorem Partition.keepFormed_formed {q : Partition} {f : Formed} (h : q.keepFormed.formed = some f) :
    q.formed = some f ∧ (f.picks ≠ [] ∨ f.cands ≠ []) := by
  unfold Partition.keepFormed at h
  split at h
  · next g hg =>
    split at h
    · exact absurd h nofun
    · next hne =>
      rw [hg] at h
      cases h
      rw [hg]
      refine ⟨rfl, ?_⟩
      rw [Bool.and_eq_true, List.isEmpty_iff, List.isEmpty_iff, not_and_or] at hne
      exact hne
  · next hg => rw [hg] at h; exact absurd h nofun

/-- A formation forms a step of at least one request, or a prompt to come, within the STREAM_LIMIT, or none (R266). -/
theorem State.formNow_formed {s : State} {p : Part} {f : Formed} (h : ((s.formNow p).part p).formed = some f) :
    (f.picks ≠ [] ∨ f.cands ≠ []) ∧ f.decodes ≤ (s.part p).role.streamLimit := by
  have hbegun : ∀ q : Partition, (((q.dropFormed s.ashList).setFormats.latchCadence).number).role = q.role := fun q => by
    rw [q.dropFormed_eq]; rfl
  unfold State.formNow at h
  dsimp only at h
  have hrole : ((s.modPart p fun q => ((q.dropFormed s.ashList).setFormats.latchCadence).number).part p).role = (s.part p).role := by
    rw [State.part_modPart, hbegun]
  generalize (s.modPart p fun q => ((q.dropFormed s.ashList).setFormats.latchCadence).number) = a at hrole h
  have hcleared := ((a.checkDeadlines_sameForm p).trans (State.dropLostNodes_sameForm _ p)).trans (State.takeOutcomes_sameForm _ p)
  generalize ((a.checkDeadlines p).dropLostNodes p).takeOutcomes p = b at hcleared h
  generalize hempty : b.modPart p _ = c at h
  have hc : (c.part p).role = (s.part p).role ∧ ∀ g, (c.part p).formed = some g → g.picks = [] := by
    rw [← hempty, State.part_modPart]
    exact ⟨hcleared.role.trans hrole, fun g hg => by cases hg; rfl⟩
  have hqueue := ((c.retryWaits_sameForm p).trans (State.returnSpilled_sameForm _ p)).trans
    (State.admitQueue_sameForm _ p ((((c.retryWaits p).returnSpilled p).part p).queue.filter fun h =>
      match (((c.retryWaits p).returnSpilled p).part p).req h with | some r => r.endAs.isNone | none => false))
  generalize ((c.retryWaits p).returnSpilled p).admitQueue p _ = d at hqueue h
  have hnumbered : State.SameForm p c (d.modPart p Partition.number) := hqueue.modPart ⟨rfl, rfl⟩
  have hready := hnumbered.trans (State.takeOutcomes_sameForm _ p)
  generalize (d.modPart p Partition.number).takeOutcomes p = e at hready h
  have hchosen := State.choose_fits (s := e) (p := p) (by rw [hready.formed]; exact hc.2)
    { last := (e.part p).atBoundary, among := none, prior := [] }
  have hhelped := hchosen.same (State.helpWaits_sameForm _ p)
  generalize (e.choose p { last := (e.part p).atBoundary, among := none, prior := [] }).helpWaits p = g at hhelped h
  have hkept := State.spillPolicy_sameForm (g.modPart p fun q => q.keepFormed.forgetReads) p
  generalize (g.modPart p fun q => q.keepFormed.forgetReads).spillPolicy p = k at hkept h
  have hend : ((if (k.part p).atBoundary = true ∧ (k.part p).formed.isNone = true then k.endClosers p [] else k).part p).formed =
      (k.part p).formed := by
    split
    · exact (k.endClosers_sameForm p []).formed
    · rfl
  have hformed : (g.part p).keepFormed.formed = some f := by
    rw [hend, hkept.formed, State.part_modPart] at h
    exact h
  obtain ⟨hg, hsome⟩ := Partition.keepFormed_formed hformed
  refine ⟨hsome, (hhelped.decodes f hg).trans_eq ?_⟩
  rw [hready.role, hc.1]

theorem exec_stepForm_waits {s : State} {p : Part} (hst : (s.part p).st = .running) (hserve : s.serving = true)
    (hwait : ((s.readRings p).part p).ringsWait = true) :
    exec (.stepForm p) s = .next ((s.readRings p).modPart p fun q => { q with forming := true }) := by
  show Host.Outcome.next _ = _
  rw [if_pos ⟨hst, hserve⟩, State.formStep, if_pos hwait]

theorem exec_stepForm_forms {s : State} {p : Part} (hst : (s.part p).st = .running) (hserve : s.serving = true)
    (hwait : ((s.readRings p).part p).ringsWait = false) :
    exec (.stepForm p) s = .next ((((s.readRings p).modPart p fun q => { q with forming := false }).formNow p).noteStreams p) := by
  show Host.Outcome.next _ = _
  rw [if_pos ⟨hst, hserve⟩, State.formStep, if_neg (by rw [hwait]; exact Bool.false_ne_true)]

/-- Reads of CONSUMED go out: of their partition only the entries change, of the others and of sheet memory nothing. -/
theorem State.readRings_frame (s : State) (p : Part) : (s.readRings p).part p = { s.part p with reqs := ((s.readRings p).part p).reqs } ∧
    (∀ i, i ≠ p → (s.readRings p).part i = s.part i) ∧ (s.readRings p).sheet = s.sheet := by
  have hread (s : State) (h : Nat) : (s.readConsumed p h).part p = { s.part p with reqs := ((s.readConsumed p h).part p).reqs } ∧
      (∀ i, i ≠ p → (s.readConsumed p h).part i = s.part i) ∧ (s.readConsumed p h).sheet = s.sheet := by
    have hissue (i : Port) (a n : Nat) (w : ReadFor) : (s.issueRead i a n w).parts = s.parts ∧ (s.issueRead i a n w).sheet = s.sheet := by
      unfold State.issueRead
      dsimp only
      split <;> exact ⟨rfl, rfl⟩
    have hpart (i : Port) (a n : Nat) (w : ReadFor) (j : Part) : (s.issueRead i a n w).part j = s.part j := congrArg (·.get j) (hissue i a n w).1
    unfold State.readConsumed
    split
    · split
      · exact ⟨rfl, fun _ _ => rfl, rfl⟩
      · split
        · refine ⟨?_, fun i hi => ?_, (hissue ..).2⟩
          · rw [State.modReq, State.part_modPart, hpart]; rfl
          · rw [State.modReq, State.part_modPart_other _ _ _ _ hi, hpart]
        · exact ⟨rfl, fun _ _ => rfl, rfl⟩
    · exact ⟨rfl, fun _ _ => rfl, rfl⟩
  unfold State.readRings
  generalize (s.part p).ringTests = l
  induction l generalizing s with
  | nil => exact ⟨rfl, fun _ _ => rfl, rfl⟩
  | cons h l ih =>
    rw [List.foldl_cons]
    split
    · split
      · obtain ⟨hp, hother, hsheet⟩ := ih (s.readConsumed p h)
        obtain ⟨hp', hother', hsheet'⟩ := hread s h
        exact ⟨by rw [hp, hp'], fun i hi => (hother i hi).trans (hother' i hi), hsheet.trans hsheet'⟩
      · exact ih s
    · exact ih s

/-! ## HEAD (R193, R208, R209) -/

theorem mem_runsOf {toks : List Tok} {r : ModelRun} (h : r ∈ runsOf toks) : r.prog = 0 ∧ r.pc = 0 ∧ r.started = false ∧ r.finished = false := by
  have hof {kind : RunKind} {l : List Nat} (h : r ∈ (l.map fun h => ({ handle := h, kind := kind } : ModelRun)).filter fun r => toks.any r.has) :
      r.prog = 0 ∧ r.pc = 0 ∧ r.started = false ∧ r.finished = false := by
    obtain ⟨m, -, rfl⟩ := List.mem_map.1 (List.mem_of_mem_filter h)
    exact ⟨rfl, rfl, rfl, rfl⟩
  unfold runsOf at h
  rcases List.mem_append.1 h with h | h
  · rcases List.mem_append.1 h with h | h
    · exact hof h
    · exact hof h
  · exact hof h

theorem State.noteStreams_sheet (s : State) (p : Part) : (s.noteStreams p).sheet = s.sheet := by
  refine State.foldl_unchanged State.sheet _ (fun s m => State.foldl_unchanged State.sheet _ (fun s g => ?_) _ _) _ _
  split
  · split <;> rfl
  · rfl

/-- A step that begins may begin to wait for staging; nothing else of its partition changes with that, nor sheet memory. -/
theorem State.noteStaging_begun {s : State} {p : Part} {st : Step} (hst : (s.part p).step = some st) (hs : st.stallSince = none) :
    ∃ since, (s.noteStaging p).part p = { s.part p with step := some { st with stallSince := since } } ∧ (s.noteStaging p).sheet = s.sheet := by
  have hpart : (s.noteStaging p).part p = (s.noteStall p).part p := congrArg (·.get p) (State.noteStreams_parts _ p)
  have hsheet : (s.noteStaging p).sheet = (s.noteStall p).sheet := State.noteStreams_sheet _ p
  rw [hpart, hsheet, State.noteStall, hst]
  dsimp only
  rw [hs]
  split
  · refine ⟨some s.uptime, ?_, rfl⟩
    rw [State.modStep, State.part_modPart, hst]
    rfl
  · next h _ => exact absurd h nofun
  · refine ⟨none, ?_, rfl⟩
    rw [← hs, ← hst]

theorem State.beginStep_begun (s : State) (p : Part) (errs : Errs) :
    State.StepBegun ((s.walkReads p errs).reviseNow p) (s.beginStep p errs) p := by
  unfold State.beginStep
  dsimp only
  generalize (s.walkReads p errs).reviseNow p = u
  refine ⟨fun hnone => ?_, fun f slots hf hslots => ?_⟩
  · rw [hnone]
    exact hnone
  · rw [hf, hslots]
    dsimp only
    generalize hbegun : State.modPart _ p _ = v
    have hv : (v.part p).formed = none ∧ (v.part p).reqs = (u.part p).reqs ∧
        (∃ q : Partition, (v.part p).step = some (q.stepOf f u.now u.uptime slots)) ∧ v.sheet = u.sheet := by
      rw [← hbegun, State.part_modPart, State.count, State.part_modPart]
      exact ⟨rfl, rfl, ⟨_, rfl⟩, rfl⟩
    obtain ⟨hformed, hreqs, ⟨q, hstep⟩, hsheet⟩ := hv
    have hstaged := State.noteStaging_begun (s := { v with sram := (v.placedSites p).foldl (fun l i => if l.contains (i, p) then l else l ++ [(i, p)]) v.sram })
      hstep rfl
    obtain ⟨since, hnoted, hnotedSheet⟩ := hstaged
    refine ⟨{ q.stepOf f u.now u.uptime slots with stallSince := since }, ?_, rfl, rfl, rfl, rfl, rfl, rfl, fun r hr => mem_runsOf hr, ?_, ?_, ?_⟩
    · rw [hnoted]
    · rw [hnoted]; exact hformed
    · rw [hnoted]; exact hreqs
    · exact hnotedSheet.trans hsheet

/-- What a step has begun with does not depend on the STEP registers. -/
theorem State.StepBegun.modStepRegs {u t : State} {p : Part} (h : State.StepBegun u t p) (f : StepRegs → StepRegs) :
    State.StepBegun u (t.modPart p fun q => q.modStepRegs f) p := by
  have hpart : (t.modPart p fun q => q.modStepRegs f).part p = (t.part p).modStepRegs f := State.part_modPart _ _ _
  unfold State.StepBegun
  rw [hpart]
  exact h

/-- A state brought to the next cadence mark of a partition, which counts as compared (R209). -/
def State.passMark (s : State) (p : Part) : State :=
  (s.ringTo ((s.part p).nextMark s.now)).modPart p fun q => q.modStepRegs fun k => { k with cadMark := some (s.ringTo ((s.part p).nextMark s.now)).now }

section

variable {s : State} {p : Part}

theorem State.part_passMark (s : State) (p : Part) :
    (s.passMark p).part p = (s.part p).modStepRegs fun k => { k with cadMark := some (s.ringTo ((s.part p).nextMark s.now)).now } := by
  have hpart : (s.ringTo ((s.part p).nextMark s.now)).part p = s.part p := by rw [State.ringTo_eq]; rfl
  rw [State.passMark, State.part_modPart, hpart]

theorem State.passMark_frame (s : State) (p : Part) : (s.passMark p).sheet = s.sheet ∧ (s.passMark p).out = s.out := by
  rw [State.passMark, State.ringTo_eq]
  exact ⟨rfl, rfl⟩

/-- A mark that a partition has missed is counted (R209). -/
def State.missMark (s : State) (p : Part) : State :=
  s.modPart p fun q => q.modStepRegs fun k => { k with cadMiss := satAdd k.cadMiss 1, cadMet := false, cadLate := true }

/-- A step begins at a mark where one may, and is then counted as having met it (R209). -/
def State.meetMark (s : State) (p : Part) (errs : Errs) : State :=
  if s.mayBegin p then
    if ((s.beginStep p errs).part p).step.isSome then (s.beginStep p errs).modPart p fun q => q.modStepRegs fun k =>
      { k with cadMet := k.cadMet || !k.cadLate, cadLate := false } else s.beginStep p errs
  else s

/-- A mark that passes while a step runs is counted, and told once a step has met its mark since (R209). -/
theorem exec_cadenceMark_running {st : Step} (errs : Errs) (hc : (s.part p).cadence = true) (ht : s.trusted = true)
    (hst : (s.part p).step = some st) : exec (.cadenceMark p errs) s = .next (if (s.part p).stepRegs.cadMet = true then
      ((s.passMark p).missMark p).toPart p 0 { code := 0x0003, sev := 1, a := ((s.passMark p).missMark p).now, b := st.headAt }
      else (s.passMark p).missMark p) := by
  have hstep : ((s.passMark p).part p).step = some st := by rw [State.part_passMark]; exact hst
  have hmet : ((s.passMark p).part p).stepRegs.cadMet = (s.part p).stepRegs.cadMet := by rw [State.part_passMark]; rfl
  rw [← hmet]
  refine Eq.trans (congrArg Host.Outcome.next (if_neg (by rw [hc, ht]; decide))) (congrArg Host.Outcome.next ?_)
  unfold State.passMark at hstep ⊢
  unfold State.missMark
  dsimp only
  rw [hstep]

/-- At a mark a step begins where one may (R209). -/
theorem exec_cadenceMark_idle (errs : Errs) (hc : (s.part p).cadence = true) (ht : s.trusted = true) (hst : (s.part p).step = none) :
    exec (.cadenceMark p errs) s = .next ((s.passMark p).meetMark p errs) := by
  have hstep : ((s.passMark p).part p).step = none := by rw [State.part_passMark]; exact hst
  refine Eq.trans (congrArg Host.Outcome.next (if_neg (by rw [hc, ht]; decide))) (congrArg Host.Outcome.next ?_)
  unfold State.passMark at hstep ⊢
  unfold State.meetMark
  dsimp only
  rw [hstep]

theorem State.meetMark_begun (s : State) (p : Part) (errs : Errs) : (s.mayBegin p = false → s.meetMark p errs = s) ∧
    (s.mayBegin p = true → State.StepBegun ((s.walkReads p errs).reviseNow p) (s.meetMark p errs) p) := by
  unfold State.meetMark
  refine ⟨fun h => if_neg (by rw [h]; exact Bool.false_ne_true), fun h => ?_⟩
  rw [if_pos h]
  split
  · exact (s.beginStep_begun p errs).modStepRegs _
  · exact s.beginStep_begun p errs

theorem exec_stepHeadStart (s : State) (p : Part) (errs : Errs) : exec (.stepHeadStart p errs) s =
    .next (if (s.part p).cadence = false ∧ s.mayBegin p = true then s.beginStep p errs else s) := rfl

end

/-- Settles O46: nothing of a formation but its choice touches the formed step (`State.SameForm`), and the choice counts the decode requests it
takes (`State.FormFits`); a step begins by `beginStep` alone. -/
theorem stepsFormAndBegin : Obligations.StepsFormAndBegin := by
  unfold Obligations.StepsFormAndBegin
  refine ⟨fun s p => ⟨fun h => ?idle, fun hst hserve => ⟨fun hwait => ?waits, fun hwait => ?forms⟩⟩,
    fun s p errs => ⟨fun h => ?stays, fun hc hm => ?begins⟩, fun s p errs hc ht => ⟨fun st hst => ?missed, fun hst => ?mark⟩⟩
  case idle =>
    refine congrArg Host.Outcome.next (if_neg fun hrun => ?_)
    rcases h with h | h
    · exact h hrun.1
    · exact Bool.false_ne_true (h.symm.trans hrun.2)
  case waits =>
    obtain ⟨hpart, hother, hsheet⟩ := s.readRings_frame p
    refine ⟨_, exec_stepForm_waits hst hserve hwait, ?_⟩
    rw [State.part_modPart]
    exact ⟨rfl, (congrArg Partition.formed hpart).trans rfl, (congrArg Partition.models hpart).trans rfl, hsheet,
      fun i hi => (State.part_modPart_other _ _ _ _ hi).trans (hother i hi)⟩
  case forms =>
    refine ⟨_, exec_stepForm_forms hst hserve hwait, fun f hf => ?_⟩
    have hrole : (((s.readRings p).modPart p fun q => { q with forming := false }).part p).role = (s.part p).role := by
      rw [State.part_modPart]
      exact (s.readRings_sameForm p).role
    rw [← hrole]
    refine State.formNow_formed ?_
    rw [← hf]
    exact congrArg Partition.formed (congrArg (·.get p) (State.noteStreams_parts _ p)).symm
  case stays =>
    rw [exec_stepHeadStart, if_neg fun hb => ?_]
    rcases h with h | h
    · exact Bool.false_ne_true (hb.1.symm.trans h)
    · exact Bool.false_ne_true (h.symm.trans hb.2)
  case begins =>
    exact ⟨_, (exec_stepHeadStart s p errs).trans (congrArg Host.Outcome.next (if_pos ⟨hc, hm⟩)), s.beginStep_begun p errs⟩
  case missed =>
    have hpart : ((s.passMark p).missMark p).part p = ((s.passMark p).part p).modStepRegs fun k =>
        { k with cadMiss := satAdd k.cadMiss 1, cadMet := false, cadLate := true } := State.part_modPart _ _ _
    rw [State.part_passMark] at hpart
    obtain ⟨hsheet, hout⟩ := s.passMark_frame p
    refine ⟨_, exec_cadenceMark_running errs hc ht hst, ?_⟩
    cases hmet : (s.part p).stepRegs.cadMet with
    | true =>
      rw [if_pos rfl]
      have htold := ((s.passMark p).missMark p).toPart_calm p 0
        { code := 0x0003, sev := 1, a := ((s.passMark p).missMark p).now, b := st.headAt }
      refine ⟨(htold.part_eq Partition.step (fun _ _ _ _ => rfl) p).trans ?_,
        (htold.part_eq (fun q => q.stepRegs.cadMiss) (fun _ _ _ _ => rfl) p).trans ?_, htold.sheet.trans hsheet, fun h => absurd h nofun⟩
      · rw [hpart]; exact hst
      · rw [hpart]; rfl
    | false =>
      rw [if_neg Bool.false_ne_true, hpart]
      exact ⟨hst, rfl, hsheet, fun _ => hout⟩
  case mark =>
    obtain ⟨hwaits, hbegins⟩ := (s.passMark p).meetMark_begun p errs
    refine ⟨s.passMark p, _, exec_cadenceMark_idle errs hc ht hst, rfl, ?_, hwaits, hbegins⟩
    rw [State.part_passMark]
    rfl

end Sys2Proof.Machine

namespace Sys2Proof.Machine

/-! ## Margining (R97-R101, R303-R306) -/

section Margining

variable {m : Margin} {ok : Bool}

/-- A request writes HOLD and what answers it. -/
theorem Margin.request_frame (m : Margin) (ok : Bool) :
    m.request ok = { m with hold := (m.request ok).hold, held := (m.request ok).held, refused := (m.request ok).refused } := by
  unfold Margin.request
  split
  · rfl
  · split <;> rfl

/-- On a channel that is not held a request is held exactly where its conditions hold, and REFUSED otherwise (R97). -/
theorem Margin.request_answers (h : m.held = false) : (m.request ok).hold = true ∧ (m.request ok).held = ok ∧
    ((m.request ok).held = false → (m.request ok).refused = true) := by
  cases ok <;> simp [Margin.request, h]

/-- A run starts on a held channel on which none runs (R99, R304). -/
theorem Margin.start_held (log : BitVec 5) (none_ : W16) (hh : m.held = true) (hb : m.busy = false) :
    m.start log none_ = { m with logTransfers := log, busy := true, errors := 0, first := none_ } :=
  if_pos ⟨hh, hb⟩

/-- The condition of a hold of a die's channel (R97). -/
theorem memMarginFree_iff {s : State} {site : Nat} :
    (allParts.all fun p => !(((s.part p).st == .running || (s.part p).st == .stopping) && (s.part p).ownsSite site) &&
      !s.slotSite p site) = true ↔
    ∀ p, (((s.part p).st = .running ∨ (s.part p).st = .stopping) → (s.part p).ownsSite site = false) ∧ s.slotSite p site = false := by
  simp only [List.all_eq_true, mem_allParts, forall_const, Bool.and_eq_true, Bool.not_eq_true', Bool.and_eq_false_imp, Bool.or_eq_true,
    beq_iff_eq]

/-- The condition of a hold of a peat channel (R303). -/
theorem peatMarginFree_iff {s : State} :
    (s.allStopped && (allParts.all fun p => !(s.part p).zeroising) && !(s.bist.phase == .save || s.bist.phase == .restore)) = true ↔
    (∀ p, ((s.part p).fence = none ∨ (s.part p).st = .stopped) ∧ (s.part p).zeroising = false) ∧
      s.bist.phase ≠ .save ∧ s.bist.phase ≠ .restore := by
  simp only [Bool.and_eq_true, State.allStopped_iff, List.all_eq_true, mem_allParts, forall_const, Bool.not_eq_true', Bool.or_eq_false_iff,
    beq_eq_false_iff_ne, ne_eq, forall_and]

end Margining

/-- Settles O31: the rows of both tiers are the same operations of `Margin`, on the port of the owner. -/
theorem marginingRuns : Obligations.MarginingRuns := by
  unfold Obligations.MarginingRuns
  refine ⟨fun s port ho => ⟨⟨_, congrArg Host.Outcome.next (if_pos ho), ?memHold, fun hh => ?memAnswer⟩,
      ⟨_, congrArg Host.Outcome.next (if_pos ho), ?peatHold, fun hh => ?peatAnswer⟩, congrArg Host.Outcome.next (if_pos ho),
      congrArg Host.Outcome.next (if_pos ho), fun n hh hb => ?memRun, fun n hh hb => ?peatRun⟩,
    fun s errors wire hb => ⟨_, congrArg Host.Outcome.next (if_pos hb), ?memDone, ?memEnd⟩,
    fun s errors lane hb => ⟨_, congrArg Host.Outcome.next (if_pos hb), ?peatDone, ?peatEnd⟩⟩
  case memHold => exact congrArg (fun m => { s with memMargin := m }) (Margin.request_frame _ _)
  case peatHold => exact congrArg (fun m => { s with peatMargin := m }) (Margin.request_frame _ _)
  case memAnswer =>
    obtain ⟨hhold, hheld, href⟩ := Margin.request_answers hh
    exact ⟨hhold, (Bool.eq_iff_iff.mp hheld).trans memMarginFree_iff, href⟩
  case peatAnswer =>
    obtain ⟨hhold, hheld, href⟩ := Margin.request_answers hh
    exact ⟨hhold, (Bool.eq_iff_iff.mp hheld).trans peatMarginFree_iff, href⟩
  case memRun =>
    exact congrArg Host.Outcome.next ((if_pos ho).trans (congrArg (fun m => { s with memMargin := m }) (Margin.start_held n _ hh hb)))
  case peatRun =>
    exact congrArg Host.Outcome.next ((if_pos ho).trans (congrArg (fun m => { s with peatMargin := m }) (Margin.start_held n _ hh hb)))
  case memDone =>
    rw [(State.toOwner_tells (.refl _) none _).eq (·.memMargin) fun _ _ _ _ _ => rfl]
    exact State.toOwner_tells (.refl _) none _
  case peatDone =>
    rw [(State.toOwner_tells (.refl _) none _).eq (·.peatMargin) fun _ _ _ _ _ => rfl]
    exact State.toOwner_tells (.refl _) none _
  case memEnd =>
    refine ((State.toOwner_tells (.refl _) none _).eq (·.memMargin) fun _ _ _ _ _ => rfl).trans ?_
    cases wire <;> rfl
  case peatEnd =>
    refine ((State.toOwner_tells (.refl _) none _).eq (·.peatMargin) fun _ _ _ _ _ => rfl).trans ?_
    cases lane <;> rfl

end Sys2Proof.Machine

namespace Sys2Proof.Machine

/-! ## Association lists at the other keys -/

theorem lookupA_insertA_other {β : Type} (l : List (Nat × β)) {k j : Nat} (v : β) (h : j ≠ k) :
    lookupA (insertA l k v) j = lookupA l j := by
  induction l with
  | nil => exact if_neg h.symm
  | cons x l ih =>
    obtain ⟨k', v'⟩ := x
    unfold insertA
    split
    · exact if_neg h.symm
    · split
      · next he => subst he; exact (if_neg h.symm).trans (if_neg h.symm).symm
      · exact congrArg (fun r => if k' = j then some v' else r) ih

theorem lookupA_eraseA_other {α β : Type} [DecidableEq α] (l : List (α × β)) {a b : α} (h : b ≠ a) :
    lookupA (eraseA l a) b = lookupA l b := by
  induction l with
  | nil => rfl
  | cons x l ih =>
    obtain ⟨k, v⟩ := x
    unfold eraseA at ih ⊢
    rw [List.filter_cons]
    split
    · exact congrArg (fun r => if k = b then some v else r) ih
    · next hk =>
      have hka : k = a := by simpa using hk
      exact ih.trans (if_neg fun e => h (e.symm.trans hka)).symm

/-! ## Scratch lines (R93) -/

section Lines

variable (s : State) (tile l : Nat)

@[simp] theorem State.line_setLine_same (x : Line) : (s.setLine tile l x).line tile l = x :=
  congrArg (fun o : Option Line => o.getD {}) (if_pos rfl)

theorem State.line_setLine_other {a b : Nat} (x : Line) (h : (a, b) ≠ (tile, l)) : (s.setLine tile l x).line a b = s.line a b :=
  congrArg (fun o : Option Line => o.getD {}) ((if_neg h.symm).trans (lookupA_eraseA_other _ h))

/-- A counter word raised by int32 add (R95). -/
theorem State.line_bump_same (w : Fin 16) (n : Nat) :
    (s.bump tile l w n).line tile l = { s.line tile l with words := upd (s.line tile l).words w (· + BitVec.ofNat 32 n) } :=
  s.line_setLine_same tile l _

theorem State.line_bump_other (w : Fin 16) (n : Nat) {a b : Nat} (h : (a, b) ≠ (tile, l)) :
    (s.bump tile l w n).line a b = s.line a b :=
  s.line_setLine_other tile l _ h

/-! ## Atomic operations (R95) -/

/-- An atomic operation acts on its one word of its one line, and sends the old value where the issuer asks for it. -/
theorem State.atom_lands (w : AtomWord) (f : W32 → W32) :
    (s.atom tile l w f).line tile l = { s.line tile l with words := upd (s.line tile l).words w.word f } ∧
    (∀ a b, (a, b) ≠ (tile, l) → (s.atom tile l w f).line a b = s.line a b) ∧
    s.atom tile l w f = { s with
      scratch := (s.atom tile l w f).scratch
      out := if w.ret then s.out ++ [.atomOld ((s.line tile l).words.get w.word)] else s.out } := by
  unfold State.atom
  dsimp only
  split
  · exact ⟨s.line_setLine_same tile l _, fun a b h => s.line_setLine_other tile l _ h, rfl⟩
  · exact ⟨s.line_setLine_same tile l _, fun a b h => s.line_setLine_other tile l _ h, rfl⟩

end Lines

/-- A half of a word, from the number. -/
theorem half_of_word (x : W32) (i : Nat) : BitVec.ofNat 16 (x.toNat / 2 ^ i) = x.extractLsb' i 16 := by
  rw [← Nat.shiftRight_eq_div_pow]
  rfl

/-- Two halves as one word. -/
theorem word_of_halves (a b : W16) : BitVec.ofNat 32 (b.toNat + a.toNat * 2 ^ 16) = a ++ b := by
  apply BitVec.eq_of_toNat_eq
  have ha := a.isLt
  have hb := b.isLt
  rw [BitVec.toNat_append, ← Nat.shiftLeft_add_eq_or_of_lt hb, Nat.shiftLeft_eq, BitVec.toNat_ofNat, Nat.mod_eq_of_lt (by omega),
    Nat.add_comm]

/-- What the pair add stores: the two halves added as BF16 each (R95). -/
theorem atomResult_bf16PairAdd (old v : W32) : atomResult .bf16PairAdd old v =
    bf16Add (old.extractLsb' 16 16) (v.extractLsb' 16 16) ++ bf16Add (old.extractLsb' 0 16) (v.extractLsb' 0 16) := by
  rw [← half_of_word old 16, ← half_of_word old 0, ← half_of_word v 16, ← half_of_word v 0, ← word_of_halves]
  rfl

/-! ## Reduction messages (R34, R35, R96, R199) -/

section Messages

variable {k : AtomKind}

/-- A message leaves the words of its line alone that none of its own goes to. -/
theorem Line.apply_other {j : Fin 16} {l : List (W32 × Bool)} : ∀ {x : Line} {i : Nat}, i + l.length ≤ 16 →
    j.val < i ∨ i + l.length ≤ j.val → (x.apply k i l).words.get j = x.words.get j := by
  induction l with
  | nil => exact fun _ _ => rfl
  | cons y l ih =>
    intro x i hl hj
    rw [List.length_cons] at hl hj
    refine (ih (by omega) (by omega)).trans (upd_get_other x.words (Fin.ofNat 16 i) j (atomResult k · y.1) fun e => ?_)
    have := congrArg Fin.val e
    rw [Fin.val_ofNat, Nat.mod_eq_of_lt (by omega)] at this
    omega

/-- A message applies its words one by one (R96). -/
theorem Line.apply_at {y : W32 × Bool} {l : List (W32 × Bool)} : ∀ {x : Line} {i n : Nat} {j : Fin 16}, i + l.length ≤ 16 →
    j.val = i + n → l[n]? = some y → (x.apply k i l).words.get j = atomResult k (x.words.get j) y.1 := by
  induction l with
  | nil => exact fun _ _ h => nomatch h
  | cons z l ih =>
    intro x i n j hl hj hy
    rw [List.length_cons] at hl
    have hlt := j.isLt
    cases n with
    | zero =>
      obtain rfl : z = y := by simpa using hy
      obtain rfl : j = Fin.ofNat 16 i := Fin.ext (by rw [Fin.val_ofNat, Nat.mod_eq_of_lt (by omega), hj, Nat.add_zero])
      exact (Line.apply_other (i := i + 1) (by omega) (.inl (by omega))).trans (upd_get_same x.words _ (atomResult k · z.1))
    | succ n =>
      refine (ih (by omega) (n := n) (by omega) (by simpa using hy)).trans
        (congrArg (atomResult k · y.1) (upd_get_other x.words (Fin.ofNat 16 i) j (atomResult k · z.1) fun e => ?_))
      have := congrArg Fin.val e
      rw [Fin.val_ofNat, Nat.mod_eq_of_lt (by omega)] at this
      omega

variable {s : State} {p : Part} {tile l ctile cl : Nat} {words : List (W32 × Bool)} {cw : Fin 16}

/-- A message whose words and counter may come where they go is delivered (R34, R96). -/
theorem State.fencedMessage_delivered (ht : s.mayReach p tile = true) (hc : s.mayReach p ctile = true) :
    s.fencedMessage p tile l k words ctile cl cw = s.message tile l k words ctile cl cw :=
  (if_pos ht).trans (if_pos hc)

/-- A message to a tile that is not the partition's is a violation of its fence (R34). -/
theorem State.fencedMessage_dropped (ht : s.mayReach p tile = false) :
    s.fencedMessage p tile l k words ctile cl cw = s.fenceViolation p (tile * stackSegs) 1 :=
  if_neg (ht ▸ Bool.false_ne_true)

/-- A message applies its words to its line, then raises its counter, and leaves all other lines alone (R96). -/
theorem State.message_lands (h : (ctile, cl) ≠ (tile, l)) :
    (s.message tile l k words ctile cl cw).line tile l = (s.line tile l).apply k 0 (words.take 16) ∧
    (s.message tile l k words ctile cl cw).line ctile cl =
      { s.line ctile cl with words := upd (s.line ctile cl).words cw (· + 1) } ∧
    ∀ a b, (a, b) ≠ (tile, l) → (a, b) ≠ (ctile, cl) → (s.message tile l k words ctile cl cw).line a b = s.line a b := by
  unfold State.message
  refine ⟨?_, ?_, fun a b ha hb => ?_⟩
  · rw [State.line_bump_other _ _ _ _ _ h.symm, State.line_setLine_same]
  · rw [State.line_bump_same, State.line_setLine_other _ _ _ _ h]
    rfl
  · rw [State.line_bump_other _ _ _ _ _ hb, State.line_setLine_other _ _ _ _ ha]

/-- Only scratch lines change where a message is delivered. -/
theorem State.message_frame : s.message tile l k words ctile cl cw =
    { s with scratch := (s.message tile l k words ctile cl cw).scratch } := rfl

/-- A message of clean words applies each to the word of its place. -/
theorem Line.apply_clean (x : Line) {words : List W32} (hl : words.length ≤ 16) (i : Fin 16) :
    (x.apply k 0 ((words.map fun w => (w, false)).take 16)).words.get i =
      match words[i.val]? with
      | some v => atomResult k (x.words.get i) v
      | none => x.words.get i := by
  have hlen : (words.map fun w => (w, false)).length ≤ 16 := by rw [List.length_map]; exact hl
  rw [List.take_of_length_le hlen]
  cases hw : words[i.val]? with
  | none =>
    refine Line.apply_other (by omega) (.inr ?_)
    rw [List.length_map, Nat.zero_add]
    exact List.getElem?_eq_none_iff.1 hw
  | some v =>
    exact Line.apply_at (n := i.val) (y := (v, false)) (by omega) (Nat.zero_add _).symm (by rw [List.getElem?_map, hw]; rfl)

end Messages

/-! ## The rows of the shared caches -/

section Rows

variable {s : State} {p : Part} {issuer tile line : Nat} {k : AtomKind} {words : List W32} {cline : Nat} {cw : Fin 16} {src : Site}

/-- A reduction message of a site that the mesh brings to a tile is the partition's message there. -/
theorem exec_reductionMessage_arrives {dst : Nat} (hi : issuer < 64) (hs : s.siteOf issuer = some src)
    (hd : s.comesTo src tile = some dst) :
    exec (.reductionMessage p ⟨issuer, tile⟩ line k words cline cw) s =
      .next (s.fencedMessage p dst line k (words.map fun w => (w, false)) dst cline cw) := by
  refine congrArg Host.Outcome.next ?_
  simp only [if_pos hi, hs, hd]

/-- One that the mesh does not deliver is counted (R35). -/
theorem exec_reductionMessage_lost (hi : issuer < 64) (hs : s.siteOf issuer = some src) (hd : s.comesTo src tile = none) :
    exec (.reductionMessage p ⟨issuer, tile⟩ line k words cline cw) s = .next s.dropTraffic := by
  refine congrArg Host.Outcome.next ?_
  simp only [if_pos hi, hs, hd]

end Rows

/-- Settles O33: the rows of R95 are one atomic operation, and a reduction message that arrives is `State.message` within the fence. -/
theorem sharedCacheRows : Obligations.SharedCacheRows := by
  unfold Obligations.SharedCacheRows
  refine ⟨fun s tile line w v x ret c hc => ?atomic, fun s p issuer tile line k words cline cw src hi hs =>
    ⟨fun dst hd hm hne hl => ?applied, fun dst hd hm => ?fenced, fun hd => exec_reductionMessage_lost hi hs hd⟩⟩
  case atomic =>
    have hrow : ∃ f, exec c.1 s = .next (s.atom tile line ⟨w, ret⟩ f) ∧ f ((s.line tile line).words.get w) = c.2 := by
      simp only [List.mem_cons, List.not_mem_nil, or_false] at hc
      rcases hc with rfl | rfl | rfl | rfl | rfl | rfl | rfl
      · exact ⟨_, rfl, rfl⟩
      · exact ⟨_, rfl, atomResult_bf16PairAdd _ _⟩
      all_goals exact ⟨_, rfl, rfl⟩
    obtain ⟨f, hexec, hf⟩ := hrow
    obtain ⟨hline, hother, hframe⟩ := s.atom_lands tile line ⟨w, ret⟩ f
    refine ⟨_, hexec, ?_, fun i hi => ?_, ?_, hother, hframe⟩
    · rw [hline, ← hf]
      exact upd_get_same _ _ _
    · rw [hline]
      exact upd_get_other _ _ _ _ hi
    · rw [hline]
  case applied =>
    obtain ⟨hwords, hcounter, hother⟩ := State.message_lands (s := s) (tile := dst) (l := line) (ctile := dst) (cl := cline) (k := k)
      (words := words.map fun w => (w, false)) (cw := cw) fun e => hne (congrArg Prod.snd e).symm
    refine ⟨_, (exec_reductionMessage_arrives hi hs hd).trans (congrArg _ (State.fencedMessage_delivered hm hm)), fun i => ?_,
      fun i => ?_, hother, State.message_frame⟩
    · rw [hwords]
      exact Line.apply_clean _ hl i
    · rw [hcounter]
      split
      · next he => subst he; exact upd_get_same _ _ _
      · next hi' => exact upd_get_other _ _ _ _ hi'
  case fenced =>
    refine ⟨_, exec_reductionMessage_arrives hi hs hd, ?_⟩
    rw [State.fencedMessage_dropped hm]
    exact State.fenceViolation_tells (.refl s) _ _ _

end Sys2Proof.Machine

namespace Sys2Proof.Machine

/-! ## Dies and banks -/

section Banks

variable (s : State) (k : Nat)

@[simp] theorem State.bank_modBank_same (f : BankSt → BankSt) : (s.modBank k f).bank k = f (s.bank k) :=
  congrArg (fun o : Option BankSt => o.getD {}) (lookupA_insertA_same s.banks k (f (s.bank k)))

theorem State.bank_modBank_other (f : BankSt → BankSt) {j : Nat} (h : j ≠ k) : (s.modBank k f).bank j = s.bank j :=
  congrArg (fun o : Option BankSt => o.getD {}) (lookupA_insertA_other s.banks (f (s.bank k)) h)

@[simp] theorem State.die_modDie_same (f : DieSt → DieSt) : (s.modDie k f).die k = f (s.die k) :=
  congrArg (fun o : Option DieSt => o.getD {}) (lookupA_insertA_same s.dies k (f (s.die k)))

end Banks

/-! ## Refresh (R88, R89, R121, R122) -/

section Refresh

variable {s : State} {b : BankId} {p : Option Part}

/-- No row is split where no refresh is owed. -/
theorem State.splitRow_none (h : (s.bank (bankKey b.site b.die.val b.bank.val)).owed = 0) : s.splitRow b p = s :=
  if_pos h

/-- The refreshes owed are let through, and the command in progress waits for them (R121). -/
theorem State.splitRow_some (h : (s.bank (bankKey b.site b.die.val b.bank.val)).owed ≠ 0) (p : Part) :
    s.splitRow b (some p) = (s.modBank (bankKey b.site b.die.val b.bank.val) fun x =>
      { x with owed := 0, waited := x.waited + 21 + 72 * (s.bank (bankKey b.site b.die.val b.bank.val)).owed }).count p
        fun c => { c with nbSplit := satAdd c.nbSplit 1 } :=
  if_neg h

/-- A split of a row leaves no refresh owed, and changes banks and counters alone. -/
theorem State.splitRow_lands (s : State) (b : BankId) (p : Option Part) :
    ((s.splitRow b p).bank (bankKey b.site b.die.val b.bank.val)).owed = 0 ∧
    s.splitRow b p = { s with banks := (s.splitRow b p).banks, parts := (s.splitRow b p).parts } := by
  by_cases h : (s.bank (bankKey b.site b.die.val b.bank.val)).owed = 0
  · rw [State.splitRow_none h]
    exact ⟨h, rfl⟩
  · have hsplit : s.splitRow b p = _ := if_neg h
    rw [hsplit]
    refine ⟨?_, by cases p <;> rfl⟩
    have hbank := congrArg BankSt.owed (s.bank_modBank_same (bankKey b.site b.die.val b.bank.val) fun x =>
      { x with owed := 0, waited := x.waited + 21 + 72 * (s.bank (bankKey b.site b.die.val b.bank.val)).owed })
    cases p <;> exact hbank

/-- A refresh pulled in earns a credit, and is issued (R122). -/
theorem exec_refreshPullin (hn : s.nbCtrl.getLsbD 31 = true) (hb : s.bankBusy (bankKey b.site b.die.val b.bank.val) = false)
    (hq : s.bankQueued b.site b.die.val b.bank.val = false)
    (hc : (s.bank (bankKey b.site b.die.val b.bank.val)).credit < min 4 (bitsOf s.nbCtrl 2 0)) :
    exec (.refreshPullin b) s = .next ((s.modBank (bankKey b.site b.die.val b.bank.val) fun x =>
      { x with credit := x.credit + 1 }).refresh (bankKey b.site b.die.val b.bank.val)) :=
  congrArg Host.Outcome.next (if_pos ⟨hn, hb, hq, hc⟩)

/-- A refresh that falls due spends a credit where there is one (R122). -/
theorem exec_refreshDue_credit (h : 0 < (s.bank (bankKey b.site b.die.val b.bank.val)).credit) :
    exec (.refreshDue b) s = .next (s.modBank (bankKey b.site b.die.val b.bank.val) fun x => { x with credit := x.credit - 1 }) :=
  congrArg Host.Outcome.next (if_pos h)

/-- Without credit it is issued where no command of the bank's sequence is about to hold a row open. -/
theorem exec_refreshDue_issued (h : (s.bank (bankKey b.site b.die.val b.bank.val)).credit = 0)
    (hopen : ∀ u q, lookupA s.units (bankKey b.site b.die.val b.bank.val) = some u →
      (s.seqs.find? fun q => q.id == u.seq) = some q → ∀ w, q.words[u.pc]? = some w → w.opensRow = false ∨ w.malformed = true) :
    exec (.refreshDue b) s = .next (s.refresh (bankKey b.site b.die.val b.bank.val)) := by
  refine congrArg Host.Outcome.next ((if_neg (Nat.not_lt.2 h.le)).trans (if_neg ?_))
  cases hu : lookupA s.units (bankKey b.site b.die.val b.bank.val) with
  | none => exact Bool.false_ne_true
  | some u =>
    dsimp only [Option.bind_some]
    cases hq : s.seqs.find? fun q => q.id == u.seq with
    | none => exact Bool.false_ne_true
    | some q =>
      dsimp only [Option.map_some]
      cases hw : q.words[u.pc]? with
      | none => exact Bool.false_ne_true
      | some w => rcases hopen u q hu hq w hw with h | h <;> simp [h]

/-- Without credit it waits for the end of a row that is about to be held open, the fourth at most (R121). -/
theorem exec_refreshDue_waits {u : NbUnit} {q : NbSeq} {w : NbWord} (h : (s.bank (bankKey b.site b.die.val b.bank.val)).credit = 0)
    (hu : lookupA s.units (bankKey b.site b.die.val b.bank.val) = some u) (hq : (s.seqs.find? fun q => q.id == u.seq) = some q)
    (hw : q.words[u.pc]? = some w) (ho : w.opensRow = true) (hm : w.malformed = false) :
    exec (.refreshDue b) s = .next (
      let t := s.modBank (bankKey b.site b.die.val b.bank.val) fun x => { x with owed := x.owed + 1 }
      if (s.bank (bankKey b.site b.die.val b.bank.val)).owed + 1 < 4 then t else t.splitRow b q.part) := by
  refine congrArg Host.Outcome.next ((if_neg (Nat.not_lt.2 h.le)).trans ?_)
  simp only [hu, hq, Option.bind_some, Option.map_some, hw, ho, hm, Bool.not_false, Bool.and_self, if_true]

end Refresh

/-! ## The temperature of a die (R88) -/

/-- A sample is taken into its die, which is hot above 85 °C and cools after 1 ms at 82 °C or less; what else changes is its record. -/
theorem exec_dieTempSample (s : State) (d : DieId) (temp : Nat) :
    ∃ t f, exec (.dieTempSample d temp) s = .next t ∧ State.Tells (s.modDie (dieKey d.site d.die.val) f) t ∧
      (f (s.die (dieKey d.site d.die.val))).temp = temp ∧
      ((s.die (dieKey d.site d.die.val)).hot = false → ((f (s.die (dieKey d.site d.die.val))).hot = true ↔ 85 < temp)) ∧
      ((s.die (dieKey d.site d.die.val)).hot = true → ((f (s.die (dieKey d.site d.die.val))).hot = false ↔
        temp ≤ 82 ∧ (s.die (dieKey d.site d.die.val)).coolSince.getD s.uptime + 1000000 ≤ s.uptime)) := by
  by_cases hh : (s.die (dieKey d.site d.die.val)).hot = true
  · have hnot {P : Prop} (h : (s.die (dieKey d.site d.die.val)).hot = false) : P := absurd (hh.symm.trans h) nofun
    by_cases hc : temp ≤ 82
    · by_cases ht : 1000000 ≤ s.uptime - (s.die (dieKey d.site d.die.val)).coolSince.getD s.uptime
      · exact ⟨_, _, congrArg Host.Outcome.next ((if_pos hh).trans ((if_pos hc).trans (if_pos ht))),
          State.toOwner_tells (.refl _) _ _, rfl, hnot,
          fun _ => iff_of_true rfl ⟨hc, (Nat.le_sub_iff_add_le' (Nat.lt_of_sub_pos (Nat.lt_of_lt_of_le (by decide) ht)).le).1 ht⟩⟩
      · exact ⟨_, _, congrArg Host.Outcome.next ((if_pos hh).trans ((if_pos hc).trans (if_neg ht))), .refl _, rfl, hnot,
          fun _ => iff_of_false (hh ▸ nofun) fun h => ht (Nat.le_sub_of_add_le' h.2)⟩
    · exact ⟨_, _, congrArg Host.Outcome.next ((if_pos hh).trans (if_neg hc)), .refl _, rfl, hnot,
        fun _ => iff_of_false (hh ▸ nofun) fun h => hc h.1⟩
  · by_cases hw : 85 < temp
    · exact ⟨_, _, congrArg Host.Outcome.next ((if_neg hh).trans (if_pos hw)), State.toOwner_tells (.refl _) _ _, rfl,
        fun _ => iff_of_true rfl hw, fun h => absurd h hh⟩
    · exact ⟨_, _, congrArg Host.Outcome.next ((if_neg hh).trans (if_neg hw)), .refl _, rfl,
        fun _ => iff_of_false hh hw, fun h => absurd h hh⟩

/-! ## Age (R91, R294) -/

/-- In a powered module an event brings the own oscillator to its time. -/
theorem State.le_uptime_passTo {s : State} {t : Time} (h : s.power.phase ≠ .off) : t ≤ (s.passTo t).uptime := by
  rw [State.passTo, State.pass, if_neg h]
  exact Nat.sub_le_iff_le_add'.1 le_rfl

section Ages

variable {s : State} {die : DieId} {i : Nat}

/-- A sequence of a class above P0 moves up one, and its wait starts anew (R91). -/
theorem exec_arbAgePromote_sequence {q : NbSeq} (hq : (s.dieQueue die)[i]? = some q) (hc : q.cls ≠ 0) :
    exec (.arbAgePromote die i) s = .next { s.passTo (q.aged + s.ageWait q.cls) with
      seqs := (s.passTo (q.aged + s.ageWait q.cls)).seqs.map fun x =>
        if x.id = q.id then { x with cls := x.cls - 1, aged := (s.passTo (q.aged + s.ageWait q.cls)).uptime } else x } := by
  refine congrArg Host.Outcome.next ?_
  simp only [hq]
  exact if_neg hc

/-- One in P0 never moves (R91). -/
theorem exec_arbAgePromote_first {q : NbSeq} (hq : (s.dieQueue die)[i]? = some q) (hc : q.cls = 0) :
    exec (.arbAgePromote die i) s = .next s := by
  refine congrArg Host.Outcome.next ?_
  simp only [hq]
  exact if_pos hc

/-- Behind the sequences of a die stand its transfers. -/
theorem exec_arbAgePromote_transfer : exec (.arbAgePromote die ((s.dieQueue die).length + i)) s =
    .next (s.promote (.die (dieKey die.site die.die.val)) s.memArb (s.dieTransfers die) i) := by
  refine congrArg Host.Outcome.next ?_
  have hnone : (s.dieQueue die)[(s.dieQueue die).length + i]? = none := List.getElem?_eq_none (Nat.le_add_right _ _)
  simp only [hnone, Nat.add_sub_cancel_left]

/-- A transfer of a class above P0 moves up one, and its wait starts anew; one in P0 never moves (R91, R294). -/
theorem State.promote_lands {pl : XferAt} {arb : W32} {queue : List (Transfer × Nat)} {x : Transfer} {c cls : Nat} {since : Time}
    (hx : queue[i]? = some (x, c)) (hs : s.standing x pl c = (cls, since)) :
    s.promote pl arb queue i = { s with
      xfers := (s.promote pl arb queue i).xfers, uptime := (s.promote pl arb queue i).uptime
      ringTime := (s.promote pl arb queue i).ringTime, ring := (s.promote pl arb queue i).ring } ∧
    (∀ y ∈ s.xfers, y.place ≠ pl → y ∈ (s.promote pl arb queue i).xfers) ∧
    (cls ≠ 0 → (s.power.phase ≠ .off → since + arbWait arb cls ≤ (s.promote pl arb queue i).uptime) ∧
      Xfer.mk x.part x.kind pl (cls - 1) (s.promote pl arb queue i).uptime ∈ (s.promote pl arb queue i).xfers) ∧
    (cls = 0 → s.promote pl arb queue i = { s with xfers := (s.promote pl arb queue i).xfers } ∧
      ∀ y ∈ (s.promote pl arb queue i).xfers, y ∈ s.xfers) := by
  unfold State.promote
  simp only [hx, hs]
  have hlive {y : Xfer} (hy : y ∈ s.xfers) (hpl : y.place ≠ pl) : y ∈ s.xfers.filter fun y =>
      decide (y.place ≠ pl) || queue.any fun x => x.1.part == y.part && x.1.kind == y.kind :=
    List.mem_filter.2 ⟨hy, by rw [decide_eq_true hpl, Bool.true_or]⟩
  by_cases hc : cls = 0
  · simp only [if_pos hc]
    exact ⟨trivial, fun y hy hpl => hlive hy hpl, fun h => absurd hc h, fun _ => ⟨trivial, fun y hy => List.mem_of_mem_filter hy⟩⟩
  · simp only [if_neg hc]
    refine ⟨?_, fun y hy hpl => ?_, fun _ => ⟨fun hp => State.le_uptime_passTo hp, ?_⟩, fun h => absurd h hc⟩
    · rw [State.passTo_eq]
    · exact List.mem_append_left _ (List.mem_filter.2 ⟨hlive hy hpl, by rw [beq_eq_false_iff_ne.2 hpl, Bool.and_false]; rfl⟩)
    · exact List.mem_append_right _ (List.mem_singleton.2 rfl)

end Ages

/-- Settles O32: a sample changes its die, a refresh its bank, and a promotion what it finds in the queue, each with the clocks it brings
forward. -/
theorem refreshHeatAndAge : Obligations.RefreshHeatAndAge := by
  unfold Obligations.RefreshHeatAndAge
  refine ⟨⟨fun s b hn hb hq hc => ?pullin, fun s d temp => ?sample, fun s b => ⟨exec_refreshDue_credit, exec_refreshDue_issued,
      fun u q w hc hu hq hw ho hm => ⟨fun h3 => ?postponed, fun h3 => ?fourth⟩⟩⟩,
    fun s die i q hq hc => ?promoted, fun s die i q hq hc => exec_arbAgePromote_first hq hc, fun s ch i x c cls since hx hs => ?channel,
    fun s die i x c cls since hx hs hc => ?transfer⟩
  case pullin =>
    refine ⟨_, exec_refreshPullin hn hb hq hc, rfl, ?_, ?_, fun k hk => ?_⟩
    · rw [State.refresh, State.bank_modBank_same, State.bank_modBank_same]
    · rw [State.refresh, State.bank_modBank_same]
    · rw [State.refresh, State.bank_modBank_other _ _ _ hk, State.bank_modBank_other _ _ _ hk]
  case sample =>
    obtain ⟨t, f, hexec, htells, htemp, hwarm, hcool⟩ := exec_dieTempSample s d temp
    have hdie : t.die (dieKey d.site d.die.val) = f (s.die (dieKey d.site d.die.val)) :=
      (htells.eq (·.die _) fun _ _ _ _ _ => rfl).trans (State.die_modDie_same _ _ _)
    rw [← hdie] at htemp hwarm hcool
    refine ⟨t, hexec, htemp, htells.calm.sheet, htells.eq (·.banks) fun _ _ _ _ _ => rfl, ?_, hwarm, hcool⟩
    refine Vector.ext fun i hi => ?_
    rw [Vector.getElem_map, Vector.getElem_map]
    exact htells.calm.part_eq Partition.st (fun _ _ _ _ => rfl) ⟨i, hi⟩
  case postponed =>
    exact (exec_refreshDue_waits hc hu hq hw ho hm).trans (congrArg _ (if_pos (Nat.succ_lt_succ h3)))
  case fourth =>
    obtain ⟨howed, hframe⟩ := State.splitRow_lands (s.modBank (bankKey b.site b.die.val b.bank.val) fun x =>
      { x with owed := x.owed + 1 }) b q.part
    refine ⟨_, (exec_refreshDue_waits hc hu hq hw ho hm).trans (congrArg _ (if_neg (by rw [h3]; decide))), howed, ?_, ?_⟩
    · rw [hframe]; rfl
    · rw [hframe]; rfl
  case promoted =>
    have hpass := s.passTo_eq (q.aged + s.ageWait q.cls)
    have hseqs : (s.passTo (q.aged + s.ageWait q.cls)).seqs = s.seqs := by rw [hpass]
    have hmem : q ∈ s.seqs := List.mem_of_mem_filter (List.mem_of_getElem? hq)
    refine ⟨_, exec_arbAgePromote_sequence hq hc, fun hp => State.le_uptime_passTo hp, ?_, ?_, fun x hx hid => ?_, ?_⟩
    · exact List.mem_map.2 ⟨q, hseqs ▸ hmem, if_pos rfl⟩
    · rw [List.length_map, hseqs]
    · exact List.mem_map.2 ⟨x, hseqs ▸ hx, if_neg hid⟩
    · rw [hpass]
  case channel => exact ⟨_, rfl, State.promote_lands hx hs⟩
  case transfer =>
    obtain ⟨hframe, -, hmoves, -⟩ := State.promote_lands (arb := s.memArb) hx hs
    exact ⟨_, exec_arbAgePromote_transfer, hframe, hmoves hc⟩

end Sys2Proof.Machine

namespace Sys2Proof.Machine

/-! ## Bytes moved, and blocks written one after another -/

/-- Bytes stored one run after another. -/
theorem Memory.writeN_append (m : Memory) (a : Nat) (l₁ l₂ : List Byte) :
    m.writeN a (l₁ ++ l₂) = (m.writeN a l₁).writeN (a + l₁.length) l₂ := by
  induction l₁ generalizing m a with
  | nil => rfl
  | cons b l ih => rw [List.cons_append, Memory.writeN, Memory.writeN, ih, List.length_cons, Nat.add_assoc, Nat.add_comm 1]

/-- Cells of which none is of an address do not matter to it. -/
theorem Memory.read_append_right (m₁ m₂ : Memory) {x : Nat} (h : ∀ c ∈ m₁, c.1 ≠ x) : Memory.read (m₁ ++ m₂) x = m₂.read x := by
  induction m₁ with
  | nil => rfl
  | cons c m ih => exact (if_neg (h c (List.mem_cons_self ..))).trans (ih fun d hd => h d (List.mem_cons_of_mem _ hd))

theorem Memory.read_append_left (m₁ m₂ : Memory) {x : Nat} (h : ∀ c ∈ m₂, c.1 ≠ x) : Memory.read (m₁ ++ m₂) x = m₁.read x := by
  induction m₁ with
  | nil => simpa using m₂.read_append_right [] h
  | cons c m ih => exact congrArg (fun r => if c.1 = x then c.2 else r) ih

/-- A selection of cells keeps the bytes of the addresses that it keeps. -/
theorem Memory.read_filter (m : Memory) (keep : Host.Cell → Bool) {x : Nat} (h : ∀ b, keep (x, b) = true) :
    Memory.read (m.filter keep) x = m.read x := by
  induction m with
  | nil => rfl
  | cons c m ih =>
    obtain ⟨k, b⟩ := c
    rw [List.filter_cons]
    split
    · exact congrArg (fun r => if k = x then b else r) ih
    · next hk => exact ih.trans (if_neg fun e : k = x => hk (e ▸ h b)).symm

/-- Cells shifted as a run keep their bytes. -/
theorem Memory.read_shift (m : Memory) {src dst j : Nat} (h : ∀ c ∈ m, src ≤ c.1) :
    Memory.read (m.map fun c => (c.1 - src + dst, c.2)) (dst + j) = m.read (src + j) := by
  induction m with
  | nil => rfl
  | cons c m ih =>
    obtain ⟨k, b⟩ := c
    have hk : src ≤ k := h (k, b) (List.mem_cons_self ..)
    rw [List.map_cons, Memory.read, Memory.read, ih fun d hd => h d (List.mem_cons_of_mem _ hd)]
    exact if_congr (by omega) rfl rfl

section Moves

variable (m : Memory) {src dst n : Nat}

/-- The cells of a run, where they go. -/
theorem Memory.moved_within {c : Host.Cell} (h : c ∈ (m.filter fun c => decide (src ≤ c.1) && decide (c.1 < src + n)).map
    fun c => (c.1 - src + dst, c.2)) : dst ≤ c.1 ∧ c.1 < dst + n := by
  obtain ⟨d, hd, rfl⟩ := List.mem_map.1 h
  have hin := (List.mem_filter.1 hd).2
  simp only [Bool.and_eq_true, decide_eq_true_eq] at hin
  dsimp only
  omega

/-- A moved byte reads as it did where it was. -/
theorem Memory.read_moveN_inside {j : Nat} (hj : j < n) : (m.moveN src dst n).read (dst + j) = m.read (src + j) := by
  unfold Memory.moveN
  rw [Memory.read_append_left _ _ fun c hc => ?above, Memory.read_append_right _ _ fun c hc => ?below, Memory.read_shift _ fun c hc => ?run,
    Memory.read_filter _ _ fun b => ?kept]
  case above => have := of_decide_eq_true (List.mem_filter.1 hc).2; omega
  case below => have := of_decide_eq_true (List.mem_filter.1 hc).2; omega
  case run =>
    have := (List.mem_filter.1 hc).2
    simp only [Bool.and_eq_true, decide_eq_true_eq] at this
    exact this.1
  case kept =>
    rw [Bool.and_eq_true]
    exact ⟨decide_eq_true (Nat.le_add_right _ _), decide_eq_true (Nat.add_lt_add_left hj _)⟩

/-- A move changes nothing outside the place it goes to. -/
theorem Memory.read_moveN_outside {a : Nat} (h : a < dst ∨ dst + n ≤ a) : (m.moveN src dst n).read a = m.read a := by
  unfold Memory.moveN
  rcases h with h | h
  · rw [Memory.read_append_left _ _ fun c hc => ?above, Memory.read_append_left _ _ fun c hc => ?moved,
      Memory.read_filter _ _ fun b => decide_eq_true h]
    case above => have := of_decide_eq_true (List.mem_filter.1 hc).2; omega
    case moved => have := Memory.moved_within m hc; omega
  · rw [List.append_assoc, Memory.read_append_right _ _ fun c hc => ?below, Memory.read_append_right _ _ fun c hc => ?moved,
      Memory.read_filter _ _ fun b => decide_eq_true h]
    case below => have := of_decide_eq_true (List.mem_filter.1 hc).2; omega
    case moved => have := Memory.moved_within m hc; omega

end Moves

section Blocks

/-- Whole blocks change sheet memory, its poison and its lines alone. -/
theorem State.putBlocks_frame (s : State) (b : Nat) (l : List (List Byte × Bool)) : s.putBlocks b l = { s with
    sheet := (s.putBlocks b l).sheet, poisoned := (s.putBlocks b l).poisoned, sheetLines := (s.putBlocks b l).sheetLines } := by
  induction l generalizing s b with
  | nil => rfl
  | cons x l ih =>
    have hput : s.putBlock b x.1 x.2 = { s with sheet := (s.putBlock b x.1 x.2).sheet, poisoned := (s.putBlock b x.1 x.2).poisoned
                                                sheetLines := (s.putBlock b x.1 x.2).sheetLines } := by
      unfold State.putBlock
      split
      · rfl
      · split <;> rfl
    rw [State.putBlocks]
    exact (ih _ _).trans (by rw [hput])

/-- Whole blocks without poison, written in banks that are in service, store their bytes one after another. -/
theorem State.putBlocks_live {l : List (List Byte × Bool)} : ∀ {s : State} {b : Nat},
    (∀ x ∈ l, x.1.length = 64 ∧ x.2 = false) → (∀ i, i < l.length → s.bankDead (placeOf ((b + i) * 64)) = false) →
      (s.putBlocks b l).sheet = s.sheet.writeN (b * 64) (l.flatMap (·.1)) ∧ (s.putBlocks b l).sheetLines = s.sheetLines := by
  induction l with
  | nil => exact fun _ _ => ⟨rfl, rfl⟩
  | cons x l ih =>
    intro s b hx hd
    obtain ⟨hlen, hclean⟩ := hx x (List.mem_cons_self ..)
    have hput : s.putBlock b x.1 x.2 = { s with sheet := s.sheet.writeN (b * 64) x.1, poisoned := setDel s.poisoned b } := by
      have hlive : s.bankDead (placeOf (b * 64)) = false := hd 0 (Nat.succ_pos _)
      rw [State.putBlock, hlive, hclean, List.take_of_length_le hlen.le]
      rfl
    obtain ⟨hsheet, hlines⟩ := ih (s := s.putBlock b x.1 x.2) (b := b + 1) (fun y hy => hx y (List.mem_cons_of_mem _ hy)) fun i hi => by
      rw [hput, Nat.add_assoc, Nat.add_comm 1]
      exact hd (i + 1) (Nat.succ_lt_succ hi)
    refine ⟨hsheet.trans ?_, hlines.trans (by rw [hput])⟩
    rw [hput, List.flatMap_cons, Memory.writeN_append, hlen, Nat.succ_mul]

end Blocks

/-! ## A unit's commands (R104, R105, R121, R122, R129, R131) -/

section Units

variable {s t : State} {k : BankId} {q : NbSeq} {u u' : NbUnit} {w : NbWord} {op : Nat}
  {body : State → NbSeq → NbUnit → NbWord → State × NbUnit}

/-- What refresh has added to a command is told, and the refreshes owed stay as they are (R131). -/
theorem State.tellWait_lands (s : State) (k : BankId) :
    ((s.tellWait k).bank (bankKey k.site k.die.val k.bank.val)).owed = (s.bank (bankKey k.site k.die.val k.bank.val)).owed ∧
    (s.tellWait k).nbMaxWait.toNat = max s.nbMaxWait.toNat (min 0xFFFF
      (s.refreshWait (bankKey k.site k.die.val k.bank.val) + (s.bank (bankKey k.site k.die.val k.bank.val)).waited)) ∧
    s.tellWait k = { s with banks := (s.tellWait k).banks, nbMaxWait := (s.tellWait k).nbMaxWait } := by
  have hfits (n : Nat) : (BitVec.ofNat 32 (max s.nbMaxWait.toNat (min 0xFFFF n))).toNat = max s.nbMaxWait.toNat (min 0xFFFF n) := by
    have := s.nbMaxWait.isLt
    rw [BitVec.toNat_ofNat, Nat.mod_eq_of_lt (by omega)]
  unfold State.tellWait
  dsimp only
  split
  · exact ⟨rfl, hfits _, rfl⟩
  · have hbank := congrArg BankSt.owed (s.bank_modBank_same (bankKey k.site k.die.val k.bank.val) fun b => { b with waited := 0 })
    exact ⟨hbank, hfits _, rfl⟩

/-- A command that no refresh has held up tells nothing. -/
theorem State.tellWait_idle (hw : (s.bank (bankKey k.site k.die.val k.bank.val)).waited = 0)
    (hb : (s.bank (bankKey k.site k.die.val k.bank.val)).busyTo ≤ s.uptime) : s.tellWait k = s := by
  have hn : s.refreshWait (bankKey k.site k.die.val k.bank.val) + (s.bank (bankKey k.site k.die.val k.bank.val)).waited = 0 := by
    rw [hw, State.refreshWait, Nat.sub_eq_zero_of_le hb]
    rfl
  unfold State.tellWait
  dsimp only
  rw [hn, if_pos hw, Nat.min_zero, Nat.max_zero, BitVec.ofNat_toNat, BitVec.setWidth_eq]

/-- A command that is not its bank's last leaves the unit at the next. -/
theorem State.unitNext_follows (h : u.pc + 1 < q.words.length) : s.unitNext k q u =
    { s with units := insertA s.units (bankKey k.site k.die.val k.bank.val) { u with pc := u.pc + 1 } } :=
  if_pos h

/-- A row runs the command that its unit stands at: one that opens a row first lets the refreshes owed through (R121, R122). -/
theorem State.nbRun_some (hu : s.unitOf k = some (q, u)) (hw : q.words[u.pc]? = some w) (ho : w.op = op) (hm : w.malformed = false)
    (hbody : body (if w.opensRow then (s.splitRow k q.part).tellWait k else s) q u w = (t, u')) :
    s.nbRun k op body = t.unitNext k q (if u'.spoilt || t.unitDead k then u'.poisoned else u') := by
  simp only [State.nbRun, hu, hw, ho, hm, and_self, if_true, hbody]

/-- A unit that stands at a command which nothing keeps it from runs it on the state as it is. -/
theorem State.nbRun_unitAt (h : s.unitAt k q u w op) (hbody : body s q u w = (t, u')) (hs : u'.spoilt = false) (hd : t.unitDead k = false)
    (hpc : u'.pc = u.pc) : s.nbRun k op body =
      { t with units := insertA t.units (bankKey k.site k.die.val k.bank.val) { u' with pc := u.pc + 1 } } := by
  obtain ⟨hu, hw, ho, hm, howed, hwaited, hbusy, -, -, hnext⟩ := h
  have hrow : (if w.opensRow then (s.splitRow k q.part).tellWait k else s) = s := by
    rw [State.splitRow_none howed, State.tellWait_idle hwaited hbusy, ite_self]
  rw [State.nbRun_some hu hw ho hm ((congrArg (body · q u w) hrow).trans hbody), hs, hd, Bool.or_self, if_neg Bool.false_ne_true,
    State.unitNext_follows (hpc ▸ hnext), hpc]

end Units

end Sys2Proof.Machine

namespace Sys2Proof.Machine

/-! ## `NB_READACC` (R96, R107, R125) -/

section Readacc

variable {s : State} {k : BankId} {q : NbSeq} {u : NbUnit} {w : NbWord}

theorem NbWord.n_pos (w : NbWord) : 0 < w.n := by
  unfold NbWord.n
  split
  · decide
  · next h => exact Nat.pos_of_ne_zero h

/-- Up to 16 accumulators go as one message. -/
theorem readaccMessages_one {vals : List (W32 × Bool)} (h0 : 0 < vals.length) (h16 : vals.length ≤ 16) (rank : Nat) :
    readaccMessages w vals rank = [(w.aux % 2 ^ 20 + rank * (w.aux / 2 ^ 26 % 64), vals)] := by
  have hone : ceilDiv vals.length 16 = 1 := by simp only [ceilDiv]; omega
  simp only [readaccMessages, hone, List.range_one, List.map_cons, List.map_nil, Nat.add_zero, Nat.mul_zero, List.drop_zero,
    List.take_of_length_le h16]

/-- Their message is delivered where the mesh brings it, as far as the fence lets it. -/
theorem State.sendAcc_one {vals : List (W32 × Bool)} {p : Part} {tile rank : Nat} {h : NbHeader} (h0 : 0 < vals.length)
    (h16 : vals.length ≤ 16) (ht : s.comesTo k.site (w.aux / 2 ^ 20 % 64) = some tile) (hm : s.mayReach p tile = true)
    (hd : s.mayReach p h.doneTile = true) : s.sendAcc k.site (some p) h w vals rank =
      s.message tile (w.aux % 2 ^ 20 + rank * (w.aux / 2 ^ 26 % 64)) (if w.f = 0 then .swap else .fp32Add) vals
        h.doneTile h.doneLine h.doneWord := by
  simp only [State.sendAcc, readaccMessages_one h0 h16, List.foldl_cons, List.foldl_nil, ht]
  exact State.fencedMessage_delivered hm hd

/-- What an accumulator is delivered as, and whether as poison (R125). -/
def NbUnit.delivered (u : NbUnit) (i : Nat) : W32 × Bool := if (u.acc i).2 then (f32NaN, true) else ((u.acc i).1, false)

/-- A unit that is neither poisoned nor dead sends the accumulators that its command names. -/
theorem nbReadaccBody_sends (hs : u.spoilt = false) (hd : s.unitDead k = false) : nbReadaccBody k s q u w =
    (s.sendAcc k.site q.part q.hdr w ((List.range w.n).map fun i => u.delivered (w.acc + i)) (bankRank q.hdr.banks k.bank.val), u) := by
  simp only [nbReadaccBody, hs, hd, Bool.or_false, NbUnit.delivered]

end Readacc

/-! ## `NB_STORE` (R94, R107, R124) -/

/-- A bank's rows are whole blocks of its tile. -/
theorem bankAddr_row (tile : Nat) (k : BankId) (row : Nat) : bankAddr tile k row 0 = addrOfRow tile k.die.val k.bank.val row := by
  rw [bankAddr, Nat.zero_div, Nat.zero_mod, Nat.add_zero, Nat.add_zero]

/-- A row begins at a block. -/
theorem dvd_addrOfRow (tile die bank row : Nat) : 64 ∣ addrOfRow tile die bank row :=
  Nat.dvd_add (Dvd.dvd.mul_left ⟨32768, rfl⟩ _) (Dvd.dvd.mul_left ⟨16, rfl⟩ _)

/-- The bytes that an accumulator is stored as. -/
def accBytes (f : Nat) (x : W32) : List Byte := if f = 0 then leBytes 4 x.toNat else leBytes 2 (bf16OfF32 x).toNat

/-- The accumulators that a block takes. -/
def accsPerBlock (f : Nat) : Nat := if f = 0 then 16 else 32

theorem accsPerBlock_pos (f : Nat) : 0 < accsPerBlock f := by
  unfold accsPerBlock
  split <;> decide

theorem length_flatMap_accBytes (f : Nat) (vals : List (W32 × Bool)) :
    (vals.flatMap fun x => accBytes f x.1).length * accsPerBlock f = 64 * vals.length := by
  induction vals with
  | nil => rw [List.flatMap_nil, List.length_nil, List.length_nil, Nat.zero_mul, Nat.mul_zero]
  | cons x l ih =>
    rw [List.flatMap_cons, List.length_append, Nat.add_mul, ih, List.length_cons, accBytes, accsPerBlock]
    split <;> rw [length_leBytes] <;> omega

/-- Accumulators without poison fill whole blocks without poison, one after another. -/
theorem storeBlocks_live {f n : Nat} : ∀ {vals : List (W32 × Bool)}, (∀ v ∈ vals, v.2 = false) → vals.length = accsPerBlock f * n →
    (storeBlocks f vals n).length = n ∧ (∀ x ∈ storeBlocks f vals n, x.1.length = 64 ∧ x.2 = false) ∧
    (storeBlocks f vals n).flatMap (·.1) = vals.flatMap fun x => accBytes f x.1 := by
  induction n with
  | zero =>
    intro vals _ hl
    obtain rfl := List.eq_nil_of_length_eq_zero hl
    exact ⟨rfl, nofun, rfl⟩
  | succ n ih =>
    intro vals hv hl
    have hfits : accsPerBlock f ≤ vals.length := by rw [hl, Nat.mul_succ]; exact Nat.le_add_left _ _
    obtain ⟨hlen, hblocks, hbytes⟩ := ih (vals := vals.drop (accsPerBlock f)) (fun v hm => hv v (List.mem_of_mem_drop hm)) (by
      rw [List.length_drop, hl, Nat.mul_succ, Nat.add_sub_cancel])
    have hcons : storeBlocks f vals (n + 1) = (((vals.take (accsPerBlock f)).flatMap fun x => accBytes f x.1),
        (vals.take (accsPerBlock f)).any (·.2)) :: storeBlocks f (vals.drop (accsPerBlock f)) n := rfl
    rw [hcons]
    refine ⟨congrArg (· + 1) hlen, List.forall_mem_cons.2 ⟨⟨?_, ?_⟩, hblocks⟩, ?_⟩
    · have hbytes := length_flatMap_accBytes f (vals.take (accsPerBlock f))
      rw [List.length_take, Nat.min_eq_left hfits] at hbytes
      exact Nat.eq_of_mul_eq_mul_right (accsPerBlock_pos f) hbytes
    · exact List.any_eq_false.2 fun v hm => by rw [hv v (List.mem_of_mem_take hm)]; exact Bool.false_ne_true
    · rw [List.flatMap_cons, hbytes, ← List.flatMap_append, List.take_append_drop]

section Store

variable {s : State} {k : BankId} {q : NbSeq} {u : NbUnit} {w : NbWord}

/-- A well-formed `NB_STORE` fills whole blocks within its row (R107). -/
theorem NbWord.store_fits (ho : w.op = 7) (hm : w.malformed = false) :
    accsPerBlock w.f * (w.n / accsPerBlock w.f) = w.n ∧ w.aux % 16 + w.n / accsPerBlock w.f ≤ 16 := by
  simp only [NbWord.malformed, ho, Bool.or_eq_false_iff, decide_eq_false_iff_not, not_not, Nat.not_lt] at hm
  obtain ⟨⟨⟨-, hdvd⟩, hrow⟩, -⟩ := hm
  exact ⟨Nat.mul_div_cancel' (Nat.dvd_of_mod_eq_zero hdvd), hrow⟩

/-- Undefined bytes of a sequence that an FLR has outlived lie where it has stored, and change sheet memory alone (R130). -/
theorem State.spoilStale_lands (s : State) (q : NbSeq) (addr n : Nat) :
    s.spoilStale q addr n = { s with sheet := (s.spoilStale q addr n).sheet, fresh := (s.spoilStale q addr n).fresh } ∧
    (∀ a, a < addr ∨ addr + n ≤ a → (s.spoilStale q addr n).sheet.read a = s.sheet.read a) ∧
    (q.stale = false → s.spoilStale q addr n = s) := by
  unfold State.spoilStale
  split
  · split
    · next hstale =>
      refine ⟨rfl, fun a ha => ?_, fun h => absurd (hstale.1.symm.trans h) nofun⟩
      exact Memory.read_writeN_outside _ _ _ _ (by rw [length_freeBytes]; exact ha)
    · exact ⟨rfl, fun _ _ => rfl, fun _ => rfl⟩
  · exact ⟨rfl, fun _ _ => rfl, fun _ => rfl⟩

/-- The lines of a row leave the shared cache of its tile (R94). -/
theorem State.not_mem_dropLines {tile b : Nat} {x : Nat × Nat} (hx : x ∈ (s.dropLines tile b).sheetLines) (ht : x.1 = tile) :
    ¬(b ≤ x.2 ∧ x.2 < b + 16) := by
  have h := (List.mem_filter.1 hx).2
  simp only [ht, beq_self_eq_true, inRange, Bool.true_and, Bool.not_eq_true', Bool.and_eq_false_iff, decide_eq_false_iff_not] at h
  tauto

/-- A store changes sheet memory, its poison and its lines, and draws free values; its unit stays. -/
theorem nbStoreBody_frame (s : State) (k : BankId) (q : NbSeq) (u : NbUnit) (w : NbWord) :
    (nbStoreBody k s q u w).2 = u ∧ (nbStoreBody k s q u w).1 = { s with
      sheet := (nbStoreBody k s q u w).1.sheet, poisoned := (nbStoreBody k s q u w).1.poisoned
      sheetLines := (nbStoreBody k s q u w).1.sheetLines, fresh := (nbStoreBody k s q u w).1.fresh } := by
  refine ⟨rfl, ?_⟩
  unfold nbStoreBody State.dropLines
  dsimp only
  split
  · rfl
  · rw [(State.spoilStale_lands _ q _ _).1, State.putBlocks_frame]

end Store

end Sys2Proof.Machine

namespace Sys2Proof.Machine

section Store

variable {s : State} {k : BankId} {q : NbSeq} {u : NbUnit} {w : NbWord}

/-- The bytes that `NB_STORE` stores (R107, R124). -/
def NbUnit.storedBytes (u : NbUnit) (w : NbWord) : List Byte := (List.range w.n).flatMap fun i => accBytes w.f (u.acc (w.acc + i)).1

/-- The accumulators that `NB_STORE` stores, of a unit that is not poisoned. -/
def NbUnit.stored (u : NbUnit) (w : NbWord) : List (W32 × Bool) := (List.range w.n).map fun i => u.acc (w.acc + i)

/-- A unit that is neither poisoned nor dead stores its accumulators into blocks of the row. -/
theorem nbStoreBody_stores (hs : u.spoilt = false) (hd : s.unitDead k = false) : (nbStoreBody k s q u w).1 =
    ((s.putBlocks (bankAddr q.tile k w.row0 0 / 64 + w.aux % 16) (storeBlocks w.f (u.stored w) (w.n / accsPerBlock w.f))).spoilStale q
      (64 * (bankAddr q.tile k w.row0 0 / 64 + w.aux % 16)) (64 * (w.n / accsPerBlock w.f))).dropLines q.tile
        (bankAddr q.tile k w.row0 0 / 64) := by
  simp only [nbStoreBody, hs, hd, Bool.or_false]
  rfl

/-- Where the row's bank is in service, the blocks hold the accumulators' bytes, and all other bytes stay (R107, R124). -/
theorem nbStoreBody_sheet (ho : w.op = 7) (hm : w.malformed = false) (hs : u.spoilt = false) (hd : s.unitDead k = false)
    (hwf : s.sheet.wf = true) (hacc : ∀ i, i < w.n → (u.acc (w.acc + i)).2 = false)
    (hlive : ∀ i, i < 16 → s.bankDead (placeOf (bankAddr q.tile k w.row0 0 + 64 * i)) = false) :
    (q.stale = false → (nbStoreBody k s q u w).1.sheet.readN (bankAddr q.tile k w.row0 0 + 64 * (w.aux % 16)) (u.storedBytes w).length =
      u.storedBytes w) ∧
    ∀ a, a < bankAddr q.tile k w.row0 0 + 64 * (w.aux % 16) ∨
        bankAddr q.tile k w.row0 0 + 64 * (w.aux % 16) + (u.storedBytes w).length ≤ a →
      (nbStoreBody k s q u w).1.sheet.read a = s.sheet.read a := by
  obtain ⟨hfill, hrow⟩ := NbWord.store_fits ho hm
  have hbytes : ((u.stored w).flatMap fun x => accBytes w.f x.1) = u.storedBytes w := List.flatMap_map ..
  have hcount : (u.stored w).length = w.n := by rw [NbUnit.stored, List.length_map, List.length_range]
  obtain ⟨hlen, hclean, hflat⟩ := storeBlocks_live (f := w.f) (n := w.n / accsPerBlock w.f) (vals := u.stored w) (fun v hv => by
    obtain ⟨i, hi, rfl⟩ := List.mem_map.1 hv
    exact hacc i (List.mem_range.1 hi)) (hcount.trans hfill.symm)
  have hsize : (u.storedBytes w).length = 64 * (w.n / accsPerBlock w.f) := by
    have hmul := length_flatMap_accBytes w.f (u.stored w)
    rw [hbytes, hcount] at hmul
    refine Nat.eq_of_mul_eq_mul_right (accsPerBlock_pos w.f) ?_
    rw [hmul, Nat.mul_assoc, Nat.mul_comm (w.n / _), hfill]
  obtain ⟨b, hb⟩ : 64 ∣ bankAddr q.tile k w.row0 0 := bankAddr_row .. ▸ dvd_addrOfRow ..
  have hdiv : bankAddr q.tile k w.row0 0 / 64 = b := by omega
  have hat : (b + w.aux % 16) * 64 = bankAddr q.tile k w.row0 0 + 64 * (w.aux % 16) := by omega
  obtain ⟨hsheet, -⟩ := State.putBlocks_live (s := s) (b := b + w.aux % 16) hclean fun i hi => by
    have hplace : (b + w.aux % 16 + i) * 64 = bankAddr q.tile k w.row0 0 + 64 * (w.aux % 16 + i) := by omega
    rw [hplace]
    exact hlive _ (by omega)
  rw [hat, hflat, hbytes] at hsheet
  rw [nbStoreBody_stores hs hd, hdiv]
  obtain ⟨-, hout, hstale⟩ := State.spoilStale_lands (s.putBlocks (b + w.aux % 16) (storeBlocks w.f (u.stored w) (w.n / accsPerBlock w.f))) q
    (64 * (b + w.aux % 16)) (64 * (w.n / accsPerBlock w.f))
  refine ⟨fun hq => ?_, fun a ha => ?_⟩
  · rw [State.dropLines, hstale hq, hsheet]
    exact Memory.readN_writeN _ _ _ hwf
  · refine (hout a (by omega)).trans ?_
    rw [hsheet, Memory.read_writeN_outside _ _ _ _ ha]

end Store

/-! ## `NB_COPY` (R127) -/

section Copy

variable {s : State} {k : BankId} {q : NbSeq} {u : NbUnit} {w : NbWord} {src dst len : Nat}

/-- A copy between banks in service, of memory without poison, is a move of its bytes. -/
theorem State.copyRange_live (hp : s.poisoned = []) (hs : s.bankDead (placeOf src) = false) (hd : s.bankDead (placeOf dst) = false) :
    s.copyRange src dst len = { s with sheet := s.sheet.moveN src dst len, sheetLines := (s.copyRange src dst len).sheetLines } := by
  simp only [State.copyRange, hs, hd, hp, if_neg Bool.false_ne_true, List.filter_nil, List.map_nil, List.append_nil]

/-- Elements written from an index on leave those below alone. -/
theorem NbUnit.setV_below {i j : Nat} (l : List W16) (hij : i < j) : ∀ {u : NbUnit}, j + l.length ≤ 2048 →
    (u.setV j l).v.get (Fin.ofNat 2048 i) = u.v.get (Fin.ofNat 2048 i) := by
  induction l generalizing j with
  | nil => exact fun _ => rfl
  | cons x l ih =>
    intro u hl
    rw [List.length_cons] at hl
    refine (ih (Nat.lt_succ_of_lt hij) (by omega)).trans (upd_get_other u.v (Fin.ofNat 2048 j) _ (fun _ => x) fun e => ?_)
    have := congrArg Fin.val e
    rw [Fin.val_ofNat, Fin.val_ofNat, Nat.mod_eq_of_lt (by omega), Nat.mod_eq_of_lt (by omega)] at this
    omega

/-- They leave all but the register file alone. -/
theorem NbUnit.setV_frame (u : NbUnit) (j : Nat) (l : List W16) : u.setV j l = { u with v := (u.setV j l).v } := by
  induction l generalizing u j with
  | nil => rfl
  | cons x l ih => exact ih _ _

/-- A row's bytes copied to another, as `NB_COPY` leaves memory. -/
def State.copyRow (s : State) (q : NbSeq) (src dst : Nat) : State :=
  ((s.copyRange src dst 1024).spoilStale q dst 1024).dropLines q.tile (dst / 64)

/-- A unit after `NB_COPY`: V6 and V7, and their flags, are what the free values make them. -/
def NbUnit.afterCopy (u : NbUnit) (vals : List Nat) : NbUnit :=
  { u.setV 1536 ((vals.take 512).map fun n => BitVec.ofNat 16 n) with
    vPoison := (u.vPoison.set 6 (vals.getD 512 0 % 2 == 1)).set 7 (vals.getD 513 0 % 2 == 1) }

theorem NbUnit.afterCopy_frame (u : NbUnit) (vals : List Nat) :
    u.afterCopy vals = { u with v := (u.afterCopy vals).v, vPoison := (u.afterCopy vals).vPoison } := by
  rw [NbUnit.afterCopy, NbUnit.setV_frame]

/-- Elements of the registers below V6 do not see what V6 and V7 are left with. -/
theorem NbUnit.elem_afterCopy {i : Nat} (hi : i < 1536) (vals : List Nat) : (u.afterCopy vals).elem i = u.elem i := by
  have hlen : ((vals.take 512).map fun n => BitVec.ofNat 16 n).length ≤ 512 := by rw [List.length_map]; exact List.length_take_le ..
  refine Prod.ext (NbUnit.setV_below _ hi (by omega)) ?_
  have hreg : (Fin.ofNat 8 (i / 256)).val = i / 256 := by rw [Fin.val_ofNat, Nat.mod_eq_of_lt (by omega)]
  refine (Vector.getElem_set_ne (show 7 < 8 by decide) (Fin.ofNat 8 (i / 256)).isLt ?_).trans
    (Vector.getElem_set_ne (show 6 < 8 by decide) (Fin.ofNat 8 (i / 256)).isLt ?_) <;> omega

/-- A row copied by a unit that is not dead, from memory without poison. -/
theorem nbCopyBody_row (hp : s.poisoned = []) (hd : s.unitDead k = false) (hl : w.len = 1) : nbCopyBody k [] s q u w =
    (((s.copyRow q (bankAddr q.tile k w.row0 0) (bankAddr q.tile k (w.aux % 2 ^ 17) 0)).drawN 514).2,
      u.afterCopy ((s.copyRow q (bankAddr q.tile k w.row0 0) (bankAddr q.tile k (w.aux % 2 ^ 17) 0)).drawN 514).1) := by
  have hv (l : List W16) : (u.setV 1536 l).vPoison = u.vPoison := by rw [NbUnit.setV_frame]
  simp only [nbCopyBody, hl, List.range_one, List.foldl_cons, List.foldl_nil, Nat.add_zero, State.readRange_clean hp, hd, hv]
  rfl

/-- Every byte of the row goes over, and every byte elsewhere stays (R127). -/
theorem State.copyRow_lands (q : NbSeq) (hp : s.poisoned = []) (hs : s.bankDead (placeOf src) = false)
    (hd : s.bankDead (placeOf dst) = false) :
    (q.stale = false → ∀ j, j < 1024 → (s.copyRow q src dst).sheet.read (dst + j) = s.sheet.read (src + j)) ∧
    (∀ a, a < dst ∨ dst + 1024 ≤ a → (s.copyRow q src dst).sheet.read a = s.sheet.read a) ∧
    s.copyRow q src dst = { s with
      sheet := (s.copyRow q src dst).sheet, sheetLines := (s.copyRow q src dst).sheetLines, fresh := (s.copyRow q src dst).fresh } := by
  have hcopy := State.copyRange_live (len := 1024) hp hs hd
  obtain ⟨hframe, hout, hstale⟩ := State.spoilStale_lands (s.copyRange src dst 1024) q dst 1024
  refine ⟨fun hq j hj => ?_, fun a ha => (hout a ha).trans ?_, ?_⟩
  · rw [State.copyRow, hstale hq, hcopy]
    exact Memory.read_moveN_inside _ hj
  · rw [hcopy]
    exact Memory.read_moveN_outside _ ha
  · rw [State.copyRow, State.dropLines, hframe, hcopy]

end Copy

/-! ## Refreshes owed at a row (R121, R122, R131) -/

section Owed

variable {s : State} {k : BankId}

/-- The refreshes that a row lets through are told with the wait that they add, and counted for the sequence's partition. -/
theorem State.splitRow_told (h : (s.bank (bankKey k.site k.die.val k.bank.val)).owed ≠ 0) (p : Part) :
    ((s.splitRow k (some p)).tellWait k).nbMaxWait.toNat = max s.nbMaxWait.toNat (min 0xFFFF
      (s.refreshWait (bankKey k.site k.die.val k.bank.val) + (s.bank (bankKey k.site k.die.val k.bank.val)).waited +
        (21 + 72 * (s.bank (bankKey k.site k.die.val k.bank.val)).owed))) ∧
    (((s.splitRow k (some p)).tellWait k).bank (bankKey k.site k.die.val k.bank.val)).owed = 0 ∧
    (((s.splitRow k (some p)).tellWait k).part p).ctr.nbSplit = satAdd (s.part p).ctr.nbSplit 1 ∧
    ((s.splitRow k (some p)).tellWait k).seqs = s.seqs := by
  obtain ⟨howed, hwait, hframe⟩ := (s.splitRow k (some p)).tellWait_lands k
  obtain ⟨hzero, hrest⟩ := s.splitRow_lands k (some p)
  have hbank : (s.splitRow k (some p)).bank (bankKey k.site k.die.val k.bank.val) =
      { s.bank (bankKey k.site k.die.val k.bank.val) with
        owed := 0
        waited := (s.bank (bankKey k.site k.die.val k.bank.val)).waited + 21 + 72 * (s.bank (bankKey k.site k.die.val k.bank.val)).owed } := by
    rw [State.splitRow_some h]
    exact s.bank_modBank_same (bankKey k.site k.die.val k.bank.val) fun x =>
      { x with owed := 0, waited := x.waited + 21 + 72 * (s.bank (bankKey k.site k.die.val k.bank.val)).owed }
  have hcomes : (s.splitRow k (some p)).refreshWait (bankKey k.site k.die.val k.bank.val) =
      s.refreshWait (bankKey k.site k.die.val k.bank.val) := by
    rw [State.refreshWait, hbank, hrest]
    rfl
  refine ⟨?_, howed.trans hzero, ?_, ?_⟩
  · rw [hwait, hcomes, hbank, hrest, Nat.add_assoc (s.bank _).waited, Nat.add_assoc]
  · rw [hframe]
    refine (congrArg (fun t : State => (t.part p).ctr.nbSplit) (State.splitRow_some h p)).trans ?_
    rw [State.count, State.part_modPart]
    rfl
  · rw [hframe, hrest]

end Owed

/-- Settles O36: each row is its command's body on a unit that nothing keeps from it, and a row boundary before it where refreshes are owed. -/
theorem nearBankStores : Obligations.NearBankStores := by
  unfold Obligations.NearBankStores
  refine ⟨⟨fun s k q u w hat hf hn p tile hp htile hmay hdone hne => ?readacc, fun s k q u w hat hwf hacc hlive => ?store⟩,
    fun s k q u w p hu hw ho hm hnext hp howed => ?owed, fun s k q u w hat hwf hp hl hsrc hdst => ?copy⟩
  case readacc =>
    obtain ⟨-, -, -, -, -, -, -, hs, hd, -⟩ := id hat
    have hlen : ((List.range w.n).map fun i => u.delivered (w.acc + i)).length = w.n := by rw [List.length_map, List.length_range]
    have hsend := State.sendAcc_one (rank := bankRank q.hdr.banks k.bank.val) ((NbWord.n_pos w).trans_le hlen.ge) (hlen.le.trans hn) htile hmay hdone
    rw [if_pos hf] at hsend
    have hbody := nbReadaccBody_sends (q := q) (w := w) hs hd
    rw [hp, hsend] at hbody
    obtain ⟨hwords, hcounter, -⟩ := State.message_lands (s := s) (k := .swap) (words := (List.range w.n).map fun i => u.delivered (w.acc + i))
      (cw := q.hdr.doneWord) hne
    refine ⟨_, congrArg Host.Outcome.next (State.nbRun_unitAt hat hbody hs hd rfl), rfl, lookupA_insertA_same _ _ _, fun i hi => ?_, ?_⟩
    · refine (congrArg (fun x : Line => x.words.get i) hwords).trans ?_
      rw [List.take_of_length_le (hlen.le.trans hn), Line.apply_at (n := i.val) (y := u.delivered (w.acc + i.val)) (by omega) (Nat.zero_add _).symm
        (by rw [List.getElem?_map, List.getElem?_range hi]; rfl), NbUnit.delivered]
      split <;> rfl
    · exact (congrArg (fun x : Line => x.words.get q.hdr.doneWord) hcounter).trans (upd_get_same _ _ _)
  case store =>
    obtain ⟨-, -, ho, hm, -, -, -, hs, hd, -⟩ := id hat
    obtain ⟨hunit, hframe⟩ := nbStoreBody_frame s k q u w
    obtain ⟨hstored, hother⟩ := nbStoreBody_sheet ho hm hs hd hwf hacc hlive
    have hbody : nbStoreBody k s q u w = ((nbStoreBody k s q u w).1, u) := Prod.ext rfl hunit
    refine ⟨_, congrArg Host.Outcome.next (State.nbRun_unitAt hat hbody hs (by rw [hframe]; exact hd) rfl), ?_,
      lookupA_insertA_same _ _ _, hstored, hother, fun x hx htile => ?_⟩
    · rw [hframe]
    · rw [nbStoreBody_stores hs hd] at hx
      exact State.not_mem_dropLines hx htile
  case owed =>
    obtain ⟨hwait, hzero, hsplit, hseqs⟩ := State.splitRow_told (Nat.ne_of_gt howed) p
    obtain ⟨hunit, hframe⟩ := nbStoreBody_frame ((s.splitRow k q.part).tellWait k) k q u w
    have hrow : w.opensRow = true := by rw [NbWord.opensRow, ho]; rfl
    have hbody : nbStoreBody k (if w.opensRow then (s.splitRow k q.part).tellWait k else s) q u w =
        ((nbStoreBody k ((s.splitRow k q.part).tellWait k) q u w).1, u) := by rw [if_pos hrow]; exact Prod.ext rfl hunit
    have hrun := State.nbRun_some hu hw ho hm hbody
    rw [State.unitNext_follows (by split <;> exact hnext), hframe, hp] at hrun
    exact ⟨_, congrArg Host.Outcome.next hrun, hzero, hwait, hsplit, hseqs⟩
  case copy =>
    obtain ⟨-, -, -, -, -, -, -, hs, hd, -⟩ := id hat
    obtain ⟨hcopied, hother, hframe⟩ := State.copyRow_lands q hp hsrc hdst
    have hbody := nbCopyBody_row (q := q) (u := u) hp hd hl
    generalize ((s.copyRow q (bankAddr q.tile k w.row0 0) (bankAddr q.tile k (w.aux % 2 ^ 17) 0)).drawN 514).1 = vals at hbody
    refine ⟨_, _, congrArg Host.Outcome.next (State.nbRun_unitAt hat hbody ?_ ?_ ?_), hcopied, hother, ?_, lookupA_insertA_same _ _ _, rfl,
      fun i hi => NbUnit.elem_afterCopy hi vals, fun i _ => ?_, ?_⟩
    · rw [NbUnit.afterCopy_frame]; exact hs
    · rw [hframe]; exact hd
    · rw [NbUnit.afterCopy_frame]
    · rw [hframe]; exact hp
    · rw [NbUnit.afterCopy_frame]; rfl
    · rw [hframe]; rfl

end Sys2Proof.Machine

namespace Sys2Proof.Machine

/-! ## Commands on a request (R65, R260, R269-R271) -/

section

variable {s t : State} {p : Part} {c : Cmd} {h : Nat} {r : Req}

/-- At a boundary the command taken takes effect, and what its turn lets go on follows (R65). -/
theorem exec_boundaryRow_turn {x : Instr × Nat} (hx : x ∈ boundaryRows (.part p)) (hc : s.turnOf p c x.2) :
    exec x.1 s = .next ((s.atBoundaryCmd p c).runBoundary p) := by
  obtain ⟨ht, hop, hread, hrun, hstep⟩ := hc
  have hb : (s.part p).atBoundary = true := by rw [Partition.atBoundary, hstep]; rfl
  rw [exec_boundaryRow hx, State.boundaryCmd, State.forPart_part _ (hop ▸ State.pickCmd_only ht hread hrun), hb, ht, Cmd.inOrder_only,
    Bool.true_and, if_pos rfl]

theorem exec_reqAppend_turn (hc : s.turnOf p c 0x02) : exec (.reqAppend (.part p)) s = .next ((s.reqAppend p c).runBoundary p) := by
  have hcmd : s.atBoundaryCmd p c = s.reqAppend p c := by rw [State.atBoundaryCmd, hc.2.1]; rfl
  exact hcmd ▸ exec_boundaryRow_turn (x := (.reqAppend (.part p), 0x02)) (by simp [boundaryRows]) hc

theorem exec_reqClose_turn (hc : s.turnOf p c 0x03) : exec (.reqClose (.part p)) s = .next ((s.reqClose p c).runBoundary p) := by
  have hcmd : s.atBoundaryCmd p c = s.reqClose p c := by rw [State.atBoundaryCmd, hc.2.1]; rfl
  exact hcmd ▸ exec_boundaryRow_turn (x := (.reqClose (.part p), 0x03)) (by simp [boundaryRows]) hc

theorem exec_reqPark_turn (hc : s.turnOf p c 0x04) : exec (.reqPark (.part p)) s = .next ((s.reqPark p c).runBoundary p) := by
  have hcmd : s.atBoundaryCmd p c = s.reqPark p c := by rw [State.atBoundaryCmd, hc.2.1]; rfl
  exact hcmd ▸ exec_boundaryRow_turn (x := (.reqPark (.part p), 0x04)) (by simp [boundaryRows]) hc

/-- Where the one command taken completes after a change of its partition that keeps the commands taken, nothing more waits; what the change
made of the entries stands. -/
theorem State.runBoundary_done {u : State} {f : Partition → Partition} {status b : Nat} (ht : (s.part p).taken = [c])
    (hf : (f (s.part p)).taken = (s.part p).taken) (hu : u = (s.modPart p f).done (.part p) c status b) :
    ((u.runBoundary p).part p).taken = [] ∧ ∀ h, ((u.runBoundary p).part p).req h = (f (s.part p)).req h := by
  have htaken : ((s.modPart p f).part p).taken = [c] := by rw [State.part_modPart, hf, ht]
  have hdone : (u.part p).taken = [] := hu ▸ State.done_taken_only htaken _ _
  rw [State.runBoundary_of_empty hdone]
  refine ⟨hdone, fun h => ?_⟩
  rw [hu]
  refine (State.part_done_eq (fun q => q.req h) (fun _ _ _ => rfl) _ _ _ _ _).trans ?_
  rw [State.part_modPart]

/-- The command of a request in the share goes to its entry (R253, R260). -/
theorem State.named_some (hs : (s.part p).inShare c.request = true) (hr : (s.part p).req c.request = some r) (body : Nat → Req → State) :
    s.named p c body = body c.request r := by
  simp only [State.named, hs, hr, Bool.true_eq_false, if_false]

/-- The entry of a request after a change of it. -/
@[simp] theorem Partition.req_modReq_same (q : Partition) (h : Nat) (f : Req → Req) : (q.modReq h f).req h = (q.req h).map f :=
  lookupA_modifyA_same _ _ _

theorem State.req_modReq_same (hr : (s.part p).req h = some r) (f : Req → Req) : ((s.modReq p h f).part p).req h = some (f r) := by
  rw [State.modReq, State.part_modPart, Partition.req_modReq_same, hr]
  rfl

theorem State.taken_modReq (s : State) (p : Part) (h : Nat) (f : Req → Req) : ((s.modReq p h f).part p).taken = (s.part p).taken := by
  rw [State.modReq, State.part_modPart]
  rfl

/-! ## `REQ_APPEND` (R203, R269) -/

/-- A request whose chain has grown (R269). -/
def Req.appended (r : Req) (chain : Chain) : Req := { r with
  chain := chain
  pending := chain.words.length - r.length
  state := if r.state = .decode then .prefill else r.state
  prev := if (r.state = .parked ∨ r.state = .spilled ∨ r.state = .pageWait) ∧ r.prev = .decode then .prefill else r.prev
  waitFrom := if r.waitFrom = .decode then .prefill else r.waitFrom }

/-- Tokens read lie within the vocabulary of the model. -/
theorem tokensOf_within {b : List Byte} {n : Nat} (hb : ∀ x ∈ tokensOf b, x < n) : ((tokensOf b).any fun x => decide (n ≤ x)) = false := by
  simpa using hb

/-- Prompt tokens in the vocabulary, for which the chain has room, make the chain longer (R269). -/
theorem State.reqAppend_tokens {m m' : Model} {b : List Byte} {ch : Chain} (hs : (s.part p).inShare c.request = true)
    (hr : (s.part p).req c.request = some r) (htest : s.appendTest p c r = stOk) (hm : (s.part p).model r.model = some m)
    (hb : ∀ n ∈ tokensOf b, n < m.pkg.model.vocab) (hkind : c.f 28 1 = 0) (hgot : c.got = [b])
    (hp : m.pushAll c.request r.chain (tokensOf b) = some (m', ch)) : s.reqAppend p c =
      (s.modPart p fun q => (q.modModel r.model fun _ => m').modReq c.request fun _ => r.appended ch).done (.part p) c stOk := by
  rw [State.reqAppend, State.named_some hs hr]
  simp only [htest, hgot, hkind, hm, tokensOf_within hb, State.appendTokens, Option.bind_some, hp]
  rfl

/-- A draft tree whose parents come before their children is the request's from then on (R203). -/
theorem State.reqAppend_tree {m : Model} {b x : List Byte} (hs : (s.part p).inShare c.request = true)
    (hr : (s.part p).req c.request = some r) (htest : s.appendTest p c r = stOk) (hm : (s.part p).model r.model = some m)
    (hb : ∀ n ∈ tokensOf b, n < m.pkg.model.vocab) (hkind : c.f 28 1 = 1) (hgot : c.got = [b, x])
    (hparents : ∀ i, i < c.f 24 4 → ((x.map BitVec.toNat).getD i 0xFF = 0xFF ∨ (x.map BitVec.toNat).getD i 0xFF < i)) :
    s.reqAppend p c = (s.modPart p fun q => q.modReq c.request fun r =>
      { r with tree := some ⟨List.zip (tokensOf b) (x.map BitVec.toNat)⟩ }).done (.part p) c stOk := by
  have hok : ((List.range (c.f 24 4)).all fun i =>
      (x.map BitVec.toNat).getD i 0xFF == 0xFF || decide ((x.map BitVec.toNat).getD i 0xFF < i)) = true := by
    simpa using hparents
  rw [State.reqAppend, State.named_some hs hr]
  simp only [htest, hgot, hkind, hm, tokensOf_within hb, hok]
  rfl

/-! ## Requests that end (R257, R260, R271) -/

/-- A request that ends gives its pages and its chain back, and its entry stays readable (R257, R260). -/
theorem State.endReq_ends (hr : (s.part p).req h = some r) (st : ReqState) :
    (∃ r', ((s.endReq p h st).part p).req h = some r' ∧ r'.state = st ∧ r'.chain.words = []) ∧
      ((s.endReq p h st).part p).taken = (s.part p).taken := by
  have hreleased := ((s.part p).releasePages_onlyModels r).trans (Partition.releaseChain_onlyModels _ ((s.part p).releasePages r).2)
  have hentry : (((s.part p).releasePages r).1.releaseChain ((s.part p).releasePages r).2).1.req h = some r := by
    rw [hreleased.eq]
    exact hr
  have htaken : (((s.part p).releasePages r).1.releaseChain ((s.part p).releasePages r).2).1.taken = (s.part p).taken :=
    by rw [hreleased.eq]
  simp only [State.endReq, hr, State.part_modPart]
  refine ⟨⟨_, (Partition.req_modReq_same _ h fun _ => _).trans (congrArg (Option.map fun _ => _) hentry), ?_, ?_⟩, htaken⟩
  · rfl
  · rfl

/-- A request becomes DONE, and its record tells so (R271). -/
theorem State.finishReq_ends (hr : (s.part p).req h = some r) (cause : Nat) :
    (∃ r', ((s.finishReq p h cause).part p).req h = some r' ∧ r'.state = .done ∧ r'.chain.words = []) ∧
      ((s.finishReq p h cause).part p).taken = (s.part p).taken := by
  rw [State.finishReq, hr]
  dsimp only
  have htold := (State.toReq_tells (.refl s) p h { code := 0x0010, sev := 0, a := cause, b := r.generated }).parts p
  obtain ⟨hends, htaken⟩ := State.endReq_ends (s := s.toReq p h { code := 0x0010, sev := 0, a := cause, b := r.generated }) (h := h) (r := r)
    (by rw [htold]; exact hr) .done
  exact ⟨hends, htaken.trans (by rw [htold])⟩

/-- An output record changes its request's counts alone (R74). -/
theorem State.writeRecord_entry (hr : (s.part p).req h = some r) (token : W32) (logprob : W16) (isEnd missed drafted : Bool) :
    (∃ r', ((s.writeRecord p h token logprob isEnd missed drafted).part p).req h = some r') ∧
      ((s.writeRecord p h token logprob isEnd missed drafted).part p).taken = (s.part p).taken := by
  have hsent (i : Port) (o : Out) : (s.sendOn i o).part p = s.part p := congrArg (·.get p) (s.sendOn_parts i o)
  unfold State.writeRecord
  split
  · exact ⟨⟨_, State.req_modReq_same (by rw [hsent]; exact hr) _⟩, (State.taken_modReq ..).trans (by rw [hsent])⟩
  · exact ⟨⟨r, hr⟩, rfl⟩

/-- The `REQ_CLOSE` that waits for a request completes once the request has ended (R271). -/
theorem State.settle_closed (ht : (s.part p).taken = [c]) (hop : c.opcode = 0x03) (hrun : c.run = .closing)
    (hr : (s.part p).req c.request = some r) (hl : r.state.live = false) : s.settle p = s.done (.part p) c stOk := by
  simp only [State.settle, ht, List.foldl_cons, List.foldl_nil, hrun, hop, hr, hl, if_true, Bool.false_eq_true, if_false]

/-- A live request that has a free slot in its ring ends with an END-only record, and the `REQ_CLOSE` with it (R271). -/
theorem State.endOnly_closes {endAs : Nat} (ht : (s.part p).taken = [c]) (hop : c.opcode = 0x03) (hrun : c.run = .closing)
    (hr : (s.part p).req c.request = some r) (hfree : 1 ≤ r.ringFree) (he : endAs ≠ 5) :
    ∃ r', ((s.endOnly p c.request endAs).part p).req c.request = some r' ∧ r'.state = .done ∧ r'.chain.words = [] ∧
      ((s.endOnly p c.request endAs).part p).taken = [] := by
  simp only [State.endOnly, hr, if_pos hfree, if_neg he]
  generalize (endAs == 5 || r.deadlinePassed || s.trusted && r.deadline != 0 && decide (r.deadline ≤ s.now)) = missed
  obtain ⟨⟨r₁, hr₁⟩, htaken₁⟩ := State.writeRecord_entry hr 0xFFFFFFFF 0 true missed false
  obtain ⟨⟨r₂, hr₂, hdone, hwords⟩, htaken₂⟩ := State.finishReq_ends hr₁ endAs
  have htaken := (htaken₂.trans htaken₁).trans ht
  rw [State.settle_closed htaken hop hrun hr₂ (by rw [hdone]; rfl)]
  exact ⟨r₂, (State.part_done_eq (fun q => q.req _) (fun _ _ _ => rfl) _ _ _ _ _).trans hr₂, hdone, hwords, State.done_taken_only htaken _ _⟩

/-! ## `REQ_CLOSE` (R260, R271) -/

/-- The command of `REQ_CLOSE`, waiting for the end of its request. -/
def Cmd.closing (c : Cmd) : Cmd := { c with run := .closing, started := true }

theorem State.part_waitEnd (ht : (s.part p).taken = [c]) : (s.waitEnd p c).part p = { s.part p with taken := [c.closing] } := by
  rw [State.waitEnd, State.part_modCmd, ht, modifyFirst, if_pos (beq_self_eq_true c.id)]
  rfl

/-- An active request is closed at the end of its step: its command waits (R271). -/
theorem State.reqClose_active (hs : (s.part p).inShare c.request = true) (hr : (s.part p).req c.request = some r) (hmode : c.f 16 1 = 0)
    (hl : r.state.live = true) (ha : r.state.active = true) :
    s.reqClose p c = (s.waitEnd p c).modReq p c.request fun r => { r with closing := true } := by
  rw [State.reqClose, State.named_some hs hr]
  simp [hmode, hl, ha]

/-- Any other live request ends at once with an END-only record, and at once too one closed in mode 1 (R271). -/
theorem State.reqClose_endOnly (hs : (s.part p).inShare c.request = true) (hr : (s.part p).req c.request = some r) (hmode : c.f 16 1 ≤ 1)
    (hl : r.state.live = true) (hnow : c.f 16 1 = 1 ∨ r.state.active = false) :
    ∃ endAs, endAs ≠ 5 ∧ s.reqClose p c = (s.waitEnd p c).endOnly p c.request endAs := by
  rw [State.reqClose, State.named_some hs hr, if_neg (Nat.not_lt.2 hmode), if_neg (by rw [hl]; decide)]
  by_cases h1 : c.f 16 1 = 1
  · exact ⟨4, by decide, if_pos h1⟩
  · have ha := hnow.resolve_left h1
    exact ⟨3, by decide, (if_neg h1).trans (if_neg (by rw [ha]; decide))⟩

/-- The entry of a request that has ended is freed (R260). -/
theorem State.reqClose_ended (hs : (s.part p).inShare c.request = true) (hr : (s.part p).req c.request = some r) (hmode : c.f 16 1 ≤ 1)
    (hl : r.state.live = false) :
    s.reqClose p c = (s.modPart p fun q => { q with reqs := eraseA q.reqs c.request }).done (.part p) c stOk := by
  rw [State.reqClose, State.named_some hs hr, if_neg (Nat.not_lt.2 hmode), if_pos hl]

/-! ## `REQ_PARK` (R259, R270) -/

/-- Without a spill area nothing spills (R231). -/
theorem State.spillPolicy_off (h : (s.part p).spill = false) : s.spillPolicy p = s :=
  if_neg (by rw [h, Bool.false_and]; exact Bool.false_ne_true)

/-- A live request parks HELD (R259, R270). -/
theorem State.reqPark_parks (hs : (s.part p).inShare c.request = true) (hr : (s.part p).req c.request = some r) (hl : r.state.live = true)
    (hmode : c.f 16 1 = 0) (hparked : r.state ≠ .parked) (hspilled : r.state ≠ .spilled) (hspill : (s.part p).spill = false) :
    s.reqPark p c = (s.modPart p fun q => (q.noVictims c.request).modReq c.request fun r => { r.park true with spillAsked := false }).done
      (.part p) c stOk := by
  have hstill (f : Req → Req) : ((s.modPart p fun q => (q.noVictims c.request).modReq c.request f).part p).spill = false := by
    rw [State.part_modPart]
    exact hspill
  rw [State.reqPark, if_neg (by omega), State.named_some hs hr, if_neg (by rw [hl]; decide), if_pos hmode]
  dsimp only
  split
  · next he => exact absurd he hparked
  · next he => exact absurd he hspilled
  · simp only [hspill, Bool.and_false, State.spillPolicy_off (hstill _)]
    rfl

/-- A parked request that was HELD goes back where it was (R259, R270). -/
theorem State.reqPark_returns (hs : (s.part p).inShare c.request = true) (hr : (s.part p).req c.request = some r) (hmode : c.f 16 1 = 1)
    (hparked : r.state = .parked) (hheld : r.held = true) : s.reqPark p c =
      (s.modPart p fun q => (q.modReq c.request fun r => { r.unpark s.uptime with spillAsked := false }).number).done (.part p) c stOk := by
  rw [State.reqPark, if_neg (by omega), State.named_some hs hr]
  simp only [hmode, hparked, hheld, ReqState.live]
  rfl

/-! ## Copies of a match that end (R97, R280) -/

/-- No block of a page lost is no loss. -/
theorem State.loseInPage_nil (s : State) (p : Part) (handle page loc : Nat) : s.loseInPage p handle page [] loc = s := by
  unfold State.loseInPage
  dsimp only
  split
  · split
    · rfl
    · rfl
  · rfl

/-- A page that arrives where nothing is poisoned loses nothing. -/
theorem State.loseArrived_clean (hp : s.poisoned = []) (handle page : Nat) : s.loseArrived p handle page = s := by
  unfold State.loseArrived
  split
  · rfl
  · simp only [hp, List.filter_nil, List.map_nil, State.loseInPage_nil]

/-- The copies of a match do not end while a held die is part of them, nor where there are none (R97). -/
theorem State.prefixCopied_waits (hr : (s.part p).req h = some r)
    (hw : r.copying = [] ∨ ∃ x ∈ r.copying, s.rangeHeld x.2.1 ((s.part p).pageLen x.1 x.2.2) = true) (errs : Errs) :
    s.prefixCopied p h errs = s := by
  rw [State.prefixCopied, hr]
  refine if_pos ?_
  rw [Bool.or_eq_true, List.isEmpty_iff, List.any_eq_true]
  exact hw

/-- They end in a memory without error or poison: the request has the positions matched (R280). -/
theorem State.prefixCopied_clean (hr : (s.part p).req h = some r) (hp : s.poisoned = []) (hc : r.copying ≠ [])
    (hfree : ∀ x ∈ r.copying, s.rangeHeld x.2.1 ((s.part p).pageLen x.1 x.2.2) = false) : s.prefixCopied p h [] =
      s.modReq p h fun r => { r with copying := [], length := 64 * r.matched, pending := r.chain.words.length - 64 * r.matched } := by
  have hgo : ¬(r.copying.isEmpty || r.copying.any fun x => s.rangeHeld x.2.1 ((s.part p).pageLen x.1 x.2.2)) = true := by
    rw [Bool.or_eq_true, List.isEmpty_iff, List.any_eq_true]
    rintro (h | ⟨x, hx, hheld⟩)
    · exact hc h
    · exact Bool.false_ne_true ((hfree x hx).symm.trans hheld)
  rw [State.prefixCopied, hr]
  dsimp only
  have hread (l : List ((Nat × Nat × Nat) × Nat)) : l.foldl (fun s x => s.readRange (some p) 0 x.1.2.1 x.2 []) s = s :=
    List.foldl_fixed' (fun _ => State.readRange_clean hp) l
  rw [if_neg hgo, hread]
  refine (congrArg (fun u : State => r.copying.foldl (fun s x => s.loseArrived p x.1 x.2.2) (u.modReq p h fun r =>
    { r with copying := [], length := 64 * r.matched, pending := r.chain.words.length - 64 * r.matched }))
      (List.foldl_fixed' (fun x => ?_) _)).trans (List.foldl_fixed' (fun x => State.loseArrived_clean (by exact hp) _ _) _)
  split
  · exact List.foldl_fixed' (fun _ => rfl) _
  · rfl

end

/-- Settles O57: each command at its boundary is one change of its request's entry, and then complete or waiting for the request's end;
the copies of a match end in a change of the entry alone. -/
theorem requestsChange : Obligations.RequestsChange := by
  unfold Obligations.RequestsChange
  refine ⟨fun s p c r m b hturn hs hr htest hm hb => ⟨fun m' ch hkind hgot hp => ?appends, fun x hkind hgot hparents => ?tree⟩,
    fun s p c r hturn hs hr hmode => ⟨fun hl => ?frees, fun hl h0 ha => ?waits, fun hl hnow hfree => ?ends⟩,
    fun s p c r hturn hs hr hl => ⟨fun h0 hparked hspilled hspill => ?parks, fun h1 hparked hheld => ?returns⟩,
    fun s p h r hr hp => ⟨fun hc => congrArg Host.Outcome.next (State.prefixCopied_waits hr (.inl hc) []),
      fun errs hheld => congrArg Host.Outcome.next (State.prefixCopied_waits hr (.inr hheld) errs), fun hc hfree => ?copied⟩⟩
  case appends =>
    obtain ⟨htaken, hreq⟩ := State.runBoundary_done (c := c) (p := p) hturn.1 rfl (State.reqAppend_tokens hs hr htest hm hb hkind hgot hp)
    refine ⟨_, r.appended ch, exec_reqAppend_turn hturn, htaken, ?_, Model.pushAll_words hp, rfl, rfl, rfl⟩
    rw [hreq, Partition.req_modReq_same]
    exact congrArg (Option.map _) hr
  case tree =>
    obtain ⟨htaken, hreq⟩ := State.runBoundary_done (c := c) (p := p) hturn.1 rfl (State.reqAppend_tree hs hr htest hm hb hkind hgot hparents)
    refine ⟨_, exec_reqAppend_turn hturn, htaken, ?_⟩
    rw [hreq, Partition.req_modReq_same, hr]
    rfl
  case frees =>
    obtain ⟨htaken, hreq⟩ := State.runBoundary_done (c := c) (p := p) hturn.1 rfl (State.reqClose_ended hs hr hmode hl)
    exact ⟨_, exec_reqClose_turn hturn, htaken, (hreq _).trans (lookupA_eraseA_same _ _),
      fun h hh => (hreq h).trans (lookupA_eraseA_other _ hh)⟩
  case waits =>
    have hwait := State.part_waitEnd hturn.1
    have hentry : ((s.waitEnd p c).part p).req c.request = some r := by rw [hwait]; exact hr
    have htaken : (((s.waitEnd p c).modReq p c.request fun r => { r with closing := true }).part p).taken = [c.closing] :=
      (State.taken_modReq ..).trans (by rw [hwait])
    refine ⟨_, (exec_reqClose_turn hturn).trans (congrArg _ ?_), State.req_modReq_same hentry _, htaken⟩
    rw [State.reqClose_active hs hr h0 hl ha]
    refine State.runBoundary_of_turnless fun d hd => ?_
    rw [htaken] at hd ⊢
    rw [List.mem_singleton.1 hd]
    rfl
  case ends =>
    obtain ⟨ht, hop, -⟩ := id hturn
    have hwait := State.part_waitEnd ht
    obtain ⟨endAs, he, hclose⟩ := State.reqClose_endOnly hs hr hmode hl hnow
    obtain ⟨r', hr', hdone, hwords, htaken⟩ := State.endOnly_closes (s := s.waitEnd p c) (c := c.closing) (r := r) (by rw [hwait]) hop rfl
      (by rw [hwait]; exact hr) hfree he
    refine ⟨_, r', (exec_reqClose_turn hturn).trans (congrArg _ ?_), hr', hdone, hwords, htaken⟩
    rw [hclose]
    exact State.runBoundary_of_empty htaken
  case parks =>
    obtain ⟨htaken, hreq⟩ := State.runBoundary_done (c := c) (p := p) hturn.1 rfl (State.reqPark_parks hs hr hl h0 hparked hspilled hspill)
    refine ⟨_, exec_reqPark_turn hturn, htaken, ?_⟩
    rw [hreq, Partition.req_modReq_same]
    exact congrArg (Option.map _) hr
  case returns =>
    obtain ⟨htaken, hreq⟩ := State.runBoundary_done (c := c) (p := p) hturn.1 rfl (State.reqPark_returns hs hr h1 hparked hheld)
    obtain ⟨k, hk⟩ := Partition.req_number ((s.part p).modReq c.request fun r => { r.unpark s.uptime with spillAsked := false }) c.request
    rw [Partition.req_modReq_same, hr] at hk
    exact ⟨_, { r.unpark s.uptime with spillAsked := false, queuePos := k }, exec_reqPark_turn hturn, htaken, (hreq _).trans hk,
      rfl, rfl, rfl, rfl⟩
  case copied =>
    exact ⟨_, _, congrArg Host.Outcome.next (State.prefixCopied_clean hr hp hc hfree), State.req_modReq_same hr _, rfl, rfl, rfl, rfl, rfl⟩

end Sys2Proof.Machine

namespace Sys2Proof.Machine

/-! ## The register file and the accumulators of a unit (R107, R109) -/

section Written

/-- A table written place by place from an index on holds, there, what was written, and elsewhere what it held. -/
theorem get_written {σ α : Type} {size : Nat} {write : σ → Nat → List α → σ} {put : σ → Nat → α → σ} {get : σ → Nat → α}
    (hnil : ∀ u i, write u i [] = u) (hcons : ∀ u i x l, write u i (x :: l) = write (put u i x) (i + 1) l)
    (hput : ∀ u i x m, i < size → m < size → get (put u i x) m = if m = i then x else get u m) {m n : Nat} (hm : m < size) :
    ∀ {u i f}, i + n ≤ size →
      get (write u i ((List.range n).map f)) m = if i ≤ m ∧ m < i + n then f (m - i) else get u m := by
  induction n with
  | zero => exact fun _ => (congrArg (get · m) (hnil _ _)).trans (if_neg (by omega)).symm
  | succ n ih =>
    intro u i f hn
    rw [List.range_succ_eq_map, List.map_cons, List.map_map, hcons, ih (by omega), hput _ _ _ _ (by omega) hm]
    obtain hlt | rfl | hgt := Nat.lt_trichotomy m i
    · rw [if_neg (by omega), if_neg (by omega), if_neg (by omega)]
    · rw [if_neg (by omega), if_pos rfl, if_pos (by omega), Nat.sub_self]
    · rw [if_neg (show ¬m = i by omega)]
      refine if_congr (by omega) (congrArg f ?_) rfl
      omega

/-- One place of a table written. -/
theorem upd_get_ofNat {α : Type} {n : Nat} [NeZero n] (v : Vector α n) {i m : Nat} (x : α) (hi : i < n) (hm : m < n) :
    (upd v (Fin.ofNat n i) fun _ => x).get (Fin.ofNat n m) = if m = i then x else v.get (Fin.ofNat n m) := by
  split
  · next he => subst he; exact upd_get_same v _ fun _ => x
  · next hne =>
    refine upd_get_other v _ _ _ fun e => hne ?_
    simpa only [Fin.val_ofNat, Nat.mod_eq_of_lt hi, Nat.mod_eq_of_lt hm] using congrArg Fin.val e

variable {u : NbUnit} {i m n : Nat}

/-- Accumulators written from an index on. -/
theorem NbUnit.acc_setAcc (f : Nat → W32 × Bool) (hn : i + n ≤ 64) (hm : m < 64) :
    (u.setAcc i ((List.range n).map f)).acc m = if i ≤ m ∧ m < i + n then f (m - i) else u.acc m := by
  refine get_written (write := NbUnit.setAcc) (get := NbUnit.acc) (fun _ _ => rfl) (fun _ _ _ _ => rfl) (fun v j x k hj hk => ?_) hm hn
  exact Prod.ext ((upd_get_ofNat v.a x.1 hj hk).trans (apply_ite Prod.fst (k = j) x (v.acc k)).symm)
    ((upd_get_ofNat v.aPoison x.2 hj hk).trans (apply_ite Prod.snd (k = j) x (v.acc k)).symm)

/-- They leave all but the accumulators and their flags alone. -/
theorem NbUnit.setAcc_frame (u : NbUnit) (i : Nat) (l : List (W32 × Bool)) :
    u.setAcc i l = { u with a := (u.setAcc i l).a, aPoison := (u.setAcc i l).aPoison } := by
  induction l generalizing u i with
  | nil => rfl
  | cons x l ih => exact ih _ _

/-- Elements of the register file written from an index on. -/
theorem NbUnit.elem_setV (f : Nat → W16) (hn : i + n ≤ 2048) (hm : m < 2048) :
    ((u.setV i ((List.range n).map f)).elem m).1 = if i ≤ m ∧ m < i + n then f (m - i) else (u.elem m).1 :=
  get_written (write := NbUnit.setV) (get := fun v k => (v.elem k).1) (fun _ _ => rfl) (fun _ _ _ _ => rfl)
    (fun v _ x _ hj hk => upd_get_ofNat v.v x hj hk) hm hn

/-- Every accumulator of a unit wholly poisoned is flagged, and so is every register (R109). -/
theorem NbUnit.acc_poisoned (u : NbUnit) (i : Nat) : (u.poisoned.acc i).2 = true :=
  Vector.getElem_replicate (Fin.ofNat 64 i).isLt

theorem NbUnit.elem_poisoned (u : NbUnit) (i : Nat) : (u.poisoned.elem i).2 = true :=
  Vector.getElem_replicate (Fin.ofNat 8 (i / 256)).isLt

end Written

/-! ## `NB_CLEAR` and `NB_LOADV` (R107) -/

section Loads

variable {s : State} {k : BankId} {q : NbSeq} {u : NbUnit} {w : NbWord}

/-- A well-formed `NB_CLEAR` names accumulators that there are (R107). -/
theorem NbWord.clear_fits (ho : w.op = 1) (hm : w.malformed = false) : w.acc + w.n ≤ 64 := by
  simp only [NbWord.malformed, ho, Bool.or_eq_false_iff, decide_eq_false_iff_not, Nat.not_lt] at hm
  exact hm.2

/-- The elements that a well-formed `NB_LOADV` loads fit in the register file (R107). -/
theorem NbWord.loadv_fits (ho : w.op = 2) (hm : w.malformed = false) : w.v0 + w.len ≤ 2048 := by
  simp only [NbWord.malformed, ho, Bool.or_eq_false_iff, decide_eq_false_iff_not, Nat.not_lt] at hm
  exact hm.2

/-- `NB_CLEAR` changes its unit's registers and accumulators alone. -/
theorem nbClearBody_frame (s : State) (q : NbSeq) (u : NbUnit) (w : NbWord) : nbClearBody s q u w = (s, { u with
    a := (nbClearBody s q u w).2.a, aPoison := (nbClearBody s q u w).2.aPoison
    v := (nbClearBody s q u w).2.v, vPoison := (nbClearBody s q u w).2.vPoison }) := by
  refine Prod.ext rfl ?_
  unfold nbClearBody
  dsimp only
  rw [NbUnit.setAcc_frame]
  split <;> rfl

/-- It zeroes the accumulators that it names (R107). -/
theorem nbClearBody_acc (hfit : w.acc + w.n ≤ 64) {i : Nat} (hi : i < 64) :
    (nbClearBody s q u w).2.acc i = if w.acc ≤ i ∧ i < w.acc + w.n then (0, false) else u.acc i := by
  have hset := NbUnit.acc_setAcc (u := u) (fun _ => (0, false)) hfit hi
  rw [List.map_const', List.length_range] at hset
  rw [← hset, nbClearBody]
  dsimp only
  split <;> rfl

/-- Where AUX bit 0 is set it zeroes the register file, which it leaves alone elsewhere (R107). -/
theorem nbClearBody_elem (i : Nat) : (nbClearBody s q u w).2.elem i = if w.aux % 2 = 1 then (0, false) else u.elem i := by
  unfold nbClearBody
  dsimp only
  rw [NbUnit.setAcc_frame]
  split
  · exact Prod.ext (Vector.getElem_replicate (Fin.ofNat 2048 i).isLt) (Vector.getElem_replicate (Fin.ofNat 8 (i / 256)).isLt)
  · rfl

/-- `NB_LOADV` changes its unit's registers alone. -/
theorem nbLoadvBody_frame (s : State) (k : BankId) (q : NbSeq) (u : NbUnit) (w : NbWord) : nbLoadvBody k s q u w =
    (s, { u with v := (nbLoadvBody k s q u w).2.v, vPoison := (nbLoadvBody k s q u w).2.vPoison }) := by
  refine Prod.ext rfl ?_
  unfold nbLoadvBody
  dsimp only
  rw [NbUnit.setV_frame]

/-- The elements that it loads are halves of words of consecutive scratch lines of the unit's own tile (R107). -/
theorem nbLoadvBody_elem (hfit : w.v0 + w.len ≤ 2048) {m : Nat} (hm : m < 2048) : ((nbLoadvBody k s q u w).2.elem m).1 =
    if w.v0 ≤ m ∧ m < w.v0 + w.len then
      ((s.line q.tile (w.aux % 2 ^ 20 + bankRank q.hdr.banks k.bank.val * (w.aux / 2 ^ 20 % 1024) + (m - w.v0) / 32)).words.get
        (Fin.ofNat 16 ((m - w.v0) % 32 / 2))).extractLsb' (16 * ((m - w.v0) % 2)) 16
    else (u.elem m).1 := by
  rw [← half_of_word]
  exact NbUnit.elem_setV _ hfit hm

end Loads

/-! ## `NB_GEMV`, `NB_DOT` and `NB_AXPY` (R110-R113) -/

section Sums

variable {s : State} {k : BankId} {q : NbSeq} {u : NbUnit} {w : NbWord} {op : Nat} {body : State → NbSeq → NbUnit → NbWord → State × NbUnit}

/-- A command's reads of memory without an error or poison change nothing (R124). -/
theorem State.readSpans_clean (hp : s.poisoned = []) : s.readSpans k q w [] = s := by
  have hspan (x : Nat × Nat × Nat) : s.readSpan k q x [] = s := List.foldl_fixed' (fun _ => State.readRange_clean hp) _
  exact List.foldl_fixed' hspan _

/-- A unit whose parity holds is as dead as it was (R126). -/
theorem NbUnit.parity_holds {u v : NbUnit} (h : v.dead = u.dead) : ({ v with dead := u.dead || false } : NbUnit) = v := by
  rw [Bool.or_false, ← h]

/-- A command whose body draws free values and writes accumulators changes nothing else of its unit or of the state (R113). -/
theorem State.nbRun_accumulates {draws i n : Nat} {f : Nat → W32 × Bool} (h : s.unitAt k q u w op)
    (hbody : body s q u w = ((s.drawN draws).2, u.setAcc i ((List.range n).map f))) (hn : i + n ≤ 64) :
    ∃ u' : NbUnit, s.nbRun k op body = { s with
        units := insertA s.units (bankKey k.site k.die.val k.bank.val) u', fresh := s.fresh + draws } ∧
      u'.pc = u.pc + 1 ∧ u'.v = u.v ∧ ∀ m, m < 64 → u'.acc m = if i ≤ m ∧ m < i + n then f (m - i) else u.acc m := by
  obtain ⟨-, -, -, -, -, -, -, hs, hd, -⟩ := id h
  have hframe := u.setAcc_frame i ((List.range n).map f)
  refine ⟨_, State.nbRun_unitAt h hbody ?spoilt hd ?pc, ?pc', ?v, fun m hm => NbUnit.acc_setAcc f hn hm⟩
  case spoilt => rw [hframe]; exact hs
  case pc => rw [hframe]
  case pc' => rw [hframe]
  case v => exact (congrArg NbUnit.v hframe :)

/-- Free values drawn do not change what a bank holds. -/
theorem State.bankCode_drawN (s : State) (n tile : Nat) (k : BankId) (f row i : Nat) :
    (s.drawN n).2.bankCode tile k f row i = s.bankCode tile k f row i := by
  have hsheet : (s.drawN n).2.sheet = s.sheet := rfl
  have hpoisoned : (s.drawN n).2.poisoned = s.poisoned := rfl
  have hdead (pl : SheetPlace) : (s.drawN n).2.bankDead pl = s.bankDead pl := rfl
  simp only [State.bankCode, hsheet, hpoisoned, hdead]

/-- What `NB_GEMV` leaves in accumulator `m`: its terms are added in orders that are left open (R110, R113). -/
def State.gemvSum (s : State) (k : BankId) (q : NbSeq) (u : NbUnit) (w : NbWord) (orders : List Nat) (m : Nat) : W32 × Bool :=
  let l := u.acc m :: s.gemvTerms k q u w (fun i => orders.getD (65 * m + i) 0) m
  (f32Sum (orders.getD (65 * m + 64) 0) (l.map (·.1)), l.any (·.2))

theorem State.gemvSum_drawN (s : State) (n : Nat) (orders : List Nat) :
    (s.drawN n).2.gemvSum k q u w orders = s.gemvSum k q u w orders := by
  funext m
  simp only [State.gemvSum, State.gemvTerms, State.gemvBlock, State.bankCode_drawN]

theorem nbGemvBody_clean (hp : s.poisoned = []) : nbGemvBody k [] false s q u w =
    ((s.drawN (64 * 65)).2, u.setAcc 0 ((List.range 64).map (s.gemvSum k q u w (s.drawN (64 * 65)).1))) := by
  rw [← s.gemvSum_drawN (64 * 65), ← NbUnit.parity_holds (u := u) (v := u.setAcc _ _) (by rw [NbUnit.setAcc_frame]), nbGemvBody,
    State.readSpans_clean hp]
  obtain ⟨orders, t⟩ := s.drawN (64 * 65)
  rfl

/-- A product that `NB_DOT` or `NB_AXPY` adds: element `e` of a position of the page with an element of the register file. -/
def State.pageTerm (s : State) (k : BankId) (q : NbSeq) (u : NbUnit) (w : NbWord) (pos e v : Nat) : W32 × Bool :=
  let c := s.pageElem q.tile k w.f w.row0 (w.t0 + pos) e
  let x := u.elem v
  (nbProduct w.f c.1 x.1, c.2 || x.2)

theorem State.pageTerm_drawN (s : State) (n pos e v : Nat) : (s.drawN n).2.pageTerm k q u w pos e v = s.pageTerm k q u w pos e v := by
  simp only [State.pageTerm, State.pageElem, State.bankCode_drawN]

/-- An accumulator with terms added in an order that a free value gives; an open value where they are not those of a page. -/
def addTerms (free : Nat) (beyond : Prop) [Decidable beyond] (old : W32 × Bool) (terms : List (W32 × Bool)) : W32 × Bool :=
  if beyond then (BitVec.ofNat 32 free, free / 2 ^ 32 % 2 == 1)
  else (f32Sum free (old.1 :: terms.map (·.1)), old.2 || terms.any (·.2))

/-- What `NB_DOT` leaves in the accumulator `i` behind its first: those of each position, query by query (R111, R113). -/
def State.dotSum (s : State) (k : BankId) (q : NbSeq) (u : NbUnit) (w : NbWord) (orders : List Nat) (i : Nat) : W32 × Bool :=
  addTerms (orders.getD i 0) (64 ≤ w.t0 + i / w.q) (u.acc (w.acc + i)) ((List.range (64 * w.nblk)).map fun e =>
    s.pageTerm k q u w (i / w.q) e (w.v0 + i % w.q * (64 * w.nblk) + e))

theorem nbDotBody_clean (hp : s.poisoned = []) : nbDotBody k [] false s q u w = ((s.drawN (w.len * w.q)).2,
    u.setAcc w.acc ((List.range (w.len * w.q)).map (s.dotSum k q u w (s.drawN (w.len * w.q)).1))) := by
  have hdrawn : s.dotSum k q u w = (s.drawN (w.len * w.q)).2.dotSum k q u w := by
    funext orders i
    simp only [State.dotSum, State.pageTerm_drawN]
  rw [hdrawn, ← NbUnit.parity_holds (v := u.setAcc _ _) rfl, nbDotBody, State.readSpans_clean hp]
  obtain ⟨orders, t⟩ := s.drawN (w.len * w.q)
  rfl

/-- What `NB_AXPY` leaves in accumulator `i` (R112, R113). -/
def State.axpySum (s : State) (k : BankId) (q : NbSeq) (u : NbUnit) (w : NbWord) (orders : List Nat) (i : Nat) : W32 × Bool :=
  addTerms (orders.getD i 0) (64 < w.t0 + w.len) (u.acc i) ((List.range w.len).map fun t =>
    s.pageTerm k q u w t (w.esub * (64 / w.q) + i % (64 / w.q)) (w.v0 + i / (64 / w.q) * 64 + t))

theorem nbAxpyBody_clean (hp : s.poisoned = []) : nbAxpyBody k [] false s q u w =
    ((s.drawN 64).2, u.setAcc 0 ((List.range 64).map (s.axpySum k q u w (s.drawN 64).1))) := by
  have hdrawn : s.axpySum k q u w = (s.drawN 64).2.axpySum k q u w := by
    funext orders i
    simp only [State.axpySum, State.pageTerm_drawN]
  rw [hdrawn, ← NbUnit.parity_holds (v := u.setAcc _ _) rfl, nbAxpyBody, State.readSpans_clean hp]
  obtain ⟨orders, t⟩ := s.drawN 64
  rfl

/-- Products of a page are added in some order (R113). -/
theorem addTerms_sum {free : Nat} {beyond : Prop} [Decidable beyond] (h : ¬beyond) (old : W32 × Bool) (l : List Nat) (pos e v : Nat → Nat) :
    (addTerms free beyond old (l.map fun i => s.pageTerm k q u w (pos i) (e i) (v i))).1 = f32Sum free (old.1 :: l.map fun i =>
      nbProduct w.f (s.pageElem q.tile k w.f w.row0 (w.t0 + pos i) (e i)).1 (u.elem (v i)).1) := by
  rw [addTerms, if_neg h, List.map_map]
  rfl

/-- The accumulators that a well-formed `NB_DOT` names are there (R111). -/
theorem NbWord.dot_fits (ho : w.op = 4) (hm : w.malformed = false) : w.acc + w.len * w.q ≤ 64 := by
  simp only [NbWord.malformed, ho, Bool.or_eq_false_iff, decide_eq_false_iff_not, Nat.not_lt] at hm
  exact hm.1.1.2

end Sums

/-- Settles O35: each row is its command's body on a unit that nothing keeps from it; a body that computes writes accumulators alone. -/
theorem nearBankComputes : Obligations.NearBankComputes := by
  unfold Obligations.NearBankComputes
  refine ⟨⟨fun s k q u w hat => ?clear, fun s k q u w hat => ?loadv⟩, fun s k q u w hp =>
    ⟨fun hat => ?gemv, fun hat => ?dot, fun hat hpage => ?axpy⟩⟩
  case clear =>
    obtain ⟨-, -, ho, hm, -, -, -, hs, hd, -⟩ := id hat
    exact ⟨_, _, congrArg Host.Outcome.next (State.nbRun_unitAt hat (nbClearBody_frame s q u w) hs hd rfl), rfl,
      lookupA_insertA_same _ _ _, rfl, fun i hi => nbClearBody_acc (NbWord.clear_fits ho hm) hi, fun i _ => nbClearBody_elem i⟩
  case loadv =>
    obtain ⟨-, -, ho, hm, -, -, -, hs, hd, -⟩ := id hat
    have hfit := NbWord.loadv_fits ho hm
    have helem {m : Nat} (hm : m < 2048) := nbLoadvBody_elem (s := s) (k := k) (q := q) (u := u) hfit hm
    refine ⟨_, _, congrArg Host.Outcome.next (State.nbRun_unitAt hat (nbLoadvBody_frame s k q u w) hs hd rfl), rfl,
      lookupA_insertA_same _ _ _, rfl, fun i _ => rfl, fun i hi hout => (helem hi).trans (if_neg hout), fun i hi => ?_⟩
    refine (helem (by omega)).trans ((if_pos (by omega)).trans ?_)
    rw [Nat.add_sub_cancel_left]
  case gemv =>
    obtain ⟨u', hrun, hpc, hv, hacc⟩ := State.nbRun_accumulates hat (nbGemvBody_clean hp) le_rfl
    refine ⟨_, u', congrArg Host.Outcome.next hrun, rfl, lookupA_insertA_same _ _ _, hpc, hv, fun m hm =>
      ⟨_, _, (hacc m hm).trans (if_pos ⟨Nat.zero_le m, by omega⟩)⟩⟩
  case dot =>
    obtain ⟨-, -, ho, hm, -⟩ := id hat
    have hfit := NbWord.dot_fits ho hm
    obtain ⟨u', hrun, hpc, hv, hacc⟩ := State.nbRun_accumulates hat (nbDotBody_clean hp) hfit
    refine ⟨_, u', congrArg Host.Outcome.next hrun, rfl, lookupA_insertA_same _ _ _, hpc, hv,
      fun i hi hout => (hacc i hi).trans (if_neg hout), fun i hi hpage => ⟨(s.drawN (w.len * w.q)).1.getD i 0, ?_⟩⟩
    rw [hacc _ (by omega), if_pos (by omega), Nat.add_sub_cancel_left]
    exact addTerms_sum (Nat.not_le.2 hpage) _ _ _ _ _
  case axpy =>
    obtain ⟨u', hrun, hpc, hv, hacc⟩ := State.nbRun_accumulates hat (nbAxpyBody_clean hp) le_rfl
    refine ⟨_, u', congrArg Host.Outcome.next hrun, rfl, lookupA_insertA_same _ _ _, hpc, hv, fun i hi =>
      ⟨(s.drawN 64).1.getD i 0, ?_⟩⟩
    rw [hacc i hi, if_pos ⟨Nat.zero_le i, by omega⟩]
    exact addTerms_sum (Nat.not_lt.2 hpage) _ _ _ _ _

end Sys2Proof.Machine

namespace Sys2Proof.Machine

/-! ## Messages of a sequence (R34, R35, R105, R125, R128) -/

/-- What the messages of a sequence change, wherever they come to: scratch lines, the count of dropped traffic, and what the events that
the fence raises change. -/
def State.Messages (s t : State) : Prop := State.Tells { s with scratch := t.scratch, routeDropped := t.routeDropped } t

section Messages

variable {s t u : State} {src : Site} {p : Option Part} {h : NbHeader} {w : NbWord}

theorem State.Messages.refl (s : State) : State.Messages s s := State.Tells.refl s

/-- Events leave scratch lines and the count of dropped traffic alone. -/
theorem State.Tells.messages (h : State.Tells s t) : State.Messages s t := by
  have hscratch : t.scratch = s.scratch := h.eq (·.scratch) fun _ _ _ _ _ => rfl
  have hdropped : t.routeDropped = s.routeDropped := h.eq (·.routeDropped) fun _ _ _ _ _ => rfl
  rw [State.Messages, hscratch, hdropped]
  exact h

theorem State.Messages.trans (h : State.Messages s t) (h' : State.Messages t u) : State.Messages s u := by
  have hover : State.Tells { s with scratch := u.scratch, routeDropped := u.routeDropped }
      { t with scratch := u.scratch, routeDropped := u.routeDropped } :=
    ⟨congrArg (fun x : State => { x with scratch := u.scratch, routeDropped := u.routeDropped }) h.rest, h.parts, h.owner, h.ports, h.out⟩
  exact State.Tells.trans hover h'

/-- What they leave of the state. -/
theorem State.Messages.eq (h : State.Messages s t) {α : Type} (f : State → α)
    (hf : ∀ (v : State) a b c d e g, f { v with parts := a, ports := b, ownerSub := c, out := d, scratch := e, routeDropped := g } = f v) :
    f t = f s :=
  (congrArg f h.rest).trans (hf s t.parts t.ports t.ownerSub t.out t.scratch t.routeDropped)

/-- What they leave of a partition. -/
theorem State.Messages.part_ctr (h : State.Messages s t) (i : Part) : (t.part i).ctr = (s.part i).ctr :=
  (State.Tells.calm h).part_eq Partition.ctr (fun _ _ _ _ => rfl) i

theorem State.Messages.foldl {α : Type} (f : State → α → State) (hf : ∀ s x, State.Messages s (f s x)) (l : List α) (s : State) :
    State.Messages s (l.foldl f s) := by
  induction l generalizing s with
  | nil => exact .refl s
  | cons x l ih => exact (hf s x).trans (ih _)

/-- A message delivered changes a scratch line alone, and one that a router drops the count of dropped traffic (R35, R96). -/
theorem State.messages_of_eq (ht : t = { s with scratch := t.scratch, routeDropped := t.routeDropped }) : State.Messages s t := by
  rw [State.Messages, ← ht]
  exact .refl t

/-- DONE told, a message dropped included (R34, R35, R105). -/
theorem State.tellDone_messages (s : State) (src : Site) (p : Option Part) (h : NbHeader) (n : Nat) :
    State.Messages s (s.tellDone src p h n) := by
  unfold State.tellDone State.fencedBump
  split
  · exact State.messages_of_eq rfl
  · split
    · split
      · exact State.messages_of_eq rfl
      · exact (State.fenceViolation_tells (.refl s) _ _ _).messages
    · exact State.messages_of_eq rfl

/-- Poison delivered for an `NB_READACC` (R125, R128). -/
theorem State.poisonAcc_messages (s : State) (src : Site) (p : Option Part) (w : NbWord) (rank : Nat) :
    State.Messages s (s.poisonAcc src p w rank) := by
  refine State.Messages.foldl _ (fun s m => ?_) _ s
  split
  · exact State.messages_of_eq rfl
  · split
    · exact State.messages_of_eq rfl
    · exact .refl s

/-- All that a sequence which the fence drops sends (R128). -/
theorem State.dropSeq_messages (s : State) (src : Site) (p : Option Part) (h : NbHeader) (words : List NbWord) :
    State.Messages s (s.dropSeq src p h words) :=
  (State.Messages.foldl _ (fun s _ => State.Messages.foldl _ (fun s w => s.poisonAcc_messages src p w _) _ s) _ s).trans
    (State.tellDone_messages _ _ _ _ _)

end Messages

/-! ## Submission (R105, R106, R120, R128) -/

section Submit

variable {s : State} {issuer tile count dst : Nat} {hdr : BitVec 128} {words : List (BitVec 128)} {src : Site} {h : NbHeader} {p : Part}

/-- A field of a header, from the number. -/
theorem toNat_field {n : Nat} (b : BitVec n) (lo len : Nat) : (b.extractLsb' lo len).toNat = b.toNat / 2 ^ lo % 2 ^ len := by
  rw [BitVec.extractLsb'_toNat, Nat.shiftRight_eq_div_pow]

/-- The fields of a header (R105). -/
theorem NbHeader.ofBits_fields (hdr : BitVec 128) :
    (NbHeader.ofBits hdr).1.banks = hdr.extractLsb' 0 64 ∧ (NbHeader.ofBits hdr).1.die.val = (hdr.extractLsb' 64 4).toNat ∧
    (NbHeader.ofBits hdr).1.cls.val = (hdr.extractLsb' 68 2).toNat ∧ (NbHeader.ofBits hdr).2 = (hdr.extractLsb' 72 8).toNat ∧
    (NbHeader.ofBits hdr).1.doneLine = (hdr.extractLsb' 96 20).toNat ∧
    (NbHeader.ofBits hdr).1.doneWord.val = (hdr.extractLsb' 116 4).toNat ∧
    (NbHeader.ofBits hdr).1.doneTile = (hdr.extractLsb' 120 6).toNat := by
  simp only [toNat_field]
  exact ⟨rfl, rfl, rfl, rfl, rfl, rfl, rfl⟩

/-- The words that follow a header are as many as COUNT, or all there are. -/
theorem length_words_lt : ((words.take count).map NbWord.ofBits).length < count ↔ words.length < count := by
  rw [List.length_map, List.length_take]
  omega

/-- A header that no sequence of 1 to 31 words follows makes none (R105). -/
theorem exec_nbSequenceSubmit_none (hi : issuer < 64) (hs : s.siteOf issuer = some src) (hh : NbHeader.ofBits hdr = (h, count))
    (hc : count = 0 ∨ 31 < count ∨ words.length < count) : exec (.nbSequenceSubmit ⟨issuer, tile⟩ hdr words) s = .next s := by
  refine congrArg Host.Outcome.next ?_
  simp only [hh, if_pos hi, hs, length_words_lt, if_pos hc]

/-- A sequence within its partition's fence is queued behind those there are, at the tile to which it comes (R104, R105). -/
theorem exec_nbSequenceSubmit_queued (hi : issuer < 64) (hs : s.siteOf issuer = some src) (hh : NbHeader.ofBits hdr = (h, count))
    (hc : ¬(count = 0 ∨ 31 < count ∨ words.length < count)) (hd : s.comesTo src tile = some dst) (hp : s.sitePart src.val = some p)
    (hf : s.seqBreach p dst h ((words.take count).map NbWord.ofBits) = none) :
    exec (.nbSequenceSubmit ⟨issuer, tile⟩ hdr words) s = .next { s with
      seqs := s.seqs ++ [{ id := s.nextSeq, part := some p, tile := dst, hdr := h, words := (words.take count).map NbWord.ofBits
                           cls := h.cls.val, aged := s.uptime, left := h.banks }]
      nextSeq := s.nextSeq + 1 } := by
  refine congrArg Host.Outcome.next ?_
  simp only [hh, if_pos hi, hs, length_words_lt, if_neg hc, hd, hp, hf]

/-- One that breaches the fence is dropped, and the breach told (R128). -/
theorem exec_nbSequenceSubmit_breach {g kind : Nat} (hi : issuer < 64) (hs : s.siteOf issuer = some src)
    (hh : NbHeader.ofBits hdr = (h, count)) (hc : ¬(count = 0 ∨ 31 < count ∨ words.length < count)) (hd : s.comesTo src tile = some dst)
    (hp : s.sitePart src.val = some p) (hf : s.seqBreach p dst h ((words.take count).map NbWord.ofBits) = some (g, kind)) :
    exec (.nbSequenceSubmit ⟨issuer, tile⟩ hdr words) s =
      .next ((s.dropSeq src (some p) h ((words.take count).map NbWord.ofBits)).fenceViolation p g kind) := by
  refine congrArg Host.Outcome.next ?_
  simp only [hh, if_pos hi, hs, length_words_lt, if_neg hc, hd, hp, hf]

end Submit

/-! ## The end of a sequence (R105, R109) -/

section Ends

variable {s : State} {k : BankId} {q : NbSeq} {u : NbUnit} {w : NbWord} {p : Part}

/-- A bank taken out of a mask is not in it. -/
theorem getLsbD_maskPut_false {n : Nat} (m : BitVec n) (i : Nat) : (maskPut m i false).getLsbD i = false := by
  rw [maskPut, if_neg Bool.false_ne_true, BitVec.getLsbD_and, BitVec.getLsbD_not, BitVec.getLsbD_shiftLeft, Nat.sub_self]
  by_cases hi : i < n
  · simp [hi, Nat.zero_lt_of_lt hi]
  · simp [hi]

/-- The sequences when a bank has left one of them. -/
def NbSeq.leftBy (q : NbSeq) (b : Nat) (l : List NbSeq) : List NbSeq :=
  if maskPut q.left b false = 0 then l.filter fun x => x.id ≠ q.id
  else l.map fun x => if x.id = q.id then { x with left := maskPut q.left b false } else x

theorem NbSeq.left_leftBy {x : NbSeq} {b : Nat} {l : List NbSeq} (hx : x ∈ q.leftBy b l) (hid : x.id = q.id) :
    x.left.getLsbD b = false := by
  unfold NbSeq.leftBy at hx
  split at hx
  · exact absurd hid (of_decide_eq_true (List.mem_filter.1 hx).2)
  · obtain ⟨y, -, rfl⟩ := List.mem_map.1 hx
    by_cases hy : y.id = q.id
    · rw [if_pos hy]
      exact getLsbD_maskPut_false _ _
    · rw [if_neg hy] at hid
      exact absurd hid hy

/-- The last command of a bank's sequence: the bank leaves it, DONE is told, and the sequence is counted (R105). -/
theorem State.unitNext_ends (h : u.pc + 1 = q.words.length) (hp : q.part = some p) (hd : u.dead = false) : s.unitNext k q u =
    (({ s with units := eraseA s.units (bankKey k.site k.die.val k.bank.val), seqs := q.leftBy k.bank.val s.seqs } : State).tellDone
      k.site (some p) q.hdr 1).count p fun c => { c with nbSeq := satAdd c.nbSeq 1 } := by
  have hlast : ¬u.pc + 1 < q.words.length := by omega
  simp only [State.unitNext, if_neg hlast, hp, hd, if_neg Bool.false_ne_true]
  rfl

/-- What that leaves: no unit, no sequence in which the bank still is, and the sequence counted. -/
theorem State.unitNext_ended (h : u.pc + 1 = q.words.length) (hp : q.part = some p) (hd : u.dead = false) :
    lookupA (s.unitNext k q u).units (bankKey k.site k.die.val k.bank.val) = none ∧ (s.unitNext k q u).sheet = s.sheet ∧
    (∀ x ∈ (s.unitNext k q u).seqs, x.id = q.id → x.left.getLsbD k.bank.val = false) ∧
    ((s.unitNext k q u).part p).ctr.nbSeq = satAdd (s.part p).ctr.nbSeq 1 := by
  rw [State.unitNext_ends h hp hd]
  have htold := State.tellDone_messages ({ s with
    units := eraseA s.units (bankKey k.site k.die.val k.bank.val), seqs := q.leftBy k.bank.val s.seqs } : State) k.site (some p) q.hdr 1
  have hunits := htold.eq (·.units) fun _ _ _ _ _ _ _ => rfl
  have hsheet := htold.eq (·.sheet) fun _ _ _ _ _ _ _ => rfl
  have hseqs := htold.eq (·.seqs) fun _ _ _ _ _ _ _ => rfl
  have hctr := htold.part_ctr p
  refine ⟨(congrArg (lookupA · _) hunits).trans (lookupA_eraseA_same _ _), hsheet, fun x hx hid => ?_, ?_⟩
  · exact NbSeq.left_leftBy (hseqs ▸ hx) hid
  · rw [State.count, State.part_modPart]
    exact congrArg (fun c : PrtCounters => satAdd c.nbSeq 1) hctr

/-- A malformed command is counted, and its unit goes on to the next wholly poisoned (R109). -/
theorem exec_nbMalformed (hu : s.unitOf k = some (q, u)) (hw : q.words[u.pc]? = some w) (hm : w.malformed = true) (hp : q.part = some p) :
    exec (.nbMalformed k) s = .next ((s.count p fun c => { c with nbBadcmd := satAdd c.nbBadcmd 1 }).unitNext k q
      { u.poisoned with malformed := true }) := by
  refine congrArg Host.Outcome.next ?_
  simp only [hu, hw, hm, if_true, hp]

/-- `NB_CLEAR` runs on the state as it is, and its unit moves on: poisoned where it is spoilt or its bank dead (R107, R126, R129). -/
theorem exec_nbClear_runs (hu : s.unitOf k = some (q, u)) (hw : q.words[u.pc]? = some w) (ho : w.op = 1) (hm : w.malformed = false) :
    ∃ u' : NbUnit, exec (.nbClear k) s = .next (s.unitNext k q u') ∧ u'.pc = u.pc ∧ u'.dead = u.dead := by
  have hrow : ¬w.opensRow = true := by rw [NbWord.opensRow, ho]; decide
  have hrun := State.nbRun_some hu hw ho hm ((congrArg (nbClearBody · q u w) (if_neg hrow)).trans (nbClearBody_frame s q u w))
  refine ⟨_, congrArg Host.Outcome.next hrun, ?_, ?_⟩ <;> split <;> rfl

end Ends

/-- Settles O34: a submission is one of three by its COUNT and its fence; a malformed command only poisons its unit and counts; the end of
a sequence is `unitNext` behind the last word. -/
theorem sequencesBeginAndEnd : Obligations.SequencesBeginAndEnd := by
  unfold Obligations.SequencesBeginAndEnd
  refine ⟨fun s issuer tile hdr words src hi hs => ?submit, fun s k q u w p hu hw hm hnext hp => ?malformed,
    fun s k q u w p hu hw ho hm hlast hp hd => ?ended⟩
  case submit =>
    obtain ⟨hbanks, hdie, hcls, hcount, hline, hword, htile⟩ := NbHeader.ofBits_fields hdr
    have hh : NbHeader.ofBits hdr = ((NbHeader.ofBits hdr).1, (hdr.extractLsb' 72 8).toNat) := Prod.ext rfl hcount
    refine ⟨hbanks, hdie, hcls, hline, hword, htile, exec_nbSequenceSubmit_none hi hs hh, fun dst p hpos hmax hlen hd hp =>
      ⟨exec_nbSequenceSubmit_queued hi hs hh (by omega) hd hp, fun g kind hf => ?_⟩⟩
    have hsent := State.dropSeq_messages s src (some p) (NbHeader.ofBits hdr).1
      ((words.take (hdr.extractLsb' 72 8).toNat).map NbWord.ofBits)
    have htold := hsent.trans (State.fenceViolation_tells (.refl _) p g kind).messages
    exact ⟨_, _, exec_nbSequenceSubmit_breach hi hs hh (by omega) hd hp hf, rfl, htold.eq (·.seqs) fun _ _ _ _ _ _ _ => rfl,
      htold.eq (·.sheet) fun _ _ _ _ _ _ _ => rfl, htold.eq (·.units) fun _ _ _ _ _ _ _ => rfl⟩
  case malformed =>
    refine ⟨_, _, (exec_nbMalformed hu hw hm hp).trans (congrArg _ (State.unitNext_follows hnext)),
      lookupA_insertA_same _ _ _, rfl, fun i _ => u.acc_poisoned i, fun i _ => u.elem_poisoned i, rfl, rfl, rfl, ?_⟩
    exact congrArg (fun x : Partition => x.ctr.nbBadcmd) (s.part_modPart p _)
  case ended =>
    obtain ⟨u', hrun, hpc, hdead⟩ := exec_nbClear_runs hu hw ho hm
    exact ⟨_, hrun, State.unitNext_ended (hpc ▸ hlast) hp (hdead.trans hd)⟩

end Sys2Proof.Machine

namespace Sys2Proof.Machine

/-! ## Waits for staging (R297) -/

section Staging

variable {s : State} {p : Part} {st : Step}

/-- A wait for staging that begins or ends changes the two fields of the step that tell of it, and the counter of such waits. -/
theorem State.noteStall_running (hst : (s.part p).step = some st) :
    s.noteStall p = s ∨ ∃ since ns regs, s.noteStall p = s.modPart p fun q =>
      { q with step := some { st with stallSince := since, stallNs := ns }, stepRegs := regs } := by
  rw [State.noteStall, hst]
  dsimp only
  split
  · refine .inr ⟨some s.uptime, st.stallNs, (s.part p).stepRegs, State.modPart_congr ?_⟩
    rw [hst]
    rfl
  · next t _ _ =>
    refine .inr ⟨none, st.stallNs + (s.uptime - t), { (s.part p).stepRegs with
      wstallNs := (s.part p).stepRegs.wstallNs + (s.uptime - t) }, ?_⟩
    rw [State.modStep, State.modPart_modPart]
    refine State.modPart_congr ?_
    rw [hst]
    rfl
  · exact .inl rfl

theorem State.noteStreams_out (s : State) (p : Part) : (s.noteStreams p).out = s.out := by
  refine State.foldl_unchanged State.out _ (fun s m => State.foldl_unchanged State.out _ (fun s g => ?_) _ _) _ _
  split
  · split <;> rfl
  · rfl

/-- Of the partition whose step is looked at, its waits for staging alone change. -/
theorem State.noteStaging_part (hst : (s.part p).step = some st) : ∃ st' regs,
    (s.noteStaging p).part p = { s.part p with step := some st', stepRegs := regs } ∧
    st' = { st with stallSince := st'.stallSince, stallNs := st'.stallNs } := by
  have hpart : (s.noteStaging p).part p = (s.noteStall p).part p := congrArg (·.get p) (State.noteStreams_parts _ p)
  rw [hpart]
  rcases State.noteStall_running hst with h | ⟨since, ns, regs, h⟩
  · exact ⟨st, (s.part p).stepRegs, by rw [h, ← hst], rfl⟩
  · exact ⟨_, regs, by rw [h, State.part_modPart], rfl⟩

/-- Nothing else of the block changes with them. -/
theorem State.noteStaging_frame (hst : (s.part p).step = some st) : (s.noteStaging p).sheet = s.sheet ∧
    (s.noteStaging p).out = s.out ∧ ∀ j, j ≠ p → (s.noteStaging p).part j = s.part j := by
  have hparts (j : Part) : (s.noteStaging p).part j = (s.noteStall p).part j := congrArg (·.get j) (State.noteStreams_parts _ p)
  rcases State.noteStall_running hst with h | ⟨_, _, _, h⟩ <;> rw [h] at hparts
  · exact ⟨(State.noteStreams_sheet _ p).trans (by rw [h]), (State.noteStreams_out _ p).trans (by rw [h]), fun j _ => hparts j⟩
  · exact ⟨(State.noteStreams_sheet _ p).trans (by rw [h]; rfl), (State.noteStreams_out _ p).trans (by rw [h]; rfl), fun j hj =>
      (hparts j).trans (State.part_modPart_other _ _ _ _ hj)⟩

end Staging

/-! ## Tokens of a run put back among those of the step (R170) -/

section Merge

variable (own : Tok → Bool)

/-- The tokens of a step with one more: the next of a run's new tokens where it is the run's own. -/
def mergeTok (acc : List Tok × List Tok) (t : Tok) : List Tok × List Tok :=
  if own t then (acc.1 ++ [acc.2.headD t], acc.2.tail) else (acc.1 ++ [t], acc.2)

theorem foldl_mergeTok_filter {l new : List Tok} (acc : List Tok) (hlen : new.length = (l.filter own).length) (hown : ∀ t ∈ new, own t = true) :
    (l.foldl (mergeTok own) (acc, new)).1.filter own = acc.filter own ++ new ∧
    (l.foldl (mergeTok own) (acc, new)).1.filter (fun t => !own t) = acc.filter (fun t => !own t) ++ l.filter fun t => !own t := by
  induction l generalizing acc new with
  | nil =>
    obtain rfl := List.length_eq_zero_iff.1 hlen
    simp
  | cons t l ih =>
    rw [List.foldl_cons]
    by_cases ht : own t = true
    · rw [List.filter_cons_of_pos ht] at hlen
      cases new with
      | nil => exact absurd hlen (by simp)
      | cons b new =>
        have hb := hown b (List.mem_cons_self ..)
        obtain ⟨hin, hout⟩ := ih (acc ++ [b]) (Nat.succ.inj hlen) fun x hx => hown x (List.mem_cons_of_mem _ hx)
        have hstep : mergeTok own (acc, b :: new) t = (acc ++ [b], new) := if_pos ht
        rw [hstep, hin, hout]
        simp [hb, ht]
    · rw [List.filter_cons_of_neg ht] at hlen
      obtain ⟨hin, hout⟩ := ih (acc ++ [t]) hlen hown
      have hstep : mergeTok own (acc, new) t = (acc ++ [t], new) := if_neg ht
      rw [hstep, hin, hout]
      simp [ht]

end Merge

/-! ## An operator over the tokens of a run (R168, R170) -/

section Operate

variable {s u : State} {p : Part} {handle op i : Nat} {st : Step} {m : Model} {run : ModelRun} {d : DescRec}
  {body : OpCtx → State → List Tok → State × List Tok} {g : Nat → Tok → Tok} {f : Nat → Tok → Tok → Prop}

/-- What an operator of a run works on. -/
def State.opCtx (s : State) (p : Part) (st : Step) (m : Model) (run : ModelRun) (d : DescRec) : OpCtx :=
  { p := p, m := m, run := run, d := d, all := st.toks, base := s.fresh }

/-- The state in which an operator runs: the free values that it may draw are taken. -/
def State.drawn (s : State) : State := { s with fresh := s.fresh + opDraw }

/-- An operator whose model has no run at its opcode changes nothing. -/
theorem State.operate_idle (h : ∀ st m, (s.part p).step = some st → (s.part p).model handle = some m → (s.part p).runFor st m op = none) :
    s.operate p handle op body = s := by
  unfold State.operate
  split
  · next st m hst hm => rw [h st m hst hm]
  · rfl

/-- Each operator but `SEASON` and `SCATTER` runs over the tokens of its pass (R205). -/
theorem ModelRun.hasFor_pass (run : ModelRun) (hop : op < 14) : run.hasFor op = run.has := by
  funext t
  unfold ModelRun.hasFor
  split
  · exact if_pos hop
  · rfl

/-- The partition after an operator: the run's new tokens among those of the step, and the run at what follows. -/
def Partition.operated (q : Partition) (st : Step) (m : Model) (i : Nat) (run : ModelRun) (new : List Tok) : Partition :=
  { q with step := some { st with toks := (st.toks.foldl (mergeTok run.has) ([], new)).1
                                  runs := st.runs.set i (q.advance st m.pkg run) } }

theorem State.operate_running {new : List Tok} (h : s.opAt p handle op st m i run d) (hop : op < 14)
    (hbody : body (s.opCtx p st m run d) s.drawn (st.toks.filter run.has) = (u, new)) (hu : u.parts = s.parts) :
    s.operate p handle op body = (u.modPart p fun q => q.operated st m i run new).noteStaging p := by
  obtain ⟨hst, hm, hrun⟩ := h
  have hustep : (u.part p).step = some st := (congrArg (fun l => (l.get p).step) hu).trans hst
  unfold State.operate
  simp only [hst, hm, hrun, run.hasFor_pass hop]
  unfold State.opCtx State.drawn at hbody
  simp only [hbody]
  refine congrArg (State.noteStaging · p) (State.modPart_congr ?_)
  rw [hustep]
  rfl

/-- What an operator does that changes each token of its run by itself, and of the block nothing but sheet memory and what no partition
holds. -/
theorem State.operate_done (h : s.opAt p handle op st m i run d) (hop : op < 14)
    (hbody : body (s.opCtx p st m run d) s.drawn (st.toks.filter run.has) = (u, (st.toks.filter run.has).mapIdx g))
    (hu : u.parts = s.parts) (ho : u.out = s.out) (hg : ∀ k a, run.has (g k a) = run.has a)
    (hf : ∀ k a, a ∈ st.toks → run.has a = true → f k a (g k a)) :
    (s.operate p handle op body).sheet = u.sheet ∧ State.OpDone s (s.operate p handle op body) p st m i run
      (fun x => x.verdicts = st.verdicts ∧ x.pageWrites = st.pageWrites) f := by
  have hpart : u.part = s.part := funext fun j => congrArg (·.get j) hu
  have hown : ∀ b ∈ (st.toks.filter run.has).mapIdx g, run.has b = true := fun b hb => by
    obtain ⟨k, hk, rfl⟩ := List.mem_mapIdx.1 hb
    rw [hg]
    exact (List.mem_filter.1 (List.getElem_mem hk)).2
  obtain ⟨hin, hout⟩ := foldl_mergeTok_filter run.has [] List.length_mapIdx hown
  rw [State.operate_running h hop hbody hu]
  have hstep : ((u.modPart p fun q => q.operated st m i run ((st.toks.filter run.has).mapIdx g)).part p) =
      (s.part p).operated st m i run ((st.toks.filter run.has).mapIdx g) := by rw [State.part_modPart, hpart]
  obtain ⟨st', regs, hafter, hst'⟩ := State.noteStaging_part (congrArg Partition.step hstep)
  obtain ⟨hsheet, hmsgs, hothers⟩ := State.noteStaging_frame (congrArg Partition.step hstep)
  rw [hstep] at hafter
  refine ⟨hsheet, st', by rw [hafter], ?kept, by rw [hst'], by rw [hst'], ?rest, ?length, ?tokens, hmsgs.trans ho,
    by rw [hafter]; rfl, by rw [hafter]; rfl, fun j hj => ?others⟩
  case kept => rw [hst']; exact ⟨rfl, rfl⟩
  case rest => rw [hst']; exact hout
  case length => rw [hst']; exact (congrArg List.length hin).trans List.length_mapIdx
  case tokens =>
    intro k a b ha hb
    rw [hst', hin, List.filter_nil, List.nil_append, List.getElem?_mapIdx, ha] at hb
    obtain ⟨hmem, hhas⟩ := List.mem_filter.1 (List.mem_of_getElem? ha)
    exact Option.some.inj hb ▸ hf k a hmem hhas
  case others => rw [hothers j hj, State.part_modPart_other _ _ _ _ hj, hpart]

end Operate

end Sys2Proof.Machine

namespace Sys2Proof.Machine

/-! ## One token written (R170) -/

section Tokens

@[simp] theorem State.opCtx_m (s : State) (p : Part) (st : Step) (m : Model) (run : ModelRun) (d : DescRec) :
    (s.opCtx p st m run d).m = m := rfl

@[simp] theorem State.opCtx_d (s : State) (p : Part) (st : Step) (m : Model) (run : ModelRun) (d : DescRec) :
    (s.opCtx p st m run d).d = d := rfl

variable {x : OpCtx} {a : Tok} {slot : Nat}

/-- A write of a slot, behind what poison of the weights makes of the token. -/
theorem Tok.puts_put_taint (x : OpCtx) (a : Tok) (bad : Bool) (cause slot : Nat) (v : List W16) :
    Tok.puts a ((x.taint bad cause a).put slot v) slot v bad := by
  have htaint : x.taint bad cause a = { a with poison := (x.taint bad cause a).poison } := by
    unfold OpCtx.taint
    split <;> rfl
  have hclean (h : bad = false) : (x.taint bad cause a).poison = a.poison := by rw [h]; rfl
  rw [htaint]
  exact ⟨rfl, lookupA_insertA_same _ _ _, lookupA_eraseA_same _ _, fun _ hj =>
    ⟨lookupA_insertA_other _ _ hj, lookupA_eraseA_other _ hj⟩, hclean⟩

theorem Tok.puts_put (a : Tok) (slot : Nat) (v : List W16) : Tok.puts a (a.put slot v) slot v false :=
  ⟨rfl, lookupA_insertA_same _ _ _, lookupA_eraseA_same _ _, fun _ hj =>
    ⟨lookupA_insertA_other _ _ hj, lookupA_eraseA_other _ hj⟩, fun _ => rfl⟩

theorem ModelRun.has_put_taint (run : ModelRun) (x : OpCtx) (a : Tok) (bad : Bool) (cause slot : Nat) (v : List W16) :
    run.has ((x.taint bad cause a).put slot v) = run.has a := by
  unfold OpCtx.taint
  split <;> rfl

/-- A slot that something in the step has written reads as it was written. -/
theorem OpCtx.get_written (x : OpCtx) (k : Nat) {v : List W16} (h : lookupA a.slots slot = some v) : x.get k a slot = v := by
  rw [OpCtx.get, h]

end Tokens

/-! ## Operators without reads (R175, R179, R181, R182) -/

section MapToks

variable {s : State} {p : Part} {handle op i : Nat} {st : Step} {m : Model} {run : ModelRun} {d : DescRec}
  {g : OpCtx → Nat → Tok → Tok} {f : Nat → Tok → Tok → Prop}

/-- An operator without reads leaves memory as it is, and does what it does to each token of its run. -/
theorem State.mapToks_done (h : s.opAt p handle op st m i run d) (hop : op < 14)
    (hg : ∀ k a, run.has (g (s.opCtx p st m run d) k a) = run.has a)
    (hf : ∀ k a, f k a (g (s.opCtx p st m run d) k a)) :
    (s.mapToks p handle op g).sheet = s.sheet ∧ State.OpDone s (s.mapToks p handle op g) p st m i run
      (fun x => x.verdicts = st.verdicts ∧ x.pageWrites = st.pageWrites) f :=
  State.operate_done (u := s.drawn) h hop rfl rfl rfl hg fun k a _ _ => hf k a

end MapToks

/-- Settles O51: `ADD` is one write of each token of its run. -/
theorem addRoundsTheSumOnce : Obligations.AddRoundsTheSumOnce := by
  intro s p handle st m i run d h
  refine ⟨_, rfl, State.mapToks_done h (by decide) (fun _ _ => rfl) fun k a u w hu hw => ?_⟩
  simp only [State.opCtx_d, OpCtx.get_written _ k hu, OpCtx.get_written _ k hw]
  exact Tok.puts_put a d.out _

/-- A vector with as many others beside it: by position is pair by pair. -/
theorem mapIdx_getD_eq_zipWith {α β γ : Type} (f : α → β → γ) (e : β) {u : List α} {w : List β} (h : w.length = u.length) :
    (u.mapIdx fun j a => f a (w.getD j e)) = List.zipWith f u w := by
  refine List.ext_getElem (by simp [h]) fun j hj _ => ?_
  have hjw : j < w.length := by simpa [h] using hj
  simp [List.getElem?_eq_getElem hjw]

theorem mapIdx_eq_map {α β : Type} (f : α → β) (l : List α) : (l.mapIdx fun _ a => f a) = l.map f :=
  List.ext_getElem? fun i => by simp

/-- Each operator is `State.operate` at its opcode (R168). -/
theorem exec_operator {p : Part} {handle : Nat} {errs : Errs} {s : State} {c : Instr × Nat}
    (hc : c ∈ [(Instr.embed p handle errs, 1), (.rmsNorm p handle errs, 2), (.layerNorm p handle errs, 3), (.linear p handle errs, 4),
        (.rope p handle, 5), (.kvAppend p handle, 6), (.attend p handle errs, 7), (.act p handle, 8), (.route p handle errs, 9),
        (.combine p handle, 10), (.add p handle, 11), (.logits p handle errs, 12), (.sample p handle, 13), (.season p handle, 14),
        (.scatter p handle errs, 15)]) : ∃ body, exec c.1 s = .next (s.operate p handle c.2 body) := by
  simp only [List.mem_cons, List.not_mem_nil, or_false] at hc
  rcases hc with rfl | rfl | rfl | rfl | rfl | rfl | rfl | rfl | rfl | rfl | rfl | rfl | rfl | rfl | rfl <;> exact ⟨_, rfl⟩

/-! ## Blocks stored, and what is stored nowhere -/

/-- Sheet memory, its poison and its lines alone may differ, and the addresses kept read as before. -/
def State.OnlyStored (s t : State) (kept : Nat → Prop) : Prop :=
  t = { s with sheet := t.sheet, poisoned := t.poisoned, sheetLines := t.sheetLines } ∧ ∀ a, kept a → t.sheet.read a = s.sheet.read a

section Stored

variable {s t u : State} {kept : Nat → Prop} {p : Part}

theorem State.OnlyStored.refl (s : State) (kept : Nat → Prop) : State.OnlyStored s s kept := ⟨rfl, fun _ _ => rfl⟩

theorem State.OnlyStored.trans (h : State.OnlyStored s t kept) (k : State.OnlyStored t u kept) : State.OnlyStored s u kept :=
  ⟨by rw [k.1, h.1], fun a ha => (k.2 a ha).trans (h.2 a ha)⟩

/-- Whole blocks store nothing before the first and behind the last of them. -/
theorem State.putBlocks_read_outside (s : State) (b : Nat) (l : List (List Byte × Bool)) {a : Nat}
    (ha : a < b * 64 ∨ (b + l.length) * 64 ≤ a) : (s.putBlocks b l).sheet.read a = s.sheet.read a := by
  induction l generalizing s b with
  | nil => rfl
  | cons x l ih =>
    rw [List.length_cons] at ha
    rw [State.putBlocks, ih _ _ (by omega), State.putBlock]
    split
    · rfl
    · split
      · exact (Memory.read_zeroN ..).trans (if_neg (by omega))
      · have := List.length_take_le 64 x.1
        exact Memory.read_writeN_outside _ _ _ _ (by omega)

theorem length_cutBlocks (bytes : List Byte) (n : Nat) : (cutBlocks bytes n).length = n := by
  induction n generalizing bytes with
  | zero => rfl
  | succ n ih => rw [cutBlocks, List.length_cons, ih]

/-- Blocks stored within the fence (R34). -/
theorem State.fencedPut_stores {addr : Nat} {l : List (List Byte × Bool)} (hw : s.writable p (addr / segBytes) = true)
    (hk : ∀ a, kept a → a < addr / 64 * 64 ∨ (addr / 64 + l.length) * 64 ≤ a) : State.OnlyStored s (s.fencedPut p addr l) kept := by
  rw [State.fencedPut, if_pos hw]
  exact ⟨State.putBlocks_frame _ _ _, fun a ha => State.putBlocks_read_outside _ _ _ (hk a ha)⟩

theorem State.OnlyStored.frame (h : State.OnlyStored s t kept) {α : Type} (f : State → α)
    (hf : ∀ (s : State) a b c, f { s with sheet := a, poisoned := b, sheetLines := c } = f s) : f t = f s := by
  rw [h.1, hf]

end Stored

/-! ## `KV_APPEND` (R176, R223) -/

section KvAppend

variable {s : State} {x : OpCtx} {sh : ShardRec} {picks : List Pick} {kept : Nat → Prop}

/-- A token that holds its new entry for a shard. -/
def OpCtx.append (x : OpCtx) (sh : ShardRec) (k : Nat) (a : Tok) : Tok :=
  { a with held := a.held ++ [HeldEntry.mk x.d.obj0 ((x.get k a x.d.in0).take sh.dim0)
      (if sh.dim1 = 0 then [] else (x.get k a x.d.in1).take sh.dim1)] }

/-- The entry that a token holds last, put at the token's place in a scratch buffer, where it has one (R223). -/
def State.putScratch (x : OpCtx) (sh : ShardRec) (picks : List Pick) (s : State) (a : Tok) : State :=
  match (s.part x.p).scratchPlace picks a x.d.obj0, a.held.getLast? with
  | some addr, some h => s.fencedPut x.p addr (cutBlocks (entryBytes sh h.t0 h.t1) (sh.padded / 32))
  | _, _ => s

theorem kvAppendBody_eq {st : Step} (hst : (s.part x.p).step = some st) (hsh : x.m.pkg.shards[x.d.obj0]? = some sh) (toks : List Tok) :
    kvAppendBody x s toks = ((toks.mapIdx (x.append sh)).foldl (State.putScratch x sh st.picks) s, toks.mapIdx (x.append sh)) := by
  rw [kvAppendBody, hsh]
  simp only [hst]
  rfl

theorem State.putScratch_none {a : Tok} (h : (s.part x.p).scratchPlace picks a x.d.obj0 = none) : s.putScratch x sh picks a = s := by
  rw [State.putScratch, h]

theorem State.foldl_putScratch_none {l : List Tok} (h : ∀ a ∈ l, (s.part x.p).scratchPlace picks a x.d.obj0 = none) :
    l.foldl (State.putScratch x sh picks) s = s := by
  induction l with
  | nil => rfl
  | cons a l ih =>
    rw [List.foldl_cons, State.putScratch_none (h a (List.mem_cons_self ..))]
    exact ih fun b hb => h b (List.mem_cons_of_mem _ hb)

theorem State.putScratch_stores {a : Tok}
    (hw : ∀ addr, (s.part x.p).scratchPlace picks a x.d.obj0 = some addr → s.writable x.p (addr / segBytes) = true ∧
      ∀ b, kept b → b < addr / 64 * 64 ∨ addr / 64 * 64 + 2 * sh.padded ≤ b) : State.OnlyStored s (s.putScratch x sh picks a) kept := by
  unfold State.putScratch
  split
  · next addr h hplace _ =>
    obtain ⟨hwrite, hkept⟩ := hw addr hplace
    refine State.fencedPut_stores hwrite fun b hb => (hkept b hb).imp_right fun hle => ?_
    rw [length_cutBlocks]
    omega
  · exact .refl _ _

/-- The entries of tokens, put one after another. -/
theorem State.foldl_putScratch {l : List Tok}
    (hw : ∀ a ∈ l, ∀ addr, (s.part x.p).scratchPlace picks a x.d.obj0 = some addr → s.writable x.p (addr / segBytes) = true ∧
      ∀ b, kept b → b < addr / 64 * 64 ∨ addr / 64 * 64 + 2 * sh.padded ≤ b) :
    State.OnlyStored s (l.foldl (State.putScratch x sh picks) s) kept := by
  induction l generalizing s with
  | nil => exact .refl _ _
  | cons a l ih =>
    have hone := State.putScratch_stores (sh := sh) (hw a (List.mem_cons_self ..))
    refine hone.trans (ih fun b hb addr haddr => ?_)
    rw [hone.frame (fun t => t.part x.p) fun _ _ _ _ => rfl] at haddr
    rw [hone.frame (fun t => t.writable x.p (addr / segBytes)) fun _ _ _ _ => rfl]
    exact hw b (List.mem_cons_of_mem _ hb) addr haddr

/-- The operator within the fence: it stores at the places of its tokens alone, and nothing where none has one. -/
theorem kvAppendBody_stores {st : Step} {toks : List Tok} (hst : (s.part x.p).step = some st) (hsh : x.m.pkg.shards[x.d.obj0]? = some sh)
    (hw : ∀ a ∈ toks, ∀ addr, (s.part x.p).scratchPlace st.picks a x.d.obj0 = some addr → s.writable x.p (addr / segBytes) = true) :
    ∃ u, kvAppendBody x s toks = (u, toks.mapIdx (x.append sh)) ∧
      (∀ kept : Nat → Prop, (∀ a ∈ toks, ∀ addr, (s.part x.p).scratchPlace st.picks a x.d.obj0 = some addr → ∀ b, kept b →
        b < addr / 64 * 64 ∨ addr / 64 * 64 + 2 * sh.padded ≤ b) → State.OnlyStored s u kept) ∧
      ((∀ a ∈ toks, (s.part x.p).scratchPlace st.picks a x.d.obj0 = none) → u = s) := by
  have hplace {b : Tok} (hb : b ∈ toks.mapIdx (x.append sh)) : ∃ a ∈ toks,
      (s.part x.p).scratchPlace st.picks b x.d.obj0 = (s.part x.p).scratchPlace st.picks a x.d.obj0 := by
    obtain ⟨k, hk, rfl⟩ := List.mem_mapIdx.1 hb
    exact ⟨_, List.getElem_mem hk, rfl⟩
  refine ⟨_, kvAppendBody_eq hst hsh toks, fun kept hk => State.foldl_putScratch fun b hb addr haddr => ?_,
    fun hnone => State.foldl_putScratch_none fun b hb => ?_⟩
  · obtain ⟨a, ha, heq⟩ := hplace hb
    exact ⟨hw a ha addr (heq ▸ haddr), hk a ha addr (heq ▸ haddr)⟩
  · obtain ⟨a, ha, heq⟩ := hplace hb
    exact heq.trans (hnone a ha)

/-- A token whose slots are written holds them, cut to the dimensions of the shard. -/
theorem OpCtx.append_written {k : Nat} {a : Tok} {u w : List W16} (hu : lookupA a.slots x.d.in0 = some u)
    (hw : sh.dim1 ≠ 0 → lookupA a.slots x.d.in1 = some w) : x.append sh k a =
      { a with held := a.held ++ [⟨x.d.obj0, u.take sh.dim0, if sh.dim1 = 0 then [] else w.take sh.dim1⟩] } := by
  rw [OpCtx.append, OpCtx.get_written x k hu]
  split
  · rfl
  · next hd => rw [OpCtx.get_written x k (hw hd)]

end KvAppend

/-- Settles O52: each row is `State.operate` at its opcode, and writes one slot of each token, or holds one entry of it. -/
theorem tokenOperatorsRun : Obligations.TokenOperatorsRun := by
  unfold Obligations.TokenOperatorsRun
  refine ⟨fun s p handle errs c hc hidle => ?idle, fun s p handle st m i run d =>
    ⟨fun r h hr => ?rope, fun h => ?act, fun h => ?combine, fun sh h hsh hw => ?kvAppend⟩⟩
  case idle =>
    obtain ⟨body, hrun⟩ := exec_operator hc
    rw [hrun, State.operate_idle hidle]
  case rope =>
    refine ⟨_, rfl, State.mapToks_done h (by decide) (fun k a => ?_) fun k a u hu => ?_⟩
    · simp only [State.opCtx_m, State.opCtx_d, hr]
      rfl
    · simp only [State.opCtx_m, State.opCtx_d, hr, OpCtx.get_written _ k hu]
      exact Tok.puts_put a d.out _
  case act =>
    refine ⟨_, rfl, State.mapToks_done h (by decide) (fun _ _ => rfl) fun k a u hu => ⟨fun hd => ?_, fun w hd hw hlen => ?_⟩⟩
    · simp only [State.opCtx_d, OpCtx.get_written _ k hu, hd, if_true, Option.map_none, mapIdx_eq_map]
      exact Tok.puts_put a d.out _
    · simp only [State.opCtx_d, OpCtx.get_written _ k hu, OpCtx.get_written _ k hw, if_neg hd]
      rw [← mapIdx_getD_eq_zipWith _ 0 hlen]
      exact Tok.puts_put a d.out _
  case combine =>
    refine ⟨_, rfl, State.mapToks_done h (by decide) (fun _ _ => rfl) fun k a u w hu hw =>
      ⟨_, fun o => (s.opCtx p st m run d).fr k o 0, Tok.puts_put a d.out _, by simp [OpCtx.width], fun o ho => ?_⟩⟩
    simp only [State.opCtx_d, OpCtx.get_written _ k hu, OpCtx.route, OpCtx.get_written _ k hw, List.length_map, List.length_range] at ho ⊢
    rw [List.getElem?_map, List.getElem?_range ho]
    rfl
  case kvAppend =>
    have hmem {a : Tok} (ha : a ∈ st.toks.filter run.has) : a ∈ st.toks ∧ run.has a = true := List.mem_filter.1 ha
    obtain ⟨u, hbody, hstored, hnothing⟩ := kvAppendBody_stores (s := s.drawn) (x := s.opCtx p st m run d) h.1 hsh fun a ha =>
      hw a (hmem ha).1 (hmem ha).2
    have hframe := hstored (fun _ => False) fun _ _ _ _ _ h => h.elim
    have hran (f : Nat → Tok → Tok → Prop) := State.operate_done (f := f) h (by decide) hbody
      (hframe.frame (·.parts) fun _ _ _ _ => rfl) (hframe.frame (·.out) fun _ _ _ _ => rfl) fun _ _ => rfl
    have hsheet := (hran (fun _ _ _ => True) fun _ _ _ _ => trivial).1
    refine ⟨_, rfl, (hran _ fun _ _ _ _ _ _ hu hw => OpCtx.append_written (x := s.opCtx p st m run d) hu hw).2, fun hnone => hsheet.trans ?none,
      fun _ addr haddr => (congrArg (Memory.read · addr) hsheet).trans ?outside⟩
    case none => rw [hnothing fun a ha => hnone a (hmem ha).1 (hmem ha).2]; rfl
    case outside =>
      exact (hstored (· = addr) fun a ha x hx b hb => hb ▸ haddr a (hmem ha).1 (hmem ha).2 x hx).2 addr rfl

end Sys2Proof.Machine

namespace Sys2Proof.Machine

/-! ## Reads of weights without an error or poison (R84, R169, R172-R174) -/

section Clean

variable {s : State} {p : Part} {m : Model}

theorem State.readRanges_clean (hp : s.poisoned = []) (p : Part) (via : Nat) (ranges : List (Nat × Nat)) : s.readRanges p via ranges [] = s :=
  List.foldl_fixed' (fun _ => State.readRange_clean hp) ranges

theorem State.readPaths_clean (hp : s.poisoned = []) (p : Part) (near bond : List (Nat × Nat)) : s.readPaths p near bond [] = s := by
  rw [State.readPaths, State.readRanges_clean hp, State.readRanges_clean hp]

theorem State.anyPoison_append (s : State) (l l' : List (Nat × Nat)) : s.anyPoison (l ++ l') = (s.anyPoison l || s.anyPoison l') :=
  List.any_append

end Clean

section ReadToks

variable {s : State} {p : Part} {handle op i : Nat} {st : Step} {m : Model} {run : ModelRun} {d : DescRec}
  {body : OpCtx → State → List Tok → State × List Tok} {g : Nat → Tok → Tok} {f : Nat → Tok → Tok → Prop}

/-- An operator whose reads change nothing leaves memory as it is, and does what it does to each token of its run. -/
theorem State.readToks_done (h : s.opAt p handle op st m i run d) (hop : op < 14)
    (hbody : body (s.opCtx p st m run d) s.drawn (st.toks.filter run.has) = (s.drawn, (st.toks.filter run.has).mapIdx g))
    (hg : ∀ k a, run.has (g k a) = run.has a) (hf : ∀ k a, f k a (g k a)) :
    (s.operate p handle op body).sheet = s.sheet ∧ State.OpDone s (s.operate p handle op body) p st m i run
      (fun x => x.verdicts = st.verdicts ∧ x.pageWrites = st.pageWrites) f :=
  State.operate_done (u := s.drawn) h hop hbody rfl rfl hg fun k a _ _ => hf k a

/-- One that writes its output slot in each token, which carries poison where what it read does (R170, R211). -/
theorem State.putToks_done {bad : Nat → Tok → Bool} {v : Nat → Tok → List W16} (h : s.opAt p handle op st m i run d) (hop : op < 14)
    (hbody : body (s.opCtx p st m run d) s.drawn (st.toks.filter run.has) =
      (s.drawn, (st.toks.filter run.has).mapIdx fun k a => ((s.opCtx p st m run d).taint (bad k a) 0 a).put d.out (v k a)))
    (hf : ∀ k a b, Tok.puts a b d.out (v k a) (bad k a) → f k a b) :
    (s.operate p handle op body).sheet = s.sheet ∧ State.OpDone s (s.operate p handle op body) p st m i run
      (fun x => x.verdicts = st.verdicts ∧ x.pageWrites = st.pageWrites) f :=
  State.readToks_done h hop hbody (fun _ _ => run.has_put_taint _ _ _ _ _ _) fun _ _ => hf _ _ _ (Tok.puts_put_taint _ _ _ _ _ _)

end ReadToks

/-! ## Vectors of the norms and of `LINEAR` (R173, R174) -/

section Vectors

/-- Element `j` of a gain: 1 where there is none (R173). -/
def gainAt (gain : Option (List W16)) (j : Nat) : W32 := match gain with | some g => f32OfBf16 (g.getD j 0) | none => f32One

/-- Element `j` of a bias: 0 where there is none (R173). -/
def biasAt (bias : Option (List W16)) (j : Nat) : W32 := match bias with | some b => f32OfBf16 (b.getD j 0) | none => f32Zero

variable {u : List W16} {j : Nat} {a : W16}

theorem rmsNorm_length (order : Nat) (eps : W32) (gain : Option (List W16)) : (rmsNorm order eps gain u).length = u.length := by
  simp [rmsNorm]

theorem rmsNorm_getElem? (order : Nat) (eps : W32) (gain : Option (List W16)) (h : u[j]? = some a) : (rmsNorm order eps gain u)[j]? =
    some (bf16OfF32 (f32Mul (f32Div (f32OfBf16 a) (f32Sqrt (f32Add
      (f32Div (f32Dot order (u.map f32OfBf16) (u.map f32OfBf16)) (f32OfInt u.length)) eps))) (gainAt gain j))) := by
  simp only [rmsNorm, List.getElem?_mapIdx, List.getElem?_map, h, List.length_map]
  rfl

/-- The mean of a vector, in one order of its additions, and the root that its deviations are divided by (R173). -/
def meanOf (order : Nat) (u : List W16) : W32 := f32Div (f32Sum order (u.map f32OfBf16)) (f32OfInt u.length)

def rootOf (order : Nat) (eps mean : W32) (u : List W16) : W32 :=
  f32Sqrt (f32Add (f32Div (f32Dot order (u.map fun x => f32Sub (f32OfBf16 x) mean) (u.map fun x => f32Sub (f32OfBf16 x) mean))
    (f32OfInt u.length)) eps)

theorem layerNorm_length (order : Nat) (eps : W32) (gain bias : Option (List W16)) :
    (layerNorm order eps gain bias u).length = u.length := by
  simp [layerNorm]

theorem layerNorm_getElem? (order : Nat) (eps : W32) (gain bias : Option (List W16)) (h : u[j]? = some a) :
    (layerNorm order eps gain bias u)[j]? = some (bf16OfF32 (f32Add (f32Mul (f32Div (f32Sub (f32OfBf16 a) (meanOf order u))
      (rootOf (order / 2) eps (meanOf order u) u)) (gainAt gain j)) (biasAt bias j))) := by
  simp only [layerNorm, List.getElem?_mapIdx, List.getElem?_map, List.map_map, h, List.length_map]
  rfl

theorem State.length_fullVec (s : State) (p : Part) (m : Model) (mx : MatrixRec) (prefill : Bool) (order : Nat → Nat → Nat) (e : Nat) :
    (s.fullVec p m mx prefill order e u).length = mx.out := by
  simp [State.fullVec]

/-- Lists of one length, one after another. -/
theorem length_flatten_mapIdx {α β : Type} {n : Nat} {f : Nat → α → List β} (hf : ∀ j x, (f j x).length = n) (l : List α) :
    ((l.mapIdx f).flatten).length = l.length * n := by
  rw [List.length_flatten, List.eq_replicate_of_mem (a := n) (l := (l.mapIdx f).map List.length) fun k hk => ?each]
  case each =>
    obtain ⟨_, hx, rfl⟩ := List.mem_map.1 hk
    obtain ⟨j, hj, rfl⟩ := List.mem_mapIdx.1 hx
    exact hf _ _
  simp

end Vectors

/-! ## The rows (R172-R174) -/

section Rows

variable {s : State} {x : OpCtx} {mx : MatrixRec}

/-- A token's row of a table, times the multiplier (R172). -/
def State.embedRow (s : State) (x : OpCtx) (mx : MatrixRec) (data scales : Nat) : List W16 :=
  (List.range mx.inp).map fun k => bf16OfF32 (f32Mul (weightVal mx.format (s.sheet.code mx.format data k)
    (if mx.tsb = 0 then 0 else s.scaleCode mx.format scales (k / fmtBlock mx.format))) (x.d.f32 20))

/-- `EMBED` of one token: nothing where its tile has no place. -/
def State.embedTok (s : State) (x : OpCtx) (mx : MatrixRec) (a : Tok) : Tok :=
  match s.tileAt x.p x.m mx a.token with
  | none => a
  | some (data, scales) => (x.taint (s.anyPoison (s.tileRanges x.p x.m mx [a.token])) 0 a).put x.d.out (s.embedRow x mx data scales)

theorem embedBody_clean (hp : s.poisoned = []) (hmx : x.m.pkg.matrices[x.d.obj0]? = some mx) (toks : List Tok) :
    embedBody [] x s toks = (s, toks.mapIdx fun _ => s.embedTok x mx) := by
  rw [embedBody, hmx, mapIdx_eq_map]
  simp only [State.readRanges_clean hp]
  rfl

theorem State.has_embedTok (run : ModelRun) (a : Tok) : run.has (s.embedTok x mx a) = run.has a := by
  unfold State.embedTok
  split
  · rfl
  · exact run.has_put_taint _ _ _ _ _ _

theorem State.embedTok_puts {a : Tok} {data scales : Nat} (h : s.tileAt x.p x.m mx a.token = some (data, scales)) :
    Tok.puts a (s.embedTok x mx a) x.d.out (s.embedRow x mx data scales) (s.anyPoison (s.tileRanges x.p x.m mx [a.token])) := by
  rw [State.embedTok, h]
  exact Tok.puts_put_taint _ _ _ _ _ _

/-- What `LINEAR` makes of one token: the product with the matrix and its bias, or the products with the selected experts (R174). -/
def State.linearVec (s : State) (x : OpCtx) (mx : MatrixRec) (k : Nat) (a : Tok) : List W16 :=
  if mx.expert then
    ((x.route k a x.d.in1).mapIdx fun j r =>
      if r.1 < mx.experts then
        (s.fullVec x.p x.m mx a.prefill (fun o n => x.fr k (j * 0x40000 + o) n) r.1 (x.get k a x.d.in0)).map bf16OfF32
      else List.replicate mx.out 0).flatten
  else
    let y := s.fullVec x.p x.m mx a.prefill (fun o n => x.fr k o n) 0 (x.get k a x.d.in0)
    match s.vec? x.p x.m (x.d.par 24 4) (x.d.par 28 4) mx.out with
    | some c => y.mapIdx fun o z => bf16OfF32 (f32Add z (f32OfBf16 (c.getD o 0)))
    | none => y.map bf16OfF32

/-- Whether what `LINEAR` reads for a token carries poison. -/
def State.linearBad (s : State) (x : OpCtx) (mx : MatrixRec) (k : Nat) (a : Tok) : Bool :=
  s.anyPoison (((if mx.expert then keptExperts mx (x.route k a x.d.in1) else [0]).flatMap fun e => s.expertRanges x.p x.m mx e) ++
    if mx.expert then [] else s.vecRanges x.p x.m (x.d.par 24 4) (x.d.par 28 4) mx.out)

theorem linearBody_clean (hp : s.poisoned = []) (hmx : x.m.pkg.matrices[x.d.obj0]? = some mx) (toks : List Tok) :
    linearBody [] x s toks = (s, toks.mapIdx fun k a => (x.taint (s.linearBad x mx k a) 0 a).put x.d.out (s.linearVec x mx k a)) := by
  rw [linearBody, hmx]
  simp only [State.readPaths_clean hp]
  rfl

theorem State.linearVec_experts (hx : mx.expert = true) (k : Nat) (a : Tok) :
    (s.linearVec x mx k a).length = (x.route k a x.d.in1).length * mx.out := by
  rw [State.linearVec, if_pos hx]
  refine length_flatten_mapIdx (fun j r => ?_) _
  split
  · rw [List.length_map, State.length_fullVec]
  · exact List.length_replicate

/-- An output with its bias, rounded once (R174). -/
def withBias (bias : Option (List W16)) (o : Nat) (z : W32) : W16 := match bias with
  | some c => bf16OfF32 (f32Add z (f32OfBf16 (c.getD o 0)))
  | none => bf16OfF32 z

theorem State.linearVec_matrix {k : Nat} {a : Tok} {u : List W16} (hx : mx.expert = false) (hu : lookupA a.slots x.d.in0 = some u) :
    s.linearVec x mx k a = (s.fullVec x.p x.m mx a.prefill (fun o n => x.fr k o n) 0 u).mapIdx
      (withBias (s.vec? x.p x.m (x.d.par 24 4) (x.d.par 28 4) mx.out)) := by
  rw [State.linearVec, if_neg (by rw [hx]; decide), OpCtx.get_written x k hu]
  dsimp only
  split
  · next c hc => rw [hc]; rfl
  · next hc => rw [hc, ← mapIdx_eq_map]; rfl

end Rows

/-- Settles O53: without an error or poison the reads change nothing, and each row writes one slot of each token. -/
theorem weightOperatorsRun : Obligations.WeightOperatorsRun := by
  unfold Obligations.WeightOperatorsRun
  intro s p handle st m i run d hp
  have hclean : s.drawn.poisoned = [] := hp
  refine ⟨fun mx h hmx => ?embed, fun h => ?rmsNorm, fun h => ?layerNorm, fun mx h hmx => ?linear⟩
  case embed =>
    exact ⟨_, rfl, State.readToks_done h (by decide) (embedBody_clean hclean hmx _) (fun _ _ => State.has_embedTok run _)
      fun k a x y hxy => State.embedTok_puts (s := s.drawn) (x := s.opCtx p st m run d) hxy⟩
  case rmsNorm =>
    refine ⟨_, rfl, State.putToks_done h (by decide) (by
      simp only [rmsNormBody, State.readRanges_clean hclean, State.opCtx_d]; rfl) fun k a b hb u hu => ?_⟩
    rw [OpCtx.get_written _ k hu] at hb
    exact ⟨_, _, hb, rmsNorm_length _ _ _, fun j x hj => (rmsNorm_getElem? _ _ _ hj).trans rfl⟩
  case layerNorm =>
    refine ⟨_, rfl, State.putToks_done h (by decide) (by
      simp only [layerNormBody, State.readRanges_clean hclean, State.opCtx_d]; rfl) fun k a b hb u hu => ?_⟩
    rw [OpCtx.get_written _ k hu, State.anyPoison_append] at hb
    exact ⟨_, _, _, _, _, hb, layerNorm_length _ _ _ _, rfl, rfl, fun j x hj => (layerNorm_getElem? _ _ _ _ hj).trans rfl⟩
  case linear =>
    refine ⟨_, rfl, State.putToks_done h (by decide) (linearBody_clean hclean hmx _) fun k a b hb u hu =>
      ⟨_, _, fun o n => (s.opCtx p st m run d).fr k o n, hb, fun w hx hw => ?experts, fun hx => ?matrix⟩⟩
    case experts => rw [State.linearVec_experts hx, OpCtx.route, State.opCtx_d, OpCtx.get_written _ k hw]
    case matrix => exact (State.linearVec_matrix (x := s.opCtx p st m run d) hx hu).trans rfl

end Sys2Proof.Machine

namespace Sys2Proof.Machine

/-! ## What a load leaves of a model (R189) -/

section Models

/-- An update of the first element of a test, which the update keeps, is found there. -/
theorem find?_modifyFirst_same {α : Type} (test : α → Bool) (f : α → α) (hf : ∀ a, test a = true → test (f a) = true) (l : List α) :
    (modifyFirst test f l).find? test = (l.find? test).map f := by
  induction l with
  | nil => rfl
  | cons a l ih =>
    rw [modifyFirst]
    by_cases ha : test a = true
    · rw [if_pos ha, List.find?_cons_of_pos (hf a ha), List.find?_cons_of_pos ha, Option.map_some]
    · rw [if_neg ha, List.find?_cons_of_neg ha, List.find?_cons_of_neg ha, ih]

theorem Partition.model_modModel_same (q : Partition) (handle : Nat) {f : Model → Model} (hf : ∀ m, (f m).handle = m.handle) :
    (q.modModel handle f).model handle = (q.model handle).map f :=
  find?_modifyFirst_same _ f (fun m h => by rw [hf]; exact h) _

theorem Partition.handle_of_model {q : Partition} {handle : Nat} {m : Model} (h : q.model handle = some m) : m.handle = handle :=
  eq_of_beq (List.find?_some h :)

/-- A model that a load changes in what has been written and seasoned alone. -/
def Model.LoadedFrom (m m' : Model) : Prop :=
  m' = { m with written := m'.written, channels := m'.channels, seasoned := m'.seasoned }

theorem Model.LoadedFrom.trans {m m' m'' : Model} (h : m.LoadedFrom m') (k : m'.LoadedFrom m'') : m.LoadedFrom m'' := by
  rw [Model.LoadedFrom, k, h]

theorem Model.LoadedFrom.foldl {α : Type} {f : Model → α → Model} (hf : ∀ (m : Model) x, m.LoadedFrom (f m x)) (l : List α) (m : Model) :
    m.LoadedFrom (l.foldl f m) := by
  induction l generalizing m with
  | nil => exact rfl
  | cons x l ih => exact (hf m x).trans (ih _)

/-- A load has gone on with a model of a partition. -/
def State.Loads (p : Part) (handle : Nat) (s t : State) : Prop :=
  ∀ m, (s.part p).model handle = some m → ∃ m', (t.part p).model handle = some m' ∧ m.LoadedFrom m'

variable {s t u : State} {p : Part} {handle : Nat}

theorem State.Loads.trans (h : State.Loads p handle s t) (k : State.Loads p handle t u) : State.Loads p handle s u := fun m hm =>
  have ⟨_, hm', hl⟩ := h m hm
  have ⟨m'', hm'', hl'⟩ := k _ hm'
  ⟨m'', hm'', hl.trans hl'⟩

theorem State.Loads.of_models (h : (t.part p).models = (s.part p).models) : State.Loads p handle s t := fun m hm =>
  ⟨m, by rw [Partition.model, h]; exact hm, rfl⟩

theorem State.Loads.of_calm (h : State.Calm s t) : State.Loads p handle s t := .of_models (h.part_eq (·.models) (fun _ _ _ _ => rfl) p)

theorem State.Loads.foldl {α : Type} {f : State → α → State} (hf : ∀ s x, State.Loads p handle s (f s x)) (l : List α) (s : State) :
    State.Loads p handle s (l.foldl f s) := by
  induction l generalizing s with
  | nil => exact .of_models rfl
  | cons x l ih => exact (hf s x).trans (ih _)

theorem State.Loads.modModel (s : State) {f : Model → Model} (hf : ∀ m : Model, m.LoadedFrom (f m)) :
    State.Loads p handle s (s.modPart p fun q => q.modModel handle f) := fun m hm => by
  refine ⟨f m, ?_, hf m⟩
  rw [State.part_modPart, Partition.model_modModel_same _ _ fun m => by rw [hf m], hm, Option.map_some]

end Models

/-! ## Bytes written, relief and the seasoning pass leave the models alone (R34, R141, R142, R293, R334) -/

section Writes

variable (s : State) (p : Part)

theorem State.fenceViolation_models (seg kind : Nat) : ((s.fenceViolation p seg kind).part p).models = (s.part p).models :=
  (State.fenceViolation_tells (.refl s) p seg kind).calm.part_eq (·.models) (fun _ _ _ _ => rfl) p

theorem State.told_models (seg : Option Nat) (kind : Nat) : ((s.told p seg kind).part p).models = (s.part p).models := by
  unfold State.told
  split
  · exact s.fenceViolation_models p _ _
  · rfl

theorem State.fencedBytes_models (addr : Nat) (bytes : List Byte) : ((s.fencedBytes p addr bytes).part p).models = (s.part p).models := by
  unfold State.fencedBytes
  split
  · exact congrArg (fun l => (l.get p).models) (s.putBlocks_parts _ _)
  · exact s.fenceViolation_models p _ _

theorem State.putChunk_parts (c : Nat) (bytes : List Byte) (poison : Bool) : (s.putChunk c bytes poison).parts = s.parts := by
  unfold State.putChunk
  split
  · rfl
  · split <;> rfl

theorem State.poisonChunks_parts (c n : Nat) : (s.poisonChunks c n).parts = s.parts := by
  induction n generalizing s c with
  | zero => rfl
  | succ n ih => exact (ih _ _).trans (s.putChunk_parts _ _ _)

theorem State.sheetToPeat_parts (b c n : Nat) : (s.sheetToPeat b c n).parts = s.parts := by
  induction n generalizing s b c with
  | zero => rfl
  | succ n ih => exact (ih _ _ _).trans (s.putChunk_parts _ _ _)

theorem State.fencedSpill_models (a c len : Nat) : ((s.fencedSpill p a c len).part p).models = (s.part p).models := by
  have htold (rd wr : Option Nat) : (((s.told p rd 0).told p wr 1).part p).models = (s.part p).models :=
    (State.told_models _ p _ _).trans (State.told_models _ p _ _)
  unfold State.fencedSpill
  dsimp only
  split
  · exact htold _ _
  · split
    · exact (congrArg (fun l => (l.get p).models) (State.poisonChunks_parts ..)).trans (htold _ _)
    · exact (congrArg (fun l => (l.get p).models) (State.sheetToPeat_parts ..)).trans (htold _ _)

theorem State.copyMember_models (handle : Nat) (member : List Nat) : ((s.copyMember p handle member).part p).models = (s.part p).models := by
  unfold State.copyMember
  split
  · rfl
  · refine State.foldl_unchanged (fun s => (s.part p).models) _ (fun s x => ?_) _ _
    split
    · exact s.fencedSpill_models p _ _ _
    · rfl

theorem State.seasonTile_models (m : Model) (stash : List (Nat × List Byte)) (target i : Nat) (x : MatrixRec) (t : Nat) :
    ((s.seasonTile p m stash target i x t).2.part p).models = (s.part p).models := by
  unfold State.seasonTile
  split
  · rfl
  · exact (State.fencedBytes_models _ p _ _).trans (State.fencedBytes_models _ p _ _)

theorem State.seasonChannels_models (m : Model) (stash : List (Nat × List Byte)) (target i : Nat) (x : MatrixRec) (region : Nat) :
    ((s.seasonChannels p m stash target i x region).part p).models = (s.part p).models := by
  unfold State.seasonChannels
  split
  · rfl
  · refine State.foldl_unchanged (fun s => (s.part p).models) _ (fun s t => ?_) _ _
    split
    · rfl
    · exact s.fencedBytes_models p _ _

/-- The tiles of a matrix seasoned one after another, their elements that are not finite counted. -/
theorem State.foldl_seasonTile_models (m : Model) (stash : List (Nat × List Byte)) (target i : Nat) (x : MatrixRec) (l : List Nat) (n : Nat) :
    ((l.foldl (fun acc t => let (b, s) := acc.2.seasonTile p m stash target i x t; (acc.1 + b, s)) (n, s)).2.part p).models =
      (s.part p).models := by
  induction l generalizing s n with
  | nil => rfl
  | cons t l ih => exact (ih _ _).trans (s.seasonTile_models p m stash target i x t)

theorem State.seasonRegion_models (m : Model) (stash : List (Nat × List Byte)) (target : Nat) (mats : List Nat) (region : Nat) :
    ((s.seasonRegion p m stash target mats region).part p).models = (s.part p).models := by
  refine (State.copyMember_models _ p _ _).trans (State.foldl_unchanged (fun s => (s.part p).models) _ (fun s i => ?_) _ _)
  split
  · rfl
  · next x _ =>
    have hcount (u : State) (bad : Nat) :
        ((u.modPart p fun q => { q with ctr := { q.ctr with sclNonfinite := satAdd q.ctr.sclNonfinite bad } }).part p).models =
          (u.part p).models := by rw [State.part_modPart]
    have htiles (bad : Nat) := (hcount _ bad).trans (s.foldl_seasonTile_models p m stash target i x
      (if stash.any fun r => r.1 == region then x.tilesIn region else []) 0)
    dsimp only
    split
    · exact htiles _
    · exact (State.seasonChannels_models _ p m stash target i x region).trans (htiles _)

theorem State.loadRelief_models (m : Model) (region : Nat) : ((s.loadRelief p m region).part p).models = (s.part p).models := by
  unfold State.loadRelief
  split
  · rfl
  · refine State.foldl_unchanged (fun s => (s.part p).models) _ (fun s i => ?_) _ _
    dsimp only
    split
    · split
      · exact ((State.toLadder_tells (.refl _) [p] _).calm.part_eq (·.models) (fun _ _ _ _ => rfl) p).trans
          (by rw [State.part_modPart])
      · rfl
    · rfl

end Writes

/-! ## A load goes on (R189) -/

section Load

variable {s : State} {p : Part} {c : Cmd}

theorem State.season_loads (s : State) (p : Part) (m : Model) (stash : List (Nat × List Byte)) (target : Nat) :
    State.Loads p m.handle s (s.season p m stash target) := by
  refine (State.Loads.modModel s fun y => ?_).trans (.foldl (fun s r => .of_models (s.seasonRegion_models p m stash target _ r)) _ _)
  refine Model.LoadedFrom.trans (Model.LoadedFrom.foldl (fun y i => ?_) _ y) (by exact rfl)
  split
  · split <;> rfl
  · rfl

theorem State.markWritten_loads (s : State) (p : Part) (handle region : Nat) : State.Loads p handle s (s.markWritten p handle region) :=
  .modModel s fun _ => rfl

theorem State.markPackaged_loads (s : State) (p : Part) (handle region : Nat) : State.Loads p handle s (s.markPackaged p handle region) := by
  refine (State.Loads.modModel s fun m => ?_).trans (State.markWritten_loads _ p handle region)
  exact rfl

theorem State.modCmd_calm (s : State) (p : Part) (id : Nat) (f : Cmd → Cmd) : State.Calm s (s.modCmd (.part p) id f) :=
  s.modTaken_calm (.part p) _

theorem State.cmdReadRunning_calm (s : State) (p : Part) (c : Cmd) (addr len : Nat) : State.Calm s (s.cmdReadRunning p c addr len) := by
  unfold State.cmdReadRunning
  split
  · exact s.cmdRead_calm _ _ _ _
  · exact s.modCmd_calm p _ _

theorem State.loadNext_loads (s : State) (p : Part) (c : Cmd) (written : Nat) (regions : List Nat) (billet : Nat) :
    State.Loads p c.model s (s.loadNext p c written regions billet) := by
  induction regions generalizing s billet with
  | nil =>
    refine State.Loads.trans ?_ (.of_calm (State.modCmd_calm _ p _ _))
    split
    · next m x xs hm _ =>
      rw [← Partition.handle_of_model hm]
      exact (s.season_loads p m _ _).trans (.foldl (fun s r => s.markWritten_loads p _ _) _ _)
    · exact .of_models rfl
  | cons r rest ih =>
    rw [State.loadNext]
    split
    · exact .of_calm (s.done_calm _ _ _ _)
    · split
      · exact .of_calm ((s.modCmd_calm p _ _).trans (State.cmdReadRunning_calm _ p _ _ _))
      · refine State.Loads.trans ?_ (ih _ _)
        split
        · exact .of_models rfl
        · exact s.markPackaged_loads p _ _

/-- A model whose control part has been read, and of which nothing is written (R189). -/
def Cmd.loadingModel (c : Cmd) (k : Package) (bound : List (Nat × Nat × Nat)) : Model :=
  Model.mk c.model .loading k c.got.flatten [] bound k.channels none none none [] none [] [] []

/-- A control part read for an absent model makes it LOADING (R187, R189). -/
theorem State.loadControl_makes {k : Package} {bound : List (Nat × Nat × Nat)} (hm : (s.part p).model c.model = none)
    (hb : s.bindings? p c.model (c.loadRegions k) = some bound) :
    ∃ m, ((s.loadControl p c k).part p).model c.model = some m ∧ (c.loadingModel k bound).LoadedFrom m := by
  have hfound : ((s.modPart p fun q => { q with models := q.models ++ [c.loadingModel k bound] }).part p).model c.model =
      some (c.loadingModel k bound) := by
    rw [State.part_modPart]
    refine (List.find?_append ..).trans ?_
    rw [show (s.part p).models.find? (fun m => m.handle == c.model) = none from hm, Option.none_or]
    exact List.find?_cons_of_pos (beq_self_eq_true c.model)
  rw [State.loadControl, hb]
  dsimp only
  rw [State.modPart_congr (g := fun q => { q with models := q.models ++ [c.loadingModel k bound] }) ?added, hfound]
  case added => rw [hm]; rfl
  exact ((State.Loads.foldl (fun s r => .of_models (s.loadRelief_models p _ r)) _ _).trans
    ((State.Loads.of_calm (State.modCmd_calm _ p _ _)).trans (State.loadNext_loads _ p { c with got := [] } _ _ _))) _ hfound

end Load

/-! ## `MODEL_LOAD` (R188) -/

section ModelLoad

variable {s : State} {p : Part} {c : Cmd}

theorem State.run_of_pickCmd {src : Src} (h : s.pickCmd src opcode = some c) : c.run = .idle := by
  have := List.find?_some h
  simp only [Bool.and_eq_true, beq_iff_eq] at this
  exact this.1.2

theorem exec_modelLoad (h : s.pickCmd (.part p) 0x10 = some c) : exec (.modelLoad (.part p)) s = .next (s.modelLoad p c) :=
  congrArg Host.Outcome.next (State.forPart_part _ h)

theorem State.modelLoad_refused (hr : c.run = .idle) (hs : c.started = false) (ht : s.loadTest p c ≠ stOk) :
    s.modelLoad p c = s.done (.part p) c (s.loadTest p c) := by
  simp only [State.modelLoad, hr, hs, Bool.false_eq_true, if_false, if_pos ht]

/-- A load that has begun, or passes its tests, goes by what it has still to read. -/
theorem State.modelLoad_passes (hs : c.started = true ∨ s.loadTest p c = stOk) :
    (if c.started then stOk else s.loadTest p c) = stOk := by
  split
  · rfl
  · next h => exact hs.resolve_left h

theorem State.modelLoad_reads {off len : Nat} (hr : c.run = .idle) (hs : c.started = true ∨ s.loadTest p c = stOk)
    (hn : nextNeed (c.f 24 8) c.got = .read off len) : s.modelLoad p c = s.cmdReadRunning p c (c.f 16 8 + off) len := by
  simp only [State.modelLoad, hr, State.modelLoad_passes hs, ne_eq, not_true_eq_false, if_false, hn]

theorem State.modelLoad_checked {k : Package} (hr : c.run = .idle) (hs : c.started = true ∨ s.loadTest p c = stOk)
    (hn : nextNeed (c.f 24 8) c.got = .complete) (hk : parsePackage c.got = some k)
    (hc : k.check (s.part p) c.model (c.f 24 8) (c.f 36 4) (c.f 40 4) = true) (hroom : (s.part p).heldModels < 8) :
    s.modelLoad p c = s.loadControl p c k := by
  simp only [State.modelLoad, hr, State.modelLoad_passes hs, ne_eq, not_true_eq_false, if_false, hn, hk, hc, if_true]
  exact if_neg fun h => absurd h.2 (Nat.not_le.2 hroom)

/-- A command's read of host memory goes to its port (R56). -/
theorem State.cmdRead_reads {port : Port} (hport : (s.part p).port = some port) (hlive : s.portLive port = true) (addr len : Nat) :
    ∃ rd, (s.cmdRead (.part p) c addr len).reads = s.reads ++ [rd] ∧ rd.port = port ∧ rd.addr = addr ∧ rd.len = len ∧
      rd.why = .cmd (.part p) c.id := by
  have hsrc : s.srcPort (.part p) = some port := hport
  rw [State.cmdRead, hsrc]
  dsimp only
  rw [if_pos hlive]
  show ∃ rd, (s.issueRead port addr len (.cmd (.part p) c.id)).reads = _ ∧ _
  unfold State.issueRead
  dsimp only
  split <;> exact ⟨_, rfl, rfl, rfl, rfl, rfl⟩

/-- The end of a load (R187, R189). -/
theorem exec_modelLoadDone {n w : Nat} (ht : (s.part p).taken = [c]) (hop : c.opcode = 0x10) (hr : c.run = .loading [] n w) :
    exec (.modelLoadDone p c.model) s = .next (s.loadEnd p c w) := by
  refine congrArg Host.Outcome.next ?_
  simp only [ht, List.find?_cons, hop, hr, beq_self_eq_true, Bool.and_self]

theorem State.loadEnd_ends {m : Model} (ht : (s.part p).taken = [c]) (hm : (s.part p).model c.model = some m) (w : Nat) :
    ((s.loadEnd p c w).part p).taken = [] ∧ (s.loadEnd p c w).sheet = s.sheet ∧
    ((s.loadEnd p c w).part p).model c.model =
      some (if m.allWritten then { m with state := .ready, scratch := (s.part p).cutScratch m s.ashList } else m) := by
  have hmodel := State.part_done_eq (fun q => q.model c.model) (fun _ _ _ => rfl) (s.modPart p fun q => q.modModel c.model fun m =>
    if m.allWritten then { m with state := .ready, scratch := q.cutScratch m s.ashList } else m) p c stOk w
  rw [State.part_modPart, Partition.model_modModel_same _ _ (fun m => by split <;> rfl), hm] at hmodel
  exact ⟨State.done_taken_only (by rw [State.part_modPart]; exact ht) _ _, (State.done_calm _ _ _ _ _).sheet, hmodel⟩

end ModelLoad

/-! ## `MODEL_UNLOAD` (R191) -/

section ModelUnload

variable {s : State} {p : Part} {c : Cmd}

/-- The state without a model: memory stays, relief, repairs and hits of its tables go with it. -/
def State.withoutModel (s : State) (p : Part) (handle : Nat) : State :=
  { s.modPart p fun q => q.dropModel handle with tablesHit := (s.part p).keptHits handle s.tablesHit }.modRepairs p fun l =>
    l.filter fun r => !(r.part == p && r.handle == handle)

theorem State.part_withoutModel (s : State) (p : Part) (handle : Nat) : ∃ fifo, (s.withoutModel p handle).part p =
    { (s.part p).dropModel handle with fifo := fifo } := by
  have hdropped : ({ s.modPart p fun q => q.dropModel handle with tablesHit := (s.part p).keptHits handle s.tablesHit } : State).part p =
      (s.part p).dropModel handle := State.part_modPart ..
  exact ⟨_, (State.part_modRepairs ..).trans (by rw [hdropped])⟩

/-- The one command taken waits for the end of a model that nothing uses: the model is ABSENT, and the command completes (R191). -/
theorem State.settle_unloads (ht : (s.part p).taken = [c]) (hr : c.run = .closing) (hop : c.opcode ≠ 0x03)
    (hu : ∀ x ∈ (s.part p).reqs, x.2.state.live = true → (s.part p).uses x.2 c.model = false) :
    s.settle p = (s.withoutModel p c.model).done (.part p) c stOk := by
  have hfree : ((s.part p).reqs.any fun x => x.2.state.live && (s.part p).uses x.2 c.model) = false := by
    simpa using hu
  simp only [State.settle, ht, List.foldl_cons, List.foldl_nil, hr, if_true, if_neg hop, hfree, Bool.false_eq_true, if_false]
  rfl

theorem State.modelUnload_unused {m : Model} (ht : (s.part p).taken = [c]) (hop : c.opcode = 0x11) (hm : (s.part p).model c.model = some m)
    (hb : s.bindings p c.model = 0) (hu : ∀ x ∈ (s.part p).reqs, x.2.state.live = true → (s.part p).uses x.2 c.model = false) :
    s.modelUnload p c = ((s.waitEnd p c).withoutModel p c.model).done (.part p) c.closing stOk := by
  have husers : ((s.part p).reqs.filter fun x => x.2.state.live && (s.part p).uses x.2 c.model) = [] :=
    List.filter_eq_nil_iff.2 fun x hx h => by
      obtain ⟨hl, hx'⟩ := Bool.and_eq_true_iff.1 h
      exact absurd hx' (by rw [hu x hx hl]; decide)
  have hload : s.loadingBy p c.model none = false := by simp [State.loadingBy, ht, hop]
  have hpart := State.part_waitEnd ht
  rw [State.modelUnload, hm]
  simp only [hload, hb, husers, Bool.false_eq_true, if_false, Nat.lt_irrefl, List.map_nil, List.isEmpty_nil, Bool.not_true, Bool.false_and,
    List.foldl_nil]
  refine State.settle_unloads (c := c.closing) (by rw [hpart]) rfl (by show c.opcode ≠ 3; rw [hop]; decide) fun x hx hl => ?_
  rw [hpart] at hx ⊢
  exact hu x hx hl

theorem Partition.model_dropModel (q : Partition) (handle : Nat) : (q.dropModel handle).model handle = none ∧
    ∀ h, h ≠ handle → (q.dropModel handle).model h = q.model h := by
  refine ⟨List.find?_eq_none.2 fun m hm he => ?_, fun h hh => ?_⟩
  · exact of_decide_eq_true (List.mem_filter.1 hm).2 (eq_of_beq he)
  · unfold Partition.model Partition.dropModel
    rw [List.find?_filter]
    congr 1
    funext m
    by_cases hm : m.handle = h
    · simp [hm, hh]
    · simp [hm]

/-- What is left where a model was (R191). -/
theorem State.unloaded (ht : (s.part p).taken = [c]) (status : Nat) {t : State}
    (he : t = (s.withoutModel p c.model).done (.part p) c status) : (t.part p).taken = [] ∧ (t.part p).model c.model = none ∧
      (∀ h, h ≠ c.model → (t.part p).model h = (s.part p).model h) ∧ (t.part p).reqs = (s.part p).reqs ∧ t.sheet = s.sheet := by
  obtain ⟨fifo, hpart⟩ := s.part_withoutModel p c.model
  have hmodel (h : Nat) := State.part_done_eq (fun q => q.model h) (fun _ _ _ => rfl) (s.withoutModel p c.model) p c status 0
  have hreqs := State.part_done_eq (·.reqs) (fun _ _ _ => rfl) (s.withoutModel p c.model) p c status 0
  obtain ⟨hnone, hothers⟩ := (s.part p).model_dropModel c.model
  rw [hpart] at hmodel hreqs
  subst he
  exact ⟨State.done_taken_only (by rw [hpart]; exact ht) _ _, (hmodel _).trans hnone, fun h hh => (hmodel h).trans (hothers h hh), hreqs,
    (State.done_calm _ _ _ _ _).sheet⟩

theorem exec_modelUnload_turn (h : s.turnOf p c 0x11) : exec (.modelUnload (.part p)) s = .next ((s.modelUnload p c).runBoundary p) := by
  have hcmd : s.atBoundaryCmd p c = s.modelUnload p c := by rw [State.atBoundaryCmd, h.2.1]; rfl
  exact hcmd ▸ exec_boundaryRow_turn (x := (.modelUnload (.part p), 0x11)) (by simp [boundaryRows]) h

end ModelUnload

/-- Settles O58: a load is refused, reads on or makes its model by what it has read; its end and an unload are one change of the models
and the completion of the command. -/
theorem modelsLoadAndUnload : Obligations.ModelsLoadAndUnload := by
  unfold Obligations.ModelsLoadAndUnload
  refine ⟨fun s p c hc => ⟨fun hs ht => ?refused, fun port off len hs hn hst hport hlive => ?reads,
    fun k bound hs hn hk hcheck hm hroom hb => ?made⟩, fun s p c m n w ht hop hr hm => ?ended, fun s p c m hturn hm hb hu => ?unloaded⟩
  case refused =>
    refine ⟨_, exec_modelLoad hc, ?_⟩
    rw [State.modelLoad_refused (State.run_of_pickCmd hc) hs ht]
    exact s.done_tells (.part p) c _ 0
  case reads =>
    obtain ⟨rd, hreads, hrd⟩ := State.cmdRead_reads (c := c) hport hlive (c.f 16 8 + off) len
    refine ⟨_, rd, exec_modelLoad hc, ?_⟩
    rw [State.modelLoad_reads (State.run_of_pickCmd hc) hs hn, State.cmdReadRunning, if_pos hst]
    obtain ⟨hrport, haddr, hlen, hwhy⟩ := hrd
    exact ⟨hreads, hrport, haddr, hlen, hwhy, (s.cmdRead_calm (.part p) c _ _).part_eq (·.models) (fun _ _ _ _ => rfl) p⟩
  case made =>
    obtain ⟨m, hmade, hl⟩ := State.loadControl_makes hm hb
    refine ⟨_, m, exec_modelLoad hc, ?_⟩
    rw [State.modelLoad_checked (State.run_of_pickCmd hc) hs hn hk hcheck hroom]
    refine ⟨hmade, ?_⟩
    rw [hl]
    exact ⟨rfl, rfl, rfl, rfl, rfl⟩
  case ended =>
    obtain ⟨htaken, hsheet, hmodel⟩ := State.loadEnd_ends ht hm w
    refine ⟨_, _, exec_modelLoadDone ht hop hr, htaken, hmodel, fun hall => ?_, fun hall => ?_, hsheet⟩
    · rw [if_pos hall]
      exact ⟨rfl, rfl⟩
    · rw [if_neg (by rw [hall]; decide)]
  case unloaded =>
    have hpart := State.part_waitEnd hturn.1
    obtain ⟨htaken, hleft⟩ := State.unloaded (s := s.waitEnd p c) (c := c.closing) (by rw [hpart]) stOk
      (State.modelUnload_unused hturn.1 hturn.2.1 hm hb hu)
    refine ⟨_, exec_modelUnload_turn hturn, ?_⟩
    rw [State.runBoundary_of_empty htaken]
    rw [hpart] at hleft
    exact ⟨htaken, hleft⟩

end Sys2Proof.Machine

namespace Sys2Proof.Machine

/-! ## What a step's end leaves of its partition beside the books it keeps (R196, R284)

The telling of a step's end, the slots that it settles and the transfers that it cancels reach of the partition its queues, its fault FIFO
and its request registers alone, and take no time. -/

/-- Of a partition only its queue subblock, its taken commands, its fault FIFO and its request registers have changed, and no time has
passed. -/
structure State.Quiet (p : Part) (s t : State) : Prop where
  part : ∃ a b c d, t.part p = { s.part p with sub := a, taken := b, fifo := c, rqt := d }
  uptime : t.uptime = s.uptime

namespace State.Quiet

variable {p : Part} {s t u : State}

theorem refl (p : Part) (s : State) : State.Quiet p s s := ⟨⟨_, _, _, _, rfl⟩, rfl⟩

theorem trans (h : State.Quiet p s t) (k : State.Quiet p t u) : State.Quiet p s u := by
  obtain ⟨⟨_, _, _, _, ht⟩, hup⟩ := h
  obtain ⟨⟨a, b, c, d, hu⟩, hup'⟩ := k
  exact ⟨⟨a, b, c, d, by rw [hu, ht]⟩, hup'.trans hup⟩

theorem foldl {α : Type} {f : State → α → State} (hf : ∀ s x, State.Quiet p s (f s x)) (l : List α) (s : State) :
    State.Quiet p s (l.foldl f s) := by
  induction l generalizing s with
  | nil => exact .refl p s
  | cons x l ih => exact (hf s x).trans (ih _)

theorem of_part (h : t.part p = s.part p) (hup : t.uptime = s.uptime) : State.Quiet p s t := ⟨⟨_, _, _, _, h⟩, hup⟩

theorem of_parts (h : t.parts = s.parts) (hup : t.uptime = s.uptime) : State.Quiet p s t := .of_part (congrArg (·.get p) h) hup

theorem of_calm (h : State.Calm s t) (hup : t.uptime = s.uptime) : State.Quiet p s t := ⟨⟨_, _, _, _, h.parts p⟩, hup⟩

theorem of_tells (h : State.Tells s t) : State.Quiet p s t := .of_calm h.calm (h.eq (·.uptime) fun _ _ _ _ _ => rfl)

/-- What a partition holds outside those four is as it was. -/
theorem part_eq (h : State.Quiet p s t) {α : Type} (f : Partition → α)
    (hf : ∀ (q : Partition) a b c d, f { q with sub := a, taken := b, fifo := c, rqt := d } = f q) : f (t.part p) = f (s.part p) := by
  obtain ⟨_, _, _, _, ht⟩ := h.part
  rw [ht, hf]

/-- The same change of the partition after both. -/
theorem modPart (h : State.Quiet p s t) {f : Partition → Partition} (hf : ∀ (q : Partition) a b c d,
    f { q with sub := a, taken := b, fifo := c, rqt := d } = { f q with sub := a, taken := b, fifo := c, rqt := d }) :
    State.Quiet p (s.modPart p f) (t.modPart p f) := by
  obtain ⟨⟨a, b, c, d, ht⟩, hup⟩ := h
  exact ⟨⟨a, b, c, d, by rw [State.part_modPart, State.part_modPart, ht, hf]⟩, hup⟩

end State.Quiet

section

variable (s : State) (p : Part)

theorem State.toPart_quiet (e : Fin 16) (v : Ev) : State.Quiet p s (s.toPart p e v) := .of_tells (State.toPart_tells (.refl s) p e v)

theorem State.toReq_quiet (h : Nat) (v : Ev) : State.Quiet p s (s.toReq p h v) := .of_tells (State.toReq_tells (.refl s) p h v)

theorem State.modTaken_quiet (src : Src) (f : List Cmd → List Cmd) : State.Quiet p s (s.modTaken src f) :=
  .of_calm (s.modTaken_calm src f) (by cases src <;> rfl)

theorem State.doneAll_quiet (src : Src) (which : Cmd → Bool) (status : Nat) : State.Quiet p s (s.doneAll src which status) :=
  .foldl (fun s c => (s.modTaken_quiet p src _).trans (.of_tells (s.done_tells src c status c.written))) _ _

/-- A change of a partition's request registers. -/
theorem State.Quiet.modRqt {s t : State} {p : Part} (h : State.Quiet p s t) (i : Part) (f : Partition → RqtRegs) :
    State.Quiet p s (t.modPart i fun q => { q with rqt := f q }) := by
  refine h.trans ⟨?_, rfl⟩
  by_cases hi : p = i
  · exact ⟨_, _, _, _, by rw [hi, State.part_modPart]⟩
  · exact ⟨_, _, _, _, State.part_modPart_other _ _ _ _ hi⟩

theorem State.beginSlot_quiet (i : Nat) : State.Quiet p s (s.beginSlot i) := by
  unfold State.beginSlot
  split
  · exact .refl p s
  · split
    · exact .refl p s
    · next x _ _ q _ =>
      dsimp only
      refine State.Quiet.modRqt ?_ q _
      exact .of_parts rfl rfl

theorem State.endSlot_quiet (i : Nat) : State.Quiet p s (s.endSlot i) := by
  unfold State.endSlot
  split
  · exact .refl p s
  · dsimp only
    refine State.Quiet.trans ?_ (.foldl (fun s j => s.beginSlot_quiet p j) _ _)
    split <;> exact .of_parts rfl rfl

theorem State.settleSlots_quiet : State.Quiet p s (s.settleSlots p) := by
  refine .foldl (fun s o => ?_) _ _
  refine State.Quiet.trans ?_ (State.endSlot_quiet _ p _)
  refine State.Quiet.trans ?_ (State.toPart_quiet _ p _ _)
  refine State.Quiet.modRqt ?_ p _
  exact .of_parts rfl rfl

theorem State.bistSettle_quiet : State.Quiet p s s.bistSettle := by
  unfold State.bistSettle
  split <;> exact .of_parts rfl rfl

theorem State.alertFault_quiet (cls : Nat) : State.Quiet p s (s.alertFault cls) := by
  unfold State.alertFault
  split <;> exact .of_parts rfl rfl

theorem State.dropHeld_quiet : State.Quiet p s (s.dropHeld p) :=
  .of_calm (s.dropHeld_calm p) (by unfold State.dropHeld; split <;> rfl)

end

/-! ## What leaves the running step and a request alone -/

/-- The step of a partition, its STEP registers, the own oscillator and every request outside a list stand as they were. -/
structure State.Apart (p : Part) (l : List Nat) (s t : State) : Prop where
  step : (t.part p).step = (s.part p).step
  regs : (t.part p).stepRegs = (s.part p).stepRegs
  uptime : t.uptime = s.uptime
  req : ∀ h, h ∉ l → (t.part p).req h = (s.part p).req h

namespace State.Apart

variable {p : Part} {l k : List Nat} {s t u : State}

theorem refl (p : Part) (l : List Nat) (s : State) : State.Apart p l s s := ⟨rfl, rfl, rfl, fun _ _ => rfl⟩

theorem trans (h : State.Apart p l s t) (h' : State.Apart p l t u) : State.Apart p l s u :=
  ⟨h'.step.trans h.step, h'.regs.trans h.regs, h'.uptime.trans h.uptime, fun n hn => (h'.req n hn).trans (h.req n hn)⟩

theorem mono (h : State.Apart p l s t) (hl : l ⊆ k) : State.Apart p k s t :=
  ⟨h.step, h.regs, h.uptime, fun n hn => h.req n fun hm => hn (hl hm)⟩

theorem of_quiet (h : State.Quiet p s t) : State.Apart p l s t :=
  ⟨h.part_eq (·.step) fun _ _ _ _ _ => rfl, h.part_eq (·.stepRegs) fun _ _ _ _ _ => rfl, h.uptime,
    fun n _ => h.part_eq (·.req n) fun _ _ _ _ _ => rfl⟩

theorem of_parts (h : t.parts = s.parts) (hup : t.uptime = s.uptime) : State.Apart p l s t := .of_quiet (.of_parts h hup)

/-- A change of the partition's held models, victims, registers and of listed requests. -/
theorem modPart {f : Partition → Partition} (hstep : (f (s.part p)).step = (s.part p).step)
    (hregs : (f (s.part p)).stepRegs = (s.part p).stepRegs) (hreq : ∀ h, h ∉ l → (f (s.part p)).req h = (s.part p).req h) :
    State.Apart p l s (s.modPart p f) := by
  constructor
  · rw [State.part_modPart, hstep]
  · rw [State.part_modPart, hregs]
  · rfl
  · intro h hh
    rw [State.part_modPart, hreq h hh]

/-- A run of changes, each of which leaves alone all requests but that of its element. -/
theorem foldl {α : Type} {f : State → α → State} {key : α → Nat} (hf : ∀ s x, State.Apart p [key x] s (f s x)) (xs : List α) (s : State) :
    State.Apart p (xs.map key) s (xs.foldl f s) := by
  induction xs generalizing s with
  | nil => exact .refl p _ s
  | cons x xs ih =>
    exact ((hf s x).mono (List.cons_subset_cons _ (List.nil_subset _))).trans ((ih _).mono (List.subset_cons_self _ _))

/-- Of such a run over elements of different requests, the change by one element is the only one that its request sees. -/
theorem foldl_once {α : Type} {f : State → α → State} {key : α → Nat} (hf : ∀ s x, State.Apart p [key x] s (f s x)) {xs : List α} {x : α}
    (hn : (xs.map key).Nodup) (hx : x ∈ xs) (s : State) :
    ∃ v : State, (v.part p).req (key x) = (s.part p).req (key x) ∧
      ((xs.foldl f s).part p).req (key x) = ((f v x).part p).req (key x) := by
  obtain ⟨a, b, rfl⟩ := List.append_of_mem hx
  rw [List.map_append, List.map_cons, List.nodup_middle, List.nodup_cons, List.mem_append, not_or] at hn
  obtain ⟨⟨ha, hb⟩, -⟩ := hn
  refine ⟨a.foldl f s, (State.Apart.foldl hf a s).req _ ha, ?_⟩
  rw [List.foldl_append, List.foldl_cons]
  exact (State.Apart.foldl hf b _).req _ hb

end State.Apart

end Sys2Proof.Machine

namespace Sys2Proof.Machine

/-! ## Pages and requests at COMMIT (R196, R198, R207, R271, R272) -/

/-- A change of another entry leaves a request alone. -/
theorem lookupA_modifyA_other {β : Type} (l : List (Nat × β)) {k j : Nat} (f : β → β) (h : j ≠ k) : lookupA (modifyA l k f) j = lookupA l j := by
  induction l with
  | nil => rfl
  | cons x l ih =>
    obtain ⟨a, v⟩ := x
    simp only [modifyA] at ih
    by_cases ha : a = k
    · have hj : k ≠ j := fun e => h e.symm
      simp [modifyA, lookupA, ha, hj, ih]
    · simp [modifyA, lookupA, ha, ih]

theorem State.putBlocks_uptime (s : State) (b : Nat) (l : List (List Byte × Bool)) : (s.putBlocks b l).uptime = s.uptime := by
  induction l generalizing s b with
  | nil => rfl
  | cons x l ih =>
    refine (ih _ _).trans ?_
    unfold State.putBlock
    split
    · rfl
    · split <;> rfl

theorem State.putEntry_uptime (s : State) (addr fmt padded t : Nat) (codes : List Nat) : (s.putEntry addr fmt padded t codes).uptime = s.uptime :=
  State.foldl_unchanged State.uptime _ (fun s _ => s.putBlocks_uptime _ _) _ _

/-- Tokens appended at COMMIT stand behind the words of their chain, whether or not a list block was free for them, and of the partition
only the models change (R257). -/
theorem Partition.appendChain_eq (q : Partition) (h : Nat) (r : Req) (toks : List Nat) :
    q.OnlyModels (q.appendChain h r toks).1 ∧ (q.appendChain h r toks).2.words = r.chain.words ++ toks := by
  unfold Partition.appendChain
  split
  · next m c hpush =>
    obtain ⟨_, -, hpush⟩ := Option.bind_eq_some_iff.1 hpush
    exact ⟨q.modModel_onlyModels _ _, Model.pushAll_words hpush⟩
  · exact ⟨⟨rfl⟩, rfl⟩

namespace State.Apart

variable {p : Part} {l : List Nat} {s t : State}

/-- A change of one request, beside the models, by which the step and its registers stand. -/
theorem modEntry {q : Partition} {f : Partition → Partition} {h : Nat} {g : Req → Req} (hq : (s.part p).OnlyModels q)
    (hstep : (f (s.part p)).step = q.step) (hregs : (f (s.part p)).stepRegs = q.stepRegs)
    (hreqs : (f (s.part p)).reqs = (q.modReq h g).reqs) : State.Apart p [h] s (s.modPart p f) := by
  rw [hq.eq] at hstep hregs hreqs
  refine .modPart hstep hregs fun k hk => ?_
  rw [Partition.req, hreqs]
  exact lookupA_modifyA_other _ _ (List.ne_of_not_mem_cons hk)

theorem modReq (h : Nat) (g : Req → Req) : State.Apart p [h] s (s.modReq p h g) := .modEntry (q := s.part p) ⟨rfl⟩ rfl rfl rfl

end State.Apart

section

variable (s : State) (p : Part)

theorem State.commitPage_apart (w : PageWrite) : State.Apart p [] s (s.commitPage p w) := by
  unfold State.commitPage
  split
  · split
    · exact .refl p _ s
    · next a _ =>
      refine State.Apart.trans (.of_parts (State.foldl_unchanged State.parts _ (fun s y => s.putEntry_parts ..) _ _)
        (State.foldl_unchanged State.uptime _ (fun s y => s.putEntry_uptime ..) _ _)) (.modPart rfl rfl fun _ _ => rfl)
  · exact .refl p _ s

theorem State.sendOn_uptime (i : Port) (o : Out) : (s.sendOn i o).uptime = s.uptime := by
  unfold State.sendOn
  split <;> rfl

/-- A record counts in the entry of its request, and is told nowhere else (R74). -/
theorem State.writeRecord_counts (h : Nat) (token : W32) (logprob : W16) (isEnd missed drafted : Bool) :
    State.Apart p [h] s (s.writeRecord p h token logprob isEnd missed drafted) ∧
      ∀ r, (s.part p).req h = some r → ∃ n m, ((s.writeRecord p h token logprob isEnd missed drafted).part p).req h =
        some { r with produced := n, missedAt := m } := by
  unfold State.writeRecord
  split
  · next r port hr _ =>
    refine ⟨(State.Apart.of_parts (s.sendOn_parts _ _) (s.sendOn_uptime _ _)).trans (.modReq h _), fun r' hr' => ?_⟩
    have hsent (o : Out) : (s.sendOn port o).part p = s.part p := congrArg (·.get p) (s.sendOn_parts port o)
    exact ⟨_, _, State.req_modReq_same (by rw [hsent]; exact hr') _⟩
  · exact ⟨.refl p _ s, fun r hr => ⟨r.produced, r.missedAt, hr⟩⟩

/-- A run of records of one request (R74). -/
theorem State.foldl_writeRecord_counts {α : Type} (h : Nat) (token : α → W32) (logprob : α → W16) (isEnd missed drafted : α → Bool)
    (l : List α) :
    let t := l.foldl (fun s y => s.writeRecord p h (token y) (logprob y) (isEnd y) (missed y) (drafted y)) s
    State.Apart p [h] s t ∧ ∀ r, (s.part p).req h = some r → ∃ n m, (t.part p).req h = some { r with produced := n, missedAt := m } := by
  induction l generalizing s with
  | nil => exact ⟨.refl p _ s, fun r hr => ⟨r.produced, r.missedAt, hr⟩⟩
  | cons y l ih =>
    obtain ⟨hone, hentry⟩ := s.writeRecord_counts p h (token y) (logprob y) (isEnd y) (missed y) (drafted y)
    obtain ⟨hrest, hentries⟩ := ih (s.writeRecord p h (token y) (logprob y) (isEnd y) (missed y) (drafted y))
    refine ⟨hone.trans hrest, fun r hr => ?_⟩
    obtain ⟨_, _, hr₁⟩ := hentry r hr
    obtain ⟨n, m, hr₂⟩ := hentries _ hr₁
    exact ⟨n, m, hr₂⟩

theorem State.writeRecords_counts (o : Outturn) : State.Apart p [o.pick.req] s (s.writeRecords p o) ∧
    ∀ r, (s.part p).req o.pick.req = some r → ∃ n m, ((s.writeRecords p o).part p).req o.pick.req =
      some { r with produced := n, missedAt := m } :=
  s.foldl_writeRecord_counts p _ _ _ _ _ _ _

/-- What a request has become that a step has taken on by an outturn: a step more, and the tokens of its records in its chain, its length
and its count (R196, R207). -/
def Req.GrownBy (o : Outturn) (r r' : Req) : Prop :=
  r'.steps = r.steps + 1 ∧ r'.length = r.length + (if o.pick.split = 0 then o.records.length else o.pick.split) ∧
    r'.chain.words = r.chain.words ++ o.records.map (·.1) ∧ r'.generated = r.generated + o.records.length

theorem State.commitReq_grows (o : Outturn) : State.Apart p [o.pick.req] s (s.commitReq p o) ∧
    ∀ r, (s.part p).req o.pick.req = some r → ∃ r', ((s.commitReq p o).part p).req o.pick.req = some r' ∧ r.GrownBy o r' := by
  unfold State.commitReq
  split
  · next hnone => exact ⟨.refl p _ s, fun r hr => absurd (hnone.symm.trans hr) nofun⟩
  · next r hr =>
    obtain ⟨hmodels, hwords⟩ := (s.part p).appendChain_eq o.pick.req r (o.records.map (·.1))
    dsimp only
    generalize (s.part p).appendChain o.pick.req r (o.records.map (·.1)) = x at hmodels hwords ⊢
    refine ⟨.modEntry hmodels rfl rfl rfl, fun r' hr' => ?_⟩
    obtain rfl : r = r' := Option.some.inj (hr.symm.trans hr')
    have hentry : x.1.req o.pick.req = some r := by rw [hmodels.eq]; exact hr
    rw [State.part_modPart, Partition.req_modReq_same, hentry]
    exact ⟨_, rfl, rfl, rfl, hwords, rfl⟩

/-- The results of one pick: its records, and its request grown by them. -/
theorem State.commitPick_grows (o : Outturn) : State.Apart p [o.pick.req] s ((s.writeRecords p o).commitReq p o) ∧
    ∀ r, (s.part p).req o.pick.req = some r →
      ∃ r', (((s.writeRecords p o).commitReq p o).part p).req o.pick.req = some r' ∧ r.GrownBy o r' := by
  obtain ⟨hrecords, hcounts⟩ := s.writeRecords_counts p o
  obtain ⟨hcommit, hgrows⟩ := (s.writeRecords p o).commitReq_grows p o
  refine ⟨hrecords.trans hcommit, fun r hr => ?_⟩
  obtain ⟨_, _, hr₁⟩ := hcounts r hr
  obtain ⟨r', hr', hgrown⟩ := hgrows _ hr₁
  exact ⟨r', hr', hgrown⟩

theorem State.endReq_apart (h : Nat) (st : ReqState) : State.Apart p [h] s (s.endReq p h st) := by
  unfold State.endReq
  split
  · exact .refl p _ s
  · next r _ =>
    have hreleased := ((s.part p).releasePages_onlyModels r).trans (Partition.releaseChain_onlyModels _ ((s.part p).releasePages r).2)
    dsimp only
    generalize ((s.part p).releasePages r).1.releaseChain ((s.part p).releasePages r).2 = x at hreleased ⊢
    exact .modEntry (g := fun _ => _) hreleased rfl rfl rfl

theorem State.finishReq_apart (h cause : Nat) : State.Apart p [h] s (s.finishReq p h cause) := by
  unfold State.finishReq
  split
  · exact .refl p _ s
  · exact (State.Apart.of_quiet (s.toReq_quiet p _ _)).trans (State.endReq_apart _ p _ _)

theorem State.expireReq_apart (h : Nat) : State.Apart p [h] s (s.expireReq p h) := by
  unfold State.expireReq
  split
  · exact .refl p _ s
  · exact ((State.Apart.of_quiet (s.toReq_quiet p _ _)).trans (State.endReq_apart _ p _ _)).trans (.of_quiet (.modRqt (.refl p _) p _))

theorem State.closePick_apart (st : Step) (o : Outturn) : State.Apart p [o.pick.req] s (s.closePick p st o) := by
  unfold State.closePick
  dsimp only
  split
  · split
    · exact s.finishReq_apart p _ _
    · split
      · exact s.expireReq_apart p _
      · split
        · split
          · exact (State.Apart.of_quiet (s.toReq_quiet p _ _)).trans (.modReq _ _)
          · exact .refl p _ s
        · exact .refl p _ s
  · split
    · split
      · exact .of_quiet (s.toReq_quiet p _ _)
      · exact .refl p _ s
    · exact .refl p _ s

variable {s p} {st : Step} {o : Outturn}

/-- Results that are withheld are told at most; no request changes (R198). -/
theorem State.closePick_withheld (ho : o.commits = false) (h : Nat) : ((s.closePick p st o).part p).req h = (s.part p).req h := by
  have hkeeps : State.Quiet p s (s.closePick p st o) := by
    unfold State.closePick
    rw [if_neg (by rw [ho]; exact Bool.false_ne_true)]
    split
    · split
      · exact s.toReq_quiet p _ _
      · exact .refl p s
    · exact .refl p s
  exact hkeeps.part_eq (·.req h) fun _ _ _ _ _ => rfl

/-- A request that goes on may at most be marked for a deadline missed (R272). -/
theorem State.closePick_goesOn {r : Req} (ho : o.commits = true) (hc : o.cause = none) (he : o.expires = false)
    (hr : (s.part p).req o.pick.req = some r) :
    ∃ b, ((s.closePick p st o).part p).req o.pick.req = some { r with deadlinePassed := b } := by
  unfold State.closePick
  simp only [ho, hc, he, hr, if_true, Bool.false_eq_true, if_false]
  split
  · refine ⟨true, State.req_modReq_same ?_ _⟩
    exact ((s.toReq_quiet p _ _).part_eq (·.req _) fun _ _ _ _ _ => rfl).trans hr
  · exact ⟨r.deadlinePassed, hr⟩

end

/-! ## What a step's commit changes -/

section Commit

variable {s : State} {p : Part} {st : Step} {x : Pick}

theorem State.outturn_pick (s : State) (p : Part) (st : Step) (x : Pick) : (s.outturn p st x).pick = x := by
  unfold State.outturn
  dsimp only
  split
  · rfl
  · split <;> rfl

/-- The outturns of a step's picks. -/
def State.outturns (s : State) (p : Part) (st : Step) : List Outturn := st.picks.map (s.outturn p st)

theorem State.outturns_reqs (s : State) (p : Part) (st : Step) : (s.outturns p st).map (fun o => o.pick.req) = st.picks.map (·.req) := by
  rw [State.outturns, List.map_map]
  exact List.map_congr_left fun x _ => by rw [Function.comp_apply, State.outturn_pick]

/-- The pages that a step has written for the requests that it commits (R196, R225). -/
def State.takePages (s : State) (p : Part) (st : Step) : State :=
  (st.pageWrites.filter fun w => ((s.outturns p st).filter (·.commits)).any fun o => o.pick.req == w.req).foldl (fun s w => s.commitPage p w) s

/-- The pages of a step, then the records, lengths and chains of its requests (R196, R207). -/
def State.takeResults (s : State) (p : Part) (st : Step) : State :=
  ((s.outturns p st).filter (·.commits)).foldl (fun s o => (s.writeRecords p o).commitReq p o) (s.takePages p st)

/-- A step counted and told, and no longer there (R210, R211, R284). -/
def State.dropStep (s : State) (p : Part) (st : Step) (outs : List Outturn) : State :=
  ((s.modPart p fun q => { (q.returnScratch s.ashList st.picks).countStep st outs s.uptime with step := none }).tellStep p st).settleSlots p

/-- The end of each pick (R198, R271, R272). -/
def State.closePicks (s : State) (p : Part) (st : Step) (outs : List Outturn) : State :=
  outs.foldl (fun s o => s.closePick p st o) (s.meetCloses p outs)

/-- A state before the boundary that follows a commit. -/
def State.committed (s : State) (p : Part) (st : Step) : State :=
  ((s.takeResults p st).dropStep p st (s.outturns p st)).closePicks p st (s.outturns p st)

theorem State.commit_eq (s : State) (p : Part) (st : Step) :
    s.commit p st = ((s.committed p st).afterCommit p (s.outturns p st)).bistSettle := rfl

theorem State.takePages_apart (s : State) (p : Part) (st : Step) : State.Apart p [] s (s.takePages p st) := by
  unfold State.takePages
  generalize st.pageWrites.filter _ = l
  induction l generalizing s with
  | nil => exact .refl p _ s
  | cons w l ih => exact (s.commitPage_apart p w).trans (ih _)

/-- A step's results leave its own books, and change no request that it does not commit. -/
theorem State.takeResults_apart (s : State) (p : Part) (st : Step) :
    State.Apart p (((s.outturns p st).filter (·.commits)).map fun o => o.pick.req) s (s.takeResults p st) :=
  ((s.takePages_apart p st).mono (List.nil_subset _)).trans (.foldl (fun s o => (s.commitPick_grows p o).1) _ _)

theorem State.tellStep_quiet (s : State) (p : Part) (st : Step) : State.Quiet p s (s.tellStep p st) := by
  unfold State.tellStep
  dsimp only
  split
  · exact s.toPart_quiet p _ _
  · exact .refl p s

/-- With the step gone its books are kept: one more committed, and its duration (R193, R210). -/
theorem State.dropStep_books (s : State) (p : Part) (st : Step) (outs : List Outturn) :
    ((s.dropStep p st outs).part p).step = none ∧
      ((s.dropStep p st outs).part p).stepRegs.committed = satAdd (s.part p).stepRegs.committed 1 ∧
      ((s.dropStep p st outs).part p).stepRegs.lastNs = sat32 (s.uptime - st.headUp) ∧
      ∀ h, ((s.dropStep p st outs).part p).req h = (s.part p).req h := by
  have hquiet : State.Quiet p _ (s.dropStep p st outs) := (State.tellStep_quiet _ p st).trans (State.settleSlots_quiet _ p)
  obtain ⟨_, _, _, _, hpart⟩ := hquiet.part
  have hscratch := (s.part p).returnScratch_onlyModels s.ashList st.picks
  rw [hpart, State.part_modPart, hscratch.eq]
  exact ⟨rfl, rfl, rfl, fun _ => rfl⟩

/-- The ends of a step's picks leave its books, and each request but for the end of its own pick. -/
theorem State.closePicks_apart (s : State) (p : Part) (st : Step) (outs : List Outturn) :
    State.Apart p (outs.map fun o => o.pick.req) s (s.closePicks p st outs) :=
  (State.Apart.of_quiet (s.modTaken_quiet p (.part p) _)).trans (.foldl (fun s o => s.closePick_apart p st o) _ _)

/-- Before the boundary that follows a commit no step stands, and its books are kept (R193, R196, R210). -/
theorem State.committed_books (s : State) (p : Part) (st : Step) : ((s.committed p st).part p).step = none ∧
    ((s.committed p st).part p).stepRegs.committed = satAdd (s.part p).stepRegs.committed 1 ∧
    ((s.committed p st).part p).stepRegs.lastNs = sat32 (s.uptime - st.headUp) := by
  have hresults := s.takeResults_apart p st
  obtain ⟨hstep, hcommitted, hlast, -⟩ := (s.takeResults p st).dropStep_books p st (s.outturns p st)
  have hclosed := ((s.takeResults p st).dropStep p st (s.outturns p st)).closePicks_apart p st (s.outturns p st)
  refine ⟨hclosed.step.trans hstep, ?_, ?_⟩
  · rw [State.committed, hclosed.regs, hcommitted, hresults.regs]
  · rw [State.committed, hclosed.regs, hlast, hresults.uptime]

section Request

variable (hn : (st.picks.map (·.req)).Nodup) (hx : x ∈ st.picks)

include hx in
theorem State.mem_outturns : s.outturn p st x ∈ s.outturns p st := List.mem_map_of_mem hx

include hn hx

/-- Of a step's picks, each of another request, one alone ends a request: in a state in which it is as the results left it. -/
theorem State.committed_req : ∃ v : State, (v.part p).req x.req = ((s.takeResults p st).part p).req x.req ∧
    ((s.committed p st).part p).req x.req = ((v.closePick p st (s.outturn p st x)).part p).req x.req := by
  obtain ⟨-, -, -, hdropped⟩ := (s.takeResults p st).dropStep_books p st (s.outturns p st)
  obtain ⟨v, hv, hclosed⟩ := State.Apart.foldl_once (key := fun o : Outturn => o.pick.req) (fun s o => s.closePick_apart p st o)
    (by rw [State.outturns_reqs]; exact hn) (State.mem_outturns (s := s) (p := p) hx)
    (((s.takeResults p st).dropStep p st (s.outturns p st)).meetCloses p (s.outturns p st))
  rw [State.outturn_pick] at hv hclosed
  refine ⟨v, hv.trans (Eq.trans ?_ (hdropped x.req)), hclosed⟩
  exact (State.modTaken_quiet _ p (.part p) _).part_eq (·.req x.req) fun _ _ _ _ _ => rfl

/-- A request whose results are withheld stands as it was (R198). -/
theorem State.committed_withheld (hw : (s.outturn p st x).commits = false) :
    ((s.committed p st).part p).req x.req = (s.part p).req x.req := by
  obtain ⟨v, hv, hclosed⟩ := State.committed_req (s := s) (p := p) hn hx
  rw [hclosed, State.closePick_withheld hw, hv]
  refine (s.takeResults_apart p st).req _ fun hmem => ?_
  obtain ⟨o, ho, hreq⟩ := List.mem_map.1 hmem
  obtain ⟨hmade, hcommits⟩ := List.mem_filter.1 ho
  obtain ⟨y, hy, rfl⟩ := List.mem_map.1 hmade
  rw [State.outturn_pick] at hreq
  obtain rfl : y = x := List.inj_on_of_nodup_map hn hy hx hreq
  rw [hw] at hcommits
  exact Bool.false_ne_true hcommits

/-- A request that commits and goes on is grown by what it yielded (R196, R207). -/
theorem State.committed_grows {r : Req} (hr : (s.part p).req x.req = some r) (hc : (s.outturn p st x).commits = true)
    (hcause : (s.outturn p st x).cause = none) (hexp : (s.outturn p st x).expires = false) :
    ∃ r', ((s.committed p st).part p).req x.req = some r' ∧ r.GrownBy (s.outturn p st x) r' := by
  have hpick := s.outturn_pick p st x
  have hmem : s.outturn p st x ∈ (s.outturns p st).filter (·.commits) := List.mem_filter.2 ⟨State.mem_outturns hx, hc⟩
  have hnodup : (((s.outturns p st).filter (·.commits)).map fun o => o.pick.req).Nodup :=
    ((s.outturns_reqs p st ▸ hn : ((s.outturns p st).map fun o => o.pick.req).Nodup)).sublist (List.filter_sublist.map _)
  obtain ⟨w, hw, htaken⟩ := State.Apart.foldl_once (key := fun o : Outturn => o.pick.req)
    (fun s o => (s.commitPick_grows p o).1) hnodup hmem (s.takePages p st)
  rw [hpick, (s.takePages_apart p st).req _ List.not_mem_nil] at hw
  obtain ⟨r', hr', hgrown⟩ := (w.commitPick_grows p (s.outturn p st x)).2 r (by rw [hpick, hw]; exact hr)
  obtain ⟨v, hv, hclosed⟩ := State.committed_req (s := s) (p := p) hn hx
  have hentry : (v.part p).req (s.outturn p st x).pick.req = some r' := by
    rw [← hr', ← htaken, hpick, hv]
    rfl
  obtain ⟨b, hb⟩ := State.closePick_goesOn (st := st) hc hcause hexp hentry
  rw [hpick] at hb
  exact ⟨_, hclosed.trans hb, hgrown⟩

end Request

end Commit

/-- Settles O48: a commit is its results (`takeResults`), the end of the step's own books (`dropStep`) and the ends of its picks
(`closePicks`), and of a run over picks of different requests each request sees its own alone (`State.Apart.foldl_once`). -/
theorem stepsCommit : Obligations.StepsCommit := by
  unfold Obligations.StepsCommit
  intro s p st hst
  have hexec : exec (.stepCommit p) s = .next (if st.runs.all (·.finished) then s.commit p st else s) := by
    show Host.Outcome.next _ = _
    rw [hst]
  rw [hexec]
  refine ⟨fun h => by rw [h]; rfl, fun h hn => ?_⟩
  obtain ⟨hstep, hcommitted, hlast⟩ := s.committed_books p st
  refine ⟨s.committed p st, _, by rw [h]; rfl, s.commit_eq p st, hstep, hcommitted, hlast, fun x hx r hr =>
    ⟨fun hw => ?_, fun hc hcause hexp => ?_⟩⟩
  · exact (State.committed_withheld hn hx hw).trans hr
  · obtain ⟨r', hr', hsteps, hlength, hwords, hgenerated⟩ := State.committed_grows hn hx hr hc hcause hexp
    rw [State.outturn_pick] at hlength
    exact ⟨r', hr', hsteps, hlength, hwords, hgenerated⟩

end Sys2Proof.Machine

namespace Sys2Proof.Machine

/-! ## Quarantine (R196, R328) -/

theorem Partition.abandonStep_idle {q : Partition} (h : q.step = none) (ash : List Nat) : q.abandonStep ash =
    { q with models := (q.abandonStep ash).models, formed := none, forming := false } := by
  have habandon : q.abandonStep ash = q.dropFormed ash := by rw [Partition.abandonStep, h]
  rw [habandon]
  exact q.dropFormed_eq ash

/-- A step abandoned is counted as such, and the formed one goes with it; the models alone have scratch buffers back (R196). -/
theorem Partition.abandonStep_running {q : Partition} {st : Step} (h : q.step = some st) (ash : List Nat) : q.abandonStep ash =
    { q with models := (q.abandonStep ash).models, formed := none, forming := false, step := none
             stepRegs := { q.stepRegs with abandoned := satAdd q.stepRegs.abandoned 1 } } := by
  rw [Partition.abandonStep, h]
  dsimp only
  rw [Partition.dropFormed_eq, (q.returnScratch_onlyModels ash st.picks).eq]

/-- A partition as its quarantine leaves it, before it is told (R328). -/
def Partition.quarantined (q : Partition) (now : Time) (fatal : Bool) : Partition :=
  { q.parkAll.2 with
    st := .quarantined, stopCause := 3, startPending := false, quarantinedAt := now, flrPending := false
    quarantineClass := if fatal then 3 else 2
    sectionsSince := if q.st ≠ .stopped then 0 else q.sectionsSince
    zeroNs := if q.st ≠ .stopped then 0 else q.zeroNs }

section

variable (s : State) (p : Part)

theorem State.abandonStep_quiet (cause : Nat) :
    State.Quiet p (s.modPart p fun q => q.abandonStep s.ashList) (s.abandonStep p cause) := by
  unfold State.abandonStep
  split
  · exact .refl p _
  · dsimp only
    exact ((State.toPart_quiet _ p _ _).trans (State.settleSlots_quiet _ p)).trans (State.bistSettle_quiet _ p)

theorem State.cancelQueued_quiet : State.Quiet p (s.modPart p Partition.cancelFetches) (s.cancelQueued p) :=
  .of_calm (State.modRepairs_calm _ p _) rfl

/-- A quarantine: the partition as it leaves it, its records, the commands that waited for a stop completed, and after an FLR the reset. -/
theorem State.quarantine_eq (code loc : Nat) (fatal : Bool) (cause : Nat) (ha : (s.part p).st ≠ .absent)
    (hq : (s.part p).st ≠ .quarantined) :
    ∃ u, State.Quiet p (s.modPart p fun q => (q.abandonStep s.ashList).cancelFetches.quarantined s.uptime fatal) u ∧
      s.quarantine p code loc fatal cause = if (s.part p).flrPending then u.resetPart p else u := by
  have hcancelled : State.Quiet p (s.modPart p fun q => (q.abandonStep s.ashList).cancelFetches) ((s.abandonStep p cause).cancelQueued p) := by
    rw [← State.modPart_modPart]
    exact ((s.abandonStep_quiet p cause).modPart fun _ _ _ _ _ => rfl).trans (State.cancelQueued_quiet _ p)
  have hflr : (((s.abandonStep p cause).cancelQueued p).part p).flrPending = (s.part p).flrPending := by
    refine (hcancelled.part_eq (·.flrPending) fun _ _ _ _ _ => rfl).trans ?_
    rw [State.part_modPart]
    cases hst : (s.part p).step with
    | none => rw [Partition.abandonStep_idle hst]; rfl
    | some st => rw [Partition.abandonStep_running hst]; rfl
  have hheld (v : State) (b : Bool) : State.Quiet p v (if b then v.dropHeld p else v) := by
    split
    · exact v.dropHeld_quiet p
    · exact .refl p v
  have hleft := hcancelled.modPart (f := fun q => q.quarantined s.uptime fatal) fun _ _ _ _ _ => rfl
  rw [State.modPart_modPart] at hleft
  have hup : ((s.abandonStep p cause).cancelQueued p).uptime = s.uptime := hcancelled.uptime
  generalize hv : (s.abandonStep p cause).cancelQueued p = v at *
  unfold State.quarantine
  split
  · next h => exact absurd h ha
  · next h => exact absurd h hq
  · dsimp only
    rw [hv, hflr, hup]
    exact ⟨_, ((hleft.trans (hheld _ _)).trans (.of_tells (State.toBoth_tells (.refl _) p _))).trans (State.doneAll_quiet _ p _ _ _), rfl⟩

end

theorem State.alertFault_eq (s : State) (cls : Nat) : s.alertFault cls = { s with pins := (s.alertFault cls).pins } := by
  unfold State.alertFault
  split <;> rfl

/-- A CONTAINED fault is counted, and quarantines a partition that runs and for which no FLR waits (R326, R328). -/
theorem State.contained_eq {s : State} {p : Part} (code loc cause : Nat) (hst : (s.part p).st = .running)
    (hflr : (s.part p).flrPending = false) : State.Quiet p
      (s.modPart p fun q => (({ q with ctr := { q.ctr with fltContained := satAdd q.ctr.fltContained 1 } } : Partition).abandonStep
        s.ashList).cancelFetches.quarantined s.uptime false) (s.contained p code loc cause) := by
  have halert := State.alertFault_eq (s.modPart p fun q => { q with ctr := { q.ctr with fltContained := satAdd q.ctr.fltContained 1 } }) 2
  unfold State.contained
  dsimp only
  generalize State.alertFault _ 2 = v at halert ⊢
  have hpart : v.part p = { s.part p with ctr := { (s.part p).ctr with fltContained := satAdd (s.part p).ctr.fltContained 1 } } := by
    rw [halert]
    exact State.part_modPart _ _ _
  have hash : v.ashList = s.ashList := by rw [halert]; rfl
  have hup : v.uptime = s.uptime := by rw [halert]; rfl
  obtain ⟨u, hu, hquarantine⟩ := v.quarantine_eq p code loc false cause (by rw [hpart]; simp [hst]) (by rw [hpart]; simp [hst])
  have hno : (v.part p).flrPending = false := by rw [hpart]; exact hflr
  rw [hquarantine, hno, if_neg Bool.false_ne_true]
  refine State.Quiet.trans (.of_part ?_ ?_) hu
  · rw [State.part_modPart, State.part_modPart, hpart, hash, hup]
  · exact hup

/-- A partition that runs a step and is quarantined for it: the step is gone and counted as abandoned, and nothing of it is committed
(R196, R199). -/
theorem State.abandonStep_contained {s : State} {p : Part} {st : Step} (cause code loc cause' : Nat) (hstep : (s.part p).step = some st)
    (hst : (s.part p).st = .running) (hflr : (s.part p).flrPending = false) :
    (∃ a b c d ctr models, ((s.abandonStep p cause).contained p code loc cause').part p =
      { (s.part p).cancelFetches.quarantined s.uptime false with
        sub := a, taken := b, fifo := c, rqt := d, ctr := ctr, models := models, formed := none, forming := false, step := none
        stepRegs := { (s.part p).stepRegs with abandoned := satAdd (s.part p).stepRegs.abandoned 1 } }) ∧
      ((s.abandonStep p cause).contained p code loc cause').uptime = s.uptime := by
  have habandon := s.abandonStep_quiet p cause
  have hup : (s.abandonStep p cause).uptime = s.uptime := habandon.uptime
  obtain ⟨_, _, _, _, hpart⟩ := habandon.part
  rw [State.part_modPart, Partition.abandonStep_running hstep] at hpart
  have hcontained := State.contained_eq (s := s.abandonStep p cause) (p := p) code loc cause' (by rw [hpart]; exact hst) (by rw [hpart]; exact hflr)
  refine ⟨?_, hcontained.uptime.trans hup⟩
  obtain ⟨_, _, _, _, hleft⟩ := hcontained.part
  rw [State.part_modPart, hpart, Partition.abandonStep_idle rfl, hup] at hleft
  exact ⟨_, _, _, _, _, _, hleft⟩

/-- What a quarantine leaves of a request: its state, and what its fetch waits for, alone may change (R328). -/
theorem Partition.quarantined_req (q : Partition) (now : Time) (fatal : Bool) {h : Nat} {r : Req} (hr : q.req h = some r) :
    ∃ r', (q.cancelFetches.quarantined now fatal).req h = some r' ∧
      r' = { r with prev := r'.prev, state := r'.state, held := r'.held, queuePos := r'.queuePos, fetchSince := none } := by
  have hcancel : q.cancelFetches.req h = some { r with fetchSince := none } :=
    (lookupA_map q.reqs (fun _ r => { r with fetchSince := none }) h).trans (by rw [show lookupA q.reqs h = some r from hr]; rfl)
  have hpark : (q.cancelFetches.quarantined now fatal).reqs =
      q.cancelFetches.reqs.map fun x => (x.1, if x.2.state.active || x.2.state == .queued then x.2.park false else x.2) := by
    refine List.map_congr_left fun x _ => ?_
    dsimp only
    split <;> rfl
  have hparked := (lookupA_map q.cancelFetches.reqs (fun _ r => if r.state.active || r.state == .queued then r.park false else r) h).trans
    (congrArg (Option.map _) hcancel)
  rw [Partition.req, hpark]
  refine ⟨_, hparked, ?_⟩
  dsimp only
  split <;> rfl

/-! ## Collectives that time out (R199, R210) -/

section Timeout

variable {s : State} {p : Part} {st : Step}

/-- When the oldest program in progress of a step began, from which STEP_PRT_TIMEOUT counts (R199, log 6). -/
def Step.oldest (st : Step) : Option Time := ((st.runs.filter (·.started)).map (·.startedAt)).min?

/-- The state that a collective that times out leaves (R199). -/
def State.timedOut (s : State) (p : Part) (tile : Nat) (t : Time) : State :=
  ((s.passTo (t + (s.part p).stepRegs.timeoutNs)).abandonStep p 1).contained p 0x0002
    (locTile (((s.passTo (t + (s.part p).stepRegs.timeoutNs)).abandonStep p 1).siteNum tile)) 1

theorem exec_collectiveTimeout (tile : Nat) (hstep : (s.part p).step = some st) :
    exec (.collectiveTimeout p tile) s = .next (match st.oldest with
      | some t => s.timedOut p tile t
      | none => s) := by
  show Host.Outcome.next _ = _
  rw [hstep]
  rfl

theorem Step.oldest_none (h : st.runs.all (fun r => !r.started) = true) : st.oldest = none := by
  have hnone : st.runs.filter (·.started) = [] := List.filter_eq_nil_iff.2 (by simpa using h)
  rw [Step.oldest, hnone]
  rfl

theorem Step.oldest_some (h : st.runs.any (fun r => r.started) = true) : ∃ t, st.oldest = some t := by
  obtain ⟨r, hr, hs⟩ := List.any_eq_true.1 h
  exact Option.isSome_iff_exists.1 (List.isSome_min?_of_mem (List.mem_map_of_mem (List.mem_filter.2 ⟨hr, hs⟩)))

/-- A program that began no later than any in progress began no later than the oldest. -/
theorem Step.le_oldest {t : Time} {k : ModelRun} (h : st.oldest = some t)
    (hleast : ∀ x ∈ st.runs, x.started = true → k.startedAt ≤ x.startedAt) : k.startedAt ≤ t := by
  obtain ⟨x, hx, rfl⟩ := List.mem_map.1 (List.min?_mem h)
  obtain ⟨hmem, hs⟩ := List.mem_filter.1 hx
  exact hleast x hmem hs

/-- The partition of a collective that has timed out, and the time (R196, R199, R328). -/
theorem State.timedOut_part (tile : Nat) (t : Time) (hstep : (s.part p).step = some st) (hst : (s.part p).st = .running)
    (hflr : (s.part p).flrPending = false) :
    (∃ now a b c d ctr models, (s.timedOut p tile t).part p = { (s.part p).cancelFetches.quarantined now false with
      sub := a, taken := b, fifo := c, rqt := d, ctr := ctr, models := models, formed := none, forming := false, step := none
      stepRegs := { (s.part p).stepRegs with abandoned := satAdd (s.part p).stepRegs.abandoned 1 } }) ∧
      (s.timedOut p tile t).uptime = (s.passTo (t + (s.part p).stepRegs.timeoutNs)).uptime := by
  have hpart : (s.passTo (t + (s.part p).stepRegs.timeoutNs)).part p = s.part p := congrArg (·.parts.get p) (s.passTo_eq _)
  unfold State.timedOut
  generalize s.passTo (t + (s.part p).stepRegs.timeoutNs) = u at hpart ⊢
  rw [← hpart] at hstep hst hflr
  obtain ⟨hleft, hup⟩ := State.abandonStep_contained 1 0x0002 (locTile ((u.abandonStep p 1).siteNum tile)) 1 hstep hst hflr
  rw [hpart] at hleft
  exact ⟨⟨_, hleft⟩, hup⟩

theorem State.timedOut_sheet (s : State) (p : Part) (tile : Nat) (t : Time) : (s.timedOut p tile t).sheet = s.sheet := by
  rw [State.timedOut, State.contained_sheet, State.abandonStep_sheet, State.passTo_eq]

end Timeout

end Sys2Proof.Machine

namespace Sys2Proof.Machine

/-! ## What a stream leaves of its partition's models (R293, R296, R302) -/

/-- The handles of a partition's held models, and the bytes that it has streamed. -/
def Partition.streams (q : Partition) : List Nat × Nat := (q.models.map (·.handle), q.ctr.streamedBytes)

/-- A change of a model that keeps its handle. -/
def Model.SameHandle (f : Model → Model) : Prop := ∀ m, (f m).handle = m.handle

theorem Model.SameHandle.foldl {α : Type} {f : Model → α → Model} (hf : ∀ x, Model.SameHandle fun m => f m x) (l : List α) :
    Model.SameHandle fun m => l.foldl f m := by
  intro m
  induction l generalizing m with
  | nil => rfl
  | cons x l ih => exact (ih _).trans (hf x m)

theorem Model.giveBlocks_sameHandle (l : List Nat) : Model.SameHandle fun m => m.giveBlocks l := .foldl (f := Model.giveBlock) (fun _ _ => rfl) l

theorem Model.releasePages_sameHandle (l : List Nat) : Model.SameHandle fun m => m.releasePages l :=
  .foldl (f := Model.releasePage) (fun _ _ => rfl) l

theorem Model.dropNode_sameHandle (n : Nat) : Model.SameHandle fun m => m.dropNode n := by
  intro m
  dsimp only
  unfold Model.dropNode
  split
  · rfl
  · split
    · rfl
    · exact (Model.giveBlocks_sameHandle _ _).trans (Model.releasePages_sameHandle _ m)

theorem Model.emptyIndex_sameHandle : Model.SameHandle Model.emptyIndex := by
  intro m
  unfold Model.emptyIndex
  split
  · rfl
  · exact Model.SameHandle.foldl (fun n => Model.dropNode_sameHandle n) _ m

theorem map_handle_modifyFirst {f : Model → Model} (hf : Model.SameHandle f) (test : Model → Bool) (l : List Model) :
    (modifyFirst test f l).map (·.handle) = l.map (·.handle) := by
  induction l with
  | nil => rfl
  | cons m l ih =>
    unfold modifyFirst
    split
    · simp [hf m]
    · simp [ih]

namespace Partition

theorem modModel_streams (q : Partition) (handle : Nat) {f : Model → Model} (hf : Model.SameHandle f) :
    (q.modModel handle f).streams = q.streams := congrArg (·, q.ctr.streamedBytes) (map_handle_modifyFirst hf _ _)

/-- A run of changes of partitions leaves alone what each of them leaves alone. -/
theorem foldl_streams {α : Type} (f : Partition → α → Partition) (hf : ∀ q x, (f q x).streams = q.streams) (l : List α) (q : Partition) :
    (l.foldl f q).streams = q.streams := by
  induction l generalizing q with
  | nil => rfl
  | cons x l ih => exact (ih _).trans (hf q x)

theorem returnScratch_streams (q : Partition) (ash : List Nat) (picks : List Pick) : (q.returnScratch ash picks).streams = q.streams := by
  refine foldl_streams _ (fun q x => q.modModel_streams _ fun m => ?_) _ _
  split <;> rfl

theorem dropFormed_streams (q : Partition) (ash : List Nat) : (q.dropFormed ash).streams = q.streams := by
  unfold dropFormed
  split
  · exact q.returnScratch_streams _ _
  · rfl

theorem abandonStep_streams (q : Partition) (ash : List Nat) : (q.abandonStep ash).streams = q.streams := by
  unfold abandonStep
  split
  · exact q.dropFormed_streams _
  · exact (dropFormed_streams _ _).trans (q.returnScratch_streams _ _)

theorem freeAll_streams (q : Partition) : q.freeAll.streams = q.streams := by
  refine foldl_streams _ (fun q x => ?_) _ _
  refine (modModel_streams _ _ (Model.giveBlocks_sameHandle _)).trans ?_
  refine (modModel_streams _ _ (Model.giveBlocks_sameHandle _)).trans (foldl_streams _ (fun q x => ?_) _ _)
  exact q.modModel_streams _ fun m => (Model.giveBlocks_sameHandle _ _).trans (Model.releasePages_sameHandle _ m)

theorem afterReset_streams (q : Partition) : q.afterReset.streams = q.streams := by
  refine Eq.trans ?_ q.freeAll_streams
  refine congrArg (·, q.freeAll.ctr.streamedBytes) ?_
  exact (List.map_map ..).trans (List.map_congr_left fun m _ => Model.emptyIndex_sameHandle m)

/-- A model held by handle is held, after changes that keep the handles, still. -/
theorem model_of_streams {q q' : Partition} {handle : Nat} {m : Model} (h : q'.streams = q.streams) (hm : q.model handle = some m) :
    ∃ m', q'.model handle = some m' := by
  have hhandles : q'.models.map (·.handle) = q.models.map (·.handle) := congrArg Prod.fst h
  have hmem : handle ∈ q'.models.map (·.handle) := by
    rw [hhandles, ← Partition.handle_of_model hm]
    exact List.mem_map_of_mem (List.mem_of_find?_eq_some hm)
  obtain ⟨m', hm', hh⟩ := List.mem_map.1 hmem
  exact Option.isSome_iff_exists.1 (List.find?_isSome.2 ⟨m', hm', beq_iff_eq.2 hh⟩)

end Partition

section

variable (s : State) (p : Part)

theorem State.Quiet.streams {s t : State} {p : Part} (h : State.Quiet p s t) : (t.part p).streams = (s.part p).streams :=
  h.part_eq (·.streams) fun _ _ _ _ _ => rfl

theorem State.Calm.streams {s t : State} (h : State.Calm s t) (p : Part) : (t.part p).streams = (s.part p).streams :=
  h.part_eq (·.streams) (fun _ _ _ _ => rfl) p

theorem State.streams_of_parts {s t : State} (h : t.parts = s.parts) (p : Part) : (t.part p).streams = (s.part p).streams :=
  congrArg (fun l => (l.get p).streams) h

theorem State.modPart_streams {f : Partition → Partition} (hf : (f (s.part p)).streams = (s.part p).streams) :
    ((s.modPart p f).part p).streams = (s.part p).streams := by rw [State.part_modPart, hf]

theorem State.resetPart_streams : ((s.resetPart p).part p).streams = (s.part p).streams := by
  obtain ⟨u, hcalm, hparts⟩ := s.resetPart_parts p
  exact (State.streams_of_parts hparts p).trans ((u.modPart_streams p (Partition.afterReset_streams _)).trans (hcalm.streams p))

theorem State.quarantine_streams (code loc : Nat) (fatal : Bool) (cause : Nat) :
    ((s.quarantine p code loc fatal cause).part p).streams = (s.part p).streams := by
  by_cases hout : (s.part p).st = .absent ∨ (s.part p).st = .quarantined
  · rcases hout with h | h <;> rw [State.quarantine, h]
  · obtain ⟨ha, hq⟩ := not_or.1 hout
    obtain ⟨u, hu, hquarantine⟩ := s.quarantine_eq p code loc fatal cause ha hq
    have hleft : (u.part p).streams = (s.part p).streams :=
      hu.streams.trans (s.modPart_streams p ((s.part p).abandonStep_streams _))
    rw [hquarantine]
    split
    · exact (u.resetPart_streams p).trans hleft
    · exact hleft

theorem State.contained_streams (code loc cause : Nat) : ((s.contained p code loc cause).part p).streams = (s.part p).streams :=
  (State.quarantine_streams _ p _ _ _ _).trans ((State.alertFault_quiet _ p _).streams.trans (s.modPart_streams p rfl))

theorem State.enqueue_streams (e : FaultEntry) : ((s.enqueue (some p) e).part p).streams = (s.part p).streams := by
  unfold State.enqueue
  dsimp only
  split
  · exact s.modPart_streams p rfl
  · split
    · exact s.modPart_streams p rfl
    · exact (State.contained_streams _ p _ _ _).trans ((s.toBoth_calm p _).streams p)

theorem State.countDeferred_streams : ((s.countDeferred p).part p).streams = (s.part p).streams :=
  (State.alertFault_quiet _ p _).streams.trans (s.modPart_streams p rfl)

theorem State.sourceLost_streams (handle region billet : Nat) :
    ((s.sourceLost p handle region billet).part p).streams = (s.part p).streams := by
  unfold State.sourceLost
  dsimp only
  refine ((State.toOwner_tells (.refl _) _ _).calm.streams p).trans ((State.countDeferred_streams _ p).trans ?_)
  split
  · exact (State.modRepairs_calm _ p _).streams p
  · rfl

theorem State.queueRepair_streams (handle region billet code loc : Nat) :
    ((s.queueRepair p handle region billet code loc).part p).streams = (s.part p).streams := by
  unfold State.queueRepair
  split
  · split
    · rfl
    · exact s.enqueue_streams p _
  · rfl

theorem State.countChunk_streams (c : Nat) (o : Outcome) : ((s.countChunk p c o).part p).streams = (s.part p).streams := by
  unfold State.countChunk
  dsimp only
  split
  · rfl
  · split
    · exact (State.modPart_streams _ p rfl).trans (State.streams_of_parts (s.putChunk_parts _ _ _) p)
    · exact State.streams_of_parts (s.putChunk_parts _ _ _) p
  · split
    · rfl
    · exact s.modPart_streams p rfl
  · split
    · rfl
    · exact ((State.toLadder_tells (.refl _) _ _).calm.streams p).trans ((State.countDeferred_streams _ p).trans (s.modPart_streams p rfl))

theorem State.countChunks_streams (c n : Nat) (errs : Errs) : ((s.countChunks p c n errs).part p).streams = (s.part p).streams := by
  refine State.foldl_unchanged (fun s => (s.part p).streams) _ (fun s e => ?_) _ _
  split
  · exact s.countChunk_streams p _ _
  · rfl

theorem State.peatToSheet_parts (bad : List Nat) (c b n : Nat) : (s.peatToSheet bad c b n).parts = s.parts := by
  induction n generalizing s c b with
  | zero => rfl
  | succ n ih => exact (ih _ _ _).trans (s.putBlocks_parts _ _)

theorem State.told_streams (seg : Option Nat) (kind : Nat) : ((s.told p seg kind).part p).streams = (s.part p).streams := by
  unfold State.told
  split
  · exact (State.fenceViolation_tells (.refl s) p _ _).calm.streams p
  · rfl

theorem State.fencedFetch_streams (bad : List Nat) (c a len : Nat) : ((s.fencedFetch p bad c a len).part p).streams = (s.part p).streams := by
  have htold (rd wr : Option Nat) : (((s.told p rd 0).told p wr 1).part p).streams = (s.part p).streams :=
    (State.told_streams _ p _ _).trans (s.told_streams p _ _)
  unfold State.fencedFetch
  dsimp only
  split
  · exact htold _ _
  · split
    · exact (State.streams_of_parts (State.putBlocks_parts _ _ _) p).trans (htold _ _)
    · exact (State.streams_of_parts (State.peatToSheet_parts _ _ _ _ _) p).trans (htold _ _)

theorem State.streamBillet_streams (m : Model) (errs : Errs) (region b : Nat) :
    ((s.streamBillet p m errs region b).part p).streams = (s.part p).streams := by
  unfold State.streamBillet
  split
  · dsimp only
    generalize hu : State.fencedFetch _ p _ _ _ _ = u
    have hfetched : (u.part p).streams = (s.part p).streams := by
      rw [← hu, State.fencedFetch_streams]
      split
      · rfl
      · exact s.countChunks_streams p _ _ _
    split
    · exact (State.queueRepair_streams _ p _ _ _ _ _).trans ((u.sourceLost_streams p _ _ _).trans hfetched)
    · exact hfetched
  · rfl

/-- The waits for staging looked at: of the partition only the step and its registers change. -/
theorem State.noteStaging_step : ∃ step regs, (s.noteStaging p).part p = { s.part p with step := step, stepRegs := regs } := by
  cases hst : (s.part p).step with
  | none =>
    have hstall : s.noteStall p = s := by rw [State.noteStall, hst]
    refine ⟨_, _, congrArg (·.get p) ((State.noteStreams_parts _ p).trans (congrArg State.parts hstall))⟩
  | some st =>
    obtain ⟨st', regs, hpart, -⟩ := State.noteStaging_part hst
    exact ⟨some st', regs, hpart⟩

end

/-! ## Programs and streams (R296, R297) -/

section Staged

variable {s : State} {p : Part} {m : Model} {handle region : Nat}

/-- Every run that may go on begins its next program; nothing else changes (R297). -/
theorem exec_programStart {st : Step} (hst : (s.part p).step = some st) : exec (.programStart p) s = .next (s.modPart p fun q =>
    { q with step := some { st with
      runs := st.runs.map fun r => if (s.part p).mayStart st r then { r with started := true, startedAt := s.uptime } else r } }) := by
  refine congrArg Host.Outcome.next (State.modPart_congr ?_)
  rw [hst]
  rfl

/-- A partition in whose range a member of a staging set has come to stand, with the others of its set gone from it (R296). -/
def Partition.stand (q : Partition) (handle : Nat) (member : List Nat) (billets : Nat) : Partition :=
  { q.modModel handle fun m =>
      { m with staged := member ++ m.staged.filter fun g => !(member.any fun h => q.sameRange handle g h) } with
    ctr := { q.ctr with streamedBytes := q.ctr.streamedBytes + 4096 * billets } }

/-- The billets of regions streamed in the order of the mover (R293). -/
def State.streamAll (s : State) (p : Part) (m : Model) (errs : Errs) (order : List (Nat × Nat)) : State :=
  order.foldl (fun s x => s.streamBillet p m errs x.1 x.2) s

theorem State.streamAll_streams (s : State) (p : Part) (m : Model) (errs : Errs) (order : List (Nat × Nat)) :
    ((s.streamAll p m errs order).part p).streams = (s.part p).streams := by
  refine State.foldl_unchanged (fun s => (s.part p).streams) _ (fun s x => ?_) _ _
  exact s.streamBillet_streams p m errs _ _

theorem exec_stagingDone (errs : Errs) (hm : (s.part p).model handle = some m) : exec (.stagingDone p handle region errs) s =
    .next (if (s.part p).mayStream m region then
      ((s.streamAll p m errs ((s.part p).moverOrder m (m.pkg.member region))).modPart p fun q =>
        q.stand handle (m.pkg.member region) ((s.part p).moverOrder m (m.pkg.member region)).length).noteStaging p
      else s) := by
  show Host.Outcome.next _ = _
  rw [hm]
  rfl

theorem Partition.stand_staged {q : Partition} (member : List Nat) (billets : Nat) (hm : q.model handle = some m) :
    ∃ m', (q.stand handle member billets).model handle = some m' ∧ ∀ g ∈ member, g ∈ m'.staged := by
  refine ⟨_, (Partition.model_modModel_same q handle ?_).trans (by rw [hm]; rfl), fun g hg => List.mem_append_left _ hg⟩
  exact fun _ => rfl

/-- A member of a staging set that has been streamed stands in its range, its partner with it, and its bytes are counted (R296). -/
theorem State.streamed_stands (errs : Errs) (order : List (Nat × Nat)) (member : List Nat) (billets : Nat)
    (hm : (s.part p).model handle = some m) :
    let t := ((s.streamAll p m errs order).modPart p fun q => q.stand handle member billets).noteStaging p
    (∃ m', (t.part p).model handle = some m' ∧ ∀ g ∈ member, g ∈ m'.staged) ∧
      (t.part p).ctr.streamedBytes = (s.part p).ctr.streamedBytes + 4096 * billets := by
  have hstreams := s.streamAll_streams p m errs order
  obtain ⟨_, hheld⟩ := Partition.model_of_streams hstreams hm
  obtain ⟨_, _, hpart⟩ := ((s.streamAll p m errs order).modPart p fun q => q.stand handle member billets).noteStaging_step p
  rw [State.part_modPart] at hpart
  dsimp only
  rw [hpart]
  refine ⟨Partition.stand_staged member billets hheld, ?_⟩
  exact congrArg (fun x : List Nat × Nat => x.2 + 4096 * billets) hstreams

/-- A partition at the head of a step of a model whose two regions share a staging range, of which the head program reads the first: what
a stream waits for can be met (R296). -/
def Partition.beforeStaging (m : Model) : Partition :=
  { st := .running, models := [m]
    places := [⟨m.handle, 0, 1, false, false, 0, 0, 1, 0, 1⟩, ⟨m.handle, 0, 1, false, false, 1, 0, 1, 1, 1⟩]
    step := some { picks := [], toks := [], runs := [{ handle := m.handle, kind := .own }], headAt := 0, headUp := 0, formats := [] } }

/-- The model: its head program is one RMS_NORM, whose weights lie in region 0. -/
def twoRegions : Model :=
  let region : RegionRec := { kind := 2, format := 0, segData := 512, billets := 1, dataOffset := 0, partner := none32 }
  let norm : DescRec := { op := 2, in0 := 0, in1 := 0, in2 := 0, out := 0, obj0 := 0, obj1 := 0, obj2 := 0, param := List.replicate 44 0 }
  { handle := 5, state := .ready, control := [], written := [], bound := [], channels := [], narrowNext := none, narrow := none, parts := none
    scratch := [], index := none, staged := []
    pkg := {
      model := { layers := 0, hidden := 2, vocab := 8, maxPositions := 64, headProgram := 0, layerProgram := 0, tailProgram := 1
                 draftModel := none32 }
      regions := [region, region], matrices := [], channels := [], shards := [], rotaries := [], slots := [2]
      programs := [(0, 1), (0, 0)], descs := [norm] } }

theorem mayStream_beforeStaging : (Partition.beforeStaging twoRegions).model 5 = some twoRegions ∧
    (Partition.beforeStaging twoRegions).mayStream twoRegions 0 = true := ⟨rfl, by decide⟩

end Staged

/-- Settles O47: what a stream sets off, up to a quarantine, keeps the handles of the held models and the count of streamed bytes
(`Partition.streams`); a timeout's partition is that of `timedOut_part`, whose requests only park. -/
theorem programsAndCollectives : Obligations.ProgramsAndCollectives := by
  unfold Obligations.ProgramsAndCollectives
  refine ⟨fun s p st hst => ⟨_, exec_programStart hst, rfl, fun i hi => State.part_modPart_other _ _ _ _ hi, State.part_modPart _ _ _⟩,
    fun s p handle region errs m hm => ⟨fun hno => ?waits, fun hmay => ?stands⟩,
    fun s p tile st hstep hst hflr => ⟨fun hnone => ?idle, fun hany => ?abandoned⟩⟩
  case waits =>
    rw [exec_stagingDone errs hm, hno]
    rfl
  case stands =>
    obtain ⟨⟨m', hm', hstaged⟩, hbytes⟩ := State.streamed_stands errs ((s.part p).moverOrder m (m.pkg.member region)) (m.pkg.member region)
      ((s.part p).moverOrder m (m.pkg.member region)).length hm
    exact ⟨_, m', by rw [exec_stagingDone errs hm, hmay]; rfl, hm', hstaged, hbytes⟩
  case idle =>
    rw [exec_collectiveTimeout tile hstep, Step.oldest_none hnone]
  case abandoned =>
    obtain ⟨t, ht⟩ := Step.oldest_some hany
    obtain ⟨⟨now, _, _, _, _, _, _, hpart⟩, hup⟩ := State.timedOut_part tile t hstep hst hflr
    refine ⟨s.timedOut p tile t, by rw [exec_collectiveTimeout tile hstep, ht], ?_⟩
    rw [hpart]
    refine ⟨rfl, rfl, rfl, rfl, fun k hk hs hleast hpower => ?_, rfl, rfl, s.timedOut_sheet p tile t, fun h r hr => ?_⟩
    · rw [hup]
      exact (Nat.add_le_add_right (Step.le_oldest ht hleast) _).trans (State.le_uptime_passTo hpower)
    · obtain ⟨r', hr', heq⟩ := (s.part p).quarantined_req now false hr
      refine ⟨r', hr', ?_⟩
      rw [heq]
      exact ⟨rfl, rfl, rfl, rfl⟩

end Sys2Proof.Machine

namespace Sys2Proof.Machine

/-! ## Reserved pages and the indexes of sealed pages (R228, R281, R282) -/

section

variable {s t : State} {p : Part} {c : Cmd} {r : Req}

theorem exec_pageReserve_turn (hc : s.turnOf p c 0x20) : exec (.pageReserve (.part p)) s = .next ((s.pageReserve p c).runBoundary p) := by
  have hcmd : s.atBoundaryCmd p c = s.pageReserve p c := by rw [State.atBoundaryCmd, hc.2.1]; rfl
  exact hcmd ▸ exec_boundaryRow_turn (x := (.pageReserve (.part p), 0x20)) (by simp [boundaryRows]) hc

theorem exec_indexInsert_turn (hc : s.turnOf p c 0x30) : exec (.indexInsert (.part p)) s = .next ((s.indexInsert p c).runBoundary p) := by
  have hcmd : s.atBoundaryCmd p c = s.indexInsert p c := by rw [State.atBoundaryCmd, hc.2.1]; rfl
  exact hcmd ▸ exec_boundaryRow_turn (x := (.indexInsert (.part p), 0x30)) (by simp [boundaryRows]) hc

theorem exec_indexRemove_turn (hc : s.turnOf p c 0x31) : exec (.indexRemove (.part p)) s = .next ((s.indexRemove p c).runBoundary p) := by
  have hcmd : s.atBoundaryCmd p c = s.indexRemove p c := by rw [State.atBoundaryCmd, hc.2.1]; rfl
  exact hcmd ▸ exec_boundaryRow_turn (x := (.indexRemove (.part p), 0x31)) (by simp [boundaryRows]) hc

/-- The only command taken completes at its boundary, and no other follows it there. -/
theorem State.runBoundary_completes (ht : (s.part p).taken = [c]) (status b : Nat) :
    State.Completes s ((s.done (.part p) c status b).runBoundary p) (.part p) c := by
  rw [State.runBoundary_of_empty (State.done_taken_only ht status b)]
  exact s.done_tells _ _ _ _

/-- A command that goes on over several events has no further turn at the boundary (R65). -/
theorem State.runBoundary_running (ht : (t.part p).taken = [c]) (hrun : c.run ≠ .idle) : t.runBoundary p = t := by
  refine State.runBoundary_of_turnless fun d hd => ?_
  rw [ht, List.mem_singleton] at hd
  rw [hd]
  simp [Cmd.turn, hrun]

/-! ### `PAGE_RESERVE` (R228) -/

/-- A reservation for a request that may hold pages, without RELEASE, is what `Partition.reserve` finds (R228). -/
theorem State.pageReserve_reserves (hs : (s.part p).inShare c.request = true) (hr : (s.part p).req c.request = some r)
    (hst : r.state ∈ [ReqState.opened, .prefill, .decode, .pageWait, .parked]) (hf : c.f 20 1 % 2 = 0) :
    s.pageReserve p c = match (s.part p).reserve c.request r (r.length + c.f 16 4) s.ashList with
      | some (q, r') => (s.modPart p fun _ => q.modReq c.request fun _ => r').done (.part p) c stOk (q.reservedCount r')
      | none => s.done (.part p) c stRefused admitNoPages := by
  have hrel : ¬c.f 20 1 % 2 = 1 := by omega
  rw [State.pageReserve, State.named_some hs hr]
  simp only [List.mem_cons, List.not_mem_nil, or_false] at hst
  rcases hst with h | h | h | h | h <;> rw [h] <;> exact if_neg hrel

/-- A request given its pages: the command completes, the entry is the one that the reservation made, the models are those that it has taken
pages of, and other entries stay (R228). -/
theorem State.pageReserve_gives {q : Partition} {r' : Req} {ash : List Nat} {n b : Nat} (ht : (s.part p).taken = [c])
    (hr : (s.part p).req c.request = some r) (hq : (s.part p).reserve c.request r n ash = some (q, r'))
    (hu : t = ((s.modPart p fun _ => q.modReq c.request fun _ => r').done (.part p) c stOk b).runBoundary p) :
    (t.part p).taken = [] ∧ (t.part p).req c.request = some r' ∧ (t.part p).models = q.models ∧
      ∀ h, h ≠ c.request → (t.part p).req h = (s.part p).req h := by
  have hmodels := (Partition.reserve_eq hq).1.eq
  have hreqs : q.reqs = (s.part p).reqs := by rw [hmodels]
  have htaken : q.taken = (s.part p).taken := by rw [hmodels]
  have hpart := State.part_modPart s p fun _ => q.modReq c.request fun _ => r'
  have hdone : ∀ h, (t.part p).req h = (q.modReq c.request fun _ => r').req h := fun h => by
    rw [hu]
    exact (State.runBoundary_done ht htaken rfl).2 h
  have hempty := (State.runBoundary_done (f := fun _ => q.modReq c.request fun _ => r') (status := stOk) (b := b) ht htaken rfl).1
  have hone : ((s.modPart p fun _ => q.modReq c.request fun _ => r').part p).taken = [c] := by rw [hpart]; exact htaken.trans ht
  refine ⟨hu ▸ hempty, ?_, ?_, fun h hh => ?_⟩
  · rw [hdone, Partition.req_modReq_same, Partition.req, hreqs]
    exact congrArg (Option.map fun _ => r') hr
  · rw [hu, State.runBoundary_of_empty (State.done_taken_only hone _ _)]
    refine (State.part_done_eq (·.models) (fun _ _ _ => rfl) _ _ _ _ _).trans ?_
    rw [hpart]
    rfl
  · rw [hdone]
    exact (lookupA_modifyA_other q.reqs (fun _ => r') hh).trans (congrArg (lookupA · h) hreqs)

/-! ### `INDEX_INSERT` (R281) -/

theorem Partition.makeRooms_onlyModels (q : Partition) (h : Nat) (r : Req) (now : Time) (toks : List Nat) (k : Nat) (handles : List Nat) :
    q.OnlyModels (q.makeRooms h r now toks k handles) := by
  unfold Partition.makeRooms
  split
  · exact .foldl _ (fun q _ => q.modModel_onlyModels _ _) _ _
  · exact ⟨rfl⟩

theorem Partition.insertAll_onlyModels {h k made : Nat} {now : Time} {toks handles : List Nat} {q u : Partition}
    {copies : List (Nat × ShardRec × Nat × Nat)} (hu : q.insertAll h r now toks k handles = some (u, copies, made)) : q.OnlyModels u := by
  induction handles generalizing q u copies made with
  | nil =>
    simp only [Partition.insertAll, Option.some.injEq, Prod.mk.injEq] at hu
    rw [← hu.1]
    exact ⟨rfl⟩
  | cons handle rest ih =>
    unfold Partition.insertAll at hu
    split at hu
    · exact absurd hu nofun
    · obtain ⟨x, -, hx⟩ := Option.bind_eq_some_iff.1 hu
      obtain ⟨y, hy, he⟩ := Option.map_eq_some_iff.1 hx
      cases he
      exact (q.modModel_onlyModels _ _).trans (ih hy)

/-- Carving its models' indexes and making room in them is no change of a request (R278, R281). -/
theorem State.insertRooms_onlyModels (s : State) (p : Part) (r : Req) (h k : Nat) (toks : List Nat) :
    (s.part p).OnlyModels ((((s.part p).reqModels r).foldl (fun (q : Partition) x => q.carveIndex x s.ashList) (s.part p)).makeRooms h r
      s.now toks k ((s.part p).reqModels r)) :=
  Partition.OnlyModels.trans (.foldl _ (fun q _ => q.carveIndex_onlyModels _ _) _ _) (Partition.makeRooms_onlyModels ..)

/-- An insert whose tests pass completes at once or waits for its copies, and changes no request (R281). -/
theorem State.indexInsert_inserts (ht : (s.part p).taken = [c]) (hs : (s.part p).inShare c.request = true)
    (hr : (s.part p).req c.request = some r) (hl : r.state.live = true) (hn : c.f 16 4 % 64 = 0) (hlen : c.f 16 4 ≤ r.length)
    (hin : (s.part p).pagesIn r (c.f 16 4) = true) (hx : (s.part p).prefixIndex = true) :
    (((s.indexInsert p c).runBoundary p).part p).reqs = (s.part p).reqs ∧
      ((((s.indexInsert p c).runBoundary p).part p).taken = [] ∨ ∃ copies made,
        (((s.indexInsert p c).runBoundary p).part p).taken = [{ c with started := true, run := .inserting copies made }]) := by
  have hdone (u : State) (hu : u.part p = { s.part p with models := (u.part p).models, ctr := (u.part p).ctr }) (status b : Nat) :
      (((u.done (.part p) c status b).runBoundary p).part p).reqs = (s.part p).reqs ∧
        (((u.done (.part p) c status b).runBoundary p).part p).taken = [] := by
    have htaken : (u.part p).taken = [c] := by rw [hu]; exact ht
    rw [State.runBoundary_of_empty (State.done_taken_only htaken _ _)]
    exact ⟨(State.part_done_eq (·.reqs) (fun _ _ _ => rfl) _ _ _ _ _).trans (by rw [hu]), State.done_taken_only htaken _ _⟩
  have hrooms := s.insertRooms_onlyModels p r c.request (c.f 16 4 / 64) (r.chain.words.take (c.f 16 4))
  rw [State.indexInsert, State.named_some hs hr]
  simp only [hl, hn, hin, hx, Bool.true_eq_false, if_false, ne_eq, not_true_eq_false, false_or, Nat.not_lt.2 hlen]
  generalize Partition.makeRooms _ _ _ _ _ _ _ = q at hrooms ⊢
  split
  · next hnone =>
    obtain ⟨hreqs, htaken⟩ := hdone (s.modPart p fun _ => q) (by rw [State.part_modPart, hrooms.eq]) stRefused admitNoPages
    exact ⟨hreqs, .inl htaken⟩
  · next u copies made hu =>
    have hmodels := hrooms.trans (Partition.insertAll_onlyModels hu)
    have hcopied := State.OnlyCopied.foldl (p := p) (fun s (x : Nat × ShardRec × Nat × Nat) => s.copyPage_onlyCopied p x.1 x.2.1 x.2.2.1 x.2.2.2)
      copies (s.modPart p fun _ => u)
    generalize copies.foldl _ (s.modPart p fun _ => u) = v at hcopied ⊢
    have hv : v.part p = { s.part p with models := (v.part p).models, ctr := (v.part p).ctr } := by
      rw [hcopied.part, State.part_modPart, hmodels.eq]
    split
    · obtain ⟨hreqs, htaken⟩ := hdone v hv stOk made
      exact ⟨hreqs, .inl htaken⟩
    · have hwaits : ((v.modCmd (.part p) c.id fun c => { c with
          started := true, run := .inserting (copies.map fun x => (x.2.2.1, x.2.2.2)) made }).part p) =
          { v.part p with taken := [{ c with started := true, run := .inserting (copies.map fun x => (x.2.2.1, x.2.2.2)) made }] } := by
        rw [State.part_modCmd, hv, ht, modifyFirst, if_pos (beq_self_eq_true c.id)]
      rw [State.runBoundary_running (congrArg Partition.taken hwaits) nofun, hwaits]
      exact ⟨by rw [hv], .inr ⟨_, _, rfl⟩⟩

/-- Without the feature of an index an insert whose other tests pass is refused (R281). -/
theorem State.indexInsert_featureless (hs : (s.part p).inShare c.request = true)
    (hr : (s.part p).req c.request = some r) (hl : r.state.live = true) (hn : c.f 16 4 % 64 = 0) (hlen : c.f 16 4 ≤ r.length)
    (hin : (s.part p).pagesIn r (c.f 16 4) = true) (hx : (s.part p).prefixIndex = false) :
    s.indexInsert p c = s.done (.part p) c stRefused admitNoPages := by
  rw [State.indexInsert, State.named_some hs hr]
  simp [hl, hn, hin, hx, Nat.not_lt.2 hlen]

/-- An insert whose copies have ended completes (R281). -/
theorem exec_indexCopyDone_only {copies : List (Nat × Nat)} {made : Nat} (ht : (s.part p).taken = [c]) (hrun : c.run = .inserting copies made) :
    exec (.indexCopyDone p) s = .next (s.done (.part p) c stOk made) := by
  simp [exec, execIndexCopyDone, ht, hrun]

/-! ### `INDEX_REMOVE` (R282) -/

/-- A model of which nothing but its pools and its index has changed. -/
structure Model.OnlyTables (m n : Model) : Prop where
  eq : n = { m with parts := n.parts, index := n.index }

theorem Model.OnlyTables.trans {m n k : Model} (h : m.OnlyTables n) (h' : n.OnlyTables k) : m.OnlyTables k where
  eq := by
    have e := h'.eq
    rw [h.eq] at e
    exact e

theorem Model.OnlyTables.foldl {α : Type} {f : Model → α → Model} (hf : ∀ (m : Model) x, m.OnlyTables (f m x)) (l : List α) (m : Model) :
    m.OnlyTables (l.foldl f m) := by
  induction l generalizing m with
  | nil => exact ⟨rfl⟩
  | cons x l ih => exact (hf m x).trans (ih _)

/-- A node returned changes its model's pools and index (R278). -/
theorem Model.dropNode_onlyTables (m : Model) (n : Nat) : m.OnlyTables (m.dropNode n) := by
  have hpools (pages blocks : List Nat) : m.OnlyTables ((m.releasePages pages).giveBlocks blocks) :=
    Model.OnlyTables.trans (.foldl (fun _ _ => ⟨rfl⟩) _ _) (.foldl (f := Model.giveBlock) (fun _ _ => ⟨rfl⟩) _ _)
  unfold Model.dropNode
  split
  · exact ⟨rfl⟩
  · split
    · exact ⟨rfl⟩
    · exact (hpools _ _).trans ⟨rfl⟩

theorem Model.emptyIndex_onlyTables (m : Model) : m.OnlyTables m.emptyIndex := by
  unfold Model.emptyIndex
  split
  · exact ⟨rfl⟩
  · exact .foldl Model.dropNode_onlyTables _ _

theorem ne_of_lookupA_none {α β : Type} [DecidableEq α] {l : List (α × β)} {a : α} (h : lookupA l a = none) : ∀ x ∈ l, x.1 ≠ a := by
  induction l with
  | nil => exact fun _ hx => absurd hx List.not_mem_nil
  | cons y l ih =>
    obtain ⟨k, v⟩ := y
    rw [lookupA] at h
    split at h
    · exact absurd h nofun
    · next hk => exact List.forall_mem_cons.2 ⟨hk, ih h⟩

/-- An index that a node has left holds the others alone (R282). -/
theorem Model.dropNode_index {m : Model} {ix : Index} (hm : m.index = some ix) (n : Nat) :
    ∃ ix', (m.dropNode n).index = some ix' ∧ ∀ x ∈ ix'.nodes, x ∈ ix.nodes ∧ x.1 ≠ n := by
  unfold Model.dropNode
  rw [hm]
  dsimp only
  split
  · next hnone => exact ⟨ix, hm, fun x hx => ⟨hx, ne_of_lookupA_none hnone x hx⟩⟩
  · exact ⟨_, rfl, fun x hx => (List.mem_filter.1 hx).imp_right of_decide_eq_true⟩

theorem Model.foldl_dropNode_index {m : Model} {ix : Index} (hm : m.index = some ix) (l : List Nat) :
    ∃ ix', (l.foldl Model.dropNode m).index = some ix' ∧ ∀ x ∈ ix'.nodes, x ∈ ix.nodes ∧ x.1 ∉ l := by
  induction l generalizing m ix with
  | nil => exact ⟨ix, hm, fun x hx => ⟨hx, List.not_mem_nil⟩⟩
  | cons n l ih =>
    obtain ⟨ix₁, hm₁, h₁⟩ := Model.dropNode_index hm n
    obtain ⟨ix₂, hm₂, h₂⟩ := ih hm₁
    refine ⟨ix₂, hm₂, fun x hx => ?_⟩
    obtain ⟨hx₁, hl⟩ := h₂ x hx
    obtain ⟨hmem, hn⟩ := h₁ x hx₁
    exact ⟨hmem, List.not_mem_cons_of_ne_of_not_mem hn hl⟩

/-- An emptied index has no node (R278). -/
theorem Model.emptyIndex_nodes (m : Model) (ix : Index) (h : m.emptyIndex.index = some ix) : ix.nodes = [] := by
  unfold Model.emptyIndex at h
  split at h
  · next hnone => exact absurd (hnone.symm.trans h) nofun
  · next old hm =>
    obtain ⟨ix', hix, hnodes⟩ := Model.foldl_dropNode_index hm (old.nodes.map (·.1))
    cases hix.symm.trans h
    refine List.eq_nil_iff_forall_not_mem.2 fun x hx => ?_
    obtain ⟨hold, hgone⟩ := hnodes x hx
    exact hgone (List.mem_map_of_mem hold)

/-- INDEX_REMOVE without tokens empties the index of its model and completes (R282). -/
theorem State.indexRemove_all {m : Model} (hm : (s.part p).ready c.model = some m) (hn : c.f 24 4 = 0) :
    s.indexRemove p c = (s.modPart p fun q => q.modModel c.model Model.emptyIndex).done (.part p) c stOk := by
  simp [State.indexRemove, hm, hn]

theorem Partition.ready_iff {q : Partition} {handle : Nat} {m : Model} :
    q.ready handle = some m ↔ q.model handle = some m ∧ m.state = .ready := by
  simp only [Partition.ready, Option.bind_eq_some_iff, Option.ite_none_right_eq_some, Option.some.injEq]
  exact ⟨fun ⟨_, hm, hready, he⟩ => he ▸ ⟨hm, hready⟩, fun ⟨hm, hready⟩ => ⟨m, hm, hready, rfl⟩⟩

end

/-- Settles O59: each command at its boundary is a change of its partition's models, of the request's entry where it is PAGE_RESERVE, and
then complete or, with copies to make, running. -/
theorem pagesAndIndexes : Obligations.PagesAndIndexes := by
  unfold Obligations.PagesAndIndexes
  refine ⟨fun s p c r hc hs hr hst hf => ⟨fun q r' hq => ?given, fun hnone => ?short⟩,
    fun s p c r hc hs hr hl hn hlen hin => ⟨fun hx => ?featureless, fun hx => ?inserted⟩,
    fun s p c copies made ht hrun => ⟨_, exec_indexCopyDone_only ht hrun, s.done_tells _ _ _ _⟩,
    fun s p c m hc hm hn => ?removed⟩
  case given =>
    refine ⟨_, exec_pageReserve_turn hc, State.pageReserve_gives (b := q.reservedCount r') hc.1 hr hq ?_⟩
    rw [State.pageReserve_reserves hs hr hst hf, hq]
  case short =>
    refine ⟨_, exec_pageReserve_turn hc, ?_⟩
    rw [State.pageReserve_reserves hs hr hst hf, hnone]
    exact State.runBoundary_completes hc.1 _ _
  case featureless =>
    refine ⟨_, exec_indexInsert_turn hc, ?_⟩
    rw [State.indexInsert_featureless hs hr hl hn hlen hin hx]
    exact State.runBoundary_completes hc.1 _ _
  case inserted => exact ⟨_, exec_indexInsert_turn hc, State.indexInsert_inserts hc.1 hs hr hl hn hlen hin hx⟩
  case removed =>
    obtain ⟨hmodel, hready⟩ := Partition.ready_iff.1 hm
    have htables := m.emptyIndex_onlyTables.eq
    have hone : ((s.modPart p fun q => q.modModel c.model Model.emptyIndex).part p).taken = [c] := by rw [State.part_modPart]; exact hc.1
    have hpart {α : Type} (g : Partition → α) (hg : ∀ (q : Partition) a b, g { q with sub := a, taken := b } = g q) :
        g ((((s.modPart p fun q => q.modModel c.model Model.emptyIndex).done (.part p) c stOk).runBoundary p).part p) =
          g ((s.part p).modModel c.model Model.emptyIndex) := by
      rw [State.runBoundary_of_empty (State.done_taken_only hone _ _), State.part_done_eq g hg, State.part_modPart]
    refine ⟨_, m.emptyIndex, exec_indexRemove_turn hc, ?_⟩
    rw [State.indexRemove_all hm hn]
    refine ⟨(State.runBoundary_done hc.1 rfl rfl).1, ?_, m.emptyIndex_nodes, by rw [htables], by rw [htables]; exact hready,
      hpart (·.reqs) fun _ _ _ => rfl⟩
    rw [hpart (·.model c.model) fun _ _ _ => rfl, Partition.model_modModel_same _ _ Model.emptyIndex_sameHandle, hmodel]
    rfl

end Sys2Proof.Machine

namespace Sys2Proof.Machine

/-! ## What a fault spares

A fault that a read meets, all that it sets off up to a quarantine (R326-R348), and what follows a copy of a page (R231-R234) leave alone
what memory holds, which of it a partition may use, and what its reads and copies have counted. -/

/-- Of a partition: its fence, the poisoned blocks that its reads have met, and the pages that it has spilled and fetched. -/
def Partition.spared (q : Partition) : Option Fence × W32 × W32 × W32 := (q.fence, q.ctr.memPoison, q.kv.spill, q.kv.fetch)

/-- Both memories, the poison in the sheet, and what is spared of every partition stand as they were. -/
structure State.Spares (s t : State) : Prop where
  sheet : t.sheet = s.sheet
  peat : t.peat = s.peat
  poisoned : t.poisoned = s.poisoned
  parts : ∀ i, (t.part i).spared = (s.part i).spared

theorem Partition.OnlyModels.spared {q r : Partition} (h : q.OnlyModels r) : r.spared = q.spared := by rw [h.eq]; rfl

namespace State.Spares

variable {s₀ s t : State}

theorem refl (s : State) : State.Spares s s := ⟨rfl, rfl, rfl, fun _ => rfl⟩

theorem trans (h : State.Spares s₀ s) (k : State.Spares s t) : State.Spares s₀ t :=
  ⟨k.sheet.trans h.sheet, k.peat.trans h.peat, k.poisoned.trans h.poisoned, fun i => (k.parts i).trans (h.parts i)⟩

/-- A change of none of these fields. -/
theorem upd (h : State.Spares s₀ s) (hs : t.sheet = s.sheet) (hm : t.peat = s.peat) (hb : t.poisoned = s.poisoned) (hp : t.parts = s.parts) :
    State.Spares s₀ t :=
  h.trans ⟨hs, hm, hb, fun i => by rw [State.part, State.part, hp]⟩

theorem ite {c : Prop} [Decidable c] (ht : State.Spares s₀ s) (hu : State.Spares s₀ t) : State.Spares s₀ (if c then s else t) := by
  split
  · exact ht
  · exact hu

theorem foldl {α : Type} {f : State → α → State} {l : List α} (hf : ∀ s x, State.Spares s₀ s → State.Spares s₀ (f s x))
    (h : State.Spares s₀ s) : State.Spares s₀ (l.foldl f s) := by
  induction l generalizing s with
  | nil => exact h
  | cons x l ih => exact ih (hf s x h)

theorem tells (h : State.Spares s₀ s) (k : State.Tells s t) : State.Spares s₀ t :=
  h.trans ⟨k.eq (·.sheet) fun _ _ _ _ _ => rfl, k.eq (·.peat) fun _ _ _ _ _ => rfl, k.eq (·.poisoned) fun _ _ _ _ _ => rfl,
    fun i => by rw [k.parts i]; rfl⟩

/-- A change of a partition that spares it. -/
theorem modPart {p : Part} {f : Partition → Partition} (h : State.Spares s₀ s) (hf : (f (s.part p)).spared = (s.part p).spared) :
    State.Spares s₀ (s.modPart p f) := by
  refine h.trans ⟨rfl, rfl, rfl, fun i => ?_⟩
  by_cases hi : i = p
  · rw [hi, State.part_modPart, hf]
  · rw [State.part_modPart_other _ _ _ _ hi]

theorem modModel {p : Part} {handle : Nat} {f : Model → Model} (h : State.Spares s₀ s) :
    State.Spares s₀ (s.modPart p fun q => q.modModel handle f) := h.modPart rfl

end State.Spares

section

variable {s₀ s : State} (h : State.Spares s₀ s) (p : Part)
include h

theorem State.toPart_spares (e : Fin 16) (v : Ev) : State.Spares s₀ (s.toPart p e v) := h.tells (State.toPart_tells (.refl s) p e v)

theorem State.toOwner_spares (part : Option Part) (v : Ev) : State.Spares s₀ (s.toOwner part v) := h.tells (State.toOwner_tells (.refl s) part v)

theorem State.toBoth_spares (v : Ev) : State.Spares s₀ (s.toBoth p v) := h.tells (State.toBoth_tells (.refl s) p v)

theorem State.toReq_spares (n : Nat) (v : Ev) : State.Spares s₀ (s.toReq p n v) := h.tells (State.toReq_tells (.refl s) p n v)

theorem State.toLadder_spares (touch : List Part) (v : Ev) : State.Spares s₀ (s.toLadder touch v) :=
  h.tells (State.toLadder_tells (.refl s) touch v)

theorem State.modReq_spares (n : Nat) (f : Req → Req) : State.Spares s₀ (s.modReq p n f) := h.modPart rfl

theorem State.modPage_spares (handle page : Nat) (f : PageDesc → PageDesc) : State.Spares s₀ (s.modPage p handle page f) := h.modPart rfl

theorem State.modRepairs_spares (f : List Repair → List Repair) : State.Spares s₀ (s.modRepairs p f) :=
  (h.modPart (p := p) (f := fun q => { q with fifo := followRepairs p (f s.repairs) q.fifo }) rfl).upd rfl rfl rfl rfl

theorem State.modFifo_spares (o : Option Part) (f : List FaultEntry → List FaultEntry) : State.Spares s₀ (s.modFifo o f) := by
  cases o with
  | none => exact h.upd rfl rfl rfl rfl
  | some p => exact h.modPart rfl

theorem State.modDie_spares (k : Nat) (f : DieSt → DieSt) : State.Spares s₀ (s.modDie k f) := h.upd rfl rfl rfl rfl

theorem State.arrive_spares (o : Option Part) (k : XferKind) : State.Spares s₀ (s.arrive o k) := h.upd rfl rfl rfl rfl

theorem State.ashRecord_spares (type loc arg : Nat) : State.Spares s₀ (s.ashRecord type loc arg) := h.upd rfl rfl rfl rfl

theorem State.alertFault_spares (cls : Nat) : State.Spares s₀ (s.alertFault cls) := .ite (h.upd rfl rfl rfl rfl) h

theorem State.countDeferred_spares : State.Spares s₀ (s.countDeferred p) := State.alertFault_spares (h.modPart rfl) 1

/-! ### A quarantine (R196, R328) -/

theorem State.modTaken_spares (src : Src) (f : List Cmd → List Cmd) : State.Spares s₀ (s.modTaken src f) := by
  cases src with
  | owner => exact h.upd rfl rfl rfl rfl
  | part p => exact h.modPart rfl

theorem State.doneAll_spares (src : Src) (which : Cmd → Bool) (status : Nat) : State.Spares s₀ (s.doneAll src which status) :=
  .foldl (fun s c h => (State.modTaken_spares h src _).tells (s.done_tells src c status c.written)) h

theorem State.beginSlot_spares (i : Nat) : State.Spares s₀ (s.beginSlot i) := by
  unfold State.beginSlot
  split
  · exact h
  · split
    · exact h
    · refine .modPart ?_ rfl
      exact h.upd rfl rfl rfl rfl

theorem State.endSlot_spares (i : Nat) : State.Spares s₀ (s.endSlot i) := by
  unfold State.endSlot
  split
  · exact h
  · exact .foldl (fun s i h => State.beginSlot_spares h i) (.ite (h.upd rfl rfl rfl rfl) (h.upd rfl rfl rfl rfl))

theorem State.settleSlots_spares : State.Spares s₀ (s.settleSlots p) := by
  refine .foldl (fun s _ h => State.endSlot_spares (State.toPart_spares (.modPart ?_ rfl) p _ _) _) h
  exact h.upd rfl rfl rfl rfl

theorem State.bistSettle_spares : State.Spares s₀ s.bistSettle := .ite (h.upd rfl rfl rfl rfl) h

omit h in
theorem Partition.dropFormed_spared (q : Partition) (ash : List Nat) : (q.dropFormed ash).spared = q.spared := by
  rw [Partition.dropFormed_eq]
  rfl

omit h in
theorem Partition.abandonStep_spared (q : Partition) (ash : List Nat) : (q.abandonStep ash).spared = q.spared := by
  unfold Partition.abandonStep
  split
  · exact q.dropFormed_spared ash
  · exact (Partition.dropFormed_spared _ ash).trans (q.returnScratch_onlyModels ash _).spared

theorem State.abandonStep_spares (cause : Nat) : State.Spares s₀ (s.abandonStep p cause) := by
  have hq : State.Spares s₀ (s.modPart p fun q => q.abandonStep s.ashList) := h.modPart (Partition.abandonStep_spared _ _)
  unfold State.abandonStep
  split
  · exact hq
  · exact State.bistSettle_spares (State.settleSlots_spares (State.toPart_spares hq p _ _) p)

theorem State.dropHeld_spares : State.Spares s₀ (s.dropHeld p) := by
  unfold State.dropHeld
  split
  · exact h.upd rfl rfl rfl rfl
  · exact h

theorem State.pumpReads_spares (i : Port) : State.Spares s₀ (s.pumpReads i) := .foldl (fun _ _ h => .ite (h.upd rfl rfl rfl rfl) h) h

theorem State.dropReads_spares (gone : HostRead → Bool) : State.Spares s₀ (s.dropReads gone) :=
  .foldl (fun _ i h => State.pumpReads_spares h i) (h.upd rfl rfl rfl rfl)

omit h in
theorem Partition.afterReset_spared (q : Partition) : q.afterReset.spared = q.spared := by
  rw [Partition.afterReset, Partition.freeAll_eq]
  rfl

theorem State.resetPart_spares : State.Spares s₀ (s.resetPart p) := by
  have hreset : State.Spares s₀ ((s.doneAll (.part p) (fun c => c.run != .testing) stAborted).modPart p Partition.afterReset) :=
    .modPart (State.doneAll_spares h _ _ _) (Partition.afterReset_spared _)
  refine State.dropReads_spares ?_ _
  exact hreset.upd rfl rfl rfl rfl

theorem State.cancelQueued_spares : State.Spares s₀ (s.cancelQueued p) := State.modRepairs_spares (h.modPart rfl) p _

theorem State.quarantine_spares (code loc : Nat) (fatal : Bool) (cause : Nat) : State.Spares s₀ (s.quarantine p code loc fatal cause) := by
  have hcancelled := State.cancelQueued_spares (State.abandonStep_spares h p cause) p
  unfold State.quarantine
  split
  · exact h
  · exact h
  · have hparked := hcancelled.modPart (p := p) (f := fun q => { q.parkAll.2 with
      st := .quarantined, stopCause := 3, startPending := false, quarantinedAt := ((s.abandonStep p cause).cancelQueued p).uptime
      flrPending := false, quarantineClass := if fatal then 3 else 2
      sectionsSince := if q.st ≠ .stopped then 0 else q.parkAll.2.sectionsSince
      zeroNs := if q.st ≠ .stopped then 0 else q.parkAll.2.zeroNs }) rfl
    have htold := State.doneAll_spares (State.toBoth_spares
      (.ite (c := (((s.abandonStep p cause).cancelQueued p).part p).flrPending = true) (State.dropHeld_spares hparked p) hparked) p
      { code := 0x3030, sev := if fatal then 5 else 4, a := code, b := loc }) (.part p) (fun c => c.run == .stopping) stOk
    exact .ite (State.resetPart_spares htold p) htold

theorem State.contained_spares (code loc cause : Nat) : State.Spares s₀ (s.contained p code loc cause) :=
  State.quarantine_spares (State.alertFault_spares (h.modPart rfl) 2) p code loc false cause

theorem State.fatalFault_spares (code loc : Nat) : State.Spares s₀ (s.fatalFault code loc) := by
  refine .foldl (fun _ p h => State.quarantine_spares h p code loc true 2) (State.alertFault_spares ?_ 3)
  exact h.upd rfl rfl rfl rfl

/-! ### The FIFOs, weight errors and cache errors (R300, R343-R346) -/

theorem State.enqueue_spares (o : Option Part) (e : FaultEntry) : State.Spares s₀ (s.enqueue o e) := by
  unfold State.enqueue
  refine .ite (State.modFifo_spares h o _) (.ite (State.modFifo_spares h o _) ?_)
  split
  · exact State.contained_spares (State.toBoth_spares h _ _) _ _ _ _
  · exact State.fatalFault_spares (State.toOwner_spares h _ _) _ _

theorem State.escalate_spares (touch : List Part) (rung loc next : Nat) : State.Spares s₀ (s.escalate touch rung loc next) :=
  State.toLadder_spares (State.modFifo_spares h _ _) _ _

theorem State.toConcerned_spares (handle region code sev b ownerB : Nat) : State.Spares s₀ (s.toConcerned p handle region code sev b ownerB) := by
  unfold State.toConcerned
  refine State.toOwner_spares (.foldl (fun s x h => ?_) h) _ _
  exact .ite h (State.toPart_spares h x.1 0 _)

theorem State.sourceLost_spares (handle region billet : Nat) : State.Spares s₀ (s.sourceLost p handle region billet) := by
  unfold State.sourceLost
  refine State.toOwner_spares (State.countDeferred_spares ?_ p) _ _
  split
  · exact State.modRepairs_spares h p _
  · exact h.upd rfl rfl rfl rfl

theorem State.queueRepair_spares (handle region billet code loc : Nat) : State.Spares s₀ (s.queueRepair p handle region billet code loc) := by
  unfold State.queueRepair
  split
  · exact .ite h (State.enqueue_spares h _ _)
  · exact h

theorem State.weightError_spares (handle region billet : Nat) : State.Spares s₀ (s.weightError p handle region billet) := by
  unfold State.weightError
  dsimp only
  split
  · exact h
  · refine .ite h (.ite ?_ (.ite (State.sourceLost_spares h p _ _ _) ?_))
    · refine State.toConcerned_spares (.modPart (State.arrive_spares ?_ _ _) rfl) p _ _ _ _ _ _
      exact h.upd rfl rfl rfl rfl
    · refine State.toConcerned_spares (State.countDeferred_spares ?_ p) p _ _ _ _ _ _
      exact h.upd rfl rfl rfl rfl

theorem State.faultReq_spares (n : Nat) (v : Ev) : State.Spares s₀ (s.faultReq p n v) := State.modReq_spares (State.toReq_spares h p n v) p n _

theorem State.losePositions_spares (n : Nat) (lost : List (Nat × Nat)) (what : Option LostData) (loc : Nat) :
    State.Spares s₀ (s.losePositions p n lost what loc) := by
  unfold State.losePositions
  split
  · split
    · exact State.modReq_spares h p n _
    · exact h
  · refine State.enqueue_spares (State.countDeferred_spares (State.faultReq_spares (.modPart ?_ rfl) p n _) p) _ _
    exact State.modReq_spares h p n _

theorem State.loseEntries_spares (n : Nat) (lost : List (Nat × Nat × Nat)) (what : Option LostData) (loc : Nat) :
    State.Spares s₀ (s.loseEntries p n lost what loc) := by
  unfold State.loseEntries
  split
  · exact h
  · refine State.losePositions_spares (.foldl (fun s x h => ?_) h) p _ _ _ _
    split
    · exact State.modPage_spares h p _ _ _
    · exact h

theorem State.losePages_spares (handle : Nat) (pages : List Nat) (loc : Nat) : State.Spares s₀ (s.losePages p handle pages loc) :=
  .modModel (.foldl (fun _ _ h => State.modPage_spares h p handle _ _)
    (.foldl (fun _ _ h => .ite h (State.loseEntries_spares h p _ _ _ _)) h))

theorem State.loseBlocks_spares (handle : Nat) (blocks : List Nat) (loc : Nat) : State.Spares s₀ (s.loseBlocks p handle blocks loc) := by
  refine .modModel (.foldl (fun s x h => ?_) h)
  dsimp only
  generalize hu : List.foldl _ s _ = u
  have hlists : State.Spares s₀ u := by
    rw [← hu]
    refine .foldl (fun s y h => .ite ?_ h) h
    split
    · exact State.loseEntries_spares h p _ _ _ _
    · exact h
  refine .ite ?_ hlists
  split
  · refine State.losePositions_spares ?_ p _ _ _ _
    split
    · exact State.loseEntries_spares hlists p _ _ _ _
    · exact hlists
  · split
    · exact State.loseEntries_spares hlists p _ _ _ _
    · exact hlists

theorem State.loseInPage_spares (handle page : Nat) (offs : List Nat) (loc : Nat) : State.Spares s₀ (s.loseInPage p handle page offs loc) := by
  unfold State.loseInPage
  dsimp only
  split
  · split
    · exact h
    · refine .ite h ?_
      split
      · exact State.loseEntries_spares h p _ _ _ _
      · exact .modModel (State.modPage_spares h p _ _ _)
  · exact h

theorem State.loseInSlot_spares (m : Model) (i k off loc : Nat) : State.Spares s₀ (s.loseInSlot p m i k off loc) := by
  unfold State.loseInSlot
  split
  · exact h
  · exact State.loseInPage_spares h p _ _ _ _

theorem State.loseHeld_spares (addr : Nat) : State.Spares s₀ (s.loseHeld addr) := by
  refine .foldl (fun s p h => .foldl (fun s x h => ?_) h) h
  split
  · exact State.loseInSlot_spares h p _ _ _ _ _
  · exact h

theorem State.loseArrived_spares (handle page : Nat) : State.Spares s₀ (s.loseArrived p handle page) := by
  unfold State.loseArrived
  split
  · exact h
  · exact State.loseInPage_spares h p _ _ _ _

end

end Sys2Proof.Machine

namespace Sys2Proof.Machine

section

variable {s₀ s : State} (h : State.Spares s₀ s) (p : Part)
include h

theorem State.loseAt_spares (addr : Nat) : State.Spares s₀ (s.loseAt addr) := by
  refine .foldl (fun s p h => .foldl (fun s x h => ?_) h) h
  dsimp only
  split
  · exact State.queueRepair_spares (State.weightError_spares h p _ _ _) p _ _ _ _ _
  · exact State.loseInSlot_spares h p _ _ _ _ _
  · split
    · exact h
    · exact .ite (State.losePages_spares h p _ _ _) (.ite (State.losePages_spares h p _ _ _)
        (.ite (State.losePages_spares h p _ _ _) (.ite (State.loseBlocks_spares h p _ _ _) h)))
  · split
    · exact h.modModel
    · exact h
  · exact h

/-! ### Spills, moves and relief (R231-R234, R333, R334) -/

theorem State.startSpill_spares {t : State} {handle page : Nat} (ht : s.startSpill p handle page = some t) : State.Spares s₀ t := by
  obtain ⟨area, -, rfl⟩ := Option.map_eq_some_iff.1 ht
  exact State.arrive_spares (.modPart (State.modPage_spares h p _ _ _) rfl) _ _

theorem State.startMoves_spares : State.Spares s₀ (s.startMoves p) := by
  refine .foldl (fun s x h => ?_) h
  split
  · exact h
  · split
    · split
      · exact .ite (State.arrive_spares h.modModel _ _) h
      · exact h
    · exact h

theorem State.beginRelief_spares (handle region seg : Nat) : State.Spares s₀ (s.beginRelief p handle region seg) := by
  have hcarved : State.Spares s₀ (s.modPart p fun q => if (q.model handle).any (·.parts.isNone) then q.carved handle s.ashList else q) := by
    refine h.modPart ?_
    split
    · exact (Partition.carved_onlyModels _ _ _).spared
    · rfl
  unfold State.beginRelief
  dsimp only
  generalize State.modPart s p _ = u at hcarved ⊢
  split
  · exact hcarved
  · refine .ite hcarved ?_
    split
    · exact hcarved
    · have hmoved (v : State) (hv : State.Spares s₀ v) : State.Spares s₀ (if (v.part p).atBoundary then v.startMoves p else v) :=
        .ite (State.startMoves_spares hv p) hv
      split
      · split
        · refine .ite (.foldl (fun s d h => .ite ?_ h) (hmoved _ (State.arrive_spares (hcarved.modPart rfl) _ _)))
            (hmoved _ (State.arrive_spares (hcarved.modPart rfl) _ _))
          cases hspill : s.startSpill p handle _ with
          | none => exact h
          | some t => exact State.startSpill_spares h p hspill
        · exact hmoved _ (State.arrive_spares (hcarved.modPart rfl) _ _)
      · exact hmoved _ (State.arrive_spares (hcarved.modPart rfl) _ _)

theorem State.leak_spares (handle seg : Nat) : State.Spares s₀ (s.leak p handle seg) := by
  unfold State.leak
  split
  · exact h
  · exact h.modPart rfl

theorem State.ashContents_spares (seg : Nat) : State.Spares s₀ (s.ashContents seg) := by
  refine .foldl (fun s p h => .foldl (fun s m h => ?_) h) h
  have hmoved (v : State) (hv : State.Spares s₀ v) : State.Spares s₀ (if (v.part p).atBoundary then v.startMoves p else v) :=
    .ite (State.startMoves_spares hv p) hv
  dsimp only
  refine hmoved _ (.modModel (State.leak_spares ?_ p _ _))
  split
  · exact State.beginRelief_spares h p _ _ _
  · exact h

/-! ### Segments lost, tiles that fail and the rungs of the ladder (R330-R339) -/

theorem State.loseBillets_spares (m : Model) (seg : Nat) : State.Spares s₀ (s.loseBillets p m seg) := by
  refine .foldl (fun s slot h => .foldl (fun s x h => ?_) h) h
  split
  · exact State.weightError_spares h p _ _ _
  · exact h

theorem State.losePart_spares (handle i loc : Nat) : State.Spares s₀ (s.losePart p handle i loc) := by
  unfold State.losePart
  split
  · exact h
  · exact State.loseBlocks_spares (State.losePages_spares h p _ _ _) p _ _ _

theorem State.loseSegs_spares (segs : List Nat) (loc : Nat) : State.Spares s₀ (s.loseSegs segs loc) := by
  refine .foldl (fun s p h => .foldl (fun s m h => ?_) h) h
  dsimp only
  generalize hu : List.foldl _ s (List.filter _ segs) = u
  have hweights : State.Spares s₀ u := by
    rw [← hu]
    refine .foldl (fun s g h => ?_) h
    split
    · exact State.loseBillets_spares (State.beginRelief_spares h p _ _ _) p _ _
    · exact h
  split
  · exact hweights
  · refine .foldl (fun s g h => .modModel (State.leak_spares h p _ _)) (.foldl (fun s i h => ?_) hweights)
    split
    · exact h
    · exact .ite (.modModel (State.losePart_spares h p _ _ _)) (.ite h (.modModel (State.losePages_spares h p _ _ _)))

theorem State.fenceSite_spares (site : Site) : State.Spares s₀ (s.fenceSite site) := h.upd rfl rfl rfl rfl

theorem State.degrade_spares (site : Site) (tile : Nat) : State.Spares s₀ (s.degrade site tile) := by
  have htold := fun touch v => State.toLadder_spares (State.ashRecord_spares (State.fenceSite_spares h site) 0x09 (locTile site.val) 0) touch v
  unfold State.degrade
  dsimp only
  split
  · exact htold _ _
  · exact State.fatalFault_spares (htold _ _) _ _

theorem State.tileFault_spares (site : Site) (serves : Bool) : State.Spares s₀ (s.tileFault site serves) := by
  have hfenced (s : State) (h : State.Spares s₀ s) : State.Spares s₀ ((s.fenceSite site).ashRecord 0x09 (locTile site.val) 0) :=
    State.ashRecord_spares (State.fenceSite_spares h site) _ _ _
  unfold State.tileFault
  refine .ite (h.upd rfl rfl rfl rfl) ?_
  split
  · refine .ite h ?_
    dsimp only
    generalize hu : (if (s.holders site.val).isEmpty = true then _ else _) = u
    have hfaulted : State.Spares s₀ u := by
      rw [← hu]
      refine .ite (State.alertFault_spares ?_ 2) ?_ <;>
        exact .foldl (fun _ p h => State.contained_spares h p _ _ _) (State.enqueue_spares (State.toLadder_spares h _ _) _ _)
    split
    · exact hfaulted.upd rfl rfl rfl rfl
    · exact State.degrade_spares (State.modFifo_spares hfaulted _ _) _ _
  · split
    · refine State.degrade_spares (State.modFifo_spares ?_ _ _) _ _
      exact (hfenced _ (State.escalate_spares h _ _ _ _)).upd rfl rfl rfl rfl
    · exact hfenced s h
  · exact h

theorem State.dropDeadLines_spares : State.Spares s₀ s.dropDeadLines := h.upd rfl rfl rfl rfl

/-- What a retired bank or die sets off before its own rung goes on (R335). -/
theorem State.retired_spares (k : Nat) (f : DieSt → DieSt) (type loc arg : Nat) (touch : List Part) (v : Ev) :
    State.Spares s₀ (touch.foldl State.countDeferred ((((s.modDie k f).ashRecord type loc arg).dropDeadLines).toLadder touch v)) :=
  .foldl (fun _ p h => State.countDeferred_spares h p)
    (State.toLadder_spares (State.dropDeadLines_spares (State.ashRecord_spares (State.modDie_spares h k f) type loc arg)) touch v)

theorem State.retireDie_spares (site : Site) (die cause : Nat) (queue : Bool) : State.Spares s₀ (s.retireDie site die cause queue) := by
  unfold State.retireDie
  refine .ite h (.ite (State.tileFault_spares (State.loseSegs_spares (.ite (State.enqueue_spares ?_ _ _) ?_) _ _) _ _)
    (State.loseSegs_spares (.ite (State.enqueue_spares ?_ _ _) ?_) _ _)) <;> exact State.retired_spares h _ _ _ _ _ _ _

theorem State.retireBank_spares (site : Site) (die bank cause : Nat) (queue : Bool) :
    State.Spares s₀ (s.retireBank site die bank cause queue) := by
  unfold State.retireBank
  refine .ite h (.ite (State.retireDie_spares (State.loseSegs_spares (.ite (State.enqueue_spares ?_ _ _) ?_) _ _) _ _ _ _)
    (State.loseSegs_spares (.ite (State.enqueue_spares ?_ _ _) ?_) _ _)) <;> exact State.retired_spares h _ _ _ _ _ _ _

theorem State.retireRow_spares (site : Site) (die bank row : Nat) : State.Spares s₀ (s.retireRow site die bank row) := by
  unfold State.retireRow
  dsimp only
  generalize hu : State.toLadder _ _ _ = u
  have htold : State.Spares s₀ u := by
    rw [← hu]
    exact State.toLadder_spares (State.ashRecord_spares (State.modDie_spares h _ _) _ _ _) _ _
  have hashed (home : Nat) :
      State.Spares s₀ (if u.ashList.contains home then u else { u with ashList := setAdd u.ashList home }.ashContents home) := by
    refine .ite htold (State.ashContents_spares ?_ _)
    exact htold.upd rfl rfl rfl rfl
  exact .ite (State.retireBank_spares (hashed _) _ _ _ _ _) (hashed _)

theorem State.rowFail_spares (addr code cls : Nat) : State.Spares s₀ (s.rowFail addr code cls) := by
  unfold State.rowFail
  dsimp only
  split
  · exact h
  · exact .ite h (.ite (State.enqueue_spares h _ _) (.ite (State.retireRow_spares (State.enqueue_spares h _ _) _ _ _ _)
      (State.enqueue_spares (State.modDie_spares h _ _) _ _)))

theorem State.reliefFault_spares {t : State} {seg : Nat} (ht : s.reliefFault seg = some t) : State.Spares s₀ t := by
  obtain ⟨p, -, ht⟩ := List.exists_of_findSome?_eq_some ht
  obtain ⟨r, -, ht⟩ := Option.bind_eq_some_iff.1 ht
  obtain ⟨site, -, ht⟩ := Option.bind_eq_some_iff.1 ht
  have hescalated := fun rung loc next => State.escalate_spares h (s.touches [r.segment]) rung loc next
  dsimp only at ht
  split at ht
  · exact Option.some.inj ht ▸ State.retireBank_spares (hescalated _ _ _) _ _ _ _ _
  · split at ht
    · exact Option.some.inj ht ▸ State.retireDie_spares (hescalated _ _ _) _ _ _ _
    · split at ht
      · exact Option.some.inj ht ▸ State.tileFault_spares (hescalated _ _ _) _ _
      · exact absurd ht nofun

theorem State.countWire_spares (site : Site) (die : Nat) (wire : Option Nat) (who : List Part) (loc : Nat) :
    State.Spares s₀ (s.countWire site die wire who loc) := by
  unfold State.countWire
  split
  · exact State.modDie_spares h _ _
  · have htold := fun k f type loc arg v => State.toLadder_spares (State.ashRecord_spares (State.modDie_spares h k f) type loc arg) who v
    exact .ite h (.ite (State.modDie_spares h _ _) (.ite (State.retireDie_spares (htold _ _ _ _ _ _) _ _ _ _) (htold _ _ _ _ _ _)))

theorem State.corrected_spares (addr : Nat) (wire : Option Nat) : State.Spares s₀ (s.corrected addr wire) := by
  unfold State.corrected
  dsimp only
  split
  · exact h
  · have hcounted := fun site die wire who loc => State.countWire_spares h site die wire who loc
    refine .ite (hcounted _ _ _ _ _) (.ite (State.modDie_spares (hcounted _ _ _ _ _) _ _) (State.rowFail_spares ?_ _ _ _))
    exact State.modDie_spares (hcounted _ _ _ _ _) _ _

/-! ### What follows a copy of a page (R231-R234) -/

theorem State.tellFull_spares (left : Nat) : State.Spares s₀ (s.tellFull p left) :=
  .ite h (State.toPart_spares (.modPart h rfl) p _ _)

theorem State.spillSome_spares (l : List (Nat × Nat)) (n : Nat) : State.Spares s₀ (s.spillSome p l n) := by
  induction l generalizing s n with
  | nil => exact h
  | cons x l ih =>
    cases n with
    | zero => exact h
    | succ n =>
      rw [State.spillSome]
      split
      · next t ht => exact ih (State.startSpill_spares h p ht) n
      · exact State.tellFull_spares h p _

theorem State.fetchReq_spares (n : Nat) : State.Spares s₀ (s.fetchReq p n) := by
  unfold State.fetchReq
  split
  · exact h
  · refine .foldl (fun s x h => ?_) h
    split
    · next q hq => exact State.arrive_spares (h.modPart (Partition.startFetch_onlyModels hq).spared) _ _
    · dsimp only
      split
      · exact .ite (State.spillSome_spares h p _ _) h
      · exact h

theorem State.pumpFetches_spares : State.Spares s₀ (s.pumpFetches p) :=
  .ite (.foldl (fun _ x h => .ite (State.fetchReq_spares h p x.1) h) h) h

theorem State.placeReliefs_spares : State.Spares s₀ (s.placeReliefs p) :=
  .ite (.foldl (fun _ _ h => State.toLadder_spares (.modPart h rfl) _ _) h) h

theorem State.sweep_spares : State.Spares s₀ s.sweep := by
  have hparts : State.Spares s₀ (allParts.foldl (fun (u : State) p => u.modPart p fun q => { q with
      fifo := q.fifo.filter fun e => !(e.handling && s.entryBusy e == false) }) s) := .foldl (fun _ _ h => .modPart h rfl) h
  exact hparts.upd rfl rfl rfl rfl

theorem State.releaseOrphan_spares (handle page : Nat) : State.Spares s₀ (s.releaseOrphan p handle page) := .ite h h.modModel

theorem State.afterCopy_spares (handle page : Nat) : State.Spares s₀ (s.afterCopy p handle page) :=
  State.sweep_spares (State.placeReliefs_spares (State.pumpFetches_spares (State.releaseOrphan_spares h p handle page) p) p)

theorem State.checkSpilled_spares (n : Nat) : State.Spares s₀ (s.checkSpilled p n) := by
  unfold State.checkSpilled
  split
  · exact h
  · dsimp only
    refine .ite ?_ h
    split
    · exact State.toReq_spares (.modPart (State.modReq_spares h p n _) rfl) p n _
    · exact State.modReq_spares h p n _

theorem State.fetchedOne_spares (handle page : Nat) : State.Spares s₀ (s.fetchedOne p handle page) := by
  unfold State.fetchedOne
  split
  · split
    · exact .ite (State.modReq_spares h p _ _) h
    · exact h
  · exact h

end

end Sys2Proof.Machine

namespace Sys2Proof.Machine

/-! ## Reads of sheet memory (R34, R80, R84, R213) -/

section Reads

variable {s : State} {p : Part} {addr b chunk : Nat} {o : Outcome}

theorem exec_memRead_readable (hr : s.readable p (addr / segBytes) = true) (hh : s.placeHeld (placeOf addr) = false) :
    exec (.memRead (.part p) addr o) s = .next (s.readDeliver (some p) (addr / 64) o) := by
  simp [exec, execMemRead, hr, hh]

/-- Outside the fence a read delivers poison and is told (R34). -/
theorem exec_memRead_outside (hr : s.readable p (addr / segBytes) = false) : exec (.memRead (.part p) addr o) s =
    .next ((s.send (.block (List.replicate 64 0) true)).fenceViolation p (addr / segBytes) 0) := by
  simp [exec, execMemRead, hr]

/-- A block as a reader other than the stoker gets it. -/
theorem State.shownRange_block (s : State) (b : Nat) :
    s.shownRange (b * 64) 64 = ((s.shown s.fresh b).take 64, { s with fresh := s.fresh + 64 }) := by
  simp [State.shownRange, ceilDiv]

/-- The bits of a table's block that are fixed are delivered as they are (R213, R216). -/
theorem State.shown_table {l : List TableByte} {k i : Nat} {x : TableByte} (ha : s.ashList.contains (b / 32768) = false)
    (ht : s.tableAt b = some l) (hx : l[i]? = some x) (hi : i < 64) : ∃ free : Byte, ((s.shown k b).take 64)[i]? = some (x.fill free) := by
  have hfree : (freeBytes k 64)[i]? = some (BitVec.ofNat 8 (Config.fresh (k + i))) := by simp [freeBytes, hi]
  refine ⟨BitVec.ofNat 8 (Config.fresh (k + i)), ?_⟩
  rw [State.shown, ha, if_neg Bool.false_ne_true, ht, List.getElem?_take_of_lt hi, List.getElem?_map, 
    List.getElem?_zip_eq_some (z := (x, BitVec.ofNat 8 (Config.fresh (k + i)))) |>.2 ⟨hx, hfree⟩]
  rfl

/-- A block in a bank that answers is as memory has it, or poison. -/
theorem State.block_live (hd : s.bankDead (placeOf (b * 64)) = false) :
    s.block (b * 64) = if s.poisoned.contains b then (List.replicate 64 0, true) else (s.sheet.readN (b * 64) 64, false) := by
  rw [State.block, hd, Bool.or_false, Nat.mul_div_cancel b (by decide)]

/-- A clean read of a block without poison delivers what the block shows; beside the free values drawn, it changes the tile's lines alone
(R84, R93). -/
theorem State.readDeliver_clean (hd : s.bankDead (placeOf (b * 64)) = false) (hb : b ∉ s.poisoned) :
    s.readDeliver (some p) b .clean = { s with
      out := s.out ++ [.block ((s.shown s.fresh b).take 64) false], fresh := s.fresh + 64
      sheetLines := if s.sheetLines.contains (b / 32768 / stackSegs, b) then s.sheetLines
                    else s.sheetLines ++ [(b / 32768 / stackSegs, b)] } := by
  have hblock : (s.block (b * 64)).2 = false := by simp [State.block_live hd, hb]
  simp only [State.readDeliver, State.hitMissed, State.readBlock_clean hb, hblock, State.shownRange_block]
  rfl

/-- A poisoned block that is read is counted by its reader, and what it held is lost (R84, R343). -/
theorem State.readBlock_poisoned (hd : s.bankDead (placeOf (b * 64)) = false) (hb : b ∈ s.poisoned) (via : Nat) :
    s.readBlock (some p) via b .clean = (s.count p fun c => { c with memPoison := satAdd c.memPoison 1 }).loseHeld (b * 64) := by
  simp [State.readBlock, hd, hb]

/-- A poisoned block is delivered as poison and stays so; its reader counts it, and memory is as it was (R84). -/
theorem State.readDeliver_poisoned (hd : s.bankDead (placeOf (b * 64)) = false) (hb : b ∈ s.poisoned) :
    (s.readDeliver (some p) b .clean).out.getLast? = some (.block (List.replicate 64 0) true) ∧
      (s.readDeliver (some p) b .clean).sheet = s.sheet ∧ (s.readDeliver (some p) b .clean).poisoned = s.poisoned ∧
      ((s.readDeliver (some p) b .clean).part p).ctr.memPoison = satAdd (s.part p).ctr.memPoison 1 := by
  have hblock : (s.block (b * 64)).2 = true := by simp [State.block_live hd, hb]
  have hlost := State.loseHeld_spares (.refl (s.count p fun c => { c with memPoison := satAdd c.memPoison 1 })) (b * 64)
  simp only [State.readDeliver, State.hitMissed, State.readBlock_poisoned hd hb, hblock, State.shownRange_block]
  refine ⟨List.getLast?_concat, hlost.sheet, hlost.poisoned, (congrArg (·.2.1) (hlost.parts p)).trans ?_⟩
  rw [State.count, State.part_modPart]
  rfl

end Reads

/-! ## Patrol scrub (R86, R87) -/

section Scrub

variable {s : State} {addr : Nat} {site : Site} {o : Outcome}

theorem State.scrub_off (hm : s.memScrub.getLsbD 31 = false) : s.scrub addr o = s := by
  simp only [State.scrub, hm]
  split <;> rfl

/-- The blocks that a die's scrub has read are no matter of which banks answer. -/
theorem State.bankDead_modDie {k : Nat} {f : DieSt → DieSt} (hr : ∀ d, (f d).retired = d.retired)
    (hb : ∀ d, (f d).retiredBanks = d.retiredBanks) (pl : SheetPlace) : (s.modDie k f).bankDead pl = s.bankDead pl := by
  have hdie (j : Nat) : ((s.modDie k f).die j).retired = (s.die j).retired ∧ ((s.modDie k f).die j).retiredBanks = (s.die j).retiredBanks := by
    by_cases hj : j = k
    · rw [hj, State.die_modDie_same]
      exact ⟨hr _, hb _⟩
    · have hother : (s.modDie k f).die j = s.die j := by
        rw [State.die, State.modDie_dies, lookupA_insertA_other _ _ hj]
        rfl
      rw [hother]
      exact ⟨rfl, rfl⟩
  have hsite : (s.modDie k f).siteOf pl.tile = s.siteOf pl.tile := rfl
  have hheld : (s.modDie k f).placeHeld pl = s.placeHeld pl := rfl
  simp only [State.bankDead, State.bankRetired, hsite, hheld, hdie]

/-- A clean block joins its die's pass, which goes on while a block in service has not been read (R86, R87). -/
theorem State.scrub_clean (hs : s.siteOf (placeOf addr).tile = some site) (hm : s.memScrub.getLsbD 31 = true)
    (ht : s.underTest site = false) (hh : s.dieHeld site (placeOf addr).die = false) (hd : s.bankDead (placeOf addr) = false)
    (ha : s.ashList.contains (addr / segBytes) = false) (hp : addr / 64 ∉ s.poisoned)
    (hmore : let segs := (dieSegs (placeOf addr).tile (placeOf addr).die).filter fun g =>
        !s.ashList.contains g && !s.bankDead (placeOf (g * segBytes))
      ((setAdd (s.die (dieKey site (placeOf addr).die)).scrubbed (addr / 64)).filter fun b => segs.contains (b / 32768)).length <
        segs.length * 32768) :
    s.scrub addr .clean = s.modDie (dieKey site (placeOf addr).die) fun d => { d with scrubbed := setAdd d.scrubbed (addr / 64) } := by
  have hread : s.readBlock none 1 (addr / 64) .clean = s := State.readBlock_clean hp
  simp only [State.scrub, hs, hm, ht, hh, hd, ha, hread, State.die_modDie_same, State.modDie_ashList, Bool.not_true, Bool.or_false,
    Bool.false_eq_true, if_false]
  refine if_pos ?_
  simp only [State.bankDead_modDie, implies_true]
  exact hmore

end Scrub

/-! ## Reads and scrub of peat memory (R34, R289, R290) -/

section Peat

variable {s : State} {p : Part} {chunk : Nat} {o : Outcome}

/-- A read of a chunk counts what it found and delivers the chunk, as poison where it is poisoned or now UNCORRECTABLE (R289). -/
theorem exec_peatRead_readable (hr : (s.part p).peatReadable (chunk / 8192) = true) (hh : s.chunkHeld chunk = false) :
    exec (.peatRead p chunk o) s = .next ((s.countChunk p chunk o).send
      (let x := (s.countChunk p chunk o).chunk chunk
       .block (if x.2 || o == .uncorrectable then List.replicate 256 0 else x.1) (x.2 || o == .uncorrectable))) := by
  exact congrArg Host.Outcome.next ((if_pos hr).trans (if_neg (by rw [hh]; exact Bool.false_ne_true)))

theorem exec_peatRead_outside (hr : (s.part p).peatReadable (chunk / 8192) = false) : exec (.peatRead p chunk o) s =
    .next ((s.send (.block (List.replicate 256 0) true)).fenceViolation p (chunk / 8192) 0) := by
  exact congrArg Host.Outcome.next (if_neg (by rw [hr]; exact Bool.false_ne_true))

/-- What the decoder could not correct is counted and told, and memory is as it was (R289). -/
theorem State.countChunk_uncorrectable_spares (s : State) (p : Part) (c : Nat) : State.Spares s (s.countChunk p c .uncorrectable) :=
  .ite (.refl s) (State.toLadder_spares (State.countDeferred_spares (.modPart (.refl s) rfl) p) _ _)

/-- Scrub of a chunk that it may read: what it finds UNCORRECTABLE is counted, and nothing is stored (R290). -/
theorem exec_peatScrubRead_clear (hm : s.peatCtrl.getLsbD 31 = true) (hh : s.chunkHeld chunk = false) (hr : s.peatRetired = false)
    (hc : chunk < peatSegs * 8192) (hp : chunk ∉ s.peatPoisoned) :
    exec (.peatScrubRead chunk .uncorrectable) s = .next { s with peatScrubBad := s.peatScrubBad + 1 } ∧
      ∀ o : Outcome, (o = .clean ∨ ∃ w, o = .corrected w) → exec (.peatScrubRead chunk o) s = .next s := by
  have hserved : (!s.peatCtrl.getLsbD 31 || s.chunkHeld chunk || s.peatRetired || decide (peatSegs * 8192 ≤ chunk) ||
      s.peatPoisoned.contains chunk) = false := by simp [hm, hh, hr, hc, hp]
  refine ⟨?_, fun o ho => ?_⟩
  · rw [exec, execPeatScrubRead, hserved]
    rfl
  · obtain rfl | ⟨w, rfl⟩ := ho
    · exact congrArg Host.Outcome.next (if_neg (by rw [hserved]; exact Bool.false_ne_true))
    · exact congrArg Host.Outcome.next (if_neg (by rw [hserved]; exact Bool.false_ne_true))

end Peat

/-- Settles O28: a clean read is what `State.shown` gives, a poisoned one a loss that spares memory (`State.Spares`), and one outside the
fence an event record. -/
theorem readsDeliver : Obligations.ReadsDeliver := by
  unfold Obligations.ReadsDeliver
  refine ⟨⟨fun s p addr hr hh hd => ⟨fun hp => ?clean, fun hp => ?poisoned⟩, fun s p addr o hr => ?outside⟩, fun s addr c hc => ?scrub,
    fun s p chunk hr hh hret => ⟨fun hp => ?peat, ?peatPoison⟩, fun s p chunk o hr => ?peatOutside,
    fun s chunk hm hh hret hlt hp => exec_peatScrubRead_clear hm hh hret hlt hp⟩
  case clean =>
    refine ⟨_, (s.shown s.fresh (addr / 64)).take 64, exec_memRead_readable hr hh, ?_⟩
    rw [State.readDeliver_clean hd hp]
    refine ⟨rfl, fun ha ht => ?_, fun l ha ht i x hx hi => State.shown_table ha ht hx hi, ?_⟩
    · rw [State.shown_of_plain _ (by simpa using ha) ht, List.take_of_length_le (Memory.length_readN _ _ _).le]
    · dsimp only
      split
      · next hin => exact List.contains_iff_mem.1 hin
      · exact List.mem_concat_self
  case poisoned => exact ⟨_, exec_memRead_readable hr hh, State.readDeliver_poisoned hd hp⟩
  case outside =>
    exact ⟨_, exec_memRead_outside hr, State.fenceViolation_tells (State.send_tells (.refl s) _) _ _ _,
      (State.fenceViolation_tells (.refl (s.send _)) _ _ _).out⟩
  case scrub =>
    have hexec : exec c s = .next (s.scrub addr .clean) := by
      simp only [List.mem_cons, List.not_mem_nil, or_false] at hc
      rcases hc with rfl | rfl <;> rfl
    refine ⟨fun hm => hexec.trans (by rw [State.scrub_off hm]), fun site hs hm ht hh hd ha hp hmore => ?_⟩
    rw [hexec, State.scrub_clean hs hm ht hh hd ha hp hmore]
  case peat =>
    rw [exec_peatRead_readable hr hh]
    simp [State.countChunk, State.chunk, hret, hp, State.send]
  case peatPoison =>
    have hspares := s.countChunk_uncorrectable_spares p chunk
    refine ⟨_, exec_peatRead_readable hr hh, ?_, hspares.peat, hspares.sheet⟩
    simp only [beq_self_eq_true, Bool.or_true, if_true]
    exact List.getLast?_concat
  case peatOutside =>
    exact ⟨_, exec_peatRead_outside hr, State.fenceViolation_tells (State.send_tells (.refl s) _) _ _ _,
      (State.fenceViolation_tells (.refl (s.send _)) _ _ _).out⟩

end Sys2Proof.Machine

namespace Sys2Proof.Machine

/-! ## Copies of whole chunks (R232, R233) -/

theorem Memory.read_of_readN_eq {m m' : Memory} {a a' : Nat} : ∀ {n : Nat}, m.readN a n = m'.readN a' n →
    ∀ j, j < n → m.read (a + j) = m'.read (a' + j)
  | n + 1, h, 0, _ => (List.cons.inj h).1
  | n + 1, h, j + 1, hj => by
    have hnext := Memory.read_of_readN_eq (List.cons.inj h).2 j (Nat.lt_of_succ_lt_succ hj)
    rwa [Nat.add_assoc, Nat.add_assoc, Nat.add_comm 1 j] at hnext

/-- A run of bytes stored reads as where it came from. -/
theorem Memory.read_writeN_readN {m m' : Memory} (h : m.wf = true) (a a' : Nat) {n j : Nat} (hj : j < n) :
    (m.writeN a (m'.readN a' n)).read (a + j) = m'.read (a' + j) := by
  refine Memory.read_of_readN_eq ?_ j hj
  have hrun := m.readN_writeN a (m'.readN a' n) h
  rwa [Memory.length_readN] at hrun

theorem Memory.read_writeN_readN_outside {m m' : Memory} {a a' n x : Nat} (hx : x < a ∨ a + n ≤ x) :
    (m.writeN a (m'.readN a' n)).read x = m.read x :=
  Memory.read_writeN_outside _ _ _ _ (by rwa [Memory.length_readN])

/-- Whole blocks cut from their bytes. -/
theorem mem_cutBlocks {n : Nat} : ∀ {bytes : List Byte}, bytes.length = 64 * n →
    ∀ x ∈ cutBlocks bytes n, x.1.length = 64 ∧ x.2 = false := by
  induction n with
  | zero => exact fun _ _ hx => absurd hx List.not_mem_nil
  | succ n ih =>
    intro bytes h x hx
    rcases List.mem_cons.1 hx with rfl | hx
    · exact ⟨by simp; omega, rfl⟩
    · exact ih (by rw [List.length_drop]; omega) x hx

theorem flatMap_cutBlocks {n : Nat} : ∀ {bytes : List Byte}, bytes.length = 64 * n → (cutBlocks bytes n).flatMap (·.1) = bytes := by
  induction n with
  | zero => exact fun h => (List.length_eq_zero_iff.1 h).symm
  | succ n ih =>
    intro bytes h
    have hpad : 64 - bytes.length = 0 := by omega
    rw [cutBlocks, List.flatMap_cons, ih (by rw [List.length_drop]; omega), hpad, List.replicate_zero, List.append_nil, List.take_append_drop]

/-- `n` blocks of banks that answer. -/
def State.Live (s : State) (b n : Nat) : Prop := ∀ i, i < n → s.bankDead (placeOf ((b + i) * 64)) = false

theorem State.Live.tail {s : State} {b k n : Nat} (h : s.Live b (k + n)) : s.Live (b + k) n := fun i hi => by
  rw [Nat.add_assoc]
  exact h (k + i) (Nat.add_lt_add_left hi k)

theorem State.Live.putChunk {s : State} {b n : Nat} (h : s.Live b n) (c : Nat) (bytes : List Byte) (poison : Bool) :
    (s.putChunk c bytes poison).Live b n := fun i hi => by
  refine Eq.trans ?_ (h i hi)
  unfold State.putChunk
  split
  · rfl
  · split <;> rfl

theorem State.Live.putBlocks {s : State} {b n : Nat} (h : s.Live b n) (d : Nat) (l : List (List Byte × Bool)) :
    (s.putBlocks d l).Live b n := fun i hi => by
  rw [State.putBlocks_frame]
  exact h i hi

section Copies

variable {s : State}

/-- Blocks without poison, in banks that answer, read as memory holds them. -/
theorem State.blocks_live (hp : s.poisoned = []) : ∀ {n b : Nat}, s.Live b n →
    (s.blocks b n).flatMap (·.1) = s.sheet.readN (b * 64) (64 * n) ∧ (s.blocks b n).any (·.2) = false
  | 0, _, _ => ⟨rfl, rfl⟩
  | n + 1, b, hd => by
    have hlive : s.bankDead (placeOf (b * 64)) = false := hd 0 n.succ_pos
    have hb : s.block (b * 64) = (s.sheet.readN (b * 64) 64, false) := by
      rw [State.block_live hlive, hp]
      rfl
    obtain ⟨hbytes, hclean⟩ := State.blocks_live hp (b := b + 1) (State.Live.tail (by rwa [Nat.add_comm]))
    have hlen : 64 * (n + 1) = 64 + 64 * n := by omega
    rw [State.blocks, List.flatMap_cons, List.any_cons, hbytes, hclean, hb, hlen, Memory.readN_add, Nat.succ_mul]
    exact ⟨rfl, rfl⟩

/-- Chunks copied to the peat tier in service, from blocks without poison in banks that answer, store their bytes (R232). -/
theorem State.sheetToPeat_live (n : Nat) : ∀ {s : State} {b c : Nat}, s.poisoned = [] → s.peatRetired = false → s.Live b (4 * n) →
    s.sheetToPeat b c n = { s with
      peat := s.peat.writeN (c * 256) (s.sheet.readN (b * 64) (256 * n)), peatPoisoned := (s.sheetToPeat b c n).peatPoisoned } := by
  induction n with
  | zero => exact fun _ _ _ => rfl
  | succ n ih =>
    intro s b c hp hr hd
    have hd : s.Live b (4 + 4 * n) := by rwa [Nat.add_comm]
    obtain ⟨hbytes, hclean⟩ := State.blocks_live hp (n := 4) (b := b) fun i hi => hd i (by omega)
    have hput : s.putChunk c (s.sheet.readN (b * 64) 256) false =
        { s with peat := s.peat.writeN (c * 256) (s.sheet.readN (b * 64) 256), peatPoisoned := setDel s.peatPoisoned c } := by
      rw [State.putChunk, hr, List.take_of_length_le (Memory.length_readN _ _ _).le]
      rfl
    have hlen : 256 * (n + 1) = 256 + 256 * n := by omega
    have hdst : (c + 1) * 256 = c * 256 + 256 := by omega
    have hsrc : (b + 4) * 64 = b * 64 + 256 := by omega
    have hrest := ih (s := s.putChunk c (s.sheet.readN (b * 64) 256) false) (b := b + 4) (c := c + 1) (by rw [hput]; exact hp)
      (by rw [hput]; exact hr) (hd.tail.putChunk _ _ _)
    rw [State.sheetToPeat, hbytes, hclean]
    refine hrest.trans ?_
    rw [hput, hlen, Memory.readN_add, Memory.writeN_append, Memory.length_readN, hdst, hsrc]

/-- Chunks without poison copied from the peat tier in service to banks that answer store their bytes (R233). -/
theorem State.peatToSheet_live (n : Nat) : ∀ {s : State} {b c : Nat}, s.peatPoisoned = [] → s.peatRetired = false → s.Live b (4 * n) →
    s.peatToSheet [] c b n = { s with
      sheet := s.sheet.writeN (b * 64) (s.peat.readN (c * 256) (256 * n)), poisoned := (s.peatToSheet [] c b n).poisoned
      sheetLines := (s.peatToSheet [] c b n).sheetLines } := by
  induction n with
  | zero => exact fun _ _ _ => rfl
  | succ n ih =>
    intro s b c hp hr hd
    have hd : s.Live b (4 + 4 * n) := by rwa [Nat.add_comm]
    have hchunk : s.chunk c = (s.peat.readN (c * 256) 256, false) := by rw [State.chunk, hr, hp]; rfl
    have hbytes : (s.peat.readN (c * 256) 256).length = 64 * 4 := Memory.length_readN _ _ _
    have hclean : ∀ x ∈ cutBlocks (s.peat.readN (c * 256) 256) 4, (x.1, false) = id x := fun x hx =>
      (congrArg (Prod.mk x.1) (mem_cutBlocks hbytes x hx).2).symm
    have hcut : (cutBlocks (s.peat.readN (c * 256) 256) 4).map (fun x => (x.1, false)) = cutBlocks (s.peat.readN (c * 256) 256) 4 :=
      (List.map_congr_left hclean).trans (List.map_id _)
    have hsheet := (State.putBlocks_live (s := s) (b := b) (mem_cutBlocks hbytes) fun i hi =>
      hd i (by rw [length_cutBlocks] at hi; omega)).1
    rw [flatMap_cutBlocks hbytes] at hsheet
    have hput := s.putBlocks_frame b (cutBlocks (s.peat.readN (c * 256) 256) 4)
    rw [hsheet] at hput
    have hlen : 256 * (n + 1) = 256 + 256 * n := by omega
    have hdst : (b + 4) * 64 = b * 64 + 256 := by omega
    have hsrc : (c + 1) * 256 = c * 256 + 256 := by omega
    have hrest := ih (s := s.putBlocks b (cutBlocks (s.peat.readN (c * 256) 256) 4)) (b := b + 4) (c := c + 1) (by rw [hput]; exact hp)
      (by rw [hput]; exact hr) (hd.tail.putBlocks _ _)
    have hstep : s.peatToSheet [] c b (n + 1) =
        (s.putBlocks b (cutBlocks (s.peat.readN (c * 256) 256) 4)).peatToSheet [] (c + 1) (b + 4) n := by
      rw [State.peatToSheet, hchunk]
      exact congrArg (fun l => (s.putBlocks b l).peatToSheet [] (c + 1) (b + 4) n) hcut
    rw [hstep]
    refine hrest.trans ?_
    rw [hput, hlen, Memory.readN_add, Memory.writeN_append, Memory.length_readN, hdst, hsrc]

end Copies

/-! ## What the fence makes of a copy (R34) -/

section Fenced

variable {s : State} {p : Part} {a c len : Nat}

theorem State.fencedSpill_within (hr : s.breach p a len false = none) (hw : s.peatBreach p c len true = none) :
    s.fencedSpill p a c len = s.sheetToPeat (a / 64) (c / 256) (len / 256) := by
  simp [State.fencedSpill, State.told, hr, hw]

theorem State.fencedFetch_within (bad : List Nat) (hr : s.peatBreach p c len false = none) (hw : s.breach p a len true = none) :
    s.fencedFetch p bad c a len = s.peatToSheet bad (c / 256) (a / 64) (len / 256) := by
  simp [State.fencedFetch, State.told, hr, hw]

theorem State.told_spares {s₀ : State} (h : State.Spares s₀ s) (p : Part) (seg : Option Nat) (kind : Nat) :
    State.Spares s₀ (s.told p seg kind) := by
  cases seg with
  | none => exact h
  | some g => exact h.tells (State.fenceViolation_tells (.refl s) p g kind)

/-- A spill to peat memory that the partition may not write stores nothing. -/
theorem State.fencedSpill_outside {g : Nat} (hw : s.peatBreach p c len true = some g) : State.Spares s (s.fencedSpill p a c len) := by
  simp only [State.fencedSpill, hw, Option.isSome_some, if_true]
  exact State.told_spares (State.told_spares (.refl s) _ _ _) _ _ _

end Fenced

/-! ## Reads of sheet memory spare the peat tier and the fences -/

/-- Peat memory and the fences stand as they were. -/
structure State.SparesPeat (s t : State) : Prop where
  peat : t.peat = s.peat
  fence : ∀ i, (t.part i).fence = (s.part i).fence

namespace State.SparesPeat

variable {s₀ s t : State}

theorem refl (s : State) : State.SparesPeat s s := ⟨rfl, fun _ => rfl⟩

theorem spares (h : State.SparesPeat s₀ s) (k : State.Spares s t) : State.SparesPeat s₀ t :=
  ⟨k.peat.trans h.peat, fun i => (congrArg (·.1) (k.parts i)).trans (h.fence i)⟩

theorem upd (h : State.SparesPeat s₀ s) (hm : t.peat = s.peat) (hp : t.parts = s.parts) : State.SparesPeat s₀ t :=
  ⟨hm.trans h.peat, fun i => by rw [State.part, hp]; exact h.fence i⟩

theorem count (h : State.SparesPeat s₀ s) (p : Part) (f : PrtCounters → PrtCounters) : State.SparesPeat s₀ (s.count p f) := by
  refine ⟨h.peat, fun i => ?_⟩
  by_cases hi : i = p
  · rw [hi, State.count, State.part_modPart]
    exact h.fence p
  · rw [State.count, State.part_modPart_other _ _ _ _ hi]
    exact h.fence i

theorem foldl {α : Type} {f : State → α → State} {l : List α} (hf : ∀ s x, State.SparesPeat s₀ s → State.SparesPeat s₀ (f s x))
    (h : State.SparesPeat s₀ s) : State.SparesPeat s₀ (l.foldl f s) := by
  induction l generalizing s with
  | nil => exact h
  | cons x l ih => exact ih (hf s x h)

end State.SparesPeat

/-- The fence alone says where a transfer may write peat memory. -/
theorem State.SparesPeat.breach {s t : State} (h : State.SparesPeat s t) (p : Part) (c len : Nat) :
    t.peatBreach p c len true = s.peatBreach p c len true := by
  simp only [State.peatBreach, Partition.peatWritable, if_true, h.fence]

section Reads

variable {s₀ s : State}

theorem State.putBlock_sparesPeat (h : State.SparesPeat s₀ s) (b : Nat) (bytes : List Byte) (poison : Bool) :
    State.SparesPeat s₀ (s.putBlock b bytes poison) := by
  unfold State.putBlock
  split
  · exact h
  · split
    · exact h.upd rfl rfl
    · exact h.upd rfl rfl

/-- What follows a block that is poisoned in place spares both tiers (R84, R330). -/
theorem State.uncorrectable_sparesPeat (h : State.SparesPeat s₀ s) (addr via : Nat) : State.SparesPeat s₀ (s.uncorrectable addr via) := by
  have hpoison : State.SparesPeat s₀ (s.poisonBlock (addr / 64)) := h.upd rfl rfl
  refine hpoison.spares (State.loseAt_spares ?_ addr)
  have hladder := fun who v => State.toLadder_spares (.refl (s.poisonBlock (addr / 64))) who v
  have htold := fun who v => State.Spares.foldl (l := who) (fun _ p h => State.countDeferred_spares h p) (hladder who v)
  split
  · next t ht => exact State.reliefFault_spares (.ite (State.alertFault_spares (htold _ _) _) (htold _ _)) ht
  · exact State.rowFail_spares (.ite (State.alertFault_spares (htold _ _) _) (htold _ _)) _ _ _

theorem State.readBlock_sparesPeat (h : State.SparesPeat s₀ s) (who : Option Part) (via b : Nat) (o : Outcome) :
    State.SparesPeat s₀ (s.readBlock who via b o) := by
  have hheld : State.SparesPeat s₀ ((match who with
      | some p => s.count p fun c => { c with memPoison := satAdd c.memPoison 1 }
      | none => s).loseHeld (b * 64)) := by
    cases who with
    | none => exact h.spares (State.loseHeld_spares (.refl s) _)
    | some p => exact (h.count p _).spares (State.loseHeld_spares (.refl _) _)
  have hfixed (w : Option Nat) {u : State} (hu : State.SparesPeat s₀ u) :=
    (State.SparesPeat.foldl (l := s.readers who via (b * 64)) (f := fun s p => s.count p fun c => { c with memCorr := satAdd c.memCorr 1 })
      (fun _ p h => h.count p _) hu).spares (State.corrected_spares (.refl _) (b * 64) w)
  unfold State.readBlock
  dsimp only
  split
  · exact h
  · cases o with
    | clean =>
      dsimp only
      split
      · exact hheld
      · exact h
    | corrected w =>
      dsimp only
      split
      · exact hheld
      · exact hfixed w h
    | uncorrectable => exact State.uncorrectable_sparesPeat (.foldl (fun _ p h => h.count p _) h) _ _
    | missed data c =>
      dsimp only
      split
      · exact hfixed none (State.putBlock_sparesPeat h _ _ _)
      · exact State.putBlock_sparesPeat h _ _ _

theorem State.readRange_sparesPeat (h : State.SparesPeat s₀ s) (who : Option Part) (via addr len : Nat) (errs : Errs) :
    State.SparesPeat s₀ (s.readRange who via addr len errs) := by
  refine .foldl (fun s e h => ?_) (.foldl (fun _ b h => State.readBlock_sparesPeat h who via b .clean) h)
  split
  · exact State.readBlock_sparesPeat h who via _ _
  · exact h

end Reads

/-! ## The end of a copy of a page (R232, R233) -/

/-- A page that has come to the peat tier: its slot is given up, and the spill counted (R232). -/
def State.pageSpilled (s : State) (p : Part) (handle page k : Nat) : State :=
  s.modPart p fun q =>
    let q := q.modModel handle fun m => (m.modPool (pagePart page) fun pt => pt.giveSlot k).modDesc page
      fun d => { d with slot := none, loc := .peat }
    { q with kv := { q.kv with spill := satAdd q.kv.spill 1 } }

/-- A page that is back in its slot: its peat area is given up, and the fetch counted (R233). -/
def State.pageFetched (s : State) (p : Part) (handle page : Nat) : State :=
  s.modPart p fun q =>
    let q := q.modModel handle fun m => m.modDesc page fun d => { d with loc := .sheet, peat := none }
    { q with kv := { q.kv with fetch := satAdd q.kv.fetch 1, fullTold := false } }

theorem State.Spares.pageSpilled {s t : State} {p : Part} {handle page k : Nat} (h : State.Spares (s.pageSpilled p handle page k) t) :
    t.peat = s.peat ∧ t.sheet = s.sheet ∧ (t.part p).kv.spill = satAdd (s.part p).kv.spill 1 := by
  refine ⟨h.peat, h.sheet, (congrArg (·.2.2.1) (h.parts p)).trans ?_⟩
  rw [State.pageSpilled, State.part_modPart]
  rfl

theorem State.Spares.pageFetched {s t : State} {p : Part} {handle page : Nat} (h : State.Spares (s.pageFetched p handle page) t) :
    t.peat = s.peat ∧ t.sheet = s.sheet ∧ (t.part p).kv.fetch = satAdd (s.part p).kv.fetch 1 := by
  refine ⟨h.peat, h.sheet, (congrArg (·.2.2.2) (h.parts p)).trans ?_⟩
  rw [State.pageFetched, State.part_modPart]
  rfl

/-- The request that holds a page is looked at when the page is spilled (R232). -/
theorem State.checkHolder_spares {s₀ s : State} (h : State.Spares s₀ s) (p : Part) (handle page : Nat) :
    State.Spares s₀ (match (s.part p).holder handle page with | some (n, _, _) => s.checkSpilled p n | none => s) := by
  split
  · exact State.checkSpilled_spares h _ _
  · exact h

section Ends

variable {s : State} {p : Part} {handle page k unit n : Nat} {m : Model} {pt : PoolPart} {d : PageDesc} {errs : Errs}
  (hm : (s.part p).model handle = some m) (hpt : m.pool[pagePart page]? = some pt) (hd : m.desc page = some d) (hk : d.slot = some k)
  (hu : d.peat = some (unit, n))
include hm hpt hd hk hu

theorem exec_spillDone_held (hl : d.loc = .spilling) (hh : s.rangeHeld (pt.slotAddr k) ((s.part p).pageLen handle page) = true) :
    exec (.spillDone p handle page errs) s = .next s := by
  simp only [exec, execSpillDone, hm, hpt, hd, hl, hk, hu, hh, if_true]

theorem exec_fetchDone_held (hl : d.loc = .fetching) (hh : s.rangeHeld (pt.slotAddr k) ((s.part p).pageLen handle page) = true) :
    exec (.fetchDone p handle page errs) s = .next s := by
  simp only [exec, execFetchDone, hm, hpt, hd, hl, hk, hu, hh, if_true]

/-- The end of a spill reads the slot, copies it under the fence, and then moves the page. -/
theorem exec_spillDone_moves (hl : d.loc = .spilling) (hh : s.rangeHeld (pt.slotAddr k) ((s.part p).pageLen handle page) = false) :
    ∃ t, exec (.spillDone p handle page errs) s = .next t ∧ State.Spares (((
      if (s.breach p (pt.slotAddr k) ((s.part p).pageLen handle page) false).isNone then
        s.readRange (some p) 0 (pt.slotAddr k) ((s.part p).pageLen handle page) errs
      else s).fencedSpill p (pt.slotAddr k) (unit * 4096) ((s.part p).pageLen handle page)).pageSpilled p handle page k) t := by
  refine ⟨_, by simp only [exec, execSpillDone, hm, hpt, hd, hl, hk, hu, hh, Bool.false_eq_true, if_false]; rfl,
    State.afterCopy_spares (State.checkHolder_spares (.refl _) _ _ _) _ _ _⟩

/-- The end of a fetch reads the chunks, copies them under the fence, and then moves the page. -/
theorem exec_fetchDone_moves (hl : d.loc = .fetching) (hh : s.rangeHeld (pt.slotAddr k) ((s.part p).pageLen handle page) = false) :
    ∃ t, exec (.fetchDone p handle page errs) s = .next t ∧ State.Spares (((
      if (s.peatBreach p (unit * 4096) ((s.part p).pageLen handle page) false).isNone then
        s.countChunks p (unit * 16) ((s.part p).pageLen handle page / 256) errs
      else s).fencedFetch p (badOf errs) (unit * 4096) (pt.slotAddr k) ((s.part p).pageLen handle page)).pageFetched p handle page) t := by
  refine ⟨_, by simp only [exec, execFetchDone, hm, hpt, hd, hl, hk, hu, hh, Bool.false_eq_true, if_false]; rfl, ?_⟩
  exact State.afterCopy_spares (State.fetchedOne_spares (State.loseArrived_spares (.refl _) _ _ _) _ _ _) _ _ _

end Ends

/-- Settles O44: the copy between the tiers stores the bytes of whole chunks, and what follows it spares both memories
(`State.Spares`). -/
theorem pagesMoveBetweenTiers : Obligations.PagesMoveBetweenTiers := by
  unfold Obligations.PagesMoveBetweenTiers
  intro s p handle page m pt d k unit n hm hpt hd hk hu hpois hpeat hret hsheet hwf addr all len
  have hlive (hbank : ∀ j, j < len → s.bankDead (placeOf (addr + j / 64 * 64)) = false) : s.Live (pt.slotAddr k / 64) (4 * (all / 256)) := by
    intro i hi
    have hat : (pt.slotAddr k / 64 + i) * 64 = addr + i * 64 / 64 * 64 := by simp only [addr]; omega
    rw [hat]
    exact hbank (i * 64) (by simp only [len]; omega)
  have hunit : unit * 4096 / 256 * 256 = unit * 4096 := by omega
  have hlen : 256 * (all / 256) = len := Nat.mul_comm _ _
  refine ⟨fun errs hh hl => exec_spillDone_held hm hpt hd hk hu hl hh, fun errs hh hl => exec_fetchDone_held hm hpt hd hk hu hl hh,
    fun hh hbank => ⟨fun hl hr hw => ?spill, fun hl hw hr => ?fetch, fun errs g hl hw => ?outside⟩⟩
  case spill =>
    obtain ⟨t, ht, hmoved⟩ := exec_spillDone_moves (errs := []) hm hpt hd hk hu hl hh
    rw [State.readRange_clean hpois, ite_self, State.fencedSpill_within hr hw,
      State.sheetToPeat_live _ hpois hret (hlive hbank), hunit, hlen] at hmoved
    obtain ⟨hp, hs, hcount⟩ := hmoved.pageSpilled
    exact ⟨t, ht, fun j hj => by rw [hp]; exact Memory.read_writeN_readN hwf _ _ hj,
      fun a ha => by rw [hp]; exact Memory.read_writeN_readN_outside ha, hs, hcount⟩
  case fetch =>
    obtain ⟨t, ht, hmoved⟩ := exec_fetchDone_moves (errs := []) hm hpt hd hk hu hl hh
    have hcount : s.countChunks p (unit * 16) ((s.part p).pageLen handle page / 256) [] = s := rfl
    rw [hcount, ite_self, State.fencedFetch_within _ hr hw, show badOf [] = [] from rfl,
      State.peatToSheet_live _ hpeat hret (hlive hbank), hunit, hlen] at hmoved
    obtain ⟨hp, hs, hcount⟩ := hmoved.pageFetched
    exact ⟨t, ht, fun j hj => by rw [hs]; exact Memory.read_writeN_readN hsheet _ _ hj,
      fun a ha => by rw [hs]; exact Memory.read_writeN_readN_outside ha, hp, hcount⟩
  case outside =>
    obtain ⟨t, ht, hmoved⟩ := exec_spillDone_moves (errs := errs) hm hpt hd hk hu hl hh
    have hread : State.SparesPeat s (if (s.breach p (pt.slotAddr k) all false).isNone then
        s.readRange (some p) 0 (pt.slotAddr k) all errs else s) := by
      split
      · exact State.readRange_sparesPeat (.refl s) _ _ _ _ _
      · exact .refl s
    have hspill := State.fencedSpill_outside (a := pt.slotAddr k) ((hread.breach p _ _).trans hw)
    exact ⟨t, ht, hmoved.pageSpilled.1.trans (hspill.peat.trans hread.peat)⟩

end Sys2Proof.Machine

namespace Sys2Proof.Machine

/-! ## The entry of a request that ends with an END-only record (R257, R260, R271, R272) -/

/-- The entry of a request that has ended: its pages, chain and tree given back, and no end waited for any more. -/
def Req.ended (r : Req) (st : ReqState) : Req := { r with
  lists := r.lists.map fun _ => ⟨[], []⟩, directory := ⟨[], []⟩, copying := [], chain := ⟨[], []⟩
  state := st, closing := false, endAs := none, tree := none, lost := none, spillAsked := false, queuePos := 0 }

section

variable {s : State} {p : Part} {h : Nat} {r : Req}

theorem State.endReq_entry (hr : (s.part p).req h = some r) (st : ReqState) : ((s.endReq p h st).part p).req h = some (r.ended st) := by
  have hreleased := ((s.part p).releasePages_onlyModels r).trans (Partition.releaseChain_onlyModels _ ((s.part p).releasePages r).2)
  have hentry : (((s.part p).releasePages r).1.releaseChain ((s.part p).releasePages r).2).1.req h = some r := by
    rw [hreleased.eq]
    exact hr
  simp only [State.endReq, hr, State.part_modPart]
  exact (Partition.req_modReq_same _ h fun _ => _).trans (congrArg (Option.map fun _ => _) hentry)

/-- A request is told of before its entry is changed. -/
theorem State.req_toReq (hr : (s.part p).req h = some r) (n : Nat) (v : Ev) : ((s.toReq p n v).part p).req h = some r :=
  ((s.toReq_quiet p n v).part_eq (·.req h) fun _ _ _ _ _ => rfl).trans hr

theorem State.finishReq_entry (hr : (s.part p).req h = some r) (cause : Nat) :
    ((s.finishReq p h cause).part p).req h = some (r.ended .done) := by
  rw [State.finishReq, hr]
  exact State.endReq_entry (State.req_toReq hr _ _) _

theorem State.expireReq_entry (hr : (s.part p).req h = some r) : ((s.expireReq p h).part p).req h = some (r.ended .expired) := by
  rw [State.expireReq, hr]
  dsimp only
  rw [State.part_modPart]
  exact State.endReq_entry (State.req_toReq hr _ _) _

/-- The commands that wait for an end complete without a change of the requests (R191, R271). -/
theorem State.settle_reqs (s : State) (p : Part) : ((s.settle p).part p).reqs = (s.part p).reqs := by
  refine State.foldl_unchanged (fun s => (s.part p).reqs) _ (fun s c => ?_) _ s
  have hdone (t : State) : ((t.done (.part p) c stOk).part p).reqs = (t.part p).reqs :=
    State.part_done_eq (·.reqs) (fun _ _ _ => rfl) _ _ _ _ _
  dsimp only
  split
  · split
    · split
      · split
        · rfl
        · exact hdone s
      · exact hdone s
    · split
      · rfl
      · obtain ⟨_, hdropped⟩ := s.part_withoutModel p c.model
        exact (hdone (s.withoutModel p c.model)).trans (by rw [hdropped]; rfl)
  · rfl

/-- A record moves its request's PRODUCED on by one, where the partition has a port to write it through (R74). -/
theorem State.writeRecord_produces (hr : (s.part p).req h = some r) (token : W32) (logprob : W16) (isEnd missed drafted : Bool) :
    ∃ n m, ((s.writeRecord p h token logprob isEnd missed drafted).part p).req h = some { r with produced := n, missedAt := m } ∧
      ((s.part p).port.isSome → n = (r.produced + 1) % 2 ^ 32) := by
  cases hport : (s.part p).port with
  | none =>
    refine ⟨r.produced, r.missedAt, ?_, nofun⟩
    simp only [State.writeRecord, hr, hport]
  | some port =>
    have hsent (o : Out) : ((s.sendOn port o).part p).req h = some r :=
      (congrArg (fun x => Partition.req (x.get p) h) (s.sendOn_parts port o)).trans hr
    simp only [State.writeRecord, hr, hport]
    exact ⟨_, _, State.req_modReq_same (hsent _) _, fun _ => rfl⟩

/-- A read of CONSUMED marks in the request's entry at most that it is on its way (R75). -/
theorem State.readConsumed_entry (hr : (s.part p).req h = some r) :
    ∃ x, ((s.readConsumed p h).part p).req h = some { r with ringRead := x } := by
  unfold State.readConsumed
  split
  · next port _ _ =>
    have hissued (addr : Nat) : ((s.issueRead port addr 4 (.ring p h)).part p).req h = some r :=
      ((s.issueRead_calm port addr 4 (.ring p h)).part_eq (·.req h) (fun _ _ _ _ => rfl) p).trans hr
    split
    · exact ⟨r.ringRead, hr⟩
    · split
      · exact ⟨_, State.req_modReq_same (hissued _) _⟩
      · exact ⟨r.ringRead, hr⟩
  · exact ⟨r.ringRead, hr⟩

/-- With a free slot in its ring a request ends at once, its END-only record written (R271, R272). -/
theorem State.endOnly_ends (hr : (s.part p).req h = some r) (hfree : 1 ≤ r.ringFree) (e : Nat) :
    ∃ n m, ((s.endOnly p h e).part p).req h =
        some (({ r with produced := n, missedAt := m } : Req).ended (if e = 5 then .expired else .done)) ∧
      ((s.part p).port.isSome → n = (r.produced + 1) % 2 ^ 32) := by
  simp only [State.endOnly, hr, if_pos hfree]
  generalize (e == 5 || r.deadlinePassed || s.trusted && r.deadline != 0 && decide (r.deadline ≤ s.now)) = missed
  obtain ⟨n, m, hwritten, hn⟩ := State.writeRecord_produces hr 0xFFFFFFFF 0 true missed false
  refine ⟨n, m, (congrArg (lookupA · h) (State.settle_reqs _ p)).trans ?_, hn⟩
  by_cases he : e = 5
  · rw [if_pos he, if_pos he]
    exact State.expireReq_entry hwritten
  · rw [if_neg he, if_neg he]
    exact State.finishReq_entry hwritten e

/-- Without one it waits for the slot, its end kept (R271). -/
theorem State.endOnly_waits (hr : (s.part p).req h = some r) (hfull : r.ringFree = 0) (e : Nat) :
    ∃ x, ((s.endOnly p h e).part p).req h = some { r with closing := true, endAs := some e, ringRead := x } := by
  simp only [State.endOnly, hr, if_neg (show ¬ 1 ≤ r.ringFree by omega)]
  exact State.readConsumed_entry (State.req_modReq_same hr _)

/-! ## Deadlines (R272, R316) -/

theorem State.part_ringTo (s : State) (t : Time) (p : Part) : (s.ringTo t).part p = s.part p := by
  rw [State.ringTo_eq]
  rfl

/-- Whether ring time is trusted does not depend on what it is (R316). -/
theorem State.trusted_ringTo (s : State) (t : Time) : (s.ringTo t).trusted = s.trusted := by
  have hpass (n : Nat) : (s.pass n).trusted = s.trusted := by
    unfold State.pass
    split <;> rfl
  unfold State.ringTo
  dsimp only
  split
  · exact hpass _
  · exact hpass _

/-- An event at a ring time finds that time come. -/
theorem State.le_now_ringTo (s : State) {t : Time} (ht : t < 2 ^ 64) : t ≤ (s.ringTo t).now := by
  unfold State.ringTo
  dsimp only
  split
  · rw [State.now, BitVec.toNat_ofNat, Nat.mod_eq_of_lt ht]
  · next hnow => exact Nat.not_lt.1 hnow

/-- The event of a DEADLINE that CONTINUE lets pass (R272). -/
def Req.missedEvent (r : Req) : Ev := { code := 0x0012, sev := 1, a := r.deadline, b := r.missedAt }

/-- A DEADLINE that has come ends a live request, or with CONTINUE is marked (R272). -/
theorem State.deadline_due (hr : (s.part p).req h = some r) (hd : r.deadline ≠ 0) (hnow : r.deadline ≤ s.now) (ht : s.trusted = true)
    (hl : r.state.live = true) (hp : r.deadlinePassed = false) (he : r.endAs = none) : s.deadline p h =
      if r.continues then (s.toReq p h r.missedEvent).modReq p h fun r => { r with deadlinePassed := true } else s.endOnly p h 5 := by
  rw [State.deadline, hr]
  exact if_pos (by simp [hd, hnow, ht, hl, hp, he])

/-- At a boundary the DEADLINE of a request of no step is looked at once ring time has come there (R272). -/
theorem exec_deadlineReached_boundary (hr : (s.part p).req h = some r) (hst : (s.part p).step = none) (hin : (s.part p).inStep h = false)
    (hd : r.deadline ≠ 0) (ht : s.trusted = true) : exec (.deadlineReached p h) s = .next ((s.ringTo r.deadline).deadline p h) := by
  have hb : (s.part p).atBoundary = true := by rw [Partition.atBoundary, hst]; rfl
  rw [exec, execDeadlineReached, hr]
  exact congrArg Host.Outcome.next (if_pos (by simp [hb, hin, hd, ht]))

/-- At a boundary a request that waits for a slot of its ring tries its END-only record again (R271). -/
theorem exec_endOnlyRecord_waiting {e : Nat} (hr : (s.part p).req h = some r) (hst : (s.part p).step = none) (he : r.endAs = some e) :
    exec (.endOnlyRecord p h) s = .next (s.endOnly p h e) := by
  have hb : (s.part p).atBoundary = true := by rw [Partition.atBoundary, hst]; rfl
  simp only [exec, execEndOnlyRecord, hr, he, hb, if_true]

end

/-- Settles O49: both rows are an END-only record, which ends its request where the ring has a slot (`State.endOnly_ends`) and else is
kept (`State.endOnly_waits`); the row brings the clock to the DEADLINE (log 6). -/
theorem deadlinesAndLateEnds : Obligations.DeadlinesAndLateEnds := by
  unfold Obligations.DeadlinesAndLateEnds
  refine ⟨fun s p h r hr hst hin hd hw ht hl hp he => ?deadline, fun s p h e r hr hst he hfree => ?late⟩
  case deadline =>
    have hpart := s.part_ringTo r.deadline p
    have hr' : ((s.ringTo r.deadline).part p).req h = some r := by rw [hpart]; exact hr
    rw [exec_deadlineReached_boundary hr hst hin hd ht,
      State.deadline_due hr' hd (s.le_now_ringTo hw) ((s.trusted_ringTo _).trans ht) hl hp he]
    cases hc : r.continues with
    | true => exact ⟨_, _, rfl, State.req_modReq_same (State.req_toReq hr' _ _) _, fun _ => rfl, nofun, nofun⟩
    | false =>
      by_cases hfree : 1 ≤ r.ringFree
      · obtain ⟨n, m, hended, hn⟩ := State.endOnly_ends hr' hfree 5
        exact ⟨_, _, rfl, hended, nofun, fun _ _ => ⟨rfl, rfl, hpart ▸ hn⟩, fun _ h0 => by omega⟩
      · obtain ⟨x, hwaits⟩ := State.endOnly_waits hr' (by omega) 5
        exact ⟨_, _, rfl, hwaits, nofun, fun _ h1 => absurd h1 hfree, fun _ _ => ⟨rfl, rfl, rfl, rfl⟩⟩
  case late =>
    obtain ⟨n, m, hended, hn⟩ := State.endOnly_ends hr hfree e
    exact ⟨_, _, exec_endOnlyRecord_waiting hr hst he, hended, rfl, rfl, rfl, hn⟩

end Sys2Proof.Machine

namespace Sys2Proof.Machine

/-! ## Weight repairs under faults (R300-R302)

The telling and counting of a fault, and the end of a request that faults, leave the repairs of the weights alone. -/

/-- The weight repairs, the own oscillator's time, and of each partition the commands taken and the PLACE records. -/
def State.mending (s : State) : List Repair × Time × (Part → List Cmd × List Place) :=
  (s.repairs, s.uptime, fun q => ((s.part q).taken, (s.part q).places))

section Mending

variable {s t : State}

theorem State.Tells.mending (h : State.Tells s t) : t.mending = s.mending :=
  Prod.ext (h.eq (·.repairs) fun _ _ _ _ _ => rfl) (Prod.ext (h.eq (·.uptime) fun _ _ _ _ _ => rfl) (funext fun q =>
    (congrArg (fun x : Partition => (x.taken, x.places)) (h.parts q)).trans rfl))

theorem State.mending_modPart (s : State) {p : Part} {f : Partition → Partition} (ht : (f (s.part p)).taken = (s.part p).taken)
    (hp : (f (s.part p)).places = (s.part p).places) : (s.modPart p f).mending = s.mending := by
  refine Prod.ext rfl (Prod.ext rfl (funext fun q => ?_))
  show (((s.modPart p f).part q).taken, ((s.modPart p f).part q).places) = ((s.part q).taken, (s.part q).places)
  by_cases hq : q = p
  · rw [hq, State.part_modPart, ht, hp]
  · rw [State.part_modPart_other _ _ _ _ hq]

theorem State.repair?_of_mending (h : t.mending = s.mending) (p : Part) (handle region billet : Nat) :
    t.repair? p handle region billet = s.repair? p handle region billet := by
  have hrepairs : t.repairs = s.repairs := congrArg (·.1) h
  rw [State.repair?, State.repair?, hrepairs]

theorem State.billetPeat_of_mending (h : t.mending = s.mending) (p : Part) (m : Model) (region billet : Nat) :
    (t.part p).billetPeat m region billet = (s.part p).billetPeat m region billet := by
  have hplaces : (t.part p).places = (s.part p).places := congrArg (fun x => (x.2.2 p).2) h
  rw [Partition.billetPeat, Partition.billetPeat, Partition.place, Partition.place, hplaces]

theorem State.countDeferred_mending (s : State) (p : Part) : (s.countDeferred p).mending = s.mending := by
  refine Eq.trans ?_ (s.mending_modPart (p := p)
    (f := fun q => { q with ctr := { q.ctr with fltDeferred := satAdd q.ctr.fltDeferred 1 } }) rfl rfl)
  unfold State.countDeferred State.alertFault
  split <;> rfl

theorem State.countChunk_uncorrectable_mending (s : State) (p : Part) (c : Nat) :
    (s.countChunk p c .uncorrectable).mending = s.mending := by
  simp only [State.countChunk]
  split
  · rfl
  · exact (State.toLadder_tells (.refl _) _ _).mending.trans ((State.countDeferred_mending _ p).trans (s.mending_modPart rfl rfl))

theorem State.told_tells (s : State) (p : Part) (seg : Option Nat) (kind : Nat) : State.Tells s (s.told p seg kind) := by
  cases seg with
  | none => exact .refl s
  | some g => exact State.fenceViolation_tells (.refl s) p g kind

theorem State.toConcerned_mending (s : State) (holder : Part) (handle region code sev b ownerB : Nat) :
    (s.toConcerned holder handle region code sev b ownerB).mending = s.mending := by
  unfold State.toConcerned
  refine (State.toOwner_tells (.refl _) _ _).mending.trans (State.foldl_unchanged State.mending _ (fun s x => ?_) _ s)
  split
  · rfl
  · exact (State.toPart_tells (.refl s) _ _ _).mending

theorem State.sweep_mending (s : State) : s.sweep.mending = s.mending :=
  State.foldl_unchanged State.mending
    (fun (u : State) p => u.modPart p fun q => { q with fifo := q.fifo.filter fun e => !(e.handling && s.entryBusy e == false) })
    (fun u _ => u.mending_modPart rfl rfl) allParts s

theorem State.endReq_mending (s : State) (p : Part) (h : Nat) (st : ReqState) : (s.endReq p h st).mending = s.mending := by
  unfold State.endReq
  split
  · rfl
  · next r _ =>
    have hreleased := ((s.part p).releasePages_onlyModels r).trans (Partition.releaseChain_onlyModels _ ((s.part p).releasePages r).2)
    dsimp only
    generalize ((s.part p).releasePages r).1.releaseChain ((s.part p).releasePages r).2 = x at hreleased ⊢
    have htaken : x.1.taken = (s.part p).taken := by rw [hreleased.eq]
    have hplaces : x.1.places = (s.part p).places := by rw [hreleased.eq]
    exact s.mending_modPart htaken hplaces

theorem State.faultReq_mending (s : State) (p : Part) (h : Nat) (v : Ev) : (s.faultReq p h v).mending = s.mending :=
  (State.mending_modPart _ rfl rfl).trans (State.toReq_tells (.refl s) p h v).mending

end Mending

/-! ## The record of a repair -/

section Repairs

variable {s : State} {p : Part} {handle region billet : Nat} {r : Repair}

theorem State.repair?_modRepair {f : Repair → Repair} (hr : s.repair? p handle region billet = some r)
    (hf : ∀ x, ((f x).part, (f x).handle, (f x).region, (f x).billet) = (x.part, x.handle, x.region, x.billet)) :
    (s.modRepair p handle region billet f).repair? p handle region billet = some (f r) := by
  refine (find?_modifyFirst_same _ f (fun x hx => ?_) _).trans (congrArg (Option.map f) hr)
  obtain ⟨hpart, hhandle, hregion, hbillet⟩ := by simpa only [Prod.mk.injEq] using hf x
  rwa [hpart, hhandle, hregion, hbillet]

/-- A source that is lost leaves its billet's repair waiting for a supply from now on (R302). -/
theorem State.sourceLost_repair (hr : s.repair? p handle region billet = some r) :
    (s.sourceLost p handle region billet).repair? p handle region billet = some { r with phase := .lost s.uptime false } := by
  have hmended (u : State) (v : Ev) : ((u.countDeferred p).toOwner (some p) v).mending = u.mending :=
    (State.toOwner_tells (.refl _) _ _).mending.trans (u.countDeferred_mending p)
  unfold State.sourceLost
  rw [hr]
  exact (State.repair?_of_mending (hmended _ _) _ _ _ _).trans (State.repair?_modRepair hr fun _ => rfl)

/-- No record is left of a repair that is over (R301). -/
theorem State.repaired_repair (hr : s.repair? p handle region billet = some r) (u : State) (how : Nat) :
    (u.repaired r how).repair? p handle region billet = none := by
  have hkey := List.find?_some hr
  simp only [Bool.and_eq_true, beq_iff_eq] at hkey
  obtain ⟨⟨⟨hpart, hhandle⟩, hregion⟩, hbillet⟩ := hkey
  refine (State.repair?_of_mending ((State.sweep_mending _).trans (State.toConcerned_mending ..)) _ _ _ _).trans ?_
  rw [hpart, hhandle, hregion, hbillet]
  refine List.find?_eq_none.2 fun x hx htest => ?_
  obtain ⟨-, hother⟩ := List.mem_filter.1 hx
  rw [htest] at hother
  exact Bool.noConfusion hother

theorem State.repaired_spares (u : State) (r : Repair) (how : Nat) : State.Spares u (u.repaired r how) :=
  State.sweep_spares (State.toConcerned_spares (State.modRepairs_spares (.refl u) _ _) _ _ _ _ _ _ _)

end Repairs

/-! ## A refetch (R300) -/

section Refetch

variable {s : State} {p : Part} {handle region billet a c : Nat} {r : Repair} {m : Model}

/-- A fetch to sheet memory that the partition may not write stores nothing. -/
theorem State.fencedFetch_outside {len g : Nat} (bad : List Nat) (hw : s.breach p a len true = some g) :
    State.Spares s (s.fencedFetch p bad c a len) := by
  simp only [State.fencedFetch, hw, Option.isSome_some, if_true]
  exact State.told_spares (State.told_spares (.refl s) _ _ _) _ _ _

/-- Of chunks that read CLEAN a billet is written again, as far as the fence lets it. -/
theorem State.refetchBillet_clean (ha : (s.part p).billetAddr m region billet = some a) (hc : (s.part p).billetPeat m region billet = some c)
    (hret : s.peatRetired = false) (hpois : s.peatPoisoned = []) (hread : s.peatBreach p c 4096 false = none) :
    s.refetchBillet p m region billet [] = (s.fencedFetch p [] c ((s.part p).relieved m.handle a) 4096, true) := by
  simp [State.refetchBillet, ha, hc, hread, State.chunk, hret, hpois]

/-- Of a chunk that reads UNCORRECTABLE nothing is written. -/
theorem State.refetchBillet_bad {bad : List Nat} {i : Nat} (hc : (s.part p).billetPeat m region billet = some c) (hi : i < 16)
    (hbad : c / 256 + i ∈ bad) : (s.refetchBillet p m region billet bad).2 = false ∧
      State.Tells s (s.refetchBillet p m region billet bad).1 := by
  have hlost : ((List.range 16).any fun i => (s.chunk (c / 256 + i)).2 || bad.contains (c / 256 + i)) = true :=
    List.any_eq_true.2 ⟨i, List.mem_range.2 hi, by rw [List.contains_iff_mem.2 hbad, Bool.or_true]⟩
  unfold State.refetchBillet
  rw [hc]
  cases (s.part p).billetAddr m region billet with
  | none => exact ⟨rfl, .refl s⟩
  | some _ =>
    simp only [hlost, Bool.or_true, if_true]
    exact ⟨trivial, s.told_tells p _ 0⟩

/-- A refetch after its chunks have been read: the billet is written again, or its source is lost. -/
def State.refetched (s : State) (p : Part) (handle region billet : Nat) (m : Model) (r : Repair) (bad : List Nat) : State :=
  if (s.refetchBillet p m region billet bad).2 then (s.refetchBillet p m region billet bad).1.repaired r 0
  else ((s.refetchBillet p m region billet bad).1.sourceLost p handle region billet).sweep

section Row

variable (hr : s.repair? p handle region billet = some r) (hm : (s.part p).model handle = some m) (hph : r.phase = .refetch)
  (ha : (s.part p).billetAddr m region billet = some a) (hc : (s.part p).billetPeat m region billet = some c)
include hr hm hph ha hc

theorem exec_refetchDone_held (errs : Errs)
    (hh : s.chunksHeld (c / 256) 16 = true ∨ s.rangeHeld ((s.part p).relieved m.handle a) 4096 = true) :
    exec (.refetchDone p handle region billet errs) s = .next s := by
  simp only [exec, execRefetchDone, hr, hm, hph, ha, hc, if_true, Bool.or_eq_true, hh]

theorem exec_refetchDone_served (errs : Errs) (hch : s.chunksHeld (c / 256) 16 = false)
    (hrh : s.rangeHeld ((s.part p).relieved m.handle a) 4096 = false) (hread : s.peatBreach p c 4096 false = none) :
    exec (.refetchDone p handle region billet errs) s =
      .next ((s.countChunks p (c / 256) 16 errs).refetched p handle region billet m r (badOf errs)) := by
  simp only [exec, execRefetchDone, hr, hm, hph, ha, hc, hch, hrh, hread, if_true, Bool.or_self, Bool.false_eq_true, if_false,
    Option.isNone_none]
  rfl

end Row

/-- A refetch of clean chunks ends its repair; memory is as its copy under the fence left it. -/
theorem State.refetched_clean (hr : s.repair? p handle region billet = some r) (ha : (s.part p).billetAddr m region billet = some a)
    (hc : (s.part p).billetPeat m region billet = some c) (hret : s.peatRetired = false) (hpois : s.peatPoisoned = [])
    (hread : s.peatBreach p c 4096 false = none) :
    State.Spares (s.fencedFetch p [] c ((s.part p).relieved m.handle a) 4096) (s.refetched p handle region billet m r []) ∧
      (s.refetched p handle region billet m r []).repair? p handle region billet = none := by
  rw [State.refetched, State.refetchBillet_clean ha hc hret hpois hread]
  exact ⟨State.repaired_spares _ r 0, State.repaired_repair hr _ 0⟩

/-- A refetch of which a chunk reads UNCORRECTABLE loses the source, and memory is as it was (R302). -/
theorem State.refetched_bad {bad : List Nat} {i : Nat} (hr : s.repair? p handle region billet = some r)
    (hc : (s.part p).billetPeat m region billet = some c) (hi : i < 16) (hbad : c / 256 + i ∈ bad) :
    State.Spares s (s.refetched p handle region billet m r bad) ∧
      (s.refetched p handle region billet m r bad).repair? p handle region billet = some { r with phase := .lost s.uptime false } := by
  obtain ⟨hlost, htold⟩ := State.refetchBillet_bad hc hi hbad
  have hup : (s.refetchBillet p m region billet bad).1.uptime = s.uptime := congrArg (·.2.1) htold.mending
  rw [State.refetched, hlost]
  refine ⟨State.sweep_spares (State.sourceLost_spares ((State.Spares.refl s).tells htold) p _ _ _), ?_⟩
  rw [← hup]
  exact (State.repair?_of_mending (State.sweep_mending _) _ _ _ _).trans
    (State.sourceLost_repair ((State.repair?_of_mending htold.mending _ _ _ _).trans hr))

/-- The sixteen chunks copied whole: the billet reads as its source did, and nothing else is written. -/
theorem State.fencedFetch_billet {b : Nat} (hpois : s.peatPoisoned = []) (hret : s.peatRetired = false) (hwf : s.sheet.wf = true)
    (hbank : ∀ i, i < 64 → s.bankDead (placeOf (b / 64 * 64 + 64 * i)) = false) (hread : s.peatBreach p c 4096 false = none)
    (hwrite : s.breach p b 4096 true = none) :
    (∀ j, j < 4096 → (s.fencedFetch p [] c b 4096).sheet.read (b / 64 * 64 + j) = s.peat.read (c / 256 * 256 + j)) ∧
      (∀ x, x < b / 64 * 64 ∨ b / 64 * 64 + 4096 ≤ x → (s.fencedFetch p [] c b 4096).sheet.read x = s.sheet.read x) ∧
      (s.fencedFetch p [] c b 4096).peat = s.peat := by
  have hlive : s.Live (b / 64) (4 * 16) := fun i hi => by
    rw [Nat.add_mul, Nat.mul_comm i]
    exact hbank i hi
  rw [State.fencedFetch_within [] hread hwrite, show 4096 / 256 = 16 from rfl, State.peatToSheet_live 16 hpois hret hlive]
  dsimp only
  exact ⟨fun j hj => Memory.read_writeN_readN hwf _ _ hj, fun x hx => Memory.read_writeN_readN_outside hx, rfl⟩

end Refetch

/-! ## `BILLET_SUPPLY` (R302) -/

section Supply

variable {s : State} {src : Src} {c : Cmd} {p : Part} {m : Model} {x : RegionRec}

/-- A read of host memory goes out at once where its port has none outstanding (R56). -/
theorem State.issueRead_idle {port : Port} (hnone : s.outstanding port = 0) (hsent : ∀ x ∈ s.reads, x.sent = true) (addr len : Nat)
    (why : ReadFor) : s.issueRead port addr len why = { s with
      reads := s.reads ++ [{ port := port, tag := s.freeTag, addr := addr, len := len, issued := s.uptime, why := why }]
      nextTag := (s.freeTag + 1) % tagCount, out := s.out ++ [.hostRead port s.freeTag addr len] } := by
  have hqueue : (s.reads.any fun r => r.port == port && !r.sent) = false :=
    List.any_eq_false.2 fun r hr => by rw [hsent r hr]; simp
  simp only [State.issueRead, State.mayIssue, hnone, hqueue]
  rfl

/-- A command's read of host memory, where its port has none outstanding, changes what its partition or the owner has taken, the reads,
and what was sent. -/
theorem State.cmdRead_idle {port : Port} (hport : s.srcPort src = some port) (hlive : s.portLive port = true)
    (hnone : s.outstanding port = 0) (hsent : ∀ x ∈ s.reads, x.sent = true) (addr len : Nat) :
    (s.cmdRead src c addr len).out = s.out ++ [.hostRead port s.freeTag addr len] ∧
      (s.cmdRead src c addr len).reads = s.reads ++
        [{ port := port, tag := s.freeTag, addr := addr, len := len, issued := s.uptime, why := .cmd src c.id }] ∧
      (s.cmdRead src c addr len).repairs = s.repairs ∧ (s.cmdRead src c addr len).sheet = s.sheet ∧
      (s.cmdRead src c addr len).peat = s.peat := by
  simp only [State.cmdRead, hport, hlive, if_true, State.issueRead_idle hnone hsent]
  cases src <;> exact ⟨rfl, rfl, rfl, rfl, rfl⟩

theorem exec_billetSupply (hc : s.pickCmd src 0x51 = some c) : exec (.billetSupply src) s = .next (s.billetSupply src c) := by
  simp only [exec, execBilletSupply, hc]

section Named

variable (hport : s.srcPort src = some s.ownerPort) (hp : c.f 33 1 = p.val) (hm : (s.part p).model c.model = some m)
  (hx : m.pkg.regions[c.f 16 4]? = some x) (hk : x.kind = c.f 32 1)
include hport hp hm hx hk

/-- A supply of what is not lost is refused, before and after its read (R302). -/
theorem State.billetSupply_unlost (hloss : s.lossOf p c.model (c.f 16 4) (c.f 20 4) = none) :
    s.billetSupply src c = s.done src c stWrongState := by
  have hlt := p.isLt
  have hne : p.val ≠ 0xFF := by omega
  cases hgot : c.got with
  | nil => simp [State.billetSupply, hport, hp, hne, hlt, hgot, hm, hx, hk, hloss]
  | cons bytes l => simp [State.billetSupply, hport, hp, hne, hlt, hgot, State.supplyBytes, hloss]

theorem State.billetSupply_lost {r : Repair} (hloss : s.lossOf p c.model (c.f 16 4) (c.f 20 4) = some r) (hgot : c.got = []) :
    s.billetSupply src c = s.cmdRead src c (c.f 24 8) 4096 := by
  have hlt := p.isLt
  have hne : p.val ≠ 0xFF := by omega
  simp [State.billetSupply, hport, hp, hne, hlt, hgot, hm, hx, hk, hloss]

end Named

end Supply

/-! ## A supply that does not come in time (R302) -/

/-- No partition has taken a command that waits for an end. -/
def State.NoneClosing (s : State) : Prop := ∀ q, ∀ c ∈ (s.part q).taken, c.run ≠ .closing

theorem State.NoneClosing.of_mending {s t : State} (h : s.NoneClosing) (k : t.mending = s.mending) : t.NoneClosing := fun q => by
  have htaken : (t.part q).taken = (s.part q).taken := congrArg (fun x => (x.2.2 q).1) k
  rw [htaken]
  exact h q

/-- The step in progress has taken a request. -/
def Partition.stepTakes (q : Partition) (h : Nat) : Bool :=
  match q.step with | some st => st.picks.any fun y => y.req == h | none => false

/-- A request faults for a billet whose supply has timed out, unless a step has taken it (R302). -/
def State.supplyFaultAt (s : State) (region billet : Nat) (x : Part × Nat × Nat) : State :=
  if (s.part x.1).stepTakes x.2.2 then s else s.supplyFault x.1 x.2.1 region billet x.2.2

section Timeout

variable {s : State} {p q : Part} {handle region billet h n : Nat} {r : Repair} {since : Time}

theorem State.settle_unchanged (hnone : s.NoneClosing) (p : Part) : s.settle p = s := by
  unfold State.settle
  have hrun := hnone p
  generalize (s.part p).taken = l at hrun
  induction l with
  | nil => rfl
  | cons c l ih =>
    rw [List.foldl_cons, if_neg (hrun c List.mem_cons_self)]
    exact ih fun d hd => hrun d (List.mem_cons_of_mem _ hd)

theorem State.supplyFault_eq {x : Req} (hx : (s.part q).req n = some x) (hnone : s.NoneClosing) : ∃ v : Ev, v.code = 0x2033 ∧
    s.supplyFault q handle region billet n = (s.faultReq q n v).endReq q n .faulted := by
  refine ⟨{ code := 0x2033, sev := 3, a := handle * 2 ^ 32 + region, b := billet * 2 ^ 32 + x.length }, rfl, ?_⟩
  rw [State.supplyFault, hx]
  exact State.settle_unchanged (hnone.of_mending ((State.endReq_mending _ _ _ _).trans (s.faultReq_mending _ _ _))) q

theorem State.supplyFault_mending (hnone : s.NoneClosing) (q : Part) (handle region billet n : Nat) :
    (s.supplyFault q handle region billet n).mending = s.mending := by
  cases hx : (s.part q).req n with
  | none => simp only [State.supplyFault, hx]
  | some x =>
    obtain ⟨v, -, heq⟩ := State.supplyFault_eq (handle := handle) (region := region) (billet := billet) hx hnone
    rw [heq]
    exact (State.endReq_mending _ _ _ _).trans (s.faultReq_mending _ _ v)

theorem State.supplyFaultAt_mending (hnone : s.NoneClosing) (region billet : Nat) (x : Part × Nat × Nat) :
    (s.supplyFaultAt region billet x).mending = s.mending := by
  unfold State.supplyFaultAt
  split
  · rfl
  · exact State.supplyFault_mending hnone _ _ _ _ _

theorem State.supplyFaults_mending (region billet : Nat) (l : List (Part × Nat × Nat)) (hnone : s.NoneClosing) :
    (l.foldl (fun s x => s.supplyFaultAt region billet x) s).mending = s.mending := by
  induction l generalizing s with
  | nil => rfl
  | cons x l ih =>
    have hone := State.supplyFaultAt_mending hnone region billet x
    exact (ih (hnone.of_mending hone)).trans hone

/-- A request of a partition that is in no step FAULTS, and its FAULT field keeps the code (R254, R302). -/
theorem State.supplyFaultAt_faults {x : Req} (hx : (s.part q).req n = some x) (hstep : (s.part q).step = none) (hnone : s.NoneClosing)
    (region billet : Nat) :
    ∃ y, ((s.supplyFaultAt region billet (q, h, n)).part q).req n = some y ∧ y.state = .faulted ∧ y.fault = 0x2033 := by
  obtain ⟨v, hcode, heq⟩ := State.supplyFault_eq (handle := h) (region := region) (billet := billet) hx hnone
  have hfault := State.req_modReq_same (State.req_toReq hx n v) fun r => { r with fault := v.code }
  have hfree : ¬ (s.part q).stepTakes n = true := by rw [Partition.stepTakes, hstep]; exact Bool.false_ne_true
  rw [State.supplyFaultAt, if_neg hfree, heq]
  exact ⟨_, State.endReq_entry hfault .faulted, rfl, hcode⟩

/-- The time of a supply has run out: the clock stands there, and the loss is marked (R302). -/
def State.supplyLate (s : State) (p : Part) (handle region billet : Nat) (since : Time) : State :=
  (s.passTo (since + s.peatSupplyTimeout.toNat * 1000000)).modRepair p handle region billet fun r => { r with phase := .lost since true }

section Row

variable (hr : s.repair? p handle region billet = some r) (hph : r.phase = .lost since false)
include hr hph

theorem exec_supplyTimeout_never (h0 : s.peatSupplyTimeout = 0) : exec (.supplyTimeout p handle region billet) s = .next s := by
  simp only [exec, execSupplyTimeout, hr, hph, h0, if_true]

theorem exec_supplyTimeout_due (h0 : s.peatSupplyTimeout ≠ 0) : exec (.supplyTimeout p handle region billet) s =
    .next (((s.supplyLate p handle region billet since).billetRequests p handle region).foldl
      (fun s x => s.supplyFaultAt region billet x) (s.supplyLate p handle region billet since)) := by
  simp only [exec, execSupplyTimeout, hr, hph, h0, if_false]
  rfl

end Row

theorem State.supplyLate_calm (s : State) (p : Part) (handle region billet : Nat) (since : Time) :
    State.Calm s (s.supplyLate p handle region billet since) := by
  refine State.Calm.trans ?_ (State.modRepairs_calm _ _ _)
  rw [State.passTo_eq]
  exact .of_eq rfl rfl rfl

theorem State.supplyLate_repair (hr : s.repair? p handle region billet = some r) (since : Time) :
    (s.supplyLate p handle region billet since).repair? p handle region billet = some { r with phase := .lost since true } := by
  refine State.repair?_modRepair ?_ fun _ => rfl
  rw [State.passTo_eq]
  exact hr

theorem State.modRepairs_taken (s : State) (p : Part) (f : List Repair → List Repair) (i : Part) :
    ((s.modRepairs p f).part i).taken = (s.part i).taken :=
  State.part_modPart_eq (·.taken) s p (fun q => { q with fifo := followRepairs p (f s.repairs) q.fifo }) (fun _ => rfl) i

theorem State.NoneClosing.supplyLate (hnone : s.NoneClosing) (p : Part) (handle region billet : Nat) (since : Time) :
    (s.supplyLate p handle region billet since).NoneClosing := by
  have hpassed (i : Part) : ((s.passTo (since + s.peatSupplyTimeout.toNat * 1000000)).part i).taken = (s.part i).taken := by
    rw [State.passTo_eq]
    rfl
  intro i
  have htaken : ((s.supplyLate p handle region billet since).part i).taken = (s.part i).taken :=
    (State.modRepairs_taken _ p _ i).trans (hpassed i)
  rw [htaken]
  exact hnone i

/-- Which requests a billet concerns is no matter of records, of commands taken or of FIFOs (R302). -/
theorem State.Calm.billetRequests {t : State} (hcalm : State.Calm s t) (p : Part) (handle region : Nat) :
    t.billetRequests p handle region = s.billetRequests p handle region := by
  have hmodels (i : Part) : (t.part i).models = (s.part i).models := hcalm.part_eq (·.models) (fun _ _ _ _ => rfl) i
  have hmodel (i : Part) : (t.part i).model = (s.part i).model := hcalm.part_eq (·.model) (fun _ _ _ _ => rfl) i
  have hreqs (i : Part) : (t.part i).reqs = (s.part i).reqs := hcalm.part_eq (·.reqs) (fun _ _ _ _ => rfl) i
  have huses (i : Part) : (t.part i).uses = (s.part i).uses := hcalm.part_eq (·.uses) (fun _ _ _ _ => rfl) i
  simp only [State.billetRequests, State.concerned, hmodels, hmodel, hreqs, huses]

/-- What an association list holds is found under its key. -/
theorem lookupA_isSome_of_mem {α β : Type} [DecidableEq α] {l : List (α × β)} {x : α × β} (hx : x ∈ l) :
    ∃ v, lookupA l x.1 = some v := by
  cases h : lookupA l x.1 with
  | some v => exact ⟨v, rfl⟩
  | none => exact absurd rfl (ne_of_lookupA_none h x hx)

theorem State.req_of_billetRequests (hmem : (q, h, n) ∈ s.billetRequests p handle region) : ∃ x, (s.part q).req n = some x := by
  obtain ⟨y, -, hy⟩ := List.mem_flatMap.1 hmem
  obtain ⟨x, hx, heq⟩ := List.mem_map.1 hy
  obtain ⟨rfl, -, rfl⟩ := by simpa only [Prod.mk.injEq] using heq
  exact lookupA_isSome_of_mem (List.mem_filter.1 hx).1

end Timeout

/-- Settles O43: a refetch ends in the copy under the fence (`State.refetched_clean`) or in the loss of its source
(`State.refetched_bad`); the faults of a timeout leave the repairs and the clock alone (`State.mending`). -/
theorem weightsAreRefetched : Obligations.WeightsAreRefetched := by
  unfold Obligations.WeightsAreRefetched
  dsimp only
  refine ⟨fun s p handle region billet a c r m hr hm hph ha hc hret hpois hwf hbank => ⟨fun hh errs => ?held,
      fun hch hrh hread => ⟨fun g hwrite => ?outside, fun hwrite => ?within, fun i hi => ?uncorrectable⟩⟩,
    fun s src c p m x hpick hport hp hm hx hk => ⟨fun hloss => ?unlost, fun r hloss hgot hlive hidle hsent => ?supplied⟩,
    fun s p handle region billet since r hr hph => ⟨fun h0 => ?never, fun h0 hnone => ?due⟩⟩
  case held => exact exec_refetchDone_held hr hm hph ha hc errs hh
  case outside =>
    have hfetch := State.fencedFetch_outside (c := c) [] hwrite
    have hend := (State.refetched_clean hr ha hc hret hpois hread (m := m)).1
    exact ⟨_, exec_refetchDone_served hr hm hph ha hc [] hch hrh hread, hend.sheet.trans hfetch.sheet, hend.peat.trans hfetch.peat⟩
  case within =>
    obtain ⟨hend, hover⟩ := State.refetched_clean hr ha hc hret hpois hread (m := m)
    obtain ⟨hbytes, hothers, hpeat⟩ := State.fencedFetch_billet hpois hret hwf hbank hread hwrite
    refine ⟨_, exec_refetchDone_served hr hm hph ha hc [] hch hrh hread, fun j hj => ?_, fun x hx => ?_, hend.peat.trans hpeat, hover⟩
    · exact (congrArg (Memory.read · _) hend.sheet).trans (hbytes j hj)
    · exact (congrArg (Memory.read · _) hend.sheet).trans (hothers x hx)
  case uncorrectable =>
    have hchunk : s.countChunks p (c / 256) 16 [(c / 256 + i, .uncorrectable)] = s.countChunk p (c / 256 + i) .uncorrectable := by
      simp [State.countChunks, inRange, hi]
    have hmended := s.countChunk_uncorrectable_mending p (c / 256 + i)
    have hspared := s.countChunk_uncorrectable_spares p (c / 256 + i)
    obtain ⟨hend, hlost⟩ := State.refetched_bad (m := m) (bad := [c / 256 + i]) ((State.repair?_of_mending hmended _ _ _ _).trans hr)
      ((State.billetPeat_of_mending hmended p m region billet).trans hc) hi (List.mem_singleton_self _)
    have hup : (s.countChunk p (c / 256 + i) .uncorrectable).uptime = s.uptime := congrArg (·.2.1) hmended
    have hexec := exec_refetchDone_served hr hm hph ha hc [(c / 256 + i, .uncorrectable)] hch hrh hread
    rw [hchunk] at hexec
    exact ⟨_, _, hexec, hend.sheet.trans hspared.sheet, hlost, congrArg (RepairPhase.lost · false) hup⟩
  case unlost =>
    refine ⟨_, exec_billetSupply hpick, ?_⟩
    rw [State.billetSupply_unlost hport hp hm hx hk hloss]
    exact s.done_tells src c _ 0
  case supplied =>
    refine ⟨_, exec_billetSupply hpick, ?_⟩
    rw [State.billetSupply_lost hport hp hm hx hk hloss hgot]
    exact State.cmdRead_idle hport hlive hidle hsent _ _
  case never => exact exec_supplyTimeout_never hr hph h0
  case due =>
    have hlate := State.NoneClosing.supplyLate hnone p handle region billet since
    have hcalm := s.supplyLate_calm p handle region billet since
    have hmended := State.supplyFaults_mending region billet
      ((s.supplyLate p handle region billet since).billetRequests p handle region) hlate
    refine ⟨_, exec_supplyTimeout_due hr hph h0, (State.repair?_of_mending hmended _ _ _ _).trans (State.supplyLate_repair hr since),
      fun hon => ?_, fun q h n hone hstep => ?_⟩
    · have hup := congrArg (·.2.1) hmended
      exact (State.le_uptime_passTo hon).trans_eq hup.symm
    · have hreqs := (hcalm.billetRequests p handle region).trans hone
      obtain ⟨x, hx⟩ := State.req_of_billetRequests (hreqs ▸ List.mem_singleton_self (q, h, n))
      rw [hreqs]
      exact State.supplyFaultAt_faults hx ((hcalm.part_eq (·.step) (fun _ _ _ _ => rfl) q).trans hstep) hlate region billet

end Sys2Proof.Machine

namespace Sys2Proof.Machine

/-! ## Power that comes (R322, R383, R385) -/

section

variable {s : State} {s1 s2 s3 : BitVec 4}

/-- Bytes drawn change the count of free values alone. -/
theorem State.drawBytes_eq (s : State) (n : Nat) : (s.drawBytes n).2 = { s with fresh := s.fresh + n } := by
  induction n generalizing s with
  | zero => rfl
  | succ n ih => exact (ih s.draw.2).trans (congrArg (fun k => { s with fresh := k }) (by rw [Nat.add_comm n, ← Nat.add_assoc]; rfl))

/-- A nonce drawn changes SEC_NONCE and the count of free values (R363). -/
theorem State.drawNonce_eq (s : State) :
    s.drawNonce = { s with fresh := s.fresh + 48, sec := { s.sec with nonce := (s.drawBytes 48).1 } } :=
  congrArg (fun u : State => u.modSec fun x => { x with nonce := (s.drawBytes 48).1 }) (s.drawBytes_eq 48)

theorem strapsAgree_iff : strapsAgree s1 s2 s3 = true ↔ s1 = s2 ∧ s2 = s3 := by
  rw [strapsAgree, Bool.and_eq_true, beq_iff_eq, beq_iff_eq]

/-- The module as power-up leaves it before its nonce is drawn: blank, with the straps latched and the ring in its role (R322, R383). -/
def State.poweredUp (s : State) (straps now : BitVec 4) (agree : Bool) : State :=
  ({ s.blank.modPins fun x => { x with pwrEn := true, straps := straps, strapsNow := now, unstable := !agree } with
    ring := Ring.fresh (straps.getLsbD 3) }).modPower fun x => { x with phase := .boot }

theorem exec_pwrEnRise (hoff : s.power.phase = .off) (hlow : s.pins.pwrEn = false) (s1 s2 s3 : BitVec 4) : exec (.pwrEnRise s1 s2 s3) s =
    .next (s.poweredUp (if strapsAgree s1 s2 s3 then s1 else 0) s3 (strapsAgree s1 s2 s3)).drawNonce :=
  congrArg Host.Outcome.next (if_pos ⟨beq_iff_eq.2 hoff, hlow⟩)

/-! ## Power that goes (R378, R385, R390) -/

/-- A module that power has left: OFF, its memories empty, its partitions absent, its links down; its cause is in LAST_OFF (R385). -/
theorem State.powerDown_loses (s : State) (cause : Nat) : (s.powerDown cause).power.phase = .off ∧
    (s.powerDown cause).flash = { s.flash with lastOff := cause } ∧ (s.powerDown cause).out = s.out ∧ (s.powerDown cause).sheet = [] ∧
    (s.powerDown cause).peat = [] ∧ (∀ p, ((s.powerDown cause).part p).st = .absent) ∧
    ∀ i, ((s.powerDown cause).port i).linkUp = false := by
  refine ⟨rfl, rfl, rfl, rfl, rfl, fun p => ?parts, fun i => ?ports⟩
  case parts =>
    have hpart : (s.powerDown cause).part p = {} := Vector.getElem_replicate p.isLt
    rw [hpart]
  case ports =>
    have hport : (s.powerDown cause).port i = { perst := (s.port i).perst } := Vector.getElem_map _ i.isLt
    rw [hport]

theorem exec_pwrEnFall (hon : s.power.phase ≠ .off) (hhigh : s.pins.pwrEn = true) :
    exec .pwrEnFall s = .next ((s.powerDown 1).modPins fun x => { x with pwrEn := false, thermTripN := true }) := by
  have hon' : ¬ s.isOff = true := fun h => hon (beq_iff_eq.1 h)
  refine congrArg Host.Outcome.next ((if_pos hhigh).trans ?_)
  rw [if_neg hon']

theorem State.protect_on (hon : s.power.phase ≠ .off) (cause : Nat) : s.protect cause = s.powerDown cause :=
  if_neg fun h => hon (beq_iff_eq.1 h)

/-- A protective action of the input stage takes the power at once (R378). -/
theorem exec_protect (hon : s.power.phase ≠ .off) :
    ∀ x ∈ [(Instr.undervoltage, 2), (Instr.overvoltage, 3), (Instr.overcurrent, 4)], exec x.1 s = .next (s.powerDown x.2) ∧ x.2 ≠ 1 := by
  simp only [List.forall_mem_cons]
  exact ⟨⟨congrArg _ (State.protect_on hon 2), by decide⟩, ⟨congrArg _ (State.protect_on hon 3), by decide⟩,
    ⟨congrArg _ (State.protect_on hon 4), by decide⟩, List.forall_mem_nil _⟩

end

/-- Settles O9: power-up is `State.poweredUp` and a nonce drawn; each loss of power is `State.powerDown` with its cause. -/
theorem powerComesAndGoes : Obligations.PowerComesAndGoes := by
  unfold Obligations.PowerComesAndGoes
  refine ⟨fun s s1 s2 s3 hoff hlow => ?rise, fun s hon hhigh => ?loss⟩
  case rise =>
    refine ⟨_, exec_pwrEnRise hoff hlow s1 s2 s3, ?_⟩
    rw [State.drawNonce_eq]
    refine ⟨rfl, rfl, fun h => ?agree, fun h => ?differ, rfl, rfl, rfl, rfl, rfl, rfl⟩
    case agree =>
      rw [strapsAgree_iff.2 h]
      exact ⟨rfl, rfl⟩
    case differ =>
      rw [Bool.eq_false_iff.2 (mt strapsAgree_iff.1 h)]
      exact ⟨rfl, rfl⟩
  case loss =>
    refine List.forall_mem_cons.2 ⟨?fall, fun x hx => ?protect⟩
    case fall =>
      obtain ⟨hoff, hflash, hout, hsheet, hpeat, hparts, hports⟩ := s.powerDown_loses 1
      exact ⟨_, exec_pwrEnFall hon hhigh, hoff, hflash, hout, hsheet, hpeat, hparts, hports, rfl⟩
    case protect =>
      obtain ⟨hexec, hcause⟩ := exec_protect hon x hx
      obtain ⟨hoff, hflash, hout, hsheet, hpeat, hparts, hports⟩ := s.powerDown_loses x.2
      exact ⟨_, hexec, hoff, hflash, hout, hsheet, hpeat, hparts, hports, hhigh.trans (bne_iff_ne.2 hcause).symm⟩

end Sys2Proof.Machine

namespace Sys2Proof.Machine

/-! ## What event records and the passing of time leave of power and pins -/

theorem State.Tells.power {s t : State} (h : State.Tells s t) : t.power = s.power := h.eq (·.power) fun _ _ _ _ _ => rfl

theorem State.Tells.pins {s t : State} (h : State.Tells s t) : t.pins = s.pins := h.eq (·.pins) fun _ _ _ _ _ => rfl

theorem State.Tells.pinsCfg {s t : State} (h : State.Tells s t) : t.pinsCfg = s.pinsCfg := h.eq (·.pinsCfg) fun _ _ _ _ _ => rfl

theorem State.Tells.uptime {s t : State} (h : State.Tells s t) : t.uptime = s.uptime := h.eq (·.uptime) fun _ _ _ _ _ => rfl

@[simp] theorem State.passTo_power (s : State) (t : Time) : (s.passTo t).power = s.power := by rw [State.passTo_eq]

@[simp] theorem State.passTo_pins (s : State) (t : Time) : (s.passTo t).pins = s.pins := by rw [State.passTo_eq]

section

variable {s : State} {at_ : Time}

theorem State.on_of_pinsLive (h : s.pinsLive = true) : s.power.phase ≠ .off := fun hoff => by
  rw [State.pinsLive, hoff] at h
  exact Bool.false_ne_true h

/-! ## The brake engaged (R321, R387) -/

/-- BRAKE_N accepted low, as chatter or not (R321). -/
def State.brakeSensed (s : State) (chatter : Bool) : State := s.modPins fun x => { x with
  brakeN := false, assertedAt := some s.uptime, lastAssert := some s.uptime, assertRing := s.now, heldTold := false
  brakeCount := satAdd x.brakeCount 1
  brakeChatter := if chatter then satAdd x.brakeChatter 1 else x.brakeChatter
  lastChatter := if chatter then some s.uptime else x.lastChatter }

/-- The brake is on. -/
def State.braked (s : State) : State := s.modPins fun x => { x with braking := true }

/-- What the brake does once it is sensed, unless PINS only reports it: an ON module goes into BRAKE (R321, R380). -/
def State.applyBrake (s : State) : State :=
  if s.brakeReportOnly then s else if s.power.phase = .on then s.braked.enterBrake.tellPower 2 3 else s.braked

/-- An assertion is sensed, its chatter told or not, and then the brake applied (R321). -/
theorem exec_brakeAssert (hlive : s.pinsLive = true) (hhigh : s.pins.brakeN = true) :
    ∃ u chatter, exec .brakeAssert s = .next u.applyBrake ∧ State.Tells (s.brakeSensed chatter) u := by
  refine ⟨_, match s.pins.lastAssert with | some t => decide (s.uptime < t + 1000000) | none => false,
    congrArg Host.Outcome.next (if_pos (by rw [hlive, hhigh]; rfl)), ?_⟩
  exact iteInduction (motive := State.Tells _) (fun _ => State.toOwner_tells (.refl _) _ _) fun _ => .refl _

theorem State.applyBrake_reported (h : s.brakeReportOnly = true) : s.applyBrake = s := if_pos h

/-- An ON module is in BRAKE at a share of 8/16; in another state its power stays as it is (R387). -/
theorem State.applyBrake_brakes (h : s.brakeReportOnly = false) : s.applyBrake.pins = { s.pins with braking := true } ∧
    (s.power.phase = .on → s.applyBrake.power.phase = .brake ∧ s.applyBrake.power.brakeShare = 8) ∧
    (s.power.phase ≠ .on → s.applyBrake.power = s.power) := by
  rw [State.applyBrake, if_neg (by rw [h]; exact Bool.false_ne_true)]
  by_cases hon : s.power.phase = .on
  · have htells : State.Tells s.braked.enterBrake (s.braked.enterBrake.tellPower 2 3) := State.toOwner_tells (.refl _) _ _
    rw [if_pos hon, htells.pins, htells.power]
    exact ⟨rfl, fun _ => ⟨rfl, rfl⟩, fun hn => absurd hon hn⟩
  · rw [if_neg hon]
    exact ⟨rfl, fun h => absurd h hon, fun _ => rfl⟩

theorem exec_brakeDeassert (hlive : s.pinsLive = true) (hlow : s.pins.brakeN = false) : exec .brakeDeassert s = .next { s with pins :=
    { s.pins with brakeN := true, assertedAt := none, deassertedAt := some s.uptime } } :=
  congrArg Host.Outcome.next (if_pos (by rw [hlive, hlow]; rfl))

/-! ## The brake released (R321, R387, R398) -/

/-- `BRAKE_ENGAGED` changes nothing of power and pins but that it is told (R398). -/
theorem State.tellBrake_tells (s : State) : State.Tells (s.modPower fun x => { x with brakeTold := true }) s.tellBrake := by
  by_cases h : s.power.brakeTold = true
  · have hsame : (s.modPower fun x => { x with brakeTold := true }) = s := by rw [State.modPower, ← h]
    rw [State.tellBrake, if_pos h, hsame]
    exact .refl s
  · rw [State.tellBrake, if_neg h]
    exact State.toAll_tells (.refl _) _

/-- A module that leaves BRAKE is ON, with the brake's share at 16/16 at once (R387). -/
theorem State.leaveBrake_leaves (s : State) : s.leaveBrake.power = { s.power with brakeTold := true, phase := .on, brakeShare := 16 } ∧
    s.leaveBrake.pins = s.pins ∧ s.leaveBrake.uptime = s.uptime := by
  have htold := s.tellBrake_tells
  have hleft : State.Tells (s.tellBrake.modPower fun x => { x with phase := .on, brakeShare := 16 }) s.leaveBrake :=
    State.toAll_tells (.refl _) _
  rw [hleft.power, hleft.pins, hleft.uptime, State.modPower_power, State.modPower_pins, State.modPower_uptime, htold.power, htold.pins,
    htold.uptime]
  exact ⟨rfl, rfl, rfl⟩

/-- The dwell over: the clock stands at its end, and the brake is off (R321). -/
def State.dwelt (s : State) (at_ : Time) : State := (s.passTo (at_ + 1000000)).modPins fun x => { x with braking := false }

theorem exec_brakeDwellEnd (hat : s.pins.deassertedAt = some at_) (hlive : s.pinsLive = true) (hhigh : s.pins.brakeN = true)
    (hon : s.pins.braking = true) : exec .brakeDwellEnd s =
      .next (if s.power.phase = .brake then (s.dwelt at_).leaveBrake.tellPower 3 2 else s.dwelt at_) := by
  have hphase : (s.dwelt at_).power.phase = s.power.phase := congrArg Power.phase (s.passTo_power _)
  simp only [exec, execBrakeDwellEnd, hat, hlive, hhigh, hon, Bool.and_self, if_true]
  rw [← hphase]
  rfl

/-- A held assertion is told, with the clock at its 1 s (R321). -/
theorem exec_brakeHeld (hat : s.pins.assertedAt = some at_) (hlive : s.pinsLive = true) (hlow : s.pins.brakeN = false)
    (hnot : s.pins.heldTold = false) : ∃ t, exec .brakeHeld s = .next t ∧
      State.Tells ((s.passTo (at_ + 1000000000)).modPins fun x => { x with heldTold := true }) t := by
  refine ⟨_, ?_, State.toOwner_tells (.refl _) none
    { code := 0x7041, sev := 1, a := s.pins.assertRing, b := s.pinsCfg.brakeFunction.toNat }⟩
  simp only [exec, execBrakeHeld, hat, hlive, hlow, hnot, Bool.not_false, Bool.and_self, if_true]
  rw [State.passTo_eq]
  rfl

/-! ## The share in BRAKE (R387) -/

/-- A tick's part in the share and in the mean of the first 100 µs (R387). -/
def State.brakeTick (s : State) (watts : Nat) : State := s.modPower fun x => { x with
  brakeShare := if 9600 < watts then max 1 (x.brakeShare - 1) else x.brakeShare
  brakeWattSum := x.brakeWattSum + watts, brakeSamples := x.brakeSamples + 1 }

theorem exec_brakeShareTick (h : s.power.phase = .brake) (watts : Nat) : exec (.brakeShareTick watts) s =
    .next (if (s.brakeTick watts).power.brakeSamples = 10 then (s.brakeTick watts).tellBrake else s.brakeTick watts) :=
  congrArg Host.Outcome.next (if_pos h)

end

/-- Settles O14: an assertion is sensed and then applied, the dwell's end is `State.leaveBrake` in BRAKE, and what is told of the brake
changes none of its shares; the clock stands at the dwell's end and at 1 s by log 6. -/
theorem brakeActs : Obligations.BrakeActs := by
  unfold Obligations.BrakeActs
  refine ⟨⟨fun s hlive hhigh => ?assert, fun s hlive hlow => exec_brakeDeassert hlive hlow⟩,
    fun s at_ hat hlive hhigh hon => ?dwell, fun s at_ hat hlive hlow hnot => ?held, fun s watts h => ?tick⟩
  case assert =>
    obtain ⟨u, chatter, hexec, htells⟩ := exec_brakeAssert hlive hhigh
    have hreport : u.brakeReportOnly = s.brakeReportOnly := congrArg (fun x => x.brakeFunction == 1) htells.pinsCfg
    have hpower : u.power = s.power := htells.power
    rw [← hreport, ← hpower]
    refine ⟨_, hexec, ?_⟩
    cases h : u.brakeReportOnly with
    | true =>
      rw [State.applyBrake_reported h, htells.pins]
      exact ⟨rfl, rfl, rfl, fun _ => ⟨rfl, rfl⟩, nofun⟩
    | false =>
      obtain ⟨hpins, hbrakes⟩ := State.applyBrake_brakes h
      rw [hpins, htells.pins]
      exact ⟨rfl, rfl, rfl, nofun, fun _ => ⟨rfl, hbrakes⟩⟩
  case dwell =>
    have hup : at_ + 1000000 ≤ (s.dwelt at_).uptime := State.le_uptime_passTo (State.on_of_pinsLive hlive)
    refine ⟨_, exec_brakeDwellEnd hat hlive hhigh hon, ?_⟩
    by_cases hb : s.power.phase = .brake
    · obtain ⟨hpower, hpins, htime⟩ := (s.dwelt at_).leaveBrake_leaves
      have htells : State.Tells (s.dwelt at_).leaveBrake ((s.dwelt at_).leaveBrake.tellPower 3 2) := State.toOwner_tells (.refl _) _ _
      rw [if_pos hb, htells.pins, htells.uptime, htells.power, hpower, hpins, htime]
      exact ⟨rfl, hup, fun _ => ⟨rfl, rfl⟩, fun hn => absurd hb hn⟩
    · rw [if_neg hb]
      exact ⟨rfl, hup, fun h => absurd h hb, fun _ => s.passTo_power _⟩
  case held =>
    obtain ⟨t, hexec, htells⟩ := exec_brakeHeld hat hlive hlow hnot
    refine ⟨t, hexec, ?_⟩
    rw [htells.pins, htells.uptime, htells.power]
    exact ⟨rfl, State.le_uptime_passTo (State.on_of_pinsLive hlive), s.passTo_power _⟩
  case tick =>
    refine ⟨_, exec_brakeShareTick h watts, ?_⟩
    split
    · rw [(s.brakeTick watts).tellBrake_tells.power]
      exact ⟨rfl, rfl, rfl, h⟩
    · exact ⟨rfl, rfl, rfl, h⟩

end Sys2Proof.Machine

namespace Sys2Proof.Machine

/-! ## Straps, ALERT_N and SMBus (R320, R322, R395) -/

section

variable {s : State} {levels : BitVec 4} {n : Nat}

/-- A strap seen to have changed (R322). -/
def State.strapSeen (s : State) (levels : BitVec 4) : State :=
  s.modPins fun x => { x with strapsNow := levels, changed := true, strapTold := true }

/-- A further change leaves as it is that one has been told (R322). -/
theorem State.strapSeen_again (h : s.pins.strapTold = true) (levels : BitVec 4) :
    s.strapSeen levels = { s with pins := { s.pins with strapsNow := levels, changed := true } } :=
  (congrArg (fun b => { s with pins := { s.pins with strapsNow := levels, changed := true, strapTold := b } }) h.symm :)

theorem exec_strapChanged (hon : s.power.phase ≠ .off) (hnew : levels ≠ s.pins.strapsNow) : exec (.strapChanged levels) s =
    .next (if s.pins.strapTold then s.strapSeen levels
      else (s.strapSeen levels).toOwner none { code := 0x7042, sev := 1, a := s.pins.straps.toNat, b := levels.toNat }) :=
  congrArg Host.Outcome.next (if_neg (by simp [State.isOff, hon, hnew]))

/-- Whether something holds ALERT_N does not depend on the clock. -/
theorem State.alertHeld_passTo (s : State) (t : Time) : (s.passTo t).alertHeld = s.alertHeld := by
  rw [State.passTo_eq]
  rfl

theorem exec_alertHoldExpiry (hon : s.power.phase ≠ .off) (hlow : s.pins.alertN = false) (hfree : s.alertHeld = false) :
    ∃ t, exec .alertHoldExpiry s = .next t ∧ t = { s.passTo s.pins.alertUntil with pins := { s.pins with alertN := true } } ∧
      s.pins.alertUntil ≤ t.uptime := by
  have hpins := s.passTo_pins s.pins.alertUntil
  have hdue : (s.passTo s.pins.alertUntil).pins.alertUntil ≤ (s.passTo s.pins.alertUntil).uptime := by
    rw [hpins]
    exact State.le_uptime_passTo hon
  refine ⟨_, congrArg Host.Outcome.next (if_neg (by simp [State.isOff, hon, hlow])), ?_, ?_⟩
  all_goals rw [State.releaseAlert, if_pos ⟨hdue, (s.alertHeld_passTo _).trans hfree⟩, hpins]
  exact State.le_uptime_passTo hon

theorem exec_smbusRequest (hm : s.power.mgmt.isSome = true) (hl : s.power.mgmtLost = false) (hn : n < 19) :
    exec (.smbusRequest n) s = .next (s.send (.smbus { sensor := n, value := s.sensor n })) :=
  congrArg Host.Outcome.next (if_pos (by simp [hm, hl, hn]))

end

/-! ## Test access (R365, R366) -/

/-- What each element of a list makes hold of a state, whatever went before, and every element keeps, holds after the list. -/
theorem foldl_of_mem {σ α : Type} {f : σ → α → σ} {P : σ → Prop} (hkeep : ∀ s x, P s → P (f s x)) {l : List α} {x : α} (hx : x ∈ l)
    (hmake : ∀ s, P (f s x)) (s : σ) : P (l.foldl f s) := by
  obtain ⟨l₁, l₂, rfl⟩ := List.append_of_mem hx
  rw [List.foldl_append, List.foldl_cons]
  exact List.foldlRecOn l₂ f (hmake _) fun t ht y _ => hkeep t y ht

/-- The key material and the sessions of the ports, the latch, and flash (R355, R359, R365). -/
def State.secrets (s : State) : Sec × Flash × (Port → Spdm × Ide) := (s.sec, s.flash, fun i => ((s.port i).spdm, (s.port i).ide))

/-- A partition that is gone: ABSENT, without a request and without a model. -/
def Partition.Gone (q : Partition) : Prop := q.st = .absent ∧ q.reqs = [] ∧ q.models = []

section

variable {s t : State}

theorem State.of_secrets (h : t.secrets = s.secrets) : t.sec = s.sec ∧ t.flash = s.flash ∧
    ∀ i, (t.port i).spdm = (s.port i).spdm ∧ (t.port i).ide = (s.port i).ide :=
  ⟨congrArg (·.1) h, congrArg (·.2.1) h, fun i => Prod.ext_iff.1 (congrFun (congrArg (·.2.2) h) i)⟩

theorem State.Tells.secrets (h : State.Tells s t) : t.secrets = s.secrets :=
  Prod.ext (h.eq (·.sec) fun _ _ _ _ _ => rfl) (Prod.ext (h.eq (·.flash) fun _ _ _ _ _ => rfl) (funext fun i =>
    (congrArg (fun x : PortSt => (x.spdm, x.ide)) (h.ports i)).trans rfl))

theorem State.dropReads_secrets (s : State) (gone : HostRead → Bool) : (s.dropReads gone).secrets = s.secrets :=
  (congrArg State.secrets (s.dropReads_frame gone) :)

theorem State.wipePart_secrets (s : State) (p : Part) : (s.wipePart p).secrets = s.secrets := State.dropReads_secrets _ _

/-- A partition that is wiped is gone, and the others are as they were (R365). -/
theorem State.wipePart_gone (s : State) (p : Part) : ((s.wipePart p).part p).Gone := by
  rw [State.wipePart, State.part, State.dropReads_parts]
  show (State.part _ p).Gone
  rw [State.part_modRepairs, State.part_modPart]
  exact ⟨rfl, rfl, rfl⟩

theorem State.wipePart_part_other {i p : Part} (h : i ≠ p) (s : State) : (s.wipePart p).part i = s.part i := by
  rw [State.wipePart, State.part, State.dropReads_parts]
  exact (State.part_modRepairs_other _ _ _ _ h).trans (State.part_modPart_other _ _ _ _ h)

theorem State.wipePart_keeps_gone (i : Part) (s : State) (p : Part) (h : (s.part i).Gone) : ((s.wipePart p).part i).Gone := by
  by_cases hi : i = p
  · rw [hi]
    exact s.wipePart_gone p
  · rw [State.wipePart_part_other hi]
    exact h

/-- A port's sessions and IDE keys cleared (R365). -/
def PortSt.cleared (x : PortSt) : PortSt := { x with spdm := { x.spdm with sessions := [] }, ide := {} }

/-- The key, every session and every IDE key cleared, and SCAN_LATCH set (R365, R366). -/
def State.latched (s : State) (instruction : W64) : State :=
  ([0, 1, 2, 3] : List Port).foldl (fun s p => s.modPort p PortSt.cleared)
    (s.modSec fun x => { x with keyValid := false, scanLatch := true, clearing := some instruction })

/-- Every partition gone, its step abandoned with no record (R365). -/
def State.wiped (s : State) : State :=
  allParts.foldl State.wipePart (allParts.foldl (fun s p => s.modPart p fun q => q.abandonStep s.ashList) s)

theorem exec_testAccessEntry (hon : s.power.phase ≠ .off) (instruction : W64) : exec (.testAccessEntry instruction) s = .next
    ((s.latched instruction).toOwner none { code := 0x5001, sev := 5, a := instruction.toNat }).wiped.scanned.releaseAlert :=
  congrArg Host.Outcome.next (if_neg fun h => hon (beq_iff_eq.1 h))

theorem State.latched_sec (s : State) (instruction : W64) : (s.latched instruction).sec =
    { s.sec with keyValid := false, scanLatch := true, clearing := some instruction } ∧ (s.latched instruction).flash = s.flash :=
  ⟨rfl, rfl⟩

theorem State.latched_ports (s : State) (instruction : W64) (i : Port) :
    ((s.latched instruction).port i).spdm.sessions = [] ∧ ((s.latched instruction).port i).ide.keys = [] := by
  have hi : i ∈ ([0, 1, 2, 3] : List Port) := by revert i; decide
  refine foldl_of_mem (P := fun u : State => (u.port i).spdm.sessions = [] ∧ (u.port i).ide.keys = []) (fun u p h => ?_) hi (fun u => ?_) _
  · by_cases hp : i = p
    · rw [hp, State.port_modPort]
      exact ⟨rfl, rfl⟩
    · rw [State.port_modPort_other _ _ _ _ hp]
      exact h
  · rw [State.port_modPort]
    exact ⟨rfl, rfl⟩

theorem State.wiped_gone (s : State) (p : Part) : (s.wiped.part p).Gone :=
  foldl_of_mem (P := fun u : State => (u.part p).Gone) (State.wipePart_keeps_gone p) (mem_allParts p) (fun u => u.wipePart_gone p) _

theorem State.wiped_secrets (s : State) : s.wiped.secrets = s.secrets :=
  (State.foldl_unchanged State.secrets _ State.wipePart_secrets _ _).trans
    (State.foldl_unchanged State.secrets (fun (u : State) p => u.modPart p fun q => q.abandonStep u.ashList) (fun _ _ => rfl) _ _)

theorem State.releaseAlert_eq (s : State) : s.releaseAlert = { s with pins := s.releaseAlert.pins } := by
  rw [State.releaseAlert]
  split <;> rfl

end

/-- Settles O15: a strap seen, an ALERT_N released and a reading answered are each one change; test access latches and clears
(`State.latched`), wipes the partitions before its end event (log 41) and zeroises every memory (`State.scanned`). The sensors are those of
log 38. -/
theorem pinsAndTestAccess : Obligations.PinsAndTestAccess := by
  unfold Obligations.PinsAndTestAccess
  refine ⟨⟨fun s levels hon hnew => ?strap, fun s hon hlow hfree => ?alert, fun s n hm hl hn => exec_smbusRequest hm hl hn, fun s => rfl⟩,
    fun s instruction hon => ?entry, fun s => rfl⟩
  case strap =>
    refine ⟨_, exec_strapChanged hon hnew, ?_⟩
    cases h : s.pins.strapTold with
    | true => exact ⟨rfl, rfl, rfl, rfl, fun _ => State.strapSeen_again h levels⟩
    | false =>
      have htells (v : Ev) : ((s.strapSeen levels).toOwner none v).pins = (s.strapSeen levels).pins :=
        (State.toOwner_tells (.refl _) none v).pins
      rw [if_neg Bool.false_ne_true, htells]
      exact ⟨rfl, rfl, rfl, rfl, nofun⟩
  case alert =>
    obtain ⟨t, hexec, heq, htime⟩ := exec_alertHoldExpiry hon hlow hfree
    refine ⟨t, hexec, ?_, htime, ?_⟩ <;> rw [heq]
    exact s.passTo_power _
  case entry =>
    refine ⟨_, exec_testAccessEntry hon instruction, ?_⟩
    generalize hu : (s.latched instruction).toOwner none { code := 0x5001, sev := 5, a := instruction.toNat } = u
    have htold : State.Tells (s.latched instruction) u := hu ▸ State.toOwner_tells (.refl _) _ _
    have hgone := u.wiped_gone
    obtain ⟨hsec, hflash, hports⟩ := State.of_secrets (u.wiped_secrets.trans htold.secrets)
    obtain ⟨hlatch, hkept⟩ := s.latched_sec instruction
    generalize u.wiped = w at hgone hsec hflash hports
    rw [State.releaseAlert_eq, State.scanned, hsec, hflash, hlatch, hkept]
    refine ⟨rfl, rfl, rfl, rfl, rfl, rfl, rfl, rfl, hgone, fun i => ?_⟩
    obtain ⟨hspdm, hide⟩ := hports i
    obtain ⟨hsessions, hkeys⟩ := s.latched_ports instruction i
    exact ⟨(congrArg Spdm.sessions hspdm).trans hsessions, (congrArg Ide.keys hide).trans hkeys⟩

end Sys2Proof.Machine

namespace Sys2Proof.Machine

/-! ## Event records leave the clock, the ring block, the power state and the pins alone (R69-R73) -/

theorem State.Tells.ring {s t : State} (h : State.Tells s t) : t.ring = s.ring := h.eq (·.ring) fun _ _ _ _ _ => rfl

theorem State.Tells.ringTime {s t : State} (h : State.Tells s t) : t.ringTime = s.ringTime := h.eq (·.ringTime) fun _ _ _ _ _ => rfl

@[simp] theorem State.ring_toAll (s : State) (v : Ev) : (s.toAll v).ring = s.ring := (State.toAll_tells (.refl s) v).ring

@[simp] theorem State.ringTime_toAll (s : State) (v : Ev) : (s.toAll v).ringTime = s.ringTime := (State.toAll_tells (.refl s) v).ringTime

@[simp] theorem State.ring_toOwner (s : State) (o : Option Part) (v : Ev) : (s.toOwner o v).ring = s.ring :=
  (State.toOwner_tells (.refl s) o v).ring

@[simp] theorem State.ringTime_toOwner (s : State) (o : Option Part) (v : Ev) : (s.toOwner o v).ringTime = s.ringTime :=
  (State.toOwner_tells (.refl s) o v).ringTime

/-! ## `modRing` -/

@[simp] theorem State.modRing_ring (s : State) (f : Ring → Ring) : (s.modRing f).ring = f s.ring := rfl
@[simp] theorem State.modRing_ringTime (s : State) (f : Ring → Ring) : (s.modRing f).ringTime = s.ringTime := rfl
@[simp] theorem State.modRing_out (s : State) (f : Ring → Ring) : (s.modRing f).out = s.out := rfl

section

variable {s : State} {f : RingFrame} {t : W64}

/-! ## Ring time set (R310, R314, R317) -/

@[simp] theorem State.ring_stepTime (s : State) (t : W64) : (s.stepTime t).ring = s.ring := State.ring_toAll _ _

@[simp] theorem State.ringTime_stepTime (s : State) (t : W64) : (s.stepTime t).ringTime = t := State.ringTime_toAll _ _

/-- An offset within 256 ns is left to the discipline (R314). -/
theorem State.setOffset_near (h : (timeDiff t s.ringTime).natAbs ≤ 256) :
    s.setOffset t = s.modRing fun r => { r with adjust := timeDiff t s.ringTime } := if_pos h

/-- A greater one is a step to the received time (R314). -/
theorem State.setOffset_far (h : 256 < (timeDiff t s.ringTime).natAbs) :
    s.setOffset t = (s.stepTime t).modRing fun r => { r with adjust := 0, steps := satAdd r.steps 1 } := if_neg (Nat.not_le.2 h)

/-- Of the ring block an offset changes the correction still to make and the count of steps (R314, R323). -/
theorem State.ring_setOffset (s : State) (t : W64) : ∃ d n, (s.setOffset t).ring = { s.ring with adjust := d, steps := n } := by
  by_cases h : (timeDiff t s.ringTime).natAbs ≤ 256
  · rw [State.setOffset_near h]
    exact ⟨_, _, rfl⟩
  · rw [State.setOffset_far (Nat.not_le.1 h), State.modRing_ring, State.ring_stepTime]
    exact ⟨_, _, rfl⟩

/-- What follows for ring time: it stands, or is the received time (R314). -/
theorem State.setOffset_sets (s : State) (t : W64) :
    ((timeDiff t s.ringTime).natAbs ≤ 256 → (s.setOffset t).ringTime = s.ringTime ∧ (s.setOffset t).ring.adjust = timeDiff t s.ringTime) ∧
      (256 < (timeDiff t s.ringTime).natAbs → (s.setOffset t).ringTime = t) := by
  refine ⟨fun h => ?_, fun h => ?_⟩
  · rw [State.setOffset_near h]
    exact ⟨rfl, rfl⟩
  · rw [State.setOffset_far h, State.modRing_ringTime, State.ringTime_stepTime]

/-! ## A frame of the module's own (R308, R311, R315) -/

theorem State.ownFrame_master (h : s.ring.state = .master) :
    s.ownFrame = s.send (.ring (mkFrame s.now 0 (bitsOf s.ring.marksOut 7 0) (if 0 < s.ring.stepFrames then 2 else 0))) := by
  simp only [State.ownFrame, if_pos h]

/-- A follower's own frame has HOPS that the manual does not give, and says HOLDOVER in its FLAGS (log 35). -/
theorem State.ownFrame_follower (h : s.ring.state ≠ .master) : ∃ hops, s.ownFrame =
    { s with fresh := s.fresh + 1, out := s.out ++ [.ring (mkFrame s.ringTime.toNat hops s.ring.marks.toNat 1)] } := by
  have hdrawn : s.draw.2.ring.state ≠ .master := h
  refine ⟨Config.fresh s.fresh, ?_⟩
  simp only [State.ownFrame, if_neg h, if_neg hdrawn]
  rfl

theorem State.ownFrame_sends (s : State) :
    s.ownFrame.ring = s.ring ∧ s.ownFrame.ringTime = s.ringTime ∧ s.ownFrame.pinsCfg = s.pinsCfg := by
  by_cases h : s.ring.state = .master
  · rw [State.ownFrame_master h]
    exact ⟨rfl, rfl, rfl⟩
  · obtain ⟨hops, hown⟩ := State.ownFrame_follower h
    rw [hown]
    exact ⟨rfl, rfl, rfl⟩

/-! ## Good frames (R310-R315) -/

/-- What any good frame counts (R312, R323). -/
def State.goodFrame (s : State) : State :=
  s.modRing fun r => { r with inStuck := false, good := satAdd r.good 1, goodRun := r.goodRun + 1, badRun := 0 }

/-- What a sound frame leaves to check the next one by (R312). -/
def State.frameSeen (s : State) (f : RingFrame) : State := s.modRing fun r => { r with prev := some ((s.recvTime f).toNat, s.uptime) }

theorem exec_ringFrameRx_good (hr : s.ringRuns = true) (hs : frameSound f = true) (hf : s.frameFits f = true) :
    exec (.ringFrameRx f) s =
      .next ((if s.ring.state = .master then s.goodFrame.goodMaster f else s.goodFrame.goodFollower f).frameSeen f) := by
  have hfits : (s.modRing fun r => { r with inStuck := false }).frameFits f = true := hf
  simp only [exec, execRingFrameRx, hr, hs, hfits, Bool.and_self, if_true]
  rfl

/-- What the master measures by a good frame (R310, R323). -/
def State.measured (s : State) (f : RingFrame) : State := s.modRing fun r =>
  { r with loopErr := sat32s (timeDiff s.ringTime (s.recvTime f)), hops := BitVec.ofNat 8 (frameBits f.bits 47 40), hopsKnown := true }

/-- Ring time and the ring block stand as a measurement leaves them, but for the books on foreign frames. -/
def State.Measured (s t : State) (f : RingFrame) : Prop :=
  ∃ n c, t.ringTime = s.ringTime ∧ t.ring = { (s.measured f).ring with foreign := n, conflictAt := c }

/-- A good frame at the master is measured and sets no time (R310). -/
theorem State.goodMaster_measures (s : State) (f : RingFrame) : s.Measured (s.goodMaster f) f := by
  refine iteInduction (motive := fun t => s.Measured t f)
    (fun _ => iteInduction (motive := fun t => s.Measured t f) (fun _ => ?told) fun _ => ?quiet) fun _ => ?near
  case told =>
    rw [State.Measured, State.modRing_ring, State.modRing_ringTime, State.ring_toOwner, State.ringTime_toOwner]
    exact ⟨_, _, rfl, rfl⟩
  case quiet => exact ⟨_, _, rfl, rfl⟩
  case near => exact ⟨_, _, rfl, rfl⟩

/-- What a follower reads from a good frame: HOPS, whose change it tells, MARKS and the offset (R315, R323). -/
def State.frameRead (s : State) (f : RingFrame) : State :=
  (if s.ring.hopsKnown ∧ s.ring.hops.toNat ≠ frameBits f.bits 47 40 then
      s.toOwner none { code := 0x4004, sev := 1, a := s.ring.hops.toNat, b := frameBits f.bits 47 40 }
    else s).modRing fun r =>
      { r with hops := BitVec.ofNat 8 (frameBits f.bits 47 40), hopsKnown := true, marks := BitVec.ofNat 8 (frameBits f.bits 39 32)
               offset := sat32s (timeDiff (s.recvTime f) s.ringTime) }

/-- The lock on a received time, and its event (R313, R314). -/
def State.lockOn (s : State) (t : W64) (hops : Nat) (off : Int) : State :=
  ((s.setOffset t).modRing fun r => { r with state := .locked, tapClosed := false }).toAll
    { code := 0x4001, sev := 0, a := hops, b := twos off }

/-- A frame forwarded: 48 ns on, with one hop more (R311). -/
def State.forward (s : State) (t : W64) (f : RingFrame) : State :=
  (s.modRing fun r => { r with sourceHoldover := f.bits.getLsbD 24 }).send (.ring (mkFrame (t + 48).toNat
    (min 255 (frameBits f.bits 47 40 + 1)) (frameBits f.bits 39 32) (frameBits f.bits 31 24)))

theorem State.frameRead_reads (s : State) (f : RingFrame) : (s.frameRead f).ringTime = s.ringTime ∧
    (s.frameRead f).ring = { s.ring with
      hops := BitVec.ofNat 8 (frameBits f.bits 47 40), hopsKnown := true, marks := BitVec.ofNat 8 (frameBits f.bits 39 32)
      offset := sat32s (timeDiff (s.recvTime f) s.ringTime) } := by
  rw [State.frameRead, State.modRing_ring, State.modRing_ringTime]
  split
  · rw [State.ring_toOwner, State.ringTime_toOwner]
    exact ⟨rfl, rfl⟩
  · exact ⟨rfl, rfl⟩

theorem State.lockOn_locks (s : State) (t : W64) (hops : Nat) (off : Int) : (s.lockOn t hops off).ringTime = (s.setOffset t).ringTime ∧
    (s.lockOn t hops off).ring = { (s.setOffset t).ring with state := .locked, tapClosed := false } :=
  ⟨State.ringTime_toAll _ _, State.ring_toAll _ _⟩

/-- What a follower makes of a frame that it has read: a LOCKED one disciplines its ring time, the fourth in a row locks (R313, R314). -/
def State.follow (s : State) (t : W64) (hops : Nat) (off : Int) : State :=
  if s.ring.state = .locked then s.setOffset t else if 4 ≤ s.ring.goodRun then s.lockOn t hops off else s

theorem State.goodFollower_eq (s : State) (f : RingFrame) : s.goodFollower f =
    let u := (s.frameRead f).follow (s.recvTime f) (frameBits f.bits 47 40) (timeDiff (s.recvTime f) s.ringTime)
    if u.ring.state = .locked then u.forward (s.recvTime f) f else u := rfl

/-- At a LOCKED follower a good frame disciplines ring time and is forwarded (R311, R314). -/
theorem State.goodFollower_locked (h : s.ring.state = .locked) :
    s.goodFollower f = ((s.frameRead f).setOffset (s.recvTime f)).forward (s.recvTime f) f := by
  have hread : (s.frameRead f).ring.state = .locked := by rw [(s.frameRead_reads f).2]; exact h
  obtain ⟨_, _, hset⟩ := (s.frameRead f).ring_setOffset (s.recvTime f)
  rw [State.goodFollower_eq, State.follow, if_pos hread]
  exact if_pos (by rw [hset]; exact hread)

/-- The fourth good frame in a row locks a follower, which forwards it (R311, R313). -/
theorem State.goodFollower_locks (h : s.ring.state ≠ .locked) (hrun : 4 ≤ s.ring.goodRun) : s.goodFollower f =
    ((s.frameRead f).lockOn (s.recvTime f) (frameBits f.bits 47 40) (timeDiff (s.recvTime f) s.ringTime)).forward (s.recvTime f) f := by
  have hread : (s.frameRead f).ring.state ≠ .locked := by rw [(s.frameRead_reads f).2]; exact h
  have hcount : 4 ≤ (s.frameRead f).ring.goodRun := by rw [(s.frameRead_reads f).2]; exact hrun
  rw [State.goodFollower_eq, State.follow, if_neg hread, if_pos hcount]
  exact if_pos (by rw [(State.lockOn_locks _ _ _ _).2])

/-- What a good frame leaves of the ring block at a follower that it locks, and of ring time (R313, R314). -/
theorem State.goodFollower_locks_ring (h : s.ring.state ≠ .locked) (hrun : 4 ≤ s.ring.goodRun) :
    ∃ d n, (s.goodFollower f).ring = { (s.frameRead f).ring with
        state := .locked, tapClosed := false, sourceHoldover := f.bits.getLsbD 24, adjust := d, steps := n } ∧
      ((timeDiff (s.recvTime f) s.ringTime).natAbs ≤ 256 →
        (s.goodFollower f).ringTime = s.ringTime ∧ d = timeDiff (s.recvTime f) s.ringTime) ∧
      (256 < (timeDiff (s.recvTime f) s.ringTime).natAbs → (s.goodFollower f).ringTime = s.recvTime f) := by
  obtain ⟨d, n, hset⟩ := (s.frameRead f).ring_setOffset (s.recvTime f)
  have hsets := (s.frameRead f).setOffset_sets (s.recvTime f)
  obtain ⟨htime, hring⟩ := (s.frameRead f).lockOn_locks (s.recvTime f) (frameBits f.bits 47 40) (timeDiff (s.recvTime f) s.ringTime)
  rw [(s.frameRead_reads f).1, hset] at hsets
  rw [State.goodFollower_locks h hrun, State.forward, State.send_ring, State.send_ringTime, State.modRing_ring, State.modRing_ringTime,
    htime, hring, hset]
  exact ⟨d, n, rfl, hsets⟩

/-- What a good frame leaves of the ring block at a LOCKED follower, and what is sent last (R311, R314). -/
theorem State.goodFollower_locked_ring (h : s.ring.state = .locked) :
    ∃ d n, (s.goodFollower f).ring = { (s.frameRead f).ring with sourceHoldover := f.bits.getLsbD 24, adjust := d, steps := n } ∧
      (s.goodFollower f).out.getLast? = some (.ring (mkFrame (s.recvTime f + 48).toNat (min 255 (frameBits f.bits 47 40 + 1))
        (frameBits f.bits 39 32) (frameBits f.bits 31 24))) := by
  obtain ⟨d, n, hset⟩ := (s.frameRead f).ring_setOffset (s.recvTime f)
  rw [State.goodFollower_locked h, State.forward, State.send_ring, State.send_out, State.modRing_ring, hset]
  exact ⟨d, n, rfl, List.getLast?_concat⟩

/-- Before, a good frame only counts and is read (R313). -/
theorem State.goodFollower_waits (h : s.ring.state ≠ .locked) (hrun : s.ring.goodRun < 4) : s.goodFollower f = s.frameRead f := by
  have hread : (s.frameRead f).ring.state ≠ .locked := by rw [(s.frameRead_reads f).2]; exact h
  have hcount : ¬ 4 ≤ (s.frameRead f).ring.goodRun := by rw [(s.frameRead_reads f).2]; exact Nat.not_le.2 hrun
  rw [State.goodFollower_eq, State.follow, if_neg hread, if_neg hcount]
  exact if_neg hread

/-! ## Bad and missing frames (R312, R313) -/

/-- Where a frame lost leaves a LOCKED follower: the eighth in a row loses lock (R313). -/
def State.afterLoss (s : State) : RingState := if s.ring.badRun < 7 then .locked else if s.pinsCfg.holdover then .holdover else .freerun

/-- A frame lost, counted in the row of those lost (R312). -/
def State.missed (s : State) : State := s.modRing fun r => { r with goodRun := 0, badRun := r.badRun + 1 }

/-- Lock lost, and its event (R313). -/
def State.lockLost (s : State) (bad : Bool) (next : RingState) : State :=
  (s.modRing fun r => { r with state := next, lockLoss := satAdd r.lockLoss 1, sourceHoldover := false, adjust := 0 }).toAll
    { code := 0x4002, sev := 1, a := if bad then 1 else 0, b := if next = .holdover then 2 else 3 }

theorem State.lostFrame_unlocked (h : s.ring.state ≠ .locked) (bad : Bool) : s.lostFrame bad = s.missed := if_neg h

/-- A LOCKED follower sends a frame of its own for one lost, and at the eighth loses lock (R311, R313). -/
theorem State.lostFrame_locked (h : s.ring.state = .locked) (bad : Bool) : s.lostFrame bad =
    if 8 ≤ s.missed.ownFrame.ring.badRun then
      s.missed.ownFrame.lockLost bad (if s.missed.ownFrame.pinsCfg.holdover then .holdover else .freerun)
    else s.missed.ownFrame := if_pos h

/-- A frame lost changes no time and no count of frames, and no state but that of a LOCKED follower (R312, R313). -/
theorem State.lostFrame_ends (s : State) (bad : Bool) : (s.lostFrame bad).ringTime = s.ringTime ∧
    (s.lostFrame bad).ring.good = s.ring.good ∧ (s.lostFrame bad).ring.bad = s.ring.bad ∧
    (s.lostFrame bad).ring.missing = s.ring.missing ∧ (s.ring.state ≠ .locked → (s.lostFrame bad).ring.state = s.ring.state) ∧
    (s.ring.state = .locked → (s.lostFrame bad).ring.state = s.afterLoss) := by
  by_cases h : s.ring.state = .locked
  · obtain ⟨hring, htime, hcfg⟩ := s.missed.ownFrame_sends
    have hcount : s.missed.ownFrame.ring.badRun = s.ring.badRun + 1 := by rw [hring]; rfl
    rw [State.lostFrame_locked h, hcount, hcfg, State.afterLoss]
    by_cases hrun : s.ring.badRun < 7
    · rw [if_neg (by omega), if_pos hrun, hring, htime]
      exact ⟨rfl, rfl, rfl, rfl, fun _ => rfl, fun _ => h⟩
    · rw [if_pos (by omega), if_neg hrun, State.lockLost, State.ring_toAll, State.ringTime_toAll, State.modRing_ring,
        State.modRing_ringTime, hring, htime]
      exact ⟨rfl, rfl, rfl, rfl, fun hn => absurd h hn, fun _ => rfl⟩
  · rw [State.lostFrame_unlocked h]
    exact ⟨rfl, rfl, rfl, rfl, fun _ => rfl, fun hl => absurd hl h⟩

theorem exec_ringFrameRx_bad (hr : s.ringRuns = true) (hs : frameSound f = false) : exec (.ringFrameRx f) s =
    .next ((s.modRing fun r => { r with inStuck := false, bad := satAdd r.bad 1 }).lostFrame true) := by
  simp only [exec, execRingFrameRx, hr, hs, Bool.false_and, Bool.false_eq_true, if_true, if_false]
  rfl

theorem exec_ringFrameMissing (hr : s.ringRuns = true) :
    exec .ringFrameMissing s = .next ((s.modRing fun r => { r with missing := satAdd r.missing 1 }).lostFrame false) :=
  congrArg Host.Outcome.next (if_pos hr)

/-! ## The frame boundary (R309, R310, R313, R315) -/

theorem State.changeRole_same (h : s.roleNow = (s.ring.state == .master)) : s.changeRole = s := if_pos h

/-- A master that is one no more acquires, and its count goes on (R309, R313). -/
theorem State.changeRole_follows (h : s.roleNow = false) (hm : s.ring.state = .master) : s.changeRole = s.modRing fun r =>
    { r with state := .acquire, adjust := 0, goodRun := 0, badRun := 0, prev := none, loopErr := 0
             setPending := false, stepFrames := 0, tapClosed := true } := by
  rw [State.changeRole, h, hm]
  rfl

/-- The time that SET_TIME gives, where one is pending at the master (R310). -/
def State.takeSetTime (s : State) : State :=
  if s.ring.setPending ∧ s.ring.state = .master then
    (s.stepTime (BitVec.ofNat 64 (s.ring.timeSetHi.toNat * 2 ^ 32 + s.ring.timeSetLo.toNat))).modRing fun r =>
      { r with setPending := false, stepFrames := 8 }
  else s

/-- What the master notes at a frame boundary (R308, R310). -/
def State.frameSent (s : State) : State := s.modRing fun r =>
  { r with tapClosed := false, stepFrames := r.stepFrames - 1, marks := BitVec.ofNat 8 (bitsOf r.marksOut 7 0) }

theorem State.takeSetTime_idle (h : s.ring.setPending = false) : s.takeSetTime = s := if_neg (by simp [h])

theorem State.takeSetTime_follower (h : s.ring.state ≠ .master) : s.takeSetTime = s := if_neg fun hm => h hm.2

theorem State.takeSetTime_master (h : s.ring.setPending = true) (hm : s.ring.state = .master) :
    s.takeSetTime.ringTime = s.ring.timeSetHi ++ s.ring.timeSetLo ∧
      s.takeSetTime.ring = { s.ring with setPending := false, stepFrames := 8 } := by
  have hhi := s.ring.timeSetHi.isLt
  have hlo := s.ring.timeSetLo.isLt
  rw [State.takeSetTime, if_pos ⟨h, hm⟩, State.modRing_ring, State.modRing_ringTime, State.ring_stepTime, State.ringTime_stepTime]
  refine ⟨BitVec.eq_of_toNat_eq ?_, rfl⟩
  rw [BitVec.toNat_append, BitVec.toNat_ofNat, Nat.mod_eq_of_lt (by omega), ← Nat.shiftLeft_eq, Nat.shiftLeft_add_eq_or_of_lt hlo]

/-- What a frame boundary sends: the master a frame of its own, and so a follower in HOLDOVER or FREERUN (R310, R315). -/
def State.sendFrame (s : State) : State :=
  match s.ring.state with
  | .master => s.ownFrame.frameSent
  | .holdover | .freerun => s.ownFrame
  | _ => s

theorem State.sendFrame_master (h : s.ring.state = .master) : s.sendFrame = s.ownFrame.frameSent := by rw [State.sendFrame, h]

theorem State.sendFrame_own (h : s.ring.state = .holdover ∨ s.ring.state = .freerun) : s.sendFrame = s.ownFrame := by
  rcases h with h | h <;> rw [State.sendFrame, h]

theorem State.sendFrame_none (h : s.ring.state = .locked ∨ s.ring.state = .acquire) : s.sendFrame = s := by
  rcases h with h | h <;> rw [State.sendFrame, h]

/-- At a frame boundary a change of role comes first, then the time that is pending, then the frame (R309, R310). -/
theorem exec_ringFrameTx (hr : s.ringRuns = true) : exec .ringFrameTx s = .next s.changeRole.takeSetTime.sendFrame :=
  congrArg Host.Outcome.next (if_pos hr)

/-- At the frame boundary a master takes the time that is pending and sends a frame of its own (R308, R310). -/
theorem exec_ringFrameTx_master (hr : s.ringRuns = true) (hrole : s.roleNow = true) (hm : s.ring.state = .master) :
    exec .ringFrameTx s = .next s.takeSetTime.ownFrame.frameSent ∧ s.takeSetTime.ring.state = .master := by
  have hstill : s.takeSetTime.ring.state = .master := by
    cases h : s.ring.setPending with
    | false => rw [State.takeSetTime_idle h]; exact hm
    | true => rw [(State.takeSetTime_master h hm).2]; exact hm
  refine ⟨?_, hstill⟩
  rw [exec_ringFrameTx hr, State.changeRole_same (by rw [hrole, hm]; rfl), State.sendFrame_master hstill]

/-- A follower that stays one takes no time of SET_TIME (R310). -/
theorem exec_ringFrameTx_follower (hr : s.ringRuns = true) (hrole : s.roleNow = false) (hm : s.ring.state ≠ .master) :
    exec .ringFrameTx s = .next s.sendFrame := by
  rw [exec_ringFrameTx hr, State.changeRole_same (by rw [hrole, beq_false_of_ne hm]), State.takeSetTime_follower hm]

/-! ## Rows of the ring registers and of its input (R309, R310, R320, R323) -/

section

variable {port : Port} (h : s.owns port = true)
include h

theorem exec_ringSetTime_master (hm : s.ring.state = .master) :
    exec (.ringSetTime port) s = .next { s with ring := { s.ring with setPending := true } } :=
  congrArg Host.Outcome.next (if_pos ⟨h, hm⟩)

theorem exec_ringCfgWrite (v : W32) : exec (.ringCfgWrite port v) s = .next { s with ring := { s.ring with cfg := v &&& 1 } } :=
  congrArg Host.Outcome.next (if_pos h)

end

theorem exec_ringSetTime_follower (hm : s.ring.state ≠ .master) (port : Port) : exec (.ringSetTime port) s = .next s :=
  congrArg Host.Outcome.next (if_neg fun k => hm k.2)

theorem exec_ringInStuck (hr : s.ringRuns = true) (hn : s.ring.inStuck = false) : exec .ringInStuck s = .next { s with
    ring := { s.ring with inStuck := true }, pins := { s.pins with ringStuck := satAdd s.pins.ringStuck 1 } } :=
  congrArg Host.Outcome.next (if_pos (by rw [hr, hn]; rfl))

end

/-- Settles O37: a good frame is `State.goodMaster_measures` or one of the three cases of `State.goodFollower`, a frame lost
`State.lostFrame_ends`, and a boundary the change of role, the pending time and the frame of `exec_ringFrameTx`; the HOPS of a follower's
own frame and its last MARKS are log 35's. -/
theorem ringTimeActs : Obligations.RingTimeActs := by
  unfold Obligations.RingTimeActs
  refine ⟨⟨fun s f hr hs hf => ?good, fun s f hr hs => ?bad, fun s hr => ?missing⟩,
    fun s hr hrole hm => ?master, fun s hr hrole => ⟨fun hown => ?own, fun hnone => ?none, fun hm => ?follows⟩,
    fun s port h => ⟨exec_ringSetTime_master h, fun hm => exec_ringSetTime_follower hm port, exec_ringCfgWrite h⟩,
    fun s hr hn => exec_ringInStuck hr hn⟩
  case good =>
    refine ⟨_, exec_ringFrameRx_good hr hs hf, ?_⟩
    by_cases hm : s.ring.state = .master
    · obtain ⟨n, c, htime, hring⟩ := s.goodFrame.goodMaster_measures f
      have hnot : s.ring.state ≠ .locked := by rw [hm]; nofun
      rw [if_pos hm, State.frameSeen, State.modRing_ring, State.modRing_ringTime, hring]
      exact ⟨rfl, rfl, rfl, fun _ => ⟨htime, hm, rfl⟩, fun h => absurd hm h, fun h => absurd hm h, fun h => absurd h hnot⟩
    obtain ⟨htime, hread⟩ := s.goodFrame.frameRead_reads f
    rw [if_neg hm, State.frameSeen, State.modRing_ring, State.modRing_ringTime, State.modRing_out]
    by_cases hl : s.ring.state = .locked
    · obtain ⟨d, n, hring, hsent⟩ := State.goodFollower_locked_ring (s := s.goodFrame) (f := f) hl
      rw [hring, hread]
      exact ⟨rfl, rfl, rfl, fun h => absurd h hm, fun _ h => absurd hl h, fun _ h => absurd hl h, fun _ => ⟨hl, hsent⟩⟩
    by_cases hrun : s.ring.goodRun < 3
    · rw [State.goodFollower_waits (s := s.goodFrame) hl (Nat.succ_lt_succ hrun), hread, htime]
      exact ⟨rfl, rfl, rfl, fun h => absurd h hm, fun _ _ _ => ⟨rfl, rfl⟩, fun _ _ h => absurd hrun (Nat.not_lt.2 h), fun h => absurd h hl⟩
    · have hfourth : 4 ≤ s.goodFrame.ring.goodRun := Nat.succ_le_succ (Nat.not_lt.1 hrun)
      obtain ⟨d, n, hring, hnear, hfar⟩ := State.goodFollower_locks_ring (s := s.goodFrame) (f := f) hl hfourth
      rw [hring, hread]
      exact ⟨rfl, rfl, rfl, fun h => absurd h hm, fun _ _ h => absurd h hrun, fun _ _ _ => ⟨rfl, rfl, hnear, hfar⟩, fun h => absurd h hl⟩
  case bad =>
    obtain ⟨htime, hgood, hbad, -, hstays, hlost⟩ :=
      (s.modRing fun r => { r with inStuck := false, bad := satAdd r.bad 1 }).lostFrame_ends true
    exact ⟨_, exec_ringFrameRx_bad hr hs, hbad, hgood, htime, hstays, hlost⟩
  case missing =>
    obtain ⟨htime, hgood, hbad, hmissing, hstays, hlost⟩ :=
      (s.modRing fun r => { r with missing := satAdd r.missing 1 }).lostFrame_ends false
    exact ⟨_, exec_ringFrameMissing hr, hmissing, hbad, hgood, htime, hstays, hlost⟩
  case master =>
    obtain ⟨hexec, hstill⟩ := exec_ringFrameTx_master hr hrole hm
    refine ⟨_, hexec, ?_⟩
    rw [State.ownFrame_master hstill]
    cases hp : s.ring.setPending with
    | false =>
      rw [State.takeSetTime_idle hp]
      exact ⟨hm, hp, fun _ => ⟨rfl, rfl, rfl⟩, nofun⟩
    | true =>
      obtain ⟨htime, hring⟩ := State.takeSetTime_master hp hm
      rw [State.frameSent, State.modRing_ring, State.modRing_ringTime, State.send_ring, State.send_ringTime, hring]
      exact ⟨hm, rfl, nofun, fun _ => ⟨htime, rfl⟩⟩
  case own =>
    have hm : s.ring.state ≠ .master := by rcases hown with h | h <;> rw [h] <;> nofun
    rw [exec_ringFrameTx_follower hr hrole hm, State.sendFrame_own hown]
    obtain ⟨hops, hframe⟩ := State.ownFrame_follower hm
    exact ⟨hops, congrArg _ hframe⟩
  case none =>
    have hm : s.ring.state ≠ .master := by rcases hnone with h | h <;> rw [h] <;> nofun
    rw [exec_ringFrameTx_follower hr hrole hm, State.sendFrame_none hnone]
  case follows =>
    have hfollows := State.changeRole_follows hrole hm
    have hstate : s.changeRole.ring.state = .acquire := by rw [hfollows]; rfl
    refine ⟨s.changeRole, ?_, hstate, by rw [hfollows]; rfl, by rw [hfollows]; rfl⟩
    rw [exec_ringFrameTx hr, State.takeSetTime_follower (by rw [hstate]; nofun), State.sendFrame_none (.inr hstate)]

end Sys2Proof.Machine

namespace Sys2Proof.Machine

/-! ## Every row answers, and keeps what its kind keeps -/

/-- The rows that can end with the module OFF, and the one that begins its power-up: what holds only while the module is powered may end
with them (R366, R378, R385, R390). -/
def instrEndsPower : Instr → Bool
  | .pwrEnRise _ _ _ | .pwrEnFall | .undervoltage | .overvoltage | .overcurrent | .thermalSample _ => true
  | _ => false

/-- What a row is held to. -/
def keptBy (c : Instr) : Kept := ⟨instrWritesPower c = false, instrWritesFirmware c = false, instrEndsPower c = false⟩

/-- Every row answers a next state: no meaning faults or refuses. -/
theorem exec_answers (c : Instr) (s : State) : ∃ t, exec c s = .next t := by
  cases c <;> exact ⟨_, rfl⟩

/-- What each row of the table keeps. -/
theorem exec_keeps {s t : State} : ∀ c : Instr, exec c s = .next t → Keeps (keptBy c) s t
  | .reqOpen src, hx => execReqOpen_keeps (.refl ..) src hx
  | .reqAppend src, hx => execReqAppend_keeps (.refl ..) src hx
  | .reqClose src, hx => execReqClose_keeps (.refl ..) src hx
  | .reqPark src, hx => execReqPark_keeps (.refl ..) src hx
  | .modelLoad src, hx => execModelLoad_keeps (.refl ..) src hx
  | .modelLoadDone p handle, hx => execModelLoadDone_keeps (.refl ..) p handle hx
  | .modelUnload src, hx => execModelUnload_keeps (.refl ..) src hx
  | .pageReserve src, hx => execPageReserve_keeps (.refl ..) src hx
  | .indexInsert src, hx => execIndexInsert_keeps (.refl ..) src hx
  | .indexCopyDone p, hx => execIndexCopyDone_keeps (.refl ..) p hx
  | .indexRemove src, hx => execIndexRemove_keeps (.refl ..) src hx
  | .prtStop src, hx => execPrtStop_keeps (.refl ..) src hx
  | .prtStart src, hx => execPrtStart_keeps (.refl ..) src hx
  | .bistRun src env, hx => execBistRun_keeps (.refl ..) src env hx
  | .billetSupply src, hx => execBilletSupply_keeps (.refl ..) src hx
  | .badOpcode src, hx => execBadOpcode_keeps (.refl ..) src hx
  | .commandFetch src entry, hx => execCommandFetch_keeps (.refl ..) src entry hx
  | .doorbell port offset value, hx => execDoorbell_keeps (.refl ..) port offset value hx
  | .cmdqCfgWrite port sub q value, hx => execCmdqCfgWrite_keeps (.refl ..) port sub q value hx
  | .evqCfgWrite port sub e value, hx => execEvqCfgWrite_keeps (.refl ..) port sub e value hx
  | .evqHeadWrite port sub e value, hx => execEvqHeadWrite_keeps (.refl ..) port sub e value hx
  | .evqCoalesceTimeout sub e, hx => execEvqCoalesceTimeout_keeps (.refl ..) sub e hx
  | .msixUnmask port vector, hx => execMsixUnmask_keeps (.refl ..) port vector hx
  | .klnBegin port, hx => execKlnBegin_keeps (.refl ..) port hx
  | .klnLoad port value, hx => execKlnLoad_keeps (.refl ..) port value hx
  | .prtKlnBegin port p, hx => execPrtKlnBegin_keeps (.refl ..) port p hx
  | .prtKlnLoad port p value, hx => execPrtKlnLoad_keeps (.refl ..) port p value hx
  | .prtCtrlStop port p, hx => execPrtCtrlStop_keeps (.refl ..) port p hx
  | .prtCtrlStart port p, hx => execPrtCtrlStart_keeps (.refl ..) port p hx
  | .partitionStopDone p, hx => execPartitionStopDone_keeps (.refl ..) p hx
  | .zeroiseDone p, hx => execZeroiseDone_keeps (.refl ..) p hx
  | .bar4Read port offset len errs, hx => execBar4Read_keeps (.refl ..) port offset len errs hx
  | .bar4Write port offset data errs, hx => execBar4Write_keeps (.refl ..) port offset data errs hx
  | .memMarginHold port, hx => execMemMarginHold_keeps (.refl ..) port hx
  | .memMarginRelease port, hx => execMemMarginRelease_keeps (.refl ..) port hx
  | .memMarginRun port logTransfers, hx => execMemMarginRun_keeps (.refl ..) port logTransfers hx
  | .marginDone errors firstWire, hx => execMarginDone_keeps (.refl ..) errors firstWire hx
  | .peatMarginHold port, hx => execPeatMarginHold_keeps (.refl ..) port hx
  | .peatMarginRelease port, hx => execPeatMarginRelease_keeps (.refl ..) port hx
  | .peatMarginRun port logTransfers, hx => execPeatMarginRun_keeps (.refl ..) port logTransfers hx
  | .peatMarginDone errors firstLane, hx => execPeatMarginDone_keeps (.refl ..) errors firstLane hx
  | .kvFmtApply port p format, hx => execKvFmtApply_keeps (.refl ..) port p format hx
  | .fltPrtRelease port p, hx => execFltPrtRelease_keeps (.refl ..) port p hx
  | .fltFatalClear port, hx => execFltFatalClear_keeps (.refl ..) port hx
  | .autoSpareSet port, hx => execAutoSpareSet_keeps (.refl ..) port hx
  | .secFwBegin port, hx => (execSecFwBegin_keeps (.refl ..) port hx).weaken id nofun id
  | .secFwLoad port value, hx => (execSecFwLoad_keeps (.refl ..) port value hx).weaken id nofun id
  | .secFwCheck port, hx => execSecFwCheck_keeps (.refl ..) port hx
  | .fwLoadDone, hx => execFwLoadDone_keeps (.refl ..) hx
  | .secFwActivate port, hx => (execSecFwActivate_keeps (.refl ..) port hx).weaken id nofun id
  | .secFwEnrol port, hx => (execSecFwEnrol_keeps (.refl ..) port hx).weaken id nofun id
  | .secFwCommitSvn port, hx => execSecFwCommitSvn_keeps (.refl ..) port hx
  | .ringSetTime port, hx => execRingSetTime_keeps (.refl ..) port hx
  | .ringCfgWrite port value, hx => execRingCfgWrite_keeps (.refl ..) port value hx
  | .pwrCtrlOn port, hx => (execPwrCtrlOn_keeps (.refl ..) port hx).weaken nofun id id
  | .pwrCtrlStandby port, hx => (execPwrCtrlStandby_keeps (.refl ..) port hx).weaken nofun id id
  | .registerWrite port offset size value, hx => (execRegisterWrite_keeps (.refl ..) port offset size value hx).weaken nofun nofun id
  | .pwrEnRise s1 s2 s3, hx => (execPwrEnRise_keeps (.refl ..) s1 s2 s3 hx).weaken nofun id nofun
  | .bootSelfCheckDone passed env, hx => (execBootSelfCheckDone_keeps (.refl ..) passed env hx).weaken nofun id id
  | .standbyCheckTick env, hx => (execStandbyCheckTick_keeps (.refl ..) env hx).weaken nofun id id
  | .postDone findings skipped, hx => (execPostDone_keeps (.refl ..) findings skipped hx).weaken nofun id id
  | .peatInitDone, hx => (execPeatInitDone_keeps (.refl ..) hx).weaken nofun id id
  | .pwrEnFall, hx => (execPwrEnFall_keeps (.refl ..) hx).weaken nofun id nofun
  | .undervoltage, hx => (execUndervoltage_keeps (.refl ..) hx).weaken nofun id nofun
  | .overvoltage, hx => (execOvervoltage_keeps (.refl ..) hx).weaken nofun id nofun
  | .overcurrent, hx => (execOvercurrent_keeps (.refl ..) hx).weaken nofun id nofun
  | .modResetAssert, hx => (execModResetAssert_keeps (.refl ..) hx).weaken nofun id id
  | .modResetDeassert, hx => (execModResetDeassert_keeps (.refl ..) hx).weaken nofun id id
  | .brakeAssert, hx => (execBrakeAssert_keeps (.refl ..) hx).weaken nofun id id
  | .brakeDeassert, hx => execBrakeDeassert_keeps (.refl ..) hx
  | .brakeDwellEnd, hx => (execBrakeDwellEnd_keeps (.refl ..) hx).weaken nofun id id
  | .brakeHeld, hx => execBrakeHeld_keeps (.refl ..) hx
  | .brakeShareTick watts, hx => (execBrakeShareTick_keeps (.refl ..) watts hx).weaken nofun id id
  | .powerLimitTick watts current volts, hx => (execPowerLimitTick_keeps (.refl ..) watts current volts hx).weaken nofun id id
  | .thermalSample t, hx => (execThermalSample_keeps (.refl ..) t hx).weaken nofun id nofun
  | .strapChanged levels, hx => execStrapChanged_keeps (.refl ..) levels hx
  | .alertHoldExpiry, hx => execAlertHoldExpiry_keeps (.refl ..) hx
  | .smbusRequest sensor, hx => execSmbusRequest_keeps (.refl ..) sensor hx
  | .smbusClkTimeout, hx => execSmbusClkTimeout_keeps (.refl ..) hx
  | .testAccessEntry instruction, hx => execTestAccessEntry_keeps (.refl ..) instruction hx
  | .testAccessClearDone, hx => execTestAccessClearDone_keeps (.refl ..) hx
  | .perstAssert port, hx => execPerstAssert_keeps (.refl ..) port hx
  | .hotReset port, hx => execHotReset_keeps (.refl ..) port hx
  | .linkDisable port, hx => execLinkDisable_keeps (.refl ..) port hx
  | .linkLost port, hx => execLinkLost_keeps (.refl ..) port hx
  | .linkUp link, hx => execLinkUp_keeps (.refl ..) link hx
  | .flr port, hx => execFlr_keeps (.refl ..) port hx
  | .hostReadDone port tag data, hx => execHostReadDone_keeps (.refl ..) port tag data hx
  | .completionTimeout port tag, hx => execCompletionTimeout_keeps (.refl ..) port tag hx
  | .l0pWidthRequest port lanes, hx => execL0pWidthRequest_keeps (.refl ..) port lanes hx
  | .ideCheckFail port dir, hx => execIdeCheckFail_keeps (.refl ..) port dir hx
  | .getVersion port, hx => execGetVersion_keeps (.refl ..) port hx
  | .getCapabilities port, hx => execGetCapabilities_keeps (.refl ..) port hx
  | .negotiateAlgorithms port, hx => execNegotiateAlgorithms_keeps (.refl ..) port hx
  | .getDigests port, hx => execGetDigests_keeps (.refl ..) port hx
  | .getCertificate port slot offset len, hx => execGetCertificate_keeps (.refl ..) port slot offset len hx
  | .challenge port nonce, hx => execChallenge_keeps (.refl ..) port nonce hx
  | .getMeasurements port index sign nonce, hx => execGetMeasurements_keeps (.refl ..) port index sign nonce hx
  | .keyExchange port exchange, hx => execKeyExchange_keeps (.refl ..) port exchange hx
  | .finish port session verify, hx => execFinish_keeps (.refl ..) port session verify hx
  | .heartbeat port session, hx => execHeartbeat_keeps (.refl ..) port session hx
  | .keyUpdate port session, hx => execKeyUpdate_keeps (.refl ..) port session hx
  | .endSession port session, hx => execEndSession_keeps (.refl ..) port session hx
  | .ideKm port session kset dir key, hx => execIdeKm_keeps (.refl ..) port session kset dir key hx
  | .stepForm p, hx => execStepForm_keeps (.refl ..) p hx
  | .stepHeadStart p errs, hx => execStepHeadStart_keeps (.refl ..) p errs hx
  | .cadenceMark p errs, hx => execCadenceMark_keeps (.refl ..) p errs hx
  | .stagingDone p handle region errs, hx => execStagingDone_keeps (.refl ..) p handle region errs hx
  | .programStart p, hx => execProgramStart_keeps (.refl ..) p hx
  | .collectiveTimeout p tile, hx => execCollectiveTimeout_keeps (.refl ..) p tile hx
  | .stepCommit p, hx => execStepCommit_keeps (.refl ..) p hx
  | .deadlineReached p request, hx => execDeadlineReached_keeps (.refl ..) p request hx
  | .endOnlyRecord p request, hx => execEndOnlyRecord_keeps (.refl ..) p request hx
  | .slotBoundary slot, hx => execSlotBoundary_keeps (.refl ..) slot hx
  | .slotZeroiseDone slot, hx => execSlotZeroiseDone_keeps (.refl ..) slot hx
  | .embed p handle errs, hx => execEmbed_keeps (.refl ..) p handle errs hx
  | .rmsNorm p handle errs, hx => execRmsNorm_keeps (.refl ..) p handle errs hx
  | .layerNorm p handle errs, hx => execLayerNorm_keeps (.refl ..) p handle errs hx
  | .linear p handle errs, hx => execLinear_keeps (.refl ..) p handle errs hx
  | .rope p handle, hx => execRope_keeps (.refl ..) p handle hx
  | .kvAppend p handle, hx => execKvAppend_keeps (.refl ..) p handle hx
  | .attend p handle errs, hx => execAttend_keeps (.refl ..) p handle errs hx
  | .act p handle, hx => execAct_keeps (.refl ..) p handle hx
  | .route p handle errs, hx => execRoute_keeps (.refl ..) p handle errs hx
  | .combine p handle, hx => execCombine_keeps (.refl ..) p handle hx
  | .add p handle, hx => execAdd_keeps (.refl ..) p handle hx
  | .logits p handle errs, hx => execLogits_keeps (.refl ..) p handle errs hx
  | .sample p handle, hx => execSample_keeps (.refl ..) p handle hx
  | .season p handle, hx => execSeason_keeps (.refl ..) p handle hx
  | .scatter p handle errs, hx => execScatter_keeps (.refl ..) p handle errs hx
  | .spillDone p handle page errs, hx => execSpillDone_keeps (.refl ..) p handle page errs hx
  | .fetchDone p handle page errs, hx => execFetchDone_keeps (.refl ..) p handle page errs hx
  | .prefixCopyDone p request errs, hx => execPrefixCopyDone_keeps (.refl ..) p request errs hx
  | .nbSequenceSubmit hop hdr words, hx => execNbSequenceSubmit_keeps (.refl ..) hop hdr words hx
  | .nbClear bank, hx => execNbClear_keeps (.refl ..) bank hx
  | .nbLoadv bank, hx => execNbLoadv_keeps (.refl ..) bank hx
  | .nbGemv bank errs parity, hx => execNbGemv_keeps (.refl ..) bank errs parity hx
  | .nbDot bank errs parity, hx => execNbDot_keeps (.refl ..) bank errs parity hx
  | .nbAxpy bank errs parity, hx => execNbAxpy_keeps (.refl ..) bank errs parity hx
  | .nbReadacc bank, hx => execNbReadacc_keeps (.refl ..) bank hx
  | .nbStore bank, hx => execNbStore_keeps (.refl ..) bank hx
  | .nbCopy bank errs, hx => execNbCopy_keeps (.refl ..) bank errs hx
  | .nbMalformed bank, hx => execNbMalformed_keeps (.refl ..) bank hx
  | .atomicFp32Add tile line word v, hx => execAtomicFp32Add_keeps (.refl ..) tile line word v hx
  | .atomicBf16PairAdd tile line word v, hx => execAtomicBf16PairAdd_keeps (.refl ..) tile line word v hx
  | .atomicMax tile line word v, hx => execAtomicMax_keeps (.refl ..) tile line word v hx
  | .atomicMin tile line word v, hx => execAtomicMin_keeps (.refl ..) tile line word v hx
  | .atomicInt32Add tile line word v, hx => execAtomicInt32Add_keeps (.refl ..) tile line word v hx
  | .atomicSwap tile line word v, hx => execAtomicSwap_keeps (.refl ..) tile line word v hx
  | .atomicCompareAndSwap tile line word expected v, hx => execAtomicCompareAndSwap_keeps (.refl ..) tile line word expected v hx
  | .reductionMessage p hop line kind words cline cword, hx => execReductionMessage_keeps (.refl ..) p hop line kind words cline cword hx
  | .memRead who addr outcome, hx => execMemRead_keeps (.refl ..) who addr outcome hx
  | .memWrite p addr bytes outcome, hx => execMemWrite_keeps (.refl ..) p addr bytes outcome hx
  | .arbAgePromote die index, hx => execArbAgePromote_keeps (.refl ..) die index hx
  | .refreshDue bank, hx => execRefreshDue_keeps (.refl ..) bank hx
  | .refreshPullin bank, hx => execRefreshPullin_keeps (.refl ..) bank hx
  | .dieTempSample die temp, hx => execDieTempSample_keeps (.refl ..) die temp hx
  | .scrubRead addr outcome, hx => execScrubRead_keeps (.refl ..) addr outcome hx
  | .rowRemap bank row errs verifyOk, hx => execRowRemap_keeps (.refl ..) bank row errs verifyOk hx
  | .reliefCopyDone p segment errs, hx => execReliefCopyDone_keeps (.refl ..) p segment errs hx
  | .coreFault site cluster core, hx => execCoreFault_keeps (.refl ..) site cluster core hx
  | .engineParityError site engine, hx => execEngineParityError_keeps (.refl ..) site engine hx
  | .tileFault site serves, hx => execTileFault_keeps (.refl ..) site serves hx
  | .substitutionDone site, hx => execSubstitutionDone_keeps (.refl ..) site hx
  | .frameFault site part, hx => execFrameFault_keeps (.refl ..) site part hx
  | .faultEntryHandle fifo, hx => execFaultEntryHandle_keeps (.refl ..) fifo hx
  | .ashLogAppend, hx => execAshLogAppend_keeps (.refl ..) hx
  | .peatRead p chunk outcome, hx => execPeatRead_keeps (.refl ..) p chunk outcome hx
  | .peatScrubRead chunk outcome, hx => execPeatScrubRead_keeps (.refl ..) chunk outcome hx
  | .peatArbAgePromote channel index, hx => execPeatArbAgePromote_keeps (.refl ..) channel index hx
  | .refetchDone p handle region billet errs, hx => execRefetchDone_keeps (.refl ..) p handle region billet errs hx
  | .supplyTimeout p handle region billet, hx => execSupplyTimeout_keeps (.refl ..) p handle region billet hx
  | .ringFrameRx frame, hx => execRingFrameRx_keeps (.refl ..) frame hx
  | .ringFrameMissing, hx => execRingFrameMissing_keeps (.refl ..) hx
  | .ringFrameTx, hx => execRingFrameTx_keeps (.refl ..) hx
  | .ringInStuck, hx => execRingInStuck_keeps (.refl ..) hx
  | .bistLimitCheck env, hx => execBistLimitCheck_keeps (.refl ..) env hx
  | .bistSaveDone targetFault, hx => execBistSaveDone_keeps (.refl ..) targetFault hx
  | .bistTestDone findings, hx => execBistTestDone_keeps (.refl ..) findings hx
  | .bistRestoreDone, hx => execBistRestoreDone_keeps (.refl ..) hx
  | .bistClearDone, hx => execBistClearDone_keeps (.refl ..) hx
  | .pageMoveDone p handle page errs, hx => execPageMoveDone_keeps (.refl ..) p handle page errs hx
  | .fwEraseDone, hx => execFwEraseDone_keeps (.refl ..) hx
  | .fuseWriteDone, hx => (execFuseWriteDone_keeps (.refl ..) hx).weaken id nofun id

/-! ## A powered module under SCAN_LATCH (R366) -/

theorem State.protect_off (s : State) (cause : Nat) : (s.protect cause).power.phase = .off := by
  unfold State.protect State.isOff
  split
  · next h => exact eq_of_beq h
  · rfl

/-- A row that can end with the module OFF does so in a powered module, or keeps SCAN_LATCH: PWR_EN already low, PWR_EN rising again, and a
sample below the trip points (R378, R385, R390). -/
theorem instrEndsPower_off {s t : State} (hon : s.power.phase ≠ .off) :
    ∀ c : Instr, instrEndsPower c = true → exec c s = .next t → t.power.phase = .off ∨ Keeps ⟨False, True, True⟩ s t
  | .pwrEnRise s1 s2 s3, _, hx => by
    have hoff : s.isOff = false := beq_eq_false_iff_ne.2 hon
    cases (show execPwrEnRise s1 s2 s3 s = .next t from hx)
    exact .inr (by simpa [hoff] using Keeps.refl _ s)
  | .pwrEnFall, _, hx => by
    have hoff : s.isOff = false := beq_eq_false_iff_ne.2 hon
    cases (show execPwrEnFall s = .next t from hx)
    cases hp : s.pins.pwrEn
    · exact .inr (Keeps.refl _ s)
    · exact .inl (by simp only [hoff]; rfl)
  | .undervoltage, _, hx => by cases (show execUndervoltage s = .next t from hx); exact .inl (s.protect_off 2)
  | .overvoltage, _, hx => by cases (show execOvervoltage s = .next t from hx); exact .inl (s.protect_off 3)
  | .overcurrent, _, hx => by cases (show execOvercurrent s = .next t from hx); exact .inl (s.protect_off 4)
  | .thermalSample r, _, hx => by
    by_cases hhot : 110 ≤ r.maxLogic ∨ 105 ≤ r.maxDram
    · have hoff : s.isOff = false := beq_eq_false_iff_ne.2 hon
      cases (show execThermalSample r s = .next t from hx)
      exact .inl (by simp only [hoff, if_pos hhot]; rfl)
    · exact .inr (execThermalSample_keeps_untripped (.refl ..) r hhot hx)

/-- A row run in a powered module ends with it OFF, or keeps SCAN_LATCH set. -/
theorem exec_keeps_latch {s t : State} {c : Instr} (hon : s.power.phase ≠ .off) (hx : exec c s = .next t) :
    t.power.phase = .off ∨ (s.sec.scanLatch = true → t.sec.scanLatch = true) := by
  cases hc : instrEndsPower c with
  | false => exact .inr ((exec_keeps c hx).latch hc)
  | true => exact (instrEndsPower_off hon c hc hx).imp_right fun k => k.latch trivial

/-! ## A step -/

/-- A step with nothing waiting is a tick of the clock. -/
theorem step_idle {s : State} (h : s.pending = []) : step s = .next s.tick := by unfold step; rw [h]

/-- A step with commands waiting runs the first. -/
theorem step_front {s : State} {c : Instr} {rest : List Instr} (h : s.pending = c :: rest) :
    step s = exec c { s with pending := rest } := by unfold step; rw [h]

/-- What a tick of a powered module changes: its clocks and the ring block; ring time by one nanosecond where it is not being corrected
(R314). -/
theorem State.tick_clocks {s : State} (hon : s.power.phase ≠ .off) :
    s.tick = { s with uptime := s.uptime + 1, ringTime := s.tick.ringTime, ring := s.tick.ring } ∧
      (s.ring.adjust = 0 → s.tick.ringTime = s.ringTime + 1) := by
  unfold State.tick State.pass
  rw [if_neg hon]
  refine ⟨rfl, fun h => ?_⟩
  simp [h]

/-- What a step can be: a tick of the clock, or the front command run on the state with the queue's rest. -/
theorem step_cases {s t : State} (h : step s = .next t) :
    (s.pending = [] ∧ t = s.tick) ∨ ∃ c rest, s.pending = c :: rest ∧ exec c { s with pending := rest } = .next t := by
  cases hp : s.pending with
  | nil => rw [step_idle hp] at h; cases h; exact .inl ⟨rfl, rfl⟩
  | cons c rest => rw [step_front hp] at h; exact .inr ⟨c, rest, rfl, h⟩

/-- What every step keeps, of the state with the front of its queue taken. -/
theorem step_keeps {s t : State} (h : step s = .next t) : Keeps ⟨False, False, False⟩ { s with pending := s.pending.tail } t := by
  obtain ⟨hp, rfl⟩ | ⟨c, rest, hp, hx⟩ := step_cases h
  · rw [hp, List.tail_nil, ← hp]; exact State.tick_keeps (.refl ..)
  · rw [hp]; exact (exec_keeps c hx).weaken nofun nofun nofun

/-! ## The statements -/

/-- Settles O1, by the definition of a step. -/
theorem stepRunsFrontCommand : Obligations.StepRunsFrontCommand := fun _ _ _ => step_front rfl

/-- Settles O3, each part of the invariant at its reset value. -/
theorem resetMeetsInvariant : Obligations.ResetMeetsInvariant :=
  { sheet := rfl
    peat := rfl
    shares := ⟨by decide, by decide, by decide⟩
    svnSteps := by decide
    ash := ⟨by decide, by decide⟩
    noKey := nofun }

/-- Settles O4: each part of the invariant is one that every row of the table keeps. -/
theorem stepKeepsInvariant : Obligations.StepKeepsInvariant := by
  intro s t hi h
  have k := step_keeps h
  exact { sheet := k.sheet hi.sheet, peat := k.peat hi.peat, shares := k.shares hi.shares, svnSteps := k.svnSteps hi.svnSteps
          ash := k.ash hi.ash, noKey := k.noKey hi.noKey }

/-- Settles O5: every row but those of the SEC block is held to keep firmware, keys and fuses. -/
theorem onlySecurityRowsChangeFirmware : Obligations.OnlySecurityRowsChangeFirmware :=
  fun c _ _ hc hx => (exec_keeps c hx).firmware hc

/-- Settles O8: every row but the power rows is held to keep the power state. -/
theorem onlyPowerRowsChangePower : Obligations.OnlyPowerRowsChangePower :=
  fun c _ _ hc hx => (exec_keeps c hx).power hc

/-- An image below the fused minimum does not verify (R364). -/
theorem Flash.verifies_below {f : Flash} {img : List Byte} (h : imageSvn img < f.svnMin) : f.verifies img = false := by
  simp [Flash.verifies, Flash.imageFaults, h]

/-- Settles O6. -/
theorem fusedMinimumNeverFalls : Obligations.FusedMinimumNeverFalls :=
  ⟨fun _ _ h => (step_keeps h).svn, fun _ _ => Flash.verifies_below⟩

/-- Settles O7: SCAN_LATCH by the rows that may end it, the key by what every row keeps under it. -/
theorem scanLatchHoldsUntilPowerOff : Obligations.ScanLatchHoldsUntilPowerOff := by
  intro s t hon hlatch hkey h
  have hk := (step_keeps h).noKey fun _ => hkey
  obtain ⟨-, rfl⟩ | ⟨c, rest, -, hx⟩ := step_cases h
  · have ht := (State.tick_keeps (κ := ⟨True, True, True⟩) (.refl _ s)).latch trivial hlatch
    exact .inl ⟨ht, hk ht⟩
  · obtain hoff | hl := exec_keeps_latch (s := { s with pending := rest }) hon hx
    · exact .inr hoff
    · exact .inl ⟨hl hlatch, hk (hl hlatch)⟩

/-- Settles O2: a row answers and sends nothing back; a tick of a powered module moves its clocks and the ring block. -/
theorem everyStepAnswers : Obligations.EveryStepAnswers := by
  refine ⟨fun s => ?_, fun s hp hon => ⟨_, step_idle hp, ?_⟩⟩
  · have hstep : ∃ t, step s = .next t := by
      cases hp : s.pending with
      | nil => exact ⟨_, step_idle hp⟩
      | cons c rest => rw [step_front hp]; exact exec_answers ..
    obtain ⟨t, ht⟩ := hstep
    exact ⟨t, ht, (step_keeps ht).pending, (step_keeps ht).out⟩
  · exact State.tick_clocks hon

end Sys2Proof.Machine

namespace Sys2Proof.Machine

/-! ## Firmware images (R360, R361, R364) -/

/-- The grounds against an image are BAD_HASH, BAD_SIGNATURE and ROLLBACK (R361, R364). -/
theorem Flash.mem_imageFaults {f : Flash} {img : List Byte} {x : Nat} (h : x ∈ f.imageFaults img) : x = 3 ∨ x = 4 ∨ x = 5 := by
  simp only [Flash.imageFaults, List.mem_append] at h
  obtain (h | h) | h := h <;> · split at h <;> simp_all

/-- RESULT of a well-formed image with a ground against it names one of the grounds. -/
theorem Flash.imageResult_faulty {f : Flash} {img : List Byte} (hform : imageFormed img = true) (h : f.imageFaults img ≠ []) (n : Nat) :
    f.imageResult img n ∈ f.imageFaults img := by
  unfold Flash.imageResult
  rw [if_neg (by simp [hform])]
  cases hf : f.imageFaults img with
  | nil => exact absurd hf h
  | cons x l =>
    dsimp only
    have hlt : n % (l.length + 1) < (x :: l).length := Nat.mod_lt _ (Nat.succ_pos _)
    rw [List.getD_eq_getElem _ _ hlt]
    exact List.getElem_mem hlt

/-- RESULT is VERIFIED exactly where the image verifies, and BAD_FORMAT exactly where it is not well formed (R361). -/
theorem Flash.imageResult_iff (f : Flash) (img : List Byte) (n : Nat) :
    (f.imageResult img n = 1 ↔ f.verifies img = true) ∧ (f.imageResult img n = 2 ↔ imageFormed img = false) := by
  cases hform : imageFormed img with
  | false => simp [Flash.imageResult, Flash.verifies, hform]
  | true =>
    by_cases h : f.imageFaults img = []
    · simp [Flash.imageResult, Flash.verifies, hform, h]
    · have hmem := Flash.mem_imageFaults (Flash.imageResult_faulty hform h n)
      have hv : f.verifies img = false := by simp [Flash.verifies, h]
      rw [hv]
      exact ⟨⟨fun hn => by omega, nofun⟩, ⟨fun hn => by omega, nofun⟩⟩

theorem Flash.fwSlot_modSlot_same (f : Flash) (b : Bool) (g : List Byte → List Byte) : (f.modSlot b g).fwSlot b = g (f.fwSlot b) := by
  cases b <;> rfl

theorem Flash.fwSlot_modSlot_other (f : Flash) (b : Bool) (g : List Byte → List Byte) : (f.modSlot (!b) g).fwSlot b = f.fwSlot b := by
  cases b <;> rfl

theorem Flash.modSlot_activeB (f : Flash) (b : Bool) (g : List Byte → List Byte) : (f.modSlot b g).activeB = f.activeB := by
  cases b <;> rfl

/-! ## An update (R361-R364) -/

section Update

variable {s : State} {port : Port}

/-- Neither a check nor a fuse write is in progress. -/
theorem Sec.idle_beq {x : Sec} (h : x.busy = .none ∨ x.busy = .erase) : (x.busy == .none || x.busy == .erase) = true := by
  simpa using h

theorem exec_secFwBegin (hr : s.reaches port = true) (hb : s.sec.busy = .none ∨ s.sec.busy = .erase) :
    exec (.secFwBegin port) s = .next ((s.modFlash fun f => f.modSlot (!f.activeB) fun _ => []).modSec fun x =>
      { x with busy := .erase, result := 0, verified := none, bytes := 0, loading := true }) :=
  congrArg Host.Outcome.next (if_pos (by rw [hr, Sec.idle_beq hb]; rfl))

theorem exec_fwEraseDone (hb : s.sec.busy = .erase) : exec .fwEraseDone s = .next { s with sec := { s.sec with busy := .none } } :=
  congrArg Host.Outcome.next (if_pos hb)

theorem exec_secFwLoad (hr : s.reaches port = true) (hl : s.sec.loading = true) (v : W32) :
    exec (.secFwLoad port v) s = .next ((s.modSec fun x => { x with bytes := x.bytes + 4 }).modFlash fun f =>
      f.modSlot (!f.activeB) fun l => (l ++ wordBytes v).take slotBytes) := by
  refine congrArg Host.Outcome.next ((if_pos hr).trans ?_)
  dsimp only
  rw [leBytes_word]
  exact if_pos hl

theorem exec_secFwCheck (hr : s.reaches port = true) (hb : s.sec.busy = .none ∨ s.sec.busy = .erase) :
    exec (.secFwCheck port) s = .next { s with sec := { s.sec with busy := .check } } :=
  congrArg Host.Outcome.next (if_pos (by rw [hr, Sec.idle_beq hb]; rfl))

/-- A state at the end of the check of the inactive slot, before its event is told. -/
def State.checked (s : State) (r : Nat) : State :=
  { s with fresh := s.fresh + 1
           sec := { s.sec with busy := .none, result := r, verified := if r = 1 then some (!s.flash.activeB) else none } }

/-- The end of a check gives the image's result and tells it (R361, R376). -/
theorem exec_fwLoadDone (hb : s.sec.busy = .check) : ∃ r t, exec .fwLoadDone s = .next t ∧ State.Tells (s.checked r) t ∧
    (∃ n, r = s.flash.imageResult (s.flash.fwSlot (!s.flash.activeB)) n) :=
  ⟨_, _, congrArg Host.Outcome.next (if_pos hb), State.toOwner_tells (.refl _) _ _, _, rfl⟩

theorem exec_secFwActivate {b : Bool} (hr : s.reaches port = true) (hres : s.sec.result = 1) (hv : s.sec.verified = some b) :
    exec (.secFwActivate port) s =
      .next { s with flash := { s.flash with activeB := b }, sec := { s.sec with loading := false } } := by
  refine congrArg Host.Outcome.next ((if_pos ⟨hr, hres⟩).trans ?_)
  rw [hv]
  rfl

/-- The state in which an ENROL leaves flash and RESULT: the key loaded is stored where it may be (R363). -/
def State.enrolled (s : State) (ok : Bool) : State :=
  if ok then s.modFlash fun f => { f with csigKey := keyOf (s.sec.csig 0 96) } else s.modSec fun x => { x with result := 6 }

/-- The key loaded may be stored: none is enrolled, or the one enrolled signs for it (R363). -/
def State.mayEnrol (s : State) : Bool :=
  match s.flash.csigKey with
  | none => true
  | some k => Config.ecdsaVerify k (s.sec.csig 96 96) (Config.sha384 (s.sec.nonce ++ s.sec.csig 0 96))

theorem exec_secFwEnrol (hr : s.reaches port = true) : exec (.secFwEnrol port) s = .next (s.enrolled s.mayEnrol).drawNonce := by
  refine congrArg Host.Outcome.next ((if_pos hr).trans ?_)
  unfold State.enrolled State.mayEnrol
  rfl

/-- The bytes drawn depend on the count of free values alone. -/
theorem State.drawBytes_of_fresh {s t : State} (h : t.fresh = s.fresh) (n : Nat) : (t.drawBytes n).1 = (s.drawBytes n).1 := by
  induction n generalizing s t with
  | zero => rfl
  | succ n ih =>
    have hd : t.draw.1 = s.draw.1 := congrArg Config.fresh h
    have htail := ih (s := s.draw.2) (t := t.draw.2) (congrArg (· + 1) h)
    simp only [State.drawBytes, hd, htail]

theorem exec_secFwCommitSvn (hr : s.reaches port = true) (hb : s.sec.busy = .none) :
    exec (.secFwCommitSvn port) s = .next { s with sec := { s.sec with busy := .fuse } } :=
  congrArg Host.Outcome.next (if_pos ⟨hr, hb⟩)

/-- The end of a fuse write that has something to raise, and an increment left to raise it with (R364). -/
theorem exec_fuseWriteDone_raises (hb : s.sec.busy = .fuse) (hlt : s.flash.svnMin < imageSvn s.sec.runningHdr) (hn : s.flash.svnSteps < 64) :
    exec .fuseWriteDone s = .next { s with
      sec := { s.sec with busy := .none }
      flash := { s.flash with svnMin := imageSvn s.sec.runningHdr, svnSteps := s.flash.svnSteps + 1 } } :=
  congrArg Host.Outcome.next ((if_pos hb).trans (if_pos ⟨hlt, hn⟩))

theorem exec_fuseWriteDone_idle (hb : s.sec.busy = .fuse) (h : imageSvn s.sec.runningHdr ≤ s.flash.svnMin ∨ 64 ≤ s.flash.svnSteps) :
    exec .fuseWriteDone s = .next { s with sec := { s.sec with busy := .none } } := by
  refine congrArg Host.Outcome.next ((if_pos hb).trans (if_neg ?_))
  show ¬(s.flash.svnMin < imageSvn s.sec.runningHdr ∧ s.flash.svnSteps < 64)
  omega

end Update

/-- Settles O16, row by row of the update, the enrolment and the fuse write. -/
theorem firmwareAndKeysChange : Obligations.FirmwareAndKeysChange := by
  refine ⟨⟨fun s port hr hb => ?begin_, fun s hb => exec_fwEraseDone hb, fun s port v hr hl => ?load,
    fun s port hr hb => exec_secFwCheck hr hb, fun s hb => ?check, fun s port b hr hres hv => exec_secFwActivate hr hres hv⟩,
    fun s port hr => ?enrol, fun s port hr hb => exec_secFwCommitSvn hr hb, fun s hb => ?fuse⟩
  case begin_ =>
    exact ⟨_, exec_secFwBegin hr hb, Flash.fwSlot_modSlot_same .., Flash.fwSlot_modSlot_other .., rfl, rfl⟩
  case load =>
    exact ⟨_, exec_secFwLoad hr hl v, rfl, Flash.fwSlot_modSlot_same .., Flash.fwSlot_modSlot_other .., Flash.modSlot_activeB .., rfl⟩
  case check =>
    obtain ⟨r, t, hx, htells, n, hr⟩ := exec_fwLoadDone hb
    have hsec : t.sec = (s.checked r).sec := htells.eq State.sec fun _ _ _ _ _ => rfl
    obtain ⟨hone, htwo⟩ := s.flash.imageResult_iff (s.flash.fwSlot (!s.flash.activeB)) n
    rw [← hr] at hone htwo
    refine ⟨t, hx, ?_, ?_, ?_, ?_, ?_⟩
    · rw [hsec]; exact htells
    · rw [hsec]; rfl
    · rw [hsec]; exact hone
    · rw [hsec]; exact htwo
    · rw [hsec]; exact ite_congr (propext hone) (fun _ => rfl) fun _ => rfl
  case enrol =>
    have hdraw (ok : Bool) : (s.enrolled ok).drawNonce = { s.enrolled ok with
        fresh := s.fresh + 48, sec := { (s.enrolled ok).sec with nonce := (s.drawBytes 48).1 } } := by
      have hfresh : (s.enrolled ok).fresh = s.fresh := by cases ok <;> rfl
      rw [State.drawNonce_eq, State.drawBytes_of_fresh hfresh, hfresh]
    refine ⟨_, exec_secFwEnrol hr, ?_, fun hmay => ?_, fun k hk hbad => ?_⟩
    · rw [hdraw]
      cases s.mayEnrol <;> rfl
    · have hok : s.mayEnrol = true := by
        unfold State.mayEnrol
        obtain hk | ⟨k, hk, hv⟩ := hmay
        · rw [hk]
        · rw [hk]; exact hv
      rw [hdraw, hok]
      exact ⟨rfl, rfl, rfl⟩
    · have hno : s.mayEnrol = false := by unfold State.mayEnrol; rw [hk]; exact hbad
      rw [hdraw, hno]
      exact ⟨rfl, rfl⟩
  case fuse =>
    by_cases h : s.flash.svnMin < imageSvn s.sec.runningHdr ∧ s.flash.svnSteps < 64
    · obtain ⟨hlt, hn⟩ := h
      refine ⟨_, exec_fuseWriteDone_raises hb hlt hn, rfl, fun _ _ => ⟨rfl, fun _ himg => by exact Flash.verifies_below himg⟩, fun h => ?_⟩
      omega
    · have hidle : imageSvn s.sec.runningHdr ≤ s.flash.svnMin ∨ 64 ≤ s.flash.svnSteps := by omega
      exact ⟨_, exec_fuseWriteDone_idle hb hidle, rfl, fun hlt hn => absurd ⟨hlt, hn⟩ h, fun _ => rfl⟩

end Sys2Proof.Machine

namespace Sys2Proof.Machine

/-! ## The responder of a port: which requests are answered (R355-R357, R366) -/

section Responder

variable {s : State} {port : Port}

/-- A request of a connection that stands runs its body. -/
theorem State.spdmReq_stands (ha : s.answers port = true) (hn : (s.port port).spdm.negotiated = true) (body : Spdm → State) :
    s.spdmReq port body = body (s.port port).spdm := (if_pos ha).trans (if_pos hn)

theorem State.keyReq_keyed (ha : s.answers port = true) (hn : (s.port port).spdm.negotiated = true) (hk : s.sec.keyValid = true)
    (body : Spdm → State) : s.keyReq port body = body (s.port port).spdm := (State.spdmReq_stands ha hn _).trans (if_pos hk)

/-- What needs the identity key is refused without it (R366). -/
theorem State.keyReq_keyless (ha : s.answers port = true) (hn : (s.port port).spdm.negotiated = true) (hk : s.sec.keyValid = false)
    (body : Spdm → State) : s.keyReq port body = s.reply port .errorUnspecified :=
  (State.spdmReq_stands ha hn _).trans (if_neg (by simp [hk]))

theorem State.inSession_established {id : Nat} (ha : s.answers port = true) (hn : (s.port port).spdm.negotiated = true)
    (h : ∃ x ∈ (s.port port).spdm.sessions, x.id = id ∧ x.established = true) (body : State) : s.inSession port id body = body := by
  obtain ⟨x, hx, rfl, he⟩ := h
  exact (State.spdmReq_stands ha hn _).trans (if_pos (List.any_eq_true.2 ⟨x, hx, by simp [he]⟩))

/-- A request within a session that is not established is refused. -/
theorem State.inSession_refused {id : Nat} (ha : s.answers port = true) (hn : (s.port port).spdm.negotiated = true)
    (h : ∀ x ∈ (s.port port).spdm.sessions, x.id = id → x.established = false) (body : State) :
    s.inSession port id body = s.reply port .errorOther := by
  have hnone : ((s.port port).spdm.sessions.any fun y => y.id == id && y.established) = false :=
    List.any_eq_false.2 fun x hx => by
      by_cases hid : x.id = id
      · simp [h x hx hid]
      · simp [hid]
  exact (State.spdmReq_stands ha hn _).trans (if_neg (by simp [hnone]))

/-! ## The connection's first requests (R355, R356) -/

theorem exec_getVersion (ha : s.answers port = true) : exec (.getVersion port) s =
    .next ((s.modSpdm port fun x => { x with versioned := true, negotiated := false, sessions := [] }).reply port .version) :=
  congrArg Host.Outcome.next (if_pos ha)

theorem exec_getCapabilities (ha : s.answers port = true) (hv : (s.port port).spdm.versioned = true) :
    exec (.getCapabilities port) s = .next (s.reply port .capabilities) :=
  congrArg Host.Outcome.next ((if_pos ha).trans (congrArg (s.reply port) (if_pos hv)))

theorem exec_negotiateAlgorithms (ha : s.answers port = true) (hv : (s.port port).spdm.versioned = true) :
    exec (.negotiateAlgorithms port) s =
      .next ((s.modSpdm port fun x => { x with negotiated := true }).reply port .algorithms) :=
  congrArg Host.Outcome.next ((if_pos ha).trans (if_pos hv))

/-! ## Requests of a connection that stands (R355-R357, R366) -/

theorem exec_getDigests (ha : s.answers port = true) (hn : (s.port port).spdm.negotiated = true) :
    exec (.getDigests port) s = .next (s.reply port (.digests [Config.sha384 Config.certChain])) :=
  congrArg Host.Outcome.next (State.spdmReq_stands ha hn _)

theorem exec_getCertificate (ha : s.answers port = true) (hn : (s.port port).spdm.negotiated = true) (slot o n : Nat) :
    exec (.getCertificate port slot o n) s =
      .next (s.reply port (if slot = 0 then .certificate ((Config.certChain.drop o).take n) else .errorOther)) :=
  congrArg Host.Outcome.next (State.spdmReq_stands ha hn _)

theorem exec_challenge (ha : s.answers port = true) (hn : (s.port port).spdm.negotiated = true) (nonce : List Byte) :
    exec (.challenge port nonce) s = .next (s.reply port (if s.sec.keyValid then
      .challengeAuth (Config.identitySign (Config.sha384 Config.certChain ++ nonce)) else .errorUnspecified)) := by
  refine congrArg Host.Outcome.next ?_
  cases hk : s.sec.keyValid with
  | true => exact State.keyReq_keyed ha hn hk _
  | false => exact State.keyReq_keyless ha hn hk _

theorem exec_keyExchange_opens (ha : s.answers port = true) (hn : (s.port port).spdm.negotiated = true) (hk : s.sec.keyValid = true)
    (hfew : (s.port port).spdm.sessions.length < 2) (data : List Byte) :
    exec (.keyExchange port data) s = .next ((s.modSpdm port fun x => { x with
        sessions := x.sessions ++ [{ id := x.nextSession }], nextSession := x.nextSession + 1 }).reply port
      (.keyExchangeRsp (s.port port).spdm.nextSession (Config.identitySign data))) :=
  congrArg Host.Outcome.next ((State.keyReq_keyed ha hn hk _).trans (if_neg (Nat.not_le.2 hfew)))

/-- Without the key, or with two sessions open, no session is opened. -/
theorem exec_keyExchange_refused (ha : s.answers port = true) (hn : (s.port port).spdm.negotiated = true)
    (h : s.sec.keyValid = false ∨ 2 ≤ (s.port port).spdm.sessions.length) (data : List Byte) :
    exec (.keyExchange port data) s = .next (s.reply port (if s.sec.keyValid then .errorOther else .errorUnspecified)) := by
  refine congrArg Host.Outcome.next ?_
  cases hk : s.sec.keyValid with
  | false => exact State.keyReq_keyless ha hn hk _
  | true => exact (State.keyReq_keyed ha hn hk _).trans (if_pos (h.resolve_left (by simp [hk])))

theorem exec_getMeasurements_latched (ha : s.answers port = true) (hn : (s.port port).spdm.negotiated = true)
    (hl : s.sec.scanLatch = true) (i : Nat) (sign : Bool) (nonce : List Byte) :
    exec (.getMeasurements port i sign nonce) s = .next (s.reply port .errorUnspecified) :=
  congrArg Host.Outcome.next ((State.spdmReq_stands ha hn _).trans (if_pos (by simp [hl])))

/-- A measurement of the module asked for alone, and unsigned (R357). -/
theorem exec_getMeasurements_one {i : Nat} {x : List Byte} (ha : s.answers port = true) (hn : (s.port port).spdm.negotiated = true)
    (hl : s.sec.scanLatch = false) (hi : i ≠ 0xFF) (hone : (s.measurements port).filter (fun x => x.1 == i) = [(i, x)])
    (nonce : List Byte) :
    exec (.getMeasurements port i false nonce) s = .next (s.reply port (.measurements [(i, x)] none)) := by
  refine congrArg Host.Outcome.next ((State.spdmReq_stands ha hn _).trans ((if_neg (by simp [hl])).trans ?_))
  simp only [if_neg hi, hone]
  exact if_neg (by simp)

/-- The measurement blocks of the module are those with the numbers 1 to 4, each once (R357). -/
theorem State.measurements_module (s : State) (port : Port) {i : Nat} (hi : i < 5) : (s.measurements port).filter (fun x => x.1 == i) =
    [(1, Config.sha384 Config.bootRom), (2, Config.sha384 (s.sec.runningHdr.take 320)), (3, s.sec.chain3),
      (4, Config.sha384 s.flash.ashBytes)].filter fun x => x.1 == i := by
  have hne : (5 == i) = false := beq_eq_false_iff_ne.2 (by omega)
  unfold State.measurements
  rw [List.filter_append]
  split
  · split <;> simp [hne]
  · simp

end Responder

/-- Settles O17, request by request. -/
theorem spdmConnectionAndKeys : Obligations.SpdmConnectionAndKeys := by
  refine ⟨fun s port ha => ⟨exec_getVersion ha, fun hv => ⟨exec_getCapabilities ha hv, exec_negotiateAlgorithms ha hv⟩,
      fun hn => ⟨exec_getDigests ha hn, exec_getCertificate ha hn⟩⟩,
    fun s port ha hn => ⟨exec_challenge ha hn, fun data hk hfew => exec_keyExchange_opens ha hn hk hfew data, fun data h => ?refused,
      fun i sign nonce hl => exec_getMeasurements_latched ha hn hl i sign nonce, fun i nonce hl hi => ?block⟩⟩
  case refused =>
    refine ⟨_, exec_keyExchange_refused ha hn h data, ?_⟩
    cases s.sec.keyValid
    · exact .inl rfl
    · exact .inr rfl
  case block =>
    have hblock := s.measurements_module port (i := i)
    simp only [List.mem_cons, List.not_mem_nil, or_false] at hi
    obtain rfl | rfl | rfl | rfl := hi
    · exact ⟨_, exec_getMeasurements_one ha hn hl (by decide) (hblock (by decide)) nonce, by simp⟩
    · exact ⟨_, exec_getMeasurements_one ha hn hl (by decide) (hblock (by decide)) nonce, by simp⟩
    · exact ⟨_, exec_getMeasurements_one ha hn hl (by decide) (hblock (by decide)) nonce, by simp⟩
    · exact ⟨_, exec_getMeasurements_one ha hn hl (by decide) (hblock (by decide)) nonce, by simp⟩

/-! ## Sessions and link keys (R356, R359) -/

section Sessions

variable {s : State} {port : Port} {id : Nat}

/-- Two changes of a port that give it the same value are one. -/
theorem State.modPort_congr {f g : PortSt → PortSt} (h : f (s.port port) = g (s.port port)) : s.modPort port f = s.modPort port g :=
  congrArg (fun x => { s with ports := s.ports.set port.val x port.isLt }) h

theorem State.modSpdm_congr {f g : Spdm → Spdm} (h : f (s.port port).spdm = g (s.port port).spdm) : s.modSpdm port f = s.modSpdm port g :=
  State.modPort_congr (congrArg (fun x => { s.port port with spdm := x }) h)

@[simp] theorem State.port_modSpdm (f : Spdm → Spdm) : (s.modSpdm port f).port port = { s.port port with spdm := f (s.port port).spdm } :=
  State.port_modPort ..

@[simp] theorem State.port_reply (r : SpdmReply) : (s.reply port r).port = s.port := rfl

/-- FINISH of the one session open (log 37). -/
theorem exec_finish_open (ha : s.answers port = true) (hn : (s.port port).spdm.negotiated = true)
    (hs : (s.port port).spdm.sessions = [{ id := id }]) (proof : List Byte) :
    exec (.finish port id proof) s = .next (if Config.finishOk id proof then
      (s.modSpdm port fun x => { x with sessions := [{ id := id, established := true }] }).reply port (.finishRsp id)
      else s.reply port .errorOther) := by
  refine congrArg Host.Outcome.next ((State.spdmReq_stands ha hn _).trans ?_)
  simp only [hs]
  cases Config.finishOk id proof with
  | false => simp
  | true =>
    refine (if_pos (by simp)).trans (congrArg (State.reply · port (.finishRsp id)) (State.modSpdm_congr ?_))
    simp [hs]

theorem exec_endSession (hin : ∀ body, s.inSession port id body = body) : exec (.endSession port id) s =
    .next ((s.modSpdm port fun x => { x with sessions := x.sessions.filter fun y => y.id ≠ id }).reply port (.endSessionAck id)) :=
  congrArg Host.Outcome.next (hin _)

/-- The link keys of a port with one of them set, and the link no longer Insecure (R359). -/
def Ide.withKey (x : Ide) (set dir : Fin 2) (key : List Byte) : Ide :=
  { keys := ((set.val, dir.val), key) :: eraseA x.keys (set.val, dir.val), insecure := false }

theorem Ide.withKey_key (x : Ide) (set dir : Fin 2) (key : List Byte) :
    lookupA (x.withKey set dir key).keys (set.val, dir.val) = some key := if_pos rfl

theorem Ide.withKey_other {k : Nat × Nat} (x : Ide) {set dir : Fin 2} (key : List Byte) (h : k ≠ (set.val, dir.val)) :
    lookupA (x.withKey set dir key).keys k = lookupA x.keys k := (if_neg h.symm).trans (lookupA_eraseA_other _ h)

theorem exec_ideKm (hin : ∀ body, s.inSession port id body = body) (set dir : Fin 2) (key : List Byte) :
    exec (.ideKm port id set dir key) s =
      .next ((s.modPort port fun x => { x with ide := x.ide.withKey set dir key }).reply port (.ideKmAck id)) :=
  congrArg Host.Outcome.next (hin _)

end Sessions

/-- Settles O18. -/
theorem spdmSessionRows : Obligations.SpdmSessionRows := by
  refine ⟨fun s port id proof ha hn hs => exec_finish_open ha hn hs proof, fun s port id ha hn he => ?within,
    fun s port id set dir key ha hn hopen c hc => ?refused⟩
  case within =>
    have hin := State.inSession_established ha hn he
    refine ⟨congrArg Host.Outcome.next (hin _), congrArg Host.Outcome.next (hin _), ⟨_, exec_endSession hin, rfl, ?_, fun x hx => ?_⟩,
      fun set dir key => ⟨_, exec_ideKm hin set dir key, ?_, ?_, ?_, fun k hk => ?_⟩⟩
    · exact congrArg (State.reply · port (.endSessionAck id)) (State.modSpdm_congr (by simp))
    · simp only [State.port_reply, State.port_modSpdm, List.mem_filter, decide_eq_true_eq] at hx
      exact hx.symm
    · exact congrArg (State.reply · port (.ideKmAck id)) (State.modPort_congr (by simp))
    · rw [State.port_reply, State.port_modPort]; rfl
    · rw [State.port_reply, State.port_modPort]; exact Ide.withKey_key ..
    · rw [State.port_reply, State.port_modPort]; exact Ide.withKey_other _ key hk
  case refused =>
    have hno := State.inSession_refused ha hn hopen
    simp only [List.mem_cons, List.not_mem_nil, or_false] at hc
    obtain rfl | rfl | rfl | rfl := hc
    · exact congrArg Host.Outcome.next (hno _)
    · exact congrArg Host.Outcome.next (hno _)
    · exact congrArg Host.Outcome.next (hno _)
    · exact congrArg Host.Outcome.next (hno _)

end Sys2Proof.Machine

namespace Sys2Proof.Machine

/-! ## A trip (R389, R390) -/

/-- What is neither a power row nor one of its parts is held to keep the power state, but for the repairs of the management tile (R340). -/
theorem Keeps.power_held {s t : State} (h : Keeps ⟨True, True, True⟩ s t) : t.power = { s.power with mgmtLost := t.power.mgmtLost } :=
  h.power trivial

theorem State.not_isOff {s : State} (hon : s.power.phase ≠ .off) : ¬ s.isOff = true := fun h => hon (eq_of_beq h)

/-- The firmware takes no measurements in a module that is OFF. -/
theorem State.on_of_measures {s : State} (h : s.measures = true) : s.power.phase ≠ .off := by
  intro hoff
  simp [State.measures, State.serving, hoff] at h

theorem exec_thermalSample_trips {s : State} {r : Thermal} (hon : s.power.phase ≠ .off) (hhot : 110 ≤ r.maxLogic ∨ 105 ≤ r.maxDram) :
    exec (.thermalSample r) s = .next s.trip :=
  congrArg Host.Outcome.next ((if_neg (State.not_isOff hon)).trans (if_pos hhot))

/-- A trip turns the module OFF and latches THERM_TRIP_N; LAST_OFF is written or not (R390, log 36). -/
theorem State.trip_off (s : State) : s.trip.power.phase = .off ∧ s.trip.pins.thermTripN = false ∧
    (s.trip.flash = { s.flash with lastOff := 5 } ∨ s.trip.flash = s.flash) := by
  have hflash : s.trip.flash = { s.flash with lastOff := if s.draw.1 % 2 = 0 then 5 else s.flash.lastOff } := rfl
  refine ⟨rfl, rfl, ?_⟩
  rw [hflash]
  split
  · exact .inl rfl
  · exact .inr rfl

/-- PWR_EN accepted low releases THERM_TRIP_N, whether or not the module was OFF (R390). -/
theorem exec_pwrEnFall_releases {s : State} (h : s.pins.pwrEn = true) : ∃ t, exec .pwrEnFall s = .next t ∧ t.pins.thermTripN = true :=
  ⟨_, congrArg Host.Outcome.next (if_pos h), rfl⟩

/-- PWR_EN accepted high leaves THERM_TRIP_N as it is (R390). -/
theorem exec_pwrEnRise_thermTripN (s : State) (a b c : BitVec 4) :
    ∃ t, exec (.pwrEnRise a b c) s = .next t ∧ t.pins.thermTripN = s.pins.thermTripN := by
  by_cases h : s.power.phase = .off ∧ s.pins.pwrEn = false
  · obtain ⟨hoff, hlow⟩ := h
    refine ⟨_, exec_pwrEnRise hoff hlow a b c, ?_⟩
    rw [State.drawNonce_eq]
    rfl
  · have hx : exec (.pwrEnRise a b c) s = .next s :=
      congrArg Host.Outcome.next (if_neg fun h' => h ⟨eq_of_beq h'.1, h'.2⟩)
    exact ⟨_, hx, rfl⟩

/-! ## The shares (R387, R389) -/

/-- A state after a sample of the power drawn, before the limit's event is told (R387). -/
def State.powerSampled (s : State) (w c v : Nat) : State :=
  s.modPower fun x => { x with
    watts := sat16 w, current := sat16 c, volts := sat16 v, energyMj := x.energyMj + w
    limitShare := stepShare x.limitShare (decide (s.limitWatts < w)) (decide (w * 100 < s.limitWatts * 95))
    limitedMs := if stepShare x.limitShare (decide (s.limitWatts < w)) (decide (w * 100 < s.limitWatts * 95)) < 16 then satAdd x.limitedMs 1
      else x.limitedMs
    limitFullMs := if stepShare x.limitShare (decide (s.limitWatts < w)) (decide (w * 100 < s.limitWatts * 95)) < 16 then 0
      else x.limitFullMs + 1 }

theorem exec_powerLimitTick {s : State} (hm : s.measures = true) (w c v : Nat) :
    ∃ t, exec (.powerLimitTick w c v) s = .next t ∧ t.power = (s.powerSampled w c v).power := by
  refine ⟨_, congrArg Host.Outcome.next (if_pos hm), ?_⟩
  dsimp only
  split
  · exact (State.toOwner_tells (.refl _) _ _).power
  · rfl

theorem State.alertHeat_power (s : State) : s.alertHeat.power = s.power := by
  unfold State.alertHeat State.assertAlert
  split <;> rfl

theorem State.releaseAlert_power (s : State) : s.releaseAlert.power = s.power := by rw [State.releaseAlert_eq]

/-- The coolant's part of a sample changes the readings of the coolant alone (R389). -/
theorem State.coolant_power (s : State) (r : Thermal) : (s.coolant r).power = { s.power with
    inlet := sat8 r.inlet, outlet := sat8 r.outlet, flow := sat16 r.flow, coolMs := coolTimes s.power.coolMs r
    coolWarn := decide (coolCause (coolTimes s.power.coolMs r) ≠ 0) } := by
  unfold State.coolant
  dsimp only
  split
  · exact (State.alertHeat_power _).trans (State.toOwner_tells (.refl _) _ _).power
  · rfl

/-- The power state after a sample of the temperatures that trips nothing, but for the coolant's part (R389). -/
def Power.heated (x : Power) (r : Thermal) (share : Nat) : Power :=
  { x with
    maxLogic := sat8 r.maxLogic, maxDram := sat8 r.maxDram, thermalShare := share
    throttledMs := if share < 16 then satAdd x.throttledMs 1 else x.throttledMs
    thermFullMs := if share < 16 then 0 else x.thermFullMs + 1 }

theorem exec_thermalSample_cool {s : State} {r : Thermal} (hm : s.measures = true) (hl : r.maxLogic < 110) (hd : r.maxDram < 105) :
    ∃ t u : State, exec (.thermalSample r) s = .next t ∧ t.power = (u.coolant r).power ∧
      u.power = s.power.heated r (stepShare s.power.thermalShare
        (decide (s.throttlePoint ≤ r.maxLogic) || decide (95 ≤ r.maxDram))
        (decide (r.maxLogic + 3 ≤ s.throttlePoint) && decide (r.maxDram + 3 ≤ 95))) := by
  have htrip : ¬(110 ≤ r.maxLogic ∨ 105 ≤ r.maxDram) := by omega
  refine ⟨_, _, congrArg Host.Outcome.next ((if_neg (State.not_isOff (State.on_of_measures hm))).trans ((if_neg htrip).trans (if_pos hm))),
    State.releaseAlert_power _, ?_⟩
  split
  · exact (State.alertHeat_power _).trans (State.toAll_tells (.refl _) _).power
  · rfl

/-- A share's move, as its two conditions say it. -/
theorem stepShare_eq (n : Nat) (p q : Prop) [Decidable p] [Decidable q] :
    stepShare n (decide p) (decide q) = if p then max 1 (n - 1) else if q then min 16 (n + 1) else n := by
  simp [stepShare]

/-- The share in force is the least of the shares that count (R387). -/
theorem State.duty_least (s : State) : s.duty ≤ s.power.limitShare ∧ s.duty ≤ s.power.thermalShare ∧
    (s.power.phase = .brake → s.duty ≤ s.power.brakeShare) ∧
    (s.duty = s.power.limitShare ∨ s.duty = s.power.thermalShare ∨ s.duty = (if s.power.phase = .brake then s.power.brakeShare else 16)) := by
  unfold State.duty
  generalize hb : (if s.power.phase = .brake then s.power.brakeShare else 16) = b
  have hbrake : s.power.phase = .brake → b = s.power.brakeShare := fun h => by rw [← hb, if_pos h]
  refine ⟨by omega, by omega, fun h => ?_, by omega⟩
  have := hbrake h
  omega

/-- Settles O10: a trip, a share's move, and the least of the shares. -/
theorem sharesFallAndHeatTrips : Obligations.SharesFallAndHeatTrips := by
  refine ⟨⟨fun s r hon hhot => ⟨_, exec_thermalSample_trips hon hhot, s.trip_off⟩, fun s h => exec_pwrEnFall_releases h,
      exec_pwrEnRise_thermTripN⟩, fun s w c v hm => ?limit, fun s r hm hl hd => ?heat, State.duty_least⟩
  case limit =>
    obtain ⟨t, hx, ht⟩ := exec_powerLimitTick hm w c v
    rw [← stepShare_eq]
    refine ⟨t, hx, ?_⟩
    rw [ht]
    exact ⟨rfl, rfl, rfl, rfl, rfl, rfl, rfl, rfl⟩
  case heat =>
    obtain ⟨t, u, hx, ht, hu⟩ := exec_thermalSample_cool hm hl hd
    rw [← stepShare_eq, Bool.decide_or, Bool.decide_and]
    refine ⟨t, hx, ?_⟩
    rw [ht, State.coolant_power, hu]
    exact ⟨rfl, rfl, rfl, rfl, rfl, rfl, rfl⟩

/-! ## The module reset (R386) -/

/-- The module as a module reset leaves it, before ALERT_N is looked at (R386). -/
def State.resetModule (s : State) : State :=
  { s.blank with
    uptime := s.uptime
    pins := { s.pins with
      resetN := false, pwrGood := false, changed := false, alertStuck := s.pins.alertStuck && !s.power.mgmtLost }
    power := { s.blank.power with phase := .reset }
    ring := s.ring.keepCounters (s.pins.straps.getLsbD 3)
    sec := { s.blank.sec with scanLatch := s.sec.scanLatch } }

theorem exec_modResetAssert {s : State} (hon : s.power.phase ≠ .off) (hhigh : s.pins.resetN = true) :
    exec .modResetAssert s = .next s.resetModule.releaseAlert := by
  have hlive : ¬(s.isOff = true ∨ s.pins.resetN = false) := by
    rw [hhigh]
    exact fun h => h.elim (State.not_isOff hon) nofun
  exact congrArg Host.Outcome.next (if_neg hlive)

/-- ALERT_N is all of the pins that its release moves. -/
theorem State.releaseAlert_pins (s : State) : s.releaseAlert.pins = { s.pins with alertN := s.releaseAlert.pins.alertN } := by
  rw [State.releaseAlert]
  split <;> rfl

/-- No partition and no link is left of a blank module (R385, R386). -/
theorem State.blank_empty (s : State) : (∀ p, s.blank.part p = {}) ∧ ∀ i, (s.blank.port i).linkUp = false := by
  refine ⟨fun p => Vector.getElem_replicate p.isLt, fun i => ?_⟩
  have hport : s.blank.port i = { perst := (s.port i).perst } := Vector.getElem_map _ i.isLt
  rw [hport]

theorem exec_modResetDeassert {s : State} (hp : s.power.phase = .reset) (hlow : s.pins.resetN = false) :
    exec .modResetDeassert s = .next
      ({ s.modPins fun x => { x with resetN := true } with ringTime := 0 }.modPower fun x => { x with phase := .boot }).drawNonce :=
  congrArg Host.Outcome.next (if_pos ⟨hp, hlow⟩)

/-- Settles O11: a reset is `State.resetModule`, and its end the boot once more. -/
theorem moduleResetKeepsAndRestarts : Obligations.ModuleResetKeepsAndRestarts := by
  refine ⟨fun s hon hhigh => ⟨_, exec_modResetAssert hon hhigh, ?_⟩, fun s hp hlow => ⟨_, exec_modResetDeassert hp hlow, ?_⟩⟩
  · obtain ⟨hparts, hports⟩ := s.blank_empty
    rw [State.releaseAlert_pins, State.releaseAlert_eq]
    refine ⟨rfl, rfl, rfl, rfl, rfl, rfl, rfl, rfl, rfl, rfl, rfl, rfl, rfl, rfl, fun p => ?_, hports⟩
    have hp : s.resetModule.part p = {} := hparts p
    exact ⟨congrArg Partition.st hp, congrArg Partition.reqs hp⟩
  · rw [State.drawNonce_eq]
    exact ⟨rfl, rfl, rfl, rfl, rfl⟩

end Sys2Proof.Machine

namespace Sys2Proof.Machine

/-! ## The rails raised (R43, R351, R383) -/

/-- The module with its rails up: memories empty, the factory image loaded, the ash log replayed, dies that training failed retired. -/
def State.railsUp (s : State) (trainFailed : List DieId) : State :=
  trainFailed.foldl (fun s (d : DieId) => s.retireDie d.site d.die.val 2)
    ({ s with sheet := [], poisoned := [], peat := [], peatPoisoned := [], ashList := [], peatRetired := false } : State).loadFactory.replay.wiresTrained

/-- Raising the rails is no part of the power state. -/
theorem State.railsUp_keeps (s : State) (trainFailed : List DieId) : Keeps ⟨True, True, True⟩ s (s.railsUp trainFailed) := by
  have hempty : Keeps ⟨True, True, True⟩ s
      { s with sheet := [], poisoned := [], peat := [], peatPoisoned := [], ashList := [], peatRetired := false } :=
    (((Keeps.refl _ s).updSheet [] fun _ => rfl).updPeat [] fun _ => rfl).upd ..
  exact Keeps.foldl _ _ (fun _ _ k => State.retireDie_keeps k _ _ _ _)
    (State.wiresTrained_keeps (State.replay_keeps (State.loadFactory_keeps hempty)))

/-- Power-up goes on: in initialisation, with no hold cause; the management tile and the cause of the last power-off stand (R382, R383). -/
theorem State.raiseRails_power (s : State) (trainFailed : List DieId) : (s.raiseRails trainFailed).power.phase = .init ∧
    (s.raiseRails trainFailed).power.holdCause = 0 ∧ (s.raiseRails trainFailed).power.mgmt = s.power.mgmt ∧
    (s.raiseRails trainFailed).power.lastOff = s.power.lastOff := by
  let u := (s.modPower fun x => { x with phase := .init, holdCause := 0, postDone := false, peatDone := false }).railsUp trainFailed
  have hu : (s.raiseRails trainFailed).power = { u.power with postDone := !u.pinsCfg.post } := rfl
  rw [hu, (State.railsUp_keeps _ trainFailed).power_held]
  exact ⟨rfl, rfl, rfl, rfl⟩

/-! ## The boot checks (R21, R354, R361, R382) -/

section

variable {s : State} {passed : BitVec 4} {env : BootEnv}

/-- The first corner that passed, in rising order (R21). -/
theorem firstCorner_eq {m : Port} (hm : passed.getLsbD m.val = true) (hlow : ∀ i : Port, i < m → passed.getLsbD i.val = false) :
    firstCorner passed = some m := by
  have hsplit : ∀ m : Port, ([0, 1, 2, 3] : List Port) = [0, 1, 2, 3].take m.val ++ m :: [0, 1, 2, 3].drop (m.val + 1) ∧
      ∀ i ∈ ([0, 1, 2, 3] : List Port).take m.val, i < m := by decide
  obtain ⟨hlist, hbelow⟩ := hsplit m
  exact List.find?_eq_some_iff_append.2 ⟨hm, _, _, hlist, fun i hi => by rw [hlow i (hbelow i hi)]; rfl⟩

/-- The management tile and the slot that runs, as the boot checks choose them (R21, R361, R366). -/
def State.booted (s : State) (m : Port) (slot fallback : Bool) : State :=
  (s.modSec fun x => { x with
    keyValid := !x.scanLatch, runningB := slot, bootFallback := fallback
    runningHdr := (s.flash.fwSlot slot).take 512 }).modPower fun x => { x with mgmt := some m, lastOff := s.flash.lastOff }

/-- A module held in STANDBY (R382). -/
def State.heldBack (s : State) (cause : Nat) : State :=
  (s.modPower fun x => { x with phase := .standby, holdCause := cause, stood := true }).dropLinks

/-- The end of the boot checks where a corner passed and a slot verified (R382). -/
theorem exec_bootSelfCheckDone {m : Port} {slot fallback : Bool} (hp : s.power.phase = .boot) (hm : firstCorner passed = some m)
    (hslot : s.flash.bootSlot (s.pins.straps.getLsbD 2) = some (slot, fallback)) : exec (.bootSelfCheckDone passed env) s = .next
      (if holdCauseOf env = 0 then (s.booted m slot fallback).raiseRails env.trainFailed
        else (s.booted m slot fallback).heldBack (holdCauseOf env)) := by
  refine congrArg Host.Outcome.next ((if_neg (not_not_intro hp)).trans ?_)
  rw [hm]
  dsimp only
  rw [hslot]
  rfl

/-- Nothing boots without a corner that passed or a slot that verified (R21, R361). -/
theorem exec_bootSelfCheckDone_dies (hp : s.power.phase = .boot)
    (h : passed = 0 ∨ s.flash.bootSlot (s.pins.straps.getLsbD 2) = none) :
    exec (.bootSelfCheckDone passed env) s = .next s.dieAtBoot := by
  refine congrArg Host.Outcome.next ((if_neg (not_not_intro hp)).trans ?_)
  obtain rfl | hslot := h
  · rfl
  · cases firstCorner passed with
    | none => rfl
    | some m => dsimp only; rw [hslot]

/-- Dropping the links touches the ports alone (R380, R381). -/
theorem State.dropLinks_eq (s : State) : s.dropLinks = { s with ports := s.dropLinks.ports } := by
  have hsame := State.foldl_unchanged (fun v : State => { v with ports := s.dropLinks.ports })
    (fun (u : State) (p : Port) =>
      if u.power.mgmt = some p then u else u.modPort p fun x => { x with linkUp := false, held := [], spdm := {}, ide := {} })
    (fun u p => by split <;> rfl) [0, 1, 2, 3] s
  exact hsame

theorem exec_standbyCheckTick (hp : s.power.phase = .standby) (hh : s.power.holdCause ≠ 0) : exec (.standbyCheckTick env) s = .next
    (if holdCauseOf env = 0 then s.raiseRails env.trainFailed else s.modPower fun x => { x with holdCause := holdCauseOf env }) :=
  congrArg Host.Outcome.next (if_pos ⟨hp, hh⟩)

theorem exec_pwrCtrlOn {port : Port} (hp : s.power.phase = .standby) (hr : s.reaches port = true) :
    exec (.pwrCtrlOn port) s = .next (s.raiseRails []) := congrArg Host.Outcome.next (if_pos ⟨hp, hr⟩)

end

/-- Settles O12: the checks choose a tile and a slot, and power-up goes on with `State.raiseRails` or is held back. -/
theorem bootEndsOrHolds : Obligations.BootEndsOrHolds := by
  refine ⟨fun s passed env hp => ?boot, fun s env hp hh => ?tick, fun s port hp hr => ?on⟩
  case boot =>
    obtain ⟨t, ht⟩ := exec_answers (.bootSelfCheckDone passed env) s
    refine ⟨t, ht, fun hdies => ?_, fun slot fallback m hm hlow hslot => ?_⟩
    · rw [exec_bootSelfCheckDone_dies hp hdies] at ht
      cases ht
      exact ⟨rfl, rfl⟩
    · rw [exec_bootSelfCheckDone hp (firstCorner_eq hm hlow) hslot] at ht
      cases ht
      by_cases hpass : holdCauseOf env = 0
      · obtain ⟨hphase, -, hmgmt, hlast⟩ := (s.booted m slot fallback).raiseRails_power env.trainFailed
        rw [if_pos hpass]
        exact ⟨hmgmt, hlast, fun _ => hphase, fun h => absurd hpass h⟩
      · rw [if_neg hpass, State.heldBack, State.dropLinks_eq]
        exact ⟨rfl, rfl, fun h => absurd h hpass, fun _ => ⟨rfl, rfl, rfl, rfl, rfl, rfl⟩⟩
  case tick =>
    refine ⟨_, exec_standbyCheckTick hp hh, fun hpass => ?_, fun hfail => if_neg hfail⟩
    obtain ⟨hphase, hcause, -⟩ := s.raiseRails_power env.trainFailed
    rw [if_pos hpass]
    exact ⟨hphase, hcause⟩
  case on =>
    obtain ⟨hphase, hcause, -⟩ := s.raiseRails_power []
    exact ⟨_, exec_pwrCtrlOn hp hr, hphase, hcause⟩

/-! ## STANDBY (R381) -/

section

variable {s t : State}

/-- A partition without a FENCE, that is gone. -/
def Partition.Absent (q : Partition) : Prop := q.Gone ∧ q.fence = none

theorem State.wipePart_absent (s : State) (p : Part) : ((s.wipePart p).part p).Absent := by
  refine ⟨s.wipePart_gone p, ?_⟩
  rw [State.wipePart, State.part, State.dropReads_parts]
  show (State.part _ p).fence = none
  rw [State.part_modRepairs, State.part_modPart]
  rfl

theorem State.wipeAll_absent (s : State) (p : Part) : ((allParts.foldl State.wipePart s).part p).Absent := by
  refine foldl_of_mem (P := fun u : State => (u.part p).Absent) (fun u q h => ?_) (mem_allParts p) (fun u => u.wipePart_absent p) s
  by_cases hq : p = q
  · rw [hq]; exact u.wipePart_absent q
  · rw [State.wipePart_part_other hq]; exact h

/-- The module on its way to STANDBY, told: BRAKE is left first (R380, R381). -/
def State.standingDown (s : State) : State := (if s.power.phase = .brake then s.leaveBrake else s).tellPower s.powerState 1

/-- The module in STANDBY (R381). -/
def State.stoodDown (s : State) : State :=
  (((allParts.foldl State.wipePart s).modPins fun x => { x with pwrGood := false }).modPower fun x =>
    { x with phase := .standby, stood := true, brakeTold := true, brakeShare := 16 }).unpowered.dropLinks

theorem exec_pwrCtrlStandby {port : Port} (ho : s.owns port = true) (hq : ∀ p, (s.part p).st = .stopped ∨ (s.part p).st = .absent) :
    exec (.pwrCtrlStandby port) s = .next s.standingDown.stoodDown := by
  have hall : (allParts.all fun p => (s.part p).st == .stopped || (s.part p).st == .absent) = true :=
    List.all_eq_true.2 fun p _ => by simpa using hq p
  exact congrArg Host.Outcome.next (if_pos (by rw [ho, hall]; rfl))

theorem State.wipeAll_flash (s : State) : (allParts.foldl State.wipePart s).flash = s.flash :=
  (State.of_secrets (State.foldl_unchanged State.secrets State.wipePart State.wipePart_secrets allParts s)).2.1

/-- What is left of a module in STANDBY (R381). -/
theorem State.stoodDown_left (s : State) : s.stoodDown.power.phase = .standby ∧ s.stoodDown.pins.pwrGood = false ∧
    (∀ p, (s.stoodDown.part p).Absent) ∧ s.stoodDown.sheet = [] ∧ s.stoodDown.peat = [] ∧ s.stoodDown.flash = s.flash := by
  have habsent := s.wipeAll_absent
  have hflash := s.wipeAll_flash
  rw [State.stoodDown]
  generalize allParts.foldl State.wipePart s = w at habsent hflash ⊢
  rw [State.dropLinks_eq]
  exact ⟨rfl, rfl, habsent, rfl, rfl, hflash⟩

theorem State.tellPower_tells (s : State) (old new : Nat) : State.Tells s (s.tellPower old new) := State.toOwner_tells (.refl s) none _

/-- Leaving BRAKE writes nothing to flash. -/
theorem State.leaveBrake_flash (s : State) : s.leaveBrake.flash = s.flash := by
  have htold : State.Tells (s.tellBrake.modPower fun x => { x with phase := .on, brakeShare := 16 }) s.leaveBrake :=
    State.toAll_tells (.refl _) _
  refine (State.of_secrets htold.secrets).2.1.trans ?_
  show s.tellBrake.flash = s.flash
  unfold State.tellBrake
  split
  · rfl
  · exact (State.of_secrets (State.toAll_tells (.refl _) _).secrets).2.1

theorem State.standingDown_flash (s : State) : s.standingDown.flash = s.flash := by
  have htold : State.Tells (if s.power.phase = .brake then s.leaveBrake else s) s.standingDown := by
    unfold State.standingDown
    exact State.tellPower_tells _ _ _
  refine (State.of_secrets htold.secrets).2.1.trans ?_
  split
  · exact s.leaveBrake_flash
  · rfl

/-! ## The end of power-up (R43, R383, R384) -/

/-- The module ON, or in BRAKE where the brake is on (R384, R387). -/
def State.turnedOn (s : State) : State :=
  let s := s.modPower fun x => { x with phase := .on, stood := false }
  if s.pins.braking then s.enterBrake else s

/-- The partitions that have a FENCE start, but where their port's PERST# is asserted (R43). -/
def State.startAll (s : State) : State :=
  allParts.foldl (fun s p =>
    match (s.part p).port with
    | some q => if (s.port q).perst then s.modPart p fun x => { x with stopCause := 1 } else s.start p
    | none => s) s

theorem State.startAll_keeps (s : State) : Keeps ⟨True, True, True⟩ s s.startAll := by
  refine Keeps.foldl _ _ (fun u p k => ?_) (.refl _ s)
  split
  · split
    · exact State.modPart_keeps k _ _
    · exact State.start_keeps k _
  · exact k

/-- PWR_GOOD asserted, and the new state told where the module stood in STANDBY (R383, R398). -/
def State.announced (s : State) (stood : Bool) : State :=
  let s := s.modPins fun x => { x with pwrGood := true }
  if stood then s.tellPower 1 s.powerState else s

theorem State.finishInit_waits (h : s.power.postDone = false ∨ s.power.peatDone = false) : s.finishInit = s :=
  if_neg fun ⟨_, hpost, hpeat⟩ => by simp_all

theorem State.finishInit_ends (hp : s.power.phase = .init) (hpost : s.power.postDone = true) (hpeat : s.power.peatDone = true) :
    s.finishInit = s.turnedOn.startAll.announced s.power.stood := by
  exact if_pos ⟨hp, hpost, hpeat⟩

theorem State.announced_on (s : State) (stood : Bool) : (s.announced stood).power = s.power ∧ (s.announced stood).pins.pwrGood = true := by
  unfold State.announced
  cases stood with
  | false => exact ⟨rfl, rfl⟩
  | true =>
    have htells := (s.modPins fun x => { x with pwrGood := true }).tellPower_tells 1
      (s.modPins fun x => { x with pwrGood := true }).powerState
    exact ⟨htells.power, congrArg (·.pwrGood) htells.pins⟩

theorem State.turnedOn_power (s : State) : s.turnedOn.power.phase = (if s.pins.braking then .brake else .on) ∧
    s.turnedOn.power.postDone = s.power.postDone := by
  unfold State.turnedOn
  dsimp only
  rw [State.modPower_pins]
  cases s.pins.braking <;> exact ⟨rfl, rfl⟩

/-- The last of POST and peat initialisation to end brings the module ON, or into BRAKE (R383, R384). -/
theorem State.finishInit_on (hp : s.power.phase = .init) (hpost : s.power.postDone = true) (hpeat : s.power.peatDone = true) :
    s.finishInit.power.phase = (if s.pins.braking then .brake else .on) ∧ s.finishInit.pins.pwrGood = true := by
  obtain ⟨hpower, hgood⟩ := s.turnedOn.startAll.announced_on s.power.stood
  rw [State.finishInit_ends hp hpost hpeat, hpower, s.turnedOn.startAll_keeps.power_held]
  exact ⟨s.turnedOn_power.1, hgood⟩

theorem State.finishInit_postDone (s : State) : s.finishInit.power.postDone = s.power.postDone := by
  by_cases h : s.power.phase = .init ∧ s.power.postDone = true ∧ s.power.peatDone = true
  · obtain ⟨hp, hpost, hpeat⟩ := h
    rw [State.finishInit_ends hp hpost hpeat, (State.announced_on _ _).1, s.turnedOn.startAll_keeps.power_held]
    exact s.turnedOn_power.2
  · exact congrArg (·.power.postDone) (if_neg h : s.finishInit = s)

theorem exec_peatInitDone (hp : s.power.phase = .init) :
    exec .peatInitDone s = .next (s.modPower fun x => { x with peatDone := true }).finishInit := congrArg Host.Outcome.next (if_pos hp)

end

/-- The module after POST, before the end of power-up is looked at (R368). -/
def State.posted (s : State) (findings : List (Site × Finding)) (skipped : List Site) : State :=
  ((((findings.map (·.1)).eraseDups.filter fun x => !skipped.contains x).foldl
      (fun s x => s.postSite x ((findings.filter fun y => y.1 == x).map (·.2))) s).modBist fun b =>
    { b with postSkipped := skipped.eraseDups.length, postRan := true }).modPower fun x => { x with postDone := true }

theorem exec_postDone {s : State} (hp : s.power.phase = .init) (hn : s.power.postDone = false) (findings : List (Site × Finding))
    (skipped : List Site) : exec (.postDone findings skipped) s = .next (s.posted findings skipped).finishInit :=
  congrArg Host.Outcome.next (if_pos ⟨hp, hn⟩)

/-- Settles O13. -/
theorem standbyAndOn : Obligations.StandbyAndOn := by
  refine ⟨fun s port ho hq => ⟨_, exec_pwrCtrlStandby ho hq, ?standby⟩, fun s hp => ⟨_, exec_peatInitDone hp, fun hn => ?_, fun hd => ?_⟩,
    fun s skipped hp hn => ⟨_, exec_postDone hp hn [] skipped, ?_, fun hw => ?_, fun hd => ?_⟩,
    fun s findings skipped hp hn => ⟨_, exec_postDone hp hn findings skipped, State.finishInit_postDone _⟩⟩
  case standby =>
    obtain ⟨hphase, hgood, habsent, hsheet, hpeat, hflash⟩ := s.standingDown.stoodDown_left
    refine ⟨hphase, hgood, fun p => ?_, hsheet, hpeat, hflash.trans s.standingDown_flash⟩
    obtain ⟨⟨hst, hreqs, hmodels⟩, hfence⟩ := habsent p
    exact ⟨hst, hreqs, hmodels, hfence⟩
  · exact State.finishInit_waits (.inl hn)
  · exact State.finishInit_on hp hd rfl
  · exact State.finishInit_postDone _
  · rw [State.finishInit_waits (s := s.posted [] skipped) (.inr hw)]
    exact ⟨hp, rfl, rfl⟩
  · exact State.finishInit_on hp rfl hd

end Sys2Proof.Machine

namespace Sys2Proof.Machine

/-! ## One change made to every partition -/

/-- A change made to each partition in turn is made to each once, and to nothing else. -/
theorem State.modAll_part (s : State) (f : Partition → Partition) (p : Part) :
    (allParts.foldl (fun (s : State) p => s.modPart p f) s).part p = f (s.part p) := by
  revert p
  show ∀ p, ((((s.modPart 0 f).modPart 1 f).modPart 2 f).modPart 3 f).part p = f (s.part p)
  intro p
  have hsame (u : State) (i : Part) : (u.modPart i f).part p = if p = i then f (u.part p) else u.part p := by
    split
    · next h => rw [h, State.part_modPart]
    · next h => exact State.part_modPart_other _ _ _ _ h
  simp only [hsame]
  match p with
  | 0 => rfl
  | 1 => rfl
  | 2 => rfl
  | 3 => rfl

theorem State.modAll_eq (s : State) (f : Partition → Partition) :
    allParts.foldl (fun (s : State) p => s.modPart p f) s =
      { s with parts := (allParts.foldl (fun (s : State) p => s.modPart p f) s).parts } := rfl

/-! ## Fault entries (R340, R346) -/

section

variable {s : State}

/-- An entry stays in its FIFO after a sweep (R345). -/
def State.staysIn (s : State) (e : FaultEntry) : Bool := !e.handling || s.entryBusy e

/-- A sweep takes the entries whose work is done from every FIFO, and does nothing else. -/
theorem State.sweep_eq (s : State) :
    s.sweep = { s with parts := s.sweep.parts, sheetFifo := s.sheetFifo.filter s.staysIn } ∧
      (∀ p, s.sweep.part p = { s.part p with fifo := (s.part p).fifo.filter s.staysIn }) := by
  have hkeep : s.staysIn = fun e => !(e.handling && s.entryBusy e == false) := by
    funext e
    unfold State.staysIn
    cases e.handling <;> cases s.entryBusy e <;> rfl
  have hall := State.modAll_eq s fun q => { q with fifo := q.fifo.filter s.staysIn }
  have hparts := State.modAll_part s fun q => { q with fifo := q.fifo.filter s.staysIn }
  have hsweep : s.sweep = { allParts.foldl (fun (s' : State) p => s'.modPart p fun q => { q with fifo := q.fifo.filter s.staysIn }) s with
      sheetFifo := (allParts.foldl (fun (s' : State) p => s'.modPart p fun q =>
        { q with fifo := q.fifo.filter s.staysIn }) s).sheetFifo.filter s.staysIn } := by
    rw [hkeep]
    rfl
  rw [hsweep]
  generalize allParts.foldl _ s = u at hall hparts
  have hsheet : u.sheetFifo = s.sheetFifo := by rw [hall]
  rw [hsheet]
  exact ⟨congrArg (fun v : State => { v with sheetFifo := s.sheetFifo.filter s.staysIn }) hall, hparts⟩

theorem State.sweep_fifo (s : State) (o : Option Part) : s.sweep.fifo o = (s.fifo o).filter s.staysIn := by
  obtain ⟨hrest, hparts⟩ := s.sweep_eq
  cases o with
  | none => exact congrArg State.sheetFifo hrest
  | some p => exact congrArg Partition.fifo (hparts p)

/-- A change of a FIFO leaves everything but the FIFOs alone. -/
theorem State.modFifo_eq (s : State) (o : Option Part) (f : List FaultEntry → List FaultEntry) :
    s.modFifo o f = { s with parts := (s.modFifo o f).parts, sheetFifo := (s.modFifo o f).sheetFifo } ∧
      ∀ p, (s.modFifo o f).part p = { s.part p with fifo := ((s.modFifo o f).part p).fifo } := by
  cases o with
  | none => exact ⟨rfl, fun _ => rfl⟩
  | some q =>
    refine ⟨rfl, fun p => ?_⟩
    by_cases h : p = q
    · subst h
      simp only [State.modFifo, State.part_modPart]
    · simp only [State.modFifo, State.part_modPart_other _ _ _ _ h]

theorem exec_faultEntryHandle {o : Option Part} {i : Nat} (hl : s.power.mgmtLost = false)
    (hi : nextEntry (s.busyHandlers o) [] (s.fifo o) = some i) : exec (.faultEntryHandle o) s =
      .next (s.modFifo o fun l => l.modify i fun e => { e with handling := true }).sweep := by
  refine congrArg Host.Outcome.next ((if_neg (by simp [hl])).trans ?_)
  rw [hi]

/-! ## The ash log (R340, R350) -/

/-- With room in the current copy the oldest record that waits is appended (R350). -/
theorem exec_ashLogAppend {r : AshRec} {rest : List AshRec} (hl : s.power.mgmtLost = false) (hp : s.ashPending = r :: rest)
    (hroom : s.flash.ash.2.length < 7680) : exec .ashLogAppend s =
      .next { s with ashPending := rest, flash := s.flash.append r, ashLogFull := false, ashUnrecorded := 0 } := by
  refine congrArg Host.Outcome.next ((if_neg (by simp [hl])).trans ?_)
  unfold State.ashAppend
  rw [hp]
  dsimp only
  rw [if_neg (Nat.not_le.2 hroom), if_pos hroom]

theorem Flash.ash_setAsh (f : Flash) (c : Nat × List AshRec) : (f.setAsh c).ash = c := by
  unfold Flash.setAsh Flash.ash
  cases f.ashSecond <;> simp

theorem Flash.ashSeq_setAsh (f : Flash) (c : Nat × List AshRec) : (f.setAsh c).ashSeq = f.ashSeq := by
  unfold Flash.setAsh
  split <;> rfl

theorem Flash.ash_append (f : Flash) (r : AshRec) : (f.append r).ash =
    (f.ash.1, (f.ash.2.map fun x => if ashCovers r x then { x with superseded := true } else x) ++ [{ r with seq := f.ashSeq + 1 }]) :=
  Flash.ash_setAsh _ _

theorem Flash.ashSeq_append (f : Flash) (r : AshRec) : (f.append r).ashSeq = f.ashSeq + 1 := Flash.ashSeq_setAsh _ _

/-- With the management tile lost no record is appended and no entry begins (R340). -/
theorem exec_mgmtLost (hl : s.power.mgmtLost = true) (o : Option Part) :
    exec .ashLogAppend s = .next s ∧ exec (.faultEntryHandle o) s = .next s :=
  ⟨congrArg Host.Outcome.next (if_pos hl), congrArg Host.Outcome.next (if_pos hl)⟩

end

/-- Settles O42. -/
theorem ashLogAndEntries : Obligations.AshLogAndEntries := by
  refine ⟨fun s r rest hl hp hroom => ⟨_, exec_ashLogAppend hl hp hroom, rfl,
      (congrArg Prod.fst (s.flash.ash_append r) :), s.flash.ashSeq_append r, (congrArg Prod.snd (s.flash.ash_append r) :)⟩, fun s o i hl hi => ?entry,
    fun s o hl => exec_mgmtLost hl o⟩
  case entry =>
    intro u
    obtain ⟨hrest, hparts⟩ := s.modFifo_eq o fun l => l.modify i fun e => { e with handling := true }
    obtain ⟨hswept, hsweptParts⟩ := u.sweep_eq
    refine ⟨_, exec_faultEntryHandle hl hi, u.sweep_fifo o, fun p => ?_, ?_⟩
    · rw [hsweptParts p, show u.part p = _ from hparts p]
    · rw [hswept, show u = _ from hrest]

/-! ## Release from quarantine (R329) -/

section

variable {s : State} {port : Port} {p : Part}

/-- A release, before ALERT_N is looked at (R329). -/
def State.released (s : State) (p : Part) : State :=
  (s.modPart p fun q => { q with st := .stopped }).toBoth p { code := 0x3031, sev := 0, a := s.uptime - (s.part p).quarantinedAt }

theorem exec_fltPrtRelease (hs : s.sees port p = true) (hq : (s.part p).st = .quarantined) (hf : s.fatal = false)
    (he : ∀ e ∈ (s.part p).fifo, e.handling = false) : exec (.fltPrtRelease port p) s = .next (s.released p).releaseAlert := by
  have hnone : (s.part p).fifo.any (·.handling) = false := List.any_eq_false.2 fun e h => by rw [he e h]; exact Bool.false_ne_true
  exact congrArg Host.Outcome.next (if_pos (by rw [hs, hq, hf, hnone]; rfl))

theorem exec_fltFatalClear (hr : s.reaches port = true) (he : ∀ e ∈ s.sheetFifo, e.handling = false) :
    exec (.fltFatalClear port) s = .next { s with fatal := false } := by
  have hnone : s.sheetFifo.any (·.handling) = false := List.any_eq_false.2 fun e h => by rw [he e h]; exact Bool.false_ne_true
  exact congrArg Host.Outcome.next (if_pos ⟨hr, hnone⟩)

/-- Event records told, and the pins changed besides. -/
theorem State.Tells.withPins {s t : State} (h : State.Tells s t) (x : PinSt) : State.Tells { s with pins := x } { t with pins := x } where
  rest := congrArg (fun u : State => { u with pins := x }) h.rest
  parts := h.parts
  owner := h.owner
  ports := h.ports
  out := h.out

theorem State.Tells.st {s t : State} (h : State.Tells s t) (p : Part) : (t.part p).st = (s.part p).st := by rw [h.parts p]

/-! ## The cache format (R217) -/

/-- APPLY, before the format is looked at: the register takes the code. -/
def State.fmtWritten (s : State) (p : Part) (f : Byte) : State := s.modPart p fun q => { q with kv := { q.kv with fmt := f.setWidth 32 } }

theorem exec_kvFmtApply (hs : s.sees port p = true) (f : Byte) :
    exec (.kvFmtApply port p f) s = .next ((s.fmtWritten p f).applyFormat p) := by
  have hword : BitVec.ofNat 32 f.toNat = f.setWidth 32 := by simp
  refine congrArg Host.Outcome.next ((if_pos hs).trans ?_)
  rw [hword]
  rfl

/-- The code as the register gives it back. -/
theorem bitsOf_setWidth (f : Byte) : bitsOf (f.setWidth 32) 7 0 = f.toNat := by
  have := f.isLt
  simp only [bitsOf, BitVec.toNat_setWidth]
  omega

/-- What a format code makes of a READY model (R217). -/
def Model.formatted (m : Model) (f : Byte) : Model :=
  if f ∈ [0, 8, 9, 10] then { m with narrowNext := some f.toNat } else if f = 255 then { m with narrowNext := none } else m

theorem Model.formatted_handle (f : Byte) (m : Model) : (m.formatted f).handle = m.handle := by
  unfold Model.formatted
  split
  · rfl
  · split <;> rfl

theorem State.fmtWritten_part (s : State) (p : Part) (f : Byte) :
    (s.fmtWritten p f).part p = { s.part p with kv := { (s.part p).kv with fmt := f.setWidth 32 } } := State.part_modPart ..

/-- A code that R217 names changes the model's next format, and another changes nothing. -/
theorem State.applyFormat_ready {f : Byte} {m : Model} {handle : Nat} (hh : (s.part p).kv.fmtModel.toNat = handle)
    (hm : (s.part p).model handle = some m) (hr : m.state = .ready) (hf : bitsOf (s.part p).kv.fmt 7 0 = f.toNat) :
    (s.applyFormat p = s.modPart p fun q => q.modModel handle fun m => m.formatted f) ∨ (s.applyFormat p = s ∧ m.formatted f = m) := by
  unfold State.applyFormat
  dsimp only
  rw [hh, hm, hf]
  dsimp only
  have hcodes : (f.toNat = 0 ∨ f.toNat = 8 ∨ f.toNat = 9 ∨ f.toNat = 10 ∨ f.toNat = 255) ↔ f ∈ ([0, 8, 9, 10] : List Byte) ∨ f = 255 := by
    simp only [List.mem_cons, List.not_mem_nil, or_false, ← BitVec.toNat_inj, or_assoc]
    exact Iff.rfl
  by_cases h255 : f = 255
  · refine .inl ((if_pos ⟨hr, hcodes.2 (.inr h255)⟩).trans ?_)
    subst h255
    rfl
  · have hnot : f.toNat ≠ 255 := fun h => h255 (BitVec.eq_of_toNat_eq h)
    by_cases hin : f ∈ ([0, 8, 9, 10] : List Byte)
    · refine .inl ((if_pos ⟨hr, hcodes.2 (.inl hin)⟩).trans ?_)
      simp only [Model.formatted, if_neg hnot, if_pos hin]
    · refine .inr ⟨if_neg fun h => (hcodes.1 h.2).elim hin h255, ?_⟩
      rw [Model.formatted, if_neg hin, if_neg h255]

end

/-- Settles O27: a release tells its event and looks at ALERT_N, and APPLY changes the register and the one model. -/
theorem quarantineAndCacheFormat : Obligations.QuarantineAndCacheFormat := by
  refine ⟨⟨fun s port p hs hq hf he => ⟨_, exec_fltPrtRelease hs hq hf he, ?release⟩, fun s port hr he => exec_fltFatalClear hr he⟩,
    fun s port p f m hs hm hr => ⟨_, exec_kvFmtApply hs f, ?format⟩⟩
  case release =>
    have htells : State.Tells (s.modPart p fun q => { q with st := .stopped }) (s.released p) := State.toBoth_tells (.refl _) _ _
    have hpins : (s.released p).pins = s.pins := htells.pins
    refine ⟨?_, ?_, ?_⟩
    · rw [State.releaseAlert_eq]
      refine (htells.st p).trans ?_
      rw [State.part_modPart]
    · generalize hx : (s.released p).releaseAlert.pins = x
      rw [State.releaseAlert_eq, hx]
      exact htells.withPins x
    · rw [State.releaseAlert_pins, hpins]
  case format =>
    have hpart := s.fmtWritten_part p f
    have hmodel : ((s.fmtWritten p f).part p).model (s.part p).kv.fmtModel.toNat = some m := by rw [hpart]; exact hm
    have hcode : bitsOf ((s.fmtWritten p f).part p).kv.fmt 7 0 = f.toNat := by rw [hpart]; exact bitsOf_setWidth f
    have hhandle : ((s.fmtWritten p f).part p).kv.fmtModel.toNat = (s.part p).kv.fmtModel.toNat := by rw [hpart]
    have hother : ∀ i, i ≠ p → (s.fmtWritten p f).part i = s.part i := fun i hi => State.part_modPart_other _ _ _ _ hi
    have hkv : ((s.fmtWritten p f).part p).kv = { (s.part p).kv with fmt := f.setWidth 32 } := (congrArg Partition.kv hpart :)
    have hreqs : ((s.fmtWritten p f).part p).reqs = (s.part p).reqs := (congrArg Partition.reqs hpart :)
    obtain happly | ⟨happly, hsame⟩ := State.applyFormat_ready hhandle hmodel hr hcode <;> rw [happly]
    · refine ⟨?_, ?_, fun i hi => ?_, ?_, rfl⟩
      · rw [State.part_modPart]; exact hkv
      · rw [State.part_modPart, Partition.model_modModel_same _ _ (Model.formatted_handle f), hmodel]; rfl
      · rw [State.part_modPart_other _ _ _ _ hi]; exact hother i hi
      · rw [State.part_modPart]; exact hreqs
    · exact ⟨hkv, hmodel.trans (congrArg some hsame.symm), hother, hreqs, rfl⟩

end Sys2Proof.Machine

namespace Sys2Proof.Machine

/-! ## A row remapped (R331, R332) -/

section

variable {s : State}

/-- A row switched to its spare, the remap recorded for the ash log (R331, R350). -/
def State.remapped (s : State) (key bank row spare loc : Nat) (second : Bool) : State :=
  ((s.modDie key fun d => { d with usedSpares := (bank, spare) :: d.usedSpares }).modDie key fun d => { d with
    failing := d.failing.filter fun x => x ≠ (bank, row)
    remaps := d.remaps ++ [(bank, row, spare, second)]
    corrections := d.corrections.filter fun x => !(x.1 == bank && x.2.1 == row) }).ashRecord 0x01 loc (spare + if second then 256 else 0)

@[simp] theorem State.die_ashRecord (s : State) (key type loc arg : Nat) : (s.ashRecord type loc arg).die key = s.die key := rfl

/-- The die of a remapped row. -/
theorem State.die_remapped (s : State) (key bank row spare loc : Nat) (second : Bool) :
    (s.remapped key bank row spare loc second).die key = { s.die key with
      usedSpares := (bank, spare) :: (s.die key).usedSpares
      failing := (s.die key).failing.filter fun x => x ≠ (bank, row)
      remaps := (s.die key).remaps ++ [(bank, row, spare, second)]
      corrections := (s.die key).corrections.filter fun x => !(x.1 == bank && x.2.1 == row) } := by
  rw [State.remapped, State.die_ashRecord, State.die_modDie_same, State.die_modDie_same]

theorem State.startEntry_eq (s : State) (o : Option Part) (rung loc : Nat) : s.startEntry o rung loc =
    { s with parts := (s.startEntry o rung loc).parts, sheetFifo := (s.startEntry o rung loc).sheetFifo } := (s.modFifo_eq o _).1

@[simp] theorem State.die_startEntry (s : State) (o : Option Part) (rung loc key : Nat) : (s.startEntry o rung loc).die key = s.die key := by
  rw [State.startEntry_eq]
  rfl

/-- A row is remapped for the second time (R332). -/
def DieSt.remappedBefore (d : DieSt) (bank row : Nat) : Bool := d.remaps.any fun x => x.1 == bank && x.2.1 == row

/-- A remap from the start of its entry to the sweep that ends it (R331, R345). -/
def State.rowRemapped (s : State) (k : BankId) (tile row spare : Nat) : State :=
  let loc := locBlock k.site.val k.die.val k.bank.val row 0
  let who := s.touches [addrOfRow tile k.die.val k.bank.val row / segBytes]
  let second := (s.die (dieKey k.site k.die.val)).remappedBefore k.bank.val row
  (((s.startEntry (fifoFor who) 2 loc).remapped (dieKey k.site k.die.val) k.bank.val row spare loc second).toLadder who
    { code := 0x3003, sev := 2, a := loc, b := spare + if second then 256 else 0 }).sweep

/-- The remap of a failing row whose read finds no error and whose verify passes. -/
theorem exec_rowRemap_verified {k : BankId} {row tile spare : Nat} (hp : s.poisoned = []) (ht : (s.sites.get k.site).tile = some tile)
    (hf : (s.die (dieKey k.site k.die.val)).failing.contains (k.bank.val, row) = true)
    (hs : (s.die (dieKey k.site k.die.val)).freeSpare k.bank.val row = some spare) :
    exec (.rowRemap k row [] true) s = .next (s.rowRemapped k tile row spare) := by
  have hx : exec (.rowRemap k row [] true) s = execRowRemap k row [] true s := by rfl
  rw [hx]
  unfold execRowRemap
  rw [ht]
  dsimp only
  rw [if_pos hf]
  unfold State.remapRow State.rowRemapped State.remapped DieSt.remappedBefore
  dsimp only
  rw [hs]
  dsimp only
  rw [State.readRange_clean (by rw [State.startEntry_eq]; exact hp), State.die_startEntry, if_pos rfl]

/-- What a remap leaves of memory, of the poison and of its die, and what it records (R331, R350). -/
theorem State.rowRemapped_left (s : State) (k : BankId) (tile row spare : Nat) :
    let d := s.die (dieKey k.site k.die.val)
    let t := s.rowRemapped k tile row spare
    (t.die (dieKey k.site k.die.val)).remaps = d.remaps ++ [(k.bank.val, row, spare, d.remappedBefore k.bank.val row)] ∧
      (t.die (dieKey k.site k.die.val)).usedSpares = (k.bank.val, spare) :: d.usedSpares ∧
      (t.die (dieKey k.site k.die.val)).failing = d.failing.filter (fun x => x ≠ (k.bank.val, row)) ∧
      t.sheet = s.sheet ∧ t.poisoned = s.poisoned ∧
      t.ashPending = s.ashPending ++ [{
        type := 1, time := s.now, loc := BitVec.ofNat 64 (locBlock k.site.val k.die.val k.bank.val row 0)
        arg := spare + if d.remappedBefore k.bank.val row then 256 else 0 }] := by
  intro d t
  obtain ⟨u, hu⟩ : ∃ u, u = s.startEntry (fifoFor (s.touches [addrOfRow tile k.die.val k.bank.val row / segBytes])) 2
      (locBlock k.site.val k.die.val k.bank.val row 0) := ⟨_, rfl⟩
  obtain ⟨v, hv, htells⟩ : ∃ v, t = v.sweep ∧ State.Tells (u.remapped (dieKey k.site k.die.val) k.bank.val row spare
      (locBlock k.site.val k.die.val k.bank.val row 0) (d.remappedBefore k.bank.val row)) v := by
    rw [hu]
    exact ⟨_, rfl, State.toLadder_tells (.refl _) _ _⟩
  have hstart := State.startEntry_eq s (fifoFor (s.touches [addrOfRow tile k.die.val k.bank.val row / segBytes])) 2
    (locBlock k.site.val k.die.val k.bank.val row 0)
  rw [← hu] at hstart
  have hud : u.die (dieKey k.site k.die.val) = d := by rw [hu, State.die_startEntry]
  have hvd : v.die (dieKey k.site k.die.val) = { d with
      usedSpares := (k.bank.val, spare) :: d.usedSpares
      failing := d.failing.filter fun x => x ≠ (k.bank.val, row)
      remaps := d.remaps ++ [(k.bank.val, row, spare, d.remappedBefore k.bank.val row)]
      corrections := d.corrections.filter fun x => !(x.1 == k.bank.val && x.2.1 == row) } := by
    rw [htells.eq (·.die (dieKey k.site k.die.val)) fun _ _ _ _ _ => rfl, ← hud]
    exact State.die_remapped ..
  have htd : t.die (dieKey k.site k.die.val) = v.die (dieKey k.site k.die.val) := by rw [hv, v.sweep_eq.1]; rfl
  have htv : (t.sheet, t.poisoned, t.ashPending) = (v.sheet, v.poisoned, v.ashPending) := by rw [hv, v.sweep_eq.1]
  have hvs : (v.sheet, v.poisoned, v.ashPending) = (s.sheet, s.poisoned, s.ashPending ++ [{
      type := 1, time := s.now, loc := BitVec.ofNat 64 (locBlock k.site.val k.die.val k.bank.val row 0)
      arg := spare + if d.remappedBefore k.bank.val row then 256 else 0 }]) := by
    rw [htells.eq (fun w => (w.sheet, w.poisoned, w.ashPending)) fun _ _ _ _ _ => rfl, hstart]
    rfl
  obtain ⟨hsheet, hpois, hash⟩ : _ ∧ _ ∧ _ := by simpa only [Prod.mk.injEq] using htv.trans hvs
  rw [htd, hvd]
  exact ⟨rfl, rfl, rfl, hsheet, hpois, hash⟩

end

/-! ## Copies that end (R97, R333, R334) -/

section

variable {s : State} {p : Part}

/-- A copy between live banks, and what follows it and spares the sheet, has moved every byte and left the others alone. -/
theorem State.Spares.copied {t : State} {src dst len : Nat} (h : State.Spares (s.copyRange src dst len) t) (hp : s.poisoned = [])
    (hs : s.bankDead (placeOf src) = false) (hd : s.bankDead (placeOf dst) = false) :
    (∀ j, j < len → t.sheet.read (dst + j) = s.sheet.read (src + j)) ∧
      ∀ a, a < dst ∨ dst + len ≤ a → t.sheet.read a = s.sheet.read a := by
  rw [h.sheet, State.copyRange_live hp hs hd]
  exact ⟨fun _ hj => Memory.read_moveN_inside _ hj, fun _ ha => Memory.read_moveN_outside _ ha⟩

/-- The reliefs of a partition with the copy of one marked complete. -/
def Partition.markCopied (q : Partition) (segment handle : Nat) : Partition :=
  { q with relief := q.relief.map fun x => if x.segment = segment ∧ x.handle = handle then { x with copied := true } else x }

theorem exec_reliefCopyDone_held {seg : Nat} {r : Relief}
    (hr : (s.part p).relief.find? (fun r => r.segment == seg && !r.copied) = some r)
    (hh : s.rangeHeld (seg * segBytes) segBytes = true ∨ s.rangeHeld (r.relief * segBytes) segBytes = true) (errs : Errs) :
    exec (.reliefCopyDone p seg errs) s = .next s := by
  refine congrArg Host.Outcome.next ?_
  rw [hr]
  exact if_pos (Bool.or_eq_true_iff.2 hh)

theorem exec_reliefCopyDone_clean {seg : Nat} {r : Relief} (hp : s.poisoned = [])
    (hr : (s.part p).relief.find? (fun r => r.segment == seg && !r.copied) = some r) (hv : (s.part p).vacated r = true)
    (hs : s.rangeHeld (seg * segBytes) segBytes = false) (hd : s.rangeHeld (r.relief * segBytes) segBytes = false) :
    exec (.reliefCopyDone p seg []) s = .next ((((s.copyRange (seg * segBytes) (r.relief * segBytes) segBytes).modPart p
      fun q => q.markCopied seg r.handle).placeReliefs p).sweep) := by
  refine congrArg Host.Outcome.next ?_
  rw [hr]
  dsimp only
  rw [if_neg (by simp [hs, hd]), if_pos hv, State.readRange_clean hp]
  rfl

/-- A relief of a partition whose copy is complete. -/
def State.reliefCopied (s : State) (p : Part) (seg relief : Nat) : Prop :=
  ∃ x ∈ (s.part p).relief, x.segment = seg ∧ x.relief = relief ∧ x.copied = true

theorem State.reliefCopied_of_relief {t : State} {seg relief : Nat} (h : s.reliefCopied p seg relief)
    (hsame : (t.part p).relief = (s.part p).relief) : t.reliefCopied p seg relief := by
  unfold State.reliefCopied
  rw [hsame]
  exact h

/-- What is entered stays copied (R334). -/
theorem State.placeReliefs_copied {seg relief : Nat} (h : s.reliefCopied p seg relief) : (s.placeReliefs p).reliefCopied p seg relief := by
  unfold State.placeReliefs
  split
  · refine List.foldlRecOn (motive := fun u : State => u.reliefCopied p seg relief) _ _ h fun u hu r _ => ?_
    refine State.reliefCopied_of_relief (s := u.modPart p fun q => { q with relief := q.relief.map fun x =>
        if x.handle = r.handle ∧ x.segment = r.segment then { x with placed := true } else x }) ?_ ?_
    · obtain ⟨x, hx, hseg, hrel, hcop⟩ := hu
      unfold State.reliefCopied
      rw [State.part_modPart]
      refine ⟨_, List.mem_map_of_mem hx, ?_⟩
      split <;> exact ⟨hseg, hrel, hcop⟩
    · have htold : State.Tells (u.modPart p fun q => { q with relief := q.relief.map fun x =>
          if x.handle = r.handle ∧ x.segment = r.segment then { x with placed := true } else x })
          ((u.modPart p fun q => { q with relief := q.relief.map fun x =>
          if x.handle = r.handle ∧ x.segment = r.segment then { x with placed := true } else x }).toLadder [p]
          { code := 12304, sev := 0, a := r.handle * 2 ^ 32 + r.region, b := r.segment * 2 ^ 32 + r.relief }) := State.toLadder_tells (.refl _) _ _
      exact (congrArg Partition.relief (htold.parts p) :)
  · exact h

theorem State.sweep_copied {seg relief : Nat} (h : s.reliefCopied p seg relief) : s.sweep.reliefCopied p seg relief :=
  State.reliefCopied_of_relief h (congrArg Partition.relief (s.sweep_eq.2 p) :)

theorem State.markCopied_copied {seg : Nat} {r : Relief}
    (hr : (s.part p).relief.find? (fun r => r.segment == seg && !r.copied) = some r) :
    (s.modPart p fun q => q.markCopied seg r.handle).reliefCopied p seg r.relief := by
  have hseg : r.segment = seg := by
    have := List.find?_some hr
    simp only [Bool.and_eq_true, beq_iff_eq] at this
    exact this.1
  unfold State.reliefCopied
  rw [State.part_modPart]
  refine ⟨{ r with copied := true }, List.mem_map.2 ⟨r, List.mem_of_find?_eq_some hr, ?_⟩, hseg, rfl, rfl⟩
  rw [if_pos ⟨hseg, rfl⟩]

/-- The move of a page between slots that no held die touches, read without error. -/
theorem exec_pageMoveDone_clean {handle page k k' : Nat} {m : Model} {pt : PoolPart} {d : PageDesc} (hp : s.poisoned = [])
    (hm : (s.part p).model handle = some m) (hpt : m.pool[pagePart page]? = some pt) (hd : m.desc page = some d) (hk : d.slot = some k)
    (hk' : d.moving = some k') (hs : s.rangeHeld (pt.slotAddr k) (pt.rows * 1024) = false)
    (hs' : s.rangeHeld (pt.slotAddr k') (pt.rows * 1024) = false) :
    ∃ f : Partition → Model → Model, exec (.pageMoveDone p handle page []) s =
      .next (((((s.copyRange (pt.slotAddr k) (pt.slotAddr k') (pt.rows * 1024)).modPart p fun q => q.modModel handle (f q)).releaseOrphan p
        handle page).pumpFetches p).placeReliefs p).sweep := by
  refine ⟨fun _ m => (m.modPool (pagePart page) fun pt => pt.giveSlot k).modDesc page fun d => { d with slot := some k', moving := none },
    congrArg Host.Outcome.next ?_⟩
  unfold State.pageMoved
  rw [hm]
  dsimp only
  rw [hpt, hd]
  dsimp only
  rw [hk, hk']
  dsimp only
  rw [if_neg (by simp [hs, hs']), State.readRange_clean hp]

end

/-- What follows the copy of a relief spares memory (R334). -/
theorem State.reliefMarked_spares (s : State) (p : Part) (seg handle : Nat) :
    State.Spares s (((s.modPart p fun q => q.markCopied seg handle).placeReliefs p).sweep) :=
  State.sweep_spares (State.placeReliefs_spares (.modPart (.refl s) rfl) p)

/-- What follows the copy of a page spares memory (R333). -/
theorem State.pageMarked_spares (s : State) (p : Part) (handle page : Nat) (f : Partition → Model → Model) :
    State.Spares s (((((s.modPart p fun q => q.modModel handle (f q)).releaseOrphan p handle page).pumpFetches p).placeReliefs p).sweep) :=
  State.sweep_spares (State.placeReliefs_spares (State.pumpFetches_spares (State.releaseOrphan_spares (.modPart (.refl s) rfl) p handle page) p) p)

/-- Settles O40: the remap, the two copies and the wait, each from the row that runs it. -/
theorem rowAndCopyRepairs : Obligations.RowAndCopyRepairs := by
  unfold Obligations.RowAndCopyRepairs
  refine ⟨fun s k row tile spare hp ht hf hs => ?row, fun s p seg r hp _ hr hv hs hd hds hdd => ?relief,
    fun s p handle page m pt d k k' hp _ hm hpt hd hk hk' hs hs' hds hdd => ?page, fun s p seg r errs hr hh => exec_reliefCopyDone_held hr hh errs⟩
  case row =>
    obtain ⟨hremaps, hused, hfailing, hsheet, hpois, hash⟩ := s.rowRemapped_left k tile row spare
    refine ⟨_, exec_rowRemap_verified hp ht hf hs, hremaps, hused, ?_, hsheet, hpois.trans hp, _, hash, rfl, rfl⟩
    rw [hfailing]
    simp
  case relief =>
    have hspares := (s.copyRange (seg * segBytes) (r.relief * segBytes) segBytes).reliefMarked_spares p seg r.handle
    obtain ⟨hmoved, hstays⟩ := hspares.copied hp hds hdd
    have hpart : (s.copyRange (seg * segBytes) (r.relief * segBytes) segBytes).part p = s.part p := by
      unfold State.part
      rw [State.copyRange_parts]
    exact ⟨_, exec_reliefCopyDone_clean hp hr hv hs hd, hmoved, hstays,
      State.sweep_copied (State.placeReliefs_copied (State.markCopied_copied (hpart ▸ hr)))⟩
  case page =>
    obtain ⟨f, hx⟩ := exec_pageMoveDone_clean hp hm hpt hd hk hk' hs hs'
    have hspares := (s.copyRange (pt.slotAddr k) (pt.slotAddr k') (pt.rows * 1024)).pageMarked_spares p handle page f
    obtain ⟨hmoved, hstays⟩ := hspares.copied hp hds hdd
    exact ⟨_, hx, hmoved, hstays⟩

end Sys2Proof.Machine

namespace Sys2Proof.Machine

/-! ## What a fault leaves as it is

A fault that no rung above quarantine answers moves no tile: the sites, their units and their substitutions stand, and a partition that is
absent or quarantined stays so (R328). -/

/-- What stands of a module under such a fault: its sites and the units they lost, the substitutions, the spare under self-test, the fault
control register and the peat tier's retirement. -/
def State.sited (s : State) : Vector SiteSt 64 × List (Nat × TileUnits) × List Subst × Option Site × W32 × Bool :=
  (s.sites, s.tileUnits, s.substs, s.bist.spare, s.fltCtrl, s.peatRetired)

/-- A partition's state after faults: absent where it was and only there, and quarantined where it was. -/
def PrtState.Follows (a b : PrtState) : Prop := (b = .absent ↔ a = .absent) ∧ (a = .quarantined → b = .quarantined)

theorem PrtState.Follows.of_eq {a b : PrtState} (h : b = a) : PrtState.Follows a b := ⟨by rw [h], fun ha => h.trans ha⟩

theorem PrtState.Follows.trans {a b c : PrtState} (h : PrtState.Follows a b) (k : PrtState.Follows b c) : PrtState.Follows a c :=
  ⟨k.1.trans h.1, fun ha => k.2 (h.2 ha)⟩

/-- What stands under such a fault, and what it may do to a partition's state. -/
structure State.Bears (s t : State) : Prop where
  sited : t.sited = s.sited
  fatal : s.fatal = true → t.fatal = true
  parts : ∀ i, PrtState.Follows (s.part i).st (t.part i).st

namespace State.Bears

variable {s₀ s t : State}

theorem refl (s : State) : State.Bears s s := ⟨rfl, id, fun _ => .of_eq rfl⟩

theorem trans (h : State.Bears s₀ s) (k : State.Bears s t) : State.Bears s₀ t :=
  ⟨k.sited.trans h.sited, fun hf => k.fatal (h.fatal hf), fun i => (h.parts i).trans (k.parts i)⟩

/-- A change of none of these fields. -/
theorem upd (h : State.Bears s₀ s) (hs : t.sited = s.sited) (hf : s.fatal = true → t.fatal = true) (hp : t.parts = s.parts) : State.Bears s₀ t :=
  h.trans ⟨hs, hf, fun i => .of_eq (by rw [State.part, State.part, hp])⟩

theorem ite {c : Prop} [Decidable c] (ht : State.Bears s₀ s) (hu : State.Bears s₀ t) : State.Bears s₀ (if c then s else t) := by
  split
  · exact ht
  · exact hu

theorem foldl {α : Type} {f : State → α → State} {l : List α} (hf : ∀ s x, State.Bears s₀ s → State.Bears s₀ (f s x))
    (h : State.Bears s₀ s) : State.Bears s₀ (l.foldl f s) := by
  induction l generalizing s with
  | nil => exact h
  | cons x l ih => exact ih (hf s x h)

theorem tells (h : State.Bears s₀ s) (k : State.Tells s t) : State.Bears s₀ t :=
  h.trans ⟨k.eq State.sited fun _ _ _ _ _ => rfl, fun hf => (k.eq (·.fatal) fun _ _ _ _ _ => rfl).trans hf, fun i => .of_eq (k.st i)⟩

theorem modPart_follows {p : Part} {f : Partition → Partition} (h : State.Bears s₀ s)
    (hf : PrtState.Follows (s.part p).st (f (s.part p)).st) : State.Bears s₀ (s.modPart p f) := by
  refine h.trans ⟨rfl, id, fun i => ?_⟩
  by_cases hi : i = p
  · rw [hi, State.part_modPart]
    exact hf
  · exact .of_eq (by rw [State.part_modPart_other _ _ _ _ hi])

/-- A change of a partition that leaves its state. -/
theorem modPart {p : Part} {f : Partition → Partition} (h : State.Bears s₀ s) (hf : (f (s.part p)).st = (s.part p).st) :
    State.Bears s₀ (s.modPart p f) := h.modPart_follows (.of_eq hf)

theorem modModel {p : Part} {handle : Nat} {f : Model → Model} (h : State.Bears s₀ s) :
    State.Bears s₀ (s.modPart p fun q => q.modModel handle f) := h.modPart rfl

end State.Bears

section

variable {s₀ s : State} (h : State.Bears s₀ s) (p : Part)
include h

theorem State.modReq_bears (n : Nat) (f : Req → Req) : State.Bears s₀ (s.modReq p n f) := h.modPart rfl

theorem State.modPage_bears (handle page : Nat) (f : PageDesc → PageDesc) : State.Bears s₀ (s.modPage p handle page f) := h.modPart rfl

theorem State.modRepairs_bears (f : List Repair → List Repair) : State.Bears s₀ (s.modRepairs p f) :=
  (h.modPart (p := p) (f := fun q => { q with fifo := followRepairs p (f s.repairs) q.fifo }) rfl).upd rfl id rfl

theorem State.modFifo_bears (o : Option Part) (f : List FaultEntry → List FaultEntry) : State.Bears s₀ (s.modFifo o f) := by
  cases o with
  | none => exact h.upd rfl id rfl
  | some p => exact h.modPart rfl

theorem State.alertFault_bears (cls : Nat) : State.Bears s₀ (s.alertFault cls) := .ite (h.upd rfl id rfl) h

theorem State.countDeferred_bears : State.Bears s₀ (s.countDeferred p) := State.alertFault_bears (h.modPart rfl) 1

theorem State.modTaken_bears (src : Src) (f : List Cmd → List Cmd) : State.Bears s₀ (s.modTaken src f) := by
  cases src with
  | owner => exact h.upd rfl id rfl
  | part p => exact h.modPart rfl

theorem State.doneAll_bears (src : Src) (which : Cmd → Bool) (status : Nat) : State.Bears s₀ (s.doneAll src which status) :=
  .foldl (fun s c h => (State.modTaken_bears h src _).tells (s.done_tells src c status c.written)) h

/-! ### A quarantine (R196, R328) -/

theorem State.beginSlot_bears (i : Nat) : State.Bears s₀ (s.beginSlot i) := by
  unfold State.beginSlot
  split
  · exact h
  · split
    · exact h
    · refine .modPart ?_ rfl
      exact h.upd rfl id rfl

theorem State.endSlot_bears (i : Nat) : State.Bears s₀ (s.endSlot i) := by
  unfold State.endSlot
  split
  · exact h
  · exact .foldl (fun s i h => State.beginSlot_bears h i) (.ite (h.upd rfl id rfl) (h.upd rfl id rfl))

theorem State.settleSlots_bears : State.Bears s₀ (s.settleSlots p) := by
  refine .foldl (fun s _ h => State.endSlot_bears (.tells (.modPart ?_ rfl) (State.toPart_tells (.refl _) p _ _)) _) h
  exact h.upd rfl id rfl

theorem State.bistSettle_bears : State.Bears s₀ s.bistSettle := .ite (h.upd rfl id rfl) h

omit h in
theorem Partition.dropFormed_st (q : Partition) (ash : List Nat) : (q.dropFormed ash).st = q.st := by
  rw [Partition.dropFormed_eq]

omit h in
theorem Partition.abandonStep_st (q : Partition) (ash : List Nat) : (q.abandonStep ash).st = q.st := by
  unfold Partition.abandonStep
  split
  · exact q.dropFormed_st ash
  · exact (Partition.dropFormed_st _ ash).trans (by rw [(q.returnScratch_onlyModels ash _).eq])

theorem State.abandonStep_bears (cause : Nat) : State.Bears s₀ (s.abandonStep p cause) := by
  have hq : State.Bears s₀ (s.modPart p fun q => q.abandonStep s.ashList) := h.modPart (Partition.abandonStep_st _ _)
  unfold State.abandonStep
  split
  · exact hq
  · exact State.bistSettle_bears (State.settleSlots_bears (hq.tells (State.toPart_tells (.refl _) p _ _)) p)

theorem State.dropHeld_bears : State.Bears s₀ (s.dropHeld p) := by
  unfold State.dropHeld
  split
  · exact h.upd rfl id rfl
  · exact h

theorem State.dropReads_bears (gone : HostRead → Bool) : State.Bears s₀ (s.dropReads gone) := by
  refine .foldl (fun _ i h => ?_) (h.upd rfl id rfl)
  exact .foldl (fun _ _ h => .ite (h.upd rfl id rfl) h) h

omit h in
theorem Partition.afterReset_st (q : Partition) : q.afterReset.st = q.st := by
  rw [Partition.afterReset, Partition.freeAll_eq]

theorem State.resetPart_bears : State.Bears s₀ (s.resetPart p) := by
  have hreset : State.Bears s₀ ((s.doneAll (.part p) (fun c => c.run != .testing) stAborted).modPart p Partition.afterReset) :=
    .modPart (State.doneAll_bears h _ _ _) (Partition.afterReset_st _)
  refine State.dropReads_bears ?_ _
  exact hreset.upd rfl id rfl

theorem State.cancelQueued_bears : State.Bears s₀ (s.cancelQueued p) := State.modRepairs_bears (h.modPart rfl) p _

/-- What follows the parking of a partition that is quarantined: its record, its stops that complete, and the reset that an FLR asked for. -/
theorem State.parkedTold_bears (flr : Bool) (v : Ev) :
    State.Bears s₀ (if flr = true then (((if flr = true then s.dropHeld p else s).toBoth p v).doneAll (.part p) (fun c => c.run == .stopping) stOk).resetPart p
      else ((if flr = true then s.dropHeld p else s).toBoth p v).doneAll (.part p) (fun c => c.run == .stopping) stOk) := by
  have htold := State.doneAll_bears (State.Bears.tells (.ite (c := flr = true) (State.dropHeld_bears h p) h) (State.toBoth_tells (.refl _) p v))
    (.part p) (fun c => c.run == .stopping) stOk
  exact .ite (State.resetPart_bears htold p) htold

end

/-- A quarantine from the state in which the partition has parked (R328). -/
theorem State.quarantine_parked (s : State) (p : Part) (code loc : Nat) (fatal : Bool) (cause : Nat) (ha : (s.part p).st ≠ .absent)
    (hq : (s.part p).st ≠ .quarantined) : ∃ f : Partition → Partition, (∀ q, (f q).st = .quarantined) ∧
      State.Bears (((s.abandonStep p cause).cancelQueued p).modPart p f) (s.quarantine p code loc fatal cause) := by
  unfold State.quarantine
  split
  case h_1 h => exact absurd h ha
  case h_2 h => exact absurd h hq
  case h_3 =>
    refine ⟨fun q => { q.parkAll.2 with
      st := .quarantined, stopCause := 3, startPending := false, quarantinedAt := ((s.abandonStep p cause).cancelQueued p).uptime
      flrPending := false, quarantineClass := if fatal then 3 else 2
      sectionsSince := if q.st ≠ .stopped then 0 else q.parkAll.2.sectionsSince
      zeroNs := if q.st ≠ .stopped then 0 else q.parkAll.2.zeroNs }, fun _ => rfl, ?_⟩
    exact State.parkedTold_bears (.refl _) p _ _

/-- A partition that is there ends QUARANTINED (R328). -/
theorem State.quarantine_st (s : State) (p : Part) (code loc : Nat) (fatal : Bool) (cause : Nat) (ha : (s.part p).st ≠ .absent) :
    ((s.quarantine p code loc fatal cause).part p).st = .quarantined := by
  by_cases hq : (s.part p).st = .quarantined
  · unfold State.quarantine
    rw [hq]
    exact hq
  · obtain ⟨f, hf, hb⟩ := s.quarantine_parked p code loc fatal cause ha hq
    exact (hb.parts p).2 (by rw [State.part_modPart]; exact hf _)

section

variable {s₀ s : State} (h : State.Bears s₀ s) (p : Part)
include h

theorem State.quarantine_bears (code loc : Nat) (fatal : Bool) (cause : Nat) : State.Bears s₀ (s.quarantine p code loc fatal cause) := by
  by_cases ha : (s.part p).st = .absent
  · unfold State.quarantine
    rw [ha]
    exact h
  by_cases hq : (s.part p).st = .quarantined
  · unfold State.quarantine
    rw [hq]
    exact h
  obtain ⟨f, hf, hb⟩ := s.quarantine_parked p code loc fatal cause ha hq
  have hcancelled : State.Bears s ((s.abandonStep p cause).cancelQueued p) := State.cancelQueued_bears (State.abandonStep_bears (.refl s) p cause) p
  refine (h.trans (hcancelled.modPart_follows ⟨?_, fun _ => hf _⟩)).trans hb
  rw [hf, (hcancelled.parts p).1]
  exact iff_of_false nofun ha

theorem State.contained_bears (code loc cause : Nat) : State.Bears s₀ (s.contained p code loc cause) :=
  State.quarantine_bears (State.alertFault_bears (h.modPart rfl) 2) p code loc false cause

theorem State.fatalFault_bears (code loc : Nat) : State.Bears s₀ (s.fatalFault code loc) := by
  refine .foldl (fun _ p h => State.quarantine_bears h p code loc true 2) (State.alertFault_bears ?_ 3)
  exact h.upd rfl (fun _ => rfl) rfl

/-! ### The FIFOs, weight errors and lost data (R300, R343-R346) -/

theorem State.enqueue_bears (o : Option Part) (e : FaultEntry) : State.Bears s₀ (s.enqueue o e) := by
  unfold State.enqueue
  refine .ite (State.modFifo_bears h o _) (.ite (State.modFifo_bears h o _) ?_)
  split
  · exact State.contained_bears (h.tells (State.toBoth_tells (.refl _) _ _)) _ _ _ _
  · exact State.fatalFault_bears (h.tells (State.toOwner_tells (.refl _) _ _)) _ _

theorem State.toConcerned_bears (handle region code sev b ownerB : Nat) : State.Bears s₀ (s.toConcerned p handle region code sev b ownerB) := by
  unfold State.toConcerned
  refine .tells (.foldl (fun s x h => ?_) h) (State.toOwner_tells (.refl _) _ _)
  exact .ite h (h.tells (State.toPart_tells (.refl _) x.1 0 _))

theorem State.sourceLost_bears (handle region billet : Nat) : State.Bears s₀ (s.sourceLost p handle region billet) := by
  unfold State.sourceLost
  refine .tells (State.countDeferred_bears ?_ p) (State.toOwner_tells (.refl _) _ _)
  split
  · exact State.modRepairs_bears h p _
  · exact h.upd rfl id rfl

theorem State.weightError_bears (handle region billet : Nat) : State.Bears s₀ (s.weightError p handle region billet) := by
  unfold State.weightError
  dsimp only
  split
  · exact h
  · refine .ite h (.ite ?_ (.ite (State.sourceLost_bears h p _ _ _) ?_))
    · refine State.toConcerned_bears (.modPart ?_ rfl) p _ _ _ _ _ _
      exact h.upd rfl id rfl
    · refine State.toConcerned_bears (State.countDeferred_bears ?_ p) p _ _ _ _ _ _
      exact h.upd rfl id rfl

theorem State.faultReq_bears (n : Nat) (v : Ev) : State.Bears s₀ (s.faultReq p n v) :=
  State.modReq_bears (h.tells (State.toReq_tells (.refl s) p n v)) p n _

theorem State.losePositions_bears (n : Nat) (lost : List (Nat × Nat)) (what : Option LostData) (loc : Nat) :
    State.Bears s₀ (s.losePositions p n lost what loc) := by
  unfold State.losePositions
  split
  · split
    · exact State.modReq_bears h p n _
    · exact h
  · exact State.enqueue_bears (State.countDeferred_bears (State.faultReq_bears (.modPart (State.modReq_bears h p n _) rfl) p n _) p) _ _

theorem State.loseEntries_bears (n : Nat) (lost : List (Nat × Nat × Nat)) (what : Option LostData) (loc : Nat) :
    State.Bears s₀ (s.loseEntries p n lost what loc) := by
  unfold State.loseEntries
  split
  · exact h
  · refine State.losePositions_bears (.foldl (fun s x h => ?_) h) p _ _ _ _
    split
    · exact State.modPage_bears h p _ _ _
    · exact h

theorem State.losePages_bears (handle : Nat) (pages : List Nat) (loc : Nat) : State.Bears s₀ (s.losePages p handle pages loc) :=
  .modModel (.foldl (fun _ _ h => State.modPage_bears h p handle _ _)
    (.foldl (fun _ _ h => .ite h (State.loseEntries_bears h p _ _ _ _)) h))

theorem State.loseBlocks_bears (handle : Nat) (blocks : List Nat) (loc : Nat) : State.Bears s₀ (s.loseBlocks p handle blocks loc) := by
  refine .modModel (.foldl (fun s x h => ?_) h)
  dsimp only
  generalize hu : List.foldl _ s _ = u
  have hlists : State.Bears s₀ u := by
    rw [← hu]
    refine .foldl (fun s y h => .ite ?_ h) h
    split
    · exact State.loseEntries_bears h p _ _ _ _
    · exact h
  refine .ite ?_ hlists
  split
  · refine State.losePositions_bears ?_ p _ _ _ _
    split
    · exact State.loseEntries_bears hlists p _ _ _ _
    · exact hlists
  · split
    · exact State.loseEntries_bears hlists p _ _ _ _
    · exact hlists

theorem State.losePart_bears (handle i loc : Nat) : State.Bears s₀ (s.losePart p handle i loc) := by
  unfold State.losePart
  split
  · exact h
  · exact State.loseBlocks_bears (State.losePages_bears h p _ _ _) p _ _ _

/-! ### Memory written again (R302, R338) -/

theorem State.told_bears (seg : Option Nat) (kind : Nat) : State.Bears s₀ (s.told p seg kind) := h.tells (s.told_tells p seg kind)

theorem State.putBlocks_bears (b : Nat) (l : List (List Byte × Bool)) : State.Bears s₀ (s.putBlocks b l) := by
  rw [State.putBlocks_frame]
  exact h.upd rfl id rfl

omit h in
theorem State.peatToSheet_bears (bad : List Nat) (n : Nat) : ∀ {s : State} (c b : Nat), State.Bears s₀ s → State.Bears s₀ (s.peatToSheet bad c b n) := by
  induction n with
  | zero => exact fun _ _ h => h
  | succ n ih => exact fun c b h => ih _ _ (State.putBlocks_bears h b _)

theorem State.fencedFetch_bears (bad : List Nat) (c a len : Nat) : State.Bears s₀ (s.fencedFetch p bad c a len) := by
  have htold := State.told_bears (State.told_bears h p (s.peatBreach p c len false) 0) p (s.breach p a len true) 1
  exact .ite htold (.ite (State.putBlocks_bears htold _ _) (State.peatToSheet_bears bad _ _ _ htold))

theorem State.refetchBillet_bears (m : Model) (region b : Nat) (bad : List Nat) : State.Bears s₀ (s.refetchBillet p m region b bad).1 := by
  unfold State.refetchBillet
  split
  · dsimp only
    split
    · exact State.told_bears h p _ _
    · exact State.fencedFetch_bears h p _ _ _ _
  · exact h

theorem State.poisonBillet_bears (m : Model) (region b : Nat) : State.Bears s₀ (s.poisonBillet p m region b) := by
  unfold State.poisonBillet
  split
  · exact State.putBlocks_bears h _ _
  · exact h

/-- A stack filled anew moves no tile (R338 step 3). -/
theorem State.refillStack_bears (tile loc : Nat) : State.Bears s₀ (s.refillStack tile loc) := by
  refine .foldl (fun s p h => .foldl (fun s m h => ?_) h) (h.upd rfl id rfl)
  refine .modPart (.foldl (fun s i h => ?_) (.modModel (.foldl (fun s r h => .foldl (fun s b h => ?_) h) h))) rfl
  · split
    · exact .ite (State.losePart_bears h p _ _ _) h
    · exact h
  · have hfetched := State.refetchBillet_bears h p m r b []
    refine .ite ?_ (.ite (State.weightError_bears (State.poisonBillet_bears h p m r b) p _ _ _) h)
    exact .ite (State.modRepairs_bears hfetched p _) (State.sourceLost_bears (State.poisonBillet_bears hfetched p m r b) p _ _ _)

/-- What a peat tier that is retired sets off moves no tile (R340). -/
theorem State.retirePeat_bears (loc : Nat) : State.Bears { s₀ with peatRetired := true } (s.retirePeat loc) := by
  have hretired : State.Bears { s₀ with peatRetired := true } { s with peatRetired := true } :=
    ⟨congrArg (fun x : _ × _ × _ × _ × _ × _ => (x.1, x.2.1, x.2.2.1, x.2.2.2.1, x.2.2.2.2.1, true)) h.sited, h.fatal, h.parts⟩
  exact .foldl (fun s r h => State.sourceLost_bears h r.part _ _ _)
    (.foldl (fun s p h => .foldl (fun s m h => State.losePages_bears h p _ _ _) h) hretired)

end

end Sys2Proof.Machine

namespace Sys2Proof.Machine

/-! ## Quarantine of many (R328, R329) -/

section

variable {s : State} {site : Site}

/-- Faults that each quarantine their partition quarantine all of a list that are there. -/
theorem State.foldl_quarantined {f : State → Part → State} (hb : ∀ u p, State.Bears u (f u p))
    (hq : ∀ u p, (u.part p).st ≠ .absent → ((f u p).part p).st = .quarantined) {l : List Part} {p : Part} (hp : p ∈ l)
    (ha : (s.part p).st ≠ .absent) : ((l.foldl f s).part p).st = .quarantined := by
  refine (foldl_of_mem (P := fun u => (u.part p).st = .absent ∨ (u.part p).st = .quarantined) (fun u q hu => ?_) hp (fun u => ?_) s).resolve_left ?_
  · exact hu.imp ((hb u q).parts p).1.2 ((hb u q).parts p).2
  · by_cases hthere : (u.part p).st = .absent
    · exact .inl (((hb u p).parts p).1.2 hthere)
    · exact .inr (hq u p hthere)
  · have hall : State.Bears s (l.foldl f s) := .foldl (fun u q h => h.trans (hb u q)) (.refl s)
    exact fun h => ha ((hall.parts p).1.1 h)

/-- A fatal fault quarantines every partition that is there (R329). -/
theorem State.fatalFault_st (code loc : Nat) (p : Part) (ha : (s.part p).st ≠ .absent) : ((s.fatalFault code loc).part p).st = .quarantined := by
  have halert : State.Bears { s with fatal := true } (State.alertFault { s with fatal := true } 3) := State.alertFault_bears (.refl _) 3
  exact State.foldl_quarantined (fun u q => State.quarantine_bears (.refl u) q code loc true 2) (fun u q h => u.quarantine_st q code loc true 2 h)
    (mem_allParts p) fun h => ha ((halert.parts p).1.1 h)

theorem State.fatalFault_fatal (s : State) (code loc : Nat) : (s.fatalFault code loc).fatal = true := by
  have hquarantines : State.Bears (State.alertFault { s with fatal := true } 3) (s.fatalFault code loc) :=
    .foldl (fun _ p h => State.quarantine_bears h p code loc true 2) (.refl _)
  refine hquarantines.fatal ?_
  unfold State.alertFault
  split <;> rfl

/-- A contained fault quarantines its partition (R326). -/
theorem State.contained_st (s : State) (p : Part) (code loc cause : Nat) (ha : (s.part p).st ≠ .absent) :
    ((s.contained p code loc cause).part p).st = .quarantined := by
  refine State.quarantine_st _ p code loc false cause fun h => ha ?_
  exact ((State.alertFault_bears (State.Bears.modPart (.refl s) rfl) 2).parts p).1.1 h

/-! ## A tile's fault (R338, R339) -/

/-- The spare nearest to a site is a matter of the sites, the substitutions and the spare under self-test. -/
theorem State.Bears.nearestSpare {t : State} (h : State.Bears s t) (i : Site) : t.nearestSpare i = s.nearestSpare i := by
  obtain ⟨hsites, -, hsubsts, hspare, -, -⟩ : _ ∧ _ ∧ _ ∧ _ ∧ _ ∧ _ := by simpa only [State.sited, Prod.mk.injEq] using h.sited
  have hfree : t.spareSite = s.spareSite := by
    funext j
    unfold State.spareSite
    rw [hsites, hsubsts, hspare]
  unfold State.nearestSpare
  rw [hfree]

/-- A tile's fault up to the quarantine of its partitions, before its substitution (R338). -/
def State.tileFaulted (s : State) (site : Site) (tile : Nat) : State :=
  let loc := locTile site.val
  let who := s.holders site.val
  let u := s.toLadder who { code := 0x300B, sev := 4, a := loc, b := tile }
  let u := u.enqueue (fifoFor who) (u.entry 0x300B 2 7 loc)
  let u := who.foldl (fun s p => s.contained p 0x300B loc 0) u
  if who.isEmpty then u.alertFault 2 else u

theorem State.tileFaulted_bears (s : State) (site : Site) (tile : Nat) : State.Bears s (s.tileFaulted site tile) := by
  have htold (u : State) (h : State.Bears s u) (e : FaultEntry) : State.Bears s ((s.holders site.val).foldl
      (fun s p => s.contained p 0x300B (locTile site.val) 0) (u.enqueue (fifoFor (s.holders site.val)) e)) :=
    .foldl (fun _ p h => State.contained_bears h p _ _ _) (State.enqueue_bears h _ e)
  have hladder : State.Bears s _ := (State.Bears.refl s).tells (State.toLadder_tells (.refl s) (s.holders site.val)
    { code := 0x300B, sev := 4, a := locTile site.val, b := tile })
  exact .ite (State.alertFault_bears (htold _ hladder _) 2) (htold _ hladder _)

theorem State.tileFaulted_st (tile : Nat) {p : Part} (hp : p ∈ s.holders site.val) (ha : (s.part p).st ≠ .absent) :
    ((s.tileFaulted site tile).part p).st = .quarantined := by
  have hwho : (s.holders site.val).isEmpty = false := by
    cases hw : s.holders site.val with
    | nil => rw [hw] at hp; exact absurd hp List.not_mem_nil
    | cons q l => rfl
  unfold State.tileFaulted
  dsimp only
  rw [hwho, if_neg Bool.false_ne_true]
  refine State.foldl_quarantined (fun u q => State.contained_bears (.refl u) q _ _ _) (fun u q h => u.contained_st q _ _ _ h) hp fun h => ha ?_
  have hladder : State.Bears s _ := (State.Bears.refl s).tells (State.toLadder_tells (.refl s) (s.holders site.val)
    { code := 0x300B, sev := 4, a := locTile site.val, b := tile })
  exact ((State.enqueue_bears hladder _ _).parts p).1.1 h

/-- A tile in service that faults: what its quarantines end in takes the nearest spare, or is degraded (R338, R339). -/
theorem State.tileFault_inService {serves : Bool} {tile : Nat} (hut : s.underTest site = false) (hst : (s.sites.get site).state = .inService)
    (htile : (s.sites.get site).tile = some tile) (hsub : ∀ x ∈ s.substs, x.failed ≠ site) :
    s.tileFault site serves = match (s.tileFaulted site tile).nearestSpare site with
      | some sp => { s.tileFaulted site tile with substs := (s.tileFaulted site tile).substs ++
          [Subst.mk site (if (s.tileFaulted site tile).fltCtrl.getLsbD 31 then some sp else none) tile serves (!(s.tileFaulted site tile).fltCtrl.getLsbD 31)] }
      | none => ((s.tileFaulted site tile).modFifo (fifoFor (s.holders site.val)) fun l =>
          l.filter fun e => !(e.rung == 7 && resKey 7 e.loc.toNat == site.val)).degrade site tile := by
  have hnone : (s.substs.any fun x => x.failed == site) = false := by
    rw [List.any_eq_false]
    exact fun x hx h => hsub x hx (beq_iff_eq.1 h)
  unfold State.tileFault
  rw [hut, hst, htile, hnone]
  rfl

end

end Sys2Proof.Machine

namespace Sys2Proof.Machine

/-! ## What a tile's fault leaves (R338, R339) -/

/-- What stands whatever becomes of a tile: what tiles have lost of their units, the routers retired, FATAL, and quarantines. -/
structure State.Endures (s t : State) : Prop where
  units : t.tileUnits = s.tileUnits
  routers : ∀ i, (s.sites.get i).routerRetired = true → (t.sites.get i).routerRetired = true
  fatal : s.fatal = true → t.fatal = true
  parts : ∀ i, PrtState.Follows (s.part i).st (t.part i).st

section

variable {s t : State}

theorem State.Bears.endures (h : State.Bears s t) : State.Endures s t := by
  obtain ⟨hsites, hunits, -, -, -, -⟩ : _ ∧ _ ∧ _ ∧ _ ∧ _ ∧ _ := by simpa only [State.sited, Prod.mk.injEq] using h.sited
  exact ⟨hunits, fun i hi => by rw [hsites]; exact hi, h.fatal, h.parts⟩

theorem State.Endures.trans {u : State} (h : State.Endures s t) (k : State.Endures t u) : State.Endures s u :=
  ⟨k.units.trans h.units, fun i hi => k.routers i (h.routers i hi), fun hf => k.fatal (h.fatal hf), fun i => (h.parts i).trans (k.parts i)⟩

theorem State.fenceSite_endures (s : State) (site : Site) : State.Endures s (s.fenceSite site) := by
  refine ⟨rfl, fun i hi => ?_, id, fun _ => .of_eq rfl⟩
  by_cases h : i = site
  · rw [h] at hi ⊢
    exact (congrArg SiteSt.routerRetired (upd_get_same s.sites site _)).trans hi
  · exact (congrArg SiteSt.routerRetired (upd_get_other s.sites site i _ h)).trans hi

theorem State.ashRecord_bears (s : State) (type loc arg : Nat) : State.Bears s (s.ashRecord type loc arg) := ⟨rfl, id, fun _ => .of_eq rfl⟩

/-- A site that is degraded ends fenced; a fatal fault follows unless one partition alone holds it (R339). -/
theorem State.degrade_bears (s : State) (site : Site) (tile : Nat) : State.Bears (s.fenceSite site) (s.degrade site tile) := by
  have hlogged : State.Bears (s.fenceSite site) ((s.fenceSite site).ashRecord 0x09 (locTile site.val) 0) := State.ashRecord_bears ..
  have htold := fun who v => hlogged.tells (State.toLadder_tells (.refl _) who v)
  unfold State.degrade
  dsimp only
  split
  · exact htold _ _
  · exact State.fatalFault_bears (htold _ _) _ _

theorem State.degrade_endures (s : State) (site : Site) (tile : Nat) : State.Endures s (s.degrade site tile) :=
  (s.fenceSite_endures site).trans (s.degrade_bears site tile).endures

theorem State.Endures.withSubsts (h : State.Endures s t) (l : List Subst) : State.Endures s { t with substs := l } :=
  ⟨h.units, h.routers, h.fatal, h.parts⟩

/-- A spare that fails while it is filled leaves its entry at the ladder's last rung (R346). -/
theorem State.spareFailed_endures (s : State) (site : Site) (loc rung loc' next : Nat) (who : List Part) :
    State.Endures s (((s.escalate who rung loc' next).fenceSite site).ashRecord 0x09 loc 0) := by
  have hescalated : State.Bears s (s.escalate who rung loc' next) :=
    (State.modFifo_bears (.refl s) _ _).tells (State.toLadder_tells (.refl _) _ _)
  exact (hescalated.endures.trans (State.fenceSite_endures _ site)).trans (State.ashRecord_bears ..).endures

theorem State.tileFault_endures (s : State) (site : Site) (serves : Bool) : State.Endures s (s.tileFault site serves) := by
  have hsame : State.Endures s s := (State.Bears.refl s).endures
  unfold State.tileFault
  dsimp only
  split
  · exact ⟨rfl, fun _ h => h, id, fun _ => .of_eq rfl⟩
  split
  case h_1 tile _ _ =>
    split
    · exact hsame
    · generalize hu : (if (s.holders site.val).isEmpty = true then _ else _) = u
      have hfaulted : State.Endures s u := by
        rw [← hu]
        exact (s.tileFaulted_bears site tile).endures
      split
      · exact hfaulted.withSubsts _
      · exact hfaulted.trans ((State.modFifo_bears (.refl u) _ _).endures.trans (State.degrade_endures _ _ _))
  case h_2 =>
    split
    · refine .trans ?_ (State.degrade_endures _ _ _)
      exact .trans ((s.spareFailed_endures site _ _ _ _ _).withSubsts _) (State.modFifo_bears (.refl _) _ _).endures
    · exact (s.fenceSite_endures site).trans (State.ashRecord_bears ..).endures
  case h_3 => exact hsame

/-! ## Units of a tile (R337) -/

theorem State.units?_congr (h : t.tileUnits = s.tileUnits) (i : Nat) : t.units? i = s.units? i := by rw [State.units?, State.units?, h]

@[simp] theorem State.units?_modUnits_same (s : State) (i : Nat) (f : TileUnits → TileUnits) : (s.modUnits i f).units? i = f (s.units? i) :=
  congrArg (fun o : Option TileUnits => o.getD {}) (lookupA_insertA_same s.tileUnits i (f (s.units? i)))

@[simp] theorem State.units?_ashRecord (s : State) (i type loc arg : Nat) : (s.ashRecord type loc arg).units? i = s.units? i := rfl

theorem State.units?_modUnits_other (s : State) {i j : Nat} (f : TileUnits → TileUnits) (h : j ≠ i) : (s.modUnits i f).units? j = s.units? j :=
  congrArg (fun o : Option TileUnits => o.getD {}) (lookupA_insertA_other s.tileUnits (f (s.units? i)) h)

/-- The cores and the clusters that a tile has lost. -/
def TileUnits.lost (u : TileUnits) : List (Nat × Nat) × List Nat := (u.coreFaults, u.clusters)

theorem State.sweep_units (s : State) : s.sweep.tileUnits = s.tileUnits := by rw [s.sweep_eq.1]

/-- Spares that take over do not give back what is lost. -/
theorem State.spareCores_lost (s : State) (i : Nat) : (s.spareCores.units? i).lost = (s.units? i).lost := by
  unfold State.spareCores
  rw [State.units?_congr (State.sweep_units _)]
  refine State.foldl_unchanged (fun s => (s.units? i).lost) _ (fun s x => ?_) _ s
  dsimp only
  split
  · generalize hu : List.foldl _ s _ = u
    have hunits : u.tileUnits = s.tileUnits := by
      rw [← hu]
      refine State.foldl_unchanged State.tileUnits _ (fun s y => ?_) _ s
      exact (State.toLadder_tells (.refl _) _ _).eq State.tileUnits fun _ _ _ _ _ => rfl
    by_cases hi : i = x.1
    · rw [hi, State.units?_modUnits_same, ← State.units?_congr hunits]
      rfl
    · rw [State.units?_modUnits_other _ _ hi, State.units?_congr hunits]
  · rfl

theorem State.poisonSteps_bears (s : State) (who : List Part) (cause : Nat) : State.Bears s (s.poisonSteps who cause) := by
  refine .foldl (fun s p h => ?_) (.refl s)
  split
  · exact h
  · refine .modPart (State.countDeferred_bears ?_ p) rfl
    exact h.upd rfl id rfl

/-- A cluster that is retired is lost, and nothing more of the cores (R337). -/
theorem State.retireCluster_lost (s : State) (site : Site) (cluster loc : Nat) :
    cluster ∈ ((s.retireCluster site cluster loc).units? site.val).clusters ∧
      ((s.retireCluster site cluster loc).units? site.val).coreFaults = (s.units? site.val).coreFaults := by
  unfold State.retireCluster
  split
  · next h => exact ⟨List.contains_iff_mem.1 h, rfl⟩
  · dsimp only
    generalize hu : State.toLadder _ _ _ = u
    have hunits : u.units? site.val = { s.units? site.val with
        clusters := setAdd (s.units? site.val).clusters cluster
        waiting := (s.units? site.val).waiting.filter fun x => x.1 ≠ cluster } := by
      rw [← hu, State.units?_congr ((State.toLadder_tells (.refl _) _ _).eq State.tileUnits fun _ _ _ _ _ => rfl),
        State.units?_ashRecord, State.units?_modUnits_same]
    have hfault : (if 16 < ((s.modUnits site.val fun u => { u with
        clusters := setAdd u.clusters cluster, waiting := u.waiting.filter fun x => x.1 ≠ cluster }).units? site.val).clusters.length
        then u.tileFault site true else u).units? site.val = u.units? site.val := by
      split
      · exact State.units?_congr (u.tileFault_endures site true).units _
      · rfl
    rw [hfault, hunits]
    exact ⟨mem_setAdd.2 (.inl rfl), rfl⟩

/-- A core found faulty is kept, and the fifth of its cluster retires the cluster (R337). -/
theorem State.coreFaulty_lost (s : State) (site : Site) {cluster core : Nat} (hc : (s.units? site.val).clusters.contains cluster = false)
    (hf : (s.units? site.val).coreFaults.contains (cluster, core) = false) :
    ((s.coreFaulty site cluster core).units? site.val).coreFaults = (s.units? site.val).coreFaults ++ [(cluster, core)] ∧
      (4 ≤ ((s.units? site.val).coreFaults.filter fun x => x.1 == cluster).length ↔
        ((s.coreFaulty site cluster core).units? site.val).clusters.contains cluster = true) := by
  unfold State.coreFaulty
  dsimp only
  rw [hc, hf, Bool.or_false, if_neg Bool.false_ne_true]
  obtain ⟨u, hu⟩ : ∃ u, u = s.enqueue (fifoFor (s.holders site.val)) (s.entry 0x3008 1 6 (locCore site.val cluster core)) := ⟨_, rfl⟩
  have hunits : u.units? site.val = s.units? site.val := by
    rw [hu]
    exact State.units?_congr (State.enqueue_bears (.refl s) _ _).endures.units _
  rw [← hu]
  obtain ⟨v, hv⟩ : ∃ v, v = u.modUnits site.val fun u => { u with coreFaults := u.coreFaults ++ [(cluster, core)] } := ⟨_, rfl⟩
  have hvu : v.units? site.val = { s.units? site.val with coreFaults := (s.units? site.val).coreFaults ++ [(cluster, core)] } := by
    rw [hv, State.units?_modUnits_same, hunits]
  rw [← hv]
  have hcount : ((v.units? site.val).coreFaults.filter fun x => x.1 == cluster).length =
      ((s.units? site.val).coreFaults.filter fun x => x.1 == cluster).length + 1 := by
    rw [hvu]
    simp
  rw [hcount]
  by_cases hfour : 4 ≤ ((s.units? site.val).coreFaults.filter fun x => x.1 == cluster).length
  · rw [if_pos (by omega)]
    obtain ⟨hmem, hsame⟩ := v.retireCluster_lost site cluster (locCore site.val cluster core)
    exact ⟨hsame.trans (by rw [hvu]), iff_of_true hfour (List.contains_iff_mem.2 hmem)⟩
  · rw [if_neg (by omega)]
    have hlost := State.spareCores_lost (v.modUnits site.val fun u => { u with waiting := u.waiting ++ [(cluster, core)] }) site.val
    rw [State.units?_modUnits_same, hvu] at hlost
    obtain ⟨hcores, hclusters⟩ := Prod.mk.inj hlost
    refine ⟨hcores, iff_of_false hfour ?_⟩
    rw [hclusters]
    exact fun h => Bool.false_ne_true (hc.symm.trans h)

/-- An engine found faulty is lost, and no core with it (R337). -/
theorem State.engineFaulty_lost (s : State) (site : Site) (engine : Nat) : engine ∈ ((s.engineFaulty site engine).units? site.val).engines ∧
    ((s.engineFaulty site engine).units? site.val).coreFaults = (s.units? site.val).coreFaults := by
  unfold State.engineFaulty
  split
  · next h => exact ⟨List.contains_iff_mem.1 h, rfl⟩
  · dsimp only
    obtain ⟨u, hu⟩ : ∃ u, u = s.enqueue (fifoFor (s.holders site.val)) (s.entry 0x300A 0 6 (locEngine site.val engine)) := ⟨_, rfl⟩
    have hunits : u.units? site.val = s.units? site.val := by
      rw [hu]
      exact State.units?_congr (State.enqueue_bears (.refl s) _ _).endures.units _
    rw [← hu]
    generalize hv : State.toLadder _ _ _ = v
    have hvu : v.units? site.val = { s.units? site.val with engines := setAdd (s.units? site.val).engines engine } := by
      rw [← hv, State.units?_congr ((State.toLadder_tells (.refl _) _ _).eq State.tileUnits fun _ _ _ _ _ => rfl),
        State.units?_ashRecord, State.units?_modUnits_same, hunits]
    have hfault : (if 8 < ((u.modUnits site.val fun u => { u with engines := setAdd u.engines engine }).units? site.val).engines.length
        then v.tileFault site true else v).units? site.val = v.units? site.val := by
      split
      · exact State.units?_congr (v.tileFault_endures site true).units _
      · rfl
    rw [hfault, hvu]
    exact ⟨mem_setAdd.2 (.inl rfl), rfl⟩

end

end Sys2Proof.Machine

namespace Sys2Proof.Machine

section

variable {s : State} {site : Site}

/-! ## The rows of the faults of cores, engines and tiles -/

theorem exec_coreFault_inService {cluster core : Nat} (hut : s.underTest site = false) (hst : (s.sites.get site).state = .inService) :
    exec (.coreFault site cluster core) s = .next ((s.poisonSteps (s.holders site.val) 2).coreFaulty site cluster core) :=
  congrArg Host.Outcome.next ((if_neg (by rw [hut]; exact Bool.false_ne_true)).trans (if_pos hst))

theorem exec_engineParityError_inService {engine : Nat} (hut : s.underTest site = false) (hst : (s.sites.get site).state = .inService) :
    exec (.engineParityError site engine) s = .next (s.engineFaulty site engine) :=
  congrArg Host.Outcome.next ((if_neg (by rw [hut]; exact Bool.false_ne_true)).trans (if_pos hst))

theorem exec_tileFault_inService {serves : Bool} (hut : s.underTest site = false) :
    exec (.tileFault site serves) s = .next (s.tileFault site serves) :=
  congrArg Host.Outcome.next (if_neg (by rw [hut]; exact Bool.false_ne_true))

/-- A fenced site carries no tile. -/
theorem State.fenceSite_get (s : State) (site : Site) :
    ((s.fenceSite site).sites.get site).state = .fenced ∧ ((s.fenceSite site).sites.get site).tile = none := by
  have hget : (s.fenceSite site).sites.get site = { s.sites.get site with state := .fenced, tile := none, barred := true } := upd_get_same ..
  rw [hget]
  exact ⟨rfl, rfl⟩

theorem State.Bears.sites {t : State} (h : State.Bears s t) : t.sites = s.sites := congrArg (·.1) h.sited

theorem State.Bears.substs {t : State} (h : State.Bears s t) : t.substs = s.substs := congrArg (·.2.2.1) h.sited

theorem State.Bears.peatRetired {t : State} (h : State.Bears s t) : t.peatRetired = s.peatRetired := congrArg (·.2.2.2.2.2) h.sited

theorem State.Bears.fltCtrl {t : State} (h : State.Bears s t) : t.fltCtrl = s.fltCtrl := congrArg (·.2.2.2.2.1) h.sited

/-- A tile in service that faults: its partitions end QUARANTINED; it takes the nearest spare, or is fenced (R338, R339). -/
theorem State.tileFault_retires {serves : Bool} {tile : Nat} (hut : s.underTest site = false) (hst : (s.sites.get site).state = .inService)
    (htile : (s.sites.get site).tile = some tile) (hsub : ∀ x ∈ s.substs, x.failed ≠ site) :
    (∀ p ∈ s.holders site.val, (s.part p).st ≠ .absent → ((s.tileFault site serves).part p).st = .quarantined) ∧
      (∀ sp, s.nearestSpare site = some sp → (s.tileFault site serves).substs = s.substs ++
        [Subst.mk site (if s.fltCtrl.getLsbD 31 then some sp else none) tile serves (!s.fltCtrl.getLsbD 31)]) ∧
      (s.nearestSpare site = none → ((s.tileFault site serves).sites.get site).state = .fenced ∧
        ((s.tileFault site serves).sites.get site).tile = none) := by
  have hb := s.tileFaulted_bears site tile
  have hq := fun p hp ha => s.tileFaulted_st (site := site) tile (p := p) hp ha
  rw [State.tileFault_inService hut hst htile hsub, hb.nearestSpare]
  generalize s.tileFaulted site tile = u at hb hq ⊢
  cases hsp : s.nearestSpare site with
  | some sp =>
    refine ⟨hq, fun sp' h => ?_, nofun⟩
    obtain rfl := Option.some.inj h
    dsimp only
    rw [hb.substs, hb.fltCtrl]
  | none =>
    dsimp only
    have hfifo := State.modFifo_bears (.refl u) (fifoFor (s.holders site.val)) fun l =>
      l.filter fun e => !(e.rung == 7 && resKey 7 e.loc.toNat == site.val)
    generalize State.modFifo u _ _ = v at hfifo ⊢
    refine ⟨fun p hp ha => ?_, nofun, fun _ => ?_⟩
    · exact ((hfifo.endures.trans (v.degrade_endures site tile)).parts p).2 (hq p hp ha)
    · rw [(v.degrade_bears site tile).sites]
      exact v.fenceSite_get site

/-! ## AUTO_SPARE and the end of a substitution (R338) -/

theorem getLsbD_maskPut_set (m : W32) : (maskPut m 31 true).getLsbD 31 = true := by
  simp [maskPut]

theorem State.autoSpare_idle (h : ∀ x ∈ s.substs, x.waiting = false) : s.autoSpare = { s with fltCtrl := maskPut s.fltCtrl 31 true } := by
  have hnone : s.substs.filter (·.waiting) = [] := List.filter_eq_nil_iff.2 fun x hx hw => Bool.false_ne_true ((h x hx).symm.trans hw)
  unfold State.autoSpare
  dsimp only
  rw [hnone]
  rfl

theorem State.autoSpare_fltCtrl (s : State) : s.autoSpare.fltCtrl = maskPut s.fltCtrl 31 true := by
  refine State.foldl_unchanged State.fltCtrl _ (fun s x => ?_) _ { s with fltCtrl := maskPut s.fltCtrl 31 true }
  split
  · rfl
  · dsimp only
    rw [(State.degrade_bears _ _ _).fltCtrl]
    exact (State.modFifo_bears (.refl { s with substs := s.substs.filter fun y => y.failed ≠ x.failed }) _ _).fltCtrl

/-- One substitution that waits takes the nearest spare. -/
theorem State.autoSpare_waiting {x : Subst} {sp : Site} (hs : s.substs = [x]) (hw : x.waiting = true) (hsp : s.nearestSpare x.failed = some sp) :
    s.autoSpare = { s with fltCtrl := maskPut s.fltCtrl 31 true, substs := [{ x with spare := some sp, waiting := false }] } := by
  have hnear : State.nearestSpare { s with fltCtrl := maskPut s.fltCtrl 31 true } x.failed = some sp := hsp
  have hwaiting : s.substs.filter (·.waiting) = [x] := by rw [hs, List.filter_cons_of_pos hw, List.filter_nil]
  unfold State.autoSpare
  dsimp only
  rw [hwaiting, List.foldl_cons, List.foldl_nil, hnear]
  dsimp only
  rw [hs, List.map_singleton, if_pos rfl]

/-- The site that carries a tile from now on, and the one that did (R338 step 4). -/
theorem State.carry_get (s : State) {a b : Site} (tile : Nat) (old : SiteState) (hne : b ≠ a) :
    (((s.carry a b tile old).sites.get b).state = .inService ∧ ((s.carry a b tile old).sites.get b).tile = some tile) ∧
      (((s.carry a b tile old).sites.get a).state = old ∧ ((s.carry a b tile old).sites.get a).tile = none) ∧
      ∀ i, i ≠ b → i ≠ a → (s.carry a b tile old).sites.get i = (s.moveMasks a b).sites.get i := by
  unfold State.carry
  dsimp only
  refine ⟨?_, ?_, fun i hb ha => ?_⟩
  · rw [upd_get_same]
    exact ⟨rfl, rfl⟩
  · rw [upd_get_other _ _ _ _ hne.symm, upd_get_same]
    exact ⟨rfl, rfl⟩
  · rw [upd_get_other _ _ _ _ hb, upd_get_other _ _ _ _ ha]

/-- The end of a substitution moves the tile's number (R338 step 4). -/
theorem State.substituted_left (s : State) (x : Subst) {sp : Site} (hne : sp ≠ x.failed) :
    (((s.substituted x sp).sites.get sp).state = .inService ∧ ((s.substituted x sp).sites.get sp).tile = some x.tile) ∧
      (((s.substituted x sp).sites.get x.failed).state = .fenced ∧ ((s.substituted x sp).sites.get x.failed).tile = none) ∧
      ∀ y ∈ (s.substituted x sp).substs, y.failed ≠ x.failed := by
  unfold State.substituted
  dsimp only
  obtain ⟨hnew, hold, -⟩ := State.carry_get (if x.serves = true then s.poisonDead x.failed x.tile else s) x.tile .fenced hne
  generalize State.carry _ _ _ _ _ = v at hnew hold ⊢
  generalize hw : ({ v with sites := upd v.sites x.failed fun y => { y with barred := true } } : State) = w
  have hwnew : w.sites.get sp = v.sites.get sp := by rw [← hw]; exact upd_get_other _ _ _ _ hne
  have hwold : w.sites.get x.failed = { v.sites.get x.failed with barred := true } := by rw [← hw]; exact upd_get_same _ _ _
  generalize hz : State.toLadder _ _ _ = z
  have hbears : State.Bears w z := by
    rw [← hz]
    refine .tells ?_ (State.toLadder_tells (.refl _) _ _)
    refine .trans (.trans ?_ (State.ashRecord_bears ..)) (State.ashRecord_bears ..)
    split
    · exact .refl w
    · exact State.refillStack_bears (.refl w) _ _
  generalize hfifo : State.modFifo _ _ _ = u
  have hlast : State.Bears { z with substs := z.substs.filter fun y => y.failed ≠ x.failed } u := by
    rw [← hfifo]
    exact State.modFifo_bears (.refl _) _ _
  have hsites : u.sites = w.sites := hlast.sites.trans hbears.sites
  rw [hsites, hwnew, hwold, hlast.substs]
  exact ⟨hnew, hold, fun y hy => of_decide_eq_true (List.mem_filter.1 hy).2⟩

/-! ## Site frames (R340) -/

/-- A site-frame fault told, FATAL, and logged, before its part is retired (R340). -/
def State.frameTold (s : State) (site : Site) (part : Fin 3) : State :=
  let loc := locFrame site.val part.val
  ((s.toOwner none { code := 0x300E, sev := 5, a := loc, b := part.val }).fatalFault 0x300E loc).ashRecord 0x0B loc part.val

/-- A router out of the mesh: the detours, and the site without its tile (R340). -/
def State.routerLost (s : State) (site : Site) : State :=
  let s := { s with sites := upd s.sites site fun x => { x with routerRetired := true } }
  let s := { s with route := routeTable s.deadRouters }
  match (s.sites.get site).state with
  | .inService => s.tileFault site false
  | .spare => (s.fenceSite site).ashRecord 0x09 (locTile site.val) 0
  | .fenced => s.fenceSite site

/-- A host port lost, the management tile's repairs with it where it was its own (R340). -/
def State.hostPortLost (s : State) (p : Port) : State :=
  let s := s.modPort p fun x => { x with lost := true, linkUp := false }
  if s.power.mgmt = some p then
    { s with power := { s.power with mgmtLost := true }
             pins := { s.pins with alertStuck := true } }.assertAlert
  else s

theorem exec_frameFault {part : Fin 3} (h : ¬((part = 1 ∧ edgeSite site.val = false) ∨
    (part = 2 ∧ (([0, 1, 2, 3] : List Port).any fun p => cornerSite p == site.val) = false))) :
    exec (.frameFault site part) s = .next (s.frameFault site part) := congrArg Host.Outcome.next (if_neg h)

theorem State.frameFault_router_eq (s : State) (site : Site) : s.frameFault site 0 = (s.frameTold site 0).routerLost site := rfl

theorem State.frameFault_peat_eq (s : State) (site : Site) :
    s.frameFault site 1 = (s.frameTold site 1).retirePeat (locFrame site.val (1 : Fin 3).val) := rfl

/-- A port's corner is its own. -/
theorem find?_cornerSite (port : Port) : ([0, 1, 2, 3] : List Port).find? (fun p => cornerSite p == cornerSite port) = some port := by
  revert port
  decide

theorem mem_ports (port : Port) : port ∈ ([0, 1, 2, 3] : List Port) := List.mem_of_find?_eq_some (find?_cornerSite port)

theorem State.frameFault_port_eq (s : State) (site : Site) {port : Port} (hc : cornerSite port = site.val) :
    s.frameFault site 2 = (s.frameTold site 2).hostPortLost port := by
  have hport : ([0, 1, 2, 3] : List Port).find? (fun p => cornerSite p == site.val) = some port := hc ▸ find?_cornerSite port
  unfold State.frameFault
  dsimp only
  rw [hport]
  rfl

/-- FATAL, and every partition that there was QUARANTINED (R329). -/
def State.FatalFrom (s t : State) : Prop := t.fatal = true ∧ ∀ p, (s.part p).st ≠ .absent → (t.part p).st = .quarantined

theorem State.FatalFrom.endures {t u : State} (h : State.FatalFrom s t) (k : State.Endures t u) : State.FatalFrom s u :=
  ⟨k.fatal h.1, fun p ha => (k.parts p).2 (h.2 p ha)⟩

theorem State.frameTold_fatal (s : State) (site : Site) (part : Fin 3) : State.FatalFrom s (s.frameTold site part) := by
  have htold : State.Tells s (s.toOwner none { code := 0x300E, sev := 5, a := locFrame site.val part.val, b := part.val }) :=
    State.toOwner_tells (.refl s) none _
  refine .endures (t := (s.toOwner none { code := 0x300E, sev := 5, a := locFrame site.val part.val, b := part.val }).fatalFault 0x300E
    (locFrame site.val part.val)) ⟨State.fatalFault_fatal _ _ _, fun p ha => ?_⟩ (State.ashRecord_bears _ _ _ _).endures
  exact State.fatalFault_st _ _ p fun h => ha ((htold.st p).symm.trans h)

/-- A frame that loses its router is out of the mesh (R340). -/
theorem State.routerLost_endures (s : State) (site : Site) :
    State.Endures s (s.routerLost site) ∧ ((s.routerLost site).sites.get site).routerRetired = true := by
  obtain ⟨v, hv⟩ : ∃ v : State, v = { s with
    sites := upd s.sites site fun x => { x with routerRetired := true }
    route := routeTable (State.deadRouters { s with sites := upd s.sites site fun x => { x with routerRetired := true } }) } := ⟨_, rfl⟩
  have hrouter : (v.sites.get site).routerRetired = true := by
    rw [hv]
    exact congrArg SiteSt.routerRetired (upd_get_same s.sites site _)
  have hmesh : State.Endures s v := by
    rw [hv]
    refine ⟨rfl, fun i hi => ?_, id, fun _ => .of_eq rfl⟩
    by_cases h : i = site
    · rw [h]
      exact congrArg SiteSt.routerRetired (upd_get_same s.sites site _)
    · exact (congrArg SiteSt.routerRetired (upd_get_other s.sites site i _ h)).trans hi
  have hend (t : State) (h : State.Endures v t) : State.Endures s t ∧ (t.sites.get site).routerRetired = true :=
    ⟨hmesh.trans h, h.routers site hrouter⟩
  unfold State.routerLost
  dsimp only
  rw [← hv]
  split
  · exact hend _ (v.tileFault_endures site false)
  · exact hend _ ((v.fenceSite_endures site).trans (State.ashRecord_bears ..).endures)
  · exact hend _ (v.fenceSite_endures site)

/-- A peat tier is retired with what concerns it alone (R340). -/
theorem State.retirePeat_endures (s : State) (loc : Nat) : State.Endures s (s.retirePeat loc) ∧ (s.retirePeat loc).peatRetired = true := by
  have hretired := State.retirePeat_bears (.refl s) loc
  have hflag : State.Endures s { s with peatRetired := true } := ⟨rfl, fun _ h => h, id, fun _ => .of_eq rfl⟩
  exact ⟨hflag.trans hretired.endures, hretired.peatRetired⟩

/-- A host port that is lost has no link (R340). -/
theorem State.hostPortLost_endures (s : State) (p : Port) : State.Endures s (s.hostPortLost p) ∧
    ((s.hostPortLost p).port p).lost = true ∧ ((s.hostPortLost p).port p).linkUp = false := by
  have hport : (s.modPort p fun x => { x with lost := true, linkUp := false }).port p = { s.port p with lost := true, linkUp := false } :=
    State.port_modPort s p _
  have hlost := congrArg PortSt.lost hport
  have hlink := congrArg PortSt.linkUp hport
  unfold State.hostPortLost
  dsimp only
  split <;> exact ⟨⟨rfl, fun _ h => h, id, fun _ => .of_eq rfl⟩, hlost, hlink⟩

end

/-- Settles O41: findings under test; units lost, tiles quarantined and replaced; and site frames retired. -/
theorem unitsRetire : Obligations.UnitsRetire := by
  unfold Obligations.UnitsRetire
  refine ⟨⟨fun s site cluster core engine serves hut => ⟨?coreFinding, ?engineFinding, ?tileFinding⟩, fun s site cluster core hut hst hc hf => ?core,
      fun s site engine hut hst => ⟨_, exec_engineParityError_inService hut hst, s.engineFaulty_lost site engine⟩,
      fun s site serves tile hut hst htile hsub => ⟨_, exec_tileFault_inService hut, State.tileFault_retires hut hst htile hsub⟩⟩,
    fun s port hr => ⟨s.autoSpare, congrArg Host.Outcome.next (if_pos hr), ?_, fun h => ?_, fun x sp hs hw hsp => ?_⟩,
    fun s site sp x hm hx hsp hne => ?subst, fun s site => ⟨?router, fun hedge => ?peat, fun port hport => ?port⟩⟩
  case coreFinding => exact congrArg Host.Outcome.next (if_pos hut)
  case engineFinding => exact congrArg Host.Outcome.next (if_pos hut)
  case tileFinding => exact congrArg Host.Outcome.next (if_pos hut)
  case core =>
    have hunits := State.units?_congr (s.poisonSteps_bears (s.holders site.val) 2).endures.units site.val
    refine ⟨_, exec_coreFault_inService hut hst, ?_⟩
    rw [← hunits] at hc hf ⊢
    exact State.coreFaulty_lost _ site hc hf
  · rw [State.autoSpare_fltCtrl]
    exact getLsbD_maskPut_set _
  · rw [State.autoSpare_idle h]
  · rw [State.autoSpare_waiting hs hw hsp]
  case subst =>
    have hfailed : x.failed = site := by
      have := List.find?_some hx
      simp only [Bool.and_eq_true, beq_iff_eq] at this
      exact this.1
    obtain ⟨⟨hstate, htile⟩, ⟨hfenced, hnone⟩, hgone⟩ := s.substituted_left x (sp := sp) (hfailed ▸ hne)
    rw [hfailed] at hfenced hnone hgone
    refine ⟨s.substituted x sp, congrArg Host.Outcome.next ?_, hstate, htile, hfenced, hnone, hgone⟩
    rw [hx]
    dsimp only
    rw [hsp]
    exact if_neg (by rw [hm]; exact Bool.false_ne_true)
  case router =>
    obtain ⟨hkept, hrouter⟩ := (s.frameTold site 0).routerLost_endures site
    obtain ⟨hfatal, hst⟩ := (s.frameTold_fatal site 0).endures hkept
    refine ⟨s.frameFault site 0, exec_frameFault ?_, ?_⟩
    · rintro (⟨h, -⟩ | ⟨h, -⟩) <;> exact absurd h (by decide)
    rw [State.frameFault_router_eq]
    exact ⟨hfatal, hrouter, hst⟩
  case peat =>
    obtain ⟨hkept, hretired⟩ := (s.frameTold site 1).retirePeat_endures (locFrame site.val (1 : Fin 3).val)
    obtain ⟨hfatal, hst⟩ := (s.frameTold_fatal site 1).endures hkept
    refine ⟨s.frameFault site 1, exec_frameFault ?_, ?_⟩
    · rintro (⟨-, h⟩ | ⟨h, -⟩)
      · exact Bool.false_ne_true (h.symm.trans hedge)
      · exact absurd h (by decide)
    rw [State.frameFault_peat_eq]
    exact ⟨hfatal, hretired, hst⟩
  case port =>
    obtain ⟨hkept, hlost, hlink⟩ := (s.frameTold site 2).hostPortLost_endures port
    obtain ⟨hfatal, hst⟩ := (s.frameTold_fatal site 2).endures hkept
    refine ⟨s.frameFault site 2, exec_frameFault ?_, ?_⟩
    · rintro (⟨h, -⟩ | ⟨-, h⟩)
      · exact absurd h (by decide)
      · rw [← hport] at h
        exact absurd (List.any_eq_false.1 h port (mem_ports port)) (by simp)
    · rw [State.frameFault_port_eq s site hport]
      exact ⟨hfatal, hlost, hlink, hst⟩

end Sys2Proof.Machine

namespace Sys2Proof.Machine

/-! ## A `BIST_RUN` of TILE 64 (R86, R369)

The stack of a site that carries no tile stands at 64 + the number of the site (R86), and `State.siteOf` answers that site for it; the
self-test knows logical tiles alone, numbered below 64. -/

/-- A `BIST_RUN` whose TILE is 64. -/
def bistSiteCmd : Cmd := { id := 0, queue := 0, opcode := 0x50, flags := 0, tag := 0, request := 0, model := 0, body := [64] }

/-- The module as it comes out of reset, with that command of its owner taken: site 0 is out of service, and no self-test runs. -/
def bistSiteState : State := { State.reset with ownerTaken := [bistSiteCmd] }

/-- Surroundings too hot for a self-test (R367). -/
def bistHotEnv : BistEnv := { supply := 0, clock := 0, temp := 85 }

/-- TILE 64 names site 0, and still no tile to test: the command completes BAD_FIELD. -/
theorem exec_bistRun_site : exec (.bistRun .owner bistHotEnv) bistSiteState = .next (bistSiteState.done .owner bistSiteCmd stBadField) := rfl

/-- A command that completes leaves self-test as it was. -/
theorem State.done_bist (s : State) (c : Cmd) (status b : Nat) : (s.done .owner c status b).bist = s.bist :=
  (s.done_tells .owner c status b).eq (·.bist) fun _ _ _ _ _ => rfl

/-- Refutes O45: where TILE is 64 and site 0 is out of service, `State.siteOf` answers a site, as the statement asks, but the command completes
BAD_FIELD, its limits unchecked, and LAST_RESULT stays 0 where the statement has 4 for failing limits. -/
theorem not_selfTestRuns : ¬ Obligations.SelfTestRuns := by
  unfold Obligations.SelfTestRuns
  rintro ⟨hrun, -⟩
  have hsite : bistSiteState.siteOf (bistSiteCmd.f 16 1) = some 0 := by rfl
  obtain ⟨t, hexec, -, hlimits, -, -⟩ := hrun bistSiteState .owner bistSiteCmd bistHotEnv 0 rfl nofun (by decide) rfl hsite
  obtain rfl : bistSiteState.done .owner bistSiteCmd stBadField = t := Host.Outcome.next.inj (exec_bistRun_site.symm.trans hexec)
  obtain ⟨hbist, -⟩ := hlimits rfl (by decide)
  have hresult := congrArg Bist.lastResult hbist
  rw [State.done_bist] at hresult
  exact absurd hresult (by decide)

end Sys2Proof.Machine
